-- ==== Sys2Proof/Word.lean ====
section
/-! DEFINITION. The word types of the PN-880 and the plain lists of bytes its packets, rings and media are made of (R9, R12). -/

namespace Sys2Proof

/-- One byte. -/
abbrev Byte := BitVec 8

/-- A 32-bit word. -/
abbrev Word32 := BitVec 32

/-- A 64-bit control register or scalar register (R12, R269). -/
abbrev Word := BitVec 64

/-- A byte string, lowest address first (R9). -/
abbrev Bytes := List Byte

end Sys2Proof
end

