-- ==== Sys2Proof/Syntax.lean ====
section
/-! DEFINITION. The commands of the block: one constructor of `Instr` for each row of spec/opcode_table.json, with
the operands an outside agent supplies (a packet's bytes, a sensor's value, a selector of the unit concerned).
Where the spec's effect reads the clock, `dt` is the time in ns that has passed since the last step. -/

namespace Sys2Proof

/-- The kinds of crossing FIFO of Table 16-2 (R476). -/
inductive CrossingKind where
  | hbm | ddr5 | nand | jugan | ccl | dieToDie | mgmtFlash | stationClock
  deriving DecidableEq, Repr

/-- One crossing: its kind and its number within the kind (R476). -/
structure Crossing where
  kind : CrossingKind
  index : Nat
  deriving DecidableEq, Repr

/-- What one direction of an alignment attempt shows (R478): the training words the far side read, and the latency L. -/
structure AlignPass where
  words : List (BitVec 16)
  latency : Nat
  deriving DecidableEq, Repr

/-- What the Stationmaster finds on one DDR5 channel (R482). -/
structure DimmInfo where
  channel : Nat
  /-- Number of DIMMs the channel carries; more than one puts it out of service. -/
  dimms : Nat
  /-- True for MRDIMM, false for RDIMM. -/
  mrdimm : Bool
  /-- Highest rate in MT/s the SPD allows. -/
  rate : Nat
  /-- Ranks of the DIMM. -/
  ranks : Nat
  /-- Bytes of one rank. -/
  rankBytes : Nat
  /-- The channel's training succeeded. -/
  trained : Bool
  deriving DecidableEq, Repr

/-- What a NAND channel's parameter pages state (Table 12-1). -/
structure NandInfo where
  packages : Nat
  chipEnables : Nat
  dies : Nat
  mts : Nat
  toggle : Bool
  /-- Bits per cell: 3 for TLC, 4 for QLC. -/
  cellBits : Nat
  pageBytes : Nat
  spareBytes : Nat
  /-- Native pages per block. -/
  ppb : Nat
  /-- Blocks of a die. -/
  blocks : Nat
  /-- ONFI model code of the dies. -/
  model : Nat
  /-- Rated program and erase cycles that the parameter page states. -/
  endurance : Nat
  deriving DecidableEq, Repr

/-- One slot of physical flash: lane address of Table 12-2. -/
structure Pua where
  ch : Nat
  die : Nat
  slot : Nat
  deriving DecidableEq, Repr

/-- How far a SEARCH row carries its query (R149): to the Hamming cut, through stage 1, or to the result. -/
inductive SearchStop where
  | cut | stage1 | result
  deriving DecidableEq, Repr

/-- Disagreements that the checkers of a search or Selector call see (R66, R145). -/
inductive CheckEvent where
  /-- No checker disagreed. -/
  | clean
  /-- One disagreement; the repeat agreed. -/
  | first
  /-- The repeat disagreed as well. -/
  | second
  deriving DecidableEq, Repr

/-- The cause of a device reset (Table 16-8, KIND). -/
inductive ResetCause where
  | powerOn | resetN | request | thermtrip | brownout | watchdog
  deriving DecidableEq, Repr

/-- Who issues a register write (R18). -/
inductive Source where
  | ccl0 | ccl1 | stationmaster
  deriving DecidableEq, Repr

/-- The fault classes of Table 17-1. -/
inductive FaultClass where
  | corrected | transient | permanent | check | quarantine | fatal
  deriving DecidableEq, Repr

/-- How far a clear comes (R539): every access unit zeroed and read back as zero, a read-back that failed, or still under way. -/
inductive ClearEnd where
  | cleared | failed | underWay
  deriving DecidableEq, Repr

/-- A JTAG operation (R552). -/
inductive JtagOp where
  | boundaryScan
  | idcode
  | haltFrame (frame : Nat)
  | readReg (offset : Nat)
  | writeReg (offset : Nat) (value : Word)
  | readMem (alloc : Nat) (offset : Nat) (len : Nat)
  | writeMem (alloc : Nat) (offset : Nat) (data : Bytes)
  | recovery (entry : Bytes) (payload : Bytes)
  deriving DecidableEq, Repr

/-- A memory site that a scrub or an access names (Table 11-1): an SRAM word, a DRAM unit or a flash unit. -/
structure MemSite where
  tier : Nat
  /-- Allocation that holds the site; 0 for none. -/
  alloc : Nat
  /-- Byte offset of the site within the allocation. -/
  offset : Nat
  /-- Unit id (Table 17-2) of the memory unit that holds the site. -/
  unit : Nat
  deriving DecidableEq, Repr

/-- What an error code finds at a site (R354). -/
inductive EccResult where
  | good
  /-- A corrected error. -/
  | corrected
  /-- An uncorrectable error. -/
  | uncorrectable
  deriving DecidableEq, Repr

/-- The step of Table 12-8 at which a slot read succeeds; `none` stands for step 5. -/
inductive LadderStep where
  | hard (correctedBits : Nat)
  | retry (attempts : Nat) (correctedBits : Nat)
  | soft
  | parity
  | lost
  deriving DecidableEq, Repr

/-- The draw the governor attributes to one slice over the last 1 ms (R560), in W. -/
structure SliceDraw where
  slice : Nat
  watts : Nat
  deriving DecidableEq, Repr

/-- A reading of one device on the I3C bus (R574). -/
structure I3cReading where
  /-- DDR5 channel of the SPD hub, if the device is one. -/
  channel : Option Nat
  /-- Temperature in units of 0.125 degrees. -/
  temp : Int
  /-- Raw 16-bit reading. -/
  raw : BitVec 16
  deriving DecidableEq, Repr

/-- What GATHER_SERVE serves (R163): a call of a frame of this device, with the rows that other shards return in the order in which the call
names them (two bytes stand for a refusal's status), or a gather that another device of the set sends. -/
inductive GatherReq where
  | call (id : Nat) (remote : List Bytes)
  | device (table : Nat) (epoch : Option Nat) (rows : List Nat)
  deriving DecidableEq, Repr

/-- What SCATADD_ACCUMULATE takes (R165): a call of a frame of this device, with the statuses that the other owners answer, or a
contribution that another device of the set sends. -/
inductive ScatReq where
  | call (id : Nat) (replies : List Nat)
  | device (table : Nat) (epoch : Option Nat) (row src pos : Nat) (scale : Nat) (codes : List Nat)
  deriving DecidableEq, Repr

/-- What another device of a table's set tells of a row (R161, R169, R173). -/
inductive RowNews where
  /-- T has installed the row that this device migrates. -/
  | confirmed
  /-- T has been retired or fenced. -/
  | lost
  /-- A directory entry: the shard that holds the row from epoch `em` on (none: replicated), and the row's image where this device gets it. -/
  | entry (place : Option Nat) (em : Nat) (image : Option (Bytes × Bytes))
  /-- The entry in force holds no longer from epoch `ee` on. -/
  | ended (ee : Nat) (image : Option (Bytes × Bytes))
  /-- The owner's update of a replicated row. -/
  | image (value state : Bytes)
  /-- The entry of epoch `em` is removed. -/
  | removed (em : Nat)
  deriving DecidableEq, Repr

/-- The commands of the PN-880, row by row of spec/opcode_table.json. DESIGN CHOICE: log entry 118. -/
inductive Instr where
  -- start-up, resets and power (chapters 16 and 20)
  | powerOnReset
  | crossingAlignAttempt (x : Crossing) (pllLocked : Bool) (passes : List AlignPass)
  | crossingAlignRetry (x : Crossing) (pllLocked : Bool) (passes : List AlignPass)
  | hbmTraining (stack : Nat) (failing : List Nat)
  | ddr5Training (dimms : List DimmInfo)
  | nandChannelTraining (jd ch : Nat) (info : NandInfo) (trained : Bool)
  | portTraining (port : Nat) (farEnd : Bool) (lanesOk : BitVec 4)
  | portTrainingRepeat (port : Nat) (farEnd : Bool) (lanesOk : BitVec 4)
  | startupCanaries (failing : List (Nat × Nat))
  | laneRebuild (jd lane : Nat) (unreadable : List Pua) (failedDies : List (Nat × Nat)) (ms : Nat)
  | deviceReady (dt : Nat)
  | resetNAssert (lowNs : Nat)
  | deviceReset (cause : ResetCause)
  | watchdogReset
  | undervoltageShutdown (millivolts heldNs : Nat) (holdUp : Bool)
  | overvoltageShutdown (millivolts heldNs : Nat) (holdUp : Bool)
  | pwrfailEdge
  | refclk100Loss
  | refclk156Loss (jd : Nat)
  | refclk156Return (jd : Nat)
  | pigtailFitted (port : Nat) (farEnd : Bool) (lanesOk : BitVec 4)
  | thermalSample (diodes : List Int)
  | thermtripReset
  | sensePublish (dt : Nat) (diodes : List Int) (volts milliamps deciwatts : Nat) (railAmps : List Nat) (rails i3c : List (BitVec 16))
  | i3cPoll (readings : List I3cReading)
  | i3cHotJoin (device : Nat)
  | governorPass (draws : List SliceDraw) (inputDeciwatts : Nat)
  | railStep (inputDeciwatts : Nat)
  | ptpSync (dt : Nat) (offsetNs : Int)
  | ptpLockLoss (dt : Nat)
  | ppsInEdge (dt : Nat) (offsetNs : Int)
  | ppsOutEdge
  -- control ports, registers and rings (chapters 0 and 15)
  | cclWrite (port : Nat) (packet : Bytes) (dt : Nat)
  | cclRead (port : Nat) (packet : Bytes)
  | registerWrite (src : Source) (offset len : Nat) (data : Word)
  | seal (data : Word)
  | ringEnable (r : Nat) (data : Word)
  | ringDisable (r : Nat) (data : Word)
  | opkeyWrite (i : Nat) (data : Word)
  | keyCommit (data : Word)
  | isolWrite (data : Word)
  | tktholdWrite (data : Word)
  | repairRateWrite (data : Word)
  | logselWrite (data : Word)
  | policerWrite (ccl : Bool) (port cls : Nat) (data : Word)
  | cbsWrite (port cls : Nat) (data : Word)
  | weightWrite (port cls : Nat) (data : Word)
  | ringScan (r : Nat) (dt : Nat)
  | commandStart (r seq : Nat)
  | commandComplete (r seq : Nat) (dt : Nat)
  -- operators (ring 64 stands for the management port, R572)
  | nop (r seq : Nat)
  | search (r seq : Nat) (upto : SearchStop) (bead sel : CheckEvent)
  | rerankStage1 (r seq : Nat)
  | rerankStage2 (r seq : Nat)
  | insert (r seq : Nat)
  | delete (r seq : Nat)
  | update (r seq : Nat)
  | vectorWriteAck (r seq : Nat) (dt : Nat)
  | commitGroupClose (index : Nat) (dt : Nat)
  | groupPublish (index : Nat)
  | logRecordAck (index : Nat)
  | sidingSeal (index : Nat)
  | mergeForwardSearch (index : Nat) (point : Nat)
  | mergeListCompute (index : Nat)
  | listPublication (index : Nat)
  | bufferFree (index : Nat)
  | repairList (index : Nat)
  | reclaim (index : Nat) (id : Nat)
  | indexLoad (r seq : Nat)
  | indexSave (r seq : Nat)
  | indexClose (r seq : Nat)
  | indexCreate (r seq : Nat)
  | tableOpen (r seq : Nat)
  | tableClose (r seq : Nat)
  | seqOpen (r seq : Nat)
  | seqClose (r seq : Nat)
  | kvappend (r seq : Nat)
  | attend (r seq : Nat) (remote : List Bytes) (sel : CheckEvent)
  | load (r seq : Nat)
  | run (r seq : Nat)
  | runStart (r seq : Nat)
  | unload (r seq : Nat)
  | jobBind (r seq : Nat)
  | jobUnbind (r seq : Nat)
  | exportPages (r seq : Nat)
  | free (r seq : Nat)
  -- critical commands (chapters 12 to 14, 18 and 19)
  | fwStage (r seq : Nat)
  | fwActivateTrial (r seq : Nat)
  | fwActivateCommit (r seq : Nat)
  | fwActivateRevert (r seq : Nat)
  | activationStandbyRestart (verified : Bool)
  | activationHandover
  | activationActiveRestart (verified : Bool)
  | activationHandback
  | trialTimeout (dtSec : Nat)
  | tenantCreate (r seq : Nat) (failedClears : List Nat)
  | tenantAmend (r seq : Nat) (failedClears : List Nat)
  | tenantDestroy (r seq : Nat) (failedClears : List Nat)
  | destroyResume (slice : Nat) (failedClears : List Nat)
  | unitClear (unit fromSlice toSlice cause : Nat) (outcome : ClearEnd) (dt : Nat)
  | keyRotate (r seq : Nat)
  | sliceKey (r seq : Nat)
  | nsErase (r seq : Nat)
  | fence (r seq : Nat)
  | scrubClearSuspect (r seq : Nat)
  | scrubPatrol (r seq : Nat)
  | epochSet (r seq : Nat)
  | ttCommit (r seq : Nat) (dt : Nat)
  | debugCtl (r seq : Nat)
  -- shaping and timetables (chapter 14)
  | timetableSwitch (list : Nat) (dt : Nat)
  | timetableEntryBegin (list : Nat) (dt : Nat)
  | egressBegin (port : Nat) (dt : Nat)
  | egressEnqueue (port cls : Nat) (packet : Bytes) (dt : Nat)
  -- Jugan Link fabric (chapter 13)
  | flitReceive (port : Nat) (flit : Bytes)
  | nak (port : Nat) (seq : Nat)
  | inboundRead (port : Nat) (packet : Bytes) (dt : Nat)
  | inboundWrite (port : Nat) (packet : Bytes) (dt : Nat)
  | inboundAtomic (port : Nat) (packet : Bytes) (dt : Nat)
  | inboundMsg (port : Nat) (packet : Bytes) (dt : Nat)
  | laterEpochHoldExpiry (hold : Nat) (dt : Nat)
  | readReply (packet : Bytes)
  | writeAck (packet : Bytes)
  | atomicReply (packet : Bytes) (dt : Nat)
  | msgAck (packet : Bytes) (dt : Nat)
  | msgResend (req : Nat) (dt : Nat)
  | atomicRetryTimeout (req : Nat) (dt : Nat)
  | requestUnreachable (req : Nat) (dt : Nat)
  | writeAckTimeout (req : Nat) (dt : Nat)
  | lease (packet : Bytes) (dt : Nat)
  | leaseExpiry (dt : Nat)
  | fencePacket (packet : Bytes)
  | epochSetPart (packet : Bytes)
  | quiesce
  | quiesceDepotFlush
  | barArrive (packet : Bytes)
  | barRelease (packet : Bytes)
  | barBreak (packet : Bytes)
  | laneRetireRetrain (port : Nat) (lanesOk : BitVec 4)
  | rsEncode (jd group stripe gen : Nat) (data : List Bytes) (acked : List Bool)
  | rsReconstruct (jd group stripe : Nat) (units : List (Option Bytes)) (role : Nat)
  | spareAssign (group members member : Nat)
  -- management port, resets and the Stationmaster (chapters 16 to 19)
  | mgmtCommand (msg : Bytes)
  | deviceResetRequest (msg : Bytes)
  | sliceReset (slice : Nat)
  | frameReset (frame : Nat)
  | portReset (port alignFails : Nat) (farEnd : Bool) (lanesOk : BitVec 4)
  | depotReset (jd : Nat) (alignFails : List (Nat × Nat)) (untrained : List Nat) (unreadable : List Pua) (failedDies : List (Nat × Nat))
      (ms : Nat)
  | attest (msg : Bytes)
  | faultAck (msg : Bytes)
  | logread (msg : Bytes)
  | readreg (msg : Bytes)
  | faultResend
  | recoveryService (jtag : Bool) (msg : Bytes)
  | logAppend (typ : Nat) (body : Bytes)
  | logProgram
  | logOverflow
  | standbyHeartbeatMiss (missed : Nat) (imageFailed : Bool)
  | takeover
  | standbyMirror
  | windowSave
  | transientEvent (unit source : Nat) (dt : Nat)
  | unitRetire (unit source : Nat)
  | memoryUnitDrain (unit : Nat)
  | frameQuarantine (frame : Nat)
  | pendingRetire (frame : Nat)
  | runRestart (run : Nat)
  | runRetired (run : Nat)
  | faultRecord (unit : Nat) (cls : FaultClass) (source pattern slice addr : Nat)
  | canaryStart (unit cls number : Nat)
  | canaryComplete (unit : Nat) (digest : BitVec 128) (stored : BitVec 128)
  | canaryAbort (unit : Nat)
  | shadowCompare (run origin : Nat) (agree : Bool) (cls : Nat)
  | shadowThirdCompute (run origin shadow third : Nat) (originOk shadowOk : Bool) (cls : Nat)
  -- frames and their units (chapters 7, 9 and 10)
  | bundleIssue (frame : Nat) (dt : Nat)
  | mmaSlabAdd (frame : Nat) (residueFailures : Nat)
  | carryCheckMismatch (frame : Nat) (failures : Nat)
  | windowFetchDone (run alloc layer : Nat)
  | walk (shunter call : Nat)
  | walkRound (shunter call : Nat) (bead : CheckEvent)
  | sweep (shunter : Nat) (calls : List Nat)
  | topkCall (selector call : Nat) (sel : CheckEvent)
  | mergeCall (selector call : Nat) (sel : CheckEvent)
  | gatherServe (req : GatherReq)
  | scataddAccumulate (req : ScatReq)
  | apply (call oldest : Nat)
  | tableIntervalEnd (table : Nat) (totals : List Nat)
  | rowMigrationCopy (table row target : Nat)
  | migrationInstall (table row : Nat) (news : RowNews)
  | migrationFree (table row : Nat)
  | runTimeout (run : Nat) (dt : Nat)
  | barTimeout (run : Nat) (dt : Nat)
  | peerHalt (run : Nat) (dt : Nat)
  | runComplete (run : Nat)
  -- memory tiers (chapter 11)
  | tierIntervalEnd
  | pageMoveCopyDone (page : Nat)
  | pageMoveSourceFree (page : Nat)
  | sramScrub (site : MemSite) (found : EccResult)
  | dramPatrol (site : MemSite) (found : EccResult) (last : Bool)
  | blockEncode (engine alloc block : Nat) (selfCheckOk : Bool)
  | blockDecode (engine alloc block : Nat) (payload : Bytes) (descriptor : Word) (secondOk : Bool)
  -- flash Depot (chapter 12)
  | batchClose (jd lane : Nat) (place : List Pua) (parity : Pua) (dt : Nat)
  | batchProgramDone (jd lane : Nat) (batch : Nat)
  | programFailure (jd lane : Nat) (batch : Nat) (ch die block : Nat) (place : List Pua)
  | eraseFailure (jd lane : Nat) (ch die block : Nat)
  | blockCloseVerify (jd lane : Nat) (ch die block : Nat) (weak place : List Pua)
  | fold (jd lane : Nat) (ch die block : Nat) (place : List Pua)
  | garbageCollect (jd lane : Nat) (place : List Pua)
  | blockErase (jd lane : Nat) (ch die block : Nat)
  | journalFlush (jd lane : Nat) (next : List (Nat × Nat × Nat)) (dt : Nat)
  | checkpointSegment (jd lane : Nat) (ns segment : Nat)
  | counterCheckpoint (jd lane : Nat)
  | superblockUpdate (jd lane : Nat)
  | slotRead (jd ns unit : Nat) (step : LadderStep)
  | blockRefresh (jd lane : Nat) (ch die block : Nat) (place : List Pua)
  | mediaPatrol (jd lane : Nat) (steps : List (Pua × LadderStep))
  | dieRetire (jd : Nat) (ch : Nat) (die : Option Nat) (unreadable place : List Pua)
  | namespaceDestroy (jd ns : Nat)
  | keyTableUpdate (jd : Nat)
  | nandTempRead (jd : Nat) (temps : List Int)
  -- ownership of request state (chapter 17)
  | ownershipClaim (reqid owner epoch hseq phase job : Nat)
  | claimReceive (reqid claimant epoch hseq newEpoch newHseq : Nat)
  | stateReadDone (reqid outcome : Nat)
  | ownershipDone (reqid sender epoch hseq : Nat)
  | claimRepeat (reqid : Nat)
  | handedExpiry (reqid : Nat) (dt : Nat)
  -- later rows of the table
  | sliceTelemetryUpdate (dt : Nat)
  | portLinkLoss (port : Nat)
  | refclk100Return
  | jtagAccess (op : JtagOp)
  | nandCommandTimeout (jd ch die : Nat) (cleared : Bool) (dt : Nat)
  | stationmasterWatchdogExpiry (which : Nat) (dt : Nat)
  | standbySyncDone
  | correctedSummary (unit count : Nat)
  | tenantUnitWaitTimeout (r seq : Nat)
  deriving DecidableEq, Repr

end Sys2Proof
end

