-- ==== Sys2Proof/Decode.lean ====
section
/-! DEFINITION. The words of the opcode table: its rows give a command no bits, since the device takes its commands as
packets, register writes, ring entries and events, not as encoded words; so no word spells a command. -/

namespace Sys2Proof

/-- The command that a word spells by the opcode table's bits: no row of the table gives bits, so there is none.
DESIGN CHOICE: log entry 3. -/
def decodeTableWord (_nbits _w : Nat) : Option Instr := none

end Sys2Proof
end

