-- ==== Sys2Proof/Config.lean ====
section
/-! DEFINITION. What one part or one implementation fixes and the manual leaves open: constants without a body, so that no
proof can see their values. The free values are applied to the operands they depend on or to the counter `freeCtr` of State. -/

namespace Sys2Proof.Config

/-- Whether a Falcon-1024 signature in padded form verifies: public key, message, signature (R474, R545). PRESUMED: log entry 50. -/
opaque falconVerify : Bytes → Bytes → Bytes → Bool

/-- The Falcon-1024 public key generated from a seed (Table 18-5). PRESUMED: log entry 50. -/
opaque falconPublic : Bytes → Bytes

/-- The Falcon-1024 signature over a message under the key generated from a seed; the number is the count of draws made from
the random source (R541). PRESUMED: log entry 50. -/
opaque falconSign : Bytes → Bytes → Nat → Bytes

/-- The Comaxa firmware key that the boot ROM holds (R474). DESIGN CHOICE: log entry 122. -/
opaque firmwareKey : Bytes

/-- Byte `i` of the device key DK, which the SRAM PUF of JD0 gives (Table 18-5). DESIGN CHOICE: log entry 122. -/
opaque deviceKeyByte : Nat → Byte

/-- Byte `i` of draw `n` of the Stationmaster's random source (R541). DESIGN CHOICE: log entry 122. -/
opaque randomByte : Nat → Nat → Byte

/-- Whether a RESET_N pulse of 4 µs or more and below 6 µs resets: it varies from pulse to pulse (R587).
DESIGN CHOICE: log entry 15. -/
opaque freeResetPulse : Nat → Bool

/-- Whether an input within the tolerance of a shutdown threshold of Table 20-3 shuts the package down.
DESIGN CHOICE: log entry 15. -/
opaque freeShutdown : Nat → Bool

/-- GLB_RESETCAUSE.KIND after the device reset that a loss of REFCLK100 leads to, less 1 and reduced to its six codes: R589 names the
reset, and Table 16-8 no code for it. DESIGN CHOICE: log entry 16. -/
opaque freeResetKind : Nat → Nat

/-- By how many ns the station clock slews after an offset, reduced to what 200 ppm and the offset allow (R575 gives the bound only).
DESIGN CHOICE: log entry 35. -/
opaque freeSlew : Nat → Nat

/-- The 15 ASCII characters of the GeneralizedTime of a station-clock second (R548): the manual names no calendar epoch.
DESIGN CHOICE: log entry 48. -/
opaque generalizedTime : Nat → Bytes

/-- The four bytes of the JTAG identification register (R552 offers identification and gives no code).
DESIGN CHOICE: log entry 48. -/
opaque jtagIdcode : Bytes

/-- What a boundary scan shifts out (R552: the manual gives no scan chain), at a draw. DESIGN CHOICE: log entry 48. -/
opaque boundaryScan : Nat → Bytes

/-- Whether a node is a member of an epoch, as far as the manual lets the device know it (R416, R522).
DESIGN CHOICE: log entry 94. -/
opaque isMember : Nat → Nat → Bool

/-- The thermal diode nearest a unit (R513): the manual does not map units to diodes. DESIGN CHOICE: log entry 121. -/
opaque nearestDiode : Nat → Nat

/-- The number of the canary of a class that every unit runs at step 8 of Table 16-1 (R513: it lies in the firmware image).
DESIGN CHOICE: log entry 25. -/
opaque canaryNumber : Nat → Nat

/-- The class of the fault records that ownership events write, reduced to the six codes of Table 17-1, none of which describes them (R521,
R522). DESIGN CHOICE: log entry 113. -/
opaque ownershipClass : Nat

/-- The memory unit of its slice and tier that holds a page of an allocation at its placement, as a number that is reduced to
the units there are: the manual does not say which unit a page takes (R340). DESIGN CHOICE: log entry 56. -/
opaque pageUnit : Nat → Nat → Nat

/-- The memory unit that a drained page moves to, reduced in the same way (R506). DESIGN CHOICE: log entry 56. -/
opaque drainUnit : Nat → Nat

/-- The sign of a quiet NaN that an operation makes out of operands without a NaN, or out of NaNs of both signs, from the codes
of the operands (R181, R314: the manual gives the sign of an input's NaN only). DESIGN CHOICE: log entry 106. -/
opaque nanSign : List Nat → Bool

/-- The term of a slab sum for a product of two infinities, from the two operand codes (R214 states none).
DESIGN CHOICE: log entry 106. -/
opaque infProduct : Nat → Nat → Int

/-- Which elements a QCVT that meets a NaN under TRAP has converted, from a draw and the element's index (R182).
DESIGN CHOICE: log entry 106. -/
opaque trapSubset : Nat → Nat → Bool

/-- Bytes that a command takes in the change log, from its inserted points, its deleted ids and the sketch's bytes (R99: the manual
gives a record's contents and not its layout). DESIGN CHOICE: log entry 69. -/
opaque logBytes : Nat → Nat → Nat → Nat

/-- The INT8 code of a moment that R167 states no code for: its block scale rounds to 0, or the moment or the scale is no number; from the
FP32 codes of the moment and of its block's greatest magnitude. DESIGN CHOICE: log entry 87. -/
opaque momentCode : Nat → Nat → Nat

/-- Element of the mean of the left-out values where R248 states none: no key is left out, or a value is no finite number; from a draw and
the element's index. DESIGN CHOICE: log entry 90. -/
opaque freeMean : Nat → Nat → Nat

/-- The correction of R247 where G is no number. DESIGN CHOICE: log entry 90. -/
opaque freeCorrection : Nat → Nat

end Sys2Proof.Config
end

