-- ==== Sys2Proof/Machine/Bits.lean ====
section
/-! DEFINITION. Bit fields, byte order and padding, said once (R9: multi-byte values are little-endian). -/

namespace Sys2Proof.Machine

/-- The unsigned number whose little-endian bytes are `bs` (R9). -/
def leNat : Bytes → Nat
  | [] => 0
  | b :: bs => b.toNat + 256 * leNat bs

/-- The `n` little-endian bytes of `v` (R9). -/
def leBytes : Nat → Nat → Bytes
  | 0, _ => []
  | n + 1, v => BitVec.ofNat 8 v :: leBytes n (v / 256)

/-- The `n` bytes from offset `off` of a byte string; bytes past its end read 0. -/
def bytesAt (bs : Bytes) (off n : Nat) : Bytes :=
  let t := (bs.drop off).take n
  t ++ List.replicate (n - t.length) 0

/-- The little-endian number in the `n` bytes at offset `off`. -/
def leAt (bs : Bytes) (off n : Nat) : Nat := leNat (bytesAt bs off n)

/-- Bits `[lo + w - 1 : lo]` of `v`. -/
def bitsOf (v lo w : Nat) : Nat := v / 2 ^ lo % 2 ^ w

/-- Bit `i` of `v`. -/
def bitOf (v i : Nat) : Bool := v / 2 ^ i % 2 = 1

/-- `v` with bits `[lo + w - 1 : lo]` replaced by the low bits of `x`. -/
def setBitsOf (v lo w x : Nat) : Nat :=
  v - bitsOf v lo w * 2 ^ lo + x % 2 ^ w * 2 ^ lo

/-- Least multiple of `k` at or above `n`. -/
def roundUp (n k : Nat) : Nat := (n + k - 1) / k * k

/-- ⌈a / b⌉. -/
def ceilDiv (a b : Nat) : Nat := (a + b - 1) / b

/-- `bs` followed by zero bytes up to a multiple of `k`. -/
def padTo (bs : Bytes) (k : Nat) : Bytes := bs ++ List.replicate (roundUp bs.length k - bs.length) 0

/-- All bytes are 0. -/
def allZero (bs : Bytes) : Bool := bs.all fun b => decide (b = 0)

/-- The two's complement reading of the low `w` bits of `v`. -/
def toSigned (v w : Nat) : Int :=
  if v % 2 ^ w < 2 ^ (w - 1) then (v % 2 ^ w : Nat) else ((v % 2 ^ w : Nat) : Int) - 2 ^ w

/-- The low `w` bits of an integer's two's complement. -/
def ofSigned (v : Int) (w : Nat) : Nat := (v % (2 ^ w : Int)).toNat

/-- Clamp to `[lo, hi]`. -/
def clampInt (v lo hi : Int) : Int := if v < lo then lo else if hi < v then hi else v

/-- Number of one bits among the low `n` bits of `v`. -/
def popcount : Nat → Nat → Nat
  | 0, _ => 0
  | n + 1, v => v % 2 + popcount n (v / 2)

/-- The positions of the one bits among the low `n` bits of `v`, rising from `i`. -/
def onesFrom : Nat → Nat → Nat → List Nat
  | 0, _, _ => []
  | n + 1, i, v => if v % 2 = 1 then i :: onesFrom n (i + 1) (v / 2) else onesFrom n (i + 1) (v / 2)

/-- The number whose one bits are the positions of a list. -/
def maskOf : List Nat → Nat
  | [] => 0
  | i :: is => 2 ^ i ||| maskOf is

/-- Cut a list into pieces of `k`, at most `fuel` of them. -/
def chunks {α : Type} (k : Nat) : Nat → List α → List (List α)
  | 0, _ => []
  | _, [] => []
  | fuel + 1, l => l.take k :: chunks k fuel (l.drop k)

/-- The sum of a list. -/
def sumNat (l : List Nat) : Nat := l.foldl (· + ·) 0

/-- The largest of a list, 0 for none. -/
def maxNat (l : List Nat) : Nat := l.foldl max 0

/-- ASCII bytes of a name. -/
def ascii (t : String) : Bytes := t.toList.map fun c => BitVec.ofNat 8 c.toNat

/-- Insertion of `x` into a list sorted by `lt`, before its equals. -/
def insertBy {α : Type} (lt : α → α → Bool) (x : α) : List α → List α
  | [] => [x]
  | y :: ys => if lt y x then y :: insertBy lt x ys else x :: y :: ys

/-- Stable sort by `lt`. -/
def sortBy {α : Type} (lt : α → α → Bool) : List α → List α
  | [] => []
  | x :: xs => insertBy lt x (sortBy lt xs)

end Sys2Proof.Machine
end

