-- ==== Sys2Proof/Machine/Crypto.lean ====
section
/-! DEFINITION. SHAKE256 and KMAC256 (R9, R466, R542), CRC-32C (R346, R366), and the two finite fields of the device:
GF(2⁸) of the Reed-Solomon groups (R422) and GF(2¹²⁸) of the tally digests (R232). -/

namespace Sys2Proof.Machine

/-- Round constants of Keccak-f[1600]. -/
def keccakRc : List Word :=
  [0x0000000000000001, 0x0000000000008082, 0x800000000000808A, 0x8000000080008000, 0x000000000000808B,
   0x0000000080000001, 0x8000000080008081, 0x8000000000008009, 0x000000000000008A, 0x0000000000000088,
   0x0000000080008009, 0x000000008000000A, 0x000000008000808B, 0x800000000000008B, 0x8000000000008089,
   0x8000000000008003, 0x8000000000008002, 0x8000000000000080, 0x000000000000800A, 0x800000008000000A,
   0x8000000080008081, 0x8000000000008080, 0x0000000080000001, 0x8000000080008008]

/-- Rotation of lane x + 5y in the ρ step. -/
def keccakRho : List Nat :=
  [0, 1, 62, 28, 27, 36, 44, 6, 55, 20, 3, 10, 43, 25, 39, 41, 45, 15, 21, 8, 18, 2, 61, 56, 14]

/-- Lane `i` of a Keccak state. -/
def lane (a : List Word) (i : Nat) : Word := a.getD i 0

/-- One round of Keccak-f[1600] with round constant `rc`; lane x + 5y holds A[x, y]. -/
def keccakRound (a : List Word) (rc : Word) : List Word :=
  let c := (List.range 5).map fun x => lane a x ^^^ lane a (x + 5) ^^^ lane a (x + 10) ^^^ lane a (x + 15) ^^^ lane a (x + 20)
  let d := (List.range 5).map fun x => lane c ((x + 4) % 5) ^^^ (lane c ((x + 1) % 5)).rotateLeft 1
  let t := (List.range 25).map fun i => (lane a i ^^^ lane d (i % 5)).rotateLeft (keccakRho.getD i 0)
  let b := (List.range 25).map fun i => lane t ((i % 5 + 3 * (i / 5)) % 5 + 5 * (i % 5))
  let e := (List.range 25).map fun i =>
    lane b i ^^^ (~~~ lane b ((i % 5 + 1) % 5 + 5 * (i / 5)) &&& lane b ((i % 5 + 2) % 5 + 5 * (i / 5)))
  match e with
  | l :: r => (l ^^^ rc) :: r
  | [] => []

/-- Keccak-f[1600]. -/
def keccakF (a : List Word) : List Word := keccakRc.foldl keccakRound a

/-- Bytes of one absorbed or squeezed block of SHAKE256 and KMAC256. -/
def keccakRate : Nat := 136

/-- A block of the rate added into the first lanes. -/
def keccakXor (a : List Word) (blk : Bytes) : List Word :=
  (List.range 25).map fun i => if i < 17 then lane a i ^^^ BitVec.ofNat 64 (leAt blk (8 * i) 8) else lane a i

/-- Absorb the blocks of a padded message. -/
def keccakAbsorb (blks : List Bytes) : List Word :=
  blks.foldl (fun a b => keccakF (keccakXor a b)) (List.replicate 25 0)

/-- The message with domain byte `dom` and the final bit of the padding, to whole blocks. -/
def keccakPad (msg : Bytes) (dom : Byte) : Bytes :=
  let n := keccakRate - msg.length % keccakRate
  if n = 1 then msg ++ [dom ||| 0x80] else msg ++ dom :: List.replicate (n - 2) 0 ++ [0x80]

/-- Squeeze blocks until `n` bytes stand. -/
def keccakSqueeze : Nat → List Word → Nat → Bytes
  | 0, _, _ => []
  | fuel + 1, a, n =>
    let blk := (a.take 17).flatMap fun l => leBytes 8 l.toNat
    if n ≤ keccakRate then blk.take n else blk ++ keccakSqueeze fuel (keccakF a) (n - keccakRate)

/-- The sponge over `msg` with domain byte `dom`, `n` bytes out. -/
def keccakSponge (dom : Byte) (msg : Bytes) (n : Nat) : Bytes :=
  let p := keccakPad msg dom
  keccakSqueeze (n / keccakRate + 1) (keccakAbsorb (chunks keccakRate (p.length / keccakRate) p)) n

/-- SHAKE256 with an output of `n` bytes, first output byte first (R9). -/
def shake256 (msg : Bytes) (n : Nat) : Bytes := keccakSponge 0x1F msg n

/-- Big-endian bytes of `v`, at least one (SP 800-185). -/
def beBytes : Nat → Nat → Bytes
  | 0, _ => []
  | fuel + 1, v => if v < 256 then [BitVec.ofNat 8 v] else beBytes fuel (v / 256) ++ [BitVec.ofNat 8 v]

/-- left_encode of SP 800-185. -/
def leftEncode (v : Nat) : Bytes := let b := beBytes 9 v; BitVec.ofNat 8 b.length :: b

/-- right_encode of SP 800-185. -/
def rightEncode (v : Nat) : Bytes := let b := beBytes 9 v; b ++ [BitVec.ofNat 8 b.length]

/-- encode_string of SP 800-185. -/
def encodeString (t : Bytes) : Bytes := leftEncode (8 * t.length) ++ t

/-- bytepad of SP 800-185 at the rate of cSHAKE256. -/
def bytepad (t : Bytes) : Bytes := padTo (leftEncode keccakRate ++ t) keccakRate

/-- KMAC256(K, X, 8 n, S) of SP 800-185 (R542): key, message, output bytes, customisation string. -/
def kmac256 (k x : Bytes) (n : Nat) (cust : String) : Bytes :=
  keccakSponge 0x04
    (bytepad (encodeString (ascii "KMAC") ++ encodeString (ascii cust)) ++ bytepad (encodeString k) ++ x ++ rightEncode (8 * n)) n

/-- Bytewise exclusive or, to the length of the first. -/
def xorBytes : Bytes → Bytes → Bytes
  | [], _ => []
  | a :: as, [] => a :: as
  | a :: as, b :: bs => (a ^^^ b) :: xorBytes as bs

/-- One bit of the reflected CRC-32C. -/
def crcBit (c : Word32) : Word32 := if c.getLsbD 0 then (c >>> 1) ^^^ 0x82F63B78 else c >>> 1

/-- One byte of the reflected CRC-32C. -/
def crcByte (c : Word32) (b : Byte) : Word32 :=
  crcBit (crcBit (crcBit (crcBit (crcBit (crcBit (crcBit (crcBit (c ^^^ b.zeroExtend 32))))))))

/-- CRC-32C (Castagnoli) of a byte string (R346). -/
def crc32c (bs : Bytes) : Word32 := ~~~ bs.foldl crcByte 0xFFFFFFFF

/-- Multiplication by x in GF(2⁸) with the polynomial x⁸ + x⁴ + x³ + x² + 1 (R422). -/
def gf256Dbl (a : Byte) : Byte := if a.getLsbD 7 then (a <<< 1) ^^^ 0x1D else a <<< 1

/-- Multiplication in GF(2⁸) over the low `n` bits of the second factor. -/
def gf256MulGo : Nat → Byte → Byte → Byte
  | 0, _, _ => 0
  | n + 1, a, b => (if b.getLsbD 0 then a else 0) ^^^ gf256MulGo n (gf256Dbl a) (b >>> 1)

/-- Multiplication in GF(2⁸) (R422). -/
def gf256Mul (a b : Byte) : Byte := gf256MulGo 8 a b

/-- Powers in GF(2⁸). -/
def gf256Pow (a : Byte) : Nat → Byte
  | 0 => 1
  | n + 1 => gf256Mul a (gf256Pow a n)

/-- The inverse in GF(2⁸): a²⁵⁴ (0 for 0). -/
def gf256Inv (a : Byte) : Byte := gf256Pow a 254

/-- Multiplication by x in GF(2¹²⁸) with the polynomial x¹²⁸ + x⁷ + x² + x + 1, bit i the coefficient of xⁱ (R232). -/
def gf128Dbl (a : BitVec 128) : BitVec 128 := if a.getLsbD 127 then (a <<< 1) ^^^ 0x87 else a <<< 1

/-- Multiplication in GF(2¹²⁸) over the low `n` bits of the second factor. -/
def gf128MulGo : Nat → BitVec 128 → BitVec 128 → BitVec 128
  | 0, _, _ => 0
  | n + 1, a, b => (if b.getLsbD 0 then a else 0) ^^^ gf128MulGo n (gf128Dbl a) (b >>> 1)

/-- Multiplication in GF(2¹²⁸) (R232). -/
def gf128Mul (a b : BitVec 128) : BitVec 128 := gf128MulGo 128 a b

end Sys2Proof.Machine
end

