-- ==== Sys2Proof/Machine/Regs.lean ====
section
/-! DEFINITION. The control registers of the PN-880: every row of the register tables of the chapters, with its offset in the
control window (Table 0-3), its fields, their access codes (Table 0-4), their values after power-on reset, and the range a
field accepts where its table gives one (R19). A reset value that the tables call a record's (the signed record, the slice
table, ...) stands as 0 here and is computed from that record when the register is read. -/

namespace Sys2Proof.Machine

/-- The access codes of Table 0-4. -/
inductive Access where
  | ro | rw | w1c | w1s | wo | rws
  deriving DecidableEq, Repr

/-- One field of a register: its lowest bit, its width, its access code, its value after power-on reset, the least and the
greatest value a write may give it (R19), and whether it saturates when the device counts in it. -/
structure Field where
  lo : Nat
  width : Nat
  acc : Access
  reset : Nat
  min : Nat
  max : Nat
  sat : Bool
  deriving DecidableEq, Repr

/-- One register or array of registers: its offset, the stride and count of each of two indices, its fields. -/
structure RegRow where
  base : Nat
  s1 : Nat
  n1 : Nat
  s2 : Nat
  n2 : Nat
  fields : List Field
  deriving DecidableEq, Repr

/-- The registers by name. -/
inductive RegName where
  | glbGrade
  | glbId
  | glbBadacc
  | srcIdxsel
  | srcIdxinfo0
  | srcIdxinfo1
  | srcIdxinfo2
  | srcIdxinfo3
  | srcWalks
  | srcHoplimit
  | srcCorrupt
  | srcBeadchk
  | srcSpill
  | srcTkt
  | srcTktmin
  | srcTkthold
  | srcSiding
  | srcMergecfg
  | srcRepair
  | srcRepairpos
  | srcReclaim
  | srcWrbusy
  | srcMerges
  | srcSelcalls
  | srcSelconfl
  | srcSelchk
  | srcSelinval
  | srcSelshort
  | srcRr1
  | srcRr2
  | srcRrapprox
  | memTblsel
  | memTblinfo0
  | memTblrows
  | memTblepoch
  | memTblcfg
  | memTblrepl
  | memTblload
  | memTblmigr
  | memTblstale
  | memTblsat
  | memTblnonfin
  | memTbldir
  | cmpCvtsat
  | cmpCvtnan
  | cmpCarrysat
  | cmpScannf
  | cmpConst
  | cmpArithflt
  | cmpFramemap
  | cmpGeominfo
  | cmpAccsat
  | cmpMmanf
  | cmpSkip
  | cmpMoepass
  | cmpWinwait
  | cmpFrameflt
  | cmpAttncalls
  | cmpAttnheads
  | cmpAttnshort
  | cmpAttncsat
  | cmpAttnnf
  | cmpAttnempty
  | cmpKeyapp
  | cmpConsists
  | cmpRuns
  | cmpRunfault
  | cmpLoadref
  | cmpBars
  | cmpLastfault
  | cmpFramebusy
  | cmpBarlast
  | memTiercap
  | memTierused
  | memTiercfg
  | memMoves
  | memMovewait
  | memScrub
  | memEcc
  | memPoison
  | memCodecin
  | memCodecout
  | memCodecerr
  | memBufwait
  | memBufshort
  | depState
  | depCap
  | depHealth
  | depRderr
  | depUncorr
  | depCorrhist
  | depTemp
  | depRetire
  | depFlush
  | depFlush1
  | depRebuild
  | depCfg
  | depRdcfg
  | depWrwait
  | depRefresh
  | depEpoch1
  | depState1
  | jugNode
  | jugEpoch
  | jugLease
  | jugRetry
  | jugPort
  | jugFec
  | jugLinkretx
  | jugNoaccess
  | jugStale
  | jugAtomic
  | jugSeqstale
  | jugUnreach
  | jugBadpkt
  | jugRcache
  | jugRchit
  | jugRcmiss
  | jugBarlast
  | jugRsdone
  | jugRsfail
  | shpWeight
  | shpCbs
  | shpCredit
  | shpJpol
  | shpJdrop
  | shpCclpol
  | shpCcldrop
  | shpVtime
  | shpClosed
  | shpTtstat
  | shpTtbase
  | shpTtcycle
  | shpTtswitch
  | shpTtadmin
  | shpTtoper
  | cmdRingcfg
  | cmdRingarea
  | cmdDataarea
  | cmdRingerr
  | cmdScan
  | cmdCritctr
  | cmdCriterr
  | cmdCcl
  | glbBoot
  | glbResetcause
  | glbXalign
  | glbTrain
  | glbDepstart
  | glbPreset
  | fltCfg
  | fltCheck
  | fltShadow
  | fltCanary
  | fltRetired0
  | fltRetired1
  | fltFramesel
  | fltCells
  | fltFramestate
  | fltRecseq
  | fltStrag
  | fltOwn
  | fltStatelost
  | fltRestart
  | fltTakeover
  | secSeal
  | secSealviol
  | secKeystate
  | secOpkey
  | secKeyctl
  | secIsol
  | secSlicesel
  | secSliceinfo
  | secSlicemem
  | secClear
  | secAttest
  | secAttctr
  | secDebug
  | secTracemask
  | stmState
  | stmRollback
  | stmStage
  | stmTrial
  | stmLog
  | stmLogdrop
  | stmLogsel
  | stmMgmt
  | stmMgmtaddr
  | stmFmaddr
  | stmTime
  | stmLogwin
  | stmSense
  | pwrEnvelope
  | pwrInput
  | pwrRail
  | pwrTherm
  | pwrTrip
  | pwrSlicesel
  | pwrSlice
  | pwrPaced
  deriving DecidableEq, Repr

/-- A field of a named register. -/
structure FieldRef where
  reg : RegName
  lo : Nat
  width : Nat
  sat : Bool
  deriving DecidableEq, Repr

/-- The register tables (R20, R84, R124, R147, R176, R208, R236, R254, R295, R357, R392, R426, R443, R471, R499, R525, R556, R576). -/
def RegName.row : RegName → RegRow
  | .glbGrade => ⟨0x0000008, 0, 1, 0, 1,
      [⟨0, 4, .ro, 0, 0, 15, false⟩, ⟨8, 8, .ro, 0, 0, 255, false⟩, ⟨16, 4, .ro, 0, 0, 15, false⟩,
       ⟨24, 4, .ro, 0, 0, 15, false⟩, ⟨28, 4, .ro, 0, 0, 15, false⟩]⟩
  | .glbId => ⟨0x0000000, 0, 1, 0, 1,
      [⟨0, 64, .ro, 0, 0, 18446744073709551615, false⟩]⟩
  | .glbBadacc => ⟨0x0000010, 0, 1, 0, 1,
      [⟨0, 32, .ro, 0, 0, 4294967295, false⟩, ⟨32, 16, .ro, 0, 0, 65535, true⟩, ⟨48, 10, .ro, 0, 0, 1023, false⟩]⟩
  | .srcIdxsel => ⟨0x00D0000, 0, 1, 0, 1,
      [⟨0, 15, .rw, 0, 0, 32767, false⟩]⟩
  | .srcIdxinfo0 => ⟨0x00D0008, 0, 1, 0, 1,
      [⟨0, 1, .ro, 0, 0, 1, false⟩, ⟨1, 2, .ro, 0, 0, 3, false⟩, ⟨3, 1, .ro, 0, 0, 1, false⟩,
       ⟨4, 7, .ro, 0, 0, 127, false⟩, ⟨16, 11, .ro, 0, 0, 2047, false⟩, ⟨32, 32, .ro, 0, 0, 4294967295, false⟩]⟩
  | .srcIdxinfo1 => ⟨0x00D0010, 0, 1, 0, 1,
      [⟨0, 32, .ro, 0, 0, 4294967295, false⟩, ⟨32, 32, .ro, 0, 0, 4294967295, false⟩]⟩
  | .srcIdxinfo2 => ⟨0x00D0018, 0, 1, 0, 1,
      [⟨0, 32, .ro, 0, 0, 4294967295, false⟩, ⟨32, 32, .ro, 0, 0, 4294967295, false⟩]⟩
  | .srcIdxinfo3 => ⟨0x00D0020, 0, 1, 0, 1,
      [⟨0, 16, .ro, 0, 0, 65535, false⟩, ⟨16, 16, .ro, 0, 0, 65535, false⟩, ⟨32, 32, .ro, 0, 0, 4294967295, false⟩]⟩
  | .srcWalks => ⟨0x00D0028, 0, 1, 0, 1,
      [⟨0, 64, .ro, 0, 0, 18446744073709551615, false⟩]⟩
  | .srcHoplimit => ⟨0x00D0030, 0, 1, 0, 1,
      [⟨0, 64, .ro, 0, 0, 18446744073709551615, false⟩]⟩
  | .srcCorrupt => ⟨0x00D0038, 0, 1, 0, 1,
      [⟨0, 64, .ro, 0, 0, 18446744073709551615, false⟩]⟩
  | .srcBeadchk => ⟨0x00D0040, 0, 1, 0, 1,
      [⟨0, 32, .ro, 0, 0, 4294967295, false⟩, ⟨32, 32, .ro, 0, 0, 4294967295, false⟩]⟩
  | .srcSpill => ⟨0x00D0048, 0, 1, 0, 1,
      [⟨0, 64, .ro, 0, 0, 18446744073709551615, false⟩]⟩
  | .srcTkt => ⟨0x00D0080, 0, 1, 0, 1,
      [⟨0, 48, .ro, 0, 0, 281474976710655, false⟩]⟩
  | .srcTktmin => ⟨0x00D0088, 0, 1, 0, 1,
      [⟨0, 48, .ro, 0, 0, 281474976710655, false⟩]⟩
  | .srcTkthold => ⟨0x00D0090, 0, 1, 0, 1,
      [⟨0, 48, .rw, 281474976710655, 0, 281474976710655, false⟩]⟩
  | .srcSiding => ⟨0x00D0098, 0, 1, 0, 1,
      [⟨0, 17, .ro, 0, 0, 131071, false⟩, ⟨17, 17, .ro, 0, 0, 131071, false⟩, ⟨34, 1, .ro, 0, 0, 1, false⟩,
       ⟨35, 2, .ro, 0, 0, 3, false⟩]⟩
  | .srcMergecfg => ⟨0x00D00A0, 0, 1, 0, 1,
      [⟨0, 11, .rw, 256, 16, 1024, false⟩, ⟨16, 11, .rw, 256, 64, 1024, false⟩]⟩
  | .srcRepair => ⟨0x00D00A8, 0, 1, 0, 1,
      [⟨0, 16, .rw, 10000, 0, 65535, false⟩]⟩
  | .srcRepairpos => ⟨0x00D00B0, 0, 1, 0, 1,
      [⟨0, 32, .ro, 0, 0, 4294967295, false⟩, ⟨32, 32, .ro, 0, 0, 4294967295, false⟩]⟩
  | .srcReclaim => ⟨0x00D00B8, 0, 1, 0, 1,
      [⟨0, 32, .ro, 0, 0, 4294967295, false⟩, ⟨32, 32, .ro, 0, 0, 4294967295, false⟩]⟩
  | .srcWrbusy => ⟨0x00D00C0, 0, 1, 0, 1,
      [⟨0, 64, .ro, 0, 0, 18446744073709551615, false⟩]⟩
  | .srcMerges => ⟨0x00D00C8, 0, 1, 0, 1,
      [⟨0, 64, .ro, 0, 0, 18446744073709551615, false⟩]⟩
  | .srcSelcalls => ⟨0x00D0100, 0, 1, 0, 1,
      [⟨0, 64, .ro, 0, 0, 18446744073709551615, false⟩]⟩
  | .srcSelconfl => ⟨0x00D0108, 0, 1, 0, 1,
      [⟨0, 64, .ro, 0, 0, 18446744073709551615, false⟩]⟩
  | .srcSelchk => ⟨0x00D0110, 0, 1, 0, 1,
      [⟨0, 32, .ro, 0, 0, 4294967295, false⟩, ⟨32, 32, .ro, 0, 0, 4294967295, false⟩]⟩
  | .srcSelinval => ⟨0x00D0118, 0, 1, 0, 1,
      [⟨0, 64, .ro, 0, 0, 18446744073709551615, false⟩]⟩
  | .srcSelshort => ⟨0x00D0120, 0, 1, 0, 1,
      [⟨0, 64, .ro, 0, 0, 18446744073709551615, false⟩]⟩
  | .srcRr1 => ⟨0x00D0180, 0, 1, 0, 1,
      [⟨0, 64, .ro, 0, 0, 18446744073709551615, false⟩]⟩
  | .srcRr2 => ⟨0x00D0188, 0, 1, 0, 1,
      [⟨0, 64, .ro, 0, 0, 18446744073709551615, false⟩]⟩
  | .srcRrapprox => ⟨0x00D0190, 0, 1, 0, 1,
      [⟨0, 64, .ro, 0, 0, 18446744073709551615, false⟩]⟩
  | .memTblsel => ⟨0x00C0800, 0, 1, 0, 1,
      [⟨0, 16, .rw, 0, 0, 65535, false⟩]⟩
  | .memTblinfo0 => ⟨0x00C0808, 0, 1, 0, 1,
      [⟨0, 1, .ro, 0, 0, 1, false⟩, ⟨1, 1, .ro, 0, 0, 1, false⟩, ⟨2, 2, .ro, 0, 0, 3, false⟩,
       ⟨4, 1, .ro, 0, 0, 1, false⟩, ⟨5, 1, .ro, 0, 0, 1, false⟩, ⟨6, 1, .ro, 0, 0, 1, false⟩,
       ⟨16, 13, .ro, 0, 0, 8191, false⟩, ⟨32, 9, .ro, 0, 0, 511, false⟩, ⟨41, 8, .ro, 0, 0, 255, false⟩]⟩
  | .memTblrows => ⟨0x00C0810, 0, 1, 0, 1,
      [⟨0, 41, .ro, 0, 0, 2199023255551, false⟩]⟩
  | .memTblepoch => ⟨0x00C0818, 0, 1, 0, 1,
      [⟨0, 32, .ro, 0, 0, 4294967295, false⟩, ⟨32, 16, .ro, 0, 0, 65535, false⟩, ⟨48, 16, .ro, 0, 0, 65535, false⟩]⟩
  | .memTblcfg => ⟨0x00C0820, 0, 1, 0, 1,
      [⟨0, 14, .rw, 100, 10, 10000, false⟩, ⟨16, 9, .rw, 150, 110, 400, false⟩, ⟨32, 10, .rw, 256, 1, 1023, false⟩,
       ⟨48, 8, .rw, 4, 0, 255, false⟩]⟩
  | .memTblrepl => ⟨0x00C0828, 0, 1, 0, 1,
      [⟨0, 32, .rw, 65536, 1, 4294967295, false⟩]⟩
  | .memTblload => ⟨0x00C0830, 0, 1, 0, 1,
      [⟨0, 64, .ro, 0, 0, 18446744073709551615, false⟩]⟩
  | .memTblmigr => ⟨0x00C0838, 0, 1, 0, 1,
      [⟨0, 32, .ro, 0, 0, 4294967295, false⟩, ⟨32, 32, .ro, 0, 0, 4294967295, false⟩]⟩
  | .memTblstale => ⟨0x00C0840, 0, 1, 0, 1,
      [⟨0, 64, .ro, 0, 0, 18446744073709551615, false⟩]⟩
  | .memTblsat => ⟨0x00C0848, 0, 1, 0, 1,
      [⟨0, 64, .ro, 0, 0, 18446744073709551615, false⟩]⟩
  | .memTblnonfin => ⟨0x00C0850, 0, 1, 0, 1,
      [⟨0, 64, .ro, 0, 0, 18446744073709551615, false⟩]⟩
  | .memTbldir => ⟨0x00C0858, 0, 1, 0, 1,
      [⟨0, 32, .ro, 0, 0, 4294967295, false⟩, ⟨32, 32, .ro, 0, 0, 4294967295, false⟩]⟩
  | .cmpCvtsat => ⟨0x00E0400, 0, 1, 0, 1,
      [⟨0, 64, .ro, 0, 0, 18446744073709551615, false⟩]⟩
  | .cmpCvtnan => ⟨0x00E0408, 0, 1, 0, 1,
      [⟨0, 64, .ro, 0, 0, 18446744073709551615, false⟩]⟩
  | .cmpCarrysat => ⟨0x00E0410, 0, 1, 0, 1,
      [⟨0, 64, .ro, 0, 0, 18446744073709551615, false⟩]⟩
  | .cmpScannf => ⟨0x00E0418, 0, 1, 0, 1,
      [⟨0, 64, .ro, 0, 0, 18446744073709551615, false⟩]⟩
  | .cmpConst => ⟨0x00E0420, 0, 1, 0, 1,
      [⟨0, 64, .ro, 0, 0, 18446744073709551615, false⟩]⟩
  | .cmpArithflt => ⟨0x00E0428, 0, 1, 0, 1,
      [⟨0, 16, .ro, 0, 0, 65535, true⟩, ⟨16, 16, .ro, 0, 0, 65535, true⟩, ⟨32, 16, .ro, 0, 0, 65535, true⟩,
       ⟨48, 16, .ro, 0, 0, 65535, true⟩]⟩
  | .cmpFramemap => ⟨0x00E0000, 8, 3, 0, 1,
      [⟨0, 64, .ro, 0, 0, 18446744073709551615, false⟩]⟩
  | .cmpGeominfo => ⟨0x00E0018, 0, 1, 0, 1,
      [⟨0, 4, .ro, 0, 0, 15, false⟩, ⟨8, 8, .ro, 0, 0, 255, false⟩, ⟨16, 8, .ro, 0, 0, 255, false⟩]⟩
  | .cmpAccsat => ⟨0x00E0020, 0, 1, 0, 1,
      [⟨0, 64, .ro, 0, 0, 18446744073709551615, false⟩]⟩
  | .cmpMmanf => ⟨0x00E0028, 0, 1, 0, 1,
      [⟨0, 64, .ro, 0, 0, 18446744073709551615, false⟩]⟩
  | .cmpSkip => ⟨0x00E0030, 0, 1, 0, 1,
      [⟨0, 64, .ro, 0, 0, 18446744073709551615, false⟩]⟩
  | .cmpMoepass => ⟨0x00E0038, 0, 1, 0, 1,
      [⟨0, 64, .ro, 0, 0, 18446744073709551615, false⟩]⟩
  | .cmpWinwait => ⟨0x00E0040, 0, 1, 0, 1,
      [⟨0, 64, .ro, 0, 0, 18446744073709551615, false⟩]⟩
  | .cmpFrameflt => ⟨0x00E0048, 0, 1, 0, 1,
      [⟨0, 16, .ro, 0, 0, 65535, true⟩, ⟨16, 16, .ro, 0, 0, 65535, true⟩, ⟨32, 16, .ro, 0, 0, 65535, true⟩,
       ⟨48, 16, .ro, 0, 0, 65535, true⟩]⟩
  | .cmpAttncalls => ⟨0x00E0800, 0, 1, 0, 1,
      [⟨0, 64, .ro, 0, 0, 18446744073709551615, false⟩]⟩
  | .cmpAttnheads => ⟨0x00E0808, 0, 1, 0, 1,
      [⟨0, 64, .ro, 0, 0, 18446744073709551615, false⟩]⟩
  | .cmpAttnshort => ⟨0x00E0810, 0, 1, 0, 1,
      [⟨0, 64, .ro, 0, 0, 18446744073709551615, false⟩]⟩
  | .cmpAttncsat => ⟨0x00E0818, 0, 1, 0, 1,
      [⟨0, 64, .ro, 0, 0, 18446744073709551615, false⟩]⟩
  | .cmpAttnnf => ⟨0x00E0820, 0, 1, 0, 1,
      [⟨0, 64, .ro, 0, 0, 18446744073709551615, false⟩]⟩
  | .cmpAttnempty => ⟨0x00E0828, 0, 1, 0, 1,
      [⟨0, 64, .ro, 0, 0, 18446744073709551615, false⟩]⟩
  | .cmpKeyapp => ⟨0x00E0830, 0, 1, 0, 1,
      [⟨0, 64, .ro, 0, 0, 18446744073709551615, false⟩]⟩
  | .cmpConsists => ⟨0x00E0C00, 0, 1, 0, 1,
      [⟨0, 16, .ro, 0, 0, 65535, false⟩, ⟨16, 16, .ro, 0, 0, 65535, false⟩, ⟨32, 16, .ro, 0, 0, 65535, false⟩]⟩
  | .cmpRuns => ⟨0x00E0C08, 0, 1, 0, 1,
      [⟨0, 64, .ro, 0, 0, 18446744073709551615, false⟩]⟩
  | .cmpRunfault => ⟨0x00E0C10, 0, 1, 0, 1,
      [⟨0, 64, .ro, 0, 0, 18446744073709551615, false⟩]⟩
  | .cmpLoadref => ⟨0x00E0C18, 0, 1, 0, 1,
      [⟨0, 64, .ro, 0, 0, 18446744073709551615, false⟩]⟩
  | .cmpBars => ⟨0x00E0C20, 0, 1, 0, 1,
      [⟨0, 64, .ro, 0, 0, 18446744073709551615, false⟩]⟩
  | .cmpLastfault => ⟨0x00E0C28, 0, 1, 0, 1,
      [⟨0, 16, .ro, 0, 0, 65535, false⟩, ⟨16, 8, .ro, 0, 0, 255, false⟩, ⟨32, 32, .ro, 0, 0, 4294967295, false⟩]⟩
  | .cmpFramebusy => ⟨0x00E0C30, 8, 3, 0, 1,
      [⟨0, 64, .ro, 0, 0, 18446744073709551615, false⟩]⟩
  | .cmpBarlast => ⟨0x00E0C80, 8, 192, 0, 1,
      [⟨0, 64, .ro, 0, 0, 18446744073709551615, false⟩]⟩
  | .memTiercap => ⟨0x00C0000, 8, 5, 0, 1,
      [⟨0, 64, .ro, 0, 0, 18446744073709551615, false⟩]⟩
  | .memTierused => ⟨0x00C0028, 8, 5, 0, 1,
      [⟨0, 64, .ro, 0, 0, 18446744073709551615, false⟩]⟩
  | .memTiercfg => ⟨0x00C0050, 0, 1, 0, 1,
      [⟨0, 14, .rw, 100, 10, 10000, false⟩, ⟨16, 16, .rw, 4096, 1, 65535, false⟩, ⟨32, 16, .rw, 256, 0, 65535, false⟩,
       ⟨48, 8, .rw, 16, 0, 128, false⟩]⟩
  | .memMoves => ⟨0x00C0058, 0, 1, 0, 1,
      [⟨0, 32, .ro, 0, 0, 4294967295, false⟩, ⟨32, 32, .ro, 0, 0, 4294967295, false⟩]⟩
  | .memMovewait => ⟨0x00C0060, 0, 1, 0, 1,
      [⟨0, 64, .ro, 0, 0, 18446744073709551615, false⟩]⟩
  | .memScrub => ⟨0x00C0068, 0, 1, 0, 1,
      [⟨0, 8, .rw, 24, 1, 168, false⟩, ⟨16, 32, .ro, 0, 0, 4294967295, false⟩]⟩
  | .memEcc => ⟨0x00C0070, 8, 4, 0, 1,
      [⟨0, 32, .ro, 0, 0, 4294967295, false⟩, ⟨32, 16, .ro, 0, 0, 65535, true⟩]⟩
  | .memPoison => ⟨0x00C0090, 0, 1, 0, 1,
      [⟨0, 32, .ro, 0, 0, 4294967295, false⟩]⟩
  | .memCodecin => ⟨0x00C0098, 0, 1, 0, 1,
      [⟨0, 64, .ro, 0, 0, 18446744073709551615, false⟩]⟩
  | .memCodecout => ⟨0x00C00A0, 0, 1, 0, 1,
      [⟨0, 64, .ro, 0, 0, 18446744073709551615, false⟩]⟩
  | .memCodecerr => ⟨0x00C00A8, 0, 1, 0, 1,
      [⟨0, 32, .ro, 0, 0, 4294967295, false⟩, ⟨32, 32, .ro, 0, 0, 4294967295, false⟩]⟩
  | .memBufwait => ⟨0x00C00B0, 0, 1, 0, 1,
      [⟨0, 64, .ro, 0, 0, 18446744073709551615, false⟩]⟩
  | .memBufshort => ⟨0x00C00B8, 0, 1, 0, 1,
      [⟨0, 64, .ro, 0, 0, 18446744073709551615, false⟩]⟩
  | .depState => ⟨0x0080000, 65536, 4, 0, 1,
      [⟨0, 3, .ro, 0, 0, 7, false⟩, ⟨8, 16, .ro, 0, 0, 65535, false⟩, ⟨32, 32, .ro, 0, 0, 4294967295, false⟩]⟩
  | .depCap => ⟨0x0080008, 65536, 4, 0, 1,
      [⟨0, 32, .ro, 0, 0, 4294967295, false⟩, ⟨32, 32, .ro, 0, 0, 4294967295, false⟩]⟩
  | .depHealth => ⟨0x0080010, 65536, 4, 0, 1,
      [⟨0, 10, .ro, 0, 0, 1023, false⟩, ⟨16, 10, .ro, 0, 0, 1023, false⟩, ⟨32, 7, .ro, 0, 0, 127, false⟩]⟩
  | .depRderr => ⟨0x0080018, 65536, 4, 0, 1,
      [⟨0, 32, .ro, 0, 0, 4294967295, false⟩, ⟨32, 32, .ro, 0, 0, 4294967295, false⟩]⟩
  | .depUncorr => ⟨0x0080020, 65536, 4, 0, 1,
      [⟨0, 32, .ro, 0, 0, 4294967295, false⟩, ⟨32, 32, .ro, 0, 0, 4294967295, false⟩]⟩
  | .depCorrhist => ⟨0x0080028, 65536, 4, 8, 8,
      [⟨0, 64, .ro, 0, 0, 18446744073709551615, false⟩]⟩
  | .depTemp => ⟨0x0080068, 65536, 4, 0, 1,
      [⟨0, 12, .ro, 0, 0, 4095, false⟩, ⟨12, 12, .ro, 0, 0, 4095, false⟩, ⟨24, 16, .ro, 0, 0, 65535, false⟩,
       ⟨40, 12, .ro, 0, 0, 4095, false⟩, ⟨52, 12, .ro, 0, 0, 4095, false⟩]⟩
  | .depRetire => ⟨0x0080070, 65536, 4, 0, 1,
      [⟨0, 16, .ro, 0, 0, 65535, false⟩, ⟨16, 8, .ro, 0, 0, 255, false⟩, ⟨24, 5, .ro, 0, 0, 31, false⟩,
       ⟨32, 16, .ro, 0, 0, 65535, false⟩, ⟨48, 16, .ro, 0, 0, 65535, false⟩]⟩
  | .depFlush => ⟨0x0080078, 65536, 4, 0, 1,
      [⟨0, 64, .ro, 0, 0, 18446744073709551615, false⟩]⟩
  | .depFlush1 => ⟨0x0080080, 65536, 4, 0, 1,
      [⟨0, 64, .ro, 0, 0, 18446744073709551615, false⟩]⟩
  | .depRebuild => ⟨0x0080088, 65536, 4, 0, 1,
      [⟨0, 32, .ro, 0, 0, 4294967295, false⟩, ⟨32, 16, .ro, 0, 0, 65535, false⟩, ⟨48, 16, .ro, 0, 0, 65535, false⟩]⟩
  | .depCfg => ⟨0x0080090, 65536, 4, 0, 1,
      [⟨0, 4, .rw, 3, 0, 3, false⟩, ⟨8, 8, .rw, 12, 7, 50, false⟩, ⟨16, 8, .rw, 30, 1, 90, false⟩]⟩
  | .depRdcfg => ⟨0x0080098, 65536, 4, 0, 1,
      [⟨0, 32, .rw, 40000, 0, 4294967295, false⟩, ⟨32, 32, .rw, 100000, 0, 4294967295, false⟩]⟩
  | .depWrwait => ⟨0x00800A0, 65536, 4, 0, 1,
      [⟨0, 64, .ro, 0, 0, 18446744073709551615, false⟩]⟩
  | .depRefresh => ⟨0x00800A8, 65536, 4, 0, 1,
      [⟨0, 32, .ro, 0, 0, 4294967295, false⟩, ⟨32, 32, .ro, 0, 0, 4294967295, false⟩]⟩
  | .depEpoch1 => ⟨0x00800B0, 65536, 4, 0, 1,
      [⟨0, 32, .ro, 0, 0, 4294967295, false⟩]⟩
  | .depState1 => ⟨0x00800B8, 65536, 4, 0, 1,
      [⟨0, 3, .ro, 0, 0, 7, false⟩]⟩
  | .jugNode => ⟨0x0060000, 0, 1, 0, 1,
      [⟨0, 17, .rws, 131071, 0, 131071, false⟩]⟩
  | .jugEpoch => ⟨0x0060008, 0, 1, 0, 1,
      [⟨0, 32, .ro, 0, 0, 4294967295, false⟩, ⟨32, 2, .ro, 0, 0, 3, false⟩]⟩
  | .jugLease => ⟨0x0060010, 0, 1, 0, 1,
      [⟨0, 32, .ro, 0, 0, 4294967295, false⟩, ⟨32, 32, .ro, 0, 0, 4294967295, false⟩]⟩
  | .jugRetry => ⟨0x0060018, 0, 1, 0, 1,
      [⟨0, 4, .rw, 3, 1, 15, false⟩, ⟨4, 3, .rw, 3, 0, 7, false⟩]⟩
  | .jugPort => ⟨0x0060020, 8, 8, 0, 1,
      [⟨0, 2, .ro, 0, 0, 3, false⟩, ⟨2, 4, .ro, 0, 0, 15, false⟩, ⟨6, 4, .ro, 0, 0, 15, false⟩]⟩
  | .jugFec => ⟨0x0060060, 8, 8, 0, 1,
      [⟨0, 32, .ro, 0, 0, 4294967295, false⟩, ⟨32, 32, .ro, 0, 0, 4294967295, false⟩]⟩
  | .jugLinkretx => ⟨0x00600A0, 8, 8, 0, 1,
      [⟨0, 32, .ro, 0, 0, 4294967295, false⟩, ⟨32, 32, .ro, 0, 0, 4294967295, false⟩]⟩
  | .jugNoaccess => ⟨0x00600E0, 0, 1, 0, 1,
      [⟨0, 64, .ro, 0, 0, 18446744073709551615, false⟩]⟩
  | .jugStale => ⟨0x00600E8, 0, 1, 0, 1,
      [⟨0, 32, .ro, 0, 0, 4294967295, false⟩, ⟨32, 32, .ro, 0, 0, 4294967295, false⟩]⟩
  | .jugAtomic => ⟨0x00600F0, 0, 1, 0, 1,
      [⟨0, 32, .ro, 0, 0, 4294967295, false⟩, ⟨32, 32, .ro, 0, 0, 4294967295, false⟩]⟩
  | .jugSeqstale => ⟨0x00600F8, 0, 1, 0, 1,
      [⟨0, 64, .ro, 0, 0, 18446744073709551615, false⟩]⟩
  | .jugUnreach => ⟨0x0060100, 0, 1, 0, 1,
      [⟨0, 64, .ro, 0, 0, 18446744073709551615, false⟩]⟩
  | .jugBadpkt => ⟨0x0060108, 0, 1, 0, 1,
      [⟨0, 64, .ro, 0, 0, 18446744073709551615, false⟩]⟩
  | .jugRcache => ⟨0x0060110, 0, 1, 0, 1,
      [⟨0, 6, .rw, 8, 0, 32, false⟩]⟩
  | .jugRchit => ⟨0x0060118, 0, 1, 0, 1,
      [⟨0, 64, .ro, 0, 0, 18446744073709551615, false⟩]⟩
  | .jugRcmiss => ⟨0x0060120, 0, 1, 0, 1,
      [⟨0, 64, .ro, 0, 0, 18446744073709551615, false⟩]⟩
  | .jugBarlast => ⟨0x0060128, 0, 1, 0, 1,
      [⟨0, 64, .ro, 0, 0, 18446744073709551615, false⟩]⟩
  | .jugRsdone => ⟨0x0060130, 0, 1, 0, 1,
      [⟨0, 32, .ro, 0, 0, 4294967295, false⟩, ⟨32, 32, .ro, 0, 0, 4294967295, false⟩]⟩
  | .jugRsfail => ⟨0x0060138, 0, 1, 0, 1,
      [⟨0, 32, .ro, 0, 0, 4294967295, false⟩, ⟨32, 32, .ro, 0, 0, 4294967295, false⟩]⟩
  | .shpWeight => ⟨0x0070000, 128, 8, 8, 16,
      [⟨0, 8, .rw, 16, 1, 255, false⟩]⟩
  | .shpCbs => ⟨0x0070400, 128, 8, 8, 16,
      [⟨0, 1, .rw, 0, 0, 1, false⟩, ⟨1, 1, .wo, 0, 0, 1, false⟩, ⟨4, 20, .rw, 0, 0, 800000, false⟩,
       ⟨24, 24, .rw, 16384, 4128, 16777215, false⟩]⟩
  | .shpCredit => ⟨0x0070800, 128, 8, 8, 16,
      [⟨0, 32, .ro, 0, 0, 4294967295, false⟩]⟩
  | .shpJpol => ⟨0x0070C00, 128, 8, 8, 16,
      [⟨0, 1, .rw, 0, 0, 1, false⟩, ⟨4, 20, .rw, 0, 0, 800000, false⟩, ⟨24, 24, .rw, 16384, 4128, 16777215, false⟩]⟩
  | .shpJdrop => ⟨0x0071000, 128, 8, 8, 16,
      [⟨0, 64, .ro, 0, 0, 18446744073709551615, false⟩]⟩
  | .shpCclpol => ⟨0x0071400, 8, 2, 0, 1,
      [⟨0, 1, .rw, 0, 0, 1, false⟩, ⟨4, 20, .rw, 0, 0, 200000, false⟩, ⟨24, 24, .rw, 16384, 4128, 16777215, false⟩]⟩
  | .shpCcldrop => ⟨0x0071410, 8, 2, 0, 1,
      [⟨0, 64, .ro, 0, 0, 18446744073709551615, false⟩]⟩
  | .shpVtime => ⟨0x0071420, 8, 8, 0, 1,
      [⟨0, 64, .ro, 0, 0, 18446744073709551615, false⟩]⟩
  | .shpClosed => ⟨0x0071460, 0, 1, 0, 1,
      [⟨0, 64, .ro, 0, 0, 18446744073709551615, false⟩]⟩
  | .shpTtstat => ⟨0x0071480, 8, 9, 0, 1,
      [⟨0, 8, .ro, 0, 0, 255, false⟩, ⟨8, 9, .ro, 0, 0, 511, false⟩, ⟨17, 1, .ro, 0, 0, 1, false⟩,
       ⟨32, 32, .ro, 0, 0, 4294967295, false⟩]⟩
  | .shpTtbase => ⟨0x0071500, 8, 9, 0, 1,
      [⟨0, 64, .ro, 0, 0, 18446744073709551615, false⟩]⟩
  | .shpTtcycle => ⟨0x0071580, 8, 9, 0, 1,
      [⟨0, 32, .ro, 0, 0, 4294967295, false⟩]⟩
  | .shpTtswitch => ⟨0x0071600, 8, 9, 0, 1,
      [⟨0, 64, .ro, 0, 0, 18446744073709551615, false⟩]⟩
  | .shpTtadmin => ⟨0x0072000, 2048, 9, 8, 256,
      [⟨0, 32, .rw, 0, 0, 4294967295, false⟩, ⟨32, 16, .rw, 0, 0, 65535, false⟩]⟩
  | .shpTtoper => ⟨0x0078000, 2048, 9, 8, 256,
      [⟨0, 32, .ro, 0, 0, 4294967295, false⟩, ⟨32, 16, .ro, 0, 0, 65535, false⟩]⟩
  | .cmdRingcfg => ⟨0x0020000, 32, 64, 0, 1,
      [⟨0, 1, .rw, 0, 0, 1, false⟩, ⟨1, 1, .ro, 1, 0, 1, false⟩, ⟨2, 4, .rw, 0, 0, 12, false⟩,
       ⟨8, 8, .rw, 0, 0, 255, false⟩, ⟨16, 9, .rw, 16, 1, 256, false⟩]⟩
  | .cmdRingarea => ⟨0x0020008, 32, 64, 0, 1,
      [⟨0, 26, .rw, 0, 0, 67108863, false⟩]⟩
  | .cmdDataarea => ⟨0x0020010, 32, 64, 0, 1,
      [⟨0, 26, .rw, 0, 0, 67108863, false⟩, ⟨32, 26, .rw, 0, 0, 67108863, false⟩]⟩
  | .cmdRingerr => ⟨0x0020018, 32, 64, 0, 1,
      [⟨0, 32, .ro, 0, 0, 4294967295, false⟩, ⟨32, 32, .ro, 0, 0, 4294967295, false⟩]⟩
  | .cmdScan => ⟨0x0020800, 0, 1, 0, 1,
      [⟨0, 32, .ro, 0, 0, 4294967295, false⟩]⟩
  | .cmdCritctr => ⟨0x0020808, 8, 3, 0, 1,
      [⟨0, 64, .ro, 0, 0, 18446744073709551615, false⟩]⟩
  | .cmdCriterr => ⟨0x0020820, 0, 1, 0, 1,
      [⟨0, 32, .ro, 0, 0, 4294967295, false⟩, ⟨32, 32, .ro, 0, 0, 4294967295, false⟩]⟩
  | .cmdCcl => ⟨0x0020828, 8, 2, 0, 1,
      [⟨0, 2, .ro, 0, 0, 3, false⟩, ⟨16, 16, .ro, 0, 0, 65535, true⟩, ⟨32, 32, .ro, 0, 0, 4294967295, false⟩]⟩
  | .glbBoot => ⟨0x0000100, 0, 1, 0, 1,
      [⟨0, 3, .ro, 0, 0, 7, false⟩, ⟨3, 1, .ro, 0, 0, 1, false⟩, ⟨16, 16, .ro, 0, 0, 65535, false⟩,
       ⟨32, 32, .ro, 0, 0, 4294967295, false⟩]⟩
  | .glbResetcause => ⟨0x0000108, 0, 1, 0, 1,
      [⟨0, 4, .ro, 0, 0, 15, false⟩, ⟨32, 32, .ro, 0, 0, 4294967295, false⟩]⟩
  | .glbXalign => ⟨0x0000110, 0, 1, 0, 1,
      [⟨0, 16, .ro, 0, 0, 65535, false⟩, ⟨16, 16, .ro, 0, 0, 65535, false⟩, ⟨32, 16, .ro, 0, 0, 65535, false⟩]⟩
  | .glbTrain => ⟨0x0000118, 0, 1, 0, 1,
      [⟨0, 14, .ro, 0, 0, 16383, false⟩, ⟨14, 1, .ro, 0, 0, 1, false⟩, ⟨16, 16, .ro, 0, 0, 65535, false⟩,
       ⟨32, 10, .ro, 0, 0, 1023, false⟩]⟩
  | .glbDepstart => ⟨0x0000120, 0, 1, 0, 1,
      [⟨0, 16, .ro, 0, 0, 65535, false⟩]⟩
  | .glbPreset => ⟨0x0000128, 0, 1, 0, 1,
      [⟨0, 16, .ro, 0, 0, 65535, true⟩, ⟨16, 16, .ro, 0, 0, 65535, true⟩, ⟨32, 16, .ro, 0, 0, 65535, true⟩,
       ⟨48, 16, .ro, 0, 0, 65535, true⟩]⟩
  | .fltCfg => ⟨0x0040000, 0, 1, 0, 1,
      [⟨0, 16, .rw, 1000, 10, 60000, false⟩, ⟨16, 1, .rw, 1, 0, 1, false⟩, ⟨24, 7, .rw, 16, 1, 64, false⟩]⟩
  | .fltCheck => ⟨0x0040008, 0, 1, 0, 1,
      [⟨0, 32, .ro, 0, 0, 4294967295, false⟩, ⟨32, 16, .ro, 0, 0, 65535, false⟩, ⟨48, 16, .ro, 0, 0, 65535, true⟩]⟩
  | .fltShadow => ⟨0x0040010, 0, 1, 0, 1,
      [⟨0, 32, .ro, 0, 0, 4294967295, false⟩, ⟨32, 32, .ro, 0, 0, 4294967295, false⟩]⟩
  | .fltCanary => ⟨0x0040018, 0, 1, 0, 1,
      [⟨0, 32, .ro, 0, 0, 4294967295, false⟩, ⟨32, 32, .ro, 0, 0, 4294967295, false⟩]⟩
  | .fltRetired0 => ⟨0x0040020, 0, 1, 0, 1,
      [⟨0, 8, .ro, 0, 0, 255, false⟩, ⟨8, 8, .ro, 0, 0, 255, false⟩, ⟨16, 8, .ro, 0, 0, 255, false⟩,
       ⟨24, 8, .ro, 0, 0, 255, false⟩, ⟨32, 16, .ro, 0, 0, 65535, false⟩, ⟨48, 16, .ro, 0, 0, 65535, false⟩]⟩
  | .fltRetired1 => ⟨0x0040028, 0, 1, 0, 1,
      [⟨0, 16, .ro, 0, 0, 65535, false⟩, ⟨16, 8, .ro, 0, 0, 255, false⟩, ⟨24, 8, .ro, 0, 0, 255, false⟩,
       ⟨32, 4, .ro, 0, 0, 15, false⟩, ⟨40, 5, .ro, 0, 0, 31, false⟩, ⟨48, 3, .ro, 0, 0, 7, false⟩]⟩
  | .fltFramesel => ⟨0x0040030, 0, 1, 0, 1,
      [⟨0, 8, .rw, 0, 0, 191, false⟩]⟩
  | .fltCells => ⟨0x0040038, 8, 8, 0, 1,
      [⟨0, 64, .ro, 0, 0, 18446744073709551615, false⟩]⟩
  | .fltFramestate => ⟨0x0040078, 0, 1, 0, 1,
      [⟨0, 3, .ro, 0, 0, 7, false⟩, ⟨16, 16, .ro, 0, 0, 65535, false⟩, ⟨32, 16, .ro, 0, 0, 65535, false⟩,
       ⟨48, 16, .ro, 0, 0, 65535, false⟩]⟩
  | .fltRecseq => ⟨0x0040080, 0, 1, 0, 1,
      [⟨0, 32, .ro, 0, 0, 4294967295, false⟩]⟩
  | .fltStrag => ⟨0x0040088, 0, 1, 0, 1,
      [⟨0, 32, .ro, 0, 0, 4294967295, true⟩, ⟨32, 7, .ro, 0, 0, 127, false⟩, ⟨39, 1, .ro, 0, 0, 1, false⟩]⟩
  | .fltOwn => ⟨0x0040090, 0, 1, 0, 1,
      [⟨0, 32, .ro, 0, 0, 4294967295, false⟩, ⟨32, 32, .ro, 0, 0, 4294967295, false⟩]⟩
  | .fltStatelost => ⟨0x0040098, 0, 1, 0, 1,
      [⟨0, 64, .ro, 0, 0, 18446744073709551615, false⟩]⟩
  | .fltRestart => ⟨0x00400A0, 0, 1, 0, 1,
      [⟨0, 32, .ro, 0, 0, 4294967295, false⟩, ⟨32, 32, .ro, 0, 0, 4294967295, false⟩]⟩
  | .fltTakeover => ⟨0x00400A8, 0, 1, 0, 1,
      [⟨0, 16, .ro, 0, 0, 65535, false⟩, ⟨16, 1, .ro, 0, 0, 1, false⟩]⟩
  | .secSeal => ⟨0x0050000, 0, 1, 0, 1,
      [⟨0, 1, .w1s, 0, 0, 1, false⟩]⟩
  | .secSealviol => ⟨0x0050008, 0, 1, 0, 1,
      [⟨0, 32, .ro, 0, 0, 4294967295, false⟩]⟩
  | .secKeystate => ⟨0x0050010, 0, 1, 0, 1,
      [⟨0, 1, .ro, 0, 0, 1, false⟩, ⟨32, 32, .ro, 0, 0, 4294967295, false⟩]⟩
  | .secOpkey => ⟨0x0050018, 8, 4, 0, 1,
      [⟨0, 64, .wo, 0, 0, 18446744073709551615, false⟩]⟩
  | .secKeyctl => ⟨0x0050038, 0, 1, 0, 1,
      [⟨0, 1, .wo, 0, 0, 1, false⟩]⟩
  | .secIsol => ⟨0x0050040, 0, 1, 0, 1,
      [⟨0, 1, .rw, 0, 0, 1, false⟩, ⟨1, 1, .rw, 0, 0, 1, false⟩, ⟨2, 1, .rw, 1, 0, 1, false⟩,
       ⟨3, 1, .rw, 0, 0, 1, false⟩, ⟨16, 10, .rw, 720, 550, 850, false⟩]⟩
  | .secSlicesel => ⟨0x0050048, 0, 1, 0, 1,
      [⟨0, 6, .rw, 0, 0, 63, false⟩]⟩
  | .secSliceinfo => ⟨0x0050050, 0, 1, 0, 1,
      [⟨0, 2, .ro, 0, 0, 3, false⟩, ⟨2, 1, .ro, 0, 0, 1, false⟩, ⟨3, 1, .ro, 0, 0, 1, false⟩,
       ⟨4, 4, .ro, 0, 0, 15, false⟩, ⟨8, 8, .ro, 0, 0, 255, false⟩, ⟨16, 16, .ro, 0, 0, 65535, false⟩,
       ⟨32, 16, .ro, 0, 0, 65535, false⟩, ⟨48, 16, .ro, 0, 0, 65535, false⟩]⟩
  | .secSlicemem => ⟨0x0050058, 0, 1, 0, 1,
      [⟨0, 10, .ro, 0, 0, 1023, false⟩, ⟨16, 8, .ro, 0, 0, 255, false⟩, ⟨24, 12, .ro, 0, 0, 4095, false⟩,
       ⟨48, 11, .ro, 0, 0, 2047, false⟩]⟩
  | .secClear => ⟨0x0050060, 0, 1, 0, 1,
      [⟨0, 32, .ro, 0, 0, 4294967295, false⟩, ⟨32, 16, .ro, 0, 0, 65535, true⟩, ⟨48, 1, .ro, 0, 0, 1, false⟩]⟩
  | .secAttest => ⟨0x0050068, 0, 1, 0, 1,
      [⟨0, 32, .ro, 0, 0, 4294967295, false⟩, ⟨32, 32, .ro, 0, 0, 4294967295, false⟩]⟩
  | .secAttctr => ⟨0x0050070, 0, 1, 0, 1,
      [⟨0, 64, .ro, 0, 0, 18446744073709551615, false⟩]⟩
  | .secDebug => ⟨0x0050078, 0, 1, 0, 1,
      [⟨0, 1, .ro, 0, 0, 1, false⟩, ⟨1, 1, .ro, 0, 0, 1, false⟩, ⟨2, 1, .ro, 0, 0, 1, false⟩]⟩
  | .secTracemask => ⟨0x0050080, 0, 1, 0, 1,
      [⟨0, 64, .ro, 0, 0, 18446744073709551615, false⟩]⟩
  | .stmState => ⟨0x0010000, 0, 1, 0, 1,
      [⟨0, 1, .ro, 0, 0, 1, false⟩, ⟨1, 2, .ro, 0, 0, 3, false⟩, ⟨3, 1, .ro, 0, 0, 1, false⟩,
       ⟨4, 1, .ro, 0, 0, 1, false⟩, ⟨32, 32, .ro, 0, 0, 4294967295, false⟩]⟩
  | .stmRollback => ⟨0x0010008, 0, 1, 0, 1,
      [⟨0, 32, .ro, 0, 0, 4294967295, false⟩, ⟨32, 32, .ro, 0, 0, 4294967295, false⟩]⟩
  | .stmStage => ⟨0x0010010, 0, 1, 0, 1,
      [⟨0, 2, .ro, 0, 0, 3, false⟩]⟩
  | .stmTrial => ⟨0x0010018, 0, 1, 0, 1,
      [⟨0, 16, .rw, 600, 60, 65535, false⟩, ⟨16, 16, .ro, 0, 0, 65535, false⟩, ⟨32, 2, .ro, 0, 0, 3, false⟩]⟩
  | .stmLog => ⟨0x0010020, 0, 1, 0, 1,
      [⟨0, 32, .ro, 0, 0, 4294967295, false⟩, ⟨32, 32, .ro, 0, 0, 4294967295, false⟩]⟩
  | .stmLogdrop => ⟨0x0010028, 0, 1, 0, 1,
      [⟨0, 32, .ro, 0, 0, 4294967295, false⟩]⟩
  | .stmLogsel => ⟨0x0010030, 0, 1, 0, 1,
      [⟨0, 32, .rw, 0, 0, 4294967295, false⟩, ⟨32, 1, .ro, 0, 0, 1, false⟩]⟩
  | .stmMgmt => ⟨0x0010038, 0, 1, 0, 1,
      [⟨0, 1, .ro, 0, 0, 1, false⟩, ⟨32, 32, .ro, 0, 0, 4294967295, false⟩]⟩
  | .stmMgmtaddr => ⟨0x0010040, 8, 2, 0, 1,
      [⟨0, 64, .rws, 0, 0, 18446744073709551615, false⟩]⟩
  | .stmFmaddr => ⟨0x0010050, 8, 2, 0, 1,
      [⟨0, 64, .rw, 0, 0, 18446744073709551615, false⟩]⟩
  | .stmTime => ⟨0x0010060, 0, 1, 0, 1,
      [⟨0, 1, .ro, 0, 0, 1, false⟩, ⟨1, 1, .rw, 0, 0, 1, false⟩, ⟨32, 32, .ro, 0, 0, 4294967295, false⟩]⟩
  | .stmLogwin => ⟨0x0011000, 8, 512, 0, 1,
      [⟨0, 64, .ro, 0, 0, 18446744073709551615, false⟩]⟩
  | .stmSense => ⟨0x0012000, 8, 512, 0, 1,
      [⟨0, 64, .ro, 0, 0, 18446744073709551615, false⟩]⟩
  | .pwrEnvelope => ⟨0x0030000, 0, 1, 0, 1,
      [⟨0, 16, .ro, 0, 0, 65535, false⟩, ⟨16, 16, .ro, 0, 0, 65535, false⟩]⟩
  | .pwrInput => ⟨0x0030008, 0, 1, 0, 1,
      [⟨0, 16, .ro, 0, 0, 65535, false⟩, ⟨16, 16, .ro, 0, 0, 65535, false⟩, ⟨32, 16, .ro, 0, 0, 65535, false⟩]⟩
  | .pwrRail => ⟨0x0030010, 8, 2, 0, 1,
      [⟨0, 10, .ro, 0, 0, 1023, false⟩, ⟨16, 10, .rw, 720, 550, 850, false⟩, ⟨32, 9, .ro, 0, 0, 511, false⟩]⟩
  | .pwrTherm => ⟨0x0030020, 8, 2, 0, 1,
      [⟨0, 16, .ro, 0, 0, 65535, false⟩, ⟨16, 1, .ro, 0, 0, 1, false⟩, ⟨32, 32, .ro, 0, 0, 4294967295, false⟩]⟩
  | .pwrTrip => ⟨0x0030030, 0, 1, 0, 1,
      [⟨0, 16, .ro, 0, 0, 65535, true⟩, ⟨16, 8, .ro, 0, 0, 255, false⟩]⟩
  | .pwrSlicesel => ⟨0x0030038, 0, 1, 0, 1,
      [⟨0, 6, .rw, 0, 0, 63, false⟩]⟩
  | .pwrSlice => ⟨0x0030040, 0, 1, 0, 1,
      [⟨0, 16, .ro, 0, 0, 65535, false⟩, ⟨16, 16, .ro, 0, 0, 65535, false⟩, ⟨32, 6, .ro, 0, 0, 63, false⟩,
       ⟨40, 16, .ro, 0, 0, 65535, false⟩]⟩
  | .pwrPaced => ⟨0x0030048, 0, 1, 0, 1,
      [⟨0, 32, .ro, 0, 0, 4294967295, false⟩, ⟨32, 32, .ro, 0, 0, 4294967295, false⟩]⟩

/-- Every register name, in the order of the tables. -/
def RegName.all : List RegName :=
  [.glbGrade, .glbId, .glbBadacc, .srcIdxsel, .srcIdxinfo0, .srcIdxinfo1,
   .srcIdxinfo2, .srcIdxinfo3, .srcWalks, .srcHoplimit, .srcCorrupt, .srcBeadchk,
   .srcSpill, .srcTkt, .srcTktmin, .srcTkthold, .srcSiding, .srcMergecfg,
   .srcRepair, .srcRepairpos, .srcReclaim, .srcWrbusy, .srcMerges, .srcSelcalls,
   .srcSelconfl, .srcSelchk, .srcSelinval, .srcSelshort, .srcRr1, .srcRr2,
   .srcRrapprox, .memTblsel, .memTblinfo0, .memTblrows, .memTblepoch, .memTblcfg,
   .memTblrepl, .memTblload, .memTblmigr, .memTblstale, .memTblsat, .memTblnonfin,
   .memTbldir, .cmpCvtsat, .cmpCvtnan, .cmpCarrysat, .cmpScannf, .cmpConst,
   .cmpArithflt, .cmpFramemap, .cmpGeominfo, .cmpAccsat, .cmpMmanf, .cmpSkip,
   .cmpMoepass, .cmpWinwait, .cmpFrameflt, .cmpAttncalls, .cmpAttnheads, .cmpAttnshort,
   .cmpAttncsat, .cmpAttnnf, .cmpAttnempty, .cmpKeyapp, .cmpConsists, .cmpRuns,
   .cmpRunfault, .cmpLoadref, .cmpBars, .cmpLastfault, .cmpFramebusy, .cmpBarlast,
   .memTiercap, .memTierused, .memTiercfg, .memMoves, .memMovewait, .memScrub,
   .memEcc, .memPoison, .memCodecin, .memCodecout, .memCodecerr, .memBufwait,
   .memBufshort, .depState, .depCap, .depHealth, .depRderr, .depUncorr,
   .depCorrhist, .depTemp, .depRetire, .depFlush, .depFlush1, .depRebuild,
   .depCfg, .depRdcfg, .depWrwait, .depRefresh, .depEpoch1, .depState1,
   .jugNode, .jugEpoch, .jugLease, .jugRetry, .jugPort, .jugFec,
   .jugLinkretx, .jugNoaccess, .jugStale, .jugAtomic, .jugSeqstale, .jugUnreach,
   .jugBadpkt, .jugRcache, .jugRchit, .jugRcmiss, .jugBarlast, .jugRsdone,
   .jugRsfail, .shpWeight, .shpCbs, .shpCredit, .shpJpol, .shpJdrop,
   .shpCclpol, .shpCcldrop, .shpVtime, .shpClosed, .shpTtstat, .shpTtbase,
   .shpTtcycle, .shpTtswitch, .shpTtadmin, .shpTtoper, .cmdRingcfg, .cmdRingarea,
   .cmdDataarea, .cmdRingerr, .cmdScan, .cmdCritctr, .cmdCriterr, .cmdCcl,
   .glbBoot, .glbResetcause, .glbXalign, .glbTrain, .glbDepstart, .glbPreset,
   .fltCfg, .fltCheck, .fltShadow, .fltCanary, .fltRetired0, .fltRetired1,
   .fltFramesel, .fltCells, .fltFramestate, .fltRecseq, .fltStrag, .fltOwn,
   .fltStatelost, .fltRestart, .fltTakeover, .secSeal, .secSealviol, .secKeystate,
   .secOpkey, .secKeyctl, .secIsol, .secSlicesel, .secSliceinfo, .secSlicemem,
   .secClear, .secAttest, .secAttctr, .secDebug, .secTracemask, .stmState,
   .stmRollback, .stmStage, .stmTrial, .stmLog, .stmLogdrop, .stmLogsel,
   .stmMgmt, .stmMgmtaddr, .stmFmaddr, .stmTime, .stmLogwin, .stmSense,
   .pwrEnvelope, .pwrInput, .pwrRail, .pwrTherm, .pwrTrip, .pwrSlicesel,
   .pwrSlice, .pwrPaced]

abbrev GLB_GRADE_VARIANT : FieldRef := ⟨.glbGrade, 0, 4, false⟩
abbrev GLB_GRADE_FRAMES : FieldRef := ⟨.glbGrade, 8, 8, false⟩
abbrev GLB_GRADE_STEP : FieldRef := ⟨.glbGrade, 16, 4, false⟩
abbrev GLB_GRADE_GEOM : FieldRef := ⟨.glbGrade, 24, 4, false⟩
abbrev GLB_GRADE_JDIES : FieldRef := ⟨.glbGrade, 28, 4, false⟩
abbrev GLB_ID_SERIAL : FieldRef := ⟨.glbId, 0, 64, false⟩
abbrev GLB_BADACC_WRITES : FieldRef := ⟨.glbBadacc, 0, 32, false⟩
abbrev GLB_BADACC_READS : FieldRef := ⟨.glbBadacc, 32, 16, true⟩
abbrev GLB_BADACC_LASTBLK : FieldRef := ⟨.glbBadacc, 48, 10, false⟩
abbrev SRC_IDXSEL_INDEX : FieldRef := ⟨.srcIdxsel, 0, 15, false⟩
abbrev SRC_IDXINFO0_OPEN : FieldRef := ⟨.srcIdxinfo0, 0, 1, false⟩
abbrev SRC_IDXINFO0_SKW : FieldRef := ⟨.srcIdxinfo0, 1, 2, false⟩
abbrev SRC_IDXINFO0_BOARDREC : FieldRef := ⟨.srcIdxinfo0, 3, 1, false⟩
abbrev SRC_IDXINFO0_DEGREE : FieldRef := ⟨.srcIdxinfo0, 4, 7, false⟩
abbrev SRC_IDXINFO0_ENTRIES : FieldRef := ⟨.srcIdxinfo0, 16, 11, false⟩
abbrev SRC_IDXINFO0_IMGVER : FieldRef := ⟨.srcIdxinfo0, 32, 32, false⟩
abbrev SRC_IDXINFO1_POINTS : FieldRef := ⟨.srcIdxinfo1, 0, 32, false⟩
abbrev SRC_IDXINFO1_CAPACITY : FieldRef := ⟨.srcIdxinfo1, 32, 32, false⟩
abbrev SRC_IDXINFO2_PINCUR : FieldRef := ⟨.srcIdxinfo2, 0, 32, false⟩
abbrev SRC_IDXINFO2_PINPREV : FieldRef := ⟨.srcIdxinfo2, 32, 32, false⟩
abbrev SRC_IDXINFO3_RECSIZE : FieldRef := ⟨.srcIdxinfo3, 0, 16, false⟩
abbrev SRC_IDXINFO3_FORMAT : FieldRef := ⟨.srcIdxinfo3, 16, 16, false⟩
abbrev SRC_IDXINFO3_TABLEVER : FieldRef := ⟨.srcIdxinfo3, 32, 32, false⟩
abbrev SRC_WALKS_COUNT : FieldRef := ⟨.srcWalks, 0, 64, false⟩
abbrev SRC_HOPLIMIT_COUNT : FieldRef := ⟨.srcHoplimit, 0, 64, false⟩
abbrev SRC_CORRUPT_COUNT : FieldRef := ⟨.srcCorrupt, 0, 64, false⟩
abbrev SRC_BEADCHK_FIRST : FieldRef := ⟨.srcBeadchk, 0, 32, false⟩
abbrev SRC_BEADCHK_SECOND : FieldRef := ⟨.srcBeadchk, 32, 32, false⟩
abbrev SRC_SPILL_COUNT : FieldRef := ⟨.srcSpill, 0, 64, false⟩
abbrev SRC_TKT_COUNTER : FieldRef := ⟨.srcTkt, 0, 48, false⟩
abbrev SRC_TKTMIN_RDMIN : FieldRef := ⟨.srcTktmin, 0, 48, false⟩
abbrev SRC_TKTHOLD_FLOOR : FieldRef := ⟨.srcTkthold, 0, 48, false⟩
abbrev SRC_SIDING_ACTFILL : FieldRef := ⟨.srcSiding, 0, 17, false⟩
abbrev SRC_SIDING_OTHFILL : FieldRef := ⟨.srcSiding, 17, 17, false⟩
abbrev SRC_SIDING_ACTBUF : FieldRef := ⟨.srcSiding, 34, 1, false⟩
abbrev SRC_SIDING_OTHSTATE : FieldRef := ⟨.srcSiding, 35, 2, false⟩
abbrev SRC_MERGECFG_CTX : FieldRef := ⟨.srcMergecfg, 0, 11, false⟩
abbrev SRC_MERGECFG_MERGESW : FieldRef := ⟨.srcMergecfg, 16, 11, false⟩
abbrev SRC_REPAIR_RATE : FieldRef := ⟨.srcRepair, 0, 16, false⟩
abbrev SRC_REPAIRPOS_NEXTID : FieldRef := ⟨.srcRepairpos, 0, 32, false⟩
abbrev SRC_REPAIRPOS_PASSES : FieldRef := ⟨.srcRepairpos, 32, 32, false⟩
abbrev SRC_RECLAIM_PENDING : FieldRef := ⟨.srcReclaim, 0, 32, false⟩
abbrev SRC_RECLAIM_FREE : FieldRef := ⟨.srcReclaim, 32, 32, false⟩
abbrev SRC_WRBUSY_COUNT : FieldRef := ⟨.srcWrbusy, 0, 64, false⟩
abbrev SRC_MERGES_COUNT : FieldRef := ⟨.srcMerges, 0, 64, false⟩
abbrev SRC_SELCALLS_COUNT : FieldRef := ⟨.srcSelcalls, 0, 64, false⟩
abbrev SRC_SELCONFL_COUNT : FieldRef := ⟨.srcSelconfl, 0, 64, false⟩
abbrev SRC_SELCHK_FIRST : FieldRef := ⟨.srcSelchk, 0, 32, false⟩
abbrev SRC_SELCHK_SECOND : FieldRef := ⟨.srcSelchk, 32, 32, false⟩
abbrev SRC_SELINVAL_COUNT : FieldRef := ⟨.srcSelinval, 0, 64, false⟩
abbrev SRC_SELSHORT_COUNT : FieldRef := ⟨.srcSelshort, 0, 64, false⟩
abbrev SRC_RR1_COUNT : FieldRef := ⟨.srcRr1, 0, 64, false⟩
abbrev SRC_RR2_COUNT : FieldRef := ⟨.srcRr2, 0, 64, false⟩
abbrev SRC_RRAPPROX_COUNT : FieldRef := ⟨.srcRrapprox, 0, 64, false⟩
abbrev MEM_TBLSEL_TABLE : FieldRef := ⟨.memTblsel, 0, 16, false⟩
abbrev MEM_TBLINFO0_OPEN : FieldRef := ⟨.memTblinfo0, 0, 1, false⟩
abbrev MEM_TBLINFO0_RFMT : FieldRef := ⟨.memTblinfo0, 1, 1, false⟩
abbrev MEM_TBLINFO0_OPT : FieldRef := ⟨.memTblinfo0, 2, 2, false⟩
abbrev MEM_TBLINFO0_STATEFMT : FieldRef := ⟨.memTblinfo0, 4, 1, false⟩
abbrev MEM_TBLINFO0_REPL : FieldRef := ⟨.memTblinfo0, 5, 1, false⟩
abbrev MEM_TBLINFO0_SHARD : FieldRef := ⟨.memTblinfo0, 6, 1, false⟩
abbrev MEM_TBLINFO0_W : FieldRef := ⟨.memTblinfo0, 16, 13, false⟩
abbrev MEM_TBLINFO0_NDEV : FieldRef := ⟨.memTblinfo0, 32, 9, false⟩
abbrev MEM_TBLINFO0_MYSHARD : FieldRef := ⟨.memTblinfo0, 41, 8, false⟩
abbrev MEM_TBLROWS_ROWS : FieldRef := ⟨.memTblrows, 0, 41, false⟩
abbrev MEM_TBLEPOCH_TEPOCH : FieldRef := ⟨.memTblepoch, 0, 32, false⟩
abbrev MEM_TBLEPOCH_MIGRATING : FieldRef := ⟨.memTblepoch, 32, 16, false⟩
abbrev MEM_TBLEPOCH_REPLROWS : FieldRef := ⟨.memTblepoch, 48, 16, false⟩
abbrev MEM_TBLCFG_MINT : FieldRef := ⟨.memTblcfg, 0, 14, false⟩
abbrev MEM_TBLCFG_MIGHI : FieldRef := ⟨.memTblcfg, 16, 9, false⟩
abbrev MEM_TBLCFG_MIGMAX : FieldRef := ⟨.memTblcfg, 32, 10, false⟩
abbrev MEM_TBLCFG_REPLSMALL : FieldRef := ⟨.memTblcfg, 48, 8, false⟩
abbrev MEM_TBLREPL_REPLTHR : FieldRef := ⟨.memTblrepl, 0, 32, false⟩
abbrev MEM_TBLLOAD_COUNT : FieldRef := ⟨.memTblload, 0, 64, false⟩
abbrev MEM_TBLMIGR_DONE : FieldRef := ⟨.memTblmigr, 0, 32, false⟩
abbrev MEM_TBLMIGR_ABANDONED : FieldRef := ⟨.memTblmigr, 32, 32, false⟩
abbrev MEM_TBLSTALE_COUNT : FieldRef := ⟨.memTblstale, 0, 64, false⟩
abbrev MEM_TBLSAT_COUNT : FieldRef := ⟨.memTblsat, 0, 64, false⟩
abbrev MEM_TBLNONFIN_COUNT : FieldRef := ⟨.memTblnonfin, 0, 64, false⟩
abbrev MEM_TBLDIR_ENTRIES : FieldRef := ⟨.memTbldir, 0, 32, false⟩
abbrev MEM_TBLDIR_FULL : FieldRef := ⟨.memTbldir, 32, 32, false⟩
abbrev CMP_CVTSAT_COUNT : FieldRef := ⟨.cmpCvtsat, 0, 64, false⟩
abbrev CMP_CVTNAN_COUNT : FieldRef := ⟨.cmpCvtnan, 0, 64, false⟩
abbrev CMP_CARRYSAT_COUNT : FieldRef := ⟨.cmpCarrysat, 0, 64, false⟩
abbrev CMP_SCANNF_COUNT : FieldRef := ⟨.cmpScannf, 0, 64, false⟩
abbrev CMP_CONST_COUNT : FieldRef := ⟨.cmpConst, 0, 64, false⟩
abbrev CMP_ARITHFLT_SCALEBAD : FieldRef := ⟨.cmpArithflt, 0, 16, true⟩
abbrev CMP_ARITHFLT_CARRYBAD : FieldRef := ⟨.cmpArithflt, 16, 16, true⟩
abbrev CMP_ARITHFLT_NANTRAP : FieldRef := ⟨.cmpArithflt, 32, 16, true⟩
abbrev CMP_ARITHFLT_FMT : FieldRef := ⟨.cmpArithflt, 48, 16, true⟩
abbrev CMP_FRAMEMAP_INSERVICE : FieldRef := ⟨.cmpFramemap, 0, 64, false⟩
abbrev CMP_GEOMINFO_GEOMMAX : FieldRef := ⟨.cmpGeominfo, 0, 4, false⟩
abbrev CMP_GEOMINFO_PARTS : FieldRef := ⟨.cmpGeominfo, 8, 8, false⟩
abbrev CMP_GEOMINFO_INSERV : FieldRef := ⟨.cmpGeominfo, 16, 8, false⟩
abbrev CMP_ACCSAT_COUNT : FieldRef := ⟨.cmpAccsat, 0, 64, false⟩
abbrev CMP_MMANF_COUNT : FieldRef := ⟨.cmpMmanf, 0, 64, false⟩
abbrev CMP_SKIP_COUNT : FieldRef := ⟨.cmpSkip, 0, 64, false⟩
abbrev CMP_MOEPASS_COUNT : FieldRef := ⟨.cmpMoepass, 0, 64, false⟩
abbrev CMP_WINWAIT_COUNT : FieldRef := ⟨.cmpWinwait, 0, 64, false⟩
abbrev CMP_FRAMEFLT_BANKMODE : FieldRef := ⟨.cmpFrameflt, 0, 16, true⟩
abbrev CMP_FRAMEFLT_SPARSE : FieldRef := ⟨.cmpFrameflt, 16, 16, true⟩
abbrev CMP_FRAMEFLT_WINDOW : FieldRef := ⟨.cmpFrameflt, 32, 16, true⟩
abbrev CMP_FRAMEFLT_TALLY : FieldRef := ⟨.cmpFrameflt, 48, 16, true⟩
abbrev CMP_ATTNCALLS_COUNT : FieldRef := ⟨.cmpAttncalls, 0, 64, false⟩
abbrev CMP_ATTNHEADS_COUNT : FieldRef := ⟨.cmpAttnheads, 0, 64, false⟩
abbrev CMP_ATTNSHORT_COUNT : FieldRef := ⟨.cmpAttnshort, 0, 64, false⟩
abbrev CMP_ATTNCSAT_COUNT : FieldRef := ⟨.cmpAttncsat, 0, 64, false⟩
abbrev CMP_ATTNNF_COUNT : FieldRef := ⟨.cmpAttnnf, 0, 64, false⟩
abbrev CMP_ATTNEMPTY_COUNT : FieldRef := ⟨.cmpAttnempty, 0, 64, false⟩
abbrev CMP_KEYAPP_COUNT : FieldRef := ⟨.cmpKeyapp, 0, 64, false⟩
abbrev CMP_CONSISTS_LOADED : FieldRef := ⟨.cmpConsists, 0, 16, false⟩
abbrev CMP_CONSISTS_RUNNING : FieldRef := ⟨.cmpConsists, 16, 16, false⟩
abbrev CMP_CONSISTS_WAITING : FieldRef := ⟨.cmpConsists, 32, 16, false⟩
abbrev CMP_RUNS_COUNT : FieldRef := ⟨.cmpRuns, 0, 64, false⟩
abbrev CMP_RUNFAULT_COUNT : FieldRef := ⟨.cmpRunfault, 0, 64, false⟩
abbrev CMP_LOADREF_COUNT : FieldRef := ⟨.cmpLoadref, 0, 64, false⟩
abbrev CMP_BARS_COUNT : FieldRef := ⟨.cmpBars, 0, 64, false⟩
abbrev CMP_LASTFAULT_CAUSE : FieldRef := ⟨.cmpLastfault, 0, 16, false⟩
abbrev CMP_LASTFAULT_PFRAME : FieldRef := ⟨.cmpLastfault, 16, 8, false⟩
abbrev CMP_LASTFAULT_TIMELO : FieldRef := ⟨.cmpLastfault, 32, 32, false⟩
abbrev CMP_FRAMEBUSY_CLAIMED : FieldRef := ⟨.cmpFramebusy, 0, 64, false⟩
abbrev CMP_BARLAST_COUNT : FieldRef := ⟨.cmpBarlast, 0, 64, false⟩
abbrev MEM_TIERCAP_BYTES : FieldRef := ⟨.memTiercap, 0, 64, false⟩
abbrev MEM_TIERUSED_BYTES : FieldRef := ⟨.memTierused, 0, 64, false⟩
abbrev MEM_TIERCFG_TINT : FieldRef := ⟨.memTiercfg, 0, 14, false⟩
abbrev MEM_TIERCFG_PROMTHR : FieldRef := ⟨.memTiercfg, 16, 16, false⟩
abbrev MEM_TIERCFG_DEMTHR : FieldRef := ⟨.memTiercfg, 32, 16, false⟩
abbrev MEM_TIERCFG_CONCMAX : FieldRef := ⟨.memTiercfg, 48, 8, false⟩
abbrev MEM_MOVES_PROMOTED : FieldRef := ⟨.memMoves, 0, 32, false⟩
abbrev MEM_MOVES_DEMOTED : FieldRef := ⟨.memMoves, 32, 32, false⟩
abbrev MEM_MOVEWAIT_COUNT : FieldRef := ⟨.memMovewait, 0, 64, false⟩
abbrev MEM_SCRUB_PERIOD : FieldRef := ⟨.memScrub, 0, 8, false⟩
abbrev MEM_SCRUB_PASSES : FieldRef := ⟨.memScrub, 16, 32, false⟩
abbrev MEM_ECC_CORR : FieldRef := ⟨.memEcc, 0, 32, false⟩
abbrev MEM_ECC_UNCORR : FieldRef := ⟨.memEcc, 32, 16, true⟩
abbrev MEM_POISON_UNITS : FieldRef := ⟨.memPoison, 0, 32, false⟩
abbrev MEM_CODECIN_BYTES : FieldRef := ⟨.memCodecin, 0, 64, false⟩
abbrev MEM_CODECOUT_BYTES : FieldRef := ⟨.memCodecout, 0, 64, false⟩
abbrev MEM_CODECERR_DECODE : FieldRef := ⟨.memCodecerr, 0, 32, false⟩
abbrev MEM_CODECERR_ENCODE : FieldRef := ⟨.memCodecerr, 32, 32, false⟩
abbrev MEM_BUFWAIT_COUNT : FieldRef := ⟨.memBufwait, 0, 64, false⟩
abbrev MEM_BUFSHORT_COUNT : FieldRef := ⟨.memBufshort, 0, 64, false⟩
abbrev DEP_STATE_STATE : FieldRef := ⟨.depState, 0, 3, false⟩
abbrev DEP_STATE_CHINSERV : FieldRef := ⟨.depState, 8, 16, false⟩
abbrev DEP_STATE_EPOCH : FieldRef := ⟨.depState, 32, 32, false⟩
abbrev DEP_CAP_RAW : FieldRef := ⟨.depCap, 0, 32, false⟩
abbrev DEP_CAP_LOGICAL : FieldRef := ⟨.depCap, 32, 32, false⟩
abbrev DEP_HEALTH_SPARE : FieldRef := ⟨.depHealth, 0, 10, false⟩
abbrev DEP_HEALTH_WEAR : FieldRef := ⟨.depHealth, 16, 10, false⟩
abbrev DEP_HEALTH_PSLCFILL : FieldRef := ⟨.depHealth, 32, 7, false⟩
abbrev DEP_RDERR_RETRY : FieldRef := ⟨.depRderr, 0, 32, false⟩
abbrev DEP_RDERR_SOFT : FieldRef := ⟨.depRderr, 32, 32, false⟩
abbrev DEP_UNCORR_UNCORR : FieldRef := ⟨.depUncorr, 0, 32, false⟩
abbrev DEP_UNCORR_LOST : FieldRef := ⟨.depUncorr, 32, 32, false⟩
abbrev DEP_CORRHIST_COUNT : FieldRef := ⟨.depCorrhist, 0, 64, false⟩
abbrev DEP_TEMP_MIN : FieldRef := ⟨.depTemp, 0, 12, false⟩
abbrev DEP_TEMP_MAX : FieldRef := ⟨.depTemp, 12, 12, false⟩
abbrev DEP_TEMP_H70 : FieldRef := ⟨.depTemp, 24, 16, false⟩
abbrev DEP_TEMP_H85 : FieldRef := ⟨.depTemp, 40, 12, false⟩
abbrev DEP_TEMP_H95 : FieldRef := ⟨.depTemp, 52, 12, false⟩
abbrev DEP_RETIRE_BLOCKS : FieldRef := ⟨.depRetire, 0, 16, false⟩
abbrev DEP_RETIRE_DIES : FieldRef := ⟨.depRetire, 16, 8, false⟩
abbrev DEP_RETIRE_CHANNELS : FieldRef := ⟨.depRetire, 24, 5, false⟩
abbrev DEP_RETIRE_PROGFAIL : FieldRef := ⟨.depRetire, 32, 16, false⟩
abbrev DEP_RETIRE_ERASEFAIL : FieldRef := ⟨.depRetire, 48, 16, false⟩
abbrev DEP_FLUSH_FLUSH : FieldRef := ⟨.depFlush, 0, 64, false⟩
abbrev DEP_FLUSH1_FLUSH : FieldRef := ⟨.depFlush1, 0, 64, false⟩
abbrev DEP_REBUILD_MS : FieldRef := ⟨.depRebuild, 0, 32, false⟩
abbrev DEP_REBUILD_DISCARD : FieldRef := ⟨.depRebuild, 32, 16, false⟩
abbrev DEP_REBUILD_RECON : FieldRef := ⟨.depRebuild, 48, 16, false⟩
abbrev DEP_CFG_PSLC : FieldRef := ⟨.depCfg, 0, 4, false⟩
abbrev DEP_CFG_OP : FieldRef := ⟨.depCfg, 8, 8, false⟩
abbrev DEP_CFG_PATROL : FieldRef := ⟨.depCfg, 16, 8, false⟩
abbrev DEP_RDCFG_REFRESH : FieldRef := ⟨.depRdcfg, 0, 32, false⟩
abbrev DEP_RDCFG_EMERG : FieldRef := ⟨.depRdcfg, 32, 32, false⟩
abbrev DEP_WRWAIT_COUNT : FieldRef := ⟨.depWrwait, 0, 64, false⟩
abbrev DEP_REFRESH_SCHED : FieldRef := ⟨.depRefresh, 0, 32, false⟩
abbrev DEP_REFRESH_EMERG : FieldRef := ⟨.depRefresh, 32, 32, false⟩
abbrev DEP_EPOCH1_EPOCH : FieldRef := ⟨.depEpoch1, 0, 32, false⟩
abbrev DEP_STATE1_STATE : FieldRef := ⟨.depState1, 0, 3, false⟩
abbrev JUG_NODE_NODE : FieldRef := ⟨.jugNode, 0, 17, false⟩
abbrev JUG_EPOCH_EPOCH : FieldRef := ⟨.jugEpoch, 0, 32, false⟩
abbrev JUG_EPOCH_STATE : FieldRef := ⟨.jugEpoch, 32, 2, false⟩
abbrev JUG_LEASE_REMAIN : FieldRef := ⟨.jugLease, 0, 32, false⟩
abbrev JUG_LEASE_GRANTS : FieldRef := ⟨.jugLease, 32, 32, false⟩
abbrev JUG_RETRY_ATIMEOUT : FieldRef := ⟨.jugRetry, 0, 4, false⟩
abbrev JUG_RETRY_RETRIES : FieldRef := ⟨.jugRetry, 4, 3, false⟩
abbrev JUG_PORT_STATE : FieldRef := ⟨.jugPort, 0, 2, false⟩
abbrev JUG_PORT_LANES : FieldRef := ⟨.jugPort, 2, 4, false⟩
abbrev JUG_PORT_RETIRED : FieldRef := ⟨.jugPort, 6, 4, false⟩
abbrev JUG_FEC_CORR : FieldRef := ⟨.jugFec, 0, 32, false⟩
abbrev JUG_FEC_UNCORR : FieldRef := ⟨.jugFec, 32, 32, false⟩
abbrev JUG_LINKRETX_CRCERR : FieldRef := ⟨.jugLinkretx, 0, 32, false⟩
abbrev JUG_LINKRETX_REPLAYS : FieldRef := ⟨.jugLinkretx, 32, 32, false⟩
abbrev JUG_NOACCESS_COUNT : FieldRef := ⟨.jugNoaccess, 0, 64, false⟩
abbrev JUG_STALE_IN : FieldRef := ⟨.jugStale, 0, 32, false⟩
abbrev JUG_STALE_OUT : FieldRef := ⟨.jugStale, 32, 32, false⟩
abbrev JUG_ATOMIC_REPLAYED : FieldRef := ⟨.jugAtomic, 0, 32, false⟩
abbrev JUG_ATOMIC_BUSY : FieldRef := ⟨.jugAtomic, 32, 32, false⟩
abbrev JUG_SEQSTALE_COUNT : FieldRef := ⟨.jugSeqstale, 0, 64, false⟩
abbrev JUG_UNREACH_COUNT : FieldRef := ⟨.jugUnreach, 0, 64, false⟩
abbrev JUG_BADPKT_COUNT : FieldRef := ⟨.jugBadpkt, 0, 64, false⟩
abbrev JUG_RCACHE_SIZE : FieldRef := ⟨.jugRcache, 0, 6, false⟩
abbrev JUG_RCHIT_COUNT : FieldRef := ⟨.jugRchit, 0, 64, false⟩
abbrev JUG_RCMISS_COUNT : FieldRef := ⟨.jugRcmiss, 0, 64, false⟩
abbrev JUG_BARLAST_COUNT : FieldRef := ⟨.jugBarlast, 0, 64, false⟩
abbrev JUG_RSDONE_ENCODED : FieldRef := ⟨.jugRsdone, 0, 32, false⟩
abbrev JUG_RSDONE_REBUILT : FieldRef := ⟨.jugRsdone, 32, 32, false⟩
abbrev JUG_RSFAIL_SHORT : FieldRef := ⟨.jugRsfail, 0, 32, false⟩
abbrev JUG_RSFAIL_BADUNIT : FieldRef := ⟨.jugRsfail, 32, 32, false⟩
abbrev SHP_WEIGHT_WEIGHT : FieldRef := ⟨.shpWeight, 0, 8, false⟩
abbrev SHP_CBS_EN : FieldRef := ⟨.shpCbs, 0, 1, false⟩
abbrev SHP_CBS_FILL : FieldRef := ⟨.shpCbs, 1, 1, false⟩
abbrev SHP_CBS_IDLE : FieldRef := ⟨.shpCbs, 4, 20, false⟩
abbrev SHP_CBS_HICREDIT : FieldRef := ⟨.shpCbs, 24, 24, false⟩
abbrev SHP_CREDIT_CREDIT : FieldRef := ⟨.shpCredit, 0, 32, false⟩
abbrev SHP_JPOL_EN : FieldRef := ⟨.shpJpol, 0, 1, false⟩
abbrev SHP_JPOL_RATE : FieldRef := ⟨.shpJpol, 4, 20, false⟩
abbrev SHP_JPOL_BURST : FieldRef := ⟨.shpJpol, 24, 24, false⟩
abbrev SHP_JDROP_COUNT : FieldRef := ⟨.shpJdrop, 0, 64, false⟩
abbrev SHP_CCLPOL_EN : FieldRef := ⟨.shpCclpol, 0, 1, false⟩
abbrev SHP_CCLPOL_RATE : FieldRef := ⟨.shpCclpol, 4, 20, false⟩
abbrev SHP_CCLPOL_BURST : FieldRef := ⟨.shpCclpol, 24, 24, false⟩
abbrev SHP_CCLDROP_COUNT : FieldRef := ⟨.shpCcldrop, 0, 64, false⟩
abbrev SHP_VTIME_V : FieldRef := ⟨.shpVtime, 0, 64, false⟩
abbrev SHP_CLOSED_COUNT : FieldRef := ⟨.shpClosed, 0, 64, false⟩
abbrev SHP_TTSTAT_ENTRY : FieldRef := ⟨.shpTtstat, 0, 8, false⟩
abbrev SHP_TTSTAT_N : FieldRef := ⟨.shpTtstat, 8, 9, false⟩
abbrev SHP_TTSTAT_PENDING : FieldRef := ⟨.shpTtstat, 17, 1, false⟩
abbrev SHP_TTSTAT_STEPS : FieldRef := ⟨.shpTtstat, 32, 32, false⟩
abbrev SHP_TTBASE_BASE : FieldRef := ⟨.shpTtbase, 0, 64, false⟩
abbrev SHP_TTCYCLE_CYCLE : FieldRef := ⟨.shpTtcycle, 0, 32, false⟩
abbrev SHP_TTSWITCH_TIME : FieldRef := ⟨.shpTtswitch, 0, 64, false⟩
abbrev SHP_TTADMIN_DURATION : FieldRef := ⟨.shpTtadmin, 0, 32, false⟩
abbrev SHP_TTADMIN_GATES : FieldRef := ⟨.shpTtadmin, 32, 16, false⟩
abbrev SHP_TTOPER_DURATION : FieldRef := ⟨.shpTtoper, 0, 32, false⟩
abbrev SHP_TTOPER_GATES : FieldRef := ⟨.shpTtoper, 32, 16, false⟩
abbrev CMD_RINGCFG_EN : FieldRef := ⟨.cmdRingcfg, 0, 1, false⟩
abbrev CMD_RINGCFG_DRAINED : FieldRef := ⟨.cmdRingcfg, 1, 1, false⟩
abbrev CMD_RINGCFG_LOG2N : FieldRef := ⟨.cmdRingcfg, 2, 4, false⟩
abbrev CMD_RINGCFG_SLICE : FieldRef := ⟨.cmdRingcfg, 8, 8, false⟩
abbrev CMD_RINGCFG_INFLIGHT : FieldRef := ⟨.cmdRingcfg, 16, 9, false⟩
abbrev CMD_RINGAREA_OFFSET : FieldRef := ⟨.cmdRingarea, 0, 26, false⟩
abbrev CMD_DATAAREA_OFFSET : FieldRef := ⟨.cmdDataarea, 0, 26, false⟩
abbrev CMD_DATAAREA_SIZE : FieldRef := ⟨.cmdDataarea, 32, 26, false⟩
abbrev CMD_RINGERR_REFUSED : FieldRef := ⟨.cmdRingerr, 0, 32, false⟩
abbrev CMD_RINGERR_NORECORD : FieldRef := ⟨.cmdRingerr, 32, 32, false⟩
abbrev CMD_SCAN_MAXNS : FieldRef := ⟨.cmdScan, 0, 32, false⟩
abbrev CMD_CRITCTR_LAST : FieldRef := ⟨.cmdCritctr, 0, 64, false⟩
abbrev CMD_CRITERR_BADTAG : FieldRef := ⟨.cmdCriterr, 0, 32, false⟩
abbrev CMD_CRITERR_BADCTR : FieldRef := ⟨.cmdCriterr, 32, 32, false⟩
abbrev CMD_CCL_STATE : FieldRef := ⟨.cmdCcl, 0, 2, false⟩
abbrev CMD_CCL_BADPKT : FieldRef := ⟨.cmdCcl, 16, 16, true⟩
abbrev CMD_CCL_REPLAYS : FieldRef := ⟨.cmdCcl, 32, 32, false⟩
abbrev GLB_BOOT_PHASE : FieldRef := ⟨.glbBoot, 0, 3, false⟩
abbrev GLB_BOOT_IMAGE : FieldRef := ⟨.glbBoot, 3, 1, false⟩
abbrev GLB_BOOT_FAILCODE : FieldRef := ⟨.glbBoot, 16, 16, false⟩
abbrev GLB_BOOT_BOOTCOUNT : FieldRef := ⟨.glbBoot, 32, 32, false⟩
abbrev GLB_RESETCAUSE_KIND : FieldRef := ⟨.glbResetcause, 0, 4, false⟩
abbrev GLB_RESETCAUSE_READYMS : FieldRef := ⟨.glbResetcause, 32, 32, false⟩
abbrev GLB_XALIGN_ALIGNED : FieldRef := ⟨.glbXalign, 0, 16, false⟩
abbrev GLB_XALIGN_FAILED : FieldRef := ⟨.glbXalign, 16, 16, false⟩
abbrev GLB_XALIGN_RETRIES : FieldRef := ⟨.glbXalign, 32, 16, false⟩
abbrev GLB_TRAIN_DDRRATE : FieldRef := ⟨.glbTrain, 0, 14, false⟩
abbrev GLB_TRAIN_DDRTYPE : FieldRef := ⟨.glbTrain, 14, 1, false⟩
abbrev GLB_TRAIN_DDRCH : FieldRef := ⟨.glbTrain, 16, 16, false⟩
abbrev GLB_TRAIN_HBMPC : FieldRef := ⟨.glbTrain, 32, 10, false⟩
abbrev GLB_DEPSTART_LANES : FieldRef := ⟨.glbDepstart, 0, 16, false⟩
abbrev GLB_PRESET_SLICE : FieldRef := ⟨.glbPreset, 0, 16, true⟩
abbrev GLB_PRESET_FRAME : FieldRef := ⟨.glbPreset, 16, 16, true⟩
abbrev GLB_PRESET_PORT : FieldRef := ⟨.glbPreset, 32, 16, true⟩
abbrev GLB_PRESET_DEPOT : FieldRef := ⟨.glbPreset, 48, 16, true⟩
abbrev FLT_CFG_CANPERIOD : FieldRef := ⟨.fltCfg, 0, 16, false⟩
abbrev FLT_CFG_CANEN : FieldRef := ⟨.fltCfg, 16, 1, false⟩
abbrev FLT_CFG_STRAGTHR : FieldRef := ⟨.fltCfg, 24, 7, false⟩
abbrev FLT_CHECK_RESIDUE : FieldRef := ⟨.fltCheck, 0, 32, false⟩
abbrev FLT_CHECK_UNRESOLVED : FieldRef := ⟨.fltCheck, 32, 16, false⟩
abbrev FLT_CHECK_NONFIN : FieldRef := ⟨.fltCheck, 48, 16, true⟩
abbrev FLT_SHADOW_COMPARED : FieldRef := ⟨.fltShadow, 0, 32, false⟩
abbrev FLT_SHADOW_MISMATCH : FieldRef := ⟨.fltShadow, 32, 32, false⟩
abbrev FLT_CANARY_RUN : FieldRef := ⟨.fltCanary, 0, 32, false⟩
abbrev FLT_CANARY_FAILED : FieldRef := ⟨.fltCanary, 32, 32, false⟩
abbrev FLT_RETIRED0_FRAMES : FieldRef := ⟨.fltRetired0, 0, 8, false⟩
abbrev FLT_RETIRED0_QUARANTINED : FieldRef := ⟨.fltRetired0, 8, 8, false⟩
abbrev FLT_RETIRED0_SHUNTERS : FieldRef := ⟨.fltRetired0, 16, 8, false⟩
abbrev FLT_RETIRED0_SELECTORS : FieldRef := ⟨.fltRetired0, 24, 8, false⟩
abbrev FLT_RETIRED0_GRANULES : FieldRef := ⟨.fltRetired0, 32, 16, false⟩
abbrev FLT_RETIRED0_RETIRING : FieldRef := ⟨.fltRetired0, 48, 16, false⟩
abbrev FLT_RETIRED1_HBMPC : FieldRef := ⟨.fltRetired1, 0, 16, false⟩
abbrev FLT_RETIRED1_DDRRANKS : FieldRef := ⟨.fltRetired1, 16, 8, false⟩
abbrev FLT_RETIRED1_JGLANES : FieldRef := ⟨.fltRetired1, 24, 8, false⟩
abbrev FLT_RETIRED1_CCLLANES : FieldRef := ⟨.fltRetired1, 32, 4, false⟩
abbrev FLT_RETIRED1_CODEC : FieldRef := ⟨.fltRetired1, 40, 5, false⟩
abbrev FLT_RETIRED1_RS : FieldRef := ⟨.fltRetired1, 48, 3, false⟩
abbrev FLT_FRAMESEL_FRAME : FieldRef := ⟨.fltFramesel, 0, 8, false⟩
abbrev FLT_CELLS_COUNTS : FieldRef := ⟨.fltCells, 0, 64, false⟩
abbrev FLT_FRAMESTATE_STATE : FieldRef := ⟨.fltFramestate, 0, 3, false⟩
abbrev FLT_FRAMESTATE_LASTPAT : FieldRef := ⟨.fltFramestate, 16, 16, false⟩
abbrev FLT_FRAMESTATE_LASTTEMP : FieldRef := ⟨.fltFramestate, 32, 16, false⟩
abbrev FLT_FRAMESTATE_LASTVCORE : FieldRef := ⟨.fltFramestate, 48, 16, false⟩
abbrev FLT_RECSEQ_LAST : FieldRef := ⟨.fltRecseq, 0, 32, false⟩
abbrev FLT_STRAG_BARS : FieldRef := ⟨.fltStrag, 0, 32, true⟩
abbrev FLT_STRAG_LAST64 : FieldRef := ⟨.fltStrag, 32, 7, false⟩
abbrev FLT_STRAG_HINT : FieldRef := ⟨.fltStrag, 39, 1, false⟩
abbrev FLT_OWN_RECORDS : FieldRef := ⟨.fltOwn, 0, 32, false⟩
abbrev FLT_OWN_STALE : FieldRef := ⟨.fltOwn, 32, 32, false⟩
abbrev FLT_STATELOST_COUNT : FieldRef := ⟨.fltStatelost, 0, 64, false⟩
abbrev FLT_RESTART_RESTARTS : FieldRef := ⟨.fltRestart, 0, 32, false⟩
abbrev FLT_RESTART_NOTRESTARTABLE : FieldRef := ⟨.fltRestart, 32, 32, false⟩
abbrev FLT_TAKEOVER_COUNT : FieldRef := ⟨.fltTakeover, 0, 16, false⟩
abbrev FLT_TAKEOVER_ACTIVE : FieldRef := ⟨.fltTakeover, 16, 1, false⟩
abbrev SEC_SEAL_SEALED : FieldRef := ⟨.secSeal, 0, 1, false⟩
abbrev SEC_SEALVIOL_COUNT : FieldRef := ⟨.secSealviol, 0, 32, false⟩
abbrev SEC_KEYSTATE_OCK : FieldRef := ⟨.secKeystate, 0, 1, false⟩
abbrev SEC_KEYSTATE_ROTATIONS : FieldRef := ⟨.secKeystate, 32, 32, false⟩
abbrev SEC_OPKEY_KEY : FieldRef := ⟨.secOpkey, 0, 64, false⟩
abbrev SEC_KEYCTL_COMMIT : FieldRef := ⟨.secKeyctl, 0, 1, false⟩
abbrev SEC_ISOL_RAILFIX : FieldRef := ⟨.secIsol, 0, 1, false⟩
abbrev SEC_ISOL_TEMPCOARSE : FieldRef := ⟨.secIsol, 1, 1, false⟩
abbrev SEC_ISOL_NETTDM : FieldRef := ⟨.secIsol, 2, 1, false⟩
abbrev SEC_ISOL_JDTDM : FieldRef := ⟨.secIsol, 3, 1, false⟩
abbrev SEC_ISOL_RAILMV : FieldRef := ⟨.secIsol, 16, 10, false⟩
abbrev SEC_SLICESEL_SLICE : FieldRef := ⟨.secSlicesel, 0, 6, false⟩
abbrev SEC_SLICEINFO_STATE : FieldRef := ⟨.secSliceinfo, 0, 2, false⟩
abbrev SEC_SLICEINFO_SIGNREQ : FieldRef := ⟨.secSliceinfo, 2, 1, false⟩
abbrev SEC_SLICEINFO_BORROW : FieldRef := ⟨.secSliceinfo, 3, 1, false⟩
abbrev SEC_SLICEINFO_JDIES : FieldRef := ⟨.secSliceinfo, 4, 4, false⟩
abbrev SEC_SLICEINFO_FRAMES : FieldRef := ⟨.secSliceinfo, 8, 8, false⟩
abbrev SEC_SLICEINFO_GEN : FieldRef := ⟨.secSliceinfo, 16, 16, false⟩
abbrev SEC_SLICEINFO_CLASSES : FieldRef := ⟨.secSliceinfo, 32, 16, false⟩
abbrev SEC_SLICEINFO_POWER : FieldRef := ⟨.secSliceinfo, 48, 16, false⟩
abbrev SEC_SLICEMEM_PCS : FieldRef := ⟨.secSlicemem, 0, 10, false⟩
abbrev SEC_SLICEMEM_RANKS : FieldRef := ⟨.secSlicemem, 16, 8, false⟩
abbrev SEC_SLICEMEM_GRANULES : FieldRef := ⟨.secSlicemem, 24, 12, false⟩
abbrev SEC_SLICEMEM_NANDDIES : FieldRef := ⟨.secSlicemem, 48, 11, false⟩
abbrev SEC_CLEAR_DONE : FieldRef := ⟨.secClear, 0, 32, false⟩
abbrev SEC_CLEAR_FAILED : FieldRef := ⟨.secClear, 32, 16, true⟩
abbrev SEC_CLEAR_ACTIVE : FieldRef := ⟨.secClear, 48, 1, false⟩
abbrev SEC_ATTEST_SIGNED : FieldRef := ⟨.secAttest, 0, 32, false⟩
abbrev SEC_ATTEST_REFUSED : FieldRef := ⟨.secAttest, 32, 32, false⟩
abbrev SEC_ATTCTR_COUNT : FieldRef := ⟨.secAttctr, 0, 64, false⟩
abbrev SEC_DEBUG_JTAGFULL : FieldRef := ⟨.secDebug, 0, 1, false⟩
abbrev SEC_DEBUG_TRACE : FieldRef := ⟨.secDebug, 1, 1, false⟩
abbrev SEC_DEBUG_PROFILE : FieldRef := ⟨.secDebug, 2, 1, false⟩
abbrev SEC_TRACEMASK_SLICES : FieldRef := ⟨.secTracemask, 0, 64, false⟩
abbrev STM_STATE_ACTIVE : FieldRef := ⟨.stmState, 0, 1, false⟩
abbrev STM_STATE_STANDBY : FieldRef := ⟨.stmState, 1, 2, false⟩
abbrev STM_STATE_SLOT : FieldRef := ⟨.stmState, 3, 1, false⟩
abbrev STM_STATE_TRIAL : FieldRef := ⟨.stmState, 4, 1, false⟩
abbrev STM_STATE_VERSION : FieldRef := ⟨.stmState, 32, 32, false⟩
abbrev STM_ROLLBACK_COUNTER : FieldRef := ⟨.stmRollback, 0, 32, false⟩
abbrev STM_ROLLBACK_STAGEDVER : FieldRef := ⟨.stmRollback, 32, 32, false⟩
abbrev STM_STAGE_STATE : FieldRef := ⟨.stmStage, 0, 2, false⟩
abbrev STM_TRIAL_TRIALSEC : FieldRef := ⟨.stmTrial, 0, 16, false⟩
abbrev STM_TRIAL_REMAIN : FieldRef := ⟨.stmTrial, 16, 16, false⟩
abbrev STM_TRIAL_STARTS : FieldRef := ⟨.stmTrial, 32, 2, false⟩
abbrev STM_LOG_HEAD : FieldRef := ⟨.stmLog, 0, 32, false⟩
abbrev STM_LOG_TAIL : FieldRef := ⟨.stmLog, 32, 32, false⟩
abbrev STM_LOGDROP_COUNT : FieldRef := ⟨.stmLogdrop, 0, 32, false⟩
abbrev STM_LOGSEL_SEQ : FieldRef := ⟨.stmLogsel, 0, 32, false⟩
abbrev STM_LOGSEL_GONE : FieldRef := ⟨.stmLogsel, 32, 1, false⟩
abbrev STM_MGMT_LINK : FieldRef := ⟨.stmMgmt, 0, 1, false⟩
abbrev STM_MGMT_REFUSED : FieldRef := ⟨.stmMgmt, 32, 32, false⟩
abbrev STM_MGMTADDR_ADDR : FieldRef := ⟨.stmMgmtaddr, 0, 64, false⟩
abbrev STM_FMADDR_ADDR : FieldRef := ⟨.stmFmaddr, 0, 64, false⟩
abbrev STM_TIME_LOCKED : FieldRef := ⟨.stmTime, 0, 1, false⟩
abbrev STM_TIME_SRC : FieldRef := ⟨.stmTime, 1, 1, false⟩
abbrev STM_TIME_OFFSET : FieldRef := ⟨.stmTime, 32, 32, false⟩
abbrev STM_LOGWIN_DATA : FieldRef := ⟨.stmLogwin, 0, 64, false⟩
abbrev STM_SENSE_DATA : FieldRef := ⟨.stmSense, 0, 64, false⟩
abbrev PWR_ENVELOPE_ENV : FieldRef := ⟨.pwrEnvelope, 0, 16, false⟩
abbrev PWR_ENVELOPE_RESERVE : FieldRef := ⟨.pwrEnvelope, 16, 16, false⟩
abbrev PWR_INPUT_VOLTS : FieldRef := ⟨.pwrInput, 0, 16, false⟩
abbrev PWR_INPUT_AMPS : FieldRef := ⟨.pwrInput, 16, 16, false⟩
abbrev PWR_INPUT_POWER : FieldRef := ⟨.pwrInput, 32, 16, false⟩
abbrev PWR_RAIL_MV : FieldRef := ⟨.pwrRail, 0, 10, false⟩
abbrev PWR_RAIL_TARGET : FieldRef := ⟨.pwrRail, 16, 10, false⟩
abbrev PWR_RAIL_AMPS : FieldRef := ⟨.pwrRail, 32, 9, false⟩
abbrev PWR_THERM_MAX : FieldRef := ⟨.pwrTherm, 0, 16, false⟩
abbrev PWR_THERM_THROTTLE : FieldRef := ⟨.pwrTherm, 16, 1, false⟩
abbrev PWR_THERM_EVENTS : FieldRef := ⟨.pwrTherm, 32, 32, false⟩
abbrev PWR_TRIP_COUNT : FieldRef := ⟨.pwrTrip, 0, 16, true⟩
abbrev PWR_TRIP_DIODE : FieldRef := ⟨.pwrTrip, 16, 8, false⟩
abbrev PWR_SLICESEL_SLICE : FieldRef := ⟨.pwrSlicesel, 0, 6, false⟩
abbrev PWR_SLICE_BUDGET : FieldRef := ⟨.pwrSlice, 0, 16, false⟩
abbrev PWR_SLICE_DRAW : FieldRef := ⟨.pwrSlice, 16, 16, false⟩
abbrev PWR_SLICE_PACE : FieldRef := ⟨.pwrSlice, 32, 6, false⟩
abbrev PWR_SLICE_BORROWED : FieldRef := ⟨.pwrSlice, 40, 16, false⟩
abbrev PWR_PACED_COUNT : FieldRef := ⟨.pwrPaced, 0, 32, false⟩
abbrev PWR_PACED_EMERG : FieldRef := ⟨.pwrPaced, 32, 32, false⟩

end Sys2Proof.Machine
end

