-- ==== Sys2Proof/Machine/Maps.lean ====
section
/-! DEFINITION. Keyed tables and byte memories as plain sorted lists: the containers every unit of the PN-880 is held in.
A table lists its keys strictly rising. A memory lists no byte that equals what an unlisted address reads as: 0, since the
device zeroes its SRAM, its HBM and its DDR5 at start-up (R472, R481, R482). -/

namespace Sys2Proof.Machine

/-- A table from numbers to `α`, its keys strictly rising. -/
abbrev KMap (α : Type) := List (Nat × α)

/-- A memory of bytes, its addresses strictly rising and no listed byte 0. DEDUCED: log entry 8. -/
abbrev Mem := List Host.Cell

/-- The entry of key `k`. -/
def mapGet {α : Type} : KMap α → Nat → Option α
  | [], _ => none
  | (j, v) :: m, k => if k = j then some v else if k < j then none else mapGet m k

/-- The table with key `k` bound to `v`. -/
def mapSet {α : Type} : KMap α → Nat → α → KMap α
  | [], k, v => [(k, v)]
  | (j, w) :: m, k, v =>
    if k = j then (k, v) :: m
    else if k < j then (k, v) :: (j, w) :: m
    else (j, w) :: mapSet m k v

/-- The table without key `k`. -/
def mapErase {α : Type} : KMap α → Nat → KMap α
  | [], _ => []
  | (j, w) :: m, k => if k = j then m else if k < j then (j, w) :: m else (j, w) :: mapErase m k

/-- The entry of key `k`, or `d` where there is none. -/
def mapGetD {α : Type} (m : KMap α) (k : Nat) (d : α) : α := (mapGet m k).getD d

/-- The table with `f` applied to the entry of key `k`, if there is one. -/
def mapUpdate {α : Type} (m : KMap α) (k : Nat) (f : α → α) : KMap α :=
  match mapGet m k with
  | some v => mapSet m k (f v)
  | none => m

/-- The keys of a table, rising. -/
def mapKeys {α : Type} (m : KMap α) : List Nat := m.map Prod.fst

/-- The entries of a table in the order of their keys. -/
def mapVals {α : Type} (m : KMap α) : List α := m.map Prod.snd

/-- The table of the entries that satisfy `p`. -/
def mapFilter {α : Type} (m : KMap α) (p : Nat → α → Bool) : KMap α := m.filter fun e => p e.1 e.2

/-- The table with `f` applied to every entry. -/
def mapMap {α β : Type} (m : KMap α) (f : Nat → α → β) : KMap β := m.map fun e => (e.1, f e.1 e.2)

/-- The keys rise strictly. -/
def mapWf {α : Type} : KMap α → Bool
  | [] => true
  | [_] => true
  | (j, _) :: (k, w) :: m => decide (j < k) && mapWf ((k, w) :: m)

/-- The lowest number at or above `from` that is no key, looking at `fuel` numbers. -/
def mapFresh {α : Type} (m : KMap α) : Nat → Nat → Nat
  | 0, k => k
  | fuel + 1, k => if (mapGet m k).isSome then mapFresh m fuel (k + 1) else k

/-- The byte at address `a`. DEDUCED: log entry 8. -/
def memGet (m : Mem) (a : Nat) : Byte := mapGetD m a 0

/-- The memory with byte `b` at address `a`. -/
def memSet (m : Mem) (a : Nat) (b : Byte) : Mem :=
  if b = 0 then mapErase m a else mapSet m a b

/-- The `n` bytes from address `a` up. -/
def memRead (m : Mem) (a : Nat) : Nat → Bytes
  | 0 => []
  | n + 1 => memGet m a :: memRead m (a + 1) n

/-- The memory with the bytes `bs` stored from address `a` up. -/
def memWrite : Mem → Nat → Bytes → Mem
  | m, _, [] => m
  | m, a, b :: bs => memWrite (memSet m a b) (a + 1) bs

/-- The memory without the `n` bytes from address `a` up, which then read 0. -/
def memZero (m : Mem) (a n : Nat) : Mem := m.filter fun c => !(decide (a ≤ c.1) && decide (c.1 < a + n))

/-- The canonical form of a memory: addresses strictly rising, no listed byte 0. -/
def Memory.wf (m : Mem) : Bool := mapWf m && m.all fun c => decide (c.2 ≠ 0)

end Sys2Proof.Machine
end

