-- ==== Sys2Proof/Machine/StateSystem.lean ====
section
/-! DEFINITION. The state of the control side of the PN-880 as plain data: management flash, clock, pins, start-up, rings
and commands in flight, the Stationmaster, the slices and the ownership records (chapters 15 to 20). What a register shows
and nothing else holds stands in the registers themselves. -/

namespace Sys2Proof.Machine

/-- The signed device record (R475): whether its signature verifies, the identity it states, and the enable map of the
frames (bit f = physical frame f enabled). -/
structure DeviceRecord where
  sigOk : Bool
  serial : Word
  variant : Nat
  frames : Nat
  step : Nat
  geom : Nat
  enableMap : Nat
  mac : BitVec 48
  deriving DecidableEq, Repr

/-- A boot image slot of management flash (R474, R567): its header's fields, and whether its format, its measurement and its
signature check, which depend on the image's bytes alone. -/
structure FwSlot where
  present : Bool
  version : Nat
  floor : Nat
  variants : Nat
  measurement : Bytes
  measOk : Bool
  sigOk : Bool
  deriving DecidableEq, Repr

/-- A staged firmware image (R568): its total length, its bytes, and the byte ranges written. -/
structure StageBuf where
  total : Nat
  mem : Mem
  written : List (Nat × Nat)
  deriving DecidableEq, Repr

/-- One line of the retirement record (R504): unit id (Table 17-2), fault class, source and time. -/
structure RetireEntry where
  unit : Nat
  cls : FaultClass
  source : Nat
  time : Nat
  deriving DecidableEq, Repr

/-- The composition of a slice (Table 18-1): bitmaps of its units by the indexes of Table 17-2, its whole Junction dies, its
concourse granules, and the size of its namespace on each Depot in units (R529). -/
structure Composition where
  frames : Nat
  shunters : Nat
  selectors : Nat
  jdies : Nat
  granules : List Nat
  pcs : Nat
  ranks : Nat
  nandDies : Nat
  nsUnits : List Nat
  deriving DecidableEq, Repr

/-- STATE of a slice in the slice table (Table 18-10); a slice that a create or an amend is changing stands in the Stationmaster's
`changing` as well. -/
inductive SliceState where
  | inService | destroying
  deriving DecidableEq, Repr

/-- An entry of the slice table (R534): what TENANT_CREATE gave the slice, its policy key, and the namespace number it
holds on each Depot. -/
structure SliceEntry where
  st : SliceState
  signReq : Bool
  borrow : Bool
  classes : Nat
  power : Nat
  comp : Composition
  policyKey : Option Bytes
  namespaces : List (Option Nat)
  deriving DecidableEq, Repr

/-- What a window counts of a unit (R503). -/
inductive EventKind where
  | transient | uncorrectable | second | memberRetired | timeout
  deriving DecidableEq, Repr

/-- One event in a unit's window (R501): its kind and the monotonic time. -/
structure UnitEvent where
  kind : EventKind
  time : Nat
  deriving DecidableEq, Repr

/-- One CHECK event of a frame's cell (R514): temperature bin, pattern class, monotonic time. -/
structure CellEvent where
  bin : Nat
  cls : Nat
  time : Nat
  deriving DecidableEq, Repr

/-- A firmware trial (R570): the starts in trial, the slot to revert to and the FLOOR a commit would set. -/
structure Trial where
  starts : Nat
  prevSlot : Nat
  deriving DecidableEq, Repr

/-- Management flash: what survives every reset and loss of power on the control side. -/
structure MgmtFlash where
  record : DeviceRecord
  retired : List RetireEntry
  /-- Programmed log entries of 128 bytes by SEQ (R563). -/
  log : KMap Bytes
  slotA : FwSlot
  slotB : FwSlot
  /-- The slot marked active: 0 A, 1 B. -/
  activeSlot : Nat
  bootCount : Nat
  tripCount : Nat
  tripDiode : Nat
  /-- A trip that the next start-up logs (R559): its diode, the diode's temperature and its die's rail. -/
  tripToLog : Option (Nat × Int × Nat)
  takeovers : Nat
  /-- The wrap of the device key that JD1 unwraps is good (R542). -/
  dkWrap : Bool
  /-- Shutdown marker (R581). -/
  marker : Bool
  /-- Saved windows and cells (R501). -/
  windows : KMap (List UnitEvent)
  cells : KMap (List CellEvent)
  slices : KMap SliceEntry
  /-- Generation of each slice number (R551). -/
  gens : KMap Nat
  /-- Clears cut short by a loss of power, logged by the next start-up (R539): unit, from, to, cause. -/
  clearing : List (Nat × Nat × Nat × Nat)
  -- the replay-protected region
  rollback : Nat
  /-- Marks of the three counter domains (R468). -/
  marks : List Nat
  ock : Option Bytes
  rotations : Nat
  /-- SEC_ATTCTR and its mark (R547). -/
  attCtr : Nat
  attMark : Nat
  trial : Option Trial
  /-- JUG_RCACHE.SIZE as last written, for the next start-up (R426). -/
  rcache : Nat
  deriving DecidableEq, Repr

/-- The clocks: the station clock in ns and whether it runs (R473), the Stationmaster's monotonic timer in ns (R501), the
monotonic time zero of Table 16-1, PTP lock progress (R575), and gates held by a clock step (R439). -/
structure Clock where
  station : Nat
  running : Bool
  mono : Nat
  timeZero : Nat
  goodOffsets : Nat
  lastSync : Nat
  locked : Bool
  /-- PPS_OUT is high until this station time (Table 20-5). -/
  ppsHighUntil : Nat
  deriving DecidableEq, Repr

/-- The pins and supplies (chapter 20). -/
structure Pins where
  /-- The package is powered. -/
  powered : Bool
  /-- THERMTRIP_N is low: a trip is latched (R588). -/
  tripped : Bool
  refclk100 : Bool
  /-- REFCLK156 of each Junction die. -/
  refclk156 : List Bool
  /-- A pigtail is fitted to each CCL receptacle (R579). -/
  pigtail : List Bool
  deriving DecidableEq, Repr

/-- How far start-up has gone (Table 16-1). -/
structure Boot where
  /-- Crossings aligned, with the full threshold of the FIFO in each direction (R478), and crossings given up after the third
  attempt. -/
  aligned : List (Crossing × List Nat)
  failed : List Crossing
  /-- Failed attempts per crossing. -/
  attempts : List (Crossing × Nat)
  hbmDone : List Nat
  ddrDone : Bool
  nandDone : List (Nat × Nat)
  canariesDone : Bool
  lanesDone : List (Nat × Nat)
  /-- Units out of service since start-up that are not retired: DDR5 channels and NAND channels (R482, R483). -/
  ddrOut : List Nat
  nandOut : List (Nat × Nat)
  /-- A device reset waits for the 100 MHz reference (R589). -/
  waitRefclk : Bool
  /-- Rank geometry of each DDR5 channel in service: ranks and bytes of a rank. -/
  dimms : KMap (Nat × Nat)
  /-- Highest PHASE reached (Table 19-3). -/
  highPhase : Nat
  deriving DecidableEq, Repr

/-- Where a consumed command stands. -/
inductive CmdStage where
  /-- Consumed, not started. -/
  | consumed
  /-- Started and running. -/
  | running
  /-- Finished; its record is not yet written. -/
  | finished
  /-- Record written; COMPLETED has not passed it. -/
  | recorded
  deriving DecidableEq, Repr

/-- A consumed command (R453 to R456) with the outcome it has so far. -/
structure Cmd where
  ring : Nat
  seq : Nat
  slice : Nat
  entry : Bytes
  /-- Payload of a management command (R572); a ring command's payload lies in its data area. -/
  mgmtPayload : Bytes
  reqid : Nat
  stage : CmdStage
  status : Nat
  count : Nat
  ticket : Nat
  handle : Nat
  outputs : Bytes
  tadmit : Nat
  /-- A critical command whose tag and counter were accepted (R467). -/
  accepted : Bool
  /-- Set when the output block cannot hold a record (R456). -/
  noRecord : Bool
  /-- Progress of the operator: 0 until it has begun; the operator's chapter gives the rest. -/
  step : Nat
  /-- Monotonic time at which the operator's present step began. -/
  since : Nat
  /-- Progress counter and partial-result count (R458). -/
  progress : Nat
  pcount : Nat
  /-- The command published partial results (R291). -/
  partialSeen : Bool
  /-- The operator command key that takes effect when the command completes (R544). -/
  rekey : Option Bytes
  deriving DecidableEq, Repr

/-- A command ring (R448 to R458) apart from its configuration registers. -/
structure Ring where
  consumed : Nat
  completed : Nat
  /-- Status of command COMPLETED. -/
  lastStatus : Nat
  snap : Nat
  time : Nat
  lastScan : Nat
  /-- The status word as last written: PROGRESS, PCOUNT, PSEQ, STATUS and FLAGS. -/
  progress : Nat
  pcount : Nat
  pseq : Nat
  status : Nat
  flags : Nat
  /-- LOAD's staging buffer (R463). -/
  staging : Option StageBuf
  /-- Scanning is stopped by a slice reset (R493). -/
  stopped : Bool
  deriving DecidableEq, Repr

/-- A log entry not yet programmed (R564), its 128 bytes. -/
structure LogPending where
  seq : Nat
  bytes : Bytes
  time : Nat
  deriving DecidableEq, Repr

/-- Steps of an activation (Table 19-4). -/
inductive ActStage where
  | idle | standbyRestart | handover | activeRestart | handback
  deriving DecidableEq, Repr

/-- An activation in progress: its step, the command that asked for it (none: a revert of its own), its MODE, the slot it
activates and the slot it leaves. -/
structure Activation where
  stage : ActStage
  cmd : Option (Nat × Nat)
  mode : Nat
  slot : Nat
  deriving DecidableEq, Repr

/-- A partial reset under way (R492): KIND, TARGET and the management request that asked for it, with its COUNTER. -/
structure ResetJob where
  kind : Nat
  target : Nat
  format : Bool
  reqid : Nat
  counter : Nat
  deriving DecidableEq, Repr

/-- The last CHECK event of a frame (Table 17-11). -/
structure LastCheck where
  pattern : Nat
  temp : Int
  vcore : Nat
  deriving DecidableEq, Repr

/-- A canary running on a unit (R513). -/
structure Canary where
  unit : Nat
  cls : Nat
  number : Nat
  deriving DecidableEq, Repr

/-- What the standby mirrors (R557): pacing levels, windows and cells, the log entries not yet programmed, the fault manager's
acknowledgement, and the progress of the clock's lock. -/
structure Mirror where
  pace : KMap Nat
  windows : KMap (List UnitEvent)
  cells : KMap (List CellEvent)
  logPending : List LogPending
  faultAcked : Nat
  goodOffsets : Nat
  lastSync : Nat
  deriving DecidableEq, Repr

/-- The Stationmasters' volatile state (chapters 17 and 19). -/
structure Stationmaster where
  jd0Up : Bool
  jd1Up : Bool
  logPending : List LogPending
  /-- SEQ of the newest and of the oldest entry; NEXT = head + 1. -/
  logHead : Nat
  logTail : Nat
  /-- CHAIN of the newest entry. -/
  chain : Bytes
  /-- Second of the log limit, entries appended and entries dropped in it (R565). -/
  logSecond : Nat
  logCount : Nat
  logDropped : Nat
  lastFaultSeq : Nat
  faultAcked : Nat
  windows : KMap (List UnitEvent)
  cells : KMap (List CellEvent)
  /-- Passes of canaries: frame, bin, class, time (R513). -/
  canPasses : List (Nat × Nat × Nat × Nat)
  canaries : List Canary
  lastChecks : KMap LastCheck
  /-- Frames whose retirement waits for their run (R505), with the source. -/
  pendingFrames : KMap Nat
  /-- SRAM words that have been uncorrectable once: frame, allocation, offset (Table 17-3). -/
  sramUncorr : List (Nat × Nat × Nat)
  /-- Corrected errors of each frame's store in the present hour: hour and count (Table 17-3). -/
  eccHour : KMap (Nat × Nat)
  /-- Memory units that still drain (R506). -/
  retiring : List Nat
  pace : KMap Nat
  draw : KMap Nat
  borrowed : KMap Nat
  /-- Consecutive samples at or above 115 °C per diode (R559). -/
  hot : KMap Nat
  diodes : List Int
  jdHalved : List Nat
  hbmDouble : List Nat
  ddrDouble : List Nat
  /-- I3C devices that answer (R574). -/
  i3c : List Nat
  /-- The last governor pass was an emergency pass (R561). -/
  emergency : Bool
  act : Activation
  takeoverWindow : Bool
  trialPassed : Nat
  /-- The staged image (R568). -/
  stage : Option StageBuf
  /-- VERSION and FLOOR of the VERIFIED slot. -/
  verified : Option FwSlot
  /-- Partial resets accepted and not yet complete (R492). -/
  resetJobs : List ResetJob
  /-- SEC_OPKEY words written since the last reset (R543). -/
  opkey : List (Option Word)
  /-- The standby's copy of the active Stationmaster's volatile state (R557). -/
  mirror : Option Mirror
  /-- Fault records of a takeover's interval, sent after it (R524). -/
  heldRecords : List Bytes
  /-- Units being cleared (R539): unit and the start time. -/
  clearing : KMap Nat
  /-- Slices that a TENANT_CREATE is creating or amending, with what the slice is to become (R531, R532). -/
  changing : KMap SliceEntry
  /-- A patrol pass that SCRUB started is under way (R466). -/
  patrol : Bool
  telemetryAt : Nat
  /-- Failed trainings in a row of each lane (Table 17-3). -/
  laneFails : KMap Nat
  /-- Watchdog expiries of each Stationmaster since start-up (Table 17-3). -/
  watchdogs : KMap Nat
  deriving DecidableEq, Repr

/-- What slice telemetry counts of a slice (R554). -/
structure SliceCounts where
  cvtsat : Nat
  cvtnan : Nat
  carrysat : Nat
  accsat : Nat
  faultProg : Nat
  mismatch : Nat
  records : List Bytes
  deriving DecidableEq, Repr

/-- STATE of an ownership record (Table 17-8). -/
inductive OwnState where
  | owned | handed | importing
  deriving DecidableEq, Repr

/-- An ownership record of the state table (R519), with what the hand-off of R520 needs: whether the device holds a copy of
the request's state, the key the claim carried, and when DONE came. -/
structure OwnRecord where
  owner : Nat
  st : OwnState
  epoch : Nat
  hseq : Nat
  phase : Nat
  copy : Bool
  /-- Key of the record it was claimed from, and the owner it was claimed from (IMPORTING), or read access granted to (HANDED). -/
  fromEpoch : Nat
  fromHseq : Nat
  peer : Nat
  doneAt : Option Nat
  /-- Job whose traffic carries the claim and the reads. -/
  job : Nat
  deriving DecidableEq, Repr

end Sys2Proof.Machine
end

