-- ==== Sys2Proof/Machine/StateSearch.lean ====
section
/-! DEFINITION. The search engines' state as plain data: indexes with their sidings, merges, commit groups and stores, walks and
queries, embedding tables and attention sequences (chapters 2 to 5 and 8). -/

namespace Sys2Proof.Machine

-- ## Points (R48, R90, R150)

/-- A life record (Table 3-1); an id without one is unused. `ins` or `del` of all ones: not published, not deleted. -/
structure Life where
  ins : Nat
  del : Nat
  attr : Nat
  deriving DecidableEq, Repr

/-- A point record (R48): sketch, D neighbour slots, and whether the id has a record (R51); an id absent from the array holds the
empty record. -/
structure PointRec where
  sketch : Nat
  slots : List Nat
  present : Bool
  deriving DecidableEq, Repr

/-- An INT8 copy and its auxiliary record (R150). -/
structure Copy where
  codes : List Nat
  sx : Nat
  nx : Nat
  deriving DecidableEq, Repr

-- ## Writes (R92 to R100)

/-- State of a siding buffer (R101). -/
inductive BufState where
  | active | sealed | retiring | free
  deriving DecidableEq, Repr

/-- A siding buffer: its claimed slots in slot order (id, sketch), a vacant one with the null id; the seal ticket Ts (all ones while it
is open), the version current at the seal, and the merge's final version F. -/
structure Siding where
  st : BufState
  slots : List (Nat × Nat)
  ts : Nat
  v0 : Nat
  f : Nat
  deriving DecidableEq, Repr

/-- A new point of a staged write: local id, attribute, sketch. -/
structure NewPoint where
  id : Nat
  attr : Nat
  sketch : Nat
  deriving DecidableEq, Repr

/-- A write command that has been staged: its command (none: replayed), the ids it deletes, the points it adds, the siding buffer that
holds them, whether its vectors are acknowledged, and the ticket and status it has been given. -/
structure StagedWrite where
  ring : Nat
  seq : Nat
  olds : List Nat
  news : List NewPoint
  buf : Nat
  acked : Bool
  ticket : Nat
  status : Nat
  deriving DecidableEq, Repr

/-- A commit group (R94): when it opened and its commands in joining order. -/
structure CommitGroup where
  opened : Nat
  cmds : List StagedWrite
  deriving DecidableEq, Repr

/-- A change-log record of one command (R99): its ticket, the deleted ids, and the inserted points. -/
structure LogCmd where
  ticket : Nat
  olds : List Nat
  news : List NewPoint
  deriving DecidableEq, Repr

/-- A store (R596) apart from its vectors: the allocation that holds it, its fixed parameters, and its change log. -/
structure Store where
  dim : Nat
  vecfmt : Nat
  capacity : Nat
  logsize : Nat
  log : List LogCmd
  deriving DecidableEq, Repr

-- ## Merges and repair (R109 to R116)

/-- Phase of a merge (R109). -/
inductive MergeStage where
  | searching | publishing
  deriving DecidableEq, Repr

/-- A running merge: the buffer it takes, its pinned version, MERGESW, the forward candidates found so far (new point → ids), and the
lists left to publish, ascending. -/
structure Merge where
  buf : Nat
  v0 : Nat
  sw : Nat
  stage : MergeStage
  found : KMap (List Nat)
  lists : List (Nat × List Nat)
  newRecs : List Nat
  first : Bool
  deriving DecidableEq, Repr

/-- The repair pass (R115): whether it has read its first list, the next id, the ids it covers, the counter and the merges completed
at its start, the rewrites not yet published, and the version of its last publication. -/
structure Repair where
  started : Bool
  next : Nat
  upto : Nat
  startTicket : Nat
  startMerges : Nat
  passes : Nat
  staged : KMap (List Nat)
  lastPub : Option Nat
  deriving DecidableEq, Repr

/-- A completed repair pass: the counter and the merges completed at its start, and its completion version (R116). -/
structure PassDone where
  startTicket : Nat
  startMerges : Nat
  version : Nat
  deriving DecidableEq, Repr

/-- A save in progress (R598): its command, the name, whether it has begun, its pinned version and ticket, and the allocation it
writes. -/
structure Save where
  ring : Nat
  seq : Nat
  name : Nat
  begun : Bool
  version : Nat
  ticket : Nat
  alloc : Nat
  deriving DecidableEq, Repr

/-- An open index. `key`: it is a key graph of an attention sequence (R243). DEDUCED: log entry 67. -/
structure Index where
  slice : Nat
  key : Bool
  base : Nat
  skw : Nat
  degree : Nat
  vecfmt : Nat
  dim : Nat
  boardrec : Bool
  capacity : Nat
  pool : Nat
  proj : Bytes
  store : Nat
  entries : List Nat
  /-- Keys appended to a key graph. -/
  nkeys : Nat
  imgver : Nat
  /-- The version before the current one is still readable (R57). -/
  prevOk : Bool
  /-- The version before the current one. -/
  prev : Nat
  tablever : Nat
  /-- The change table and the undo pool: id → the list the previous version has (R58). -/
  undo : KMap (List Nat)
  /-- Ids whose records the current version introduced. -/
  fresh : List Nat
  counter : Nat
  floor : Nat
  life : KMap Life
  recs : KMap PointRec
  copies : KMap Copy
  bufs : List Siding
  act : Nat
  /-- Writes staged that have not joined a group, in the order in which they finished staging. -/
  staged : List StagedWrite
  openGroup : Option CommitGroup
  closedGroups : List CommitGroup
  pub : Option CommitGroup
  merge : Option Merge
  repair : Repair
  passesDone : List PassDone
  /-- SRC_REPAIR.RATE of the index. -/
  rate : Nat
  saves : List Save
  /-- Merges begun when an id's delete was published (R116). -/
  delAt : KMap Nat
  /-- Merges begun and completed since the index opened. -/
  mergesBegun : Nat
  mergesDone : Nat
  deriving DecidableEq, Repr

-- ## Walks and queries (R65 to R80, R149)

/-- A filter descriptor (Table 3-5). -/
structure Filter where
  mode : Nat
  mask : Nat
  hi : Nat
  deriving DecidableEq, Repr

/-- An entry of a platform. -/
structure PlatEntry where
  d : Nat
  id : Nat
  expanded : Bool
  deriving DecidableEq, Repr

/-- A walk (R69): what it was admitted with, the state of its pass, and its totals over passes. -/
structure Walk where
  index : Nat
  pin : Nat
  ticket : Nat
  filter : Option Filter
  q : Nat
  sw : Nat
  swmax : Nat
  hopmax : Nat
  batch : Nat
  entry : List Nat
  k : Nat
  autowiden : Bool
  shunter : Nat
  platform : List PlatEntry
  visited : KMap Unit
  hits : List (Nat × Nat)
  rounds : Nat
  expansions : Nat
  visrej : Nat
  filtrej : Nat
  allRounds : Nat
  allExpansions : Nat
  comparisons : Nat
  passes : Nat
  hoplimit : Bool
  /-- Passes that HOPMAX ended. -/
  hopPasses : Nat
  spill : Bool
  /-- Ids whose records read with an uncorrectable error, and whether the walk has met one (R76). -/
  bad : List Nat
  media : Bool
  /-- The last pass has ended. -/
  ended : Bool
  deriving DecidableEq, Repr

/-- What a sweep found (R105). -/
structure SweepRes where
  hits : List (Nat × Nat)
  swept : Nat
  visrej : Nat
  filtrej : Nat
  deriving DecidableEq, Repr

/-- An entry of a Selector row (R125): key code, position, id. -/
structure SelEntry where
  key : Nat
  pos : Nat
  id : Nat
  deriving DecidableEq, Repr

/-- A query between its stages (R149): index, ticket, what the last cut left and its summary, with the walk's figures. -/
structure Query where
  index : Nat
  ticket : Nat
  row : List SelEntry
  summary : Bytes
  stats : Bytes
  vec : List Nat
  /-- Stage 1 has run. -/
  staged1 : Bool
  visrej : Nat
  filtrej : Nat
  finalsw : Nat
  hoplimit : Bool
  widened : Bool
  deriving DecidableEq, Repr

-- ## Embedding tables (R157 to R174)

/-- A directory entry (R160): row, place (device of the set, or none for replicated), EM and EE. -/
structure DirEntry where
  row : Nat
  place : Option Nat
  em : Nat
  ee : Option Nat
  deriving DecidableEq, Repr

/-- A contribution of SCATADD (R165). -/
structure Contribution where
  epoch : Nat
  row : Nat
  src : Nat
  pos : Nat
  scale : Nat
  codes : List Nat
  deriving DecidableEq, Repr

/-- A row on its way from this shard to another (R173). -/
structure RowMove where
  target : Nat
  copied : Bool
  applies : Nat
  /-- Row images logged by APPLYs: value and state. -/
  log : List (Bytes × Bytes)
  em : Option Nat
  confirmed : Bool
  /-- T has been lost before it confirmed. -/
  lost : Bool
  deriving DecidableEq, Repr

/-- An open table (R157 to R161, R170 to R173). -/
structure Table where
  slice : Nat
  rows : Nat
  w : Nat
  rfmt : Nat
  shard : Nat
  opt : Nat
  statefmt : Nat
  b1 : Nat
  b2 : Nat
  eps : Nat
  repl : Bool
  devs : List Nat
  mine : Nat
  tepoch : Nat
  values : KMap Bytes
  states : KMap Bytes
  dir : List DirEntry
  grads : List Contribution
  /-- Requests of this interval: the total, and the first 16,384 distinct rows. -/
  total : Nat
  counts : KMap Nat
  lastTotal : Nat
  /-- Consecutive intervals overloaded, and intervals since open. -/
  overrun : Nat
  age : Nat
  /-- Consecutive intervals a replicated row has stayed below REPLTHR/4. -/
  cold : KMap Nat
  moves : KMap RowMove
  /-- Rows to replicate and replicated rows to return at the next APPLY. -/
  toRepl : List Nat
  toHome : List Nat
  /-- MEM_TBLCFG as the present interval takes it (R176). -/
  cfg : Nat
  migrDone : Nat
  migrAbandoned : Nat
  dirFull : Nat
  deriving DecidableEq, Repr

-- ## Sequences (R237 to R248)

/-- An open attention sequence: parameters, and its arrays over this device's segment by (layer × KVH + head) × 2³² + position. -/
structure Seq where
  slice : Nat
  layers : Nat
  kvh : Nat
  group : Nat
  dh : Nat
  kvfmt : Nat
  skw : Nat
  graph : Bool
  degree : Nat
  devs : List Nat
  mine : Nat
  hot : Bool
  vsum : Bool
  ibase : Nat
  proj : Bytes
  nkeys : KMap Nat
  keys : KMap (List Nat)
  vals : KMap (List Nat)
  sketches : KMap Nat
  /-- Checkpoints (R248), by (layer × KVH + head) × 2³² + number: DH sums in units of 2⁻¹⁴⁹. -/
  checks : KMap (List Int)
  deriving DecidableEq, Repr

end Sys2Proof.Machine
end

