-- ==== Sys2Proof/Machine/StateCompute.lean ====
section
/-! DEFINITION. The memory tiers, the consists, the runs and the frames as plain data (chapters 7, 9, 10 and 11). -/

namespace Sys2Proof.Machine

-- ## Memory tiers (chapter 11)

/-- Flags of a manifest entry (Table 9-6). -/
structure AllocFlags where
  hot : Bool
  warm : Bool
  cold : Bool
  stream : Bool
  persist : Bool
  pin : Bool
  share : Bool
  repl : Bool
  clear : Bool
  isLocal : Bool
  window : Bool
  deriving DecidableEq, Repr

/-- A page move under way (Table 11-4): its destination tier, whether the copy is done, the accesses it stalls, and the memory unit
that its destination lies on. -/
structure PageMove where
  alloc : Nat
  page : Nat
  dest : Nat
  copied : Bool
  stalled : Nat
  unit : Nat
  deriving DecidableEq, Repr

/-- An allocation: its owner, its flags, its place and its bytes. DEDUCED: log entry 8. -/
structure Alloc where
  slice : Nat
  /-- Handle of the consist whose manifest declares it; 0 for a named allocation no loaded consist holds. -/
  consist : Nat
  /-- Allocation number in the consist. -/
  num : Nat
  /-- Logical frame of a LOCAL instance. -/
  lframe : Nat
  name : Nat
  size : Nat
  flags : AllocFlags
  /-- Tier of its home (Table 11-1). -/
  tier : Nat
  /-- Pages that lie in another tier than the home: page and tier (fallen, promoted or spilt pages). -/
  pages : KMap Nat
  /-- Accesses per page in this interval, and intervals a promoted page has stayed below DEMTHR (R342, R343). -/
  hits : KMap Nat
  low : KMap Nat
  /-- Accesses per page in the last interval (R343). -/
  last : KMap Nat
  /-- Where its flash blocks lie in the slice's flash space (R366): first block of 4 KiB, first unit of the space, units. -/
  flash : List (Nat × Nat × Nat)
  /-- Intervals since the load (R342). -/
  age : Nat
  /-- Loaded consists that name it (R346). -/
  users : List Nat
  mem : Mem
  deriving DecidableEq, Repr

/-- Who holds memory that no manifest declares (R341, R403, R463, R536, R554). -/
inductive Holder where
  | index (n : Nat) | table (n : Nat) | seq (n : Nat) | job (n : Nat) | staging (ring : Nat) | search (key : Nat)
  deriving DecidableEq, Repr

/-- Memory of a tier that a structure holds, charged to a slice. -/
structure Charge where
  holder : Holder
  slice : Nat
  tier : Nat
  bytes : Nat
  deriving DecidableEq, Repr

/-- A poisoned unit (R354): its allocation, first byte and length. -/
structure Poison where
  alloc : Nat
  off : Nat
  len : Nat
  tier : Nat
  deriving DecidableEq, Repr

-- ## Consists (chapter 9)

/-- A queue of a frame image (Table 9-3): KIND 1 COMPLETION or 2 STREAM, and DEPTH. -/
structure QueueDecl where
  kind : Nat
  depth : Nat
  deriving DecidableEq, Repr

/-- A frame image (Table 9-3). -/
structure Image where
  entry : Nat
  queues : List QueueDecl
  tdbind : List Nat
  code : Bytes
  deriving DecidableEq, Repr

/-- A digest plan entry (Table 9-4). -/
structure DigestEntry where
  layer : Nat
  slot : Nat
  td : Nat
  record : Nat
  frames : Nat
  deriving DecidableEq, Repr

/-- A window record (Table 9-7). -/
structure WindowDecl where
  depth : Nat
  routed : Bool
  layers : Nat
  frames : Nat
  lstart : List Nat
  /-- Regions: tier-neutral address and length. -/
  regions : List (Nat × Nat)
  deriving DecidableEq, Repr

/-- A loaded consist (R255 to R259). -/
structure Consist where
  slice : Nat
  geom : Nat
  nframes : Nat
  srkey : Nat
  tallykey : Nat
  pubframe : Nat
  bartimeout : Nat
  runtimeout : Nat
  parambytes : Nat
  resultbytes : Nat
  images : List Image
  framemap : List Nat
  tds : List Bytes
  digestPlan : List DigestEntry
  windows : KMap WindowDecl
  /-- Allocation number → the ids of its instances: one, or one per logical frame for LOCAL. -/
  allocs : KMap (List Nat)
  /-- Load contents of the LOCAL instances, by allocation number (R264). -/
  locals : KMap Bytes
  deriving DecidableEq, Repr

-- ## Frames (chapters 7, 9, 10)

/-- Mode of an accumulator bank (R216). -/
inductive BankMode where
  | unstarted | int32 | fp32
  deriving DecidableEq, Repr

/-- An accumulator bank: what START loaded by column (absent columns 0), and the elements changed since by 128 × row + column. -/
structure Bank where
  mode : BankMode
  satb : Bool
  init : KMap Nat
  elems : KMap Nat
  deriving DecidableEq, Repr

/-- A descriptor register: its 64 bytes, or none when unbound or made invalid (R271). -/
structure TdReg where
  bytes : Option Bytes
  deriving DecidableEq, Repr

/-- A record of a STREAM queue: an entry of 16 bytes, or a producer's completion (R279). -/
structure StreamRec where
  completion : Bool
  bytes : Bytes
  deriving DecidableEq, Repr

/-- A queue of a frame (R279): its kind and depth; the calls naming it as OUTQ in issue order and not yet taken; the records
of a STREAM queue. -/
structure Queue where
  kind : Nat
  depth : Nat
  calls : List Nat
  recs : List StreamRec
  deriving DecidableEq, Repr

/-- What a frame waits for between bundles. -/
inductive FrameWait where
  | none
  /-- At barrier number n of group g (R284). -/
  | barrier (g n : Nat)
  /-- For the reply of fabric request `req`, into register d (R330, R332). -/
  | reply (req d : Nat)
  | halted
  /-- Held by JTAG (R552). -/
  | jtag
  deriving DecidableEq, Repr

/-- An MMA whose slabs are being added (R211, R320): its bundle, its fields, its operand descriptors, and the next slab. -/
structure MmaJob where
  form : Nat
  bank : Nat
  align : Nat
  zskip : Bool
  tda : Bytes
  tdw : Bytes
  tdx : Option Bytes
  tdi : Option Bytes
  nslabs : Nat
  next : Nat
  deriving DecidableEq, Repr

/-- A frame claimed by a run (R209, R267 to R271). -/
structure Frame where
  run : Nat
  lframe : Nat
  pc : Nat
  /-- s1–s31 by number, absent ones 0. -/
  sreg : KMap Word
  /-- p0–p7 as a mask. -/
  preg : Nat
  vreg : KMap (BitVec 2048)
  areg : KMap Word
  tds : KMap Bytes
  queues : KMap Queue
  banks : KMap Bank
  /-- The MMA that the rod array is working on. -/
  mma : Option MmaJob
  wait : FrameWait
  /-- The barrier of the present bundle has completed. -/
  barPassed : Bool
  /-- Barriers of group 0 and 1 the frame has reached. -/
  bars0 : Nat
  bars1 : Nat
  /-- Remote stores not yet acknowledged (fabric request numbers), and the first failed address (R310). -/
  stores : List Nat
  failed : Option Nat
  /-- Halt at its next bundle with HALT_PEER (R288). -/
  peerHalt : Bool
  /-- The stall of this bundle has been counted in CMP_WINWAIT. -/
  counted : Bool
  /-- Outcome: cause, halt code and time. -/
  cause : Nat
  haltCode : Nat
  deriving DecidableEq, Repr

/-- A tally slot (R234, R311). -/
structure TallySlot where
  entry : DigestEntry
  digest : BitVec 128
  count : Nat
  closed : List Nat
  deriving DecidableEq, Repr

/-- A layer window of a run (R227, R228): declarations by logical frame, layers fetched, expert bitmaps supplied. -/
structure WindowState where
  decls : KMap Nat
  /-- The last layer each frame declared; its first declaration counts as 0 above. -/
  last : KMap Nat
  fetched : List Nat
  bitmaps : KMap Nat
  deriving DecidableEq, Repr

/-- A run (R266 to R290). -/
structure Run where
  ring : Nat
  seq : Nat
  slice : Nat
  handle : Nat
  /-- Physical frames by logical frame; empty while the run waits for frames. -/
  phys : List Nat
  job : Nat
  tallies : KMap TallySlot
  windows : KMap WindowState
  startedAt : Nat
  /-- First arrival at each pending barrier, by group (R285). -/
  barFirst : KMap Nat
  /-- Group 1 barriers joined on this device and waiting for the fabric. -/
  barSent : Nat
  /-- Still restartable (R508), restarted once, wrong result found (R512). -/
  restartable : Bool
  restarted : Bool
  /-- A frame of the run has been quarantined. -/
  quarantined : Bool
  mismatch : Bool
  timedOut : Bool
  /-- A shadow comparison has shown the run's result to be wrong (R512). -/
  wrong : Bool
  /-- Shadow comparisons that disagreed and are not settled: origin, shadow, pattern class (R511, R512). -/
  shadows : List (Nat × Nat × Nat)
  /-- Fault records written by frames that halted: logical frame → 64 bytes. -/
  halts : KMap Bytes
  deriving DecidableEq, Repr

/-- An engine call issued by a frame (R280 to R283): its descriptor's address and bytes, its OUTQ, the call issued before it on that
queue, and its completion. -/
structure Call where
  run : Nat
  lframe : Nat
  frame : Nat
  fn : Nat
  desc : Nat
  bytes : Bytes
  outq : Nat
  prev : Nat
  done : Bool
  status : Nat
  count : Nat
  /-- The walk of a call that has been admitted. -/
  walk : Option Walk
  /-- What a sweep found. -/
  swept : Option SweepRes
  /-- Records that a producer has still to put on its STREAM queue, and those a Selector has taken from one. -/
  out : List StreamRec
  taken : List StreamRec
  /-- The call has been counted as waiting (R355). -/
  waited : Bool
  deriving DecidableEq, Repr

end Sys2Proof.Machine
end

