-- ==== Sys2Proof/Machine/StateDepot.lean ====
section
/-! DEFINITION. The flash Depots as plain data (chapter 12): the media with their slots and tags, the lanes with their maps,
journals and checkpoints, and the namespaces. -/

namespace Sys2Proof.Machine

/-- TYPE of a slot tag (Table 12-3). -/
inductive SlotType where
  | data | fold | reloc
  deriving DecidableEq, Repr

/-- A programmed slot of the media with its tag (R367): its 4,096 bytes as stored, enciphered. -/
structure Slot where
  ns : Nat
  unit : Nat
  typ : SlotType
  seq : Nat
  epoch : Nat
  desc : Nat
  bfirst : Nat
  bslots : Nat
  data : Bytes
  deriving DecidableEq, Repr

/-- A block of a die, named by channel within the lane, die and block. -/
structure BlockId where
  ch : Nat
  die : Nat
  block : Nat
  deriving DecidableEq, Repr

/-- What the Depot keeps of a block. -/
structure Block where
  pslc : Bool
  /-- Pages programmed since the last erase. -/
  filled : Nat
  /-- Write epoch of its first page (R368). -/
  epoch : Nat
  verified : Bool
  erases : Nat
  reads : Nat
  progFails : Nat
  retired : Bool
  deriving DecidableEq, Repr

/-- A batch (R369): its first sequence number, where its slots and its parity unit lie, and whether it is still programming.
It is held until its parity is released (R370). -/
structure Batch where
  first : Nat
  place : List Nat
  parity : Nat
  programming : Bool
  deriving DecidableEq, Repr

/-- A write that waits in the lane's open batch (R369). -/
structure OpenSlot where
  ns : Nat
  unit : Nat
  seq : Nat
  block : Bytes
  deriving DecidableEq, Repr

/-- A journal delta (Table 12-5). -/
inductive Delta where
  | map (ns unit pua : Nat)
  | free (b : BlockId)
  | retire (b : BlockId)
  | retireDie (ch die : Nat)
  | nsdestroy (ns : Nat)
  | lost (ns unit : Nat)
  deriving DecidableEq, Repr

/-- A flushed journal record (Table 12-4). -/
structure JournalRec where
  flush : Nat
  epoch : Nat
  high : Nat
  openSet : List BlockId
  deltas : List Delta
  deriving DecidableEq, Repr

/-- A map segment on the media (R376): the flush it reflects and its entries by unit. -/
structure Segment where
  flush : Nat
  entries : KMap Nat
  deriving DecidableEq, Repr

/-- A copy made by folding, garbage collection or refresh that waits for its block to close and verify (R372). -/
structure PendingCopy where
  ns : Nat
  unit : Nat
  src : Nat
  dst : Nat
  deriving DecidableEq, Repr

/-- STATE of a lane (Table 12-12). -/
inductive LaneState where
  | absent | rebuild | ready | degraded | suspect | retired
  deriving DecidableEq, Repr

/-- A lane of a Depot (R359). -/
structure Lane where
  st : LaneState
  -- volatile: board memory and the Depot's own registers
  /-- Map entries by namespace × 2⁴⁰ + unit: a PUA or the lost value; an absent entry is unmapped (R364). -/
  map : KMap Nat
  seqCtr : Nat
  batch : List OpenSlot
  batchSince : Nat
  /-- Trims that wait for earlier writes of their unit: namespace, unit, and the last sequence number before the trim (R364). -/
  trims : List (Nat × Nat × Nat)
  deltas : List Delta
  flush : Nat
  flushedAt : Nat
  sinceFlush : Nat
  copies : List PendingCopy
  refresh : List BlockId
  emergency : List BlockId
  blocks : KMap Block
  -- the media
  slots : KMap Slot
  batches : KMap Batch
  journal : List JournalRec
  segments : KMap Segment
  /-- Erase and read counts of the last counter segment (R376). -/
  counters : KMap (Nat × Nat)
  /-- Superblock (R374): write epoch, version, namespaces being destroyed, binding value (R485); none when no candidate holds a
  valid page. -/
  sbEpoch : Nat
  sbVersion : Nat
  sbDestroying : List Nat
  sbBind : Option Bytes
  /-- Blocks whose FREE a flushed record shows. -/
  freed : List BlockId
  deriving DecidableEq, Repr

/-- A namespace (R362): size in units, die set as unit indexes of Table 17-2 on this Depot, owning slice, and the wrapped key of
the key table. -/
structure Namespace where
  size : Nat
  dies : List (Nat × Nat)
  slice : Nat
  wrapped : Bytes
  deriving DecidableEq, Repr

/-- The NAND a channel carries (Table 12-1), from its parameter pages. -/
structure ChannelInfo where
  dies : Nat
  cellBits : Nat
  ppb : Nat
  blocks : Nat
  endurance : Nat
  /-- ONFI model code. -/
  model : Nat
  deriving DecidableEq, Repr

/-- The counts of the health record (Table 12-10), held here so that rebuild restores them; the registers show them. -/
structure Health where
  retry : Nat
  soft : Nat
  uncorr : Nat
  lost : Nat
  hist : List Nat
  tmin : Int
  tmax : Int
  /-- Temperature readings since format. -/
  temps : Nat
  /-- Seconds above 70, 85 and 95 °C. -/
  s70 : Nat
  s85 : Nat
  s95 : Nat
  deriving DecidableEq, Repr

/-- A Depot (R359). -/
structure Depot where
  lanes : List Lane
  channels : KMap ChannelInfo
  namespaces : KMap Namespace
  /-- Namespaces being destroyed: new requests end with NO_NAMESPACE (R389). -/
  destroying : List Nat
  /-- Capacity as fixed at format (R365): native raw bytes, logical units, PSLC and OP, and the spare native units then. -/
  raw : Nat
  logical : Nat
  pslc : Nat
  reserve : Nat
  /-- Retired dies and channels (die record blocks): channel and die. -/
  deadDies : List (Nat × Nat)
  deadChannels : List Nat
  retiredBlocks : Nat
  progFails : Nat
  eraseFails : Nat
  health : Health
  /-- Health record as last written to the media (R376). -/
  healthSaved : Health
  /-- Rebuild's outcome: duration in ms, batches discarded, slots reconstructed (DEP_REBUILD). -/
  rebuildMs : Nat
  discarded : Nat
  reconstructed : Nat
  /-- Times the key table has been written (R388). -/
  keyTables : Nat
  /-- Consecutive command timeouts per channel and die (Table 17-3). -/
  timeouts : List ((Nat × Nat) × Nat)
  /-- New requests wait during a Depot reset (R496). -/
  stopped : Bool
  deriving DecidableEq, Repr

/-- A lane with no media. -/
def Lane.blank : Lane :=
  { st := .absent, map := [], seqCtr := 0, batch := [], batchSince := 0, trims := [], deltas := [], flush := 0,
    flushedAt := 0, sinceFlush := 0, copies := [], refresh := [], emergency := [], blocks := [], slots := [], batches := [],
    journal := [], segments := [], counters := [], sbEpoch := 0, sbVersion := 0, sbDestroying := [], sbBind := none,
    freed := [] }

/-- A health record that has counted nothing. -/
def Health.zero : Health :=
  { retry := 0, soft := 0, uncorr := 0, lost := 0, hist := List.replicate 8 0, tmin := 0, tmax := 0, temps := 0,
    s70 := 0, s85 := 0, s95 := 0 }

/-- A Depot whose media have never been formatted. DESIGN CHOICE: log entry 6. -/
def Depot.blank : Depot :=
  { lanes := [Lane.blank, Lane.blank], channels := [], namespaces := [], destroying := [], raw := 0, logical := 0, pslc := 0,
    reserve := 0, deadDies := [], deadChannels := [], retiredBlocks := 0, progFails := 0, eraseFails := 0,
    health := Health.zero, healthSaved := Health.zero, rebuildMs := 0, discarded := 0, reconstructed := 0,
    keyTables := 0, timeouts := [],
    stopped := false }

/-- A lane after the rails fall: board memory and the Depot's registers are lost, the media stay. Slots whose program had
started stay on the media, torn or whole (R378). -/
def Lane.lose (l : Lane) : Lane :=
  { Lane.blank with
    slots := l.slots, batches := l.batches, journal := l.journal, segments := l.segments, counters := l.counters,
    blocks := l.blocks, sbEpoch := l.sbEpoch, sbVersion := l.sbVersion, sbDestroying := l.sbDestroying, sbBind := l.sbBind,
    freed := l.freed }

/-- A Depot after the rails fall; its health is that of the last record written. DEDUCED: log entry 128. -/
def Depot.lose (d : Depot) : Depot :=
  { d with lanes := d.lanes.map Lane.lose, channels := [], health := d.healthSaved, rebuildMs := 0, discarded := 0, reconstructed := 0,
           timeouts := [], stopped := false }

end Sys2Proof.Machine
end

