-- ==== Sys2Proof/Machine/StateFabric.lean ====
section
/-! DEFINITION. Timetables, shapers, ports and the Jugan Link fabric as plain data (chapters 13 and 14). -/

namespace Sys2Proof.Machine

/-- A committed list (R435 to R437): its base and its entries, each a duration in ns and a gate mask. -/
structure TimeList where
  base : Nat
  entries : List (Nat × Nat)
  deriving DecidableEq, Repr

/-- A timetable (R436 to R439): the operative list, the entry in force and its gates; the pending list with its switch time;
and, after a clock step, the time until which the present gates hold. -/
structure Timetable where
  oper : Option TimeList
  entry : Nat
  gates : Nat
  pend : Option (TimeList × Nat)
  hold : Option Nat
  deriving DecidableEq, Repr

/-- A page entry of a job window (Table 13-5): allocation id and page, and what it permits. -/
structure PageEntry where
  alloc : Nat
  page : Nat
  r : Bool
  w : Bool
  atom : Bool
  deriving DecidableEq, Repr

/-- A job entry (Table 13-4, R536): the slice it is bound to, its traffic class, the pages of its window with the valid
entries, and the messages of its message ring, if it has one (R406). -/
structure Job where
  slice : Nat
  tc : Nat
  pages : Nat
  entries : KMap PageEntry
  msgs : Option (List Bytes)
  deriving DecidableEq, Repr

-- ## Ports (R395, R396, R431 to R434)

/-- A packet in a class queue with its tags (R432). -/
structure QPacket where
  bytes : Bytes
  start : Nat
  finish : Nat
  deriving DecidableEq, Repr

/-- A Jugan port: its class queues and virtual time (R432); the shapers' credits in 1/8,000 byte with the monotonic time they
stand at (R433); the class it sends and until when; SHP_CBS writes that wait for the end of a packet (R434); the link's
sequence numbers, credits, replay buffer and received slots (R395, R396). -/
structure Port where
  queues : KMap (List QPacket)
  vtime : Nat
  maxFinish : Nat
  credit : KMap Int
  creditAt : Nat
  sending : Option (Nat × Nat)
  cbsLate : KMap Word
  txSeq : Nat
  rxSeq : Nat
  acked : Nat
  linkCredit : KMap Nat
  owed : KMap Nat
  replay : List Bytes
  rxSlots : List Bytes
  deriving DecidableEq, Repr

/-- A policer's bucket (R428): tokens in 1/8,000 byte and the monotonic time they stand at. -/
structure Bucket where
  tokens : Nat
  time : Nat
  deriving DecidableEq, Repr

-- ## Own requests (R398 to R413)

/-- Where a request of this device stands. -/
inductive ReqStage where
  /-- Held at the source: a store behind a store to its word, or an RSTF (R408). -/
  | held
  /-- Ready: it waits for a port and for its turn there. -/
  | ready
  /-- Sent and not answered. -/
  | sent
  deriving DecidableEq, Repr

/-- A request of this device (R407 to R413): its packet, the run and frame it belongs to (none for an engine's), its stage,
when it was last sent and how often it was resent, when a BUSY came, and for RLD its register, size and sign. -/
structure Req where
  packet : Bytes
  frame : Option (Nat × Nat)
  stage : ReqStage
  firstAt : Nat
  sentAt : Nat
  retries : Nat
  busyAt : Option Nat
  reg : Nat
  size : Nat
  sx : Bool
  /-- Offset of an RLD within the line it fetches. -/
  lineOff : Nat
  deriving DecidableEq, Repr

/-- A line of the read cache (R410): Counting die, slice, global address, 64 bytes. -/
structure CacheLine where
  die : Nat
  slice : Nat
  addr : Nat
  data : Bytes
  deriving DecidableEq, Repr

-- ## Inbound requests (R405 to R415)

/-- An entry of a replay table (R412). -/
structure ReplayEntry where
  ctx : Nat
  seqn : Nat
  old : Nat
  status : Nat
  time : Nat
  deriving DecidableEq, Repr

/-- The replay table of one source node, oldest entry first, and its LOWMARK once something has been evicted (R412). -/
structure ReplayTable where
  entries : List ReplayEntry
  lowmark : Option Nat
  deriving DecidableEq, Repr

/-- A request of a later epoch that is held (R415). -/
structure HeldReq where
  packet : Bytes
  time : Nat
  deriving DecidableEq, Repr

-- ## Epochs and barriers (R414 to R421)

/-- The parts of an EPOCH_SET that have arrived (R418): number of parts, part contents from EPOCH onward. -/
structure EpochParts where
  nparts : Nat
  parts : KMap Bytes
  deriving DecidableEq, Repr

/-- A pending group 1 barrier of a job at this device (R419): its number, the members of this device's group in order of
arrival, and, at the root, the group leaders in order of arrival. -/
structure BarState where
  number : Nat
  arrived : List Nat
  groups : List Nat
  deriving DecidableEq, Repr

/-- A unit that a Reed-Solomon engine has made or reconstructed for a member of its group (R422 to R424), with its trailer. -/
structure Shard where
  group : Nat
  stripe : Nat
  member : Nat
  bytes : Bytes
  deriving DecidableEq, Repr

/-- The fabric side of the device. -/
structure Fabric where
  reqs : KMap Req
  /-- Last sequence number given for each target node (R411). -/
  seqns : KMap Nat
  rcache : List CacheLine
  /-- Size of the read cache in force, MiB per die (R426). -/
  rcacheSize : Nat
  replay : KMap ReplayTable
  holds : KMap HeldReq
  /-- Acknowledgements that wait for the programming of a PERSIST page: slice and packet (R407). -/
  acks : List (Nat × Bytes)
  /-- Packets that wait for a port. -/
  out : List Bytes
  /-- Flits sent: port and flit. -/
  flits : List (Nat × Bytes)
  domain : List Nat
  trees : KMap (List Nat)
  bars : KMap BarState
  /-- Incomplete sets by epoch. -/
  parts : KMap EpochParts
  /-- Monotonic time of the last valid grant (R416). -/
  leaseAt : Option Nat
  /-- Steps of Table 13-7 done since the device was fenced. -/
  quiesced : Nat
  /-- Packets that answer a FENCE once step 4 is complete. -/
  fenceReplies : List Bytes
  /-- Of the last 64 group 1 barriers, those at which the device arrived last in its group (R517). -/
  last64 : List Bool
  shards : List Shard
  /-- Member whose place this device has taken as the spare of a group (R424). -/
  spares : KMap (Nat × Nat)
  deriving DecidableEq, Repr

/-- A fabric that has joined nothing. DESIGN CHOICE: log entries 6, 96. -/
def Fabric.blank : Fabric :=
  { reqs := [], seqns := [], rcache := [], rcacheSize := 0, replay := [], holds := [], acks := [], out := [], flits := [], domain := [],
    trees := [], bars := [], parts := [], leaseAt := none, quiesced := 0, fenceReplies := [], last64 := [], shards := [],
    spares := [] }

/-- A port right after training. -/
def Port.blank : Port :=
  { queues := [], vtime := 0, maxFinish := 0, credit := [], creditAt := 0, sending := none, cbsLate := [], txSeq := 0, rxSeq := 4095,
    acked := 4095, linkCredit := [], owed := [], replay := [], rxSlots := [] }

end Sys2Proof.Machine
end

