-- ==== Sys2Proof/Machine/State.lean ====
section
/-! DEFINITION. The state of the PN-880 and the state right after reset. -/

namespace Sys2Proof.Machine

/-- The state of the device: its registers, its memories, every unit's state, and the queue of commands that wait. -/
structure State where
  /-- The control registers that hold a value of their own, by control-window offset; an unlisted register holds its reset
  value (R16). -/
  regs : KMap Word
  /-- The ring region 0x010_0000 to 0x3FF_FFFF of the control window, by offset (R449). -/
  ringMem : Mem
  nv : MgmtFlash
  clock : Clock
  pins : Pins
  boot : Boot
  rings : KMap Ring
  /-- Commands consumed and not yet passed by COMPLETED, by ring × 2⁶⁴ + sequence number; ring 64 is the management port. -/
  cmds : KMap Cmd
  stm : Stationmaster
  counts : KMap SliceCounts
  -- memory tiers, consists, runs and frames
  allocs : KMap Alloc
  charges : List Charge
  poison : List Poison
  moves : List PageMove
  /-- Tier intervals since power-up (R342). -/
  tierAge : Nat
  /-- MEM_TIERCFG as the present interval found it: a write applies from the next interval (R357). -/
  tierCfg : Word
  /-- Pages whose memory unit has been chosen by a drain: allocation × 2³² + page → unit id (R506). -/
  pageUnits : KMap Nat
  consists : KMap Consist
  runs : KMap Run
  /-- Frames claimed by runs, by physical number. -/
  frames : KMap Frame
  calls : KMap Call
  /-- Zero-run flags of frame-store chunks (R222): allocation, first byte, bytes. -/
  zruns : List (Nat × Nat × Nat)
  /-- Numbers given to allocations, consists and calls. -/
  nextId : Nat
  -- the search engines
  indexes : KMap Index
  /-- Stores by the id of their allocation (R596). -/
  stores : KMap Store
  /-- Queries between their stages, by the key of their command. -/
  queries : KMap Query
  tables : KMap Table
  seqs : KMap Seq
  depots : List Depot
  owns : KMap OwnRecord
  -- shaping and the fabric
  timetables : KMap Timetable
  jobs : KMap Job
  fab : Fabric
  ports : KMap Port
  /-- Policers by port × 16 + class; 128 + k for CCL port k. -/
  policers : KMap Bucket
  /-- Packets sent: CCL port and packet; management messages. -/
  cclOut : List (Nat × Bytes)
  mgmtOut : List Bytes
  /-- What JTAG has shifted out (R552). -/
  jtagOut : List Bytes
  /-- Draws made from the free values and the random source (the model's own). -/
  freeCtr : Nat
  /-- The commands that wait, first in first out. -/
  pending : List Instr
  deriving DecidableEq, Repr

/-- Why the machine stops with a fault. DESIGN CHOICE: log entry 4. -/
inductive Fault where
  /-- Raised by OVERVOLTAGE_SHUTDOWN with the 50 V input above its absolute maximum of 60.0 V (R580, Table 20-3: beyond it the
  package may be damaged and no behaviour is stated). Safe: the model stops where the manual states nothing. -/
  | beyondAbsoluteMaximum
  deriving DecidableEq, Repr

/-- Why a command has no meaning. -/
inductive Refusal where
  /-- Raised by an arm of exec that has no meaning yet. Safe. -/
  | notModelled (mnemonic : String)
  deriving DecidableEq, Repr

/-- What a command comes to. -/
abbrev Outcome := Host.Outcome State Fault Refusal

/-- The device record of the part the model resets to: PN-880B-192-B0 (R4). DESIGN CHOICE: log entry 5. -/
def DeviceRecord.default : DeviceRecord :=
  { sigOk := true, serial := 0, variant := 1, frames := 192, step := 2, geom := 2, enableMap := 2 ^ 192 - 1, mac := 0 }

/-- An image slot that holds nothing. DESIGN CHOICE: log entry 5. -/
def FwSlot.empty : FwSlot :=
  { present := false, version := 0, floor := 0, variants := 0, measurement := [], measOk := false, sigOk := false }

/-- Management flash as the part leaves manufacture: an accepted image of version 1 in slot A. DESIGN CHOICE: log entry 5. -/
def MgmtFlash.initial : MgmtFlash :=
  { record := DeviceRecord.default, retired := [], log := [],
    slotA := { present := true, version := 1, floor := 0, variants := 14, measurement := List.replicate 32 0,
               measOk := true, sigOk := true },
    slotB := FwSlot.empty, activeSlot := 0, bootCount := 0, tripCount := 0, tripDiode := 0, tripToLog := none,
    takeovers := 0, dkWrap := true, marker := false, windows := [], cells := [], slices := [], gens := [], clearing := [], rollback := 0,
    marks := [0, 0, 0], ock := none, rotations := 0, attCtr := 0, attMark := 0, trial := none, rcache := 8 }

/-- The clocks before step 4 of Table 16-1. -/
def Clock.initial : Clock :=
  { station := 0, running := false, mono := 0, timeZero := 0, goodOffsets := 0, lastSync := 0, locked := false,
    ppsHighUntil := 0 }

/-- The pins with the input not yet risen. -/
def Pins.initial : Pins :=
  { powered := false, tripped := false, refclk100 := true, refclk156 := [true, true, true, true], pigtail := [false, false] }

/-- Start-up before its first step. -/
def Boot.initial : Boot :=
  { aligned := [], failed := [], attempts := [], hbmDone := [], ddrDone := false, nandDone := [], canariesDone := false,
    lanesDone := [], ddrOut := [], nandOut := [], waitRefclk := false, dimms := [], highPhase := 0 }

/-- A ring that has consumed nothing. -/
def Ring.initial : Ring :=
  { consumed := 0, completed := 0, lastStatus := 0, snap := 0, time := 0, lastScan := 0, progress := 0, pcount := 0,
    pseq := 0, status := 0, flags := 0, staging := none, stopped := false }

/-- The Stationmasters before they start. DESIGN CHOICE: log entry 6. -/
def Stationmaster.initial : Stationmaster :=
  { jd0Up := false, jd1Up := false, logPending := [], logHead := 0, logTail := 0,
    chain := List.replicate 32 0, logSecond := 0, logCount := 0, logDropped := 0, lastFaultSeq := 0, faultAcked := 0,
    windows := [], cells := [], canPasses := [], canaries := [], lastChecks := [], pendingFrames := [], sramUncorr := [], eccHour := [], retiring := [],
    pace := [], draw := [], borrowed := [], hot := [], diodes := List.replicate 96 0, jdHalved := [], hbmDouble := [],
    ddrDouble := [], i3c := [], emergency := false, act := { stage := .idle, cmd := none, mode := 0, slot := 0 },
    takeoverWindow := false, trialPassed := 0, stage := none, verified := none, resetJobs := [],
    opkey := [none, none, none, none], mirror := none, heldRecords := [], clearing := [], changing := [], patrol := false, telemetryAt := 0, laneFails := [],
    watchdogs := [] }

/-- The machine right after reset, before the 50 V input rises (R472, R491). DESIGN CHOICE: log entries 5, 6. -/
def State.reset : State :=
  { regs := [], ringMem := [], nv := MgmtFlash.initial, clock := Clock.initial, pins := Pins.initial, boot := Boot.initial,
    rings := [], cmds := [], stm := Stationmaster.initial, counts := [], allocs := [], charges := [], poison := [], moves := [],
    tierAge := 0, tierCfg := 0x0010010010000064#64, pageUnits := [], consists := [], runs := [], frames := [], calls := [], zruns := [], nextId := 1, indexes := [],
    stores := [], queries := [], tables := [], seqs := [], depots := List.replicate 4 Depot.blank, owns := [], timetables := [],
    jobs := [], fab := Fabric.blank, ports := [], policers := [], cclOut := [], mgmtOut := [], jtagOut := [],
    freeCtr := 0, pending := [] }

end Sys2Proof.Machine
end

