-- ==== Sys2Proof/Machine/Ops.lean ====
section
/-! DEFINITION. The operations that every unit's meaning is written over: registers and their counters, the clocks, the event
log and the fault records, the windows of the units, and the outcome of a command in flight. -/

namespace Sys2Proof.Machine

-- ## Registers (R12 to R20)

/-- The offset of a register with indices `i`, `j` (Table 0-3 and the chapters' tables). -/
def regOffset (n : RegName) (i j : Nat) : Nat := n.row.base + n.row.s1 * i + n.row.s2 * j

/-- A register's value after power-on reset (R16): its fields' Reset columns. DESIGN CHOICE: log entry 6. -/
def resetWord (n : RegName) : Word :=
  BitVec.ofNat 64 (n.row.fields.foldl (fun v f => v + f.reset % 2 ^ f.width * 2 ^ f.lo) 0)

/-- The value a register holds (R16). -/
def State.reg (s : State) (n : RegName) (i j : Nat) : Word :=
  mapGetD s.regs (regOffset n i j) (resetWord n)

/-- The state with a register holding `v`. -/
def State.setReg (s : State) (n : RegName) (i j : Nat) (v : Word) : State :=
  { s with regs := mapSet s.regs (regOffset n i j) v }

/-- A field of a register. -/
def State.fld (s : State) (f : FieldRef) (i : Nat := 0) (j : Nat := 0) : Nat :=
  bitsOf (s.reg f.reg i j).toNat f.lo f.width

/-- The state with a field of a register set to `v`. -/
def State.setFld (s : State) (f : FieldRef) (v : Nat) (i : Nat := 0) (j : Nat := 0) : State :=
  s.setReg f.reg i j (BitVec.ofNat 64 (setBitsOf (s.reg f.reg i j).toNat f.lo f.width v))

/-- A counter's next value: it wraps at its width, or stays at its greatest value where its table says that it saturates. -/
def countUp (f : FieldRef) (old k : Nat) : Nat :=
  if f.sat then min (old + k) (2 ^ f.width - 1) else (old + k) % 2 ^ f.width

/-- The state with `k` counted in a counter field. -/
def State.count (s : State) (f : FieldRef) (k : Nat := 1) (i : Nat := 0) (j : Nat := 0) : State :=
  s.setFld f (countUp f (s.fld f i j) k) i j

/-- A write counted in GLB_BADACC (R20), at a control-window offset. -/
def State.badWrite (s : State) (off : Nat) : State :=
  (s.count GLB_BADACC_WRITES).setFld GLB_BADACC_LASTBLK (off / 2 ^ 16)

/-- A read counted in GLB_BADACC (R14, R20). -/
def State.badRead (s : State) (off : Nat) : State :=
  (s.count GLB_BADACC_READS).setFld GLB_BADACC_LASTBLK (off / 2 ^ 16)

/-- SEC_SEAL.SEALED is set (R16). -/
def State.sealed (s : State) : Bool := s.fld SEC_SEAL_SEALED == 1

-- ## Variants (Table 0-1)

/-- VARIANT of GLB_GRADE: 1 B, 2 H, 3 L. -/
def State.variant (s : State) : Nat := s.fld GLB_GRADE_VARIANT

/-- Junction dies the variant carries (Table 0-1). -/
def State.jdCount (s : State) : Nat := if s.variant = 2 then 2 else 4

/-- HBM stacks the variant carries (Table 0-1). -/
def State.hbmStacks (s : State) : Nat := if s.variant = 1 then 8 else if s.variant = 2 then 10 else 4

/-- Jugan ports the variant carries (Table 0-1). -/
def State.jugPorts (s : State) : Nat := if s.variant = 2 then 4 else 8

/-- DDR5 channels the variant carries (Table 0-1). -/
def State.ddrChannels (s : State) : Nat := if s.variant = 2 then 8 else 16

/-- A frame is enabled by the grade (R2, R475). -/
def State.frameEnabled (s : State) (f : Nat) : Bool := decide (f < 192) && bitOf s.nv.record.enableMap f

-- ## Start-up phase (R473)

/-- Values of GLB_BOOT.PHASE (Table 16-8). -/
abbrev phPower : Nat := 0
abbrev phBoot : Nat := 1
abbrev phAlign : Nat := 2
abbrev phTrain : Nat := 3
abbrev phRebuild : Nat := 4
abbrev phReady : Nat := 5
abbrev phFailed : Nat := 6

/-- GLB_BOOT.PHASE. -/
def State.phase (s : State) : Nat := s.fld GLB_BOOT_PHASE

/-- PHASE := `p`, keeping the highest phase reached for the BOOT log entry (Table 19-3). DESIGN CHOICE: log entry 14. -/
def State.setPhase (s : State) (p : Nat) : State :=
  let s := s.setFld GLB_BOOT_PHASE p
  { s with boot := { s.boot with highPhase := if p = phFailed then s.boot.highPhase else max s.boot.highPhase p } }

/-- PHASE := FAILED with a code of Table 16-7. -/
def State.fail (s : State) (code : Nat) : State := (s.setPhase phFailed).setFld GLB_BOOT_FAILCODE code

-- ## Clocks (R473, R501)

/-- `dt` ns pass: the monotonic timer and, once started, the station clock. DESIGN CHOICE: log entries 2, 119. -/
def State.tick (s : State) (dt : Nat) : State :=
  { s with clock := { s.clock with mono := s.clock.mono + dt,
                                   station := if s.clock.running then s.clock.station + dt else s.clock.station } }

/-- The station clock, ns, as a 64-bit field holds it. -/
def State.now (s : State) : Nat := s.clock.station % 2 ^ 64

/-- One draw of `n` bytes from the random source of the Stationmaster (R541). DESIGN CHOICE: log entry 7. -/
def State.draw (s : State) (n : Nat) : Bytes × State :=
  ((List.range n).map (Config.randomByte s.freeCtr), { s with freeCtr := s.freeCtr + 1 })

-- ## The event log (R563 to R565)

/-- Entry types of Table 19-3. -/
abbrev ltFault : Nat := 1
abbrev ltClear : Nat := 2
abbrev ltBoot : Nat := 3
abbrev ltFirmware : Nat := 4
abbrev ltCommand : Nat := 5
abbrev ltSlice : Nat := 6
abbrev ltPower : Nat := 7
abbrev ltTime : Nat := 8
abbrev ltDepot : Nat := 9
abbrev ltDebug : Nat := 10
abbrev ltOverflow : Nat := 11

/-- Entries the log ring retains (R563). -/
def logSize : Nat := 524288

/-- The 128 bytes of a log entry (Table 19-2) after an entry whose CHAIN is `chain`. -/
def logEntry (seq typ writer time : Nat) (body chain : Bytes) : Bytes :=
  let head := leBytes 4 seq ++ leBytes 2 typ ++ leBytes 1 writer ++ [0] ++ leBytes 8 time ++ bytesAt body 0 64
  let b := head ++ shake256 (chain ++ head) 32 ++ List.replicate 12 0
  b ++ leBytes 4 (crc32c b).toNat

/-- The retained log with an entry programmed: the oldest is overwritten when the ring is full (R565). -/
def State.programEntry (s : State) (seq : Nat) (bytes : Bytes) : State :=
  let log := mapSet (if seq > logSize then mapErase s.nv.log (seq - logSize) else s.nv.log) seq bytes
  { s with nv := { s.nv with log := log } }

/-- Program every entry that waits (R564). -/
def State.programLog (s : State) : State :=
  let s := s.stm.logPending.foldl (fun s e => s.programEntry e.seq e.bytes) s
  { s with stm := { s.stm with logPending := [] } }

/-- Entry types programmed before the act that appends them completes (R564). -/
def logAtOnce (typ : Nat) : Bool := [ltClear, ltFirmware, ltCommand, ltSlice, ltDepot].contains typ

/-- Append an entry to the event log (R563, R564), after every entry that precedes it. DESIGN CHOICE: log entry 41. -/
def State.logAppend (s : State) (typ : Nat) (body : Bytes) : State :=
  let seq := (s.stm.logHead + 1) % 2 ^ 32
  let b := logEntry seq typ (s.fld STM_STATE_ACTIVE) s.now body s.stm.chain
  let s := { s with stm := { s.stm with
      logHead := seq, chain := bytesAt b 80 32,
      logTail := if s.stm.logTail = 0 then seq else if seq - s.stm.logTail ≥ logSize then s.stm.logTail + 1 else s.stm.logTail,
      logPending := s.stm.logPending ++ [{ seq := seq, bytes := b, time := s.now }],
      logSecond := s.now / 10 ^ 9,
      logCount := if s.stm.logSecond = s.now / 10 ^ 9 then s.stm.logCount + 1 else 1 } }
  if logAtOnce typ then s.programLog else s

/-- The log has taken its 4,096 entries of this second (R565). -/
def State.logFull (s : State) : Bool := decide (s.stm.logSecond = s.now / 10 ^ 9) && decide (4096 ≤ s.stm.logCount)

-- ## Units, windows and fault records (R500 to R515)

/-- Unit id of type `t` and index `i` (Table 17-2). -/
def unitId (t i : Nat) : Nat := t * 4096 + i

/-- Type of a unit id. -/
def unitType (u : Nat) : Nat := u / 4096 % 16

/-- Index of a unit id. -/
def unitIndex (u : Nat) : Nat := u % 4096

/-- The Counting die of a unit, if it lies on one. -/
def unitDie (u : Nat) : Option Nat :=
  match unitType u with
  | 1 => some (unitIndex u / 96)
  | 2 => some (unitIndex u / 64)
  | 3 => some (unitIndex u / 8)
  | 4 => some (unitIndex u / 2048)
  | _ => none

/-- A unit is in the retirement record (R475, R504). -/
def State.retired (s : State) (u : Nat) : Bool := s.nv.retired.any fun e => e.unit == u

/-- A frame in service: enabled by the grade and not retired (R236). -/
def State.frameInService (s : State) (f : Nat) : Bool := s.frameEnabled f && !s.retired (unitId 1 f)

/-- Units of a type in the retirement record. -/
def State.retiredOf (s : State) (t : Nat) : List RetireEntry := s.nv.retired.filter fun e => unitType e.unit == t

/-- Length of a unit's window, 24 hours in ns (R501). -/
def windowNs : Nat := 24 * 3600 * 10 ^ 9

/-- The events of a unit that lie in the window at the present moment (R501). -/
def State.window (s : State) (u : Nat) : List UnitEvent :=
  (mapGetD s.stm.windows u []).filter fun e => decide (s.clock.mono < e.time + windowNs)

/-- Events of one kind in a unit's window. -/
def State.windowCount (s : State) (u : Nat) (k : EventKind) : Nat := (s.window u).countP fun e => e.kind == k

/-- Record an event in a unit's window, dropping those that have left it. -/
def State.addEvent (s : State) (u : Nat) (k : EventKind) : State :=
  { s with stm := { s.stm with
      windows := mapSet s.stm.windows u (s.window u ++ [{ kind := k, time := s.clock.mono }]) } }

/-- The CHECK events of a frame's cells that lie in the window (R514). -/
def State.cellEvents (s : State) (f : Nat) : List CellEvent :=
  (mapGetD s.stm.cells f []).filter fun e => decide (s.clock.mono < e.time + windowNs)

/-- The temperature of the diode nearest a unit, in 0.125 °C (R513). DESIGN CHOICE: log entry 121. -/
def State.unitTemp (s : State) (u : Nat) : Int := s.stm.diodes.getD (Config.nearestDiode u) 0

/-- The temperature bin of a temperature in 0.125 °C (Table 17-5). -/
def tempBin (t : Int) : Nat :=
  if t < 320 then 0 else if t < 400 then 1 else if t < 480 then 2 else if t < 560 then 3
  else if t < 640 then 4 else if t < 720 then 5 else if t < 800 then 6 else 7

/-- Codes of the fault classes (Table 17-1). -/
def faultCode : FaultClass → Nat
  | .corrected => 0 | .transient => 1 | .permanent => 2 | .check => 3 | .quarantine => 4 | .fatal => 5

/-- The 64 bytes of a fault record (Table 17-7). -/
def State.faultBytes (s : State) (seq unit : Nat) (cls : FaultClass) (source pattern slice addr count : Nat) : Bytes :=
  let die := unitDie unit
  let temp := s.unitTemp unit
  leBytes 8 s.now ++ leBytes 4 seq ++ leBytes 2 unit ++ leBytes 1 (faultCode cls) ++ leBytes 1 source ++ leBytes 2 pattern ++
  leBytes 2 (ofSigned temp 16) ++ leBytes 2 (die.elim 0 fun d => s.fld PWR_RAIL_MV d) ++
  leBytes 1 (die.elim 0xFF fun _ => tempBin temp) ++ leBytes 1 slice ++ leBytes 4 count ++ List.replicate 4 0 ++
  leBytes 8 addr ++ List.replicate 24 0

/-- A management message without its tag (R572). -/
def mgmtHead (typ flags len reqid status counter : Nat) : Bytes :=
  leBytes 4 0x4D545350 ++ leBytes 1 typ ++ leBytes 1 flags ++ leBytes 2 len ++ leBytes 4 reqid ++ leBytes 2 status ++
  leBytes 2 0 ++ leBytes 8 counter ++ List.replicate 8 0

/-- Send a management message. -/
def State.mgmtSend (s : State) (m : Bytes) : State := { s with mgmtOut := s.mgmtOut ++ [m] }

/-- The FAULT message that carries a fault record, tagged under the record's SEQ (R573). -/
def State.faultMessage (s : State) (rec : Bytes) : Option Bytes :=
  s.nv.ock.map fun k =>
    let m := mgmtHead 4 0 64 0 0 (leAt rec 8 4) ++ rec
    m ++ kmac256 k m 16 "PN-880 management"

/-- The fault manager has an address (STM_FMADDR; 0 holds the pushes). DEDUCED: log entry 42. -/
def State.fmSet (s : State) : Bool := decide (s.reg .stmFmaddr 0 0 ≠ 0) || decide (s.reg .stmFmaddr 1 0 ≠ 0)

/-- Push a fault record to the fault manager (R573): held without an address or a key; those of a takeover's interval are kept until it
ends (R524). DEDUCED: log entry 42. -/
def State.faultPush (s : State) (rec : Bytes) : State :=
  if s.stm.takeoverWindow then { s with stm := { s.stm with heldRecords := s.stm.heldRecords ++ [rec] } }
  else if s.fmSet then
    match s.faultMessage rec with
    | some m => s.mgmtSend m
    | none => s
  else s

/-- The counts kept for a slice's telemetry (R554). -/
def State.sliceCounts (s : State) (sl : Nat) : SliceCounts :=
  mapGetD s.counts sl { cvtsat := 0, cvtnan := 0, carrysat := 0, accsat := 0, faultProg := 0, mismatch := 0, records := [] }

/-- A fault record enters the log, its slice's telemetry and the queue to the fault manager (R515, R554, R573). -/
def State.fileRecord (s : State) (slice : Nat) (rec_ : Bytes) : State :=
  let s := s.logAppend ltFault rec_
  let s := { s with stm := { s.stm with lastFaultSeq := s.stm.logHead } }
  let c := s.sliceCounts slice
  let s := if slice = 0xFF then s
    else { s with counts := mapSet s.counts slice { c with records := (c.records ++ [rec_]).drop (c.records.length - 31) } }
  s.faultPush rec_

/-- An entry beyond the log's rate limit is dropped and counted (R565). -/
def State.logDrop (s : State) : State :=
  let s := s.count STM_LOGDROP_COUNT
  { s with stm := { s.stm with logDropped := s.stm.logDropped + 1 } }

/-- Write a fault record, unless the limit of the log drops one of class CORRECTED or TRANSIENT (R515, R565). -/
def State.faultRecord (s : State) (unit : Nat) (cls : FaultClass) (source : Nat) (pattern : Nat := 0) (slice : Nat := 0xFF)
    (addr : Nat := 0) (count : Nat := 0) : State :=
  if s.logFull && (cls == .corrected || cls == .transient) then s.logDrop
  else s.fileRecord slice (s.faultBytes ((s.stm.logHead + 1) % 2 ^ 32) unit cls source pattern slice addr count)

/-- The number of TRANSIENT events that a unit's window tolerates (Table 17-3). -/
def tolerated (u : Nat) : Nat :=
  match unitType u with
  | 1 => 4 | 2 => 16 | 3 => 16 | 4 => 256 | 5 => 1024 | 6 => 1024 | 7 => 4096 | 8 => 256 | 9 => 8 | 10 => 8 | 11 => 4 | 12 => 4 | 13 => 2
  | _ => 0

-- ## Commands in flight (R453 to R458)

/-- Device-wide status codes (Table 0-5) and the chapters' codes that several units report. -/
abbrev stOK : Nat := 0x0000
abbrev stPARTIAL : Nat := 0x0001
abbrev stSHORT : Nat := 0x0002
abbrev stFILTERSHORT : Nat := 0x0003
abbrev stBUSY : Nat := 0x0010
abbrev stATTESTBUSY : Nat := 0x0011
abbrev stBADTAG : Nat := 0x0020
abbrev stBADCOUNTER : Nat := 0x0021
abbrev stNOACCESS : Nat := 0x0030
abbrev stFENCED : Nat := 0x0031
abbrev stBUFFERSHORT : Nat := 0x0040
abbrev stLIMIT : Nat := 0x0041
abbrev stSTATELOST : Nat := 0x0050
abbrev stOWNERSTALE : Nat := 0x0051
abbrev stSEQSTALE : Nat := 0x0052
abbrev stMEDIA : Nat := 0x0060
abbrev stRETIRED : Nat := 0x0061
abbrev stMISMATCH : Nat := 0x0070
abbrev stFAULTPROG : Nat := 0x0071
abbrev stINTERNAL : Nat := 0x00F0
abbrev stSLICEGONE : Nat := 0x0501
abbrev stSLICERESET : Nat := 0x0502
abbrev stBOOTIMAGE : Nat := 0x0503
abbrev stRECORDBAD : Nat := 0x0504
abbrev stALIGNFATAL : Nat := 0x0505
abbrev stNOSLICE : Nat := 0x0601
abbrev stSLICEEXISTS : Nat := 0x0602
abbrev stUNITTAKEN : Nat := 0x0603
abbrev stCLEARFAIL : Nat := 0x0604

/-- The ticket field of a record without a ticket (Table 15-3). -/
def noTicket : Nat := 2 ^ 48 - 1

/-- Key of a command in flight. -/
def cmdKey (r seq : Nat) : Nat := r * 2 ^ 64 + seq

/-- The ring that stands for the management port (R572). -/
abbrev mgmtRing : Nat := 64

/-- The command `seq` of ring `r`. -/
def State.cmd (s : State) (r seq : Nat) : Option Cmd := mapGet s.cmds (cmdKey r seq)

/-- The state with a command in flight replaced. -/
def State.setCmd (s : State) (c : Cmd) : State := { s with cmds := mapSet s.cmds (cmdKey c.ring c.seq) c }

/-- Bytes of the entry area slot and of the data area lie in the ring region; its bytes by control-window offset. -/
def State.ringRead (s : State) (off n : Nat) : Bytes := memRead s.ringMem off n

/-- OPCODE of an entry (Table 15-2). -/
def Cmd.opcode (c : Cmd) : Nat := leAt c.entry 4 2

/-- FLAGS of an entry: bit 0 CRIT, bit 1 SERIAL. -/
def Cmd.flags (c : Cmd) : Nat := leAt c.entry 6 1

/-- The parameter of `n` bytes at entry byte `off`. -/
def Cmd.par (c : Cmd) (off n : Nat) : Nat := leAt c.entry off n

/-- PAYLEN. -/
def Cmd.paylen (c : Cmd) : Nat := leAt c.entry 12 4

/-- RESLEN. -/
def Cmd.reslen (c : Cmd) : Nat := leAt c.entry 20 4

/-- COUNTER of a critical command. -/
def Cmd.counter (c : Cmd) : Nat := leAt c.entry 24 8

/-- Bytes of output block left for the opcode's outputs after the completion record (R456, check 7). -/
def Cmd.room (c : Cmd) : Nat := c.reslen - 64

/-- Control-window offset of a ring command's data area. -/
def State.dataArea (s : State) (r : Nat) : Nat := s.fld CMD_DATAAREA_OFFSET r

/-- The payload of a command (R451, R572). -/
def State.payload (s : State) (c : Cmd) : Bytes :=
  if c.ring = mgmtRing then c.mgmtPayload else s.ringRead (s.dataArea c.ring + c.par 8 4) c.paylen

/-- A command finishes with a status and its outputs (R454, R455); COMMAND_COMPLETE writes them. -/
def State.finish (s : State) (c : Cmd) (status : Nat) (outputs : Bytes := []) (count : Nat := 0) : State :=
  s.setCmd { c with stage := .finished, status := status, outputs := outputs, count := count }

/-- A command finishes refused: nothing is done. DEDUCED: log entry 39. -/
def State.refuse (s : State) (c : Cmd) (status : Nat) : State := s.finish c status

/-- The command `seq` of ring `r` when it runs with opcode `op`, for the operator's meaning. -/
def State.running (s : State) (r seq op : Nat) : Option Cmd :=
  match s.cmd r seq with
  | some c => if c.stage == .running && c.opcode == op then some c else none
  | none => none

/-- The device is fenced (R416). -/
def State.fenced (s : State) : Bool := s.fld JUG_EPOCH_STATE == 2

/-- A check list: the status of the first condition that holds. -/
def firstStatus : List (Bool × Nat) → Option Nat
  | [] => none
  | (b, st) :: l => if b then some st else firstStatus l

end Sys2Proof.Machine
end

