-- ==== Sys2Proof/Machine/Rings.lean ====
section
/-! DEFINITION. The command rings (chapter 15): the areas of a ring, its configuration register, the scan that consumes
entries, the checks of an entry, the start and the completion of a command, and the status word. -/

namespace Sys2Proof.Machine

/-- Ring `r` apart from its configuration registers. -/
def State.ring (s : State) (r : Nat) : Ring := mapGetD s.rings r Ring.initial

/-- The state with ring `r` replaced. -/
def State.setRing (s : State) (r : Nat) (x : Ring) : State := { s with rings := mapSet s.rings r x }

/-- EN of ring `r`. -/
def State.ringEn (s : State) (r : Nat) : Bool := s.fld CMD_RINGCFG_EN r == 1

/-- Commands of ring `r` in flight: consumed and without a record yet. -/
def State.inFlight (s : State) (r : Nat) : List Cmd := (mapVals s.cmds).filter fun c => c.ring == r && c.stage != .recorded

/-- DRAINED of ring `r`: no consumed command in flight (R471). -/
def State.drained (s : State) (r : Nat) : Bool := (s.inFlight r).isEmpty

-- ## Areas (R448, R449)

/-- An area of the control window: first byte and the byte after its last. -/
abbrev Area := Nat × Nat

/-- Two areas share a byte. -/
def Area.overlap (a b : Area) : Bool := decide (a.1 < b.2) && decide (b.1 < a.2)

/-- An area lies wholly in the ring region 0x010_0000 to 0x3FF_FFFF. -/
def Area.inRegion (a : Area) : Bool := decide (0x0100000 ≤ a.1) && decide (a.2 ≤ 0x4000000)

/-- The entry area of ring `r` with 2^`log2n` entries (R448). -/
def State.entryArea (s : State) (r log2n : Nat) : Area :=
  (s.fld CMD_RINGAREA_OFFSET r, s.fld CMD_RINGAREA_OFFSET r + 256 * 2 ^ log2n)

/-- The data area of ring `r` (R448). -/
def State.dataSpan (s : State) (r : Nat) : Area := (s.dataArea r, s.dataArea r + s.fld CMD_DATAAREA_SIZE r)

/-- The areas of ring `r` keep the rule of R448 for 2^`log2n` entries. -/
def State.areasFit (s : State) (r log2n : Nat) : Bool :=
  let e := s.entryArea r log2n
  let d := s.dataSpan r
  e.inRegion && d.inRegion && e.1 % 256 == 0 && d.1 % 64 == 0 && (d.2 - d.1) % 64 == 0 &&
  (List.range 64).all fun o =>
    o == r || !s.ringEn o ||
      (let eo := s.entryArea o (s.fld CMD_RINGCFG_LOG2N o)
       let dO := s.dataSpan o
       !(e.overlap eo || e.overlap dO || d.overlap eo || d.overlap dO))

/-- The byte at a control-window offset lies in some ring's configured area (R449). -/
def State.inRingArea (s : State) (off : Nat) : Bool :=
  (List.range 64).any fun r =>
    let e := s.entryArea r (s.fld CMD_RINGCFG_LOG2N r)
    let d := s.dataSpan r
    (e.inRegion && decide (e.1 ≤ off) && decide (off < e.2)) || (d.inRegion && decide (d.1 ≤ off) && decide (off < d.2))

/-- Eight bytes written to the ring region: stored in a configured area, otherwise discarded and counted (R15, R449). -/
def State.writeRegion (s : State) (off : Nat) (data : Word) : State :=
  if s.inRingArea off then { s with ringMem := memWrite s.ringMem off (leBytes 8 data.toNat) } else s.badWrite off

/-- Eight bytes read from the ring region; bytes of no configured area read 0 (R15, R449). -/
def State.readRegion (s : State) (off : Nat) : Word :=
  if s.inRingArea off then BitVec.ofNat 64 (leNat (memRead s.ringMem off 8)) else 0

-- ## The status word (R457, R458)

/-- Rewrite the status word of ring `r` from the ring's present state (R458). -/
def State.updateStatus (s : State) (r : Nat) : State :=
  let x := s.ring r
  let next := s.cmd r (x.completed + 1)
  let shown := next.bind fun c => if c.stage == .recorded then none else some c
  s.setRing r { x with
    snap := (x.snap + 2) % 2 ^ 32
    time := s.now
    pseq := shown.elim 0 (fun c => c.seq)
    progress := shown.elim 0 (fun c => c.progress)
    pcount := shown.elim 0 (fun c => c.pcount)
    status := if s.fenced then stFENCED else if shown.elim false (fun c => c.partialSeen) then stPARTIAL else x.lastStatus
    flags := (if s.fenced then 1 else 0) + (if s.drained r then 2 else 0) + (if s.ringEn r then 4 else 0) }

/-- The 64 bytes of CMD_STATUS[r] (Table 15-5). -/
def State.statusBytes (s : State) (r : Nat) : Bytes :=
  let x := s.ring r
  leBytes 8 x.consumed ++ leBytes 8 x.completed ++ leBytes 8 x.progress ++ leBytes 8 x.pcount ++ leBytes 8 x.pseq ++
  leBytes 8 x.time ++ leBytes 2 x.status ++ leBytes 2 x.flags ++ leBytes 4 x.snap ++ List.replicate 8 0

-- ## CMD_RINGCFG (R448, R450)

/-- The fields of a write to CMD_RINGCFG hold no reserved value. -/
def ringcfgLegal (v : Nat) : Bool :=
  decide (bitsOf v 2 4 ≤ 12) && decide (1 ≤ bitsOf v 16 9) && decide (bitsOf v 16 9 ≤ 256)

/-- The register value after a write that R19 admits field by field. -/
def ringcfgMerge (old v : Nat) : Nat :=
  let log2n := if bitsOf v 2 4 ≤ 12 then bitsOf v 2 4 else bitsOf old 2 4
  let infl := if 1 ≤ bitsOf v 16 9 ∧ bitsOf v 16 9 ≤ 256 then bitsOf v 16 9 else bitsOf old 16 9
  v % 2 + log2n * 4 + bitsOf v 8 8 * 256 + infl * 65536

/-- A write of CMD_RINGCFG[r] (R448, R450, R19). -/
def State.writeRingcfg (s : State) (r : Nat) (data : Word) : State :=
  let v := data.toNat
  let old := (s.reg .cmdRingcfg r 0).toNat
  let off := regOffset .cmdRingcfg r 0
  if s.ringEn r then
    if bitsOf v 2 4 = bitsOf old 2 4 ∧ bitsOf v 8 8 = bitsOf old 8 8 ∧ bitsOf v 16 9 = bitsOf old 16 9 then
      let s := s.setFld CMD_RINGCFG_EN (v % 2) r
      if v % 2 = 0 then s.updateStatus r else s
    else s.badWrite off
  else if v % 2 = 1 then
    if s.drained r && ringcfgLegal v && s.areasFit r (bitsOf v 2 4) then
      let s := s.setReg .cmdRingcfg r 0 (BitVec.ofNat 64 (ringcfgMerge old v))
      let s := s.setRing r { Ring.initial with staging := (s.ring r).staging }
      { s with cmds := mapFilter s.cmds fun _ c => c.ring != r }.updateStatus r
    else s.badWrite off
  else
    let s' := s.setReg .cmdRingcfg r 0 (BitVec.ofNat 64 (ringcfgMerge old v))
    if ringcfgLegal v then s' else s'.badWrite off

-- ## Entries and their checks (R451 to R456)

/-- The opcodes of Table 15-4. -/
def opcodeKnown (op : Nat) : Bool :=
  [0x0001, 0x0010, 0x0011, 0x0012, 0x0013, 0x0014, 0x0015, 0x0016, 0x0017, 0x0020, 0x0021, 0x0028, 0x0029, 0x002A, 0x002B,
   0x0030, 0x0031, 0x0032, 0x0038, 0x0039, 0x003A].contains op || (decide (0x0100 ≤ op) && decide (op ≤ 0x0109))

/-- The critical opcodes (R466). -/
def opcodeCritical (op : Nat) : Bool := decide (0x0100 ≤ op) && decide (op ≤ 0x0109)

/-- CRIT of a command. -/
def Cmd.crit (c : Cmd) : Bool := bitOf c.flags 0

/-- SERIAL of a command. -/
def Cmd.serial (c : Cmd) : Bool := bitOf c.flags 1

/-- Payload of an entry, as offsets within the data area. -/
def Cmd.paySpan (c : Cmd) : Area := (c.par 8 4, c.par 8 4 + c.paylen)
/-- Output block of an entry. -/
def Cmd.resSpan (c : Cmd) : Area := (c.par 16 4, c.par 16 4 + c.reslen)

/-- Check 1 of R456: a reserved opcode, a reserved bit, or COUNTER or TAG without CRIT. -/
def Cmd.badEntry (c : Cmd) : Bool :=
  !opcodeKnown c.opcode || decide (c.flags / 4 ≠ 0) || decide (leAt c.entry 7 1 ≠ 0) ||
  (!c.crit && (decide (c.counter ≠ 0) || !allZero (bytesAt c.entry 240 16)))

/-- Check 2 of R456 for the output block: misaligned, outside the data area, or over the payload. -/
def Cmd.badBlock (c : Cmd) (size : Nat) : Bool :=
  decide (c.par 16 4 % 64 ≠ 0) || decide (c.reslen % 64 ≠ 0) || decide (size < c.resSpan.2) ||
  (decide (c.paylen ≠ 0) && c.paySpan.overlap c.resSpan)

/-- Check 2 of R456 for the payload: misaligned or outside the data area. -/
def Cmd.badPayload (c : Cmd) (size : Nat) : Bool :=
  decide (c.paylen ≠ 0) && (decide (c.par 8 4 % 64 ≠ 0) || decide (size < c.paySpan.2))

/-- The bytes of a list that stands at entry byte `k`, outside the fields named, are 0. DEDUCED: log entry 38. -/
def unusedFrom (used : List (Nat × Nat)) : Nat → Bytes → Bool
  | _, [] => true
  | k, b :: bs => (used.any (fun u => decide (u.1 ≤ k) && decide (k < u.1 + u.2)) || b == 0) && unusedFrom used (k + 1) bs

/-- Parameter bytes 32 to 239 outside the opcode's fields are 0 (Table 15-2). DEDUCED: log entry 38. -/
def Cmd.unusedZero (c : Cmd) (used : List (Nat × Nat)) : Bool := unusedFrom used 32 ((c.entry.drop 32).take 208)

/-- Slice `sl` is in service (R526, R456). -/
def State.sliceInService (s : State) (sl : Nat) : Bool :=
  decide (sl = 0) || (mapGet s.nv.slices sl).elim false fun e => e.st == .inService

/-- Checks 1 to 3 of R456, which need nothing but the entry and the ring's areas. DEDUCED: log entry 37. -/
def State.entryStatus (s : State) (c : Cmd) : Option Nat :=
  let size := s.fld CMD_DATAAREA_SIZE c.ring
  firstStatus [(c.badEntry, stLIMIT), (c.badPayload size || c.badBlock size, stLIMIT),
    (c.crit && !opcodeCritical c.opcode, stLIMIT), (!c.crit && opcodeCritical c.opcode, stBADTAG)]

/-- Last accepted counter of a domain (R467). -/
def State.lastCounter (s : State) (d : Nat) : Nat := s.fld CMD_CRITCTR_LAST d

/-- A counter is accepted in domain `d`: a new mark is recorded first when the stored one is reached (R467, R468). -/
def State.spendCounter (s : State) (d ctr : Nat) : State :=
  let marks := if s.nv.marks.getD d 0 ≤ ctr then s.nv.marks.set d (min (ctr + 2 ^ 20) (2 ^ 64 - 1)) else s.nv.marks
  { s with nv := { s.nv with marks := marks } }.setFld CMD_CRITCTR_LAST ctr d

/-- The tag and then the counter of a critical command or packet (R466, R467): the refusal, or none with the counter spent. -/
def State.critical (s : State) (d ctr : Nat) (msg tag : Bytes) (cust : String) : Option Nat × State :=
  match s.nv.ock with
  | none => (some stBADTAG, s.count CMD_CRITERR_BADTAG)
  | some k =>
    if kmac256 k msg 16 cust ≠ tag then (some stBADTAG, s.count CMD_CRITERR_BADTAG)
    else if ctr ≤ s.lastCounter d then (some stBADCOUNTER, s.count CMD_CRITERR_BADCTR)
    else (none, s.spendCounter d ctr)

/-- The attempt windows in which critical commands return BUSY (R490, R524). DEDUCED: log entry 37. -/
def State.criticalBusy (s : State) : Bool :=
  s.stm.takeoverWindow || s.stm.act.stage == .activeRestart || s.stm.act.stage == .handback

/-- Refuse a command at its entry checks; a critical opcode without CRIT counts as refused with BAD_TAG (R456, Table 15-6). -/
def State.refuseEntry (s : State) (c : Cmd) (st : Nat) : State :=
  (if st = stBADTAG then s.count CMD_CRITERR_BADTAG else s).refuse c st

-- ## The scan (R453)

/-- Consume the next entry of ring `r`, if the conditions of R453 hold. -/
def State.consumeOne (s : State) (r : Nat) : Option State :=
  let x := s.ring r
  let slot := s.fld CMD_RINGAREA_OFFSET r + 256 * ((x.consumed + 1) % 2 ^ s.fld CMD_RINGCFG_LOG2N r)
  let entry := s.ringRead slot 256
  if s.ringEn r && !s.fenced && !x.stopped && decide (leAt entry 0 4 = (x.consumed + 1) % 2 ^ 32) &&
      decide ((s.inFlight r).length < s.fld CMD_RINGCFG_INFLIGHT r) then
    let c : Cmd := { ring := r, seq := x.consumed + 1, slice := s.fld CMD_RINGCFG_SLICE r, entry := entry, mgmtPayload := [],
                     reqid := 0, stage := .consumed, status := 0, count := 0, ticket := noTicket, handle := 0, outputs := [],
                     tadmit := s.now, accepted := false, noRecord := false, step := 0, since := 0, progress := 0, pcount := 0,
                     partialSeen := false, rekey := none }
    let c := { c with noRecord := c.badBlock (s.fld CMD_DATAAREA_SIZE r) || decide (c.reslen < 64) }
    let s := s.setRing r { x with consumed := x.consumed + 1 }
    let s := match s.entryStatus c with
      | some st => s.refuseEntry c st
      | none => s.setCmd c
    some (s.updateStatus r)
  else none

/-- Consume entries of ring `r` while they meet the conditions, at most `fuel` of them. -/
def State.consumeAll (s : State) (r : Nat) : Nat → State
  | 0 => s
  | fuel + 1 =>
    match s.consumeOne r with
    | some s' => s'.consumeAll r fuel
    | none => s

/-- RING_SCAN: at READY, consume every entry of ring `r` that meets the conditions of R453, and keep the longest interval
between scans in CMD_SCAN. -/
def State.ringScan (s : State) (r dt : Nat) : State :=
  let s := s.tick dt
  if s.phase = phReady ∧ r < 64 then
    let x := s.ring r
    let gap := s.clock.mono - x.lastScan
    let s := if x.lastScan = 0 then s else s.setFld CMD_SCAN_MAXNS (max (s.fld CMD_SCAN_MAXNS) (min gap (2 ^ 32 - 1)))
    let s := s.setRing r { x with lastScan := s.clock.mono }
    s.consumeAll r 256
  else s

-- ## Start (R454)

/-- Every earlier command of the ring has completed. DEDUCED: log entry 40. -/
def State.earlierDone (s : State) (c : Cmd) : Bool :=
  (mapVals s.cmds).all fun d => d.ring != c.ring || decide (c.seq ≤ d.seq) || d.stage == .recorded

/-- No earlier serial or critical command of the ring is still in flight. DEDUCED: log entry 40. -/
def State.noSerialBefore (s : State) (c : Cmd) : Bool :=
  (mapVals s.cmds).all fun d =>
    d.ring != c.ring || decide (c.seq ≤ d.seq) || d.stage == .recorded || !(d.serial || opcodeCritical d.opcode)

/-- The ordering rules of R454 let the command start. DEDUCED: log entry 40. -/
def State.mayStart (s : State) (c : Cmd) : Bool :=
  if c.serial || opcodeCritical c.opcode then s.earlierDone c else s.noSerialBefore c

/-- The message of a ring command's tag: entry bytes 0 to 239, then the payload (R466). -/
def State.ringTagMessage (s : State) (c : Cmd) : Bytes := c.entry.take 240 ++ s.payload c

/-- Start a command: for a critical one the tag and the counter, then the slice and RESLEN (checks 4 to 6 of R456).
DEDUCED: log entry 37. -/
def State.startCmd (s : State) (c : Cmd) : State :=
  let (refusal, s) :=
    if opcodeCritical c.opcode && c.ring != mgmtRing then
      s.critical 0 c.counter (s.ringTagMessage c) (bytesAt c.entry 240 16) "PN-880 ring"
    else (none, s)
  match refusal with
  | some st => s.refuse c st
  | none =>
    let c := { c with accepted := opcodeCritical c.opcode }
    if opcodeCritical c.opcode && s.criticalBusy then s.refuse c stBUSY
    else if !opcodeCritical c.opcode && !s.sliceInService c.slice then s.refuse c stSLICEGONE
    else if c.reslen < 64 && c.ring != mgmtRing then (s.count MEM_BUFSHORT_COUNT).refuse c stBUFFERSHORT
    else s.setCmd { c with stage := .running, since := s.clock.mono }

/-- COMMAND_START: a consumed command starts once R454 lets it. -/
def State.commandStart (s : State) (r seq : Nat) : State :=
  match s.cmd r seq with
  | some c => if c.stage == .consumed && s.mayStart c then s.startCmd c else s
  | none => s

-- ## Completion (R454, R455, R458)

/-- The completion record (Table 15-3). -/
def State.record (s : State) (c : Cmd) : Bytes :=
  leBytes 2 c.status ++ leBytes 2 c.opcode ++ leBytes 4 c.count ++ leBytes 8 c.seq ++ leBytes 6 c.ticket ++ leBytes 2 0 ++
  leBytes 8 c.handle ++ leBytes 8 c.tadmit ++ leBytes 8 s.now ++ List.replicate 16 0

/-- COMPLETED advances over the longest run of finished commands (R454). -/
def State.advanceCompleted (s : State) (r : Nat) : Nat → State
  | 0 => s
  | fuel + 1 =>
    let x := s.ring r
    match s.cmd r (x.completed + 1) with
    | some c =>
      if c.stage == .recorded then
        let s := s.setRing r { x with completed := x.completed + 1, lastStatus := c.status }
        { s with cmds := mapErase s.cmds (cmdKey r (x.completed + 1)) }.advanceCompleted r fuel
      else s
    | none => s

/-- The tagged reply to a management request (R572). -/
def State.mgmtReply (s : State) (typ reqid status counter : Nat) (payload : Bytes) (tagged : Bool) : Bytes :=
  let m := mgmtHead typ 1 payload.length reqid status counter ++ payload
  match s.nv.ock with
  | some k => if tagged then m ++ kmac256 k m 16 "PN-880 management reply" else m
  | none => if tagged then m ++ List.replicate 16 0 else m

/-- The COMMAND entry of the log for an accepted critical command (Table 19-3). DESIGN CHOICE (log entry 41): the epoch that a FENCE carries is
recorded at bytes 20–23 of the body (R418). -/
def State.logCommand (s : State) (c : Cmd) : State :=
  s.logAppend ltCommand (leBytes 2 c.opcode ++ leBytes 1 (if c.ring = mgmtRing then 2 else 0) ++
    leBytes 1 (if c.ring = mgmtRing then 0xFF else c.ring) ++ List.replicate 4 0 ++ leBytes 8 c.counter ++ leBytes 2 c.status ++
    leBytes 2 0 ++ leBytes 4 (if c.opcode = 0x0105 then c.par 32 4 else 0))

/-- Write the completion record and the outputs of a ring command (R455), and count a refusal (Table 15-6). -/
def State.writeRecord (s : State) (c : Cmd) : State :=
  let base := s.dataArea c.ring + c.par 16 4
  let s := if c.noRecord then s
    else { s with ringMem := memWrite s.ringMem base (s.record c ++ c.outputs.take c.room) }
  let s := if c.status ≥ 0x0010 then s.count CMD_RINGERR_REFUSED 1 c.ring else s
  if c.noRecord && decide (c.status ≥ 0x0010) then s.count CMD_RINGERR_NORECORD 1 c.ring else s

/-- A rotated operator command key takes effect (R544). DESIGN CHOICE: log entry 53. -/
def State.takeKey (s : State) (c : Cmd) : State :=
  if c.rekey.isSome then { s with nv := { s.nv with ock := c.rekey, rotations := (s.nv.rotations + 1) % 2 ^ 32 } } else s

/-- A finished command gets its record; COMPLETED advances and the status word is rewritten. -/
def State.complete (s : State) (c : Cmd) : State :=
  let s := if c.accepted then s.logCommand c else s
  if c.ring = mgmtRing then
    let s := s.mgmtSend (s.mgmtReply 1 c.reqid c.status c.counter (s.record c ++ c.outputs.take 1024) true)
    { s.takeKey c with cmds := mapErase s.cmds (cmdKey c.ring c.seq) }
  else
    let s := ((s.writeRecord c).takeKey c).setCmd { c with stage := .recorded }
    (s.advanceCompleted c.ring (s.cmds.length + 1)).updateStatus c.ring

/-- COMMAND_COMPLETE. DEDUCED: log entry 39. -/
def State.commandComplete (s : State) (r seq dt : Nat) : State :=
  let s := s.tick dt
  match s.cmd r seq with
  | some c => if c.stage == .finished then s.complete c else s
  | none => s

/-- NOP (Table 15-4): no parameters, no payload, no outputs. -/
def State.nopRun (s : State) (r seq : Nat) : State :=
  match s.running r seq 0x0001 with
  | some c => if c.unusedZero [] then s.finish c stOK else s.refuse c stLIMIT
  | none => s

end Sys2Proof.Machine
end

