-- ==== Sys2Proof/Machine/Reset.lean ====
section
/-! DEFINITION. What survives when the rails of the package fall or a device reset begins (R491, R588, R590). -/

namespace Sys2Proof.Machine

/-- A PERSIST allocation without the consists that named it. -/
def Alloc.keep (a : Alloc) : Alloc := { a with consist := 0, users := [], hits := [], low := [], last := [], age := 0 }

/-- The state once every rail but the standby rails is down: registers and on-package state are lost; management flash, the media
and what lies on them under PERSIST stay (R491). -/
def State.lose (s : State) : State :=
  { State.reset with
    nv := s.nv, clock := { Clock.initial with mono := s.clock.mono, timeZero := s.clock.timeZero }, pins := s.pins,
    allocs := mapMap (mapFilter s.allocs fun _ a => a.flags.persist) fun _ a => a.keep
    nextId := s.nextId, stores := s.stores, depots := s.depots.map Depot.lose
    fab := { Fabric.blank with shards := s.fab.shards }
    cclOut := s.cclOut, mgmtOut := s.mgmtOut, jtagOut := s.jtagOut, freeCtr := s.freeCtr, pending := s.pending }

end Sys2Proof.Machine
end

