-- ==== Sys2Proof/Machine/Power.lean ====
section
/-! DEFINITION. Sensors, thermal limits, the power governor, I3C and the station clock's discipline (R558 to R562, R574,
R575). -/

namespace Sys2Proof.Machine

/-- Temperatures of R559 in 0.125 °C. -/
abbrev t95 : Int := 760
abbrev t102 : Int := 816
abbrev t105 : Int := 840
abbrev t115 : Int := 920

/-- What a diode of an unfilled site reads (R558). -/
abbrev noDiode : Int := 0x7FFF

/-- The hottest of a list of diodes, those of unfilled sites apart. -/
def hottest (ds : List Int) : Int :=
  (ds.filter fun t => decide (t ≠ noDiode)).foldl max (-32768)

/-- The diodes of Counting die `d` (R558). -/
def dieDiodes (diodes : List Int) (d : Nat) : List Int := (diodes.drop (36 * d)).take 36

/-- The diodes of perimeter site `i` (R558). -/
def siteDiodes (diodes : List Int) (i : Nat) : List Int := (diodes.drop (72 + 2 * i)).take 2

/-- The site of Junction die `j` (Table 20-2). -/
def jdSite (j : Nat) : Nat := [0, 6, 5, 11].getD j 0

/-- The site of HBM stack `k` in a variant (Table 20-2). -/
def hbmSite (variant k : Nat) : Nat :=
  (if variant = 1 then [1, 2, 3, 4, 7, 8, 9, 10] else if variant = 2 then [1, 2, 3, 4, 5, 7, 8, 9, 10, 11] else [1, 4, 7, 10]).getD k 0

/-- A POWER entry of the log (Table 19-3). -/
def State.logPower (s : State) (event die : Nat) (temp : Int) (diode : Nat) : State :=
  s.logAppend ltPower (leBytes 1 event ++ leBytes 1 die ++ leBytes 2 (s.fld PWR_RAIL_MV die) ++ leBytes 2 (ofSigned temp 16) ++
    leBytes 1 diode)

/-- The diode of Counting die `d` that reads `t`. DESIGN CHOICE: log entry 131. -/
def State.diodeAt (s : State) (d : Nat) (t : Int) : Nat := 36 * d + (dieDiodes s.stm.diodes d).findIdx (· == t)

/-- The throttle of Counting die `d` after a sample (R559): on at 105 °C, off at 102 °C. DESIGN CHOICE: log entry 131. -/
def State.throttleSample (s : State) (d : Nat) : State :=
  let t := hottest (dieDiodes s.stm.diodes d)
  let s := s.setFld PWR_THERM_MAX (ofSigned t 16) d
  if s.fld PWR_THERM_THROTTLE d = 0 ∧ t105 ≤ t then
    ((s.setFld PWR_THERM_THROTTLE 1 d).count PWR_THERM_EVENTS 1 d).logPower 1 d t (s.diodeAt d t)
  else if s.fld PWR_THERM_THROTTLE d = 1 ∧ t ≤ t102 then (s.setFld PWR_THERM_THROTTLE 0 d).logPower 2 d t (s.diodeAt d t)
  else s

/-- Junction dies whose Depot and codec issue rate is halved after a sample (R559). -/
def State.halvedAfter (s : State) : List Nat :=
  (List.range s.jdCount).filter fun j =>
    let t := hottest (siteDiodes s.stm.diodes (jdSite j))
    decide (t105 ≤ t) || (s.stm.jdHalved.contains j && decide (t102 < t))

/-- HBM stacks at double refresh after a sample (R559). -/
def State.doubledAfter (s : State) : List Nat :=
  (List.range s.hbmStacks).filter fun k => decide (t95 ≤ hottest (siteDiodes s.stm.diodes (hbmSite s.variant k)))

/-- Consecutive samples at 115 °C or above of each diode (R559). -/
def hotAfter (hot : KMap Nat) (diodes : List Int) : KMap Nat :=
  ((List.range diodes.length).filter fun i => decide (t115 ≤ diodes.getD i 0) && decide (diodes.getD i 0 ≠ noDiode)).map
    fun i => (i, mapGetD hot i 0 + 1)

/-- The thermal trip (R559, R588): THERMTRIP_N goes low, the trip is kept for the next start-up's log, the rails fall.
DESIGN CHOICE: log entry 19. -/
def State.trip (s : State) (diode : Nat) : State :=
  let s := { s with
    pins := { s.pins with tripped := true }
    nv := { s.nv with
      tripCount := min (s.nv.tripCount + 1) 0xFFFF, tripDiode := diode
      tripToLog := some (diode, s.stm.diodes.getD diode 0, if diode < 72 then s.fld PWR_RAIL_MV (diode / 36) else 0) } }
  s.lose

/-- THERMAL_SAMPLE: the 96 diodes as sampled every 1 ms (R558, R559). -/
def State.thermalSample (s : State) (diodes : List Int) : State :=
  if s.phase = phPower then s
  else
    let s := { s with stm := { s.stm with diodes := diodes, hot := hotAfter s.stm.hot diodes } }
    let s := (s.throttleSample 0).throttleSample 1
    let s := { s with stm := { s.stm with jdHalved := s.halvedAfter, hbmDouble := s.doubledAfter } }
    match s.stm.hot.find? fun e => decide (3 ≤ e.2) with
    | some e => s.trip e.1
    | none => s

-- ## Governor (R560 to R562)

/-- Tenant slices in the slice table. -/
def State.tenants (s : State) : KMap SliceEntry := s.nv.slices

/-- A slice's power budget in W (R560). -/
def State.budget (s : State) (sl : Nat) : Nat :=
  if sl = 0 then s.fld PWR_ENVELOPE_ENV - s.fld PWR_ENVELOPE_RESERVE - sumNat ((mapVals s.nv.slices).map fun e => e.power)
  else (mapGet s.nv.slices sl).elim 0 fun e => e.power

/-- BORROW of a slice. -/
def State.borrows (s : State) (sl : Nat) : Bool := (mapGet s.nv.slices sl).elim false fun e => e.borrow

/-- The slices the governor serves, ascending. -/
def State.govSlices (s : State) : List Nat := 0 :: mapKeys s.nv.slices

/-- The draw of a slice over the last 1 ms, W. DESIGN CHOICE: log entry 34. -/
def State.sliceDraw (s : State) (sl : Nat) : Nat := mapGetD s.stm.draw sl 0

/-- The pacing level of a slice. -/
def State.pace (s : State) (sl : Nat) : Nat := mapGetD s.stm.pace sl 0

/-- The level at which an engine of a slice on Counting die `d` is paced: the slice's, and at least 16 while the die throttles (R559, R561).
It changes time only. DESIGN CHOICE: log entry 34. -/
def State.enginePace (s : State) (sl d : Nat) : Nat := if s.fld PWR_THERM_THROTTLE d = 1 then max 16 (s.pace sl) else s.pace sl

/-- The steps, in 64ths of those it would complete unpaced, that an engine may complete (R561). -/
def State.engineSteps (s : State) (sl d : Nat) : Nat := 64 - s.enginePace sl d

/-- The unused budget of all slices. -/
def State.pool (s : State) : Nat := sumNat (s.govSlices.map fun sl => s.budget sl - s.sliceDraw sl)

/-- Slices with BORROW that are paced or at budget. -/
def State.borrowers (s : State) : Nat :=
  (s.govSlices.filter fun sl => s.borrows sl && (decide (0 < s.pace sl) || decide (s.budget sl ≤ s.sliceDraw sl))).length

/-- One slice's turn in a pass of the loop of R561. The allowance is budget + pool / n, compared exactly.
DESIGN CHOICE: log entry 34. -/
def State.paceSlice (s : State) (pool sl : Nat) : State :=
  let n := if s.borrows sl then max 1 s.borrowers else 1
  let lent := if s.borrows sl then pool else 0
  let allowN := s.budget sl * n + lent
  let d := s.sliceDraw sl
  let p := if allowN < d * n then min 63 (s.pace sl + 4)
    else if 100 * d * n < 95 * allowN ∧ 0 < s.pace sl then s.pace sl - 1 else s.pace sl
  { s with stm := { s.stm with pace := mapSet s.stm.pace sl p, borrowed := mapSet s.stm.borrowed sl (lent / n) } }

/-- Emergency pacing of one slice (R561). -/
def State.paceEmergency (s : State) (sl : Nat) : State :=
  if s.budget sl < s.sliceDraw sl then
    { s with stm := { s.stm with pace := mapSet s.stm.pace sl (max (s.pace sl) 48) } }
  else s

/-- GOVERNOR_PASS: one pass of the loop of R561 over the draws of the last 1 ms and the input power of the last 100 µs.
DESIGN CHOICE: log entries 34, 131. -/
def State.governorPass (s : State) (draws : List SliceDraw) (inputDeciwatts : Nat) : State :=
  if s.phase = phPower ∨ s.phase = phFailed ∨ s.stm.takeoverWindow = true then s
  else
    let s := { s with stm := { s.stm with draw := draws.foldl (fun (m : KMap Nat) (d : SliceDraw) => mapSet m d.slice d.watts) [] } }
    let pool := s.pool
    let s := s.govSlices.foldl (fun (s : State) sl => s.paceSlice pool sl) s
    let emerg := decide (108 * s.fld PWR_ENVELOPE_ENV < 10 * inputDeciwatts)
    let s := if emerg then s.govSlices.foldl (fun (s : State) sl => s.paceEmergency sl) s else s
    let s := if emerg then s.count PWR_PACED_EMERG else s
    let s := if emerg && !s.stm.emergency then s.logPower 4 0 (hottest (dieDiodes s.stm.diodes 0)) (s.diodeAt 0 (hottest (dieDiodes s.stm.diodes 0))) else s
    let s := { s with stm := { s.stm with emergency := emerg } }
    if s.govSlices.any fun sl => decide (0 < s.pace sl) then s.count PWR_PACED_COUNT else s

/-- The rule of R562 for Counting die `d`. -/
def State.railStepDie (s : State) (inputDeciwatts d : Nat) : State :=
  let fix := s.fld SEC_ISOL_RAILFIX = 1
  let want := if fix then s.fld SEC_ISOL_RAILMV else s.fld PWR_RAIL_TARGET d
  let mv := s.fld PWR_RAIL_MV d
  let env := s.fld PWR_ENVELOPE_ENV
  let paced := s.govSlices.any fun sl => decide (0 < s.pace sl)
  let mv' :=
    if s.fld PWR_THERM_THROTTLE d = 1 then max 550 (mv - 20)
    else if ¬fix ∧ 98 * env ≤ 10 * inputDeciwatts ∧ paced = false then max 550 (mv - 10)
    else if mv < want ∧ 10 * inputDeciwatts ≤ 92 * env then min want (mv + 10)
    else if want < mv then want else mv
  s.setFld PWR_RAIL_MV mv' d

/-- RAIL_STEP: every 10 ms, the rule of R562 for both Counting dies over the input power of the last 1 ms. -/
def State.railStep (s : State) (inputDeciwatts : Nat) : State :=
  if s.phase < phAlign ∨ s.phase = phFailed ∨ s.stm.takeoverWindow = true then s
  else (s.railStepDie inputDeciwatts 0).railStepDie inputDeciwatts 1

-- ## Sensor snapshot and I3C (R558, R574)

/-- The die temperature as reports show it: coarsened to the lower edge of its bin under TEMPCOARSE (R537). -/
def coarsen (coarse : Bool) (t : Int) : Int :=
  if coarse then [0, 320, 400, 480, 560, 640, 720, 800].getD (tempBin t) 0 else t

/-- SENSE_PUBLISH: the snapshot STM_SENSE is rewritten (Table 19-6): SNAP, TIME, diodes, rails, I3C readings; PWR_INPUT and the core
rails' currents show what was read. -/
def State.sensePublish (s : State) (dt : Nat) (diodes : List Int) (volts milliamps deciwatts : Nat) (railAmps : List Nat)
    (rails i3c : List (BitVec 16)) : State :=
  let s := s.tick dt
  if s.phase = phPower then s
  else
    let s := ((s.setFld PWR_INPUT_VOLTS volts).setFld PWR_INPUT_AMPS milliamps).setFld PWR_INPUT_POWER deciwatts
    let s := (s.setFld PWR_RAIL_AMPS (railAmps.getD 0 0) 0).setFld PWR_RAIL_AMPS (railAmps.getD 1 0) 1
    let snap := ((s.reg .stmSense 0 0).toNat % 2 ^ 32 + 2) % 2 ^ 32
    let bytes := leBytes 4 snap ++ leBytes 4 0 ++ leBytes 8 s.now ++ (diodes.take 96).flatMap (fun t => leBytes 2 (ofSigned t 16)) ++
      rails.flatMap (fun v => leBytes 2 v.toNat) ++ i3c.flatMap (fun v => leBytes 2 v.toNat)
    (List.range 512).foldl (fun (s : State) i => s.setReg .stmSense i 0 (BitVec.ofNat 64 (leAt bytes (8 * i) 8))) s

/-- I3C_POLL: the DIMM temperatures set and clear double refresh of their channels at 85 °C and 82 °C (R574). -/
def State.i3cPoll (s : State) (readings : List I3cReading) : State :=
  if s.phase = phPower then s
  else
    let step := fun (l : List Nat) (x : I3cReading) =>
      match x.channel with
      | some c => if 680 ≤ x.temp then (if l.contains c then l else l ++ [c]) else if x.temp ≤ 656 then l.filter (· != c) else l
      | none => l
    { s with stm := { s.stm with ddrDouble := readings.foldl step s.stm.ddrDouble } }

/-- I3C_HOT_JOIN: the Stationmaster assigns the device a dynamic address (R574). -/
def State.i3cHotJoin (s : State) (device : Nat) : State :=
  if s.phase = phPower ∨ s.stm.i3c.contains device then s
  else { s with stm := { s.stm with i3c := s.stm.i3c ++ [device] } }

-- ## Time (R575, R439)

/-- A TIME entry of the log (Table 19-3). -/
def State.logTime (s : State) (event : Nat) (step : Int) : State :=
  s.logAppend ltTime (leBytes 1 event ++ List.replicate 7 0 ++ leBytes 8 (ofSigned step 64))

/-- Greatest slew over `dt` ns: 200 ppm (R575). DESIGN CHOICE: log entry 35. -/
def maxSlew (dt : Nat) : Nat := dt / 5000

/-- PTP_LOCK: 16 consecutive offsets below 1 µs (R575). -/
def State.lockStep (s : State) (offset : Int) : State :=
  let good := if offset.natAbs < 1000 then s.clock.goodOffsets + 1 else 0
  let s := { s with clock := { s.clock with goodOffsets := good } }
  if 16 ≤ good ∧ s.clock.locked = false then
    ({ s with clock := { s.clock with locked := true } }.setFld STM_TIME_LOCKED 1).logTime 1 0
  else s

/-- The offset as STM_TIME.OFFSET holds it: signed ns, saturating. -/
def offsetField (offset : Int) : Nat := ofSigned (clampInt offset (-2 ^ 31) (2 ^ 31 - 1)) 32

end Sys2Proof.Machine
end

