-- ==== Sys2Proof/Machine/Codec.lean ====
section
/-! DEFINITION. The Shediset codec (R349 to R352), AES-256-XTS of the namespaces (R386), and the wrapping of keys (R542). -/

namespace Sys2Proof.Machine

-- ## The codec

/-- Bytes of a block. -/
abbrev blockBytes : Nat := 4096

/-- METHOD of a block descriptor (Table 11-5). -/
inductive Method where
  | stored | zero | repeated | plane (w : Nat) (delta : Bool)
  deriving DecidableEq, Repr

/-- The candidates in the order the encoder tries them (R351). -/
def candidates : List Method :=
  [.zero, .repeated, .plane 1 false, .plane 2 false, .plane 2 true, .plane 4 false, .plane 4 true, .stored]

/-- One run-length token: `n` copies of `prev`, 2 to 129 (R350). -/
def repeatToken (n : Nat) : Byte := BitVec.ofNat 8 (n + 0x7E)

/-- Flush pending literals, in tokens of at most 128. -/
def literalTokens : Nat → Bytes → Bytes
  | 0, _ => []
  | _, [] => []
  | fuel + 1, l => BitVec.ofNat 8 ((l.take 128).length - 1) :: (l.take 128 ++ literalTokens fuel (l.drop 128))

/-- Length of the run of bytes equal to `b` at the head of a list. -/
def runLength (b : Byte) : Bytes → Nat
  | [] => 0
  | x :: xs => if x = b then runLength b xs + 1 else 0

/-- Encode a plane: runs of two or more of the previous byte as repeats, the rest as literals. `prev` is the last byte
produced, `lits` the pending literals. DESIGN CHOICE: log entry 78. -/
def encodePlane : Nat → Byte → Bytes → Bytes → Bytes
  | 0, _, lits, _ => literalTokens lits.length lits
  | _, _, lits, [] => literalTokens lits.length lits
  | fuel + 1, prev, lits, x :: xs =>
    let n := min 129 (runLength prev (x :: xs))
    if 2 ≤ n then literalTokens lits.length lits ++ repeatToken n :: encodePlane fuel prev [] ((x :: xs).drop n)
    else encodePlane fuel x (lits ++ [x]) xs

/-- Decode tokens until `n` bytes stand: the bytes and what is left of the stream; none on an overrun (R350, R352). -/
def decodeTokens : Nat → Nat → Byte → Bytes → Option Bytes
  | 0, _, _, _ => none
  | fuel + 1, n, prev, s =>
    if n = 0 then (if s.isEmpty then some [] else none)
    else
      match s with
      | [] => none
      | t :: rest =>
        if t.toNat < 0x80 then
          let k := t.toNat + 1
          if rest.length < k ∨ n < k then none
          else (decodeTokens fuel (n - k) ((rest.take k).getLastD 0) (rest.drop k)).map fun o => rest.take k ++ o
        else
          let k := t.toNat - 0x7E
          if n < k then none else (decodeTokens fuel (n - k) prev rest).map fun o => List.replicate k prev ++ o

/-- Byte `b` of each element of width `w`. -/
def planeOf (w b : Nat) (blk : Bytes) : Bytes := (List.range (blk.length / w)).map fun e => blk.getD (e * w + b) 0

/-- Elements XORed with the previous element (DELTA). -/
def deltaOf (w : Nat) (blk : Bytes) : Bytes :=
  (List.range blk.length).map fun i => if i < w then blk.getD i 0 else blk.getD i 0 ^^^ blk.getD (i - w) 0

/-- The inverse of `deltaOf`: each element XORed with the element before it in the output. -/
def undelta (w : Nat) : Nat → Bytes → Bytes → Bytes
  | 0, _, _ => []
  | fuel + 1, prev, s =>
    if s.isEmpty then []
    else
      let e := xorBytes (s.take w) prev
      e ++ undelta w fuel e (s.drop w)

/-- The payload of a block under a method, before padding; none where the method does not fit the block. -/
def encodeWith (m : Method) (blk : Bytes) : Option Bytes :=
  match m with
  | .stored => some blk
  | .zero => if allZero blk then some [] else none
  | .repeated =>
    let unit := blk.take 8
    if blk == (List.replicate 512 unit).flatten then some unit else none
  | .plane w delta =>
    let d := if delta then deltaOf w blk else blk
    let p := (List.range w).flatMap fun b =>
      let t := encodePlane (blockBytes + 1) 0 [] (planeOf w b d)
      leBytes 2 t.length ++ t
    if p.length ≤ 63 * 64 then some p else none

/-- LEN of a payload under a method (Table 11-5). -/
def methodLen (m : Method) (p : Bytes) : Nat :=
  match m with
  | .stored => 64
  | .zero => 0
  | .repeated => 1
  | .plane _ _ => ceilDiv p.length 64

/-- A payload with its method and LEN. -/
structure Encoded where
  method : Method
  len : Nat
  payload : Bytes
  deriving DecidableEq, Repr

/-- The candidate with the smallest LEN, the first tried among equals (R351). DESIGN CHOICE: log entry 78. -/
def encodeBlock (blk : Bytes) : Encoded :=
  candidates.foldl (fun best m =>
    match encodeWith m blk with
    | some p => if methodLen m p < best.len then ⟨m, methodLen m p, padTo p 64⟩ else best
    | none => best) ⟨.stored, 65, blk⟩

/-- The descriptor word of an encoded block (Table 11-5), POISON clear. -/
def descriptorOf (e : Encoded) (blk : Bytes) : Nat :=
  let mth := match e.method with | .stored => 0 | .zero => 1 | .repeated => 2 | .plane _ _ => 3
  let w := match e.method with | .plane 2 _ => 1 | .plane 4 _ => 2 | _ => 0
  let d := match e.method with | .plane _ true => 1 | _ => 0
  e.len + mth * 2 ^ 7 + w * 2 ^ 10 + d * 2 ^ 12 + (crc32c blk).toNat * 2 ^ 32

/-- Split off `w` planes of `n` bytes each; none on a failure, with the rest of the payload. -/
def decodePlanes : Nat → Nat → Bytes → Option (List Bytes × Bytes)
  | 0, _, p => some ([], p)
  | w + 1, n, p =>
    let len := leAt p 0 2
    let body := p.drop 2
    if p.length < 2 ∨ body.length < len then none
    else
      match decodeTokens (n + 1) n 0 (body.take len) with
      | some pl => (decodePlanes w n (body.drop len)).map fun r => (pl :: r.1, r.2)
      | none => none

/-- Decode a payload under its descriptor (R350); none where the decode fails (R352). -/
def decodeBlock (payload : Bytes) (desc : Nat) : Option Bytes :=
  let len := bitsOf desc 0 7
  let mth := bitsOf desc 7 3
  let w := [1, 2, 4, 0].getD (bitsOf desc 10 2) 0
  let body := payload.take (64 * len)
  let out : Option Bytes :=
    if 64 < len then none
    else match mth with
      | 0 => if len = 64 then some (bytesAt body 0 blockBytes) else none
      | 1 => if len = 0 then some (List.replicate blockBytes 0) else none
      | 2 => if len = 1 then some (List.replicate 512 (bytesAt body 0 8)).flatten else none
      | 3 =>
        if w = 0 then none
        else
          match decodePlanes w (blockBytes / w) body with
          | some (pls, _) =>
            let o := (List.range blockBytes).map fun i => (pls.getD (i % w) []).getD (i / w) 0
            some (if bitOf desc 12 then undelta w (blockBytes + 1) (List.replicate w 0) o else o)
          | none => none
      | _ => none
  match out with
  | some o => if (crc32c o).toNat = bitsOf desc 32 32 then some o else none
  | none => none

-- ## AES-256 in XTS mode (R386)

/-- Multiplication by x in the field of AES (x⁸ + x⁴ + x³ + x + 1). -/
def aesDbl (a : Byte) : Byte := if a.getLsbD 7 then (a <<< 1) ^^^ 0x1B else a <<< 1

/-- Multiplication in the field of AES over the low `n` bits of the second factor. -/
def aesMulGo : Nat → Byte → Byte → Byte
  | 0, _, _ => 0
  | n + 1, a, b => (if b.getLsbD 0 then a else 0) ^^^ aesMulGo n (aesDbl a) (b >>> 1)

/-- Multiplication in the field of AES. -/
def aesMul (a b : Byte) : Byte := aesMulGo 8 a b

/-- a²⁵⁴ in the field of AES. -/
def aesInv (a : Byte) : Byte :=
  let a2 := aesMul a a
  let a4 := aesMul a2 a2
  let a8 := aesMul a4 a4
  let a16 := aesMul a8 a8
  let a32 := aesMul a16 a16
  let a64 := aesMul a32 a32
  let a128 := aesMul a64 a64
  aesMul a128 (aesMul a64 (aesMul a32 (aesMul a16 (aesMul a8 (aesMul a4 a2)))))

/-- The S-box of AES. -/
def aesSub (a : Byte) : Byte :=
  let b := aesInv a
  b ^^^ b.rotateLeft 1 ^^^ b.rotateLeft 2 ^^^ b.rotateLeft 3 ^^^ b.rotateLeft 4 ^^^ 0x63

/-- The inverse S-box of AES. -/
def aesInvSub (a : Byte) : Byte :=
  aesInv (a.rotateLeft 1 ^^^ a.rotateLeft 3 ^^^ a.rotateLeft 6 ^^^ 0x05)

/-- The words of the AES-256 key schedule after the first eight, newest first, with the round constant. -/
def aesExpandGo : Nat → Nat → Byte → List Bytes → List Bytes
  | 0, _, _, ws => ws
  | n + 1, i, rc, ws =>
    let t := ws.headD []
    let t' :=
      if i % 8 = 0 then
        match t with
        | [a, b, c, d] => [aesSub b ^^^ rc, aesSub c, aesSub d, aesSub a]
        | _ => t
      else if i % 8 = 4 then t.map aesSub else t
    aesExpandGo n (i + 1) (if i % 8 = 0 then aesDbl rc else rc) (xorBytes (ws.getD 7 []) t' :: ws)

/-- The fifteen round keys of AES-256. -/
def aesRoundKeys (key : Bytes) : List Bytes :=
  let first := (chunks 4 8 (bytesAt key 0 32)).reverse
  (chunks 4 15 (aesExpandGo 52 8 1 first).reverse).map List.flatten

/-- ShiftRows; byte 4c + r of a state is row r of column c. -/
def aesShift (s : Bytes) : Bytes := (List.range 16).map fun i => s.getD ((i + 4 * (i % 4)) % 16) 0

/-- The inverse of ShiftRows. -/
def aesUnshift (s : Bytes) : Bytes := (List.range 16).map fun i => s.getD ((i + 12 * (i % 4)) % 16) 0

/-- MixColumns with the coefficients of its first row. -/
def aesMix (k0 k1 k2 k3 : Byte) (s : Bytes) : Bytes :=
  (List.range 16).map fun i =>
    let c := i / 4 * 4
    let at_ := fun r => s.getD (c + (i + r) % 4) 0
    aesMul k0 (at_ 0) ^^^ aesMul k1 (at_ 1) ^^^ aesMul k2 (at_ 2) ^^^ aesMul k3 (at_ 3)

/-- AES-256 encryption of one block under its round keys. -/
def aesEncrypt (ks : List Bytes) (blk : Bytes) : Bytes :=
  let s := (List.range 13).foldl (fun s r => xorBytes (aesMix 2 3 1 1 (aesShift (s.map aesSub))) (ks.getD (r + 1) []))
    (xorBytes blk (ks.getD 0 []))
  xorBytes (aesShift (s.map aesSub)) (ks.getD 14 [])

/-- AES-256 decryption of one block under its round keys. -/
def aesDecrypt (ks : List Bytes) (blk : Bytes) : Bytes :=
  let s := (List.range 13).foldl
    (fun s r => aesMix 14 11 13 9 (xorBytes ((aesUnshift s).map aesInvSub) (ks.getD (13 - r) [])))
    (xorBytes blk (ks.getD 14 []))
  xorBytes ((aesUnshift s).map aesInvSub) (ks.getD 0 [])

/-- The tweak of the next block: multiplication by x in GF(2¹²⁸), little-endian (IEEE 1619). -/
def xtsNext (t : Bytes) : Bytes := leBytes 16 (gf128Dbl (BitVec.ofNat 128 (leNat t))).toNat

/-- XTS over the blocks of a data unit with tweak `t`. -/
def xtsGo (f : Bytes → Bytes) : Bytes → List Bytes → Bytes
  | _, [] => []
  | t, b :: bs => xorBytes (f (xorBytes b t)) t ++ xtsGo f (xtsNext t) bs

/-- The tweak value of R386: SEQ, NS and UNIT. -/
def slotTweak (seq ns unit : Nat) : Bytes := leBytes 16 (unit % 2 ^ 40 + ns * 2 ^ 48 + seq * 2 ^ 64)

/-- The tweak encrypted under the namespace's second XTS key (R387). -/
def encTweak (key : Bytes) (seq ns unit : Nat) : Bytes :=
  aesEncrypt (aesRoundKeys (key.drop 32)) (slotTweak seq ns unit)

/-- A slot enciphered under the 64 bytes of a namespace's key (R386). -/
def xtsEncrypt (key : Bytes) (seq ns unit : Nat) (slot : Bytes) : Bytes :=
  xtsGo (aesEncrypt (aesRoundKeys (key.take 32))) (encTweak key seq ns unit) (chunks 16 256 slot)

/-- A slot deciphered. -/
def xtsDecrypt (key : Bytes) (seq ns unit : Nat) (slot : Bytes) : Bytes :=
  xtsGo (aesDecrypt (aesRoundKeys (key.take 32))) (encTweak key seq ns unit) (chunks 16 256 slot)

-- ## Wrapped keys (R542)

/-- A key wrapped under `w` with a nonce: NONCE ‖ C ‖ TAG. -/
def wrapKey (w nonce key : Bytes) : Bytes :=
  let c := xorBytes key (kmac256 w nonce key.length "PN-880 wrap")
  nonce ++ c ++ kmac256 w (nonce ++ c) 16 "PN-880 wrap tag"

/-- The key of a wrap, unless its tag fails. -/
def unwrapKey (w wrapped : Bytes) : Option Bytes :=
  let nonce := wrapped.take 16
  let c := (wrapped.drop 16).take (wrapped.length - 32)
  if kmac256 w (nonce ++ c) 16 "PN-880 wrap tag" = wrapped.drop (wrapped.length - 16) then
    some (xorBytes c (kmac256 w nonce c.length "PN-880 wrap"))
  else none

end Sys2Proof.Machine
end

