-- ==== Sys2Proof/Machine/Units.lean ====
section
/-! DEFINITION. The units of the device under fault: the transient rule, the retirement record, and what the retirement of a
unit does at once (R500 to R506). -/

namespace Sys2Proof.Machine

/-- The windows and the cells are saved to management flash (R501). -/
def State.saveWindows (s : State) : State :=
  { s with nv := { s.nv with windows := s.stm.windows, cells := s.stm.cells } }

/-- The events of a unit that COUNT24 of a record reports: TRANSIENT events of its window, or CHECK events of a frame. -/
def State.count24 (s : State) (u : Nat) (cls : FaultClass) : Nat :=
  if unitType u = 1 ∧ (cls == .check || cls == .quarantine) then (s.cellEvents (unitIndex u)).length else s.windowCount u .transient

/-- A fault record with the unit's own count (R515). -/
def State.report (s : State) (unit : Nat) (cls : FaultClass) (source : Nat) (pattern : Nat := 0) (slice : Nat := 0xFF)
    (addr : Nat := 0) : State :=
  s.faultRecord unit cls source pattern slice addr (s.count24 unit cls)

/-- A memory unit of R506: a concourse granule, a pseudo-channel or a rank. -/
def memoryUnit (u : Nat) : Bool := [4, 5, 6].contains (unitType u)

/-- The Depot of a NAND die or a NAND channel. -/
def nandDepot (u : Nat) : Nat := if unitType u = 7 then unitIndex u / 256 else unitIndex u / 16

/-- Table 17-4 for a NAND unit: it leaves service and the lanes it serves become DEGRADED (R383). -/
def Depot.dropUnit (d : Depot) (u : Nat) : Depot :=
  let ch := if unitType u = 7 then unitIndex u / 16 % 16 else unitIndex u % 16
  let d := if unitType u = 7 then { d with deadDies := d.deadDies ++ [(ch, unitIndex u % 16)] }
    else { d with deadChannels := d.deadChannels ++ [ch] }
  { d with lanes := (List.range d.lanes.length).map fun l =>
      let x := d.lanes.getD l Lane.blank
      if l = ch / 8 ∧ x.st = .ready then { x with st := .degraded } else x }

/-- The Depot of Junction die `j`. -/
def State.depot (s : State) (j : Nat) : Depot := s.depots.getD j Depot.blank

/-- The state with the Depot of Junction die `j` replaced. -/
def State.setDepot (s : State) (j : Nat) (d : Depot) : State := { s with depots := s.depots.set j d }

/-- Step 3 of R504 for the units whose effect is at once; frames, lanes and the rest take effect where they are used, by the
retirement record. A page move whose destination has not yet been switched to is abandoned with its unit (R344). -/
def State.retireEffect (s : State) (u : Nat) : State :=
  if memoryUnit u then
    { s with stm := { s.stm with retiring := s.stm.retiring ++ [u] }, moves := s.moves.filter fun m => m.copied || m.unit != u }
  else if unitType u = 7 ∨ unitType u = 8 then s.setDepot (nandDepot u) ((s.depot (nandDepot u)).dropUnit u)
  else s

/-- Retire a unit (R504): the retirement record with the windows saved, the fault record, the effects of Table 17-4. -/
def State.retireOne (s : State) (u : Nat) (cls : FaultClass) (source : Nat) (pattern : Nat := 0) : State :=
  if s.retired u then s
  else
    let s := { s with nv := { s.nv with retired := s.nv.retired ++ [RetireEntry.mk u cls source s.now] } }
    (State.report s.saveWindows u cls source pattern).retireEffect u

/-- The unit whose window counts the retirement of `u` as one of its members, with the number of members that retires it
(Table 17-3): the channel of a NAND die, two dies. -/
def parentUnit (u : Nat) : Option Nat := if unitType u = 7 then some (unitId 8 (unitIndex u / 16)) else none

/-- Retire a unit, and the channel of a NAND die when two of its dies have retired in the window. -/
def State.retireUnit (s : State) (u : Nat) (cls : FaultClass) (source : Nat) (pattern : Nat := 0) : State :=
  if s.retired u then s
  else
    let s := s.retireOne u cls source pattern
    match parentUnit u with
    | some p =>
      let s := s.addEvent p .memberRetired
      if 2 ≤ s.windowCount p .memberRetired then s.retireOne p .permanent source else s
    | none => s

/-- A frame that a run has claimed (R505). -/
def State.frameClaimed (s : State) (u : Nat) : Bool := unitType u == 1 && (mapGet s.frames (unitIndex u)).isSome

/-- Retire a unit as PERMANENT, deferring a claimed frame until its run ends (R505). -/
def State.retirePermanent (s : State) (u source : Nat) : State :=
  if s.frameClaimed u then
    if s.retired u then s
    else { s with stm := { s.stm with pendingFrames := mapSet s.stm.pendingFrames (unitIndex u) source } }
  else s.retireUnit u .permanent source

/-- A TRANSIENT event of a unit: counted in its window, recorded, and the unit retired when the window tolerates no more
(R501, R503). -/
def State.transient (s : State) (u source : Nat) (slice : Nat := 0xFF) (addr : Nat := 0) : State :=
  let s := (s.addEvent u .transient).report u .transient source 0 slice addr
  if tolerated u < s.windowCount u .transient then s.retirePermanent u source else s

/-- An uncorrectable error of a memory unit (R503): two in the window retire it. -/
def State.uncorrectable (s : State) (u source : Nat) (slice : Nat := 0xFF) (addr : Nat := 0) : State :=
  let s := (s.addEvent u .uncorrectable).report u .permanent source 0 slice addr
  if memoryUnit u ∧ 2 ≤ s.windowCount u .uncorrectable then s.retirePermanent u source else s

/-- The maintenance window of list 8 is open (R436, R441). -/
def State.maintOpen (s : State) : Bool :=
  match mapGet s.timetables 8 with
  | some t => t.oper.isNone || bitOf t.gates 0
  | none => true

end Sys2Proof.Machine
end

