-- ==== Sys2Proof/Machine/Depot.lean ====
section
/-! DEFINITION. The flash Depots (chapter 12): namespaces and the map, batches and their acknowledgement, folding and relocation
under compare-and-set, the journal and its checkpoints, erasure, the read ladder, retirement, keys and destruction.

System pages (superblock, journal, checkpoint, key table) are held as what they record, not as pages of blocks. Where the Depot
places a slot is its own choice, which the manual does not give: a command's `place` operands carry it, and each is checked
against the rules the manual does give. -/

namespace Sys2Proof.Machine

-- ## Addresses and lanes (R359 to R364)

/-- The special map value of a lost unit (R364). -/
abbrev lostEntry : Nat := 0xFFFFFFFE

/-- Key of a unit in a lane's map. -/
def unitKey (ns unit : Nat) : Nat := ns * 2 ^ 40 + unit

/-- A PUA as a 32-bit word (Table 12-2). -/
def puaWord (p : Pua) : Nat := p.ch * 2 ^ 29 + p.die * 2 ^ 25 + p.slot

/-- CH of a PUA. -/
def puaCh (p : Nat) : Nat := p / 2 ^ 29
/-- DIE of a PUA. -/
def puaDie (p : Nat) : Nat := p / 2 ^ 25 % 16
/-- SLOT of a PUA. -/
def puaSlot (p : Nat) : Nat := p % 2 ^ 25

/-- Key of a block: CH, DIE and block as an open set entry lays them out (Table 12-4). -/
def blockKey (b : BlockId) : Nat := b.ch * 2 ^ 28 + b.die * 2 ^ 24 + b.block

/-- Lane `l` of a Depot. -/
def Depot.lane (d : Depot) (l : Nat) : Lane := d.lanes.getD l Lane.blank

/-- The Depot with lane `l` replaced. -/
def Depot.setLane (d : Depot) (l : Nat) (x : Lane) : Depot := { d with lanes := d.lanes.set l x }

/-- What the parameter pages of channel `ch` of lane `l` state. -/
def Depot.chan (d : Depot) (l ch : Nat) : Option ChannelInfo := mapGet d.channels (8 * l + ch)

/-- A channel of the Depot is in service. -/
def Depot.channelUp (d : Depot) (ch : Nat) : Bool := (mapGet d.channels ch).isSome && !d.deadChannels.contains ch

/-- A die of the Depot is in service. -/
def Depot.dieUp (d : Depot) (ch die : Nat) : Bool :=
  d.channelUp ch && (mapGet d.channels ch).elim false (fun c => decide (die < c.dies)) && !d.deadDies.contains (ch, die)

/-- Native pages per block of a lane's dies; the dies of one lane share one geometry (Table 12-1). -/
def Depot.ppb (d : Depot) (l ch : Nat) : Nat := (d.chan l ch).elim 1 fun c => max 1 c.ppb

/-- The block that holds a PUA. -/
def Depot.blockOf (d : Depot) (l p : Nat) : BlockId :=
  ⟨puaCh p, puaDie p, puaSlot p / 4 / d.ppb l (puaCh p)⟩

/-- The page of a PUA within its block. -/
def Depot.pageOf (d : Depot) (l p : Nat) : Nat := puaSlot p / 4 % d.ppb l (puaCh p)

/-- A block never used. -/
def Block.fresh : Block :=
  { pslc := false, filled := 0, epoch := 0, verified := false, erases := 0, reads := 0, progFails := 0, retired := false }

/-- What a lane keeps of a block. -/
def Lane.block (x : Lane) (b : BlockId) : Block := mapGetD x.blocks (blockKey b) Block.fresh

/-- The lane with a block's record replaced. -/
def Lane.setBlock (x : Lane) (b : BlockId) (v : Block) : Lane := { x with blocks := mapSet x.blocks (blockKey b) v }

/-- Pages that a block holds in its mode (R360). -/
def Depot.blockPages (d : Depot) (l : Nat) (b : BlockId) (pslc : Bool) : Nat :=
  (d.chan l b.ch).elim 0 fun c => if pslc then c.ppb / max 1 c.cellBits else c.ppb

/-- The die record block of each die and the superblock candidates are never mapped (R361, R374). -/
def Depot.systemBlock (d : Depot) (l : Nat) (b : BlockId) : Bool :=
  (d.chan l b.ch).elim true fun c => decide (b.block + 1 = c.blocks) || (decide (b.die = 0) && decide (b.block = 0))

/-- A block is closed: its last page is programmed (R370). -/
def Depot.closed (d : Depot) (l : Nat) (b : BlockId) : Bool :=
  let v := (d.lane l).block b
  decide (0 < v.filled) && decide (d.blockPages l b v.pslc ≤ v.filled)

/-- A slot is valid: the map names it. -/
def Lane.valid (x : Lane) (p : Nat) : Bool :=
  match mapGet x.slots p with
  | some t => mapGet x.map (unitKey t.ns t.unit) == some p
  | none => false

/-- The programmed slots of a block, rising. -/
def Depot.slotsOf (d : Depot) (l : Nat) (b : BlockId) : List Nat :=
  (mapKeys (d.lane l).slots).filter fun p => d.blockOf l p == b

/-- The valid slots of a block. -/
def Depot.validSlots (d : Depot) (l : Nat) (b : BlockId) : List Nat := (d.slotsOf l b).filter (d.lane l).valid

/-- The blocks a lane has a record of. -/
def Lane.blockIds (x : Lane) : List BlockId :=
  (mapKeys x.blocks).map fun k => ⟨k / 2 ^ 28, k / 2 ^ 24 % 16, k % 2 ^ 24⟩

/-- The lanes that a namespace's die set covers (R363). -/
def Namespace.lanes (n : Namespace) : List Nat := [0, 1].filter fun l => n.dies.any fun e => e.1 / 8 == l

/-- The lane of unit `u` of a namespace (R363). -/
def Namespace.laneOf (n : Namespace) (u : Nat) : Nat :=
  match n.lanes with
  | [l] => l
  | _ => u % 2

/-- The map entry's index within its namespace's map of the lane (R363). -/
def Namespace.entryOf (n : Namespace) (u : Nat) : Nat :=
  match n.lanes with
  | [_] => u
  | _ => u / 2

/-- A lane that serves reads and writes. -/
def Lane.serves (x : Lane) : Bool := x.st == .ready || x.st == .degraded

/-- The device key DK (Table 18-5). -/
def deviceKey : Bytes := (List.range 32).map Config.deviceKeyByte

/-- DPK[j], the key of the Depot of Junction die `j` (Table 18-5). -/
def depotKey (j : Nat) : Bytes := kmac256 deviceKey (leBytes 1 j) 32 "PN-880 depot"

/-- The superblock binding value of the Depot of Junction die `j` (R485, Table 18-5). -/
def depotBind (j : Nat) : Bytes := kmac256 (depotKey j) [] 16 "PN-880 bind"

/-- The XTS key of a namespace, unless the tag of its wrap fails. -/
def Namespace.key (n : Namespace) (j : Nat) : Option Bytes := unwrapKey (depotKey j) n.wrapped

-- ## Capacity (R365, R384)

/-- Units of one die. -/
def ChannelInfo.dieUnits (c : ChannelInfo) : Nat := c.blocks * c.ppb * 4

/-- Native raw units of the dies in service. -/
def Depot.rawUnits (d : Depot) : Nat :=
  sumNat (d.channels.map fun e =>
    sumNat ((List.range e.2.dies).map fun k => if d.dieUp e.1 k then e.2.dieUnits else 0))

/-- LOGICAL in units as set at format from raw units, PSLC and OP (R365). -/
def logicalUnits (raw pslc op : Nat) : Nat := raw * (99 - pslc) * (100 - op) / 10000

/-- Units lost to retirement since format: retired blocks, and dies no longer in service. -/
def Depot.lostToRetirement (d : Depot) : Nat :=
  (d.raw - d.rawUnits) +
  sumNat ([0, 1].map fun l =>
    sumNat (((d.lane l).blockIds.filter fun b => ((d.lane l).block b).retired && d.dieUp (8 * l + b.ch) b.die).map fun b => 4 * d.ppb l b.ch))

/-- SPARE of DEP_HEALTH: permille of the reserve at format that remains (R384). -/
def Depot.spare (d : Depot) : Nat :=
  if d.reserve = 0 then 0 else 1000 * (d.reserve - d.lostToRetirement) / d.reserve

/-- Erased native blocks of a lane that no retirement holds. -/
def Depot.erasedBlocks (d : Depot) (l : Nat) : Nat :=
  let total := sumNat (d.channels.map fun e =>
    if e.1 / 8 = l then sumNat ((List.range e.2.dies).map fun k => if d.dieUp e.1 k then e.2.blocks - 1 else 0) else 0)
  total - ((d.lane l).blockIds.filter fun b => ((d.lane l).block b).retired || decide (0 < ((d.lane l).block b).filled)).length

/-- No space for a write to an unmapped unit: SPARE is 0 and a lane has no erased block beyond the one garbage collection
fills (R384). -/
def Depot.full (d : Depot) (l : Nat) : Bool := decide (d.spare = 0) && decide (d.erasedBlocks l ≤ 1)

-- ## The pSLC buffer (R371)

/-- Blocks that the buffer takes: PSLC percent of the lane's blocks. -/
def Depot.bufferBlocks (d : Depot) (l : Nat) : Nat :=
  sumNat (d.channels.map fun e => if e.1 / 8 = l then e.2.dies * e.2.blocks else 0) * d.pslc / 100

/-- Parity blocks of a lane: blocks that hold a parity unit. -/
def Depot.parityBlock (d : Depot) (l : Nat) (b : BlockId) : Bool :=
  (mapVals (d.lane l).batches).any fun t => d.blockOf l t.parity == b

/-- Buffer blocks in use. -/
def Depot.bufferUsed (d : Depot) (l : Nat) : List BlockId :=
  (d.lane l).blockIds.filter fun b =>
    ((d.lane l).block b).pslc && decide (0 < ((d.lane l).block b).filled) && !d.parityBlock l b

/-- PSLCFILL: percent of the buffer that holds unfolded data. -/
def Depot.bufferFill (d : Depot) (l : Nat) : Nat :=
  let cap := d.bufferBlocks l
  if cap = 0 then 0
  else min 100 (100 * ((d.bufferUsed l).filter fun b => !(d.validSlots l b).isEmpty).length / cap)

-- ## Placement checks

/-- The program units of a placement: pages in pSLC mode, wordlines in native mode, as channel, die and first page. -/
def Depot.programUnit (d : Depot) (l p : Nat) (pslc : Bool) : Nat × Nat × Nat :=
  let k := if pslc then 1 else (d.chan l (puaCh p)).elim 1 fun c => max 1 c.cellBits
  (puaCh p, puaDie p, puaSlot p / 4 / k)

/-- The distinct members of a list. -/
def distinct {α : Type} [BEq α] (xs : List α) : List α := xs.foldl (fun acc x => if acc.contains x then acc else acc ++ [x]) []

/-- A block may take slots now: in service, no system block, not retired, of the present epoch or erased, and in the open set
of the last flushed record (R368, R375, R380). -/
def Depot.blockOpen (d : Depot) (l : Nat) (b : BlockId) (pslc : Bool) : Bool :=
  let x := d.lane l
  let v := x.block b
  d.dieUp (8 * l + b.ch) b.die && !d.systemBlock l b && !v.retired &&
  (decide (v.filled = 0) || (decide (v.epoch = x.sbEpoch) && v.pslc == pslc)) &&
  (match x.journal.getLast? with | some r => r.openSet.contains b | none => true)

/-- A placement of slots keeps the rules: each slot is free, its block may take it, its page comes next or later in the block
and within its mode's pages, and its die lies in the die set that `dies` allows. DEDUCED: log entry 64. -/
def Depot.placeOk (d : Depot) (l : Nat) (place : List Nat) (pslc : Bool) (dies : Nat → Nat → Bool) : Bool :=
  let x := d.lane l
  decide ((distinct place).length = place.length) &&
  place.all fun p =>
    let b := d.blockOf l p
    let v := x.block b
    (mapGet x.slots p).isNone && d.blockOpen l b pslc && decide (v.filled ≤ d.pageOf l p) &&
    decide (d.pageOf l p < d.blockPages l b pslc) && dies (8 * l + puaCh p) (puaDie p)

/-- Mark the page of a programmed slot in its block (R360, R368). -/
def Depot.markPage (d : Depot) (l p : Nat) (pslc : Bool) : Depot :=
  let x := d.lane l
  let b := d.blockOf l p
  let v := x.block b
  d.setLane l (x.setBlock b
    { v with pslc := pslc, filled := max v.filled (d.pageOf l p + 1), verified := false,
             epoch := if v.filled = 0 then x.sbEpoch else v.epoch, reads := 0 })

-- ## Map changes and the journal (R375, R377)

/-- Give a unit a new map entry, 0 slots for unmapped, with its delta. -/
def Lane.mapTo (x : Lane) (ns unit : Nat) (entry : Option Nat) : Lane :=
  { x with map := match entry with
                  | some p => mapSet x.map (unitKey ns unit) p
                  | none => mapErase x.map (unitKey ns unit)
           deltas := x.deltas ++ [Delta.map ns unit (entry.getD 0xFFFFFFFF)] }

/-- HIGH of a flush (Table 12-4): every data slot up to it is acknowledged. -/
def Lane.high (x : Lane) : Nat :=
  let waiting := (x.batch.map fun w => w.seq) ++ ((mapVals x.batches).filter (·.programming)).map fun t => t.first
  match waiting with
  | [] => x.seqCtr
  | q :: qs => qs.foldl min q - 1

/-- Blocks that hold a slot with a sequence number above `high`, and open blocks (R375). -/
def Depot.mustOpen (d : Depot) (l high : Nat) : List BlockId :=
  let x := d.lane l
  x.blockIds.filter fun b =>
    let v := x.block b
    (decide (0 < v.filled) && !d.closed l b && decide (v.epoch = x.sbEpoch)) ||
    (d.slotsOf l b).any fun p => (mapGet x.slots p).elim false fun t => decide (high < t.seq)

/-- Closed blocks whose valid count has become 0 and whose FREE no delta carries yet; a block with a held parity unit or a
pending copy stays (R370, R372, R373). -/
def Depot.newlyFree (d : Depot) (l : Nat) : List BlockId :=
  let x := d.lane l
  x.blockIds.filter fun b =>
    decide (0 < (x.block b).filled) && (d.closed l b || decide ((x.block b).epoch ≠ x.sbEpoch)) && (d.validSlots l b).isEmpty &&
    !d.parityBlock l b && !x.freed.contains b && !x.copies.any (fun c => d.blockOf l c.dst == b)

/-- One flush of lane `l` (R375): a record with the open set and the deltas since the last flush. -/
def Depot.flushLane (d : Depot) (l mono : Nat) (next : List BlockId) : Depot :=
  let x := d.lane l
  let free := d.newlyFree l
  let rec_ : JournalRec :=
    { flush := x.flush + 1, epoch := x.sbEpoch, high := x.high, openSet := distinct (d.mustOpen l x.high ++ next),
      deltas := x.deltas ++ free.map Delta.free }
  d.setLane l { x with journal := x.journal ++ [rec_], flush := x.flush + 1, flushedAt := mono, sinceFlush := 0, deltas := [],
                       freed := x.freed ++ free }

/-- The next blocks that the last record named and that are still erased: a forced flush names them again. -/
def Lane.nextBlocks (x : Lane) : List BlockId :=
  match x.journal.getLast? with
  | some r => r.openSet.filter fun b => decide ((x.block b).filled = 0)
  | none => []

/-- A forced flush of lane `l` of Junction die `j` (R375). -/
def State.flushNow (s : State) (j l : Nat) : State :=
  let d := s.depot j
  if (d.lane l).serves || (d.lane l).st == .suspect then s.setDepot j (d.flushLane l s.clock.mono (d.lane l).nextBlocks) else s

/-- JOURNAL_FLUSH: every 64 ms or 16 MiB (R375), naming the next blocks of the write streams. -/
def State.journalFlush (s : State) (j l : Nat) (next : List (Nat × Nat × Nat)) (dt : Nat) : State :=
  let s := s.tick dt
  let d := s.depot j
  let x := d.lane l
  if j < s.jdCount ∧ l < 2 ∧ x.serves = true ∧ (x.journal = [] ∨ x.flushedAt + 64 * 10 ^ 6 ≤ s.clock.mono ∨ 2 ^ 24 ≤ x.sinceFlush) then
    s.setDepot j (d.flushLane l s.clock.mono (next.map fun b => ⟨b.1, b.2.1, b.2.2⟩))
  else s

-- ## Writes and batches (R369 to R371)

/-- A DEPOT entry of the log (Table 19-3). -/
def State.logDepot (s : State) (event j l ns detail : Nat) : State :=
  s.logAppend ltDepot (leBytes 1 event ++ leBytes 1 j ++ leBytes 1 l ++ [0] ++ leBytes 2 ns ++ leBytes 2 0 ++ leBytes 8 detail)

/-- The buffer has no free block and none of its blocks has an erased page (R371). -/
def Depot.bufferFull (d : Depot) (l : Nat) : Bool :=
  decide (0 < d.pslc) && decide (d.bufferBlocks l ≤ (d.bufferUsed l).length) &&
  (d.bufferUsed l).all fun b => d.closed l b

/-- A write of a unit with a sequence number up to `seq` is not yet programmed. -/
def Lane.writing (x : Lane) (ns unit seq : Nat) : Bool :=
  x.batch.any (fun w => w.ns == ns && w.unit == unit && decide (w.seq ≤ seq)) ||
  (mapVals x.batches).any fun t => t.programming && t.place.any fun p =>
    (mapGet x.slots p).elim false fun q => q.ns == ns && q.unit == unit && decide (q.seq ≤ seq)

/-- A write of one unit enters its lane: a block that encodes as ZERO unmaps the unit (R364), at once or behind the earlier writes of
the unit that still program; any other waits in the lane's open batch with the next sequence number (R368, R369). -/
def State.depotWrite (s : State) (j ns unit : Nat) (block : Bytes) : State :=
  let d := s.depot j
  match mapGet d.namespaces ns with
  | none => s
  | some n =>
    let l := n.laneOf unit
    let x := d.lane l
    if !(x.serves || x.st == .suspect) then s
    else if (encodeBlock block).method = .zero then
      if x.writing ns unit x.seqCtr then s.setDepot j (d.setLane l { x with trims := x.trims ++ [(ns, unit, x.seqCtr)] })
      else if (mapGet x.map (unitKey ns unit)).isNone then s
      else (s.setDepot j (d.setLane l (x.mapTo ns unit none))).flushNow j l
    else
      let x := { x with seqCtr := x.seqCtr + 1, batchSince := if x.batch.isEmpty then s.clock.mono else x.batchSince,
                        batch := x.batch ++ [⟨ns, unit, x.seqCtr + 1, block⟩] }
      let s := if d.bufferFull l then s.count DEP_WRWAIT_COUNT 1 j else s
      s.setDepot j (d.setLane l x)

/-- A trim of one unit (R364): unmapped, with a forced flush. DEDUCED: log entries 60, 126. -/
def State.depotTrim (s : State) (j ns unit : Nat) : State := s.depotWrite j ns unit (List.replicate blockBytes 0)

/-- The slot of a waiting write as it is programmed: encoded, enciphered, tagged (R351, R367, R386, R387). -/
def slotOf (key : Bytes) (epoch first count : Nat) (w : OpenSlot) : Slot :=
  let e := encodeBlock w.block
  let desc := descriptorOf e w.block
  let mask := leNat ((encTweak key w.seq w.ns w.unit).take 4)
  { ns := w.ns, unit := w.unit, typ := .data, seq := w.seq, epoch := epoch, desc := (desc % 2 ^ 32) + (bitsOf desc 32 32 ^^^ mask) * 2 ^ 32,
    bfirst := first, bslots := count, data := xtsEncrypt key w.seq w.ns w.unit (bytesAt e.payload 0 blockBytes) }

/-- A die lies in the die set of a namespace; slice 0's namespace 255 keeps off the dies of every other. -/
def Depot.inDieSet (d : Depot) (ns ch die : Nat) : Bool :=
  (mapGet d.namespaces ns).elim false (fun n => n.dies.contains (ch, die)) &&
  (decide (ns ≠ 255) || !d.namespaces.any fun e => e.1 != 255 && e.2.dies.contains (ch, die))

/-- The placement of a batch keeps R363, R369 and R371: at most 15 program units on distinct dies, each slot on a die of its
namespace, the parity unit in a pSLC block on a die that holds none of the batch's units. -/
def Depot.batchPlaceOk (d : Depot) (l : Nat) (ws : List OpenSlot) (place : List Nat) (parity : Nat) : Bool :=
  let pslc := decide (0 < d.pslc)
  let units := distinct (place.map fun p => d.programUnit l p pslc)
  decide (place.length = ws.length) && decide (units.length ≤ 15) &&
  decide ((distinct (units.map fun u => (u.1, u.2.1))).length = units.length) &&
  d.placeOk l place pslc (fun _ _ => true) &&
  ((ws.zip place).all fun e => d.inDieSet e.1.ns (8 * l + puaCh e.2) (puaDie e.2)) &&
  d.placeOk l [parity] true (fun _ _ => true) && !(units.any fun u => u.1 == puaCh parity && u.2.1 == puaDie parity) &&
  (!pslc || decide ((distinct (d.bufferUsed l ++ place.map (d.blockOf l))).length ≤ d.bufferBlocks l))

/-- BATCH_CLOSE: a batch of 60 slots, or one whose first slot came 20 µs ago, starts to program (R369). DEDUCED: log entry 64. -/
def State.batchClose (s : State) (j l : Nat) (place : List Pua) (parity : Pua) (dt : Nat) : State :=
  let s := s.tick dt
  let d := s.depot j
  let x := d.lane l
  let ws := x.batch.take 60
  let pl := place.map puaWord
  match ws with
  | [] => s
  | w :: _ =>
    if l < 2 ∧ (x.serves = true) ∧ (60 ≤ x.batch.length ∨ x.batchSince + 20000 ≤ s.clock.mono) ∧
        d.batchPlaceOk l ws pl (puaWord parity) = true then
      let tagged := (ws.zip pl).filterMap fun e =>
        ((mapGet d.namespaces e.1.ns).bind fun n => n.key j).map fun k => (e.2, slotOf k x.sbEpoch w.seq ws.length e.1)
      let x := { x with batch := x.batch.drop 60, batchSince := s.clock.mono,
                        slots := tagged.foldl (fun (m : KMap Slot) (e : Nat × Slot) => mapSet m e.1 e.2) x.slots,
                        batches := mapSet x.batches w.seq ⟨w.seq, pl, puaWord parity, true⟩ }
      let d := pl.foldl (fun (d : Depot) p => d.markPage l p (decide (0 < d.pslc))) (d.setLane l x)
      s.setDepot j (d.markPage l (puaWord parity) true)
    else s

/-- Map a programmed slot unless a later one is mapped already (R385). -/
def Lane.mapSlot (x : Lane) (p : Nat) : Lane :=
  match mapGet x.slots p with
  | none => x
  | some t =>
    let newer := match mapGet x.map (unitKey t.ns t.unit) with
      | some q => (mapGet x.slots q).elim false fun o => decide (t.seq < o.seq)
      | none => false
    if newer then x else x.mapTo t.ns t.unit (some p)

/-- A trim whose earlier writes have programmed: the unit is unmapped unless a later write is mapped. DEDUCED: log entry 126. -/
def Lane.applyTrim (x : Lane) (t : Nat × Nat × Nat) : Lane :=
  match mapGet x.map (unitKey t.1 t.2.1) with
  | some p => if (mapGet x.slots p).elim false fun q => decide (t.2.2 < q.seq) then x else x.mapTo t.1 t.2.1 none
  | none => x

/-- The trims of a lane whose earlier writes have programmed take effect under a forced flush (R364, R375).
DEDUCED: log entry 126. -/
def State.applyTrims (s : State) (j l : Nat) : State :=
  let d := s.depot j
  let x := d.lane l
  match x.trims.filter fun t => !x.writing t.1 t.2.1 t.2.2 with
  | [] => s
  | ts => (s.setDepot j (d.setLane l { ts.foldl Lane.applyTrim x with trims := x.trims.filter fun t => !ts.contains t })).flushNow j l

/-- BATCH_PROGRAM_DONE: every program unit of a batch succeeded; its writes are acknowledged and mapped (R369, R377).
DEDUCED: log entry 64. -/
def State.batchProgramDone (s : State) (j l batch : Nat) : State :=
  let d := s.depot j
  let x := d.lane l
  match mapGet x.batches batch with
  | some t =>
    if t.programming && x.serves then
      let x := t.place.foldl (fun (x : Lane) p => x.mapSlot p) x
      (s.setDepot j (d.setLane l { x with batches := mapSet x.batches batch { t with programming := false },
                                          sinceFlush := x.sinceFlush + blockBytes * t.place.length })).applyTrims j l
    else s
  | none => s

/-- Writes of a namespace that no program has acknowledged yet, on any Depot (R347, R369). -/
def Depot.unacked (d : Depot) (ns : Nat) : Bool :=
  d.lanes.any fun x =>
    x.batch.any (fun w => w.ns == ns) || x.trims.any (fun t => t.1 == ns) ||
    (mapVals x.batches).any fun t => t.programming && t.place.any fun p => (mapGet x.slots p).elim false fun q => q.ns == ns

-- ## Retirement of blocks (R383)

/-- Retire a block: recorded, journalled with a forced flush; the eighth of a die in the window retires the die (Table 17-3).
DESIGN CHOICE: log entry 62. -/
def State.retireBlock (s : State) (j l : Nat) (b : BlockId) : State :=
  let d := s.depot j
  let x := d.lane l
  if (x.block b).retired then s
  else
    let x := x.setBlock b { x.block b with retired := true }
    let d := { d with retiredBlocks := d.retiredBlocks + 1 }.setLane l { x with deltas := x.deltas ++ [Delta.retire b] }
    let s := (s.setDepot j d).flushNow j l
    let u := unitId 7 (256 * j + 16 * (8 * l + b.ch) + b.die)
    let s := s.addEvent u .memberRetired
    if 8 ≤ s.windowCount u .memberRetired then s.retireUnit u .permanent 9 else s

/-- PROGRAM_FAILURE: the batch's slots of the failed block are programmed again elsewhere; the second failure of a block
retires it (R383). -/
def State.programFailure (s : State) (j l batch ch die block : Nat) (place : List Pua) : State :=
  let d := s.depot j
  let x := d.lane l
  let b : BlockId := ⟨ch, die, block⟩
  match mapGet x.batches batch with
  | some t =>
    let bad := t.place.filter fun p => d.blockOf l p == b
    let pl := place.map puaWord
    let pslc := decide (0 < d.pslc)
    if t.programming && x.serves && decide (bad ≠ []) && decide (pl.length = bad.length) &&
        d.placeOk l pl pslc (fun c k => decide (c ≠ 8 * l + ch) || decide (k ≠ die)) then
      let moved := bad.zip pl
      let slots := moved.foldl (fun (m : KMap Slot) (e : Nat × Nat) =>
        match mapGet m e.1 with
        | some q => mapErase (mapSet m e.2 q) e.1
        | none => m) x.slots
      let newPlace := t.place.map fun p => ((moved.find? fun e => e.1 == p).map Prod.snd).getD p
      let v := x.block b
      let x := { x.setBlock b { v with progFails := v.progFails + 1 } with
                 slots := slots, batches := mapSet x.batches batch { t with place := newPlace } }
      let d := pl.foldl (fun (d : Depot) p => d.markPage l p pslc) ({ d with progFails := d.progFails + 1 }.setLane l x)
      let s := s.setDepot j d
      if 1 ≤ v.progFails then s.retireBlock j l b else s
    else s
  | none => s

/-- ERASE_FAILURE: the block is retired at once (R383). -/
def State.eraseFailure (s : State) (j l ch die block : Nat) : State :=
  let d := s.depot j
  if (d.lane l).serves && d.dieUp (8 * l + ch) die then
    (s.setDepot j { d with eraseFails := d.eraseFails + 1 }).retireBlock j l ⟨ch, die, block⟩
  else s

-- ## Copies: folding, garbage collection, refresh, relocation (R370, R372, R380, R382)

/-- Copy slots to native blocks under their sequence numbers; each unit switches when its destination closes and verifies. -/
def Depot.copySlots (d : Depot) (l : Nat) (src place : List Nat) (typ : SlotType) : Depot :=
  let x := d.lane l
  let pairs := src.zip place
  let slots := pairs.foldl (fun (m : KMap Slot) (e : Nat × Nat) =>
    match mapGet x.slots e.1 with
    | some q => mapSet m e.2 { q with typ := typ, epoch := x.sbEpoch }
    | none => m) x.slots
  let copies := pairs.filterMap fun e => (mapGet x.slots e.1).map fun q => PendingCopy.mk q.ns q.unit e.1 e.2
  place.foldl (fun (d : Depot) p => d.markPage l p false) (d.setLane l { x with slots := slots, copies := x.copies ++ copies })

/-- A placement of copies: native blocks, each slot on a die of its namespace. DEDUCED: log entry 64. -/
def Depot.copyPlaceOk (d : Depot) (l : Nat) (src place : List Nat) : Bool :=
  decide (src.length = place.length) && d.placeOk l place false (fun _ _ => true) &&
  (src.zip place).all fun e => (mapGet (d.lane l).slots e.1).elim false fun q => d.inDieSet q.ns (8 * l + puaCh e.2) (puaDie e.2)

/-- Valid slots of a block that no pending copy moves already. -/
def Depot.toCopy (d : Depot) (l : Nat) (b : BlockId) : List Nat :=
  (d.validSlots l b).filter fun p => !(d.lane l).copies.any fun c => c.src == p

/-- The compare-and-set of R372 for one copy. -/
def Lane.switchCopy (x : Lane) (c : PendingCopy) : Lane :=
  if mapGet x.map (unitKey c.ns c.unit) = some c.src then x.mapTo c.ns c.unit (some c.dst) else x

/-- Parity units whose batch's blocks are all closed and verified, with no weak slot still to move, are released (R370). -/
def Depot.releaseParity (d : Depot) (l : Nat) : Depot :=
  let x := d.lane l
  d.setLane l { x with batches := mapFilter x.batches fun _ t =>
    t.programming || t.place.any fun p =>
      !(x.block (d.blockOf l p)).verified || x.copies.any fun c => c.src == p }

/-- BLOCK_CLOSE_VERIFY: a closed block is read back; weak slots are rewritten as RELOC, the copies it received switch their map
entries, and parity units are released (R370, R372). -/
def State.blockCloseVerify (s : State) (j l ch die block : Nat) (weak place : List Pua) : State :=
  let d := s.depot j
  let b : BlockId := ⟨ch, die, block⟩
  let wk := (weak.map puaWord).filter fun p => (d.toCopy l b).contains p
  let pl := place.map puaWord
  if (d.lane l).serves && d.closed l b && !((d.lane l).block b).verified && d.copyPlaceOk l wk pl then
    let d := d.copySlots l wk pl .reloc
    let x := d.lane l
    let mine := x.copies.filter fun c => d.blockOf l c.dst == b
    let x := mine.foldl (fun (x : Lane) c => x.switchCopy c) x
    let x := { x.setBlock b { x.block b with verified := true } with copies := x.copies.filter fun c => d.blockOf l c.dst != b }
    s.setDepot j ((d.setLane l x).releaseParity l)
  else s

/-- Least sequence number of a block's slots. -/
def Depot.oldest (d : Depot) (l : Nat) (b : BlockId) : Nat :=
  match (d.slotsOf l b).filterMap fun p => (mapGet (d.lane l).slots p).map fun q => q.seq with
  | [] => 2 ^ 64
  | q :: qs => qs.foldl min q

/-- Whether the journal records that no segment yet releases fill the 4 GiB within which folding and garbage collection may run;
a record fills whole pages of 16,384 bytes (Tables 12-1 and 12-4). The rule says "approach", the model takes the limit itself
(R376). DESIGN CHOICE (log entry 133). -/
def Lane.journalLimit (x : Lane) : Bool :=
  decide (2 ^ 32 ≤ (x.journal.map fun r => ceilDiv (64 + 4 * r.openSet.length + 16 * r.deltas.length) 16384 * 16384).sum)

/-- FOLD: the oldest pSLC block's valid slots are copied to native blocks (R372): above 75 % fill at any time, from 50 % while
the maintenance window is open. DEDUCED: log entry 64. DESIGN CHOICE: log entry 133. -/
def State.fold (s : State) (j l ch die block : Nat) (place : List Pua) : State :=
  let d := s.depot j
  let b : BlockId := ⟨ch, die, block⟩
  let src := d.toCopy l b
  let pl := place.map puaWord
  let due := decide (75 < d.bufferFill l) || (decide (50 ≤ d.bufferFill l) && s.maintOpen)
  if (d.lane l).serves && !(d.lane l).journalLimit && due && (d.bufferUsed l).contains b && d.closed l b && !src.isEmpty &&
      (d.bufferUsed l).all (fun o => !d.closed l o || (d.toCopy l o).isEmpty || decide (d.oldest l b ≤ d.oldest l o)) &&
      d.copyPlaceOk l src pl then
    s.setDepot j (d.copySlots l src pl .fold)
  else s

/-- The closed block with the fewest valid slots, ties by PUA ascending (R372). -/
def Depot.gcVictim (d : Depot) (l : Nat) : Option BlockId :=
  let x := d.lane l
  let cands := x.blockIds.filter fun b =>
    d.closed l b && !(x.block b).pslc && !x.freed.contains b && !(d.toCopy l b).isEmpty
  cands.foldl (fun (best : Option BlockId) b =>
    match best with
    | none => some b
    | some o => if (d.validSlots l b).length < (d.validSlots l o).length then some b else best) none

/-- GARBAGE_COLLECT: the valid slots of the emptiest closed block are relocated (R372).
DEDUCED: log entry 64. DESIGN CHOICE: log entry 133. -/
def State.garbageCollect (s : State) (j l : Nat) (place : List Pua) : State :=
  let d := s.depot j
  match d.gcVictim l with
  | some b =>
    let src := d.toCopy l b
    if (d.lane l).serves && !(d.lane l).journalLimit && d.copyPlaceOk l src (place.map puaWord) then
      s.setDepot j (d.copySlots l src (place.map puaWord) .reloc)
    else s
  | none => s

/-- BLOCK_ERASE: a block whose FREE is flushed, outside the last open set, with no parity unit held (R370, R373). -/
def State.blockErase (s : State) (j l ch die block : Nat) : State :=
  let d := s.depot j
  let x := d.lane l
  let b : BlockId := ⟨ch, die, block⟩
  let v := x.block b
  if x.serves && x.freed.contains b && (d.validSlots l b).isEmpty && !v.retired && !d.parityBlock l b &&
      (match x.journal.getLast? with | some r => !r.openSet.contains b | none => false) then
    let x := { x.setBlock b { v with filled := 0, verified := false, erases := v.erases + 1, reads := 0 } with
               slots := mapFilter x.slots (fun p _ => d.blockOf l p != b), freed := x.freed.filter (· != b),
               refresh := x.refresh.filter (· != b), emergency := x.emergency.filter (· != b) }
    s.setDepot j (d.setLane l x)
  else s

/-- BLOCK_REFRESH: a queued block's valid slots are relocated (R380, R382): in the maintenance window, or at once when its read
count has reached EMERG. -/
def State.blockRefresh (s : State) (j l ch die block : Nat) (place : List Pua) : State :=
  let d := s.depot j
  let x := d.lane l
  let b : BlockId := ⟨ch, die, block⟩
  let src := d.toCopy l b
  let urgent := x.emergency.contains b
  if x.serves && (urgent || (x.refresh.contains b && s.maintOpen)) && d.copyPlaceOk l src (place.map puaWord) then
    let x := { x with refresh := x.refresh.filter (· != b), emergency := x.emergency.filter (· != b) }
    let s := s.setDepot j ((d.setLane l x).copySlots l src (place.map puaWord) .reloc)
    if urgent then s.count DEP_REFRESH_EMERG 1 j else s.count DEP_REFRESH_SCHED 1 j
  else s

-- ## Checkpoints and the superblock (R374, R376)

/-- Segment of a map entry: 1,024 entries. -/
def Depot.segmentKey (d : Depot) (ns unit : Nat) : Nat :=
  ns * 2 ^ 40 + ((mapGet d.namespaces ns).elim unit fun n => n.entryOf unit) / 1024

/-- Segment of a delta that a segment can reflect. -/
def Depot.deltaSegment (d : Depot) : Delta → Option Nat
  | .map ns u _ => some (d.segmentKey ns u)
  | .lost ns u => some (d.segmentKey ns u)
  | _ => none

/-- Every delta of a record is reflected in its segment; the newest record is kept for its open set. -/
def Depot.reflected (d : Depot) (l : Nat) (r : JournalRec) : Bool :=
  r.deltas.all fun t => (d.deltaSegment t).elim true fun k =>
    (mapGet (d.lane l).segments k).elim false fun g => decide (r.flush ≤ g.flush)

/-- CHECKPOINT_SEGMENT: a segment whose deltas are all durable is written, and journal records that every segment reflects are
released (R376, R377). DESIGN CHOICE: log entry 133. -/
def State.checkpointSegment (s : State) (j l ns segment : Nat) : State :=
  let d := s.depot j
  let x := d.lane l
  let key := ns * 2 ^ 40 + segment
  if x.serves && !(x.deltas.any fun t => d.deltaSegment t == some key) then
    let ents := mapFilter x.map fun k _ => decide (k / 2 ^ 40 = ns) && d.segmentKey ns (k % 2 ^ 40) == key
    let x := { x with segments := mapSet x.segments key ⟨x.flush, ents⟩ }
    let d := d.setLane l x
    let keep := x.journal.filter fun r => !d.reflected l r || decide (r.flush = x.flush)
    s.setDepot j (d.setLane l { x with journal := keep })
  else s

/-- COUNTER_CHECKPOINT: erase and read counts and the health record are written (R376). DESIGN CHOICE: log entry 133. -/
def State.counterCheckpoint (s : State) (j l : Nat) : State :=
  let d := s.depot j
  let x := d.lane l
  if x.serves then
    let d := { d with healthSaved := d.health }
    s.setDepot j (d.setLane l { x with counters := mapMap x.blocks fun _ v => (v.erases, v.reads) })
  else s

/-- Append a SUPER page (R374). -/
def Depot.superblock (d : Depot) (l : Nat) : Depot :=
  let x := d.lane l
  d.setLane l { x with sbVersion := x.sbVersion + 1, sbDestroying := d.destroying }

/-- SUPERBLOCK_UPDATE. -/
def State.superblockUpdate (s : State) (j l : Nat) : State :=
  if ((s.depot j).lane l).serves then s.setDepot j ((s.depot j).superblock l) else s

-- ## Reads (R381, R382)

/-- Histogram bucket of a read (Table 12-10). DESIGN CHOICE: log entry 66. -/
def histBucket : LadderStep → Nat
  | .hard n | .retry _ n =>
    if n = 0 then 0 else if n ≤ 8 then 1 else if n ≤ 16 then 2 else if n ≤ 32 then 3 else if n ≤ 64 then 4 else if n ≤ 128 then 5 else 6
  | _ => 7

/-- The health counts of a read (R381). -/
def Health.read (h : Health) (step : LadderStep) : Health :=
  let b := histBucket step
  let h := { h with hist := h.hist.set b ((h.hist.getD b 0 + 1) % 2 ^ 64) }
  match step with
  | .hard _ => h
  | .retry _ _ => { h with retry := (h.retry + 1) % 2 ^ 32 }
  | .soft | .parity => { h with retry := (h.retry + 1) % 2 ^ 32, soft := (h.soft + 1) % 2 ^ 32 }
  | .lost => { h with retry := (h.retry + 1) % 2 ^ 32, soft := (h.soft + 1) % 2 ^ 32,
                      uncorr := (h.uncorr + 1) % 2 ^ 32, lost := (h.lost + 1) % 2 ^ 32 }

/-- A read reached step 3 or beyond. DESIGN CHOICE: log entry 66. -/
def ladderDeep : LadderStep → Bool
  | .soft | .parity | .lost => true
  | _ => false

/-- A read of the slot at a PUA (R381, R382): counted, its block queued for refresh where the rules say so, its unit set lost
when every step fails. DESIGN CHOICE: log entry 66. -/
def State.readSlot (s : State) (j l p : Nat) (step : LadderStep) : State :=
  let d := s.depot j
  let x := d.lane l
  match mapGet x.slots p with
  | none => s
  | some q =>
    let b := d.blockOf l p
    let v := x.block b
    let reads := v.reads + 1
    let x := x.setBlock b { v with reads := reads }
    let queue := ladderDeep step || decide (s.fld DEP_RDCFG_REFRESH j ≤ reads)
    let x := if queue && !x.refresh.contains b then { x with refresh := x.refresh ++ [b] } else x
    let x := if decide (s.fld DEP_RDCFG_EMERG j ≤ reads) && !x.emergency.contains b then { x with emergency := x.emergency ++ [b] } else x
    let gone := step == .lost && x.valid p
    let x := if gone then { x with map := mapSet x.map (unitKey q.ns q.unit) lostEntry, deltas := x.deltas ++ [Delta.lost q.ns q.unit] } else x
    let s := s.setDepot j ({ d with health := d.health.read step }.setLane l x)
    if ladderDeep step then s.transient (unitId 7 (256 * j + 16 * (8 * l + puaCh p) + puaDie p)) 1 0xFF p else s

/-- SLOT_READ: the read of a unit of a namespace (R381); an unmapped or lost unit reads no slot (R364).
DESIGN CHOICE: log entry 66. -/
def State.slotRead (s : State) (j ns unit : Nat) (step : LadderStep) : State :=
  let d := s.depot j
  match mapGet d.namespaces ns with
  | none => s
  | some n =>
    let l := n.laneOf unit
    if (d.lane l).serves then
      match mapGet (d.lane l).map (unitKey ns unit) with
      | some p => if p = lostEntry then s else s.readSlot j l p step
      | none => s
    else s

/-- MEDIA_PATROL: the reads of the closed blocks of a lane in the maintenance window (R382, R441). -/
def State.mediaPatrol (s : State) (j l : Nat) (steps : List (Pua × LadderStep)) : State :=
  if ((s.depot j).lane l).serves && s.maintOpen then
    steps.foldl (fun (s : State) e =>
      if (s.depot j).closed l ((s.depot j).blockOf l (puaWord e.1)) then s.readSlot j l (puaWord e.1) e.2 else s) s
  else s

-- ## Dies, channels and temperatures (R383, R390)

/-- DIE_RETIRE: the readable valid slots of a retired die or channel are relocated, the unreadable ones set lost, the
retirement journalled (R383). -/
def State.dieRetire (s : State) (j ch : Nat) (die : Option Nat) (unreadable place : List Pua) : State :=
  let d := s.depot j
  let l := ch / 8
  let x := d.lane l
  let gone := fun (p : Nat) => decide (puaCh p = ch % 8) && die.elim true fun k => decide (puaDie p = k)
  let bad := unreadable.map puaWord
  let valid := (mapKeys x.slots).filter fun p => gone p && x.valid p && !x.copies.any fun c => c.src == p
  let src := valid.filter fun p => !bad.contains p
  let u := die.elim (unitId 8 (16 * j + ch)) fun k => unitId 7 (256 * j + 16 * ch + k)
  if s.retired u && x.serves && d.copyPlaceOk l src (place.map puaWord) then
    let lost := valid.filter bad.contains
    let x := lost.foldl (fun (x : Lane) p =>
      match mapGet x.slots p with
      | some q => { x with map := mapSet x.map (unitKey q.ns q.unit) lostEntry, deltas := x.deltas ++ [Delta.lost q.ns q.unit] }
      | none => x) x
    let x := { x with deltas := x.deltas ++ [Delta.retireDie (ch % 8) (die.getD 0xFF)] }
    let d := { d with health := { d.health with lost := (d.health.lost + lost.length) % 2 ^ 32 } }
    (s.setDepot j ((d.setLane l x).copySlots l src (place.map puaWord) .reloc)).flushNow j l
  else s

/-- NAND_COMMAND_TIMEOUT: a program, erase or read command did not finish in its time. One that clears is a TRANSIENT event;
three in a row retire the die (Table 17-3). -/
def State.nandCommandTimeout (s : State) (j ch die : Nat) (cleared : Bool) (dt : Nat) : State :=
  let s := s.tick dt
  let d := s.depot j
  let u := unitId 7 (256 * j + 16 * ch + die)
  let others := d.timeouts.filter fun e => e.1 != (ch, die)
  let n := ((d.timeouts.find? fun e => e.1 == (ch, die)).map Prod.snd).getD 0 + 1
  if d.dieUp ch die then
    if cleared then (s.setDepot j { d with timeouts := others }).transient u 9
    else if 3 ≤ n then (s.setDepot j { d with timeouts := others }).retireUnit u .permanent 9
    else s.setDepot j { d with timeouts := ((ch, die), n) :: others }
  else s

/-- NAND_TEMP_READ: the hottest package of the Depot enters the health record (R390). DESIGN CHOICE: log entry 66. -/
def State.nandTempRead (s : State) (j : Nat) (temps : List Int) : State :=
  match temps with
  | [] => s
  | t0 :: ts =>
    let d := s.depot j
    let h := d.health
    let t := ts.foldl max t0
    let h := { h with
      tmin := if h.temps = 0 then t else min h.tmin t, tmax := if h.temps = 0 then t else max h.tmax t, temps := h.temps + 1,
      s70 := if 560 < t then h.s70 + 1 else h.s70, s85 := if 680 < t then h.s85 + 1 else h.s85,
      s95 := if 760 < t then h.s95 + 1 else h.s95 }
    if (d.lane 0).serves || (d.lane 1).serves then s.setDepot j { d with health := h } else s

-- ## Keys, creation and destruction of namespaces (R362, R388, R389)

/-- The key table is written anew and every older copy erased (R388). -/
def Depot.writeKeyTable (d : Depot) : Depot := { d with keyTables := d.keyTables + 1 }

/-- KEY_TABLE_UPDATE. -/
def State.keyTableUpdate (s : State) (j : Nat) : State :=
  if ((s.depot j).lane 0).serves || ((s.depot j).lane 1).serves then s.setDepot j (s.depot j).writeKeyTable else s

/-- Create a namespace with a fresh key wrapped under the Depot key (R362, R388). -/
def State.namespaceCreate (s : State) (j ns size slice : Nat) (dies : List (Nat × Nat)) : State :=
  let (key, s) := s.draw 64
  let (nonce, s) := s.draw 16
  let d := s.depot j
  s.setDepot j { d with namespaces := mapSet d.namespaces ns ⟨size, dies, slice, wrapKey (depotKey j) nonce key⟩ }.writeKeyTable

/-- Step 1 of R389: NSDESTROY journalled, the superblock records the namespace, new requests to it end.
DESIGN CHOICE: log entry 57. -/
def State.namespaceMark (s : State) (j ns : Nat) : State :=
  let d := s.depot j
  let d := { d with destroying := if d.destroying.contains ns then d.destroying else d.destroying ++ [ns] }
  [0, 1].foldl (fun (s : State) l =>
    let d := s.depot j
    if (d.lane l).st = .absent then s
    else
      let x := d.lane l
      (s.setDepot j ((d.setLane l { x with deltas := x.deltas ++ [Delta.nsdestroy ns] }).superblock l)).flushNow j l) (s.setDepot j d)

/-- Steps 2 to 4 of R389: the key goes, the map entries are unmapped under a forced flush, the log takes the completion. -/
def State.namespaceFinish (s : State) (j ns : Nat) : State :=
  let d := s.depot j
  let d := { d with namespaces := mapErase d.namespaces ns, destroying := d.destroying.filter (· != ns) }.writeKeyTable
  let drop := fun (m : KMap Nat) => mapFilter m fun k _ => decide (k / 2 ^ 40 ≠ ns)
  let s := s.setDepot j d
  let s := [0, 1].foldl (fun (s : State) l =>
    let d := s.depot j
    let x := d.lane l
    let x := { x with map := drop x.map, batch := x.batch.filter (fun w => w.ns != ns),
                      trims := x.trims.filter (fun t => t.1 != ns), copies := x.copies.filter (fun c => c.ns != ns),
                      segments := mapFilter x.segments fun k _ => decide (k / 2 ^ 40 ≠ ns) }
    let s := s.setDepot j ((d.setLane l x).superblock l)
    s.flushNow j l) s
  s.logDepot 2 j 0 ns 0

/-- A namespace is destroyed (R389). -/
def State.namespaceDestroy (s : State) (j ns : Nat) : State :=
  if (mapGet (s.depot j).namespaces ns).isSome ∨ (s.depot j).destroying.contains ns then
    (s.namespaceMark j ns).namespaceFinish j ns
  else s

/-- NAMESPACE_DESTROY: the Depot carries out, or resumes, a destruction that its superblock records (R389). -/
def State.namespaceDestroyStep (s : State) (j ns : Nat) : State :=
  if (s.depot j).destroying.contains ns then s.namespaceDestroy j ns else s

-- ## Rebuild (R378 to R380, R485)

/-- Apply one journal delta to a map under reconstruction (R378). -/
def Depot.applyDelta (d : Depot) (segs : KMap Segment) (flush : Nat) (map : KMap Nat) : Delta → KMap Nat
  | .map ns u p =>
    if ((mapGet segs (d.segmentKey ns u)).elim 0 fun g => g.flush) < flush then
      if p = 0xFFFFFFFF then mapErase map (unitKey ns u) else mapSet map (unitKey ns u) p
    else map
  | .lost ns u =>
    if ((mapGet segs (d.segmentKey ns u)).elim 0 fun g => g.flush) < flush then mapSet map (unitKey ns u) lostEntry else map
  | .nsdestroy ns => mapFilter map fun k _ => decide (k / 2 ^ 40 ≠ ns)
  | .free _ | .retire _ | .retireDie _ _ => map

/-- Blocks whose FREE the flushed records show, erased blocks apart. -/
def Lane.freedAfter (x : Lane) : List BlockId := x.freed.filter fun b => decide (0 < (x.block b).filled)

/-- What the scan of the open set meets: the slots with a sequence number above `high` (R378). -/
def Depot.scanned (d : Depot) (l high : Nat) (openSet : List BlockId) : List (Nat × Slot) :=
  (d.lane l).slots.filter fun (e : Nat × Slot) => openSet.contains (d.blockOf l e.1) && decide (high < e.2.seq)

/-- A slot that does not read is reconstructed from its batch's parity, where that is held and reads and every other die of the batch
does (R369, R378). DEDUCED: log entry 65. -/
def Lane.reconstructs (x : Lane) (bad : List Nat) (p : Nat) : Bool :=
  bad.contains p && (mapVals x.batches).any fun t =>
    t.place.contains p && !bad.contains t.parity &&
    decide ((distinct ((t.place.filter bad.contains).map fun q => (puaCh q, puaDie q))).length ≤ 1)

/-- A slot is read or reconstructed. -/
def Lane.readable (x : Lane) (bad : List Nat) (p : Nat) : Bool := !bad.contains p || x.reconstructs bad p

/-- The batches of a scan, by first sequence number, that are discarded: one of their BSLOTS slots was neither read nor reconstructed
(R378). DEDUCED: log entries 65, 128. -/
def Lane.discards (x : Lane) (bad : List Nat) (found : List (Nat × Slot)) : List Nat :=
  let good := found.filter fun e => x.readable bad e.1
  distinct ((found.filter fun e =>
    !(List.range e.2.bslots).all fun i => good.any fun g => g.2.bfirst == e.2.bfirst && g.2.seq == e.2.bfirst + i).map fun e => e.2.bfirst)

/-- Insert a found slot: ascending SEQ, pSLC copies before native copies (R378). DEDUCED: log entry 65. -/
def foundOrder (d : Depot) (l : Nat) (a b : Nat × Slot) : Bool :=
  let nat := fun (e : Nat × Slot) => !((d.lane l).block (d.blockOf l e.1)).pslc
  decide (a.2.seq < b.2.seq) || (decide (a.2.seq = b.2.seq) && !nat a && nat b)

/-- What a rebuild leaves: the lane, the number of batches discarded, their slots that were neither read nor reconstructed, and the number
of slots reconstructed. -/
structure Rebuilt where
  lane : Lane
  discarded : Nat
  unread : List Nat
  recon : Nat
  deriving DecidableEq, Repr

/-- The lane as procedure rebuild leaves it (R378). DEDUCED: log entries 65, 128. -/
def Depot.rebuildLane (d : Depot) (l half : Nat) (bad : List Nat) : Rebuilt :=
  let x := d.lane l
  let base := x.segments.foldl (fun (m : KMap Nat) (g : Nat × Segment) => g.2.entries.foldl (fun m e => mapSet m e.1 e.2) m) []
  let map := x.journal.foldl (fun (m : KMap Nat) (r : JournalRec) => r.deltas.foldl (d.applyDelta x.segments r.flush) m) base
  let last := x.journal.getLast?
  let high := last.elim 0 fun r => r.high
  let openSet := last.elim [] fun r => r.openSet
  let scan := d.scanned l high openSet
  let discarded := x.discards bad scan
  let out := (scan.filter fun e => discarded.contains e.2.bfirst).map Prod.fst
  let found := sortBy (foundOrder d l) (scan.filter fun e => !discarded.contains e.2.bfirst && x.readable bad e.1)
  let map := found.foldl (fun (m : KMap Nat) (e : Nat × Slot) =>
    match mapGet m (unitKey e.2.ns e.2.unit) with
    | some q => if (mapGet x.slots q).elim false (fun t => decide (t.seq = e.2.seq)) then m else mapSet m (unitKey e.2.ns e.2.unit) e.1
    | none => mapSet m (unitKey e.2.ns e.2.unit) e.1) map
  let slots := mapFilter x.slots fun p _ => !out.contains p
  let seq := maxNat (high :: found.map fun e => e.2.seq)
  let blocks := mapMap x.blocks fun k v => { v with erases := (mapGetD x.counters k (v.erases, 0)).1, reads := (mapGetD x.counters k (0, half)).2 }
  let relocate := openSet.filter fun b => decide (0 < (x.block b).filled)
  { lane := { x with
      map := map, slots := slots, seqCtr := seq, blocks := blocks, deltas := [], batch := [], trims := [], copies := [],
      flush := last.elim 0 fun r => r.flush, sbEpoch := (x.sbEpoch + 1) % 2 ^ 32, sbVersion := x.sbVersion + 1,
      freed := x.freedAfter, refresh := relocate,
      batches := mapFilter (mapMap x.batches fun _ t => { t with programming := false }) fun _ t => !discarded.contains t.first },
    discarded := discarded.length, unread := out.filter fun p => !x.readable bad p,
    recon := (scan.filter fun e => x.reconstructs bad e.1).length }

/-- The lane's outcome of R485: 0 OK, 1 NONAND, 2 BLANK, 3 FOREIGN. -/
def Depot.classify (d : Depot) (j l : Nat) : Nat :=
  if !((List.range 8).any fun c => d.channelUp (8 * l + c)) then 1
  else match (d.lane l).sbBind with
    | none => 2
    | some b => if b = depotBind j then 0 else 3

/-- STATE of a lane that has rebuilt (Table 12-12): SUSPECT when a slot of a discarded batch that could be neither read nor reconstructed
lies on a die found failed (R379), DEGRADED while a die or channel of it is retired. -/
def Depot.stateAfter (d : Depot) (l : Nat) (unread : List Nat) (failedDies : List (Nat × Nat)) : LaneState :=
  if unread.any fun p => failedDies.contains (8 * l + puaCh p, puaDie p) then .suspect
  else if d.deadDies.any (fun e => e.1 / 8 == l) || d.deadChannels.any (fun c => c / 8 == l) then .degraded
  else .ready

/-- Rebuild lane `l` of Junction die `j` and record its outcome (R378, R379, R485). -/
def State.rebuild (s : State) (j l : Nat) (bad : List Nat) (failedDies : List (Nat × Nat)) (ms : Nat) : State :=
  let d := s.depot j
  let cls := d.classify j l
  let bits := s.fld GLB_DEPSTART_LANES
  let s := s.setFld GLB_DEPSTART_LANES (setBitsOf bits (2 * (2 * j + l)) 2 cls)
  if cls ≠ 0 then s.setDepot j (d.setLane l { d.lane l with st := .absent })
  else
    let r := d.rebuildLane l (s.fld DEP_RDCFG_REFRESH j / 2) bad
    let st := d.stateAfter l r.unread failedDies
    let d := { d with rebuildMs := max d.rebuildMs ms, discarded := d.discarded + r.discarded, reconstructed := d.reconstructed + r.recon,
                      destroying := distinct (d.destroying ++ r.lane.sbDestroying), health := d.healthSaved }
    let s := s.setDepot j (d.setLane l { r.lane with st := st, flushedAt := s.clock.mono })
    let s := s.logDepot 1 j l 0 ms
    if st = .suspect then s.logDepot 3 j l 0 0 else s

-- ## Format (R496)

/-- Erase every block but the die record blocks, bind the lanes to this device and set the capacity (R365, R496).
DESIGN CHOICE: log entry 33. -/
def Depot.format (d : Depot) (j pslc op : Nat) : Depot :=
  let raw := d.rawUnits
  let logical := logicalUnits raw pslc op
  let fresh := fun (x : Lane) =>
    { Lane.blank with
      blocks := mapMap x.blocks fun _ v => { Block.fresh with erases := v.erases + (if 0 < v.filled then 1 else 0), retired := v.retired },
      sbEpoch := x.sbEpoch, sbVersion := x.sbVersion + 1, sbBind := some (depotBind j) }
  { d with lanes := d.lanes.map fresh, namespaces := [], destroying := [], raw := raw, logical := logical, pslc := pslc,
           reserve := raw * (99 - pslc) / 100 - logical, health := Health.zero, healthSaved := Health.zero }.writeKeyTable

end Sys2Proof.Machine
end

