-- ==== Sys2Proof/Machine/Memory.lean ====
section
/-! DEFINITION. The memory tiers (chapter 11): what each slice holds, budgets, placement, the bytes of an allocation with their
poison and their place in flash, page moves, drains, scrubbing and the codec's events. -/

namespace Sys2Proof.Machine

-- ## What a slice holds (R526, R527, R597)

/-- A composition that names nothing. -/
def Composition.none : Composition :=
  { frames := 0, shunters := 0, selectors := 0, jdies := 0, granules := [], pcs := 0, ranks := 0, nandDies := 0, nsUnits := [0, 0, 0, 0] }

/-- The compositions of the tenant slices, those that are being created or amended included (R531). -/
def State.tenantComps (s : State) : List Composition := (mapVals s.nv.slices ++ mapVals s.stm.changing).map fun e => e.comp

/-- A unit that is being cleared: nothing is placed on it (R539). -/
def State.unitClearing (s : State) (u : Nat) : Bool := (mapGet s.stm.clearing u).isSome

/-- Some tenant slice holds unit `i` of a bitmap. -/
def State.tenantHolds (s : State) (f : Composition → Nat) (i : Nat) : Bool := s.tenantComps.any fun c => bitOf (f c) i

/-- The slice holds unit `i` of a bitmap: slice 0 holds what no tenant holds. -/
def State.sliceHolds (s : State) (sl : Nat) (f : Composition → Nat) (i : Nat) : Bool :=
  if sl = 0 then !s.tenantHolds f i else (mapGet s.nv.slices sl).elim false fun e => bitOf (f e.comp) i

/-- The in-service frames of a slice (R266). -/
def State.sliceFrames (s : State) (sl : Nat) : List Nat :=
  (List.range 192).filter fun f => s.frameInService f && !s.unitClearing (unitId 1 f) && s.sliceHolds sl Composition.frames f

/-- Granules of a die that device reservations hold at its top (R597): the read cache and the shadow buffer.
DEDUCED: log entry 58. -/
def State.reservedGranules (s : State) : Nat := s.fab.rcacheSize * 16 + 128

/-- Granule `g` of Table 17-2 is in service and no device reservation. -/
def State.granuleFree (s : State) (g : Nat) : Bool :=
  !s.retired (unitId 4 g) && !s.unitClearing (unitId 4 g) && decide (g % 2048 + s.reservedGranules < 2048)

/-- Granules of a slice. -/
def State.sliceGranules (s : State) (sl : Nat) : List Nat :=
  if sl = 0 then (List.range 4096).filter fun g => s.granuleFree g && !s.tenantComps.any fun c => c.granules.contains g
  else (mapGet s.nv.slices sl).elim [] fun e => e.comp.granules.filter fun g => !s.retired (unitId 4 g) && !s.unitClearing (unitId 4 g)

/-- Pseudo-channel `p` exists in the variant and is in service. -/
def State.pcUp (s : State) (p : Nat) : Bool := decide (p < 64 * s.hbmStacks) && !s.retired (unitId 5 p)

/-- Pseudo-channels of a slice. -/
def State.slicePcs (s : State) (sl : Nat) : List Nat :=
  (List.range (64 * s.hbmStacks)).filter fun p => s.pcUp p && !s.unitClearing (unitId 5 p) && s.sliceHolds sl Composition.pcs p

/-- Bytes of a DDR5 rank, 0 where there is none in service. -/
def State.rankBytes (s : State) (r : Nat) : Nat :=
  if s.retired (unitId 6 r) || s.boot.ddrOut.contains (r / 8) then 0
  else (mapGet s.boot.dimms (r / 8)).elim 0 fun d => if r % 8 < d.1 then d.2 else 0

/-- Ranks of a slice. -/
def State.sliceRanks (s : State) (sl : Nat) : List Nat :=
  (List.range 128).filter fun r => decide (0 < s.rankBytes r) && !s.unitClearing (unitId 6 r) && s.sliceHolds sl Composition.ranks r

/-- Namespace number of the slice on Junction die `j`. DESIGN CHOICE (log entry 57): slice 0, to which no command gives a namespace, has number
255 on every formatted Depot. -/
def State.sliceNs (s : State) (sl j : Nat) : Option Nat :=
  if sl = 0 then (if (mapGet (s.depot j).namespaces 255).isSome then some 255 else none)
  else (mapGet s.nv.slices sl).bind fun e => (e.namespaces.getD j none)

/-- Units of the tenants' namespaces on a Depot. -/
def Depot.tenantUnits (d : Depot) : Nat := sumNat ((d.namespaces.filter fun e => e.1 != 255).map fun e => e.2.size)

/-- A Depot lane serves. -/
def Depot.up (d : Depot) : Bool := d.lanes.any Lane.serves

/-- Flash units of a slice (R527). -/
def State.sliceFlash (s : State) (sl : Nat) : Nat :=
  sumNat ((List.range 4).map fun j =>
    match s.sliceNs sl j with
    | some n => if sl = 0 then (s.depot j).logical - (s.depot j).tenantUnits else (mapGet (s.depot j).namespaces n).elim 0 fun x => x.size
    | none => 0)

/-- Bytes of the Depot maps in board memory (R365). -/
def State.mapBytes (s : State) : Nat := sumNat (s.depots.map fun d => 4 * d.logical)

/-- The capacity of a slice in a tier, bytes (R527, R597). DEDUCED: log entry 58. -/
def State.capacity (s : State) (sl tier : Nat) : Nat :=
  match tier with
  | 0 => 2 ^ 21 * (s.sliceFrames sl).length
  | 1 => 2 ^ 16 * (s.sliceGranules sl).length
  | 2 => 2 ^ 30 * (s.slicePcs sl).length - (if sl = 0 then 152 * 2 ^ 20 else 0)
  | 3 => sumNat ((s.sliceRanks sl).map s.rankBytes) - (if sl = 0 then s.mapBytes else 0)
  | _ => blockBytes * s.sliceFlash sl

-- ## Bytes placed (R336, R340)

/-- Copies of an allocation: two under REPL. -/
def Alloc.copies (a : Alloc) : Nat := if a.flags.repl then 2 else 1

/-- Pages of 2 MiB of an allocation. -/
def Alloc.npages (a : Alloc) : Nat := ceilDiv a.size (2 ^ 21)

/-- Tier of a page. -/
def Alloc.pageTier (a : Alloc) (p : Nat) : Nat := mapGetD a.pages p a.tier

/-- Bytes an allocation takes in a tier, at its unit of placement (Table 11-1). -/
def Alloc.bytesIn (a : Alloc) (tier : Nat) : Nat :=
  let moved := a.pages.countP fun e => e.2 == tier
  let home := if a.tier = tier then a.npages - a.pages.length else 0
  a.copies *
  match tier with
  | 0 => if a.tier = 0 then a.size else 0
  | 1 => if a.tier = 1 then roundUp a.size (2 ^ 16) else 0
  | 4 => if a.tier = 4 then roundUp a.size blockBytes else 2 ^ 21 * moved
  | _ => 2 ^ 21 * (home + moved)

/-- Bytes a slice has placed in a tier: allocations, charged structures, and the second page that each page move holds: its
destination until the switch, its source after it (R344). -/
def State.used (s : State) (sl tier : Nat) : Nat :=
  sumNat ((s.allocs.filter fun e => e.2.slice == sl).map fun e => e.2.bytesIn tier) +
  sumNat ((s.charges.filter fun c => c.slice == sl && c.tier == tier).map fun c => c.bytes) +
  2 ^ 21 * sumNat (s.moves.map fun m => (mapGet s.allocs m.alloc).elim 0 fun a =>
    if a.slice = sl ∧ tier = (if m.copied then 5 - m.dest else m.dest) then a.copies else 0)

/-- The budget of a slice in a tier that is free (R336). -/
def State.free (s : State) (sl tier : Nat) : Nat := s.capacity sl tier - s.used sl tier

/-- Charge memory to a slice (R341). -/
def State.charge (s : State) (h : Holder) (sl tier bytes : Nat) : State :=
  if bytes = 0 then s else { s with charges := s.charges ++ [⟨h, sl, tier, bytes⟩] }

/-- Return what a holder was charged. -/
def State.discharge (s : State) (h : Holder) : State := { s with charges := s.charges.filter fun c => c.holder != h }

/-- MEM_TIERCAP of a tier: the capacity of every slice (R336). DEDUCED: log entry 58. -/
def State.tierCap (s : State) (tier : Nat) : Nat := sumNat ((0 :: mapKeys s.nv.slices).map fun sl => s.capacity sl tier)

/-- MEM_TIERUSED of a tier. -/
def State.tierUsed (s : State) (tier : Nat) : Nat := sumNat ((0 :: mapKeys s.nv.slices).map fun sl => s.used sl tier)

-- ## Flash space (R366)

/-- The Depots of a slice's flash space, ascending. -/
def State.sliceDepots (s : State) (sl : Nat) : List Nat := (List.range 4).filter fun j => (s.sliceNs sl j).isSome

/-- Where unit `v` of a slice's flash space lies: Depot, namespace and unit of the namespace (R366). -/
def State.flashPlace (s : State) (sl v : Nat) : Option (Nat × Nat × Nat) :=
  let ds := s.sliceDepots sl
  let stripe := v / 512
  match ds with
  | [] => none
  | _ =>
    let j := ds.getD (stripe % ds.length) 0
    (s.sliceNs sl j).map fun n => (j, n, 512 * (stripe / ds.length) + v % 512)

/-- The extents of flash space that a slice uses, as first unit and units, rising. -/
def State.flashUsed (s : State) (sl : Nat) : List (Nat × Nat) :=
  sortBy (fun a b => decide (a.1 < b.1))
    ((s.allocs.filter fun e => e.2.slice == sl).flatMap fun e => e.2.flash.map fun x => (x.2.1, x.2.2))

/-- Take `n` units for blocks from `blk` up out of the gaps between used extents, lowest first. DESIGN CHOICE: log entry 57. -/
def takeExtents : List (Nat × Nat) → Nat → Nat → Nat → List (Nat × Nat × Nat)
  | [], at_, blk, n => if n = 0 then [] else [(blk, at_, n)]
  | (a, len) :: rest, at_, blk, n =>
    if n = 0 then []
    else if at_ < a then
      let k := min n (a - at_)
      (blk, at_, k) :: takeExtents rest (a + len) (blk + k) (n - k)
    else takeExtents rest (max at_ (a + len)) blk n

/-- Extents for `n` blocks from block `blk` of an allocation. DESIGN CHOICE (log entry 57): the lowest free units of the slice's flash space. -/
def State.newExtents (s : State) (sl blk n : Nat) : List (Nat × Nat × Nat) := takeExtents (s.flashUsed sl) 0 blk n

/-- The unit of flash space that holds block `b` of an allocation. -/
def Alloc.flashUnit (a : Alloc) (b : Nat) : Option Nat :=
  (a.flash.find? fun x => decide (x.1 ≤ b) && decide (b < x.1 + x.2.2)).map fun x => x.2.1 + (b - x.1)

-- ## Bytes, poison and accesses (R344, R347, R354)

/-- An allocation by its id. DEDUCED: log entry 60. -/
def State.alloc (s : State) (id : Nat) : Option Alloc := mapGet s.allocs id

/-- The state with an allocation replaced. -/
def State.setAlloc (s : State) (id : Nat) (a : Alloc) : State := { s with allocs := mapSet s.allocs id a }

/-- Bytes of an allocation. -/
def State.allocBytes (s : State) (id off n : Nat) : Bytes := (s.alloc id).elim (List.replicate n 0) fun a => memRead a.mem off n

/-- Poisoned units of an allocation that share a byte with a range. -/
def State.poisonIn (s : State) (id off n : Nat) : List Poison :=
  s.poison.filter fun p => p.alloc == id && decide (p.off < off + n) && decide (off < p.off + p.len)

/-- A store to the range would write part of a poisoned unit (R354). DESIGN CHOICE: log entry 61. -/
def State.partPoison (s : State) (id off n : Nat) : Bool :=
  (s.poisonIn id off n).any fun p => decide (p.off < off) || decide (off + n < p.off + p.len)

/-- A movable page: a fallen HOT page or a page of a WARM allocation without PIN (chapter 11, Moving pages). -/
def Alloc.movable (a : Alloc) (p : Nat) : Bool :=
  !a.flags.pin && (a.flags.warm || (a.flags.hot && a.pageTier p == 3))

/-- Count the 64-byte accesses of a range in its pages (R342). -/
def Alloc.touch (a : Alloc) (off n : Nat) : Alloc :=
  if n = 0 then a
  else
    let pages := (List.range ((off + n - 1) / 2 ^ 21 + 1 - off / 2 ^ 21)).map (off / 2 ^ 21 + ·)
    { a with hits := pages.foldl (fun (m : KMap Nat) p =>
        if a.movable p then
          let lo := max off (p * 2 ^ 21)
          let hi := min (off + n) ((p + 1) * 2 ^ 21)
          mapSet m p (mapGetD m p 0 + ((hi - 1) / 64 + 1 - lo / 64))
        else m) a.hits }

/-- A read of an allocation is counted (R342). -/
def State.touchRead (s : State) (id off n : Nat) : State := { s with allocs := mapUpdate s.allocs id fun a => a.touch off n }

/-- Bring the flash blocks that a store touched to the Depot: each lies in flash at home or on a spilt page. -/
def State.writeFlash (s : State) (id off n : Nat) : State :=
  match s.alloc id with
  | none => s
  | some a =>
    if a.flash.isEmpty || decide (n = 0) then s
    else
      let first := off / blockBytes
      (List.range ((off + n - 1) / blockBytes + 1 - first)).foldl (fun (s : State) k =>
        match (a.flashUnit (first + k)).bind (s.flashPlace a.slice) with
        | some (j, ns, u) => s.depotWrite j ns u (memRead a.mem ((first + k) * blockBytes) blockBytes)
        | none => s) s

/-- A page of the allocation that is being moved has taken no copy yet. -/
def State.moving (s : State) (id off n : Nat) : Bool :=
  s.moves.any fun m => m.alloc == id && !m.copied && decide (m.page * 2 ^ 21 < off + n) && decide (off < (m.page + 1) * 2 ^ 21)

/-- Store bytes to an allocation: memory, flash, access counts; a store over whole poisoned units clears them (R354); a store
to a page under a move is counted as stalled (R344); the zero-run flags of what it touches are cleared (R222).
DESIGN CHOICE: log entry 61. -/
def State.allocStore (s : State) (id off : Nat) (bs : Bytes) : State :=
  match s.alloc id with
  | none => s
  | some a =>
    let n := bs.length
    let s := if s.moving id off n then
        { s.count MEM_MOVEWAIT_COUNT with moves := s.moves.map fun m => if m.alloc = id ∧ m.page = off / 2 ^ 21 then { m with stalled := m.stalled + 1 } else m }
      else s
    let s := s.setAlloc id ({ a with mem := memWrite a.mem off bs }.touch off n)
    let s := { s with
      poison := s.poison.filter fun p => !(p.alloc == id && decide (off ≤ p.off) && decide (p.off + p.len ≤ off + n))
      zruns := s.zruns.filter fun z => !(z.1 == id && decide (z.2.1 < off + n) && decide (off < z.2.1 + z.2.2)) }
    s.writeFlash id off n

/-- What stops an engine that reads an allocation (R354, R364, R379, R383): MEDIA on poison, DEPOT_SUSPECT on a suspect lane,
RETIRED on a retired one. -/
def State.readStatus (s : State) (id off n : Nat) : Option Nat :=
  if !(s.poisonIn id off n).isEmpty then some stMEDIA
  else match s.alloc id with
    | none => none
    | some a =>
      if a.flash.isEmpty then none
      else
        let lanes := (a.flash.flatMap fun x => [x.2.1, x.2.1 + x.2.2 - 1]).filterMap fun v =>
          (s.flashPlace a.slice v).map fun e => (e.1, ((mapGet (s.depot e.1).namespaces e.2.1).elim [0, 1] Namespace.lanes))
        let sts := lanes.flatMap fun e => e.2.map fun l => ((s.depot e.1).lane l).st
        if sts.contains .suspect then some 0x0304 else if sts.contains .retired then some stRETIRED else none

/-- Some write of a slice waits for the acknowledgement of its Depot (R347). -/
def State.flashPending (s : State) (sl : Nat) : Bool :=
  (List.range 4).any fun j => (s.sliceNs sl j).elim false fun n => (s.depot j).unacked n

/-- The map entry of a unit of a slice's flash space is the lost value (R364). -/
def State.unitLost (s : State) (sl v : Nat) : Bool :=
  (s.flashPlace sl v).elim false fun (j, ns, u) =>
    (mapGet (s.depot j).namespaces ns).elim false fun n => mapGet ((s.depot j).lane (n.laneOf u)).map (unitKey ns u) == some lostEntry

/-- The blocks whose units have become lost since `old` are poisoned (R364). -/
def State.markLost (s old : State) : State :=
  s.allocs.foldl (fun (s : State) (e : Nat × Alloc) =>
    if e.2.flash.isEmpty then s
    else
      (List.range (ceilDiv e.2.size blockBytes)).foldl (fun (s : State) b =>
        match e.2.flashUnit b with
        | some v =>
          let p : Poison := ⟨e.1, b * blockBytes, blockBytes, 4⟩
          if s.unitLost e.2.slice v && !old.unitLost e.2.slice v && !s.poison.contains p then { s with poison := s.poison ++ [p] } else s
        | none => s) s) s

-- ## Placement (R338 to R340)

/-- Table 11-3 holds for the flags of an entry with its NAME. DEDUCED: log entry 124. -/
def AllocFlags.legal (f : AllocFlags) (name : Nat) : Bool :=
  let tiers := ([f.hot, f.warm, f.cold, f.stream].filter id).length
  let warm := f.warm || (decide (tiers = 0) && !f.persist)
  decide (tiers ≤ 1) &&
  (!f.persist || (decide (name ≠ 0) && !(f.hot || f.warm || f.stream || f.pin || f.repl || f.clear || f.isLocal || f.window))) &&
  (!f.share || (decide (name ≠ 0) && !(f.isLocal || f.window))) &&
  (!f.pin || ((f.hot || warm) && !f.isLocal)) &&
  (!f.repl || ((f.hot || warm) && !(f.persist || f.isLocal || f.window))) &&
  (!f.clear || !(f.cold || f.stream || f.persist)) &&
  (!f.isLocal || !(f.warm || f.cold || f.stream || f.persist || f.pin || f.share || f.repl || f.window)) &&
  (!f.window || (f.hot && !(f.warm || f.cold || f.stream || f.persist || f.share || f.repl || f.clear || f.isLocal)))

/-- No tier flag and no PERSIST: the entry is WARM, or LOCAL without a tier (R338). -/
def AllocFlags.settle (f : AllocFlags) : AllocFlags :=
  if !(f.hot || f.warm || f.cold || f.stream || f.persist || f.isLocal) then { f with warm := true } else f

/-- A field of MEM_TIERCFG as it applies in the present interval (R357). -/
def State.tierFld (s : State) (f : FieldRef) : Nat := bitsOf s.tierCfg.toNat f.lo f.width

/-- A HOT allocation goes into concourse: at most CONCMAX, with room in the slice's budget (R340). -/
def State.toConcourse (s : State) (sl : Nat) (f : AllocFlags) (size : Nat) : Bool :=
  decide (size ≤ s.tierFld MEM_TIERCFG_CONCMAX * 2 ^ 20) && decide ((if f.repl then 2 else 1) * roundUp size (2 ^ 16) ≤ s.free sl 1)

/-- Tier of home and pages elsewhere, for `size` bytes under the flags against the free budgets of a slice; none for
BUFFER_SHORT (R340). DEDUCED: log entry 124. -/
def State.placeFlags (s : State) (sl : Nat) (f : AllocFlags) (size : Nat) : Option (Nat × KMap Nat) :=
  let k := if f.repl then 2 else 1
  let np := ceilDiv size (2 ^ 21)
  let room := fun (t : Nat) => s.free sl t / (2 ^ 21 * k)
  if f.hot then
    if s.toConcourse sl f size then some (1, [])
    else if np ≤ room 2 then some (2, [])
    else if f.pin || f.window then none
    else if np ≤ room 2 + room 3 then some (2, (List.range (np - room 2)).map fun i => (room 2 + i, 3))
    else none
  else if f.warm then (if np ≤ room 3 then some (3, []) else none)
  else if f.stream then
    if np ≤ room 3 then some (3, [])
    else if np ≤ room 3 + s.free sl 4 / 2 ^ 21 then some (3, (List.range (np - room 3)).map fun i => (room 3 + i, 4))
    else none
  else if roundUp size blockBytes ≤ s.free sl 4 then some (4, [])
  else none

/-- Tier of each LOCAL instance (R340): frame store, else concourse, else package memory. `taken` is what the image and the
LOCAL entries already placed leave no room for; `n` instances. -/
def State.placeLocal (s : State) (sl size taken n : Nat) : Option Nat :=
  if size + taken ≤ 2 ^ 21 then some 0
  else if n * roundUp size (2 ^ 16) ≤ s.free sl 1 then some 1
  else if n * roundUp size (2 ^ 21) ≤ s.free sl 2 then some 2
  else none

/-- The flash extents of an allocation placed so: all its blocks at home in flash, or the blocks of its spilt pages. -/
def State.placeFlash (s : State) (sl tier size : Nat) (pages : KMap Nat) : List (Nat × Nat × Nat) :=
  if tier = 4 then s.newExtents sl 0 (ceilDiv size blockBytes)
  else match pages.filter fun e => e.2 == 4 with
    | [] => []
    | (p, _) :: _ => s.newExtents sl (512 * p) (ceilDiv size blockBytes - 512 * p)

/-- Promoted WARM pages of a slice in package memory, in the order in which pressure demotes them (R343). -/
def State.promoted (s : State) (sl : Nat) : List (Nat × Nat × Nat) :=
  let lt := fun (a b : Nat × Nat × Nat × Nat) =>
    decide (a.1 < b.1) || (a.1 == b.1 && (decide (a.2.1 < b.2.1) || (a.2.1 == b.2.1 && decide (a.2.2.1 < b.2.2.1))))
  (sortBy lt
    ((s.allocs.filter fun e => e.2.slice == sl && e.2.flags.warm).flatMap fun e =>
      (e.2.pages.filter fun p => p.2 == 2 && !s.moves.any fun m => m.alloc == e.1 && m.page == p.1).map fun p =>
        (mapGetD e.2.last p.1 0, e.2.num, p.1, e.1))).map fun c => (c.2.2.2, c.2.2.1, c.1)

/-- A page switches to a tier. -/
def State.setPage (s : State) (id page tier : Nat) : State :=
  { s with allocs := mapUpdate s.allocs id fun a =>
      { a with pages := if tier = a.tier then mapErase a.pages page else mapSet a.pages page tier, low := mapErase a.low page } }

/-- Demote promoted WARM pages of a slice until `need` bytes of package memory are free, as far as there are such pages. -/
def State.pressure (s : State) (sl need : Nat) : State :=
  (s.promoted sl).foldl (fun (s : State) e =>
    if need ≤ s.free sl 2 then s else (s.setPage e.1 e.2.1 3).count MEM_MOVES_DEMOTED) s

/-- The pressure of a HOT allocation that concourse does not take (R343). -/
def State.pressureHot (s : State) (sl : Nat) (f : AllocFlags) (size : Nat) : State :=
  if f.hot && !s.toConcourse sl f size then s.pressure sl (2 ^ 21 * ceilDiv size (2 ^ 21) * (if f.repl then 2 else 1)) else s

/-- The pressure of LOCAL instances that neither frame store nor concourse takes. -/
def State.pressureLocal (s : State) (sl size taken n : Nat) : State :=
  if size + taken ≤ 2 ^ 21 ∨ n * roundUp size (2 ^ 16) ≤ s.free sl 1 then s else s.pressure sl (n * roundUp size (2 ^ 21))

/-- A new allocation with an id of its own. -/
def State.addAlloc (s : State) (a : Alloc) : State × Nat :=
  ({ s with allocs := mapSet s.allocs s.nextId a, nextId := s.nextId + 1 }, s.nextId)

/-- A clear record (Table 18-4), and the clear counted in SEC_CLEAR: RESULT 0 cleared, 1 failed, 2 completed by start-up. -/
def State.clearRecord (s : State) (tstart unit fromSl toSl result cause bytes addr : Nat) : State :=
  let s := if result = 0 then s.count SEC_CLEAR_DONE else if result = 1 then s.count SEC_CLEAR_FAILED else s
  s.logAppend ltClear (leBytes 8 tstart ++ leBytes 8 s.now ++ leBytes 2 unit ++ leBytes 1 fromSl ++ leBytes 1 toSl ++
    leBytes 2 (mapGetD s.nv.gens fromSl 0) ++ leBytes 1 result ++ leBytes 1 cause ++ leBytes 8 bytes ++ leBytes 8 addr)

/-- The clear of an allocation that is given back (R538, R539): its record names its range. DEDUCED: log entry 60. -/
def State.clearAlloc (s : State) (a : Alloc) (cause : Nat) : State :=
  s.clearRecord s.now 0 a.slice 0xFF 0 cause a.size (a.num * 2 ^ 52)

/-- Free an allocation: its bytes, its poison and its moves go, its flash units are trimmed (R346, R364). DEDUCED: log entry 60. -/
def State.freeAlloc (s : State) (id : Nat) : State :=
  match s.alloc id with
  | none => s
  | some a =>
    let s := a.flash.foldl (fun (s : State) x => (List.range x.2.2).foldl (fun (s : State) k =>
      match s.flashPlace a.slice (x.2.1 + k) with
      | some (j, ns, u) => s.depotTrim j ns u
      | none => s) s) s
    { s with allocs := mapErase s.allocs id, poison := s.poison.filter (fun p => p.alloc != id),
             moves := s.moves.filter (fun m => m.alloc != id), pageUnits := mapFilter s.pageUnits fun k _ => decide (k / 2 ^ 32 ≠ id),
             zruns := s.zruns.filter fun z => z.1 != id }

-- ## Moving pages (R342 to R344)

/-- A page of an allocation is being moved. -/
def State.isMoving (s : State) (id page : Nat) : Bool := s.moves.any fun m => m.alloc == id && m.page == page

/-- The units of a tier that a slice holds. -/
def State.unitsOf (s : State) (sl tier : Nat) : List Nat :=
  match tier with
  | 1 => (s.sliceGranules sl).map (unitId 4)
  | 2 => (s.slicePcs sl).map (unitId 5)
  | 3 => (s.sliceRanks sl).map (unitId 6)
  | _ => []

/-- The tier of a memory unit. -/
def unitTier (u : Nat) : Nat := unitType u - 3

/-- The memory unit that a page takes in a tier: a free choice among the units of its slice. -/
def State.placeUnit (s : State) (id page tier : Nat) : Nat :=
  match s.alloc id with
  | none => 0
  | some a =>
    let us := s.unitsOf a.slice tier
    us.getD (Config.pageUnit id page % us.length) 0

/-- Step 1 of a move. DESIGN CHOICE: log entry 63. -/
def State.startMove (s : State) (id page dest : Nat) : State :=
  { s with moves := s.moves ++ [{ alloc := id, page := page, dest := dest, copied := false, stalled := 0, unit := s.placeUnit id page dest }] }

/-- Pages to promote after an interval, in order: fallen HOT before WARM, count descending, ALLOC, page (R343).
DESIGN CHOICE: log entry 63. -/
def State.promotions (s : State) : List (Nat × Nat) :=
  let cand := s.allocs.flatMap fun e =>
    if e.2.age < 9 then []
    else (e.2.hits.filter fun h => decide (s.tierFld MEM_TIERCFG_PROMTHR ≤ h.2) && e.2.movable h.1 && e.2.pageTier h.1 == 3 &&
        !s.isMoving e.1 h.1).map fun h => (e.2.flags.hot, h.2, e.2.num, h.1, e.1)
  let lt := fun (a b : Bool × Nat × Nat × Nat × Nat) =>
    (a.1 && !b.1) || (a.1 == b.1 && (decide (b.2.1 < a.2.1) || (decide (a.2.1 = b.2.1) &&
      (decide (a.2.2.1 < b.2.2.1) || (decide (a.2.2.1 = b.2.2.1) && decide (a.2.2.2.1 < b.2.2.2.1))))))
  (sortBy lt cand).map fun c => (c.2.2.2.2, c.2.2.2.1)

/-- The counts of an allocation at the end of an interval (R342, R343). -/
def Alloc.endInterval (a : Alloc) (demthr : Nat) : Alloc :=
  { a with age := a.age + 1, last := a.hits, hits := [],
           low := (a.pages.filter fun p => p.2 == 2 && a.flags.warm).map fun p =>
             (p.1, if mapGetD a.hits p.1 0 < demthr then mapGetD a.low p.1 0 + 1 else 0) }

/-- TIER_INTERVAL_END: from the ninth interval on, promotions and demotions begin (R342, R343).
DESIGN CHOICE: log entry 63. DEDUCED: log entry 127. -/
def State.tierIntervalEnd (s : State) : State :=
  if s.phase ≠ phReady then s
  else
    let s := { s with tierAge := s.tierAge + 1, allocs := mapMap s.allocs fun _ a => { a with age := a.age + 1 } }
    let s := if 9 ≤ s.tierAge then
        s.promotions.foldl (fun (s : State) e =>
          match s.alloc e.1 with
          | some a => if 2 ^ 21 * a.copies ≤ s.free a.slice 2 then s.startMove e.1 e.2 2 else s
          | none => s) s
      else s
    let s : State := { s with allocs := mapMap s.allocs fun _ a => { a.endInterval (s.tierFld MEM_TIERCFG_DEMTHR) with age := a.age },
                              tierCfg := s.reg .memTiercfg 0 0 }
    if 9 ≤ State.tierAge s then
      s.allocs.foldl (fun (s : State) (e : Nat × Alloc) =>
        (e.2.low.filter fun p => decide (8 ≤ p.2) && decide (9 ≤ e.2.age)).foldl (fun (s : State) (p : Nat × Nat) =>
          if s.isMoving e.1 p.1 then s else s.startMove e.1 p.1 3) s) s
    else s

/-- PAGE_MOVE_COPY_DONE: the translation of move `i` switches and its stalled accesses are released (R344).
DESIGN CHOICE: log entry 63. -/
def State.pageMoveCopyDone (s : State) (i : Nat) : State :=
  match s.moves[i]? with
  | some m =>
    if m.copied then s
    else
      let s := (s.setPage m.alloc m.page m.dest)
      let s := { s with moves := s.moves.set i { m with copied := true, stalled := 0 } }
      if m.dest = 2 then s.count MEM_MOVES_PROMOTED else s.count MEM_MOVES_DEMOTED
  | none => s

/-- PAGE_MOVE_SOURCE_FREE: the source page of move `i` is freed (R344). DESIGN CHOICE: log entry 63. -/
def State.pageMoveSourceFree (s : State) (i : Nat) : State :=
  match s.moves[i]? with
  | some m => if m.copied then { s with moves := s.moves.eraseIdx i } else s
  | none => s

-- ## Drains (R506)

/-- The memory unit that holds a page: the one a drain has given it in its tier, or the one it took at its placement.
DESIGN CHOICE: log entry 56. -/
def State.pageUnit (s : State) (id page : Nat) : Nat :=
  match s.alloc id with
  | none => 0
  | some a =>
    match (mapGet s.pageUnits (id * 2 ^ 32 + page)).filter fun u => decide (unitTier u = a.pageTier page) with
    | some u => u
    | none =>
      let us := s.unitsOf a.slice (a.pageTier page) ++ (s.stm.retiring.filter fun u => decide (unitTier u = a.pageTier page))
      us.getD (Config.pageUnit id page % us.length) 0

/-- The pages of tier `t` that lie on a unit. -/
def State.pagesOn (s : State) (u : Nat) : List (Nat × Nat) :=
  s.allocs.flatMap fun e =>
    ((List.range e.2.npages).filter fun p => e.2.pageTier p == unitTier u && s.pageUnit e.1 p == u).map fun p => (e.1, p)

/-- A drained page takes a unit of its slice in a tier. DESIGN CHOICE: log entry 56. -/
def State.rehome (s : State) (id page tier : Nat) : State :=
  match s.alloc id with
  | none => s
  | some a =>
    let us := s.unitsOf a.slice tier
    let s := s.setPage id page tier
    { s with pageUnits := mapSet s.pageUnits (id * 2 ^ 32 + page) (us.getD (Config.drainUnit s.freeCtr % us.length) 0),
             freeCtr := s.freeCtr + 1 }

/-- One page leaves a retiring unit, if a place is found: the same tier, room made by demotion, board memory for HOT pages, flash
for STREAM pages; concourse allocations fall to package memory (R506). The retired unit's room no longer counts. -/
def State.drainPage (s : State) (id page : Nat) : State × Bool :=
  match s.alloc id with
  | none => (s, true)
  | some a =>
    let t := a.pageTier page
    let fits := fun (s : State) (t : Nat) => decide (s.used a.slice t ≤ s.capacity a.slice t)
    let roomFor := fun (s : State) (t : Nat) => decide (2 ^ 21 ≤ s.free a.slice t)
    if fits s t then (s.rehome id page t, true)
    else
      let s := if t = 2 then s.pressure a.slice (2 ^ 21) else s
      if fits s t then (s.rehome id page t, true)
      else if t = 1 ∧ roomFor s 2 then (s.rehome id page 2, true)
      else if t = 2 ∧ a.flags.hot ∧ roomFor s 3 then (s.rehome id page 3, true)
      else if t = 3 ∧ a.flags.stream ∧ roomFor s 4 then (s.rehome id page 4, true)
      else (s, false)

/-- MEMORY_UNIT_DRAIN: the pages of a retiring unit leave it; it stays RETIRING while a page finds no place (R506).
DEDUCED: log entry 59. -/
def State.memoryUnitDrain (s : State) (u : Nat) : State :=
  if s.stm.retiring.contains u then
    let (s, all) := (s.pagesOn u).foldl (fun (acc : State × Bool) e =>
      let (s, ok) := acc.1.drainPage e.1 e.2
      (s, acc.2 && ok)) (s, true)
    if all then { s with stm := { s.stm with retiring := s.stm.retiring.filter (· != u) } } else s
  else s

-- ## Errors and scrubbing (R353, R354)

/-- Length of the poisoned unit of a tier: an SRAM word, a DRAM access, a compressed block. -/
def State.poisonLen (s : State) (site : MemSite) : Nat :=
  if site.tier ≤ 1 then 8
  else match s.alloc site.alloc with
    | some a => if (site.tier = 3 ∧ !(a.flags.hot)) ∨ site.tier = 4 then blockBytes else 64
    | none => if site.tier = 4 then blockBytes else 64

/-- A site's unit is poisoned (R354). -/
def State.addPoison (s : State) (site : MemSite) : State :=
  let n := s.poisonLen site
  let p : Poison := ⟨site.alloc, site.offset / n * n, n, site.tier⟩
  if s.poison.contains p then s else { s with poison := s.poison ++ [p] }

/-- Corrected errors of a frame store count as one TRANSIENT event above 64 in one hour (Table 17-3). -/
def State.frameCorrected (s : State) (f : Nat) : State :=
  let hour := s.clock.mono / (3600 * 10 ^ 9)
  let n := match mapGet s.stm.eccHour f with
    | some (h, n) => if h = hour then n + 1 else 1
    | none => 1
  let s := { s with stm := { s.stm with eccHour := mapSet s.stm.eccHour f (hour, n) } }
  if n = 65 then s.transient (unitId 1 f) 1 else s

/-- A corrected error (R354): counted in its tier and in its unit's window (Table 17-3). DEDUCED: log entry 59. -/
def State.corrected (s : State) (site : MemSite) : State :=
  let s := if site.tier < 4 then s.count MEM_ECC_CORR 1 site.tier else s
  if unitType site.unit = 1 then s.frameCorrected (unitIndex site.unit)
  else if memoryUnit site.unit then
    let s := s.addEvent site.unit .transient
    if tolerated site.unit < s.windowCount site.unit .transient then s.retirePermanent site.unit 1 else s
  else s

/-- An uncorrectable error (R354, Table 17-3): the unit poisoned, counted, reported; a frame store word that fails again after
it was rewritten retires the frame. DEDUCED: log entry 59. -/
def State.uncorrected (s : State) (site : MemSite) : State :=
  let s := if site.tier < 4 then s.count MEM_ECC_UNCORR 1 site.tier else s
  let slice := (s.alloc site.alloc).elim 0xFF fun a => a.slice
  let key := (site.unit, site.alloc, site.offset / 8)
  let again := s.stm.sramUncorr.contains key && (s.poisonIn site.alloc site.offset 1).isEmpty
  let s := s.addPoison site
  if unitType site.unit = 1 then
    let s := { s with stm := { s.stm with sramUncorr := if s.stm.sramUncorr.contains key then s.stm.sramUncorr else s.stm.sramUncorr ++ [key] } }
    let s := (s.addEvent site.unit .uncorrectable).report site.unit .permanent 1 0 slice site.offset
    if again then s.retirePermanent site.unit 1 else s
  else s.uncorrectable site.unit 1 slice site.offset

/-- What an error code finds at a site (R353, R354); the scrubber skips pages under a move (R344) and units being cleared
(R539). -/
def State.eccEvent (s : State) (site : MemSite) (found : EccResult) : State :=
  if s.isMoving site.alloc (site.offset / 2 ^ 21) || s.unitClearing site.unit then s
  else match found with
    | .good => s
    | .corrected => s.corrected site
    | .uncorrectable => s.uncorrected site

/-- SRAM_SCRUB. -/
def State.sramScrub (s : State) (site : MemSite) (found : EccResult) : State := s.eccEvent site found

/-- DRAM_PATROL: `last` ends a pass over every unit. -/
def State.dramPatrol (s : State) (site : MemSite) (found : EccResult) (last : Bool) : State :=
  let s := s.eccEvent site found
  if last then { s with stm := { s.stm with patrol := false } }.count MEM_SCRUB_PASSES else s

-- ## The codec's events (R351, R352)

/-- BLOCK_ENCODE: block `b` of an allocation is encoded by an engine of Table 17-2; a self-check that disagrees writes it STORED. -/
def State.blockEncode (s : State) (engine id b : Nat) (ok : Bool) : State :=
  match s.alloc id with
  | none => s
  | some a =>
    let blk := memRead a.mem (b * blockBytes) blockBytes
    let s := s.count MEM_CODECIN_BYTES blockBytes
    if ok then s.count MEM_CODECOUT_BYTES (64 * (encodeBlock blk).len)
    else ((s.count MEM_CODECOUT_BYTES blockBytes).count MEM_CODECERR_ENCODE).transient (unitId 11 engine) 10

/-- BLOCK_DECODE: a block is decoded; a failure poisons it, and an engine whose failure a second engine does not repeat is
retired (R352, Table 17-3). -/
def State.blockDecode (s : State) (engine id b : Nat) (payload : Bytes) (desc : Word) (secondOk : Bool) : State :=
  match decodeBlock payload desc.toNat with
  | some _ => s
  | none =>
    let s := s.count MEM_CODECERR_DECODE
    if secondOk then s.retirePermanent (unitId 11 engine) 10
    else
      let p : Poison := ⟨id, b * blockBytes, blockBytes, (s.alloc id).elim 3 fun a => a.pageTier (b / 512)⟩
      let s := if s.poison.contains p then s else { s with poison := s.poison ++ [p] }
      s.report (unitId 11 engine) .permanent 10 0 ((s.alloc id).elim 0xFF fun a => a.slice) (b * blockBytes)

end Sys2Proof.Machine
end

