-- ==== Sys2Proof/Machine/Number.lean ====
section
/-! DEFINITION. The number formats and their exact arithmetic (chapter 6): values as sign and exact fraction, decoding,
rounding once to nearest even or by the dither (R180, R203), scale records, QSCAN, QCVT and CARRY on one element. -/

namespace Sys2Proof.Machine

/-- The formats of Table 6-1. -/
inductive Fmt where
  | int4 | uint4 | fp4 | int8 | uint8 | e4m3 | e5m2 | fp16 | bf16 | fp32 | int32 | bin1
  deriving DecidableEq, Repr

/-- The format of a code; reserved codes have none (R177). -/
def Fmt.ofCode : Nat → Option Fmt
  | 0 => some .int4 | 1 => some .uint4 | 2 => some .fp4 | 3 => some .int8 | 4 => some .uint8 | 5 => some .e4m3
  | 6 => some .e5m2 | 7 => some .fp16 | 8 => some .bf16 | 9 => some .fp32 | 10 => some .int32 | 11 => some .bin1
  | _ => none

/-- Bits of an element (Table 6-1). -/
def Fmt.bits : Fmt → Nat
  | .int4 | .uint4 | .fp4 => 4
  | .int8 | .uint8 | .e4m3 | .e5m2 => 8
  | .fp16 | .bf16 => 16
  | .fp32 | .int32 => 32
  | .bin1 => 1

/-- An integer format. -/
def Fmt.isInt : Fmt → Bool
  | .int4 | .uint4 | .int8 | .uint8 | .int32 => true
  | _ => false

/-- A floating-point format. -/
def Fmt.isFloat : Fmt → Bool
  | .fp4 | .e4m3 | .e5m2 | .fp16 | .bf16 | .fp32 => true
  | _ => false

/-- Exponent bits, mantissa bits, bias and the code of the largest finite magnitude (Table 6-2). -/
structure FloatPar where
  ebits : Nat
  mbits : Nat
  bias : Nat
  maxCode : Nat
  deriving DecidableEq, Repr

/-- The parameters of a floating-point format (Table 6-2). -/
def Fmt.par : Fmt → FloatPar
  | .fp4 => ⟨2, 1, 1, 7⟩
  | .e4m3 => ⟨4, 3, 7, 0x7E⟩
  | .e5m2 => ⟨5, 2, 15, 0x7B⟩
  | .fp16 => ⟨5, 10, 15, 0x7BFF⟩
  | .bf16 => ⟨8, 7, 127, 0x7F7F⟩
  | _ => ⟨8, 23, 127, 0x7F7FFFFF⟩

/-- The format has infinities (Table 6-2). -/
def Fmt.hasInf : Fmt → Bool
  | .e5m2 | .fp16 | .bf16 | .fp32 => true
  | _ => false

/-- The format has NaNs (Table 6-2). -/
def Fmt.hasNan : Fmt → Bool
  | .e4m3 | .e5m2 | .fp16 | .bf16 | .fp32 => true
  | _ => false

/-- A value: a NaN or an infinity with its sign, or the exact number ±num / den. -/
inductive Val where
  | nan (neg : Bool)
  | inf (neg : Bool)
  | fin (neg : Bool) (num den : Nat)
  deriving DecidableEq, Repr

/-- The integer `i` as a value. -/
def Val.ofInt (i : Int) : Val := .fin (decide (i < 0)) i.natAbs 1

/-- The value's sign. -/
def Val.neg : Val → Bool
  | .nan n => n
  | .inf n => n
  | .fin n _ _ => n

/-- The value is finite. -/
def Val.isFin : Val → Bool
  | .fin _ _ _ => true
  | _ => false

/-- The value is a NaN. -/
def Val.isNan : Val → Bool
  | .nan _ => true
  | _ => false

/-- The value is a zero. -/
def Val.isZero : Val → Bool
  | .fin _ n _ => n == 0
  | _ => false

/-- Opposite sign. -/
def Val.negate : Val → Val
  | .nan n => .nan !n
  | .inf n => .inf !n
  | .fin n a b => .fin (!n) a b

/-- Absolute value. -/
def Val.abs : Val → Val
  | .nan _ => .nan false
  | .inf _ => .inf false
  | .fin _ a b => .fin false a b

/-- ±m × 2^e as a value. -/
def Val.scaled (neg : Bool) (m : Nat) (e : Int) : Val :=
  if e < 0 then .fin neg m (2 ^ (-e).toNat) else .fin neg (m * 2 ^ e.toNat) 1

/-- The value of a code of a floating-point format (R179). -/
def decodeFloat (f : Fmt) (code : Nat) : Val :=
  let p := f.par
  let neg := bitOf code (p.ebits + p.mbits)
  let mag := code % 2 ^ (p.ebits + p.mbits)
  let e := mag / 2 ^ p.mbits
  let m := mag % 2 ^ p.mbits
  if p.maxCode < mag then (if f.hasInf && m == 0 then .inf neg else .nan neg)
  else if e = 0 then Val.scaled neg m (1 - (p.bias : Int) - (p.mbits : Int))
  else Val.scaled neg (2 ^ p.mbits + m) ((e : Int) - (p.bias : Int) - (p.mbits : Int))

/-- The value of a code of any format (Table 6-1). -/
def decode (f : Fmt) (code : Nat) : Val :=
  match f with
  | .int4 => Val.ofInt (toSigned code 4)
  | .uint4 => Val.ofInt (code % 16)
  | .int8 => Val.ofInt (toSigned code 8)
  | .uint8 => Val.ofInt (code % 256)
  | .int32 => Val.ofInt (toSigned code 32)
  | .bin1 => Val.ofInt (if code % 2 = 0 then 1 else -1)
  | _ => decodeFloat f code

-- ## Exact operations

/-- Exact sum; a NaN for ∞ − ∞. A zero sum of opposite signs is +0. -/
def Val.add : Val → Val → Val
  | .nan n, _ => .nan n
  | _, .nan n => .nan n
  | .inf a, .inf b => if a = b then .inf a else .nan false
  | .inf a, _ => .inf a
  | _, .inf b => .inf b
  | .fin a n d, .fin b m e =>
    let x : Int := (if a then -(n * e : Int) else n * e) + (if b then -(m * d : Int) else m * d)
    if x = 0 then .fin (a && b) 0 1 else .fin (decide (x < 0)) x.natAbs (d * e)

/-- Exact difference. -/
def Val.sub (a b : Val) : Val := a.add b.negate

/-- Exact product; a NaN for 0 × ∞. -/
def Val.mul : Val → Val → Val
  | .nan n, _ => .nan n
  | _, .nan n => .nan n
  | .inf a, .inf b => .inf (a != b)
  | .inf a, .fin b m _ => if m = 0 then .nan false else .inf (a != b)
  | .fin a n _, .inf b => if n = 0 then .nan false else .inf (a != b)
  | .fin a n d, .fin b m e => .fin (a != b) (n * m) (d * e)

/-- Exact quotient; a NaN for 0 / 0 and ∞ / ∞, an infinity for x / 0. -/
def Val.div : Val → Val → Val
  | .nan n, _ => .nan n
  | _, .nan n => .nan n
  | .inf _, .inf _ => .nan false
  | .inf a, .fin b _ _ => .inf (a != b)
  | .fin a _ _, .inf b => .fin (a != b) 0 1
  | .fin a n d, .fin b m e =>
    if m = 0 then (if n = 0 then .nan false else .inf (a != b)) else .fin (a != b) (n * e) (d * m)

/-- Signed numerator over the denominator of a finite value. -/
def Val.signed : Val → Int × Nat
  | .fin n a d => (if n then -(a : Int) else a, d)
  | _ => (0, 1)

/-- a < b as numbers, −∞ below and +∞ above every number; false with a NaN. -/
def Val.lt : Val → Val → Bool
  | .nan _, _ => false
  | _, .nan _ => false
  | .inf a, .inf b => a && !b
  | .inf a, .fin _ _ _ => a
  | .fin _ _ _, .inf b => !b
  | .fin a n d, .fin b m e =>
    decide ((if a then -(n * e : Int) else (n * e : Int)) < (if b then -(m * d : Int) else (m * d : Int)))

/-- a = b as numbers (−0 = +0); false with a NaN. -/
def Val.eqv (a b : Val) : Bool := !a.isNan && !b.isNan && !a.lt b && !b.lt a

-- ## Rounding

/-- How a value between two grid points is rounded: to nearest even, or up when the dither is below T (R203). -/
inductive Rounding where
  | rne
  | dither (u : Nat)
  deriving DecidableEq, Repr

/-- n / d rounded to an integer magnitude; `neg` is the sign of the value, which turns the dither rule around. -/
def roundNat (r : Rounding) (neg : Bool) (n d : Nat) : Nat :=
  let q := n / d
  let rem := n % d
  match r with
  | .rne => if 2 * rem < d then q else if d < 2 * rem then q + 1 else if q % 2 = 0 then q else q + 1
  | .dither u =>
    if rem = 0 then q
    else if neg then (if u < (d - rem) * 2 ^ 24 / d then q else q + 1)
    else (if u < rem * 2 ^ 24 / d then q + 1 else q)

/-- RNE of a signed fraction to an integer (R180). -/
def rneInt (n : Int) (d : Nat) : Int :=
  if n < 0 then -(roundNat .rne true n.natAbs d : Int) else roundNat .rne false n.natAbs d

/-- The exponent e with 2^e ≤ n / d < 2^(e + 1), for n > 0. -/
def floorLog2 (n d : Nat) : Int :=
  let e : Int := (Nat.log2 n : Int) - (Nat.log2 d : Int)
  let ge := if e < 0 then decide (d ≤ n * 2 ^ (-e).toNat) else decide (d * 2 ^ e.toNat ≤ n)
  if ge then e else e - 1

/-- The magnitude code of n / d in a floating-point format, its exponent unbounded above: codes beyond the largest finite one
mean overflow. -/
def roundMag (r : Rounding) (neg : Bool) (p : FloatPar) (n d : Nat) : Nat :=
  if n = 0 then 0
  else
    let emin : Int := 1 - (p.bias : Int)
    let e := max (floorLog2 n d) emin
    let u := e - (p.mbits : Int)
    let q := if u < 0 then roundNat r neg (n * 2 ^ (-u).toNat) d else roundNat r neg n (d * 2 ^ u.toNat)
    (e - emin).toNat * 2 ^ p.mbits + q

/-- The sign bit of a floating-point code. -/
def signBit (p : FloatPar) (neg : Bool) : Nat := if neg then 2 ^ (p.ebits + p.mbits) else 0

/-- The code of the infinity of a format. -/
def infCode (p : FloatPar) (neg : Bool) : Nat := signBit p neg + (2 ^ p.ebits - 1) * 2 ^ p.mbits

/-- The quiet NaN of a format: mantissa 0b10…0, or 0x7F for E4M3 (Table 6-3). -/
def nanCode (f : Fmt) (neg : Bool) : Nat :=
  if f = .e4m3 then signBit f.par neg + 0x7F else infCode f.par neg + 2 ^ (f.par.mbits - 1)

/-- A converted element: its code, whether it saturated, whether a NaN met a target without NaN (R181). -/
structure Conv where
  code : Nat
  sat : Bool
  lostNan : Bool
  deriving DecidableEq, Repr

/-- Round a value once into a floating-point format (R180, R181, Table 6-3). -/
def toFloat (f : Fmt) (r : Rounding) (satfp : Bool) (v : Val) : Conv :=
  let p := f.par
  match v with
  | .nan n => if f.hasNan then ⟨nanCode f n, false, false⟩ else ⟨0, false, true⟩
  | .inf n => if f.hasInf then ⟨infCode p n, false, false⟩ else ⟨signBit p n + p.maxCode, true, false⟩
  | .fin n a d =>
    let m := roundMag r n p a d
    if m ≤ p.maxCode then ⟨signBit p n + m, false, false⟩
    else if f.hasInf && !satfp then ⟨infCode p n, true, false⟩
    else ⟨signBit p n + p.maxCode, true, false⟩

/-- The code of a value in FP32 under RNE. -/
def fp32 (v : Val) : Nat := (toFloat .fp32 .rne false v).code

/-- The value of an FP32 code. -/
def unfp32 (c : Nat) : Val := decodeFloat .fp32 c

/-- A value rounded once to FP32 and read back. -/
def roundFp32 (v : Val) : Val := unfp32 (fp32 v)

/-- The range that conversion produces in an integer format (Table 6-1). -/
def Fmt.producedRange : Fmt → Int × Int
  | .int4 => (-7, 7) | .uint4 => (0, 15) | .int8 => (-127, 127) | .uint8 => (0, 255)
  | _ => (-2 ^ 31, 2 ^ 31 - 1)

/-- Saturate an integer to the produced range of a format and give its code. -/
def satInt (f : Fmt) (y : Int) : Conv :=
  let r := f.producedRange
  ⟨ofSigned (clampInt y r.1 r.2) f.bits, decide (y < r.1) || decide (r.2 < y), false⟩

/-- Round a value to an integer code with a zero point (R192, Table 6-3). -/
def toInt (f : Fmt) (r : Rounding) (zp : Nat) (v : Val) : Conv :=
  match v with
  | .nan _ => { satInt f zp with lostNan := true }
  | .inf n => { satInt f (if n then f.producedRange.1 else f.producedRange.2) with sat := true }
  | .fin n a d =>
    let q : Int := if n then -(roundNat r n a d : Int) else roundNat r n a d
    satInt f (q + zp)

-- ## Scale records (R183 to R185)

/-- A scale record (Table 6-4). -/
structure ScaleRec where
  scale : Nat
  zp : Nat
  const : Bool
  asym : Bool
  block : Bool
  sat : Bool
  nonfin : Bool
  res : Nat
  cfmt : Nat
  res2 : Nat
  deriving DecidableEq, Repr

/-- The fields of a scale record word. -/
def ScaleRec.ofWord (w : Nat) : ScaleRec :=
  { scale := bitsOf w 0 32, zp := bitsOf w 32 8, const := bitOf w 40, asym := bitOf w 41, block := bitOf w 42, sat := bitOf w 43,
    nonfin := bitOf w 44, res := bitsOf w 45 3, cfmt := bitsOf w 48 4, res2 := bitsOf w 52 12 }

/-- The word of a scale record. -/
def ScaleRec.word (r : ScaleRec) : Nat :=
  let b := fun (x : Bool) (i : Nat) => if x then 2 ^ i else 0
  r.scale + r.zp * 2 ^ 32 + b r.const 40 + b r.asym 41 + b r.block 42 + b r.sat 43 + b r.nonfin 44 + r.res * 2 ^ 45 +
  r.cfmt * 2 ^ 48 + r.res2 * 2 ^ 52

/-- SCALE is positive and finite. -/
def scaleOk (code : Nat) : Bool :=
  match unfp32 code with
  | .fin n a _ => !n && decide (a ≠ 0)
  | _ => false

/-- The record passes the checks of R184. -/
def ScaleRec.ok (r : ScaleRec) : Bool :=
  scaleOk r.scale && r.res == 0 && r.res2 == 0 &&
  (match Fmt.ofCode r.cfmt with
   | some .uint8 => r.asym
   | some .uint4 => r.asym && decide (r.zp ≤ 15)
   | some .int4 | some .int8 | some .fp4 | some .e4m3 | some .e5m2 => !r.asym && r.zp == 0
   | _ => false)

-- ## QSCAN on one group (R187 to R191)

/-- QMAX of a target and kind (Table 6-5); none where the pair is not in the table. -/
def qmax (f : Fmt) (asym : Bool) : Option Nat :=
  match f, asym with
  | .int4, false => some 7
  | .int8, false => some 127
  | .e4m3, false => some 448
  | .e5m2, false => some 57344
  | .fp4, false => some 6
  | .uint4, true => some 15
  | .uint8, true => some 255
  | _, _ => none

/-- Least of two values. -/
def Val.min (a b : Val) : Val := if b.lt a then b else a
/-- Greatest of two values. -/
def Val.max (a b : Val) : Val := if a.lt b then b else a

/-- FP32 code of 1.0. -/
abbrev fp32One : Nat := 0x3F800000

/-- The smallest power of two at or above n / d as an FP32 code (R188, step 3). -/
def pow2Above (n d : Nat) : Nat :=
  let e := floorLog2 n d
  let exact := if e < 0 then decide (n * 2 ^ (-e).toNat = d) else decide (n = d * 2 ^ e.toNat)
  fp32 (Val.scaled false 1 (if exact then e else e + 1))

/-- The scale of a symmetric group with largest magnitude A (R188). -/
def symScale (f : Fmt) (q : Nat) (a : Val) : Nat :=
  match a with
  | .fin _ n d =>
    if f = .fp4 then pow2Above n (6 * d)
    else
      let c := fp32 (.fin false n (d * q))
      if c = 0 then 1 else c
  | _ => fp32One

/-- The record of a group of values (R188 to R190). -/
def scanGroup (f : Fmt) (code : Nat) (asym block : Bool) (q : Nat) (xs : List Val) : ScaleRec :=
  let fins := xs.filter Val.isFin
  let nonfin := decide (fins.length ≠ xs.length)
  let base : ScaleRec := { scale := fp32One, zp := 0, const := false, asym := asym, block := block, sat := false,
                           nonfin := nonfin, res := 0, cfmt := code, res2 := 0 }
  if asym then
    match fins with
    | [] => { base with const := true }
    | x :: rest =>
      let lo := rest.foldl Val.min x
      let hi := rest.foldl Val.max x
      if lo.eqv hi then
        if lo.isZero then { base with const := true }
        else if lo.neg then { base with scale := fp32 lo.abs, zp := 1, const := true }
        else { base with scale := fp32 lo.abs, const := true }
      else
        let l := Val.min lo (Val.ofInt 0)
        let h := Val.max hi (Val.ofInt 0)
        let c := fp32 ((h.sub l).div (Val.ofInt q))
        let c := if c = 0 then 1 else c
        let z := (l.negate.div (unfp32 c)).signed
        { base with scale := c, zp := (clampInt (rneInt z.1 z.2) 0 q).toNat }
  else
    let a := (fins.map Val.abs).foldl Val.max (Val.ofInt 0)
    if a.isZero then { base with const := true } else { base with scale := symScale f q a }

-- ## QCVT on one element (R192, R193)

/-- The value of a code under a record: (code − ZP) × SCALE (R192). -/
def dequant (r : ScaleRec) (f : Fmt) (code : Nat) : Val :=
  if f.isInt then ((decode f code).sub (Val.ofInt r.zp)).mul (unfp32 r.scale)
  else (decode f code).mul (unfp32 r.scale)

/-- The code of a value under a record (R192). -/
def quant (r : ScaleRec) (f : Fmt) (rd : Rounding) (satfp : Bool) (v : Val) : Conv :=
  let x := v.div (unfp32 r.scale)
  if f.isInt then toInt f rd r.zp x else toFloat f rd satfp x

/-- The 24-bit dither (R204). -/
def dither (key n i : Nat) : Nat :=
  let h : BitVec 64 := BitVec.ofNat 64 key ^^^ BitVec.ofNat 64 (n % 2 ^ 32 * 0x9E3779B97F4A7C15) ^^^ BitVec.ofNat 64 i
  let h := (h ^^^ (h >>> 30)) * 0xBF58476D1CE4E5B9
  let h := (h ^^^ (h >>> 27)) * 0x94D049BB133111EB
  let h := h ^^^ (h >>> 31)
  (h >>> 40).toNat

-- ## CARRY on one sum (R195 to R199)

/-- A carry parameter word (Table 6-6). -/
structure CarryWord where
  m : Nat
  s : Nat
  zo : Nat
  exp : Int
  ofmt : Nat
  relu : Bool
  res : Bool
  deriving DecidableEq, Repr

/-- The fields of a carry parameter word; `res`: a reserved bit is nonzero. -/
def CarryWord.ofWord (w : Nat) : CarryWord :=
  { m := bitsOf w 0 31, s := bitsOf w 32 6, zo := bitsOf w 40 8, exp := toSigned (bitsOf w 48 8) 8, ofmt := bitsOf w 56 4,
    relu := bitOf w 60, res := bitOf w 31 || decide (bitsOf w 38 2 ≠ 0) || decide (bitsOf w 61 3 ≠ 0) }

/-- The word passes the checks of R196. -/
def CarryWord.ok (c : CarryWord) : Bool :=
  !c.res && decide (c.s ≠ 63) &&
  (match Fmt.ofCode c.ofmt with
   | some .uint8 => decide (c.exp = 0)
   | some .uint4 => decide (c.exp = 0) && decide (c.zo ≤ 15)
   | some .int4 | some .int8 | some .int32 => decide (c.exp = 0) && c.zo == 0
   | some .e4m3 | some .e5m2 | some .fp16 | some .bf16 | some .fp32 => c.zo == 0
   | _ => false)

/-- CARRY of one INT32 sum (R197, R198). -/
def carrySum (c : CarryWord) (f : Fmt) (a : Int) : Conv :=
  if f.isInt then
    let y := rneInt (a * c.m) (2 ^ c.s)
    let y := if c.relu ∧ y < 0 then 0 else y
    satInt f (y + c.zo)
  else
    let t : Int := a * c.m
    let t := if c.relu ∧ t < 0 then 0 else t
    if t = 0 then ⟨0, false, false⟩
    else
      match Val.scaled (decide (t < 0)) t.natAbs (c.exp - (c.s : Int)) with
      | .fin n x d =>
        let m := roundMag .rne n f.par x d
        if m ≤ f.par.maxCode then ⟨signBit f.par n + m, false, false⟩ else ⟨signBit f.par n + f.par.maxCode, true, false⟩
      | _ => ⟨0, false, false⟩

end Sys2Proof.Machine
end

