-- ==== Sys2Proof/Machine/Consists.lean ====
section
/-! DEFINITION. Consists (chapter 9): the package and its checks, loading and placement, unloading, and named allocations
(R255 to R265, R339, R346, R463, R545). -/

namespace Sys2Proof.Machine

-- ## Codes (Table 9-15 and the chapters a load cites)

abbrev stGEOMUNAVAIL : Nat := 0x0209
abbrev stCONSISTFORMAT : Nat := 0x021C
abbrev stCONSISTCORRUPT : Nat := 0x021D
abbrev stCONSISTUNSIGNED : Nat := 0x021E
abbrev stNOFRAMES : Nat := 0x021F
abbrev stNOCONSIST : Nat := 0x0220

-- ## Tensor descriptors (R261)

/-- The fields of a tensor descriptor (Table 9-5). -/
structure Tensor where
  base : Nat
  fmt : Nat
  fmtRes : Nat
  rank : Nat
  chaxis : Nat
  flags : Nat
  zero : Nat
  dims : List Nat
  strides : List Nat
  scales : Nat
  deriving DecidableEq, Repr

/-- The fields of 64 bytes. -/
def Tensor.ofBytes (b : Bytes) : Tensor :=
  { base := leAt b 0 8, fmt := leAt b 8 1 % 16, fmtRes := leAt b 8 1 / 16, rank := leAt b 9 1, chaxis := leAt b 10 1,
    flags := leAt b 11 1, zero := leAt b 12 4, dims := [leAt b 16 4, leAt b 20 4, leAt b 24 4, leAt b 28 4],
    strides := [leAt b 32 8, leAt b 40 8, leAt b 48 8], scales := leAt b 56 8 }

/-- DIM`k`. -/
def Tensor.dim (t : Tensor) (k : Nat) : Nat := t.dims.getD k 1

/-- STRIDE`k`, k = 1 to 3. -/
def Tensor.stride (t : Tensor) (k : Nat) : Nat := t.strides.getD (k - 1) 0

/-- Number of elements. -/
def Tensor.count (t : Tensor) : Nat := t.dims.foldl (· * ·) 1

/-- SCALED. -/
def Tensor.scaled (t : Tensor) : Bool := bitOf t.flags 0

/-- Bits of an element, 0 for a reserved format. -/
def Tensor.bits (t : Tensor) : Nat := (Fmt.ofCode t.fmt).elim 0 Fmt.bits

/-- Bytes of one run of dimension 0. -/
def Tensor.rowBytes (t : Tensor) : Nat := ceilDiv (t.dim 0 * t.bits) 8

/-- The byte after the last byte of any element, counted from BASE. -/
def Tensor.extent (t : Tensor) : Nat :=
  (t.dim 1 - 1) * t.stride 1 + (t.dim 2 - 1) * t.stride 2 + (t.dim 3 - 1) * t.stride 3 + t.rowBytes

/-- Allocation number of a tier-neutral address (R262). -/
def addrAlloc (a : Nat) : Nat := a / 2 ^ 52 % 4096

/-- Offset of a tier-neutral address. -/
def addrOff (a : Nat) : Nat := a % 2 ^ 52

/-- Every field of the descriptor is in its range (R261); the place of its elements is checked apart. -/
def Tensor.ok (t : Tensor) : Bool :=
  decide (t.bits ≠ 0) && t.fmtRes == 0 && decide (1 ≤ t.rank) && decide (t.rank ≤ 4) && decide (t.chaxis < t.rank) &&
  decide (t.flags ≤ 1) && t.zero == 0 && decide (t.count ≤ 2 ^ 48) &&
  ((List.range 4).all fun k => decide (1 ≤ t.dim k) && (decide (k < t.rank) || t.dim k == 1)) &&
  ((List.range 3).all fun k => decide (k + 1 < t.rank) || t.stride (k + 1) == 0) &&
  (if t.scaled then t.scales % 8 == 0 else t.scales == 0) &&
  (if t.bits = 4 then t.dim 0 % 2 == 0 else if t.bits = 1 then t.dim 0 % 8 == 0 else true)

-- ## The package (R255 to R258)

/-- A section entry: type, offset, length. -/
structure Section_ where
  typ : Nat
  off : Nat
  len : Nat
  deriving DecidableEq, Repr

/-- The eight section entries of a consist. -/
def sections (b : Bytes) : List Section_ :=
  (List.range 8).map fun i => ⟨leAt b (64 + 16 * i) 1, leAt b (66 + 16 * i) 6, leAt b (72 + 16 * i) 6⟩

/-- The section of a type. -/
def section_ (b : Bytes) (typ : Nat) : Option Section_ := (sections b).find? fun x => x.typ == typ

/-- The bytes of the section of a type, none where it is absent. -/
def sectionBytes (b : Bytes) (typ : Nat) : Bytes := (section_ b typ).elim [] fun x => bytesAt b x.off x.len

/-- The section entries keep R256. -/
def sectionsOk (b : Bytes) : Bool :=
  let ss := sections b
  let used := ss.filter fun x => x.typ != 0
  ((List.range 8).all fun i => leAt b (64 + 16 * i) 1 != 0 || allZero (bytesAt b (64 + 16 * i) 16)) &&
  ((List.range 8).all fun i => leAt b (65 + 16 * i) 1 == 0 && leAt b (78 + 16 * i) 2 == 0) &&
  (used.all fun x => decide (x.typ ≤ 8) && x.off % 64 == 0 && decide (256 ≤ x.off) && decide (x.off + x.len ≤ b.length) &&
    used.countP (fun y => y.typ == x.typ) == 1) &&
  ((List.range used.length).all fun i => (List.range i).all fun k =>
    let x := used.getD i ⟨0, 0, 0⟩
    let y := used.getD k ⟨0, 0, 0⟩
    decide (x.off + x.len ≤ y.off) || decide (y.off + y.len ≤ x.off)) &&
  [1, 2, 5].all (fun t => used.any fun x => x.typ == t) &&
  ((used.any fun x => x.typ == 8) == bitOf (leAt b 7 1) 0)

/-- The frame images of the IMAGES section, each with its 128-byte header; none where they do not fill it (R256, R257). -/
def splitImages : Nat → Bytes → Option (List Bytes)
  | 0, b => if b.isEmpty then some [] else none
  | n + 1, b =>
    let len := roundUp (128 + leAt b 4 4) 64
    if b.length < len then none else (splitImages n (b.drop len)).map fun r => b.take (128 + leAt b 4 4) :: r

/-- Check 1 of R259. -/
def consistFormat (b : Bytes) : Bool :=
  decide (256 ≤ b.length) && leAt b 0 4 == 0x54534E43 && leAt b 4 2 == 1 && decide (leAt b 7 1 ≤ 1) && leAt b 60 4 == 0 &&
  allZero (bytesAt b 224 32) && sectionsOk b && (splitImages (leAt b 10 2) (sectionBytes b 1)).isSome &&
  (sectionBytes b 2).length == 2 * leAt b 8 2 && (sectionBytes b 3).length == 64 * leAt b 12 4 &&
  (sectionBytes b 5).length == 32 * leAt b 44 4 && (sectionBytes b 7).length % 48 == 0

/-- Check 2: DIGEST (Table 9-1). -/
def consistDigest (b : Bytes) : Bool := shake256 (b.take 192 ++ b.drop 256) 32 == bytesAt b 192 32

/-- Check 3: the signature against the slice's policy (R545). -/
def State.consistSigned (s : State) (sl : Nat) (b : Bytes) : Bool :=
  let e := mapGet s.nv.slices sl
  if bitOf (leAt b 7 1) 0 then
    match e.bind fun x => x.policyKey with
    | none => false
    | some k =>
      let sig := sectionBytes b 8
      sig.take 32 == shake256 k 32 && leAt sig 32 2 == 1280 && allZero (bytesAt sig 34 30) && sig.length == 1344 &&
      Config.falconVerify k (bytesAt b 192 32) (bytesAt sig 64 1280)
  else !(e.elim false fun x => x.signReq)

/-- Least in-service frames of a slice for a geometry (Table 7-4). -/
def minFrames (geom : Nat) : Nat := if geom = 0 then 5 else 6

/-- An image header in range (Table 9-3). -/
def imageOk (i ntd : Nat) (h : Bytes) : Bool :=
  let code := leAt h 4 4
  leAt h 0 2 == i && leAt h 2 2 == 0 && decide (16 ≤ code) && decide (code ≤ 524288) && code % 16 == 0 &&
  decide (leAt h 8 4 < code / 16) && leAt h 12 4 == 0 && allZero (bytesAt h 80 48) &&
  ((List.range 8).all fun q =>
    let kind := leAt h (16 + 4 * q) 1
    let depth := leAt h (18 + 4 * q) 2
    leAt h (17 + 4 * q) 1 == 0 &&
    (kind == 0 || (kind == 1 && decide (1 ≤ depth) && decide (depth ≤ 64)) || (kind == 2 && decide (64 ≤ depth) && decide (depth ≤ 4096)))) &&
  (List.range 16).all fun d => leAt h (48 + 2 * d) 2 == 0xFFFF || decide (leAt h (48 + 2 * d) 2 < ntd)

/-- The flags of a manifest entry. -/
def entryFlags (e : Bytes) : AllocFlags :=
  let f := leAt e 2 2
  { hot := bitOf f 0, warm := bitOf f 1, cold := bitOf f 2, stream := bitOf f 3, persist := bitOf f 4, pin := bitOf f 5,
    share := bitOf f 6, repl := bitOf f 7, clear := bitOf f 8, isLocal := bitOf f 9, window := bitOf f 10 }

/-- The initial contents of a manifest entry (R264). -/
def entryInit (data e : Bytes) : Bytes := bytesAt data (leAt e 16 8) (leAt e 4 4)

/-- The window record of a WINDOW entry (Table 9-7). -/
def windowDecl (rec : Bytes) : WindowDecl :=
  let layers := leAt rec 2 2
  let n := leAt rec 4 4
  { depth := leAt rec 0 1, routed := leAt rec 1 1 == 1, layers := layers, frames := leAt rec 8 24,
    lstart := (List.range (layers + 1)).map fun i => leAt rec (32 + 4 * i) 4,
    regions := (List.range n).map fun i => (leAt rec (32 + 4 * (layers + 1) + 16 * i) 8, leAt rec (40 + 4 * (layers + 1) + 16 * i) 8) }

/-- Bytes of a layer of a window. -/
def WindowDecl.layerBytes (w : WindowDecl) (l : Nat) : Nat :=
  sumNat (((w.regions.drop (w.lstart.getD l 0)).take (w.lstart.getD (l + 1) 0 - w.lstart.getD l 0)).map Prod.snd)

/-- Slot size: the largest layer's bytes, rounded up to 2 MiB (R226). -/
def WindowDecl.slot (w : WindowDecl) : Nat := roundUp (maxNat ((List.range w.layers).map w.layerBytes)) (2 ^ 21)

/-- A window record in range, for a buffer of `size` bytes (R226, R265). -/
def windowOk (rec : Bytes) (size nframes : Nat) : Bool :=
  let w := windowDecl rec
  decide (2 ≤ w.depth) && decide (w.depth ≤ 16) && decide (leAt rec 1 1 ≤ 1) && decide (1 ≤ w.layers) &&
  rec.length == 32 + 4 * (w.layers + 1) + 16 * w.regions.length && w.lstart.getD w.layers 0 == w.regions.length &&
  ((List.range w.layers).all fun l => decide (w.lstart.getD l 0 ≤ w.lstart.getD (l + 1) 0)) &&
  decide (w.frames ≠ 0) && decide (w.frames < 2 ^ nframes) && size == w.depth * w.slot

/-- A manifest entry in range (Table 9-6, R264, R338). -/
def entryOk (data e : Bytes) (nframes : Nat) : Bool :=
  let f := entryFlags e
  let size := leAt e 8 8
  let name := leAt e 24 8
  decide (1 ≤ leAt e 0 2) && decide (leAt e 0 2 ≤ 0xFFC) && decide (leAt e 2 2 < 2 ^ 11) && decide (64 ≤ size) && size % 64 == 0 &&
  f.legal name && (f.persist || f.share || name == 0) &&
  (if leAt e 4 4 = 0 then !f.window
   else decide (leAt e 16 8 + leAt e 4 4 ≤ data.length) &&
     (if f.window then windowOk (entryInit data e) size nframes else decide (leAt e 4 4 ≤ size)))

/-- The manifest entries. -/
def manifest (b : Bytes) : List Bytes := chunks 32 (leAt b 44 4) (sectionBytes b 5)

/-- Size of an allocation of a package by number (R262). -/
def packageSize (b : Bytes) (num : Nat) : Option Nat :=
  if num = 0xFFD then some (leAt b 48 4)
  else if num = 0xFFE then some (leAt b 52 4)
  else if num = 0xFFF then some (sectionBytes b 4).length
  else ((manifest b).find? fun e => leAt e 0 2 == num).map fun e => leAt e 8 8

/-- Bytes `[off, off + len)` of an address lie within their allocation of the package. -/
def packageRange (b : Bytes) (addr len : Nat) : Bool :=
  (packageSize b (addrAlloc addr)).elim false fun n => decide (addrOff addr + len ≤ n)

/-- A tensor descriptor of a package: in range, every element inside its allocation (R261). -/
def packageTensor (b td : Bytes) : Bool :=
  let t := Tensor.ofBytes td
  t.ok && packageRange b t.base t.extent

/-- A digest plan entry in range (Table 9-4). -/
def planOk (b e : Bytes) : Bool :=
  decide (leAt e 2 1 ≤ 63) && leAt e 3 1 == 0 && decide (leAt e 4 2 < leAt b 12 4) && leAt e 6 2 == 0 && leAt e 8 8 % 32 == 0 &&
  packageRange b (leAt e 8 8) 32 && addrAlloc (leAt e 8 8) != 0xFFF && decide (leAt e 16 24 < 2 ^ leAt b 8 2) && allZero (bytesAt e 40 8)

/-- The digest plan entries. -/
def planEntries (b : Bytes) : List Bytes := chunks 48 65536 (sectionBytes b 7)

/-- Names that an entry of the slice already has keep their contents: INITLEN must then be 0 and the size agree (R264). -/
def State.namesOk (s : State) (sl : Nat) (b : Bytes) : Bool :=
  (manifest b).all fun e =>
    leAt e 24 8 == 0 || (s.allocs.all fun a =>
      !(a.2.slice == sl && a.2.name == leAt e 24 8) || (leAt e 4 4 == 0 && a.2.size == leAt e 8 8))

/-- Check 6 of R259. -/
def State.consistFields (s : State) (sl : Nat) (b : Bytes) : Bool :=
  let nframes := leAt b 8 2
  let images := (splitImages (leAt b 10 2) (sectionBytes b 1)).getD []
  let data := sectionBytes b 6
  let man := manifest b
  let plan := planEntries b
  decide (1 ≤ nframes) && decide (nframes ≤ 192) && decide (1 ≤ leAt b 10 2) && decide (leAt b 10 2 ≤ nframes) &&
  decide (leAt b 12 4 ≤ 16384) && decide (2 ≤ leAt b 24 16) && (leAt b 40 2 == 0xFFFF || decide (leAt b 40 2 < nframes)) &&
  decide (leAt b 42 2 ≤ 60000) && decide (leAt b 44 4 ≤ 4092) && decide (leAt b 48 4 ≤ 2 ^ 20) && leAt b 48 4 % 64 == 0 &&
  decide (leAt b 52 4 ≤ 2 ^ 24) && leAt b 52 4 % 64 == 0 &&
  ((List.range images.length).all fun i => imageOk i (leAt b 12 4) (images.getD i [])) &&
  ((List.range nframes).all fun f => decide (leAt (sectionBytes b 2) (2 * f) 2 < leAt b 10 2)) &&
  ((chunks 64 (leAt b 12 4) (sectionBytes b 3)).all (packageTensor b)) &&
  (man.all fun e => entryOk data e nframes && man.countP (fun x => leAt x 0 2 == leAt e 0 2) == 1) && s.namesOk sl b &&
  plan.all fun e => planOk b e && plan.countP (fun x => leAt x 0 2 == leAt e 0 2) == 1

/-- Checks 1 to 6 of R259, in order. -/
def State.consistCheck (s : State) (sl : Nat) (b : Bytes) : Option Nat :=
  let geom := leAt b 6 1
  if !consistFormat b then some stCONSISTFORMAT
  else if !consistDigest b then some stCONSISTCORRUPT
  else if !s.consistSigned sl b then some stCONSISTUNSIGNED
  else if 2 < geom then some stLIMIT
  else if s.fld GLB_GRADE_GEOM < geom then some stGEOMUNAVAIL
  else if (s.sliceFrames sl).length < max (leAt b 8 2) (minFrames geom) then some stNOFRAMES
  else if !s.consistFields sl b then some stLIMIT
  else none

-- ## Placement at load (R339, R340)

/-- An allocation as it is placed: its tier, pages and flash, with its load contents. -/
def State.place (s : State) (sl consist num lframe name size : Nat) (f : AllocFlags) (tier : Nat) (pages : KMap Nat) (init : Bytes) :
    State × Nat :=
  let flash := s.placeFlash sl tier size pages
  let (s, id) := s.addAlloc
    { slice := sl, consist := consist, num := num, lframe := lframe, name := name, size := size, flags := f, tier := tier,
      pages := pages, hits := [], low := [], last := [], flash := flash, age := 0, users := if consist = 0 then [] else [consist],
      mem := memWrite [] 0 init }
  (s.writeFlash id 0 init.length, id)

/-- Place one entry of the manifest that is no LOCAL; none for BUFFER_SHORT. A PERSIST or SHARE name that exists is joined. -/
def State.placeEntry (s : State) (sl handle : Nat) (data e : Bytes) : Option (State × List Nat) :=
  let f := (entryFlags e).settle
  let size := leAt e 8 8
  let name := leAt e 24 8
  match if name = 0 then none else s.allocs.find? fun a => a.2.slice == sl && a.2.name == name with
  | some (id, a) => some (s.setAlloc id { a with users := a.users ++ [handle], age := 0 }, [id])
  | none =>
    let s := s.pressureHot sl f size
    (s.placeFlags sl f size).map fun p =>
      let (s, id) := s.place sl handle (leAt e 0 2) 0 name size f p.1 p.2 (if f.window then [] else entryInit data e)
      (s, [id])

/-- Place the instances of a LOCAL entry, one for each logical frame; `taken` is frame store already given away. -/
def State.placeLocals (s : State) (sl handle nframes taken : Nat) (data e : Bytes) : Option (State × List Nat × Nat) :=
  let f := { entryFlags e with hot := true }
  let size := leAt e 8 8
  let s := s.pressureLocal sl size taken nframes
  (s.placeLocal sl size taken nframes).map fun tier =>
    let (s, ids) := (List.range nframes).foldl (fun (acc : State × List Nat) k =>
      let (s, id) := acc.1.place sl handle (leAt e 0 2) k 0 size f tier [] (entryInit data e)
      (s, acc.2 ++ [id])) (s, [])
    (s, ids, if tier = 0 then taken + size else taken)

/-- Entries of the manifest in the order of R339. -/
def placeOrder (b : Bytes) : List Bytes :=
  let es := sortBy (fun x y => decide (leAt x 0 2 < leAt y 0 2)) (manifest b)
  let fl := fun e => entryFlags e
  (es.filter fun e => (fl e).window || (fl e).pin) ++ (es.filter fun e => (fl e).isLocal) ++
  es.filter fun e => !((fl e).window || (fl e).pin || (fl e).isLocal)

/-- Place every entry; the table from allocation number to instances. -/
def State.placeAll (sl handle nframes : Nat) (data : Bytes) :
    List Bytes → State → Nat → KMap (List Nat) → Option (State × KMap (List Nat))
  | [], s, _, m => some (s, m)
  | e :: es, s, taken, m =>
    if (entryFlags e).isLocal then
      match s.placeLocals sl handle nframes taken data e with
      | some (s, ids, taken) => State.placeAll sl handle nframes data es s taken (mapSet m (leAt e 0 2) ids)
      | none => none
    else
      match s.placeEntry sl handle data e with
      | some (s, ids) => State.placeAll sl handle nframes data es s taken (mapSet m (leAt e 0 2) ids)
      | none => none

/-- The flags under which allocations 0xFFD and 0xFFF are placed (R339). -/
def hotFlags : AllocFlags :=
  { hot := true, warm := false, cold := false, stream := false, persist := false, pin := false, share := false, repl := false,
    clear := false, isLocal := false, window := false }

/-- Place allocation 0xFFD or 0xFFF. -/
def State.placeFixed (s : State) (sl handle num size : Nat) (init : Bytes) (m : KMap (List Nat)) : Option (State × KMap (List Nat)) :=
  if size = 0 then some (s, m)
  else
    let s := s.pressureHot sl hotFlags size
    (s.placeFlags sl hotFlags size).map fun p =>
    let (s, id) := s.place sl handle num 0 0 size hotFlags p.1 p.2 init
    (s, mapSet m num [id])

/-- A queue declaration of an image header. -/
def queueDecls (h : Bytes) : List QueueDecl := (List.range 8).map fun q => ⟨leAt h (16 + 4 * q) 1, leAt h (18 + 4 * q) 2⟩

/-- A frame image as loaded. -/
def imageOf (x : Bytes) : Image :=
  { entry := leAt x 8 4, queues := queueDecls x, tdbind := (List.range 16).map fun d => leAt x (48 + 2 * d) 2, code := x.drop 128 }

/-- A digest plan entry as loaded. -/
def planOf (e : Bytes) : DigestEntry :=
  { layer := leAt e 0 2, slot := leAt e 2 1, td := leAt e 4 2, record := leAt e 8 8, frames := leAt e 16 24 }

/-- The consist that a checked package becomes, with its allocations. -/
def consistOf (sl : Nat) (b : Bytes) (allocs : KMap (List Nat)) : Consist :=
  let man := manifest b
  let data := sectionBytes b 6
  { slice := sl, geom := leAt b 6 1, nframes := leAt b 8 2, srkey := leAt b 16 8, tallykey := leAt b 24 16, pubframe := leAt b 40 2,
    bartimeout := leAt b 42 2, runtimeout := leAt b 56 4, parambytes := leAt b 48 4, resultbytes := leAt b 52 4,
    images := ((splitImages (leAt b 10 2) (sectionBytes b 1)).getD []).map imageOf,
    framemap := (List.range (leAt b 8 2)).map fun f => leAt (sectionBytes b 2) (2 * f) 2,
    tds := chunks 64 (leAt b 12 4) (sectionBytes b 3), digestPlan := (planEntries b).map planOf,
    windows := (man.filter fun e => (entryFlags e).window).foldl (fun (m : KMap WindowDecl) e =>
      mapSet m (leAt e 0 2) (windowDecl (entryInit data e))) [],
    allocs := allocs,
    locals := (man.filter fun e => (entryFlags e).isLocal).foldl (fun (m : KMap Bytes) e => mapSet m (leAt e 0 2) (entryInit data e)) [] }

/-- Load a package (R259): the status of the first check that fails, or the state with the consist and its handle. -/
def State.loadConsist (s : State) (sl : Nat) (b : Bytes) : Nat ⊕ (State × Nat) :=
  match s.consistCheck sl b with
  | some st => .inl st
  | none =>
    let handle := s.nextId
    let s := { s with nextId := s.nextId + 1 }
    let codeMax := maxNat (((splitImages (leAt b 10 2) (sectionBytes b 1)).getD []).map fun x => leAt x 4 4)
    let placed := do
      let (s, m) ← State.placeAll sl handle (leAt b 8 2) (sectionBytes b 6) (placeOrder b) s codeMax []
      let (s, m) ← s.placeFixed sl handle 0xFFD (leAt b 48 4) [] m
      s.placeFixed sl handle 0xFFF (sectionBytes b 4).length (sectionBytes b 4) m
    match placed with
    | none => .inl stBUFFERSHORT
    | some (s, m) => .inr ({ s with consists := mapSet s.consists handle (consistOf sl b m) }, handle)

-- ## LOAD (R463)

/-- A byte range as the union of written ranges covers it. -/
def covered (written : List (Nat × Nat)) (total : Nat) : Bool :=
  let ws := sortBy (fun (a b : Nat × Nat) => decide (a.1 < b.1)) written
  decide (total ≤ ws.foldl (fun reach w => if w.1 ≤ reach then max reach w.2 else reach) 0)

/-- LOAD, PHASE 0: a part of a consist enters the ring's staging buffer. -/
def State.loadPart (s : State) (c : Cmd) (total off : Nat) : State :=
  let p := s.payload c
  let x := s.ring c.ring
  match x.staging with
  | some b =>
    if b.total ≠ total ∨ total < off + c.paylen then s.refuse c stLIMIT
    else (s.setRing c.ring { x with staging := some { b with mem := memWrite b.mem off p, written := b.written ++ [(off, off + c.paylen)] } }).finish c stOK
  | none =>
    if total < off + c.paylen then s.refuse c stLIMIT
    else if s.free c.slice 2 < total then (s.count MEM_BUFSHORT_COUNT).refuse c stBUFFERSHORT
    else ((s.charge (.staging c.ring) c.slice 2 total).setRing c.ring
      { x with staging := some ⟨total, memWrite [] off p, [(off, off + c.paylen)]⟩ }).finish c stOK

/-- The staging buffer of a ring goes. -/
def State.dropStaging (s : State) (r : Nat) : State :=
  (s.setRing r { s.ring r with staging := none }).discharge (.staging r)

/-- LOAD, PHASE 1: the staged consist is checked, placed and named by a handle. -/
def State.loadCheck (s : State) (c : Cmd) : State :=
  match (s.ring c.ring).staging with
  | none => (s.count CMP_LOADREF_COUNT).refuse c stCONSISTFORMAT
  | some b =>
    if !covered b.written b.total then (s.count CMP_LOADREF_COUNT).refuse c stCONSISTFORMAT
    else
      let s := s.dropStaging c.ring
      match s.loadConsist c.slice (memRead b.mem 0 b.total) with
      | .inl st =>
        let s := if st = stBUFFERSHORT then s.count MEM_BUFSHORT_COUNT else s
        (s.count CMP_LOADREF_COUNT).refuse c st
      | .inr (s, h) => s.finish { c with handle := h } stOK

/-- LOAD (R463). -/
def State.loadRun (s : State) (r seq : Nat) : State :=
  match s.running r seq 0x0030 with
  | none => s
  | some c =>
    if !c.unusedZero [(32, 4), (40, 8), (48, 1)] ∨ 1 < c.par 48 1 then s.refuse c stLIMIT
    else if c.par 48 1 = 0 then s.loadPart c (c.par 32 4) (c.par 40 8)
    else if c.paylen ≠ 0 then s.refuse c stLIMIT
    else s.loadCheck c

-- ## UNLOAD and named allocations (R346, R463, R465)

/-- Unmap every window page of an allocation (R465). -/
def State.unmapAlloc (s : State) (id : Nat) : State :=
  { s with jobs := mapMap s.jobs fun _ j => { j with entries := mapFilter j.entries fun _ e => e.alloc != id } }

/-- A consist leaves an allocation: it is freed unless PERSIST keeps it or another consist names it (R346). -/
def State.leaveAlloc (s : State) (handle id : Nat) : State :=
  match s.alloc id with
  | none => s
  | some a =>
    let users := a.users.filter (· != handle)
    let s := s.unmapAlloc id
    if users.isEmpty && !a.flags.persist then (if a.flags.clear then s.clearAlloc a 4 else s).freeAlloc id
    else s.setAlloc id { a with users := users, consist := if a.consist = handle then 0 else a.consist }

/-- Every allocation of a consist is left and the consist goes. -/
def State.unloadConsist (s : State) (handle : Nat) : State :=
  match mapGet s.consists handle with
  | none => s
  | some k =>
    let s := (mapVals k.allocs).foldl (fun (s : State) ids => ids.foldl (fun (s : State) id => s.leaveAlloc handle id) s) s
    { s with consists := mapErase s.consists handle }

/-- A run of the consist is in progress or waits. -/
def State.consistBusy (s : State) (handle : Nat) : Bool := s.runs.any fun e => e.2.handle == handle

/-- UNLOAD (R259). -/
def State.unloadRun (s : State) (r seq : Nat) : State :=
  match s.running r seq 0x0032 with
  | none => s
  | some c =>
    let h := c.par 32 8
    if !c.unusedZero [(32, 8)] then s.refuse c stLIMIT
    else if (mapGet s.consists h).elim true fun k => k.slice != c.slice then s.refuse c stNOCONSIST
    else if s.consistBusy h then s.refuse c stBUSY
    else (s.unloadConsist h).finish c stOK

/-- The allocation of a slice that a NAME names. -/
def State.named (s : State) (sl name : Nat) : Option (Nat × Alloc) :=
  if name = 0 then none else s.allocs.find? fun a => a.2.slice == sl && a.2.name == name

end Sys2Proof.Machine
end

