-- ==== Sys2Proof/Machine/Runs.lean ====
section
/-! DEFINITION. Runs (chapter 9): claiming and starting frames, barriers, halts and fault records, restart, completion, and what the
check failures of a frame do to it (R266 to R290, R505 to R514). -/

namespace Sys2Proof.Machine

-- ## Fault causes (Tables 6-9, 7-6, 9-15, 10-13, 11-9)

abbrev fcSCALEBAD : Nat := 0x0201
abbrev fcCARRYBAD : Nat := 0x0202
abbrev fcNANTRAP : Nat := 0x0203
abbrev fcARITHFMT : Nat := 0x0204
abbrev fcBANKMODE : Nat := 0x0205
abbrev fcSPARSEBAD : Nat := 0x0206
abbrev fcWINDOWGONE : Nat := 0x0207
abbrev fcTALLYSTATE : Nat := 0x0208
abbrev fcILLEGAL : Nat := 0x0210
abbrev fcPCRANGE : Nat := 0x0211
abbrev fcADDRRANGE : Nat := 0x0212
abbrev fcALIGN : Nat := 0x0213
abbrev fcQUEUEBAD : Nat := 0x0214
abbrev fcTDBAD : Nat := 0x0215
abbrev fcBARBROKEN : Nat := 0x0216
abbrev fcBARTIMEOUT : Nat := 0x0217
abbrev fcRUNTIMEOUT : Nat := 0x0218
abbrev fcHALTPEER : Nat := 0x0219
abbrev fcHALTCODE : Nat := 0x021A
abbrev fcPUBDENIED : Nat := 0x021B
abbrev fcREMOTESTORE : Nat := 0x0221
abbrev fcMEMUNCORR : Nat := 0x0301

-- ## Runs and frames

/-- A run by its id. -/
def State.run (s : State) (id : Nat) : Option Run := mapGet s.runs id

/-- The state with a run replaced. -/
def State.setRun (s : State) (id : Nat) (r : Run) : State := { s with runs := mapSet s.runs id r }

/-- The frame that a run has claimed as physical frame `f`. -/
def State.frame (s : State) (f : Nat) : Option Frame := mapGet s.frames f

/-- The state with a claimed frame replaced. -/
def State.setFrame (s : State) (f : Nat) (x : Frame) : State := { s with frames := mapSet s.frames f x }

/-- The consist of a run. -/
def State.runConsist (s : State) (r : Run) : Option Consist := mapGet s.consists r.handle

/-- The image that a frame runs. -/
def Consist.imageAt (k : Consist) (lframe : Nat) : Image :=
  k.images.getD (k.framemap.getD lframe 0) { entry := 0, queues := [], tdbind := [], code := [] }

/-- A frame of the run has not halted. -/
def Frame.live (x : Frame) : Bool := x.wait != .halted

/-- The physical frames of a run that have not halted. -/
def State.liveFrames (s : State) (r : Run) : List Nat := r.phys.filter fun f => (s.frame f).elim false Frame.live

/-- The job of a run's requests. DESIGN CHOICE (log entry 108): the lowest job bound to the run's slice, 0 where there is none. -/
def State.sliceJob (s : State) (sl : Nat) : Nat := ((s.jobs.find? fun j => j.2.slice == sl).map Prod.fst).getD 0

-- ## Start (R266, R267)

/-- Frames of a slice that a new run can claim: in service, unclaimed, not waiting for retirement (R266, R505).
DESIGN CHOICE: log entry 108. -/
def State.claimable (s : State) (sl : Nat) : List Nat :=
  (s.sliceFrames sl).filter fun f => (s.frame f).isNone && (mapGet s.stm.pendingFrames f).isNone

/-- A frame as Table 9-8 leaves it. -/
def Frame.start (run lframe : Nat) (k : Consist) : Frame :=
  let img := k.imageAt lframe
  let addr := fun (num : Nat) => BitVec.ofNat 64 (num * 2 ^ 52)
  let tds := (List.range 16).filterMap fun d =>
    let n := img.tdbind.getD d 0xFFFF
    if n = 0xFFFF then none else some (d, k.tds.getD n [])
  let queues := (List.range 8).filterMap fun q =>
    let d := img.queues.getD q ⟨0, 0⟩
    if d.kind = 0 then none else some (q, { kind := d.kind, depth := d.depth, calls := [], recs := [] : Queue })
  { run := run, lframe := lframe, pc := img.entry, sreg := [(1, BitVec.ofNat 64 lframe), (2, BitVec.ofNat 64 k.nframes)], preg := 1,
    vreg := [], areg := [(0, addr 0xFFD), (1, addr 0xFFE), (2, addr 0xFFF)], tds := tds, queues := queues, banks := [], mma := none,
    wait := .none, barPassed := false, bars0 := 0, bars1 := 0, stores := [], failed := none, peerHalt := false, counted := false,
    cause := 0, haltCode := 0 }

/-- Set the LOCAL instances of a consist to their load contents (R264). -/
def State.resetLocals (s : State) (k : Consist) : State :=
  k.locals.foldl (fun (s : State) (e : Nat × Bytes) =>
    (mapGetD k.allocs e.1 []).foldl (fun (s : State) id =>
      { s with allocs := mapUpdate s.allocs id fun a => { a with mem := memWrite [] 0 e.2 },
               zruns := s.zruns.filter fun z => z.1 != id }) s) s

/-- Control-window offset of a ring command's outputs. -/
def State.outBase (s : State) (c : Cmd) : Nat := s.dataArea c.ring + c.par 16 4 + 64

/-- Steps 1 to 6 of R267 on the frames `phys`. -/
def State.beginRun (s : State) (id : Nat) (r : Run) (k : Consist) (c : Cmd) (phys : List Nat) : State :=
  let s := (mapGetD k.allocs 0xFFD []).foldl (fun (s : State) a =>
    { s with allocs := mapUpdate s.allocs a fun x => { x with mem := memWrite [] 0 ((s.payload c).take k.parambytes) } }) s
  let s := { s with ringMem := memZero s.ringMem (s.outBase c) k.resultbytes }
  let s := s.resetLocals k
  let s := { s with stm := { s.stm with canaries := s.stm.canaries.filter fun x => !(unitType x.unit == 1 && phys.contains (unitIndex x.unit)) } }
  let s := (List.range phys.length).foldl (fun (s : State) i => s.setFrame (phys.getD i 0) (Frame.start id i k)) s
  s.setRun id { r with phys := phys, tallies := [], windows := k.windows.map fun w => (w.1, { decls := [], last := [], fetched := [], bitmaps := [] }),
                       barFirst := [], barSent := 0, halts := [], startedAt := s.clock.mono, restartable := true, quarantined := false, wrong := false,
                       shadows := [] }

/-- A run of the slice waits before run `id` (R266). -/
def State.waitsBefore (s : State) (sl id : Nat) : Bool := s.runs.any fun e => e.2.slice == sl && e.2.phys.isEmpty && decide (e.1 < id)

/-- The run that a command asked for. -/
def State.runOf (s : State) (ring seq : Nat) : Option (Nat × Run) := s.runs.find? fun e => e.2.ring == ring && e.2.seq == seq

/-- In-service frames of the slice no longer suffice for a run of the consist (R507). -/
def State.tooFew (s : State) (sl : Nat) (k : Consist) : Bool :=
  decide ((s.sliceFrames sl).length < max k.nframes (minFrames k.geom))

/-- RUN (R266, R463): checked, then a run that waits for its frames. -/
def State.runCmd (s : State) (r seq : Nat) : State :=
  match s.running r seq 0x0031 with
  | none => s
  | some c =>
    if (s.runOf r seq).isSome then s
    else if !c.unusedZero [(32, 8)] then s.refuse c stLIMIT
    else
      let h := c.par 32 8
      match mapGet s.consists h with
      | none => s.refuse c stNOCONSIST
      | some k =>
        if k.slice ≠ c.slice then s.refuse c stNOCONSIST
        else if c.paylen ≠ k.parambytes then s.refuse c stLIMIT
        else if c.room < k.resultbytes + 64 * k.nframes then (s.count MEM_BUFSHORT_COUNT).refuse c stBUFFERSHORT
        else if s.consistBusy h then s.refuse c stBUSY
        else if s.tooFew c.slice k then s.refuse c stRETIRED
        else
          { s with nextId := s.nextId + 1 }.setRun s.nextId
            { ring := r, seq := seq, slice := c.slice, handle := h, phys := [], job := s.sliceJob c.slice, tallies := [], windows := [],
              startedAt := s.clock.mono, barFirst := [], barSent := 0, restartable := true,
              restarted := false, quarantined := false, mismatch := false, timedOut := false, wrong := false, shadows := [], halts := [] }

/-- RUN_START: a waiting run whose turn it is claims its frames, all at once, and starts them (R266, R267). DESIGN CHOICE (log entry 108): the
lowest-numbered claimable frames. -/
def State.runStart (s : State) (r seq : Nat) : State :=
  match s.runOf r seq, s.cmd r seq with
  | some (id, x), some c =>
    match s.runConsist x with
    | some k =>
      let fs := s.claimable x.slice
      if x.phys.isEmpty && !s.waitsBefore x.slice id && decide (k.nframes ≤ fs.length) && !s.tooFew x.slice k then
        s.beginRun id x k c (fs.take k.nframes)
      else s
    | none => s
  | _, _ => s

-- ## Halts (R287 to R289)

/-- Count a halt by its cause (Tables 6-10, 7-7). -/
def State.countHalt (s : State) (cause : Nat) : State :=
  if cause = fcSCALEBAD then s.count CMP_ARITHFLT_SCALEBAD
  else if cause = fcCARRYBAD then s.count CMP_ARITHFLT_CARRYBAD
  else if cause = fcNANTRAP then s.count CMP_ARITHFLT_NANTRAP
  else if cause = fcARITHFMT then s.count CMP_ARITHFLT_FMT
  else if cause = fcBANKMODE then s.count CMP_FRAMEFLT_BANKMODE
  else if cause = fcSPARSEBAD then s.count CMP_FRAMEFLT_SPARSE
  else if cause = fcWINDOWGONE then s.count CMP_FRAMEFLT_WINDOW
  else if cause = fcTALLYSTATE then s.count CMP_FRAMEFLT_TALLY
  else s

/-- The bundle at a bundle index of an image, as 128 bits. -/
def Image.bundle (i : Image) (pc : Nat) : Nat := leAt i.code (16 * pc) 16

/-- The fault record of Table 9-13. -/
def State.haltRecord (s : State) (f : Nat) (x : Frame) (slot cause code addr : Nat) : Bytes :=
  let word := match (s.run x.run).bind s.runConsist with
    | some k => if 16 * x.pc < (k.imageAt x.lframe).code.length then (k.imageAt x.lframe).bundle x.pc else 0
    | none => 0
  leBytes 2 cause ++ leBytes 2 x.lframe ++ leBytes 1 f ++ leBytes 1 slot ++ leBytes 2 code ++ leBytes 4 x.pc ++ List.replicate 4 0 ++
  leBytes 16 word ++ leBytes 8 addr ++ leBytes 8 s.now ++ leBytes 2 (ofSigned (s.unitTemp (unitId 1 f)) 16) ++
  leBytes 2 (s.fld PWR_RAIL_MV (f / 96)) ++ List.replicate 12 0

/-- End frame `f` with a cause or a code, writing its record (R289). -/
def State.endFrame (s : State) (f slot cause code addr : Nat) : State :=
  match s.frame f with
  | none => s
  | some x =>
    if x.live then
      let rec_ := s.haltRecord f x slot cause code addr
      let s := if cause ≠ 0 ∧ cause ≠ fcHALTPEER then
          s.setReg .cmpLastfault 0 0 (BitVec.ofNat 64 (cause + f * 2 ^ 16 + s.now % 2 ^ 32 * 2 ^ 32))
        else s
      let s := { s.countHalt cause with runs := mapUpdate s.runs x.run fun r => { r with halts := mapSet r.halts x.lframe rec_ } }
      s.setFrame f { x with wait := .halted, mma := none, cause := cause, haltCode := code }
    else s

/-- The other frames of the run halt at their next bundle (R288). DEDUCED: log entry 109. -/
def State.haltPeers (s : State) (run : Nat) : State :=
  { s with frames := mapMap s.frames fun _ x => if x.run = run ∧ x.live = true then { x with peerHalt := true } else x }

/-- A frame halts with a fault cause; its peers follow (R288). -/
def State.faultFrame (s : State) (f slot cause addr : Nat) : State :=
  match s.frame f with
  | none => s
  | some x => (s.endFrame f slot cause 0 addr).haltPeers x.run

/-- Frames of a run that wait at a barrier that frame `f`, halted by HALT, will not reach (R285). -/
def State.stranded (s : State) (f : Nat) : List Nat :=
  match s.frame f with
  | none => []
  | some h => (s.frames.filter fun (e : Nat × Frame) => e.2.run == h.run &&
      (match e.2.wait with
       | .barrier g n => decide ((if g = 0 then h.bars0 else h.bars1) < n)
       | _ => false)).map Prod.fst

/-- A frame ends by HALT with a code; the members it strands halt with BAR_BROKEN (R285, R309). -/
def State.haltFrame (s : State) (f code : Nat) : State :=
  let s := s.endFrame f 0 0 code 0
  (s.stranded f).foldl (fun (s : State) g => s.faultFrame g 0 fcBARBROKEN 0) s

/-- PEER_HALT: the frames of a run that a peer's fault has marked halt with HALT_PEER; their calls are cancelled (R288). -/
def State.peerHalt (s : State) (run dt : Nat) : State :=
  let s := s.tick dt
  match s.run run with
  | none => s
  | some r =>
    r.phys.foldl (fun (s : State) f =>
      match s.frame f with
      | some x => if x.peerHalt && x.live then { s.endFrame f 0xFF fcHALTPEER 0 0 with calls := mapFilter s.calls fun _ c => c.frame != f } else s
      | none => s) s

/-- Every frame of a run that has not halted halts with a cause (R285, R290). -/
def State.haltAll (s : State) (run cause : Nat) (which : Frame → Bool) : State :=
  match s.run run with
  | none => s
  | some r =>
    r.phys.foldl (fun (s : State) f =>
      match s.frame f with
      | some x => if x.live && which x then s.faultFrame f 0xFF cause 0 else s
      | none => s) s

/-- RUN_TIMEOUT: RUNTIMEOUT has passed since the run's start (R290). -/
def State.runTimeout (s : State) (run dt : Nat) : State :=
  let s := s.tick dt
  match s.run run with
  | none => s
  | some r =>
    match s.runConsist r with
    | some k =>
      if k.runtimeout ≠ 0 ∧ r.phys ≠ [] ∧ r.startedAt + k.runtimeout * 10 ^ 6 ≤ s.clock.mono then
        (s.setRun run { r with timedOut := true }).haltAll run fcRUNTIMEOUT fun _ => true
      else s
    | none => s

-- ## Barriers (R284 to R286)

/-- A frame waits at a barrier of group `g`. -/
def Frame.atBarrier (x : Frame) (g : Nat) : Bool := match x.wait with | .barrier h _ => h == g | _ => false

/-- Release the frames that wait at barrier `n` of group `g`, counting the barrier. -/
def State.releaseBarrier (s : State) (run g n : Nat) : State :=
  let s := s.count CMP_BARS_COUNT
  { s with frames := mapMap s.frames (fun _ x => if x.run = run ∧ x.wait = .barrier g n then { x with wait := .none, barPassed := true } else x)
           runs := mapUpdate s.runs run fun r => { r with barFirst := mapErase r.barFirst g } }

/-- Frame `f` arrives at its next barrier of group `g`; a group 0 barrier completes with its last member (R284, R286). -/
def State.arriveBarrier (s : State) (f g : Nat) : State :=
  match s.frame f with
  | none => s
  | some x =>
    let n := (if g = 0 then x.bars0 else x.bars1) + 1
    let x := if g = 0 then { x with bars0 := n } else { x with bars1 := n }
    let s := s.setFrame f { x with wait := .barrier g n }
    let s := { s with runs := mapUpdate s.runs x.run fun r =>
      if (mapGet r.barFirst g).isSome then r else { r with barFirst := mapSet r.barFirst g s.clock.mono } }
    let members := (s.run x.run).elim [] fun r => r.phys
    let all := members.all fun m => (s.frame m).elim false fun y => decide (n ≤ (if g = 0 then y.bars0 else y.bars1))
    let broken := members.any fun m => (s.frame m).elim false fun y => !y.live && decide ((if g = 0 then y.bars0 else y.bars1) < n)
    if broken then s.haltAll x.run fcBARBROKEN fun y => y.atBarrier g
    else if all && g == 0 then (s.count CMP_BARLAST_COUNT 1 f).releaseBarrier x.run 0 n
    else s

/-- The barrier of group 1 that every frame of a run on this device has reached and that has not been sent to the fabric. -/
def State.readyToJoin (s : State) (run : Nat) : Option Nat :=
  match s.run run with
  | none => none
  | some r =>
    let n := r.barSent + 1
    if !r.phys.isEmpty && r.phys.all fun f => (s.frame f).elim false fun x => decide (x.wait = .barrier 1 n) then some n else none

/-- BAR_TIMEOUT: BARTIMEOUT has passed since the first arrival at a barrier of a run (R285). -/
def State.barTimeout (s : State) (run dt : Nat) : State :=
  let s := s.tick dt
  match s.run run with
  | none => s
  | some r =>
    let ms := (s.runConsist r).elim 0 fun k => k.bartimeout
    let late := fun (g : Nat) => (mapGet r.barFirst g).elim false fun t => decide (ms ≠ 0) && decide (t + ms * 10 ^ 6 ≤ s.clock.mono)
    if late 0 || late 1 then s.haltAll run fcBARTIMEOUT fun y => (late 0 && y.atBarrier 0) || (late 1 && y.atBarrier 1) else s

-- ## Check failures of frames (R505, R508, R514)

/-- A frame is quarantined (R514): retired at once, its run halted (R508). -/
def State.quarantine (s : State) (f source pattern : Nat) : State :=
  let s := s.retireUnit (unitId 1 f) .quarantine source pattern
  let s := { s with stm := { s.stm with pendingFrames := mapErase s.stm.pendingFrames f } }
  match s.frame f with
  | none => s
  | some x =>
    let s := { s with runs := mapUpdate s.runs x.run fun r => { r with quarantined := true, mismatch := r.mismatch || r.restarted || !r.restartable } }
    s.faultFrame f 0xFF fcHALTPEER 0

/-- The rule of R514 asks for quarantine: a cell with 2 events, or 4 in the frame's cells. -/
def State.cellsBad (s : State) (f : Nat) : Bool :=
  let es := s.cellEvents f
  decide (4 ≤ es.length) || es.any fun e => decide (2 ≤ es.countP fun o => o.bin == e.bin && o.cls == e.cls)

/-- A CHECK event charged to a frame (R513, R514): its cell, its record, and the quarantine the cells ask for. -/
def State.checkEvent (s : State) (f source pattern : Nat) (slice : Nat := 0xFF) : State :=
  let t := s.unitTemp (unitId 1 f)
  let ev : CellEvent := ⟨tempBin t, pattern / 4096 % 16, s.clock.mono⟩
  let s := { s with stm := { s.stm with
      cells := mapSet s.stm.cells f (s.cellEvents f ++ [ev]),
      lastChecks := mapSet s.stm.lastChecks f ⟨pattern, t, s.fld PWR_RAIL_MV (f / 96)⟩ } }
  let s := s.report (unitId 1 f) .check source pattern slice
  if s.cellsBad f then s.quarantine f source pattern else s

/-- FRAME_QUARANTINE: the Stationmaster takes a frame out of service whose cells ask for it (R514). DEDUCED: log entry 109. -/
def State.frameQuarantine (s : State) (f : Nat) : State :=
  if s.cellsBad f && s.frameInService f then s.quarantine f 2 0 else s

/-- `k` residue disagreements of one slab or product on frame `f`: those that a recomputation clears are CHECK events, the fourth
quarantines the frame (R509, R510). -/
def State.residue (s : State) (f k pattern : Nat) : State :=
  let slice := ((s.frame f).bind fun x => s.run x.run).elim 0xFF fun r => r.slice
  let s := s.count FLT_CHECK_RESIDUE k
  if k ≤ 3 then (List.range k).foldl (fun (s : State) _ => s.checkEvent f 2 pattern slice) s
  else (s.count FLT_CHECK_UNRESOLVED).quarantine f 2 pattern

/-- PENDING_RETIRE: a frame whose retirement waited leaves service once its run has ended (R505). -/
def State.pendingRetire (s : State) (f : Nat) : State :=
  match mapGet s.stm.pendingFrames f with
  | some source =>
    if (s.frame f).isNone then
      { s with stm := { s.stm with pendingFrames := mapErase s.stm.pendingFrames f } }.retireUnit (unitId 1 f) .permanent source
    else s
  | none => s

-- ## The end of a run (R290, R507, R508)

/-- Release the frames of a run and cancel its calls. -/
def State.releaseFrames (s : State) (id : Nat) : State :=
  { s with frames := mapFilter s.frames (fun _ x => x.run != id), calls := mapFilter s.calls fun _ c => c.run != id }

/-- A restart is due (R508). DEDUCED: log entry 109. -/
def Run.restartDue (r : Run) : Bool := (r.quarantined || r.wrong) && r.restartable && !r.restarted

/-- RUN_RESTART: a restartable run that lost a frame to quarantine, or whose result is wrong, claims frames anew and repeats
(R508, R512). DEDUCED: log entry 109. -/
def State.runRestart (s : State) (id : Nat) : State :=
  match s.run id with
  | none => s
  | some r =>
    match s.runConsist r, s.cmd r.ring r.seq with
    | some k, some c =>
      let s' := s.releaseFrames id
      let fs := s'.claimable r.slice
      if r.restartDue && !s.tooFew r.slice k && decide (k.nframes ≤ fs.length) then
        (s'.count FLT_RESTART_RESTARTS).beginRun id { r with restarted := true, timedOut := false, mismatch := false } k c (fs.take k.nframes)
      else s
    | _, _ => s

/-- The status that R290 gives a run whose frames have all halted. -/
def State.runStatus (s : State) (r : Run) : Nat :=
  let recs := (List.range r.phys.length).map fun i => mapGetD r.halts i []
  let codes := recs.map fun b => leAt b 6 2
  if s.fenced then stFENCED
  else if r.mismatch || ((r.quarantined || r.wrong) && !r.restartDue) then stMISMATCH
  else if r.timedOut || recs.any fun b => leAt b 0 2 != 0 then stFAULTPROG
  else (codes.find? fun c => c != 0).getD stOK

/-- Result window and fault area of a run (R463). -/
def State.runOutputs (s : State) (r : Run) (k : Consist) (c : Cmd) : Bytes :=
  s.ringRead (s.outBase c) k.resultbytes ++ (List.range k.nframes).flatMap fun i => bytesAt (mapGetD r.halts i []) 0 64

/-- End a run with a status: its command finishes, its frames are free. -/
def State.endRun (s : State) (id status : Nat) : State :=
  match s.run id with
  | none => s
  | some r =>
    let s := (s.releaseFrames id).count CMP_RUNS_COUNT
    let s := if status = stFAULTPROG then s.count CMP_RUNFAULT_COUNT else s
    let s := if status = stMISMATCH ∧ r.quarantined = true then s.count FLT_RESTART_NOTRESTARTABLE else s
    let cs := s.sliceCounts r.slice
    let cs := if status = stFAULTPROG then { cs with faultProg := cs.faultProg + 1 } else if status = stMISMATCH then { cs with mismatch := cs.mismatch + 1 } else cs
    let s := { s with counts := mapSet s.counts r.slice cs, runs := mapErase s.runs id }
    match s.cmd r.ring r.seq, mapGet s.consists r.handle with
    | some c, some k => s.finish c status (s.runOutputs r k c)
    | some c, none => s.finish c status
    | none, _ => s

/-- RUN_COMPLETE: every frame of a run has halted (R290), its shadow comparisons are settled (R511), its stores have been acknowledged,
and no restart is due. -/
def State.runComplete (s : State) (id : Nat) : State :=
  match s.run id with
  | none => s
  | some r =>
    if r.phys ≠ [] ∧ s.liveFrames r = [] ∧ r.restartDue = false ∧ r.shadows = [] ∧ s.flashPending r.slice = false then s.endRun id (s.runStatus r)
    else s

/-- RUN_RETIRED: the slice's in-service frames no longer suffice for a waiting run, or for the restart of one (R507). -/
def State.runRetired (s : State) (id : Nat) : State :=
  match s.run id with
  | none => s
  | some r =>
    match s.runConsist r with
    | some k => if s.tooFew r.slice k && (r.phys.isEmpty || r.restartDue) then s.endRun id stRETIRED else s
    | none => s

end Sys2Proof.Machine
end

