-- ==== Sys2Proof/Machine/Boot.lean ====
section
/-! DEFINITION. Start-up (chapter 16): the boot image, the device record, crossing alignment, training, the canaries of step 8, the
rebuild of the lanes and READY. -/

namespace Sys2Proof.Machine

/-- Codes of Table 16-8, KIND. -/
def causeCode : ResetCause → Nat
  | .powerOn => 1 | .resetN => 2 | .request => 3 | .thermtrip => 4 | .brownout => 5 | .watchdog => 6

/-- The BOOT entry of the log (Table 19-3), appended when a start-up ends. DESIGN CHOICE: log entry 14. -/
def State.logBoot (s : State) : State :=
  s.logAppend ltBoot (leBytes 4 (s.fld STM_STATE_VERSION) ++ leBytes 1 (s.fld STM_STATE_SLOT) ++
    leBytes 1 (s.fld GLB_RESETCAUSE_KIND) ++ leBytes 1 s.boot.highPhase ++ [0] ++ leBytes 4 (s.fld GLB_RESETCAUSE_READYMS) ++
    leBytes 2 (s.fld GLB_BOOT_FAILCODE))

/-- Start-up ends FAILED with a code of Table 16-7 (R473). DESIGN CHOICE: log entry 14. -/
def State.failBoot (s : State) (code : Nat) : State := (s.fail code).logBoot

-- ## Steps 1 to 4 of Table 16-1

/-- The image in a slot of management flash. -/
def MgmtFlash.image (nv : MgmtFlash) (slot : Nat) : FwSlot := if slot = 0 then nv.slotA else nv.slotB

/-- The boot ROM accepts an image (R474). -/
def MgmtFlash.accepts (nv : MgmtFlash) (slot : Nat) : Bool :=
  let x := nv.image slot
  x.present && x.measOk && x.sigOk && decide (nv.rollback ≤ x.version)

/-- The slot that the boot ROM starts: the active one, else the other (R474). -/
def MgmtFlash.bootSlot (nv : MgmtFlash) : Option Nat :=
  if nv.accepts nv.activeSlot then some nv.activeSlot
  else if nv.accepts (1 - nv.activeSlot) then some (1 - nv.activeSlot)
  else none

/-- GLB_GRADE can report what the record names (Table 0-2). -/
def DeviceRecord.reportable (r : DeviceRecord) : Bool :=
  [1, 2, 3].contains r.variant && [1, 2].contains r.step && [(192, 2), (176, 1), (160, 0)].contains (r.frames, r.geom)

/-- The Stationmaster takes up what management flash keeps (R501, R563, R468): the log's newest entry, the windows and the
cells, the marks of the counters. DESIGN CHOICE: log entry 21. -/
def State.restoreStationmaster (s : State) : State :=
  let head := maxNat (mapKeys s.nv.log)
  let faults := (s.nv.log.filter fun e => leAt e.2 4 2 == ltFault).map Prod.fst
  let s := { s with stm := { s.stm with
    logHead := head, logTail := (s.nv.log.head?.map Prod.fst).getD 0
    chain := if head = 0 then List.replicate 32 0 else bytesAt (mapGetD s.nv.log head []) 80 32
    windows := s.nv.windows, cells := s.nv.cells, lastFaultSeq := maxNat faults
    jd0Up := !s.retired (unitId 13 0), jd1Up := !s.retired (unitId 13 1) }, nv := { s.nv with attCtr := s.nv.attMark } }
  let s := [0, 1, 2].foldl (fun (s : State) d => s.setFld CMD_CRITCTR_LAST (s.nv.marks.getD d 0) d) s
  (s.setFld STM_STATE_ACTIVE (if s.stm.jd0Up then 0 else 1)).setFld STM_STATE_STANDBY (if s.stm.jd0Up && s.stm.jd1Up && s.nv.dkWrap then 1 else 0)

/-- A start in trial is counted; the third one leads to a revert (R570). DESIGN CHOICE: log entry 21. -/
def State.trialStart (s : State) : State :=
  match s.nv.trial with
  | none => s
  | some t =>
    let n := min (t.starts + 1) 3
    let s := { s with nv := { s.nv with trial := some { t with starts := n } } }.setFld STM_TRIAL_STARTS n
    if n = 3 then { s with stm := { s.stm with act := { stage := .standbyRestart, cmd := none, mode := 2, slot := t.prevSlot } } } else s

/-- What the last run left for this start-up to log: a thermal trip (R559), clears that a loss of power cut
short (R539), and a failed unwrap of JD1's device key (R542; DESIGN CHOICE (log entry 41): as a FAULT entry of the Stationmaster of JD1).
DESIGN CHOICE: log entries 19, 20. -/
def State.logLeftovers (s : State) : State :=
  let s := match s.nv.tripToLog with
    | some (d, t, mv) =>
      s.logAppend ltPower (leBytes 1 3 ++ leBytes 1 (if d < 72 then d / 36 else 0) ++ leBytes 2 mv ++ leBytes 2 (ofSigned t 16) ++ leBytes 1 d)
    | none => s
  let s := if s.nv.dkWrap then s else s.faultRecord (unitId 13 1) .permanent 8
  let s := s.nv.clearing.foldl (fun (s : State) (c : Nat × Nat × Nat × Nat) => s.clearRecord s.now c.1 c.2.1 c.2.2.1 2 c.2.2.2 0 0) s
  { s with nv := { s.nv with tripToLog := none, clearing := [] } }

/-- Step 3 of Table 16-1: the fields that the signed record gives (R5, R475, R560). -/
def State.loadRecord (s : State) : State :=
  let r := s.nv.record
  let s := (s.setFld GLB_GRADE_VARIANT r.variant).setFld GLB_GRADE_FRAMES r.frames
  let s := (s.setFld GLB_GRADE_STEP r.step).setFld GLB_GRADE_GEOM r.geom
  let s := (s.setFld GLB_GRADE_JDIES (if r.variant = 2 then 2 else 4)).setFld GLB_ID_SERIAL r.serial.toNat
  (s.setFld PWR_ENVELOPE_ENV (if r.variant = 3 then 450 else 600)).setFld PWR_ENVELOPE_RESERVE (if r.variant = 3 then 36 else 48)

/-- Step 4 of Table 16-1: the rails, the PLLs and the station clock; without REFCLK100 start-up ends ALIGN_FATAL (R589). -/
def State.raiseRails (s : State) : State :=
  let s := (s.setFld PWR_RAIL_MV 720 0).setFld PWR_RAIL_MV 720 1
  if s.pins.refclk100 then
    { s with clock := { s.clock with station := 0, running := true } }.logLeftovers.setPhase phAlign
  else s.failBoot stALIGNFATAL

/-- Start-up from step 2 of Table 16-1 (R474, R475, R491): the boot image, the device record, the rails. -/
def State.bootFrom2 (s : State) (kind : Nat) : State :=
  let s := { s with nv := { s.nv with bootCount := (s.nv.bootCount + 1) % 2 ^ 32 } }
  let s := ((s.setFld GLB_RESETCAUSE_KIND kind).setPhase phBoot).setFld JUG_RCACHE_SIZE s.nv.rcache
  let s := { s with fab := { s.fab with rcacheSize := s.nv.rcache } }
  let s := s.restoreStationmaster
  match s.nv.bootSlot with
  | none => s.failBoot stBOOTIMAGE
  | some slot =>
    let s := (s.setFld GLB_BOOT_IMAGE slot).setFld STM_STATE_SLOT slot
    let s := (s.setFld STM_STATE_VERSION (s.nv.image slot).version).trialStart
    if s.nv.record.sigOk && s.nv.record.reportable then s.loadRecord.raiseRails else s.failBoot stRECORDBAD

/-- POWER_ON_RESET: the 50 V input rises through the start threshold while the package is unpowered, or once it was removed after
a trip (R472, R581, R588). -/
def State.powerOnReset (s : State) : State :=
  if s.pins.powered && !s.pins.tripped then s
  else
    let kind := if s.nv.marker then 5 else 1
    let s := s.lose
    let s := { s with pins := { s.pins with powered := true, tripped := false }, nv := { s.nv with marker := false }
                      clock := { s.clock with timeZero := s.clock.mono } }
    s.bootFrom2 kind

/-- A device reset (R490, R491): every register at its Reset column, then start-up from step 2 of Table 16-1, with time zero at
the release (R587). -/
def State.resetDevice (s : State) (kind : Nat) : State :=
  let s := s.lose
  { s with pins := { s.pins with tripped := false }, clock := { s.clock with timeZero := s.clock.mono } }.bootFrom2 kind

/-- DEVICE_RESET: a device reset with its cause; after a trip only a RESET_N pulse starts one (R588, R590). -/
def State.deviceReset (s : State) (cause : ResetCause) : State :=
  if !s.pins.powered then s
  else if s.pins.tripped then (if cause = .resetN ∨ cause = .thermtrip then s.resetDevice 4 else s)
  else s.resetDevice (causeCode cause)

/-- RESET_N_ASSERT: a low level of `lowNs` ns and its release (R587, R590). DESIGN CHOICE: log entry 15. -/
def State.resetNAssert (s : State) (lowNs : Nat) : State :=
  if lowNs < 4000 then s
  else if 6000 ≤ lowNs then s.deviceReset .resetN
  else
    let hit := Config.freeResetPulse s.freeCtr
    let s := { s with freeCtr := s.freeCtr + 1 }
    if hit then s.deviceReset .resetN else s

/-- THERMTRIP_RESET: the RESET_N pulse that ends a trip (R588). -/
def State.thermtripReset (s : State) : State := if s.pins.tripped then s.deviceReset .thermtrip else s

/-- The active Stationmaster runs. -/
def State.activeUp (s : State) : Bool := if s.fld STM_STATE_ACTIVE = 0 then s.stm.jd0Up else s.stm.jd1Up

/-- The standby is ready (R557). -/
def State.standbyReady (s : State) : Bool := s.fld STM_STATE_STANDBY == 2

/-- Both Stationmasters have failed: the active one is down, and no standby is ready to take over or takes over (R524, Table 19-4). -/
def State.stationmastersFailed (s : State) : Bool := !s.activeUp && !s.standbyReady && !s.stm.takeoverWindow

/-- WATCHDOG_RESET: both Stationmasters have failed (R524). -/
def State.watchdogReset (s : State) : State :=
  if s.pins.powered && !s.pins.tripped && decide (phBoot ≤ s.phase) && s.stationmastersFailed then s.deviceReset .watchdog else s

-- ## Loss of the input (R580, R581, R583, R590)

/-- Every rail falls within 1 ms; with hold-up, the Stationmaster writes the shutdown marker first (R581).
DESIGN CHOICE: log entry 18. -/
def State.shutdown (s : State) (holdUp : Bool) : State :=
  let marker := s.nv.marker || (holdUp && (s.stm.jd0Up || s.stm.jd1Up))
  { s with nv := { s.nv with marker := marker }, pins := { s.pins with powered := false } }.lose

/-- A condition that surely holds, one that may hold within a tolerance, and neither. DESIGN CHOICE: log entry 15. -/
def State.threshold (s : State) (sure may : Bool) : Bool × State :=
  if sure then (true, s)
  else if may then (Config.freeShutdown s.freeCtr, { s with freeCtr := s.freeCtr + 1 })
  else (false, s)

/-- UNDERVOLTAGE_SHUTDOWN: an input below 38.5 V ± 0.4 V, held 20 µs. -/
def State.undervoltage (s : State) (mv heldNs : Nat) (holdUp : Bool) : State :=
  if !s.pins.powered ∨ heldNs < 20000 then s
  else
    let (hit, s) := s.threshold (decide (mv < 38100)) (decide (mv ≤ 38900))
    if hit then s.shutdown holdUp else s

/-- OVERVOLTAGE_SHUTDOWN below the absolute maximum: an input above 59.0 V ± 0.4 V, held 10 µs. DESIGN CHOICE: log entry 4. -/
def State.overvoltage (s : State) (mv heldNs : Nat) (holdUp : Bool) : State :=
  if !s.pins.powered ∨ heldNs < 10000 then s
  else
    let (hit, s) := s.threshold (decide (59400 < mv)) (decide (58600 ≤ mv))
    if hit then s.shutdown holdUp else s

/-- PWRFAIL_EDGE: both lanes of every Depot flush, and the pending log entries are programmed (R583, R564). -/
def State.pwrfail (s : State) : State :=
  if !s.pins.powered || s.pins.tripped then s
  else
    let s := (List.range 8).foldl (fun (s : State) k =>
      let x := (s.depot (k / 2)).lane (k % 2)
      if x.serves || x.st == .suspect then s.flushNow (k / 2) (k % 2) else s) s
    s.programLog

-- ## The references (R589)

/-- REFCLK100_LOSS: after READY a FATAL fault, and the device stops for the device reset that waits for the clock; during start-up
the station-clock crossings fail (R589). DEDUCED: log entry 17. -/
def State.refclk100Loss (s : State) : State :=
  if s.pins.refclk100 = false then s
  else
    let s := { s with pins := { s.pins with refclk100 := false } }
    if s.phase = phReady then
      let s := (s.faultRecord 0 .fatal 12).programLog.lose
      { s with boot := { s.boot with waitRefclk := true } }
    else if phAlign ≤ s.phase ∧ s.phase < phReady then (s.faultRecord 0 .fatal 12).failBoot stALIGNFATAL
    else s

/-- REFCLK100_RETURN: the device reset that waited proceeds. DESIGN CHOICE: log entry 16. DEDUCED: log entry 17. -/
def State.refclk100Return (s : State) : State :=
  let s := { s with pins := { s.pins with refclk100 := true } }
  if s.boot.waitRefclk && s.pins.powered then
    let kind := Config.freeResetKind s.freeCtr % 6 + 1
    { s with freeCtr := s.freeCtr + 1, boot := { s.boot with waitRefclk := false } }.resetDevice kind
  else s

-- ## Crossings (R476 to R480)

/-- A crossing exists in the variant and its unit is not retired (Table 16-2, R475). -/
def State.hasCrossing (s : State) (x : Crossing) : Bool :=
  match x.kind with
  | .hbm => s.pcUp x.index
  | .ddr5 => decide (x.index < 2 * s.ddrChannels)
  | .nand => decide (x.index < 16 * s.jdCount) && !s.retired (unitId 8 x.index)
  | .jugan => decide (x.index < s.jugPorts)
  | .ccl => decide (x.index < 2)
  | .dieToDie => decide (x.index < s.jdCount)
  | .mgmtFlash => decide (x.index = 0)
  | .stationClock => decide (x.index < 2)

/-- Every crossing of the variant. -/
def State.crossings (s : State) : List Crossing :=
  let all := fun (k : CrossingKind) (n : Nat) => (List.range n).map fun i => Crossing.mk k i
  (all .hbm 640 ++ all .ddr5 32 ++ all .nand 64 ++ all .jugan 8 ++ all .ccl 2 ++ all .dieToDie 4 ++ all .mgmtFlash 1 ++
    all .stationClock 2).filter s.hasCrossing

/-- Training word `i` (R478): i below its complement. -/
def trainingWord (i : Nat) : BitVec 16 := BitVec.ofNat 16 (i + (255 - i) * 256)

/-- One direction of an attempt passes (R478). -/
def AlignPass.ok (p : AlignPass) : Bool := decide (p.words = (List.range 64).map trainingWord) && decide (p.latency ≤ 8)

/-- Directions in which a crossing carries traffic (R478): the station clock enters the dies, every other goes both ways.
DEDUCED: log entry 22. -/
def crossingDirections (x : Crossing) : Nat := if x.kind = .stationClock then 1 else 2

/-- A crossing is aligned. -/
def State.isAligned (s : State) (x : Crossing) : Bool := s.boot.aligned.any fun e => e.1 == x

/-- Failed attempts of a crossing. -/
def State.attempts (s : State) (x : Crossing) : Nat := ((s.boot.attempts.find? fun e => e.1 == x).map Prod.snd).getD 0

/-- A crossing whose failure is FATAL (Table 16-2). -/
def crossingFatal (x : Crossing) : Bool := [CrossingKind.dieToDie, CrossingKind.mgmtFlash, CrossingKind.stationClock].contains x.kind

/-- The unit that the record of a failed crossing names. DESIGN CHOICE: log entry 23. -/
def crossingUnit (x : Crossing) : Nat :=
  match x.kind with
  | .hbm => unitId 5 x.index
  | .ddr5 => unitId 6 (8 * (x.index / 2))
  | .nand => unitId 8 x.index
  | .jugan => unitId 9 (4 * x.index)
  | .ccl => unitId 10 (4 * x.index)
  | _ => 0

/-- The effect of a crossing's third failure (Table 16-2, R479). DESIGN CHOICE: log entry 23. -/
def State.crossingFailed (s : State) (x : Crossing) : State :=
  let s := s.count GLB_XALIGN_FAILED
  let s := { s with boot := { s.boot with failed := s.boot.failed ++ [x] } }
  if crossingFatal x then (s.faultRecord 0 .fatal 12).failBoot stALIGNFATAL
  else match x.kind with
    | .hbm | .nand => s.retireUnit (crossingUnit x) .permanent 12
    | .ddr5 =>
      let s := s.report (crossingUnit x) .permanent 12
      { s with boot := { s.boot with ddrOut := s.boot.ddrOut ++ [x.index / 2] } }
    | _ => s.report (crossingUnit x) .permanent 12

/-- The outcome of an attempt: aligned with its thresholds, or one failure more. -/
def State.alignOutcome (s : State) (x : Crossing) (ok : Bool) (thresholds : List Nat) : State :=
  if ok then
    let s := s.count GLB_XALIGN_ALIGNED
    { s with boot := { s.boot with aligned := s.boot.aligned ++ [(x, thresholds)] } }
  else
    let n := s.attempts x + 1
    let s := { s with boot := { s.boot with attempts := (s.boot.attempts.filter fun e => e.1 != x) ++ [(x, n)] } }
    if 3 ≤ n then s.crossingFailed x else s

/-- Step 5 of Table 16-1 is over: every crossing aligned, or failed without being fatal. -/
def State.alignmentDone (s : State) : Bool := s.crossings.all fun x => s.isAligned x || s.boot.failed.contains x

/-- One attempt of a crossing in start-up; PHASE passes to TRAIN with the last one. -/
def State.crossingAttempt (s : State) (x : Crossing) (pll : Bool) (passes : List AlignPass) : State :=
  let ok := pll && decide (passes.length = crossingDirections x) && passes.all AlignPass.ok
  let s := s.alignOutcome x ok (passes.map fun p => 16 - p.latency)
  if s.phase = phAlign ∧ s.alignmentDone = true then s.setPhase phTrain else s

/-- An attempt is due: start-up stands at ALIGN and the crossing is neither aligned nor given up. -/
def State.alignDue (s : State) (x : Crossing) : Bool :=
  decide (s.phase = phAlign) && s.hasCrossing x && !s.isAligned x && !s.boot.failed.contains x

/-- CROSSING_ALIGN_ATTEMPT: the first attempt (R478). -/
def State.alignAttempt (s : State) (x : Crossing) (pll : Bool) (passes : List AlignPass) : State :=
  if s.alignDue x && decide (s.attempts x = 0) then s.crossingAttempt x pll passes else s

/-- CROSSING_ALIGN_RETRY: 1 ms after a failed attempt, at most two times (R479). -/
def State.alignRetry (s : State) (x : Crossing) (pll : Bool) (passes : List AlignPass) : State :=
  if s.alignDue x && decide (0 < s.attempts x) then (s.count GLB_XALIGN_RETRIES).crossingAttempt x pll passes else s

-- ## Training (R481 to R484)

/-- HBM_TRAINING: the pseudo-channels of a stack that fail are retired, the others are zeroed (R481). -/
def State.hbmTraining (s : State) (stack : Nat) (failing : List Nat) : State :=
  if s.phase = phTrain ∧ stack < s.hbmStacks ∧ s.boot.hbmDone.contains stack = false then
    let s := (failing.filter fun p => decide (p < 64)).foldl (fun (s : State) p => s.retireUnit (unitId 5 (64 * stack + p)) .permanent 8) s
    { s with boot := { s.boot with hbmDone := s.boot.hbmDone ++ [stack] } }
  else s

/-- The channel type that the lowest-numbered populated channel gives: true for MRDIMM (R482). -/
def dimmType (dimms : List DimmInfo) : Bool :=
  let populated := dimms.filter fun d => decide (0 < d.dimms)
  match sortBy (fun (a b : DimmInfo) => decide (a.channel < b.channel)) populated with
  | d :: _ => d.mrdimm
  | [] => false

/-- A channel that may serve before it trains: one DIMM of the deciding type. DESIGN CHOICE: log entry 24. -/
def dimmCandidate (d : DimmInfo) (typ : Bool) : Bool := decide (d.dimms = 1) && d.mrdimm == typ

/-- DDR5_TRAINING: type, rate and channels in service (R482); the ranks of a channel that fails training are retired (Table 17-3).
DESIGN CHOICE: log entry 24. -/
def State.ddr5Training (s : State) (dimms : List DimmInfo) : State :=
  if s.phase = phTrain ∧ s.boot.ddrDone = false then
    let dimms := dimms.filter fun d => decide (d.channel < s.ddrChannels)
    let typ := dimmType dimms
    let cand := dimms.filter fun d => dimmCandidate d typ && !s.boot.ddrOut.contains d.channel
    let up := cand.filter fun d => d.trained
    let rate := up.foldl (fun (r : Nat) (d : DimmInfo) => min r d.rate) 8800
    let s := (cand.filter fun d => !d.trained).foldl (fun (s : State) (d : DimmInfo) =>
      (List.range (min d.ranks 8)).foldl (fun (s : State) r => s.retireUnit (unitId 6 (8 * d.channel + r)) .permanent 8) s) s
    let s := if up.isEmpty then s else (s.setFld GLB_TRAIN_DDRRATE rate).setFld GLB_TRAIN_DDRTYPE (if typ then 1 else 0)
    { s with boot := { s.boot with
        ddrDone := true, dimms := up.foldl (fun (m : KMap (Nat × Nat)) (d : DimmInfo) => mapSet m d.channel (d.ranks, d.rankBytes)) [] } }
  else s

/-- The limits of Table 12-1 that a channel's own devices show. -/
def nandWithin (i : NandInfo) : Bool :=
  decide (1 ≤ i.packages) && decide (i.packages ≤ 4) && decide (i.chipEnables ≤ 16) && decide (1 ≤ i.chipEnables) &&
  decide (1 ≤ i.dies) && decide (i.dies ≤ 16) && [1, 2, 4].any (fun n => decide (i.dies = n * i.chipEnables)) &&
  decide (3600 ≤ i.mts) && !i.toggle && [3, 4].contains i.cellBits && decide (i.pageBytes = 16384) && decide (1664 ≤ i.spareBytes) &&
  decide (0 < i.ppb) && decide (i.blocks * i.ppb * 4 ≤ 2 ^ 25) && decide (i.dies * i.blocks * i.ppb * 16384 ≤ 2 * 10 ^ 12)

/-- What the Depot keeps of a channel's parameter pages. -/
def nandChannel (i : NandInfo) : ChannelInfo := ⟨i.dies, i.cellBits, i.ppb, i.blocks, i.endurance, i.model⟩

/-- The channel's devices share model and geometry with those of its lane that are in service (Table 12-1, Uniformity). -/
def Depot.uniform (d : Depot) (ch : Nat) (i : NandInfo) : Bool :=
  d.channels.all fun e => e.1 / 8 != ch / 8 ||
    (decide (e.2.cellBits = i.cellBits) && decide (e.2.ppb = i.ppb) && decide (e.2.blocks = i.blocks) && decide (e.2.model = i.model))

/-- One NAND channel runs through R483: out of service and logged when its devices break a limit (R358), retired when its training
fails (Table 17-3). -/
def State.trainNand (s : State) (j ch : Nat) (i : NandInfo) (trained : Bool) : State :=
  let d := s.depot j
  if !(nandWithin i && d.uniform ch i) then
    let s := { s with boot := { s.boot with nandOut := s.boot.nandOut ++ [(j, ch)] } }
    s.logDepot 6 j (ch / 8) ch 0
  else if !trained then s.retireUnit (unitId 8 (16 * j + ch)) .permanent 8
  else s.setDepot j { d with channels := mapSet d.channels ch (nandChannel i) }

/-- NAND_CHANNEL_TRAINING. DESIGN CHOICE: log entry 24. -/
def State.nandTraining (s : State) (j ch : Nat) (i : NandInfo) (trained : Bool) : State :=
  if s.phase = phTrain ∧ j < s.jdCount ∧ ch < 16 ∧ s.boot.nandDone.contains (j, ch) = false ∧ s.retired (unitId 8 (16 * j + ch)) = false then
    let s := { s with boot := { s.boot with nandDone := s.boot.nandDone ++ [(j, ch)] } }
    s.trainNand j ch i trained
  else s

/-- Steps 7 of Table 16-1 are complete. -/
def State.trained (s : State) : Bool :=
  (List.range s.hbmStacks).all (fun k => s.boot.hbmDone.contains k) && s.boot.ddrDone &&
  (List.range (16 * s.jdCount)).all fun c => s.boot.nandDone.contains (c / 16, c % 16) || s.retired (unitId 8 c)

/-- The units that run canaries at step 8 with their classes: frames 0 to 5, Shunters 6, Selectors 7 (R513).
DESIGN CHOICE: log entry 25. -/
def State.canaryRuns (s : State) : List (Nat × Nat) :=
  ((List.range 192).filter s.frameInService).flatMap (fun f => (List.range 6).map fun c => (unitId 1 f, c)) ++
  ((List.range 128).filter fun i => !s.retired (unitId 2 i)).map (fun i => (unitId 2 i, 6)) ++
  ((List.range 16).filter fun i => !s.retired (unitId 3 i)).map (fun i => (unitId 3 i, 7))

/-- A canary of class `c` on unit `u` ends (R513): counted; a failure is a CHECK event, a frame's pass is remembered with its bin. -/
def State.canaryEnd (s : State) (u c pattern : Nat) (pass : Bool) : State :=
  let s := s.count FLT_CANARY_RUN
  if pass then
    if unitType u = 1 then
      { s with stm := { s.stm with canPasses := s.stm.canPasses ++ [(unitIndex u, tempBin (s.unitTemp u), c, s.clock.mono)] } }
    else s
  else
    let s := s.count FLT_CANARY_FAILED
    if unitType u = 1 then s.checkEvent (unitIndex u) 4 pattern else s.report u .check 4 pattern

/-- STARTUP_CANARIES: step 8 of Table 16-1; PHASE passes to REBUILD. -/
def State.startupCanaries (s : State) (failing : List (Nat × Nat)) : State :=
  if s.phase = phTrain ∧ s.trained = true ∧ s.boot.canariesDone = false then
    let s := s.canaryRuns.foldl (fun (s : State) e => s.canaryEnd e.1 e.2 (e.2 * 4096 + Config.canaryNumber e.2 % 4096) (!failing.contains e)) s
    { s with boot := { s.boot with canariesDone := true } }.setPhase phRebuild
  else s

-- ## Lanes and READY (R485 to R487)

/-- The bytes of a unit as its slot holds them (R364, R386, R387); none where the unit is lost or its slot cannot be read. -/
def Depot.unitBytes (d : Depot) (j ns unit : Nat) : Option Bytes :=
  match mapGet d.namespaces ns with
  | none => none
  | some n =>
    let x := d.lane (n.laneOf unit)
    match mapGet x.map (unitKey ns unit) with
    | none => some (List.replicate blockBytes 0)
    | some p =>
      match mapGet x.slots p, n.key j with
      | some t, some k =>
        let mask := leNat ((encTweak k t.seq t.ns t.unit).take 4)
        decodeBlock (xtsDecrypt k t.seq t.ns t.unit t.data) (t.desc % 2 ^ 32 + (bitsOf t.desc 32 32 ^^^ mask) * 2 ^ 32)
      | _, _ => none

/-- A PERSIST allocation reads what the media of Junction die `j` hold of it after a rebuild; a unit that cannot be read is poisoned.
DESIGN CHOICE: log entry 27. -/
def State.refillAlloc (s : State) (j id : Nat) (a : Alloc) : State :=
  (List.range (ceilDiv a.size blockBytes)).foldl (fun (s : State) b =>
    match (a.flashUnit b).bind (s.flashPlace a.slice) with
    | some (k, ns, u) =>
      if k ≠ j then s
      else match (s.depot j).unitBytes j ns u with
        | some bs => { s with allocs := mapUpdate s.allocs id fun x => { x with mem := memWrite x.mem (b * blockBytes) bs } }
        | none =>
          if !(s.poisonIn id (b * blockBytes) blockBytes).isEmpty then s
          else { s with poison := s.poison ++ [⟨id, b * blockBytes, blockBytes, 4⟩] }
    | none => s) s

/-- Every PERSIST allocation after the rebuild of a Depot's lanes. DESIGN CHOICE: log entry 27. -/
def State.refill (s : State) (j : Nat) : State := s.allocs.foldl (fun (s : State) (e : Nat × Alloc) => s.refillAlloc j e.1 e.2) s

/-- LANE_REBUILD: step 9 of Table 16-1 for one lane (R378, R485). DESIGN CHOICE: log entry 27. DEDUCED: log entry 65. -/
def State.laneRebuild (s : State) (j l : Nat) (bad : List Nat) (failedDies : List (Nat × Nat)) (ms : Nat) : State :=
  if s.phase = phRebuild ∧ j < s.jdCount ∧ l < 2 ∧ s.boot.lanesDone.contains (j, l) = false then
    let s := { s with boot := { s.boot with lanesDone := s.boot.lanesDone ++ [(j, l)] } }
    let s := s.rebuild j l bad failedDies ms
    if s.boot.lanesDone.contains (j, 1 - l) then s.refill j else s
  else s

/-- DEVICE_READY: steps 1 to 9 have completed (R487). DESIGN CHOICE: log entry 14. -/
def State.deviceReady (s : State) (dt : Nat) : State :=
  let s := s.tick dt
  if s.phase = phRebuild ∧ (List.range (2 * s.jdCount)).all (fun k => s.boot.lanesDone.contains (k / 2, k % 2)) = true then
    let s := (s.setPhase phReady).setFld GLB_RESETCAUSE_READYMS ((s.clock.mono - s.clock.timeZero) / 10 ^ 6)
    s.logBoot
  else s

end Sys2Proof.Machine
end

