-- ==== Sys2Proof/Machine/Arith.lean ====
section
/-! DEFINITION. Floating-point operations that round once to nearest even (R180, R314): sums, products, quotients, square roots and
base-2 exponentials of codes of one format. -/

namespace Sys2Proof.Machine

/-- The code of a NaN result: the sign of the NaN operands where they agree, otherwise a free value (R181). -/
def nanResult (f : Fmt) (ins : List Nat) : Nat :=
  let signs := (ins.map (decodeFloat f)).filterMap fun v => if v.isNan then some v.neg else none
  match signs with
  | [] => nanCode f (Config.nanSign ins)
  | b :: rest => nanCode f (if rest.all (· == b) then b else Config.nanSign ins)

/-- Round a value once into a format; a NaN is the quiet NaN of the operands. -/
def fpResult (f : Fmt) (ins : List Nat) (v : Val) : Nat := if v.isNan then nanResult f ins else (toFloat f .rne false v).code

/-- Sum of two codes. -/
def fpAdd (f : Fmt) (a b : Nat) : Nat := fpResult f [a, b] ((decodeFloat f a).add (decodeFloat f b))

/-- Difference of two codes. -/
def fpSub (f : Fmt) (a b : Nat) : Nat := fpResult f [a, b] ((decodeFloat f a).sub (decodeFloat f b))

/-- Product of two codes. -/
def fpMul (f : Fmt) (a b : Nat) : Nat := fpResult f [a, b] ((decodeFloat f a).mul (decodeFloat f b))

/-- Quotient of two codes. -/
def fpDiv (f : Fmt) (a b : Nat) : Nat := fpResult f [a, b] ((decodeFloat f a).div (decodeFloat f b))

/-- a × b + c with one rounding. -/
def fpFma (f : Fmt) (a b c : Nat) : Nat :=
  fpResult f [a, b, c] (((decodeFloat f a).mul (decodeFloat f b)).add (decodeFloat f c))

/-- Least or greatest of two codes: NaN when either is a NaN, −0 below +0 (R314). -/
def fpMinMax (f : Fmt) (max : Bool) (a b : Nat) : Nat :=
  let x := decodeFloat f a
  let y := decodeFloat f b
  if x.isNan || y.isNan then nanResult f [a, b]
  else if x.isZero && y.isZero then (if max then (if x.neg then b else a) else (if x.neg then a else b))
  else if x.lt y then (if max then b else a) else (if max then a else b)

/-- Integer square root by Newton's method, `fuel` steps from a first value above the root. -/
def isqrtGo (n : Nat) : Nat → Nat → Nat
  | 0, x => x
  | fuel + 1, x =>
    let y := (x + n / x) / 2
    if x ≤ y then x else isqrtGo n fuel y

/-- ⌊√n⌋ for n below 2⁷⁶⁸. -/
def isqrt (n : Nat) : Nat := if n = 0 then 0 else isqrtGo n 800 (2 ^ (Nat.log2 n / 2 + 1))

/-- The square root of n / d as a value that every rounding to 24 bits takes to the same code as the exact root. -/
def sqrtVal (n d : Nat) : Val :=
  if n = 0 then .fin false 0 1
  else
    let e : Int := (Nat.log2 n : Int) - (Nat.log2 d : Int)
    let k : Nat := (80 - e).toNat
    -- √(n / d) = √(n · d · 4^k) / (d · 2^k)
    let m := n * d * 4 ^ k
    let q := isqrt m
    if q * q = m then .fin false q (d * 2 ^ k) else .fin false (2 * q + 1) (2 * d * 2 ^ k)

/-- Square root of an FP32 code: −0 for −0, a NaN below zero (IEEE 754-2019, R314). -/
def fpSqrt (a : Nat) : Nat :=
  match unfp32 a with
  | .nan _ => nanResult .fp32 [a]
  | .inf false => a
  | .inf true => nanResult .fp32 [a]
  | .fin neg n d => if n = 0 then a else if neg then nanResult .fp32 [a] else fp32 (sqrtVal n d)

/-- 2^(2^−i) × 2²⁵⁶, rounded down, for i = `k` more square roots from `c`: multiplied into `acc` where bit `i` of the fraction is set.
`frac` holds the fraction's bits, the highest first. -/
def exp2Go : List Bool → Nat → Nat → Nat
  | [], _, acc => acc
  | b :: bs, c, acc =>
    let c := isqrt (c * 2 ^ 256)
    exp2Go bs c (if b then acc * c / 2 ^ 256 else acc)

/-- The bits of m / 2^k below the point, the highest first. -/
def fracBits (m : Nat) : Nat → List Bool
  | 0 => []
  | k + 1 => bitOf m k :: fracBits m k

/-- 2^v for a value of magnitude below 256 with a denominator 2^k, as a value close enough for a correct rounding to FP32. -/
def exp2Val (neg : Bool) (n d : Nat) : Val :=
  let k := Nat.log2 d
  let x : Int := if neg then -(n : Int) else n
  let whole := x / (d : Int)
  let frac := (x % (d : Int)).toNat
  if frac = 0 then Val.scaled false 1 whole
  else Val.scaled false (exp2Go (fracBits frac k) (2 * 2 ^ 256) (2 ^ 256)) (whole - 256)

/-- exp2 of a value, correctly rounded to FP32 (R225, R313). -/
def exp2Code (a : Nat) : Nat :=
  match unfp32 a with
  | .nan _ => nanResult .fp32 [a]
  | .inf false => a
  | .inf true => 0
  | .fin neg n d =>
    if !neg && decide (128 * d ≤ n) then fp32 (Val.scaled false 1 128)
    else if neg && decide (151 * d ≤ n) then 0
    else fp32 (exp2Val neg n d)

end Sys2Proof.Machine
end

