-- ==== Sys2Proof/Machine/Shaping.lean ====
section
/-! DEFINITION. Policers, class queues, shapers and timetables (chapter 14): what each decides, and the timetable commands. -/

namespace Sys2Proof.Machine

-- ## Ports and packets

/-- A port is UP (Table 13-9). -/
def State.portUp (s : State) (p : Nat) : Bool := decide (p < s.jugPorts) && s.fld JUG_PORT_STATE p == 2

/-- The ports in state UP. -/
def State.upPorts (s : State) : List Nat := (List.range 8).filter s.portUp

/-- Rate of a port in Gbit/s: 200 for each lane in use (R394). -/
def State.portRate (s : State) (p : Nat) : Nat := 200 * popcount 4 (s.fld JUG_PORT_LANES p)

/-- A port's queues, shapers and link. -/
def State.port (s : State) (p : Nat) : Port := mapGetD s.ports p Port.blank

/-- The state with a port replaced. -/
def State.setPort (s : State) (p : Nat) (x : Port) : State := { s with ports := mapSet s.ports p x }

/-- OP of a packet (Table 13-2). -/
def pktOp (b : Bytes) : Nat := leAt b 0 1

/-- Traffic class of a packet. -/
def pktTc (b : Bytes) : Nat := leAt b 1 1 % 16

/-- Flits that a packet of `n` bytes takes (R431). -/
def flitCount (n : Nat) : Nat := ceilDiv (ceilDiv n 16) 15

-- ## Ingress policing (R428 to R430)

/-- A bucket at time `now`: filled at `rate` Mbit/s, capped at `burst` bytes. -/
def Bucket.at_ (b : Bucket) (rate burst now : Nat) : Bucket :=
  { tokens := min (b.tokens + rate * (now - b.time)) (8000 * burst), time := now }

/-- Offer `size` bytes to the policer `key`: admitted or not, and its bucket after that (R428). -/
def State.police (s : State) (key en rate burst size : Nat) : Bool × State :=
  if en = 0 then (true, s)
  else
    let b := (mapGetD s.policers key ⟨8000 * burst, s.clock.mono⟩).at_ rate burst s.clock.mono
    if 8000 * size ≤ b.tokens then (true, { s with policers := mapSet s.policers key { b with tokens := b.tokens - 8000 * size } })
    else (false, { s with policers := mapSet s.policers key b })

/-- A write of a policer's register fills its bucket to the new BURST (R430). -/
def State.fillBucket (s : State) (key burst : Nat) : State :=
  { s with policers := mapSet s.policers key ⟨8000 * burst, s.clock.mono⟩ }

/-- A request packet of class `c` that arrives at port `p` is admitted, or dropped and counted (R428). -/
def State.policed (s : State) (p c size : Nat) : Bool × State :=
  if c = 0 then (true, s)
  else
    let r := s.police (16 * p + c) (s.fld SHP_JPOL_EN p c) (s.fld SHP_JPOL_RATE p c) (s.fld SHP_JPOL_BURST p c) size
    if r.1 then r else (false, r.2.count SHP_JDROP_COUNT 1 p c)

/-- A write of `size` bytes that arrives at CCL port `k` above 0x010_0000 is admitted, or dropped and counted (R429). -/
def State.admitCcl (s : State) (k size : Nat) : Bool × State :=
  let r := s.police (128 + k) (s.fld SHP_CCLPOL_EN k) (s.fld SHP_CCLPOL_RATE k) (s.fld SHP_CCLPOL_BURST k) size
  if r.1 then r else (false, r.2.count SHP_CCLDROP_COUNT 1 k)

-- ## Timetables (R435 to R439)

/-- CYCLE of a list. -/
def TimeList.cycle (l : TimeList) : Nat := sumNat (l.entries.map Prod.fst)

/-- Time into the cycle at station time `now`. -/
def TimeList.phase (l : TimeList) (now : Nat) : Nat := (((now : Int) - (l.base : Int)) % (l.cycle : Int)).toNat

/-- The entry at time `t` of a cycle, with the time at which it ends within the cycle. -/
def entryAt : List (Nat × Nat) → Nat → Nat → Nat → Nat × Nat
  | [], i, _, done => (i, done)
  | (d, _) :: es, i, t, done => if t < done + d then (i, done + d) else entryAt es (i + 1) t (done + d)

/-- The entry in force at station time `now`. -/
def TimeList.entry (l : TimeList) (now : Nat) : Nat := (entryAt l.entries 0 (l.phase now) 0).1

/-- GATES of an entry. -/
def TimeList.gates (l : TimeList) (i : Nat) : Nat := ((l.entries[i]?).map Prod.snd).getD 0xFFFF

/-- The first cycle start at or after station time `t`. -/
def TimeList.nextStart (l : TimeList) (t : Nat) : Nat := if l.phase t = 0 then t else t + (l.cycle - l.phase t)

/-- A timetable that has had no commit: every gate open (R436). -/
def Timetable.blank : Timetable := { oper := none, entry := 0, gates := 0xFFFF, pend := none, hold := none }

/-- Timetable `l`. -/
def State.timetable (s : State) (l : Nat) : Timetable := mapGetD s.timetables l Timetable.blank

/-- The state with a timetable replaced. -/
def State.setTimetable (s : State) (l : Nat) (t : Timetable) : State := { s with timetables := mapSet s.timetables l t }

/-- Longest stretch for which class `c` is closed, over two turns of a cycle. -/
def closedStretch (c : Nat) : List (Nat × Nat) → Nat → Nat → Nat
  | [], run, best => max run best
  | (d, g) :: es, run, best => if bitOf g c then closedStretch c es 0 (max run best) else closedStretch c es (run + d) best

/-- Rule 3 of R437: a class that opens at all is closed for at most 4 ms at a stretch. -/
def stretchesOk (es : List (Nat × Nat)) : Bool :=
  (List.range 16).all fun c => c == 0 || es.all (fun e => !bitOf e.2 c) || decide (closedStretch c (es ++ es) 0 0 ≤ 4000000)

/-- The first `n` admin entries of a list. -/
def State.adminEntries (s : State) (l n : Nat) : List (Nat × Nat) :=
  (List.range n).map fun e => (s.fld SHP_TTADMIN_DURATION l e, s.fld SHP_TTADMIN_GATES l e)

/-- Checks 1 to 3 of R437. -/
def State.ttCheck (s : State) (l n base : Nat) : Option Nat :=
  if 8 < l ∨ (s.variant = 2 ∧ 4 ≤ l ∧ l < 8) ∨ n = 0 ∨ 256 < n then some stLIMIT
  else
    let es := s.adminEntries l n
    let cycle := (TimeList.mk base es).cycle
    if (es.any fun e => decide (e.1 < 128)) ∨ cycle < 1000 ∨ 10 ^ 9 < cycle ∨ (l = 8 ∧ es.any (fun e => decide (1 < e.2)) = true) then some stLIMIT
    else if l < 8 ∧ stretchesOk es = false then some stLIMIT
    else none

/-- An accepted commit: the pending list with its switch time (R438). -/
def State.ttAccept (s : State) (l n base : Nat) : State :=
  let tl : TimeList := ⟨base, s.adminEntries l n⟩
  let w := tl.nextStart (s.clock.station + 1000000)
  (s.setTimetable l { s.timetable l with pend := some (tl, w) }).setReg .shpTtswitch l 0 (BitVec.ofNat 64 w)

/-- TT_COMMIT (R437, R466). -/
def State.ttCommit (s : State) (r seq dt : Nat) : State :=
  let s := s.tick dt
  match s.running r seq 0x0108 with
  | none => s
  | some c =>
    let l := c.par 32 1
    let n := c.par 34 2
    let base := c.par 40 8
    if !c.unusedZero [(32, 1), (34, 2), (40, 8)] then s.refuse c stLIMIT
    else match s.ttCheck l n base with
      | some st => s.refuse c st
      | none => (s.ttAccept l n base).finish c stOK

-- ## Shapers (R433, R434)

/-- Gate of class `c` at port `p`: class 0 is never gated. -/
def State.gateOpen (s : State) (p c : Nat) : Bool := decide (c = 0) || bitOf (s.timetable p).gates c

/-- The queue of class `c`. -/
def Port.queue (x : Port) (c : Nat) : List QPacket := mapGetD x.queues c []

/-- The credit of class `c` after `dt` ns in which the class sends (R433), in 1/8,000 byte. -/
def sendCredit (idle rate dt : Nat) (v : Int) : Int := v + ((idle : Int) - (rate * 1000 : Int)) * dt

/-- The credit of a class that does not send: it rises while a packet waits; with an empty queue it returns to 0 (R433). -/
def restCredit (idle hi dt : Nat) (waiting : Bool) (v : Int) : Int :=
  if waiting then min (v + (idle : Int) * dt) (8000 * hi) else if 0 ≤ v then 0 else min (v + (idle : Int) * dt) 0

/-- Bring the credits of port `p` up to the present; call it before a queue, a gate, the rate or a shaper changes. -/
def State.settle (s : State) (p : Nat) : State :=
  let x := s.port p
  let now := s.clock.mono
  let until_ := x.sending.elim x.creditAt fun e => min e.2 now
  let step := fun (m : KMap Int) (c : Nat) =>
    if s.fld SHP_CBS_EN p c = 0 ∨ s.gateOpen p c = false ∨ s.portUp p = false then m
    else
      let v := mapGetD m c 0
      let idle := s.fld SHP_CBS_IDLE p c
      let hi := s.fld SHP_CBS_HICREDIT p c
      let busy := x.sending.elim false fun e => e.1 == c
      let waiting := !(x.queue c).isEmpty
      if busy then mapSet m c (restCredit idle hi (now - until_) waiting (sendCredit idle (s.portRate p) (until_ - x.creditAt) v))
      else mapSet m c (restCredit idle hi (now - x.creditAt) waiting v)
  let x' := { x with credit := ((List.range 15).map (· + 1)).foldl step x.credit, creditAt := now }
  let ended := x.sending.elim false fun e => decide (e.2 ≤ now)
  if ended then
    -- a packet has ended: writes of SHP_CBS that waited for it take effect
    let s := x.cbsLate.foldl (fun (s : State) w => s.setReg .shpCbs p w.1 w.2) s
    let x' := { x' with sending := none, cbsLate := [],
                        credit := x.cbsLate.foldl (fun (m : KMap Int) w =>
                          mapSet m w.1 (if bitOf w.2.toNat 1 then 8000 * (bitsOf w.2.toNat 24 24 : Nat) else (0 : Int))) x'.credit }
    s.setPort p x'
  else s.setPort p x'

/-- Credits of every port brought up to the present. -/
def State.settleAll (s : State) : State := (List.range 8).foldl (fun (s : State) p => if (mapGet s.ports p).isSome then s.settle p else s) s

/-- A write to SHP_CBS[p][c] whose fields R19 has merged to `v`, FILL in its bit 1 (R434). -/
def State.writeShaper (s : State) (p c : Nat) (v : Word) : State :=
  let s := s.settle p
  let x := s.port p
  let fill := bitOf v.toNat 1
  let v' := BitVec.ofNat 64 (setBitsOf v.toNat 1 1 0)
  if x.sending.elim false fun e => e.1 == c then s.setPort p { x with cbsLate := mapSet x.cbsLate c (if fill then v' ||| 2 else v') }
  else (s.setReg .shpCbs p c v').setPort p
    { x with credit := mapSet x.credit c (if fill then 8000 * (bitsOf v.toNat 24 24 : Nat) else (0 : Int)) }

-- ## Gates in time

/-- The gates of timetable `l` are those of its entry at the present station time. -/
def State.refreshGates (s : State) (l : Nat) : State :=
  let t := s.timetable l
  match t.oper with
  | some o =>
    let i := o.entry s.clock.station
    s.setTimetable l { t with entry := i, gates := o.gates i, hold := none }
  | none => s

/-- TIMETABLE_SWITCH: the switch time of the pending list has come (R438). -/
def State.timetableSwitch (s : State) (l dt : Nat) : State :=
  let s := (s.tick dt).settleAll
  let t := s.timetable l
  match t.pend with
  | some (o, w) =>
    if w ≤ s.clock.station then (s.setTimetable l { t with oper := some o, pend := none, hold := none }).refreshGates l else s
  | none => s

/-- TIMETABLE_ENTRY_BEGIN: the entry that the station clock calls for takes effect; after a clock step the present gates hold until
the next cycle start (R436, R439). -/
def State.timetableEntryBegin (s : State) (l dt : Nat) : State :=
  let s := (s.tick dt).settleAll
  if (s.timetable l).hold.elim true fun t => decide (t ≤ s.clock.station) then s.refreshGates l else s

/-- The station clock is stepped (R439). -/
def State.stepClock (s : State) (now : Nat) : State :=
  let s := { s with clock := { s.clock with station := now } }
  s.timetables.foldl (fun (s : State) (e : Nat × Timetable) =>
    match e.2.oper with
    | some o => (s.setTimetable e.1 { e.2 with hold := some (o.nextStart now) }).count SHP_TTSTAT_STEPS 1 e.1
    | none => s) s

/-- Time until class `c` next closes, from time `t` of the cycle, over two turns; none if it does not close. -/
def closesIn (c : Nat) : List (Nat × Nat) → Nat → Nat → Option Nat
  | [], _, _ => none
  | (d, g) :: es, skip, acc =>
    if d ≤ skip then closesIn c es (skip - d) acc
    else if bitOf g c then closesIn c es 0 (acc + (d - skip)) else some acc

/-- Nanoseconds of station time until the open gate of class `c` at port `p` next closes; none where it never does. Held gates give way
to entry 0 (R439), and the running list is cut at the switch to a pending one (R438). DEDUCED: log entry 130. -/
def State.gateCloses (s : State) (p c : Nat) : Option Nat :=
  let t := s.timetable p
  let now := s.clock.station
  let own := t.oper.bind fun o =>
    match t.hold with
    | some h => closesIn c (o.entries ++ o.entries) 0 (h - now)
    | none => closesIn c (o.entries ++ o.entries) (o.phase now) 0
  match t.pend with
  | none => own
  | some (o, w) =>
    match own with
    | some a => if a ≤ w - now then some a else closesIn c (o.entries ++ o.entries) 0 (w - now)
    | none => closesIn c (o.entries ++ o.entries) 0 (w - now)

/-- Class `c` is closed in every entry of the operative list of every UP port (R440); a device without an UP port closes nothing.
DESIGN CHOICE: log entry 100. -/
def State.classClosed (s : State) (c : Nat) : Bool :=
  !s.upPorts.isEmpty && decide (c ≠ 0) &&
  s.upPorts.all fun p => ((s.timetable p).oper).elim false fun o => o.entries.all fun e => !bitOf e.2 c

-- ## Egress scheduling (R431, R432)

/-- Tag `a` comes before tag `b`, modulo 2⁶⁴ (R432). -/
def tagBefore (a b : Nat) : Bool := decide (a ≠ b) && decide ((b + 2 ^ 64 - a) % 2 ^ 64 < 2 ^ 63)

/-- Put a packet into the queue of its class, with its tags. -/
def Port.enqueue (x : Port) (c weight : Nat) (b : Bytes) : Port :=
  let start := match (x.queue c).getLast? with | some q => q.finish | none => x.vtime
  let finish := (start + b.length * 65536 / max weight 1) % 2 ^ 64
  { x with queues := mapSet x.queues c (x.queue c ++ [{ bytes := b, start := start, finish := finish }]),
           maxFinish := if c ≠ 0 ∧ tagBefore x.maxFinish finish = true then finish else x.maxFinish }

/-- The head of class `c` may begin at port `p` (R431). DEDUCED: log entry 130. -/
def State.eligible (s : State) (p c : Nat) : Bool :=
  let x := s.port p
  match x.queue c with
  | [] => false
  | q :: _ =>
    let time := flitCount q.bytes.length * 2048
    s.gateOpen p c &&
    ((s.gateCloses p c).elim true fun t => decide (time ≤ t * s.portRate p)) &&
    (s.fld SHP_CBS_EN p c == 0 || decide (0 ≤ mapGetD x.credit c 0)) &&
    decide (ceilDiv q.bytes.length 16 ≤ mapGetD x.linkCredit c 0)

/-- The class whose packet begins next: class 0 first; else, with no packet under way, the eligible class with the least start tag. -/
def State.nextClass (s : State) (p : Nat) : Option Nat :=
  let x := s.port p
  if !(x.queue 0).isEmpty then some 0
  else if x.sending.isSome then none
  else
    let start := fun (c : Nat) => ((x.queue c).head?.map fun q => q.start).getD 0
    (((List.range 15).map (· + 1)).filter (s.eligible p)).foldl (fun (best : Option Nat) c =>
      match best with
      | none => some c
      | some b => if tagBefore (start c) (start b) then some c else some b) none

/-- A DATA flit (R395) of up to 15 slots. -/
def flitBytes (typ seq ack tc credits : Nat) (slots : Bytes) : Bytes :=
  let b := leBytes 1 typ ++ leBytes 2 (seq % 4096) ++ leBytes 2 (ack % 4096) ++ leBytes 1 tc ++ leBytes 2 credits ++ bytesAt slots 0 240 ++
    List.replicate 4 0
  b ++ leBytes 4 (crc32c b).toNat

/-- Send a flit on a port, returning the credits owed to the lowest class that is owed any (R395). -/
def State.sendFlit (s : State) (p typ : Nat) (slots : Bytes) : State :=
  let x := s.port p
  let due := (x.owed.find? fun e => decide (0 < e.2)).getD (0, 0)
  let n := min due.2 0xFFFF
  let f := flitBytes typ x.txSeq x.rxSeq due.1 n slots
  let x := { x with owed := if n = 0 then x.owed else mapSet x.owed due.1 (due.2 - n) }
  let x := if typ = 1 then { x with txSeq := (x.txSeq + 1) % 4096, replay := (x.replay ++ [f]).drop (x.replay.length - 511) } else x
  { s.setPort p x with fab := { s.fab with flits := s.fab.flits ++ [(p, f)] } }

/-- Begin the packet at the head of class `c` of port `p` (R432): its flits leave, V takes its start tag, and when the queues of
classes 1 to 15 run empty V becomes the greatest finish tag. -/
def State.beginPacket (s : State) (p c : Nat) (q : QPacket) : State :=
  let x := s.port p
  let slots := padTo q.bytes 16
  let n := slots.length / 16
  let rate := s.portRate p
  let ends := s.clock.mono + ceilDiv (flitCount q.bytes.length * 2048) (max rate 1)
  let rest := (x.queue c).drop 1
  let x := { x with queues := if rest.isEmpty then mapErase x.queues c else mapSet x.queues c rest,
                    linkCredit := if c = 0 then x.linkCredit else mapSet x.linkCredit c (mapGetD x.linkCredit c 0 - n),
                    sending := if c = 0 then x.sending else some (c, ends), vtime := if c = 0 then x.vtime else q.start }
  let x := if c ≠ 0 ∧ (x.queues.all fun e => e.1 == 0) = true then { x with vtime := x.maxFinish } else x
  (chunks 240 (flitCount q.bytes.length) slots).foldl (fun (s : State) f => s.sendFlit p 1 f) (s.setPort p x)

end Sys2Proof.Machine
end

