-- ==== Sys2Proof/Machine/Fabric.lean ====
section
/-! DEFINITION. The Jugan Link fabric (chapter 13): packets, this device's requests and their outcomes, the checks and the service of
inbound requests, the read cache, the replay tables, and the link layer. -/

namespace Sys2Proof.Machine

-- ## Codes (Tables 13-3, 13-8, 14-2)

abbrev opREAD : Nat := 0x01
abbrev opWRITE : Nat := 0x02
abbrev opATOMIC : Nat := 0x04
abbrev opMSG : Nat := 0x05
abbrev opLEASE : Nat := 0x10
abbrev opEPOCHSET : Nat := 0x11
abbrev opFENCE : Nat := 0x12
abbrev opBARARRIVE : Nat := 0x13
abbrev opBARRELEASE : Nat := 0x14
abbrev opBARBREAK : Nat := 0x15
abbrev stUNREACHABLE : Nat := 0x0401
abbrev stORDERBROKEN : Nat := 0x0402
abbrev stSTALEEPOCH : Nat := 0x0403
abbrev stDECODESHORT : Nat := 0x0404
abbrev stCLASSCLOSED : Nat := 0x0405

-- ## Packets (R397, R398)

/-- The fields of a packet (Table 13-2). -/
structure Pkt where
  op : Nat
  tc : Nat
  retry : Bool
  ordered : Bool
  asize : Nat
  dst : Nat
  src : Nat
  job : Nat
  epoch : Nat
  offset : Nat
  seqn : Nat
  ctx : Nat
  len : Nat
  status : Nat
  payload : Bytes
  deriving DecidableEq, Repr

/-- A packet's bytes as its source sends them, HOPS = 8. -/
def Pkt.bytes (p : Pkt) : Bytes :=
  leBytes 1 p.op ++ leBytes 1 (p.tc + (if p.retry then 16 else 0) + (if p.ordered then 32 else 0)) ++ leBytes 1 8 ++ leBytes 1 p.asize ++
  leBytes 3 p.dst ++ leBytes 3 p.src ++ leBytes 2 p.job ++ leBytes 4 p.epoch ++ leBytes 5 p.offset ++ leBytes 3 p.seqn ++
  leBytes 2 p.ctx ++ leBytes 2 p.len ++ leBytes 2 p.status ++ leBytes 2 0 ++ p.payload

/-- The fields of a packet's bytes. -/
def Pkt.ofBytes (b : Bytes) : Pkt :=
  { op := leAt b 0 1, tc := leAt b 1 1 % 16, retry := bitOf (leAt b 1 1) 4, ordered := bitOf (leAt b 1 1) 5, asize := leAt b 3 1,
    dst := leAt b 4 3 % 2 ^ 17, src := leAt b 7 3 % 2 ^ 17, job := leAt b 10 2, epoch := leAt b 12 4, offset := leAt b 16 5,
    seqn := leAt b 21 3, ctx := leAt b 24 2, len := leAt b 26 2, status := leAt b 28 2, payload := b.drop 32 }

/-- OP is a fabric control operation or its reply. -/
def pktControl (op : Nat) : Bool := decide (0x10 ≤ op % 128) && decide (op % 128 ≤ 0x15)

/-- A packet that Table 13-2, Table 13-3 and R398 allow. -/
def pktOk (b : Bytes) : Bool :=
  let p := Pkt.ofBytes b
  decide (32 ≤ b.length) && [0x01, 0x02, 0x04, 0x05, 0x10, 0x11, 0x12, 0x13, 0x14, 0x15, 0x81, 0x82, 0x84, 0x85, 0x91, 0x92].contains p.op &&
  decide (leAt b 1 1 < 64) && decide (leAt b 3 1 < 128) && decide (leAt b 4 3 < 2 ^ 17) && decide (leAt b 7 3 < 2 ^ 17) && leAt b 30 2 == 0 &&
  decide (p.len ≤ 4096) && b.length == 32 + (if p.op = opREAD then 0 else p.len) && (pktControl p.op == (p.tc == 0)) &&
  (p.op != opATOMIC || p.len == 16)

/-- The device's node id. -/
def State.node (s : State) : Nat := s.fld JUG_NODE_NODE

/-- The device's epoch. -/
def State.epoch (s : State) : Nat := s.fld JUG_EPOCH_EPOCH

/-- The bytes of a packet with the device's present epoch (R414). -/
def State.withEpoch (s : State) (b : Bytes) : Bytes := b.take 12 ++ leBytes 4 s.epoch ++ b.drop 16

/-- A packet is ready to leave by some port. -/
def State.emit (s : State) (b : Bytes) : State := { s with fab := { s.fab with out := s.fab.out ++ [b] } }

/-- The reply to a request. DESIGN CHOICE: log entry 96. -/
def State.replyTo (s : State) (p : Pkt) (status : Nat) (data : Bytes) : Pkt :=
  { p with op := p.op + 0x80, retry := false, ordered := false, dst := p.src, src := s.node, epoch := s.epoch, len := data.length,
           status := status, payload := data }

-- ## Inbound checks (R405)

/-- Bytes that an inbound request touches. -/
def Pkt.size (p : Pkt) : Nat :=
  if p.op = opATOMIC then (if [1, 3].contains (p.asize / 16 % 8) then 8 else 4) else p.len

/-- The access is aligned to its size: 1, 2, 4 or 8 bytes, or multiples of 64 bytes (R398, R405). -/
def Pkt.aligned (p : Pkt) : Bool :=
  if [1, 2, 4, 8].contains p.size then p.offset % p.size == 0
  else decide (0 < p.size) && p.size % 64 == 0 && p.offset % 64 == 0

/-- Checks 2 to 5 of R405: the allocation and the byte offset that a request reaches, none for NO_ACCESS. -/
def State.inboundPlace (s : State) (p : Pkt) : Option (Nat × Nat) :=
  match mapGet s.jobs p.job with
  | none => none
  | some j =>
    if !s.sliceInService j.slice || j.pages ≤ p.offset / 2 ^ 21 then none
    else match mapGet j.entries (p.offset / 2 ^ 21) with
      | none => none
      | some e =>
        let may := if p.op = opREAD then e.r else if p.op = opWRITE then e.w else e.atom
        let off := e.page * 2 ^ 21 + p.offset % 2 ^ 21
        if may && decide (p.offset % 2 ^ 21 + p.size ≤ 2 ^ 21) && p.aligned &&
            (s.alloc e.alloc).elim false (fun a => decide (off + p.size ≤ a.size)) then some (e.alloc, off)
        else none

-- ## Service of inbound requests (R406 to R412)

/-- The word that an atomic operation leaves (Table 10-11); none for a pair that is not listed. `ty` 0 I32, 1 I64, 2 U32, 3 U64,
4 F32; `old`, `b` and `c` as unsigned words. -/
def atomicNew (op ty old b c : Nat) : Option Nat :=
  let w := if ty = 1 ∨ ty = 3 then 64 else 32
  let sg := fun (x : Nat) => toSigned x w
  if 4 < ty then none
  else match op with
    | 0 => if ty = 4 then some (fp32 ((unfp32 old).add (unfp32 b))) else if ty ≤ 1 then some ((old + b) % 2 ^ w) else none
    | 1 => if ty ≤ 1 then some (if old = c then b else old) else none
    | 2 => if ty ≤ 1 then some (if sg old ≤ sg b then old else b) else if ty ≤ 3 then some (min old b) else none
    | 3 => if ty ≤ 1 then some (if sg b ≤ sg old then old else b) else if ty ≤ 3 then some (max old b) else none
    | 4 => if ty ≤ 1 then some (old &&& b) else none
    | 5 => if ty ≤ 1 then some (old ||| b) else none
    | 6 => if ty ≤ 1 then some b else none
    | _ => none

/-- Sequence number `a` is later than `b`, modulo 2²⁴ (R412). -/
def seqLater (a b : Nat) : Bool := decide (a ≠ b) && decide ((a + 2 ^ 24 - b) % 2 ^ 24 < 2 ^ 23)

/-- Entries of a replay table (R412). -/
abbrev replaySize : Nat := 4096

/-- READ at a place. -/
def State.serveRead (s : State) (p : Pkt) (id off : Nat) : Nat × Bytes × State :=
  match s.readStatus id off p.len with
  | some st => (st, [], s)
  | none => (stOK, s.allocBytes id off p.len, s.touchRead id off p.len)

/-- WRITE at a place. -/
def State.serveWrite (s : State) (p : Pkt) (id off : Nat) : Nat × Bytes × State :=
  if s.partPoison id off p.len then (stMEDIA, [], s) else (stOK, [], s.allocStore id off p.payload)

/-- Make room in a replay table (R412): the oldest entry goes and LOWMARK advances; none while it is younger than 8 ms.
DESIGN CHOICE: log entry 98. -/
def ReplayTable.room (t : ReplayTable) (now : Nat) : Option ReplayTable :=
  if t.entries.length < replaySize then some t
  else match t.entries with
    | [] => some t
    | e :: es =>
      if now < e.time + 8000000 then none
      else some { entries := es, lowmark := some (t.lowmark.elim e.seqn fun m => if seqLater e.seqn m then e.seqn else m) }

/-- ATOMIC at a place: applied and recorded (R411, R412). DESIGN CHOICE: log entry 98. -/
def State.applyAtomic (s : State) (p : Pkt) (id off : Nat) (t : ReplayTable) : Nat × Bytes × State :=
  let n := p.size
  if !(s.poisonIn id off n).isEmpty then (stMEDIA, [], s)
  else
    let old := leNat (s.allocBytes id off n)
    match atomicNew (p.asize % 16) (p.asize / 16 % 8) old (leAt p.payload 0 n) (leAt p.payload 8 n) with
    | none => (stLIMIT, [], s)
    | some v =>
      let s := s.allocStore id off (leBytes n v)
      let e : ReplayEntry := { ctx := p.ctx, seqn := p.seqn, old := old, status := stOK, time := s.clock.mono }
      (stOK, leBytes 8 old, { s with fab := { s.fab with replay := mapSet s.fab.replay p.src { t with entries := t.entries ++ [e] } } })

/-- ATOMIC (R412): the recorded result, the application, BUSY or SEQ_STALE. -/
def State.serveAtomic (s : State) (p : Pkt) (id off : Nat) : Nat × Bytes × State :=
  let t := mapGetD s.fab.replay p.src ⟨[], none⟩
  match t.entries.find? fun e => e.ctx == p.ctx && e.seqn == p.seqn with
  | some e => (e.status, leBytes 8 e.old, s.count JUG_ATOMIC_REPLAYED)
  | none =>
    if t.lowmark.elim true fun m => seqLater p.seqn m then
      match t.room s.clock.mono with
      | none => (stBUSY, [], s.count JUG_ATOMIC_BUSY)
      | some t' =>
        if t'.lowmark.elim true fun m => seqLater p.seqn m then s.applyAtomic p id off t'
        else (stSEQSTALE, [], s.count JUG_SEQSTALE_COUNT)
    else (stSEQSTALE, [], s.count JUG_SEQSTALE_COUNT)

/-- Bytes of a message ring (R536). DESIGN CHOICE: log entry 98. -/
abbrev msgRingBytes : Nat := 2 ^ 20

/-- MSG (R406): appended to the job's ring, or BUSY, or NO_ACCESS. -/
def State.serveMsg (s : State) (p : Pkt) : Nat × Bytes × State :=
  match mapGet s.jobs p.job with
  | none => (stNOACCESS, [], s.count JUG_NOACCESS_COUNT)
  | some j =>
    match j.msgs with
    | none => (stNOACCESS, [], s.count JUG_NOACCESS_COUNT)
    | some ms =>
      if msgRingBytes < sumNat (ms.map List.length) + p.len then (stBUSY, [], s)
      else (stOK, [], { s with jobs := mapSet s.jobs p.job { j with msgs := some (ms ++ [p.payload]) } })

/-- Serve a request that carries the device's epoch: its status, its data, and the state after it (R405 to R412). -/
def State.serve (s : State) (p : Pkt) : Nat × Bytes × State :=
  if p.job = 0 ∨ p.job = 0xFFFF then (stNOACCESS, [], s.count JUG_NOACCESS_COUNT)
  else if p.op = opMSG then s.serveMsg p
  else match s.inboundPlace p with
    | none => (stNOACCESS, [], s.count JUG_NOACCESS_COUNT)
    | some (id, off) =>
      if p.op = opREAD then s.serveRead p id off else if p.op = opWRITE then s.serveWrite p id off else s.serveAtomic p id off

/-- A WRITE to a PERSIST page waits for its programming before it is acknowledged (R347, R407): the slice it waits for. -/
def State.ackWaits (s : State) (p : Pkt) : Option Nat :=
  if p.op = opWRITE then
    (s.inboundPlace p).bind fun e => (s.alloc e.1).bind fun a => if a.flags.persist && s.flashPending a.slice then some a.slice else none
  else none

/-- Serve a request from the fabric and send its reply. -/
def State.serveRemote (s : State) (p : Pkt) : State :=
  let (st, data, s) := s.serve p
  let reply := (s.replyTo p st data).bytes
  match if st = stOK then s.ackWaits p else none with
  | some sl => { s with fab := { s.fab with acks := s.fab.acks ++ [(sl, reply)] } }
  | none => s.emit reply

/-- Acknowledgements whose slice has nothing left to program are sent (R407). -/
def State.releaseAcks (s : State) : State :=
  let ready := s.fab.acks.filter fun a => !s.flashPending a.1
  let rest := s.fab.acks.filter fun a => s.flashPending a.1
  ready.foldl (fun (s : State) a => s.emit a.2) { s with fab := { s.fab with acks := rest } }

/-- Refuse a request with STALE_EPOCH (R415). -/
def State.refuseStale (s : State) (p : Pkt) : State := (s.count JUG_STALE_IN).emit (s.replyTo p stSTALEEPOCH []).bytes

/-- A request's epoch against the device's own (R415, R417). -/
def State.inboundEpoch (s : State) (b : Bytes) : State :=
  let p := Pkt.ofBytes b
  if s.fenced then s.emit (s.replyTo p stFENCED []).bytes
  else if s.epoch = 0 then s
  else if p.epoch < s.epoch then s.refuseStale p
  else if s.epoch < p.epoch then
    { s with fab := { s.fab with holds := mapSet s.fab.holds s.nextId ⟨b, s.clock.mono⟩ }, nextId := s.nextId + 1 }
  else s.serveRemote p

/-- Slots of a packet leave the port's receive buffer, and their credits are owed to the far end (R395, R396). -/
def State.takeSlots (s : State) (port : Nat) (b : Bytes) : State :=
  let slots := chunks 16 (b.length / 16 + 1) (padTo b 16)
  let x := s.port port
  let rx := slots.foldl (fun (rx : List Bytes) sl => rx.erase sl) x.rxSlots
  let n := x.rxSlots.length - rx.length
  if n = 0 then s else s.setPort port { x with rxSlots := rx, owed := mapSet x.owed (pktTc b) (mapGetD x.owed (pktTc b) 0 + n) }

/-- A packet that arrives is malformed: discarded and counted. -/
def State.badPacket (s : State) : State := s.count JUG_BADPKT_COUNT

/-- An inbound request of operation `op` arrives at a port: policed, then judged by its epoch, then served (R405, R415, R428).
DESIGN CHOICE: log entry 94. -/
def State.inbound (s : State) (op port : Nat) (b : Bytes) (dt : Nat) : State :=
  let s := s.tick dt
  if s.jugPorts ≤ port ∨ pktOp b ≠ op then s
  else
    let s := s.takeSlots port b
    if !pktOk b then s.badPacket
    else
      let (ok, s) := s.policed port (pktTc b) (32 + leAt b 26 2)
      if ok then s.inboundEpoch b else s

/-- LATER_EPOCH_HOLD_EXPIRY: a held request whose 500 µs have passed is refused (R415). -/
def State.holdExpiry (s : State) (hold dt : Nat) : State :=
  let s := s.tick dt
  match mapGet s.fab.holds hold with
  | some h =>
    if h.time + 500000 ≤ s.clock.mono then
      { s with fab := { s.fab with holds := mapErase s.fab.holds hold } }.refuseStale (Pkt.ofBytes h.packet)
    else s
  | none => s

-- ## The read cache (R410)

/-- The Counting die of a frame. -/
def frameDie (f : Nat) : Nat := f / 96

/-- The global address of a line as a packet names it: node and offset. -/
def globalAddr (node off : Nat) : Nat := node * 2 ^ 40 + off

/-- The cached line of a die that holds a global address. -/
def State.cached (s : State) (die slice addr : Nat) : Option CacheLine :=
  s.fab.rcache.find? fun l => l.die == die && l.slice == slice && l.addr == addr / 64 * 64

/-- Fill a line; the oldest lines of the die leave where it is full. DESIGN CHOICE (log entry 100): the order of eviction.
DEDUCED: log entry 95. -/
def State.fillLine (s : State) (l : CacheLine) : State :=
  let cap := s.fab.rcacheSize * 2 ^ 20 / 64
  let mine := s.fab.rcache.filter fun x => x.die == l.die
  let others := s.fab.rcache.filter fun x => x.die != l.die
  let keep := (mine ++ [l]).drop (mine.length + 1 - cap)
  { s with fab := { s.fab with rcache := others ++ keep } }

/-- Drop the lines that share a byte with `[lo, hi)` and satisfy `p`. -/
def State.dropLines (s : State) (p : CacheLine → Bool) : State :=
  { s with fab := { s.fab with rcache := s.fab.rcache.filter fun l => !p l } }

/-- INVAL (R333): MODE 0 drops every line of the run's slice, MODE 1 those of the addresses `a` to `a + n − 1`. -/
def State.inval (s : State) (slice mode a n : Nat) : State :=
  if mode = 0 then s.dropLines fun l => l.slice == slice
  else s.dropLines fun l => l.slice == slice && decide (a < l.addr + 64) && decide (l.addr < a + n)

-- ## This device's requests (R398 to R413)

/-- A request of this device. DEDUCED: log entry 95. -/
def State.req (s : State) (id : Nat) : Option Req := mapGet s.fab.reqs id

/-- The state with a request replaced. -/
def State.setReq (s : State) (id : Nat) (r : Req) : State := { s with fab := { s.fab with reqs := mapSet s.fab.reqs id r } }

/-- What stops a request before it is sent (R400 to R402, R414, R417, R440). -/
def State.sendRefusal (s : State) (dst job tc : Nat) (frame : Bool) : Option Nat :=
  firstStatus [(s.fenced, stFENCED), (decide (dst = 0x1FFFF), stLIMIT), (decide (s.epoch = 0), stUNREACHABLE),
    (decide (job = 0 ∨ job = 0xFFFF), stNOACCESS), (frame && dst != s.node && !s.fab.domain.contains dst, stNOACCESS),
    (dst != s.node && !Config.isMember s.epoch dst, stUNREACHABLE), (dst != s.node && s.classClosed tc, stCLASSCLOSED)]

/-- Count the outcome of a request of this device (Tables 13-9, 14-3). -/
def State.countOutcome (s : State) (st : Nat) : State :=
  if st = stUNREACHABLE then s.count JUG_UNREACH_COUNT
  else if st = stSTALEEPOCH then s.count JUG_STALE_OUT
  else if st = stCLASSCLOSED then s.count SHP_CLOSED_COUNT
  else s

/-- A scalar register of a frame written; s0 discards the write (R269). -/
def Frame.setS (x : Frame) (d : Nat) (v : Word) : Frame := if d = 0 then x else { x with sreg := mapSet x.sreg d v }

/-- The value of RLD from its bytes: extended from `size` bytes (R330). -/
def loadValue (size : Nat) (sx : Bool) (v : Nat) : Word :=
  if sx then BitVec.ofNat 64 (ofSigned (toSigned v (8 * size)) 64) else BitVec.ofNat 64 (v % 2 ^ (8 * size))

/-- The outcome of a request reaches the frame that issued it: a store is acknowledged (R310), or a reply fills its registers and
the frame goes on (R330, R332). DEDUCED: log entry 95. -/
def State.deliver (s : State) (id : Nat) (r : Req) (st : Nat) (value : Word) : State :=
  match r.frame with
  | none => s
  | some (run, f) =>
    match s.frame f with
    | none => s
    | some x =>
      if x.run ≠ run then s
      else if pktOp r.packet = opWRITE then
        let addr := globalAddr (leAt r.packet 4 3) (leAt r.packet 16 5)
        s.setFrame f { x with stores := x.stores.filter (· != id),
                              failed := if st = stOK ∨ x.failed.isSome then x.failed else some addr }
      else if x.wait = .reply id r.reg then
        s.setFrame f { ((x.setS r.reg (if st = stOK then value else 0)).setS (r.reg + 1) (BitVec.ofNat 64 st)) with wait := .none }
      else s

/-- What the reply of a request gives its register, and the line it fills (R330, R332, R410). -/
def State.replyValue (s : State) (r : Req) (st : Nat) (data : Bytes) : Word × State :=
  let p := Pkt.ofBytes r.packet
  if p.op = opREAD then
    if p.len = 64 ∧ r.frame.isSome = true then
      let s := match r.frame with
        | some (run, f) =>
          if st = stOK then s.fillLine ⟨frameDie f, (s.run run).elim 0 fun x => x.slice, globalAddr p.dst p.offset, data⟩ else s
        | none => s
      (loadValue (2 ^ r.size) r.sx (leAt data r.lineOff (2 ^ r.size)), s)
    else (loadValue (2 ^ r.size) r.sx (leAt data 0 (2 ^ r.size)), s)
  else (loadValue p.size (p.asize / 16 % 8 == 0) (leAt data 0 8), s)

/-- A request ends with a status (R413): it is forgotten, counted and delivered. -/
def State.finishReq (s : State) (id st : Nat) (data : Bytes) : State :=
  match s.req id with
  | none => s
  | some r =>
    let (v, s) := s.replyValue r st data
    let s := { s with fab := { s.fab with reqs := mapErase s.fab.reqs id } }
    (s.countOutcome st).deliver id r st v

/-- Send a request: to this device's own checks when it names its own node (R329), otherwise towards a port.
DESIGN CHOICE: log entry 94. -/
def State.launch (s : State) (id : Nat) : State :=
  match s.req id with
  | none => s
  | some r =>
    let p := Pkt.ofBytes r.packet
    if p.dst = s.node then
      let (st, data, s) := s.serve p
      if st = stBUSY then s.setReq id { r with stage := .sent, busyAt := some s.clock.mono } else s.finishReq id st data
    else (s.setReq id { r with stage := .ready, busyAt := none }).emit r.packet

/-- Stores of a source context that have no outcome yet, with their ids, in order of issue. -/
def State.storesOf (s : State) (ctx : Nat × Nat) : List (Nat × Req) :=
  s.fab.reqs.filter fun e => e.2.frame == some ctx && pktOp e.2.packet == opWRITE

/-- Two stores write the same naturally aligned 8-byte word (R408). -/
def sameWord (a b : Pkt) : Bool := a.dst == b.dst && a.offset / 8 == b.offset / 8

/-- A held store of a context that may leave now: no earlier store to its word; for RSTF no earlier store at all (R408). -/
def State.releasable (s : State) (ctx : Nat × Nat) : Option (Nat × Req) :=
  let all := s.storesOf ctx
  all.find? fun e =>
    e.2.stage == .held &&
    (all.all fun o => decide (e.1 ≤ o.1) || (let p := Pkt.ofBytes e.2.packet; !p.ordered && !sameWord (Pkt.ofBytes o.2.packet) p))

/-- Send the held stores of a context that may leave; an RSTF behind a failed store ends with ORDER_BROKEN (R408). -/
def State.releaseStores (ctx : Nat × Nat) : Nat → State → State
  | 0, s => s
  | fuel + 1, s =>
    match s.releasable ctx with
    | none => s
    | some (id, r) =>
      let broken := (Pkt.ofBytes r.packet).ordered && ((s.frame ctx.2).bind fun x => x.failed).isSome
      State.releaseStores ctx fuel (if broken then s.finishReq id stORDERBROKEN [] else s.launch id)

/-- A request ends, and what it held back goes on. -/
def State.completeReq (s : State) (id st : Nat) (data : Bytes) : State :=
  match s.req id with
  | none => s
  | some r =>
    let s := s.finishReq id st data
    match r.frame with
    | some ctx => State.releaseStores ctx (s.fab.reqs.length + 1) s
    | none => s

-- ## Requests of frames (R329 to R332)

/-- The packet of a frame's request. -/
def State.framePkt (s : State) (x : Frame) (op asize addr len : Nat) (payload : Bytes) : Pkt :=
  let job := (s.run x.run).elim 0 fun r => r.job
  { op := op, tc := (mapGet s.jobs job).elim 0 fun j => j.tc, retry := false, ordered := false, asize := asize,
    dst := addr / 2 ^ 40 % 2 ^ 17, src := s.node, job := job, epoch := s.epoch, offset := addr % 2 ^ 40, seqn := 0, ctx := x.lframe,
    len := len, status := 0, payload := payload }

/-- What a frame's request is refused with before it is sent: LIMIT for a nonzero bit in [63:57] (R329), then `sendRefusal`. -/
def State.frameRefusal (s : State) (p : Pkt) (addr : Nat) : Option Nat :=
  if addr / 2 ^ 57 ≠ 0 then some stLIMIT else s.sendRefusal p.dst p.job p.tc true

/-- A new request. -/
def State.addReq (s : State) (p : Pkt) (frame : Option (Nat × Nat)) (stage : ReqStage) (reg size : Nat) (sx : Bool) (lineOff : Nat) :
    State × Nat :=
  ({ s with nextId := s.nextId + 1 }.setReq s.nextId
    { packet := p.bytes, frame := frame, stage := stage, firstAt := s.clock.mono, sentAt := s.clock.mono, retries := 0, busyAt := none,
      reg := reg, size := size, sx := sx, lineOff := lineOff }, s.nextId)

/-- The lines of both dies that hold an address leave the read cache before a store or atomic of this device (R410). -/
def State.dropWritten (s : State) (addr : Nat) : State := s.dropLines fun l => l.addr == addr / 64 * 64

/-- RST and RSTF of frame `f` (R331): posted, held where R408 asks for it. -/
def State.remoteStore (s : State) (f size addr : Nat) (v : Word) (ordered : Bool) : State :=
  match s.frame f with
  | none => s
  | some x =>
    let p := { s.framePkt x opWRITE size addr (2 ^ size) (leBytes (2 ^ size) v.toNat) with ordered := ordered }
    match s.frameRefusal p addr with
    | some st => (s.countOutcome st).setFrame f { x with failed := if x.failed.isSome then x.failed else some addr }
    | none =>
      let (s, id) := (s.dropWritten addr).addReq p (some (x.run, f)) .held 0 size false 0
      let s := s.setFrame f { x with stores := x.stores ++ [id] }
      State.releaseStores (x.run, f) (s.fab.reqs.length + 1) s

/-- The registers of RLD and RATOM take a status and a value at once. -/
def State.replyNow (s : State) (f d st : Nat) (v : Word) : State :=
  match s.frame f with
  | some x => s.setFrame f ((x.setS d (if st = stOK then v else 0)).setS (d + 1) (BitVec.ofNat 64 st))
  | none => s

/-- Frame `f` waits for the reply of a request; then the request is sent. -/
def State.awaitReply (s : State) (f id d : Nat) : State :=
  match s.frame f with
  | some x => (s.setFrame f { x with wait := .reply id d }).launch id
  | none => s

/-- RLD of frame `f` (R330, R410). -/
def State.remoteLoad (s : State) (f d size : Nat) (sx : Bool) (addr : Nat) : State :=
  match s.frame f with
  | none => s
  | some x =>
    let p := s.framePkt x opREAD size addr (2 ^ size) []
    match s.frameRefusal p addr with
    | some st => (s.countOutcome st).replyNow f d st 0
    | none =>
      if p.dst = s.node then
        let (s, id) := s.addReq p (some (x.run, f)) .held d size sx 0
        s.awaitReply f id d
      else
        let slice := (s.run x.run).elim 0 fun r => r.slice
        match s.cached (frameDie f) slice addr with
        | some l => (s.count JUG_RCHIT_COUNT).replyNow f d stOK (loadValue (2 ^ size) sx (leAt l.data (addr % 64) (2 ^ size)))
        | none =>
          let line := { p with offset := p.offset / 64 * 64, len := 64 }
          let (s, id) := (s.count JUG_RCMISS_COUNT).addReq line (some (x.run, f)) .held d size sx (addr % 64)
          s.awaitReply f id d

/-- RATOM of frame `f` with operation, type, operand and compare value (R332, R411). -/
def State.remoteAtomic (s : State) (f d addr op ty : Nat) (b c : Word) : State :=
  match s.frame f with
  | none => s
  | some x =>
    let p := s.framePkt x opATOMIC (op + 16 * ty) addr 16 (leBytes 8 b.toNat ++ leBytes 8 c.toNat)
    match s.frameRefusal p addr with
    | some st => (s.countOutcome st).replyNow f d st 0
    | none =>
      let seqn := (mapGetD s.fab.seqns p.dst 0 + 1) % 2 ^ 24
      let s := { s with fab := { s.fab with seqns := mapSet s.fab.seqns p.dst seqn } }
      let (s, id) := (s.dropWritten addr).addReq { p with seqn := seqn } (some (x.run, f)) .held d 0 (ty == 0) 0
      s.awaitReply f id d

-- ## Replies and timeouts (R406, R409, R413)

/-- The request of this device that a reply answers. -/
def State.reqOf (s : State) (b : Bytes) : Option (Nat × Req) :=
  let q := Pkt.ofBytes b
  s.fab.reqs.find? fun e =>
    let p := Pkt.ofBytes e.2.packet
    e.2.stage == .sent && p.op + 0x80 == q.op && p.dst == q.src && p.job == q.job && p.ctx == q.ctx && p.offset == q.offset &&
    p.seqn == q.seqn

/-- A reply of operation `op` arrives (R413): a BUSY is waited out, any other status ends the request.
DESIGN CHOICE: log entry 96. -/
def State.reply (s : State) (op : Nat) (b : Bytes) (dt : Nat) : State :=
  let s := s.tick dt
  if pktOp b ≠ op then s
  else if !pktOk b then s.badPacket
  else match s.reqOf b with
    | none => s
    | some (id, r) =>
      let q := Pkt.ofBytes b
      if q.status = stBUSY then s.setReq id { r with busyAt := some s.clock.mono }
      else s.completeReq id q.status q.payload

/-- Send a request again, RETRY set (R413). -/
def State.resend (s : State) (id : Nat) (r : Req) (retries : Nat) : State :=
  let p := { Pkt.ofBytes r.packet with retry := true, epoch := s.epoch }
  (s.setReq id { r with packet := p.bytes, retries := retries, busyAt := none }).launch id

/-- MSG_RESEND: 100 µs after a BUSY a message is sent again (R406). DESIGN CHOICE: log entry 98. -/
def State.msgResend (s : State) (id dt : Nat) : State :=
  let s := s.tick dt
  match s.req id with
  | some r =>
    if pktOp r.packet = opMSG ∧ r.busyAt.elim false (fun t => decide (t + 100000 ≤ s.clock.mono)) = true then s.resend id r r.retries else s
  | none => s

/-- ATOMIC_RETRY_TIMEOUT: an RLD or RATOM without a reply is sent again after ATIMEOUT, up to RETRIES times; after a BUSY it is sent
again 100 µs later and nothing is counted (R413). -/
def State.atomicRetry (s : State) (id dt : Nat) : State :=
  let s := s.tick dt
  match s.req id with
  | none => s
  | some r =>
    let op := pktOp r.packet
    if r.frame.isNone ∨ ¬(op = opREAD ∨ op = opATOMIC) ∨ r.stage ≠ .sent then s
    else match r.busyAt with
      | some t => if t + 100000 ≤ s.clock.mono then s.resend id r r.retries else s
      | none =>
        if r.retries < s.fld JUG_RETRY_RETRIES ∧ r.sentAt + s.fld JUG_RETRY_ATIMEOUT * 10 ^ 6 ≤ s.clock.mono then s.resend id r (r.retries + 1)
        else s

/-- REQUEST_UNREACHABLE: 5 ms after its last sending a request that may not be sent again ends with UNREACHABLE (R406, R413).
DESIGN CHOICE (log entry 98): a message's own timeout is 5 ms from its first sending. -/
def State.unreachable (s : State) (id dt : Nat) : State :=
  let s := s.tick dt
  match s.req id with
  | none => s
  | some r =>
    let op := pktOp r.packet
    let spent := r.frame.isNone || decide (s.fld JUG_RETRY_RETRIES ≤ r.retries)
    if op = opMSG then (if r.stage = .sent ∧ r.firstAt + 5000000 ≤ s.clock.mono then s.completeReq id stUNREACHABLE [] else s)
    else if op ≠ opWRITE ∧ spent = true ∧ r.stage = .sent ∧ r.busyAt = none ∧ r.sentAt + 5000000 ≤ s.clock.mono then
      s.completeReq id stUNREACHABLE []
    else s

/-- WRITE_ACK_TIMEOUT: a WRITE without an acknowledgement 5 ms after it was sent ends with UNREACHABLE (R409). -/
def State.writeTimeout (s : State) (id dt : Nat) : State :=
  let s := s.tick dt
  match s.req id with
  | some r =>
    if pktOp r.packet = opWRITE ∧ r.stage = .sent ∧ r.sentAt + 5000000 ≤ s.clock.mono then s.completeReq id stUNREACHABLE [] else s
  | none => s

-- ## Egress (R431, R432, R440)

/-- A request packet of an operation that expects a reply. -/
def isRequest (b : Bytes) : Bool := [opREAD, opWRITE, opATOMIC, opMSG].contains (pktOp b)

/-- The ready request whose packet this is. -/
def State.readyReq (s : State) (b : Bytes) : Option (Nat × Req) :=
  s.fab.reqs.find? fun e => e.2.stage == .ready && s.withEpoch e.2.packet == s.withEpoch b

/-- A request packet of an engine that no frame issued becomes a request of this device (R398). DESIGN CHOICE: log entry 96. -/
def State.engineReq (s : State) (b : Bytes) : State × Nat :=
  ({ s with nextId := s.nextId + 1 }.setReq s.nextId
    { packet := b, frame := none, stage := .ready, firstAt := s.clock.mono, sentAt := s.clock.mono, retries := 0, busyAt := none, reg := 0,
      size := 0, sx := false, lineOff := 0 }, s.nextId)

/-- The request of a packet that arrives at a class queue: one that waits for a port, or an engine's. -/
def State.claimReq (s : State) (b : Bytes) : State × Option Nat :=
  if isRequest b then
    match s.readyReq b with
    | some (id, _) => (s, some id)
    | none => let r := s.engineReq b; (r.1, some r.2)
  else (s, none)

/-- EGRESS_ENQUEUE: a packet arrives at the queue of its class on a port (R432); a request whose class is closed on every UP port, or
that R400 to R402 do not let out, ends there (R440). DESIGN CHOICE: log entry 96. -/
def State.egressEnqueue (s : State) (port cls : Nat) (b : Bytes) (dt : Nat) : State :=
  let s := s.tick dt
  if !s.portUp port || pktTc b != cls || !pktOk b then s
  else
    let s := s.settle port
    let s := { s with fab := { s.fab with out := s.fab.out.erase b } }
    let (s, id) := s.claimReq b
    let p := Pkt.ofBytes b
    let engine := (id.bind s.req).elim false fun r => r.frame.isNone
    let refusal := if isRequest b then
        (if engine then s.sendRefusal p.dst p.job p.tc false else if s.classClosed cls then some stCLASSCLOSED else none)
      else none
    match id, refusal with
    | some i, some st => s.completeReq i st []
    | _, _ => s.setPort port ((s.port port).enqueue cls (s.fld SHP_WEIGHT_WEIGHT port cls) b)

/-- EGRESS_BEGIN: a port begins its next packet (R432); a request counts as sent from here (R440). -/
def State.egressBegin (s : State) (port dt : Nat) : State :=
  let s := s.tick dt
  if !s.portUp port then s
  else
    let s := s.settle port
    match s.nextClass port with
    | none => s
    | some c =>
      match (s.port port).queue c with
      | [] => s
      | q :: _ =>
        let s' := match s.readyReq q.bytes with
          | some (id, r) =>
            s.setReq id { r with stage := .sent, sentAt := s.clock.mono, firstAt := if r.retries = 0 ∧ !(Pkt.ofBytes r.packet).retry then s.clock.mono else r.firstAt }
          | none => s
        s'.beginPacket port c { q with bytes := if c = 0 then q.bytes else s.withEpoch q.bytes }

-- ## The link layer (R395, R396)

/-- The replayed flits that follow the last one received in order: sent again (R396). -/
def State.replayAfter (s : State) (p seq : Nat) : State :=
  let x := s.port p
  let again := x.replay.filter fun f => seqAfter (leAt f 1 2 % 4096) seq
  { s.count JUG_LINKRETX_REPLAYS 1 p with fab := { s.fab with flits := s.fab.flits ++ again.map fun f => (p, f) } }
where
  /-- Flit sequence `a` follows `b`, modulo 4,096. -/
  seqAfter (a b : Nat) : Bool := decide (a ≠ b) && decide ((a + 4096 - b) % 4096 < 2048)

/-- NAK: the far end names the last flit it received in order. -/
def State.nak (s : State) (p seq : Nat) : State := if s.portUp p then s.replayAfter p (seq % 4096) else s

/-- FLIT_RECEIVE: a flit's CRC, type, credits, acknowledgement and sequence (R395, R396). DESIGN CHOICE: log entry 120. -/
def State.flitReceive (s : State) (p : Nat) (f : Bytes) : State :=
  if !s.portUp p then s
  else if leAt f 252 4 ≠ (crc32c (bytesAt f 0 252)).toNat ∨ f.length ≠ 256 then (s.count JUG_LINKRETX_CRCERR 1 p).sendFlit p 3 []
  else
    let typ := leAt f 0 1
    if typ = 0 ∨ 3 < typ then s.badPacket
    else
      let x := s.port p
      let cls := leAt f 5 1 % 16
      let x := { x with acked := leAt f 3 2 % 4096, linkCredit := if leAt f 6 2 = 0 then x.linkCredit else mapSet x.linkCredit cls (mapGetD x.linkCredit cls 0 + leAt f 6 2) }
      let s := s.setPort p x
      if typ = 3 then s.replayAfter p (leAt f 3 2 % 4096)
      else if typ = 1 ∧ leAt f 1 2 % 4096 = (x.rxSeq + 1) % 4096 then
        s.setPort p { x with rxSeq := (x.rxSeq + 1) % 4096, rxSlots := x.rxSlots ++ chunks 16 15 (bytesAt f 8 240) }
      else s

end Sys2Proof.Machine
end

