-- ==== Sys2Proof/Machine/Epochs.lean ====
section
/-! DEFINITION. Membership epochs, leases, fencing and the fabric barriers (R414 to R421, R469, R517, R518). -/

namespace Sys2Proof.Machine

-- ## Control packets (R418, R469)

/-- The message that the tag of a critical packet covers: the header with STATUS 0, then the payload without the tag. -/
def controlMessage (b : Bytes) : Bytes :=
  let p := b.drop 32
  b.take 28 ++ [0, 0] ++ bytesAt b 30 2 ++ p.take (p.length - 16)

/-- Check the tag and the counter of a critical packet in domain 1 (R467, R469). -/
def State.criticalPacket (s : State) (b : Bytes) : Option Nat × State :=
  let p := b.drop 32
  s.critical 1 (leAt p 0 8) (controlMessage b) (p.drop (p.length - 16)) "PN-880 fabric"

/-- Answer a control packet: OP + 0x80 with a status. -/
def State.controlReply (s : State) (b : Bytes) (status : Nat) : State := s.emit (s.replyTo (Pkt.ofBytes b) status []).bytes

/-- The COMMAND entry of the log for an accepted critical packet (Table 19-3). DESIGN CHOICE: log entry 41. -/
def State.logPacket (s : State) (opcode : Nat) (b : Bytes) (status : Nat) : State :=
  s.logAppend ltCommand (leBytes 2 opcode ++ [1, 0xFF] ++ List.replicate 4 0 ++ leBytes 8 (leAt b 32 8) ++ leBytes 2 status ++ leBytes 2 0 ++
    leBytes 4 (if opcode = 0x0105 then leAt b 40 4 else 0))

/-- A control packet of an operation, without a fault of form apart from its counts. -/
def controlOk (op : Nat) (b : Bytes) : Bool := pktOk b && pktOp b == op

-- ## Fencing (R416 to R418)

/-- The device enters FENCED: inbound requests meet FENCED from here, its ownership records are gone (R417, R518). -/
def State.enterFenced (s : State) : State :=
  if s.fenced then s else { s.setFld JUG_EPOCH_STATE 2 with owns := [], fab := { s.fab with quiesced := 0 } }

/-- LEASE (R416, R418). DESIGN CHOICE: log entry 97. -/
def State.lease (s : State) (b : Bytes) (dt : Nat) : State :=
  let s := s.tick dt
  if pktOp b ≠ opLEASE then s
  else if !pktOk b ∨ leAt b 26 2 ≠ 32 ∨ leAt b 44 4 ≠ 0 then s.badPacket
  else
    let (st, s) := s.criticalPacket b
    if st.isSome ∨ leAt b 40 4 ≠ s.epoch ∨ s.fld JUG_EPOCH_STATE ≠ 1 then s
    else { s.count JUG_LEASE_GRANTS with fab := { s.fab with leaseAt := some s.clock.mono } }

/-- Length of a lease, 2 s in ns (R416). -/
abbrev leaseNs : Nat := 2 * 10 ^ 9

/-- LEASE_EXPIRY: 2 s after the last valid grant the device enters FENCED (R416). DESIGN CHOICE: log entry 97. -/
def State.leaseExpiry (s : State) (dt : Nat) : State :=
  let s := s.tick dt
  if s.fld JUG_EPOCH_STATE = 1 ∧ s.fab.leaseAt.elim false (fun t => decide (t + leaseNs ≤ s.clock.mono)) = true then s.enterFenced else s

/-- FENCE_PACKET (R416, R418): the reply waits for step 4 of Table 13-7. DESIGN CHOICE: log entry 96. -/
def State.fencePacket (s : State) (b : Bytes) : State :=
  if pktOp b ≠ opFENCE then s
  else if !pktOk b ∨ leAt b 26 2 ≠ 32 ∨ leAt b 44 3 / 2 ^ 17 ≠ 0 ∨ leAt b 47 1 ≠ 0 then s.badPacket
  else
    match s.criticalPacket b with
    | (some st, s) => s.controlReply b st
    | (none, s) =>
      if leAt b 44 3 ≠ s.node then (s.logPacket 0x0105 b stLIMIT).controlReply b stLIMIT
      else
        let s := (s.logPacket 0x0105 b stFENCED).enterFenced
        if 4 ≤ s.fab.quiesced then s.controlReply b stFENCED
        else { s with fab := { s.fab with fenceReplies := s.fab.fenceReplies ++ [b] } }

/-- FENCE on a ring or on the management port (R418): it completes with FENCED, as every command of a fenced device does. -/
def State.fenceCmd (s : State) (r seq : Nat) : State :=
  match s.running r seq 0x0105 with
  | none => s
  | some c =>
    if !c.unusedZero [(32, 8)] ∨ c.par 36 4 ≠ s.node then s.refuse c stLIMIT
    else s.enterFenced.finish c stFENCED

-- ## Barriers (R419 to R421)

/-- Place of a node in a job's tree. -/
def treeIndex (tree : List Nat) (node : Nat) : Option Nat := tree.findIdx? (· == node)

/-- The members of the group of place `i`: 64 in list order (R419). -/
def treeGroup (tree : List Nat) (i : Nat) : List Nat := (tree.drop (64 * (i / 64))).take 64

/-- The leaders of the groups, in list order. -/
def treeLeaders (tree : List Nat) : List Nat := (List.range (ceilDiv tree.length 64)).filterMap fun g => tree[64 * g]?

/-- A barrier packet of a job. DESIGN CHOICE (log entry 99): the barrier number in payload bytes 0–3, and in a release the member's rank in bytes 4–5
and the group's rank in bytes 6–7. -/
def State.barPacket (s : State) (op job dst : Nat) (payload : Bytes) : Bytes :=
  (Pkt.mk op 0 false false 0 dst s.node job s.epoch 0 0 0 payload.length 0 payload).bytes

/-- The pending barrier of a job at this device. DESIGN CHOICE: log entry 99. -/
def State.bar (s : State) (job : Nat) : BarState := mapGetD s.fab.bars job ⟨0, [], []⟩

/-- The state with a job's barrier replaced. -/
def State.setBar (s : State) (job : Nat) (b : BarState) : State := { s with fab := { s.fab with bars := mapSet s.fab.bars job b } }

/-- STRAGGLER_COUNT: a group 1 barrier completed at this device, last in its group or not (R420, R517). -/
def State.straggler (s : State) (last : Bool) : State :=
  let s := s.count FLT_STRAG_BARS
  let l := (s.fab.last64 ++ [last]).drop (s.fab.last64.length - 63)
  let n := l.countP id
  let s := ({ s with fab := { s.fab with last64 := l } }.setFld FLT_STRAG_LAST64 n).setFld FLT_STRAG_HINT
    (if 64 ≤ s.fld FLT_STRAG_BARS ∧ s.fld FLT_CFG_STRAGTHR ≤ n then 1 else 0)
  if last then s.count JUG_BARLAST_COUNT else s

/-- Runs of a job that wait at group 1 barrier `n` and have joined it. -/
def State.runsAt (s : State) (job n : Nat) : List Nat :=
  (s.runs.filter fun (e : Nat × Run) => e.2.job == job && e.2.barSent == n && e.2.phys.any fun f =>
    (s.frame f).elim false fun x => decide (x.wait = .barrier 1 n)).map Prod.fst

/-- A group 1 barrier completes at this member with its rank in a group of `size` (R419, R420). DESIGN CHOICE: log entry 99. -/
def State.memberRelease (s : State) (job n rank size : Nat) : State :=
  match s.runsAt job n with
  | [] => s
  | ids => (ids.foldl (fun (s : State) id => s.releaseBarrier id 1 n) s).straggler (rank + 1 == size)

/-- A leader passes a release on to its members, each with its rank (R419, R420). -/
def State.leaderRelease (s : State) (job n groupRank : Nat) : State :=
  let b := s.bar job
  let tree := mapGetD s.fab.trees job []
  let group := (treeIndex tree s.node).elim [] (treeGroup tree)
  let s := s.setBar job ⟨n, [], []⟩
  let s := group.foldl (fun (s : State) m =>
    if m = s.node then s
    else s.emit (s.barPacket opBARRELEASE job m (leBytes 4 n ++ leBytes 2 ((b.arrived.findIdx? (· == m)).getD 0) ++ leBytes 2 groupRank))) s
  s.memberRelease job n ((b.arrived.findIdx? (· == s.node)).getD 0) group.length

/-- The root counts a group that has arrived, and releases the barrier with the last (R419). -/
def State.groupArrive (s : State) (job n leader : Nat) : State :=
  let b := s.bar job
  let tree := mapGetD s.fab.trees job []
  let b := { b with number := n, groups := b.groups ++ [leader] }
  let s := s.setBar job b
  if b.groups.length = (treeLeaders tree).length then
    let rank := fun (g : Nat) => (b.groups.findIdx? (· == g)).getD 0
    let s := (treeLeaders tree).foldl (fun (s : State) l =>
      if l = s.node then s else s.emit (s.barPacket opBARRELEASE job l (leBytes 4 n ++ leBytes 2 0 ++ leBytes 2 (rank l)))) s
    s.leaderRelease job n (rank s.node)
  else s

/-- A member of this leader's group arrives; the last arrival goes on to the root (R419). -/
def State.memberArrive (s : State) (job n node : Nat) : State :=
  let b := s.bar job
  let tree := mapGetD s.fab.trees job []
  let group := (treeIndex tree s.node).elim [] (treeGroup tree)
  let b := { b with number := n, arrived := b.arrived ++ [node] }
  let s := s.setBar job b
  if b.arrived.length = group.length then
    let root := tree.getD 0 0
    if root = s.node then s.groupArrive job n s.node else s.emit (s.barPacket opBARARRIVE job root (leBytes 4 n))
  else s

/-- The barrier number that a job expects next at this device. -/
def BarState.expects (b : BarState) (n : Nat) : Bool :=
  if b.arrived.isEmpty && b.groups.isEmpty then n == b.number + 1 || n == 1 else n == b.number

/-- The frames of a run have all reached a barrier of group 1: the device joins it (R419). With no tree for the run's job it waits.
DESIGN CHOICE: log entry 99. -/
def State.joinFabric (s : State) (run : Nat) : State :=
  match s.run run, s.readyToJoin run with
  | some r, some n =>
    let s := s.setRun run { r with barSent := n }
    let tree := mapGetD s.fab.trees r.job []
    match treeIndex tree s.node with
    | none => s
    | some i =>
      let leader := tree.getD (64 * (i / 64)) 0
      if leader = s.node then s.memberArrive r.job n s.node else s.emit (s.barPacket opBARARRIVE r.job leader (leBytes 4 n))
  | _, _ => s

/-- A barrier packet of operation `op` whose form is right, of this epoch. -/
def State.barOk (s : State) (op len : Nat) (b : Bytes) : Bool := controlOk op b && leAt b 26 2 == len && leAt b 12 4 == s.epoch

/-- BAR_ARRIVE: a member, or at the root a group leader, arrives (R419, R421). -/
def State.barArrive (s : State) (b : Bytes) : State :=
  if pktOp b ≠ opBARARRIVE then s
  else
    let p := Pkt.ofBytes b
    let n := leAt b 32 4
    let tree := mapGetD s.fab.trees p.job []
    let st := s.bar p.job
    match treeIndex tree s.node, treeIndex tree p.src with
    | some i, some j =>
      if !s.barOk opBARARRIVE 4 b || !st.expects n || i % 64 != 0 then s.badPacket
      else if j / 64 = i / 64 then (if st.arrived.contains p.src then s.badPacket else s.memberArrive p.job n p.src)
      else if i = 0 ∧ j % 64 = 0 then (if st.groups.contains p.src then s.badPacket else s.groupArrive p.job n p.src)
      else s.badPacket
    | _, _ => s.badPacket

/-- BAR_RELEASE: relayed by a leader, or completing the barrier at a member (R419 to R421). -/
def State.barRelease (s : State) (b : Bytes) : State :=
  if pktOp b ≠ opBARRELEASE then s
  else
    let p := Pkt.ofBytes b
    let n := leAt b 32 4
    let tree := mapGetD s.fab.trees p.job []
    match treeIndex tree s.node with
    | none => s.badPacket
    | some i =>
      if !s.barOk opBARRELEASE 8 b then s.badPacket
      else if i % 64 = 0 then (if i ≠ 0 ∧ (s.bar p.job).number = n ∧ (s.bar p.job).arrived ≠ [] then s.leaderRelease p.job n (leAt b 38 2) else s.badPacket)
      else if (s.runsAt p.job n).isEmpty then s.badPacket
      else s.memberRelease p.job n (leAt b 36 2) (treeGroup tree i).length

/-- The frames of a job's runs that wait at a group 1 barrier halt with BAR_BROKEN (R285, R421). -/
def State.breakRuns (s : State) (job : Nat) : State :=
  (s.runs.filter fun (e : Nat × Run) => e.2.job == job).foldl (fun (s : State) (e : Nat × Run) =>
    if e.2.phys.any fun f => (s.frame f).elim false fun x => x.atBarrier 1 then s.haltAll e.1 fcBARBROKEN fun x => x.atBarrier 1 else s) s

/-- BARRIER_BREAK_SEND: a root or leader ends the pending barrier of a job, telling those it leads (R421).
DESIGN CHOICE: log entry 99. -/
def State.breakBarrier (s : State) (job : Nat) (tree : List Nat) : State :=
  let b := s.bar job
  let pending := !b.arrived.isEmpty || !b.groups.isEmpty
  match treeIndex tree s.node with
  | some i =>
    if pending && i % 64 == 0 then
      let dests := ((treeGroup tree i) ++ (if i = 0 then treeLeaders tree else [])).filter fun n => n != s.node
      let s := dests.foldl (fun (s : State) n => s.emit (s.barPacket opBARBREAK job n (leBytes 4 b.number))) s
      (s.setBar job ⟨b.number, [], []⟩).breakRuns job
    else s
  | none => s

/-- BAR_BREAK: the waiting frames halt; a leader passes it on (R421). -/
def State.barBreak (s : State) (b : Bytes) : State :=
  if pktOp b ≠ opBARBREAK then s
  else if !controlOk opBARBREAK b ∨ leAt b 26 2 ≠ 4 then s.badPacket
  else
    let job := (Pkt.ofBytes b).job
    (s.breakBarrier job (mapGetD s.fab.trees job [])).breakRuns job

-- ## Epochs (R414, R418)

/-- The tree records of an EPOCH_SET part from byte `off` on: job, REMOVE, FIRST and nodes; none where the bytes do not fit. -/
def treeRecords (b : Bytes) : Nat → Nat → Option (List (Nat × Bool × Nat × List Nat) × Nat)
  | 0, off => some ([], off)
  | n + 1, off =>
    let count := leAt b (off + 6) 2
    if b.length < off + 8 + 4 * count ∨ 1 < leAt b (off + 2) 1 ∨ leAt b (off + 3) 1 ≠ 0 then none
    else
      let remove := leAt b (off + 2) 1 = 1
      let nodes := (List.range count).map fun i => leAt b (off + 8 + 4 * i) 4
      if (nodes.any fun v => decide (2 ^ 17 ≤ v)) || (decide remove && (decide (leAt b (off + 4) 2 ≠ 0) || decide (count ≠ 0))) then none
      else (treeRecords b n (off + 8 + 4 * count)).map fun r => ((leAt b off 2, decide remove, leAt b (off + 4) 2, nodes) :: r.1, r.2)

/-- A part's domain entries and tree records; none where its counts or reserved bytes are wrong (R418). `b` runs from EPOCH on. -/
def epochPart (b : Bytes) : Option (List Nat × List (Nat × Bool × Nat × List Nat)) :=
  let ndom := leAt b 8 2
  let dom := (List.range ndom).map fun i => leAt b (16 + 4 * i) 4
  if b.length < 16 + 4 * ndom ∨ leAt b 12 4 ≠ 0 ∨ leAt b 6 2 = 0 ∨ 64 < leAt b 6 2 ∨ leAt b 6 2 ≤ leAt b 4 2 ∨
      (dom.any fun v => decide (2 ^ 17 ≤ v)) = true then none
  else match treeRecords b (leAt b 10 2) (16 + 4 * ndom) with
    | some (ts, fin) => if fin = b.length then some (dom, ts) else none
    | none => none

/-- A tree from its records: the nodes by place, none for a gap or more than 4,096 members (R418). -/
def treeOf (recs : List (Nat × List Nat)) : Option (List Nat) :=
  let len := maxNat (recs.map fun r => r.1 + r.2.length)
  let m := recs.foldl (fun (m : KMap Nat) r => (List.range r.2.length).foldl (fun (m : KMap Nat) i => mapSet m (r.1 + i) (r.2.getD i 0)) m) []
  if len ≤ 4096 ∧ m.length = len then some (mapVals m) else none

/-- The jobs that a set of records names. -/
def treeJobs (ts : List (Nat × Bool × Nat × List Nat)) : List Nat := distinct (ts.map fun t => t.1)

/-- The trees after a set of records; none where one is refused. -/
def treesAfter (old : KMap (List Nat)) (ts : List (Nat × Bool × Nat × List Nat)) : Option (KMap (List Nat)) :=
  (treeJobs ts).foldl (fun (acc : Option (KMap (List Nat))) job =>
    acc.bind fun m =>
      let mine := ts.filter fun t => t.1 == job
      if mine.any fun t => t.2.1 then some (mapErase m job)
      else (treeOf (mine.map fun t => t.2.2)).map fun l => mapSet m job l) (some old)

/-- Requests held for this epoch are served now (R415). -/
def State.serveHolds (s : State) : State :=
  let hs := s.fab.holds
  hs.foldl (fun (s : State) (e : Nat × HeldReq) =>
    let p := Pkt.ofBytes e.2.packet
    if s.epoch < p.epoch then s
    else
      let s := { s with fab := { s.fab with holds := mapErase s.fab.holds e.1 } }
      s.inboundEpoch e.2.packet) s

/-- Accept a complete EPOCH_SET (R414, R416, R418, R421): its final status and the state after it. -/
def State.acceptEpoch (s : State) (e : Nat) (parts : List Bytes) : Nat × State :=
  let ps := parts.filterMap epochPart
  let dom := ps.flatMap fun p => p.1
  match treesAfter s.fab.trees (ps.flatMap fun p => p.2) with
  | none => (stLIMIT, s)
  | some trees =>
    if 256 < dom.length then (stLIMIT, s)
    else
      let old := s.fab.trees
      let removed := (mapKeys old).filter fun j => (mapGetD old j []).any fun n => !(mapGetD trees j []).contains n
      let s := removed.foldl (fun (s : State) j => s.breakBarrier j (mapGetD old j [])) s
      let s := (s.setFld JUG_EPOCH_EPOCH e).setFld JUG_EPOCH_STATE 1
      let s := { s with fab := { s.fab with domain := if dom.contains s.node then dom else dom ++ [s.node], trees := trees,
                                            parts := s.fab.parts.filter fun p => decide (e < p.1) } }
      if dom.contains s.node then (stOK, s.serveHolds) else (stFENCED, s.enterFenced)

/-- EPOCH_SET_PART: a part of an EPOCH_SET arrives in TC 0 (R418). -/
def State.epochSetPart (s : State) (b : Bytes) : State :=
  if pktOp b ≠ opEPOCHSET then s
  else
    let body := (b.drop 40).take (leAt b 26 2 - 24)
    if !pktOk b ∨ leAt b 26 2 < 40 ∨ (epochPart body).isNone = true then s.badPacket
    else match s.criticalPacket b with
      | (some st, s) => s.controlReply b st
      | (none, s) =>
        let e := leAt body 0 4
        if s.fenced then (s.logPacket 0x0107 b stFENCED).controlReply b stFENCED
        else if e ≤ s.epoch then (s.logPacket 0x0107 b stSTALEEPOCH).controlReply b stSTALEEPOCH
        else
          let set := mapGetD s.fab.parts e { nparts := leAt body 6 2, parts := [] }
          let set := { set with parts := mapSet set.parts (leAt body 4 2) body }
          let s := { s with fab := { s.fab with parts := mapSet (s.fab.parts.filter fun p => decide (e ≤ p.1)) e set } }
          if set.parts.length < set.nparts then (s.logPacket 0x0107 b stBUSY).controlReply b stBUSY
          else
            let s := { s with fab := { s.fab with parts := mapErase s.fab.parts e } }
            let (st, s) := s.acceptEpoch e (mapVals set.parts)
            (s.logPacket 0x0107 b st).controlReply b st

/-- EPOCH_SET on a ring or on the management port (R414, R418). -/
def State.epochSetCmd (s : State) (r seq : Nat) : State :=
  match s.running r seq 0x0107 with
  | none => s
  | some c =>
    let body := s.payload c
    if !c.unusedZero [] ∨ (epochPart body).isNone = true ∨ leAt body 6 2 ≠ 1 then s.refuse c stLIMIT
    else if leAt body 0 4 ≤ s.epoch then s.refuse c stSTALEEPOCH
    else
      let (st, s) := s.acceptEpoch (leAt body 0 4) [body]
      s.finish c st

-- ## Quiesce (R417)

/-- Requests that step 1 of Table 13-7 discards. DEDUCED: log entry 117. -/
def quiesceDrops (b : Bytes) : Bool := [opWRITE, opATOMIC, opMSG].contains (pktOp b)

/-- Every command without a record ends with FENCED and gets its record (Table 13-7, step 3). DEDUCED: log entry 117. -/
def State.endAllFenced (s : State) : State :=
  let open_ := (mapVals s.cmds).filter fun c => c.stage != .recorded
  open_.foldl (fun (s : State) (c : Cmd) =>
    match s.cmd c.ring c.seq with
    | some d => s.complete { d with stage := .finished, status := stFENCED, outputs := [], count := 0 }
    | none => s) s

/-- QUIESCE: steps 1 to 4 of Table 13-7 after the device has been fenced. DEDUCED: log entry 117. -/
def State.quiesce (s : State) : State :=
  if !s.fenced ∨ 4 ≤ s.fab.quiesced then s
  else
    let s := (mapKeys s.fab.bars).foldl (fun (s : State) j => s.breakBarrier j (mapGetD s.fab.trees j [])) s
    let s := { s with
      fab := { s.fab with out := s.fab.out.filter fun b => !quiesceDrops b, reqs := [] }
      ports := mapMap s.ports fun _ x => { x with queues := mapMap x.queues fun _ q => q.filter fun e => !quiesceDrops e.bytes } }
    let s := (mapKeys s.runs).foldl (fun (s : State) id => s.endRun id stFENCED) s
    let s := { s with calls := [] }.endAllFenced
    let s := (List.range 64).foldl (fun (s : State) r => s.updateStatus r) s
    let replies := s.fab.fenceReplies
    let s := { s with fab := { s.fab with quiesced := 4, fenceReplies := [] } }
    replies.foldl (fun (s : State) b => s.controlReply b stFENCED) s

/-- QUIESCE_DEPOT_FLUSH: step 5 of Table 13-7. DEDUCED: log entry 117. -/
def State.quiesceDepotFlush (s : State) : State :=
  if s.fab.quiesced = 4 then
    let s := (List.range 4).foldl (fun (s : State) j => (List.range 2).foldl (fun (s : State) l => s.flushNow j l) s) s
    { s with fab := { s.fab with quiesced := 5 } }
  else s

end Sys2Proof.Machine
end

