-- ==== Sys2Proof/Machine/Flags.lean ====
section
/-! DEFINITION. The flags and counters that frame instructions leave behind: saturation and NaN counts with their slice's own (R181,
R208, R212, R554), the bank's SATB, and zero-run flags (R222). -/

namespace Sys2Proof.Machine

/-- Change the counts kept for the telemetry of a run's slice (R554). -/
def State.countRun (s : State) (run : Nat) (f : SliceCounts → SliceCounts) : State :=
  match s.run run with
  | some r => { s with counts := mapSet s.counts r.slice (f (s.sliceCounts r.slice)) }
  | none => s

/-- Elements saturated by QCVT (CMP_CVTSAT). -/
def State.countCvtSat (s : State) (run n : Nat) : State :=
  if n = 0 then s else (s.count CMP_CVTSAT_COUNT n).countRun run fun c => { c with cvtsat := c.cvtsat + n }

/-- NaN elements that QCVT converted to a target without NaN (CMP_CVTNAN). -/
def State.countCvtNan (s : State) (run n : Nat) : State :=
  if n = 0 then s else (s.count CMP_CVTNAN_COUNT n).countRun run fun c => { c with cvtnan := c.cvtnan + n }

/-- Results saturated by CARRY (CMP_CARRYSAT). -/
def State.countCarrySat (s : State) (run n : Nat) : State :=
  if n = 0 then s else (s.count CMP_CARRYSAT_COUNT n).countRun run fun c => { c with carrysat := c.carrysat + n }

/-- Bank elements saturated by a slab (CMP_ACCSAT). -/
def State.countAccSat (s : State) (run n : Nat) : State :=
  if n = 0 then s else (s.count CMP_ACCSAT_COUNT n).countRun run fun c => { c with accsat := c.accsat + n }

/-- Chunks of 32 codes that are all 0, of a row stored at `off` of a frame-store allocation: their byte offsets and lengths (R222). -/
def zeroChunks (bits off : Nat) (codes : List Nat) : List (Nat × Nat) :=
  (List.range (ceilDiv codes.length 32)).filterMap fun c =>
    let cs := (codes.drop (32 * c)).take 32
    if cs.all (· == 0) then some (off + 32 * c * bits / 8, ceilDiv (cs.length * bits) 8) else none

/-- Set the zero-run flags of a row just written at `off` of allocation `id`, when it lies in frame store (R222). -/
def State.flagRow (s : State) (id bits off : Nat) (codes : List Nat) : State :=
  if (s.alloc id).elim false fun a => a.tier == 0 then
    { s with zruns := s.zruns ++ (zeroChunks bits off codes).map fun z => (id, z.1, z.2) }
  else s

/-- The flag of the chunk of `n` bytes at `off` is set. -/
def State.zeroRun (s : State) (id off n : Nat) : Bool := s.zruns.contains (id, off, n)

end Sys2Proof.Machine
end

