-- ==== Sys2Proof/Machine/FrameDecode.lean ====
section
/-! DEFINITION. Bundles (R272, R273) and the slots' instructions with their encodings (R296 to R334): a decoder that is total on any
128 bits and refuses every reserved encoding. -/

namespace Sys2Proof.Machine

/-- A slot's guard (R296). -/
structure Guard where
  pg : Nat
  pn : Bool
  deriving DecidableEq, Repr

/-- The two-operand functions of a slot A immediate form. -/
inductive ImmFn where
  | add | and_ | or_ | xor_
  deriving DecidableEq, Repr

/-- Shifts by an immediate. -/
inductive ShiftFn where
  | shl | shr | sar
  deriving DecidableEq, Repr

/-- The instructions of slot A (Table 10-3). Immediates are 64-bit words; offsets are signed. -/
inductive AOp where
  | nop
  | b (off : Int)
  | br (a : Nat)
  | call (d : Nat) (off : Int)
  | ret (a : Nat)
  | loop (d : Nat) (off : Int)
  | wait (q d : Nat)
  | halt (code : Nat)
  | alu (fn d a b : Nat)
  | imm (fn : ImmFn) (d a : Nat) (v : BitVec 64)
  | movi (d : Nat) (v : BitVec 64)
  | shift (fn : ShiftFn) (d a sh : Nat)
  | cmp (pd cond a b : Nat)
  | cmpi (pd cond a : Nat) (v : BitVec 64)
  | plog (fn pd pa pb : Nat)
  | ld (d aa size : Nat) (sx : Bool) (ofs : Int)
  | st (a aa size : Nat) (ofs : Int)
  | mka (ad : Nat) (v : BitVec 64)
  | adda (ad aa b : Nat)
  | mova (ad a : Nat)
  | movs (d aa : Nat)
  | movsp (d sel : Nat)
  | tdld (td aa : Nat) (ofs : Int)
  | tdbase (td aa : Nat)
  | bar (g : Nat)
  | fence (kind : Nat)
  | fencep (a b : Nat)
  | tallyOpen (slot a : Nat)
  | tallyClose (slot : Nat)
  deriving DecidableEq, Repr

/-- Lane types (Table 10-5). -/
inductive Ty where
  | f32 | h16 | i32 | u32
  deriving DecidableEq, Repr

/-- Lane operations on two vectors. -/
inductive LaneFn where
  | add | sub | mul | min | max | div | and_ | or_ | xor_ | shl | shr | sar
  deriving DecidableEq, Repr

/-- The instructions of slot V (Table 10-6). -/
inductive VOp where
  | nop
  | bin (fn : LaneFn) (ty : Ty) (vd va vb : Nat)
  | fma (ty : Ty) (vd va vb vc : Nat)
  | sqrt (vd va : Nat)
  | exp2 (vd va : Nat)
  | cmp (cond : Nat) (ty : Ty) (vd va vb : Nat)
  | sel (vd va vb vc : Nat)
  | popc (vd va : Nat)
  | red (fn : Nat) (ty : Ty) (vd va : Nat)
  | cvt (fn vd va vb : Nat)
  | bc (ty : Ty) (vd a : Nat)
  | ext (d va lane : Nat)
  | sgn (d va : Nat)
  | ld (v aa mode r : Nat) (ofs : Int)
  | st (v aa mode r : Nat) (ofs : Int)
  deriving DecidableEq, Repr

/-- The operands of MMA (Table 10-10). -/
structure MmaOp where
  form : Nat
  bank : Nat
  tda : Nat
  tdw : Nat
  tdp : Nat
  tdx : Nat
  tdi : Nat
  start : Bool
  usep : Bool
  usex : Bool
  usei : Bool
  zskip : Bool
  align : Nat
  deriving DecidableEq, Repr

/-- The operands of QCVT (layout TV). -/
structure QcvtOp where
  tds : Nat
  tdd : Nat
  gran : Nat
  sr : Bool
  satfp : Bool
  trap : Bool
  sn : Nat
  banksrc : Bool
  bank : Nat
  deriving DecidableEq, Repr

/-- The engine instructions (R334). -/
inductive EngineFn where
  | walk | sweep | topk | merge | gather | scatadd
  deriving DecidableEq, Repr

/-- The instructions of slot T (Tables 10-9 and 10-10). -/
inductive TOp where
  | nop
  | carry (bank tdd aa : Nat) (perch : Bool)
  | qscan (tds aa gran kind tfmt : Nat)
  | qcvt (o : QcvtOp)
  | stream (tds tdd : Nat)
  | prefetch (alloc a : Nat) (route : Bool) (aa : Nat)
  | rld (d a size : Nat) (sx : Bool)
  | rst (d a size : Nat) (ordered : Bool)
  | ratom (d a b c op ty : Nat)
  | inval (mode a b : Nat)
  | engine (fn : EngineFn) (aa ofs : Nat)
  | mma (o : MmaOp)
  deriving DecidableEq, Repr

/-- A decoded bundle: its three slots with their guards. -/
structure Bundle where
  ag : Guard
  a : AOp
  vg : Guard
  v : VOp
  tg : Guard
  t : TOp
  deriving DecidableEq, Repr

/-- A guard that always executes. -/
def Guard.always : Guard := ⟨0, false⟩

-- ## Slot A (R301 to R303)

/-- The sign-extended field of `w` bits at `lo`. -/
def sfield (v lo w : Nat) : Int := toSigned (bitsOf v lo w) w

/-- A signed field as a 64-bit word. -/
def swordOf (i : Int) : BitVec 64 := BitVec.ofNat 64 (ofSigned i 64)

/-- Register field d of the layouts, bits [29:25]. -/
def fD (v : Nat) : Nat := bitsOf v 25 5
/-- Register field a, bits [24:20]. -/
def fA (v : Nat) : Nat := bitsOf v 20 5
/-- Address register field aa, bits [24:21]. -/
def fAA (v : Nat) : Nat := bitsOf v 21 4

/-- Keep `x` when a condition on the encoding holds (R297). -/
def legal {α : Type} (c : Bool) (x : α) : Option α := if c then some x else none

/-- The immediate of layout AI: the field, or the literal with the field 0 (R298). -/
def aiImm (v : Nat) (lit : Option Nat) : Option (BitVec 64) :=
  match lit with
  | none => some (swordOf (sfield v 0 20))
  | some x => if bitsOf v 0 20 = 0 then some (BitVec.ofNat 64 x) else none

/-- The immediate of layout ACI. -/
def aciImm (v : Nat) (lit : Option Nat) : Option (BitVec 64) :=
  match lit with
  | none => some (swordOf (sfield v 0 19))
  | some x => if bitsOf v 0 19 = 0 then some (BitVec.ofNat 64 x) else none

/-- The I-forms of slot A, the only ones that FORMAT 0x3 admits (R298). -/
def decodeI (opc v : Nat) (lit : Option Nat) : Option AOp :=
  let d := fD v
  let a := fA v
  match opc with
  | 0x09 => (aiImm v lit).map (AOp.imm .add d a)
  | 0x0A => (aiImm v lit).map (AOp.imm .and_ d a)
  | 0x0B => (aiImm v lit).map (AOp.imm .or_ d a)
  | 0x0C => (aiImm v lit).map (AOp.imm .xor_ d a)
  | 0x0D => if a = 0 then (aiImm v lit).map (AOp.movi d) else none
  | 0x12 => if bitsOf v 24 3 ≤ 5 then (aciImm v lit).map (AOp.cmpi (bitsOf v 27 3) (bitsOf v 24 3) (bitsOf v 19 5)) else none
  | 0x16 =>
    if d < 16 ∧ a = 0 ∧ bitsOf v 12 8 = 0 then
      match lit with
      | none => some (.mka d (BitVec.ofNat 64 (bitsOf v 0 12 * 2 ^ 52)))
      | some x => if bitsOf v 0 12 = 0 then some (.mka d (BitVec.ofNat 64 x)) else none
    else none
  | _ => none

/-- The other forms of slot A. -/
def decodeANoLit (opc v : Nat) : Option AOp :=
  let d := fD v
  let a := fA v
  let off := sfield v 0 20
  let low := fun (n : Nat) => bitsOf v 0 n == 0
  match opc with
  | 0x00 => legal (v == 0) .nop
  | 0x01 => legal (d == 0 && a == 0) (.b off)
  | 0x02 => legal (d == 0 && low 20) (.br a)
  | 0x03 => legal (a == 0) (.call d off)
  | 0x04 => legal (d == 0 && low 20) (.ret a)
  | 0x05 => legal (a == 0) (.loop d off)
  | 0x06 => legal (low 22 && d != 31) (.wait (bitsOf v 22 3) d)
  | 0x07 => legal (v / 2 ^ 16 == 0) (.halt (bitsOf v 0 16))
  | 0x08 =>
    let fn := bitsOf v 9 6
    let b := bitsOf v 15 5
    legal (low 9 && decide (fn ≤ 21) && (decide (fn < 19) || b == 0)) (.alu fn d a b)
  | 0x0E => legal (bitsOf v 6 14 == 0) (.shift .shl d a (bitsOf v 0 6))
  | 0x0F => legal (bitsOf v 6 14 == 0) (.shift .shr d a (bitsOf v 0 6))
  | 0x10 => legal (bitsOf v 6 14 == 0) (.shift .sar d a (bitsOf v 0 6))
  | 0x11 => legal (low 14 && decide (bitsOf v 24 3 ≤ 5)) (.cmp (bitsOf v 27 3) (bitsOf v 24 3) (bitsOf v 19 5) (bitsOf v 14 5))
  | 0x13 => legal (low 19) (.plog (bitsOf v 19 2) (bitsOf v 27 3) (bitsOf v 24 3) (bitsOf v 21 3))
  | 0x14 =>
    let size := bitsOf v 18 3
    legal (decide (size ≤ 3) && !(size == 3 && bitOf v 17)) (.ld d (fAA v) size (bitOf v 17) (sfield v 0 17))
  | 0x15 => legal (decide (bitsOf v 18 3 ≤ 3) && !bitOf v 17) (.st d (fAA v) (bitsOf v 18 3) (sfield v 0 17))
  | 0x17 => legal (decide (d < 16) && low 16) (.adda d (fAA v) (bitsOf v 16 5))
  | 0x18 => legal (decide (d < 16) && low 20) (.mova d a)
  | 0x19 => legal (low 21) (.movs d (fAA v))
  | 0x1A => legal (bitsOf v 3 22 == 0 && decide (bitsOf v 0 3 ≤ 5)) (.movsp d (bitsOf v 0 3))
  | 0x1B => legal (!bitOf v 25) (.tdld (bitsOf v 26 4) (fAA v) (sfield v 0 21))
  | 0x1C => legal (!bitOf v 25 && low 21) (.tdbase (bitsOf v 26 4) (fAA v))
  | 0x1D => legal (decide (v ≤ 1)) (.bar v)
  | 0x1E => legal (decide (1 ≤ v) && decide (v ≤ 3)) (.fence v)
  | 0x1F => legal (d == 0 && low 15) (.fencep a (bitsOf v 15 5))
  | 0x20 => legal (low 19) (.tallyOpen (bitsOf v 24 6) (bitsOf v 19 5))
  | 0x21 => legal (bitsOf v 0 24 == 0) (.tallyClose (bitsOf v 24 6))
  | _ => decodeI opc v none

/-- Slot A from its 40 bits, with the literal of FORMAT 0x3. -/
def decodeA (w : Nat) (lit : Option Nat) : Option (Guard × AOp) :=
  let g : Guard := ⟨bitsOf w 37 3, bitOf w 36⟩
  let opc := bitsOf w 30 6
  let v := bitsOf w 0 30
  match lit with
  | none => (decodeANoLit opc v).map fun o => (g, o)
  | some _ => (decodeI opc v lit).map fun o => (g, o)

-- ## Slot V (R312 to R317)

/-- TY of a vector instruction. -/
def tyOf : Nat → Option Ty
  | 0 => some .f32 | 1 => some .h16 | 2 => some .i32 | 3 => some .u32 | _ => none

/-- A two-vector operation whose TY must be one of a list, with FN and vc 0. -/
def decodeBin (fn : LaneFn) (v : Nat) (tys : List Ty) : Option VOp :=
  (tyOf (bitsOf v 9 3)).bind fun ty =>
    legal (tys.contains ty && bitsOf v 12 5 == 0 && bitsOf v 6 3 == 0) (.bin fn ty (bitsOf v 27 5) (bitsOf v 22 5) (bitsOf v 17 5))

/-- Layout VR: bits [5:0] are 0. -/
def decodeVR (opc v : Nat) : Option VOp :=
  let vd := bitsOf v 27 5
  let va := bitsOf v 22 5
  let vb := bitsOf v 17 5
  let vc := bitsOf v 12 5
  let tyc := bitsOf v 9 3
  let fn := bitsOf v 6 3
  match opc with
  | 0x00 => legal (v == 0) .nop
  | 0x01 => decodeBin .add v [.f32, .h16, .i32, .u32]
  | 0x02 => decodeBin .sub v [.f32, .h16, .i32, .u32]
  | 0x03 => decodeBin .mul v [.f32, .h16, .i32, .u32]
  | 0x04 => (tyOf tyc).bind fun ty => legal ((ty == .f32 || ty == .h16) && fn == 0) (.fma ty vd va vb vc)
  | 0x05 => decodeBin .min v [.f32, .h16, .i32, .u32]
  | 0x06 => decodeBin .max v [.f32, .h16, .i32, .u32]
  | 0x07 => decodeBin .div v [.f32]
  | 0x08 => legal (tyc == 0 && fn == 0 && vb == 0 && vc == 0) (.sqrt vd va)
  | 0x09 => legal (tyc == 0 && fn == 0 && vb == 0 && vc == 0) (.exp2 vd va)
  | 0x0A => decodeBin .and_ v [.i32, .u32]
  | 0x0B => decodeBin .or_ v [.i32, .u32]
  | 0x0C => decodeBin .xor_ v [.i32, .u32]
  | 0x0D => decodeBin .shl v [.i32, .u32]
  | 0x0E => decodeBin .shr v [.u32]
  | 0x0F => decodeBin .sar v [.i32]
  | 0x10 => (tyOf tyc).bind fun ty =>
      legal (vc == 0 && decide (fn ≤ if ty = .f32 ∨ ty = .h16 then 3 else 5)) (.cmp fn ty vd va vb)
  | 0x11 => legal (tyc == 0 && fn == 0) (.sel vd va vb vc)
  | 0x12 => legal (tyc == 3 && fn == 0 && vb == 0 && vc == 0) (.popc vd va)
  | 0x13 => (tyOf tyc).bind fun ty => legal (ty != .h16 && decide (fn ≤ 2) && vb == 0 && vc == 0) (.red fn ty vd va)
  | 0x14 => legal (tyc == 0 && decide (fn ≤ 6) && vc == 0 && (fn == 2 || vb == 0)) (.cvt fn vd va vb)
  | _ => none

/-- Slot V from its 42 bits. -/
def decodeV (w : Nat) : Option (Guard × VOp) :=
  let g : Guard := ⟨bitsOf w 39 3, bitOf w 38⟩
  let opc := bitsOf w 32 6
  let v := bitsOf w 0 32
  let op :=
    if opc = 0x15 then (tyOf (bitsOf v 9 3)).bind fun ty => legal (bitsOf v 12 10 == 0 && bitsOf v 0 9 == 0) (VOp.bc ty (bitsOf v 27 5) (bitsOf v 22 5))
    else if opc = 0x16 then legal (bitsOf v 0 16 == 0) (VOp.ext (bitsOf v 27 5) (bitsOf v 22 5) (bitsOf v 16 6))
    else if opc = 0x17 then legal (bitsOf v 0 22 == 0) (VOp.sgn (bitsOf v 27 5) (bitsOf v 22 5))
    else if opc = 0x18 then legal (decide (bitsOf v 21 2 ≤ 2)) (VOp.ld (bitsOf v 27 5) (bitsOf v 23 4) (bitsOf v 21 2) (bitsOf v 16 5) (sfield v 0 16))
    else if opc = 0x19 then legal (decide (bitsOf v 21 2 ≤ 2)) (VOp.st (bitsOf v 27 5) (bitsOf v 23 4) (bitsOf v 21 2) (bitsOf v 16 5) (sfield v 0 16))
    else if bitsOf v 0 6 = 0 then decodeVR opc v
    else none
  op.map fun o => (g, o)

-- ## Slot T (R318 to R334)

/-- The TYs that an atomic operation allows (Table 10-11). -/
def ratomTys : Nat → List Nat
  | 0 => [0, 1, 4]
  | 1 | 4 | 5 | 6 => [0, 1]
  | 2 | 3 => [0, 1, 2, 3]
  | _ => []

/-- An engine instruction, layout TE. -/
def decodeTE (fn : EngineFn) (v : Nat) : Option TOp := legal (bitsOf v 26 2 == 0) (.engine fn (bitsOf v 28 4) (bitsOf v 0 26))

/-- Short slot T from its 42 bits. -/
def decodeT (w : Nat) : Option (Guard × TOp) :=
  let g : Guard := ⟨bitsOf w 39 3, bitOf w 38⟩
  let v := bitsOf w 0 32
  let hi := bitsOf v 28 4
  let lo := bitsOf v 24 4
  let rd := bitsOf v 27 5
  let ra := bitsOf v 22 5
  let size := bitsOf v 19 3
  let op : Option TOp :=
    match bitsOf w 32 6 with
    | 0x00 => legal (v == 0) .nop
    | 0x01 => legal (bitsOf v 0 21 == 0) (.carry (bitsOf v 30 2) (bitsOf v 26 4) (bitsOf v 22 4) (bitOf v 21))
    | 0x02 => legal (bitsOf v 0 17 == 0) (.qscan hi lo (bitsOf v 22 2) (bitsOf v 21 1) (bitsOf v 17 4))
    | 0x03 => legal (bitsOf v 0 11 == 0 && (!bitOf v 13 || hi == 0))
        (.qcvt ⟨hi, lo, bitsOf v 22 2, bitOf v 21, bitOf v 20, bitOf v 19, bitsOf v 14 5, bitOf v 13, bitsOf v 11 2⟩)
    | 0x04 => legal (bitsOf v 0 24 == 0) (.stream hi lo)
    | 0x05 => legal (bitsOf v 0 10 == 0) (.prefetch (bitsOf v 20 12) (bitsOf v 15 5) (bitOf v 14) (bitsOf v 10 4))
    | 0x06 => legal (bitsOf v 0 18 == 0 && decide (size ≤ 3) && !(size == 3 && bitOf v 18) && rd != 31) (.rld rd ra size (bitOf v 18))
    | 0x07 => legal (bitsOf v 0 18 == 0 && decide (size ≤ 3)) (.rst rd ra size false)
    | 0x08 => legal (bitsOf v 0 18 == 0 && decide (size ≤ 3)) (.rst rd ra size true)
    | 0x09 => legal (bitsOf v 0 5 == 0 && (ratomTys (bitsOf v 8 4)).contains (bitsOf v 5 3) && rd != 31)
        (.ratom rd ra (bitsOf v 17 5) (bitsOf v 12 5) (bitsOf v 8 4) (bitsOf v 5 3))
    | 0x0A => legal (bitsOf v 27 3 == 0 && bitsOf v 0 17 == 0 && decide (bitsOf v 30 2 ≤ 1)) (.inval (bitsOf v 30 2) ra (bitsOf v 17 5))
    | 0x10 => decodeTE .walk v
    | 0x11 => decodeTE .sweep v
    | 0x12 => decodeTE .topk v
    | 0x13 => decodeTE .merge v
    | 0x14 => decodeTE .gather v
    | 0x15 => decodeTE .scatadd v
    | _ => none
  op.map fun o => (g, o)

/-- The forms of MMA that take 2:4 sparse weights. -/
def sparseForm (form : Nat) : Bool := decide (6 ≤ form)

/-- Long slot T from its 84 bits. -/
def decodeTLong (w : Nat) : Option (Guard × TOp) :=
  let o : MmaOp :=
    { form := bitsOf w 70 4, bank := bitsOf w 68 2, tda := bitsOf w 64 4, tdw := bitsOf w 60 4, tdp := bitsOf w 56 4,
      tdx := bitsOf w 52 4, tdi := bitsOf w 48 4, start := bitOf w 47, usep := bitOf w 46, usex := bitOf w 45, usei := bitOf w 44,
      zskip := bitOf w 43, align := bitsOf w 37 6 }
  if w = 0 then some (⟨0, false⟩, .nop)
  else
    legal (bitsOf w 74 6 == 1 && bitsOf w 0 37 == 0 && decide (o.form ≤ 8) && (o.start || !o.usep) && (o.usei == sparseForm o.form) &&
        decide (o.align ≤ 40) && ([0, 2, 8].contains o.form || o.align == 0))
      (⟨bitsOf w 81 3, bitOf w 80⟩, .mma o)

-- ## What a slot writes (R273)

/-- A register, bank or queue that a slot writes. -/
inductive Res where
  | s (n : Nat) | p (n : Nat) | v (n : Nat) | a (n : Nat) | td (n : Nat) | bank (n : Nat) | queue (n : Nat)
  deriving DecidableEq, Repr

/-- What an instruction of slot A writes. -/
def AOp.writes : AOp → List Res
  | .call d _ | .loop d _ | .alu _ d _ _ | .imm _ d _ _ | .movi d _ | .shift _ d _ _ | .ld d _ _ _ _ | .movs d _ | .movsp d _ => [.s d]
  | .wait q d => [.s d, .s (d + 1), .queue q]
  | .cmp pd _ _ _ | .cmpi pd _ _ _ | .plog _ pd _ _ => [.p pd]
  | .mka ad _ | .adda ad _ _ | .mova ad _ => [.a ad]
  | .tdld t _ _ | .tdbase t _ => [.td t]
  | _ => []

/-- What an instruction of slot V writes. -/
def VOp.writes : VOp → List Res
  | .bin _ _ d _ _ | .fma _ d _ _ _ | .sqrt d _ | .exp2 d _ | .cmp _ _ d _ _ | .sel d _ _ _ | .popc d _ | .red _ _ d _ | .cvt _ d _ _
  | .bc _ d _ | .ld d _ _ _ _ => [.v d]
  | .ext d _ _ | .sgn d _ => [.s d]
  | _ => []

/-- What an instruction of slot T writes. -/
def TOp.writes : TOp → List Res
  | .rld d _ _ _ | .ratom d _ _ _ _ _ => [.s d, .s (d + 1)]
  | .mma o => [.bank o.bank]
  | _ => []

/-- No two slots write the same register, bank or queue. DEDUCED: log entries 103, 125. -/
def Bundle.disjoint (b : Bundle) : Bool :=
  let x := b.a.writes
  let y := b.v.writes
  let z := b.t.writes
  x.all (fun r => !y.contains r && !z.contains r) && y.all fun r => !z.contains r

-- ## The bundle (R272)

/-- The slots of a bundle, or none for ILLEGAL_BUNDLE (R273). -/
def decodeBundle (w : Nat) : Option Bundle :=
  let slotA := bitsOf w 84 40
  let parts : Option (Guard × AOp × Guard × VOp × Guard × TOp) :=
    match bitsOf w 124 4 with
    | 1 => do
      let (ag, a) ← decodeA slotA none
      let (vg, v) ← decodeV (bitsOf w 42 42)
      let (tg, t) ← decodeT (bitsOf w 0 42)
      pure (ag, a, vg, v, tg, t)
    | 2 => do
      let (ag, a) ← decodeA slotA none
      let (tg, t) ← decodeTLong (bitsOf w 0 84)
      pure (ag, a, Guard.always, VOp.nop, tg, t)
    | 3 => do
      let (ag, a) ← decodeA slotA (some (bitsOf w 0 64))
      if bitsOf w 64 20 = 0 then pure (ag, a, Guard.always, VOp.nop, Guard.always, TOp.nop) else none
    | _ => none
  parts.bind fun (ag, a, vg, v, tg, t) =>
    let b : Bundle := ⟨ag, a, vg, v, tg, t⟩
    if b.disjoint then some b else none

end Sys2Proof.Machine
end

