-- ==== Sys2Proof/Machine/Operands.lean ====
section
/-! DEFINITION. The operands of frame instructions: registers, tier-neutral addresses (R262), layer windows (R226 to R228), tensors
through descriptor registers (R261, R271), and stores with the tally contributions they make (R232 to R234). -/

namespace Sys2Proof.Machine

-- ## Registers (R269)

/-- s0–s31: s0 reads 0. -/
def Frame.s (x : Frame) (n : Nat) : Word := if n = 0 then 0 else mapGetD x.sreg n 0

/-- p0–p7: p0 is true. -/
def Frame.p (x : Frame) (n : Nat) : Bool := decide (n = 0) || bitOf x.preg n

/-- v0–v31. -/
def Frame.v (x : Frame) (n : Nat) : BitVec 2048 := mapGetD x.vreg n 0

/-- a0–a15. -/
def Frame.a (x : Frame) (n : Nat) : Word := mapGetD x.areg n 0

/-- Write a predicate; p0 discards the write. -/
def Frame.setP (x : Frame) (n : Nat) (b : Bool) : Frame :=
  if n = 0 then x else { x with preg := setBitsOf x.preg n 1 (if b then 1 else 0) }

/-- Write a vector register. -/
def Frame.setV (x : Frame) (n : Nat) (v : BitVec 2048) : Frame := { x with vreg := mapSet x.vreg n v }

/-- Write an address register. DEDUCED: log entry 103. -/
def Frame.setA (x : Frame) (n : Nat) (v : Word) : Frame := { x with areg := mapSet x.areg n v }

/-- A guard holds (R296). -/
def Frame.guard (x : Frame) (g : Guard) : Bool := x.p g.pg != g.pn

/-- Change frame `f`. -/
def State.modFrame (s : State) (f : Nat) (g : Frame → Frame) : State := { s with frames := mapUpdate s.frames f g }

-- ## Addresses (R262, R305)

/-- aa + offset, modulo 2⁶⁴. -/
def addrPlus (a : Word) (off : Int) : Nat := (a + BitVec.ofInt 64 off).toNat

/-- Where an address leads: into an allocation, or into the result window at a ring-region offset. -/
inductive Target where
  | alloc (id off : Nat)
  | result (off : Nat)
  deriving DecidableEq, Repr

/-- The instance of an allocation number that a frame sees. -/
def Consist.instance_ (k : Consist) (num lframe : Nat) : Option Nat :=
  match mapGet k.allocs num with
  | some [id] => some id
  | some ids => ids[lframe]?
  | none => none

/-- The consist that frame `x` runs. -/
def State.consistOf (s : State) (x : Frame) : Option Consist := (s.run x.run).bind s.runConsist

/-- The place of `n` bytes at an address, none for ADDR_RANGE (R262). -/
def State.resolve (s : State) (x : Frame) (addr n : Nat) (write : Bool) : Option Target :=
  match s.run x.run, s.consistOf x with
  | some r, some k =>
    let num := addrAlloc addr
    let off := addrOff addr
    if num = 0xFFE then
      match s.cmd r.ring r.seq with
      | some c => if off + n ≤ k.resultbytes then some (.result (s.outBase c + off)) else none
      | none => none
    else if num = 0xFFF ∧ write then none
    else match k.instance_ num x.lframe with
      | some id => if (s.alloc id).elim false fun a => decide (off + n ≤ a.size) then some (.alloc id off) else none
      | none => none
  | _, _ => none

/-- Bytes at an address that resolves. -/
def State.readAddr (s : State) (x : Frame) (addr n : Nat) : Bytes :=
  match s.resolve x addr n false with
  | some (.alloc id off) => s.allocBytes id off n
  | some (.result off) => memRead s.ringMem off n
  | none => List.replicate n 0

-- ## Layer windows (R226 to R228)

/-- What keeps an instruction from completing: it waits (for a window, for a page under a move, or for something that is not
counted), or it faults with a cause and an address. -/
inductive Stop where
  | wait (window : Bool)
  | moving
  | fault (cause addr : Nat)
  deriving DecidableEq, Repr

/-- A window of which nothing has been declared. -/
def WindowState.blank : WindowState := { decls := [], last := [], fetched := [], bitmaps := [] }

/-- What a governing frame has declared of a window: every layer once it has halted (R309). -/
def State.declared (s : State) (r : Run) (w : WindowDecl) (st : WindowState) (lf : Nat) : Option Nat :=
  if (s.frame (r.phys.getD lf 0)).elim false Frame.live then mapGet st.decls lf else some w.layers

/-- The lowest layer a window still holds: the least declaration of its frames, none before each has declared (R227). -/
def State.windowBase (s : State) (r : Run) (w : WindowDecl) (st : WindowState) : Option Nat :=
  let ds := (onesFrom 192 0 w.frames).map fun lf => s.declared r w st lf
  ds.foldl (fun (acc : Option Nat) d => match acc, d with | some a, some b => some (min a b) | _, _ => none) (some w.layers)

/-- The layer of a region. -/
def WindowDecl.layerOf (w : WindowDecl) (region : Nat) : Nat :=
  ((List.range w.layers).find? fun l => decide (region < w.lstart.getD (l + 1) 0)).getD 0

/-- What a read of region `g` of a window meets (R227, R228). -/
def State.regionStop (s : State) (r : Run) (w : WindowDecl) (st : WindowState) (g addr : Nat) : Option Stop :=
  let l := w.layerOf g
  match s.windowBase r w st with
  | none => some (.wait true)
  | some b =>
    if l < b then some (.fault fcWINDOWGONE addr)
    else if w.routed && (mapGet st.bitmaps l).elim false (fun m => !bitOf m (g - w.lstart.getD l 0)) then some (.fault fcWINDOWGONE addr)
    else if st.fetched.contains l then none
    else some (.wait true)

/-- What a read of `n` bytes at an address meets in the windows of the consist. -/
def State.windowStop (s : State) (x : Frame) (addr n : Nat) : Option Stop :=
  match s.run x.run, s.consistOf x with
  | some r, some k =>
    (k.windows.flatMap fun (e : Nat × WindowDecl) =>
      let st := mapGetD r.windows e.1 WindowState.blank
      (List.range e.2.regions.length).filterMap fun g =>
        let q := e.2.regions.getD g (0, 0)
        if q.1 < addr + n ∧ addr < q.1 + q.2 then s.regionStop r e.2 st g addr else none).head?
  | _, _ => none

/-- What a read meets in memory itself: MEM_UNCORR on poison or on flash that cannot be read (R354, R379). -/
def State.mediaStop (s : State) (x : Frame) (addr n : Nat) : Option Stop :=
  match s.resolve x addr n false with
  | some (.alloc id off) => (s.readStatus id off n).map fun _ => .fault fcMEMUNCORR addr
  | _ => none

/-- What a read of bytes in range meets. -/
def State.readStop (s : State) (x : Frame) (addr n : Nat) : Option Stop := (s.windowStop x addr n) <|> (s.mediaStop x addr n)

/-- What a store meets: a partial store to a poisoned unit (R354), or a page that is being copied (R344). -/
def State.writeStop (s : State) (x : Frame) (addr n : Nat) : Option Stop :=
  match s.resolve x addr n true with
  | some (.alloc id off) =>
    if s.partPoison id off n then some (.fault fcMEMUNCORR addr) else if s.moving id off n then some .moving else none
  | some (.result _) => none
  | none => some (.fault fcADDRRANGE addr)

-- ## Stores and tally contributions (R232 to R234)

/-- Powers in GF(2¹²⁸) over the low `fuel` bits of the exponent. -/
def gf128PowGo : Nat → BitVec 128 → Nat → BitVec 128 → BitVec 128
  | 0, _, _, acc => acc
  | fuel + 1, h, n, acc => gf128PowGo fuel (gf128Mul h h) (n / 2) (if n % 2 = 1 then gf128Mul acc h else acc)

/-- The contribution of element `i` with bit pattern `b` under key `h` (R232). -/
def tallyWord (h : BitVec 128) (i b : Nat) : BitVec 128 := gf128Mul (BitVec.ofNat 128 (2 ^ 32 + b)) (gf128PowGo 50 h (i + 1) 1)

/-- Byte offset of each run of dimension 0, in canonical order. -/
def Tensor.rows (t : Tensor) : List Nat :=
  (List.range (t.dim 3)).flatMap fun i3 => (List.range (t.dim 2)).flatMap fun i2 => (List.range (t.dim 1)).map fun i1 =>
    i1 * t.stride 1 + i2 * t.stride 2 + i3 * t.stride 3

/-- Code of element `i` of a run of elements of `bits` bits (R178). -/
def elemCode (bits : Nat) (bs : Bytes) (i : Nat) : Nat := leAt bs (i * bits / 8) (ceilDiv bits 8) / 2 ^ (i * bits % 8) % 2 ^ bits

/-- The canonical indexes of a tensor's elements that bytes `[lo, hi)` of its allocation touch. -/
def Tensor.touched (t : Tensor) (lo hi : Nat) : List Nat :=
  let rows := t.rows
  (List.range rows.length).flatMap fun r =>
    let base := addrOff t.base + rows.getD r 0
    let a := max lo base
    let b := min hi (base + t.rowBytes)
    if b ≤ a then []
    else
      let first := 8 * (a - base) / t.bits
      let last := min (t.dim 0) (ceilDiv (8 * (b - base)) t.bits)
      (List.range (last - first)).map fun j => r * t.dim 0 + first + j

/-- Address of the run of dimension 0 that holds element `i`. -/
def Tensor.rowOf (t : Tensor) (i : Nat) : Nat := t.base + t.rows.getD (i / t.dim 0) 0

/-- A tally slot bound to tensor `t` after a frame's store of `n` bytes at an address (R234). -/
def State.tallySlot (s : State) (x : Frame) (h : BitVec 128) (t : Tensor) (addr n : Nat) (ts : TallySlot) : TallySlot :=
  if addrAlloc t.base = addrAlloc addr then
    (t.touched (addrOff addr) (addrOff addr + n)).foldl (fun (ts : TallySlot) i =>
      let code := elemCode t.bits (s.readAddr x (t.rowOf i) t.rowBytes) (i % t.dim 0)
      { ts with digest := ts.digest ^^^ tallyWord h i code, count := ts.count + 1 }) ts
  else ts

/-- The elements of open tally slots that a frame has just written contribute (R234). -/
def State.tallyStore (s : State) (x : Frame) (addr n : Nat) : State :=
  match s.run x.run, s.consistOf x with
  | some r, some k =>
    if r.tallies.isEmpty then s
    else
      let h := BitVec.ofNat 128 k.tallykey
      s.setRun x.run { r with tallies := mapMap r.tallies fun _ ts => s.tallySlot x h (Tensor.ofBytes (k.tds.getD ts.entry.td [])) addr n ts }
  | _, _ => s

/-- Bytes stored at an address in range, with no contribution to a digest. -/
def State.storeRaw (s : State) (x : Frame) (addr : Nat) (bs : Bytes) : State :=
  match s.resolve x addr bs.length true with
  | some (.alloc id off) => s.allocStore id off bs
  | some (.result off) => { s with ringMem := memWrite s.ringMem off bs }
  | none => s

/-- A frame stores bytes at an address in range. -/
def State.frameStore (s : State) (x : Frame) (addr : Nat) (bs : Bytes) : State :=
  if (s.resolve x addr bs.length true).isSome then (s.storeRaw x addr bs).tallyStore x addr bs.length else s

/-- The accesses of a read are counted for promotion (R342). -/
def State.touchAddr (s : State) (x : Frame) (addr n : Nat) : State :=
  match s.resolve x addr n false with
  | some (.alloc id off) => s.touchRead id off n
  | _ => s

-- ## Tensors (R261, R271)

/-- The descriptor of a td register whose elements lie in their allocation; none for TD_BAD (R271, R308). -/
def State.tensor (s : State) (x : Frame) (td : Nat) : Option Tensor :=
  (mapGet x.tds td).bind fun b =>
    let t := Tensor.ofBytes b
    if (s.resolve x t.base t.extent false).isSome then some t else none

/-- Codes of a run of dimension 0. -/
def rowCodes (bits n : Nat) (bs : Bytes) : List Nat := (List.range n).map (elemCode bits bs)

/-- The bytes of a run of codes (R178). -/
def packCodes (bits : Nat) (codes : List Nat) : Bytes :=
  leBytes (ceilDiv (codes.length * bits) 8) (codes.foldr (fun c v => c + 2 ^ bits * v) 0)

/-- The runs of a tensor's codes, in canonical order. -/
def State.tensorRows (s : State) (x : Frame) (t : Tensor) : List (List Nat) :=
  t.rows.map fun off => rowCodes t.bits (t.dim 0) (s.readAddr x (t.base + off) t.rowBytes)

/-- Every code of a tensor in canonical order. -/
def State.tensorCodes (s : State) (x : Frame) (t : Tensor) : List Nat := (s.tensorRows x t).flatten

/-- What a read of a whole tensor meets. -/
def State.tensorReadStop (s : State) (x : Frame) (t : Tensor) : Option Stop :=
  (t.rows.filterMap fun off => s.readStop x (t.base + off) t.rowBytes).head?

/-- What stores to a whole tensor meet. -/
def State.tensorWriteStop (s : State) (x : Frame) (t : Tensor) : Option Stop :=
  (t.rows.filterMap fun off => s.writeStop x (t.base + off) t.rowBytes).head?

/-- Write the runs of a tensor, `flag` setting the zero-run flags of what lies in frame store (R222). -/
def State.writeTensor (s : State) (x : Frame) (t : Tensor) (rows : List (List Nat)) (flag : Bool) : State :=
  let offs := t.rows
  (List.range offs.length).foldl (fun (s : State) r =>
    let codes := rows.getD r []
    let addr := t.base + offs.getD r 0
    let s := s.frameStore x addr (packCodes t.bits codes)
    if flag then
      match s.resolve x addr 1 true with
      | some (.alloc id off) => s.flagRow id t.bits off codes
      | _ => s
    else s) s

/-- Two descriptors have the same dimensions. -/
def Tensor.sameDims (a b : Tensor) : Bool := a.dims == b.dims

/-- A stop as a fault of cause TD_BAD. -/
def tdBad (x : Frame) (td : Nat) : Stop := .fault fcTDBAD ((mapGet x.tds td).elim 0 fun b => leAt b 0 8)

-- ## Groups and scale records (R183, R187)

/-- Group of element `i` of a tensor under GRAN 0, 1 or 2, and the number of groups. -/
def Tensor.groupOf (t : Tensor) (gran i : Nat) : Nat :=
  match gran with
  | 0 => 0
  | 1 =>
    let ax := t.chaxis
    i / ((t.dims.take ax).foldl (· * ·) 1) % t.dim ax
  | _ => i / t.dim 0 * ceilDiv (t.dim 0) 32 + i % t.dim 0 / 32

/-- Number of groups. -/
def Tensor.groups (t : Tensor) (gran : Nat) : Nat :=
  match gran with
  | 0 => 1
  | 1 => t.dim t.chaxis
  | _ => t.count / max (t.dim 0) 1 * ceilDiv (t.dim 0) 32

/-- `n` scale records at an address. DEDUCED: log entry 107. -/
def State.scaleRecs (s : State) (x : Frame) (addr n : Nat) : List ScaleRec :=
  (List.range n).map fun i => ScaleRec.ofWord (leAt (s.readAddr x (addr + 8 * i) 8) 0 8)

end Sys2Proof.Machine
end

