-- ==== Sys2Proof/Machine/Rods.lean ====
section
/-! DEFINITION. The rod array (chapter 7): operand pairs, the checks of MMA, START, exact slab sums, and their addition to the banks
(R210 to R222, R320 to R323). -/

namespace Sys2Proof.Machine

-- ## Operand pairs (R211, Table 7-2)

/-- What a pair of operands computes. -/
inductive Pair where
  | int | fp4 | fp8 | flt | bin
  deriving DecidableEq, Repr

/-- The pair of a form and two formats, none for ARITH_FMT (R211, R322). Forms 6 to 8 are the sparse forms of 0 to 2. -/
def pairOf (form : Nat) (a w : Option Fmt) : Option Pair :=
  match a, w with
  | some a, some w =>
    match form with
    | 0 => if (a = .int4 ∨ a = .uint4) ∧ w = .int4 then some .int else if a = .fp4 ∧ w = .fp4 then some .fp4 else none
    | 6 => if (a = .int4 ∨ a = .uint4) ∧ w = .int4 then some .int else none
    | 1 | 7 => if (a = .int8 ∨ a = .uint8) ∧ w = .int8 then some .int else none
    | 2 | 8 => if (a = .e4m3 ∨ a = .e5m2) ∧ (w = .e4m3 ∨ w = .e5m2) then some .fp8 else none
    | 3 => if a = .fp16 ∧ w = .fp16 then some .flt else none
    | 4 => if a = .bf16 ∧ w = .bf16 then some .flt else none
    | _ => if a = .bin1 ∧ w = .bin1 then some .bin else none
  | _, _ => none

/-- Logical slab length of a form (Table 7-2). -/
def slabLen (form : Nat) : Nat :=
  match form with
  | 0 => 128 | 1 => 64 | 2 => 64 | 3 => 16 | 4 => 16 | 5 => 512 | 6 => 256 | _ => 128

/-- Bank mode of a form. -/
def formMode (form : Nat) : BankMode := if form = 3 ∨ form = 4 then .fp32 else .int32

/-- Steps that 16 logical reduction indices take (R221). -/
def unitSteps (form : Nat) : Nat := 2048 / slabLen form

/-- Pattern of a residue disagreement of a form (R512). -/
def formClass (form : Nat) : Nat := match form with | 0 => 0 | 1 => 1 | 2 => 2 | 3 => 3 | 4 => 3 | _ => 4

-- ## Banks (R212, R216, R217)

/-- A bank without START since the frame was loaded. -/
def Bank.unstarted : Bank := { mode := .unstarted, satb := false, init := [], elems := [] }

/-- Bank `b` of a frame. -/
def Frame.bank (x : Frame) (b : Nat) : Bank := mapGetD x.banks b Bank.unstarted

/-- Element (m, n) of a bank: a 32-bit pattern. -/
def Bank.elem (b : Bank) (m n : Nat) : Nat := (mapGet b.elems (128 * m + n)).getD (mapGetD b.init n 0)

/-- START (R216): every element is its column's preload or 0, the mode is that of the form, SATB is clear. -/
def Bank.start (mode : BankMode) (pre : List Nat) : Bank :=
  { mode := mode, satb := false,
    init := (List.range pre.length).filterMap fun n => if pre.getD n 0 = 0 then none else some (n, pre.getD n 0), elems := [] }

-- ## Checks (R300, R321, R322)

/-- Dimensions above DIM1 are 1. -/
def Tensor.flat (t : Tensor) : Bool := t.dim 2 == 1 && t.dim 3 == 1

/-- Shapes of R321 for TDA, TDW and the operands in use. -/
def mmaShapes (o : MmaOp) (a w : Tensor) (p x i : Option Tensor) : Bool :=
  let r := a.dim 0
  let c := w.dim 1
  a.flat && w.flat && decide (a.dim 1 ≤ 256) && decide (c ≤ 128) &&
  (if sparseForm o.form then r % 4 == 0 && w.dim 0 == r / 2 else w.dim 0 == r) &&
  (i.elim true fun t => t.flat && t.dim 0 == r / 4 && t.dim 1 == c) &&
  (x.elim true fun t => t.flat && t.dim 0 == ceilDiv r 16 && t.dim 1 == 1) &&
  (p.elim true fun t => t.flat && decide (c ≤ t.dim 0))

/-- Both operands are FP4. -/
def isFp4 (a w : Tensor) : Bool := a.fmt == 2 && w.fmt == 2

/-- Scale records of a tensor with one per block of 32. -/
def Tensor.blocks (t : Tensor) : Nat := t.groups 2

/-- Scale records that MMA reads of an operand: every block's for FP4; of scaled weights the first, or every block's where it has
BLOCK. -/
def State.mmaRecs (s : State) (x : Frame) (t : Tensor) (all : Bool) : List ScaleRec :=
  if all then s.scaleRecs x t.scales t.blocks
  else
    let r := s.scaleRecs x t.scales 1
    if r.any fun e => e.block then s.scaleRecs x t.scales t.blocks else r

/-- SCALE is a power of two. -/
def pow2Scale (code : Nat) : Bool :=
  let m := code % 2 ^ 23
  let e := code / 2 ^ 23 % 256
  if e = 0 then popcount 23 m == 1 else m == 0

/-- A weight or FP4 record that halts with SCALE_BAD (R184, R185, R215). -/
def badRec (fp4 weight : Bool) (r : ScaleRec) : Bool := !r.ok || (weight && r.asym) || (fp4 && (!r.block || !pow2Scale r.scale))

/-- The index half of group `g` of a column is bad (R220). -/
def badHalf (h : Nat) : Bool := decide (h / 4 % 4 ≤ h % 4)

/-- The first slab with a bad index half (R220). -/
def State.sparseBad (s : State) (x : Frame) (form : Nat) (i : Tensor) : Option Nat :=
  let per := slabLen form / 4
  let bads := (s.tensorRows x i).flatMap fun col => (List.range col.length).filterMap fun g => if badHalf (col.getD g 0) then some (g / per) else none
  match bads with
  | [] => none
  | b :: bs => some (bs.foldl min b)

/-- A td register that an instruction names when `use` is set: none when it is not used, `some none` when it is bad. -/
def State.optTensor (s : State) (x : Frame) (use : Bool) (td : Nat) : Option (Option Tensor) :=
  if use then (s.tensor x td).map some else some none

/-- The tensors an MMA works on. -/
structure MmaTensors where
  a : Tensor
  w : Tensor
  p : Option Tensor
  x : Option Tensor
  i : Option Tensor
  deriving DecidableEq, Repr

/-- The tensors of an MMA; none for TD_BAD. -/
def State.mmaTensors (s : State) (x : Frame) (o : MmaOp) : Option MmaTensors :=
  match s.tensor x o.tda, s.tensor x o.tdw, s.optTensor x o.usep o.tdp, s.optTensor x o.usex o.tdx, s.optTensor x o.usei o.tdi with
  | some a, some w, some p, some m, some i =>
    if mmaShapes o a w p m i && (!isFp4 a w || (a.scaled && w.scaled)) then some ⟨a, w, p, m, i⟩ else none
  | _, _, _, _, _ => none

/-- Checks of MMA in the order of R300 and R322, up to SPARSE_BAD of a mask; bad index halves are met slab by slab. -/
def State.mmaStop (s : State) (x : Frame) (o : MmaOp) (t : MmaTensors) : Option Stop :=
  let fp4 := isFp4 t.a t.w
  let arange := !fp4 || (s.resolve x t.a.scales (8 * t.a.blocks) false).isSome
  let wrange := !t.w.scaled || (s.resolve x t.w.scales (if fp4 then 8 * t.w.blocks else 8) false).isSome
  let pfmt := if formMode o.form = .fp32 then 9 else 10
  let recs := (if fp4 then s.mmaRecs x t.a true else []).any (badRec fp4 false) || (if t.w.scaled then s.mmaRecs x t.w fp4 else []).any (badRec fp4 true)
  if !fp4 && [0, 6].contains o.form && o.align != 0 then some (.fault fcILLEGAL 0)
  else if !arange then some (.fault fcADDRRANGE t.a.scales)
  else if !wrange then some (.fault fcADDRRANGE t.w.scales)
  else if (pairOf o.form (Fmt.ofCode t.a.fmt) (Fmt.ofCode t.w.fmt)).isNone || t.p.elim false (fun p => p.fmt != pfmt) ||
      t.x.elim false (fun m => m.fmt != 4) || t.i.elim false (fun i => i.fmt != 1) then some (.fault fcARITHFMT 0)
  else if recs then some (.fault fcSCALEBAD t.w.scales)
  else if !o.start && (x.bank o.bank).mode != formMode o.form then some (.fault fcBANKMODE 0)
  else if o.usex && sparseForm o.form then some (.fault fcSPARSEBAD 0)
  else
    (s.tensorReadStop x t.a) <|> (s.tensorReadStop x t.w) <|> (t.p.bind (s.tensorReadStop x)) <|> (t.x.bind (s.tensorReadStop x)) <|>
    (t.i.bind (s.tensorReadStop x))

-- ## Slab sums (R212 to R215)

/-- The integer of a code of an integer format. -/
def intOf (f : Fmt) (c : Nat) : Int := (decode f c).signed.1

/-- The term of a product of FP8 codes (R214). -/
def fp8Term (fa fw : Fmt) (align a w : Nat) : Int :=
  match decodeFloat fa a, decodeFloat fw w with
  | .nan _, _ => 0
  | _, .nan _ => 0
  | .inf _, .inf _ => Config.infProduct a w
  | .inf n, .fin m k _ => if k = 0 then 0 else if n != m then -(2 ^ 31) else 2 ^ 31
  | .fin m k _, .inf n => if k = 0 then 0 else if n != m then -(2 ^ 31) else 2 ^ 31
  | .fin n p d, .fin m q e => rneInt (if n != m then -((p * q * 2 ^ align : Nat) : Int) else ((p * q * 2 ^ align : Nat) : Int)) (d * e)

/-- The exponent of a power-of-two scale. -/
def scaleExp (code : Nat) : Int :=
  match unfp32 code with
  | .fin _ n d => floorLog2 n d
  | _ => 0

/-- The exact sum of doubled FP4 products of one block, scaled and rounded to an integer (R215). -/
def fp4Block (align : Nat) (ea ew : Int) (ps : List (Nat × Nat)) : Int :=
  let sum := ps.foldl (fun (acc : Int) p =>
    let t := ((decodeFloat .fp4 p.1).mul (decodeFloat .fp4 p.2)).signed
    acc + t.1 * 4 / (t.2 : Int)) 0
  let e := ea + ew - 2 + (align : Int)
  if e < 0 then rneInt sum (2 ^ (-e).toNat) else sum * 2 ^ e.toNat

/-- The products of a cell in a slab: index within the slab and the two codes. -/
abbrev Products := List (Nat × Nat × Nat)

/-- Sum of the integer-mode products of a cell (R213 to R215); `ea`, `ew` give the block scales' exponents of a block of the slab. -/
def intSlab (pair : Pair) (fa fw : Fmt) (align : Nat) (ea ew : Nat → Int) (ps : Products) : Int :=
  match pair with
  | .int => ps.foldl (fun (acc : Int) p => acc + intOf fa p.2.1 * intOf fw p.2.2) 0
  | .bin => ps.foldl (fun (acc : Int) p => if p.2.1 = p.2.2 then acc + 1 else acc - 1) 0
  | .fp8 => ps.foldl (fun (acc : Int) p => acc + fp8Term fa fw align p.2.1 p.2.2) 0
  | _ => (List.range 4).foldl (fun (acc : Int) b =>
      acc + fp4Block align (ea b) (ew b) ((ps.filter fun p => p.1 / 32 == b).map fun p => p.2)) 0

/-- The exact slab sum of float products (R212). DESIGN CHOICE: log entry 106. -/
def fltSlab (f : Fmt) (ps : Products) : Val :=
  ps.foldl (fun (acc : Val) p => acc.add ((decodeFloat f p.2.1).mul (decodeFloat f p.2.2))) (.fin false 0 1)

/-- A column's weights by logical reduction index: none where 2:4 sparsity stores no value (R219). -/
def denseWeights (sparse : Bool) (vals halves : List Nat) : List (Option Nat) :=
  if sparse then
    (List.range halves.length).flatMap fun g =>
      let h := halves.getD g 0
      (List.range 4).map fun j =>
        if j = h % 4 then some (vals.getD (2 * g) 0) else if j = h / 4 % 4 then some (vals.getD (2 * g + 1) 0) else none
  else vals.map some

/-- A code of a format is not finite. -/
def nonFinite (f : Fmt) (c : Nat) : Bool := f.isFloat && !(decodeFloat f c).isFin

/-- What one MMA works on: the rows and columns of its operands. -/
structure MmaView where
  pair : Pair
  fa : Fmt
  fw : Fmt
  rows : List (List Nat)
  cols : List (List (Option Nat))
  /-- Block mask bytes, one for 16 indices, all ones where there is no mask. -/
  mask : List Nat
  /-- For each chunk of 32 indices: skipped as a zero run. -/
  zero : List Bool
  arec : List ScaleRec
  wrec : List ScaleRec
  deriving DecidableEq, Repr

/-- The chunk of 32 activations has its flag in every row (R222). -/
def State.chunkZero (s : State) (x : Frame) (a : Tensor) (c : Nat) : Bool :=
  let n := min 32 (a.dim 0 - 32 * c)
  a.rows.all fun off =>
    match s.resolve x (a.base + off) a.rowBytes false with
    | some (.alloc id o) => s.zeroRun id (o + 32 * c * a.bits / 8) (ceilDiv (n * a.bits) 8)
    | _ => false

/-- The operands of an MMA as its job holds them. -/
def State.mmaView (s : State) (x : Frame) (j : MmaJob) : MmaView :=
  let a := Tensor.ofBytes j.tda
  let w := Tensor.ofBytes j.tdw
  let fa := (Fmt.ofCode a.fmt).getD .int8
  let fw := (Fmt.ofCode w.fmt).getD .int8
  let halves := j.tdi.elim [] fun b => s.tensorRows x (Tensor.ofBytes b)
  let vals := s.tensorRows x w
  let fp4 := isFp4 a w
  { pair := (pairOf j.form (some fa) (some fw)).getD .int, fa := fa, fw := fw, rows := s.tensorRows x a,
    cols := (List.range (w.dim 1)).map fun n => denseWeights (sparseForm j.form) (vals.getD n []) (halves.getD n []),
    mask := j.tdx.elim [] fun b => s.tensorCodes x (Tensor.ofBytes b),
    zero := if j.zskip && fa != .bin1 then (List.range (ceilDiv (a.dim 0) 32)).map (s.chunkZero x a) else [],
    arec := if fp4 then s.mmaRecs x a true else [], wrec := if fp4 then s.mmaRecs x w true else [] }

/-- Index `i` is skipped for column `n`: its block is masked, or its chunk is a zero run (R221, R222). DEDUCED: log entry 105. -/
def MmaView.skips (v : MmaView) (i n : Nat) : Bool :=
  (match v.mask[i / 16]? with | some b => !bitOf b (n / 16) | none => false) || v.zero.getD (i / 32) false

/-- The products of cell (m, n) in the slab of `len` indices from `lo`. -/
def MmaView.products (v : MmaView) (lo len m n : Nat) : Products :=
  let as_ := ((v.rows.getD m []).drop lo).take len
  let ws := ((v.cols.getD n []).drop lo).take len
  ((List.range len).zip (as_.zip ws)).filterMap fun e =>
    match e.2.2 with
    | some w => if v.skips (lo + e.1) n then none else some (e.1, e.2.1, w)
    | none => none

/-- 16-index units of a slab that the array skips for every column (R221, R222). -/
def MmaView.skippedUnits (v : MmaView) (lo hi : Nat) : Nat :=
  (List.range (ceilDiv hi 16)).countP fun u =>
    decide (lo ≤ 16 * u) && ((match v.mask[u]? with | some b => b == 0 | none => false) || v.zero.getD (u / 2) false)

/-- Non-finite operands of a slab (R214). -/
def MmaView.nonFinites (v : MmaView) (lo len : Nat) : Nat :=
  sumNat (v.rows.map fun r => ((r.drop lo).take len).countP (nonFinite v.fa)) +
  sumNat (v.cols.map fun c => ((c.drop lo).take len).countP fun o => o.elim false (nonFinite v.fw))

/-- Exponent of the scale of block `b` of a row or column of `len` indices (R215). -/
def blockExp (recs : List ScaleRec) (len row b : Nat) : Int :=
  scaleExp ((recs[row * ceilDiv len 32 + b]?).elim fp32One fun r => r.scale)

/-- The new pattern of element (m, n) after a slab, and whether it saturated (R212). -/
def MmaView.cell (v : MmaView) (j : MmaJob) (bank : Bank) (lo m n : Nat) : Nat × Bool :=
  let len := slabLen j.form
  let ps := v.products lo len m n
  let old := bank.elem m n
  match v.pair with
  | .flt =>
    let sum := fltSlab v.fa ps
    (fpResult .fp32 (old :: ps.flatMap fun p => [p.2.1, p.2.2]) ((unfp32 old).add sum), false)
  | _ =>
    let r := (v.rows.getD m []).length
    let sum := intSlab v.pair v.fa v.fw j.align (fun b => blockExp v.arec r m (lo / 32 + b)) (fun b => blockExp v.wrec r n (lo / 32 + b)) ps
    let y := sum + toSigned old 32
    (ofSigned (clampInt y (-2 ^ 31) (2 ^ 31 - 1)) 32, decide (y < -2 ^ 31) || decide (2 ^ 31 - 1 < y))

/-- A bank after slab `k` of a job, with the number of elements that saturated. -/
def MmaView.addSlab (v : MmaView) (j : MmaJob) (bank : Bank) (k : Nat) : Bank × Nat :=
  let lo := k * slabLen j.form
  let cells := (List.range v.rows.length).flatMap fun m => (List.range v.cols.length).map fun n => (128 * m + n, v.cell j bank lo m n)
  let sat := cells.countP fun c => c.2.2
  ({ bank with satb := bank.satb || decide (0 < sat),
               elems := cells.foldl (fun (e : KMap Nat) c => mapSet e c.1 c.2.1) bank.elems }, sat)

/-- Cells of a slab that hold a non-finite operand (R509). -/
def MmaView.uncheckedCells (v : MmaView) (lo len : Nat) : Nat :=
  let rs := v.rows.map fun r => ((r.drop lo).take len).any (nonFinite v.fa)
  let cs := v.cols.map fun c => ((c.drop lo).take len).any fun o => o.elim false (nonFinite v.fw)
  let r := rs.countP id
  let c := cs.countP id
  r * cs.length + (rs.length - r) * c

/-- Add slab `k` of a job to the bank of frame `f`, counting what it counts (R208, R212, R214, R222, R509). -/
def State.slab (s : State) (f : Nat) (j : MmaJob) (k : Nat) : State :=
  match s.frame f with
  | none => s
  | some x =>
    let v := s.mmaView x j
    let len := slabLen j.form
    let lo := k * len
    let r := (v.rows.getD 0 []).length
    let (bank, sat) := v.addSlab j (x.bank j.bank) k
    let s := (s.setFrame f { x with banks := mapSet x.banks j.bank bank }).countAccSat x.run sat
    let nf := if v.pair = .fp8 then v.nonFinites lo len else 0
    let s := if nf = 0 then s else s.count CMP_MMANF_COUNT nf
    let un := v.uncheckedCells lo len
    let s := if un = 0 then s else s.count FLT_CHECK_NONFIN un
    let skip := v.skippedUnits lo (min r (lo + len)) * unitSteps j.form
    if skip = 0 then s else s.count CMP_SKIP_COUNT skip

/-- MMA_SLAB_ADD: the next slab of the frame's MMA is checked by residue and added (R212, R509); with the last one the MMA ends.
DESIGN CHOICE: log entry 132. -/
def State.mmaSlabAdd (s : State) (f residueFailures : Nat) : State :=
  match (s.frame f).bind fun x => if x.live then x.mma else none with
  | none => s
  | some j =>
    let s := s.residue f residueFailures (formClass j.form * 4096 + 0xFFF)
    if 3 < residueFailures then s
    else if (s.frame f).elim true fun x => !x.live then s
    else
      let s := s.slab f j j.next
      s.modFrame f fun x => { x with mma := if j.nslabs ≤ j.next + 1 then none else some { j with next := j.next + 1 } }

/-- CARRY_CHECK_MISMATCH: a product or shift of CARRY disagrees with its check (R510). -/
def State.carryCheck (s : State) (f failures : Nat) : State :=
  if (s.frame f).elim false Frame.live then s.residue f failures (5 * 4096 + 0xFFF) else s

-- ## Issue (R216, R220, R320)

/-- What executing an instruction comes to. -/
inductive SlotRes where
  | ok (s : State)
  | stop (w : Stop)
  /-- A fault that leaves part of the instruction's effect (R276). -/
  | partly (s : State) (cause addr : Nat)
  deriving DecidableEq, Repr

/-- The job of an MMA. -/
def mmaJob (x : Frame) (o : MmaOp) (t : MmaTensors) : MmaJob :=
  let td := fun (n : Nat) => mapGetD x.tds n []
  { form := o.form, bank := o.bank, align := o.align, zskip := o.zskip, tda := td o.tda, tdw := td o.tdw,
    tdx := t.x.map fun _ => td o.tdx, tdi := t.i.map fun _ => td o.tdi, nslabs := ceilDiv (t.a.dim 0) (slabLen o.form), next := 0 }

/-- MMA (R320 to R323): checked, its bank loaded under START, its slabs left to be added. A bad index half keeps the slabs before it. -/
def State.execMmaOp (s : State) (f : Nat) (x : Frame) (o : MmaOp) : SlotRes :=
  match s.mmaTensors x o with
  | none => .stop (tdBad x o.tda)
  | some t =>
    match s.mmaStop x o t with
    | some w => .stop w
    | none =>
      let pre := t.p.elim [] fun p => ((s.tensorRows x p).getD 0 []).take 128
      let j := mmaJob x o t
      let s := if o.start then s.modFrame f fun y => { y with banks := mapSet y.banks o.bank (Bank.start (formMode o.form) pre) } else s
      match t.i.bind (s.sparseBad x o.form) with
      | some k => .partly ((List.range k).foldl (fun (s : State) i => s.slab f j i) s) fcSPARSEBAD 0
      | none => .ok (s.modFrame f fun y => { y with mma := some j })

end Sys2Proof.Machine
end

