-- ==== Sys2Proof/Machine/Scalar.lean ====
section
/-! DEFINITION. Slot A (R301 to R311): scalar arithmetic, control, loads and stores, address and descriptor registers, barriers,
fences, publication and tallies. -/

namespace Sys2Proof.Machine

/-- Go on after a slot. -/
def SlotRes.andThen (r : SlotRes) (k : State → SlotRes) : SlotRes :=
  match r with
  | .ok s => k s
  | o => o

/-- A slot that faults. -/
def SlotRes.fault (cause : Nat) (addr : Nat := 0) : SlotRes := .stop (.fault cause addr)

/-- Run `k` unless something keeps the instruction from completing. -/
def unlessStop (w : Option Stop) (k : SlotRes) : SlotRes :=
  match w with
  | some w => .stop w
  | none => k

-- ## Arithmetic (Table 10-4)

/-- Leading zeros of a 64-bit word. -/
def clz64 (a : Nat) : Nat := if a = 0 then 64 else 63 - Nat.log2 a

/-- Trailing zeros of a 64-bit word, looking at `fuel` bits from bit `i`. -/
def ctzGo (a : Nat) : Nat → Nat → Nat
  | 0, i => i
  | fuel + 1, i => if bitOf a i then i else ctzGo a fuel (i + 1)

/-- Signed quotient toward zero (R304). -/
def divs (a b : Word) : Word := if b = 0 then BitVec.allOnes 64 else a.sdiv b

/-- Signed remainder with the sign of the dividend (R304). -/
def rems (a b : Word) : Word := if b = 0 then a else a.srem b

/-- The ALU functions (Table 10-4). -/
def aluFn (fn : Nat) (a b : Word) : Word :=
  let sh := b.toNat % 64
  match fn with
  | 0 => a + b
  | 1 => a - b
  | 2 => a * b
  | 3 => BitVec.ofNat 64 (ofSigned (a.toInt * b.toInt / 2 ^ 64) 64)
  | 4 => BitVec.ofNat 64 (a.toNat * b.toNat / 2 ^ 64)
  | 5 => divs a b
  | 6 => if b = 0 then BitVec.allOnes 64 else a / b
  | 7 => rems a b
  | 8 => if b = 0 then a else a % b
  | 9 => a &&& b
  | 10 => a ||| b
  | 11 => a ^^^ b
  | 12 => a <<< sh
  | 13 => a >>> sh
  | 14 => a.sshiftRight sh
  | 15 => if a.slt b then a else b
  | 16 => if a.slt b then b else a
  | 17 => if a.ult b then a else b
  | 18 => if a.ult b then b else a
  | 19 => BitVec.ofNat 64 (popcount 64 a.toNat)
  | 20 => BitVec.ofNat 64 (clz64 a.toNat)
  | _ => BitVec.ofNat 64 (ctzGo a.toNat 64 0)

/-- The immediate forms. -/
def immFn : ImmFn → Word → Word → Word
  | .add, a, b => a + b
  | .and_, a, b => a &&& b
  | .or_, a, b => a ||| b
  | .xor_, a, b => a ^^^ b

/-- Shifts by an immediate. -/
def shiftFn : ShiftFn → Word → Nat → Word
  | .shl, a, n => a <<< n
  | .shr, a, n => a >>> n
  | .sar, a, n => a.sshiftRight n

/-- COND of a comparison (R303). -/
def condHolds (cond : Nat) (a b : Word) : Bool :=
  match cond with
  | 0 => a == b
  | 1 => a != b
  | 2 => a.slt b
  | 3 => !a.slt b
  | 4 => a.ult b
  | _ => !a.ult b

/-- FN of PLOG. -/
def plogFn (fn : Nat) (a b : Bool) : Bool :=
  match fn with
  | 0 => a && b
  | 1 => a || b
  | 2 => a && !b
  | _ => a != b

-- ## Control (R303)

/-- Where a control instruction of slot A sends the frame; none: to the next bundle. -/
def AOp.target (o : AOp) (x : Frame) : Option Nat :=
  let rel := fun (off : Int) => (BitVec.ofNat 64 x.pc + BitVec.ofInt 64 off).toNat
  match o with
  | .b off => some (rel off)
  | .br a | .ret a => some (x.s a).toNat
  | .call _ off => some (rel off)
  | .loop d off => if x.s d - 1 ≠ 0 then some (rel off) else none
  | _ => none

-- ## Loads and stores (R305)

/-- What an access of `n` bytes at a naturally aligned address meets before it is made: ALIGN, then ADDR_RANGE (R300). -/
def State.rangeStop (s : State) (x : Frame) (addr n align : Nat) (write : Bool) : Option Stop :=
  if addr % align ≠ 0 then some (.fault fcALIGN addr)
  else if (s.resolve x addr n write).isNone then some (.fault fcADDRRANGE addr)
  else none

/-- LD. -/
def State.execLd (s : State) (f : Nat) (x : Frame) (d aa size : Nat) (sx : Bool) (ofs : Int) : SlotRes :=
  let addr := addrPlus (x.a aa) ofs
  let n := 2 ^ size
  unlessStop (s.rangeStop x addr n n false <|> s.readStop x addr n)
    (.ok ((s.touchAddr x addr n).modFrame f fun y => y.setS d (loadValue n sx (leAt (s.readAddr x addr n) 0 n))))

/-- ST. -/
def State.execSt (s : State) (x : Frame) (a aa size : Nat) (ofs : Int) : SlotRes :=
  let addr := addrPlus (x.a aa) ofs
  let n := 2 ^ size
  unlessStop (s.rangeStop x addr n n true <|> s.writeStop x addr n) (.ok (s.frameStore x addr (leBytes n (x.s a).toNat)))

-- ## Special values and descriptors (R307, R308)

/-- The special values of Table 9-10. -/
def State.special (s : State) (f : Nat) (x : Frame) (sel : Nat) : Word :=
  let k := s.consistOf x
  BitVec.ofNat 64
    (match sel with
     | 0 => x.lframe
     | 1 => k.elim 0 fun k => k.nframes
     | 2 => k.elim 0 fun k => k.geom
     | 3 => f
     | 4 => mapGetD s.nv.gens ((s.run x.run).elim 0 fun r => r.slice) 0
     | _ => s.now)

/-- TDLD: the content is checked under R261, and every element must lie in the allocation (R271). DEDUCED: log entry 104. -/
def State.execTdld (s : State) (f : Nat) (x : Frame) (td aa : Nat) (ofs : Int) : SlotRes :=
  let addr := addrPlus (x.a aa) ofs
  unlessStop (s.rangeStop x addr 64 8 false <|> s.readStop x addr 64)
    (let b := s.readAddr x addr 64
     let t := Tensor.ofBytes b
     if t.ok && (s.resolve x t.base t.extent false).isSome then
       .ok ((s.touchAddr x addr 64).modFrame f fun y => { y with tds := mapSet y.tds td b })
     else SlotRes.fault fcTDBAD addr)

/-- TDBASE. -/
def State.execTdbase (s : State) (f : Nat) (x : Frame) (td aa : Nat) : SlotRes :=
  match mapGet x.tds td with
  | none => SlotRes.fault fcTDBAD
  | some b => .ok (s.modFrame f fun y => { y with tds := mapSet y.tds td (leBytes 8 (x.a aa).toNat ++ b.drop 8) })

-- ## Fences (R278, R310)

/-- What a fence waits for: the acknowledgement of every remote store; REMOTE_STORE when one has failed (R310). -/
def remoteStop (x : Frame) : Option Stop :=
  if x.stores ≠ [] then some (.wait false)
  else match x.failed with
    | some a => some (.fault fcREMOTESTORE a)
    | none => none

/-- FENCE.S: the remote stores, then the programming of what the frame's slice has stored to PERSIST allocations (R347). -/
def State.fenceStop (s : State) (x : Frame) : Option Stop :=
  remoteStop x <|> (if s.flashPending ((s.run x.run).elim 0 fun r => r.slice) then some (.wait false) else none)

/-- FENCE.P (R291): the count and the progress counter of the run's command rise to the low 32 bits of two registers.
DEDUCED: log entry 105. -/
def State.execFencep (s : State) (x : Frame) (count progress : Nat) : SlotRes :=
  if (s.consistOf x).elim true fun k => k.pubframe != x.lframe then SlotRes.fault fcPUBDENIED
  else
    unlessStop (s.fenceStop x)
      (match s.run x.run with
       | none => .ok s
       | some r =>
         match s.cmd r.ring r.seq with
         | none => .ok s
         | some c =>
           .ok ((s.setCmd { c with pcount := max c.pcount (count % 2 ^ 32), progress := max c.progress (progress % 2 ^ 32),
                                   partialSeen := true }).updateStatus r.ring))

-- ## WAIT (R282)

/-- WAIT takes the completion of the oldest call that names the queue and has not been taken. -/
def State.execWait (s : State) (f : Nat) (x : Frame) (q d : Nat) : SlotRes :=
  match mapGet x.queues q with
  | none => SlotRes.fault fcQUEUEBAD
  | some u =>
    if u.kind ≠ 1 then SlotRes.fault fcQUEUEBAD
    else
      match u.calls with
      | [] => .stop (.wait false)
      | id :: rest =>
        match mapGet s.calls id with
        | none => .stop (.wait false)
        | some c =>
          if c.done then
            let v := c.status % 2 ^ 16 + leAt c.bytes 0 1 * 2 ^ 16 + c.count % 2 ^ 32 * 2 ^ 32
            .ok ({ s with calls := mapErase s.calls id }.modFrame f fun y =>
              { ((y.setS d (BitVec.ofNat 64 v)).setS (d + 1) (BitVec.ofNat 64 c.desc)) with queues := mapSet y.queues q { u with calls := rest } })
          else .stop (.wait false)

-- ## Tallies (R234, R311)

/-- TALLY.OPEN. -/
def State.execTallyOpen (s : State) (x : Frame) (slot layer : Nat) : SlotRes :=
  match s.run x.run, s.consistOf x with
  | some r, some k =>
    match k.digestPlan.find? fun e => e.slot == slot && e.layer == layer % 2 ^ 16 with
    | some e =>
      if (mapGet r.tallies slot).isSome then SlotRes.fault fcTALLYSTATE
      else .ok (s.setRun x.run { r with tallies := mapSet r.tallies slot { entry := e, digest := 0, count := 0, closed := [] } })
    | none => SlotRes.fault fcTALLYSTATE
  | _, _ => SlotRes.fault fcTALLYSTATE

/-- The digest record of Table 7-5. -/
def tallyRecord (ts : TallySlot) (elements : Nat) : Bytes :=
  leBytes 16 ts.digest.toNat ++ leBytes 8 ts.count ++ leBytes 2 ts.entry.layer ++ leBytes 1 ts.entry.slot ++
  leBytes 1 (if ts.count = elements then 0 else 1) ++ List.replicate 4 0

/-- TALLY.CLOSE. DEDUCED: log entry 105. -/
def State.execTallyClose (s : State) (x : Frame) (slot : Nat) : SlotRes :=
  match s.run x.run, s.consistOf x with
  | some r, some k =>
    match mapGet r.tallies slot with
    | none => SlotRes.fault fcTALLYSTATE
    | some ts =>
      if !bitOf ts.entry.frames x.lframe || ts.closed.contains x.lframe then SlotRes.fault fcTALLYSTATE
      else
        unlessStop (s.fenceStop x)
          (let ts := { ts with closed := ts.closed ++ [x.lframe] }
           if (onesFrom 192 0 ts.entry.frames).all fun f => ts.closed.contains f then
             .ok ((s.storeRaw x ts.entry.record (tallyRecord ts (Tensor.ofBytes (k.tds.getD ts.entry.td [])).count)).setRun x.run
               { r with tallies := mapErase r.tallies slot })
           else .ok (s.setRun x.run { r with tallies := mapSet r.tallies slot ts }))
  | _, _ => SlotRes.fault fcTALLYSTATE

-- ## HALT (R287, R309)

/-- The codes that HALT may carry: OK, SHORT, FILTER_SHORT and the listed codes from 0x0010 up but FAULT_PROG and FENCED (R287,
Tables 0-5, 2-9, 3-7, 5-7, 6-9, 7-6, 8-8, 9-15, 10-13, 11-9, 12-13, 13-8, 15-6, 16-7, 18-9). -/
def haltLegal (c : Nat) : Bool :=
  [0, 2, 3, 0x10, 0x11, 0x20, 0x21, 0x30, 0x40, 0x41, 0x50, 0x51, 0x52, 0x60, 0x61, 0x70, 0xF0].contains c ||
  [(0x101, 0x10E), (0x201, 0x20C), (0x210, 0x221), (0x301, 0x304), (0x401, 0x405), (0x501, 0x505), (0x601, 0x604)].any fun r =>
    decide (r.1 ≤ c) && decide (c ≤ r.2)

/-- What HALT waits for and meets: the fence, the frame's calls, then its code. -/
def State.haltStop (s : State) (f : Nat) (x : Frame) (code : Nat) : Option Stop :=
  (s.fenceStop x) <|>
  (if s.calls.any fun e => e.2.frame == f && e.2.run == x.run && !e.2.done then some (.wait false) else none) <|>
  (if haltLegal code then none else some (.fault fcHALTCODE 0))

-- ## The slot

/-- Slot A on the registers of `x`. The target of a control instruction, BAR's arrival and HALT's end are the bundle's.
DEDUCED: log entry 103. -/
def State.execA (s : State) (f : Nat) (x : Frame) (o : AOp) : SlotRes :=
  let set := fun (d : Nat) (v : Word) => SlotRes.ok (s.modFrame f fun y => y.setS d v)
  let setp := fun (d : Nat) (b : Bool) => SlotRes.ok (s.modFrame f fun y => y.setP d b)
  let seta := fun (d : Nat) (v : Word) => SlotRes.ok (s.modFrame f fun y => y.setA d v)
  match o with
  | .nop | .b _ | .br _ | .ret _ => .ok s
  | .call d _ => set d (BitVec.ofNat 64 x.pc + 1)
  | .loop d _ => set d (x.s d - 1)
  | .wait q d => s.execWait f x q d
  | .halt code => unlessStop (s.haltStop f x code) (.ok s)
  | .alu fn d a b => set d (aluFn fn (x.s a) (x.s b))
  | .imm fn d a v => set d (immFn fn (x.s a) v)
  | .movi d v => set d v
  | .shift fn d a n => set d (shiftFn fn (x.s a) n)
  | .cmp pd cond a b => setp pd (condHolds cond (x.s a) (x.s b))
  | .cmpi pd cond a v => setp pd (condHolds cond (x.s a) v)
  | .plog fn pd pa pb => setp pd (plogFn fn (x.p pa) (x.p pb))
  | .ld d aa size sx ofs => s.execLd f x d aa size sx ofs
  | .st a aa size ofs => s.execSt x a aa size ofs
  | .mka ad v => seta ad v
  | .adda ad aa b =>
    let v := (x.a aa).toNat
    seta ad (BitVec.ofNat 64 (v / 2 ^ 52 * 2 ^ 52 + (v + (x.s b).toNat) % 2 ^ 52))
  | .mova ad a => seta ad (x.s a)
  | .movs d aa => set d (x.a aa)
  | .movsp d sel => set d (s.special f x sel)
  | .tdld td aa ofs => s.execTdld f x td aa ofs
  | .tdbase td aa => s.execTdbase f x td aa
  | .bar _ => unlessStop (if x.barPassed then none else remoteStop x) (.ok s)
  | .fence kind => if kind = 2 then .ok s else unlessStop (s.fenceStop x) (.ok s)
  | .fencep a b => s.execFencep x (x.s a).toNat (x.s b).toNat
  | .tallyOpen slot a => s.execTallyOpen x slot (x.s a).toNat
  | .tallyClose slot => s.execTallyClose x slot

end Sys2Proof.Machine
end

