-- ==== Sys2Proof/Machine/Vector.lean ====
section
/-! DEFINITION. Slot V (R312 to R317): vector lanes, their arithmetic, reductions and conversions, and vector loads and stores. -/

namespace Sys2Proof.Machine

-- ## Lanes (Table 10-5)

/-- Bits of a lane. -/
def Ty.width (ty : Ty) : Nat := if ty = .h16 then 16 else 32

/-- Format of a floating-point lane. -/
def Ty.fmt (ty : Ty) : Fmt := if ty = .h16 then .fp16 else .fp32

/-- Lanes hold floating-point numbers. -/
def Ty.isFloat (ty : Ty) : Bool := ty == .f32 || ty == .h16

/-- The lanes of a vector. -/
def lanes (w : Nat) (v : BitVec 2048) : List Nat := (List.range (2048 / w)).map fun j => v.toNat / 2 ^ (w * j) % 2 ^ w

/-- The vector of a list of lanes. -/
def ofLanes (w : Nat) (l : List Nat) : BitVec 2048 := BitVec.ofNat 2048 (l.foldr (fun c v => c % 2 ^ w + 2 ^ w * v) 0)

/-- Apply an operation lane by lane. -/
def mapLanes (w : Nat) (g : Nat → Nat → Nat) (a b : BitVec 2048) : BitVec 2048 :=
  ofLanes w (List.zipWith g (lanes w a) (lanes w b))

-- ## Lane operations (R313, R314)

/-- Least or greatest of two integer lanes. -/
def intMinMax (signed max : Bool) (a b : Nat) : Nat :=
  let lt := if signed then decide (toSigned a 32 < toSigned b 32) else decide (a < b)
  if lt then (if max then b else a) else (if max then a else b)

/-- An operation on integer lanes, modulo 2³². -/
def intLane (fn : LaneFn) (signed : Bool) (a b : Nat) : Nat :=
  match fn with
  | .add => (a + b) % 2 ^ 32
  | .sub => (a + 2 ^ 32 - b) % 2 ^ 32
  | .mul => a * b % 2 ^ 32
  | .min => intMinMax signed false a b
  | .max => intMinMax signed true a b
  | .div => 0
  | .and_ => a &&& b
  | .or_ => a ||| b
  | .xor_ => a ^^^ b
  | .shl => a * 2 ^ (b % 32) % 2 ^ 32
  | .shr => a / 2 ^ (b % 32)
  | .sar => ofSigned (toSigned a 32 / 2 ^ (b % 32)) 32

/-- An operation on floating-point lanes. -/
def floatLane (fn : LaneFn) (f : Fmt) (a b : Nat) : Nat :=
  match fn with
  | .add => fpAdd f a b
  | .sub => fpSub f a b
  | .mul => fpMul f a b
  | .div => fpDiv f a b
  | .min => fpMinMax f false a b
  | _ => fpMinMax f true a b

/-- A two-operand lane operation under a lane type. -/
def laneFn (fn : LaneFn) (ty : Ty) (a b : Nat) : Nat :=
  if ty.isFloat then floatLane fn ty.fmt a b else intLane fn (ty == .i32) a b

/-- A comparison of two lanes (R303, R314). -/
def laneCmp (cond : Nat) (ty : Ty) (a b : Nat) : Bool :=
  if ty.isFloat then
    let x := decodeFloat ty.fmt a
    let y := decodeFloat ty.fmt b
    match cond with
    | 0 => x.eqv y
    | 1 => !x.eqv y
    | 2 => x.lt y
    | _ => !x.isNan && !y.isNan && !x.lt y
  else
    match cond with
    | 0 => a == b
    | 1 => a != b
    | 2 => decide (toSigned a 32 < toSigned b 32)
    | 3 => decide (toSigned b 32 ≤ toSigned a 32)
    | 4 => decide (a < b)
    | _ => decide (b ≤ a)

/-- Fused multiply-add lane by lane. -/
def fmaLanes (f : Fmt) (w : Nat) (a b c : BitVec 2048) : BitVec 2048 :=
  ofLanes w (List.zipWith (fun p z => fpFma f p.1 p.2 z) ((lanes w a).zip (lanes w b)) (lanes w c))

-- ## VRED (R315)

/-- One level: lane j becomes lane 2j op lane 2j + 1. -/
def pairLanes (g : Nat → Nat → Nat) : List Nat → List Nat
  | a :: b :: rest => g a b :: pairLanes g rest
  | l => l

/-- `n` levels. -/
def reduceLanes (g : Nat → Nat → Nat) : Nat → List Nat → List Nat
  | 0, l => l
  | n + 1, l => reduceLanes g n (pairLanes g l)

/-- VRED: 64 lanes into lane 0, the others 0. -/
def vred (fn : Nat) (ty : Ty) (a : BitVec 2048) : BitVec 2048 :=
  let op := match fn with | 0 => LaneFn.add | 1 => LaneFn.min | _ => LaneFn.max
  ofLanes 32 ((reduceLanes (laneFn op ty) 6 (lanes 32 a)).take 1)

-- ## VCVT (R316)

/-- An FP32 lane to an unsigned integer: nearest even, saturated, 0 for a NaN. DEDUCED: log entry 105. -/
def toU32 (a : Nat) : Nat :=
  match unfp32 a with
  | .nan _ => 0
  | .inf neg => if neg then 0 else 2 ^ 32 - 1
  | .fin neg n d => if neg then 0 else min (roundNat .rne false n d) (2 ^ 32 - 1)

/-- VCVT by FN (Table 10-7). -/
def vcvt (fn : Nat) (a b : BitVec 2048) : BitVec 2048 :=
  let l := lanes 32 a
  let half := fun (c : Nat) => (toFloat .fp16 .rne false (unfp32 c)).code
  let wide := fun (c : Nat) => fp32 (decodeFloat .fp16 c)
  match fn with
  | 0 => ofLanes 32 (l.map fun c => (toInt .int32 .rne 0 (unfp32 c)).code)
  | 1 => ofLanes 32 (l.map fun c => fp32 (Val.ofInt (toSigned c 32)))
  | 2 => ofLanes 16 (l.map half ++ (lanes 32 b).map half)
  | 3 => ofLanes 32 (((lanes 16 a).take 64).map wide)
  | 4 => ofLanes 32 (((lanes 16 a).drop 64).map wide)
  | 5 => ofLanes 32 (l.map fun (c : Nat) => fp32 (Val.ofInt (c : Int)))
  | _ => ofLanes 32 (l.map toU32)

-- ## VLD and VST (R317)

/-- Addresses of the 64 lanes. -/
def laneAddrs (x : Frame) (aa mode r : Nat) (ofs : Int) : List Nat :=
  let base := BitVec.ofNat 64 (addrPlus (x.a aa) (4 * ofs))
  match mode with
  | 0 => (List.range 64).map fun i => (base + BitVec.ofNat 64 (4 * i)).toNat
  | 1 => (List.range 64).map fun i => (base + BitVec.ofNat 64 i * x.s r).toNat
  | _ => (lanes 32 (x.v r)).map fun l => (base + BitVec.ofNat 64 l).toNat

/-- The spans that a vector access checks and moves: the whole range under MODE 0, lane by lane otherwise. -/
def laneSpans (mode : Nat) (addrs : List Nat) : List (Nat × Nat) :=
  if mode = 0 then [(addrs.headD 0, 256)] else addrs.map fun a => (a, 4)

/-- ALIGN of any lane, then ADDR_RANGE of any span. -/
def State.vecRange (s : State) (x : Frame) (spans : List (Nat × Nat)) (write : Bool) : Option Stop :=
  match spans.find? fun p => p.1 % 4 != 0 with
  | some p => some (.fault fcALIGN p.1)
  | none => (spans.find? fun p => (s.resolve x p.1 p.2 write).isNone).map fun p => .fault fcADDRRANGE p.1

/-- VLD. -/
def State.execVld (s : State) (f : Nat) (x : Frame) (v : Nat) (mode : Nat) (addrs : List Nat) : SlotRes :=
  let spans := laneSpans mode addrs
  unlessStop (s.vecRange x spans false <|> (spans.filterMap fun p => s.readStop x p.1 p.2).head?)
    (let vals := addrs.map fun a => leAt (s.readAddr x a 4) 0 4
     let s := spans.foldl (fun (s : State) p => s.touchAddr x p.1 p.2) s
     .ok (s.modFrame f fun y => y.setV v (ofLanes 32 vals)))

/-- VST: lanes in ascending order, so the highest lane wins. -/
def State.execVst (s : State) (x : Frame) (v : Nat) (mode : Nat) (addrs : List Nat) : SlotRes :=
  let spans := laneSpans mode addrs
  unlessStop (s.vecRange x spans true <|> (spans.filterMap fun p => s.writeStop x p.1 p.2).head?)
    (if mode = 0 then .ok (s.frameStore x (addrs.headD 0) (leBytes 256 (x.v v).toNat))
     else .ok ((addrs.zip (lanes 32 (x.v v))).foldl (fun (s : State) p => s.frameStore x p.1 (leBytes 4 p.2)) s))

-- ## The slot

/-- Slot V on the registers of `x`. -/
def State.execV (s : State) (f : Nat) (x : Frame) (o : VOp) : SlotRes :=
  let set := fun (d : Nat) (v : BitVec 2048) => SlotRes.ok (s.modFrame f fun y => y.setV d v)
  let sets := fun (d : Nat) (v : Nat) => SlotRes.ok (s.modFrame f fun y => y.setS d (BitVec.ofNat 64 v))
  match o with
  | .nop => .ok s
  | .bin fn ty d a b => set d (mapLanes ty.width (laneFn fn ty) (x.v a) (x.v b))
  | .fma ty d a b c => set d (fmaLanes ty.fmt ty.width (x.v a) (x.v b) (x.v c))
  | .sqrt d a => set d (ofLanes 32 ((lanes 32 (x.v a)).map fpSqrt))
  | .exp2 d a => set d (ofLanes 32 ((lanes 32 (x.v a)).map exp2Code))
  | .cmp cond ty d a b => set d (mapLanes ty.width (fun p q => if laneCmp cond ty p q then 2 ^ ty.width - 1 else 0) (x.v a) (x.v b))
  | .sel d a b c => set d ((x.v a &&& x.v c) ||| (x.v b &&& ~~~ x.v c))
  | .popc d a => set d (ofLanes 32 ((lanes 32 (x.v a)).map (popcount 32)))
  | .red fn ty d a => set d (vred fn ty (x.v a))
  | .cvt fn d a b => set d (vcvt fn (x.v a) (x.v b))
  | .bc ty d a => set d (ofLanes ty.width (List.replicate (2048 / ty.width) (x.s a).toNat))
  | .ext d a lane => sets d ((lanes 32 (x.v a)).getD lane 0)
  | .sgn d a => sets d (maskOf ((List.range 64).filter fun j => bitOf ((lanes 32 (x.v a)).getD j 0) 31))
  | .ld v aa mode r ofs => s.execVld f x v mode (laneAddrs x aa mode r ofs)
  | .st v aa mode r ofs => s.execVst x v mode (laneAddrs x aa mode r ofs)

end Sys2Proof.Machine
end

