-- ==== Sys2Proof/Machine/Tensors.lean ====
section
/-! DEFINITION. The conversions and streams of slot T: CARRY (R195 to R199, R324), QSCAN (R187 to R191, R325), QCVT (R192, R193,
R326), STREAM (R327), and layer windows (R226 to R228, R328). -/

namespace Sys2Proof.Machine

/-- A tensor of a td register that an instruction will write lies where a store may go. -/
def State.writableStop (s : State) (x : Frame) (t : Tensor) : Option Stop :=
  if (s.resolve x t.base t.extent true).isNone then some (.fault fcADDRRANGE t.base) else none

/-- The tensor has the shape of a bank: at most 128 columns and 256 rows (R324, R326). -/
def Tensor.bankShape (t : Tensor) : Bool := decide (t.dim 0 ≤ 128) && decide (t.dim 1 ≤ 256) && t.flat

/-- A condition of an instruction's own that does not hold. -/
def need (ok : Bool) (cause : Nat) (addr : Nat := 0) : Option Stop := if ok then none else some (.fault cause addr)

-- ## CARRY (R195 to R199, R324)

/-- The parameter words that a CARRY uses: one, or one for each column written. -/
def State.carryWords (s : State) (x : Frame) (addr n : Nat) : List CarryWord :=
  (List.range n).map fun i => CarryWord.ofWord (leAt (s.readAddr x (addr + 8 * i) 8) 0 8)

/-- CARRY. -/
def State.execCarry (s : State) (x : Frame) (bank tdd aa : Nat) (perch : Bool) : SlotRes :=
  match s.tensor x tdd with
  | none => .stop (tdBad x tdd)
  | some t =>
    let addr := (x.a aa).toNat
    let bytes := if perch then 1024 else 8
    let n := if perch then t.dim 0 else 1
    let ws := s.carryWords x addr n
    let b := x.bank bank
    unlessStop
      (need t.bankShape fcTDBAD t.base <|> s.rangeStop x addr bytes 8 false <|> s.writableStop x t <|> s.readStop x addr (8 * n) <|>
       need (ws.all CarryWord.ok) fcCARRYBAD addr <|> need (ws.all fun c => c.ofmt == t.fmt) fcARITHFMT <|>
       need (b.mode == .int32) fcBANKMODE <|> s.tensorWriteStop x t)
      (let fmt := (Fmt.ofCode t.fmt).getD .int32
       let rows := (List.range (t.dim 1)).map fun m => (List.range (t.dim 0)).map fun c =>
         carrySum (if perch then ws.getD c (CarryWord.ofWord 0) else ws.getD 0 (CarryWord.ofWord 0)) fmt (toSigned (b.elem m c) 32)
       let sat := sumNat (rows.map fun r => r.countP Conv.sat)
       let s := s.touchAddr x addr (8 * n)
       .ok ((s.writeTensor x t (rows.map fun r => r.map Conv.code) true).countCarrySat x.run sat))

-- ## QSCAN (R187 to R191, R325)

/-- A source format of QSCAN. -/
def scanSource (f : Option Fmt) : Bool := f == some .fp32 || f == some .fp16 || f == some .bf16

/-- The scale records of a scan, in canonical group order. -/
def scanRecords (t : Tensor) (fmt target : Fmt) (code gran : Nat) (asym : Bool) (q : Nat) (codes : List Nat) : List ScaleRec :=
  (List.range (t.groups gran)).map fun g =>
    let xs := ((List.range codes.length).filter fun i => t.groupOf gran i == g).map fun i => decodeFloat fmt (codes.getD i 0)
    scanGroup target code asym (gran == 2) q xs

/-- QSCAN. DEDUCED: log entry 105. -/
def State.execQscan (s : State) (x : Frame) (tds aa gran kind tfmt : Nat) : SlotRes :=
  match s.tensor x tds with
  | none => .stop (tdBad x tds)
  | some t =>
    let addr := (x.a aa).toNat
    let n := t.groups gran
    let target := (Fmt.ofCode tfmt).bind fun f => (qmax f (kind == 1)).map fun q => (f, q)
    unlessStop
      ((if addr % 8 ≠ 0 then some (.fault fcALIGN addr) else none) <|>
       (if gran ≤ 2 then s.rangeStop x addr (8 * n) 8 true else none) <|>
       need (scanSource (Fmt.ofCode t.fmt) && decide (gran ≤ 2) && target.isSome) fcARITHFMT <|> s.tensorReadStop x t <|>
       s.writeStop x addr (8 * n))
      (let fmt := (Fmt.ofCode t.fmt).getD .fp32
       let codes := s.tensorCodes x t
       let (f, q) := target.getD (.int8, 127)
       let recs := scanRecords t fmt f tfmt gran (kind == 1) q codes
       let bad := codes.countP fun c => !(decodeFloat fmt c).isFin
       let const := recs.countP ScaleRec.const
       let s := s.storeRaw x addr (recs.flatMap fun r => leBytes 8 r.word)
       let s := if bad = 0 then s else s.count CMP_SCANNF_COUNT bad
       .ok (if const = 0 then s else s.count CMP_CONST_COUNT const))

-- ## QCVT (R192, R193, R326)

/-- What a QCVT does with its pair of formats. -/
inductive CvtKind where
  | toCode | fromCode | plain
  deriving DecidableEq, Repr

/-- A format that codes under a scale record can have (R184). -/
def Fmt.isCode (f : Fmt) : Bool := [Fmt.int4, .uint4, .fp4, .int8, .uint8, .e4m3, .e5m2].contains f

/-- A format that codes convert to (R192). -/
def Fmt.isWide (f : Fmt) : Bool := f == .fp32 || f == .fp16 || f == .bf16

/-- The kind of a pair; `ss`, `ds`: the source, the destination has SCALED set. Integer codes need a record; a float code has one
where its descriptor says so. DEDUCED: log entry 107. -/
def cvtKind (sf df : Fmt) (ss ds : Bool) : Option CvtKind :=
  if df.isInt then (if df.isCode && sf.isFloat then some .toCode else none)
  else if sf.isInt then (if sf.isCode && df.isWide then some .fromCode else none)
  else if sf.isFloat && df.isFloat then
    if ds && df.isCode then some .toCode
    else if ss && sf.isCode then (if df.isWide then some .fromCode else none)
    else some .plain
  else none

/-- Where a QCVT takes its source: a tensor, or an FP32-mode bank in the shape of the destination. DEDUCED: log entry 107. -/
def State.cvtSource (s : State) (x : Frame) (o : QcvtOp) (src : Option Tensor) (dst : Tensor) : List Nat :=
  match src with
  | some t => s.tensorCodes x t
  | none => (List.range (dst.dim 1)).flatMap fun m => (List.range (dst.dim 0)).map fun n => (x.bank o.bank).elem m n

/-- One element of a QCVT. -/
def cvtElem (k : CvtKind) (sf df : Fmt) (r : ScaleRec) (rd : Rounding) (satfp : Bool) (code : Nat) : Conv :=
  match k with
  | .toCode => quant r df rd satfp (decode sf code)
  | .fromCode => toFloat df rd satfp (dequant r sf code)
  | .plain => toFloat df rd satfp (decode sf code)

/-- Set SAT in the records under which an element saturated (R186). -/
def State.markSat (s : State) (x : Frame) (addr : Nat) (groups : List Nat) : State :=
  groups.foldl (fun (s : State) g =>
    let r := ScaleRec.ofWord (leAt (s.readAddr x (addr + 8 * g) 8) 0 8)
    if r.sat then s else s.storeRaw x (addr + 8 * g) (leBytes 8 { r with sat := true }.word)) s

/-- Cut a list of codes into the runs of a tensor. -/
def Tensor.cut (t : Tensor) (codes : List Nat) : List (List Nat) := chunks (t.dim 0) t.rows.length codes

/-- Convert the elements `pick` chooses and write the destination; the others keep what they held. DESIGN CHOICE: log entry 106. -/
def State.convert (s : State) (x : Frame) (o : QcvtOp) (k : CvtKind) (sf : Fmt) (dst : Tensor) (scales : Tensor) (recs : List ScaleRec)
    (codes : List Nat) (pick : Nat → Bool) : State :=
  let df := (Fmt.ofCode dst.fmt).getD .fp32
  let key := (s.consistOf x).elim 0 fun c => c.srkey
  let step := (x.s o.sn).toNat
  let one : ScaleRec := { scale := fp32One, zp := 0, const := false, asym := false, block := false, sat := false, nonfin := false,
                          res := 0, cfmt := 0, res2 := 0 }
  let old := s.tensorCodes x dst
  let outs := (List.range codes.length).map fun i =>
    if pick i then
      let rd := if o.sr then Rounding.dither (dither key step i) else .rne
      some (cvtElem k sf df (recs.getD (scales.groupOf o.gran i) one) rd o.satfp (codes.getD i 0))
    else none
  let new := (outs.zip old).map fun p => match p.1 with | some c => c.code | none => p.2
  let saturated := fun (i : Nat) => ((outs.getD i none).elim false Conv.sat)
  let sats := (List.range codes.length).filter saturated
  let s := s.writeTensor x dst (dst.cut new) true
  let s := if k = .plain then s else s.markSat x scales.scales (distinct (sats.map (scales.groupOf o.gran)))
  (s.countCvtSat x.run sats.length).countCvtNan x.run (outs.countP fun c => c.elim false Conv.lostNan)

/-- QCVT. DEDUCED: log entry 104. -/
def State.execQcvt (s : State) (x : Frame) (o : QcvtOp) : SlotRes :=
  match s.optTensor x (!o.banksrc) o.tds, s.tensor x o.tdd with
  | none, _ => .stop (tdBad x o.tds)
  | _, none => .stop (tdBad x o.tdd)
  | some src, some dst =>
    let sf := src.elim Fmt.fp32 fun t => (Fmt.ofCode t.fmt).getD .bin1
    let df := (Fmt.ofCode dst.fmt).getD .bin1
    let kind := cvtKind sf df (src.elim false Tensor.scaled) dst.scaled
    let scales := if kind = some .fromCode then src.getD dst else dst
    let ruled := kind == some .toCode || kind == some .fromCode
    let shape := match src with | some t => t.sameDims dst | none => dst.bankShape
    let n := scales.groups o.gran
    let recs := if ruled then s.scaleRecs x scales.scales n else []
    let codes := s.cvtSource x o src dst
    let nans := fun (i : Nat) => sf.isFloat && (decodeFloat sf (codes.getD i 0)).isNan
    unlessStop
      (need (shape && (!ruled || scales.scaled)) fcTDBAD dst.base <|> s.writableStop x dst <|>
       (if ruled ∧ o.gran ≤ 2 then s.rangeStop x scales.scales (8 * n) 8 true else none) <|>
       need (kind.isSome && decide (o.gran ≤ 2)) fcARITHFMT <|>
       need (recs.all fun r => r.cfmt == scales.fmt) fcARITHFMT <|> need (!o.banksrc || (x.bank o.bank).mode == .fp32) fcBANKMODE <|>
       (if ruled then s.readStop x scales.scales (8 * n) else none) <|>
       need (recs.all ScaleRec.ok) fcSCALEBAD scales.scales <|> (src.bind (s.tensorReadStop x)) <|> s.tensorWriteStop x dst)
      (let k := kind.getD .plain
       if o.trap && (List.range codes.length).any nans then
         let draw := s.freeCtr
         .partly ({ s with freeCtr := draw + 1 }.convert x o k sf dst scales recs codes fun i => !nans i && Config.trapSubset draw i)
           fcNANTRAP dst.base
       else .ok (s.convert x o k sf dst scales recs codes fun _ => true))

-- ## STREAM (R327)

/-- STREAM: the whole source is read before any element is written. -/
def State.execStream (s : State) (x : Frame) (tds tdd : Nat) : SlotRes :=
  match s.tensor x tds, s.tensor x tdd with
  | none, _ => .stop (tdBad x tds)
  | _, none => .stop (tdBad x tdd)
  | some a, some b =>
    unlessStop
      (need (a.sameDims b) fcTDBAD b.base <|> s.writableStop x b <|> need (a.fmt == b.fmt) fcARITHFMT <|> s.tensorReadStop x a <|>
       s.tensorWriteStop x b)
      (.ok (s.writeTensor x b (s.tensorRows x a) true))

-- ## Layer windows (R227, R228, R328)

/-- Regions of layer `l` of a window. -/
def WindowDecl.regionsOf (w : WindowDecl) (l : Nat) : Nat := w.lstart.getD (l + 1) 0 - w.lstart.getD l 0

/-- The layers that a window no longer holds leave its fetched slots (R227). -/
def State.releaseLayers (s : State) (run alloc : Nat) (w : WindowDecl) : State :=
  match s.run run with
  | none => s
  | some r =>
    let st := mapGetD r.windows alloc WindowState.blank
    match s.windowBase r w st with
    | none => s
    | some b => s.setRun run { r with windows := mapSet r.windows alloc { st with fetched := st.fetched.filter fun l => decide (b ≤ l) } }

/-- PREFETCH.L that declares layer `l` (R227): a frame's first declaration counts as 0. -/
def State.declareLayer (s : State) (x : Frame) (r : Run) (alloc : Nat) (w : WindowDecl) (l : Nat) : SlotRes :=
  let st := mapGetD r.windows alloc WindowState.blank
  let l := min l w.layers
  match mapGet st.last x.lframe with
  | some old =>
    if l < old then SlotRes.fault fcWINDOWGONE (alloc * 2 ^ 52)
    else
      let st := { st with decls := mapSet st.decls x.lframe l, last := mapSet st.last x.lframe l }
      .ok ((s.setRun x.run { r with windows := mapSet r.windows alloc st }).releaseLayers x.run alloc w)
  | none =>
    let st := { st with decls := mapSet st.decls x.lframe 0, last := mapSet st.last x.lframe l }
    .ok (s.setRun x.run { r with windows := mapSet r.windows alloc st })

/-- PREFETCH.L that supplies the expert bitmap of layer `l` (R228, R328). DEDUCED: log entry 104. -/
def State.supplyBitmap (s : State) (x : Frame) (r : Run) (alloc : Nat) (w : WindowDecl) (l addr : Nat) : SlotRes :=
  let st := mapGetD r.windows alloc WindowState.blank
  let bytes := ceilDiv (w.regionsOf l) 64 * 8
  unlessStop
    ((if bytes = 0 then none else s.rangeStop x addr bytes 8 false) <|>
     need (w.routed && (s.windowBase r w st).elim true fun b => decide (b ≤ l)) fcWINDOWGONE (alloc * 2 ^ 52) <|>
     (if bytes = 0 then none else s.readStop x addr bytes))
    (if (mapGet st.bitmaps l).isSome then .ok s
     else
       let m := leNat (s.readAddr x addr bytes)
       .ok (s.setRun x.run { r with windows := mapSet r.windows alloc { st with bitmaps := mapSet st.bitmaps l m } }))

/-- PREFETCH.L. DEDUCED: log entry 104. -/
def State.execPrefetch (s : State) (x : Frame) (alloc layer : Nat) (route : Bool) (addr : Nat) : SlotRes :=
  match s.run x.run, (s.consistOf x).bind fun k => mapGet k.windows alloc with
  | some r, some w =>
    if route then (if addr % 8 ≠ 0 then SlotRes.fault fcALIGN addr else s.supplyBitmap x r alloc w (layer % 2 ^ 16) addr)
    else s.declareLayer x r alloc w (layer % 2 ^ 16)
  | _, _ => if route ∧ addr % 8 ≠ 0 then SlotRes.fault fcALIGN addr else SlotRes.fault fcADDRRANGE (alloc * 2 ^ 52)

/-- WINDOW_FETCH_DONE: the window's engine has brought a layer into its slot. Layers arrive in ascending order, within the W layers
the window holds; a ROUTED layer only once its bitmap is there (R227, R228). -/
def State.windowFetchDone (s : State) (run alloc layer : Nat) : State :=
  match s.run run with
  | none => s
  | some r =>
    match (s.runConsist r).bind fun k => mapGet k.windows alloc with
    | none => s
    | some w =>
      let st := mapGetD r.windows alloc WindowState.blank
      match s.windowBase r w st with
      | none => s
      | some b =>
        let lower := (List.range (layer - b)).all fun i => st.fetched.contains (b + i)
        if b ≤ layer ∧ layer < b + w.depth ∧ layer < w.layers ∧ lower ∧ !st.fetched.contains layer ∧
            (!w.routed || (mapGet st.bitmaps layer).isSome) then
          s.setRun run { r with windows := mapSet r.windows alloc { st with fetched := st.fetched ++ [layer] } }
        else s

end Sys2Proof.Machine
end

