-- ==== Sys2Proof/Machine/Frames.lean ====
section
/-! DEFINITION. Slot T (R318 to R334) and the issue of bundles (R272 to R276, R300): BUNDLE_ISSUE, with the engine calls a frame
issues (R280 to R283). -/

namespace Sys2Proof.Machine

-- ## Engine calls (R280, R283, R334)

/-- Number of an engine instruction, as the calls record it. -/
def EngineFn.code : EngineFn → Nat
  | .walk => 0 | .sweep => 1 | .topk => 2 | .merge => 3 | .gather => 4 | .scatadd => 5

/-- The OUTQ that a descriptor names for an engine instruction, and its kind: STREAM for a walk or sweep, COMPLETION otherwise. -/
def EngineFn.outq (fn : EngineFn) (desc : Bytes) : Nat × Nat :=
  match fn with
  | .walk | .sweep => (leAt desc 56 1 % 8, 2)
  | .topk | .merge => (leAt desc 49 1 % 8, 1)
  | _ => (leAt desc 48 1 % 8, 1)

/-- The INQ that a descriptor names: SEL.TOPK under STREAM. -/
def EngineFn.inq (fn : EngineFn) (desc : Bytes) : Option Nat :=
  if fn = .topk ∧ bitOf (leAt desc 1 1) 5 then some (leAt desc 48 1 % 8) else none

/-- A queue of a frame is bound and of a kind. -/
def Frame.queueKind (x : Frame) (q kind : Nat) : Bool := (mapGet x.queues q).elim false fun u => u.kind == kind

/-- The queue checks of R280 and R283. -/
def Frame.queuesOk (x : Frame) (fn : EngineFn) (desc : Bytes) : Bool :=
  let (q, kind) := fn.outq desc
  x.queueKind q kind && (fn.inq desc).elim true (fun i => x.queueKind i 2) &&
  (kind == 2 || (mapGet x.queues q).elim false fun u => decide (u.calls.length < u.depth))

/-- Issue an engine call whose descriptor stands at an address. -/
def State.execEngine (s : State) (f : Nat) (x : Frame) (fn : EngineFn) (addr : Nat) : SlotRes :=
  let desc := s.readAddr x addr 64
  unlessStop (s.rangeStop x addr 64 64 false <|> s.readStop x addr 64 <|> need (x.queuesOk fn desc) fcQUEUEBAD addr)
    (let q := (fn.outq desc).1
     let id := s.nextId
     let prev := ((mapGet x.queues q).bind fun u => u.calls.getLast?).getD 0
     let c : Call := { run := x.run, lframe := x.lframe, frame := f, fn := fn.code, desc := addr, bytes := desc, outq := q, prev := prev,
                       done := false, status := 0, count := 0, walk := none, swept := none, out := [], taken := [], waited := false }
     let s := { s.touchAddr x addr 64 with nextId := id + 1, calls := mapSet s.calls id c }
     .ok (s.modFrame f fun y => { y with queues := mapUpdate y.queues q fun u => { u with calls := u.calls ++ [id] } }))

-- ## Fabric instructions (R329 to R333)

/-- Bytes of an atomic's word by TY (Table 10-11). -/
def ratomSize (ty : Nat) : Nat := if ty = 1 ∨ ty = 3 then 8 else 4

/-- Keep a fabric instruction from an address that its size does not divide (R329). -/
def remoteAligned (addr n : Nat) (k : SlotRes) : SlotRes := if addr % n ≠ 0 then SlotRes.fault fcALIGN addr else k

-- ## Slot T

/-- Slot T on the registers of `x`. -/
def State.execT (s : State) (f : Nat) (x : Frame) (o : TOp) : SlotRes :=
  match o with
  | .nop => .ok s
  | .carry bank tdd aa perch => s.execCarry x bank tdd aa perch
  | .qscan tds aa gran kind tfmt => s.execQscan x tds aa gran kind tfmt
  | .qcvt o => s.execQcvt x o
  | .stream tds tdd => s.execStream x tds tdd
  | .prefetch alloc a route aa => s.execPrefetch x alloc (x.s a).toNat route (x.a aa).toNat
  | .rld d a size sx => remoteAligned (x.s a).toNat (2 ^ size) (.ok (s.remoteLoad f d size sx (x.s a).toNat))
  | .rst d a size ordered => remoteAligned (x.s a).toNat (2 ^ size) (.ok (s.remoteStore f size (x.s a).toNat (x.s d) ordered))
  | .ratom d a b c op ty =>
    remoteAligned (x.s a).toNat (ratomSize ty) (.ok (s.remoteAtomic f d (x.s a).toNat op ty (x.s b) (x.s c)))
  | .inval mode a b => .ok (s.inval ((s.run x.run).elim 0 fun r => r.slice) mode (x.s a).toNat (x.s b).toNat)
  | .engine fn aa ofs => s.execEngine f x fn ((x.a aa) + BitVec.ofNat 64 (64 * ofs)).toNat
  | .mma o => s.execMmaOp f x o

-- ## Bundles (R272 to R276)

/-- The slot whose encoding is reserved: 0 A, 1 V, 2 T, 0xFF when none applies (R289, R300). DEDUCED: log entries 103, 125. -/
def illegalSlot (w : Nat) : Nat :=
  match bitsOf w 124 4 with
  | 1 =>
    if (decodeA (bitsOf w 84 40) none).isNone then 0 else if (decodeV (bitsOf w 42 42)).isNone then 1
    else if (decodeT (bitsOf w 0 42)).isNone then 2 else 0xFF
  | 2 => if (decodeA (bitsOf w 84 40) none).isNone then 0 else if (decodeTLong (bitsOf w 0 84)).isNone then 2 else 0xFF
  | 3 => if (decodeA (bitsOf w 84 40) (some (bitsOf w 0 64))).isNone then 0 else 0xFF
  | _ => 0xFF

/-- ALIGN of an MMA.I4 whose operands are not FP4 is a reserved encoding (Table 10-10). DEDUCED: log entry 104. -/
def alignIllegal (x : Frame) (o : TOp) : Bool :=
  match o with
  | .mma m =>
    m.form == 0 && m.align != 0 &&
    (match mapGet x.tds m.tda, mapGet x.tds m.tdw with
     | some a, some w => !isFp4 (Tensor.ofBytes a) (Tensor.ofBytes w)
     | _, _ => false)
  | _ => false

/-- The slot that decides when a slot does not complete. -/
structure BundleRes where
  slot : Nat
  res : SlotRes
  deriving DecidableEq, Repr

/-- The slots of a bundle in the order A, V, T, each reading the registers of `x` (R274, R300). -/
def State.execSlots (s : State) (f : Nat) (x : Frame) (b : Bundle) : BundleRes :=
  match (if x.guard b.ag then s.execA f x b.a else .ok s) with
  | .ok s1 =>
    match (if x.guard b.vg then s1.execV f x b.v else .ok s1) with
    | .ok s2 => ⟨2, if x.guard b.tg then s2.execT f x b.t else .ok s2⟩
    | r => ⟨1, r⟩
  | r => ⟨0, r⟩

/-- Where the frame goes after the bundle (R274, R303). -/
def Bundle.next (b : Bundle) (x : Frame) : Nat :=
  let seq := (x.pc + 1) % 2 ^ 64
  if x.guard b.ag then (b.a.target x).getD seq else seq

/-- The slabs of an MMA that stands in one bundle with HALT are added before the frame ends (R275, R309). -/
def State.finishMma (s : State) (f : Nat) : State :=
  match (s.frame f).bind Frame.mma with
  | some j => (List.range j.nslabs).foldl (fun (s : State) k => s.slab f j k) s
  | none => s

/-- A bundle that has completed: the frame goes on, or ends by HALT with its code (R309). DEDUCED: log entry 103. -/
def State.endBundle (s : State) (f : Nat) (x : Frame) (b : Bundle) : State :=
  match b.a, x.guard b.ag with
  | .halt code, true => (s.finishMma f).haltFrame f code
  | _, _ => s.modFrame f fun y => { y with pc := b.next x, barPassed := false, counted := false }

/-- A bundle that waits: nothing is done; a read that waits for a window fetch is counted once (R227, Table 7-7).
DEDUCED: log entries 104, 125. -/
def State.stallBundle (s : State) (f : Nat) (x : Frame) (window : Bool) : State :=
  if window && !x.counted then (s.count CMP_WINWAIT_COUNT).setFrame f { x with counted := true } else s

/-- A bundle whose store waits for a page move, counted once (R344). -/
def State.stallMove (s : State) (f : Nat) (x : Frame) : State :=
  if x.counted then s else (s.count MEM_MOVEWAIT_COUNT).setFrame f { x with counted := true }

/-- A multi-step instruction of slot T halted with part of its effect: no other slot of the bundle has one (R276). -/
def State.partBundle (s : State) (f : Nat) (x : Frame) (b : Bundle) : State :=
  match s.execT f x b.t with
  | .partly t cause addr => t.faultFrame f 2 cause addr
  | _ => s

/-- Issue a decoded bundle. -/
def State.issue (s : State) (f : Nat) (x : Frame) (b : Bundle) : State :=
  let r := s.execSlots f x b
  match r.res with
  | .ok t => t.endBundle f x b
  | .stop (.wait window) => s.stallBundle f x window
  | .stop .moving => s.stallMove f x
  | .stop (.fault cause addr) => s.faultFrame f r.slot cause addr
  | .partly _ _ _ => s.partBundle f x b

/-- BAR of a bundle whose barrier the frame has not yet reached (R284). -/
def Bundle.bar (b : Bundle) (x : Frame) : Option Nat :=
  match b.a with
  | .bar g => if x.guard b.ag && !x.barPassed then some g else none
  | _ => none

/-- A frame reaches the BAR of its bundle: it waits for its remote stores, then arrives (R310); the rest of the bundle issues once the
barrier has completed. DEDUCED: log entry 105. -/
def State.reachBarrier (s : State) (f : Nat) (x : Frame) (g : Nat) : State :=
  match remoteStop x with
  | some (.fault cause addr) => s.faultFrame f 0 cause addr
  | some (.wait _) | some .moving => s
  | none =>
    let s := s.arriveBarrier f g
    if g = 1 then s.joinFabric x.run else s

/-- The bundle at a frame's pc. -/
def State.fetchBundle (s : State) (x : Frame) : Option Nat :=
  (s.consistOf x).bind fun k =>
    let img := k.imageAt x.lframe
    if 16 * x.pc < img.code.length then some (img.bundle x.pc) else none

/-- A frame can issue: it has not halted, waits for nothing, its rod array is free and no peer has halted it. -/
def Frame.issues (x : Frame) : Bool := x.wait == .none && x.mma.isNone && !x.peerHalt

/-- BUNDLE_ISSUE. -/
def State.bundleIssue (s : State) (f dt : Nat) : State :=
  let s := s.tick dt
  match s.frame f with
  | none => s
  | some x =>
    if !x.issues then s
    else
      match s.fetchBundle x with
      | none => s.faultFrame f 0xFF fcPCRANGE 0
      | some w =>
        match decodeBundle w with
        | none => s.faultFrame f (illegalSlot w) fcILLEGAL 0
        | some b =>
          if alignIllegal x b.t then s.faultFrame f 2 fcILLEGAL 0
          else
            match b.bar x with
            | some g => s.reachBarrier f x g
            | none => s.issue f x b

end Sys2Proof.Machine
end

