-- ==== Sys2Proof/Machine/Selector.lean ====
section
/-! DEFINITION. The Selector (chapter 4): keys and their order, selection with ties and duplicates, the exact sums, the summary record,
and the merging of lists. -/

namespace Sys2Proof.Machine

/-- The null local id (R11). -/
abbrev nullId : Nat := 2 ^ 32 - 1

/-- The null global id (R11). -/
abbrev nullGlobal : Nat := 2 ^ 64 - 1

-- ## Keys (R126, R127)

/-- Bytes of a key (Table 4-1). -/
def keyBytes (kf : Nat) : Nat := if kf = 0 ∨ kf = 3 ∨ kf = 4 then 2 else 4

/-- The floating-point format of a key format. -/
def keyFmt (kf : Nat) : Option Fmt :=
  match kf with
  | 3 => some .fp16 | 4 => some .bf16 | 5 => some .fp32 | _ => none

/-- The fill key of unused slots (Table 4-1). -/
def fillKey (kf : Nat) : Nat :=
  match kf with
  | 0 => 0xFFFF | 1 => 0xFFFFFFFF | 2 => 0x7FFFFFFF | 3 => 0x7C00 | 4 => 0x7F80 | _ => 0x7F800000

/-- An integer that orders key codes as their values do: −0 and +0 alike, the infinities beyond every number. -/
def keyRank (kf code : Nat) : Int :=
  match keyFmt kf with
  | some f => if bitOf code (f.bits - 1) then -((code % 2 ^ (f.bits - 1) : Nat) : Int) else (code % 2 ^ (f.bits - 1) : Nat)
  | none => if kf = 2 then toSigned code 32 else code

/-- A NaN key, or the null global id, makes an entry invalid (R127). -/
def SelEntry.valid (kf : Nat) (e : SelEntry) : Bool :=
  decide (e.id ≠ nullGlobal) && (keyFmt kf).elim true fun f => !(decodeFloat f e.key).isNan

/-- Rank of an entry (R128): key, better first, then id, then position. -/
def SelEntry.before (kf : Nat) (larger : Bool) (a b : SelEntry) : Bool :=
  let x := keyRank kf a.key
  let y := keyRank kf b.key
  if x = y then (if a.id = b.id then decide (a.pos < b.pos) else decide (a.id < b.id))
  else if larger then decide (y < x) else decide (x < y)

/-- Two keys are equal as values. -/
def sameKey (kf a b : Nat) : Bool := keyRank kf a == keyRank kf b

-- ## Selection (R130 to R132)

/-- What a selection keeps, what it leaves over that is no dropped duplicate, and the duplicates it dropped. -/
structure Picked where
  kept : List SelEntry
  rest : List SelEntry
  dups : Nat
  conflicts : Nat
  deriving DecidableEq, Repr

/-- Emit entries in rank order until `k` are kept (R130). -/
def emit (kf : Nat) (dedup : Bool) (k : Nat) : List SelEntry → Picked → Picked
  | [], p => p
  | e :: es, p =>
    if k ≤ p.kept.length then { p with rest := p.rest ++ (e :: es) }
    else match if dedup then p.kept.find? fun o => o.id == e.id else none with
      | some o => emit kf dedup k es (if sameKey kf o.key e.key then { p with dups := p.dups + 1 } else { p with conflicts := p.conflicts + 1 })
      | none => emit kf dedup k es { p with kept := p.kept ++ [e] }

/-- Select the best `k` of a row. -/
def pick (kf : Nat) (larger dedup : Bool) (k : Nat) (row : List SelEntry) : Picked :=
  emit kf dedup k (sortBy (SelEntry.before kf larger) (row.filter (SelEntry.valid kf))) { kept := [], rest := [], dups := 0, conflicts := 0 }

/-- Entries of a list whose key equals the key of the last entry kept. -/
def Picked.tied (kf : Nat) (p : Picked) (es : List SelEntry) : Nat :=
  match p.kept.getLast? with
  | some l => es.countP fun e => sameKey kf e.key l.key
  | none => 0

-- ## Sums (R133, R134)

/-- A sum: units of 2⁻¹⁴⁹, and whether +∞ or −∞ was added. -/
structure Acc where
  sum : Int
  pinf : Bool
  ninf : Bool
  deriving DecidableEq, Repr

/-- Nothing added. -/
def Acc.zero : Acc := { sum := 0, pinf := false, ninf := false }

/-- A finite value in units of 2⁻¹⁴⁹, exact for every value on the FP32 grid. -/
def unitsOf149 (v : Val) : Int := let x := v.signed; x.1 * 2 ^ 149 / (x.2 : Int)

/-- Add a value. -/
def Acc.add (a : Acc) (v : Val) : Acc :=
  match v with
  | .inf n => { a with pinf := a.pinf || !n, ninf := a.ninf || n }
  | _ => { a with sum := a.sum + unitsOf149 v }

/-- Add an accumulator. -/
def Acc.join (a b : Acc) : Acc := { sum := a.sum + b.sum, pinf := a.pinf || b.pinf, ninf := a.ninf || b.ninf }

/-- Read-out: FP32 code, SUMNAN, SUMINF (R134). -/
def Acc.read (a : Acc) : Nat × Bool × Bool :=
  if a.pinf && a.ninf then (nanCode .fp32 (Config.nanSign [0x7F800000, 0xFF800000]), true, false)
  else if a.pinf then (0x7F800000, false, true)
  else if a.ninf then (0xFF800000, false, true)
  else if a.sum = 0 then (0, false, false)
  else
    let c := toFloat .fp32 .rne false (.fin (decide (a.sum < 0)) a.sum.natAbs (2 ^ 149))
    (c.code, false, c.sat)

/-- Settings of the sums of a call: SUMS, SUMEXP, SCALE, REF. -/
structure SumSet where
  sums : Bool
  sumexp : Bool
  scale : Nat
  ref : Nat
  deriving DecidableEq, Repr

/-- No sums. -/
def SumSet.none : SumSet := { sums := false, sumexp := false, scale := 0, ref := 0 }

/-- A key's exact value. -/
def keyVal (kf code : Nat) : Val :=
  match keyFmt kf with
  | some f => decodeFloat f code
  | none => Val.ofInt (keyRank kf code)

/-- The contribution of an entry (R133). -/
def SumSet.term (t : SumSet) (kf : Nat) (e : SelEntry) : Val :=
  if t.sumexp then unfp32 (exp2Code (fpMul .fp32 t.scale (fpSub .fp32 (fp32 (keyVal kf e.key)) t.ref))) else keyVal kf e.key

/-- The sum over entries; nothing when SUMS is clear. -/
def SumSet.total (t : SumSet) (kf : Nat) (es : List SelEntry) : Acc :=
  if t.sums then es.foldl (fun (a : Acc) e => a.add (t.term kf e)) Acc.zero else Acc.zero

-- ## Summaries (R140)

/-- The fields of a summary record (Table 4-4). -/
structure Summary where
  valid : Nat
  k : Nat
  flags : Nat
  elements : Nat
  invalid : Nat
  tiecount : Nat
  conflicts : Nat
  dups : Nat
  visrej : Nat
  filtrej : Nat
  finalsw : Nat
  mode : Nat
  sumin : Nat
  sumout : Nat
  out : Acc
  scale : Nat
  ref : Nat
  deriving DecidableEq, Repr

/-- The 128 bytes of a summary. -/
def Summary.bytes (r : Summary) : Bytes :=
  leBytes 4 r.valid ++ leBytes 2 r.k ++ leBytes 2 r.flags ++ leBytes 8 r.elements ++ leBytes 8 r.invalid ++ leBytes 8 r.tiecount ++
  leBytes 4 r.conflicts ++ leBytes 4 r.dups ++ leBytes 4 r.visrej ++ leBytes 4 r.filtrej ++ leBytes 2 r.finalsw ++ leBytes 1 r.mode ++ [0] ++
  leBytes 4 r.sumin ++ leBytes 4 r.sumout ++ leBytes 4 0 ++ leBytes 40 (ofSigned r.out.sum 320) ++
  leBytes 1 ((if r.out.pinf then 1 else 0) + (if r.out.ninf then 2 else 0)) ++ List.replicate 7 0 ++ leBytes 4 r.scale ++ leBytes 4 r.ref ++
  List.replicate 8 0

/-- The summary that 128 bytes hold. -/
def Summary.ofBytes (b : Bytes) : Summary :=
  { valid := leAt b 0 4, k := leAt b 4 2, flags := leAt b 6 2, elements := leAt b 8 8, invalid := leAt b 16 8, tiecount := leAt b 24 8,
    conflicts := leAt b 32 4, dups := leAt b 36 4, visrej := leAt b 40 4, filtrej := leAt b 44 4, finalsw := leAt b 48 2, mode := leAt b 50 1,
    sumin := leAt b 52 4, sumout := leAt b 56 4,
    out := { sum := toSigned (leAt b 64 40) 320, pinf := bitOf (leAt b 104 1) 0, ninf := bitOf (leAt b 104 1) 1 },
    scale := leAt b 112 4, ref := leAt b 116 4 }

/-- MODE of a summary. -/
def modeByte (kf : Nat) (larger : Bool) (t : SumSet) : Nat :=
  kf + (if larger then 16 else 0) + (if t.sums then 32 else 0) + (if t.sumexp then 64 else 0)

/-- The result of a call: the entries kept and the summary. -/
structure Selected where
  kept : List SelEntry
  sum : Summary
  deriving DecidableEq, Repr

/-- The summary of a selection, from the counts and sums that its rows give. -/
def summarize (kf : Nat) (larger : Bool) (k : Nat) (t : SumSet) (p : Picked) (elements invalid ties dups conflicts : Nat) (out : Acc) : Selected :=
  let full := decide (k ≤ p.kept.length)
  let tiecount := if full then ties else 0
  let i := (t.total kf p.kept).read
  let o := out.read
  let flag := fun (b : Bool) (n : Nat) => if b then n else 0
  { kept := p.kept,
    sum := { valid := p.kept.length, k := k,
             flags := flag (decide (p.tied kf p.kept < tiecount)) 1 + flag (decide (0 < conflicts)) 2 + flag (i.2.1 || o.2.1) 4 +
               flag (i.2.2 || o.2.2) 8,
             elements := elements, invalid := invalid, tiecount := tiecount, conflicts := conflicts, dups := dups, visrej := 0,
             filtrej := 0, finalsw := 0, mode := modeByte kf larger t, sumin := i.1, sumout := o.1, out := out, scale := t.scale, ref := t.ref } }

/-- SEL.TOPK over a row (R130 to R134). -/
def topk (kf : Nat) (larger dedup : Bool) (k : Nat) (t : SumSet) (row : List SelEntry) : Selected :=
  let p := pick kf larger dedup k row
  summarize kf larger k t p row.length (row.countP fun e => !e.valid kf) (p.tied kf (p.kept ++ p.rest)) p.dups p.conflicts
    (t.total kf p.rest)

/-- SEL.MERGE over lists written earlier (R142). -/
def mergeLists (kf : Nat) (larger : Bool) (k : Nat) (t : SumSet) (lists : List Selected) : Selected :=
  let p := pick kf larger true k (lists.flatMap fun l => l.kept)
  let leftOut := sumNat (lists.map fun l =>
    match l.kept.getLast?, p.kept.getLast? with
    | some a, some b =>
      if l.sum.valid = l.sum.k ∧ sameKey kf a.key b.key then l.sum.tiecount - l.kept.countP fun e => sameKey kf e.key b.key else 0
    | _, _ => 0)
  summarize kf larger k t p (sumNat (lists.map fun l => l.sum.elements)) (sumNat (lists.map fun l => l.sum.invalid))
    (p.tied kf (p.kept ++ p.rest) + leftOut) (p.dups + sumNat (lists.map fun l => l.sum.dups))
    (p.conflicts + sumNat (lists.map fun l => l.sum.conflicts))
    (lists.foldl (fun (a : Acc) l => a.join l.sum.out) (t.total kf p.rest))

/-- An output entry (R125): the key in the low bytes. -/
def SelEntry.bytes (kf : Nat) (e : SelEntry) : Bytes :=
  leBytes 4 (e.key % 2 ^ (8 * keyBytes kf)) ++ leBytes 4 e.pos ++ leBytes 8 e.id

/-- An input entry: upper bytes of a narrow key are ignored. -/
def SelEntry.ofBytes (kf : Nat) (b : Bytes) : SelEntry := { key := leAt b 0 (keyBytes kf), pos := leAt b 4 4, id := leAt b 8 8 }

/-- The K output entries: those kept, then fill (R131). -/
def Selected.entries (r : Selected) (kf : Nat) : Bytes :=
  (r.kept.flatMap (SelEntry.bytes kf)) ++
  (List.replicate (r.sum.k - r.kept.length) (SelEntry.bytes kf ⟨fillKey kf, 2 ^ 32 - 1, nullGlobal⟩)).flatten

/-- Settings of the sums that R133 refuses. -/
def SumSet.bad (t : SumSet) : Bool :=
  t.sumexp && (!(unfp32 t.scale).isFin || !(unfp32 t.ref).isFin || (unfp32 t.scale).isZero)

-- ## Counters and checks (R145, R147)

/-- Count a completed Selector call (Table 4-8). -/
def State.countSel (s : State) (r : Selected) (conflicts invalid : Nat) : State :=
  let s := ((s.count SRC_SELCALLS_COUNT).count SRC_SELCONFL_COUNT conflicts).count SRC_SELINVAL_COUNT invalid
  if r.sum.valid < r.sum.k then s.count SRC_SELSHORT_COUNT else s

/-- A first disagreement of a Shunter's or Selector's checker: a CHECK record, and an event that the unit's window tolerates 16 times
(R66, R145, Table 17-3). DESIGN CHOICE: log entry 84. -/
def State.firstCheck (s : State) (u source slice : Nat) : State :=
  let s := (s.addEvent u .transient).report u .check source 0 slice
  if tolerated u < s.windowCount u .transient then s.retirePermanent u source else s

/-- A second disagreement: two in the window retire the unit (Table 17-3). DESIGN CHOICE: log entry 84. -/
def State.secondCheck (s : State) (u source slice : Nat) : State :=
  let s := (s.addEvent u .second).report u .check source 0 slice
  if 2 ≤ s.windowCount u .second then s.retirePermanent u source else s

/-- What the checker of a Shunter sees (R66). DESIGN CHOICE: log entry 84. -/
def State.beadCheck (s : State) (shunter slice : Nat) (e : CheckEvent) : State :=
  let u := unitId 2 shunter
  match e with
  | .clean => s
  | .first => (s.count SRC_BEADCHK_FIRST).firstCheck u 5 slice
  | .second => (((s.count SRC_BEADCHK_FIRST).firstCheck u 5 slice).count SRC_BEADCHK_SECOND).secondCheck u 5 slice

/-- What the checker of a Selector sees (R145). DESIGN CHOICE: log entry 84. -/
def State.selCheck (s : State) (selector slice : Nat) (e : CheckEvent) : State :=
  let u := unitId 3 selector
  match e with
  | .clean => s
  | .first => (s.count SRC_SELCHK_FIRST).firstCheck u 6 slice
  | .second => (((s.count SRC_SELCHK_FIRST).firstCheck u 6 slice).count SRC_SELCHK_SECOND).secondCheck u 6 slice

end Sys2Proof.Machine
end

