-- ==== Sys2Proof/Machine/Graph.lean ====
section
/-! DEFINITION. One index as a graph over sketches (chapters 2 and 3): sketches and stored copies, points and their visibility, image
versions, walks, sweeps, merges and edge repair, each as a function of the index alone. -/

namespace Sys2Proof.Machine

-- ## Sketches and stored copies (R45 to R47, R150, R218)

/-- S in bits. -/
def Index.bits (x : Index) : Nat := 256 * 2 ^ x.skw

/-- Hamming distance of two S-bit sketches (R47). -/
def hamming (bits a b : Nat) : Nat := popcount bits (a ^^^ b)

/-- Codes of a vector as INT8 under the symmetric record of its own (R150, R188, R192): codes as signed numbers, and the scale.
DESIGN CHOICE: log entry 70. -/
def int8Codes (f : Fmt) (v : List Nat) : List Int × Nat :=
  let xs := v.map (decodeFloat f)
  let r := scanGroup .int8 3 false false 127 xs
  (xs.map fun x => toSigned (quant r .int8 .rne false x).code 8, r.scale)

/-- Dot product of two lists of integers. -/
def dotInt : List Int → List Int → Int
  | a :: as, b :: bs => a * b + dotInt as bs
  | _, _ => 0

/-- The sketch of a vector's codes under a projection of `bits` directions of `dim` codes (R218). -/
def sketchOf (proj : Bytes) (bits dim : Nat) (codes : List Int) : Nat :=
  maskOf ((List.range bits).filter fun j =>
    decide (dotInt codes (((proj.drop (j * dim)).take dim).map fun b => b.toInt) < 0))

/-- The INT8 copy and auxiliary record of a vector (R150). DESIGN CHOICE: log entry 70. -/
def copyOf (f : Fmt) (v : List Nat) : Copy :=
  let (codes, sx) := int8Codes f v
  { codes := codes.map fun c => ofSigned c 8, sx := sx,
    nx := fpMul .fp32 (fpMul .fp32 sx sx) (fp32 (Val.ofInt (dotInt codes codes))) }

/-- VECFMT (R150). -/
def vecFmt (n : Nat) : Fmt := if n = 0 then .fp16 else if n = 1 then .bf16 else .fp32

/-- Bytes of an element of a VECFMT. -/
def vecElem (n : Nat) : Nat := if n = 2 then 4 else 2

/-- The element codes of a vector's bytes. -/
def vecOf (vecfmt dim : Nat) (b : Bytes) : List Nat := (List.range dim).map fun i => leAt b (i * vecElem vecfmt) (vecElem vecfmt)

/-- The bytes of a vector. -/
def vecBytes (vecfmt : Nat) (v : List Nat) : Bytes := v.flatMap (leBytes (vecElem vecfmt))

/-- A vector holds a NaN element. -/
def vecNan (vecfmt : Nat) (v : List Nat) : Bool := v.any fun c => (decodeFloat (vecFmt vecfmt) c).isNan

/-- Slot size VB of a full vector (R150). -/
def vectorSlot (vecfmt dim : Nat) : Nat :=
  let n := dim * vecElem vecfmt
  if n ≤ 4096 then max 64 (2 ^ (Nat.log2 (2 * n - 1))) else roundUp n 4096

/-- RS of a point record (R48). -/
def recordSize (skw degree : Nat) : Nat := roundUp (32 * 2 ^ skw + 4 * degree) 64

-- ## Points (R51, R86 to R91)

/-- Ticket `a` of a life record is one (not all ones). -/
def isTicket (a : Nat) : Bool := decide (a ≠ noTicket)

/-- A point is visible at ticket `t` (R86). -/
def Life.visible (l : Life) (t : Nat) : Bool := decide (l.ins ≤ t) && (!isTicket l.del || decide (t < l.del))

/-- The tombstone bit of an id (R95). -/
def Index.tomb (x : Index) (id : Nat) : Bool := (mapGet x.life id).elim false fun l => isTicket l.ins && isTicket l.del

/-- POINTS (R51); a key graph counts the keys appended. -/
def Index.points (x : Index) : Nat :=
  if x.key then x.nkeys else maxNat ((x.life.filter fun e => isTicket e.2.ins).map fun e => e.1 + 1)

/-- Free ids below capacity (R117). -/
def Index.freeIds (x : Index) : Nat := x.capacity - x.life.length

/-- The `n` lowest free ids from `id` up (R93). -/
def lowestFree : KMap Life → Nat → Nat → List Nat
  | [], id, n => (List.range n).map (id + ·)
  | (k, _) :: m, id, n =>
    let gap := min n (k - id)
    if n ≤ gap then (List.range n).map (id + ·)
    else (List.range gap).map (id + ·) ++ lowestFree m (k + 1) (n - gap)

/-- A filter passes an attribute (Table 3-5). -/
def Filter.passes (f : Filter) (attr : Nat) : Bool :=
  match f.mode with
  | 1 => attr &&& f.mask == f.mask
  | 2 => attr &&& f.mask != 0
  | 3 => attr &&& f.mask == 0
  | _ => decide (f.mask ≤ attr) && decide (attr ≤ f.hi)

/-- What the eligibility test gives (R87, R119). -/
inductive Elig where
  | eligible | invisible | filtered
  deriving DecidableEq, Repr

/-- eligible(id, t) (R87, R243). -/
def Index.eligible (x : Index) (t : Nat) (f : Option Filter) (id : Nat) : Elig :=
  if x.key then (if x.base + id ≤ t then .eligible else .invisible)
  else match mapGet x.life id with
    | some l => if !l.visible t then .invisible else if f.elim true fun g => g.passes l.attr then .eligible else .filtered
    | none => .invisible

-- ## Records at a version (R51, R56 to R61)

/-- Version `a` is later than version `b` (R56). -/
def verLater (a b : Nat) : Bool := let d := (a + 2 ^ 32 - b) % 2 ^ 32; decide (1 ≤ d) && decide (d < 2 ^ 31)

/-- The version after `v` (R56). -/
def nextVer (v : Nat) : Nat := if v = 2 ^ 32 - 1 then 1 else v + 1

/-- A version can be pinned (R57). DEDUCED: log entry 76. -/
def Index.readable (x : Index) (v : Nat) : Bool := v == x.imgver || (x.prevOk && v == x.prev)

/-- The record of an id, the empty record where it has none (R51). DEDUCED: log entry 67. -/
def Index.record (x : Index) (id : Nat) : PointRec :=
  mapGetD x.recs id { sketch := 0, slots := List.replicate x.degree nullId, present := false }

/-- The sketch of an id's record. DEDUCED: log entry 67. -/
def Index.sketch (x : Index) (id : Nat) : Nat := (x.record id).sketch

/-- An id has a record in a version. -/
def Index.hasRecord (x : Index) (v id : Nat) : Bool := (x.record id).present && (v == x.imgver || !x.fresh.contains id)

/-- The neighbour slots of an id at a pinned version (R60). -/
def Index.slotsAt (x : Index) (v id : Nat) : List Nat :=
  match if verLater x.tablever v then mapGet x.undo id else none with
  | some l => l
  | none => (x.record id).slots

/-- The slots of a list up to its first null (R50). -/
def listEnd (l : List Nat) : List Nat := l.takeWhile fun id => decide (id ≠ nullId)

/-- A list padded with nulls to D slots. -/
def Index.padSlots (x : Index) (l : List Nat) : List Nat := l ++ List.replicate (x.degree - l.length) nullId

-- ## Walks (R69 to R75)

/-- The platform order (R70). -/
def PlatEntry.lt (a b : PlatEntry) : Bool := decide (a.d < b.d) || (decide (a.d = b.d) && decide (a.id < b.id))

/-- Offer an id to a walk (R69, procedure offer). -/
def Index.offer (x : Index) (w : Walk) (id : Nat) : Walk :=
  let d := hamming x.bits w.q (x.sketch id)
  let w := { w with visited := mapSet w.visited id (), comparisons := w.comparisons + 1, spill := w.spill || decide (12288 < w.visited.length + 1) }
  let w := match x.eligible w.ticket w.filter id with
    | .eligible => { w with hits := w.hits ++ [(d, id)] }
    | .invisible => { w with visrej := w.visrej + 1 }
    | .filtered => { w with filtrej := w.filtrej + 1 }
  let e : PlatEntry := ⟨d, id, false⟩
  if w.platform.length < w.sw then { w with platform := insertBy PlatEntry.lt e w.platform }
  else match w.platform.getLast? with
    | some l => if e.lt l then { w with platform := insertBy PlatEntry.lt e w.platform.dropLast } else w
    | none => w

/-- Offer an id that the walk has not visited. -/
def Index.offerNew (x : Index) (w : Walk) (id : Nat) : Walk := if (mapGet w.visited id).isSome then w else x.offer w id

/-- Round 0: the entry points that have a record in the pinned version, in stored order (R55, R69). -/
def Index.roundZero (x : Index) (w : Walk) : Walk :=
  let w := (w.entry.filter fun e => x.hasRecord w.pin e).foldl (fun (w : Walk) e => x.offerNew w e) w
  { w with rounds := 1 }

/-- Offer the neighbours in a list's slots from slot `i` up; a corrupt slot stops it (R50, R51): the slot's number. -/
def Index.offerList (x : Index) : List Nat → Nat → Walk → Walk × Option Nat
  | [], _, w => (w, none)
  | nb :: rest, i, w =>
    if nb = nullId then (w, none)
    else if x.points ≤ nb then (w, some i)
    else Index.offerList x rest (i + 1) (x.offerNew { w with media := w.media || w.bad.contains nb } nb)

/-- Offer the neighbours of the chosen entries in order; a corrupt slot as record id and slot. -/
def Index.offerAll (x : Index) : List Nat → Walk → Walk × Option (Nat × Nat)
  | [], w => (w, none)
  | c :: cs, w =>
    match x.offerList (x.slotsAt w.pin c) 0 { w with media := w.media || w.bad.contains c } with
    | (w, some i) => (w, some (c, i))
    | (w, none) => Index.offerAll x cs w

/-- The entries the next round expands. -/
def Walk.chosen (w : Walk) : List Nat :=
  ((w.platform.filter fun e => !e.expanded).take (min w.batch (w.hopmax - w.expansions))).map PlatEntry.id

/-- A round after round 0. -/
def Index.expandRound (x : Index) (w : Walk) (cs : List Nat) : Walk × Option (Nat × Nat) :=
  let w := { w with platform := w.platform.map fun e => if cs.contains e.id then { e with expanded := true } else e,
                    expansions := w.expansions + cs.length }
  match x.offerAll cs w with
  | (w, bad) => ({ w with rounds := w.rounds + 1 }, bad)

/-- Distinct ids of two streams of hits. -/
def distinctIds (a b : List (Nat × Nat)) : Nat :=
  (b.foldl (fun (m : KMap Unit) h => mapSet m h.2 ()) (a.foldl (fun (m : KMap Unit) h => mapSet m h.2 ()) [])).length

/-- The end of a pass (R72, R75, R121): the totals, and a widening pass or the end of the walk. `sweep` holds the sweep's hits. -/
def Walk.endPass (w : Walk) (sweep : List (Nat × Nat)) : Walk :=
  let hop := decide (w.expansions = w.hopmax) && w.platform.any fun e => !e.expanded
  let w := { w with allRounds := w.allRounds + w.rounds, allExpansions := w.allExpansions + w.expansions, hoplimit := hop,
                    hopPasses := if hop then w.hopPasses + 1 else w.hopPasses }
  if w.autowiden && decide (distinctIds w.hits sweep < w.k) && decide (w.sw < w.swmax) then
    { w with sw := min (2 * w.sw) w.swmax, platform := [], visited := [], hits := [], rounds := 0, expansions := 0, visrej := 0,
             filtrej := 0, passes := w.passes + 1 }
  else { w with ended := true }

/-- One round, or the end of a pass (WALK_ROUND). A corrupt slot ends it. -/
def Index.walkRound (x : Index) (sweep : List (Nat × Nat)) (w : Walk) : Walk × Option (Nat × Nat) :=
  if w.ended || w.media then (w, none)
  else if w.rounds = 0 then (x.roundZero w, none)
  else match w.chosen with
    | [] => (w.endPass sweep, none)
    | cs => x.expandRound w cs

/-- Rounds until the walk has ended or met a corrupt slot, at most `fuel`. -/
def Index.runWalk (x : Index) (sweep : List (Nat × Nat)) : Nat → Walk → Walk × Option (Nat × Nat)
  | 0, w => (w, none)
  | fuel + 1, w =>
    if w.ended || w.media then (w, none)
    else match x.walkRound sweep w with
      | (w, some b) => (w, some b)
      | (w, none) => Index.runWalk x sweep fuel w

/-- A walk at its start. -/
def Walk.start (index pin ticket : Nat) (filter : Option Filter) (q sw swmax hopmax batch : Nat) (entry : List Nat) (k : Nat) (widen : Bool)
    (shunter : Nat) (bad : List Nat) : Walk :=
  { index := index, pin := pin, ticket := ticket, filter := filter, q := q, sw := sw, swmax := swmax, hopmax := hopmax, batch := batch,
    entry := entry, k := k, autowiden := widen, shunter := shunter, platform := [], visited := [], hits := [], rounds := 0, expansions := 0,
    visrej := 0, filtrej := 0, allRounds := 0, allExpansions := 0, comparisons := 0, passes := 1, hoplimit := false, hopPasses := 0, spill := false,
    bad := bad, media := false, ended := false }

/-- Rounds that suffice for every pass of a walk: HOPMAX + 2 in each of the passes from SW 16 to 1,024. -/
def Walk.fuel (w : Walk) : Nat := 8 * (w.hopmax + 3)

/-- The statistics record (Table 2-8). -/
def Walk.stats (w : Walk) : Bytes :=
  leBytes 4 w.allRounds ++ leBytes 4 w.allExpansions ++ leBytes 4 w.comparisons ++ leBytes 4 w.hits.length ++ leBytes 4 w.visrej ++
  leBytes 4 w.filtrej ++ leBytes 2 w.sw ++ leBytes 1 w.passes ++
  leBytes 1 ((if w.hoplimit then 1 else 0) + (if 1 < w.passes then 2 else 0) + (if w.spill then 4 else 0)) ++ leBytes 4 w.pin ++
  leBytes 6 w.ticket ++ leBytes 2 0

/-- Entries that ENTRY selects (R53). -/
def Index.entrySet (x : Index) (entry : Nat) : List Nat := if entry = 0 then x.entries else x.entries.take entry

/-- Scratch of a walk in bytes; none is needed while B stays within 12,288 (R68). -/
def scratchBytes (entries hopmax degree : Nat) : Nat :=
  let b := entries + hopmax * degree
  if b ≤ 12288 then 0 else 8 * 2 ^ (Nat.log2 (2 * b - 1) + 1)

-- ## Sweeps (R104, R105)

/-- A buffer that a query pinned to `v` sweeps (R104). -/
def Siding.swept (b : Siding) (v : Nat) : Bool :=
  match b.st with
  | .active | .sealed => true
  | .retiring => verLater b.f v
  | .free => false

/-- The slots that are claimed and not vacant. -/
def Siding.held (b : Siding) : List (Nat × Nat) := b.slots.filter fun e => decide (e.1 ≠ nullId)

/-- A sweep (R105). -/
def Index.sweep (x : Index) (v t : Nat) (f : Option Filter) (q : Nat) : SweepRes :=
  let slots := (x.bufs.filter fun b => b.swept v).flatMap Siding.held
  slots.foldl (fun (r : SweepRes) e =>
    let r := { r with swept := r.swept + 1 }
    match x.eligible t f e.1 with
    | .eligible => { r with hits := r.hits ++ [(hamming x.bits q e.2, e.1)] }
    | .invisible => { r with visrej := r.visrej + 1 }
    | .filtered => { r with filtrej := r.filtrej + 1 }) { hits := [], swept := 0, visrej := 0, filtrej := 0 }

/-- The statistics record of a sweep (Table 3-4). -/
def SweepRes.stats (r : SweepRes) : Bytes := leBytes 4 r.swept ++ leBytes 4 r.hits.length ++ leBytes 4 r.visrej ++ leBytes 4 r.filtrej

-- ## The siding (R101 to R103)

/-- Slots of a siding buffer. -/
abbrev sidingSlots : Nat := 65536

/-- Claimed slots at which the active buffer is sealed. -/
abbrev sealPoint : Nat := 49152

/-- A FREE buffer. -/
def Siding.blank : Siding := { st := .free, slots := [], ts := noTicket, v0 := 0, f := 0 }

/-- Buffer `i`. -/
def Index.buf (x : Index) (i : Nat) : Siding := x.bufs.getD i Siding.blank

/-- The index with buffer `i` replaced. -/
def Index.setBuf (x : Index) (i : Nat) (b : Siding) : Index := { x with bufs := x.bufs.set i b }

/-- The buffer that is not active. -/
def Index.other (x : Index) : Nat := 1 - x.act

/-- Every write of the index that is staged and not yet published or refused. -/
def Index.unsettled (x : Index) : List StagedWrite :=
  x.staged ++ (x.openGroup.elim [] fun g => g.cmds) ++ (x.closedGroups.flatMap fun g => g.cmds) ++ (x.pub.elim [] fun g => g.cmds)

/-- The seal ticket of a sealed buffer is settled once every write staged in it has published or been refused; its merge begins then,
with the MERGESW that stands (R102, Table 3-8). -/
def Index.settleSeal (x : Index) (mergesw : Nat) : Index :=
  let i := x.other
  let b := x.buf i
  if b.st == .sealed && !isTicket b.ts && !(x.unsettled.any fun w => w.buf == i && !w.news.isEmpty) then
    { x.setBuf i { b with ts := x.counter } with
      mergesBegun := x.mergesBegun + 1,
      merge := some { buf := i, v0 := b.v0, sw := mergesw, stage := .searching, found := [], lists := [], newRecs := [], first := true } }
  else x

/-- A seal can take place: the other buffer is FREE and no save holds it off (R102, R122). DEDUCED: log entry 72. -/
def Index.canSeal (x : Index) : Bool := (x.buf x.other).st == .free && x.saves.isEmpty

/-- The active buffer is sealed and the other becomes ACTIVE. DEDUCED: log entry 73. -/
def Index.seal (x : Index) (mergesw : Nat) : Index :=
  let i := x.act
  let x := x.setBuf i { x.buf i with st := .sealed, ts := noTicket, v0 := x.imgver }
  let x := x.setBuf x.other { Siding.blank with st := .active }
  ({ x with act := 1 - i }).settleSeal mergesw

/-- SIDING_SEAL's condition (R102). DEDUCED: log entry 73. -/
def Index.sealDue (x : Index) : Bool := decide (sealPoint ≤ (x.buf x.act).slots.length) && x.canSeal

-- ## Merges (R109 to R113)

/-- The order (hamming(n, c), c) of candidates against a sketch. DEDUCED: log entry 74. -/
def Index.orderFrom (x : Index) (sk : Nat → Nat) (n : Nat) (ids : List Nat) : List Nat :=
  (sortBy (fun (a b : Nat × Nat) => decide (a.1 < b.1) || (decide (a.1 = b.1) && decide (a.2 < b.2)))
    (ids.map fun c => (hamming x.bits n (sk c), c))).map Prod.snd

/-- Procedure prune (R111), its loop over the ordered candidates. -/
def Index.pruneGo (x : Index) (sk : Nat → Nat) (n d : Nat) : List Nat → List Nat → List Nat → List Nat
  | [], keep, rest => keep ++ rest.take (d - keep.length)
  | c :: cs, keep, rest =>
    if d ≤ keep.length then keep
    else if keep.any fun k => decide (hamming x.bits (sk k) (sk c) < hamming x.bits n (sk c)) then Index.pruneGo x sk n d cs keep (rest ++ [c])
    else Index.pruneGo x sk n d cs (keep ++ [c]) rest

/-- The list of a point with sketch `n` from ordered candidates (R111). DEDUCED: log entry 74. -/
def Index.prune (x : Index) (sk : Nat → Nat) (n : Nat) (cand : List Nat) : List Nat := x.pruneGo sk n x.degree cand [] []

/-- A slot's id is visible at Ts: every slot of a key graph's buffer is linked (R109, R243). -/
def Index.linked (x : Index) (ts id : Nat) : Bool := x.key || (mapGet x.life id).elim false fun l => l.visible ts

/-- The new points a merge links, in slot order. -/
def Index.newPoints (x : Index) (m : Merge) : List (Nat × Nat) := (x.buf m.buf).held.filter fun e => x.linked (x.buf m.buf).ts e.1

/-- The ticket under which a merge's forward searches test eligibility: visibility at Ts; for a key graph every position. -/
def Index.mergeTicket (x : Index) (m : Merge) : Nat := if x.key then 2 ^ 64 else (x.buf m.buf).ts

/-- The forward search of one new point (R110): its walk, and a corrupt slot it met. -/
def Index.forwardWalk (x : Index) (index : Nat) (m : Merge) (sk : Nat) (bad : List Nat) : Walk × Option (Nat × Nat) :=
  let w := Walk.start index m.v0 (x.mergeTicket m) none sk m.sw m.sw 4096 2 x.entries 1 false 0 bad
  x.runWalk [] w.fuel w

/-- The forward candidates of a new point: the walk's stream, which `hits` holds, with every other new point, the best MERGESW. -/
def Index.forwardCands (x : Index) (m : Merge) (p : Nat × Nat) (hits : List Nat) : List Nat :=
  let news := (x.newPoints m).filter fun e => decide (e.1 ≠ p.1)
  let sk := fun id => ((x.newPoints m).find? fun e => e.1 == id).elim (x.sketch id) fun e => e.2
  let union := (news.map Prod.fst) ++ hits.filter fun id => decide (id ≠ p.1) && !news.any fun e => e.1 == id
  (x.orderFrom sk p.2 union).take m.sw

/-- An id whose delete stands at or before Ts. -/
def Index.goneAt (x : Index) (ts id : Nat) : Bool := (mapGet x.life id).elim false fun l => isTicket l.del && decide (l.del ≤ ts)

/-- The list of a point with additions (R112). `l`: its list with deleted ids removed. -/
def Index.withAdditions (x : Index) (sk : Nat → Nat) (n : Nat) (l adds : List Nat) : List Nat :=
  let adds := x.orderFrom sk n (adds.filter fun p => !l.contains p)
  if l.length + adds.length ≤ x.degree then l ++ adds else x.prune sk n (x.orderFrom sk n (l ++ adds).eraseDups)

/-- The lists a merge makes (R112), ascending by local id, and the new records: with an entry id deleted at or before Ts as a record of no
neighbours (R55). -/
def Index.mergeLists (x : Index) (m : Merge) : List (Nat × List Nat) × List Nat :=
  let ts := (x.buf m.buf).ts
  let news := x.newPoints m
  let sk := fun id => ((x.buf m.buf).held.find? fun e => e.1 == id).elim (x.sketch id) fun e => e.2
  let formed : KMap (List Nat) := news.foldl (fun (t : KMap (List Nat)) p => mapSet t p.1 (x.prune sk p.2 (mapGetD m.found p.1 []))) []
  let adds : KMap (List Nat) := formed.foldl (fun (t : KMap (List Nat)) e =>
    e.2.foldl (fun (t : KMap (List Nat)) n => mapSet t n (mapGetD t n [] ++ [e.1])) t) []
  let full : KMap (List Nat) := adds.foldl (fun (t : KMap (List Nat)) e =>
    let stands := match mapGet formed e.1 with
      | some l => l
      | none => listEnd (x.slotsAt m.v0 e.1)
    let l := stands.filter fun id => !x.goneAt ts id
    mapSet t e.1 (x.withAdditions sk (sk e.1) l e.2)) formed
  let waypoints := ((x.buf m.buf).held.map Prod.fst).filter fun id => x.entries.contains id && (mapGet formed id).isNone &&
    (mapGet x.life id).elim false fun l => isTicket l.ins
  let all := waypoints.foldl (fun (t : KMap (List Nat)) id => if (mapGet t id).isSome then t else mapSet t id []) full
  (all, sortBy (fun a b => decide (a < b)) (mapKeys formed ++ waypoints))

-- ## Publication (R59, R113)

/-- Lists that one publication rewrites at most (R62). -/
def Index.pubLimit (x : Index) : Nat := 65536 * x.degree

/-- A new version with the given lists in place: undo copies of the lists that stood, complete records for new ids (R59).
DEDUCED: log entry 76. -/
def Index.publish (x : Index) (lists : List (Nat × List Nat)) (news : List (Nat × Nat)) : Index :=
  let v := nextVer x.imgver
  let olds := lists.filter fun e => !news.any fun p => p.1 == e.1
  let undo : KMap (List Nat) := olds.foldl (fun (t : KMap (List Nat)) e => mapSet t e.1 (x.record e.1).slots) []
  let recs := olds.foldl (fun (t : KMap PointRec) e => mapSet t e.1 { x.record e.1 with slots := x.padSlots e.2 }) x.recs
  let recs := news.foldl (fun (t : KMap PointRec) p =>
    let l := (lists.find? fun e => e.1 == p.1).elim [] Prod.snd
    mapSet t p.1 { sketch := p.2, slots := x.padSlots l, present := true }) recs
  { x with recs := recs, undo := undo, tablever := v, prev := x.imgver, prevOk := true, imgver := v, fresh := news.map Prod.fst }

/-- A list after repair (R115): tombstoned ids removed, and the free slots filled from the lists of the removed ids together.
DEDUCED: log entry 74. -/
def Index.repairList (x : Index) (n : Nat) (l : List Nat) : List Nat :=
  let kept := l.filter fun id => !x.tomb id
  let cand := ((l.filter x.tomb).flatMap fun g => listEnd (x.record g).slots).filter fun c =>
    !x.tomb c && decide (c ≠ n) && !kept.contains c && (x.record c).present
  kept ++ (x.orderFrom x.sketch (x.sketch n) cand.eraseDups).take (x.degree - kept.length)

/-- A pass that has read its last list and published its last rewrite ends (R115, R116). DEDUCED: log entry 75. -/
def Index.endPass (x : Index) : Index :=
  let r := x.repair
  if r.started && decide (r.upto ≤ r.next) && r.staged.isEmpty then
    let done : PassDone := { startTicket := r.startTicket, startMerges := r.startMerges, version := r.lastPub.getD x.imgver }
    { x with repair := { r with started := false, next := 0, passes := (r.passes + 1) % 2 ^ 32, lastPub := none },
             passesDone := match x.passesDone with
               | p :: _ => if p.version = done.version then [done] ++ x.passesDone.drop 1 else [done, p]
               | [] => [done] }
  else x

/-- The pass starts when it reads its first list (R115). DEDUCED: log entry 75. -/
def Index.beginPass (x : Index) : Index :=
  if x.repair.started then x
  else { x with repair := { x.repair with started := true, next := 0, upto := x.points, startTicket := x.counter, startMerges := x.mergesDone,
                                          staged := [], lastPub := none } }

/-- The pass reaches its next list (R115); ids without a record are skipped. -/
def Index.repairNext (x : Index) : Index :=
  if x.points = 0 ∧ !x.repair.started then x
  else
    let x := x.beginPass
    let n := x.repair.next
    if x.repair.upto ≤ n then x.endPass
    else
      let r := { x.repair with next := n + 1 }
      let l := (mapGet r.staged n).getD (listEnd (x.record n).slots)
      let r := if (x.record n).present && l.any x.tomb then { r with staged := mapSet r.staged n (x.repairList n l) } else r
      ({ x with repair := r }).endPass

/-- The lists of the next publication: the merge's next share and every rewrite of the repair pass, which applies to what the merge
made of the same list (R113). DEDUCED: log entry 75. -/
def Index.nextLists (x : Index) : List (Nat × List Nat) :=
  let ml := x.merge.elim [] fun m => if m.stage == .publishing then m.lists.take x.pubLimit else []
  let rl := (x.repair.staged.filter fun e => !ml.any fun m => m.1 == e.1).take (x.pubLimit - ml.length)
  ml.map (fun e => if (mapGet x.repair.staged e.1).isSome then (e.1, x.repairList e.1 e.2) else e) ++ rl

/-- Something waits to be published. -/
def Index.hasLists (x : Index) : Bool := (x.merge.elim false fun m => m.stage == .publishing) || !x.repair.staged.isEmpty

/-- The merge after a publication of its share: its buffer RETIRING after the last (R113). DEDUCED: log entry 75. -/
def Index.mergeAfter (x : Index) : Index :=
  match x.merge with
  | some m =>
    if m.stage == .publishing then
      let rest := m.lists.drop x.pubLimit
      if rest.isEmpty then
        { x.setBuf m.buf { x.buf m.buf with st := .retiring, f := x.imgver } with merge := none, mergesDone := x.mergesDone + 1 }
      else { x with merge := some { m with lists := rest, newRecs := [], first := false } }
    else x
  | none => x

/-- LIST_PUBLICATION once the version before has no pin (R59, R113). -/
def Index.publishNext (x : Index) : Index :=
  let lists := x.nextLists
  let news := x.merge.elim [] fun m =>
    if m.stage == .publishing then ((x.buf m.buf).held.filter fun e => m.newRecs.contains e.1) else []
  let y := x.publish lists news
  let staged := y.repair.staged.filter fun e => !lists.any fun l => l.1 == e.1
  let wrote := decide (staged.length < y.repair.staged.length)
  let y := { y with repair := { y.repair with staged := staged, lastPub := if wrote then some y.imgver else y.repair.lastPub } }
  (y.mergeAfter).endPass

-- ## Reclaim (R116)

/-- The conditions of R116 for id `id`, with the index's RDMIN. DEDUCED: log entry 75. -/
def Index.reclaimable (x : Index) (rdmin id : Nat) : Bool :=
  match mapGet x.life id with
  | some l =>
    isTicket l.ins && isTicket l.del && decide (l.del < rdmin) &&
    (x.passesDone.any fun p => decide (l.del ≤ p.startTicket) && decide (mapGetD x.delAt id 0 ≤ p.startMerges) && verLater x.imgver p.version) &&
    !x.entries.contains id && !x.bufs.any fun b => b.st != .free && b.held.any fun e => e.1 == id
  | none => false

/-- Reclaim an id. -/
def Index.reclaimId (x : Index) (id : Nat) : Index :=
  { x with life := mapErase x.life id, recs := mapErase x.recs id, undo := mapErase x.undo id, copies := mapErase x.copies id,
           delAt := mapErase x.delAt id }

/-- PENDING (R116): deleted ids that are no entry points. -/
def Index.pendingReclaim (x : Index) : Nat := x.life.countP fun e => isTicket e.2.ins && isTicket e.2.del && !x.entries.contains e.1

end Sys2Proof.Machine
end

