-- ==== Sys2Proof/Machine/Indexes.lean ====
section
/-! DEFINITION. Indexes as the slices hold them: what an index pins and holds readable, creating, saving, closing and loading one, the
store and its change log, replay, and FREE (R55, R64, R88, R99, R100, R346, R596, R598, R599). -/

namespace Sys2Proof.Machine

abbrev stINDEXCORRUPT : Nat := 0x0101
abbrev stTICKETRANGE : Nat := 0x0102
abbrev stIMAGEGONE : Nat := 0x0103
abbrev stNOINDEX : Nat := 0x0104
abbrev stIMAGEFORMAT : Nat := 0x0105
abbrev stNOTLIVE : Nat := 0x0106
abbrev stINDEXFULL : Nat := 0x0107
abbrev stTICKETWRAP : Nat := 0x0108
abbrev stREPLAYSHORT : Nat := 0x0109
abbrev stAPPROXKEY : Nat := 0x010A

-- ## Looking an index up

/-- The index of a number. DEDUCED: log entry 71. -/
def State.index (s : State) (n : Nat) : Option Index := mapGet s.indexes n

/-- The state with an index replaced. -/
def State.setIndex (s : State) (n : Nat) (x : Index) : State := { s with indexes := mapSet s.indexes n x }

/-- A command in flight has been consumed and has not finished. -/
def Cmd.live (c : Cmd) : Bool := c.stage == .consumed || c.stage == .running

/-- An INDEX_CLOSE naming the index has been consumed (R599). -/
def State.closing (s : State) (sl n : Nat) : Bool :=
  (mapVals s.cmds).any fun c => c.live && c.opcode == 0x0016 && c.par 32 2 == n && c.slice == sl && c.unusedZero [(32, 2)]

/-- The index that a command of a slice may name: open, of its own slice, no key graph, not closing. DEDUCED: log entry 67. -/
def State.openIndex (s : State) (sl n : Nat) : Option Index :=
  (s.index n).filter fun x => x.slice == sl && !x.key && !s.closing sl n

/-- MERGESW of SRC_MERGECFG. -/
def State.mergeSw (s : State) : Nat := s.fld SRC_MERGECFG_MERGESW

/-- The walk of a call that has not completed, or whose joined sweep has yet to run. -/
def State.activeWalks (s : State) : List Walk :=
  s.calls.filterMap fun e =>
    match e.2.walk with
    | some w =>
      let joined := s.calls.any fun o => o.2.fn == 1 && o.2.prev == e.1 && bitOf (leAt o.2.bytes 1 1) 5 && !o.2.done && o.2.swept.isNone
      if !e.2.done || joined then some w else none
    | none => none

/-- Every version that something pins (R57, R84, R104): walks, a merge's forward searches, saves. DEDUCED: log entry 76. -/
def State.indexPins (s : State) (n : Nat) : List Nat :=
  ((s.activeWalks.filter fun w => w.index == n).map Walk.pin) ++
  (s.index n).elim [] fun x =>
    (x.merge.elim [] fun m => if m.stage == .searching then [m.v0] else []) ++ ((x.saves.filter fun v => v.begun).map Save.version)

/-- Versions that a sealed buffer holds until its merge, which pins them, begins (R109). -/
def Index.sealHolds (x : Index) : List Nat := (x.bufs.filter fun b => b.st == .sealed && !isTicket b.ts).map Siding.v0

/-- The tickets that admitted work holds on an index. -/
def State.heldTickets (s : State) (n : Nat) : List Nat :=
  ((mapVals s.queries).filter fun q => q.index == n).map Query.ticket ++
  ((s.activeWalks.filter fun w => w.index == n).map Walk.ticket) ++
  (s.index n).elim [] fun x => (x.saves.filter fun v => v.begun).map Save.ticket

/-- RDMIN (R88). A key graph, which has no tickets of its own, reads at every position (R243). -/
def State.rdmin (s : State) (n : Nat) (x : Index) : Nat := if x.key then 0 else (s.heldTickets n).foldl min (min x.counter x.floor)

/-- Allocation number under which errors in an index's record array are kept, and in its copies. DESIGN CHOICE: log entry 68. -/
def recordArea (n : Nat) : Nat := 2 ^ 48 + 2 * n
def copyArea (n : Nat) : Nat := 2 ^ 48 + 2 * n + 1

/-- Ids of an index whose records read with an uncorrectable error. -/
def State.badRecords (s : State) (n : Nat) (x : Index) : List Nat :=
  let rs := recordSize x.skw x.degree
  (s.poison.filter fun p => p.alloc == recordArea n).flatMap fun p =>
    (List.range ((p.off + p.len - 1) / rs + 1 - p.off / rs)).map (p.off / rs + ·)

-- ## Memory of an index (R82, R91)

/-- What an index of these parameters takes in each tier, each structure at its unit of placement (Tables 2-9a and 3-2): the copies in
board memory are not among what R55 checks. DEDUCED: log entry 67. -/
def indexNeeds (skw degree capacity entries dim pool : Nat) (boardrec : Bool) : List (Nat × Nat) :=
  let sb := 32 * 2 ^ skw
  let pg := fun (n : Nat) => roundUp n (2 ^ 21)
  let gr := fun (n : Nat) => roundUp n (2 ^ 16)
  [(if boardrec then 3 else 2, pg (capacity * recordSize skw degree)), (2, pg (16 * capacity)), (2, pg (ceilDiv capacity 8)),
   (2, pg (2 * 65536 * (4 + sb))), (2, pg (16 * 65536 * degree)), (2, pg (65536 * degree * 4 * degree)), (2, pg (8 * sb * dim)),
   (2, pg (pool * 2 ^ 20)), (1, gr (ceilDiv capacity 512)), (1, gr (entries * (4 + sb)))]

/-- The sum of needs in a tier. DEDUCED: log entry 67. -/
def needIn (l : List (Nat × Nat)) (tier : Nat) : Nat := sumNat ((l.filter fun e => e.1 == tier).map Prod.snd)

/-- A slice's budgets hold the needs, once promoted pages have made room; none where they do not. -/
def State.roomFor (s : State) (sl : Nat) (l : List (Nat × Nat)) : Option State :=
  let s' := s.pressure sl (needIn l 2)
  if [1, 2, 3].all fun t => decide (needIn l t ≤ s'.free sl t) then some s' else none

/-- Charge needs to a slice. DESIGN CHOICE: log entry 70. -/
def State.chargeAll (s : State) (h : Holder) (sl : Nat) (l : List (Nat × Nat)) : State :=
  l.foldl (fun (s : State) e => s.charge h sl e.1 e.2) s

-- ## Named allocations

/-- Flags of a PERSIST allocation that an operator creates: COLD, PERSIST. -/
def persistFlags : AllocFlags :=
  { hot := false, warm := false, cold := true, stream := false, persist := true, pin := false, share := false, repl := false,
    clear := false, isLocal := false, window := false }

/-- Create a PERSIST allocation; none when the slice's flash cannot hold it. DESIGN CHOICE: log entry 68. -/
def State.newPersist (s : State) (sl name size : Nat) (init : Bytes) : Option (State × Nat) :=
  if roundUp size blockBytes ≤ s.free sl 4 then some (s.place sl 0 0 0 name size persistFlags 4 [] init) else none

-- ## Stores (R596)

/-- The store of an allocation. -/
def State.store (s : State) (id : Nat) : Store := mapGetD s.stores id { dim := 0, vecfmt := 0, capacity := 0, logsize := 0, log := [] }

/-- The state with a store replaced. -/
def State.setStore (s : State) (id : Nat) (t : Store) : State := { s with stores := mapSet s.stores id t }

/-- Offset of the vector of a local id in its store. DESIGN CHOICE (log entry 68): the vector array follows the change log. -/
def Store.vectorAt (t : Store) (id : Nat) : Nat := t.logsize * 2 ^ 20 + id * vectorSlot t.vecfmt t.dim

/-- Bytes of a store. DESIGN CHOICE: log entry 68. -/
def storeSize (logsize capacity vecfmt dim : Nat) : Nat := logsize * 2 ^ 20 + capacity * vectorSlot vecfmt dim

/-- The full vector of an id. DESIGN CHOICE: log entry 68. -/
def State.fullVector (s : State) (store id : Nat) : List Nat :=
  let t := s.store store
  vecOf t.vecfmt t.dim (s.allocBytes store (t.vectorAt id) (t.dim * vecElem t.vecfmt))

/-- What a read of a full vector meets. -/
def State.vectorStatus (s : State) (store id : Nat) : Option Nat :=
  let t := s.store store
  s.readStatus store (t.vectorAt id) (t.dim * vecElem t.vecfmt)

/-- Write a full vector (R93). -/
def State.writeVector (s : State) (store id : Nat) (v : List Nat) : State :=
  let t := s.store store
  s.allocStore store (t.vectorAt id) (vecBytes t.vecfmt v)

/-- Bytes of a command in the change log. DESIGN CHOICE: log entry 69. -/
def LogCmd.bytes (skw : Nat) (c : LogCmd) : Nat := Config.logBytes c.news.length c.olds.length (32 * 2 ^ skw)

/-- The change log has room for more commands (R99). DESIGN CHOICE: log entry 69. -/
def Store.hasRoom (t : Store) (skw : Nat) (cs : List LogCmd) : Bool :=
  decide (sumNat (t.log.map (LogCmd.bytes skw)) + sumNat (cs.map (LogCmd.bytes skw)) ≤ t.logsize * 2 ^ 20)

-- ## A new index

/-- A repair pass that has not started. -/
def Repair.idle : Repair :=
  { started := false, next := 0, upto := 0, startTicket := 0, startMerges := 0, passes := 0, staged := [], lastPub := none }

/-- An index that holds no point (R55, R101). -/
def Index.blank (slice skw degree vecfmt dim : Nat) (boardrec : Bool) (capacity pool : Nat) (proj : Bytes) (store : Nat) (entries : List Nat) :
    Index :=
  { slice := slice, key := false, base := 0, skw := skw, degree := degree, vecfmt := vecfmt, dim := dim, boardrec := boardrec,
    capacity := capacity, pool := pool, proj := proj, store := store, entries := entries, nkeys := 0, imgver := 1, prevOk := false,
    prev := 0, tablever := 1, undo := [], fresh := [], counter := 0, floor := noTicket, life := [], recs := [], copies := [],
    bufs := [{ Siding.blank with st := .active }, Siding.blank], act := 0, staged := [], openGroup := none, closedGroups := [], pub := none,
    merge := none, repair := Repair.idle, passesDone := [], rate := 10000, saves := [], delAt := [], mergesBegun := 0, mergesDone := 0 }

-- ## INDEX_CREATE (R55)

/-- INDEX_CREATE. DESIGN CHOICE: log entry 79. -/
def State.indexCreate (s : State) (r seq : Nat) : State :=
  match s.running r seq 0x0017 with
  | none => s
  | some c =>
    let n := c.par 32 2
    let skw := c.par 34 1
    let degree := c.par 35 1
    let vecfmt := c.par 36 1
    let flags := c.par 37 1
    let dim := c.par 38 2
    let entries := c.par 40 2
    let capacity := c.par 44 4
    let logsize := c.par 48 4
    let pool := c.par 52 4
    let store := c.par 64 8
    let proj := s.named c.slice (c.par 56 8)
    let needs := indexNeeds skw degree capacity entries dim pool (bitOf flags 0)
    match firstStatus [((s.index n).isSome, stLIMIT),
        (!c.unusedZero [(32, 10), (44, 28)] || decide (2 ^ 15 ≤ n) || decide (3 < skw) || decide (2 < vecfmt) || decide (degree % 8 ≠ 0) ||
          decide (degree < 8) || decide (64 < degree) || decide (1 < flags) || decide (dim = 0) || decide (4096 < dim) || decide (entries = 0) ||
          decide (1024 < entries) || decide (capacity < entries), stLIMIT),
        (proj.elim true (fun a => decide (a.2.size < 32 * 2 ^ skw * 8 * dim)) || decide (store = 0) || (s.named c.slice store).isSome, stLIMIT)] with
    | some st => s.refuse c st
    | none =>
      match (s.roomFor c.slice needs).bind fun s => s.newPersist c.slice store (storeSize logsize capacity vecfmt dim) [] with
      | none => (s.count MEM_BUFSHORT_COUNT).refuse c stBUFFERSHORT
      | some (s, id) =>
        let p := proj.elim [] fun a => s.allocBytes a.1 0 (32 * 2 ^ skw * 8 * dim)
        let s := s.setStore id { dim := dim, vecfmt := vecfmt, capacity := capacity, logsize := logsize, log := [] }
        let s := s.setIndex n (Index.blank c.slice skw degree vecfmt dim (bitOf flags 0) capacity pool p id (List.range entries))
        let s := s.chargeAll (.index n) c.slice (needs ++ [(3, roundUp (capacity * (dim + 8)) (2 ^ 21))])
        s.finish c stOK

-- ## Saved images (R63, R122)

/-- The record of an id as an image holds it at a version. -/
def Index.recordBytes (x : Index) (v id : Nat) : Bytes :=
  let rs := recordSize x.skw x.degree
  if x.hasRecord v id then
    bytesAt (leBytes (32 * 2 ^ x.skw) (x.sketch id) ++ (x.slotsAt v id).flatMap (leBytes 4)) 0 rs
  else bytesAt (leBytes (32 * 2 ^ x.skw) 0 ++ (List.replicate x.degree nullId).flatMap (leBytes 4)) 0 rs

/-- The life record of an id as an image at a ticket holds it. -/
def Index.lifeBytes (x : Index) (t id : Nat) : Bytes :=
  match mapGet x.life id with
  | some l =>
    if isTicket l.ins && decide (l.ins ≤ t) then
      leBytes 6 l.ins ++ leBytes 6 (if l.del ≤ t then l.del else noTicket) ++ leBytes 4 l.attr
    else leBytes 6 noTicket ++ leBytes 6 noTicket ++ leBytes 4 0
  | none => leBytes 6 noTicket ++ leBytes 6 noTicket ++ leBytes 4 0

/-- POINTS at a ticket (Table 2-3). -/
def Index.pointsAt (x : Index) (t : Nat) : Nat := maxNat ((x.life.filter fun e => isTicket e.2.ins && decide (e.2.ins ≤ t)).map fun e => e.1 + 1)

/-- A section: header, body, padding. -/
def imageSection (typ : Nat) (body : Bytes) : Bytes := padTo (leBytes 4 typ ++ leBytes 4 0 ++ leBytes 8 body.length ++ body) 64

/-- The image of an index at a version and a ticket. -/
def Index.image (x : Index) (v t : Nat) : Bytes :=
  let pts := x.pointsAt t
  let siding := ((x.buf x.act).held.filter fun e => (mapGet x.life e.1).elim false fun l => isTicket l.ins && decide (l.ins ≤ t)).flatMap
    fun e => leBytes 4 e.1 ++ leBytes (32 * 2 ^ x.skw) e.2
  let body := padTo (x.entries.flatMap (leBytes 4)) 64 ++ ((List.range pts).flatMap (x.recordBytes v)) ++
    imageSection 1 ((List.range pts).flatMap (x.lifeBytes t)) ++ imageSection 2 siding
  leBytes 4 0x58494E50 ++ leBytes 2 1 ++ leBytes 1 x.skw ++ leBytes 1 x.degree ++ leBytes 4 pts ++ leBytes 4 x.capacity ++
  leBytes 2 x.entries.length ++ leBytes 2 (recordSize x.skw x.degree) ++ leBytes 4 v ++ leBytes 6 t ++ leBytes 2 0 ++ shake256 body 32 ++ body

/-- The image as an INDEX_LOAD takes it apart. -/
structure ImageParts where
  skw : Nat
  degree : Nat
  points : Nat
  capacity : Nat
  ticket : Nat
  entries : List Nat
  records : Bytes
  life : Bytes
  siding : Bytes
  deriving DecidableEq, Repr

/-- Check 3 of R64. -/
def imageHeaderOk (b : Bytes) : Bool :=
  let skw := leAt b 6 1
  let degree := leAt b 7 1
  decide (64 ≤ b.length) && leAt b 0 4 == 0x58494E50 && leAt b 4 2 == 1 && decide (skw ≤ 3) && degree % 8 == 0 && decide (8 ≤ degree) &&
  decide (degree ≤ 64) && decide (1 ≤ leAt b 16 2) && decide (leAt b 16 2 ≤ 1024) && leAt b 18 2 == recordSize skw degree &&
  decide (leAt b 8 4 ≤ leAt b 12 4) && decide (leAt b 16 2 ≤ leAt b 12 4) && leAt b 30 2 == 0

/-- Check 5 of R64: the parts of an image whose header passes. -/
def imageParts (b : Bytes) : Option ImageParts :=
  let skw := leAt b 6 1
  let sb := 32 * 2 ^ skw
  let pts := leAt b 8 4
  let ne := leAt b 16 2
  let rs := leAt b 18 2
  let e0 := 64
  let r0 := e0 + roundUp (4 * ne) 64
  let l0 := r0 + pts * rs
  let l1 := l0 + roundUp (16 + 16 * pts) 64
  let n := leAt b (l1 + 8) 8
  let stop := l1 + roundUp (16 + n) 64
  let entries := (List.range ne).map fun i => leAt b (e0 + 4 * i) 4
  let zeros := fun (lo hi : Nat) => allZero (bytesAt b lo (hi - lo))
  if b.length = stop ∧ leAt b l0 4 = 1 ∧ leAt b l1 4 = 2 ∧ leAt b (l0 + 4) 4 = 0 ∧ leAt b (l1 + 4) 4 = 0 ∧ leAt b (l0 + 8) 8 = 16 * pts ∧
      n % (4 + sb) = 0 ∧ n ≤ 65536 * (4 + sb) ∧ zeros (e0 + 4 * ne) r0 ∧ zeros (l0 + 16 + 16 * pts) l1 ∧ zeros (l1 + 16 + n) stop ∧
      entries.all fun id => decide (id < leAt b 12 4) then
    some { skw := skw, degree := leAt b 7 1, points := pts, capacity := leAt b 12 4, ticket := leAt b 24 6, entries := entries,
           records := bytesAt b r0 (pts * rs), life := bytesAt b (l0 + 16) (16 * pts), siding := bytesAt b (l1 + 16) n }
  else none

/-- The life records of an image. -/
def ImageParts.lifeMap (p : ImageParts) : KMap Life :=
  (List.range p.points).filterMap fun id =>
    let l : Life := { ins := leAt p.life (16 * id) 6, del := leAt p.life (16 * id + 6) 6, attr := leAt p.life (16 * id + 12) 4 }
    if isTicket l.ins then some (id, l) else none

/-- The slots of the siding section. -/
def ImageParts.slots (p : ImageParts) : List (Nat × Nat) :=
  let k := 4 + 32 * 2 ^ p.skw
  (List.range (p.siding.length / k)).map fun i => (leAt p.siding (i * k) 4, leAt p.siding (i * k + 4) (32 * 2 ^ p.skw))

/-- The records of an image: an id in use that the siding section does not hold has one (R122). -/
def ImageParts.recMap (p : ImageParts) : KMap PointRec :=
  let rs := recordSize p.skw p.degree
  let sb := 32 * 2 ^ p.skw
  let life := p.lifeMap
  let held := p.slots.map Prod.fst
  (List.range p.points).filterMap fun id =>
    let r : PointRec :=
      { sketch := leAt p.records (id * rs) sb, slots := (List.range p.degree).map fun i => leAt p.records (id * rs + sb + 4 * i) 4,
        present := (mapGet life id).isSome && !held.contains id }
    if r.present || decide (r.sketch ≠ 0) || r.slots.any (fun n => decide (n ≠ nullId)) then some (id, r) else none

/-- The index an image opens as, before replay. -/
def ImageParts.open_ (p : ImageParts) (slice vecfmt dim : Nat) (boardrec : Bool) (pool : Nat) (proj : Bytes) (store : Nat) : Index :=
  let x := Index.blank slice p.skw p.degree vecfmt dim boardrec p.capacity pool proj store p.entries
  { x with counter := p.ticket, life := p.lifeMap, recs := p.recMap,
           bufs := [{ Siding.blank with st := .active, slots := p.slots }, Siding.blank] }

-- ## Merges run to their end (R100)

/-- The forward searches of a merge that have not run. -/
def Index.searchAll (x : Index) (n : Nat) (m : Merge) : Merge :=
  (x.newPoints m).foldl (fun (m : Merge) p =>
    if (mapGet m.found p.1).isSome then m
    else
      let hits := match x.forwardWalk n m p.2 [] with
        | (w, none) => w.hits.map Prod.snd
        | (_, some _) => []
      { m with found := mapSet m.found p.1 (x.forwardCands m p hits) }) m

/-- A merge whose forward searches are done forms its lists (R112). -/
def Index.computeLists (x : Index) : Index :=
  match x.merge with
  | some m =>
    let (lists, news) := x.mergeLists m
    { x with merge := some { m with stage := .publishing, lists := lists, newRecs := news } }
  | none => x

/-- Publications until nothing waits, at most `fuel`; nothing is pinned. -/
def Index.publishAll : Nat → Index → Index
  | 0, x => x
  | fuel + 1, x => if x.hasLists then Index.publishAll fuel x.publishNext else x

/-- A running merge publishes to its end, and its buffer becomes FREE. -/
def Index.finishMerge (x : Index) (n : Nat) : Index :=
  match x.merge with
  | some m =>
    let x := if m.stage == .searching then ({ x with merge := some (x.searchAll n m) }).computeLists else x
    let x := Index.publishAll ((x.merge.elim 0 fun m => m.lists.length) + x.repair.staged.length + 2) x
    x.setBuf m.buf Siding.blank
  | none => x

/-- A whole repair pass at full rate (R100). -/
def Index.wholePass (x : Index) : Index :=
  let y := { x with repair := { x.repair with started := false, staged := [] } }
  let y := (List.range (y.points + 1)).foldl (fun (x : Index) _ => if x.repair.started || x.repair.passes == y.repair.passes then x.repairNext else x) y
  Index.publishAll (y.repair.staged.length + 2) y

-- ## Replay (R100)

/-- Make room in the siding for `n` points, waiting for merges. -/
def Index.replayRoom (x : Index) (ix sw n : Nat) : Index :=
  let x := if x.sealDue then x.seal sw else x
  if (x.buf x.act).slots.length + n ≤ sidingSlots then x else (x.finishMerge ix).seal sw

/-- An id that a logged insert reuses is reclaimed first. -/
def Index.replayReclaim (x : Index) (ix id : Nat) : Index :=
  match mapGet x.life id with
  | none => x
  | some _ =>
    let x := x.finishMerge ix
    let x := { x with bufs := x.bufs.map fun (b : Siding) => { b with slots := b.slots.map fun (e : Nat × Nat) => if e.1 = id then (nullId, e.2) else e } }
    x.wholePass.reclaimId id

/-- A new point enters the siding with its ticket. -/
def Index.replayPoint (x : Index) (t : Nat) (p : NewPoint) (cp : Copy) : Index :=
  let x := { x with life := mapSet x.life p.id { ins := t, del := noTicket, attr := p.attr }, copies := mapSet x.copies p.id cp }
  x.setBuf x.act { x.buf x.act with slots := (x.buf x.act).slots ++ [(p.id, p.sketch)] }

/-- An id is deleted at a ticket (R95). -/
def Index.deleteAt (x : Index) (t id : Nat) : Index :=
  { x with life := mapUpdate x.life id (fun l => { l with del := t }), delAt := mapSet x.delAt id x.mergesBegun }

/-- Republish one logged command; none where a vector cannot be read. -/
def State.replayCmd (s : State) (ix : Nat) (x : Index) (c : LogCmd) : Option Index :=
  if c.news.any fun p => (s.vectorStatus x.store p.id).isSome then none
  else
    let x := c.news.foldl (fun (x : Index) p => x.replayReclaim ix p.id) x
    let x := x.replayRoom ix s.mergeSw c.news.length
    let x := c.news.foldl (fun (x : Index) p => x.replayPoint c.ticket p (copyOf (vecFmt x.vecfmt) (s.fullVector x.store p.id))) x
    let x := c.olds.foldl (fun (x : Index) id => x.deleteAt c.ticket id) x
    some { x with counter := c.ticket }

/-- Replay commands in ticket order until one cannot be reproduced; whether all were. -/
def State.replayAll (s : State) (ix : Nat) : List LogCmd → Index → Index × Bool
  | [], x => (x, true)
  | c :: cs, x =>
    if c.ticket ≠ x.counter + 1 then (x, false)
    else match s.replayCmd ix x c with
      | some x => State.replayAll s ix cs x
      | none => (x, false)

/-- The DEPOT log entry of a replay that stopped (Table 19-3). DESIGN CHOICE: log entry 41. -/
def State.logReplay (s : State) (x : Index) : State :=
  let j := ((s.sliceDepots x.slice).head?).getD 0
  s.logAppend ltDepot (leBytes 1 4 ++ leBytes 1 j ++ leBytes 2 0 ++ leBytes 2 ((s.sliceNs x.slice j).getD 0) ++ leBytes 2 0 ++ leBytes 8 x.counter)

-- ## INDEX_LOAD (R64, R489)

/-- The copies of every id in use, or the status of the first vector that cannot be read (R489). DESIGN CHOICE: log entry 70. -/
def State.formCopies (s : State) (x : Index) : Index × Option Nat :=
  match x.life.findSome? fun e => s.vectorStatus x.store e.1 with
  | some st => (x, some st)
  | none => ({ x with copies := x.life.map fun e => (e.1, copyOf (vecFmt x.vecfmt) (s.fullVector x.store e.1)) }, none)

/-- An index opens from its image: copies, replay, the store rewound (R100, R489, R596). -/
def State.openImage (s : State) (c : Cmd) (n : Nat) (x : Index) (needs : List (Nat × Nat)) : State :=
  match s.formCopies x with
  | (_, some st) => s.refuse c st
  | (x, none) =>
    let t := s.store x.store
    let due := t.log.filter fun l => decide (x.counter < l.ticket)
    let (x, all) := s.replayAll n due x
    let s := s.setStore x.store { t with log := t.log.filter fun l => decide (l.ticket ≤ x.counter) }
    let s := (s.setIndex n x).chargeAll (.index n) c.slice (needs ++ [(3, roundUp (x.capacity * (x.dim + 8)) (2 ^ 21))])
    if all then s.finish c stOK else (s.logReplay x).finish c stREPLAYSHORT

/-- INDEX_LOAD. DESIGN CHOICE: log entry 79. -/
def State.indexLoad (s : State) (r seq : Nat) : State :=
  match s.running r seq 0x0014 with
  | none => s
  | some c =>
    let n := c.par 32 2
    let flags := c.par 34 1
    let vecfmt := c.par 35 1
    let dim := c.par 36 2
    let logsize := c.par 40 4
    let pool := c.par 44 4
    let image := s.named c.slice (c.par 48 8)
    let proj := s.named c.slice (c.par 56 8)
    let store := s.named c.slice (c.par 64 8)
    match firstStatus [
        ((s.index n).isSome || !c.unusedZero [(32, 6), (40, 32)] || decide (2 ^ 15 ≤ n) || decide (1 < flags) || decide (2 < vecfmt) ||
          decide (dim = 0) || decide (4096 < dim), stLIMIT),
        (image.isNone || proj.isNone || store.isNone || (mapVals s.indexes).any (fun x => x.saves.any fun v => v.begun && (image.elim 0 Prod.fst) == v.alloc) ||
          (mapVals s.indexes).any (fun x => !x.key && x.store == store.elim 0 Prod.fst), stLIMIT)] with
    | some st => s.refuse c st
    | none =>
      match image, proj, store with
      | some (ii, ia), some (pi, pa), some (si, _) =>
        match s.readStatus ii 0 ia.size with
        | some st => s.refuse c st
        | none =>
          let b := memRead ia.mem 0 ia.size
          if !imageHeaderOk b then s.refuse c stIMAGEFORMAT
          else if shake256 (b.drop 64) 32 ≠ bytesAt b 32 32 then s.refuse c stINDEXCORRUPT
          else match imageParts b with
            | none => s.refuse c stIMAGEFORMAT
            | some p =>
              let t := s.store si
              let bits := 256 * 2 ^ p.skw
              if pa.size < bits * dim ∨ t.dim ≠ dim ∨ t.vecfmt ≠ vecfmt ∨ t.capacity ≠ p.capacity ∨ (logsize ≠ 0 ∧ logsize ≠ t.logsize) then
                s.refuse c stLIMIT
              else
                let needs := indexNeeds p.skw p.degree p.capacity p.entries.length dim pool (bitOf flags 0)
                match s.roomFor c.slice needs with
                | none => (s.count MEM_BUFSHORT_COUNT).refuse c stBUFFERSHORT
                | some s =>
                  s.openImage c n (p.open_ c.slice vecfmt dim (bitOf flags 0) pool (s.allocBytes pi 0 (bits * dim)) si) needs
      | _, _, _ => s

-- ## INDEX_SAVE (R122, R598)

/-- The state with the save of a command changed or, with none, gone. -/
def State.setSave (s : State) (n r seq : Nat) (f : Save → Option Save) : State :=
  { s with indexes := mapUpdate s.indexes n fun (x : Index) =>
      { x with saves := x.saves.filterMap fun v => if Save.ring v = r ∧ Save.seq v = seq then f v else some v } }

/-- A save begins: it pins the version and the ticket and writes its image (R598). DEDUCED: log entry 72. -/
def State.beginSave (s : State) (c : Cmd) (n : Nat) (x : Index) (v : Save) : State :=
  let img := x.image x.imgver x.counter
  match s.newPersist c.slice v.name img.length img with
  | none => (((s.setSave n c.ring c.seq fun _ => none).count MEM_BUFSHORT_COUNT)).refuse c stBUFFERSHORT
  | some (s, id) => s.setSave n c.ring c.seq fun (v : Save) => some { v with begun := true, version := x.imgver, ticket := x.counter, alloc := id }

/-- A save that has been programmed completes and releases the log records at or below its ticket. DEDUCED: log entry 72. -/
def State.endSave (s : State) (c : Cmd) (n : Nat) (x : Index) (v : Save) : State :=
  let t := s.store x.store
  let s := s.setStore x.store { t with log := t.log.filter fun l => decide (v.ticket < l.ticket) }
  (s.setSave n c.ring c.seq fun _ => none).finish c stOK

/-- INDEX_SAVE: the checks; then the wait for the buffers; then the wait for the Depots. DEDUCED: log entry 72. -/
def State.indexSave (s : State) (r seq : Nat) : State :=
  match s.running r seq 0x0015 with
  | none => s
  | some c =>
    let n := c.par 32 2
    let name := c.par 40 8
    match (s.index n).bind fun x => (x.saves.find? fun v => v.ring == r && v.seq == seq).map fun v => (x, v) with
    | some (x, v) =>
      if v.begun then
        match s.readStatus v.alloc 0 1 with
        | some st => ((s.setSave n r seq fun _ => none).freeAlloc v.alloc).refuse c st
        | none => if s.flashPending c.slice then s else s.endSave c n x v
      else if x.bufs.any (fun b => b.st == .sealed || b.st == .retiring) then s
      else s.beginSave c n x v
    | none =>
      if !c.unusedZero [(32, 2), (40, 8)] || decide (2 ^ 15 ≤ n) || decide (name = 0) then s.refuse c stLIMIT
      else match s.openIndex c.slice n with
        | none => s.refuse c stNOINDEX
        | some x =>
          if (s.named c.slice name).isSome then s.refuse c stLIMIT
          else
            s.setIndex n { x with saves := x.saves ++ [{ ring := r, seq := seq, name := name, begun := false, version := 0, ticket := 0, alloc := 0 }] }

-- ## INDEX_CLOSE (R599)

/-- Work admitted on an index that a close waits for. -/
def State.indexBusy (s : State) (n : Nat) (x : Index) : Bool :=
  (mapVals s.queries).any (fun q => q.index == n) || s.activeWalks.any (fun w => w.index == n) || !x.unsettled.isEmpty || !x.saves.isEmpty

/-- An index goes with every structure but its store. -/
def State.dropIndex (s : State) (n : Nat) : State :=
  let s := s.discharge (.index n)
  { s with indexes := mapErase s.indexes n,
           poison := s.poison.filter fun p => p.alloc != recordArea n && p.alloc != copyArea n }

/-- INDEX_CLOSE. -/
def State.indexClose (s : State) (r seq : Nat) : State :=
  match s.running r seq 0x0016 with
  | none => s
  | some c =>
    let n := c.par 32 2
    if !c.unusedZero [(32, 2)] || decide (2 ^ 15 ≤ n) then s.refuse c stLIMIT
    else match (s.index n).filter fun x => x.slice == c.slice && !x.key with
      | none => s.refuse c stNOINDEX
      | some x => if s.indexBusy n x then s else (s.dropIndex n).finish c stOK

-- ## FREE (R346)

/-- The device holds a HANDED record for a request (R519). -/
def State.handedOver (s : State) (reqid : Nat) : Bool := (mapGet s.owns reqid).elim false fun r => r.st == .handed

/-- The HANDED record of a request goes (R519). DEDUCED: log entry 116. -/
def State.dropHanded (s : State) (reqid : Nat) : State := if s.handedOver reqid then { s with owns := mapErase s.owns reqid } else s

/-- FREE: a PERSIST allocation of the slice goes, with the store it may hold; so does the HANDED record of a request that the command
names (R519). -/
def State.freeCmd (s : State) (r seq : Nat) : State :=
  match s.running r seq 0x003A with
  | none => s
  | some c =>
    let name := c.par 32 8
    if !c.unusedZero [(32, 8)] then s.refuse c stLIMIT
    else match (s.named c.slice name).filter fun a => a.2.flags.persist with
      | none => if s.handedOver name then s.dropHanded name |>.finish c stOK else s.refuse c stLIMIT
      | some (id, a) =>
        let store := (mapVals s.indexes).any fun x => !x.key && x.store == id
        let saving := (mapVals s.indexes).any fun x => x.saves.any fun v => v.begun && v.alloc == id
        let loading := (mapVals s.cmds).any fun d => d.live && d.opcode == 0x0014 && d.slice == c.slice && d.stage == .running && d.par 48 8 == name
        if store || saving || loading || !a.users.isEmpty then s.refuse c stBUSY
        else
          let s := ((s.unmapAlloc id).freeAlloc id).dropHanded name
          ({ s with stores := mapErase s.stores id }).finish c stOK

end Sys2Proof.Machine
end

