-- ==== Sys2Proof/Machine/Updates.lean ====
section
/-! DEFINITION. Live updates (chapter 3): INSERT, DELETE and UPDATE, commit groups and their publication, the siding's seal, merges, list
publications, edge repair, reclaim, and the two registers that steer them. -/

namespace Sys2Proof.Machine

-- ## Admission and staging (R92, R93, R103, R117, R462)

/-- The opcodes that write an index. -/
def writeOpcode (op : Nat) : Bool := op == 0x0011 || op == 0x0012 || op == 0x0013

/-- What a write command carries: the ids it deletes, and attributes and vectors of its new points. -/
structure WriteArgs where
  olds : List Nat
  attrs : List Nat
  vecs : List (List Nat)
  deriving DecidableEq, Repr

/-- Bytes of the arrays of a write's payload: N ids and N attributes padded to 64 bytes, N vectors padded each. -/
def writePaylen (op n vecfmt dim : Nat) : Nat :=
  let ids := roundUp (4 * n) 64
  let vecs := n * roundUp (dim * vecElem vecfmt) 64
  if op = 0x0012 then ids else if op = 0x0011 then ids + vecs else 2 * ids + vecs

/-- The payload of a write taken apart. -/
def writeArgs (op n vecfmt dim : Nat) (b : Bytes) : WriteArgs :=
  let ids := roundUp (4 * n) 64
  let vb := roundUp (dim * vecElem vecfmt) 64
  let words := fun (off : Nat) => (List.range n).map fun i => leAt b (off + 4 * i) 4
  let vecs := fun (off : Nat) => (List.range n).map fun i => vecOf vecfmt dim (bytesAt b (off + i * vb) vb)
  if op = 0x0012 then { olds := words 0, attrs := [], vecs := [] }
  else if op = 0x0011 then { olds := [], attrs := words 0, vecs := vecs ids }
  else { olds := words 0, attrs := words ids, vecs := vecs (2 * ids) }

/-- Check 3 of R462. -/
def WriteArgs.bad (a : WriteArgs) (vecfmt : Nat) : Bool := (a.vecs.any (vecNan vecfmt)) || decide (a.olds.eraseDups.length ≠ a.olds.length)

/-- The index with a new point staged: its life record, its copy and its slot in the active buffer (R93). -/
def Index.stageAt (x : Index) (id attr sketch : Nat) (v : List Nat) : Index :=
  let x := { x with life := mapSet x.life id { ins := noTicket, del := noTicket, attr := attr },
                    copies := mapSet x.copies id (copyOf (vecFmt x.vecfmt) v) }
  x.setBuf x.act { x.buf x.act with slots := (x.buf x.act).slots ++ [(id, sketch)] }

/-- One new point is staged: its slot, its id, its life record, its copy and its vector (R93). -/
def State.stagePoint (s : State) (n : Nat) (x : Index) (id attr : Nat) (v : List Nat) : State × NewPoint :=
  let (codes, _) := int8Codes (vecFmt x.vecfmt) v
  let p : NewPoint := { id := id, attr := attr, sketch := sketchOf x.proj x.bits x.dim codes }
  let s := s.writeVector x.store id v
  let s := { s with indexes := mapUpdate s.indexes n fun (x : Index) => x.stageAt id attr p.sketch v }
  (s, p)

/-- Stage the new points of a write at the ids chosen for them. -/
def State.stagePoints (s : State) (n : Nat) (x : Index) : List Nat → List Nat → List (List Nat) → State × List NewPoint
  | id :: ids, a :: as, v :: vs =>
    let (s, p) := s.stagePoint n x id a v
    let (s, ps) := State.stagePoints s n x ids as vs
    (s, p :: ps)
  | _, _, _ => (s, [])

/-- A write waits in the index's list of staged writes. -/
def State.addStaged (s : State) (n : Nat) (c : Cmd) (w : StagedWrite) : State :=
  let s := s.setCmd { c with step := 1 }
  { s with indexes := mapUpdate s.indexes n fun (x : Index) => { x with staged := x.staged ++ [w] } }

-- ## Commit groups (R94, R98)

/-- No earlier write of the same ring to the index has still to join a group (R98). -/
def State.ringOrderOk (s : State) (n : Nat) (x : Index) (w : StagedWrite) : Bool :=
  (mapVals s.cmds).all fun d =>
    d.ring != w.ring || decide (w.seq ≤ d.seq) || !d.live || !writeOpcode d.opcode || d.par 32 2 != n ||
    (d.step == 1 && !x.staged.any fun o => o.ring == d.ring && o.seq == d.seq)

/-- A write joins the open group, or opens one. -/
def Index.join (x : Index) (w : StagedWrite) (now : Nat) : Index :=
  let g := x.openGroup.getD { opened := now, cmds := [] }
  { x with staged := x.staged.filter fun o => !(o.ring == w.ring && o.seq == w.seq),
           openGroup := some { g with cmds := g.cmds ++ [w] } }

/-- Staged writes that may join do, in the order in which they finished staging, while the group holds fewer than 1,024.
DESIGN CHOICE: log entry 69. -/
def State.joinWrites (s : State) (n : Nat) : Nat → State
  | 0 => s
  | fuel + 1 =>
    match s.index n with
    | none => s
    | some x =>
      if 1024 ≤ x.openGroup.elim 0 fun g => g.cmds.length then s
      else match x.staged.find? fun w => w.acked && s.ringOrderOk n x w with
        | some w => (s.setIndex n (x.join w s.clock.mono)).joinWrites n fuel
        | none => s

/-- Let every write join that may. -/
def State.joinAll (s : State) (n : Nat) : State := s.joinWrites n ((s.index n).elim 0 fun x => x.staged.length)

/-- INSERT, DELETE or UPDATE: the checks of R462 in order, then staging. -/
def State.writeCmd (s : State) (op r seq : Nat) : State :=
  match s.running r seq op with
  | none => s
  | some c =>
    if c.step = 1 then s
    else
      let n := c.par 32 2
      let k := c.par 34 2
      if !c.unusedZero [(32, 4)] || decide (2 ^ 15 ≤ n) || decide (k = 0) || decide (256 < k) then s.refuse c stLIMIT
      else match s.openIndex c.slice n with
        | none => s.refuse c stNOINDEX
        | some x =>
          let a := writeArgs op k x.vecfmt x.dim (s.payload c)
          if c.paylen ≠ writePaylen op k x.vecfmt x.dim || a.bad x.vecfmt then s.refuse c stLIMIT
          else if op = 0x0012 then
            (s.addStaged n c { ring := r, seq := seq, olds := a.olds, news := [], buf := 0, acked := true, ticket := noTicket, status := stOK }).joinAll n
          else if c.room < roundUp (4 * k) 64 then (s.count MEM_BUFSHORT_COUNT).refuse c stBUFFERSHORT
          else
            let x := if x.sealDue then x.seal s.mergeSw else x
            if sidingSlots < (x.buf x.act).slots.length + k then ((s.setIndex n x).count SRC_WRBUSY_COUNT).refuse c stBUSY
            else if x.freeIds < k then (s.setIndex n x).refuse c stINDEXFULL
            else
              let (s, ps) := (s.setIndex n x).stagePoints n x (lowestFree x.life 0 k) a.attrs a.vecs
              s.addStaged n c { ring := r, seq := seq, olds := a.olds, news := ps, buf := x.act, acked := false, ticket := noTicket, status := stOK }

/-- VECTOR_WRITE_ACK: the Depots have acknowledged what the slice wrote, and the staging of a write is finished (R93, R347). -/
def State.vectorWriteAck (s : State) (r seq dt : Nat) : State :=
  let s := s.tick dt
  match s.indexes.find? fun e => e.2.staged.any fun w => w.ring == r && w.seq == seq && !w.acked with
  | some (n, x) =>
    if s.flashPending x.slice then s
    else match x.staged.find? fun w => w.ring == r && w.seq == seq with
      | some w =>
        let rest := x.staged.filter fun o => !(o.ring == r && o.seq == seq)
        (s.setIndex n { x with staged := rest ++ [{ w with acked := true }] }).joinAll n
      | none => s
  | none => s

/-- COMMIT_GROUP_CLOSE: no staged write waits to join, 100 µs have passed, or the group is full (R94). -/
def State.commitGroupClose (s : State) (n dt : Nat) : State :=
  let s := (s.tick dt).joinAll n
  match s.index n with
  | none => s
  | some x =>
    match x.openGroup with
    | none => s
    | some g =>
      let waits := x.staged.any fun w => w.acked && s.ringOrderOk n x w
      if !waits || decide (g.opened + 100000 ≤ s.clock.mono) || decide (1024 ≤ g.cmds.length) then
        (s.setIndex n { x with openGroup := none, closedGroups := x.closedGroups ++ [g] }).joinAll n
      else s

-- ## The publisher (R85, R94 to R97, R99)

/-- The slots of a write's new points become vacant and its new ids free (R97). -/
def Index.releaseNews (x : Index) (w : StagedWrite) : Index :=
  let ids := w.news.map NewPoint.id
  { x with
    life := ids.foldl (fun (m : KMap Life) id => mapErase m id) x.life
    copies := ids.foldl (fun (m : KMap Copy) id => mapErase m id) x.copies
    bufs := (List.range x.bufs.length).map fun i =>
      let b := x.buf i
      if i = w.buf then { b with slots := b.slots.map fun (e : Nat × Nat) => if ids.contains e.1 then (nullId, e.2) else e } else b }

/-- Step 1 of R94: a write whose deletes are not all live leaves the group. `gone`: ids that earlier writes of the group delete. -/
def Index.checkLive (x : Index) : List Nat → List StagedWrite → List StagedWrite
  | _, [] => []
  | gone, w :: ws =>
    if w.olds.all fun id => (mapGet x.life id).elim false (fun l => l.visible x.counter) && !gone.contains id then
      w :: Index.checkLive x (gone ++ w.olds) ws
    else { w with status := stNOTLIVE } :: Index.checkLive x gone ws

/-- Step 2 of R94: consecutive tickets; a write that would need the last value, and every later one, leaves the group (R85). -/
def assignTickets : Nat → Bool → List StagedWrite → List StagedWrite
  | _, _, [] => []
  | t, wrapped, w :: ws =>
    if w.status ≠ stOK then w :: assignTickets t wrapped ws
    else if wrapped || decide (noTicket ≤ t + 1) then { w with status := stTICKETWRAP } :: assignTickets t true ws
    else { w with ticket := t + 1 } :: assignTickets (t + 1) wrapped ws

/-- The change-log record of a write. -/
def StagedWrite.logCmd (w : StagedWrite) : LogCmd := { ticket := w.ticket, olds := w.olds, news := w.news }

/-- A write's command completes with its ticket and new ids (R94, R462). -/
def State.finishWrite (s : State) (w : StagedWrite) : State :=
  match s.cmd w.ring w.seq with
  | some c =>
    if w.status ≠ stOK then s.refuse c w.status
    else s.finish { c with ticket := w.ticket } stOK (w.news.flatMap fun p => leBytes 4 p.id) (max w.olds.length w.news.length)
  | none => s

/-- Refused writes of a group release what they staged. -/
def Index.releaseRefused (x : Index) (ws : List StagedWrite) : Index :=
  (ws.filter fun w => w.status != stOK).foldl (fun (x : Index) w => x.releaseNews w) x

/-- GROUP_PUBLISH: steps 1 to 3 of R94 on the next closed group. DEDUCED: log entry 73. -/
def State.groupPublish (s : State) (n : Nat) : State :=
  match s.index n with
  | none => s
  | some x =>
    match x.pub, x.closedGroups with
    | none, g :: rest =>
      let ws := assignTickets x.counter false (x.checkLive [] g.cmds)
      let ok := ws.filter fun w => w.status == stOK
      let room := (s.store x.store).hasRoom x.skw (ok.map StagedWrite.logCmd)
      let ws := if ok.isEmpty || room then ws else ws.map fun w => if w.status = stOK then { w with status := stBUSY, ticket := noTicket } else w
      let busy := ws.countP fun w => w.status == stBUSY
      let x := ({ x with closedGroups := rest }).releaseRefused ws
      if ok.isEmpty || !room then
        let s := if busy = 0 then s else s.count SRC_WRBUSY_COUNT busy
        (ws.foldl (fun (s : State) w => s.finishWrite w) (s.setIndex n (x.settleSeal s.mergeSw))).joinAll n
      else s.setIndex n { x with pub := some { g with cmds := ws } }
    | _, _ => s

/-- Step 4 of R94 for one write: INS, DEL, then the counter. -/
def Index.publishWrite (x : Index) (w : StagedWrite) : Index :=
  if w.status ≠ stOK then x
  else
    let x := { x with life := w.news.foldl (fun (m : KMap Life) p => mapUpdate m p.id fun l => { l with ins := w.ticket }) x.life }
    { w.olds.foldl (fun (x : Index) id => x.deleteAt w.ticket id) x with counter := w.ticket }

/-- LOG_RECORD_ACK: the Depot has acknowledged the group's change-log record (R94). DESIGN CHOICE: log entry 69. -/
def State.logRecordAck (s : State) (n : Nat) : State :=
  match s.index n with
  | none => s
  | some x =>
    match x.pub with
    | none => s
    | some g =>
      let t := s.store x.store
      let log := (g.cmds.filter fun w => w.status == stOK).map StagedWrite.logCmd
      let s := s.setStore x.store { t with log := t.log ++ log }
      let x := (g.cmds.foldl (fun (x : Index) w => x.publishWrite w) { x with pub := none }).settleSeal s.mergeSw
      (g.cmds.foldl (fun (s : State) w => s.finishWrite w) (s.setIndex n x)).joinAll n

-- ## The siding and its merge (R102, R104, R109 to R113)

/-- SIDING_SEAL. DEDUCED: log entry 73. -/
def State.sidingSeal (s : State) (n : Nat) : State :=
  match s.index n with
  | some x => if x.sealDue then s.setIndex n (x.seal s.mergeSw) else s
  | none => s

/-- The entry that the Stationmaster logs of a corrupt slot (R51) or of a forward search that met an error (R110). DESIGN CHOICE (log entry 41): a FAULT
entry of class CHECK for the Shunter, PATTERN the index number, ADDR the local id in [31:0] and the slot in [39:32]. -/
def State.logCorrupt (s : State) (shunter n id slot slice : Nat) : State :=
  s.faultRecord (unitId 2 shunter) .check 5 n slice (id + slot * 2 ^ 32)

/-- Count a completed walk (Table 2-11). -/
def State.countWalk (s : State) (w : Walk) : State :=
  let s := s.count SRC_WALKS_COUNT
  if w.spill then s.count SRC_SPILL_COUNT else s

/-- Count the passes of a walk that HOPMAX ended. -/
def State.countHop (s : State) (w : Walk) : State := if w.hopPasses = 0 then s else s.count SRC_HOPLIMIT_COUNT w.hopPasses

/-- MERGE_FORWARD_SEARCH: the forward search of one new point (R110). -/
def State.mergeForwardSearch (s : State) (n point : Nat) : State :=
  match s.index n with
  | none => s
  | some x =>
    match x.merge with
    | none => s
    | some m =>
      match (x.newPoints m).find? fun p => p.1 == point with
      | none => s
      | some p =>
        if m.stage != .searching || (mapGet m.found point).isSome then s
        else
          let (w, bad) := x.forwardWalk n m p.2 (s.badRecords n x)
          let fails := bad.isSome || w.media
          let hits := if fails then [] else w.hits.map Prod.snd
          let s := s.setIndex n { x with merge := some { m with found := mapSet m.found point (x.forwardCands m p hits) } }
          if fails then
            let s := s.logCorrupt 0 n point (bad.elim 0xFF fun b => b.2) x.slice
            if bad.isSome then s.count SRC_CORRUPT_COUNT else s
          else (s.countWalk w).countHop w

/-- MERGE_LIST_COMPUTE: every forward search is done, and the merge forms its lists (R112). -/
def State.mergeListCompute (s : State) (n : Nat) : State :=
  match s.index n with
  | none => s
  | some x =>
    match x.merge with
    | some m =>
      if m.stage == .searching && (x.newPoints m).all fun p => (mapGet m.found p.1).isSome then s.setIndex n x.computeLists else s
    | none => s

/-- LIST_PUBLICATION: the version before the current one becomes unreadable; once nothing pins it, the next version is staged and
published (R59). -/
def State.listPublication (s : State) (n : Nat) : State :=
  match s.index n with
  | none => s
  | some x =>
    if !x.hasLists then s
    else if (s.indexPins n ++ x.sealHolds).any fun v => v != x.imgver then s.setIndex n { x with prevOk := false }
    else
      let y := x.publishNext
      let s := s.setIndex n y
      if x.merge.isSome && y.merge.isNone then s.count SRC_MERGES_COUNT else s

/-- BUFFER_FREE: nothing that walks or sweeps is pinned before F (R104). -/
def State.bufferFree (s : State) (n : Nat) : State :=
  match s.index n with
  | none => s
  | some x =>
    let b := x.buf x.other
    if b.st == .retiring && !s.activeWalks.any fun w => w.index == n && verLater b.f w.pin then
      s.setIndex n (x.setBuf x.other Siding.blank)
    else s

-- ## Edge repair and reclaim (R115, R116)

/-- REPAIR_LIST: the pass reaches its next list, unless RATE is 0. DEDUCED: log entry 74. -/
def State.repairList (s : State) (n : Nat) : State :=
  match s.index n with
  | some x => if x.key || x.rate = 0 then s else s.setIndex n x.repairNext
  | none => s

/-- RECLAIM. -/
def State.reclaim (s : State) (n id : Nat) : State :=
  match s.index n with
  | some x => if x.reclaimable (s.rdmin n x) id then s.setIndex n (x.reclaimId id) else s
  | none => s

-- ## SRC_TKTHOLD and SRC_REPAIR (R88, R115, R124)

/-- The index that SRC_IDXSEL names. -/
def State.selIndex (s : State) : Option (Nat × Index) := (s.index (s.fld SRC_IDXSEL_INDEX)).map fun x => (s.fld SRC_IDXSEL_INDEX, x)

/-- A write of SRC_TKTHOLD: a FLOOR below RDMIN keeps the previous one and is counted. -/
def State.writeTkthold (s : State) (data : Word) : State :=
  match s.selIndex with
  | none => s.badWrite (regOffset .srcTkthold 0 0)
  | some (n, x) =>
    let f := data.toNat % 2 ^ 48
    if f < s.rdmin n x then s.badWrite (regOffset .srcTkthold 0 0) else s.setIndex n { x with floor := f }

/-- A write of SRC_REPAIR. -/
def State.writeRepair (s : State) (data : Word) : State :=
  match s.selIndex with
  | none => s.badWrite (regOffset .srcRepair 0 0)
  | some (n, x) => s.setIndex n { x with rate := data.toNat % 2 ^ 16 }

end Sys2Proof.Machine
end

