-- ==== Sys2Proof/Machine/Search.lean ====
section
/-! DEFINITION. The search operator (chapters 2 to 5): the checks and the ticket of a query, walk, sweep and cut, the two re-rank stages,
and the result. -/

namespace Sys2Proof.Machine

-- ## Keys of the re-rank stages (R151 to R153)

/-- The stage 1 key of a candidate (R151). -/
def stageOneKey (metric : Nat) (q x : Copy) : Nat :=
  let codes := fun (c : Copy) => c.codes.map fun k => toSigned k 8
  let p := fpMul .fp32 (fpMul .fp32 q.sx x.sx) (fp32 (Val.ofInt (dotInt (codes q) (codes x))))
  if metric = 0 then p
  else if metric = 1 then fpSub .fp32 (fpAdd .fp32 q.nx x.nx) (fpMul .fp32 0x40000000 p)
  else if (unfp32 q.nx).isZero || (unfp32 x.nx).isZero then 0
  else fpDiv .fp32 p (fpMul .fp32 (fpSqrt q.nx) (fpSqrt x.nx))

/-- The FP32 value of an exact sum of terms, each a product of two FP32 values; a sum of zero is +0 (R152).
DEDUCED: log entry 134. -/
def leafSum (ts : List Val) : Nat :=
  let pinf := ts.any fun t => !t.isFin && !t.isNan && !t.neg
  let ninf := ts.any fun t => !t.isFin && !t.isNan && t.neg
  if ts.any Val.isNan || (pinf && ninf) then nanCode .fp32 (Config.nanSign [])
  else if pinf then 0x7F800000
  else if ninf then 0xFF800000
  else
    let n : Int := ts.foldl (fun (a : Int) t => let x := t.signed; a + x.1 * 2 ^ 298 / (x.2 : Int)) 0
    let c := (toFloat .fp32 .rne false (.fin (decide (n < 0)) n.natAbs (2 ^ 298))).code
    if c = 0x80000000 then 0 else c

/-- One level of the tree of R152. -/
def treeLevel : List Nat → List Nat
  | a :: b :: rest => fpAdd .fp32 a b :: treeLevel rest
  | l => l

/-- The tree of R152, at most `fuel` levels. -/
def treeSum : Nat → List Nat → Nat
  | 0, l => l.getD 0 0
  | fuel + 1, l => if l.length ≤ 1 then l.getD 0 0 else treeSum fuel (treeLevel l)

/-- exact_sum (R152). DEDUCED: log entry 134. -/
def exactSum (ts : List Val) : Nat := treeSum 64 ((chunks 64 (ceilDiv ts.length 64) ts).map leafSum)

/-- Products of two vectors of FP32 codes, element by element. -/
def products : List Nat → List Nat → List Val
  | a :: as, b :: bs => (unfp32 a).mul (unfp32 b) :: products as bs
  | _, _ => []

/-- Differences of two vectors of FP32 codes, rounded (R153). -/
def differences : List Nat → List Nat → List Nat
  | a :: as, b :: bs => fpSub .fp32 a b :: differences as bs
  | _, _ => []

/-- The stage 2 key of a vector, both vectors as FP32 codes (R153). -/
def stageTwoKey (metric : Nat) (q x : List Nat) : Nat :=
  let dot := fun (a b : List Nat) => exactSum (products a b)
  if metric = 0 then dot q x
  else if metric = 1 then let t := differences q x; dot t t
  else
    let qq := dot q q
    let xx := dot x x
    if (unfp32 qq).isZero || (unfp32 xx).isZero then 0
    else fpDiv .fp32 (dot q x) (fpMul .fp32 (fpSqrt qq) (fpSqrt xx))

/-- A vector of an index widened to FP32 (R152). -/
def widen (vecfmt : Nat) (v : List Nat) : List Nat := v.map fun c => fp32 (decodeFloat (vecFmt vecfmt) c)

-- ## Parameters (R461)

/-- The parameters of a SEARCH, defaults applied (Table 15-7). -/
structure SearchArgs where
  index : Nat
  widening : Bool
  filter : Option Filter
  given : Option Nat
  stats : Bool
  metric : Nat
  rrmode : Nat
  fallback : Bool
  sw : Nat
  swmax : Nat
  hopmax : Nat
  batch : Nat
  entry : Nat
  k : Nat
  rerank : Nat
  exact : Nat
  deriving DecidableEq, Repr

/-- A filter descriptor's fields (Table 3-5). -/
def filterOf (b : Bytes) : Filter := { mode := leAt b 0 1, mask := leAt b 4 4, hi := leAt b 8 4 }

/-- A filter descriptor that R118 refuses. -/
def filterBad (b : Bytes) : Bool :=
  let f := filterOf b
  decide (f.mode = 0) || decide (4 < f.mode) || leAt b 1 3 != 0 || leAt b 12 4 != 0 ||
  (if f.mode = 4 then decide (f.hi < f.mask) else decide (f.hi ≠ 0))

/-- `d` in place of 0. -/
def orDefault (v d : Nat) : Nat := if v = 0 then d else v

/-- The parameters of a SEARCH entry. -/
def Cmd.searchArgs (c : Cmd) : SearchArgs :=
  let flags := c.par 34 1
  let k := c.par 46 2
  { index := c.par 32 2 % 2 ^ 15, widening := bitOf flags 0,
    filter := if bitOf flags 1 then some (filterOf (bytesAt c.entry 64 16)) else none,
    given := if bitOf flags 2 then some (c.par 52 6) else none, stats := bitOf flags 3, metric := c.par 35 1 % 4,
    rrmode := c.par 35 1 / 4 % 4, fallback := bitOf (c.par 35 1) 4, sw := orDefault (c.par 36 2) 128, swmax := orDefault (c.par 38 2) 1024,
    hopmax := orDefault (c.par 40 2) 4096, batch := orDefault (c.par 42 1) 2, entry := c.par 44 2, k := k,
    rerank := orDefault (c.par 48 2) (max 256 k), exact := orDefault (c.par 50 2) k }

/-- Check 1 of R461. -/
def Cmd.searchReserved (c : Cmd) : Bool :=
  let flags := c.par 34 1
  decide (2 ^ 15 ≤ c.par 32 2) || decide (16 ≤ flags) || decide (32 ≤ c.par 35 1) || decide (c.par 35 1 % 4 = 3) ||
  decide (c.par 35 1 / 4 % 4 = 3) || !c.unusedZero ([(32, 11), (44, 14)] ++ if bitOf flags 1 then [(64, 16)] else [])

/-- The walk parameters are outside Table 2-6. -/
def walkParamsBad (sw swmax hopmax batch entry k entries : Nat) (widening : Bool) : Bool :=
  decide (sw < 16) || decide (1024 < sw) || (widening && (decide (swmax < sw) || decide (1024 < swmax))) || decide (hopmax < 16) ||
  decide (batch = 0) || decide (8 < batch) || decide (entries < entry) || decide (1024 < entry) || decide (k = 0) || decide (4096 < k)

/-- Check 3 of R461. -/
def SearchArgs.bad (a : SearchArgs) (entries : Nat) (filter : Bytes) : Bool :=
  walkParamsBad a.sw a.swmax a.hopmax a.batch a.entry a.k entries a.widening || decide (a.rerank < a.k) || decide (4096 < a.rerank) ||
  decide (a.exact < a.k) || decide (a.rerank < a.exact) || (a.filter.isSome && filterBad filter)

/-- Bytes of the outputs: summary, K entries, statistics padded (R461). -/
def SearchArgs.outBytes (a : SearchArgs) : Nat := 128 + 16 * a.k + if a.stats then 64 else 0

-- ## Units of a slice (R67, R106)

/-- In-service Shunters of a slice. -/
def State.sliceShunters (s : State) (sl : Nat) : List Nat :=
  (List.range 128).filter fun u => !s.retired (unitId 2 u) && s.sliceHolds sl Composition.shunters u

/-- In-service Selectors of a slice. -/
def State.sliceSelectors (s : State) (sl : Nat) : List Nat :=
  (List.range 16).filter fun u => !s.retired (unitId 3 u) && s.sliceHolds sl Composition.selectors u

/-- A Shunter has a free walk context (R67). -/
def State.shunterFree (s : State) (u : Nat) : Bool := decide ((s.activeWalks.filter fun w => w.shunter == u).length < 32)

/-- Scratch of an index's pool that active walks hold (R68). -/
def State.scratchUsed (s : State) (n : Nat) (degree : Nat) : Nat :=
  sumNat ((s.activeWalks.filter fun w => w.index == n).map fun w => scratchBytes w.entry.length w.hopmax degree)

/-- Where a walk of `need` scratch bytes runs: the Shunter, if a context and the pool have room. DESIGN CHOICE (log entry 80): the lowest Shunter. -/
def State.walkPlace (s : State) (n : Nat) (x : Index) (need : Nat) : Option Nat :=
  if s.scratchUsed n x.degree + need ≤ x.pool * 2 ^ 20 then (s.sliceShunters x.slice).find? s.shunterFree else none

-- ## The query's result (R11, R120, R149, R155)

/-- The global id of a local id (R11). -/
def State.globalId (s : State) (n id : Nat) : Nat := s.node * 2 ^ 47 + n * 2 ^ 32 + id

/-- Position of an output entry that carries a stage 1 key (R155). -/
abbrev approxPos : Nat := 0xFFFFFFFE

/-- The summary of the last cut with the search operator's fields (R140). -/
def Query.fill (q : Query) (r : Summary) : Summary :=
  { r with visrej := q.visrej, filtrej := q.filtrej, finalsw := q.finalsw,
           flags := r.flags + (if q.hoplimit then 16 else 0) + (if q.widened then 32 else 0) }

/-- A query ends with a status and no result. DEDUCED: log entry 81. -/
def State.endQuery (s : State) (c : Cmd) (status : Nat) : State :=
  ({ s with queries := mapErase s.queries (cmdKey c.ring c.seq) }).refuse c status

/-- A query ends with its result (R120, R155, R461). DEDUCED: log entry 81. -/
def State.finishQuery (s : State) (c : Cmd) (q : Query) (r : Selected) : State :=
  let a := c.searchArgs
  let approx := r.kept.any fun e => e.pos == approxPos
  let st := if approx then stAPPROXKEY else if r.sum.valid < a.k then (if 0 < q.filtrej then stFILTERSHORT else stSHORT) else stOK
  let s := if approx then s.count SRC_RRAPPROX_COUNT else s
  let out := (q.fill r.sum).bytes ++ r.entries 5 ++ (if a.stats then bytesAt q.stats 0 64 else [])
  let c := { c with ticket := q.ticket }
  ({ s with queries := mapErase s.queries (cmdKey c.ring c.seq) }).finish c st out r.sum.valid

-- ## Stages 1 and 2 (R149 to R155)

/-- The INT8 copy or the auxiliary record of an id lies in a poisoned unit. -/
def State.copyBad (s : State) (n : Nat) (x : Index) (id : Nat) : Bool :=
  !(s.poisonIn (copyArea n) (id * x.dim) x.dim).isEmpty || !(s.poisonIn (copyArea n) (x.capacity * x.dim + 8 * id) 8).isEmpty

/-- The stage 1 key of an id. -/
def Index.keyOne (x : Index) (metric : Nat) (q : Copy) (id : Nat) : Nat :=
  stageOneKey metric q (mapGetD x.copies id { codes := [], sx := 0, nx := 0 })

/-- Stage 1 of a query that has been cut: the keys from the stored copies, and the cut to EXACT, or to K under RRMODE 1. -/
def State.stageOne (s : State) (c : Cmd) (q : Query) (x : Index) : State :=
  let a := c.searchArgs
  if q.row.any fun e => s.copyBad a.index x (e.id % 2 ^ 32) then s.endQuery c stMEDIA
  else
    let qc := copyOf (vecFmt x.vecfmt) q.vec
    let row := q.row.map fun (e : SelEntry) => { e with key := x.keyOne a.metric qc (e.id % 2 ^ 32) }
    let r := topk 5 (a.metric != 1) true (if a.rrmode = 1 then a.k else a.exact) SumSet.none row
    let s := (s.count SRC_RR1_COUNT row.length).countSel r r.sum.conflicts r.sum.invalid
    if a.rrmode = 1 then s.finishQuery c q r
    else { s with queries := mapSet s.queries (cmdKey c.ring c.seq) { q with row := r.kept, summary := r.sum.bytes, staged1 := true } }

/-- The stage 2 entry of a candidate, or the status that ends the query; and whether its vector was read. -/
def State.stageTwoEntry (s : State) (a : SearchArgs) (q : Query) (x : Index) (e : SelEntry) : Except Nat (SelEntry × Bool) :=
  let id := e.id % 2 ^ 32
  match s.vectorStatus x.store id with
  | none => .ok ({ e with key := stageTwoKey a.metric (widen x.vecfmt q.vec) (widen x.vecfmt (s.fullVector x.store id)) }, true)
  | some st =>
    if st = stMEDIA ∧ a.fallback then
      if a.rrmode = 2 then
        if s.copyBad a.index x id then .error stMEDIA
        else .ok ({ e with key := x.keyOne a.metric (copyOf (vecFmt x.vecfmt) q.vec) id, pos := approxPos }, false)
      else .ok ({ e with pos := approxPos }, false)
    else .error st

/-- The stage 2 row, in order. DESIGN CHOICE: log entry 77. -/
def State.stageTwoRow (s : State) (a : SearchArgs) (q : Query) (x : Index) : List SelEntry → Except Nat (List (SelEntry × Bool))
  | [] => .ok []
  | e :: es =>
    match s.stageTwoEntry a q x e with
    | .error st => .error st
    | .ok r =>
      match State.stageTwoRow s a q x es with
      | .error st => .error st
      | .ok rs => .ok (r :: rs)

/-- Stage 2 of a query: the exact keys, and the cut to K. DEDUCED: log entry 81. -/
def State.stageTwo (s : State) (c : Cmd) (q : Query) (x : Index) : State :=
  let a := c.searchArgs
  match s.stageTwoRow a q x q.row with
  | .error st => s.endQuery c st
  | .ok rows =>
    let r := topk 5 (a.metric != 1) true a.k SumSet.none (rows.map Prod.fst)
    let own := if a.rrmode = 2 then rows.countP fun e => !e.2 else 0
    let s := (s.count SRC_RR2_COUNT (rows.countP fun e => e.2)).count SRC_RR1_COUNT own
    (s.countSel r r.sum.conflicts r.sum.invalid).finishQuery c q r

/-- A query between its stages, with its command and its index. -/
def State.query (s : State) (r seq : Nat) : Option (Cmd × Query × Index) :=
  match s.running r seq 0x0010, mapGet s.queries (cmdKey r seq) with
  | some c, some q => (s.index q.index).map fun x => (c, q, x)
  | _, _ => none

/-- RERANK_STAGE1. DESIGN CHOICE: log entry 80. -/
def State.rerankStage1 (s : State) (r seq : Nat) : State :=
  match s.query r seq with
  | some (c, q, x) => if q.staged1 || c.searchArgs.rrmode == 2 then s else s.stageOne c q x
  | none => s

/-- RERANK_STAGE2. DESIGN CHOICE: log entries 77, 80. -/
def State.rerankStage2 (s : State) (r seq : Nat) : State :=
  match s.query r seq with
  | some (c, q, x) => if q.staged1 || c.searchArgs.rrmode == 2 then s.stageTwo c q x else s
  | none => s

-- ## Walk, sweep and cut (R69, R105, R149)

/-- Entries of the first cut's row. -/
def State.hitRow (s : State) (n : Nat) (hits : List (Nat × Nat)) : List SelEntry := hits.map fun h => ⟨h.1, 0, s.globalId n h.2⟩

/-- A query's walk met a corrupt slot (R51). -/
def State.corruptSlot (s : State) (shunter n : Nat) (x : Index) (b : Nat × Nat) : State :=
  (s.logCorrupt shunter n b.1 b.2 x.slice).count SRC_CORRUPT_COUNT

/-- Walk, sweep and first cut of an admitted query on a Shunter and a Selector. -/
def State.cutQuery (s : State) (c : Cmd) (x : Index) (ticket shunter selector : Nat) (bead sel : CheckEvent) : State :=
  let a := c.searchArgs
  let n := a.index
  let vec := vecOf x.vecfmt x.dim (s.payload c)
  let sk := sketchOf x.proj x.bits x.dim (int8Codes (vecFmt x.vecfmt) vec).1
  let sw := x.sweep x.imgver ticket a.filter sk
  let w := Walk.start n x.imgver ticket a.filter sk a.sw a.swmax a.hopmax a.batch (x.entrySet a.entry) a.k a.widening shunter (s.badRecords n x)
  let (w, corrupt) := x.runWalk sw.hits w.fuel w
  let s := s.beadCheck shunter x.slice bead
  if bead == .second then s.endQuery c stMISMATCH
  else match corrupt with
    | some b => (s.corruptSlot shunter n x b).endQuery c stINDEXCORRUPT
    | none =>
      if w.media then s.endQuery c stMEDIA
      else
        let s := ((s.countWalk w).countHop w).selCheck selector x.slice sel
        if sel == .second then s.endQuery c stMISMATCH
        else
          let r := topk 0 false true a.rerank SumSet.none (s.hitRow n (w.hits ++ sw.hits))
          let q : Query :=
            { index := n, ticket := ticket, row := r.kept, summary := r.sum.bytes, stats := w.stats, vec := vec, staged1 := false,
              visrej := w.visrej + sw.visrej, filtrej := w.filtrej + sw.filtrej, finalsw := w.sw, hoplimit := w.hoplimit,
              widened := decide (1 < w.passes) }
          let s := s.countSel r r.sum.conflicts r.sum.invalid
          { s with queries := mapSet s.queries (cmdKey c.ring c.seq) q }

/-- The checks of R461 in order; none admits the query. -/
def State.searchStatus (s : State) (c : Cmd) : Option Nat :=
  let a := c.searchArgs
  if c.searchReserved then some stLIMIT
  else match s.openIndex c.slice a.index with
    | none => some stNOINDEX
    | some x =>
      let vec := vecOf x.vecfmt x.dim (s.payload c)
      firstStatus [(a.bad x.entries.length (bytesAt c.entry 64 16), stLIMIT),
        (c.paylen != x.dim * vecElem x.vecfmt || vecNan x.vecfmt vec ||
          (a.metric == 2 && vec.all fun e => (decodeFloat (vecFmt x.vecfmt) e).isZero), stLIMIT),
        (a.given.elim false fun t => decide (t < s.rdmin a.index x) || decide (x.counter < t), stTICKETRANGE),
        (decide (x.pool * 2 ^ 20 < scratchBytes (x.entrySet a.entry).length a.hopmax x.degree) || decide (c.room < a.outBytes), stBUFFERSHORT)]

/-- A command waits for memory or a context that other work uses: it is counted once (R355). DESIGN CHOICE: log entry 80. -/
def State.waitBuffer (s : State) (c : Cmd) : State :=
  if c.step = 0 then (s.count MEM_BUFWAIT_COUNT).setCmd { c with step := 1 } else s

/-- The stages that follow the cut, as far as `upto`. DESIGN CHOICE: log entry 80. -/
def State.searchOn (s : State) (r seq : Nat) (upto : SearchStop) : State :=
  match upto with
  | .cut => s
  | .stage1 => s.rerankStage1 r seq
  | .result => (s.rerankStage1 r seq).rerankStage2 r seq

/-- SEARCH: the checks, the ticket, walk, sweep and cut, and the re-rank stages up to `upto`. The query waits while no walk context or
too little of the scratch pool is free. DESIGN CHOICE: log entry 80. -/
def State.search (s : State) (r seq : Nat) (upto : SearchStop) (bead sel : CheckEvent) : State :=
  match s.running r seq 0x0010 with
  | none => s
  | some c =>
    if (mapGet s.queries (cmdKey r seq)).isSome then s.searchOn r seq upto
    else match s.searchStatus c, s.index c.searchArgs.index with
      | some st, _ => (if st = stBUFFERSHORT then s.count MEM_BUFSHORT_COUNT else s).refuse c st
      | none, some x =>
        let a := c.searchArgs
        let need := scratchBytes (x.entrySet a.entry).length a.hopmax x.degree
        match s.walkPlace a.index x need, (s.sliceSelectors c.slice).head? with
        | some sh, some se => (s.cutQuery c x (a.given.getD x.counter) sh se bead sel).searchOn r seq upto
        | _, _ => if s.scratchUsed a.index x.degree + need ≤ x.pool * 2 ^ 20 then s else s.waitBuffer c
      | none, none => s

end Sys2Proof.Machine
end

