-- ==== Sys2Proof/Machine/Engines.lean ====
section
/-! DEFINITION. The engine calls that frames issue (R279 to R283) on the Shunters and Selectors: walks (R69 to R80), sweeps (R105 to R108),
SEL.TOPK and SEL.MERGE (R135 to R146). -/

namespace Sys2Proof.Machine

-- ## Calls and their completions (R279, R280)

/-- A call that has not completed, of engine instruction `fn`, with the frame that issued it and the slice of its run. -/
def State.openCall (s : State) (id fn : Nat) : Option (Call × Frame × Nat) :=
  match mapGet s.calls id with
  | some c =>
    if c.fn = fn ∧ !c.done then
      match mapGet s.frames c.frame, s.run c.run with
      | some x, some r => if x.run = c.run then some (c, x, r.slice) else none
      | _, _ => none
    else none
  | none => none

/-- The state with a call replaced. -/
def State.setCall (s : State) (id : Nat) (c : Call) : State := { s with calls := mapSet s.calls id c }

/-- The completion record of a call (Table 9-12). -/
def Call.completion (c : Call) (status count : Nat) : StreamRec :=
  { completion := true, bytes := leBytes 2 status ++ bytesAt c.bytes 0 1 ++ [0] ++ leBytes 4 count ++ leBytes 8 c.desc }

/-- A call on a COMPLETION queue completes. -/
def State.completeCall (s : State) (id : Nat) (c : Call) (status count : Nat) : State :=
  s.setCall id { c with done := true, status := status, count := count }

/-- A producer posts what it holds as far as its STREAM queue has room (R279); it completes with its last record.
DEDUCED: log entry 83. -/
def State.postOut (s : State) (id : Nat) : State :=
  match mapGet s.calls id with
  | none => s
  | some c =>
    if c.done || c.out.isEmpty then s
    else match (mapGet s.frames c.frame).bind fun x => mapGet x.queues c.outq with
      | none => s
      | some u =>
        let n := u.depth - u.recs.length
        let rest := c.out.drop n
        let s := s.modFrame c.frame fun y => { y with queues := mapSet y.queues c.outq { u with recs := u.recs ++ c.out.take n } }
        s.setCall id { c with out := rest, done := rest.isEmpty }

/-- A producer's entries and its completion wait to be posted. -/
def State.produce (s : State) (id : Nat) (c : Call) (status : Nat) (recs : List StreamRec) : State :=
  (s.setCall id { c with status := status, out := recs ++ [c.completion status 0] }).postOut id

/-- What a read that an engine makes meets: NO_ACCESS out of range, the status of the medium (R262, R354). DEDUCED: log entry 82. -/
def State.engineStop (s : State) (x : Frame) (addr n : Nat) : Option Nat :=
  match s.resolve x addr n false with
  | none => some stNOACCESS
  | some (.alloc id off) => s.readStatus id off n
  | some (.result _) => none

/-- What a store that an engine makes meets: an allocation that is absent, a buffer too short (R262, R355), a partial store to a poisoned
unit. DEDUCED: log entry 82. -/
def State.outStop (s : State) (x : Frame) (addr n : Nat) : Option Nat :=
  match s.resolve x addr n true with
  | none => some (if (s.resolve x addr 1 true).isSome then stBUFFERSHORT else stNOACCESS)
  | some (.alloc id off) => if s.partPoison id off n then some stMEDIA else none
  | some (.result _) => none

/-- A BUFFER_SHORT refusal is counted (R355). -/
def State.countShort (s : State) (status : Nat) : State := if status = stBUFFERSHORT then s.count MEM_BUFSHORT_COUNT else s

/-- Two ranges of tier-neutral addresses share a byte. -/
def rangesMeet (a : Nat) (n : Nat) (b : Nat) (m : Nat) : Bool := decide (a < b + m) && decide (b < a + n)

/-- The bytes of a descriptor from `lo` to `hi` are 0. -/
def Call.zero (c : Call) (lo hi : Nat) : Bool := allZero (bytesAt c.bytes lo (hi + 1 - lo))

/-- A field of a descriptor. -/
def Call.at_ (c : Call) (off n : Nat) : Nat := leAt c.bytes off n

/-- The index that a walk or sweep of a slice may name: open, of its own slice, not closing (R79, R599). DEDUCED: log entry 71. -/
def State.walkIndex (s : State) (sl n : Nat) : Option Index := (s.index n).filter fun x => x.slice == sl && !s.closing sl n

-- ## SHN.WALK (R77 to R80)

/-- Checks 1 and 2 of R79. DEDUCED: log entry 82. -/
def Call.walkReserved (c : Call) : Bool :=
  c.at_ 0 1 != 1 || decide (32 ≤ c.at_ 1 1) || decide (2 ^ 15 ≤ c.at_ 2 2) || !c.zero 11 11 || !c.zero 22 23 || !c.zero 28 31 ||
  decide (8 ≤ c.at_ 56 1) || !c.zero 57 63 || decide (c.at_ 32 8 % 64 ≠ 0) || (bitOf (c.at_ 1 1) 4 && decide (c.at_ 48 8 % 8 ≠ 0))

/-- The filter of a walk or sweep descriptor, when FLAGS[1] is set. -/
def State.callFilter (s : State) (c : Call) (x : Frame) : Option Bytes :=
  if bitOf (c.at_ 1 1) 1 then some (s.readAddr x (c.at_ 40 8) 16) else none

/-- A filter that R118 refuses. -/
def State.callFilterBad (s : State) (c : Call) (x : Frame) : Bool :=
  bitOf (c.at_ 1 1) 1 && (decide (c.at_ 40 8 % 16 ≠ 0) || ((s.resolve x (c.at_ 40 8) 16 false).isSome && filterBad (s.readAddr x (c.at_ 40 8) 16)))

/-- The given ticket of a walk or sweep lies outside the range of R88. -/
def State.ticketBad (s : State) (n : Nat) (x : Index) (c : Call) : Bool :=
  bitOf (c.at_ 1 1) 2 && (decide (c.at_ 16 6 < s.rdmin n x) || decide (x.counter < c.at_ 16 6))

/-- The given version of a walk or sweep is not readable. -/
def Index.versionBad (x : Index) (c : Call) : Bool := bitOf (c.at_ 1 1) 3 && !x.readable (c.at_ 24 4)

/-- The reads and the statistics store of a walk or sweep descriptor, out of range or unreadable. -/
def State.walkReads (s : State) (c : Call) (x : Frame) (sketch stats : Nat) : Option Nat :=
  s.engineStop x (c.at_ 32 8) sketch <|> (if bitOf (c.at_ 1 1) 1 then s.engineStop x (c.at_ 40 8) 16 else none) <|>
  (if bitOf (c.at_ 1 1) 4 then s.outStop x (c.at_ 48 8) stats else none)

/-- The checks of R79 in order; then the reads. DEDUCED: log entry 82. -/
def State.walkStatus (s : State) (c : Call) (x : Frame) (ix : Index) : Option Nat :=
  let n := c.at_ 2 2
  let entries := ix.entrySet (c.at_ 12 2)
  firstStatus [(walkParamsBad (c.at_ 4 2) (c.at_ 6 2) (c.at_ 8 2) (c.at_ 10 1) (c.at_ 12 2) (c.at_ 14 2) ix.entries.length (bitOf (c.at_ 1 1) 0) ||
      s.callFilterBad c x || (ix.key && bitOf (c.at_ 1 1) 1), stLIMIT), (s.ticketBad n ix c, stTICKETRANGE), (ix.versionBad c, stIMAGEGONE),
      (decide (ix.pool * 2 ^ 20 < scratchBytes entries.length (c.at_ 8 2) ix.degree), stBUFFERSHORT)] <|>
  s.walkReads c x (32 * 2 ^ ix.skw) 40

/-- The walk of a descriptor that has passed its checks. -/
def State.walkOf (s : State) (c : Call) (x : Frame) (ix : Index) (shunter : Nat) : Walk :=
  let n := c.at_ 2 2
  let flags := c.at_ 1 1
  Walk.start n (if bitOf flags 3 then c.at_ 24 4 else ix.imgver) (if bitOf flags 2 then c.at_ 16 6 else ix.counter)
    ((s.callFilter c x).map filterOf) (leNat (s.readAddr x (c.at_ 32 8) (32 * 2 ^ ix.skw))) (c.at_ 4 2) (c.at_ 6 2) (c.at_ 8 2) (c.at_ 10 1)
    (ix.entrySet (c.at_ 12 2)) (c.at_ 14 2) (bitOf flags 0) shunter (s.badRecords n ix)

/-- A call that waits for memory that other work uses is counted once (R355). -/
def State.waitCall (s : State) (id : Nat) (c : Call) : State :=
  if c.waited then s else (s.count MEM_BUFWAIT_COUNT).setCall id { c with waited := true }

/-- WALK: a Shunter admits a walk: the checks, then the ticket, the pin and the context; it waits while no context of the Shunter or too
little scratch is free (R67, R68). -/
def State.walk (s : State) (shunter id : Nat) : State :=
  match s.openCall id 0 with
  | none => s
  | some (c, x, sl) =>
    if c.walk.isSome || !c.out.isEmpty || !(s.sliceShunters sl).contains shunter then s
    else if c.walkReserved then s.produce id c stLIMIT []
    else match s.walkIndex sl (c.at_ 2 2) with
      | none => s.produce id c stNOINDEX []
      | some ix =>
        match s.walkStatus c x ix with
        | some st => (s.countShort st).produce id c st []
        | none =>
          let w := s.walkOf c x ix shunter
          let need := scratchBytes w.entry.length w.hopmax ix.degree
          if ix.pool * 2 ^ 20 < s.scratchUsed w.index ix.degree + need then s.waitCall id c
          else if s.shunterFree shunter then s.setCall id { c with walk := some w }
          else s

/-- Records of a result stream. -/
def State.streamRecs (s : State) (n : Nat) (hits : List (Nat × Nat)) : List StreamRec :=
  (s.hitRow n hits).map fun e => { completion := false, bytes := e.bytes 0 }

/-- Bytes that an engine writes. DESIGN CHOICE: log entry 61. -/
def State.engineStore (s : State) (x : Frame) (addr : Nat) (bs : Bytes) : State := s.storeRaw x addr bs

/-- A walk has ended: its statistics, its counts, its stream and completion (R74, R80). DEDUCED: log entry 83. -/
def State.endWalk (s : State) (id : Nat) (c : Call) (x : Frame) (w : Walk) : State :=
  let s := (s.countWalk w).countHop w
  let s := if bitOf (c.at_ 1 1) 4 then s.engineStore x (c.at_ 48 8) w.stats else s
  s.produce id { c with walk := some w } stOK (s.streamRecs w.index w.hits)

/-- The sweep joined to a walk: whether it is still to run, and its hits. DEDUCED: log entry 83. -/
def State.joinedSweep (s : State) (id : Nat) : Bool × List (Nat × Nat) :=
  match s.calls.find? fun o => o.2.fn == 1 && o.2.prev == id && bitOf (o.2.at_ 1 1) 5 with
  | some (_, o) => (o.swept.isNone && o.out.isEmpty && !o.done, o.swept.elim [] fun r => r.hits)
  | none => (false, [])

/-- A walk from round 0 on another Shunter, with the same pinned version and ticket (R76). -/
def Walk.again (w : Walk) (sw shunter : Nat) : Walk :=
  Walk.start w.index w.pin w.ticket w.filter w.q sw w.swmax w.hopmax w.batch w.entry w.k w.autowiden shunter w.bad

/-- A Shunter of the slice may take the rounds of a walk: its own, or, once that is retired, any with a free context (R76). -/
def State.takesWalk (s : State) (sl shunter : Nat) (w : Walk) : Bool :=
  if s.retired (unitId 2 w.shunter) then (s.sliceShunters sl).contains shunter && s.shunterFree shunter else w.shunter == shunter

/-- WALK_ROUND: one round of a walk, or the end of a pass; then what its stream has room for. A pass that may widen ends when the joined
sweep has run. -/
def State.walkRound (s : State) (shunter id : Nat) (bead : CheckEvent) : State :=
  match s.openCall id 0 with
  | none => s
  | some (c, x, sl) =>
    match c.walk with
    | none => s.postOut id
    | some w =>
      if !c.out.isEmpty then s.postOut id
      else if !s.takesWalk sl shunter w then s
      else match s.index w.index with
        | none => s
        | some ix =>
          let w := if w.shunter = shunter then w else w.again (c.at_ 4 2) shunter
          let s := s.beadCheck shunter sl bead
          let (waits, hits) := s.joinedSweep id
          if bead == .second then s.produce id { c with walk := none } stMISMATCH []
          else if w.autowiden && waits && w.rounds != 0 && w.chosen.isEmpty then s
          else match ix.walkRound hits w with
            | (_, some b) => (s.corruptSlot shunter w.index ix b).produce id { c with walk := none } stINDEXCORRUPT []
            | (w, none) =>
              if w.media then s.produce id { c with walk := none } stMEDIA []
              else if w.ended then s.endWalk id c x w
              else s.setCall id { c with walk := some w }

-- ## SHN.SWEEP (R106 to R108)

/-- Checks 1 and 2 of R108. -/
def Call.sweepReserved (c : Call) : Bool :=
  let f := c.at_ 1 1
  c.at_ 0 1 != 2 || bitOf f 0 || decide (64 ≤ f) || decide (2 ^ 15 ≤ c.at_ 2 2) || !c.zero 4 15 || !c.zero 22 23 || !c.zero 28 31 ||
  decide (8 ≤ c.at_ 56 1) || !c.zero 57 63 || decide (c.at_ 32 8 % 64 ≠ 0) || (bitOf f 4 && decide (c.at_ 48 8 % 8 ≠ 0))

/-- What a sweep takes for its version and ticket: its own, or under JOIN those of the walk before it; none while that walk waits, and the
walk's status where it was refused. -/
inductive SweepAt where
  | at_ (version ticket : Nat)
  | waits
  | refused (status : Nat)
  deriving DecidableEq, Repr

/-- The version and ticket of a sweep whose checks have passed. -/
def State.sweepAt (s : State) (c : Call) (ix : Index) : SweepAt :=
  let f := c.at_ 1 1
  if bitOf f 5 then
    match mapGet s.calls c.prev with
    | some p =>
      match p.walk with
      | some w => .at_ w.pin w.ticket
      | none => if p.done || !p.out.isEmpty then .refused p.status else .waits
    | none => .refused stLIMIT
  else .at_ (if bitOf f 3 then c.at_ 24 4 else ix.imgver) (if bitOf f 2 then c.at_ 16 6 else ix.counter)

/-- A JOIN whose preceding descriptor is no walk of the same index (R107). -/
def State.joinBad (s : State) (c : Call) : Bool :=
  bitOf (c.at_ 1 1) 5 && (mapGet s.calls c.prev).elim true fun p => p.fn != 0 || p.at_ 2 2 != c.at_ 2 2

/-- One sweep call on a Shunter. -/
def State.sweepOne (s : State) (shunter id : Nat) : State :=
  match s.openCall id 1 with
  | none => s
  | some (c, x, sl) =>
    if !c.out.isEmpty then s.postOut id
    else if !(s.sliceShunters sl).contains shunter then s
    else if c.sweepReserved then s.produce id c stLIMIT []
    else match s.walkIndex sl (c.at_ 2 2) with
      | none => s.produce id c stNOINDEX []
      | some ix =>
        let own := !bitOf (c.at_ 1 1) 5
        let n := c.at_ 2 2
        match firstStatus [(s.joinBad c || s.callFilterBad c x || (ix.key && bitOf (c.at_ 1 1) 1), stLIMIT), (own && s.ticketBad n ix c, stTICKETRANGE),
            (own && ix.versionBad c, stIMAGEGONE)] <|> s.walkReads c x (32 * 2 ^ ix.skw) 16 with
        | some st => s.produce id c st []
        | none =>
          match s.sweepAt c ix with
          | .waits => s
          | .refused st => s.produce id c st []
          | .at_ v t =>
            let r := ix.sweep v t ((s.callFilter c x).map filterOf) (leNat (s.readAddr x (c.at_ 32 8) (32 * 2 ^ ix.skw)))
            let s := if bitOf (c.at_ 1 1) 4 then s.engineStore x (c.at_ 48 8) r.stats else s
            s.produce id { c with swept := some r } stOK (s.streamRecs n r.hits)

/-- SWEEP: a Shunter sweeps for up to 64 calls (R106). -/
def State.sweep (s : State) (shunter : Nat) (ids : List Nat) : State := (ids.take 64).foldl (fun (s : State) id => s.sweepOne shunter id) s

-- ## SEL.TOPK (R135, R136, R138, R139)

/-- The sums of a Selector descriptor. -/
def Call.sums (c : Call) : SumSet :=
  let f := c.at_ 1 1
  { sums := bitOf f 3, sumexp := bitOf f 4, scale := c.at_ 40 4, ref := c.at_ 44 4 }

/-- Checks 1 to 3 of R138 for SEL.TOPK. DEDUCED: log entry 82. -/
def Call.topkBad (c : Call) : Bool :=
  let f := c.at_ 1 1
  let stream := bitOf f 5
  let kf := c.at_ 2 1
  c.at_ 0 1 != 0x10 || decide (64 ≤ f) || decide (16 ≤ kf) || !c.zero 6 7 || decide (8 ≤ c.at_ 48 1) || decide (8 ≤ c.at_ 49 1) ||
  !c.zero 50 63 || decide (5 < kf) || decide (c.at_ 4 2 = 0) || decide (4096 < c.at_ 4 2) ||
  (if stream then decide (c.at_ 3 1 = 0) || decide (2 < c.at_ 3 1) || bitOf f 1
   else decide (c.at_ 3 1 ≠ 0) || decide (c.at_ 8 4 = 0) || decide (2 ^ 24 < c.at_ 8 4) || decide (2 ^ 32 < c.at_ 12 4 + c.at_ 8 4) ||
     decide (c.at_ 16 8 % 16 ≠ 0)) ||
  decide (c.at_ 24 8 % 64 ≠ 0) || decide (c.at_ 32 8 % 64 ≠ 0) || c.sums.bad

/-- Bytes of the input row in memory. -/
def Call.rowBytes (c : Call) : Nat := c.at_ 8 4 * if bitOf (c.at_ 1 1) 1 then keyBytes (c.at_ 2 1) else 16

/-- Check 4 of R138 for SEL.TOPK. -/
def Call.topkOverlap (c : Call) : Bool :=
  !bitOf (c.at_ 1 1) 5 &&
  (rangesMeet (c.at_ 24 8) (16 * c.at_ 4 2) (c.at_ 16 8) c.rowBytes || rangesMeet (c.at_ 32 8) 128 (c.at_ 16 8) c.rowBytes)

/-- The row that SEL.TOPK reads from memory (R125, R129). -/
def State.topkRow (s : State) (c : Call) (x : Frame) : List SelEntry :=
  let b := s.readAddr x (c.at_ 16 8) c.rowBytes
  let kf := c.at_ 2 1
  let base := c.at_ 12 4
  (List.range (c.at_ 8 4)).map fun i =>
    if bitOf (c.at_ 1 1) 1 then ⟨leAt b (i * keyBytes kf) (keyBytes kf), base + i, base + i⟩
    else { SelEntry.ofBytes kf (bytesAt b (16 * i) 16) with pos := base + i }

/-- What the result stores of a Selector call meet. -/
def State.selStop (s : State) (c : Call) (x : Frame) : Option Nat := s.outStop x (c.at_ 24 8) (16 * c.at_ 4 2) <|> s.outStop x (c.at_ 32 8) 128

/-- A Selector call ends with its result: OUT, the summary, the completion (R131, R139). -/
def State.selDone (s : State) (id : Nat) (c : Call) (x : Frame) (r : Selected) (conflicts invalid : Nat) : State :=
  let s := (s.engineStore x (c.at_ 24 8) (r.entries (c.at_ 2 1))).engineStore x (c.at_ 32 8) r.sum.bytes
  (s.countSel r conflicts invalid).completeCall id c (if r.sum.valid < r.sum.k then stSHORT else stOK) r.sum.valid

/-- The selection of a SEL.TOPK call over its row. DEDUCED: log entry 83. -/
def State.topkRun (s : State) (id : Nat) (c : Call) (x : Frame) (selector sl : Nat) (sel : CheckEvent) (row : List SelEntry) : State :=
  let s := s.selCheck selector sl sel
  if sel == .second then s.completeCall id c stMISMATCH 0
  else
    let f := c.at_ 1 1
    let r := topk (c.at_ 2 1) (bitOf f 0) (bitOf f 2) (c.at_ 4 2) c.sums row
    s.selDone id c x r r.sum.conflicts r.sum.invalid

/-- The records of a stream up to and with its `n`-th completion, and what follows. -/
def takeStream : Nat → List StreamRec → List StreamRec × List StreamRec
  | 0, l => ([], l)
  | _ + 1, [] => ([], [])
  | n + 1, r :: l =>
    let (a, b) := takeStream (if r.completion then n else n + 1) l
    (r :: a, b)

/-- The oldest SEL.TOPK call of a frame that still takes from a STREAM queue. -/
def State.firstTaker (s : State) (frame q : Nat) : Option Nat :=
  (s.calls.find? fun o => o.2.frame == frame && o.2.fn == 2 && !o.2.done && bitOf (o.2.at_ 1 1) 5 && o.2.at_ 48 1 % 8 == q).map Prod.fst

/-- SEL.TOPK under STREAM takes what its queue holds; it runs once its producers have completed (R136). DEDUCED: log entry 83. -/
def State.topkStream (s : State) (id : Nat) (c : Call) (x : Frame) (selector sl : Nat) (sel : CheckEvent) : State :=
  let q := c.at_ 48 1 % 8
  if s.firstTaker c.frame q != some id then s
  else match mapGet x.queues q with
    | none => s
    | some u =>
      let have_ := c.taken.countP fun r => r.completion
      let (got, rest) := takeStream (c.at_ 3 1 - have_) u.recs
      let s := s.modFrame c.frame fun y => { y with queues := mapSet y.queues q { u with recs := rest } }
      let c := { c with taken := c.taken ++ got }
      let s := s.setCall id c
      let done := c.taken.filter fun r => r.completion
      let entries := c.taken.filter fun r => !r.completion
      if 2 ^ 24 < entries.length then s.completeCall id c stLIMIT 0
      else if done.length < c.at_ 3 1 then s
      else match done.find? fun r => leAt r.bytes 0 2 != stOK with
        | some r => s.completeCall id c (leAt r.bytes 0 2) 0
        | none => s.topkRun id c x selector sl sel (entries.map fun r => SelEntry.ofBytes (c.at_ 2 1) r.bytes)

/-- TOPK_CALL: a SEL.TOPK call on a Selector of its slice. -/
def State.topkCall (s : State) (selector id : Nat) (sel : CheckEvent) : State :=
  match s.openCall id 2 with
  | none => s
  | some (c, x, sl) =>
    if !(s.sliceSelectors sl).contains selector then s
    else if c.topkBad || c.topkOverlap then s.completeCall id c stLIMIT 0
    else match s.selStop c x with
      | some st => (s.countShort st).completeCall id c st 0
      | none =>
        if bitOf (c.at_ 1 1) 5 then s.topkStream id c x selector sl sel
        else match s.engineStop x (c.at_ 16 8) c.rowBytes with
          | some st => s.completeCall id c st 0
          | none => s.topkRun id c x selector sl sel (s.topkRow c x)

-- ## SEL.MERGE (R137, R138, R142)

/-- Checks 1 to 3 of R138 for SEL.MERGE. DEDUCED: log entry 82. -/
def Call.mergeBad (c : Call) : Bool :=
  let f := c.at_ 1 1
  c.at_ 0 1 != 0x11 || bitOf f 1 || bitOf f 2 || decide (32 ≤ f) || decide (5 < c.at_ 2 1) || !c.zero 6 7 || !c.zero 16 23 || !c.zero 48 48 ||
  decide (8 ≤ c.at_ 49 1) || !c.zero 50 63 || decide (c.at_ 3 1 < 2) || decide (16 < c.at_ 3 1) || decide (c.at_ 4 2 = 0) ||
  decide (4096 < c.at_ 4 2) || decide (c.at_ 8 8 % 16 ≠ 0) || decide (c.at_ 24 8 % 64 ≠ 0) || decide (c.at_ 32 8 % 64 ≠ 0) || c.sums.bad

/-- The list table: addresses of entries and of summaries. -/
def State.mergeTable (s : State) (c : Call) (x : Frame) : List (Nat × Nat) :=
  let b := s.readAddr x (c.at_ 8 8) (16 * c.at_ 3 1)
  (List.range (c.at_ 3 1)).map fun i => (leAt b (16 * i) 8, leAt b (16 * i + 8) 8)

/-- The input lists with the addresses they stand at. -/
def State.mergeInputs (s : State) (c : Call) (x : Frame) : List (Nat × Nat × Selected) :=
  (s.mergeTable c x).map fun e =>
    let sum := Summary.ofBytes (s.readAddr x e.2 128)
    let b := s.readAddr x e.1 (16 * sum.k)
    (e.1, e.2, { kept := (List.range sum.valid).map fun i => SelEntry.ofBytes (c.at_ 2 1) (bytesAt b (16 * i) 16), sum := sum })

/-- Check 4 of R138 for SEL.MERGE. -/
def State.mergeOverlap (s : State) (c : Call) (x : Frame) : Bool :=
  let outs := [(c.at_ 24 8, 16 * c.at_ 4 2), (c.at_ 32 8, 128)]
  let ins := (c.at_ 8 8, 16 * c.at_ 3 1) :: (s.mergeInputs c x).flatMap fun e => [(e.1, 16 * e.2.2.sum.k), (e.2.1, 128)]
  outs.any fun o => ins.any fun i => rangesMeet o.1 o.2 i.1 i.2

/-- Checks 5 and 6 of R138 fail for an input list. -/
def Call.listBad (c : Call) (l : Selected) : Bool :=
  let f := c.at_ 1 1
  decide (l.sum.mode ≠ modeByte (c.at_ 2 1) (bitOf f 0) c.sums) || decide (l.sum.scale ≠ c.at_ 40 4) || decide (l.sum.ref ≠ c.at_ 44 4) ||
  (decide (l.sum.valid = l.sum.k) && decide (l.sum.k < c.at_ 4 2))

/-- What the reads of a SEL.MERGE call meet: the list table, the summaries, the entries. -/
def State.mergeStop (s : State) (c : Call) (x : Frame) : Option Nat :=
  match s.engineStop x (c.at_ 8 8) (16 * c.at_ 3 1) with
  | some st => some st
  | none =>
    ((s.mergeTable c x).findSome? fun e => s.engineStop x e.2 128) <|>
    (s.mergeInputs c x).findSome? fun e => s.engineStop x e.1 (16 * e.2.2.sum.k)

/-- MERGE_CALL: a SEL.MERGE call on a Selector of its slice. -/
def State.mergeCall (s : State) (selector id : Nat) (sel : CheckEvent) : State :=
  match s.openCall id 3 with
  | none => s
  | some (c, x, sl) =>
    if !(s.sliceSelectors sl).contains selector then s
    else if c.mergeBad then s.completeCall id c stLIMIT 0
    else match s.mergeStop c x with
      | some st => s.completeCall id c st 0
      | none =>
        let lists := (s.mergeInputs c x).map fun e => e.2.2
        if s.mergeOverlap c x || lists.any c.listBad then s.completeCall id c stLIMIT 0
        else match s.selStop c x with
          | some st => (s.countShort st).completeCall id c st 0
          | none =>
            let s := s.selCheck selector sl sel
            if sel == .second then s.completeCall id c stMISMATCH 0
            else
              let r := Machine.mergeLists (c.at_ 2 1) (bitOf (c.at_ 1 1) 0) (c.at_ 4 2) c.sums lists
              s.selDone id c x r (r.sum.conflicts - sumNat (lists.map fun l => l.sum.conflicts)) 0

end Sys2Proof.Machine
end

