-- ==== Sys2Proof/Machine/Tables.lean ====
section
/-! DEFINITION. Embedding tables (R157 to R176): opening and closing one, gathers, gradient contributions, APPLY, measurement intervals,
replication and migration. -/

namespace Sys2Proof.Machine

abbrev stNOTABLE : Nat := 0x010B
abbrev stTABLEEPOCH : Nat := 0x010C
abbrev stROWRANGE : Nat := 0x010D
abbrev stNONFINITEGRAD : Nat := 0x010E

-- ## Rows (R158, R159)

/-- The state with a table replaced. -/
def State.setTable (s : State) (n : Nat) (t : Table) : State := { s with tables := mapSet s.tables n t }

/-- RB. -/
def Table.rowSize (t : Table) : Nat := roundUp (2 * t.w) 64

/-- Moments per row. -/
def Table.moments (t : Table) : Nat := t.opt - 1

/-- Bytes of one moment. -/
def Table.momentSize (t : Table) : Nat := t.w + if t.statefmt = 0 then 2 * ceilDiv t.w 64 else 0

/-- Bytes of a row's state. -/
def Table.stateSize (t : Table) : Nat := roundUp (t.moments * t.momentSize) 64

/-- Master row format. -/
def Table.fmt (t : Table) : Fmt := if t.rfmt = 0 then .fp16 else .bf16

/-- Devices of the set. -/
def Table.ndev (t : Table) : Nat := t.devs.length

/-- Home shard of a row (R159). -/
def Table.home (t : Table) (row : Nat) : Nat := if t.shard = 0 then row / ceilDiv t.rows t.ndev else row % t.ndev

/-- Rows whose home is shard `h`. -/
def Table.homeRows (t : Table) (h : Nat) : Nat :=
  let span := ceilDiv t.rows t.ndev
  if t.shard = 0 then min span (t.rows - h * span) else ceilDiv (t.rows - h) t.ndev

/-- Value of a row. DESIGN CHOICE (log entry 85): a row that nothing has written is 0. -/
def Table.value (t : Table) (row : Nat) : Bytes := mapGetD t.values row (List.replicate t.rowSize 0)

/-- State of a row, 0 where nothing has written it. -/
def Table.state (t : Table) (row : Nat) : Bytes := mapGetD t.states row (List.replicate t.stateSize 0)

-- ## The directory (R160, R161)

/-- The entry that a request of an epoch uses. -/
def Table.entryAt (t : Table) (row epoch : Nat) : Option DirEntry :=
  ((t.dir.filter fun d => d.row == row && decide (d.em ≤ epoch) && d.ee.elim true fun e => decide (epoch < e)).foldl
    (fun (best : Option DirEntry) d => if best.elim true fun b => decide (b.em ≤ d.em) then some d else best) none)

/-- Where a row lives at an epoch: a shard, or none when it is replicated. -/
def Table.place (t : Table) (row epoch : Nat) : Option Nat := (t.entryAt row epoch).elim (some (t.home row)) fun d => d.place

/-- This device can read the row at an epoch. -/
def Table.hasRow (t : Table) (row epoch : Nat) : Bool := t.repl || (t.place row epoch).elim true fun p => p == t.mine

/-- The owner of a row: its place, and the home of a replicated one (DEDUCED, log entry 85). -/
def Table.owner (t : Table) (row epoch : Nat) : Nat := if t.repl then t.home row else (t.place row epoch).getD (t.home row)

/-- The directory with EE set on the entry in force. -/
def Table.endEntry (t : Table) (row ee : Nat) : Table :=
  match t.entryAt row (ee - 1) with
  | some d => { t with dir := t.dir.map fun e => if e = d then { e with ee := some ee } else e }
  | none => t

/-- The directory with a new entry. -/
def Table.addEntry (t : Table) (row : Nat) (place : Option Nat) (em : Nat) : Table := { t with dir := t.dir ++ [⟨row, place, em, none⟩] }

/-- An entry that no request of an epoch at or above `oldest` can use (R161): its EE, or the EM of the entry that superseded it, is
passed. -/
def Table.stale (t : Table) (oldest : Nat) (d : DirEntry) : Bool :=
  d.ee.elim false (fun e => decide (e ≤ oldest)) || t.dir.any fun o => o.row == d.row && decide (d.em < o.em) && decide (o.em ≤ oldest) && o.ee.isNone

-- ## Requests (R170)

/-- Requests for rows are counted: the total, and exact counts of the first 16,384 distinct rows of the interval. -/
def Table.request (t : Table) (row : Nat) : Table :=
  let c := if (mapGet t.counts row).isSome ∨ t.counts.length < 16384 then mapSet t.counts row (mapGetD t.counts row 0 + 1) else t.counts
  { t with total := t.total + 1, counts := c }

-- ## TABLE_OPEN and TABLE_CLOSE (R157, R464)

/-- The node ids of a payload. -/
def nodeList (b : Bytes) : List Nat := (List.range (b.length / 4)).map fun i => leAt b (4 * i) 4

/-- A device list that R157 or R237 takes: whole words, 1 to `most` distinct devices of the domain, this device among them.
DEDUCED: log entry 85. -/
def State.devsBad (s : State) (b : Bytes) (most : Nat) : Bool :=
  let l := nodeList b
  decide (b.length % 4 ≠ 0) || l.isEmpty || decide (most < l.length) || decide (l.eraseDups.length ≠ l.length) || !l.contains s.node ||
  l.any fun d => d != s.node && !s.fab.domain.contains d

/-- A finite FP32 value in [0, 1). -/
def unitInterval (c : Nat) : Bool := let v := unfp32 c; v.isFin && (v.isZero || !v.neg) && v.lt (Val.ofInt 1)

/-- The table that a TABLE_OPEN describes. -/
def Cmd.table (c : Cmd) (devs : List Nat) (mine cfg : Nat) : Table :=
  { slice := c.slice, rows := c.par 40 8, w := c.par 48 2, rfmt := c.par 50 1, shard := c.par 51 1, opt := c.par 52 1, statefmt := c.par 53 1,
    b1 := c.par 56 4, b2 := c.par 60 4, eps := c.par 64 4, repl := c.par 68 1 == 1, devs := devs, mine := mine, tepoch := 1, values := [],
    states := [], dir := [], grads := [], total := 0, counts := [], lastTotal := 0, overrun := 0, age := 0, cold := [], moves := [], toRepl := [],
    toHome := [], cfg := cfg, migrDone := 0, migrAbandoned := 0, dirFull := 0 }

/-- A parameter of Table 5-2 is outside its range. DEDUCED: log entry 85. -/
def Table.bad (t : Table) (n : Nat) : Bool :=
  decide (n = 65535) || decide (t.rows = 0) || decide (2 ^ 40 < t.rows) || decide (t.w < 8) || decide (4096 < t.w) || decide (t.w % 8 ≠ 0) ||
  decide (1 < t.rfmt) || decide (1 < t.shard) || decide (3 < t.opt) || decide (1 < t.statefmt) || !unitInterval t.b1 || !unitInterval t.b2 ||
  !(unfp32 t.eps).isFin || (unfp32 t.eps).isZero || (unfp32 t.eps).neg

/-- Charge a HOT structure where R340 places it; none when it does not fit. -/
def State.chargeHot (s : State) (h : Holder) (sl size : Nat) : Option State :=
  if size = 0 then some s
  else
    (s.placeFlags sl hotFlags size).map fun p =>
      if p.1 = 1 then s.charge h sl 1 (roundUp size (2 ^ 16))
      else (s.charge h sl 2 (2 ^ 21 * (ceilDiv size (2 ^ 21) - p.2.length))).charge h sl 3 (2 ^ 21 * p.2.length)

/-- TABLE_OPEN. DESIGN CHOICE: log entry 79. DEDUCED: log entry 85. -/
def State.tableOpen (s : State) (r seq : Nat) : State :=
  match s.running r seq 0x0020 with
  | none => s
  | some c =>
    let n := c.par 32 2
    let pay := s.payload c
    let devs := nodeList pay
    let t := c.table devs (devs.findIdx fun d => d == s.node) (s.reg .memTblcfg 0 0).toNat
    let bytes := t.rowSize + t.stateSize
    if !c.unusedZero [(32, 2), (40, 14), (56, 13)] || t.bad n || decide (1 < c.par 68 1) || s.devsBad pay 256 || (mapGet s.tables n).isSome ||
        (t.repl && decide (s.fld MEM_TBLCFG_REPLSMALL * 2 ^ 26 < t.rows * bytes)) then s.refuse c stLIMIT
    else
      let rows := if t.repl then t.rows else t.homeRows t.mine
      match (s.chargeHot (.table n) c.slice (rows * t.rowSize)).bind fun s => s.chargeHot (.table n) c.slice (rows * t.stateSize) with
      | none => (s.count MEM_BUFSHORT_COUNT).refuse c stBUFFERSHORT
      | some s => (s.setTable n t).finish c stOK

/-- TABLE_CLOSE. -/
def State.tableClose (s : State) (r seq : Nat) : State :=
  match s.running r seq 0x0021 with
  | none => s
  | some c =>
    let n := c.par 32 2
    if !c.unusedZero [(32, 2)] then s.refuse c stLIMIT
    else match (mapGet s.tables n).filter fun t => t.slice == c.slice with
      | none => s.refuse c stNOTABLE
      | some _ => ({ s.discharge (.table n) with tables := mapErase s.tables n }).finish c stOK

-- ## GATHER (R162, R163)

/-- The table of a slice. -/
def State.tableOf (s : State) (sl n : Nat) : Option Table := (mapGet s.tables n).filter fun t => t.slice == sl

/-- The first check of R163: TYPE, reserved fields, alignment and N. -/
def Call.gatherBad (c : Call) : Bool :=
  c.at_ 0 1 != 0x20 || decide (4 ≤ c.at_ 1 1) || !c.zero 12 15 || !c.zero 32 47 || decide (8 ≤ c.at_ 48 1) || !c.zero 49 63 ||
  decide (c.at_ 16 8 % 8 ≠ 0) || decide (c.at_ 24 8 % 64 ≠ 0) || decide (c.at_ 4 4 = 0) || decide (65536 < c.at_ 4 4)

/-- The row numbers of a GATHER or SCATADD descriptor. -/
def State.callRows (s : State) (c : Call) (x : Frame) : List Nat :=
  let b := s.readAddr x (c.at_ 16 8) (8 * c.at_ 4 4)
  (List.range (c.at_ 4 4)).map fun i => leAt b (8 * i) 8

/-- How the epoch of a request stands to a shard's. -/
inductive EpochTest where
  | serve | waits | stale
  deriving DecidableEq, Repr

/-- A given epoch against TEPOCH; a request without one takes TEPOCH (R163). -/
def Table.epochTest (t : Table) (e : Option Nat) : EpochTest :=
  match e with
  | none => .serve
  | some e => if e = t.tepoch then .serve else if e < t.tepoch then .stale else .waits

/-- An output row: as stored, or widened to FP32. -/
def Table.outRow (t : Table) (wide : Bool) (b : Bytes) : Bytes :=
  if wide then (List.range t.w).flatMap fun i => leBytes 4 (fp32 (decodeFloat t.fmt (leAt b (2 * i) 2))) else bytesAt b 0 t.rowSize

/-- The rows of a gather in order: those of this device, the others from the list of what their shards return; none where a row has not
come. -/
def Table.gatherRows (t : Table) : List Nat → List Bytes → Option (List Bytes)
  | [], _ => some []
  | r :: rs, remote =>
    if t.hasRow r t.tepoch then (Table.gatherRows t rs remote).map fun l => t.value r :: l
    else match remote with
      | b :: bs => (Table.gatherRows t rs bs).map fun l => b :: l
      | [] => none

/-- A gather of this device's own frames at a table that may serve it. -/
def State.gatherRun (s : State) (id : Nat) (c : Call) (x : Frame) (t : Table) (remote : List Bytes) : State :=
  let rows := s.callRows c x
  let wide := bitOf (c.at_ 1 1) 1
  let outLen := c.at_ 4 4 * if wide then 4 * t.w else t.rowSize
  match s.outStop x (c.at_ 24 8) outLen, t.gatherRows rows remote with
  | some st, _ => (s.countShort st).completeCall id c st 0
  | none, none => s
  | none, some l =>
    let own := rows.filter fun r => t.hasRow r t.tepoch
    let s := s.setTable (c.at_ 2 2) (own.foldl (fun (t : Table) r => t.request r) t)
    match l.find? fun b => b.length == 2 with
    | some b => s.completeCall id c (leAt b 0 2) 0
    | none => (s.engineStore x (c.at_ 24 8) (l.flatMap fun b => t.outRow wide b)).completeCall id c stOK rows.length

/-- A request refused with TABLE_EPOCH is counted (Table 5-9). -/
def State.countStale (s : State) : State := s.count MEM_TBLSTALE_COUNT

/-- GATHER_SERVE. DESIGN CHOICE: log entry 86. -/
def State.gatherServe (s : State) (req : GatherReq) : State :=
  match req with
  | .device n e rows =>
    match mapGet s.tables n with
    | some t =>
      match t.epochTest e with
      | .serve => s.setTable n (rows.foldl (fun (t : Table) r => t.request r) t)
      | .stale => s.countStale
      | .waits => s
    | none => s
  | .call id remote =>
    match s.openCall id 4 with
    | none => s
    | some (c, x, sl) =>
      if c.gatherBad then s.completeCall id c stLIMIT 0
      else match s.tableOf sl (c.at_ 2 2) with
        | none => s.completeCall id c stNOTABLE 0
        | some t =>
          match s.engineStop x (c.at_ 16 8) (8 * c.at_ 4 4) with
          | some st => s.completeCall id c st 0
          | none =>
            if (s.callRows c x).any fun r => decide (t.rows ≤ r) then s.completeCall id c stROWRANGE 0
            else match t.epochTest (if bitOf (c.at_ 1 1) 0 then some (c.at_ 8 4) else none) with
              | .serve => s.gatherRun id c x t remote
              | .stale => s.countStale.completeCall id c stTABLEEPOCH 0
              | .waits => s

-- ## SCATADD (R164, R165)

/-- TYPE and reserved fields of an accumulate descriptor, N and SCALE. -/
def Call.scatBad (c : Call) : Bool :=
  c.at_ 0 1 != 0x21 || decide (2 ≤ c.at_ 1 1) || !c.zero 32 39 || !c.zero 44 47 || decide (8 ≤ c.at_ 48 1) || !c.zero 49 63 ||
  decide (c.at_ 4 4 = 0) || decide (65536 < c.at_ 4 4) || decide (2 ^ 32 < c.at_ 12 4 + c.at_ 4 4) || !(unfp32 (c.at_ 40 4)).isFin

/-- The contributions of an accumulate call (R165). -/
def State.contributions (s : State) (c : Call) (x : Frame) (t : Table) : List Contribution :=
  let rows := s.callRows c x
  let stride := roundUp t.w 64
  let b := s.readAddr x (c.at_ 24 8) (c.at_ 4 4 * stride)
  (List.range rows.length).map fun i =>
    { epoch := t.tepoch, row := rows.getD i 0, src := s.node, pos := c.at_ 12 4 + i, scale := c.at_ 40 4,
      codes := (List.range t.w).map fun j => leAt b (i * stride + j) 1 }

/-- A shard holds a contribution to a row it owns. -/
def Table.hold (t : Table) (c : Contribution) : Table := { t.request c.row with grads := t.grads ++ [c] }

/-- An accumulate call whose checks have passed: it ends once every owner has answered. -/
def State.scatRun (s : State) (id : Nat) (c : Call) (x : Frame) (t : Table) (replies : List Nat) : State :=
  let cs := s.contributions c x t
  let others := ((cs.map fun k => t.owner k.row t.tepoch).filter fun o => o != t.mine).eraseDups
  if replies.length < others.length then s
  else
    let own := cs.filter fun k => t.owner k.row t.tepoch == t.mine
    let s := s.setTable (c.at_ 2 2) (own.foldl (fun (t : Table) k => t.hold k) t)
    match (replies.take others.length).find? fun st => st != stOK with
    | some st => s.completeCall id c st 0
    | none => s.completeCall id c stOK cs.length

/-- SCATADD_ACCUMULATE. DESIGN CHOICE: log entry 86. -/
def State.scataddAccumulate (s : State) (req : ScatReq) : State :=
  match req with
  | .device n e row src pos scale codes =>
    match mapGet s.tables n with
    | some t =>
      match t.epochTest e with
      | .serve =>
        if t.owner row t.tepoch == t.mine then
          s.setTable n (t.hold { epoch := t.tepoch, row := row, src := src, pos := pos, scale := scale, codes := codes })
        else s
      | .stale => s.countStale
      | .waits => s
    | none => s
  | .call id replies =>
    match s.openCall id 5 with
    | none => s
    | some (c, x, sl) =>
      if c.at_ 0 1 == 0x22 then s
      else if c.scatBad then s.completeCall id c stLIMIT 0
      else match s.tableOf sl (c.at_ 2 2) with
        | none => s.completeCall id c stNOTABLE 0
        | some t =>
          if t.opt = 0 then s.completeCall id c stLIMIT 0
          else match s.engineStop x (c.at_ 16 8) (8 * c.at_ 4 4) <|> s.engineStop x (c.at_ 24 8) (c.at_ 4 4 * roundUp t.w 64) with
            | some st => s.completeCall id c st 0
            | none =>
              if (s.callRows c x).any fun r => decide (t.rows ≤ r) then s.completeCall id c stROWRANGE 0
              else match t.epochTest (if bitOf (c.at_ 1 1) 0 then some (c.at_ 8 4) else none) with
                | .serve => s.scatRun id c x t replies
                | .stale => s.countStale.completeCall id c stTABLEEPOCH 0
                | .waits => s

-- ## The update of a row (R165 to R168)

/-- FP32 gradient of a contribution's element (R165). -/
def Contribution.grad (c : Contribution) (i : Nat) : Nat := fpMul .fp32 (fp32 (decodeFloat .e5m2 (c.codes.getD i 0))) c.scale

/-- The sum of an element's gradients in the order of R165. -/
def gradSum (cs : List Contribution) (i : Nat) : Nat :=
  let terms := cs.map fun c => (c.src, c.pos, c.grad i)
  let lt := fun (a b : Nat × Nat × Nat) =>
    decide (a.1 < b.1) || (decide (a.1 = b.1) && (decide (a.2.1 < b.2.1) || (decide (a.2.1 = b.2.1) && decide (a.2.2 < b.2.2))))
  match (sortBy lt terms).map fun e => e.2.2 with
  | [] => 0
  | g :: gs => gs.foldl (fpAdd .fp32) g

/-- Bytes of moment `m` of a row's state. -/
def Table.momentBytes (t : Table) (st : Bytes) (m : Nat) : Bytes := bytesAt st (m * t.momentSize) t.momentSize

/-- A moment decoded to FP32 (R158, R166). -/
def Table.moment (t : Table) (b : Bytes) (i : Nat) : Nat :=
  if t.statefmt = 1 then fp32 (decodeFloat .e4m3 (leAt b i 1))
  else fp32 ((Val.ofInt (toSigned (leAt b i 1) 8)).mul (decodeFloat .fp16 (leAt b (t.w + 2 * (i / 64)) 2)))

/-- The block scale of R167 from a block's FP32 moments. -/
def momentScale (vs : List Nat) : Nat :=
  let a := vs.foldl (fun (a : Val) v => Val.max a (unfp32 v).abs) (Val.ofInt 0)
  if a.isZero then 0x3C00
  else
    let c := (toFloat .fp16 .rne true (a.div (Val.ofInt 127))).code
    if 0x7BFF < c then 0x7BFF else c

/-- The code of a moment in its block (R167); a free value where R167 states none. -/
def momentCode (vs : List Nat) (v : Nat) : Nat :=
  let sc := decodeFloat .fp16 (momentScale vs)
  if vs.any (fun u => (unfp32 u).isNan) || sc.isZero then Config.momentCode v (maxNat (vs.map fun u => u % 2 ^ 31))
  else (toInt .int8 .rne 0 ((unfp32 v).div sc)).code

/-- A moment's bytes (R167). DESIGN CHOICE: log entry 87. -/
def Table.encodeMoment (t : Table) (vs : List Nat) : Bytes :=
  if t.statefmt = 1 then vs.flatMap fun v => leBytes 1 (toFloat .e4m3 .rne true (unfp32 v)).code
  else
    let blocks := chunks 64 (ceilDiv vs.length 64) vs
    (blocks.flatMap fun b => b.flatMap fun v => leBytes 1 (momentCode b v)) ++ blocks.flatMap fun b => leBytes 2 (momentScale b)

/-- The new values of one element: w, m, v (Table 5-5). DESIGN CHOICE: log entry 87. -/
def Table.updateElem (t : Table) (lr g w m v : Nat) : Nat × Nat × Nat :=
  let mul := fpMul .fp32
  let one := fp32One
  if t.opt = 1 then (fpSub .fp32 w (mul lr g), m, v)
  else if t.opt = 2 then
    let v := fpAdd .fp32 v (mul g g)
    (fpSub .fp32 w (fpDiv .fp32 (mul lr g) (fpAdd .fp32 (fpSqrt v) t.eps)), m, v)
  else
    let m := fpAdd .fp32 (mul t.b1 m) (mul (fpSub .fp32 one t.b1) g)
    let v := fpAdd .fp32 (mul t.b2 v) (mul (mul (fpSub .fp32 one t.b2) g) g)
    (fpSub .fp32 w (fpDiv .fp32 (mul lr m) (fpAdd .fp32 (fpSqrt v) t.eps)), m, v)

/-- A master value in RFMT, and whether it saturated (R167). DESIGN CHOICE: log entry 87. -/
def Table.encodeW (t : Table) (w : Nat) : Nat × Bool :=
  match unfp32 w with
  | .inf n => (signBit t.fmt.par n + t.fmt.par.maxCode, true)
  | v => let c := toFloat t.fmt .rne true v; (c.code, c.sat)

/-- What the update of a row gives: value, state, saturated elements; none for a non-finite gradient (R168). -/
def Table.updateRow (t : Table) (lr row : Nat) (cs : List Contribution) : Option (Bytes × Bytes × Nat) :=
  let gs := (List.range t.w).map (gradSum cs)
  if gs.any fun g => !(unfp32 g).isFin then none
  else
    let val := t.value row
    let st := t.state row
    let b0 := t.momentBytes st 0
    let b1 := t.momentBytes st 1
    let new := (List.range t.w).map fun i =>
      let m := if t.opt = 3 then t.moment b0 i else 0
      let v := if t.opt = 2 then t.moment b0 i else if t.opt = 3 then t.moment b1 i else 0
      t.updateElem lr (gs.getD i 0) (fp32 (decodeFloat t.fmt (leAt val (2 * i) 2))) m v
    let ws := new.map fun e => t.encodeW e.1
    let state := (if t.opt = 3 then t.encodeMoment (new.map fun e => e.2.1) else []) ++
      (if 2 ≤ t.opt then t.encodeMoment (new.map fun e => e.2.2) else [])
    some (bytesAt (ws.flatMap fun e => leBytes 2 e.1) 0 t.rowSize, bytesAt state 0 t.stateSize, ws.countP fun e => e.2)

/-- Rows of the table that received contributions in the epoch, ascending. -/
def Table.touched (t : Table) : List Nat :=
  mapKeys ((t.grads.filter fun c => c.epoch == t.tepoch).foldl (fun (m : KMap Unit) c => mapSet m c.row ()) [])

/-- A row that migrates logs its new image (R173). -/
def Table.logImage (t : Table) (row : Nat) (v st : Bytes) : Table :=
  { t with moves := mapUpdate t.moves row fun m => { m with log := m.log ++ [(v, st)] } }

/-- One row's update: the table, saturated elements and whether it was left unchanged. -/
def Table.applyRow (t : Table) (lr row : Nat) : Table × Nat × Nat :=
  match t.updateRow lr row (t.grads.filter fun c => c.row == row && c.epoch == t.tepoch) with
  | none => (t, 0, 1)
  | some (v, st, sat) => ({ t with values := mapSet t.values row v, states := mapSet t.states row st }.logImage row v st, sat, 0)

-- ## Directory changes at an APPLY (R161, R169, R171, R173)

/-- A migration at an APPLY that makes the epoch `e`: the entry once the copy is done, the return of a row whose T is lost, the
abandoning of a copy not done within 4 APPLYs. -/
def Table.moveStep (t : Table) (row e : Nat) : Table :=
  match mapGet t.moves row with
  | none => t
  | some m =>
    let m := { m with applies := m.applies + 1 }
    if m.lost then
      match m.em with
      | some _ => { (if m.target = t.home row then t.addEntry row (some t.mine) e else t.endEntry row e) with moves := mapErase t.moves row }
      | none => { t with moves := mapErase t.moves row, migrAbandoned := t.migrAbandoned + 1 }
    else if m.em.isSome then t
    else if m.copied then
      let t := if m.target = t.home row then t.endEntry row e else t.addEntry row (some m.target) e
      { t with moves := mapSet t.moves row { m with em := some e } }
    else if 4 ≤ m.applies then { t with moves := mapErase t.moves row, migrAbandoned := t.migrAbandoned + 1 }
    else { t with moves := mapSet t.moves row m }

/-- The directory changes that an APPLY installs, and the removal of entries that nothing uses any more (R161, R169). -/
def Table.install (t : Table) (e oldest : Nat) : Table :=
  let t := (mapKeys t.moves).foldl (fun (t : Table) row => t.moveStep row e) t
  let t := t.toRepl.foldl (fun (t : Table) row => t.addEntry row none e) { t with toRepl := [] }
  let t := t.toHome.foldl (fun (t : Table) row => t.endEntry row e) t
  { t with toHome := [], dir := t.dir.filter fun d => !(t.owner d.row e == t.mine && t.stale (min oldest e) d) }

/-- TYPE and reserved fields of an apply descriptor, and LR. -/
def Call.applyBad (c : Call) : Bool :=
  decide (2 ≤ c.at_ 1 1) || !c.zero 12 39 || !c.zero 44 47 || decide (8 ≤ c.at_ 48 1) || !c.zero 49 63 || !(unfp32 (c.at_ 40 4)).isFin

/-- A gather of the outgoing epoch has reached the shard and not completed (R169). -/
def State.gatherOpen (s : State) (n : Nat) (t : Table) : Bool :=
  s.calls.any fun e => e.2.fn == 4 && !e.2.done && e.2.at_ 2 2 == n && (!bitOf (e.2.at_ 1 1) 0 || e.2.at_ 8 4 == t.tepoch)

/-- APPLY (R169). `oldest`: the oldest epoch that a request in flight at another device of the set carries.
DESIGN CHOICE: log entry 86. -/
def State.apply (s : State) (id oldest : Nat) : State :=
  match s.openCall id 5 with
  | none => s
  | some (c, _, sl) =>
    if c.at_ 0 1 != 0x22 then s
    else if c.applyBad then s.completeCall id c stLIMIT 0
    else match s.tableOf sl (c.at_ 2 2) with
      | none => s.completeCall id c stNOTABLE 0
      | some t =>
        if t.opt = 0 then s.completeCall id c stLIMIT 0
        else if c.at_ 8 4 ≠ t.tepoch then s.countStale.completeCall id c stTABLEEPOCH 0
        else if s.gatherOpen (c.at_ 2 2) t then s
        else
          let n := t.grads.countP fun k => k.epoch == t.tepoch
          let (t, sat, non) := t.touched.foldl (fun (acc : Table × Nat × Nat) row =>
            let (t, a, b) := acc.1.applyRow (c.at_ 40 4) row
            (t, acc.2.1 + a, acc.2.2 + b)) (t, 0, 0)
          let e := (t.tepoch + 1) % 2 ^ 32
          let t := { (t.install e oldest) with tepoch := e, grads := t.grads.filter fun k => k.epoch != t.tepoch }
          let s := ((s.count MEM_TBLSAT_COUNT sat).count MEM_TBLNONFIN_COUNT non).setTable (c.at_ 2 2) t
          s.completeCall id c (if non = 0 then stOK else stNONFINITEGRAD) n

-- ## Intervals, replication and migration (R170 to R173)

/-- The directory has room for another entry, counting those that replications and migrations under way will need (R161). -/
def Table.dirRoom (t : Table) : Bool :=
  decide (t.dir.length + t.toRepl.length + t.moves.countP (fun m => m.2.em.isNone && m.2.target != t.home m.1) < 1048576)

/-- Replicated rows of the table, with those about to be. -/
def Table.replicated (t : Table) : List Nat := ((t.dir.filter fun d => d.place.isNone && d.ee.isNone).map DirEntry.row) ++ t.toRepl

/-- Start the replication of a row that this device owns, if there is room (R161, R171). -/
def Table.startRepl (t : Table) (row : Nat) : Table :=
  if t.replicated.length < 4096 then (if t.dirRoom then { t with toRepl := t.toRepl ++ [row] } else { t with dirFull := t.dirFull + 1 }) else t

/-- Rows that may move or be replicated: placed on this device alone. -/
def Table.alone (t : Table) (row : Nat) : Bool :=
  !t.repl && t.place row t.tepoch == some t.mine && (mapGet t.moves row).isNone && !t.toRepl.contains row

/-- The replications and returns that an interval's counts call for (R171). DESIGN CHOICE: log entry 86. -/
def Table.replStep (t : Table) (thr : Nat) : Table :=
  let hot := (t.counts.filter fun e => decide (thr ≤ e.2) && t.alone e.1).map Prod.fst
  let t := hot.foldl (fun (t : Table) row => t.startRepl row) t
  let owned := (t.dir.filter fun d => d.place.isNone && d.ee.isNone && t.home d.row == t.mine).map DirEntry.row
  let cold := owned.foldl (fun (m : KMap Nat) row =>
    if 4 * mapGetD t.counts row 0 < thr then mapSet m row (mapGetD t.cold row 0 + 1) else m) []
  { t with cold := cold.filter (fun e => decide (e.2 < 8)),
           toHome := t.toHome ++ ((cold.filter fun e => decide (8 ≤ e.2)).map Prod.fst).filter fun r => !t.toHome.contains r }

/-- The migrations of an overloaded shard: rows hottest first, until the projected total falls to the mean or MIGMAX rows have been
chosen (R172). `over` is what the total exceeds the mean by, times the number of devices. DESIGN CHOICE: log entry 86. -/
def Table.migrateGo (target : Nat) : Nat → Int → List (Nat × Nat) → Table → Table
  | 0, _, _, t => t
  | _, _, [], t => t
  | left + 1, excess, (row, n) :: rows, t =>
    if excess ≤ 0 then t
    else if target ≠ t.home row ∧ !t.dirRoom then Table.migrateGo target (left + 1) excess rows { t with dirFull := t.dirFull + 1 }
    else
      let m : RowMove := { target := target, copied := false, applies := 0, log := [], em := none, confirmed := false, lost := false }
      Table.migrateGo target left (excess - ((n * t.ndev : Nat) : Int)) rows { t with moves := mapSet t.moves row m }

/-- The migrations that an interval calls for. -/
def Table.migrateStep (t : Table) (totals : List Nat) : Table :=
  let all := (List.range t.ndev).map fun i => if i = t.mine then t.lastTotal else totals.getD i 0
  let sum := sumNat all
  let least := (List.range t.ndev).foldl (fun (b : Nat) i => if all.getD i 0 < all.getD b 0 then i else b) 0
  let overload := decide (bitsOf t.cfg 16 9 * sum < 100 * t.lastTotal * t.ndev)
  let t := { t with overrun := if overload then t.overrun + 1 else 0 }
  if 2 ≤ t.overrun ∧ 8 < t.age ∧ least ≠ t.mine then
    let rows := sortBy (fun (a b : Nat × Nat) => decide (b.2 < a.2) || (decide (a.2 = b.2) && decide (a.1 < b.1)))
      (t.counts.filter fun e => t.alone e.1)
    Table.migrateGo least (bitsOf t.cfg 32 10) (((t.lastTotal * t.ndev : Nat) : Int) - (sum : Int)) rows t
  else t

/-- TABLE_INTERVAL_END: the totals that the other shards report, by shard (R170 to R172). DESIGN CHOICE: log entry 86. -/
def State.tableIntervalEnd (s : State) (n : Nat) (totals : List Nat) : State :=
  match mapGet s.tables n with
  | none => s
  | some t =>
    let t := { t with lastTotal := t.total, age := t.age + 1 }
    let t := if 8 < t.age then t.replStep (s.fld MEM_TBLREPL_REPLTHR) else t
    let t := t.migrateStep totals
    s.setTable n { t with total := 0, counts := [], cfg := (s.reg .memTblcfg 0 0).toNat }

/-- ROW_MIGRATION_COPY: the copy of a row that migrates is done (R173). -/
def State.rowMigrationCopy (s : State) (n row target : Nat) : State :=
  match mapGet s.tables n with
  | none => s
  | some t =>
    s.setTable n { t with moves := mapUpdate t.moves row fun m => if m.target = target then { m with copied := true } else m }

/-- The row image that comes with news is installed. -/
def Table.take (t : Table) (row : Nat) (image : Option (Bytes × Bytes)) : Table :=
  match image with
  | some (v, st) => { t with values := mapSet t.values row v, states := mapSet t.states row st }
  | none => t

/-- MIGRATION_INSTALL: what another device of the set tells of a row: T installs the last log image, every device the directory change, S
the confirmation (R161, R169, R173). -/
def State.migrationInstall (s : State) (n row : Nat) (news : RowNews) : State :=
  match mapGet s.tables n with
  | none => s
  | some t =>
    match news with
    | .confirmed => s.setTable n { t with moves := mapUpdate t.moves row fun m => { m with confirmed := m.em.isSome } }
    | .lost => s.setTable n { t with moves := mapUpdate t.moves row fun m => { m with lost := !m.confirmed } }
    | .entry place em image => s.setTable n ((t.addEntry row place em).take row image)
    | .ended ee image => s.setTable n ((t.endEntry row ee).take row image)
    | .image v st => s.setTable n (t.take row (some (v, st)))
    | .removed em => s.setTable n { t with dir := t.dir.filter fun d => !(d.row == row && d.em == em) }

/-- MIGRATION_FREE: T has confirmed and no request of an epoch below EM is in flight here: the old copy goes (R173). -/
def State.migrationFree (s : State) (n row : Nat) : State :=
  match mapGet s.tables n with
  | none => s
  | some t =>
    match mapGet t.moves row with
    | some m =>
      if m.confirmed && m.em.elim false fun e => decide (e ≤ t.tepoch) then
        s.setTable n { t with moves := mapErase t.moves row, values := mapErase t.values row, states := mapErase t.states row,
                              migrDone := t.migrDone + 1 }
      else s
    | none => s

end Sys2Proof.Machine
end

