-- ==== Sys2Proof/Machine/Attention.lean ====
section
/-! DEFINITION. Retrieval attention (chapter 8): sequences and their key stores, KVAPPEND, and ATTEND with its selection, its left-out mass
and its exact part. -/

namespace Sys2Proof.Machine

abbrev stATTNPOS : Nat := 0x020A
abbrev stSEQFULL : Nat := 0x020B
abbrev stNOSEQ : Nat := 0x020C

-- ## Sequences (R237 to R239)

/-- SEG of a spread (R238). -/
def segment (spread : Nat) : Nat := min (2 ^ 22) (256 * (2 ^ 16 / spread))

/-- SEG of a sequence. -/
def Seq.seg (q : Seq) : Nat := segment q.devs.length

/-- BASE of this device. -/
def Seq.base (q : Seq) : Nat := q.mine * q.seg

/-- Positions of the sequence. -/
def Seq.size (q : Seq) : Nat := q.devs.length * q.seg

/-- S in bits. -/
def Seq.bits (q : Seq) : Nat := 256 * 2 ^ q.skw

/-- Format of keys, values and queries. -/
def Seq.fmt (q : Seq) : Fmt := if q.kvfmt = 0 then .fp16 else .bf16

/-- NKEYS of a layer. -/
def Seq.count (q : Seq) (layer : Nat) : Nat := mapGetD q.nkeys layer 0

/-- Number of a layer's head among all heads. DEDUCED: log entry 92. -/
def Seq.head (q : Seq) (layer h : Nat) : Nat := layer * q.kvh + h

/-- Key of a position of a head in the arrays. -/
def Seq.at_ (q : Seq) (layer h pos : Nat) : Nat := q.head layer h * 2 ^ 32 + pos

/-- This device is home of a position. -/
def Seq.isHome (q : Seq) (pos : Nat) : Bool := decide (pos / q.seg = q.mine)

/-- The projection matrix of a head (R241). -/
def Seq.matrix (q : Seq) (layer h : Nat) : Bytes := bytesAt q.proj (q.head layer h * q.bits * q.dh) (q.bits * q.dh)

/-- The sketch of a key or query of a head (R241). -/
def Seq.sketchOf (q : Seq) (layer h : Nat) (v : List Nat) : Nat := Machine.sketchOf (q.matrix layer h) q.bits q.dh (int8Codes q.fmt v).1

/-- The state with a sequence replaced. -/
def State.setSeq (s : State) (n : Nat) (q : Seq) : State := { s with seqs := mapSet s.seqs n q }

/-- The open sequence of a slice. -/
def State.seqOf (s : State) (sl n : Nat) : Option Seq := (mapGet s.seqs n).filter fun q => q.slice == sl

/-- Area number under which errors in a sequence's keys and values are kept: key and value of a position lie together (DESIGN CHOICE, log entry 91). -/
def seqArea (n : Nat) : Nat := 2 ^ 49 + n

/-- A read of a position's key or value meets an uncorrectable error (R251). DESIGN CHOICE: log entry 91. -/
def State.keyBad (s : State) (n : Nat) (q : Seq) (layer h pos : Nat) : Bool :=
  !(s.poisonIn (seqArea n) ((q.head layer h * q.seg + pos % q.seg) * 4 * q.dh) (4 * q.dh)).isEmpty

-- ## SEQ_OPEN and SEQ_CLOSE (R237, R239, R243)

/-- The sequence that a SEQ_OPEN describes. -/
def Cmd.seqArgs (c : Cmd) (devs : List Nat) (mine : Nat) (proj : Bytes) : Seq :=
  { slice := c.slice, layers := c.par 34 2, kvh := c.par 36 1, group := c.par 37 1, dh := c.par 38 2, kvfmt := c.par 40 1, skw := c.par 41 1,
    graph := c.par 42 1 == 1, degree := c.par 43 1, devs := devs, mine := mine, hot := c.par 45 1 == 1, vsum := c.par 46 1 == 1,
    ibase := c.par 48 2, proj := proj, nkeys := [], keys := [], vals := [], sketches := [], checks := [] }

/-- A parameter of Table 8-1 is outside its range. -/
def Cmd.seqBad (c : Cmd) : Bool :=
  let graph := c.par 42 1 == 1
  let heads := c.par 34 2 * c.par 36 1
  !c.unusedZero [(32, 15), (48, 2), (56, 8)] || decide (4095 < c.par 32 2) || decide (c.par 34 2 = 0) || decide (256 < c.par 34 2) ||
  decide (c.par 36 1 = 0) || decide (64 < c.par 36 1) || decide (c.par 37 1 = 0) || decide (16 < c.par 37 1) || decide (c.par 38 2 < 32) ||
  decide (512 < c.par 38 2) || decide (c.par 38 2 % 32 ≠ 0) || decide (1 < c.par 40 1) || decide (3 < c.par 41 1) || decide (1 < c.par 42 1) ||
  (graph && (decide (c.par 43 1 < 8) || decide (32 < c.par 43 1) || decide (c.par 43 1 % 8 ≠ 0) || decide (2 ^ 15 < c.par 48 2 + heads))) ||
  decide (c.par 44 1 = 0) || decide (16 < c.par 44 1) || decide (1 < c.par 45 1) || decide (1 < c.par 46 1)

/-- What the key graphs of a sequence take in each tier, without records. -/
def Seq.graphNeeds (q : Seq) : List (Nat × Nat) :=
  let n := q.layers * q.kvh
  let sb := 32 * 2 ^ q.skw
  let pg := fun (b : Nat) => roundUp (n * b) (2 ^ 21)
  [(2, pg (q.seg * recordSize q.skw q.degree)), (2, pg (2 * 65536 * (4 + sb))), (2, pg (16 * 65536 * q.degree)),
   (2, pg (65536 * q.degree * 4 * q.degree)), (1, roundUp (n * ceilDiv q.seg 512) (2 ^ 16)), (1, roundUp (n * 1024 * (4 + sb)) (2 ^ 16))]

/-- What a sequence takes in package memory and concourse by fixed placement, and its key and value arrays under WARM. -/
def Seq.needs (q : Seq) : List (Nat × Nat) :=
  let n := q.layers * q.kvh * q.seg
  (if q.graph then q.graphNeeds else [(2, roundUp (n * 32 * 2 ^ q.skw) (2 ^ 21))]) ++
  (if q.hot then [] else [(3, roundUp (n * 2 * q.dh) (2 ^ 21)), (3, roundUp (n * 2 * q.dh) (2 ^ 21))])

/-- The HOT arrays of a sequence: keys and values under KVTIER 1, checkpoints, projection matrices. -/
def Seq.hotArrays (q : Seq) : List Nat :=
  let n := q.layers * q.kvh
  (if q.hot then [n * q.seg * 2 * q.dh, n * q.seg * 2 * q.dh] else []) ++ (if q.vsum then [n * (q.seg / 256) * q.dh * 40] else []) ++
  [n * q.bits * q.dh]

/-- A key graph at its opening (R243). DESIGN CHOICE (log entry 88): its walks' scratch is not limited, since no pool is sized for it. -/
def Seq.keyGraph (q : Seq) (layer h : Nat) : Index :=
  { Index.blank q.slice q.skw q.degree q.kvfmt q.dh false q.seg (2 ^ 32) (q.matrix layer h) 0 (List.range 1024) with key := true, base := q.base }

/-- The key graphs of a sequence open. DEDUCED: log entries 71, 88. -/
def State.openGraphs (s : State) (q : Seq) : State :=
  if q.graph then
    (List.range (q.layers * q.kvh)).foldl (fun (s : State) i => s.setIndex (q.ibase + i) (q.keyGraph (i / q.kvh) (i % q.kvh))) s
  else s

/-- Charge what a sequence takes; none when it does not fit (R355). -/
def State.chargeSeq (s : State) (n : Nat) (q : Seq) : Option State :=
  (s.roomFor q.slice q.needs).bind fun s =>
    q.hotArrays.foldl (fun (acc : Option State) size => acc.bind fun s => s.chargeHot (.seq n) q.slice size)
      (some (s.chargeAll (.seq n) q.slice q.needs))

/-- SEQ_OPEN. DESIGN CHOICE: log entry 79. DEDUCED: log entry 88. -/
def State.seqOpen (s : State) (r seq : Nat) : State :=
  match s.running r seq 0x0028 with
  | none => s
  | some c =>
    let n := c.par 32 2
    let pay := s.payload c
    let devs := nodeList pay
    let need := c.par 34 2 * c.par 36 1 * (256 * 2 ^ c.par 41 1) * c.par 38 2
    match if c.seqBad || s.devsBad pay 16 || decide (devs.length ≠ c.par 44 1) || (mapGet s.seqs n).isSome then none
        else (s.named c.slice (c.par 56 8)).filter fun a => decide (need ≤ a.2.size) with
    | none => s.refuse c stLIMIT
    | some (id, _) =>
      let q := c.seqArgs devs (devs.findIdx fun d => d == s.node) (s.allocBytes id 0 need)
      if q.graph && (List.range (q.layers * q.kvh)).any fun i => (s.index (q.ibase + i)).isSome then s.refuse c stLIMIT
      else match s.readStatus id 0 need, s.chargeSeq n q with
        | some st, _ => s.refuse c st
        | none, none => (s.count MEM_BUFSHORT_COUNT).refuse c stBUFFERSHORT
        | none, some s => ((s.setSeq n q).openGraphs q).finish c stOK

/-- The key graphs of a sequence. -/
def Seq.graphs (q : Seq) : List Nat := if q.graph then (List.range (q.layers * q.kvh)).map (q.ibase + ·) else []

/-- SEQ_CLOSE: it waits for the walks on the key graphs. -/
def State.seqClose (s : State) (r seq : Nat) : State :=
  match s.running r seq 0x0029 with
  | none => s
  | some c =>
    let n := c.par 32 2
    if !c.unusedZero [(32, 2)] || decide (4095 < n) then s.refuse c stLIMIT
    else match s.seqOf c.slice n with
      | none => s.refuse c stNOSEQ
      | some q =>
        if s.activeWalks.any fun w => q.graphs.contains w.index then s
        else
          let s := q.graphs.foldl (fun (s : State) i => s.dropIndex i) (s.discharge (.seq n))
          ({ s with seqs := mapErase s.seqs n, poison := s.poison.filter fun p => p.alloc != seqArea n }).finish c stOK

-- ## KVAPPEND (R240, R241, R243, R248)

/-- A finite value in units of 2⁻¹⁴⁹; 0 for another. -/
def finiteUnits (v : Val) : Int := if v.isFin then unitsOf149 v else 0

/-- Add two lists of sums, element by element. -/
def addSums : List Int → List Int → List Int
  | a :: as, b :: bs => (a + b) :: addSums as bs
  | l, [] => l
  | [], l => l

/-- The values of a position as exact units. -/
def Seq.valueUnits (q : Seq) (layer h pos : Nat) : List Int :=
  (mapGetD q.vals (q.at_ layer h pos) (List.replicate q.dh 0)).map fun c => finiteUnits (decodeFloat q.fmt c)

/-- Sum of the values of segment positions 0 to `n` − 1: the checkpoint at or below it and at most 255 further values (R248). -/
def Seq.prefixSum (q : Seq) (layer h n : Nat) : List Int :=
  let b := n / 256
  let start := if b = 0 then List.replicate q.dh 0 else mapGetD q.checks (q.at_ layer h (b - 1)) (List.replicate q.dh 0)
  (List.range (n % 256)).foldl (fun (acc : List Int) i => addSums acc (q.valueUnits layer h (q.base + 256 * b + i))) start

/-- The home device writes one position of a head: key, value, sketch; the checkpoint that the position completes. -/
def Seq.appendOne (q : Seq) (layer h pos : Nat) (key val : List Nat) : Seq :=
  let i := q.at_ layer h pos
  let q := { q with keys := mapSet q.keys i key, vals := mapSet q.vals i val }
  let q := if q.graph then q else { q with sketches := mapSet q.sketches i (q.sketchOf layer h key) }
  let n := pos - q.base + 1
  if q.vsum ∧ n % 256 = 0 then
    let b := n / 256 - 1
    let start := if b = 0 then List.replicate q.dh 0 else mapGetD q.checks (q.at_ layer h (b - 1)) (List.replicate q.dh 0)
    let sum := (List.range 256).foldl (fun (acc : List Int) i => addSums acc (q.valueUnits layer h (q.base + 256 * b + i))) start
    { q with checks := mapSet q.checks (q.at_ layer h b) sum }
  else q

/-- A key of a key graph takes its siding slot, published by its append (R243). DEDUCED: log entry 88. -/
def Index.appendKey (x : Index) (sketch : Nat) : Index :=
  let id := x.nkeys
  let x := { x with nkeys := id + 1, counter := x.base + id }
  x.setBuf x.act { x.buf x.act with slots := (x.buf x.act).slots ++ [(id, sketch)] }

/-- A vector of a payload: number `i` of vectors of `dh` codes of 2 bytes. -/
def payloadVec (b : Bytes) (dh i : Nat) : List Nat := vecOf 0 dh (bytesAt b (2 * dh * i) (2 * dh))

/-- A key graph of a layer, sealed first if a seal is due (R103). -/
def State.graphRoom (s : State) (i n : Nat) : Option Index :=
  (s.index i).bind fun x =>
    let x := if x.sealDue then x.seal s.mergeSw else x
    if (x.buf x.act).slots.length + n ≤ sidingSlots then some x else none

/-- One position of a layer is appended for every head. DEDUCED: log entry 92. -/
def State.appendPos (s : State) (n : Nat) (q : Seq) (layer pos i : Nat) (keys vals : Bytes) : State :=
  (List.range q.kvh).foldl (fun (s : State) h =>
    let key := payloadVec keys q.dh (i * q.kvh + h)
    let val := payloadVec vals q.dh (i * q.kvh + h)
    let s := { s with seqs := mapUpdate s.seqs n fun (p : Seq) => p.appendOne layer h pos key val }
    if q.graph then
      { s with indexes := mapUpdate s.indexes (q.ibase + q.head layer h) fun (x : Index) => x.appendKey (q.sketchOf layer h key) }
    else s) s

/-- An earlier append of the ring to the layer has not finished (R240). DEDUCED: log entry 92. -/
def State.appendBefore (s : State) (c : Cmd) : Bool :=
  (mapVals s.cmds).any fun d => d.ring == c.ring && decide (d.seq < c.seq) && d.live && d.opcode == 0x002A && d.par 32 4 == c.par 32 4

/-- KVAPPEND. DESIGN CHOICE: log entry 79. DEDUCED: log entry 92. -/
def State.kvappend (s : State) (r seq : Nat) : State :=
  match s.running r seq 0x002A with
  | none => s
  | some c =>
    let n := c.par 32 2
    let layer := c.par 34 2
    let pos := c.par 36 4
    let k := c.par 40 4
    if !c.unusedZero [(32, 12)] || decide (4095 < n) || decide (k = 0) || decide (65536 < k) then s.refuse c stLIMIT
    else match s.seqOf c.slice n with
      | none => s.refuse c stNOSEQ
      | some q =>
        let half := k * q.kvh * q.dh * 2
        if decide (q.layers ≤ layer) || decide (c.paylen ≠ 2 * half) then s.refuse c stLIMIT
        else if s.appendBefore c then s
        else if pos ≠ q.count layer then s.refuse c stLIMIT
        else if q.size < pos + k then s.refuse c stSEQFULL
        else
          let mine := (List.range k).filter fun i => q.isHome (pos + i)
          let graphs := if q.graph then (List.range q.kvh).map fun h => q.ibase + q.head layer h else []
          if graphs.any fun g => (s.graphRoom g mine.length).isNone then (s.count SRC_WRBUSY_COUNT).refuse c stBUSY
          else
            let s := graphs.foldl (fun (s : State) g => match s.graphRoom g mine.length with | some x => s.setIndex g x | none => s) s
            let pay := s.payload c
            let s := mine.foldl (fun (s : State) i => s.appendPos n q layer (pos + i) i (pay.take half) (pay.drop half)) s
            let s := { s with seqs := mapUpdate s.seqs n fun (p : Seq) => { p with nkeys := mapSet p.nkeys layer (pos + k) } }
            (s.count CMP_KEYAPP_COUNT (mine.length * q.kvh)).finish c stOK [] k

-- ## The parameters of ATTEND (R242)

/-- The parameters of an ATTEND. -/
structure AttnArgs where
  seq : Nat
  layer : Nat
  pos0 : Nat
  nq : Nat
  ksel : Nat
  lw : Nat
  causal : Bool
  corr : Nat
  sc : Nat
  outfmt : Nat
  sw : Nat
  batch : Nat
  hopmax : Nat
  entry : Nat
  deriving DecidableEq, Repr

/-- The parameters of an ATTEND entry. DESIGN CHOICE: log entry 79. -/
def Cmd.attnArgs (c : Cmd) : AttnArgs :=
  { seq := c.par 32 2, layer := c.par 34 1, pos0 := c.par 36 4, nq := c.par 40 4, ksel := c.par 44 2, lw := c.par 48 4,
    causal := c.par 52 1 == 1, corr := c.par 53 1, sc := c.par 56 4, outfmt := c.par 60 1, sw := c.par 62 2, batch := c.par 64 1,
    hopmax := c.par 66 2, entry := c.par 68 2 }

/-- Ranges of Table 8-2 that do not depend on the sequence. -/
def Cmd.attnBad (c : Cmd) : Bool :=
  let a := c.attnArgs
  !c.unusedZero [(32, 3), (36, 10), (48, 6), (56, 5), (62, 3), (66, 4)] || decide (4095 < a.seq) || decide (a.nq = 0) || decide (65536 < a.nq) ||
  decide (4096 < a.ksel) || decide (a.lw = 0) || decide (65536 < a.lw) || decide (1 < c.par 52 1) || decide (2 < a.corr) ||
  !(unfp32 a.sc).isFin || (unfp32 a.sc).isZero || (unfp32 a.sc).neg || decide (1 < a.outfmt)

/-- KNORM of a head, from the front of the payload. DESIGN CHOICE: log entry 79. -/
def knorm (pay : Bytes) (h : Nat) : Nat := leAt pay (4 * h) 4

/-- The rest of check 1 of R242: the ranges that depend on the sequence, KNORM, the payload's length, and the walk parameters in GRAPH
mode. DESIGN CHOICE: log entry 90. -/
def AttnArgs.bad (a : AttnArgs) (q : Seq) (pay : Bytes) : Bool :=
  decide (q.layers ≤ a.layer) || decide (pay.length ≠ 4 * q.kvh + a.nq * q.kvh * q.group * q.dh * 2) ||
  ((List.range q.kvh).any fun h => let v := unfp32 (knorm pay h); !v.isFin || (v.neg && !v.isZero)) ||
  (q.graph && walkParamsBad a.sw 0 a.hopmax a.batch a.entry 1 1024 false)

/-- Bytes of one element of the output. -/
def AttnArgs.outElem (a : AttnArgs) : Nat := if a.outfmt = 0 then 4 else 2

/-- Exact-set scratch for one token (Table 11-7). -/
def AttnArgs.scratch (a : AttnArgs) (q : Seq) : Nat := (a.ksel + a.lw) * 2 * q.dh * 2 * q.kvh

/-- The first position and the end of the window (R244). `nkeys`: NKEYS at admission. -/
def AttnArgs.window (a : AttnArgs) (p nkeys : Nat) : Nat × Nat := (p + 1 - a.lw, if a.causal then p + 1 else min nkeys (p + a.lw))

/-- The ranges of selectable positions (R244). -/
def AttnArgs.selectable (a : AttnArgs) (p nkeys : Nat) : List (Nat × Nat) :=
  let w := a.window p nkeys
  if a.causal then [(0, w.1)] else [(0, w.1), (w.2, nkeys)]

/-- NSEL. -/
def AttnArgs.nsel (a : AttnArgs) (p nkeys : Nat) : Nat := sumNat ((a.selectable p nkeys).map fun r => r.2 - r.1)

/-- A range cut to this device's segment. -/
def Seq.clip (q : Seq) (r : Nat × Nat) : Nat × Nat := (max r.1 q.base, min r.2 (q.base + q.seg))

/-- The positions of a range. -/
def positions (r : Nat × Nat) : List Nat := (List.range (r.2 - r.1)).map (r.1 + ·)

-- ## The left-out mass (R246, R247)

/-- LOG2E and PI as FP32. -/
abbrev log2e : Nat := 0x3FB8AA3B
abbrev fp32Pi : Nat := 0x40490FDB

/-- An integer as FP32. -/
def fp32Int (n : Nat) : Nat := fp32 (Val.ofInt n)

/-- exp2 of LOG2E × x. -/
def expOf (x : Nat) : Nat := exp2Code (fpMul .fp32 log2e x)

/-- G of a query head (R246). -/
def gainOf (sc : Nat) (q : List Nat) (norm bits : Nat) : Nat :=
  let len := fpSqrt (exactSum (products q q))
  fpDiv .fp32 (fpMul .fp32 (fpMul .fp32 (fpMul .fp32 sc len) norm) fp32Pi) (fp32Int (2 * bits))

/-- G > 0. -/
def gainPos (g : Nat) : Bool := (Val.ofInt 0).lt (unfp32 g)

/-- The sums of a selection (R246). -/
def Seq.sums (q : Seq) (g : Nat) : SumSet :=
  if !gainPos g then SumSet.none
  else if q.graph then { sums := true, sumexp := true, scale := fpMul .fp32 (fpMul .fp32 0xC0000000 log2e) g, ref := 0 }
  else { sums := true, sumexp := true, scale := fpMul .fp32 log2e g, ref := fp32Int q.bits }

/-- C before it is saturated (R247); a free value where G is no number. DESIGN CHOICE: log entry 90. -/
def correction (corr g bits m sumout nun nout draw : Nat) : Nat :=
  let fromZero := expOf (fpSub .fp32 0 m)
  if corr = 0 then 0
  else if (unfp32 g).isNan then Config.freeCorrection draw
  else if gainPos g then
    fpAdd .fp32 (fpMul .fp32 sumout (expOf (fpSub .fp32 (fpMul .fp32 g (fp32Int bits)) m))) (fpMul .fp32 (fp32Int nun) fromZero)
  else fpMul .fp32 (fp32Int nout) fromZero

-- ## Selection (R245)

/-- What a token-head works with: the sequence, the call, layer, head, position, NKEYS, the query's codes widened and its sketch. -/
structure HeadCtx where
  n : Nat
  q : Seq
  a : AttnArgs
  layer : Nat
  h : Nat
  p : Nat
  nkeys : Nat
  vec : List Nat
  sketch : Nat
  gain : Nat
  deriving DecidableEq, Repr

/-- The row of a SCAN over a range of positions. -/
def HeadCtx.scanRow (x : HeadCtx) (r : Nat × Nat) : List SelEntry :=
  (positions (x.q.clip r)).map fun j =>
    let u : Int := (x.q.bits : Int) - 2 * (hamming x.q.bits x.sketch (mapGetD x.q.sketches (x.q.at_ x.layer x.h j) 0) : Nat)
    ⟨ofSigned u 32, j, j⟩

/-- The list of this device under SCAN (R141, R245), and the Selector calls that it takes. -/
def HeadCtx.scan (x : HeadCtx) : Selected × Nat :=
  let t := x.q.sums x.gain
  let rows := ((x.a.selectable x.p x.nkeys).map x.scanRow).filter fun r => !r.isEmpty
  match rows.map fun r => topk 2 true false x.a.ksel t r with
  | [] => (topk 2 true false x.a.ksel t [], 0)
  | [l] => (l, 1)
  | ls => (mergeLists 2 true x.a.ksel t ls, 3)

/-- The list of this device under GRAPH, or the status that ends the call. DEDUCED: log entry 88. -/
def State.graphList (s : State) (x : HeadCtx) : Except Nat (State × Selected) :=
  let t := x.q.sums x.gain
  let i := x.q.ibase + x.q.head x.layer x.h
  let none_ := topk 0 false true x.a.ksel t []
  match s.index i with
  | none => .ok (s, none_)
  | some g =>
    if x.p < x.a.lw + x.q.base then .ok (s, none_)
    else
      let tk := x.p - x.a.lw
      let w := Walk.start i g.imgver tk none x.sketch x.a.sw x.a.sw x.a.hopmax x.a.batch (g.entrySet x.a.entry) x.a.ksel false 0 (s.badRecords i g)
      match g.runWalk [] w.fuel w with
      | (_, some _) => .error stINDEXCORRUPT
      | (w, none) =>
        if w.media then .error stMEDIA
        else
          let r := topk 0 false true x.a.ksel t (s.hitRow i (w.hits ++ (g.sweep g.imgver tk none x.sketch).hits))
          .ok ((s.countWalk w).countHop w, r)

/-- A list of another device. DESIGN CHOICE: log entry 89. -/
def remoteList (k kf : Nat) (b : Bytes) : Selected :=
  let sum := Summary.ofBytes (bytesAt b (16 * k) 128)
  { kept := (List.range sum.valid).map fun i => SelEntry.ofBytes kf (bytesAt b (16 * i) 16), sum := sum }

/-- The position that an entry names: the id itself under SCAN; the segment of the node and the local id under GRAPH. -/
def HeadCtx.posOf (x : HeadCtx) (e : SelEntry) : Nat :=
  if x.q.graph then (x.q.devs.findIdx fun d => d == e.id / 2 ^ 47) * x.q.seg + e.id % 2 ^ 32 else e.id

/-- Take the next item that another device sends; two bytes stand for a status that ends the call, none where it has not come. -/
def nextItem (remote : List Bytes) : Except Nat (Option (Bytes × List Bytes)) :=
  match remote with
  | [] => .ok none
  | b :: bs => if b.length = 2 then .error (leAt b 0 2) else .ok (some (b, bs))

-- ## The exact part (R249)

/-- A partial: how many keys were removed, and, where keys remain, m, Z and N; the value sum of the selectable keys less the selected. -/
structure Partial where
  removed : Nat
  body : Option (Nat × Nat × List Nat)
  vout : List Int
  /-- Some value that the sum took in is no finite number. -/
  odd : Bool
  deriving DecidableEq, Repr

/-- A sum of FP32 codes in order. -/
def fpSum : List Nat → Nat
  | [] => 0
  | a :: as => as.foldl (fpAdd .fp32) a

/-- A comparison of FP32 codes by value. -/
def fpLt (a b : Nat) : Bool := (unfp32 a).lt (unfp32 b)

/-- The scores of this device's part of E, with their positions (R249). -/
def HeadCtx.scores (x : HeadCtx) (sel : List Nat) : List (Nat × Nat) :=
  let w := x.q.clip (x.a.window x.p x.nkeys)
  let e := sortBy (fun a b => decide (a < b)) ((sel.filter x.q.isHome) ++ positions w)
  e.map fun j =>
    let k := (mapGetD x.q.keys (x.q.at_ x.layer x.h j) []).map fun c => fp32 (decodeFloat x.q.fmt c)
    (j, fpMul .fp32 x.a.sc (exactSum (products x.vec k)))

/-- This device's part of Vout (R248). -/
def HeadCtx.vout (x : HeadCtx) (sel : List Nat) : List Int :=
  let pre := fun (n : Nat) => x.q.prefixSum x.layer x.h (n - x.q.base)
  let neg := fun (l : List Int) => l.map fun v => -v
  let all := (x.a.selectable x.p x.nkeys).foldl (fun (acc : List Int) r =>
    let c := x.q.clip r
    if c.1 < c.2 then addSums (addSums acc (pre c.2)) (neg (pre c.1)) else acc) (List.replicate x.q.dh 0)
  (sel.filter x.q.isHome).foldl (fun (acc : List Int) j => addSums acc (neg (x.q.valueUnits x.layer x.h j))) all

/-- A selectable position of this device has a value that is no finite number. -/
def HeadCtx.oddValues (x : HeadCtx) : Bool :=
  (x.a.selectable x.p x.nkeys).any fun r => (positions (x.q.clip r)).any fun j =>
    (mapGetD x.q.vals (x.q.at_ x.layer x.h j) []).any fun c => !(decodeFloat x.q.fmt c).isFin

/-- This device's partial (R249). DESIGN CHOICE: log entry 89. -/
def HeadCtx.partial_ (x : HeadCtx) (sel : List Nat) : Partial :=
  let sc := x.scores sel
  let ok := sc.filter fun e => (unfp32 e.2).isFin
  let mean := decide (x.a.corr = 2)
  { removed := sc.length - ok.length,
    body := match ok with
      | [] => none
      | e :: es =>
        let m := es.foldl (fun (b : Nat) (o : Nat × Nat) => if fpLt b o.2 then o.2 else b) e.2
        let w := ok.map fun o => (o.1, expOf (fpSub .fp32 o.2 m))
        some (m, fpSum (w.map Prod.snd), (List.range x.q.dh).map fun i =>
          fpSum (w.map fun o => fpMul .fp32 o.2 (fp32 (decodeFloat x.q.fmt ((mapGetD x.q.vals (x.q.at_ x.layer x.h o.1) []).getD i 0)))))
    vout := if mean then x.vout sel else [], odd := mean && x.oddValues }

/-- The partial of another device: flag, count of removed keys, m, Z, N, and under MEAN the sums of 40 bytes. DESIGN CHOICE (log entry 89): the spec gives
the parts and not their layout. -/
def remotePartial (dh corr : Nat) (b : Bytes) : Partial :=
  { removed := leAt b 4 4,
    body := if leAt b 0 1 = 0 then none else some (leAt b 8 4, leAt b 12 4, (List.range dh).map fun i => leAt b (16 + 4 * i) 4),
    vout := if corr = 2 then (List.range dh).map fun i => toSigned (leAt b (16 + 4 * dh + 40 * i) 40) 320 else [], odd := false }

/-- The means of the left-out values (R248); free values where none is stated. DESIGN CHOICE: log entry 90. -/
def meanOf (dh : Nat) (parts : List Partial) (nout draw : Nat) : List Nat :=
  let sum := parts.foldl (fun (acc : List Int) p => addSums acc p.vout) (List.replicate dh 0)
  (List.range dh).map fun i =>
    if nout = 0 ∨ parts.any (fun p => p.odd) then Config.freeMean draw i
    else
      let v := sum.getD i 0
      fpDiv .fp32 (fp32 (.fin (decide (v < 0)) v.natAbs (2 ^ 149))) (fp32Int nout)

/-- One element of the output, rounded once (R249). -/
def AttnArgs.outCode (a : AttnArgs) (f : Fmt) (n z : Nat) : Nat :=
  if a.outfmt = 0 then fpDiv .fp32 n z
  else
    let v := (unfp32 n).div (unfp32 z)
    if v.isNan then nanCode f (bitOf (nanResult .fp32 [n, z]) 31) else (toFloat f .rne false v).code

/-- The join of the partials into an output (R249): none when E is empty; and whether C saturated. DESIGN CHOICE: log entry 89. -/
def HeadCtx.join (x : HeadCtx) (parts : List Partial) (sel : Selected) (draw : Nat) : Option (List Nat) × Bool :=
  let ps := parts.filterMap fun p => p.body
  match ps with
  | [] => (none, false)
  | b :: bs =>
    let m := bs.foldl (fun (m : Nat) (o : Nat × Nat × List Nat) => if fpLt m o.1 then o.1 else m) b.1
    let nsel := x.a.nsel x.p x.nkeys
    let nout := nsel - sel.sum.valid
    let c := correction x.a.corr x.gain x.q.bits m sel.sum.sumout (nsel - sel.sum.elements) nout draw
    let sat := c == 0x7F800000
    let c := if sat then 0x7F7FFFFF else c
    let fs := ps.map fun o => (expOf (fpSub .fp32 o.1 m), o.2.1, o.2.2)
    let z := fpAdd .fp32 (fpSum (fs.map fun f => fpMul .fp32 f.2.1 f.1)) c
    let mean := if x.a.corr = 2 then meanOf x.q.dh parts nout draw else []
    (some ((List.range x.q.dh).map fun i =>
      let n := fpSum (fs.map fun f => fpMul .fp32 (f.2.2.getD i 0) f.1)
      let n := if x.a.corr = 2 then fpAdd .fp32 n (fpMul .fp32 c (mean.getD i 0)) else n
      x.a.outCode x.q.fmt n z), sat)

-- ## ATTEND (R242 to R251)

/-- What a token-head gives: the state, its output bytes, and what is left of the other devices' items; none while an item is missing. -/
abbrev HeadRes : Type := Except Nat (Option (State × Bytes × List Bytes))

/-- The lists of the spread in device order, this device's among them. -/
def gatherLists (mine : Selected) (me k kf : Nat) : List Nat → List Bytes → Except Nat (Option (List Selected × List Bytes))
  | [], remote => .ok (some ([], remote))
  | d :: ds, remote =>
    if d = me then
      match gatherLists mine me k kf ds remote with
      | .ok (some (l, r)) => .ok (some (mine :: l, r))
      | e => e
    else match nextItem remote with
      | .error st => .error st
      | .ok none => .ok none
      | .ok (some (b, bs)) =>
        match gatherLists mine me k kf ds bs with
        | .ok (some (l, r)) => .ok (some (remoteList k kf b :: l, r))
        | e => e

/-- The partials of the spread in device order. DESIGN CHOICE: log entry 89. -/
def gatherPartials (mine : Partial) (me dh corr : Nat) : List Nat → List Bytes → Except Nat (Option (List Partial × List Bytes))
  | [], remote => .ok (some ([], remote))
  | d :: ds, remote =>
    if d = me then
      match gatherPartials mine me dh corr ds remote with
      | .ok (some (l, r)) => .ok (some (mine :: l, r))
      | e => e
    else match nextItem remote with
      | .error st => .error st
      | .ok none => .ok none
      | .ok (some (b, bs)) =>
        match gatherPartials mine me dh corr ds bs with
        | .ok (some (l, r)) => .ok (some (remotePartial dh corr b :: l, r))
        | e => e

/-- An empty selection (R245, KSEL = 0). -/
def emptySelection (t : SumSet) : Selected := topk 0 false false 0 t []

/-- Count Selector calls of an attention list. -/
def State.countLists (s : State) (r : Selected) (calls : Nat) : State :=
  if calls = 0 then s else ((s.count SRC_SELCALLS_COUNT (calls - 1)).countSel r r.sum.conflicts r.sum.invalid)

/-- The selection of a token-head at its home (R245): this device's list, the others', and their merge. -/
def State.selectHead (s : State) (x : HeadCtx) (remote : List Bytes) : Except Nat (Option (State × Selected × List Bytes)) :=
  let t := x.q.sums x.gain
  let kf := if x.q.graph then 0 else 2
  if x.a.ksel = 0 then .ok (some (s, emptySelection t, remote))
  else if t.bad then .error stLIMIT
  else
    match (if x.q.graph then (s.graphList x).map fun e => (e.1.countLists e.2 (if x.p < x.a.lw + x.q.base then 0 else 1), e.2)
        else let l := x.scan; .ok (s.countLists l.1 l.2, l.1)) with
    | .error st => .error st
    | .ok (s, mine) =>
      match gatherLists mine x.q.mine x.a.ksel kf (List.range x.q.devs.length) remote with
      | .error st => .error st
      | .ok none => .ok none
      | .ok (some (ls, rest)) =>
        match ls with
        | [l] => .ok (some (s, l, rest))
        | ls =>
          let r := mergeLists kf (!x.q.graph) x.a.ksel t ls
          .ok (some (s.countLists r 1, r, rest))

/-- A key or value that this device's exact part reads cannot be read. DESIGN CHOICE: log entry 91. -/
def State.exactBad (s : State) (x : HeadCtx) (sel : List Nat) : Bool :=
  ((sel.filter x.q.isHome) ++ positions (x.q.clip (x.a.window x.p x.nkeys))).any fun j => s.keyBad x.n x.q x.layer x.h j

/-- A token-head at its home device. -/
def State.attendHead (s : State) (x : HeadCtx) (remote : List Bytes) : HeadRes :=
  match s.selectHead x remote with
  | .error st => .error st
  | .ok none => .ok none
  | .ok (some (s, sel, rest)) =>
    let ids := sel.kept.map x.posOf
    if s.exactBad x ids then .error stMEDIA
    else match gatherPartials (x.partial_ ids) x.q.mine x.q.dh x.a.corr (List.range x.q.devs.length) rest with
      | .error st => .error st
      | .ok none => .ok none
      | .ok (some (ps, rest)) =>
        let (out, sat) := x.join ps sel s.freeCtr
        let s := { s with freeCtr := s.freeCtr + 1 }
        let s := (s.count CMP_ATTNHEADS_COUNT).count CMP_ATTNNF_COUNT (sumNat (ps.map fun p => p.removed))
        let s := if sel.sum.valid < x.a.ksel then s.count CMP_ATTNSHORT_COUNT else s
        let s := if sat then s.count CMP_ATTNCSAT_COUNT else s
        match out with
        | none => .ok (some (s.count CMP_ATTNEMPTY_COUNT, List.replicate (x.q.dh * x.a.outElem) 0, rest))
        | some l => .ok (some (s, l.flatMap (leBytes x.a.outElem), rest))

/-- Every token-head of a call in order: token, key-value head, group member. A token whose home is another device returns its outputs
from there. -/
def State.attendAll (s : State) (c : Cmd) (q : Seq) (nkeys : Nat) (pay : Bytes) : List Nat → List Bytes → HeadRes
  | [], remote => .ok (some (s, [], remote))
  | i :: is, remote =>
    let a := c.attnArgs
    let per := q.kvh * q.group
    let p := a.pos0 + i / per
    let h := i % per / q.group
    let codes := vecOf 0 q.dh (bytesAt pay (4 * q.kvh + 2 * q.dh * i) (2 * q.dh))
    let vec := codes.map fun k => fp32 (decodeFloat q.fmt k)
    let x : HeadCtx :=
      { n := a.seq, q := q, a := a, layer := a.layer, h := h, p := p, nkeys := nkeys, vec := vec, sketch := q.sketchOf a.layer h codes,
        gain := gainOf a.sc vec (knorm pay h) q.bits }
    let one : HeadRes :=
      if q.isHome p then s.attendHead x remote
      else match nextItem remote with
        | .error st => .error st
        | .ok none => .ok none
        | .ok (some (b, bs)) => .ok (some (s, bytesAt b 0 (q.dh * a.outElem), bs))
    match one with
    | .error st => .error st
    | .ok none => .ok none
    | .ok (some (s, out, rest)) =>
      match State.attendAll s c q nkeys pay is rest with
      | .ok (some (s, outs, rest)) => .ok (some (s, out ++ outs, rest))
      | e => e

/-- The checks of R242 in order; then the buffers (R355). -/
def State.attendStatus (s : State) (c : Cmd) : Option Nat :=
  let a := c.attnArgs
  if c.attnBad then some stLIMIT
  else match s.seqOf c.slice a.seq with
    | none => some stNOSEQ
    | some q =>
      firstStatus [(a.bad q (s.payload c), stLIMIT), (decide (q.count a.layer ≤ a.pos0 + a.nq - 1), stATTNPOS),
        ((a.corr == 2 && !q.vsum) || (q.graph && !a.causal), stLIMIT),
        (decide (s.capacity c.slice 2 < a.scratch q) || decide (c.room < a.nq * q.kvh * q.group * q.dh * a.outElem), stBUFFERSHORT)]

/-- ATTEND. It waits while the scratch for one token is not free, and while another device of the spread has still to answer.
DESIGN CHOICE: log entry 79. -/
def State.attend (s : State) (r seq : Nat) (remote : List Bytes) (sel : CheckEvent) : State :=
  match s.running r seq 0x002B with
  | none => s
  | some c =>
    match s.attendStatus c, s.seqOf c.slice c.attnArgs.seq, (s.sliceSelectors c.slice).head? with
    | some st, _, _ => (s.countShort st).refuse c st
    | none, some q, some se =>
      let a := c.attnArgs
      if s.free c.slice 2 < a.scratch q then s.waitBuffer c
      else
        match s.attendAll c q (q.count a.layer) (s.payload c) (List.range (a.nq * q.kvh * q.group)) remote with
        | .error st => s.refuse c st
        | .ok none => s
        | .ok (some (s, out, _)) =>
          let s := s.selCheck se c.slice sel
          if sel == .second then s.refuse c stMISMATCH else (s.count CMP_ATTNCALLS_COUNT).finish c stOK out
    | none, _, _ => s

end Sys2Proof.Machine
end

