-- ==== Sys2Proof/Machine/Groups.lean ====
section
/-! DEFINITION. Reed-Solomon groups (R422 to R424) and the jobs of a slice: JOB_BIND and EXPORT (R403, R404, R465, R536). -/

namespace Sys2Proof.Machine

-- ## Reed-Solomon over GF(2⁸) (R422)

/-- Bytes of a unit. -/
abbrev rsUnit : Nat := 65536

/-- Multiply every byte by a constant. -/
def rsScale (c : Byte) (b : Bytes) : Bytes := b.map (gf256Mul c)

/-- The sum of a list of units, each scaled by the power of g = 2 that goes with it. -/
def rsSum : List (Byte × Bytes) → Bytes
  | [] => List.replicate rsUnit 0
  | (c, b) :: l => xorBytes (rsScale c b) (rsSum l)

/-- P of data units by role. -/
def rsP (data : List (Nat × Bytes)) : Bytes := rsSum (data.map fun e => (1, e.2))

/-- Q of data units by role. -/
def rsQ (data : List (Nat × Bytes)) : Bytes := rsSum (data.map fun e => (gf256Pow 2 e.1, e.2))

/-- The data unit of role `a` out of units by role, with at most one other unit missing; `k` data units. -/
def rsData (k : Nat) (have_ : Nat → Option Bytes) (a : Nat) : Option Bytes :=
  match have_ a with
  | some b => some b
  | none =>
    let data := (List.range k).filterMap fun j => (have_ j).map fun b => (j, b)
    let missing := (List.range k).filter fun j => (have_ j).isNone
    match missing, have_ k, have_ (k + 1) with
    | [_], some p, _ => some (xorBytes p (rsP data))
    | [_], none, some q => some (rsScale (gf256Inv (gf256Pow 2 a)) (xorBytes q (rsQ data)))
    | [x, y], some p, some q =>
      let b := if a = x then y else x
      let pxy := xorBytes p (rsP data)
      let qxy := xorBytes q (rsQ data)
      some (rsScale (gf256Inv (gf256Pow 2 a ^^^ gf256Pow 2 b)) (xorBytes (rsScale (gf256Pow 2 b) pxy) qxy))
    | _, _, _ => none

/-- The unit of any role. -/
def rsRole (k : Nat) (have_ : Nat → Option Bytes) (role : Nat) : Option Bytes :=
  if role < k then rsData k have_ role
  else match have_ role with
    | some b => some b
    | none =>
      let data := (List.range k).filterMap fun j => (rsData k have_ j).map fun b => (j, b)
      if data.length < k then none else some (if role = k then rsP data else rsQ data)

/-- Member that holds a role of a stripe (R422). -/
def rsMember (g stripe role : Nat) : Nat := (role + stripe) % g

/-- A unit with its trailer (R423). -/
def rsStored (group stripe gen role : Nat) (unit : Bytes) : Bytes :=
  let t := leBytes 4 group ++ leBytes 5 stripe ++ leBytes 4 gen ++ leBytes 1 role ++ List.replicate 46 0
  unit ++ t ++ leBytes 4 (crc32c (unit ++ t)).toNat

/-- GEN of a stored unit. DEDUCED: log entry 101. -/
def rsGen (b : Bytes) : Nat := leAt b (rsUnit + 9) 4

/-- A stored unit whose CRC holds. -/
def rsGood (b : Bytes) : Bool := b.length == rsUnit + 64 && leAt b (rsUnit + 60) 4 == (crc32c (b.take (rsUnit + 60))).toNat

/-- A holder takes a unit into the slot GEN mod 2 of a stripe (R423). DEDUCED: log entry 101. -/
def State.storeShard (s : State) (group stripe member : Nat) (b : Bytes) : State :=
  let keep := s.fab.shards.filter fun x => !(x.group == group && x.stripe == stripe && x.member == member && rsGen x.bytes % 2 == rsGen b % 2)
  { s with fab := { s.fab with shards := keep ++ [⟨group, stripe, member, b⟩] } }

/-- A Reed-Solomon engine in service: the stripe work of a die whose engine is retired is served by another's (Table 17-4). -/
def State.rsEngine (s : State) (jd : Nat) : Bool :=
  decide (jd < s.jdCount) && (List.range s.jdCount).any fun j => !s.retired (unitId 12 j)

/-- RS_ENCODE: the parity units of a stripe's data, and each unit with its trailer at the holders that acknowledge it (R423). -/
def State.rsEncode (s : State) (jd group stripe gen : Nat) (data : List Bytes) (acked : List Bool) : State :=
  let k := data.length
  let g := k + 2
  if !s.rsEngine jd || decide (g < 8) || decide (64 < g) then s
  else
    let units := (List.range k).map fun j => (j, bytesAt (data.getD j []) 0 rsUnit)
    let all := units ++ [(k, rsP units), (k + 1, rsQ units)]
    let ok := fun (role : Nat) => acked.getD (rsMember g stripe role) false
    let s := all.foldl (fun (s : State) u =>
      if ok u.1 then s.storeShard group stripe (rsMember g stripe u.1) (rsStored group stripe gen u.1 u.2) else s) s
    if all.all fun u => ok u.1 then s.count JUG_RSDONE_ENCODED else s

/-- Generations among stored units, highest first. DEDUCED: log entry 101. -/
def rsGens (units : List (Nat × Bytes)) : List Nat := sortBy (fun a b => decide (b < a)) (units.map fun u => rsGen u.2).eraseDups

/-- RS_RECONSTRUCT: the unit of a role out of the units that the members return (R424). DESIGN CHOICE (log entry 41): a DECODE_SHORT is logged as a FAULT
entry of class CHECK for the engine, PATTERN the group and ADDR the stripe. DEDUCED: log entry 101. -/
def State.rsReconstruct (s : State) (jd group stripe : Nat) (units : List (Option Bytes)) (role : Nat) : State :=
  let g := units.length
  let k := g - 2
  if !s.rsEngine jd || decide (g < 8) || decide (64 < g) || decide (g ≤ role) then s
  else
    let read := (List.range g).filterMap fun m => (units.getD m none).map fun b => ((m + g - stripe % g) % g, b)
    let good := read.filter fun u => rsGood u.2
    let s := s.count JUG_RSFAIL_BADUNIT (read.length - good.length)
    match (rsGens good).find? fun n => decide (k ≤ good.countP fun u => rsGen u.2 == n) with
    | none => (s.faultRecord (unitId 12 jd) .check 1 group 0xFF stripe).count JUG_RSFAIL_SHORT
    | some n =>
      let have_ := fun (r : Nat) => (good.find? fun u => u.1 == r && rsGen u.2 == n).map fun u => u.2.take rsUnit
      match rsRole k have_ role with
      | some b => (s.storeShard group stripe (rsMember g stripe role) (rsStored group stripe n role b)).count JUG_RSDONE_REBUILT
      | none => s

/-- SPARE_ASSIGN: this device, the spare of a group, takes the place of a member; RS_RECONSTRUCT makes that member's role of every
stripe (R424). -/
def State.spareAssign (s : State) (group members member : Nat) : State :=
  if 8 ≤ members ∧ members ≤ 64 ∧ member < members then { s with fab := { s.fab with spares := mapSet s.fab.spares group (members, member) } } else s

-- ## JOB_BIND (R403, R536)

/-- Classes that a slice holds, as a mask: slice 0 holds those of 1 to 15 that no tenant holds (R526). DEDUCED: log entry 102. -/
def State.sliceClasses (s : State) (sl : Nat) : Nat :=
  if sl = 0 then 0xFFFE &&& (0xFFFF ^^^ (mapVals s.nv.slices).foldl (fun m e => m ||| e.classes) 0)
  else (mapGet s.nv.slices sl).elim 0 fun e => e.classes

/-- What a job takes in its slice's package memory: its message ring and its page array (R403). -/
def jobBytes (msgs : Bool) (pages : Nat) : Nat := (if msgs then 2 ^ 21 else 0) + roundUp (8 * pages) (2 ^ 21)

/-- A job is charged for what it takes; none when the slice's package memory cannot hold it. -/
def State.chargeJob (s : State) (job sl : Nat) (msgs : Bool) (pages : Nat) : Option State :=
  let s := s.discharge (.job job)
  let n := jobBytes msgs pages
  let s := s.pressure sl n
  if n ≤ s.free sl 2 then some (s.charge (.job job) sl 2 n) else none

/-- The command and its JOB field, for JOB_BIND with or without UNBIND. -/
def State.jobCmd (s : State) (r seq : Nat) (unbind : Bool) : Option Cmd :=
  (s.running r seq 0x0038).filter fun c => bitOf (c.par 35 1) 1 == unbind

/-- The checks of R536. -/
def State.jobStatus (s : State) (c : Cmd) (unbind : Bool) : Option Nat :=
  let job := c.par 32 2
  let tc := c.par 34 1
  firstStatus [(!c.unusedZero [(32, 4)] || decide (4 ≤ c.par 35 1) || decide (job = 0) || decide (job = 0xFFFF) ||
      (!unbind && (decide (tc = 0) || decide (15 < tc) || !bitOf (s.sliceClasses c.slice) tc)), stLIMIT),
    ((mapGet s.jobs job).elim false (fun j => j.slice != c.slice), stUNITTAKEN)]

/-- JOB_BIND. A rebind writes the entry anew and keeps the messages of a ring it keeps (DEDUCED, log entry 102). -/
def State.jobBind (s : State) (r seq : Nat) : State :=
  match s.jobCmd r seq false with
  | none => s
  | some c =>
    match s.jobStatus c false with
    | some st => s.refuse c st
    | none =>
      let job := c.par 32 2
      let msg := bitOf (c.par 35 1) 0
      match s.chargeJob job c.slice msg 0 with
      | none => (s.count MEM_BUFSHORT_COUNT).refuse c stBUFFERSHORT
      | some s =>
        let old := (mapGet s.jobs job).bind fun j => j.msgs
        let j : Job := { slice := c.slice, tc := c.par 34 1, pages := 0, entries := [], msgs := if msg then some (old.getD []) else none }
        ({ s with jobs := mapSet s.jobs job j }).finish c stOK

/-- JOB_UNBIND: JOB_BIND with UNBIND clears VALID. -/
def State.jobUnbind (s : State) (r seq : Nat) : State :=
  match s.jobCmd r seq true with
  | none => s
  | some c =>
    match s.jobStatus c true with
    | some st => s.refuse c st
    | none => ({ s.discharge (.job (c.par 32 2)) with jobs := mapErase s.jobs (c.par 32 2) }).finish c stOK

-- ## EXPORT (R404, R465)

/-- A page record (Table 15-10). -/
structure PageRec where
  handle : Nat
  name : Nat
  alloc : Nat
  perm : Nat
  zero : Nat
  page : Nat
  deriving DecidableEq, Repr

/-- The page records of a payload. -/
def pageRecs (b : Bytes) (n : Nat) : List PageRec :=
  (List.range n).map fun i =>
    let o := 24 * i
    { handle := leAt b o 8, name := leAt b (o + 8) 8, alloc := leAt b (o + 16) 2, perm := leAt b (o + 18) 1, zero := leAt b (o + 19) 1,
      page := leAt b (o + 20) 4 }

/-- The allocation that a page record names. -/
def State.recordAlloc (s : State) (sl : Nat) (p : PageRec) : Option (Nat × Alloc) :=
  if p.name ≠ 0 then (if p.alloc = 0 then s.named sl p.name else none)
  else match (mapGet s.consists p.handle).filter fun k => k.slice == sl with
    | some k =>
      if 1 ≤ p.alloc ∧ p.alloc ≤ 0xFFC then (((mapGet k.allocs p.alloc).bind List.head?).bind fun id => (s.alloc id).map fun a => (id, a)) else none
    | none => none

/-- Check 3 of R465. -/
def State.recordBad (s : State) (sl : Nat) (p : PageRec) : Bool :=
  decide (p.handle = 0) == decide (p.name = 0) ||
  match s.recordAlloc sl p with
  | none => true
  | some (_, a) =>
    a.flags.isLocal || a.flags.window || decide (ceilDiv a.size (2 ^ 21) ≤ p.page) || (bitOf p.perm 2 && !(a.flags.hot || a.flags.warm)) ||
    (bitOf p.perm 3 && decide (p.perm % 8 ≠ 0))

/-- Write the page entry of window page `w`, or clear it. -/
def State.mapPage (s : State) (sl w : Nat) (p : PageRec) (m : KMap PageEntry) : KMap PageEntry :=
  match s.recordAlloc sl p with
  | some (id, _) =>
    if bitOf p.perm 3 then mapErase m w
    else mapSet m w { alloc := id, page := p.page, r := bitOf p.perm 0, w := bitOf p.perm 1, atom := bitOf p.perm 2 }
  | none => m

/-- EXPORT. DEDUCED: log entry 102. -/
def State.exportPages (s : State) (r seq : Nat) : State :=
  match s.running r seq 0x0039 with
  | none => s
  | some c =>
    let job := c.par 32 2
    let resize := bitOf (c.par 34 1) 0
    let first := c.par 40 4
    let n := c.par 44 4
    let j := (mapGet s.jobs job).filter fun j => j.slice == c.slice
    let pages := if resize then c.par 36 4 else j.elim (first + n) fun j => j.pages
    let recs := pageRecs (s.payload c) n
    match firstStatus [(!c.unusedZero [(32, 3), (36, 12)] || decide (1 < c.par 34 1) || decide (c.paylen ≠ 24 * n) ||
          (resize && decide (524288 < c.par 36 4)) || decide (pages < first + n) || recs.any (fun p => decide (16 ≤ p.perm) || decide (p.zero ≠ 0)),
          stLIMIT), (j.isNone, stNOACCESS), (recs.any (s.recordBad c.slice), stLIMIT)], j with
    | some st, _ => s.refuse c st
    | none, none => s
    | none, some j =>
      match s.chargeJob job c.slice j.msgs.isSome pages with
      | none => (s.count MEM_BUFSHORT_COUNT).refuse c stBUFFERSHORT
      | some s' =>
        let kept := mapFilter j.entries fun w _ => decide (w < pages)
        let m := (List.range n).foldl (fun (m : KMap PageEntry) i => match recs[i]? with | some p => s.mapPage c.slice (first + i) p m | none => m) kept
        ({ s' with jobs := mapSet s'.jobs job { j with pages := pages, entries := m } }).finish c stOK

end Sys2Proof.Machine
end

