-- ==== Sys2Proof/Machine/Resets.lean ====
section
/-! DEFINITION. Ports and their training (R394, R484, R495, R579, R589) and the partial resets (R492 to R497). -/

namespace Sys2Proof.Machine

-- ## Ports

/-- Junction die of a port: Jugan ports 0 to 7, CCL ports 8 and 9 (R393, R444). -/
def portDie (p : Nat) : Nat := if p < 8 then p / 2 else p - 8

/-- The unit of lane `l` of a port (Table 17-2). -/
def laneUnit (p l : Nat) : Nat := if p < 8 then unitId 9 (4 * p + l) else unitId 10 (4 * (p - 8) + l)

/-- The crossing of a port. -/
def portCrossing (p : Nat) : Crossing := if p < 8 then ⟨.jugan, p⟩ else ⟨.ccl, p - 8⟩

/-- The port exists in the variant. -/
def State.hasPort (s : State) (p : Nat) : Bool := if p < 8 then decide (p < s.jugPorts) else decide (p < 10)

/-- STATE of a port: 0 DOWN, 1 TRAINING, 2 UP. -/
def State.portState (s : State) (p : Nat) : Nat := if p < 8 then s.fld JUG_PORT_STATE p else s.fld CMD_CCL_STATE (p - 8)

/-- Set STATE of a port, and the lanes in use of a Jugan port. -/
def State.setPortState (s : State) (p st lanes : Nat) : State :=
  if p < 8 then (s.setFld JUG_PORT_STATE st p).setFld JUG_PORT_LANES lanes p else s.setFld CMD_CCL_STATE st (p - 8)

/-- The port may train: start-up has aligned it, its reference runs, and a CCL port has its pigtail. -/
def State.mayTrain (s : State) (p : Nat) : Bool :=
  s.hasPort p && decide (phTrain ≤ s.phase) && decide (s.phase ≤ phReady) && s.isAligned (portCrossing p) &&
  s.pins.refclk156.getD (portDie p) false && (decide (p < 8) || s.pins.pigtail.getD (p - 8) false)

/-- The widest width of R394 that a mask of usable lanes allows: 4 lanes, lanes 0–1, lanes 2–3, or the lowest lane.
DESIGN CHOICE: log entry 28. -/
def widestLanes (ok : Nat) : Nat :=
  if ok % 16 = 15 then 15
  else if ok % 4 = 3 then 3
  else if ok / 4 % 4 = 3 then 12
  else match onesFrom 4 0 ok with
    | l :: _ => 2 ^ l
    | [] => 0

/-- A lane's training ends: a failure counts, and the third in a row retires the lane (Table 17-3). DESIGN CHOICE: log entry 28. -/
def State.laneTrained (s : State) (u : Nat) (ok : Bool) : State :=
  if s.retired u then s
  else if ok then { s with stm := { s.stm with laneFails := mapErase s.stm.laneFails u } }
  else
    let n := mapGetD s.stm.laneFails u 0 + 1
    let s := { s with stm := { s.stm with laneFails := mapSet s.stm.laneFails u n } }
    if 3 ≤ n then s.retireUnit u .permanent 8 else s

/-- Packets of a port's queues go back to wait for another port. DEDUCED: log entry 29. -/
def State.requeue (s : State) (p : Nat) : State :=
  let x := s.port p
  let bs := x.queues.flatMap fun e => e.2.map fun q => q.bytes
  ({ s with fab := { s.fab with out := bs ++ s.fab.out } }).setPort p { x with queues := [], sending := none }

/-- A link that starts anew: SEQ 0, no credits yet, nothing to replay (R484). -/
def Port.fresh (x : Port) : Port :=
  { x with sending := none, txSeq := 0, rxSeq := 4095, acked := 4095, linkCredit := [], owed := [], replay := [], rxSlots := [] }

/-- One training of a port with what its far end and its lanes show (R484, R394); virtual time starts at 0 (R432). A port whose far end does not answer stays
TRAINING; one without a usable lane is DOWN. A CCL port needs its four lanes. DESIGN CHOICE: log entry 28. -/
def State.trainPort (s : State) (p : Nat) (farEnd : Bool) (lanesOk : BitVec 4) : State :=
  if !farEnd then s.setPortState p 1 0
  else
    let s := (List.range 4).foldl (fun (s : State) l => s.laneTrained (laneUnit p l) (lanesOk.getLsbD l)) s
    let usable := maskOf ((List.range 4).filter fun l => lanesOk.getLsbD l && !s.retired (laneUnit p l))
    let width := if p < 8 then widestLanes usable else if usable = 15 then 15 else 0
    if width = 0 then s.setPortState p 0 0
    else
      let s := s.setPortState p 2 width
      if p < 8 then s.setPort p { (s.port p).fresh with creditAt := s.clock.mono, vtime := 0, maxFinish := 0 } else s

/-- PORT_TRAINING: a port that is DOWN trains (R484). -/
def State.portTraining (s : State) (p : Nat) (farEnd : Bool) (lanesOk : BitVec 4) : State :=
  if s.mayTrain p && s.portState p == 0 then s.trainPort p farEnd lanesOk else s

/-- PORT_TRAINING_REPEAT: every 1 s while the far end does not answer (R484). -/
def State.portTrainingRepeat (s : State) (p : Nat) (farEnd : Bool) (lanesOk : BitVec 4) : State :=
  if s.mayTrain p && decide (s.portState p < 2) then s.trainPort p farEnd lanesOk else s

/-- A port goes DOWN; its packets wait for another port. DEDUCED: log entry 29. -/
def State.portDown (s : State) (p : Nat) : State :=
  let s := s.setPortState p 0 0
  if p < 8 ∧ (mapGet s.ports p).isSome = true then
    let s := s.requeue p
    s.setPort p (s.port p).fresh
  else s

/-- PORT_LINK_LOSS: a port that is UP loses its far end or its signal (R484). -/
def State.portLinkLoss (s : State) (p : Nat) : State := if s.hasPort p && s.portState p == 2 then s.portDown p else s

/-- The ports of Junction die `j`. -/
def diePorts (j : Nat) : List Nat := if j < 4 then [2 * j, 2 * j + 1] ++ (if j < 2 then [8 + j] else []) else []

/-- REFCLK156_LOSS: the ports of die `j` go DOWN (R589). -/
def State.refclk156Loss (s : State) (j : Nat) : State :=
  let s := { s with pins := { s.pins with refclk156 := s.pins.refclk156.set j false } }
  (diePorts j).foldl (fun (s : State) p => if s.hasPort p && decide (s.portState p ≠ 0) then s.portDown p else s) s

/-- REFCLK156_RETURN: the ports of die `j` begin to retrain (R589). -/
def State.refclk156Return (s : State) (j : Nat) : State :=
  let s := { s with pins := { s.pins with refclk156 := s.pins.refclk156.set j true } }
  (diePorts j).foldl (fun (s : State) p => if s.mayTrain p && s.portState p == 0 then s.setPortState p 1 0 else s) s

/-- PIGTAIL_FITTED: the CCL port whose receptacle takes the pigtail trains (R579). -/
def State.pigtailFitted (s : State) (k : Nat) (farEnd : Bool) (lanesOk : BitVec 4) : State :=
  if s.pins.pigtail.getD k true then s
  else
    let s := { s with pins := { s.pins with pigtail := s.pins.pigtail.set k true } }
    if s.mayTrain (8 + k) then s.trainPort (8 + k) farEnd lanesOk else s

/-- Steps 1 to 3 of R495: the port stops, its replay buffer and credits go, virtual time and credits return to 0, it retrains. -/
def State.retrain (s : State) (p : Nat) (farEnd : Bool) (lanesOk : BitVec 4) : State :=
  let s := (s.portDown p).count GLB_PRESET_PORT
  let s := if p < 8 then s.setPort p { Port.blank with cbsLate := (s.port p).cbsLate, creditAt := s.clock.mono } else s
  if s.mayTrain p then s.trainPort p farEnd lanesOk else s

/-- LANE_RETIRE_RETRAIN: a port with a retired lane in use retrains at the widest width without it (R394, Table 16-5).
DESIGN CHOICE: log entry 30. -/
def State.laneRetireRetrain (s : State) (p : Nat) (lanesOk : BitVec 4) : State :=
  let inUse := if p < 8 then s.fld JUG_PORT_LANES p else 15
  if s.hasPort p && s.portState p == 2 && (List.range 4).any (fun l => bitOf inUse l && s.retired (laneUnit p l)) then s.retrain p true lanesOk
  else s

-- ## Partial resets (R492 to R497)

/-- The accepted request for a partial reset of a kind and a target. DEDUCED: log entry 31. -/
def State.resetJob (s : State) (kind target : Nat) : Option ResetJob := s.stm.resetJobs.find? fun j => j.kind == kind && j.target == target

/-- A partial reset completes: its request is answered with a status (R492). -/
def State.resetDone (s : State) (j : ResetJob) (status : Nat) : State :=
  let s := { s with stm := { s.stm with resetJobs := s.stm.resetJobs.filter fun k => k.kind != j.kind || k.target != j.target } }
  s.mgmtSend (s.mgmtReply 2 j.reqid status j.counter [] true)

/-- Realignment of a crossing in a reset, with the attempts that fail: the crossing stays aligned, or fails its third attempt (R479, R480). -/
def State.realign (s : State) (x : Crossing) (fails : Nat) : State × Bool :=
  let s := s.count GLB_XALIGN_RETRIES (min fails 2)
  if 3 ≤ fails then
    let s := { s with boot := { s.boot with aligned := s.boot.aligned.filter fun e => e.1 != x } }
    (s.crossingFailed x, false)
  else (s, true)

/-- PORT_RESET (R495). DEDUCED: log entry 31. -/
def State.portReset (s : State) (p alignFails : Nat) (farEnd : Bool) (lanesOk : BitVec 4) : State :=
  match s.resetJob 3 p with
  | none => s
  | some j =>
    let (s, _) := (s.portDown p).realign (portCrossing p) alignFails
    (s.retrain p farEnd lanesOk).resetDone j stOK

/-- FRAME_RESET: once no run holds the frame, its store, banks, registers and tally slots are zero (R494); a frame that no run holds keeps
nothing else. DEDUCED: log entries 31, 111. -/
def State.frameReset (s : State) (f : Nat) : State :=
  match s.resetJob 2 f with
  | none => s
  | some j =>
    if (mapGet s.frames f).isSome then s
    else (s.count GLB_PRESET_FRAME).resetDone j stOK

/-- A command of the slice that a slice reset ends: every one but a critical command that has started (R493). -/
def sliceEnds (sl : Nat) (c : Cmd) : Bool :=
  c.slice == sl && c.ring != mgmtRing && (c.stage == .consumed || (c.stage == .running && !opcodeCritical c.opcode))

/-- Step 2 of R493: runs, walks, calls and commands of the slice end with SLICE_RESET. DESIGN CHOICE: log entry 32. -/
def State.endSlice (s : State) (sl : Nat) : State :=
  let s := (s.runs.filter fun e => e.2.slice == sl).foldl (fun (s : State) e => s.endRun e.1 stSLICERESET) s
  let ending := (mapVals s.cmds).filter (sliceEnds sl)
  let s := ending.foldl (fun (s : State) c => (s.discharge (.search (cmdKey c.ring c.seq))).finish c stSLICERESET) s
  { s with queries := mapFilter s.queries fun k _ => !ending.any fun c => cmdKey c.ring c.seq == k }

/-- Step 3 of R493: what the slice opened closes, its consists unload, its bindings go. DESIGN CHOICE: log entry 32. -/
def State.closeSlice (s : State) (sl : Nat) : State :=
  let s := (s.indexes.filter fun e => e.2.slice == sl).foldl (fun (s : State) e => s.dropIndex e.1) s
  let s := (s.tables.filter fun e => e.2.slice == sl).foldl (fun (s : State) e => { s.discharge (.table e.1) with tables := mapErase s.tables e.1 }) s
  let s := (s.seqs.filter fun e => e.2.slice == sl).foldl (fun (s : State) e =>
    { s.discharge (.seq e.1) with seqs := mapErase s.seqs e.1, poison := s.poison.filter fun p => p.alloc != seqArea e.1 }) s
  let s := (s.jobs.filter fun e => e.2.slice == sl).foldl (fun (s : State) e =>
    { s.discharge (.job e.1) with jobs := mapErase s.jobs e.1, fab := { s.fab with bars := mapErase s.fab.bars e.1 } }) s
  { s with consists := mapFilter s.consists fun _ k => k.slice != sl }

/-- Name of the telemetry allocation of a tenant slice (R554). -/
def telemetryName : Nat := 0x454C4554

/-- Step 4 of R493: every allocation without PERSIST is cleared, logged and freed. DESIGN CHOICE (log entry 32): the telemetry allocation, which the
Stationmaster keeps rewriting, is cleared and stays. -/
def State.clearSlice (s : State) (sl : Nat) : State :=
  let held := s.charges.filter fun c => c.slice == sl
  let s := held.foldl (fun (s : State) (c : Charge) => s.clearRecord s.now 0 sl 0xFF 0 5 c.bytes 0) s
  let s := { s with charges := s.charges.filter fun c => c.slice != sl }
  (s.allocs.filter fun e => e.2.slice == sl).foldl (fun (s : State) e =>
    if e.2.flags.persist then s.setAlloc e.1 e.2.keep
    else
      let s := s.clearAlloc e.2 5
      if e.2.name = telemetryName ∧ sl ≠ 0 then s.setAlloc e.1 { e.2.keep with mem := [] } else s.freeAlloc e.1) s

/-- A SLICE entry of the log (Table 19-3). DESIGN CHOICE: log entry 32. -/
def State.logSlice (s : State) (sl event : Nat) : State :=
  s.logAppend ltSlice (leBytes 1 sl ++ leBytes 1 event ++ leBytes 2 (mapGetD s.nv.gens sl 0))

/-- The generation of a slice advances by one, modulo 2¹⁶ (R551). -/
def State.nextGen (s : State) (sl : Nat) : State :=
  { s with nv := { s.nv with gens := mapSet s.nv.gens sl ((mapGetD s.nv.gens sl 0 + 1) % 2 ^ 16) } }

/-- Steps 1 to 4 of R493. -/
def State.emptySlice (s : State) (sl : Nat) : State :=
  let s := { s with rings := mapMap s.rings fun r x => if s.fld CMD_RINGCFG_SLICE r = sl then { x with staging := none } else x }
  ((s.endSlice sl).closeSlice sl).clearSlice sl

/-- Step 6 of R493: the ended commands get their records. -/
def State.passEnded (s : State) (sl : Nat) : State :=
  ((mapVals s.cmds).filter fun c => c.slice == sl && c.ring != mgmtRing && c.stage == .finished).foldl (fun (s : State) c =>
    match s.cmd c.ring c.seq with
    | some d => s.complete d
    | none => s) s

/-- SLICE_RESET (R493). DEDUCED: log entry 31. -/
def State.sliceReset (s : State) (sl : Nat) : State :=
  match s.resetJob 1 sl with
  | none => s
  | some j =>
    let s := ((s.emptySlice sl).nextGen sl).logSlice sl 4
    ((s.passEnded sl).count GLB_PRESET_SLICE).resetDone j stOK

-- ## Depot reset (R496)

/-- Step 2 of R496: program units under way finish, both journals are flushed. -/
def State.settleDepot (s : State) (j : Nat) : State :=
  [0, 1].foldl (fun (s : State) l =>
    let x := (s.depot j).lane l
    let s := (x.batches.filter fun e => e.2.programming).foldl (fun (s : State) e => s.batchProgramDone j l e.1) s
    if x.serves || x.st == .suspect then s.flushNow j l else s) s

/-- Realign and retrain the channels in service of Junction die `j`. -/
def State.retrainChannels (s : State) (j : Nat) (alignFails : List (Nat × Nat)) (untrained : List Nat) : State :=
  ((List.range 16).filter fun ch => (s.depot j).channelUp ch).foldl (fun (s : State) ch =>
    let fails := ((alignFails.find? fun e => e.1 == ch).map Prod.snd).getD 0
    let (s, ok) := s.realign ⟨.nand, 16 * j + ch⟩ fails
    if ok && untrained.contains ch then s.retireUnit (unitId 8 (16 * j + ch)) .permanent 8 else s) s

/-- Some namespace other than slice 0's stands on the Depot. DESIGN CHOICE: log entry 33. -/
def Depot.hasNamespaces (d : Depot) : Bool := d.namespaces.any fun e => e.1 != 255

/-- The dies in service of a Depot, as channel and die. -/
def Depot.allDies (d : Depot) : List (Nat × Nat) :=
  ((List.range 256).map fun i => (i / 16, i % 16)).filter fun e => d.dieUp e.1 e.2

/-- A format, and the namespace of slice 0 over every die (R496). DESIGN CHOICE: log entry 33. -/
def State.formatDepot (s : State) (j : Nat) : State :=
  let d := (s.depot j).format j (s.fld DEP_CFG_PSLC j) (s.fld DEP_CFG_OP j)
  let s := s.setDepot j d
  (s.namespaceCreate j 255 d.logical 0 d.allDies)

/-- The writes that waited are taken up again. -/
def State.rewrite (s : State) (j : Nat) (ws : List OpenSlot) : State := ws.foldl (fun (s : State) w => s.depotWrite j w.ns w.unit w.block) s

/-- DEPOT_RESET: with FORMAT refused with BUSY while a namespace exists, otherwise flush, realign, retrain, format if asked, rebuild both
lanes, serve what waited (R496). DEDUCED: log entry 31. DESIGN CHOICE: log entry 33. -/
def State.depotReset (s : State) (j : Nat) (alignFails : List (Nat × Nat)) (untrained bad : List Nat) (failedDies : List (Nat × Nat)) (ms : Nat) :
    State :=
  match s.resetJob 4 j with
  | none => s
  | some job =>
    if job.format && (s.depot j).hasNamespaces then s.resetDone job stBUSY
    else
      let s := s.settleDepot j
      let waiting := [0, 1].flatMap fun l => ((s.depot j).lane l).batch
      let s := s.retrainChannels j alignFails untrained
      let s := if job.format then s.formatDepot j else s
      let s := s.setDepot j { s.depot j with rebuildMs := 0 }
      let s := [0, 1].foldl (fun (s : State) l => s.rebuild j l bad failedDies ms) s
      let s := (s.rewrite j (if job.format then [] else waiting)).count GLB_PRESET_DEPOT
      (if job.format then s.refill j else s).resetDone job stOK

end Sys2Proof.Machine
end

