-- ==== Sys2Proof/Machine/Registers.lean ====
section
/-! DEFINITION. Reading and writing the control window (R12 to R20): the registers that the state of a unit computes, the access codes,
and the registers whose writes have a behaviour of their own. -/

namespace Sys2Proof.Machine

-- ## Finding a register (R12, R15)

/-- The indices of a register array that an offset names. -/
def RegRow.index (r : RegRow) (off : Nat) : Option (Nat × Nat) :=
  if off < r.base then none
  else
    let d := off - r.base
    let i := if r.s1 = 0 then 0 else d / r.s1
    let e := d - r.s1 * i
    let j := if r.s2 = 0 then 0 else e / r.s2
    if i < r.n1 ∧ j < r.n2 ∧ e = r.s2 * j then some (i, j) else none

/-- The register at an offset. -/
def findReg (off : Nat) : Option (RegName × Nat × Nat) :=
  RegName.all.findSome? fun n => (n.row.index off).map fun x => (n, x.1, x.2)

/-- The offset lies in a block that the variant lacks (R15). -/
def State.missingBlock (s : State) (off : Nat) : Bool := s.variant == 2 && decide (0x00A0000 ≤ off) && decide (off < 0x00C0000)

/-- The status words CMD_STATUS[r] (Table 15-5). -/
def inStatus (off : Nat) : Bool := decide (0x0021000 ≤ off) && decide (off < 0x0022000)

-- ## Registers computed from the units' state

/-- A value for a field, or the one kept: lowest bit, width, value. -/
abbrev Overlay := List (Nat × Nat × Nat)

/-- A whole register. -/
def whole (v : Nat) : Overlay := [(0, 64, v)]

/-- The saturated value of a field of `w` bits. -/
def satField (w v : Nat) : Nat := min v (2 ^ w - 1)

/-- A Bool as a bit. -/
def bit (b : Bool) : Nat := if b then 1 else 0

/-- The registers of the index that SRC_IDXSEL names (R84, R124). -/
def State.indexOverlay (s : State) (n : RegName) : Overlay :=
  match s.selIndex with
  | none => whole 0
  | some (k, x) =>
    let pins := s.indexPins k
    let a := x.buf x.act
    let o := x.buf x.other
    match n with
    | .srcIdxinfo0 =>
      [(0, 1, 1), (1, 2, x.skw), (3, 1, bit x.boardrec), (4, 7, x.degree), (16, 11, x.entries.length), (32, 32, x.imgver)]
    | .srcIdxinfo1 => [(0, 32, x.points), (32, 32, x.capacity)]
    | .srcIdxinfo2 =>
      [(0, 32, pins.countP fun v => v == x.imgver), (32, 32, if x.prevOk then pins.countP fun v => v == x.prev else 0)]
    | .srcIdxinfo3 => [(0, 16, recordSize x.skw x.degree), (16, 16, 1), (32, 32, x.tablever)]
    | .srcTkt => [(0, 48, x.counter)]
    | .srcTktmin => [(0, 48, s.rdmin k x)]
    | .srcTkthold => [(0, 48, x.floor)]
    | .srcSiding =>
      [(0, 17, a.slots.length), (17, 17, o.slots.length), (34, 1, x.act),
       (35, 2, match o.st with | .sealed => 1 | .retiring => 2 | _ => 0)]
    | .srcRepair => [(0, 16, x.rate)]
    | .srcRepairpos => [(0, 32, x.repair.next), (32, 32, x.repair.passes)]
    | .srcReclaim => [(0, 32, x.pendingReclaim), (32, 32, x.freeIds)]
    | _ => []

/-- The registers of the table that MEM_TBLSEL names (R176). -/
def State.tableOverlay (s : State) (n : RegName) : Overlay :=
  match mapGet s.tables (s.fld MEM_TBLSEL_TABLE) with
  | none => whole 0
  | some t =>
    match n with
    | .memTblinfo0 =>
      [(0, 1, 1), (1, 1, t.rfmt), (2, 2, t.opt), (4, 1, t.statefmt), (5, 1, bit t.repl), (6, 1, t.shard), (16, 13, t.w),
       (32, 9, t.devs.length), (41, 8, t.mine)]
    | .memTblrows => [(0, 41, t.rows)]
    | .memTblepoch => [(0, 32, t.tepoch), (32, 16, t.moves.length), (48, 16, t.dir.countP fun d => d.place.isNone && d.ee.isNone)]
    | .memTblload => whole t.lastTotal
    | .memTblmigr => [(0, 32, t.migrDone), (32, 32, t.migrAbandoned)]
    | .memTbldir => [(0, 32, t.dir.length), (32, 32, t.dirFull)]
    | _ => []

/-- STATE of a lane (Table 12-12). -/
def laneCode : LaneState → Nat
  | .absent => 0 | .rebuild => 1 | .ready => 2 | .degraded => 3 | .suspect => 4 | .retired => 5

/-- WEAR: mean erase count of the native blocks in service, in permille of the endurance (Table 12-10).
DESIGN CHOICE: log entry 12. -/
def Depot.wear (d : Depot) : Nat :=
  let total := sumNat (d.channels.map fun e =>
    sumNat ((List.range e.2.dies).map fun k => if d.dieUp e.1 k then e.2.blocks else 0)) - sumNat ([0, 1].map fun l => (d.bufferUsed l).length)
  let erases := sumNat ([0, 1].map fun l =>
    sumNat (((d.lane l).blockIds.filter fun b => !((d.lane l).block b).pslc && d.dieUp (8 * l + b.ch) b.die).map fun b => ((d.lane l).block b).erases))
  let endurance := (d.channels.head?.map fun e => e.2.endurance).getD 0
  if total * endurance = 0 then 0 else 1000 * erases / (total * endurance)

/-- PSLCFILL of both lanes: percent of the buffer that holds unfolded data (Table 12-10). DESIGN CHOICE: log entry 12. -/
def Depot.fill (d : Depot) : Nat :=
  let cap := d.bufferBlocks 0 + d.bufferBlocks 1
  let used := sumNat ([0, 1].map fun l => ((d.bufferUsed l).filter fun b => !(d.validSlots l b).isEmpty).length)
  if cap = 0 then 0 else min 100 (100 * used / cap)

/-- The registers of the Depot of Junction die `j` (Table 12-12); the health fields read 0 until rebuild restores them (R392). -/
def State.depotOverlay (s : State) (n : RegName) (j b : Nat) : Overlay :=
  let d := s.depot j
  let h := d.health
  let up := (d.lane 0).st != .absent || (d.lane 1).st != .absent
  let epoch := fun (l : Nat) => if (d.lane l).st = .absent then 0 else (d.lane l).sbEpoch
  match n with
  | .depState => [(0, 3, laneCode (d.lane 0).st), (8, 16, maskOf ((List.range 16).filter d.channelUp)), (32, 32, epoch 0)]
  | .depState1 => [(0, 3, laneCode (d.lane 1).st)]
  | .depEpoch1 => [(0, 32, epoch 1)]
  | .depFlush => whole (d.lane 0).flush
  | .depFlush1 => whole (d.lane 1).flush
  | .depCap => if up then [(0, 32, d.raw * 4096 / 10 ^ 9), (32, 32, d.logical * 4096 / 10 ^ 9)] else whole 0
  | .depHealth => if up then [(0, 10, d.spare), (16, 10, satField 10 d.wear), (32, 7, d.fill)] else whole 0
  | .depRderr => if up then [(0, 32, h.retry), (32, 32, h.soft)] else whole 0
  | .depUncorr => if up then [(0, 32, h.uncorr), (32, 32, h.lost)] else whole 0
  | .depCorrhist => if up then whole (h.hist.getD b 0) else whole 0
  | .depTemp =>
    if up then
      [(0, 12, ofSigned h.tmin 12), (12, 12, ofSigned h.tmax 12), (24, 16, satField 16 (h.s70 / 3600)), (40, 12, satField 12 (h.s85 / 3600)),
       (52, 12, satField 12 (h.s95 / 3600))]
    else whole 0
  | .depRetire =>
    [(0, 16, satField 16 d.retiredBlocks), (16, 8, satField 8 d.deadDies.length), (24, 5, d.deadChannels.length),
     (32, 16, satField 16 d.progFails), (48, 16, satField 16 d.eraseFails)]
  | .depRebuild => [(0, 32, d.rebuildMs), (32, 16, d.discarded), (48, 16, d.reconstructed)]
  | _ => []

/-- Dies of a slice that are in service, by index of Table 17-2. -/
def State.sliceDies (s : State) (sl : Nat) : List Nat :=
  (List.range 1024).filter fun i =>
    (s.depot (i / 256)).dieUp (i / 16 % 16) (i % 16) && !s.retired (unitId 7 i) && s.sliceHolds sl Composition.nandDies i

/-- Junction dies of a slice: those it holds whole; for slice 0 those that no tenant holds (R556). -/
def State.sliceJdies (s : State) (sl : Nat) : Nat := maskOf ((List.range s.jdCount).filter fun j => s.sliceHolds sl Composition.jdies j)

/-- STATE of SEC_SLICEINFO for a slice and its entry. -/
def State.sliceCode (s : State) (sl : Nat) (e : SliceEntry) : Nat :=
  if (mapGet s.stm.changing sl).isSome then 2 else match e.st with | .inService => 1 | .destroying => 3

/-- The registers of the slice that SEC_SLICESEL or PWR_SLICESEL names (R556, R576); 0 for an absent slice. -/
def State.sliceOverlay (s : State) (n : RegName) : Overlay :=
  let sl := if n = .pwrSlice then s.fld PWR_SLICESEL_SLICE else s.fld SEC_SLICESEL_SLICE
  let e := (mapGet s.nv.slices sl).or (mapGet s.stm.changing sl)
  if sl ≠ 0 ∧ e.isNone = true then whole 0
  else match n with
    | .secSliceinfo =>
      [(0, 2, e.elim 1 fun x => s.sliceCode sl x), (2, 1, e.elim 0 fun x => bit x.signReq), (3, 1, e.elim 0 fun x => bit x.borrow),
       (4, 4, s.sliceJdies sl), (8, 8, (s.sliceFrames sl).length), (16, 16, mapGetD s.nv.gens sl 0), (32, 16, s.sliceClasses sl),
       (48, 16, s.budget sl)]
    | .secSlicemem =>
      [(0, 10, (s.slicePcs sl).length), (16, 8, (s.sliceRanks sl).length), (24, 12, (s.sliceGranules sl).length),
       (48, 11, (s.sliceDies sl).length)]
    | .pwrSlice =>
      [(0, 16, s.budget sl), (16, 16, s.sliceDraw sl), (32, 6, s.pace sl), (40, 16, mapGetD s.stm.borrowed sl 0)]
    | _ => []

/-- STATE of a frame (Table 17-11). -/
def State.frameState (s : State) (f : Nat) : Nat :=
  if !s.frameEnabled f then 0
  else if s.nv.retired.any fun e => e.unit == unitId 1 f && e.cls == .quarantine then 4
  else if s.retired (unitId 1 f) then 3
  else if (mapGet s.stm.pendingFrames f).isSome then 2
  else 1

/-- The fault registers (Table 17-11). -/
def State.faultOverlay (s : State) (n : RegName) (i : Nat) : Overlay :=
  let f := s.fld FLT_FRAMESEL_FRAME
  let retired := fun (t : Nat) => (s.retiredOf t).length
  match n with
  | .fltRetired0 =>
    [(0, 8, satField 8 (retired 1)), (8, 8, satField 8 ((s.retiredOf 1).countP fun e => e.cls == .quarantine)), (16, 8, satField 8 (retired 2)),
     (24, 8, satField 8 (retired 3)), (32, 16, satField 16 (retired 4)), (48, 16, satField 16 s.stm.retiring.length)]
  | .fltRetired1 =>
    [(0, 16, satField 16 (retired 5)), (16, 8, satField 8 (retired 6)), (24, 8, satField 8 (retired 9)), (32, 4, satField 4 (retired 10)),
     (40, 5, satField 5 (retired 11)), (48, 3, satField 3 (retired 12))]
  | .fltCells =>
    (List.range 8).map fun c => (8 * c, 8, satField 8 ((s.cellEvents f).countP fun e => e.bin == i && e.cls == c))
  | .fltFramestate =>
    (0, 3, s.frameState f) :: (mapGet s.stm.lastChecks f).elim [] fun c => [(16, 16, c.pattern), (32, 16, ofSigned c.temp 16), (48, 16, c.vcore)]
  | .fltRecseq => [(0, 32, s.stm.lastFaultSeq)]
  | .fltStrag => [(39, 1, bit (decide (64 ≤ s.fld FLT_STRAG_BARS) && decide (s.fld FLT_CFG_STRAGTHR ≤ s.fld FLT_STRAG_LAST64)))]
  | .fltOwn => [(0, 32, s.owns.length)]
  | .fltTakeover => [(0, 16, s.nv.takeovers)]
  | _ => []

/-- The Stationmaster's registers (Table 19-6). -/
def State.stmOverlay (s : State) (n : RegName) : Overlay :=
  match n with
  | .stmState => [(4, 1, bit s.nv.trial.isSome)]
  | .stmRollback => [(0, 32, s.nv.rollback), (32, 32, s.stm.verified.elim 0 fun v => v.version)]
  | .stmStage => [(0, 2, if s.stm.verified.isSome then 2 else if s.stm.stage.isSome then 1 else 0)]
  | .stmTrial => s.nv.trial.elim [] fun t => [(16, 16, s.fld STM_TRIAL_TRIALSEC - s.stm.trialPassed), (32, 2, t.starts)]
  | .stmLog => [(0, 32, s.stm.logHead), (32, 32, s.stm.logTail)]
  | .pwrTrip => [(0, 16, s.nv.tripCount), (16, 8, s.nv.tripDiode)]
  | .secKeystate => [(0, 1, bit s.nv.ock.isSome), (32, 32, s.nv.rotations)]
  | .secClear => [(48, 1, bit (!s.stm.clearing.isEmpty))]
  | .secAttctr => whole s.nv.attCtr
  | _ => []

/-- The registers of ports, shapers and timetables (Tables 13-9 and 14-3). -/
def State.fabricOverlay (s : State) (n : RegName) (i j : Nat) : Overlay :=
  let t := s.timetable i
  match n with
  | .jugLease =>
    [(0, 32, if s.fld JUG_EPOCH_STATE = 1 then s.fab.leaseAt.elim 0 fun g => (g + leaseNs - s.clock.mono) / 10 ^ 6 else 0)]
  | .jugPort => [(6, 4, maskOf ((List.range 4).filter fun l => s.retired (laneUnit i l)))]
  | .shpCredit => [(0, 32, ofSigned (mapGetD (s.port i).credit j 0 / 8000) 32)]
  | .shpVtime => whole (s.port i).vtime
  | .shpTtstat => [(0, 8, t.entry), (8, 9, t.oper.elim 0 fun o => o.entries.length), (17, 1, bit t.pend.isSome)]
  | .shpTtbase => whole (t.oper.elim 0 fun o => o.base)
  | .shpTtcycle => [(0, 32, t.oper.elim 0 TimeList.cycle)]
  | .shpTtoper => (t.oper.bind fun o => o.entries[j]?).elim [] fun e => [(0, 32, e.1), (32, 16, e.2)]
  | _ => []

/-- What the state of the units gives for a register, field by field; fields it does not name read as they are stored.
DESIGN CHOICE: log entries 6, 12. -/
def State.overlay (s : State) (n : RegName) (i j : Nat) : Overlay :=
  match n with
  | .srcIdxinfo0 | .srcIdxinfo1 | .srcIdxinfo2 | .srcIdxinfo3 | .srcTkt | .srcTktmin | .srcTkthold | .srcSiding | .srcRepair
  | .srcRepairpos | .srcReclaim => s.indexOverlay n
  | .memTblinfo0 | .memTblrows | .memTblepoch | .memTblload | .memTblmigr | .memTbldir => s.tableOverlay n
  | .depState | .depState1 | .depEpoch1 | .depFlush | .depFlush1 | .depCap | .depHealth | .depRderr | .depUncorr | .depCorrhist | .depTemp
  | .depRetire | .depRebuild => s.depotOverlay n i j
  | .secSliceinfo | .secSlicemem | .pwrSlice => s.sliceOverlay n
  | .fltRetired0 | .fltRetired1 | .fltCells | .fltFramestate | .fltRecseq | .fltStrag | .fltOwn | .fltTakeover => s.faultOverlay n i
  | .stmState | .stmRollback | .stmStage | .stmTrial | .stmLog | .pwrTrip | .secKeystate | .secClear | .secAttctr => s.stmOverlay n
  | .jugLease | .jugPort | .shpCredit | .shpVtime | .shpTtstat | .shpTtbase | .shpTtcycle | .shpTtoper => s.fabricOverlay n i j
  | .memTiercap => whole (s.tierCap i)
  | .memTierused => whole (s.tierUsed i)
  | .memPoison => [(0, 32, s.poison.length)]
  | .cmpFramemap => whole (maskOf ((List.range 64).filter fun k => s.frameInService (64 * i + k)))
  | .cmpGeominfo =>
    [(0, 4, s.fld GLB_GRADE_GEOM), (8, 8, if s.fld GLB_GRADE_FRAMES = 0 then 0 else 10 + s.fld GLB_GRADE_GEOM),
     (16, 8, (List.range 192).countP s.frameInService)]
  | .cmpConsists =>
    [(0, 16, s.consists.length), (16, 16, s.runs.countP fun e => !e.2.phys.isEmpty), (32, 16, s.runs.countP fun e => e.2.phys.isEmpty)]
  | .cmpFramebusy => whole (maskOf ((List.range 64).filter fun k => (mapGet s.frames (64 * i + k)).isSome))
  | .cmdRingcfg => [(1, 1, bit (s.drained i))]
  | .glbBoot => [(32, 32, s.nv.bootCount)]
  | .glbTrain =>
    [(16, 16, maskOf ((List.range 16).filter fun c => (mapGet s.boot.dimms c).isSome && (List.range 8).any fun r => decide (0 < s.rankBytes (8 * c + r)))),
     (32, 10, sumNat (s.boot.hbmDone.map fun k => (List.range 64).countP fun p => s.pcUp (64 * k + p)))]
  | _ => []

/-- A register that reads 0 and takes no write: one of class 0 (R443), or of a port or a timetable list that the PN-880H lacks (R426, R435,
R443). DEDUCED (log entry 123): a write to one of those on the PN-880H is discarded, as it could never be read. -/
def State.absentReg (s : State) (n : RegName) (i j : Nat) : Bool :=
  match n with
  | .shpWeight | .shpCbs | .shpCredit | .shpJpol | .shpJdrop => decide (j = 0) || decide (s.jugPorts ≤ i)
  | .shpVtime | .jugPort | .jugFec | .jugLinkretx => decide (s.jugPorts ≤ i)
  | .shpTtstat | .shpTtbase | .shpTtcycle | .shpTtswitch | .shpTtadmin | .shpTtoper => decide (s.jugPorts ≤ i) && decide (i < 8)
  | _ => false

/-- What a read of a register returns (R16): its stored value under what the units show; write-only fields read 0.
DEDUCED: log entry 123. -/
def State.readNamed (s : State) (n : RegName) (i j : Nat) : Word :=
  if s.absentReg n i j then 0 else
  let v := n.row.fields.foldl (fun v f => if f.acc = .wo then setBitsOf v f.lo f.width 0 else v) (s.reg n i j).toNat
  BitVec.ofNat 64 ((s.overlay n i j).foldl (fun v f => setBitsOf v f.1 f.2.1 f.2.2) v)

/-- The 64-bit word at an aligned offset (R14, R15). DEDUCED: log entry 8. -/
def State.readWord (s : State) (off : Nat) : Word :=
  if 0x0100000 ≤ off then s.readRegion off
  else if inStatus off then BitVec.ofNat 64 (leAt (s.statusBytes ((off - 0x0021000) / 64)) (off % 64) 8)
  else if s.missingBlock off then 0
  else match findReg off with
    | some (n, i, j) => s.readNamed n i j
    | none => 0

/-- A read of a single register that R14 allows: 1, 2, 4 or 8 bytes, naturally aligned. -/
def readSingle (off len : Nat) : Bool := [1, 2, 4, 8].contains len && off % len == 0

/-- A block read that R14 allows over CCL. -/
def readBlock (off len : Nat) : Bool :=
  decide (16 ≤ len) && decide (len ≤ 256) && len % 8 == 0 && off % 8 == 0 && decide (off / 256 = (off + len - 1) / 256)

/-- The bytes at an offset, as the words that hold them read. -/
def State.windowBytes (s : State) (off len : Nat) : Bytes :=
  let first := off / 8
  bytesAt ((List.range ((off + len + 7) / 8 - first)).flatMap fun k => leBytes 8 (s.readWord (8 * (first + k))).toNat) (off % 8) len

/-- A read over CCL: the bytes, or all ones with the access counted (R14, R446). -/
def State.readCcl (s : State) (off len : Nat) : Bytes × State :=
  if (readSingle off len || readBlock off len) && decide (off + len ≤ 0x4000000) then (s.windowBytes off len, s)
  else (List.replicate (min len 256) 0xFF, s.badRead off)

-- ## Writing (R14 to R19)

/-- One field of a write by its access code: the register's next value, whether the value was kept under R19, and whether SEALED
discarded it. -/
def Field.write (f : Field) (isSealed : Bool) (old data : Nat) : Nat :=
  let o := bitsOf old f.lo f.width
  let v := bitsOf data f.lo f.width
  match f.acc with
  | .ro | .wo => o
  | .rw => if f.min ≤ v ∧ v ≤ f.max then v else o
  | .w1c => o &&& (o ^^^ v)
  | .w1s => o ||| v
  | .rws => if isSealed then o else v

/-- The value of a register after a write of `data` over `old`. -/
def mergeWrite (fs : List Field) (isSealed : Bool) (old data : Nat) : Nat :=
  fs.foldl (fun v f => setBitsOf v f.lo f.width (f.write isSealed old data)) old

/-- Some field of the write holds a value that R19 keeps out. -/
def keepsPrevious (fs : List Field) (data : Nat) : Bool :=
  fs.any fun f => f.acc == .rw && !(decide (f.min ≤ bitsOf data f.lo f.width) && decide (bitsOf data f.lo f.width ≤ f.max))

/-- Pairs of fields that a rule ties: below the other, or both keep their values (R357, R392). DESIGN CHOICE: log entry 9. -/
def pairRule (n : RegName) (v : Nat) : Option (Nat × Nat × Bool) :=
  match n with
  | .memTiercfg => some (16, 32, decide (bitsOf v 16 16 ≤ bitsOf v 32 16))
  | .depRdcfg => some (0, 64, decide (bitsOf v 32 32 ≤ bitsOf v 0 32))
  | _ => none

/-- A write under the access codes alone (R16, R19): the value, and whether the write is counted. DESIGN CHOICE: log entry 9. -/
def State.mergeNamed (s : State) (n : RegName) (i j : Nat) (data : Word) : Nat × Bool :=
  let old := (s.reg n i j).toNat
  let v := mergeWrite n.row.fields s.sealed old data.toNat
  let kept := keepsPrevious n.row.fields data.toNat
  match pairRule n v with
  | some (lo, w, true) => (setBitsOf v lo w (bitsOf old lo w), true)
  | _ => (v, kept)

/-- The write of a register with no behaviour of its own. -/
def State.writePlain (s : State) (n : RegName) (i j : Nat) (data : Word) : State :=
  let (v, bad) := s.mergeNamed n i j data
  let s := if s.sealed && n.row.fields.any fun f => f.acc == .rws then s.count SEC_SEALVIOL_COUNT else s
  let s := s.setReg n i j (BitVec.ofNat 64 v)
  if bad then s.badWrite (regOffset n i j) else s

/-- A write of SEC_OPKEY[i] (R543). -/
def State.writeOpkey (s : State) (i : Nat) (data : Word) : State :=
  if s.sealed || s.nv.ock.isSome then s.count SEC_SEALVIOL_COUNT
  else { s with stm := { s.stm with opkey := s.stm.opkey.set i (some data) } }

/-- A write of SEC_KEYCTL (R543): COMMIT provisions OCK from the four words and sets every domain's counter to 0 with fresh marks. -/
def State.writeKeyctl (s : State) (data : Word) : State :=
  if data.toNat % 2 = 0 then s
  else
    let words := s.stm.opkey.filterMap id
    if s.sealed || s.nv.ock.isSome || decide (words.length < 4) then s.count SEC_SEALVIOL_COUNT
    else
      let key := words.flatMap fun w => leBytes 8 w.toNat
      let s := { s with nv := { s.nv with ock := some key, marks := [2 ^ 20, 2 ^ 20, 2 ^ 20] } }
      [0, 1, 2].foldl (fun (s : State) d => s.setFld CMD_CRITCTR_LAST 0 d) s

/-- The log entry of a number: programmed or still waiting. -/
def State.logEntryAt (s : State) (seq : Nat) : Bytes :=
  match s.stm.logPending.find? fun e => e.seq == seq with
  | some e => e.bytes
  | none => mapGetD s.nv.log seq []

/-- A write of STM_LOGSEL fills the window with the 32 entries from SEQ onward (R566). -/
def State.writeLogsel (s : State) (data : Word) : State :=
  let seq := data.toNat % 2 ^ 32
  let gone := decide (seq < s.stm.logTail)
  let s := (s.setFld STM_LOGSEL_SEQ seq).setFld STM_LOGSEL_GONE (bit gone)
  let bytes := if gone then [] else (List.range 32).flatMap fun k => bytesAt (s.logEntryAt (seq + k)) 0 128
  (List.range 512).foldl (fun (s : State) i => s.setReg .stmLogwin i 0 (BitVec.ofNat 64 (leAt bytes (8 * i) 8))) s

/-- A write of a policer's register (R430). -/
def State.writePolicer (s : State) (n : RegName) (i j key : Nat) (data : Word) : State :=
  let s := s.writePlain n i j data
  s.fillBucket key (bitsOf (s.reg n i j).toNat 24 24)

/-- A write of SHP_CBS (R434). -/
def State.writeCbs (s : State) (p c : Nat) (data : Word) : State :=
  let (v, bad) := s.mergeNamed .shpCbs p c data
  let s := s.writeShaper p c (BitVec.ofNat 64 (setBitsOf v 1 1 (bitsOf data.toNat 1 1)))
  if bad then s.badWrite (regOffset .shpCbs p c) else s

/-- A write of CMD_RINGAREA or CMD_DATAAREA: one that would change it while EN is 1 is discarded and counted (R450).
DEDUCED: log entry 129. -/
def State.writeArea (s : State) (n : RegName) (r : Nat) (data : Word) : State :=
  if s.ringEn r && decide ((s.mergeNamed n r 0 data).1 ≠ (s.reg n r 0).toNat) then s.badWrite (regOffset n r 0) else s.writePlain n r 0 data

/-- A 64-bit write at an aligned offset of the control window. DEDUCED: log entries 13, 123. -/
def State.writeWord (s : State) (off : Nat) (data : Word) : State :=
  if 0x0100000 ≤ off then s.writeRegion off data
  else if inStatus off then s
  else if s.missingBlock off then s.badWrite off
  else match findReg off with
    | none => s.badWrite off
    | some (n, i, j) =>
      if s.absentReg n i j then s else
      match n with
      | .cmdRingcfg => s.writeRingcfg i data
      | .cmdRingarea => s.writeArea .cmdRingarea i data
      | .cmdDataarea => s.writeArea .cmdDataarea i data
      | .srcTkthold => s.writeTkthold data
      | .srcRepair => s.writeRepair data
      | .secOpkey => s.writeOpkey i data
      | .secKeyctl => s.writeKeyctl data
      | .stmLogsel => s.writeLogsel data
      | .shpCbs => s.writeCbs i j data
      | .shpJpol => s.writePolicer .shpJpol i j (16 * i + j) data
      | .shpCclpol => s.writePolicer .shpCclpol i 0 (128 + i) data
      | .jugRcache =>
        let s := s.writePlain .jugRcache 0 0 data
        { s with nv := { s.nv with rcache := s.fld JUG_RCACHE_SIZE } }
      | _ => s.writePlain n i j data

/-- Writes to the control window are applied (R473). DEDUCED: log entry 10. -/
def State.writable (s : State) : Bool := decide (phAlign ≤ s.phase) && decide (s.phase ≤ phReady)

/-- A write to a register by a command that names it, at the register's offset. -/
def State.writeAt (s : State) (n : RegName) (i j : Nat) (data : Word) : State :=
  if s.writable && decide (i < n.row.n1) && decide (j < n.row.n2) then s.writeWord (regOffset n i j) data else s

/-- The agent may write: the Stationmaster once it runs, a CCL port while it is UP (R473). DEDUCED: log entry 10. -/
def State.sourceOk (s : State) : Source → Bool
  | .ccl0 => s.writable && s.fld CMD_CCL_STATE 0 == 2
  | .ccl1 => s.writable && s.fld CMD_CCL_STATE 1 == 2
  | .stationmaster => s.writable

/-- REGISTER_WRITE (R14 to R19): a write that is narrower than 64 bits or misaligned is discarded and counted.
DESIGN CHOICE: log entry 11. -/
def State.registerWrite (s : State) (src : Source) (off len : Nat) (data : Word) : State :=
  if !s.sourceOk src ∨ 0x4000000 ≤ off then s
  else if len ≠ 8 ∨ off % 8 ≠ 0 then s.badWrite off
  else s.writeWord off data

-- ## CCL packets (R446, R447)

/-- The fields of a WRITE are well formed (Table 15-1). -/
def cclWriteOk (off len : Nat) : Bool :=
  decide (off < 2 ^ 26) && decide (8 ≤ len) && decide (len ≤ 256) && len % 8 == 0 && off % 8 == 0 && decide (off / 256 = (off + len - 1) / 256)

/-- A port that carries control packets: UP, with start-up far enough (R473). DEDUCED: log entry 10. -/
def State.cclUp (s : State) (k : Nat) : Bool := decide (k < 2) && s.writable && s.fld CMD_CCL_STATE k == 2

/-- CCL_WRITE: a WRITE packet is policed and applied as LEN / 8 writes, in ascending address (R429, R446, R447).
DESIGN CHOICE: log entries 11, 120. -/
def State.cclWrite (s : State) (k : Nat) (pkt : Bytes) (dt : Nat) : State :=
  let s := s.tick dt
  let off := leAt pkt 4 4
  let len := leAt pkt 8 2
  if !s.cclUp k then s
  else if leAt pkt 0 1 ≠ 1 then (if leAt pkt 0 1 = 2 then s else s.setFld CMD_CCL_BADPKT (satField 16 (s.fld CMD_CCL_BADPKT k + 1)) k)
  else if !cclWriteOk off len then s.badWrite (off % 2 ^ 26)
  else
    let (ok, s) := if 0x0100000 ≤ off then s.admitCcl k len else (true, s)
    if !ok then s
    else (List.range (len / 8)).foldl (fun (s : State) i => s.writeWord (off + 8 * i) (BitVec.ofNat 64 (leAt pkt (16 + 8 * i) 8))) s

/-- CCL_READ: a READ packet is answered with a READ_REPLY (R14, R446, R447). DESIGN CHOICE: log entries 11, 120. -/
def State.cclRead (s : State) (k : Nat) (pkt : Bytes) : State :=
  if !s.cclUp k ∨ leAt pkt 0 1 = 1 then s
  else if leAt pkt 0 1 ≠ 2 then s.setFld CMD_CCL_BADPKT (satField 16 (s.fld CMD_CCL_BADPKT k + 1)) k
  else
    let off := leAt pkt 4 4
    let len := leAt pkt 8 2
    let (bs, s) := if off < 2 ^ 26 then s.readCcl off len else (List.replicate (min len 256) 0xFF, s.badRead (off % 2 ^ 26))
    let reply := leBytes 1 0x82 ++ [0] ++ bytesAt pkt 2 2 ++ leBytes 4 off ++ leBytes 2 len ++ List.replicate 6 0 ++ bs
    { s with cclOut := s.cclOut ++ [(k, reply)] }

end Sys2Proof.Machine
end

