-- ==== Sys2Proof/Machine/ControlCommands.lean ====
section
/-! DEFINITION. The meanings of the commands of registers, control packets and rings (chapters 0 and 15), one for each row of the table. -/

namespace Sys2Proof.Machine

/-- CCL_WRITE (R447): A CCL WRITE packet is applied as LEN/8 64-bit register writes in ascending address. -/
def execCclWrite (port : Nat) (packet : Bytes) (dt : Nat) (s : State) : Outcome := .next (s.cclWrite port packet dt)

/-- CCL_READ (R447): A CCL READ packet returns the addressed words in a READ_REPLY once earlier requests of the port are applied. -/
def execCclRead (port : Nat) (packet : Bytes) (s : State) : Outcome := .next (s.cclRead port packet)

/-- REGISTER_WRITE (R16): A write to a register with no behaviour of its own is applied under its access code. -/
def execRegisterWrite (src : Source) (offset len : Nat) (data : Word) (s : State) : Outcome := .next (s.registerWrite src offset len data)

/-- SEAL (R16): writing 1 to SEC_SEAL.SEALED fixes every RWS field until the next power-on or device reset. -/
def execSeal (data : Word) (s : State) : Outcome := .next (if bitOf data.toNat 0 then s.writeAt .secSeal 0 0 data else s)

/-- RING_ENABLE (R450): A write setting CMD_RINGCFG.EN checks the areas and DRAINED, clears the status word and looks for sequence 1. -/
def execRingEnable (r : Nat) (data : Word) (s : State) : Outcome := .next (if bitOf data.toNat 0 then s.writeAt .cmdRingcfg r 0 data else s)

/-- RING_DISABLE (R450): A write clearing EN stops consumption on the ring; DRAINED is set when the last consumed command completes. -/
def execRingDisable (r : Nat) (data : Word) (s : State) : Outcome := .next (if bitOf data.toNat 0 then s else s.writeAt .cmdRingcfg r 0 data)

/-- OPKEY_WRITE (R543): A write to SEC_OPKEY[i] stores one quarter of the operator command key while none is provisioned. -/
def execOpkeyWrite (i : Nat) (data : Word) (s : State) : Outcome := .next (s.writeAt .secOpkey i 0 data)

/-- KEY_COMMIT (R543): COMMIT wraps and stores the operator command key, sets OCK to SET and resets every domain counter to 0. -/
def execKeyCommit (data : Word) (s : State) : Outcome := .next (if bitOf data.toNat 0 then s.writeAt .secKeyctl 0 0 data else s)

/-- ISOL_WRITE (R537): A write to SEC_ISOL changes the channel closures, taking effect within 10 ms. -/
def execIsolWrite (data : Word) (s : State) : Outcome := .next (s.writeAt .secIsol 0 0 data)

/-- TKTHOLD_WRITE (R88): A write to SRC_TKTHOLD sets the ticket floor, keeping the previous value when the new one is below RDMIN. -/
def execTktholdWrite (data : Word) (s : State) : Outcome := .next (s.writeAt .srcTkthold 0 0 data)

/-- REPAIR_RATE_WRITE (R115): A write to SRC_REPAIR.RATE changes the repair rate at once; 0 pauses the pass and a later nonzero value resumes it. -/
def execRepairRateWrite (data : Word) (s : State) : Outcome := .next (s.writeAt .srcRepair 0 0 data)

/-- LOGSEL_WRITE (R566): A write of SEQ to STM_LOGSEL fills STM_LOGWIN with 32 log entries, or sets GONE. -/
def execLogselWrite (data : Word) (s : State) : Outcome := .next (s.writeAt .stmLogsel 0 0 data)

/-- POLICER_WRITE (R430): A write to SHP_JPOL or SHP_CCLPOL fills the bucket to the new BURST. -/
def execPolicerWrite (ccl : Bool) (port cls : Nat) (data : Word) (s : State) : Outcome := .next (if ccl then s.writeAt .shpCclpol port 0 data else s.writeAt .shpJpol port cls data)

/-- CBS_WRITE (R434): A write to SHP_CBS sets the class credit to 0, or to HICREDIT under FILL, at the end of any packet in progress. -/
def execCbsWrite (port cls : Nat) (data : Word) (s : State) : Outcome := .next (s.writeAt .shpCbs port cls data)

/-- WEIGHT_WRITE (R432): A write to SHP_WEIGHT applies to packets tagged after it. -/
def execWeightWrite (port cls : Nat) (data : Word) (s : State) : Outcome := .next (s.writeAt .shpWeight port cls data)

/-- RING_SCAN (R453): the device reads a ring's next header word and consumes each entry whose SEQ matches while room in flight remains. -/
def execRingScan (r : Nat) (dt : Nat) (s : State) : Outcome := .next (s.ringScan r dt)

/-- COMMAND_START (R454): A consumed command starts once the SERIAL, critical and load ordering rules allow it. -/
def execCommandStart (r seq : Nat) (s : State) : Outcome := .next (s.commandStart r seq)

/-- COMMAND_COMPLETE (R454): A command finishes: its completion record is written and COMPLETED advances over the run of finished commands. -/
def execCommandComplete (r seq : Nat) (dt : Nat) (s : State) : Outcome := .next (s.commandComplete r seq dt)

end Sys2Proof.Machine
end

