-- ==== Sys2Proof/Machine/Attest.lean ====
section
/-! DEFINITION. The attestation report (R547 to R549): the DER certificate of Table 18-7 and the configuration digest. -/

namespace Sys2Proof.Machine

-- ## DER

/-- A length in DER. -/
def derLen (n : Nat) : Bytes :=
  if n < 128 then [BitVec.ofNat 8 n] else BitVec.ofNat 8 (128 + (beBytes 9 n).length) :: beBytes 9 n

/-- An element with its tag and its contents. -/
def der (tag : Nat) (b : Bytes) : Bytes := BitVec.ofNat 8 tag :: derLen b.length ++ b

/-- SEQUENCE of elements. -/
def derSeq (l : List Bytes) : Bytes := der 0x30 l.flatten

/-- Contents of an INTEGER: big-endian two's complement of a natural number, as short as it goes. -/
def derNat (n : Nat) : Bytes :=
  match beBytes 9 n with
  | b :: bs => if 128 ≤ b.toNat then 0 :: b :: bs else b :: bs
  | [] => [0]

/-- INTEGER. -/
def derInt (n : Nat) : Bytes := der 2 (derNat n)

/-- ENUMERATED. -/
def derEnum (n : Nat) : Bytes := der 10 (derNat n)

/-- BOOLEAN. -/
def derBool (b : Bool) : Bytes := der 1 [if b then 0xFF else 0]

/-- BIT STRING of whole bytes. -/
def derBits (b : Bytes) : Bytes := der 3 (0 :: b)

/-- One arc of an object identifier in base 128, every byte but the last with bit 7 set. -/
def derArc : Nat → Nat → Bytes
  | 0, _ => []
  | fuel + 1, n => if n < 128 then [BitVec.ofNat 8 n] else (derArc fuel (n / 128)).map (· ||| 0x80) ++ [BitVec.ofNat 8 (n % 128)]

/-- OBJECT IDENTIFIER {comaxa} followed by further arcs (R548). -/
def derComaxa (tail : List Nat) : Bytes := der 6 (0x2B :: ([6, 1, 4, 1, 64901] ++ tail).flatMap (derArc 5))

/-- A distinguished name of one CN. DESIGN CHOICE (log entry 47): a UTF8String. -/
def derName (cn : Bytes) : Bytes := derSeq [der 0x31 (derSeq [der 6 [0x55, 0x04, 0x03], der 0x0C cn])]

/-- An upper-case hexadecimal digit. -/
def hexDigit (n : Nat) : Byte := if n < 10 then BitVec.ofNat 8 (48 + n) else BitVec.ofNat 8 (55 + n)

/-- DEVSERIAL: 16 upper-case hexadecimal digits (R548). -/
def devSerial (w : Word) : Bytes := (List.range 16).map fun i => hexDigit (w.toNat / 16 ^ (15 - i) % 16)

/-- A slice number in decimal. -/
def decimal (n : Nat) : Bytes := if n < 10 then [hexDigit n] else [hexDigit (n / 10 % 10), hexDigit (n % 10)]

-- ## The configuration digest (R549)

/-- The composition that a slice holds: a tenant's own, for slice 0 what no tenant holds, with retired units cleared. -/
def State.composition (s : State) (sl : Nat) : Composition :=
  let held := fun (f : Composition → Nat) (t n : Nat) => maskOf ((List.range n).filter fun i => s.sliceHolds sl f i && !s.retired (unitId t i))
  let gs := s.sliceGranules sl
  { frames := maskOf (s.sliceFrames sl), shunters := held Composition.shunters 2 128, selectors := held Composition.selectors 3 16,
    jdies := s.sliceJdies sl, granules := gs, pcs := maskOf (s.slicePcs sl), ranks := maskOf (s.sliceRanks sl),
    nandDies := maskOf (s.sliceDies sl),
    nsUnits := (List.range 4).map fun j => (s.sliceNs sl j).elim 0 fun n => (mapGet (s.depot j).namespaces n).elim 0 fun x => x.size }

/-- A composition as Table 18-3 lays it out. -/
def Composition.bytes (c : Composition) : Bytes :=
  leBytes 24 c.frames ++ leBytes 16 c.shunters ++ leBytes 2 c.selectors ++ leBytes 1 c.jdies ++ [0] ++
  leBytes 2 (c.granules.countP fun g => decide (g < 2048)) ++ leBytes 2 (c.granules.countP fun g => decide (2048 ≤ g)) ++
  leBytes 80 c.pcs ++ leBytes 16 c.ranks ++ leBytes 128 c.nandDies ++ (List.range 4).flatMap (fun j => leBytes 8 (c.nsUnits.getD j 0)) ++
  List.replicate 16 0

/-- Parameter bytes 32 to 37 of a slice and its composition. -/
def State.sliceRecord (s : State) (sl : Nat) : Bytes :=
  let e := mapGet s.nv.slices sl
  leBytes 1 sl ++ leBytes 1 (e.elim 0 fun x => bit x.signReq + 2 * bit x.borrow) ++ leBytes 2 (s.sliceClasses sl) ++
  leBytes 2 (s.budget sl) ++ (s.composition sl).bytes

/-- Every operative entry of timetable lists 0 to 8, in the layout of SHP_TTOPER. DESIGN CHOICE: log entry 47. -/
def State.ttEntries (s : State) : Bytes :=
  (List.range 9).flatMap fun l => ((s.timetable l).oper.elim [] TimeList.entries).flatMap fun e => leBytes 4 e.1 ++ leBytes 2 e.2 ++ [0, 0]

/-- SHP_WEIGHT, SHP_CBS and SHP_JPOL of each class that the slice holds, port by port. DESIGN CHOICE: log entry 47. -/
def State.shaperWords (s : State) (sl : Nat) : Bytes :=
  (List.range s.jugPorts).flatMap fun p => (onesFrom 16 0 (s.sliceClasses sl)).flatMap fun c =>
    [RegName.shpWeight, RegName.shpCbs, RegName.shpJpol].flatMap fun n => leBytes 8 (s.readNamed n p c).toNat

/-- KEYID of a slice's policy key, or zeros (R545, R549). -/
def State.keyId (s : State) (sl : Nat) : Bytes :=
  ((mapGet s.nv.slices sl).bind fun e => e.policyKey).elim (List.replicate 32 0) fun k => shake256 k 32

/-- configDigest of a report; SLICE 0xFF stands for a device-only report (R549). DESIGN CHOICE: log entry 47. -/
def State.configDigest (s : State) (sl : Nat) : Bytes :=
  let common := [RegName.glbGrade, RegName.secSeal, RegName.secIsol, RegName.secDebug, RegName.secTracemask].flatMap fun n =>
    leBytes 8 (s.readNamed n 0 0).toNat
  let rest :=
    if sl = 0xFF then
      (List.range 63).flatMap fun k => if (mapGet s.nv.slices (k + 1)).isSome then s.sliceRecord (k + 1) else List.replicate 326 0
    else s.sliceRecord sl ++ s.keyId sl ++ s.shaperWords sl
  shake256 (common ++ rest ++ s.ttEntries) 32

-- ## The certificate (R548)

/-- Seed of the attestation key (Table 18-5). -/
def attestSeed : Bytes := kmac256 deviceKey [] 32 "PN-880 attestation"

/-- The image that runs. -/
def State.runningImage (s : State) : FwSlot := s.nv.image (s.fld STM_STATE_SLOT)

/-- Extension {comaxa}.2.1: nonce, firmware, digest, grade, slice and time. DESIGN CHOICE (log entry 47): a device-only report gives generation 0. -/
def State.reportBody (s : State) (sl : Nat) (nonce : Bytes) : Bytes :=
  derSeq [der 4 nonce, der 4 s.runningImage.measurement, derInt s.runningImage.version, derInt s.nv.rollback, der 4 (s.configDigest sl),
    derEnum s.variant, derInt (s.fld GLB_GRADE_FRAMES), derEnum (s.fld GLB_GRADE_STEP), derInt (s.fld GLB_GRADE_GEOM),
    derInt (if sl = 0xFF then 255 else sl), derInt (if sl = 0xFF then 0 else mapGetD s.nv.gens sl 0), derBool s.clock.locked,
    derInt s.nv.bootCount]

/-- One critical extension. -/
def derExt (oid : List Nat) (b : Bytes) : Bytes := derSeq [derComaxa oid, derBool true, der 4 b]

/-- signature: FN-DSA-1024, parameters absent. -/
def derSigAlg : Bytes := derSeq [derComaxa [1, 1]]

/-- The part of the certificate that is signed. DESIGN CHOICE: log entry 47. -/
def State.reportTbs (s : State) (sl : Nat) (nonce : Bytes) : Bytes :=
  let dev := devSerial s.nv.record.serial
  let sec := s.now / 10 ^ 9
  derSeq [der 0xA0 (derInt 2), derInt s.nv.attCtr, derSigAlg, derName (ascii "PN-880 AK " ++ dev),
    derSeq [der 0x18 (Config.generalizedTime sec), der 0x18 (Config.generalizedTime (sec + 3600))],
    derName (ascii "PN-880 report " ++ dev ++ (if sl = 0xFF then [] else decimal sl)),
    derSeq [derSeq [derComaxa [1, 2]], derBits (Config.falconPublic attestSeed)],
    der 0xA3 (derSeq [derExt [2, 1] (s.reportBody sl nonce), derExt [2, 2] (derBool true)])]

/-- The certificate, signed with AK. -/
def State.certificate (s : State) (sl : Nat) (nonce : Bytes) : Bytes :=
  let tbs := s.reportTbs sl nonce
  derSeq [tbs, derSigAlg, derBits (Config.falconSign attestSeed tbs s.freeCtr)]

/-- SEC_ATTCTR rises by 1 before a report, with a new mark first when the stored one is reached (R468, R547). -/
def State.nextSerial (s : State) : State :=
  let n := s.nv.attCtr + 1
  { s with nv := { s.nv with attCtr := n, attMark := if s.nv.attMark ≤ n then n + 2 ^ 20 else s.nv.attMark } }

end Sys2Proof.Machine
end

