-- ==== Sys2Proof/Machine/Management.lean ====
section
/-! DEFINITION. The management port (R571 to R573), the event log's own events (R563 to R565), firmware updates (R567 to R571), the
standby and the takeover (R524, R557), and the station clock's sources (R575). -/

namespace Sys2Proof.Machine

-- ## Messages (R572)

/-- TYPE of a message. -/
def msgType (m : Bytes) : Nat := leAt m 4 1

/-- LEN of a message. -/
def msgLen (m : Bytes) : Nat := leAt m 6 2

/-- Payload of a message. -/
def msgPayload (m : Bytes) : Bytes := (m.drop 32).take (msgLen m)

/-- Types whose messages carry a tag (Table 19-5). -/
def msgTagged (typ : Nat) : Bool := [1, 2, 5, 6, 7].contains typ

/-- A request is well formed: header fields as R572 gives them, LEN bytes of payload, and a tag in tagged types. -/
def msgOk (m : Bytes) : Bool :=
  decide (32 ≤ m.length) && leAt m 0 4 == 0x4D545350 && leAt m 5 1 == 0 && decide (msgLen m ≤ 1280) && leAt m 12 4 == 0 && leAt m 24 8 == 0 &&
  m.length == 32 + msgLen m + (if msgTagged (msgType m) then 16 else 0)

/-- The management port works (R473); when no image was accepted it offers the recovery service only (R474). -/
def State.mgmtUp (s : State) : Bool :=
  decide (phBoot ≤ s.phase) && !(s.phase == phFailed && s.fld GLB_BOOT_FAILCODE == stBOOTIMAGE)

/-- Answer a request with a status and a payload; replies of tagged types carry the tag (R572). DESIGN CHOICE: log entry 46. -/
def State.answer (s : State) (m : Bytes) (status : Nat) (payload : Bytes := []) : State :=
  s.mgmtSend (s.mgmtReply (msgType m) (leAt m 8 4) status (leAt m 16 8) payload (msgTagged (msgType m)))

/-- A message is refused by the port and counted (R572). DESIGN CHOICE: log entry 46. -/
def State.refuseMsg (s : State) (m : Bytes) (status : Nat) : State := (s.count STM_MGMT_REFUSED).answer m status

/-- A message arrives: the link is up; a malformed one, or one whose tag or counter fails, is refused (R467, R572). True when it may act.
DESIGN CHOICE: log entry 46. -/
def State.receive (s : State) (m : Bytes) : Bool × State :=
  let s := s.setFld STM_MGMT_LINK 1
  if !msgOk m then (false, s.refuseMsg m stLIMIT)
  else if msgTagged (msgType m) then
    match s.critical 2 (leAt m 16 8) (m.take (m.length - 16)) (m.drop (m.length - 16)) "PN-880 management" with
    | (some st, s) => (false, s.refuseMsg m st)
    | (none, s) => (true, s)
  else (true, s)

/-- Requests of a type that the device queues (R572). -/
abbrev mgmtQueue : Nat := 16

/-- The entry of a COMMAND message. DESIGN CHOICE (log entry 46): the message's COUNTER takes the place of the entry's, and the entry's TAG is not used. -/
def msgEntry (m : Bytes) : Bytes :=
  let e := bytesAt (msgPayload m) 0 256
  e.take 24 ++ leBytes 8 (leAt m 16 8) ++ bytesAt e 32 208 ++ List.replicate 16 0

/-- A COMMAND message enters the queue as a command of ring 64. DESIGN CHOICE: log entry 46. -/
def State.takeCommand (s : State) (m : Bytes) : State :=
  let x := s.ring mgmtRing
  let c : Cmd := { ring := mgmtRing, seq := x.consumed + 1, slice := 0, entry := msgEntry m, mgmtPayload := (msgPayload m).drop 256,
                   reqid := leAt m 8 4, stage := .consumed, status := 0, count := 0, ticket := noTicket, handle := 0, outputs := [],
                   tadmit := s.now, accepted := false, noRecord := false, step := 0, since := 0, progress := 0, pcount := 0,
                   partialSeen := false, rekey := none }
  let s := s.setRing mgmtRing { x with consumed := x.consumed + 1 }
  match firstStatus [(c.badEntry || !opcodeCritical c.opcode || decide (c.paylen ≠ c.mgmtPayload.length), stLIMIT), (!c.crit, stBADTAG)] with
  | some st => s.refuseEntry c st
  | none => s.setCmd c

/-- MGMT_COMMAND: a COMMAND message; a message of a type that is no request is discarded and counted (R572, Table 19-5). -/
def State.mgmtCommand (s : State) (m : Bytes) : State :=
  if !s.mgmtUp then s
  else if [2, 3, 5, 6, 7].contains (msgType m) then s
  else if msgType m ≠ 1 then (s.setFld STM_MGMT_LINK 1).count STM_MGMT_REFUSED
  else
    match s.receive m with
    | (false, s) => s
    | (true, s) =>
      if msgLen m < 256 then s.refuseMsg m stLIMIT
      else if mgmtQueue ≤ (s.inFlight mgmtRing).length then s.refuseMsg m stBUSY
      else s.takeCommand m

/-- A message of one type that may act, with the state after its reception. -/
def State.request (s : State) (typ : Nat) (m : Bytes) : Bool × State :=
  if s.mgmtUp && msgType m == typ then s.receive m else (false, s)

-- ## Resets (R492)

/-- The target of a reset request exists (Table 16-6). -/
def State.resetTarget (s : State) (kind target : Nat) : Bool :=
  match kind with
  | 0 => true
  | 1 => decide (target = 0) || (decide (target < 64) && (mapGet s.nv.slices target).isSome)
  | 2 => s.frameEnabled target
  | 3 => s.hasPort target
  | _ => decide (target < s.jdCount)

/-- DEVICE_RESET_REQUEST: a RESET message. A DEVICE request is answered and then resets; any other is taken up and answered when its
reset completes (R492). DESIGN CHOICE: log entry 46. -/
def State.deviceResetRequest (s : State) (m : Bytes) : State :=
  match s.request 2 m with
  | (false, s) => s
  | (true, s) =>
    let p := msgPayload m
    let kind := leAt p 0 1
    let target := leAt p 2 2
    match firstStatus [(decide (p.length ≠ 8) || decide (4 < kind) || decide (1 < leAt p 1 1) || (decide (leAt p 1 1 = 1) && decide (kind ≠ 4)) ||
          decide (leAt p 4 4 ≠ 0) || !s.resetTarget kind target, stLIMIT),
        (decide (kind ≠ 0) && decide (s.phase ≠ phReady), stBUSY),
        (decide (kind ≠ 0) && ((s.resetJob kind target).isSome || decide (mgmtQueue ≤ s.stm.resetJobs.length)), stBUSY)] with
    | some st => s.answer m st
    | none =>
      if kind = 0 then (s.answer m stOK).deviceReset .request
      else { s with stm := { s.stm with
        resetJobs := s.stm.resetJobs ++ [ResetJob.mk kind target (decide (leAt p 1 1 = 1)) (leAt m 8 4) (leAt m 16 8)] } }

-- ## Attestation (R546, R547)

/-- ATTEST: refused, or a report on the state at the moment, under the next serial. -/
def State.attest (s : State) (m : Bytes) : State :=
  match s.request 3 m with
  | (false, s) => s
  | (true, s) =>
    let p := msgPayload m
    let sl := leAt p 0 1
    let n := leAt p 1 1
    match firstStatus [(decide (p.length ≠ 2 + n) || decide (n < 8) || decide (64 < n) || (decide (63 < sl) && decide (sl ≠ 0xFF)), stLIMIT),
        (decide (sl ≠ 0xFF) && (!s.sliceInService sl || decide (s.phase ≠ phReady)), stNOSLICE),
        (s.criticalBusy, stATTESTBUSY)] with
    | some st => (s.count SEC_ATTEST_REFUSED).answer m st
    | none =>
      let s := s.nextSerial
      let cert := s.certificate sl (p.drop 2)
      ({ s with freeCtr := s.freeCtr + 1 }.count SEC_ATTEST_SIGNED).answer m stOK cert

-- ## Faults, log and registers over the port (R572, R573)

/-- FAULT_ACK: the highest SEQ that the fault manager has received. -/
def State.faultAck (s : State) (m : Bytes) : State :=
  match s.request 5 m with
  | (false, s) => s
  | (true, s) =>
    if msgLen m ≠ 4 then s.refuseMsg m stLIMIT
    else { s with stm := { s.stm with faultAcked := max s.stm.faultAcked (leAt (msgPayload m) 0 4) } }

/-- The log entry of a number as LOGREAD and STM_LOGWIN show it: 0 below TAIL and above HEAD (R566). -/
def State.logShown (s : State) (seq : Nat) : Bytes :=
  if seq < s.stm.logTail then List.replicate 128 0 else bytesAt (s.logEntryAt seq) 0 128

/-- LOGREAD: 1 to 8 entries from a SEQ onward. -/
def State.logread (s : State) (m : Bytes) : State :=
  match s.request 6 m with
  | (false, s) => s
  | (true, s) =>
    let first := leAt (msgPayload m) 0 4
    let n := leAt (msgPayload m) 4 1
    if msgLen m ≠ 5 ∨ n < 1 ∨ 8 < n then s.refuseMsg m stLIMIT
    else s.answer m stOK ((List.range n).flatMap fun k => s.logShown (first + k))

/-- READREG: 1 to 64 register words below 0x010_0000, read under R14: a misaligned read answers all ones and is counted.
DESIGN CHOICE: log entry 46. -/
def State.readreg (s : State) (m : Bytes) : State :=
  match s.request 7 m with
  | (false, s) => s
  | (true, s) =>
    let off := leAt (msgPayload m) 0 4
    let n := leAt (msgPayload m) 4 1
    if msgLen m ≠ 5 ∨ n < 1 ∨ 64 < n ∨ 0x0100000 < off + 8 * n then s.refuseMsg m stLIMIT
    else if off % 8 ≠ 0 then (s.badRead off).answer m stOK (List.replicate (8 * n) 0xFF)
    else s.answer m stOK (s.windowBytes off (8 * n))

/-- Fault records in the log above a SEQ, in SEQ order. -/
def State.recordsAbove (s : State) (seq : Nat) : List Bytes :=
  let all := s.nv.log.map Prod.snd ++ s.stm.logPending.map fun e => e.bytes
  (all.filter fun b => leAt b 4 2 == ltFault && decide (seq < leAt b 0 4)).map fun b => bytesAt b 16 64

/-- FAULT_RESEND: every 100 ms, the records that no FAULT_ACK has reached (R573). DEDUCED: log entry 42. -/
def State.faultResend (s : State) : State :=
  if s.mgmtUp && !s.stm.takeoverWindow then (s.recordsAbove s.stm.faultAcked).foldl (fun (s : State) r => s.faultPush r) s else s

-- ## The log's own events (R563 to R565)

/-- LOG_APPEND: an entry of a type of Table 19-3; a FAULT entry is a fault record, whose SEQ is its entry's (R563), and is dropped beyond
the log's limit if its class is CORRECTED or TRANSIENT (R565). -/
def State.appendEntry (s : State) (typ : Nat) (body : Bytes) : State :=
  if s.phase = phPower ∨ typ = 0 ∨ 11 < typ then s
  else if typ = ltFault then
    let rec_ := bytesAt body 0 8 ++ leBytes 4 ((s.stm.logHead + 1) % 2 ^ 32) ++ bytesAt body 12 52
    if s.logFull && decide (leAt body 14 1 < 2) then s.logDrop else s.fileRecord (leAt body 23 1) rec_
  else s.logAppend typ body

/-- LOG_PROGRAM: the entries that wait are programmed (R564). -/
def State.logProgram (s : State) : State := if s.phase = phPower then s else s.programLog

/-- LOG_OVERFLOW: at the end of a second in which entries were dropped, one OVERFLOW entry records how many (R565). -/
def State.logOverflow (s : State) : State :=
  if s.stm.logDropped = 0 then s
  else
    let s := s.logAppend ltOverflow (leBytes 8 s.stm.logDropped)
    { s with stm := { s.stm with logDropped := 0 } }

-- ## Staging (R567, R568)

/-- A FIRMWARE entry of the log (Table 19-3). -/
def State.logFirmware (s : State) (action before after : Nat) : State :=
  s.logAppend ltFirmware (leBytes 1 action ++ List.replicate 3 0 ++ leBytes 4 before ++ leBytes 4 after ++ leBytes 4 s.nv.rollback)

/-- The header and the image of a slot as the boot ROM sees them (Table 19-4a, R474). DESIGN CHOICE: log entry 44. -/
def FwSlot.ofImage (b : Bytes) : FwSlot :=
  let m := bytesAt b 24 32
  { present := leAt b 0 4 == 0x4D545350 && leAt b 4 2 == 1 && leAt b 16 4 + 4096 == b.length, version := leAt b 8 4, floor := leAt b 12 4,
    variants := leAt b 20 4, measurement := m, measOk := shake256 (b.take 24 ++ b.drop 4096) 32 == m,
    sigOk := leAt b 56 2 == 1280 && Config.falconVerify Config.firmwareKey m (bytesAt b 64 1280) }

/-- The slot that is not running; while no image runs, the one that is not marked active (DESIGN CHOICE, log entry 43). -/
def State.idleSlot (s : State) : Nat :=
  if s.phase = phFailed ∧ s.fld GLB_BOOT_FAILCODE = stBOOTIMAGE then 1 - s.nv.activeSlot else 1 - s.fld STM_STATE_SLOT

/-- Put an image in a slot of management flash. -/
def State.setSlot (s : State) (slot : Nat) (x : FwSlot) : State :=
  { s with nv := if slot = 0 then { s.nv with slotA := x } else { s.nv with slotB := x } }

/-- Every byte of a staged image has been written. DESIGN CHOICE: log entry 44. -/
def StageBuf.complete (b : StageBuf) : Bool :=
  (sortBy (fun (x y : Nat × Nat) => decide (x.1 < y.1)) b.written).foldl (fun r w => if w.1 ≤ r then max r w.2 else r) 0 == b.total

/-- FW_STAGE PHASE 0: a part of an image goes to the idle slot; OFFSET 0 begins again (R568). The status, and the state.
DESIGN CHOICE: log entry 44. -/
def State.stagePart (s : State) (total off : Nat) (p : Bytes) : Nat × State :=
  let old := if off = 0 then none else s.stm.stage
  match (if off = 0 then some ⟨total, [], []⟩ else old) with
  | none => (stLIMIT, s)
  | some b =>
    if total ≠ b.total ∨ total < off + p.length ∨ 2 ^ 27 < total then (stLIMIT, s)
    else
      let b : StageBuf := { b with mem := memWrite b.mem off p, written := b.written ++ [(off, off + p.length)] }
      let s := { s with stm := { s.stm with stage := some b, verified := none } }
      (stOK, s.setSlot s.idleSlot (if b.complete then FwSlot.ofImage (memRead b.mem 0 b.total) else FwSlot.empty))

/-- FW_STAGE PHASE 1: the staged image is checked and becomes VERIFIED (R568). DESIGN CHOICE: log entry 44. -/
def State.stageCheck (s : State) : Nat × State :=
  match s.stm.stage with
  | none => (stLIMIT, s)
  | some b =>
    let x := FwSlot.ofImage (memRead b.mem 0 b.total)
    if !b.complete || !x.present || !bitOf x.variants s.nv.record.variant || decide (x.version < x.floor) || decide (x.version < s.nv.rollback) then
      (stLIMIT, s)
    else if !x.measOk || !x.sigOk then (stMISMATCH, s)
    else
      let s := { s with stm := { s.stm with verified := some x } }
      (stOK, s.logFirmware 1 (s.fld STM_STATE_VERSION) x.version)

/-- What FW_STAGE does with its parameters and its payload. -/
def State.stage (s : State) (total off phase : Nat) (p : Bytes) : Nat × State :=
  if 1 < phase then (stLIMIT, s)
  else if phase = 0 then s.stagePart total off p
  else if p.isEmpty then s.stageCheck
  else (stLIMIT, s)

/-- FW_STAGE. -/
def State.fwStage (s : State) (r seq : Nat) : State :=
  match s.running r seq 0x0100 with
  | none => s
  | some c =>
    if !c.unusedZero [(32, 4), (40, 9)] then s.refuse c stLIMIT
    else if s.nv.trial.isSome || s.stm.act.stage != .idle then s.refuse c stBUSY
    else
      let (st, s) := s.stage (c.par 32 4) (c.par 40 8) (c.par 48 1) (s.payload c)
      s.finish c st

-- ## Activation (R569, R570)

/-- Step 1 of an activation begins: no standby exists meanwhile. -/
def State.beginActivation (s : State) (cmd : Option (Nat × Nat)) (mode slot : Nat) : State :=
  { s with stm := { s.stm with act := { stage := .standbyRestart, cmd := cmd, mode := mode, slot := slot } } }.setFld STM_STATE_STANDBY 0

/-- The command that an activation serves ends with a status. DESIGN CHOICE: log entry 43. -/
def State.endActivation (s : State) (status : Nat) : State :=
  let cmd := s.stm.act.cmd
  let s := { s with stm := { s.stm with act := { stage := .idle, cmd := none, mode := 0, slot := 0 } } }
  match cmd.bind fun k => s.cmd k.1 k.2 with
  | some c => s.finish c status
  | none => s

/-- A commit: the counter is raised to FLOOR of the running image, and any trial is over (R570). -/
def State.commit (s : State) : State :=
  let x := s.runningImage
  let s := { s with nv := { s.nv with rollback := max s.nv.rollback x.floor, trial := none } }
  s.logFirmware 3 x.version x.version

/-- The checks of FW_ACTIVATE (R569); `mode` is the MODE that the command's row serves. -/
def State.activateStatus (s : State) (c : Cmd) (mode : Nat) : Option Nat :=
  firstStatus [(decide (2 < c.par 32 1) || !c.unusedZero [(32, 1)] || decide (c.paylen ≠ 0), stLIMIT),
    (decide (mode = 0) && s.stm.verified.isNone, stLIMIT),
    (decide (mode = 1) && s.stm.verified.isNone && s.nv.trial.isNone, stLIMIT),
    (decide (mode = 2) && s.nv.trial.isNone, stLIMIT),
    (s.stm.takeoverWindow || !s.standbyReady || s.stm.act.stage != .idle, stBUSY)]

/-- The FW_ACTIVATE command that a row serves: its MODE is the row's, or no MODE at all. -/
def State.activateCmd (s : State) (r seq mode : Nat) : Option Cmd :=
  (s.running r seq 0x0101).filter fun c => s.stm.act.cmd != some (r, seq) && (c.par 32 1 == mode || decide (2 < c.par 32 1))

/-- FW_ACTIVATE MODE 0. -/
def State.fwActivateTrial (s : State) (r seq : Nat) : State :=
  match s.activateCmd r seq 0 with
  | none => s
  | some c =>
    match s.activateStatus c 0 with
    | some st => s.refuse c st
    | none => s.beginActivation (some (r, seq)) 0 s.idleSlot

/-- FW_ACTIVATE MODE 1: in a trial a commit at once, otherwise an activation that commits at its end. -/
def State.fwActivateCommit (s : State) (r seq : Nat) : State :=
  match s.activateCmd r seq 1 with
  | none => s
  | some c =>
    match s.activateStatus c 1 with
    | some st => s.refuse c st
    | none => if s.nv.trial.isSome then s.commit.finish c stOK else s.beginActivation (some (r, seq)) 1 s.idleSlot

/-- FW_ACTIVATE MODE 2: the previous slot is activated. -/
def State.fwActivateRevert (s : State) (r seq : Nat) : State :=
  match s.activateCmd r seq 2 with
  | none => s
  | some c =>
    match s.activateStatus c 2 with
    | some st => s.refuse c st
    | none => s.beginActivation (some (r, seq)) 2 (s.nv.trial.elim s.idleSlot fun t => t.prevSlot)

/-- The Stationmaster that is not active. -/
def State.standbyDie (s : State) : Nat := 1 - s.fld STM_STATE_ACTIVE

/-- A Stationmaster runs or is down. -/
def State.setUp (s : State) (d : Nat) (up : Bool) : State :=
  { s with stm := if d = 0 then { s.stm with jd0Up := up } else { s.stm with jd1Up := up } }

/-- A Stationmaster runs. -/
def State.isUp (s : State) (d : Nat) : Bool := if d = 0 then s.stm.jd0Up else s.stm.jd1Up

/-- What the active Stationmaster has for its standby (R557). -/
def State.mirrorOf (s : State) : Mirror :=
  { pace := s.stm.pace, windows := s.stm.windows, cells := s.stm.cells, logPending := s.stm.logPending, faultAcked := s.stm.faultAcked,
    goodOffsets := s.clock.goodOffsets, lastSync := s.clock.lastSync }

/-- The standby takes the volatile state as it stands (R557). DEDUCED: log entry 45. -/
def State.mirrorNow (s : State) : State := { s with stm := { s.stm with mirror := some s.mirrorOf } }

/-- A Stationmaster continues from the mirrored state. DEDUCED: log entry 45. -/
def State.fromMirror (s : State) : State :=
  match s.stm.mirror with
  | none => s
  | some m =>
    { s with
      stm := { s.stm with pace := m.pace, windows := m.windows, cells := m.cells, logPending := m.logPending, faultAcked := m.faultAcked }
      clock := { s.clock with goodOffsets := m.goodOffsets, lastSync := m.lastSync } }

/-- ACTIVATION_STANDBY_RESTART, step 1: the standby restarts on the image, verifies it and takes the mirrored state; when its check fails
the command ends with MISMATCH and nothing changes. -/
def State.activationStandbyRestart (s : State) (verified : Bool) : State :=
  if s.stm.act.stage != .standbyRestart || !s.isUp s.standbyDie then s
  else
    let s := s.setFld STM_STATE_STANDBY 2
    if verified && s.nv.accepts s.stm.act.slot then { s.mirrorNow with stm := { s.mirrorNow.stm with act := { s.stm.act with stage := .handover } } }
    else s.endActivation stMISMATCH

/-- The active role passes to the standby, which continues from the mirrored state; no standby is left. -/
def State.swapActive (s : State) : State :=
  let d := s.standbyDie
  (((s.mirrorNow.fromMirror).setFld STM_STATE_ACTIVE d).setFld FLT_TAKEOVER_ACTIVE d).setFld STM_STATE_STANDBY 0

/-- ACTIVATION_HANDOVER, step 2: the window opens, the active-slot mark is written, the standby takes the active role on the new image.
DESIGN CHOICE (log entry 43): a trial begins, and a reverted one ends, with the mark. -/
def State.activationHandover (s : State) : State :=
  if s.stm.act.stage != .handover then s
  else
    let slot := s.stm.act.slot
    let trial := if s.stm.act.mode = 0 then some ⟨0, 1 - slot⟩ else if s.stm.act.mode = 2 then none else s.nv.trial
    let s := { s with nv := { s.nv with activeSlot := slot, trial := trial }, stm := { s.stm with act := { s.stm.act with stage := .activeRestart }, trialPassed := 0 } }
    ((s.swapActive).setFld STM_STATE_SLOT slot).setFld STM_STATE_VERSION (s.nv.image slot).version

/-- ACTIVATION_ACTIVE_RESTART, step 3: the former active Stationmaster restarts on the new image as standby; when it fails it is retired
(Table 17-3), the other stays active with no standby, and the command ends with INTERNAL. -/
def State.activationActiveRestart (s : State) (verified : Bool) : State :=
  if s.stm.act.stage != .activeRestart then s
  else if verified then
    { s.mirrorNow with stm := { s.mirrorNow.stm with act := { s.stm.act with stage := .handback } } }.setFld STM_STATE_STANDBY 2
  else
    let d := s.standbyDie
    (((s.setUp d false).retireUnit (unitId 13 d) .permanent 11).endActivation stINTERNAL)

/-- ACTIVATION_HANDBACK, step 4: the active role returns, the window closes, ACTIVATED is appended, then COMMITTED or REVERTED.
DESIGN CHOICE: log entry 43. -/
def State.activationHandback (s : State) : State :=
  if s.stm.act.stage != .handback then s
  else
    let before := (s.nv.image (1 - s.stm.act.slot)).version
    let after := (s.nv.image s.stm.act.slot).version
    let mode := s.stm.act.mode
    let s := (s.swapActive.setFld STM_STATE_STANDBY 2).logFirmware 2 before after
    let s := if mode = 1 then s.commit else if mode = 2 then s.logFirmware 4 before after else s
    let s := { s with stm := { s.stm with stage := none, verified := none } }
    s.endActivation stOK

/-- TRIAL_TIMEOUT: seconds pass in a trial; at TRIALSEC the revert runs (R570). -/
def State.trialTimeout (s : State) (dtSec : Nat) : State :=
  match s.nv.trial with
  | none => s
  | some t =>
    if s.phase = phPower then s
    else
      let s := { s with stm := { s.stm with trialPassed := s.stm.trialPassed + dtSec } }
      if s.stm.act.stage == .idle && (decide (s.fld STM_TRIAL_TRIALSEC ≤ s.stm.trialPassed) || decide (3 ≤ t.starts)) then
        s.beginActivation none 2 t.prevSlot
      else s

-- ## Recovery (R571)

/-- A recovery request: only FW_STAGE and FW_ACTIVATE MODE 1 are served. The status, and the state before the activation's reset. -/
def State.recoveryRequest (s : State) (entry payload : Bytes) : Nat × State :=
  if leAt entry 4 2 = 0x0100 then s.stage (leAt entry 32 4) (leAt entry 40 8) (leAt entry 48 1) payload
  else if leAt entry 4 2 = 0x0101 ∧ leAt entry 32 1 = 1 ∧ s.stm.verified.isSome = true then
    let slot := s.idleSlot
    let x := s.nv.image slot
    let s := { s with nv := { s.nv with activeSlot := slot, rollback := max s.nv.rollback x.floor } }
    (stOK, (s.logFirmware 2 0 x.version).logFirmware 3 x.version x.version)
  else (stLIMIT, s)

/-- The reset that ends a recovered activation. DESIGN CHOICE (log entry 16): R571 names a device reset and Table 16-8 no code for it, so KIND is free.
DESIGN CHOICE: log entry 43. -/
def State.recoveredReset (s : State) (entry : Bytes) (st : Nat) : State :=
  if leAt entry 4 2 = 0x0101 ∧ st = stOK then
    let kind := Config.freeResetKind s.freeCtr % 6 + 1
    { s with freeCtr := s.freeCtr + 1 }.resetDevice kind
  else s

/-- The boot ROM serves the recovery service: it accepted no image (R474, R571). -/
def State.recovering (s : State) : Bool := s.phase == phFailed && s.fld GLB_BOOT_FAILCODE == stBOOTIMAGE

/-- The completion record of a recovery request. -/
def State.recoveryRecord (s : State) (entry : Bytes) (st : Nat) : Bytes :=
  leBytes 2 st ++ leBytes 2 (leAt entry 4 2) ++ leBytes 4 0 ++ leBytes 8 0 ++ leBytes 6 noTicket ++ leBytes 2 0 ++ leBytes 8 0 ++ leBytes 8 s.now ++
  leBytes 8 s.now ++ List.replicate 16 0

/-- Reception of a recovery message: well formed, and tagged once OCK is SET (R571). -/
def State.recoveryReceive (s : State) (m : Bytes) : Bool × State :=
  if s.nv.ock.isSome then s.receive m
  else if msgOk m then (true, s.setFld STM_MGMT_LINK 1)
  else (false, (s.setFld STM_MGMT_LINK 1).refuseMsg m stLIMIT)

/-- RECOVERY_SERVICE: a COMMAND message, or the same request over JTAG, an entry and its payload without a tag. -/
def State.recoveryService (s : State) (jtag : Bool) (m : Bytes) : State :=
  if !s.recovering then s
  else if jtag then
    let e := bytesAt m 0 256
    let (st, s) := s.recoveryRequest e (m.drop 256)
    s.recoveredReset e st
  else if msgType m ≠ 1 then s.count STM_MGMT_REFUSED
  else
    match s.recoveryReceive m with
    | (false, s) => s
    | (true, s) =>
      if msgLen m < 256 then s.refuseMsg m stLIMIT
      else
        let e := bytesAt (msgPayload m) 0 256
        let (st, s) := s.recoveryRequest e ((msgPayload m).drop 256)
        (s.answer m st (s.recoveryRecord e st)).recoveredReset e st

-- ## Standby and takeover (R501, R503, R524, R557)

/-- STANDBY_MIRROR: the active Stationmaster's volatile state goes to the standby. DEDUCED: log entry 45. -/
def State.standbyMirror (s : State) : State := if s.fld STM_STATE_STANDBY = 0 then s else s.mirrorNow

/-- STANDBY_SYNC_DONE: the standby has taken the mirrored state and is ready. -/
def State.standbySyncDone (s : State) : State :=
  if s.fld STM_STATE_STANDBY = 1 ∧ s.isUp s.standbyDie = true then s.mirrorNow.setFld STM_STATE_STANDBY 2 else s

/-- STANDBY_HEARTBEAT_MISS: ten missed heartbeats, or a failed image check, which also retires it (Table 17-3): the active Stationmaster is
down, and a ready standby takes over. -/
def State.standbyHeartbeatMiss (s : State) (missed : Nat) (imageFailed : Bool) : State :=
  if s.phase = phPower ∨ s.stm.takeoverWindow = true ∨ (missed < 10 ∧ imageFailed = false) ∨ s.activeUp = false then s
  else
    let d := s.fld STM_STATE_ACTIVE
    let s := s.setUp d false
    let s := if s.standbyReady then { s with stm := { s.stm with takeoverWindow := true } } else s
    if imageFailed then s.retireUnit (unitId 13 d) .permanent 11 else s

/-- TAKEOVER: the standby continues from the mirrored state, takes the port and the governor, counts the takeover, and sends the fault
records of the interval (R524). DEDUCED: log entry 45. -/
def State.takeover (s : State) : State :=
  if s.stm.takeoverWindow = false then s
  else
    let s := s.swapActive
    let held := s.stm.heldRecords
    let s := { s with nv := { s.nv with takeovers := min (s.nv.takeovers + 1) 0xFFFF }
                      stm := { s.stm with takeoverWindow := false, heldRecords := [] } }
    held.foldl (fun (s : State) r => s.faultPush r) s

/-- WINDOW_SAVE: every 60 s the windows go to management flash (R501). -/
def State.windowSave (s : State) : State := if s.phase = phPower ∨ s.stm.takeoverWindow = true then s else s.saveWindows

/-- STATIONMASTER_WATCHDOG_EXPIRY: a recovery is a TRANSIENT event; the third expiry retires the Stationmaster (Table 17-3). A Stationmaster
that was down comes back as a standby that syncs. DESIGN CHOICE: log entry 43. -/
def State.stationmasterWatchdogExpiry (s : State) (d dt : Nat) : State :=
  let s := s.tick dt
  if s.phase = phPower ∨ 1 < d ∨ s.retired (unitId 13 d) = true then s
  else
    let n := mapGetD s.stm.watchdogs d 0 + 1
    let s := { s with stm := { s.stm with watchdogs := mapSet s.stm.watchdogs d n } }
    let s := if 3 ≤ n then s.retireUnit (unitId 13 d) .permanent 11 else s.transient (unitId 13 d) 11
    if s.retired (unitId 13 d) then
      let s := s.setUp d false
      if d ≠ s.fld STM_STATE_ACTIVE then s.setFld STM_STATE_STANDBY 0
      else if s.standbyReady then { s with stm := { s.stm with takeoverWindow := true } }
      else s
    else if d ≠ s.fld STM_STATE_ACTIVE ∧ s.fld STM_STATE_STANDBY ≠ 1 ∧ (d = 0 ∨ s.nv.dkWrap = true) ∧ s.stm.act.stage = .idle then
      (s.setUp d true).setFld STM_STATE_STANDBY 1
    else s

-- ## Time (R439, R575)

/-- An offset of the station clock from its source, `offset` = station clock − source: beyond 1 ms the clock is stepped, otherwise it slews
by some amount that 200 ppm allow. DESIGN CHOICE: log entry 35. -/
def State.discipline (s : State) (dt : Nat) (offset : Int) : State :=
  let s := s.setFld STM_TIME_OFFSET (offsetField offset)
  let s := { s with clock := { s.clock with lastSync := s.clock.mono } }
  if 1000000 < offset.natAbs then ((s.stepClock ((s.clock.station : Int) - offset).toNat).logTime 3 (-offset)).lockStep offset
  else
    let k := min (Config.freeSlew s.freeCtr) (min offset.natAbs (maxSlew dt))
    let station := if offset < 0 then s.clock.station + k else s.clock.station - k
    { s with freeCtr := s.freeCtr + 1, clock := { s.clock with station := station } }.lockStep offset

/-- PTP_SYNC: a valid Sync while the clock follows PTP. -/
def State.ptpSync (s : State) (dt : Nat) (offset : Int) : State :=
  let s := s.tick dt
  if s.clock.running && s.mgmtUp && s.fld STM_TIME_SRC == 0 then s.discipline dt offset else s

/-- PTP_LOCK_LOSS: 8 s without a valid Sync. -/
def State.ptpLockLoss (s : State) (dt : Nat) : State :=
  let s := s.tick dt
  if s.clock.locked && decide (s.clock.lastSync + 8 * 10 ^ 9 ≤ s.clock.mono) then
    (({ s with clock := { s.clock with locked := false, goodOffsets := 0 } }).setFld STM_TIME_LOCKED 0).logTime 2 0
  else s

/-- PPS_IN_EDGE: the 1PPS input disciplines the clock when STM_TIME.SRC is 1. DESIGN CHOICE: log entry 35. -/
def State.ppsIn (s : State) (dt : Nat) (offset : Int) : State :=
  let s := s.tick dt
  if s.clock.running && decide (phBoot ≤ s.phase) && s.fld STM_TIME_SRC == 1 then s.discipline dt offset else s

/-- PPS_OUT_EDGE: at a whole second of the station clock PPS_OUT rises, high for 100 µs (Table 20-5).
DESIGN CHOICE: log entry 36. -/
def State.ppsOut (s : State) : State :=
  if s.clock.running then
    { s with clock := { s.clock with ppsHighUntil := s.clock.station / 10 ^ 9 * 10 ^ 9 + 100000 } }
  else s

end Sys2Proof.Machine
end

