-- ==== Sys2Proof/Machine/Tenancy.lean ====
section
/-! DEFINITION. Tenancy (chapter 18): creating, amending and destroying slices, clearing, KEY_OP, SCRUB, debug and slice telemetry. -/

namespace Sys2Proof.Machine

/-- NS_FULL (Table 12-11). -/
abbrev stNSFULL : Nat := 0x0302
/-- NO_NAMESPACE (Table 12-11). -/
abbrev stNONAMESPACE : Nat := 0x0303

-- ## Clearing (R538, R539)

/-- Bytes of a unit that a clear writes: a frame's store and its four banks, a granule, a pseudo-channel, a rank. -/
def State.unitSize (s : State) (u : Nat) : Nat :=
  match unitType u with
  | 1 => 2 ^ 21 + 4 * 2 ^ 17
  | 4 => 2 ^ 16
  | 5 => 2 ^ 30
  | _ => s.rankBytes (unitIndex u)

/-- What still lies on a unit is zeroed. -/
def State.zeroUnit (s : State) (u : Nat) : State :=
  if !memoryUnit u then s
  else (s.pagesOn u).foldl (fun (s : State) e =>
    { s with allocs := mapUpdate s.allocs e.1 fun a => { a with mem := memZero a.mem (e.2 * 2 ^ 21) (2 ^ 21) } }) s

/-- The clear of a unit ends: its record is logged, and a unit that fails is retired as PERMANENT with SOURCE 1. -/
def State.clearUnit (s : State) (u from_ to_ cause : Nat) (ok : Bool) : State :=
  let start := mapGetD s.stm.clearing u s.now
  let s := { s with stm := { s.stm with clearing := mapErase s.stm.clearing u }, nv := { s.nv with clearing := s.nv.clearing.filter fun c => c.1 != u } }
  let s := (s.zeroUnit u).clearRecord start u from_ to_ (if ok then 0 else 1) cause (s.unitSize u) 0
  if ok then s else s.retireUnit u .permanent 1

/-- A unit that R538 clears: a frame that no run holds, a granule, a pseudo-channel or a rank, in service. -/
def State.clearable (s : State) (u : Nat) : Bool :=
  !s.retired u && ((decide (unitType u = 1) && s.frameEnabled (unitIndex u) && (mapGet s.frames (unitIndex u)).isNone) || memoryUnit u)

/-- UNIT_CLEAR (R539): the unit is marked CLEARING, and the clear ends or stays under way; one that a loss of power cuts short is logged by
the next start-up. DEDUCED: log entry 52. -/
def State.unitClear (s : State) (u from_ to_ cause : Nat) (outcome : ClearEnd) (dt : Nat) : State :=
  let start := s.now
  let s := s.tick dt
  if s.phase ≠ phReady ∨ s.clearable u = false then s
  else
    let s := if s.unitClearing u then s
      else { s with stm := { s.stm with clearing := mapSet s.stm.clearing u start }, nv := { s.nv with clearing := s.nv.clearing ++ [(u, from_, to_, cause)] } }
    match outcome with
    | .cleared => s.clearUnit u from_ to_ cause true
    | .failed => s.clearUnit u from_ to_ cause false
    | .underWay => s

/-- Clear a list of units; those of `bad` fail. DEDUCED: log entry 52. -/
def State.clearUnits (s : State) (us : List Nat) (from_ to_ cause : Nat) (bad : List Nat) : State :=
  us.foldl (fun (s : State) u => s.clearUnit u from_ to_ cause (!bad.contains u)) s

-- ## The parameters of TENANT_CREATE (R529, R530)

/-- Bitmap fields of a composition with the unit type and the number of its bits (Table 18-3). -/
def bitmaps : List ((Composition → Nat) × Nat × Nat) :=
  [(Composition.frames, 1, 192), (Composition.shunters, 2, 128), (Composition.selectors, 3, 16), (Composition.pcs, 5, 640),
   (Composition.ranks, 6, 128), (Composition.nandDies, 7, 1024)]

/-- The composition that a payload names; the granules come from `grans`. -/
def payloadComp (b : Bytes) (grans : List Nat) : Composition :=
  { frames := leAt b 0 24, shunters := leAt b 24 16, selectors := leAt b 40 2, jdies := leAt b 42 1 % 16, granules := grans, pcs := leAt b 48 80,
    ranks := leAt b 128 16, nandDies := leAt b 144 128, nsUnits := (List.range 4).map fun j => leAt b (272 + 8 * j) 8 }

/-- The granules of a die that a slice will hold: those it holds and the lowest free ones, or as many as it keeps (Table 18-1).
DESIGN CHOICE: log entry 51. -/
def State.chooseGranules (s : State) (held : List Nat) (die n : Nat) : List Nat :=
  let mine := held.filter fun g => g / 2048 == die
  if n ≤ mine.length then mine.take n
  else mine ++ ((s.sliceGranules 0).filter fun g => g / 2048 == die).take (n - mine.length)

/-- The composition of a slice before the command, empty for a create. -/
def State.oldComp (s : State) (sl : Nat) (amend : Bool) : Composition :=
  if amend then (mapGet s.nv.slices sl).elim Composition.none fun e => e.comp else Composition.none

/-- The composition that the command asks for. -/
def State.newComp (s : State) (sl : Nat) (amend : Bool) (b : Bytes) : Composition :=
  let held := (s.oldComp sl amend).granules
  payloadComp b (s.chooseGranules held 0 (leAt b 44 2) ++ s.chooseGranules held 1 (leAt b 46 2))

/-- Check 1 of R530: a field out of range or reserved, or a bit naming a unit that the variant lacks. -/
def State.tenantMalformed (s : State) (c : Cmd) (b : Bytes) : Bool :=
  let n := payloadComp b []
  decide (c.par 32 1 = 0) || decide (63 < c.par 32 1) || !c.unusedZero [(32, 6)] || decide (8 ≤ c.par 33 1) || decide (c.paylen ≠ 320) ||
  bitOf (c.par 34 2) 0 || decide (c.par 36 2 < 10) || decide (16 ≤ leAt b 42 1) || decide (leAt b 43 1 ≠ 0) || !allZero (bytesAt b 304 16) ||
  decide (2048 < leAt b 44 2) || decide (2048 < leAt b 46 2) || decide (2 ^ s.jdCount ≤ n.jdies) || decide (2 ^ (64 * s.hbmStacks) ≤ n.pcs) ||
  decide (2 ^ (8 * s.ddrChannels) ≤ n.ranks) || decide (2 ^ (256 * s.jdCount) ≤ n.nandDies)

/-- NAND dies of Junction die `j` in a bitmap, as channel and die of the Depot. -/
def compDies (m j : Nat) : List (Nat × Nat) := ((List.range 256).filter fun i => bitOf m (256 * j + i)).map fun i => (i / 16, i % 16)

/-- A NAND die or its channel is retired. -/
def State.unitRetired (s : State) (t i : Nat) : Bool := s.retired (unitId t i) || (decide (t = 7) && s.retired (unitId 8 (i / 16)))

/-- A newly named unit is retired or disabled by the grade. -/
def State.namesBad (s : State) (old new : Composition) : Bool :=
  bitmaps.any fun e => (onesFrom e.2.2 0 (e.1 new)).any fun i =>
    !bitOf (e.1 old) i && (s.unitRetired e.2.1 i || (decide (e.2.1 = 1) && !s.frameEnabled i))

/-- R528: a slice that holds Junction die `j` holds every in-service NAND die and rank of `j`. -/
def State.wholeDie (s : State) (new : Composition) (j : Nat) : Bool :=
  ((List.range 256).all fun i => !((s.depot j).dieUp (i / 16) (i % 16) && !s.unitRetired 7 (256 * j + i)) || bitOf new.nandDies (256 * j + i)) &&
  (List.range 32).all fun r => decide (s.rankBytes (32 * j + r) = 0) || bitOf new.ranks (32 * j + r)

/-- A Depot is READY for a die set: the lanes that the set covers serve. -/
def Depot.readyFor (d : Depot) (dies : List (Nat × Nat)) : Bool := dies.all fun e => (d.lane (e.1 / 8)).serves

/-- Check 3 of R530, with what AMEND adds (R532). -/
def State.tenantUnfit (s : State) (old new : Composition) : Bool :=
  decide (new.frames = 0) || decide (new.shunters = 0) || decide (new.selectors = 0) || decide (new.pcs = 0) || s.namesBad old new ||
  (onesFrom 4 0 new.jdies).any (fun j => !s.wholeDie new j) ||
  (List.range 4).any fun j =>
    let n := new.nsUnits.getD j 0
    let dies := compDies new.nandDies j
    (decide (0 < n) && (dies.isEmpty || !(s.depot j).readyFor dies)) || decide (n < old.nsUnits.getD j 0)

/-- The pseudo-channel that holds the device reservations of R597. DESIGN CHOICE (log entry 58): the lowest one in service.
DESIGN CHOICE: log entry 51. -/
def State.reservedPc (s : State) : Nat := ((List.range 640).find? s.pcUp).getD 0

/-- Compositions of the other tenant slices. -/
def State.otherComps (s : State) (sl : Nat) : List Composition :=
  ((s.nv.slices ++ s.stm.changing).filter fun e => e.1 != sl).map fun e => e.2.comp

/-- Classes that the other tenant slices hold. -/
def State.otherClasses (s : State) (sl : Nat) : Nat :=
  ((s.nv.slices ++ s.stm.changing).filter fun e => e.1 != sl).foldl (fun m e => m ||| e.2.classes) 0

/-- Check 4 of R530: a unit or a class of another tenant, a reserved pseudo-channel, a unit being cleared, too few free granules. -/
def State.tenantTaken (s : State) (sl classes : Nat) (old new : Composition) (grans : Nat) : Bool :=
  (bitmaps.any fun e => (s.otherComps sl).any fun c => decide (e.1 c &&& e.1 new ≠ 0)) || decide (s.otherClasses sl &&& classes ≠ 0) ||
  ((s.otherComps sl).any fun c => decide (c.jdies &&& new.jdies ≠ 0)) ||
  (onesFrom 4 0 new.jdies).any (fun j => (s.otherComps sl).any fun c =>
    decide (c.nandDies / 2 ^ (256 * j) % 2 ^ 256 ≠ 0) || decide (c.ranks / 2 ^ (32 * j) % 2 ^ 32 ≠ 0)) ||
  (bitOf new.pcs s.reservedPc && !bitOf old.pcs s.reservedPc) ||
  (s.stm.clearing.any fun e => bitmaps.any fun m => unitType e.1 == m.2.1 && bitOf (m.1 new) (unitIndex e.1)) || decide (new.granules.length < grans)

/-- Watts that the other tenant slices hold. -/
def State.otherPower (s : State) (sl : Nat) : Nat := sumNat (((s.nv.slices ++ s.stm.changing).filter fun e => e.1 != sl).map fun e => e.2.power)

/-- Check 6 of R530: new namespace units beyond what a Depot has left. -/
def State.nsFull (s : State) (old new : Composition) : Bool :=
  (List.range 4).any fun j => decide ((s.depot j).logical - (s.depot j).tenantUnits < new.nsUnits.getD j 0 - old.nsUnits.getD j 0)

/-- A class that the amend removes has a job bound to it (R532). -/
def State.classInUse (s : State) (sl classes : Nat) : Bool := s.jobs.any fun e => e.2.slice == sl && !bitOf classes e.2.tc

/-- The checks of R530 in order. -/
def State.tenantStatus (s : State) (c : Cmd) (amend : Bool) (b : Bytes) : Option Nat :=
  let sl := c.par 32 1
  let old := s.oldComp sl amend
  let new := s.newComp sl amend b
  let inUse := (mapGet s.nv.slices sl).isSome || (mapGet s.stm.changing sl).isSome
  firstStatus [(s.tenantMalformed c b, stLIMIT), (!amend && inUse, stSLICEEXISTS),
    (amend && (!s.sliceInService sl || (mapGet s.stm.changing sl).isSome), stNOSLICE), (s.tenantUnfit old new, stLIMIT),
    (s.tenantTaken sl (c.par 34 2) old new (leAt b 44 2 + leAt b 46 2), stUNITTAKEN),
    (decide (s.fld PWR_ENVELOPE_ENV - s.fld PWR_ENVELOPE_RESERVE < s.otherPower sl + c.par 36 2), stLIMIT),
    (s.nsFull old new, stNSFULL), (amend && s.classInUse sl (c.par 34 2), stUNITTAKEN)]

-- ## Draining and releasing (R531, R532)

/-- Memory units and frames that `a` names and `b` does not. -/
def compMinus (a b : Composition) : List Nat :=
  let part := fun (f : Composition → Nat) (t n : Nat) => ((onesFrom n 0 (f a)).filter fun i => !bitOf (f b) i).map (unitId t)
  part Composition.frames 1 192 ++ (a.granules.filter fun g => !b.granules.contains g).map (unitId 4) ++ part Composition.pcs 5 640 ++
  part Composition.ranks 6 128

/-- Some frame or Shunter that one composition names and the other does not is still held by a run or a walk. -/
def State.unitsBusy (s : State) (a b : Composition) : Bool :=
  ((List.range 192).any fun f => bitOf a.frames f != bitOf b.frames f && (mapGet s.frames f).isSome) ||
  s.activeWalks.any fun w => bitOf a.shunters w.shunter != bitOf b.shunters w.shunter

/-- Every page of a slice keeps the unit it lies on while the slice's units change. -/
def State.fixPages (s : State) (sl : Nat) : State :=
  { s with pageUnits := (s.allocs.filter fun e => e.2.slice == sl).foldl (fun (m : KMap Nat) e =>
      (List.range e.2.npages).foldl (fun (m : KMap Nat) p =>
        if e.2.pageTier p = 1 ∨ e.2.pageTier p = 2 ∨ e.2.pageTier p = 3 then mapSet m (e.1 * 2 ^ 32 + p) (s.pageUnit e.1 p) else m) m) s.pageUnits }

/-- The pages on a list of units are drained as R506 drains a retiring unit; false when one finds no place. -/
def State.drainUnits (s : State) (us : List Nat) : State × Bool :=
  (us.filter memoryUnit).foldl (fun (acc : State × Bool) u =>
    (acc.1.pagesOn u).foldl (fun (acc : State × Bool) e =>
      let (s, ok) := acc.1.drainPage e.1 e.2
      (s, acc.2 && ok)) acc) (s, true)

-- ## Namespaces of a slice (R531, R532)

/-- The blocks of a namespace that are mapped and can be read, by unit. -/
def Depot.contents (d : Depot) (j ns : Nat) : List (Nat × Bytes) :=
  ([0, 1].flatMap fun l => (mapKeys (d.lane l).map).filter fun k => k / 2 ^ 40 == ns).filterMap fun k =>
    (d.unitBytes j ns (k % 2 ^ 40)).map fun b => (k % 2 ^ 40, b)

/-- A namespace takes another size and die set. Units that lie outside the set, and every unit when the lanes that the set covers change
(R363), are written anew. DESIGN CHOICE: log entry 51. -/
def State.namespaceResize (s : State) (j ns size : Nat) (dies : List (Nat × Nat)) : State :=
  let d := s.depot j
  match mapGet d.namespaces ns with
  | none => s
  | some n =>
    let n' := { n with size := size, dies := dies }
    let moved := n'.lanes != n.lanes
    let blocks := d.contents j ns
    let outside := fun (u : Nat) => (mapGet (d.lane (n.laneOf u)).map (unitKey ns u)).elim false fun p => !dies.contains (8 * n.laneOf u + puaCh p, puaDie p)
    let d' := { d with namespaces := mapSet d.namespaces ns n'
                       lanes := if moved then d.lanes.map fun x => { x with map := mapFilter x.map fun k _ => decide (k / 2 ^ 40 ≠ ns) } else d.lanes }
    (blocks.filter fun e => moved || outside e.1).foldl (fun (s : State) e => s.depotWrite j ns e.1 e.2) (s.setDepot j d')

/-- The namespace of a slice on one Depot: created, or resized. DESIGN CHOICE (log entry 51): its number is the slice's. -/
def State.sliceNamespace (s : State) (sl j : Nat) (new : Composition) : State :=
  let size := new.nsUnits.getD j 0
  let dies := compDies new.nandDies j
  if (mapGet (s.depot j).namespaces sl).isSome then s.namespaceResize j sl size dies
  else if size = 0 then s
  else s.namespaceCreate j sl size sl dies

/-- The namespaces of a slice on every Depot. -/
def State.sliceNamespaces (s : State) (sl : Nat) (new : Composition) : State :=
  (List.range 4).foldl (fun (s : State) j => s.sliceNamespace sl j new) s

-- ## TENANT_CREATE (R531, R532)

/-- The slice's telemetry allocation (R554). DESIGN CHOICE (log entry 51): a HOT allocation, since a slice may hold no board memory. -/
def State.addTelemetry (s : State) (sl : Nat) : State :=
  let f : AllocFlags := { hot := true, warm := false, cold := false, stream := false, persist := false, pin := false, share := true, repl := false,
                          clear := false, isLocal := false, window := false }
  let (tier, pages) := (s.placeFlags sl f 4096).getD (2, [])
  (s.addAlloc { slice := sl, consist := 0, num := 0, lframe := 0, name := telemetryName, size := 4096, flags := f, tier := tier, pages := pages,
                hits := [], low := [], last := [], flash := [], age := 0, users := [], mem := [] }).1

/-- What the slice is to become. -/
def State.tenantEntry (s : State) (c : Cmd) (amend : Bool) (b : Bytes) : SliceEntry :=
  let sl := c.par 32 1
  let old := if amend then mapGet s.nv.slices sl else none
  let new := s.newComp sl amend b
  { st := .inService, signReq := bitOf (c.par 33 1) 0, borrow := bitOf (c.par 33 1) 1, classes := c.par 34 2, power := c.par 36 2, comp := new,
    policyKey := old.bind fun e => e.policyKey, namespaces := (List.range 4).map fun j => if 0 < new.nsUnits.getD j 0 then some sl else none }

/-- The command ends and the slice is as it was. -/
def State.endTenant (s : State) (c : Cmd) (status : Nat) : State :=
  { s with stm := { s.stm with changing := mapErase s.stm.changing (c.par 32 1) } }.refuse c status

/-- Step 4 of R531: the slice table, the generation, the log. -/
def State.commitSlice (s : State) (sl : Nat) (e : SliceEntry) (amend : Bool) : State :=
  let s := { s with nv := { s.nv with slices := mapSet s.nv.slices sl e }, stm := { s.stm with changing := mapErase s.stm.changing sl } }
  let s := if amend then s else { s with counts := mapErase s.counts sl }.addTelemetry sl
  (s.nextGen sl).logSlice sl (if amend then 2 else 1)

/-- The removed units' pages find room on the slice's remaining units (R532): the state with them drained. -/
def State.drainRemoved (s : State) (sl : Nat) (e : SliceEntry) (removed : List Nat) : State × Bool :=
  { s with nv := { s.nv with slices := mapSet s.nv.slices sl e } }.drainUnits removed

/-- Steps 1 to 4 of R531 once no run and no walk holds a unit that changes hands. DESIGN CHOICE: log entry 51. -/
def State.tenantAdvance (s : State) (c : Cmd) (amend : Bool) (e : SliceEntry) (bad : List Nat) : State :=
  let sl := c.par 32 1
  let cause := if amend then 2 else 1
  let old := s.oldComp sl amend
  let added := compMinus e.comp old
  let removed := compMinus old e.comp
  let (s1, ok) := s.drainUnits added
  if !ok then (if amend then s else s1).endTenant c stUNITTAKEN
  else if !(s1.drainRemoved sl e removed).2 then s.endTenant c stUNITTAKEN
  else
    let s := s1.clearUnits added 0 sl cause bad
    if added.any bad.contains then s.endTenant c stCLEARFAIL
    else
      let s := (s.drainRemoved sl e removed).1.sliceNamespaces sl e.comp
      ((s.commitSlice sl e amend).clearUnits removed sl 0 cause bad).finish c stOK

/-- TENANT_CREATE, with AMEND or without: the checks, then the named units leave slice 0; the command waits while runs and walks hold a
unit that changes hands. -/
def State.tenant (s : State) (r seq : Nat) (amend : Bool) (bad : List Nat) : State :=
  match (s.running r seq 0x0102).filter fun c => bitOf (c.par 33 1) 2 == amend with
  | none => s
  | some c =>
    let sl := c.par 32 1
    match mapGet s.stm.changing sl, c.step with
    | some e, 1 => if s.unitsBusy e.comp (s.oldComp sl amend) then s else s.tenantAdvance c amend e bad
    | _, _ =>
      match s.tenantStatus c amend (s.payload c) with
      | some st => s.refuse c st
      | none =>
        let e := s.tenantEntry c amend (s.payload c)
        let c := { c with step := 1, since := s.clock.mono }
        let s := (if amend then (s.fixPages 0).fixPages sl else s.fixPages 0).setCmd c
        let s := { s with stm := { s.stm with changing := mapSet s.stm.changing sl e } }
        if s.unitsBusy e.comp (s.oldComp sl amend) then s else s.tenantAdvance c amend e bad

/-- TENANT_CREATE. -/
def State.tenantCreate (s : State) (r seq : Nat) (bad : List Nat) : State := s.tenant r seq false bad

/-- TENANT_CREATE with AMEND. -/
def State.tenantAmend (s : State) (r seq : Nat) (bad : List Nat) : State := s.tenant r seq true bad

/-- TENANT_UNIT_WAIT_TIMEOUT: a create or an amend that has waited 10 s ends with UNIT_TAKEN (R531, R532). -/
def State.tenantUnitWaitTimeout (s : State) (r seq : Nat) : State :=
  match s.running r seq 0x0102 with
  | some c => if c.step = 1 ∧ c.since + 10 * 10 ^ 9 ≤ s.clock.mono then s.endTenant c stUNITTAKEN else s
  | none => s

-- ## TENANT_DESTROY (R533)

/-- Another critical command of the slice has started and goes on (R493, step 1). -/
def State.criticalGoes (s : State) (sl key : Nat) : Bool :=
  s.cmds.any fun e => e.1 != key && e.2.slice == sl && e.2.ring != mgmtRing && e.2.stage == .running && opcodeCritical e.2.opcode

/-- Step 4 of R533: the namespaces of the slice and every allocation that is left. -/
def State.destroyNamespaces (s : State) (sl : Nat) : State :=
  let s := { s with allocs := mapFilter s.allocs fun _ a => a.slice != sl, poison := s.poison.filter fun p => (s.alloc p.alloc).elim true fun a => a.slice != sl
                    charges := s.charges.filter fun c => c.slice != sl, stores := mapFilter s.stores fun k _ => (s.alloc k).elim true fun a => a.slice != sl }
  (List.range 4).foldl (fun (s : State) j => match s.sliceNs sl j with | some n => s.namespaceDestroy j n | none => s) s

/-- Steps 2 to 6 of R533. DESIGN CHOICE: log entry 51. -/
def State.destroySlice (s : State) (sl : Nat) (bad : List Nat) : State :=
  let comp := s.oldComp sl true
  let s := ((s.emptySlice sl).destroyNamespaces sl).clearUnits ((compMinus comp Composition.none).filter fun u => !s.retired u) sl 0 3 bad
  let s := s.nextGen sl
  let s := { s with nv := { s.nv with slices := mapErase s.nv.slices sl }, counts := mapErase s.counts sl
                    stm := { s.stm with pace := mapErase s.stm.pace sl, borrowed := mapErase s.stm.borrowed sl } }
  (s.logSlice sl 3).passEnded sl

/-- STATE := DESTROYING (R533, step 1). -/
def State.markDestroying (s : State) (sl : Nat) : State :=
  { s with nv := { s.nv with slices := mapUpdate s.nv.slices sl fun e => { e with st := .destroying } } }

/-- TENANT_DESTROY. -/
def State.tenantDestroy (s : State) (r seq : Nat) (bad : List Nat) : State :=
  match s.running r seq 0x0103 with
  | none => s
  | some c =>
    let sl := c.par 32 1
    if c.step = 1 then (if s.criticalGoes sl (cmdKey r seq) then s else (s.destroySlice sl bad).finish c stOK)
    else
      match firstStatus [(decide (sl = 0) || decide (63 < sl) || !c.unusedZero [(32, 1)] || decide (c.paylen ≠ 0), stLIMIT),
          (!s.sliceInService sl || (mapGet s.stm.changing sl).isSome, stNOSLICE)] with
      | some st => s.refuse c st
      | none =>
        let c := { c with step := 1 }
        let s := (s.markDestroying sl).setCmd c
        if s.criticalGoes sl (cmdKey r seq) then s else (s.destroySlice sl bad).finish c stOK

/-- DESTROY_RESUME: a slice left DESTROYING finishes its destroy at READY. -/
def State.destroyResume (s : State) (sl : Nat) (bad : List Nat) : State :=
  if s.phase = phReady ∧ (mapGet s.nv.slices sl).elim false (fun e => e.st == .destroying) = true ∧
      (s.cmds.any fun e => e.2.opcode == 0x0103 && e.2.stage == .running && e.2.par 32 1 == sl) = false then s.destroySlice sl bad
  else s

-- ## KEY_OP (R544)

/-- The KEY_OP command that a row serves: its KIND is the row's, or none of Table 18-6. -/
def State.keyCmd (s : State) (r seq kind : Nat) : Option Cmd :=
  (s.running r seq 0x0104).filter fun c => c.par 32 1 == kind || decide (2 < c.par 32 1)

/-- KIND 0, ROTATE: the key that takes effect when the command completes. -/
def State.keyRotate (s : State) (r seq : Nat) : State :=
  match s.keyCmd r seq 0 with
  | none => s
  | some c =>
    if 2 < c.par 32 1 ∨ !c.unusedZero [(32, 1)] ∨ c.paylen ≠ 32 then s.refuse c stLIMIT
    else
      let key := xorBytes (s.payload c) (kmac256 (s.nv.ock.getD []) (leBytes 8 c.counter) 32 "PN-880 rekey")
      s.finish { c with rekey := some key } stOK

/-- A Falcon-1024 public key: 1,793 bytes, the header byte of degree 1,024, coefficients below 12,289. PRESUMED (log entry 50): the encoding of the Falcon
specification. -/
def falconKeyOk (b : Bytes) : Bool :=
  b.length == 1793 && leAt b 0 1 == 0x0A &&
  (List.range 256).all fun i =>
    let v := (bytesAt b (1 + 7 * i) 7).foldl (fun (v : Nat) (x : Byte) => 256 * v + x.toNat) 0
    (List.range 4).all fun k => decide (v / 2 ^ (14 * k) % 2 ^ 14 < 12289)

/-- KIND 1, SLICEKEY: the slice's policy key is installed, or removed when PAYLEN is 0. -/
def State.sliceKey (s : State) (r seq : Nat) : State :=
  match s.keyCmd r seq 1 with
  | none => s
  | some c =>
    let sl := c.par 33 1
    match firstStatus [(decide (2 < c.par 32 1) || !c.unusedZero [(32, 2)] || decide (sl = 0) || decide (63 < sl), stLIMIT),
        (!s.sliceInService sl, stNOSLICE), (decide (c.paylen ≠ 0) && !falconKeyOk (s.payload c), stLIMIT)] with
    | some st => s.refuse c st
    | none =>
      let key := if c.paylen = 0 then none else some (s.payload c)
      { s with nv := { s.nv with slices := mapUpdate s.nv.slices sl fun e => { e with policyKey := key } } }.finish c stOK

/-- The slice has a consist loaded, or an index, a table or a sequence open. -/
def State.sliceOpen (s : State) (sl : Nat) : Bool :=
  s.consists.any (fun e => e.2.slice == sl) || s.indexes.any (fun e => e.2.slice == sl) || s.tables.any (fun e => e.2.slice == sl) ||
  s.seqs.any fun e => e.2.slice == sl

/-- The PERSIST allocations of a slice with a unit in its namespace on Depot `j` go with it (R533 says so of a destroy).
DESIGN CHOICE: log entry 53. -/
def State.eraseAllocs (s : State) (sl j : Nat) : State :=
  let gone := (s.allocs.filter fun e => e.2.slice == sl && e.2.flash.any fun x => (List.range x.2.2).any fun k =>
    (s.flashPlace sl (x.2.1 + k)).elim false fun p => p.1 == j).map Prod.fst
  { gone.foldl (fun (s : State) id => s.freeAlloc id) s with stores := mapFilter s.stores fun k _ => !gone.contains k }

/-- KIND 2, NSERASE: the slice's namespace on a Depot is destroyed, and an empty one takes its number, size and die set under a fresh key.
DESIGN CHOICE: log entry 53. -/
def State.nsErase (s : State) (r seq : Nat) : State :=
  match s.keyCmd r seq 2 with
  | none => s
  | some c =>
    let sl := c.par 33 1
    let j := c.par 34 1
    let ns := s.sliceNs sl j
    match firstStatus [(decide (2 < c.par 32 1) || !c.unusedZero [(32, 3)] || decide (c.paylen ≠ 0), stLIMIT),
        ((ns.bind fun n => mapGet (s.depot j).namespaces n).isNone, stNONAMESPACE), (s.sliceOpen sl, stBUSY)], ns with
    | some st, _ => s.refuse c st
    | none, none => s
    | none, some n =>
      let x := mapGet (s.depot j).namespaces n
      let s := (s.eraseAllocs sl j).namespaceDestroy j n
      let s := match x with | some v => s.namespaceCreate j n v.size sl v.dies | none => s
      s.finish c stOK

-- ## SCRUB, DEBUG_CTL, JTAG (R466, R552, R553)

/-- The SCRUB command that a row serves: its KIND is the row's, or neither 0 nor 1. -/
def State.scrubCmd (s : State) (r seq kind : Nat) : Option Cmd :=
  (s.running r seq 0x0106).filter fun c => c.par 32 1 == kind || decide (1 < c.par 32 1)

/-- A lane that was SUSPECT returns to READY or DEGRADED. -/
def Depot.clearSuspect (d : Depot) (l : Nat) : Depot :=
  let x := d.lane l
  let worn := d.deadDies.any (fun e => e.1 / 8 == l) || d.deadChannels.any fun c => c / 8 == l
  if x.st = .suspect then d.setLane l { x with st := if worn then .degraded else .ready } else d

/-- SCRUB KIND 0. DEDUCED: log entry 54. -/
def State.scrubClearSuspect (s : State) (r seq : Nat) : State :=
  match s.scrubCmd r seq 0 with
  | none => s
  | some c =>
    let j := c.par 33 1
    let l := c.par 34 1
    if 1 < c.par 32 1 ∨ !c.unusedZero [(32, 3)] ∨ s.jdCount ≤ j ∨ 1 < l then s.refuse c stLIMIT
    else (s.setDepot j ((s.depot j).clearSuspect l)).finish c stOK

/-- SCRUB KIND 1: a patrol pass of tiers 2 and 3 starts. -/
def State.scrubPatrol (s : State) (r seq : Nat) : State :=
  match s.scrubCmd r seq 1 with
  | none => s
  | some c =>
    if 1 < c.par 32 1 ∨ !c.unusedZero [(32, 1)] then s.refuse c stLIMIT
    else { s with stm := { s.stm with patrol := true } }.finish c stOK

/-- DEBUG_CTL. -/
def State.debugCtl (s : State) (r seq : Nat) : State :=
  match s.running r seq 0x0109 with
  | none => s
  | some c =>
    if 1 < c.par 32 1 ∨ 1 < c.par 33 1 ∨ 1 < c.par 34 1 ∨ !c.unusedZero [(32, 3)] ∨ c.paylen ≠ 8 then s.refuse c stLIMIT
    else
      let mask := leAt (s.payload c) 0 8
      let s := ((s.setFld SEC_DEBUG_JTAGFULL (c.par 32 1)).setFld SEC_DEBUG_TRACE (c.par 33 1)).setFld SEC_DEBUG_PROFILE (c.par 34 1)
      let s := (s.setFld SEC_TRACEMASK_SLICES mask).logAppend ltDebug
        (leBytes 1 (c.par 32 1) ++ leBytes 1 (c.par 33 1) ++ leBytes 1 (c.par 34 1) ++ List.replicate 5 0 ++ leBytes 8 mask)
      s.finish c stOK

/-- A register written over JTAG: the seal does not hold (R552). DEDUCED: log entry 49. -/
def State.jtagWrite (s : State) (off : Nat) (v : Word) : State :=
  let sealed_ := s.fld SEC_SEAL_SEALED
  let s := (s.setFld SEC_SEAL_SEALED 0).writeWord off v
  if off = regOffset .secSeal 0 0 then s else s.setFld SEC_SEAL_SEALED sealed_

/-- JTAG_ACCESS: boundary scan, identification and recovery at all times; with JTAGFULL set also frames, registers and memory (R552).
DESIGN CHOICE: log entry 48. DEDUCED: log entry 49. -/
def State.jtagAccess (s : State) (op : JtagOp) : State :=
  let full := s.fld SEC_DEBUG_JTAGFULL == 1
  match op with
  | .boundaryScan => { s with freeCtr := s.freeCtr + 1, jtagOut := s.jtagOut ++ [Config.boundaryScan s.freeCtr] }
  | .idcode => { s with jtagOut := s.jtagOut ++ [Config.jtagIdcode] }
  | .readReg off => if full && off % 8 == 0 then { s with jtagOut := s.jtagOut ++ [leBytes 8 (s.readWord off).toNat] } else s
  | .readMem id off n => if full then { s with jtagOut := s.jtagOut ++ [s.allocBytes id off n] } else s
  | .recovery entry payload => s.recoveryService true (bytesAt entry 0 256 ++ payload)
  | .haltFrame f => if full then { s with frames := mapUpdate s.frames f fun x => { x with wait := .jtag } } else s
  | .writeReg off v => if full && off % 8 == 0 then s.jtagWrite off v else s
  | .writeMem id off data => if full then s.allocStore id off data else s

-- ## Slice telemetry (R554)

/-- The 4 KiB of a slice's telemetry, with the temperatures at byte 64. DESIGN CHOICE: log entries 55, 120. -/
def State.telemetryBytes (s : State) (sl : Nat) (temps : Bytes) : Bytes :=
  let c := s.sliceCounts sl
  bytesAt (bytesAt (leBytes 8 s.now ++ leBytes 4 s.stm.lastFaultSeq ++ List.replicate 4 0 ++
    [c.cvtsat, c.cvtnan, c.carrysat, c.accsat, c.faultProg, c.mismatch].flatMap (leBytes 8)) 0 64 ++ bytesAt temps 0 192 ++ c.records.flatten) 0 4096

/-- SLICE_TELEMETRY_UPDATE: once per second every tenant's allocation is rewritten; under TEMPCOARSE the temperatures change at most once
per 10 s (R537). DESIGN CHOICE: log entry 55. -/
def State.sliceTelemetryUpdate (s : State) (dt : Nat) : State :=
  let s := s.tick dt
  if s.phase ≠ phReady ∨ s.stm.takeoverWindow = true then s
  else
    let coarse := s.fld SEC_ISOL_TEMPCOARSE == 1
    let keep := coarse && decide (s.stm.telemetryAt ≠ 0) && decide (s.clock.mono < s.stm.telemetryAt + 10 ^ 10)
    let temps := [0, 1].flatMap fun d => leBytes 2 (ofSigned (coarsen coarse (hottest (dieDiodes s.stm.diodes d))) 16)
    let s := if keep then s else { s with stm := { s.stm with telemetryAt := s.clock.mono } }
    (mapKeys s.nv.slices).foldl (fun (s : State) sl =>
      match s.named sl telemetryName with
      | some (id, _) => s.allocStore id 0 (s.telemetryBytes sl (if keep then s.allocBytes id 64 4 else temps))
      | none => s) s

end Sys2Proof.Machine
end

