-- ==== Sys2Proof/Machine/CriticalCommands.lean ====
section
/-! DEFINITION. The meanings of the commands of the critical commands and the activations and clears they start (chapters 12 to 14, 18 and 19), one for each row of the table. -/

namespace Sys2Proof.Machine

/-- FW_STAGE (R568): FW_STAGE writes part of an image into the idle slot, or under PHASE 1 verifies it and marks it VERIFIED. -/
def execFwStage (r seq : Nat) (s : State) : Outcome := .next (s.fwStage r seq)

/-- FW_ACTIVATE_TRIAL (R569): FW_ACTIVATE MODE 0 activates the staged image on trial without raising the rollback counter. -/
def execFwActivateTrial (r seq : Nat) (s : State) : Outcome := .next (s.fwActivateTrial r seq)

/-- FW_ACTIVATE_COMMIT (R570): FW_ACTIVATE MODE 1 activates or commits the image and raises the rollback counter to FLOOR. -/
def execFwActivateCommit (r seq : Nat) (s : State) : Outcome := .next (s.fwActivateCommit r seq)

/-- FW_ACTIVATE_REVERT (R570): FW_ACTIVATE MODE 2 reverts a trial to the previous slot. -/
def execFwActivateRevert (r seq : Nat) (s : State) : Outcome := .next (s.fwActivateRevert r seq)

/-- ACTIVATION_STANDBY_RESTART (R569): JD1 restarts on the staged image and takes the mirrored state. -/
def execActivationStandbyRestart (verified : Bool) (s : State) : Outcome := .next (s.activationStandbyRestart verified)

/-- ACTIVATION_HANDOVER (R569): the window opens and JD0 hands the active role to JD1 and stops. -/
def execActivationHandover (s : State) : Outcome := .next (s.activationHandover)

/-- ACTIVATION_ACTIVE_RESTART (R569): JD0 restarts on the new image as standby. -/
def execActivationActiveRestart (verified : Bool) (s : State) : Outcome := .next (s.activationActiveRestart verified)

/-- ACTIVATION_HANDBACK (R569): the active role returns to JD0 and the window closes. -/
def execActivationHandback (s : State) : Outcome := .next (s.activationHandback)

/-- TRIAL_TIMEOUT (R570): when TRIALSEC passes, or after a third start in trial, the trial image is reverted. -/
def execTrialTimeout (dtSec : Nat) (s : State) : Outcome := .next (s.trialTimeout dtSec)

/-- TENANT_CREATE (R531): TENANT_CREATE checks the composition, drains and clears the units, creates namespaces and puts the slice in service. -/
def execTenantCreate (r seq : Nat) (failedClears : List Nat) (s : State) : Outcome := .next (s.tenantCreate r seq failedClears)

/-- TENANT_AMEND (R532): TENANT_CREATE with AMEND changes a slice's composition, draining, releasing and clearing units. -/
def execTenantAmend (r seq : Nat) (failedClears : List Nat) (s : State) : Outcome := .next (s.tenantAmend r seq failedClears)

/-- TENANT_DESTROY (R533): TENANT_DESTROY resets the slice, destroys its namespaces, clears its units and returns them to slice 0. -/
def execTenantDestroy (r seq : Nat) (failedClears : List Nat) (s : State) : Outcome := .next (s.tenantDestroy r seq failedClears)

/-- DESTROY_RESUME (R533): A slice left DESTROYING by a power cut finishes its destroy once the device is READY. -/
def execDestroyResume (slice : Nat) (failedClears : List Nat) (s : State) : Outcome := .next (s.destroyResume slice failedClears)

/-- UNIT_CLEAR (R539): A clear marks a unit CLEARING, writes zeros, reads them back and logs the clear record. -/
def execUnitClear (unit fromSlice toSlice cause : Nat) (outcome : ClearEnd) (dt : Nat) (s : State) : Outcome := .next (s.unitClear unit fromSlice toSlice cause outcome dt)

/-- KEY_ROTATE (R544): KEY_OP ROTATE derives a new operator command key from the payload. -/
def execKeyRotate (r seq : Nat) (s : State) : Outcome := .next (s.keyRotate r seq)

/-- SLICE_KEY (R544): KEY_OP SLICEKEY installs or removes a slice's Falcon-1024 policy key. -/
def execSliceKey (r seq : Nat) (s : State) : Outcome := .next (s.sliceKey r seq)

/-- NS_ERASE (R544): KEY_OP NSERASE destroys a slice's namespace and recreates it empty under a fresh key. -/
def execNsErase (r seq : Nat) (s : State) : Outcome := .next (s.nsErase r seq)

/-- FENCE (R418): ring command FENCE fences the receiving device. -/
def execFence (r seq : Nat) (s : State) : Outcome := .next (s.fenceCmd r seq)

/-- SCRUB_CLEAR_SUSPECT (R466): SCRUB KIND 0 clears SUSPECT on one Depot lane. -/
def execScrubClearSuspect (r seq : Nat) (s : State) : Outcome := .next (s.scrubClearSuspect r seq)

/-- SCRUB_PATROL (R466): SCRUB KIND 1 starts an immediate patrol pass of tiers 2 and 3. -/
def execScrubPatrol (r seq : Nat) (s : State) : Outcome := .next (s.scrubPatrol r seq)

/-- EPOCH_SET (R414): EPOCH_SET accepts a later membership epoch with its domain list and barrier trees, or refuses with STALE_EPOCH. -/
def execEpochSet (r seq : Nat) (s : State) : Outcome := .next (s.epochSetCmd r seq)

/-- TT_COMMIT (R437): TT_COMMIT checks a timetable list and makes it pending with a switch time. -/
def execTtCommit (r seq : Nat) (dt : Nat) (s : State) : Outcome := .next (s.ttCommit r seq dt)

/-- DEBUG_CTL (R553): DEBUG_CTL sets JTAG, trace and profile modes and the traced-slice mask. -/
def execDebugCtl (r seq : Nat) (s : State) : Outcome := .next (s.debugCtl r seq)

end Sys2Proof.Machine
end

