-- ==== Sys2Proof/Machine/FabricCommands.lean ====
section
/-! DEFINITION. The meanings of the commands of ports, shaping and the Jugan Link fabric (chapters 13 and 14), one for each row of the table. -/

namespace Sys2Proof.Machine

/-- TIMETABLE_SWITCH (R438): at the switch time, the pending list becomes operative from entry 0. -/
def execTimetableSwitch (list : Nat) (dt : Nat) (s : State) : Outcome := .next (s.timetableSwitch list dt)

/-- TIMETABLE_ENTRY_BEGIN (R436): A timetable entry begins and its gates take effect within 20 ns. -/
def execTimetableEntryBegin (list : Nat) (dt : Nat) (s : State) : Outcome := .next (s.timetableEntryBegin list dt)

/-- EGRESS_BEGIN (R432): when a link can begin a packet, the scheduler serves class 0 first, then the eligible class with the least start tag. -/
def execEgressBegin (port : Nat) (dt : Nat) (s : State) : Outcome := .next (s.egressBegin port dt)

/-- EGRESS_ENQUEUE (R432): A packet arriving at a class queue gets its start and finish tags. -/
def execEgressEnqueue (port cls : Nat) (packet : Bytes) (dt : Nat) (s : State) : Outcome := .next (s.egressEnqueue port cls packet dt)

/-- FLIT_RECEIVE (R395): A link flit arrives; its CRC, sequence, acknowledgement and credits are processed. -/
def execFlitReceive (port : Nat) (flit : Bytes) (s : State) : Outcome := .next (s.flitReceive port flit)

/-- NAK (R396): on a received NAK, the sender resends every flit after the one it names from its replay buffer. -/
def execNak (port : Nat) (seq : Nat) (s : State) : Outcome := .next (s.nak port seq)

/-- INBOUND_READ (R405): an inbound READ is policed, checked and served with a READ_REPLY. -/
def execInboundRead (port : Nat) (packet : Bytes) (dt : Nat) (s : State) : Outcome := .next (s.inbound opREAD port packet dt)

/-- INBOUND_WRITE (R407): an inbound WRITE is policed, checked, applied and acknowledged with WRITE_ACK. -/
def execInboundWrite (port : Nat) (packet : Bytes) (dt : Nat) (s : State) : Outcome := .next (s.inbound opWRITE port packet dt)

/-- INBOUND_ATOMIC (R412): an inbound ATOMIC is answered from the replay table, applied and recorded, or refused with BUSY or SEQ_STALE. -/
def execInboundAtomic (port : Nat) (packet : Bytes) (dt : Nat) (s : State) : Outcome := .next (s.inbound opATOMIC port packet dt)

/-- INBOUND_MSG (R406): an inbound MSG is appended to the job's message ring, or refused with BUSY or NO_ACCESS. -/
def execInboundMsg (port : Nat) (packet : Bytes) (dt : Nat) (s : State) : Outcome := .next (s.inbound opMSG port packet dt)

/-- LATER_EPOCH_HOLD_EXPIRY (R415): A request of a later epoch held for 500 µs without an EPOCH_SET is refused with STALE_EPOCH. -/
def execLaterEpochHoldExpiry (hold : Nat) (dt : Nat) (s : State) : Outcome := .next (s.holdExpiry hold dt)

/-- READ_REPLY (R413): A READ_REPLY completes an RLD or engine read and may fill the read cache. -/
def execReadReply (packet : Bytes) (s : State) : Outcome := .next (s.reply 0x81 packet 0)

/-- WRITE_ACK (R408): A WRITE_ACK acknowledges a store, releasing held same-word stores and waiting RSTFs. -/
def execWriteAck (packet : Bytes) (s : State) : Outcome := .next (s.reply 0x82 packet 0)

/-- ATOMIC_REPLY (R413): an ATOMIC_REPLY completes an RATOM with the old value and status, or triggers a BUSY resend. -/
def execAtomicReply (packet : Bytes) (dt : Nat) (s : State) : Outcome := .next (s.reply 0x84 packet dt)

/-- MSG_ACK (R406): A MSG_ACK completes a message, or BUSY schedules a resend after 100 µs. -/
def execMsgAck (packet : Bytes) (dt : Nat) (s : State) : Outcome := .next (s.reply 0x85 packet dt)

/-- MSG_RESEND (R406): 100 µs after a BUSY refusal, the source resends the message. -/
def execMsgResend (req : Nat) (dt : Nat) (s : State) : Outcome := .next (s.msgResend req dt)

/-- ATOMIC_RETRY_TIMEOUT (R413): with no reply after ATIMEOUT, an RLD or RATOM is resent with RETRY set, up to RETRIES times. -/
def execAtomicRetryTimeout (req : Nat) (dt : Nat) (s : State) : Outcome := .next (s.atomicRetry req dt)

/-- REQUEST_UNREACHABLE (R413): with no reply 5 ms after the last sending, a request completes with UNREACHABLE. -/
def execRequestUnreachable (req : Nat) (dt : Nat) (s : State) : Outcome := .next (s.unreachable req dt)

/-- WRITE_ACK_TIMEOUT (R409): A WRITE unacknowledged after 5 ms completes with UNREACHABLE. -/
def execWriteAckTimeout (req : Nat) (dt : Nat) (s : State) : Outcome := .next (s.writeTimeout req dt)

/-- LEASE (R416): A valid LEASE grant renews the device's lease for 2 s. -/
def execLease (packet : Bytes) (dt : Nat) (s : State) : Outcome := .next (s.lease packet dt)

/-- LEASE_EXPIRY (R416): the lease ends 2 s after the last valid grant and the device enters FENCED. -/
def execLeaseExpiry (dt : Nat) (s : State) : Outcome := .next (s.leaseExpiry dt)

/-- FENCE_PACKET (R418): A valid FENCE packet naming this node fences the device and is answered once quiesce step 4 is done. -/
def execFencePacket (packet : Bytes) (s : State) : Outcome := .next (s.fencePacket packet)

/-- EPOCH_SET_PART (R418): A part of a fabric EPOCH_SET is gathered and answered; the final part applies the set under R414. -/
def execEpochSetPart (packet : Bytes) (s : State) : Outcome := .next (s.epochSetPart packet)

/-- QUIESCE (R417): on entering FENCED, the device stops sending, refuses inbound requests, ends all work with FENCED and reports FENCED in every
status word. -/
def execQuiesce (s : State) : Outcome := .next (s.quiesce)

/-- QUIESCE_DEPOT_FLUSH (R417): the Depots finish started program units without acknowledging them and flush the journal. -/
def execQuiesceDepotFlush (s : State) : Outcome := .next (s.quiesceDepotFlush)

/-- BAR_ARRIVE (R419): A leader or root numbers a BAR_ARRIVE and, when its group is complete, forwards arrival or release. -/
def execBarArrive (packet : Bytes) (s : State) : Outcome := .next (s.barArrive packet)

/-- BAR_RELEASE (R419): A BAR_RELEASE completes a group 1 barrier at a member, carrying its ranks, or is relayed by a leader. -/
def execBarRelease (packet : Bytes) (s : State) : Outcome := .next (s.barRelease packet)

/-- BAR_BREAK (R421): A BAR_BREAK halts the member's waiting frames with BAR_BROKEN. -/
def execBarBreak (packet : Bytes) (s : State) : Outcome := .next (s.barBreak packet)

/-- LANE_RETIRE_RETRAIN (R394): after a lane retirement, the port retrains at the widest width that avoids retired lanes. -/
def execLaneRetireRetrain (port : Nat) (lanesOk : BitVec 4) (s : State) : Outcome := .next (s.laneRetireRetrain port lanesOk)

/-- RS_ENCODE (R423): the Reed-Solomon engine encodes a stripe generation and completes when all G units are acknowledged. -/
def execRsEncode (jd group stripe gen : Nat) (data : List Bytes) (acked : List Bool) (s : State) : Outcome := .next (s.rsEncode jd group stripe gen data acked)

/-- RS_RECONSTRUCT (R424): A stripe is reconstructed from the highest generation that at least k units carry, or ends with DECODE_SHORT. -/
def execRsReconstruct (jd group stripe : Nat) (units : List (Option Bytes)) (role : Nat) (s : State) : Outcome := .next (s.rsReconstruct jd group stripe units role)

/-- SPARE_ASSIGN (R424): the fault manager assigns the spare to member m and it reconstructs that member's role of every stripe. -/
def execSpareAssign (group members member : Nat) (s : State) : Outcome := .next (s.spareAssign group members member)

end Sys2Proof.Machine
end

