-- ==== Sys2Proof/Machine/FrameCommands.lean ====
section
/-! DEFINITION. The meanings of the commands of frames and the engines they call (chapters 7, 9 and 10), one for each row of the table. -/

namespace Sys2Proof.Machine

/-- BUNDLE_ISSUE (R274): A frame issues one 128-bit bundle as one act, its slots reading before writing. -/
def execBundleIssue (frame : Nat) (dt : Nat) (s : State) : Outcome := .next (s.bundleIssue frame dt)

/-- MMA_SLAB_ADD (R212): the rod array completes a slab, checks it by residue and adds the exact slab sum to the bank. -/
def execMmaSlabAdd (frame : Nat) (residueFailures : Nat) (s : State) : Outcome := .next (s.mmaSlabAdd frame residueFailures)

/-- CARRY_CHECK_MISMATCH (R510): A CARRY product or shift check disagrees and is handled as a slab disagreement. -/
def execCarryCheckMismatch (frame : Nat) (failures : Nat) (s : State) : Outcome := .next (s.carryCheck frame failures)

/-- WINDOW_FETCH_DONE (R227): A layer window finishes fetching a layer into its slot, releasing waiting reads. -/
def execWindowFetchDone (run alloc layer : Nat) (s : State) : Outcome := .next (s.windowFetchDone run alloc layer)

/-- WALK (R69): A Shunter admits a walk, pins its version and claims a context, waiting for one if none is free. -/
def execWalk (shunter call : Nat) (s : State) : Outcome := .next (s.walk shunter call)

/-- WALK_ROUND (R69): A walk round expands up to BATCH candidates and offers their unvisited neighbours. -/
def execWalkRound (shunter call : Nat) (bead : CheckEvent) (s : State) : Outcome := .next (s.walkRound shunter call bead)

/-- SWEEP (R106): A Shunter gathers queries for up to 2 µs and sweeps the siding buffers for them. -/
def execSweep (shunter : Nat) (calls : List Nat) (s : State) : Outcome := .next (s.sweep shunter calls)

/-- TOPK_CALL (R130): A Selector reads a row or stream, keeps the best K with duplicate and tie rules, and writes entries and summary. -/
def execTopkCall (selector call : Nat) (sel : CheckEvent) (s : State) : Outcome := .next (s.topkCall selector call sel)

/-- MERGE_CALL (R142): A Selector merges 2 to 16 lists and their summaries into one. -/
def execMergeCall (selector call : Nat) (sel : CheckEvent) (s : State) : Outcome := .next (s.mergeCall selector call sel)

/-- GATHER_SERVE (R163): A shard serves a gather at its epoch, waiting while its TEPOCH is lower. -/
def execGatherServe (req : GatherReq) (s : State) : Outcome := .next (s.gatherServe req)

/-- SCATADD_ACCUMULATE (R165): an owner takes a gradient contribution into its buffer. -/
def execScataddAccumulate (req : ScatReq) (s : State) : Outcome := .next (s.scataddAccumulate req)

/-- APPLY (R169): APPLY waits for the epoch's gathers, updates rows in fixed order, installs directory changes and advances TEPOCH. -/
def execApply (call oldest : Nat) (s : State) : Outcome := .next (s.apply call oldest)

/-- TABLE_INTERVAL_END (R170): at each measurement interval end, shards exchange totals and start replication or migration. -/
def execTableIntervalEnd (table : Nat) (totals : List Nat) (s : State) : Outcome := .next (s.tableIntervalEnd table totals)

/-- ROW_MIGRATION_COPY (R173): the migrator reserves a slot at T and copies the row's value and state. -/
def execRowMigrationCopy (table row target : Nat) (s : State) : Outcome := .next (s.rowMigrationCopy table row target)

/-- MIGRATION_INSTALL (R173): T installs the last logged row image before it serves epoch EM. -/
def execMigrationInstall (table row : Nat) (news : RowNews) (s : State) : Outcome := .next (s.migrationInstall table row news)

/-- MIGRATION_FREE (R173): S frees the old copy once no earlier-epoch request is in flight and T has confirmed. -/
def execMigrationFree (table row : Nat) (s : State) : Outcome := .next (s.migrationFree table row)

/-- RUN_TIMEOUT (R290): RUNTIMEOUT passes and every frame of the run halts with RUN_TIMEOUT. -/
def execRunTimeout (run : Nat) (dt : Nat) (s : State) : Outcome := .next (s.runTimeout run dt)

/-- BAR_TIMEOUT (R285): BARTIMEOUT passes from the first arrival and waiting members halt with BAR_TIMEOUT. -/
def execBarTimeout (run : Nat) (dt : Nat) (s : State) : Outcome := .next (s.barTimeout run dt)

/-- PEER_HALT (R288): after a frame faults, every other frame of the run halts at its next bundle boundary with HALT_PEER. -/
def execPeerHalt (run : Nat) (dt : Nat) (s : State) : Outcome := .next (s.peerHalt run dt)

/-- RUN_COMPLETE (R290): when every frame has halted and stores are visible, the run completes with the status of R290. -/
def execRunComplete (run : Nat) (s : State) : Outcome := .next (s.runComplete run)

end Sys2Proof.Machine
end

