-- ==== Sys2Proof/Machine/Faults.lean ====
section
/-! DEFINITION. Faults and resilience (chapter 17): fault events and their records, canaries, shadow passes, and the ownership of request
state. -/

namespace Sys2Proof.Machine

-- ## Fault events (R500 to R504, R515)

/-- Units of each type that the variant carries (Table 17-2, Table 0-1). -/
def State.unitCount (s : State) (t : Nat) : Nat :=
  match t with
  | 1 => 192 | 2 => 128 | 3 => 16 | 4 => 4096 | 5 => 64 * s.hbmStacks | 6 => 8 * s.ddrChannels | 7 => 256 * s.jdCount | 8 => 16 * s.jdCount
  | 9 => 4 * s.jugPorts | 10 => 8 | 11 => 4 * s.jdCount | 12 => s.jdCount | 13 => 2
  | _ => 0

/-- A unit id names a unit of this device that the grade enables (R502). -/
def State.unitPresent (s : State) (u : Nat) : Bool :=
  decide (u < 2 ^ 16) && decide (unitIndex u < s.unitCount (unitType u)) && (unitType u != 1 || s.frameEnabled (unitIndex u))

/-- A source code of Table 17-7. -/
def faultSourceOk (source : Nat) : Bool := decide (1 ≤ source) && decide (source ≤ 14)

/-- TRANSIENT_EVENT (R501, R503). -/
def State.transientEvent (s : State) (u source dt : Nat) : State :=
  let s := s.tick dt
  if s.unitPresent u && faultSourceOk source && !s.retired u then s.transient u source else s

/-- UNIT_RETIRE: an event that Table 17-3 makes permanent at once (R501, R504, R505). DESIGN CHOICE: log entry 62. -/
def State.unitRetire (s : State) (u source : Nat) : State :=
  if s.unitPresent u && faultSourceOk source then s.retirePermanent u source else s

/-- FAULT_RECORD (R515). CORRECTED events have records of their own, one a minute. DEDUCED: log entry 112. -/
def State.faultRecordRow (s : State) (u : Nat) (cls : FaultClass) (source pattern slice addr : Nat) : State :=
  if (u = 0 ∨ s.unitPresent u = true) ∧ faultSourceOk source = true ∧ cls ≠ .corrected then s.report u cls source (pattern % 2 ^ 16) slice addr else s

/-- SOURCE of a unit's CORRECTED records (Table 17-7): link FEC for lanes, ECC for the rest. DEDUCED: log entry 112. -/
def correctedSource (u : Nat) : Nat := if unitType u = 9 ∨ unitType u = 10 then 7 else 1

/-- CORRECTED_SUMMARY: a minute's CORRECTED events of a unit (R515). DEDUCED: log entry 112. -/
def State.correctedSummary (s : State) (u count : Nat) : State :=
  if s.unitPresent u && decide (0 < count) then s.faultRecord u .corrected (correctedSource u) 0 0xFF 0 (count % 2 ^ 32) else s

-- ## Canaries (R513)

/-- The pattern classes of the canaries that a unit runs (Table 17-5). -/
def canaryClasses (u : Nat) : List Nat :=
  match unitType u with
  | 1 => List.range 6 | 2 => [6] | 3 => [7]
  | _ => []

/-- Classes that a frame has not passed within its window in the temperature bin its die stands in (R513). DEDUCED: log entry 26. -/
def State.canaryDue (s : State) (f : Nat) : List Nat :=
  let b := tempBin (s.unitTemp (unitId 1 f))
  (List.range 6).filter fun c => !s.stm.canPasses.any fun p =>
    p.1 == f && p.2.1 == b && p.2.2.1 == c && decide (s.clock.mono < p.2.2.2 + windowNs)

/-- A unit in service that is idle: a frame no run has claimed, a Shunter without a walk, a Selector between calls; no canary runs on it. -/
def State.canaryIdle (s : State) (u : Nat) : Bool :=
  s.unitPresent u && !s.retired u && !s.unitClearing u && !(s.stm.canaries.any fun c => c.unit == u) &&
  (match unitType u with
   | 1 => (s.frame (unitIndex u)).isNone
   | 2 => !(s.activeWalks.any fun w => w.shunter == unitIndex u)
   | 3 => true
   | _ => false)

/-- Idle frames that a canary has still to be run on first (R513). DEDUCED: log entry 26. -/
def State.canaryFirst (s : State) : List Nat := (List.range 192).filter fun f => s.canaryIdle (unitId 1 f) && !(s.canaryDue f).isEmpty

/-- The Stationmaster may choose class `c` on unit `u` (R513): a frame with a class still to pass first, its lowest class; where there is
none, any class of any idle unit. DEDUCED: log entry 26. -/
def State.canaryChoice (s : State) (u c : Nat) : Bool :=
  s.canaryIdle u && (canaryClasses u).contains c &&
  (s.canaryFirst.isEmpty || (unitType u == 1 && (s.canaryDue (unitIndex u)).head? == some c))

/-- CANARY_START (R513). DESIGN CHOICE: log entry 25. -/
def State.canaryStart (s : State) (u c number : Nat) : State :=
  if s.phase = phReady ∧ s.activeUp = true ∧ s.fld FLT_CFG_CANEN = 1 ∧ number < 4096 ∧ s.canaryChoice u c = true then
    { s with stm := { s.stm with canaries := s.stm.canaries ++ [Canary.mk u c number] } }
  else s

/-- The canary that runs on a unit. -/
def State.canaryOn (s : State) (u : Nat) : Option Canary := s.stm.canaries.find? fun c => c.unit == u

/-- The state without the canary of a unit. -/
def State.canaryOff (s : State) (u : Nat) : State := { s with stm := { s.stm with canaries := s.stm.canaries.filter fun c => c.unit != u } }

/-- CANARY_COMPLETE: the digest of the output against the stored answer (R513). DESIGN CHOICE: log entry 132. -/
def State.canaryComplete (s : State) (u : Nat) (digest stored : BitVec 128) : State :=
  match s.canaryOn u with
  | some c => (s.canaryOff u).canaryEnd u c.cls (c.cls * 4096 + c.number) (digest == stored)
  | none => s

/-- Frames that waiting runs whose turn has come are about to claim (R266). DEDUCED: log entry 111. -/
def State.aboutToClaim (s : State) : List Nat :=
  s.runs.flatMap fun e =>
    match s.runConsist e.2 with
    | some k =>
      let fs := s.claimable e.2.slice
      if e.2.phys.isEmpty && !s.waitsBefore e.2.slice e.1 && decide (k.nframes ≤ fs.length) && !s.tooFew e.2.slice k then fs.take k.nframes else []
    | none => []

/-- CANARY_ABORT: a run that claims the frame stops its canary, which counts nothing (R513). The frame keeps nothing of it (R494).
DESIGN CHOICE: log entry 30. DEDUCED: log entry 111. -/
def State.canaryAbort (s : State) (u : Nat) : State :=
  if unitType u == 1 && s.aboutToClaim.contains (unitIndex u) then s.canaryOff u else s

-- ## Shadow passes (R511, R512)

/-- PATTERN of a shadow event: the class of the MMA form, number 0xFFF (R513). -/
def shadowPattern (cls : Nat) : Nat := cls % 8 * 4096 + 0xFFF

/-- The shadow frame of an origin (R511): the next in-service frame of the run in logical order; in a run of one frame, the lowest-numbered
unclaimed in-service frame of the slice. -/
def State.shadowOf (s : State) (r : Run) (origin : Nat) : Option Nat :=
  match r.phys.findIdx? (· == origin) with
  | none => none
  | some i =>
    if r.phys.length = 1 then (s.claimable r.slice).head?
    else (r.phys.drop (i + 1) ++ r.phys.take i).find? s.frameInService

/-- SHADOW_COMPARE (R511): counted; a disagreement waits for the third computation.
DEDUCED: log entry 110. DESIGN CHOICE: log entry 132. -/
def State.shadowCompare (s : State) (run origin : Nat) (agree : Bool) (cls : Nat) : State :=
  match s.run run with
  | none => s
  | some r =>
    match s.shadowOf r origin with
    | none => s
    | some shadow =>
      let s := s.count FLT_SHADOW_COMPARED
      if agree then s
      else (s.count FLT_SHADOW_MISMATCH).setRun run { r with shadows := r.shadows ++ [(origin, shadow, cls % 8)] }

/-- The third frame of R512 is another in-service frame of the slice; where the slice has none, no computation agrees.
DEDUCED: log entry 110. -/
def State.thirdOk (s : State) (sl origin shadow third : Nat) (agrees : Bool) : Bool :=
  let others := (s.sliceFrames sl).filter fun f => f != origin && f != shadow
  if others.isEmpty then !agrees else others.contains third

/-- The run's result is wrong (R512): it restarts under R508, or goes on and completes with MISMATCH. DEDUCED: log entry 109. -/
def State.wrongResult (s : State) (run : Nat) : State :=
  match s.run run with
  | none => s
  | some r =>
    let r' := { r with wrong := true, mismatch := r.mismatch || r.restarted || !r.restartable }
    let s := s.setRun run r'
    if r'.restartDue then s.haltPeers run else s

/-- SHADOW_THIRD_COMPUTE (R512). DEDUCED: log entry 110. -/
def State.shadowThirdCompute (s : State) (run origin shadow third : Nat) (originOk shadowOk : Bool) (cls : Nat) : State :=
  match s.run run with
  | none => s
  | some r =>
    if r.shadows.contains (origin, shadow, cls) && s.thirdOk r.slice origin shadow third (originOk || shadowOk) && !(originOk && shadowOk) then
      let s := s.setRun run { r with shadows := r.shadows.erase (origin, shadow, cls) }
      let s := if originOk then s else s.wrongResult run
      let s := if shadowOk then s else s.checkEvent shadow 3 (shadowPattern cls) r.slice
      if originOk then s else s.checkEvent origin 3 (shadowPattern cls) r.slice
    else s

-- ## Ownership of request state (R519 to R522)

/-- Ownership records that the state table holds (R519). DEDUCED: log entry 116. -/
abbrev ownTableSize : Nat := 2097152

/-- Key `a` is later than key `b` (R519). -/
def keyLater (a b : Nat × Nat) : Bool := decide (b.1 < a.1) || (a.1 == b.1 && decide (b.2 < a.2))

/-- The key of a record. -/
def OwnRecord.key (r : OwnRecord) : Nat × Nat := (r.epoch, r.hseq)

/-- The state with a record written. -/
def State.setOwn (s : State) (reqid : Nat) (r : OwnRecord) : State := { s with owns := mapSet s.owns reqid r }

/-- The 32 bytes of an ownership record (Table 17-8). -/
def OwnRecord.bytes (r : OwnRecord) (reqid : Nat) : Bytes :=
  let b := leBytes 8 reqid ++ leBytes 3 r.owner ++ leBytes 1 (match r.st with | .owned => 1 | .handed => 2 | .importing => 3) ++
    leBytes 4 r.epoch ++ leBytes 4 r.hseq ++ leBytes 2 r.phase ++ List.replicate 6 0
  b ++ leBytes 4 (crc32c b).toNat

/-- The class of an ownership event's record. -/
def ownershipClass : FaultClass :=
  match Config.ownershipClass % 6 with
  | 0 => .corrected | 1 => .transient | 2 => .permanent | 3 => .check | 4 => .quarantine | _ => .fatal

/-- A record with SOURCE 14 (R521, R522): a device-wide event. DESIGN CHOICE: log entry 113. -/
def State.reportOwnership (s : State) : State := s.report 0 ownershipClass 14

/-- OWNER_STALE is returned: counted and reported (R521). -/
def State.ownerStale (s : State) : State := (s.count FLT_OWN_STALE).reportOwnership

/-- A message of the hand-off, in the job's class (R520). DESIGN CHOICE (log entry 114): the payload is a kind (1 claim, 2 answer, 3 DONE), a status, the
REQID, the key the claim carries and the new key. -/
def State.handOff (s : State) (kind status reqid job dst : Nat) (carried new : Nat × Nat) : State :=
  let payload := leBytes 4 kind ++ leBytes 4 status ++ leBytes 8 reqid ++ leBytes 4 carried.1 ++ leBytes 4 carried.2 ++ leBytes 4 new.1 ++
    leBytes 4 new.2
  s.emit (Pkt.mk opMSG ((mapGet s.jobs job).elim 0 fun j => j.tc) false false 0 dst s.node job s.epoch 0 0 0 payload.length 0 payload).bytes

/-- Send, or send again, the claim of an IMPORTING record. DESIGN CHOICE: log entry 114. -/
def State.sendClaim (s : State) (reqid : Nat) (r : OwnRecord) : State := s.handOff 1 0 reqid r.job r.peer (r.fromEpoch, r.fromHseq) r.key

/-- A phase ends with STATE_LOST (R522): its IMPORTING record goes. -/
def State.stateLost (s : State) (reqid : Nat) : State :=
  let s := s.count FLT_STATELOST_COUNT
  if (mapGet s.owns reqid).elim false fun r => r.st == .importing then { s with owns := mapErase s.owns reqid } else s

/-- The owner of a hand-off can answer: a member of this device's epoch (R522). DESIGN CHOICE: log entry 94. -/
def State.reachable (s : State) (node : Nat) : Bool := s.epoch != 0 && Config.isMember s.epoch node

/-- The device learns of a later record for a request (R521): the copy goes unless the record is HANDED and the later owner's DONE has not
come; the later key is kept as a HANDED record. DEDUCED: log entry 116. -/
def State.learnLater (s : State) (reqid : Nat) (r : OwnRecord) (key : Nat × Nat) (owner : Nat) (done : Bool) : State :=
  s.setOwn reqid { r with st := .handed, owner := owner, epoch := key.1, hseq := key.2, copy := r.copy && r.st == .handed && !done,
                          doneAt := if done then some s.clock.mono else none }

/-- Step 1 of Table 17-9: IMPORTING is written and the claim sent; STATE_LOST where the owner is no member (R522). -/
def State.beginImport (s : State) (reqid owner epoch hseq phase job : Nat) : State :=
  if !s.reachable owner then s.stateLost reqid
  else
    let r : OwnRecord := { owner := s.node, st := .importing, epoch := s.epoch, hseq := (hseq + 1) % 2 ^ 32, phase := phase, copy := false,
                           fromEpoch := epoch, fromHseq := hseq, peer := owner, doneAt := none, job := job }
    (s.setOwn reqid r).sendClaim reqid r

/-- OWNERSHIP_CLAIM: a phase request arrives with the record (OWNER, EPOCH, HSEQ) of its request (R519 to R522).
DESIGN CHOICE: log entry 115. DEDUCED: log entry 116. -/
def State.ownershipClaim (s : State) (reqid owner epoch hseq phase job : Nat) : State :=
  if s.phase ≠ phReady ∨ s.fenced = true ∨ 2 ^ 64 ≤ reqid ∨ 2 ^ 17 ≤ owner then s
  else match mapGet s.owns reqid with
    | none =>
      if ownTableSize ≤ s.owns.length then s
      else if owner = s.node then s.stateLost reqid
      else s.beginImport reqid owner epoch hseq phase job
    | some r =>
      if keyLater r.key (epoch, hseq) then s.ownerStale
      else if keyLater (epoch, hseq) r.key ∧ r.st ≠ .handed then (s.learnLater reqid r (epoch, hseq) owner false).ownerStale
      else if owner = s.node then
        (if r.st = .owned then s.setOwn reqid { r with phase := phase, job := job } else s.ownerStale)
      else s.beginImport reqid owner epoch hseq phase job

/-- The claim is granted (Table 17-9, step 2): the record becomes HANDED with the new key and the claimant may read.
DESIGN CHOICE: log entry 114. -/
def State.grantClaim (s : State) (reqid claimant : Nat) (r : OwnRecord) (carried new : Nat × Nat) : State :=
  (s.setOwn reqid { r with st := .handed, owner := claimant, epoch := new.1, hseq := new.2, fromEpoch := carried.1, fromHseq := carried.2,
                           peer := claimant, doneAt := none }).handOff 2 stOK reqid r.job claimant carried new

/-- CLAIM_RECEIVE (Table 17-9, step 2; R521, R522). DEDUCED: log entry 116. -/
def State.claimReceive (s : State) (reqid claimant epoch hseq newEpoch newHseq : Nat) : State :=
  let carried := (epoch, hseq)
  let new := (newEpoch, newHseq)
  if s.fenced then s
  else match mapGet s.owns reqid with
    | none => s.handOff 2 stSTATELOST reqid 0 claimant carried new
    | some r =>
      if r.st = .owned ∧ r.key = carried ∧ keyLater new carried = true then s.grantClaim reqid claimant r carried new
      else if r.st = .handed ∧ r.key = new ∧ r.owner = claimant then s.handOff 2 stOK reqid r.job claimant carried new
      else if r.st = .handed ∧ r.copy = true ∧ carried = (r.fromEpoch, r.fromHseq) ∧ s.reachable r.owner = false ∧ keyLater new r.key = true then
        s.reportOwnership.grantClaim reqid claimant r carried new
      else
        let later := if keyLater carried r.key then carried else new
        let s := if keyLater r.key carried then s else if keyLater later r.key then s.learnLater reqid r later claimant false else s
        s.ownerStale.handOff 2 stOWNERSTALE reqid r.job claimant carried new

/-- STATE_READ_DONE: the outcome of the claim and of the reads of the state (Table 17-9, steps 3 and 4; Table 17-10).
DESIGN CHOICE: log entry 115. -/
def State.stateReadDone (s : State) (reqid outcome : Nat) : State :=
  if s.fenced then s
  else match mapGet s.owns reqid with
    | none => s
    | some r =>
      if r.st ≠ .importing then s
      else if outcome = stOK then
        (s.setOwn reqid { r with st := .owned, copy := true }).handOff 3 stOK reqid r.job r.peer (r.fromEpoch, r.fromHseq) r.key
      else if outcome = stOWNERSTALE then { s.ownerStale with owns := mapErase s.owns reqid }
      else if outcome = stFENCED ∨ outcome = stSTATELOST then s.stateLost reqid
      else s

/-- OWNERSHIP_DONE (Table 17-9, step 5; R521). -/
def State.ownershipDone (s : State) (reqid sender epoch hseq : Nat) : State :=
  if s.fenced then s
  else match mapGet s.owns reqid with
    | none => s
    | some r =>
      if r.st = .handed ∧ r.key = (epoch, hseq) ∧ r.owner = sender then s.setOwn reqid { r with copy := false, doneAt := some s.clock.mono }
      else if keyLater (epoch, hseq) r.key then
        let t := s.learnLater reqid r (epoch, hseq) sender true
        if r.st = .importing then t.ownerStale else t
      else s

/-- CLAIM_REPEAT: no answer within the fabric timeouts (R520); STATE_LOST where the owner is a member no more (R522).
DESIGN CHOICE: log entry 115. -/
def State.claimRepeat (s : State) (reqid : Nat) : State :=
  if s.fenced then s
  else match mapGet s.owns reqid with
    | some r =>
      if r.st ≠ .importing then s
      else if s.reachable r.peer then s.sendClaim reqid r else s.stateLost reqid
    | none => s

/-- HANDED_EXPIRY: a HANDED record goes 60 s after its DONE (R519). DEDUCED: log entry 116. -/
def State.handedExpiry (s : State) (reqid dt : Nat) : State :=
  let s := s.tick dt
  match mapGet s.owns reqid with
  | some r =>
    if r.st = .handed ∧ r.doneAt.elim false (fun t => decide (t + 60 * 10 ^ 9 ≤ s.clock.mono)) = true then { s with owns := mapErase s.owns reqid } else s
  | none => s

end Sys2Proof.Machine
end

