-- ==== Sys2Proof/Machine/ManagementCommands.lean ====
section
/-! DEFINITION. The meanings of the commands of the management port, the Stationmasters, faults and ownership (chapters 16 to 19), one for each row of the table. -/

namespace Sys2Proof.Machine

/-- MGMT_COMMAND (R572): A management COMMAND message carries a critical ring entry and returns its completion record. -/
def execMgmtCommand (msg : Bytes) (s : State) : Outcome := .next (s.mgmtCommand msg)

/-- DEVICE_RESET_REQUEST (R492): A management RESET of KIND DEVICE is answered and then performs a device reset. -/
def execDeviceResetRequest (msg : Bytes) (s : State) : Outcome := .next (s.deviceResetRequest msg)

/-- SLICE_RESET (R493): A slice reset stops the slice's rings, ends its work with SLICE_RESET, closes and clears everything but PERSIST, and
advances the generation. -/
def execSliceReset (slice : Nat) (s : State) : Outcome := .next (s.sliceReset slice)

/-- FRAME_RESET (R494): A frame reset waits for the frame to be free, then zeroes its store, banks, registers and tally slots. -/
def execFrameReset (frame : Nat) (s : State) : Outcome := .next (s.frameReset frame)

/-- PORT_RESET (R495): A port reset stops the port, discards replay and credits, retrains it and zeroes its virtual time and credits. -/
def execPortReset (port alignFails : Nat) (farEnd : Bool) (lanesOk : BitVec 4) (s : State) : Outcome := .next (s.portReset port alignFails farEnd lanesOk)

/-- DEPOT_RESET (R496): A Depot reset stops new requests, flushes, realigns and rebuilds each lane, then serves waiting requests. -/
def execDepotReset (jd : Nat) (alignFails : List (Nat × Nat)) (untrained : List Nat) (unreadable : List Pua) (failedDies : List (Nat × Nat)) (ms : Nat) (s : State) :
    Outcome := .next (s.depotReset jd alignFails untrained (unreadable.map puaWord) failedDies ms)

/-- ATTEST (R547): an attestation request is queued, snapshot and signed as an X.509 report with SEC_ATTCTR advanced. -/
def execAttest (msg : Bytes) (s : State) : Outcome := .next (s.attest msg)

/-- FAULT_ACK (R573): A FAULT_ACK message records the highest fault record SEQ the fault manager received. -/
def execFaultAck (msg : Bytes) (s : State) : Outcome := .next (s.faultAck msg)

/-- LOGREAD (R572): A LOGREAD message returns 1 to 8 log entries. -/
def execLogread (msg : Bytes) (s : State) : Outcome := .next (s.logread msg)

/-- READREG (R572): A READREG message returns register words below 0x010_0000. -/
def execReadreg (msg : Bytes) (s : State) : Outcome := .next (s.readreg msg)

/-- FAULT_RESEND (R573): every 100 ms, unacknowledged fault records are sent again in SEQ order. -/
def execFaultResend (s : State) : Outcome := .next (s.faultResend)

/-- RECOVERY_SERVICE (R571): with no boot image accepted, the boot ROM accepts FW_STAGE and FW_ACTIVATE MODE 1 over the management port or JTAG. -/
def execRecoveryService (jtag : Bool) (msg : Bytes) (s : State) : Outcome := .next (s.recoveryService jtag msg)

/-- LOG_APPEND (R563): an event log entry is formed with its SEQ, CHAIN and CRC. -/
def execLogAppend (typ : Nat) (body : Bytes) (s : State) : Outcome := .next (s.appendEntry typ body)

/-- LOG_PROGRAM (R564): pending log entries are programmed into management flash within 100 ms. -/
def execLogProgram (s : State) : Outcome := .next (s.logProgram)

/-- LOG_OVERFLOW (R565): at the end of a second in which entries were dropped, one OVERFLOW entry records the count. -/
def execLogOverflow (s : State) : Outcome := .next (s.logOverflow)

/-- STANDBY_HEARTBEAT_MISS (R524): after 10 missed heartbeats, or a failed image check of JD0, JD1 takes over. -/
def execStandbyHeartbeatMiss (missed : Nat) (imageFailed : Bool) (s : State) : Outcome := .next (s.standbyHeartbeatMiss missed imageFailed)

/-- TAKEOVER (R524): JD1 reads the saved windows and log, takes the management port, resumes the governor and sets FLT_TAKEOVER. -/
def execTakeover (s : State) : Outcome := .next (s.takeover)

/-- STANDBY_MIRROR (R557): A change of volatile Stationmaster state is written to the standby before it takes effect. -/
def execStandbyMirror (s : State) : Outcome := .next (s.standbyMirror)

/-- WINDOW_SAVE (R501): every 60 s the unit windows are saved to management flash. -/
def execWindowSave (s : State) : Outcome := .next (s.windowSave)

/-- TRANSIENT_EVENT (R501): A TRANSIENT event is recorded in the unit's 24-hour window and may retire the unit. -/
def execTransientEvent (unit source : Nat) (dt : Nat) (s : State) : Outcome := .next (s.transientEvent unit source dt)

/-- UNIT_RETIRE (R504): A unit is retired: the retirement record is written, a fault record is produced and the unit leaves service. -/
def execUnitRetire (unit source : Nat) (s : State) : Outcome := .next (s.unitRetire unit source)

/-- MEMORY_UNIT_DRAIN (R506): A retiring memory unit's pages are moved off it, demoting and falling pages if needed. -/
def execMemoryUnitDrain (unit : Nat) (s : State) : Outcome := .next (s.memoryUnitDrain unit)

/-- FRAME_QUARANTINE (R514): A frame whose check cells pass their limits is halted and retired at once as QUARANTINE. -/
def execFrameQuarantine (frame : Nat) (s : State) : Outcome := .next (s.frameQuarantine frame)

/-- PENDING_RETIRE (R505): A claimed frame marked PENDING is retired when its run ends. -/
def execPendingRetire (frame : Nat) (s : State) : Outcome := .next (s.pendingRetire frame)

/-- RUN_RESTART (R508): A restartable run that lost a frame to quarantine is halted and repeated once on replacement frames. -/
def execRunRestart (run : Nat) (s : State) : Outcome := .next (s.runRestart run)

/-- RUN_RETIRED (R507): A run that can no longer be placed completes at once with RETIRED. -/
def execRunRetired (run : Nat) (s : State) : Outcome := .next (s.runRetired run)

/-- FAULT_RECORD (R515): A fault event yields a 64-byte fault record appended to the log. -/
def execFaultRecord (unit : Nat) (cls : FaultClass) (source pattern slice addr : Nat) (s : State) : Outcome := .next (s.faultRecordRow unit cls source pattern slice addr)

/-- CANARY_START (R513): every CANPERIOD ms the Stationmaster starts a known-answer canary on an idle unit. -/
def execCanaryStart (unit cls number : Nat) (s : State) : Outcome := .next (s.canaryStart unit cls number)

/-- CANARY_COMPLETE (R513): A canary completes and its digest is compared with the stored answer. -/
def execCanaryComplete (unit : Nat) (digest : BitVec 128) (stored : BitVec 128) (s : State) : Outcome := .next (s.canaryComplete unit digest stored)

/-- CANARY_ABORT (R513): A run claiming a canary's frame stops the canary and resets the frame. -/
def execCanaryAbort (unit : Nat) (s : State) : Outcome := .next (s.canaryAbort unit)

/-- SHADOW_COMPARE (R511): A shadow frame's recomputed tile is compared bit for bit with the origin. -/
def execShadowCompare (run origin : Nat) (agree : Bool) (cls : Nat) (s : State) : Outcome := .next (s.shadowCompare run origin agree cls)

/-- SHADOW_THIRD_COMPUTE (R512): A disagreeing shadow comparison is settled by a third computation on another frame. -/
def execShadowThirdCompute (run origin shadow third : Nat) (originOk shadowOk : Bool) (cls : Nat) (s : State) : Outcome := .next (s.shadowThirdCompute run origin shadow third originOk shadowOk cls)

/-- OWNERSHIP_CLAIM (R520): A destination admits a phase, writes IMPORTING and sends a claim to the owner. -/
def execOwnershipClaim (reqid owner epoch hseq phase job : Nat) (s : State) : Outcome := .next (s.ownershipClaim reqid owner epoch hseq phase job)

/-- CLAIM_RECEIVE (R520): the owner accepts a claim with the carried key, marks its record HANDED and grants read access, or refuses with
OWNER_STALE. -/
def execClaimReceive (reqid claimant epoch hseq newEpoch newHseq : Nat) (s : State) : Outcome := .next (s.claimReceive reqid claimant epoch hseq newEpoch newHseq)

/-- STATE_READ_DONE (R520): the destination finishes reading the state, sets its record OWNED, sends DONE and runs the phase. -/
def execStateReadDone (reqid outcome : Nat) (s : State) : Outcome := .next (s.stateReadDone reqid outcome)

/-- OWNERSHIP_DONE (R520): on DONE, the owner frees the state and keeps the HANDED record. -/
def execOwnershipDone (reqid sender epoch hseq : Nat) (s : State) : Outcome := .next (s.ownershipDone reqid sender epoch hseq)

/-- CLAIM_REPEAT (R520): with no answer within the fabric timeouts, the destination repeats its claim. -/
def execClaimRepeat (reqid : Nat) (s : State) : Outcome := .next (s.claimRepeat reqid)

/-- HANDED_EXPIRY (R519): A HANDED record is dropped 60 s after its DONE. -/
def execHandedExpiry (reqid : Nat) (dt : Nat) (s : State) : Outcome := .next (s.handedExpiry reqid dt)

/-- SLICE_TELEMETRY_UPDATE (R554): once per second the Stationmaster rewrites each slice's telemetry allocation. -/
def execSliceTelemetryUpdate (dt : Nat) (s : State) : Outcome := .next (s.sliceTelemetryUpdate dt)

/-- PORT_LINK_LOSS (R484): A Jugan or CCL port in UP loses its far end or signal, goes DOWN, and starts repeating training every 1 s. -/
def execPortLinkLoss (port : Nat) (s : State) : Outcome := .next (s.portLinkLoss port)

/-- REFCLK100_RETURN (R589): REFCLK100 returns after a loss, and the device reset that was waiting for it proceeds. -/
def execRefclk100Return (s : State) : Outcome := .next (s.refclk100Return)

/-- JTAG_ACCESS (R552): A JTAG operation does boundary scan and identification, or, with JTAGFULL set, halts a frame or reads and writes any memory
or register. -/
def execJtagAccess (op : JtagOp) (s : State) : Outcome := .next (s.jtagAccess op)

/-- NAND_COMMAND_TIMEOUT (R503): A NAND program, erase or read command does not finish in its time, which counts as a TRANSIENT event when it
clears and retires the die after 3 consecutive timeouts. -/
def execNandCommandTimeout (jd ch die : Nat) (cleared : Bool) (dt : Nat) (s : State) : Outcome := .next (s.nandCommandTimeout jd ch die cleared dt)

/-- STATIONMASTER_WATCHDOG_EXPIRY (R503): A Stationmaster's watchdog expires and the Stationmaster recovers as a TRANSIENT event, or is retired at
the third expiry. -/
def execStationmasterWatchdogExpiry (which : Nat) (dt : Nat) (s : State) : Outcome := .next (s.stationmasterWatchdogExpiry which dt)

/-- STANDBY_SYNC_DONE (R557): the standby Stationmaster finishes taking the mirrored state, and STM_STATE.STANDBY passes from syncing to ready. -/
def execStandbySyncDone (s : State) : Outcome := .next (s.standbySyncDone)

/-- CORRECTED_SUMMARY (R515): at the end of each minute in which a unit had CORRECTED events, one summary fault record with the minute's count is
produced. -/
def execCorrectedSummary (unit count : Nat) (s : State) : Outcome := .next (s.correctedSummary unit count)

/-- TENANT_UNIT_WAIT_TIMEOUT (R531): A create or amend has waited 10 s for runs and walks to release named frames or Shunters, so it ends with
UNIT_TAKEN and the units return. -/
def execTenantUnitWaitTimeout (r seq : Nat) (s : State) : Outcome := .next (s.tenantUnitWaitTimeout r seq)

end Sys2Proof.Machine
end

