-- ==== Sys2Proof/Machine/MemoryCommands.lean ====
section
/-! DEFINITION. The meanings of the commands of memory tiers and the flash Depot (chapters 11 and 12), one for each row of the table. -/

namespace Sys2Proof.Machine

/-- TIER_INTERVAL_END (R343): at each tier interval end, the memory manager promotes and demotes pages. -/
def execTierIntervalEnd (s : State) : Outcome := .next (s.tierIntervalEnd)

/-- PAGE_MOVE_COPY_DONE (R344): A 2 MiB page copy finishes, the translation switches and stalled stores are released to the destination. -/
def execPageMoveCopyDone (page : Nat) (s : State) : Outcome := .next (s.pageMoveCopyDone page)

/-- PAGE_MOVE_SOURCE_FREE (R344): the source page is freed once every load that read it has returned. -/
def execPageMoveSourceFree (page : Nat) (s : State) : Outcome := .next (s.pageMoveSourceFree page)

/-- SRAM_SCRUB (R353): the scrubber visits SRAM words at least once per second. -/
def execSramScrub (site : MemSite) (found : EccResult) (s : State) : Outcome := .next (s.sramScrub site found)

/-- DRAM_PATROL (R353): the patrol visits every DRAM unit once per MEM_SCRUB.PERIOD hours. -/
def execDramPatrol (site : MemSite) (found : EccResult) (last : Bool) (s : State) : Outcome := .next (s.dramPatrol site found last)

/-- BLOCK_ENCODE (R351): A Shediset engine encodes a 4 KiB block, self-checks it and writes payload and descriptor. -/
def execBlockEncode (engine alloc block : Nat) (selfCheckOk : Bool) (s : State) : Outcome := .next (s.blockEncode engine alloc block selfCheckOk)

/-- BLOCK_DECODE (R352): A Shediset engine decodes a block and checks its CRC. -/
def execBlockDecode (engine alloc block : Nat) (payload : Bytes) (descriptor : Word) (secondOk : Bool) (s : State) : Outcome := .next (s.blockDecode engine alloc block payload descriptor secondOk)

/-- BATCH_CLOSE (R369): A Depot batch closes at 60 slots or 20 µs and programs its data and parity units. -/
def execBatchClose (jd lane : Nat) (place : List Pua) (parity : Pua) (dt : Nat) (s : State) : Outcome := .next (s.batchClose jd lane place parity dt)

/-- BATCH_PROGRAM_DONE (R369): all program units of a batch succeed and its writes are acknowledged. -/
def execBatchProgramDone (jd lane : Nat) (batch : Nat) (s : State) : Outcome := .next ((s.batchProgramDone jd lane batch).releaseAcks)

/-- PROGRAM_FAILURE (R383): A program failure reprograms the batch elsewhere and repairs earlier pages from parity. -/
def execProgramFailure (jd lane : Nat) (batch : Nat) (ch die block : Nat) (place : List Pua) (s : State) : Outcome := .next (s.programFailure jd lane batch ch die block place)

/-- ERASE_FAILURE (R383): an erase failure retires the block at once. -/
def execEraseFailure (jd lane : Nat) (ch die block : Nat) (s : State) : Outcome := .next (s.eraseFailure jd lane ch die block)

/-- BLOCK_CLOSE_VERIFY (R370): A closed block is read back, weak slots are relocated and parity units are released. -/
def execBlockCloseVerify (jd lane : Nat) (ch die block : Nat) (weak place : List Pua) (s : State) : Outcome := .next (s.blockCloseVerify jd lane ch die block weak place)

/-- FOLD (R372): folding copies live pSLC slots to native blocks and switches map entries by compare-and-set. -/
def execFold (jd lane : Nat) (ch die block : Nat) (place : List Pua) (s : State) : Outcome := .next (s.fold jd lane ch die block place)

/-- GARBAGE_COLLECT (R372): garbage collection relocates the valid slots of the emptiest closed block. -/
def execGarbageCollect (jd lane : Nat) (place : List Pua) (s : State) : Outcome := .next (s.garbageCollect jd lane place)

/-- BLOCK_ERASE (R373): A block is erased once flushed free, unread and outside the open set. -/
def execBlockErase (jd lane : Nat) (ch die block : Nat) (s : State) : Outcome := .next (s.blockErase jd lane ch die block)

/-- JOURNAL_FLUSH (R375): every 64 ms or 16 MiB, or on a forcing event, a lane appends a journal record with header, open set and deltas. -/
def execJournalFlush (jd lane : Nat) (next : List (Nat × Nat × Nat)) (dt : Nat) (s : State) : Outcome := .next (s.journalFlush jd lane next dt)

/-- CHECKPOINT_SEGMENT (R376): the checkpoint writer writes a dirty map segment. -/
def execCheckpointSegment (jd lane : Nat) (ns segment : Nat) (s : State) : Outcome := .next (s.checkpointSegment jd lane ns segment)

/-- COUNTER_CHECKPOINT (R376): every 60 s the erase and read counts and the health record are written as CKPT pages. -/
def execCounterCheckpoint (jd lane : Nat) (s : State) : Outcome := .next (s.counterCheckpoint jd lane)

/-- SUPERBLOCK_UPDATE (R374): A SUPER page is appended to the candidate blocks of the two lowest channels. -/
def execSuperblockUpdate (jd lane : Nat) (s : State) : Outcome := .next (s.superblockUpdate jd lane)

/-- SLOT_READ (R381): A slot read escalates through retry, soft decode, parity and loss. -/
def execSlotRead (jd ns unit : Nat) (step : LadderStep) (s : State) : Outcome := .next ((s.slotRead jd ns unit step).markLost s)

/-- BLOCK_REFRESH (R382): A queued block is refreshed by relocating its valid slots and erasing it. -/
def execBlockRefresh (jd lane : Nat) (ch die block : Nat) (place : List Pua) (s : State) : Outcome := .next (s.blockRefresh jd lane ch die block place)

/-- MEDIA_PATROL (R382): A patrol reads every closed block once per PATROL days. -/
def execMediaPatrol (jd lane : Nat) (steps : List (Pua × LadderStep)) (s : State) : Outcome := .next ((s.mediaPatrol jd lane steps).markLost s)

/-- DIE_RETIRE (R383): A NAND die or channel is retired, its readable slots relocated and the rest marked lost. -/
def execDieRetire (jd : Nat) (ch : Nat) (die : Option Nat) (unreadable place : List Pua) (s : State) : Outcome := .next ((s.dieRetire jd ch die unreadable place).markLost s)

/-- NAMESPACE_DESTROY (R389): A namespace is destroyed: journalled, its key removed, its map cleared and completion logged. -/
def execNamespaceDestroy (jd ns : Nat) (s : State) : Outcome := .next (s.namespaceDestroyStep jd ns)

/-- KEY_TABLE_UPDATE (R388): the Depot writes the whole key table to a fresh block pair and erases the older ones. -/
def execKeyTableUpdate (jd : Nat) (s : State) : Outcome := .next (s.keyTableUpdate jd)

/-- NAND_TEMP_READ (R390): once per second the Depot reads each NAND package's temperature into the health record. -/
def execNandTempRead (jd : Nat) (temps : List Int) (s : State) : Outcome := .next (s.nandTempRead jd temps)

end Sys2Proof.Machine
end

