-- ==== Sys2Proof/Machine/OperatorCommands.lean ====
section
/-! DEFINITION. The meanings of the commands of the operators and the maintenance of indexes (chapters 2 to 5, 9, 10 and 15), one for each row of the table. -/

namespace Sys2Proof.Machine

/-- NOP (R460): ring opcode 0x0001 does nothing and completes. -/
def execNop (r seq : Nat) (s : State) : Outcome := .next (s.nopRun r seq)

/-- SEARCH (R461): SEARCH checks its parameters, assigns the ticket and runs walk, sweep, cut and re-rank to K results. -/
def execSearch (r seq : Nat) (upto : SearchStop) (bead sel : CheckEvent) (s : State) : Outcome := .next (s.search r seq upto bead sel)

/-- RERANK_STAGE1 (R151): stage 1 computes INT8 keys of the cut candidates and keeps the best EXACT. -/
def execRerankStage1 (r seq : Nat) (s : State) : Outcome := .next (s.rerankStage1 r seq)

/-- RERANK_STAGE2 (R153): stage 2 reads full vectors from flash, computes exact keys and keeps the best K. -/
def execRerankStage2 (r seq : Nat) (s : State) : Outcome := .next (s.rerankStage2 r seq)

/-- INSERT (R93): INSERT claims siding slots and free ids, writes life records, sketches, INT8 copies and full vectors, then waits to join a commit
group. -/
def execInsert (r seq : Nat) (s : State) : Outcome := .next (s.writeCmd 0x0011 r seq)

/-- DELETE (R95): DELETE stages nothing and waits to publish DEL and tombstone bits in a commit group. -/
def execDelete (r seq : Nat) (s : State) : Outcome := .next (s.writeCmd 0x0012 r seq)

/-- UPDATE (R96): UPDATE stages new points as INSERT does and publishes the old deletes and new inserts at one ticket. -/
def execUpdate (r seq : Nat) (s : State) : Outcome := .next (s.writeCmd 0x0013 r seq)

/-- VECTOR_WRITE_ACK (R93): the Depot acknowledges a staged full vector, finishing the write's staging. -/
def execVectorWriteAck (r seq : Nat) (dt : Nat) (s : State) : Outcome := .next (s.vectorWriteAck r seq dt)

/-- COMMIT_GROUP_CLOSE (R94): A commit group closes when no write waits, 100 µs have passed or it holds 1,024 commands. -/
def execCommitGroupClose (index : Nat) (dt : Nat) (s : State) : Outcome := .next (s.commitGroupClose index dt)

/-- GROUP_PUBLISH (R94): the publisher checks deletes, assigns tickets, appends the change-log record and waits for its acknowledgement. -/
def execGroupPublish (index : Nat) (s : State) : Outcome := .next (s.groupPublish index)

/-- LOG_RECORD_ACK (R94): on the change-log acknowledgement, the publisher writes INS and DEL and advances the counter command by command, then
reports completions. -/
def execLogRecordAck (index : Nat) (s : State) : Outcome := .next (s.logRecordAck index)

/-- SIDING_SEAL (R102): the active buffer reaches 75 % with the other FREE, so it seals, takes its seal ticket and the other becomes ACTIVE. -/
def execSidingSeal (index : Nat) (s : State) : Outcome := .next (s.sidingSeal index)

/-- MERGE_FORWARD_SEARCH (R110): A merge runs one forward-search walk for a new point of the sealed buffer. -/
def execMergeForwardSearch (index : Nat) (point : Nat) (s : State) : Outcome := .next (s.mergeForwardSearch index point)

/-- MERGE_LIST_COMPUTE (R112): when its forward searches are done, the merge prunes new lists and additions into final lists. -/
def execMergeListCompute (index : Nat) (s : State) : Outcome := .next (s.mergeListCompute index)

/-- LIST_PUBLICATION (R59): A writer of neighbour lists waits for the previous version's pins to drain, stages undo copies and writes IMGVER := V +
1. -/
def execListPublication (index : Nat) (s : State) : Outcome := .next (s.listPublication index)

/-- BUFFER_FREE (R104): once no walk or sweep is pinned before F, a RETIRING buffer becomes FREE and its slots are vacated. -/
def execBufferFree (index : Nat) (s : State) : Outcome := .next (s.bufferFree index)

/-- REPAIR_LIST (R115): edge repair reaches a list, removes tombstoned ids and refills it from their lists. -/
def execRepairList (index : Nat) (s : State) : Outcome := .next (s.repairList index)

/-- RECLAIM (R116): A deleted id that meets all reclaim conditions gets its life record reset, the empty record, a cleared tombstone and a return
to the free list. -/
def execReclaim (index : Nat) (id : Nat) (s : State) : Outcome := .next (s.reclaim index id)

/-- INDEX_LOAD (R64): INDEX_LOAD checks and opens a saved image with its store, copies the projection and replays the change log. -/
def execIndexLoad (r seq : Nat) (s : State) : Outcome := .next (s.indexLoad r seq)

/-- INDEX_SAVE (R598): INDEX_SAVE pins a version and ticket, waits for no SEALED or RETIRING buffer, writes the image and releases log records. -/
def execIndexSave (r seq : Nat) (s : State) : Outcome := .next (s.indexSave r seq)

/-- INDEX_CLOSE (R599): INDEX_CLOSE refuses new work, waits for admitted work, abandons merge and repair and frees all but the store. -/
def execIndexClose (r seq : Nat) (s : State) : Outcome := .next (s.indexClose r seq)

/-- INDEX_CREATE (R55): INDEX_CREATE checks parameters and budgets and opens an empty index with its store. -/
def execIndexCreate (r seq : Nat) (s : State) : Outcome := .next (s.indexCreate r seq)

/-- TABLE_OPEN (R157): TABLE_OPEN opens an embedding table over an ordered device set. -/
def execTableOpen (r seq : Nat) (s : State) : Outcome := .next (s.tableOpen r seq)

/-- TABLE_CLOSE (R460): TABLE_CLOSE closes an embedding table. -/
def execTableClose (r seq : Nat) (s : State) : Outcome := .next (s.tableClose r seq)

/-- SEQ_OPEN (R237): SEQ_OPEN opens an attention sequence over a spread of devices. -/
def execSeqOpen (r seq : Nat) (s : State) : Outcome := .next (s.seqOpen r seq)

/-- SEQ_CLOSE (R460): SEQ_CLOSE closes an attention sequence. -/
def execSeqClose (r seq : Nat) (s : State) : Outcome := .next (s.seqClose r seq)

/-- KVAPPEND (R240): KVAPPEND writes keys, values, sketches, checkpoints and siding slots and then advances NKEYS. -/
def execKvappend (r seq : Nat) (s : State) : Outcome := .next (s.kvappend r seq)

/-- ATTEND (R242): ATTEND selects keys, estimates the left-out mass, computes exact attention and joins the partials. -/
def execAttend (r seq : Nat) (remote : List Bytes) (sel : CheckEvent) (s : State) : Outcome := .next (s.attend r seq remote sel)

/-- LOAD (R463): LOAD stages part of a consist, or under PHASE 1 checks it under R259 and returns a handle. -/
def execLoad (r seq : Nat) (s : State) : Outcome := .next (s.loadRun r seq)

/-- RUN (R463): RUN checks the handle and blocks, then waits to claim NFRAMES in-service frames. -/
def execRun (r seq : Nat) (s : State) : Outcome := .next (s.runCmd r seq)

/-- RUN_START (R267): once the frames are claimed, the argument block is copied, the result window zeroed, LOCALs reset, code written and every
frame started. -/
def execRunStart (r seq : Nat) (s : State) : Outcome := .next (s.runStart r seq)

/-- UNLOAD (R259): UNLOAD frees a loaded consist and its non-PERSIST allocations, or is refused with BUSY while it runs. -/
def execUnload (r seq : Nat) (s : State) : Outcome := .next (s.unloadRun r seq)

/-- JOB_BIND (R536): JOB_BIND writes a valid job entry for the slice, with an optional message ring. -/
def execJobBind (r seq : Nat) (s : State) : Outcome := .next (s.jobBind r seq)

/-- JOB_UNBIND (R536): JOB_BIND with UNBIND clears the job entry's VALID bit. -/
def execJobUnbind (r seq : Nat) (s : State) : Outcome := .next (s.jobUnbind r seq)

/-- EXPORT (R465): EXPORT resizes a job's window and writes or clears its page entries. -/
def execExportPages (r seq : Nat) (s : State) : Outcome := .next (s.exportPages r seq)

/-- FREE (R346): FREE removes a named PERSIST allocation unless it is in use. -/
def execFree (r seq : Nat) (s : State) : Outcome := .next (s.freeCmd r seq)

end Sys2Proof.Machine
end

