-- ==== Sys2Proof/Machine/PowerCommands.lean ====
section
/-! DEFINITION. The meanings of the commands of start-up, resets, power and clocks (chapters 16, 19 and 20), one for each row of the table. -/

namespace Sys2Proof.Machine

/-- POWER_ON_RESET (R472): the 50 V input rises through the start threshold and the power-up order of Table 16-1 begins at step 1. -/
def execPowerOnReset (s : State) : Outcome := .next (s.powerOnReset)

/-- CROSSING_ALIGN_ATTEMPT (R478): one crossing FIFO resets its pointers, passes 64 training words, measures its latency L and sets its full
threshold. -/
def execCrossingAlignAttempt (x : Crossing) (pllLocked : Bool) (passes : List AlignPass) (s : State) : Outcome := .next (s.alignAttempt x pllLocked passes)

/-- CROSSING_ALIGN_RETRY (R479): 1 ms after a failed alignment attempt, the attempt is retried, up to three attempts; a third failure takes the
effect of Table 16-2. -/
def execCrossingAlignRetry (x : Crossing) (pllLocked : Bool) (passes : List AlignPass) (s : State) : Outcome := .next (s.alignRetry x pllLocked passes)

/-- HBM_TRAINING (R481): each HBM PHY trains and repairs lanes, retires failing pseudo-channels and zeroes the rest. -/
def execHbmTraining (stack : Nat) (failing : List Nat) (s : State) : Outcome := .next (s.hbmTraining stack failing)

/-- DDR5_TRAINING (R482): the Stationmaster reads the DIMM SPDs, selects the type and rate, trains the channels and zeroes every rank in service. -/
def execDdr5Training (dimms : List DimmInfo) (s : State) : Outcome := .next (s.ddr5Training dimms)

/-- NAND_CHANNEL_TRAINING (R483): A NAND channel resets its chip enables, checks parameter pages against Table 12-1 and trains NV-LPDDR4 at 3,600
MT/s. -/
def execNandChannelTraining (jd ch : Nat) (info : NandInfo) (trained : Bool) (s : State) : Outcome := .next (s.nandTraining jd ch info trained)

/-- PORT_TRAINING (R484): A Jugan or CCL port trains its lanes with the far end, takes the widest width and starts its link layer at SEQ 0. -/
def execPortTraining (port : Nat) (farEnd : Bool) (lanesOk : BitVec 4) (s : State) : Outcome := .next (s.portTraining port farEnd lanesOk)

/-- PORT_TRAINING_REPEAT (R484): every 1 s while the far end does not answer, a port repeats its training. -/
def execPortTrainingRepeat (port : Nat) (farEnd : Bool) (lanesOk : BitVec 4) (s : State) : Outcome := .next (s.portTrainingRepeat port farEnd lanesOk)

/-- STARTUP_CANARIES (R513): at step 8 of start-up, every frame, Shunter and Selector runs one canary of each class. -/
def execStartupCanaries (failing : List (Nat × Nat)) (s : State) : Outcome := .next (s.startupCanaries failing)

/-- LANE_REBUILD (R378): A Depot lane chooses its superblock, advances the epoch, replays checkpoints and journal, scans the open set and rebuilds
its map. -/
def execLaneRebuild (jd lane : Nat) (unreadable : List Pua) (failedDies : List (Nat × Nat)) (ms : Nat) (s : State) : Outcome := .next (s.laneRebuild jd lane (unreadable.map puaWord) failedDies ms)

/-- DEVICE_READY (R487): when steps 1 to 9 of start-up have completed without a FAILED cause, PHASE becomes READY and ring scanning begins. -/
def execDeviceReady (dt : Nat) (s : State) : Outcome := .next (s.deviceReady dt)

/-- RESET_N_ASSERT (R587): A low level on RESET_N of 6 µs or more, or possibly of 4 µs to 6 µs, starts a device reset at step 2 when it is
released. -/
def execResetNAssert (lowNs : Nat) (s : State) : Outcome := .next (s.resetNAssert lowNs)

/-- DEVICE_RESET (R491): A device reset returns every register to its reset value, apart from the stated exceptions, and restarts from step 2 of
Table 16-1. -/
def execDeviceReset (cause : ResetCause) (s : State) : Outcome := .next (s.deviceReset cause)

/-- WATCHDOG_RESET (R524): when both Stationmasters fail, the device watchdog performs a device reset. -/
def execWatchdogReset (s : State) : Outcome := .next (s.watchdogReset)

/-- UNDERVOLTAGE_SHUTDOWN (R581): an input held below the undervoltage threshold for 20 µs drops every rail within 1 ms, after a shutdown marker is
written. -/
def execUndervoltageShutdown (millivolts heldNs : Nat) (holdUp : Bool) (s : State) : Outcome := .next (s.undervoltage millivolts heldNs holdUp)

/-- OVERVOLTAGE_SHUTDOWN (R581): an input held above 59.0 V for 10 µs drops every rail and writes the shutdown marker.
DESIGN CHOICE: log entry 4. -/
def execOvervoltageShutdown (millivolts heldNs : Nat) (holdUp : Bool) (s : State) : Outcome :=
  if 60000 < millivolts then .fault .beyondAbsoluteMaximum else .next (s.overvoltage millivolts heldNs holdUp)

/-- PWRFAIL_EDGE (R583): A high-to-low edge on PWRFAIL_N forces the journal flushes of both lanes and programs the pending log entries. -/
def execPwrfailEdge (s : State) : Outcome := .next (s.pwrfail)

/-- REFCLK100_LOSS (R589): loss of REFCLK100 after READY fails the station-clock crossings, a FATAL fault followed by a device reset. -/
def execRefclk100Loss (s : State) : Outcome := .next (s.refclk100Loss)

/-- REFCLK156_LOSS (R589): loss of REFCLK156 of a Junction die takes that die's ports DOWN. -/
def execRefclk156Loss (jd : Nat) (s : State) : Outcome := .next (s.refclk156Loss jd)

/-- REFCLK156_RETURN (R589): when REFCLK156 returns, the die's ports retrain. -/
def execRefclk156Return (jd : Nat) (s : State) : Outcome := .next (s.refclk156Return jd)

/-- PIGTAIL_FITTED (R579): fitting a fibre pigtail lets a CCL port that was DOWN retrain. -/
def execPigtailFitted (port : Nat) (farEnd : Bool) (lanesOk : BitVec 4) (s : State) : Outcome := .next (s.pigtailFitted port farEnd lanesOk)

/-- THERMAL_SAMPLE (R558): every 1 ms the Stationmaster samples the thermal diodes and applies the thresholds of R559. -/
def execThermalSample (diodes : List Int) (s : State) : Outcome := .next (s.thermalSample diodes)

/-- THERMTRIP_RESET (R588): A RESET_N pulse after a trip starts a THERMTRIP device reset. -/
def execThermtripReset (s : State) : Outcome := .next (s.thermtripReset)

/-- SENSE_PUBLISH (R558): once per ms the Stationmaster republishes every sensor value in STM_SENSE under the SNAP rule. -/
def execSensePublish (dt : Nat) (diodes : List Int) (volts milliamps deciwatts : Nat) (railAmps : List Nat) (rails i3c : List (BitVec 16)) (s : State) :
    Outcome := .next (s.sensePublish dt diodes volts milliamps deciwatts railAmps rails i3c)

/-- I3C_POLL (R574): every 100 ms the Stationmaster reads the SPD hubs and board sensors over I3C. -/
def execI3cPoll (readings : List I3cReading) (s : State) : Outcome := .next (s.i3cPoll readings)

/-- I3C_HOT_JOIN (R574): after a hot-join, the Stationmaster assigns a dynamic address. -/
def execI3cHotJoin (device : Nat) (s : State) : Outcome := .next (s.i3cHotJoin device)

/-- GOVERNOR_PASS (R561): every 100 µs the governor compares each slice's draw with its allowance and adjusts its pacing level. -/
def execGovernorPass (draws : List SliceDraw) (inputDeciwatts : Nat) (s : State) : Outcome := .next (s.governorPass draws inputDeciwatts)

/-- RAIL_STEP (R562): every 10 ms each Counting die's core rail is stepped by the throttle, envelope and TARGET rule. -/
def execRailStep (inputDeciwatts : Nat) (s : State) : Outcome := .next (s.railStep inputDeciwatts)

/-- PTP_SYNC (R575): A valid PTP Sync exchange gives an offset that slews or steps the station clock and updates lock. -/
def execPtpSync (dt : Nat) (offsetNs : Int) (s : State) : Outcome := .next (s.ptpSync dt offsetNs)

/-- PTP_LOCK_LOSS (R575): lock is lost after 8 s without a valid Sync. -/
def execPtpLockLoss (dt : Nat) (s : State) : Outcome := .next (s.ptpLockLoss dt)

/-- PPS_IN_EDGE (R575): an edge on the 1PPS input disciplines the station clock when STM_TIME.SRC is 1. -/
def execPpsInEdge (dt : Nat) (offsetNs : Int) (s : State) : Outcome := .next (s.ppsIn dt offsetNs)

/-- PPS_OUT_EDGE (R575): at each whole second of the station clock, PPS_OUT rises. -/
def execPpsOutEdge (s : State) : Outcome := .next (s.ppsOut)

end Sys2Proof.Machine
end

