-- ==== Sys2Proof/Machine/Dispatch.lean ====
section
/-! DEFINITION. What each command does: one arm for each constructor of Instr, each one call of the command's meaning. -/

namespace Sys2Proof.Machine

/-- The effect of a command on everything but the queue. -/
def exec (i : Instr) (s : State) : Host.Outcome State Fault Refusal :=
  match i with
  | .powerOnReset => Sys2Proof.Machine.execPowerOnReset s
  | .crossingAlignAttempt x pllLocked passes => Sys2Proof.Machine.execCrossingAlignAttempt x pllLocked passes s
  | .crossingAlignRetry x pllLocked passes => Sys2Proof.Machine.execCrossingAlignRetry x pllLocked passes s
  | .hbmTraining stack failing => Sys2Proof.Machine.execHbmTraining stack failing s
  | .ddr5Training dimms => Sys2Proof.Machine.execDdr5Training dimms s
  | .nandChannelTraining jd ch info trained => Sys2Proof.Machine.execNandChannelTraining jd ch info trained s
  | .portTraining port farEnd lanesOk => Sys2Proof.Machine.execPortTraining port farEnd lanesOk s
  | .portTrainingRepeat port farEnd lanesOk => Sys2Proof.Machine.execPortTrainingRepeat port farEnd lanesOk s
  | .startupCanaries failing => Sys2Proof.Machine.execStartupCanaries failing s
  | .laneRebuild jd lane unreadable failedDies ms => Sys2Proof.Machine.execLaneRebuild jd lane unreadable failedDies ms s
  | .deviceReady dt => Sys2Proof.Machine.execDeviceReady dt s
  | .resetNAssert lowNs => Sys2Proof.Machine.execResetNAssert lowNs s
  | .deviceReset cause => Sys2Proof.Machine.execDeviceReset cause s
  | .watchdogReset => Sys2Proof.Machine.execWatchdogReset s
  | .undervoltageShutdown millivolts heldNs holdUp => Sys2Proof.Machine.execUndervoltageShutdown millivolts heldNs holdUp s
  | .overvoltageShutdown millivolts heldNs holdUp => Sys2Proof.Machine.execOvervoltageShutdown millivolts heldNs holdUp s
  | .pwrfailEdge => Sys2Proof.Machine.execPwrfailEdge s
  | .refclk100Loss => Sys2Proof.Machine.execRefclk100Loss s
  | .refclk156Loss jd => Sys2Proof.Machine.execRefclk156Loss jd s
  | .refclk156Return jd => Sys2Proof.Machine.execRefclk156Return jd s
  | .pigtailFitted port farEnd lanesOk => Sys2Proof.Machine.execPigtailFitted port farEnd lanesOk s
  | .thermalSample diodes => Sys2Proof.Machine.execThermalSample diodes s
  | .thermtripReset => Sys2Proof.Machine.execThermtripReset s
  | .sensePublish dt diodes volts milliamps deciwatts railAmps rails i3c => Sys2Proof.Machine.execSensePublish dt diodes volts milliamps deciwatts railAmps rails i3c s
  | .i3cPoll readings => Sys2Proof.Machine.execI3cPoll readings s
  | .i3cHotJoin device => Sys2Proof.Machine.execI3cHotJoin device s
  | .governorPass draws inputDeciwatts => Sys2Proof.Machine.execGovernorPass draws inputDeciwatts s
  | .railStep inputDeciwatts => Sys2Proof.Machine.execRailStep inputDeciwatts s
  | .ptpSync dt offsetNs => Sys2Proof.Machine.execPtpSync dt offsetNs s
  | .ptpLockLoss dt => Sys2Proof.Machine.execPtpLockLoss dt s
  | .ppsInEdge dt offsetNs => Sys2Proof.Machine.execPpsInEdge dt offsetNs s
  | .ppsOutEdge => Sys2Proof.Machine.execPpsOutEdge s
  | .cclWrite port packet dt => Sys2Proof.Machine.execCclWrite port packet dt s
  | .cclRead port packet => Sys2Proof.Machine.execCclRead port packet s
  | .registerWrite src offset len data => Sys2Proof.Machine.execRegisterWrite src offset len data s
  | .seal data => Sys2Proof.Machine.execSeal data s
  | .ringEnable r data => Sys2Proof.Machine.execRingEnable r data s
  | .ringDisable r data => Sys2Proof.Machine.execRingDisable r data s
  | .opkeyWrite k data => Sys2Proof.Machine.execOpkeyWrite k data s
  | .keyCommit data => Sys2Proof.Machine.execKeyCommit data s
  | .isolWrite data => Sys2Proof.Machine.execIsolWrite data s
  | .tktholdWrite data => Sys2Proof.Machine.execTktholdWrite data s
  | .repairRateWrite data => Sys2Proof.Machine.execRepairRateWrite data s
  | .logselWrite data => Sys2Proof.Machine.execLogselWrite data s
  | .policerWrite ccl port cls data => Sys2Proof.Machine.execPolicerWrite ccl port cls data s
  | .cbsWrite port cls data => Sys2Proof.Machine.execCbsWrite port cls data s
  | .weightWrite port cls data => Sys2Proof.Machine.execWeightWrite port cls data s
  | .ringScan r dt => Sys2Proof.Machine.execRingScan r dt s
  | .commandStart r seq => Sys2Proof.Machine.execCommandStart r seq s
  | .commandComplete r seq dt => Sys2Proof.Machine.execCommandComplete r seq dt s
  | .nop r seq => Sys2Proof.Machine.execNop r seq s
  | .search r seq upto bead sel => Sys2Proof.Machine.execSearch r seq upto bead sel s
  | .rerankStage1 r seq => Sys2Proof.Machine.execRerankStage1 r seq s
  | .rerankStage2 r seq => Sys2Proof.Machine.execRerankStage2 r seq s
  | .insert r seq => Sys2Proof.Machine.execInsert r seq s
  | .delete r seq => Sys2Proof.Machine.execDelete r seq s
  | .update r seq => Sys2Proof.Machine.execUpdate r seq s
  | .vectorWriteAck r seq dt => Sys2Proof.Machine.execVectorWriteAck r seq dt s
  | .commitGroupClose index dt => Sys2Proof.Machine.execCommitGroupClose index dt s
  | .groupPublish index => Sys2Proof.Machine.execGroupPublish index s
  | .logRecordAck index => Sys2Proof.Machine.execLogRecordAck index s
  | .sidingSeal index => Sys2Proof.Machine.execSidingSeal index s
  | .mergeForwardSearch index point => Sys2Proof.Machine.execMergeForwardSearch index point s
  | .mergeListCompute index => Sys2Proof.Machine.execMergeListCompute index s
  | .listPublication index => Sys2Proof.Machine.execListPublication index s
  | .bufferFree index => Sys2Proof.Machine.execBufferFree index s
  | .repairList index => Sys2Proof.Machine.execRepairList index s
  | .reclaim index id => Sys2Proof.Machine.execReclaim index id s
  | .indexLoad r seq => Sys2Proof.Machine.execIndexLoad r seq s
  | .indexSave r seq => Sys2Proof.Machine.execIndexSave r seq s
  | .indexClose r seq => Sys2Proof.Machine.execIndexClose r seq s
  | .indexCreate r seq => Sys2Proof.Machine.execIndexCreate r seq s
  | .tableOpen r seq => Sys2Proof.Machine.execTableOpen r seq s
  | .tableClose r seq => Sys2Proof.Machine.execTableClose r seq s
  | .seqOpen r seq => Sys2Proof.Machine.execSeqOpen r seq s
  | .seqClose r seq => Sys2Proof.Machine.execSeqClose r seq s
  | .kvappend r seq => Sys2Proof.Machine.execKvappend r seq s
  | .attend r seq remote sel => Sys2Proof.Machine.execAttend r seq remote sel s
  | .load r seq => Sys2Proof.Machine.execLoad r seq s
  | .run r seq => Sys2Proof.Machine.execRun r seq s
  | .runStart r seq => Sys2Proof.Machine.execRunStart r seq s
  | .unload r seq => Sys2Proof.Machine.execUnload r seq s
  | .jobBind r seq => Sys2Proof.Machine.execJobBind r seq s
  | .jobUnbind r seq => Sys2Proof.Machine.execJobUnbind r seq s
  | .exportPages r seq => Sys2Proof.Machine.execExportPages r seq s
  | .free r seq => Sys2Proof.Machine.execFree r seq s
  | .fwStage r seq => Sys2Proof.Machine.execFwStage r seq s
  | .fwActivateTrial r seq => Sys2Proof.Machine.execFwActivateTrial r seq s
  | .fwActivateCommit r seq => Sys2Proof.Machine.execFwActivateCommit r seq s
  | .fwActivateRevert r seq => Sys2Proof.Machine.execFwActivateRevert r seq s
  | .activationStandbyRestart verified => Sys2Proof.Machine.execActivationStandbyRestart verified s
  | .activationHandover => Sys2Proof.Machine.execActivationHandover s
  | .activationActiveRestart verified => Sys2Proof.Machine.execActivationActiveRestart verified s
  | .activationHandback => Sys2Proof.Machine.execActivationHandback s
  | .trialTimeout dtSec => Sys2Proof.Machine.execTrialTimeout dtSec s
  | .tenantCreate r seq failedClears => Sys2Proof.Machine.execTenantCreate r seq failedClears s
  | .tenantAmend r seq failedClears => Sys2Proof.Machine.execTenantAmend r seq failedClears s
  | .tenantDestroy r seq failedClears => Sys2Proof.Machine.execTenantDestroy r seq failedClears s
  | .destroyResume slice failedClears => Sys2Proof.Machine.execDestroyResume slice failedClears s
  | .unitClear unit fromSlice toSlice cause outcome dt => Sys2Proof.Machine.execUnitClear unit fromSlice toSlice cause outcome dt s
  | .keyRotate r seq => Sys2Proof.Machine.execKeyRotate r seq s
  | .sliceKey r seq => Sys2Proof.Machine.execSliceKey r seq s
  | .nsErase r seq => Sys2Proof.Machine.execNsErase r seq s
  | .fence r seq => Sys2Proof.Machine.execFence r seq s
  | .scrubClearSuspect r seq => Sys2Proof.Machine.execScrubClearSuspect r seq s
  | .scrubPatrol r seq => Sys2Proof.Machine.execScrubPatrol r seq s
  | .epochSet r seq => Sys2Proof.Machine.execEpochSet r seq s
  | .ttCommit r seq dt => Sys2Proof.Machine.execTtCommit r seq dt s
  | .debugCtl r seq => Sys2Proof.Machine.execDebugCtl r seq s
  | .timetableSwitch list dt => Sys2Proof.Machine.execTimetableSwitch list dt s
  | .timetableEntryBegin list dt => Sys2Proof.Machine.execTimetableEntryBegin list dt s
  | .egressBegin port dt => Sys2Proof.Machine.execEgressBegin port dt s
  | .egressEnqueue port cls packet dt => Sys2Proof.Machine.execEgressEnqueue port cls packet dt s
  | .flitReceive port flit => Sys2Proof.Machine.execFlitReceive port flit s
  | .nak port seq => Sys2Proof.Machine.execNak port seq s
  | .inboundRead port packet dt => Sys2Proof.Machine.execInboundRead port packet dt s
  | .inboundWrite port packet dt => Sys2Proof.Machine.execInboundWrite port packet dt s
  | .inboundAtomic port packet dt => Sys2Proof.Machine.execInboundAtomic port packet dt s
  | .inboundMsg port packet dt => Sys2Proof.Machine.execInboundMsg port packet dt s
  | .laterEpochHoldExpiry hold dt => Sys2Proof.Machine.execLaterEpochHoldExpiry hold dt s
  | .readReply packet => Sys2Proof.Machine.execReadReply packet s
  | .writeAck packet => Sys2Proof.Machine.execWriteAck packet s
  | .atomicReply packet dt => Sys2Proof.Machine.execAtomicReply packet dt s
  | .msgAck packet dt => Sys2Proof.Machine.execMsgAck packet dt s
  | .msgResend req dt => Sys2Proof.Machine.execMsgResend req dt s
  | .atomicRetryTimeout req dt => Sys2Proof.Machine.execAtomicRetryTimeout req dt s
  | .requestUnreachable req dt => Sys2Proof.Machine.execRequestUnreachable req dt s
  | .writeAckTimeout req dt => Sys2Proof.Machine.execWriteAckTimeout req dt s
  | .lease packet dt => Sys2Proof.Machine.execLease packet dt s
  | .leaseExpiry dt => Sys2Proof.Machine.execLeaseExpiry dt s
  | .fencePacket packet => Sys2Proof.Machine.execFencePacket packet s
  | .epochSetPart packet => Sys2Proof.Machine.execEpochSetPart packet s
  | .quiesce => Sys2Proof.Machine.execQuiesce s
  | .quiesceDepotFlush => Sys2Proof.Machine.execQuiesceDepotFlush s
  | .barArrive packet => Sys2Proof.Machine.execBarArrive packet s
  | .barRelease packet => Sys2Proof.Machine.execBarRelease packet s
  | .barBreak packet => Sys2Proof.Machine.execBarBreak packet s
  | .laneRetireRetrain port lanesOk => Sys2Proof.Machine.execLaneRetireRetrain port lanesOk s
  | .rsEncode jd group stripe gen data acked => Sys2Proof.Machine.execRsEncode jd group stripe gen data acked s
  | .rsReconstruct jd group stripe units role => Sys2Proof.Machine.execRsReconstruct jd group stripe units role s
  | .spareAssign group members member => Sys2Proof.Machine.execSpareAssign group members member s
  | .mgmtCommand msg => Sys2Proof.Machine.execMgmtCommand msg s
  | .deviceResetRequest msg => Sys2Proof.Machine.execDeviceResetRequest msg s
  | .sliceReset slice => Sys2Proof.Machine.execSliceReset slice s
  | .frameReset frame => Sys2Proof.Machine.execFrameReset frame s
  | .portReset port alignFails farEnd lanesOk => Sys2Proof.Machine.execPortReset port alignFails farEnd lanesOk s
  | .depotReset jd alignFails untrained unreadable failedDies ms => Sys2Proof.Machine.execDepotReset jd alignFails untrained unreadable failedDies ms s
  | .attest msg => Sys2Proof.Machine.execAttest msg s
  | .faultAck msg => Sys2Proof.Machine.execFaultAck msg s
  | .logread msg => Sys2Proof.Machine.execLogread msg s
  | .readreg msg => Sys2Proof.Machine.execReadreg msg s
  | .faultResend => Sys2Proof.Machine.execFaultResend s
  | .recoveryService jtag msg => Sys2Proof.Machine.execRecoveryService jtag msg s
  | .logAppend typ body => Sys2Proof.Machine.execLogAppend typ body s
  | .logProgram => Sys2Proof.Machine.execLogProgram s
  | .logOverflow => Sys2Proof.Machine.execLogOverflow s
  | .standbyHeartbeatMiss missed imageFailed => Sys2Proof.Machine.execStandbyHeartbeatMiss missed imageFailed s
  | .takeover => Sys2Proof.Machine.execTakeover s
  | .standbyMirror => Sys2Proof.Machine.execStandbyMirror s
  | .windowSave => Sys2Proof.Machine.execWindowSave s
  | .transientEvent unit source dt => Sys2Proof.Machine.execTransientEvent unit source dt s
  | .unitRetire unit source => Sys2Proof.Machine.execUnitRetire unit source s
  | .memoryUnitDrain unit => Sys2Proof.Machine.execMemoryUnitDrain unit s
  | .frameQuarantine frame => Sys2Proof.Machine.execFrameQuarantine frame s
  | .pendingRetire frame => Sys2Proof.Machine.execPendingRetire frame s
  | .runRestart run => Sys2Proof.Machine.execRunRestart run s
  | .runRetired run => Sys2Proof.Machine.execRunRetired run s
  | .faultRecord unit cls source pattern slice addr => Sys2Proof.Machine.execFaultRecord unit cls source pattern slice addr s
  | .canaryStart unit cls number => Sys2Proof.Machine.execCanaryStart unit cls number s
  | .canaryComplete unit digest stored => Sys2Proof.Machine.execCanaryComplete unit digest stored s
  | .canaryAbort unit => Sys2Proof.Machine.execCanaryAbort unit s
  | .shadowCompare run origin agree cls => Sys2Proof.Machine.execShadowCompare run origin agree cls s
  | .shadowThirdCompute run origin shadow third originOk shadowOk cls => Sys2Proof.Machine.execShadowThirdCompute run origin shadow third originOk shadowOk cls s
  | .bundleIssue frame dt => Sys2Proof.Machine.execBundleIssue frame dt s
  | .mmaSlabAdd frame residueFailures => Sys2Proof.Machine.execMmaSlabAdd frame residueFailures s
  | .carryCheckMismatch frame failures => Sys2Proof.Machine.execCarryCheckMismatch frame failures s
  | .windowFetchDone run alloc layer => Sys2Proof.Machine.execWindowFetchDone run alloc layer s
  | .walk shunter call => Sys2Proof.Machine.execWalk shunter call s
  | .walkRound shunter call bead => Sys2Proof.Machine.execWalkRound shunter call bead s
  | .sweep shunter calls => Sys2Proof.Machine.execSweep shunter calls s
  | .topkCall selector call sel => Sys2Proof.Machine.execTopkCall selector call sel s
  | .mergeCall selector call sel => Sys2Proof.Machine.execMergeCall selector call sel s
  | .gatherServe req => Sys2Proof.Machine.execGatherServe req s
  | .scataddAccumulate req => Sys2Proof.Machine.execScataddAccumulate req s
  | .apply call oldest => Sys2Proof.Machine.execApply call oldest s
  | .tableIntervalEnd table totals => Sys2Proof.Machine.execTableIntervalEnd table totals s
  | .rowMigrationCopy table row target => Sys2Proof.Machine.execRowMigrationCopy table row target s
  | .migrationInstall table row news => Sys2Proof.Machine.execMigrationInstall table row news s
  | .migrationFree table row => Sys2Proof.Machine.execMigrationFree table row s
  | .runTimeout run dt => Sys2Proof.Machine.execRunTimeout run dt s
  | .barTimeout run dt => Sys2Proof.Machine.execBarTimeout run dt s
  | .peerHalt run dt => Sys2Proof.Machine.execPeerHalt run dt s
  | .runComplete run => Sys2Proof.Machine.execRunComplete run s
  | .tierIntervalEnd => Sys2Proof.Machine.execTierIntervalEnd s
  | .pageMoveCopyDone page => Sys2Proof.Machine.execPageMoveCopyDone page s
  | .pageMoveSourceFree page => Sys2Proof.Machine.execPageMoveSourceFree page s
  | .sramScrub site found => Sys2Proof.Machine.execSramScrub site found s
  | .dramPatrol site found last => Sys2Proof.Machine.execDramPatrol site found last s
  | .blockEncode engine alloc block selfCheckOk => Sys2Proof.Machine.execBlockEncode engine alloc block selfCheckOk s
  | .blockDecode engine alloc block payload descriptor secondOk => Sys2Proof.Machine.execBlockDecode engine alloc block payload descriptor secondOk s
  | .batchClose jd lane place parity dt => Sys2Proof.Machine.execBatchClose jd lane place parity dt s
  | .batchProgramDone jd lane batch => Sys2Proof.Machine.execBatchProgramDone jd lane batch s
  | .programFailure jd lane batch ch die block place => Sys2Proof.Machine.execProgramFailure jd lane batch ch die block place s
  | .eraseFailure jd lane ch die block => Sys2Proof.Machine.execEraseFailure jd lane ch die block s
  | .blockCloseVerify jd lane ch die block weak place => Sys2Proof.Machine.execBlockCloseVerify jd lane ch die block weak place s
  | .fold jd lane ch die block place => Sys2Proof.Machine.execFold jd lane ch die block place s
  | .garbageCollect jd lane place => Sys2Proof.Machine.execGarbageCollect jd lane place s
  | .blockErase jd lane ch die block => Sys2Proof.Machine.execBlockErase jd lane ch die block s
  | .journalFlush jd lane next dt => Sys2Proof.Machine.execJournalFlush jd lane next dt s
  | .checkpointSegment jd lane ns segment => Sys2Proof.Machine.execCheckpointSegment jd lane ns segment s
  | .counterCheckpoint jd lane => Sys2Proof.Machine.execCounterCheckpoint jd lane s
  | .superblockUpdate jd lane => Sys2Proof.Machine.execSuperblockUpdate jd lane s
  | .slotRead jd ns unit step => Sys2Proof.Machine.execSlotRead jd ns unit step s
  | .blockRefresh jd lane ch die block place => Sys2Proof.Machine.execBlockRefresh jd lane ch die block place s
  | .mediaPatrol jd lane steps => Sys2Proof.Machine.execMediaPatrol jd lane steps s
  | .dieRetire jd ch die unreadable place => Sys2Proof.Machine.execDieRetire jd ch die unreadable place s
  | .namespaceDestroy jd ns => Sys2Proof.Machine.execNamespaceDestroy jd ns s
  | .keyTableUpdate jd => Sys2Proof.Machine.execKeyTableUpdate jd s
  | .nandTempRead jd temps => Sys2Proof.Machine.execNandTempRead jd temps s
  | .ownershipClaim reqid owner epoch hseq phase job => Sys2Proof.Machine.execOwnershipClaim reqid owner epoch hseq phase job s
  | .claimReceive reqid claimant epoch hseq newEpoch newHseq => Sys2Proof.Machine.execClaimReceive reqid claimant epoch hseq newEpoch newHseq s
  | .stateReadDone reqid outcome => Sys2Proof.Machine.execStateReadDone reqid outcome s
  | .ownershipDone reqid sender epoch hseq => Sys2Proof.Machine.execOwnershipDone reqid sender epoch hseq s
  | .claimRepeat reqid => Sys2Proof.Machine.execClaimRepeat reqid s
  | .handedExpiry reqid dt => Sys2Proof.Machine.execHandedExpiry reqid dt s
  | .sliceTelemetryUpdate dt => Sys2Proof.Machine.execSliceTelemetryUpdate dt s
  | .portLinkLoss port => Sys2Proof.Machine.execPortLinkLoss port s
  | .refclk100Return => Sys2Proof.Machine.execRefclk100Return s
  | .jtagAccess op => Sys2Proof.Machine.execJtagAccess op s
  | .nandCommandTimeout jd ch die cleared dt => Sys2Proof.Machine.execNandCommandTimeout jd ch die cleared dt s
  | .stationmasterWatchdogExpiry which dt => Sys2Proof.Machine.execStationmasterWatchdogExpiry which dt s
  | .standbySyncDone => Sys2Proof.Machine.execStandbySyncDone s
  | .correctedSummary unit count => Sys2Proof.Machine.execCorrectedSummary unit count s
  | .tenantUnitWaitTimeout r seq => Sys2Proof.Machine.execTenantUnitWaitTimeout r seq s

end Sys2Proof.Machine
end

