-- ==== Sys2Proof/Machine/Idle.lean ====
section
/-! DEFINITION. What the block does while no command waits. -/

namespace Sys2Proof.Machine

/-- DESIGN CHOICE (log entry 2): with no command waiting, 1 ns passes on the monotonic timer and on the station clock once it runs. -/
def State.idle (s : State) : State := s.tick 1

end Sys2Proof.Machine
end

