-- ==== Sys2Proof/Machine/Step.lean ====
section
/-! DEFINITION. One step of the block: the command at the front of the queue, or one nanosecond of the clocks when the queue is
empty. -/

namespace Sys2Proof.Machine

/-- Run the command at the front of the queue with the queue's rest; on an empty queue the block idles for 1 ns.
DESIGN CHOICE: log entries 2, 119. -/
def step (s : State) : Host.Outcome State Fault Refusal :=
  match s.pending with
  | [] => .next s.idle
  | c :: rest => exec c { s with pending := rest }

/-- The state with the command that a table word spells put at the front of its queue; no table word spells one.
DESIGN CHOICE: log entry 3. -/
def State.withFetchWord (s : State) (nbits w : Nat) : State :=
  match decodeTableWord nbits w with
  | some c => { s with pending := c :: s.pending }
  | none => s

end Sys2Proof.Machine
end

