-- ==== Sys2Proof/Machine/Package.lean ====
section
/-! DEFINITION. The package: the output pins that the state drives (R573 to R588), what fills each perimeter site (Table 20-2), and the
ball map (R23, R591 to R595). -/

namespace Sys2Proof.Machine

-- ## Output pins (Table 20-5)

/-- Level of ALERT_N: low while start-up has FAILED, the device is FENCED, or a Counting die throttles (R588). -/
def State.alertNHigh (s : State) : Bool :=
  !(s.phase == phFailed || s.fenced || s.fld PWR_THERM_THROTTLE 0 == 1 || s.fld PWR_THERM_THROTTLE 1 == 1)

/-- Level of THERMTRIP_N: low from a trip until it is cleared (R588). -/
def State.thermtripNHigh (s : State) : Bool := !s.pins.tripped

/-- Level of PPS_OUT: high for 100 us from the edge at a whole second of the station clock (Table 20-5).
DESIGN CHOICE: log entry 36. -/
def State.ppsOutHigh (s : State) : Bool := s.clock.running && decide (s.clock.station < s.clock.ppsHighUntil)

-- ## Perimeter sites (Table 20-2)

/-- What stands on a perimeter site. -/
inductive Site where
  | junction (j : Nat)
  | hbm (stack : Nat)
  | spacer
  deriving DecidableEq, Repr

/-- The dies of sites 0 to 11 of a variant: 1 B, 2 H, 3 L. -/
def sitesOf (variant : Nat) : List Site :=
  if variant = 2 then
    [.junction 0, .hbm 0, .hbm 1, .hbm 2, .hbm 3, .hbm 4, .junction 1, .hbm 5, .hbm 6, .hbm 7, .hbm 8, .hbm 9]
  else if variant = 3 then
    [.junction 0, .hbm 0, .spacer, .spacer, .hbm 1, .junction 2, .junction 1, .hbm 2, .spacer, .spacer, .hbm 3, .junction 3]
  else
    [.junction 0, .hbm 0, .hbm 1, .hbm 2, .hbm 3, .junction 2, .junction 1, .hbm 4, .hbm 5, .hbm 6, .hbm 7, .junction 3]

/-- The fibre of the pigtail that carries a lane of a CCL port (R579). -/
def fibreOf (transmit : Bool) (lane : Nat) : Nat := if transmit then 1 + lane else 12 - lane

-- ## Signals (Tables 20-5, 20-8 and 20-10)

/-- A signal of a NAND channel (Table 20-8). -/
inductive NandPin where
  | dq (k : Nat) | dqsT | dqsC | reT | reC | weN | cle | ale | wpN | rbN (k : Nat) | ceN (k : Nat)
  deriving DecidableEq, Repr

/-- A signal of a DDR5 subchannel (R593). -/
inductive DdrPin where
  | dq (k : Nat) | cb (k : Nat) | dqsT (k : Nat) | dqsC (k : Nat) | dca (k : Nat) | dckT | dckC | dpar | dcsN (k : Nat) | resetN | alertN
  deriving DecidableEq, Repr

/-- A service signal (Table 20-5). -/
inductive ServicePin where
  | resetN | pwrfailN | alertN | thermtripN | ppsIn | ppsOut | i3cScl | i3cSda | mgTxP | mgTxN | mgRxP | mgRxN | refclk100P | refclk100N
  | tck | tms | tdi | tdo | trstN | trcClk | trcD (k : Nat)
  deriving DecidableEq, Repr

/-- What lies at a position of the grid. -/
inductive Ball where
  | gnd
  | vin50
  | depopulated
  | nand (channel : Nat) (pin : NandPin)
  | ddr (channel : Nat) (b : Bool) (pin : DdrPin)
  | jugan (port : Nat) (transmit : Bool) (lane : Nat) (positive : Bool)
  | refclk156 (die : Nat) (positive : Bool)
  | service (pin : ServicePin)
  deriving DecidableEq, Repr

-- ## The grid (R23, R591)

/-- Letters of the ball rows, in order (R23). -/
def rowLetters : List String := ["A", "B", "C", "D", "E", "F", "G", "H", "J", "K", "L", "M", "N", "P", "T", "U", "V", "W", "Y"]

/-- The name of a row index, 0 to 56 (R591). -/
def rowName (row : Nat) : String :=
  (if row < 19 then "" else if row < 38 then "A" else "B") ++ rowLetters.getD (row % 19) ""

/-- The name of a position: its row and its column. -/
def ballName (row col : Nat) : String := rowName row ++ toString col

/-- The Junction die whose block a column lies in (Table 20-7). -/
def blockDie (col : Nat) : Nat := if col < 36 then 0 else if col < 71 then 2 else if col < 106 then 1 else 3

/-- The base column of a die's block (Table 20-7). -/
def blockBase (die : Nat) : Nat := if die = 0 then 1 else if die = 2 then 36 else if die = 1 then 71 else 106

/-- Table 20-8: the signal of a NAND tile at row `r`, local column `u`; none for GND. -/
def nandTile (r u : Nat) : Option NandPin :=
  match r, u with
  | 0, 0 => some (.dq 0) | 0, 1 => some (.dq 1) | 0, 3 => some .dqsT | 0, 4 => some .dqsC | 0, 6 => some (.dq 2) | 0, 7 => some (.dq 3)
  | 1, 0 => some (.dq 4) | 1, 1 => some (.dq 5) | 1, 3 => some .reT | 1, 4 => some .reC | 1, 6 => some (.dq 6) | 1, 7 => some (.dq 7)
  | 2, 0 => some .weN | 2, 1 => some .cle | 2, 2 => some .ale | 2, 3 => some .wpN | 2, 5 => some (.rbN 0) | 2, 6 => some (.rbN 1)
  | 2, 7 => some (.rbN 2)
  | 3, 0 => some (.rbN 3) | 3, 1 => some (.ceN 0) | 3, 2 => some (.ceN 1) | 3, 3 => some (.ceN 2) | 3, 5 => some (.ceN 3)
  | 3, 6 => some (.ceN 4) | 3, 7 => some (.ceN 5)
  | 4, 0 => some (.ceN 6) | 4, 1 => some (.ceN 7) | 4, 2 => some (.ceN 8) | 4, 3 => some (.ceN 9) | 4, 5 => some (.ceN 10)
  | 4, 6 => some (.ceN 11) | 4, 7 => some (.ceN 12)
  | 5, 0 => some (.ceN 13) | 5, 1 => some (.ceN 14) | 5, 2 => some (.ceN 15)
  | _, _ => none

/-- A data bit of nibble `k`: nibbles 8 and 9 carry CB0 to CB7 (R593). -/
def ddrData (k i : Nat) : DdrPin := if k < 8 then .dq (4 * k + i) else .cb (4 * (k - 8) + i)

/-- The signal of a DDR5 tile, subchannel B or A, at row `r`, local column `u`; none for GND (R593). -/
def ddrTile (b : Bool) (r u : Nat) : Option DdrPin :=
  if r < 10 then
    match u with
    | 0 => some (ddrData r 0) | 1 => some (ddrData r 1) | 3 => some (.dqsT r) | 4 => some (.dqsC r)
    | 6 => some (ddrData r 2) | 7 => some (ddrData r 3)
    | _ => none
  else if r = 10 then
    match u with
    | 0 => some (.dca 0) | 1 => some (.dca 1) | 2 => some (.dca 2) | 3 => some (.dca 3) | 5 => some .dckT | 6 => some .dckC
    | _ => none
  else
    match u with
    | 0 => some (.dca 4) | 1 => some (.dca 5) | 2 => some (.dca 6) | 3 => some .dpar | 4 => some (.dcsN 0) | 5 => some (.dcsN 1)
    | 6 => if b then none else some .resetN
    | 7 => if b then none else some .alertN
    | _ => none

/-- Table 20-5 apart from REFCLK156: the service signal at a row and a column of the grid. -/
def servicePin (row col : Nat) : Option ServicePin :=
  if row = 52 then
    match col with
    | 24 => some .resetN | 26 => some .pwrfailN | 28 => some .alertN | 30 => some .thermtripN | 32 => some .ppsIn | 34 => some .ppsOut
    | 95 => some .trcClk
    | _ => if 96 ≤ col ∧ col ≤ 103 then some (.trcD (col - 96)) else none
  else if row = 53 then
    match col with
    | 24 => some .i3cScl | 26 => some .i3cSda | 28 => some .mgTxP | 29 => some .mgTxN | 31 => some .mgRxP | 32 => some .mgRxN
    | _ => if 95 ≤ col ∧ col ≤ 102 then some (.trcD (col - 87)) else none
  else if row = 54 then
    match col with
    | 24 => some .refclk100P | 25 => some .refclk100N | 27 => some .tck | 28 => some .tms | 29 => some .tdi | 30 => some .tdo
    | 31 => some .trstN
    | _ => none
  else none

/-- Rows BL to BY of a block at local column `u` (R594, Table 20-10). -/
def lowerBall (die row col u : Nat) : Ball :=
  if row = 48 ∨ row = 50 then
    if u < 24 ∧ u % 3 ≠ 2 then .jugan (2 * die + u / 12) (row == 48) (u % 12 / 3) (u % 3 == 0) else .gnd
  else if row = 49 ∨ row = 51 then .gnd
  else if u = 6 ∨ u = 7 then .depopulated
  else if row = 55 ∨ row = 56 then (if u < 6 then .vin50 else .gnd)
  else if row = 54 ∧ (u = 32 ∨ u = 33) then .refclk156 die (u == 32)
  else (servicePin row col).elim .gnd .service

/-- What lies at a row index, 0 to 56, and a column, 1 to 140 (R591 to R594). -/
def ballAt (row col : Nat) : Ball :=
  let die := blockDie col
  let u := col - blockBase die
  if row < 24 then
    if 32 ≤ u then .gnd else (nandTile (row % 6) (u % 8)).elim .gnd (.nand (16 * die + 4 * (row / 6) + u / 8))
  else if row < 48 then
    let b := u / 8 % 2 == 1
    if 32 ≤ u then .gnd
    else (ddrTile b ((row - 24) % 12) (u % 8)).elim .gnd (.ddr (4 * die + 2 * ((row - 24) / 12) + u / 16) b)
  else lowerBall die row col u

/-- A ball of the JD2 and JD3 blocks that the PN-880H leaves unconnected (R595). -/
def Ball.unconnectedOnH (b : Ball) (col : Nat) : Bool :=
  decide (blockDie col = 2 ∨ blockDie col = 3) &&
  match b with
  | .nand _ _ | .ddr _ _ _ | .jugan _ _ _ _ | .refclk156 _ _ => true
  | _ => false

/-- Groups of Table 20-11, in its order. -/
def Ball.group : Ball → Nat
  | .vin50 => 0
  | .nand _ _ => 1
  | .ddr _ _ _ => 2
  | .jugan _ _ _ _ => 3
  | .refclk156 _ _ | .service _ => 4
  | .gnd => 5
  | .depopulated => 6

/-- Positions of the grid that satisfy a condition on what lies there and its column. -/
def countBalls (p : Ball → Nat → Bool) : Nat :=
  (List.range 57).foldl (fun n row => (List.range 140).foldl (fun m c => if p (ballAt row (c + 1)) (c + 1) then m + 1 else m) n) 0

end Sys2Proof.Machine
end

