-- ==== Sys2Proof/WellFormed.lean ====
section
/-! DEFINITION. Which commands are well formed: their operands lie in the ranges that the spec's numbering gives rings, units, ports and
packets. The machine answers an ill-formed command too: it names nothing of the device, so it changes nothing. -/

namespace Sys2Proof

/-- A ring, or 64 for the management port (R448, R572). -/
def ringOk (r : Nat) : Bool := decide (r ≤ 64)

/-- Sequence numbers start at 1 (R452) and are 64 bits wide. -/
def seqOk (n : Nat) : Bool := decide (1 ≤ n) && decide (n < 2 ^ 64)

/-- A flit's 12-bit sequence number (R395). -/
def w12 (n : Nat) : Bool := decide (n < 2 ^ 12)

/-- A 16-bit field. -/
def w16 (n : Nat) : Bool := decide (n < 2 ^ 16)

/-- A 32-bit field. -/
def w32 (n : Nat) : Bool := decide (n < 2 ^ 32)

/-- A node id (R400). -/
def nodeOk (n : Nat) : Bool := decide (n < 2 ^ 17)

/-- A Junction die. -/
def jd4 (j : Nat) : Bool := decide (j < 4)

/-- A Depot lane of a Junction die (R358). -/
def lane2 (l : Nat) : Bool := decide (l < 2)

/-- A physical frame (R236). -/
def frame192 (f : Nat) : Bool := decide (f < 192)

/-- A unit id of Table 17-2 whose type is not reserved (R502). -/
def unitOk (u : Nat) : Bool := decide (4096 ≤ u) && decide (u < 0xE000)

/-- A SOURCE code of Table 17-7. -/
def sourceCode (n : Nat) : Bool := decide (1 ≤ n) && decide (n ≤ 14)

/-- A slot address of Table 12-2. -/
def puaOk (p : Pua) : Bool := decide (p.ch < 8) && decide (p.die < 16) && decide (p.slot < 2 ^ 25)

/-- A memory site lies in tier 0 to 4 of Table 11-1. -/
def siteOk (s : MemSite) : Bool := decide (s.tier ≤ 4)

/-- Crossings of each kind that a device has at most (Table 16-2). -/
def crossingCount : CrossingKind → Nat
  | .hbm => 640 | .ddr5 => 32 | .nand => 64 | .jugan => 8 | .ccl => 2 | .dieToDie => 4 | .mgmtFlash => 1 | .stationClock => 2

/-- A crossing of Table 16-2. -/
def crossingOk (x : Crossing) : Bool := decide (x.index < crossingCount x.kind)

/-- The operands of a command lie in their ranges. DESIGN CHOICE: log entry 118. -/
def Instr.wellFormed : Instr → Bool
  | .powerOnReset => true
  | .crossingAlignAttempt x _ _ => crossingOk x
  | .crossingAlignRetry x _ _ => crossingOk x
  | .hbmTraining stack _ => decide (stack < 10)
  | .ddr5Training _ => true
  | .nandChannelTraining jd ch _ _ => jd4 jd && decide (ch < 16)
  | .portTraining port _ _ => decide (port < 8)
  | .portTrainingRepeat port _ _ => decide (port < 8)
  | .startupCanaries _ => true
  | .laneRebuild jd lane unreadable failedDies _ => jd4 jd && lane2 lane && unreadable.all puaOk && (failedDies.all fun d => decide (d.1 < 16 && d.2 < 16))
  | .deviceReady _ => true
  | .resetNAssert _ => true
  | .deviceReset _ => true
  | .watchdogReset => true
  | .undervoltageShutdown _ _ _ => true
  | .overvoltageShutdown _ _ _ => true
  | .pwrfailEdge => true
  | .refclk100Loss => true
  | .refclk156Loss jd => jd4 jd
  | .refclk156Return jd => jd4 jd
  | .pigtailFitted port _ _ => decide (port < 2)
  | .thermalSample _ => true
  | .thermtripReset => true
  | .sensePublish _ _ _ _ _ _ _ _ => true
  | .i3cPoll _ => true
  | .i3cHotJoin _ => true
  | .governorPass _ _ => true
  | .railStep _ => true
  | .ptpSync _ _ => true
  | .ptpLockLoss _ => true
  | .ppsInEdge _ _ => true
  | .ppsOutEdge => true
  | .cclWrite port packet _ => decide (port < 2) && decide (packet.length ≤ 4128)
  | .cclRead port packet => decide (port < 2) && decide (packet.length ≤ 4128)
  | .registerWrite _ _ _ _ => true
  | .seal _ => true
  | .ringEnable r _ => decide (r < 64)
  | .ringDisable r _ => decide (r < 64)
  | .opkeyWrite i _ => decide (i < 4)
  | .keyCommit _ => true
  | .isolWrite _ => true
  | .tktholdWrite _ => true
  | .repairRateWrite _ => true
  | .logselWrite _ => true
  | .policerWrite ccl port cls _ => (if ccl then decide (port < 2) else decide (port < 8)) && decide (cls < 16)
  | .cbsWrite port cls _ => decide (port < 8) && decide (cls < 16)
  | .weightWrite port cls _ => decide (port < 8) && decide (cls < 16)
  | .ringScan r _ => decide (r < 64)
  | .commandStart r seq => ringOk r && seqOk seq
  | .commandComplete r seq _ => ringOk r && seqOk seq
  | .nop r seq => ringOk r && seqOk seq
  | .search r seq _ _ _ => ringOk r && seqOk seq
  | .rerankStage1 r seq => ringOk r && seqOk seq
  | .rerankStage2 r seq => ringOk r && seqOk seq
  | .insert r seq => ringOk r && seqOk seq
  | .delete r seq => ringOk r && seqOk seq
  | .update r seq => ringOk r && seqOk seq
  | .vectorWriteAck r seq _ => ringOk r && seqOk seq
  | .commitGroupClose _ _ => true
  | .groupPublish _ => true
  | .logRecordAck _ => true
  | .sidingSeal _ => true
  | .mergeForwardSearch _ _ => true
  | .mergeListCompute _ => true
  | .listPublication _ => true
  | .bufferFree _ => true
  | .repairList _ => true
  | .reclaim _ _ => true
  | .indexLoad r seq => ringOk r && seqOk seq
  | .indexSave r seq => ringOk r && seqOk seq
  | .indexClose r seq => ringOk r && seqOk seq
  | .indexCreate r seq => ringOk r && seqOk seq
  | .tableOpen r seq => ringOk r && seqOk seq
  | .tableClose r seq => ringOk r && seqOk seq
  | .seqOpen r seq => ringOk r && seqOk seq
  | .seqClose r seq => ringOk r && seqOk seq
  | .kvappend r seq => ringOk r && seqOk seq
  | .attend r seq _ _ => ringOk r && seqOk seq
  | .load r seq => ringOk r && seqOk seq
  | .run r seq => ringOk r && seqOk seq
  | .runStart r seq => ringOk r && seqOk seq
  | .unload r seq => ringOk r && seqOk seq
  | .jobBind r seq => ringOk r && seqOk seq
  | .jobUnbind r seq => ringOk r && seqOk seq
  | .exportPages r seq => ringOk r && seqOk seq
  | .free r seq => ringOk r && seqOk seq
  | .fwStage r seq => ringOk r && seqOk seq
  | .fwActivateTrial r seq => ringOk r && seqOk seq
  | .fwActivateCommit r seq => ringOk r && seqOk seq
  | .fwActivateRevert r seq => ringOk r && seqOk seq
  | .activationStandbyRestart _ => true
  | .activationHandover => true
  | .activationActiveRestart _ => true
  | .activationHandback => true
  | .trialTimeout _ => true
  | .tenantCreate r seq _ => ringOk r && seqOk seq
  | .tenantAmend r seq _ => ringOk r && seqOk seq
  | .tenantDestroy r seq _ => ringOk r && seqOk seq
  | .destroyResume slice _ => decide (slice < 64)
  | .unitClear unit fromSlice toSlice _ _ _ => unitOk unit && decide (fromSlice < 64) && decide (toSlice < 64)
  | .keyRotate r seq => ringOk r && seqOk seq
  | .sliceKey r seq => ringOk r && seqOk seq
  | .nsErase r seq => ringOk r && seqOk seq
  | .fence r seq => ringOk r && seqOk seq
  | .scrubClearSuspect r seq => ringOk r && seqOk seq
  | .scrubPatrol r seq => ringOk r && seqOk seq
  | .epochSet r seq => ringOk r && seqOk seq
  | .ttCommit r seq _ => ringOk r && seqOk seq
  | .debugCtl r seq => ringOk r && seqOk seq
  | .timetableSwitch list _ => decide (list < 9)
  | .timetableEntryBegin list _ => decide (list < 9)
  | .egressBegin port _ => decide (port < 8)
  | .egressEnqueue port cls packet _ => decide (port < 8) && decide (cls < 16) && decide (packet.length ≤ 4128)
  | .flitReceive port flit => decide (port < 8) && decide (flit.length = 256)
  | .nak port seq => decide (port < 8) && w12 seq
  | .inboundRead port packet _ => decide (port < 8) && decide (packet.length ≤ 4128)
  | .inboundWrite port packet _ => decide (port < 8) && decide (packet.length ≤ 4128)
  | .inboundAtomic port packet _ => decide (port < 8) && decide (packet.length ≤ 4128)
  | .inboundMsg port packet _ => decide (port < 8) && decide (packet.length ≤ 4128)
  | .laterEpochHoldExpiry _ _ => true
  | .readReply packet => decide (packet.length ≤ 4128)
  | .writeAck packet => decide (packet.length ≤ 4128)
  | .atomicReply packet _ => decide (packet.length ≤ 4128)
  | .msgAck packet _ => decide (packet.length ≤ 4128)
  | .msgResend _ _ => true
  | .atomicRetryTimeout _ _ => true
  | .requestUnreachable _ _ => true
  | .writeAckTimeout _ _ => true
  | .lease packet _ => decide (packet.length ≤ 4128)
  | .leaseExpiry _ => true
  | .fencePacket packet => decide (packet.length ≤ 4128)
  | .epochSetPart packet => decide (packet.length ≤ 4128)
  | .quiesce => true
  | .quiesceDepotFlush => true
  | .barArrive packet => decide (packet.length ≤ 4128)
  | .barRelease packet => decide (packet.length ≤ 4128)
  | .barBreak packet => decide (packet.length ≤ 4128)
  | .laneRetireRetrain port _ => decide (port < 8)
  | .rsEncode jd _ _ _ _ _ => jd4 jd
  | .rsReconstruct jd _ _ _ _ => jd4 jd
  | .spareAssign _ _ _ => true
  | .mgmtCommand _ => true
  | .deviceResetRequest _ => true
  | .sliceReset slice => decide (slice < 64)
  | .frameReset frame => frame192 frame
  | .portReset port _ _ _ => decide (port < 8)
  | .depotReset jd _ _ unreadable failedDies _ => jd4 jd && unreadable.all puaOk && (failedDies.all fun d => decide (d.1 < 16 && d.2 < 16))
  | .attest _ => true
  | .faultAck _ => true
  | .logread _ => true
  | .readreg _ => true
  | .faultResend => true
  | .recoveryService _ _ => true
  | .logAppend typ _ => decide (1 ≤ typ && typ ≤ 11)
  | .logProgram => true
  | .logOverflow => true
  | .standbyHeartbeatMiss _ _ => true
  | .takeover => true
  | .standbyMirror => true
  | .windowSave => true
  | .transientEvent unit source _ => unitOk unit && sourceCode source
  | .unitRetire unit source => unitOk unit && sourceCode source
  | .memoryUnitDrain unit => unitOk unit
  | .frameQuarantine frame => frame192 frame
  | .pendingRetire frame => frame192 frame
  | .runRestart _ => true
  | .runRetired _ => true
  | .faultRecord unit _ source pattern _ _ => (unit == 0 || unitOk unit) && sourceCode source && w16 pattern
  | .canaryStart unit cls number => unitOk unit && decide (cls < 8) && decide (number < 4096)
  | .canaryComplete unit _ _ => unitOk unit
  | .canaryAbort unit => unitOk unit
  | .shadowCompare _ origin _ cls => frame192 origin && decide (cls < 8)
  | .shadowThirdCompute _ origin shadow third _ _ cls => frame192 origin && frame192 shadow && frame192 third && decide (cls < 8)
  | .bundleIssue frame _ => frame192 frame
  | .mmaSlabAdd frame _ => frame192 frame
  | .carryCheckMismatch frame _ => frame192 frame
  | .windowFetchDone _ _ _ => true
  | .walk shunter _ => decide (shunter < 128)
  | .walkRound shunter _ _ => decide (shunter < 128)
  | .sweep shunter _ => decide (shunter < 128)
  | .topkCall selector _ _ => decide (selector < 16)
  | .mergeCall selector _ _ => decide (selector < 16)
  | .gatherServe _ => true
  | .scataddAccumulate _ => true
  | .apply _ _ => true
  | .tableIntervalEnd _ _ => true
  | .rowMigrationCopy _ _ _ => true
  | .migrationInstall _ _ _ => true
  | .migrationFree _ _ => true
  | .runTimeout _ _ => true
  | .barTimeout _ _ => true
  | .peerHalt _ _ => true
  | .runComplete _ => true
  | .tierIntervalEnd => true
  | .pageMoveCopyDone _ => true
  | .pageMoveSourceFree _ => true
  | .sramScrub site _ => siteOk site
  | .dramPatrol site _ _ => siteOk site
  | .blockEncode engine _ _ _ => decide (engine < 16)
  | .blockDecode engine _ _ _ _ _ => decide (engine < 16)
  | .batchClose jd lane place parity _ => jd4 jd && lane2 lane && place.all puaOk && puaOk parity
  | .batchProgramDone jd lane _ => jd4 jd && lane2 lane
  | .programFailure jd lane _ ch die _ place => jd4 jd && lane2 lane && decide (ch < 8) && decide (die < 16) && place.all puaOk
  | .eraseFailure jd lane ch die _ => jd4 jd && lane2 lane && decide (ch < 8) && decide (die < 16)
  | .blockCloseVerify jd lane ch die _ weak place => jd4 jd && lane2 lane && decide (ch < 8) && decide (die < 16) && weak.all puaOk && place.all puaOk
  | .fold jd lane ch die _ place => jd4 jd && lane2 lane && decide (ch < 8) && decide (die < 16) && place.all puaOk
  | .garbageCollect jd lane place => jd4 jd && lane2 lane && place.all puaOk
  | .blockErase jd lane ch die _ => jd4 jd && lane2 lane && decide (ch < 8) && decide (die < 16)
  | .journalFlush jd lane _ _ => jd4 jd && lane2 lane
  | .checkpointSegment jd lane _ _ => jd4 jd && lane2 lane
  | .counterCheckpoint jd lane => jd4 jd && lane2 lane
  | .superblockUpdate jd lane => jd4 jd && lane2 lane
  | .slotRead jd _ _ _ => jd4 jd
  | .blockRefresh jd lane ch die _ place => jd4 jd && lane2 lane && decide (ch < 8) && decide (die < 16) && place.all puaOk
  | .mediaPatrol jd lane _ => jd4 jd && lane2 lane
  | .dieRetire jd ch die unreadable place => jd4 jd && decide (ch < 16) && (die.all fun d => decide (d < 16)) && unreadable.all puaOk && place.all puaOk
  | .namespaceDestroy jd _ => jd4 jd
  | .keyTableUpdate jd => jd4 jd
  | .nandTempRead jd _ => jd4 jd
  | .ownershipClaim reqid owner epoch hseq phase job => decide (reqid < 2 ^ 64) && nodeOk owner && w32 epoch && w32 hseq && w16 phase && w16 job
  | .claimReceive reqid claimant epoch hseq newEpoch newHseq => decide (reqid < 2 ^ 64) && nodeOk claimant && w32 epoch && w32 hseq && w32 newEpoch && w32 newHseq
  | .stateReadDone reqid _ => decide (reqid < 2 ^ 64)
  | .ownershipDone reqid sender epoch hseq => decide (reqid < 2 ^ 64) && nodeOk sender && w32 epoch && w32 hseq
  | .claimRepeat reqid => decide (reqid < 2 ^ 64)
  | .handedExpiry reqid _ => decide (reqid < 2 ^ 64)
  | .sliceTelemetryUpdate _ => true
  | .portLinkLoss port => decide (port < 8)
  | .refclk100Return => true
  | .jtagAccess _ => true
  | .nandCommandTimeout jd ch die _ _ => jd4 jd && decide (ch < 16) && decide (die < 16)
  | .stationmasterWatchdogExpiry which _ => decide (which < 2)
  | .standbySyncDone => true
  | .correctedSummary unit _ => unitOk unit
  | .tenantUnitWaitTimeout r seq => ringOk r && seqOk seq

end Sys2Proof
end

