-- ==== Sys2Proof/Safety.lean ====
section
/-! DEFINITION. What counts as a safe run, in the terms claims use: a command that completes, the parts of the state that a command leaves
alone, the canonical form of the ring region, and what no command may undo. -/

namespace Sys2Proof.Machine

/-- The command answers a next state of which `P` holds. -/
def Completes (c : Instr) (s : State) (P : State → Prop) : Prop := ∃ t : State, exec c s = .next t ∧ P t

/-- A step answers a next state. -/
def Safe (s : State) : Prop := ∃ t : State, step s = .next t

/-- The memory tiers are left alone: allocations, budgets, poison, page moves, zero runs, and the ring region. -/
def SameMemory (s t : State) : Prop :=
  t.allocs = s.allocs ∧ t.charges = s.charges ∧ t.poison = s.poison ∧ t.moves = s.moves ∧ t.pageUnits = s.pageUnits ∧ t.zruns = s.zruns ∧
  t.ringMem = s.ringMem

/-- Consists, runs, frames and engine calls are left alone. -/
def SameCompute (s t : State) : Prop := t.consists = s.consists ∧ t.runs = s.runs ∧ t.frames = s.frames ∧ t.calls = s.calls

/-- Indexes, stores, queries, tables and sequences are left alone. -/
def SameSearch (s t : State) : Prop :=
  t.indexes = s.indexes ∧ t.stores = s.stores ∧ t.queries = s.queries ∧ t.tables = s.tables ∧ t.seqs = s.seqs

/-- Jobs, the fabric, the ports, the timetables and the policers are left alone. -/
def SameFabric (s t : State) : Prop :=
  t.jobs = s.jobs ∧ t.fab = s.fab ∧ t.ports = s.ports ∧ t.timetables = s.timetables ∧ t.policers = s.policers

/-- Rings and commands in flight are left alone. -/
def SameRings (s t : State) : Prop := t.rings = s.rings ∧ t.cmds = s.cmds

/-- Everything but the registers, the Stationmasters and management flash is left alone. -/
def SameBulk (s t : State) : Prop :=
  SameMemory s t ∧ SameCompute s t ∧ SameSearch s t ∧ SameFabric s t ∧ SameRings s t ∧ t.depots = s.depots ∧ t.owns = s.owns

/-- Every unit of the retirement record stays in it. -/
def KeepsRetired (s t : State) : Prop := ∀ u : Nat, s.retired u = true → t.retired u = true

/-- The ring region is canonical. -/
abbrev RingCanonical (s : State) : Prop := Memory.wf s.ringMem = true

/-- Every command that waits is well formed. -/
abbrev QueueWellFormed (s : State) : Prop := ∀ c ∈ s.pending, Instr.wellFormed c = true

/-- Start-up can pass step 4 of Table 16-1: an image the boot ROM accepts, a record it can report (R474, R475). -/
abbrev Bootable (s : State) : Prop := s.nv.bootSlot.isSome = true ∧ s.nv.record.sigOk = true ∧ s.nv.record.reportable = true

/-- The state after a power-on or device reset of kind `kind` once step 4 of Table 16-1 is over (R490, R491): PHASE is ALIGN, KIND names
the cause, SEALED is clear, and the volatile state is gone; management flash keeps its identity, its slices and its key; the media stay. -/
def Restarted (kind : Nat) (s t : State) : Prop :=
  t.phase = phAlign ∧ t.fld GLB_RESETCAUSE_KIND = kind ∧ t.fld SEC_SEAL_SEALED = 0 ∧ t.pins.powered = true ∧ t.pins.tripped = false ∧
  t.runs = [] ∧ t.frames = [] ∧ t.calls = [] ∧ t.consists = [] ∧ t.cmds = [] ∧ t.rings = [] ∧ t.ringMem = [] ∧ t.indexes = [] ∧ t.owns = [] ∧
  t.nv.record = s.nv.record ∧ t.nv.retired = s.nv.retired ∧ t.nv.slices = s.nv.slices ∧ t.nv.ock = s.nv.ock ∧
  t.nv.bootCount = (s.nv.bootCount + 1) % 2 ^ 32 ∧ t.depots = s.depots.map Depot.lose ∧ t.stores = s.stores ∧
  (∀ e ∈ t.allocs, e.2.flags.persist = true)

/-- The registers whose writes have no behaviour of their own beyond their access codes, and that no write counts in. -/
def plainRegister : RegName → Bool
  | .cmdRingcfg | .cmdRingarea | .cmdDataarea | .srcTkthold | .srcRepair | .secOpkey | .secKeyctl | .stmLogsel | .shpCbs | .shpJpol | .shpCclpol | .jugRcache
  | .memTiercfg | .depRdcfg | .glbBadacc | .secSealviol => false
  | _ => true

/-- The value of a field after a write of `v` over `o` (Table 0-4, R19). -/
def Field.written (f : Field) (isSealed : Bool) (o v : Nat) : Nat :=
  match f.acc with
  | .ro | .wo => o
  | .rw => if f.min ≤ v ∧ v ≤ f.max then v else o
  | .w1c => o &&& (2 ^ f.width - 1 - v)
  | .w1s => o ||| v
  | .rws => if isSealed then o else v

/-- A command of a ring has finished with a status; COMMAND_COMPLETE is to write its record. -/
def Ended (c : Cmd) (status : Nat) (t : State) : Prop :=
  (t.cmd c.ring c.seq).any (fun d => d.stage == .finished && d.status == status) = true

end Sys2Proof.Machine
end

