-- ==== Sys2Proof/Certificates/Slice0/Obligations.lean ====
section
/-! DEFINITION. The statements about the model. A clause about one command gives its effect where its conditions hold: the conditions are
on the state and the operands alone, and the conclusion is that exec answers a next state with that effect. -/

open Sys2Proof Sys2Proof.Machine

/-- Each way to reset the device starts it anew (R472, R490, R491, R587, R588): POWER_ON_RESET, DEVICE_RESET, RESET_N_ASSERT, WATCHDOG_RESET,
THERMTRIP_RESET, and REFCLK100_RETURN to a device that waits for its clock (R589).
Rests on log entries 16, 17, 20. -/
def Obligations.EveryResetStartsTheDeviceAnew : Prop :=
  ∀ s : State, Bootable s →
    (s.pins.powered = false → s.pins.refclk100 = true → Completes .powerOnReset s fun t => Restarted (if s.nv.marker then 5 else 1) s t) ∧
    (∀ (cause : ResetCause), s.pins.powered = true → s.pins.tripped = false → s.pins.refclk100 = true → Completes (.deviceReset cause) s fun t =>
      Restarted (causeCode cause) s t) ∧
    (∀ (lowNs : Nat), s.pins.powered = true → s.pins.tripped = false → s.pins.refclk100 = true → 6000 ≤ lowNs → Completes (.resetNAssert lowNs) s
      fun t => Restarted 2 s t) ∧
    (s.pins.powered = true → s.pins.tripped = false → s.pins.refclk100 = true → phBoot ≤ s.phase → s.stationmastersFailed = true → Completes
      .watchdogReset s fun t => Restarted 6 s t) ∧
    (s.pins.powered = true → s.pins.tripped = true → s.pins.refclk100 = true → Completes .thermtripReset s fun t => Restarted 4 s t) ∧
    (s.pins.powered = true → s.boot.waitRefclk = true → Completes .refclk100Return s fun t => Restarted (Config.freeResetKind s.freeCtr % 6 + 1) s
      t)

/-- CROSSING_ALIGN_ATTEMPT and CROSSING_ALIGN_RETRY (R478, R479, Table 16-2).
Rests on log entries 22, 23. -/
def Obligations.CrossingsAlignOrFail : Prop :=
  ∀ s : State,
    (∀ (x : Crossing) (passes : List AlignPass), s.alignDue x = true → s.attempts x = 0 → passes.length = crossingDirections x → passes.all
      AlignPass.ok = true → Completes (.crossingAlignAttempt x true passes) s fun t => t.isAligned x = true ∧ t.fld GLB_XALIGN_ALIGNED = countUp
      GLB_XALIGN_ALIGNED (s.fld GLB_XALIGN_ALIGNED) 1 ∧ t.nv = s.nv ∧ t.stm = s.stm ∧ SameBulk s t) ∧
    (∀ (x : Crossing) (passes : List AlignPass), s.alignDue x = true → s.attempts x = 0 → Completes (.crossingAlignAttempt x false passes) s fun t
      => t.attempts x = 1 ∧ t.boot.aligned = s.boot.aligned ∧ t.boot.failed = s.boot.failed ∧ t.nv = s.nv ∧ t.stm = s.stm ∧ SameBulk s t) ∧
    (∀ (x : Crossing) (passes : List AlignPass), s.alignDue x = true → 0 < s.attempts x → passes.length = crossingDirections x → passes.all
      AlignPass.ok = true → Completes (.crossingAlignRetry x true passes) s fun t => t.isAligned x = true ∧ t.fld GLB_XALIGN_RETRIES = countUp
      GLB_XALIGN_RETRIES (s.fld GLB_XALIGN_RETRIES) 1 ∧ t.nv = s.nv ∧ t.stm = s.stm ∧ SameBulk s t) ∧
    (∀ (x : Crossing) (passes : List AlignPass), s.alignDue x = true → s.attempts x = 2 → crossingFatal x = true → Completes (.crossingAlignRetry x
      false passes) s fun t => t.phase = phFailed ∧ t.fld GLB_BOOT_FAILCODE = stALIGNFATAL ∧ t.nv.retired = s.nv.retired ∧ SameBulk
      { s with counts := t.counts } t)

/-- HBM_TRAINING, DDR5_TRAINING and NAND_CHANNEL_TRAINING (R481 to R483).
Rests on log entry 24. -/
def Obligations.TrainingFollowsTheDevicesFound : Prop :=
  ∀ s : State,
    (∀ (stack : Nat) (failing : List Nat), s.phase = phTrain → stack < s.hbmStacks → s.boot.hbmDone.contains stack = false → Completes (.hbmTraining
      stack failing) s fun t => t.boot.hbmDone = s.boot.hbmDone ++ [stack] ∧ (failing.all fun p => decide (64 ≤ p) || t.retired (unitId 5 (64 *
      stack + p))) = true ∧ t.phase = phTrain ∧ SameMemory s t ∧ SameCompute s t ∧ SameFabric s t) ∧
    (∀ (d : DimmInfo), s.phase = phTrain → s.boot.ddrDone = false → d.channel < s.ddrChannels → d.dimms = 1 → d.trained = true →
      s.boot.ddrOut.contains d.channel = false → Completes (.ddr5Training [d]) s fun t => t.boot.ddrDone = true ∧ t.fld GLB_TRAIN_DDRRATE = min 8800
      d.rate ∧ t.fld GLB_TRAIN_DDRTYPE = (if d.mrdimm then 1 else 0) ∧ t.boot.dimms = [(d.channel, (d.ranks, d.rankBytes))] ∧ t.nv = s.nv ∧ t.stm =
      s.stm ∧ SameBulk s t) ∧
    (∀ (jd ch : Nat) (info : NandInfo), s.phase = phTrain → jd < s.jdCount → ch < 16 → s.boot.nandDone.contains (jd, ch) = false → s.retired (unitId
      8 (16 * jd + ch)) = false → nandWithin info = true → (s.depot jd).uniform ch info = true → exec (.nandChannelTraining jd ch info true) s =
      .next ({ s with boot := { s.boot with nandDone := s.boot.nandDone ++ [(jd, ch)] } }.setDepot jd
      { s.depot jd with channels := mapSet (s.depot jd).channels ch (nandChannel info) })) ∧
    (∀ (jd ch : Nat) (info : NandInfo), s.phase = phTrain → jd < s.jdCount → ch < 16 → s.boot.nandDone.contains (jd, ch) = false → s.retired (unitId
      8 (16 * jd + ch)) = false → nandWithin info = true → (s.depot jd).uniform ch info = true → Completes (.nandChannelTraining jd ch info false) s
      fun t => t.retired (unitId 8 (16 * jd + ch)) = true ∧ t.boot.nandDone = s.boot.nandDone ++ [(jd, ch)] ∧ t.phase = phTrain ∧ SameMemory s t ∧
      SameCompute s t ∧ SameFabric s t)

/-- STARTUP_CANARIES, LANE_REBUILD and DEVICE_READY (R485, R487, R513, Table 16-1).
Rests on log entries 14, 25, 27. -/
def Obligations.StartUpEndsReady : Prop :=
  ∀ s : State,
    (s.phase = phTrain → s.trained = true → s.boot.canariesDone = false → Completes (.startupCanaries []) s fun t => t.phase = phRebuild ∧
      t.boot.canariesDone = true ∧ t.fld FLT_CANARY_RUN = (s.fld FLT_CANARY_RUN + s.canaryRuns.length) % 2 ^ 32 ∧ t.fld FLT_CANARY_FAILED = s.fld
      FLT_CANARY_FAILED ∧ t.nv = s.nv ∧ SameBulk s t) ∧
    (∀ (jd lane : Nat) (unreadable : List Pua) (failedDies : List (Nat × Nat)) (ms : Nat), s.phase = phRebuild → jd < s.jdCount → lane < 2 →
      s.boot.lanesDone.contains (jd, lane) = false → Completes (.laneRebuild jd lane unreadable failedDies ms) s fun t => t.boot.lanesDone =
      s.boot.lanesDone ++ [(jd, lane)] ∧ t.phase = phRebuild ∧ SameCompute s t ∧ SameSearch s t ∧ SameFabric s t ∧ SameRings s t ∧ t.nv.retired =
      s.nv.retired) ∧
    (∀ (dt : Nat), s.phase = phRebuild → ((List.range (2 * s.jdCount)).all (fun k => s.boot.lanesDone.contains (k / 2, k % 2)) = true) → Completes
      (.deviceReady dt) s fun t => t.phase = phReady ∧ t.fld GLB_RESETCAUSE_READYMS = (s.clock.mono + dt - s.clock.timeZero) / 10 ^ 6 % 2 ^ 32 ∧
      t.stm.logHead = (s.stm.logHead + 1) % 2 ^ 32 ∧ t.nv.retired = s.nv.retired ∧ SameBulk s t)

/-- UNDERVOLTAGE_SHUTDOWN, OVERVOLTAGE_SHUTDOWN, PWRFAIL_EDGE and REFCLK100_LOSS (R580, R581, R583, R589).
Rests on log entries 15, 17, 18. -/
def Obligations.LossOfTheInputShutsDown : Prop :=
  ∀ s : State,
    (∀ (mv heldNs : Nat) (holdUp : Bool), s.pins.powered = true → 20000 ≤ heldNs → mv < 38100 → exec (.undervoltageShutdown mv heldNs holdUp) s =
      .next
      ({ s with nv := { s.nv with marker := s.nv.marker || (holdUp && (s.stm.jd0Up || s.stm.jd1Up)) }, pins := { s.pins with powered := false } }.lose)) ∧
    (∀ (mv heldNs : Nat) (holdUp : Bool), s.pins.powered = true → 10000 ≤ heldNs → 59400 < mv → mv ≤ 60000 → exec (.overvoltageShutdown mv heldNs
      holdUp) s = .next
      ({ s with nv := { s.nv with marker := s.nv.marker || (holdUp && (s.stm.jd0Up || s.stm.jd1Up)) }, pins := { s.pins with powered := false } }.lose)) ∧
    (∀ (mv heldNs : Nat) (holdUp : Bool), 60000 < mv → exec (.overvoltageShutdown mv heldNs holdUp) s = .fault .beyondAbsoluteMaximum) ∧
    (s.pins.powered = true → s.pins.tripped = false → Completes .pwrfailEdge s fun t => t.stm.logPending = [] ∧ t.pins = s.pins ∧ t.boot = s.boot ∧
      SameCompute s t ∧ SameFabric s t ∧ SameRings s t) ∧
    (s.pins.refclk100 = true → s.phase = phReady → Completes .refclk100Loss s fun t => t.pins.refclk100 = false ∧ t.boot.waitRefclk = true ∧ t.phase
      = phPower ∧ t.runs = [] ∧ t.cmds = [] ∧ t.nv.slices = s.nv.slices ∧ t.nv.retired = s.nv.retired ∧ t.stores = s.stores) ∧
    (s.pins.refclk100 = true → phAlign ≤ s.phase → s.phase < phReady → Completes .refclk100Loss s fun t => t.pins.refclk100 = false ∧ t.phase =
      phFailed ∧ t.fld GLB_BOOT_FAILCODE = stALIGNFATAL ∧ t.nv.retired = s.nv.retired)

/-- PORT_TRAINING, PORT_TRAINING_REPEAT, PORT_LINK_LOSS, REFCLK156_LOSS, REFCLK156_RETURN, PIGTAIL_FITTED and LANE_RETIRE_RETRAIN (R394, R484,
R579, R589).
Rests on log entries 28, 29, 30. -/
def Obligations.PortsTrainAndGoDown : Prop :=
  ∀ s : State,
    (∀ (port : Nat) (lanesOk : BitVec 4), s.mayTrain port = true → s.portState port = 0 → exec (.portTraining port false lanesOk) s = .next
      (s.setPortState port 1 0)) ∧
    (∀ (port : Nat), port < 8 → s.mayTrain port = true → s.portState port = 0 → ((List.range 4).all (fun l => !s.retired (laneUnit port l)) = true)
      → Completes (.portTraining port true 15) s fun t => t.fld JUG_PORT_STATE port = 2 ∧ t.fld JUG_PORT_LANES port = 15 ∧ t.nv = s.nv ∧ SameMemory
      s t ∧ SameCompute s t ∧ SameSearch s t ∧ SameRings s t ∧ t.depots = s.depots ∧ t.fab = s.fab) ∧
    (∀ (port : Nat), port < 8 → s.mayTrain port = true → s.portState port = 1 → ((List.range 4).all (fun l => !s.retired (laneUnit port l)) = true)
      → Completes (.portTrainingRepeat port true 15) s fun t => t.fld JUG_PORT_STATE port = 2 ∧ t.fld JUG_PORT_LANES port = 15 ∧ t.nv = s.nv ∧
      SameMemory s t ∧ SameCompute s t ∧ SameSearch s t ∧ SameRings s t ∧ t.depots = s.depots ∧ t.fab = s.fab) ∧
    (∀ (port : Nat), s.hasPort port = true → s.portState port = 2 → Completes (.portLinkLoss port) s fun t => t.portState port = 0 ∧ t.nv = s.nv ∧
      t.stm = s.stm ∧ SameMemory s t ∧ SameCompute s t ∧ SameSearch s t ∧ SameRings s t ∧ t.depots = s.depots ∧ t.jobs = s.jobs) ∧
    (∀ (jd : Nat), jd < 4 → Completes (.refclk156Loss jd) s fun t => t.pins.refclk156 = s.pins.refclk156.set jd false ∧ (diePorts jd).all (fun p =>
      !t.hasPort p || t.portState p == 0) = true ∧ t.nv = s.nv ∧ t.stm = s.stm ∧ SameMemory s t ∧ SameCompute s t ∧ SameSearch s t ∧ SameRings s t ∧
      t.depots = s.depots) ∧
    (∀ (jd : Nat), jd < 4 → Completes (.refclk156Return jd) s fun t => t.pins.refclk156 = s.pins.refclk156.set jd true ∧ (diePorts jd).all (fun p =>
      !t.mayTrain p || t.portState p != 0) = true ∧ t.nv = s.nv ∧ t.stm = s.stm ∧ SameBulk s t) ∧
    (∀ (port : Nat), port < 2 → s.pins.pigtail[port]? = some false → s.hasPort (8 + port) = true → phTrain ≤ s.phase → s.phase ≤ phReady →
      s.isAligned (portCrossing (8 + port)) = true → s.pins.refclk156.getD port false = true → ((List.range 4).all (fun l => !s.retired (laneUnit (8
      + port) l)) = true) → Completes (.pigtailFitted port true 15) s fun t => t.fld CMD_CCL_STATE port = 2 ∧ t.pins.pigtail[port]? = some true ∧
      t.nv = s.nv ∧ SameBulk s t) ∧
    (∀ (port : Nat), port < 8 → s.mayTrain port = true → s.portState port = 2 → ((List.range 4).any (fun l => bitOf (s.fld JUG_PORT_LANES port) l &&
      s.retired (laneUnit port l)) = true) → ((List.range 4).any (fun l => !s.retired (laneUnit port l)) = true) → Completes (.laneRetireRetrain
      port 15) s fun t => t.fld JUG_PORT_STATE port = 2 ∧ t.fld JUG_PORT_LANES port = widestLanes (maskOf ((List.range 4).filter fun l => !s.retired
      (laneUnit port l))) ∧ t.nv = s.nv ∧ SameMemory s t ∧ SameCompute s t ∧ SameSearch s t ∧ SameRings s t ∧ t.depots = s.depots)

/-- THERMAL_SAMPLE, I3C_POLL and I3C_HOT_JOIN (R558, R559, R574).
Rests on log entry 131. -/
def Obligations.TemperatureSetsThrottleAndTrip : Prop :=
  ∀ s : State,
    (∀ (diodes : List Int) (d : Nat), d < 2 → s.phase ≠ phPower → ((hotAfter s.stm.hot diodes).find? (fun e => decide (3 ≤ e.2)) = none) → t105 ≤
      hottest (dieDiodes diodes d) → Completes (.thermalSample diodes) s fun t => t.fld PWR_THERM_THROTTLE d = 1 ∧ t.stm.diodes = diodes ∧ t.pins =
      s.pins ∧ t.nv.retired = s.nv.retired ∧ SameBulk s t) ∧
    (∀ (diodes : List Int) (d : Nat), d < 2 → s.phase ≠ phPower → ((hotAfter s.stm.hot diodes).find? (fun e => decide (3 ≤ e.2)) = none) → hottest
      (dieDiodes diodes d) ≤ t102 → Completes (.thermalSample diodes) s fun t => t.fld PWR_THERM_THROTTLE d = 0 ∧ t.stm.diodes = diodes ∧ t.pins =
      s.pins ∧ t.nv.retired = s.nv.retired ∧ SameBulk s t) ∧
    (∀ (diodes : List Int) (e : Nat × Nat), s.phase ≠ phPower → ((hotAfter s.stm.hot diodes).find? (fun e => decide (3 ≤ e.2)) = some e) → Completes
      (.thermalSample diodes) s fun t => t.pins.tripped = true ∧ t.nv.tripDiode = e.1 ∧ t.nv.tripCount = min (s.nv.tripCount + 1) 0xFFFF ∧ t.phase =
      phPower ∧ t.runs = [] ∧ t.nv.retired = s.nv.retired ∧ t.nv.slices = s.nv.slices) ∧
    (∀ (c : Nat) (temp : Int) (raw : BitVec 16), s.phase ≠ phPower → 680 ≤ temp → Completes (.i3cPoll [⟨some c, temp, raw⟩]) s fun t =>
      t.stm.ddrDouble.contains c = true ∧ t = { s with stm := { s.stm with ddrDouble := t.stm.ddrDouble } }) ∧
    (∀ (c : Nat) (temp : Int) (raw : BitVec 16), s.phase ≠ phPower → temp ≤ 656 → Completes (.i3cPoll [⟨some c, temp, raw⟩]) s fun t => t =
      { s with stm := { s.stm with ddrDouble := s.stm.ddrDouble.filter (· != c) } }) ∧
    (∀ (device : Nat), s.phase ≠ phPower → s.stm.i3c.contains device = false → exec (.i3cHotJoin device) s = .next
      { s with stm := { s.stm with i3c := s.stm.i3c ++ [device] } })

/-- GOVERNOR_PASS, RAIL_STEP and SENSE_PUBLISH (R558, R560 to R562). The clauses of GOVERNOR_PASS are about slices without BORROW.
Rests on log entry 34. -/
def Obligations.GovernorPacesAndStepsRails : Prop :=
  ∀ s : State,
    (∀ (draws : List SliceDraw) (input sl w : Nat), s.phase ≠ phPower → s.phase ≠ phFailed → s.stm.takeoverWindow = false → s.govSlices.Nodup → sl ∈
      s.govSlices → s.borrows sl = false → 10 * input ≤ 108 * s.fld PWR_ENVELOPE_ENV → (w = mapGetD (draws.foldl (fun (m : KMap Nat) (d : SliceDraw)
      => mapSet m d.slice d.watts) []) sl 0) → s.budget sl < w → Completes (.governorPass draws input) s fun t => t.pace sl = min 63 (s.pace sl + 4)
      ∧ t.sliceDraw sl = w ∧ SameBulk s t ∧ t.nv.retired = s.nv.retired) ∧
    (∀ (draws : List SliceDraw) (input sl w : Nat), s.phase ≠ phPower → s.phase ≠ phFailed → s.stm.takeoverWindow = false → s.govSlices.Nodup → sl ∈
      s.govSlices → s.borrows sl = false → 10 * input ≤ 108 * s.fld PWR_ENVELOPE_ENV → (w = mapGetD (draws.foldl (fun (m : KMap Nat) (d : SliceDraw)
      => mapSet m d.slice d.watts) []) sl 0) → 100 * w < 95 * s.budget sl → 0 < s.pace sl → Completes (.governorPass draws input) s fun t => t.pace
      sl = s.pace sl - 1 ∧ SameBulk s t ∧ t.nv.retired = s.nv.retired) ∧
    (∀ (input d : Nat), d < 2 → phAlign ≤ s.phase → s.phase ≠ phFailed → s.stm.takeoverWindow = false → s.fld PWR_THERM_THROTTLE d = 1 → Completes
      (.railStep input) s fun t => t.fld PWR_RAIL_MV d = max 550 (s.fld PWR_RAIL_MV d - 20) ∧ t = { s with regs := t.regs }) ∧
    (∀ (dt : Nat) (diodes : List Int) (volts milliamps deciwatts : Nat) (railAmps : List Nat) (rails i3c : List (BitVec 16)), s.phase ≠ phPower →
      Completes (.sensePublish dt diodes volts milliamps deciwatts railAmps rails i3c) s fun t => t.fld PWR_INPUT_VOLTS = volts % 2 ^ 16 ∧ t.fld
      PWR_INPUT_AMPS = milliamps % 2 ^ 16 ∧ t.fld PWR_INPUT_POWER = deciwatts % 2 ^ 16 ∧ (t.reg .stmSense 0 0).toNat % 2 ^ 32 = ((s.reg .stmSense 0
      0).toNat + 2) % 2 ^ 32 ∧ t = { s.tick dt with regs := t.regs })

/-- PTP_SYNC, PPS_IN_EDGE, PTP_LOCK_LOSS and PPS_OUT_EDGE (R575, Table 20-5).
Rests on log entries 35, 36. -/
def Obligations.StationClockIsDisciplined : Prop :=
  ∀ s : State,
    (∀ (dt : Nat) (offset : Int), s.clock.running = true → s.mgmtUp = true → s.fld STM_TIME_SRC = 0 → offset.natAbs ≤ 1000000 → Completes (.ptpSync
      dt offset) s fun t => t.fld STM_TIME_OFFSET = offsetField offset ∧ t.clock.lastSync = s.clock.mono + dt ∧ ((t.clock.station : Int) -
      (s.clock.station + dt : Nat)).natAbs ≤ min offset.natAbs (maxSlew dt) ∧ SameBulk s t) ∧
    (∀ (dt : Nat) (offset : Int), s.clock.running = true → phBoot ≤ s.phase → s.fld STM_TIME_SRC = 1 → offset.natAbs ≤ 1000000 → Completes
      (.ppsInEdge dt offset) s fun t => t.fld STM_TIME_OFFSET = offsetField offset ∧ t.clock.lastSync = s.clock.mono + dt ∧ ((t.clock.station : Int)
      - (s.clock.station + dt : Nat)).natAbs ≤ min offset.natAbs (maxSlew dt) ∧ SameBulk s t) ∧
    (∀ (dt : Nat), s.clock.locked = true → s.clock.lastSync + 8 * 10 ^ 9 ≤ s.clock.mono + dt → Completes (.ptpLockLoss dt) s fun t => t.clock.locked
      = false ∧ t.fld STM_TIME_LOCKED = 0 ∧ t.clock.station = (s.tick dt).clock.station ∧ SameBulk s t) ∧
    (s.clock.running = true → exec .ppsOutEdge s = .next
      { s with clock := { s.clock with ppsHighUntil := s.clock.station / 10 ^ 9 * 10 ^ 9 + 100000 } })

/-- REGISTER_WRITE and SEAL under the access codes of Table 0-4 (R14, R16, R19, R20, R443, R450), for every register without a behaviour of its own
(`plainRegister`); the registers with one have their own statements.
Rests on log entries 9, 10, 123, 129. -/
def Obligations.RegisterWritesFollowTheAccessCodes : Prop :=
  ∀ s : State,
    (∀ (src : Source) (off len : Nat) (data : Word), s.sourceOk src = true → off < 0x4000000 → (len ≠ 8 ∨ off % 8 ≠ 0) → exec (.registerWrite src
      off len data) s = .next (s.badWrite off)) ∧
    (∀ (src : Source) (off i j : Nat) (data : Word) (n : RegName), s.sourceOk src = true → off % 8 = 0 → off < 0x0100000 → inStatus off = false →
      s.missingBlock off = false → findReg off = some (n, i, j) → plainRegister n = true → s.absentReg n i j = false → Completes (.registerWrite src
      off 8 data) s fun t => (∀ f ∈ n.row.fields, bitsOf (t.reg n i j).toNat f.lo f.width = f.written s.sealed (bitsOf (s.reg n i j).toNat f.lo
      f.width) (bitsOf data.toNat f.lo f.width)) ∧ t = { s with regs := t.regs }) ∧
    (∀ (src : Source) (off i j : Nat) (data : Word) (n : RegName), s.sourceOk src = true → off % 8 = 0 → off < 0x0100000 → inStatus off = false →
      s.missingBlock off = false → findReg off = some (n, i, j) → s.absentReg n i j = true → exec (.registerWrite src off 8 data) s = .next s ∧
      s.readNamed n i j = 0) ∧
    (∀ (src : Source) (r : Nat) (data : Word), s.sourceOk src = true → r < 64 → s.ringEn r = true → (bitsOf data.toNat 0 26 ≠ s.fld
      CMD_DATAAREA_OFFSET r ∨ bitsOf data.toNat 32 26 ≠ s.fld CMD_DATAAREA_SIZE r) → exec (.registerWrite src (regOffset .cmdDataarea r 0) 8 data) s
      = .next (s.badWrite (regOffset .cmdDataarea r 0))) ∧
    (s.writable = true → Completes (.seal 1) s fun t => t.sealed = true ∧ t = { s with regs := t.regs })

/-- OPKEY_WRITE, KEY_COMMIT, ISOL_WRITE, TKTHOLD_WRITE, REPAIR_RATE_WRITE, LOGSEL_WRITE, POLICER_WRITE, CBS_WRITE and WEIGHT_WRITE (R88, R115,
R430, R432, R434, R537, R543, R566).
Rests on log entry 123. -/
def Obligations.KeyIsolationAndRateRegistersAct : Prop :=
  ∀ s : State, s.writable = true →
    (∀ (i : Nat) (data : Word), i < 4 → s.sealed = false → s.nv.ock = none → exec (.opkeyWrite i data) s = .next
      { s with stm := { s.stm with opkey := s.stm.opkey.set i (some data) } }) ∧
    (∀ (a b c d : Word), s.sealed = false → s.nv.ock = none → s.stm.opkey = [some a, some b, some c, some d] → Completes (.keyCommit 1) s fun t =>
      t.nv.ock = some (leBytes 8 a.toNat ++ leBytes 8 b.toNat ++ leBytes 8 c.toNat ++ leBytes 8 d.toNat) ∧ t.lastCounter 0 = 0 ∧ t.lastCounter 1 = 0
      ∧ t.lastCounter 2 = 0 ∧ t.nv.retired = s.nv.retired ∧ SameBulk s t) ∧
    (∀ (data : Word), 550 ≤ bitsOf data.toNat 16 10 → bitsOf data.toNat 16 10 ≤ 850 → Completes (.isolWrite data) s fun t => t.fld SEC_ISOL_RAILFIX
      = data.toNat % 2 ∧ t.fld SEC_ISOL_TEMPCOARSE = bitsOf data.toNat 1 1 ∧ t.fld SEC_ISOL_NETTDM = bitsOf data.toNat 2 1 ∧ t.fld SEC_ISOL_JDTDM =
      bitsOf data.toNat 3 1 ∧ t.fld SEC_ISOL_RAILMV = bitsOf data.toNat 16 10 ∧ t = { s with regs := t.regs }) ∧
    (∀ (data : Word) (n : Nat) (x : Index), s.selIndex = some (n, x) → s.rdmin n x ≤ data.toNat % 2 ^ 48 → exec (.tktholdWrite data) s = .next
      (s.setIndex n { x with floor := data.toNat % 2 ^ 48 })) ∧
    (∀ (data : Word) (n : Nat) (x : Index), s.selIndex = some (n, x) → data.toNat % 2 ^ 48 < s.rdmin n x → exec (.tktholdWrite data) s = .next
      (s.badWrite (regOffset .srcTkthold 0 0))) ∧
    (∀ (data : Word) (n : Nat) (x : Index), s.selIndex = some (n, x) → exec (.repairRateWrite data) s = .next (s.setIndex n
      { x with rate := data.toNat % 2 ^ 16 })) ∧
    (∀ (data : Word), Completes (.logselWrite data) s fun t => t.fld STM_LOGSEL_SEQ = data.toNat % 2 ^ 32 ∧ t.fld STM_LOGSEL_GONE = (if data.toNat %
      2 ^ 32 < s.stm.logTail then 1 else 0) ∧ (¬ data.toNat % 2 ^ 32 < s.stm.logTail → (t.reg .stmLogwin 0 0).toNat = leAt (bytesAt (s.logEntryAt
      (data.toNat % 2 ^ 32)) 0 128) 0 8) ∧ t = { s with regs := t.regs }) ∧
    (∀ (port cls : Nat) (data : Word), port < 8 → cls < 16 → s.absentReg .shpJpol port cls = false → bitsOf data.toNat 4 20 ≤ 800000 ∧ 4128 ≤ bitsOf
      data.toNat 24 24 → Completes (.policerWrite false port cls data) s fun t => t.fld SHP_JPOL_EN port cls = data.toNat % 2 ∧ t.fld SHP_JPOL_RATE
      port cls = bitsOf data.toNat 4 20 ∧ t.fld SHP_JPOL_BURST port cls = bitsOf data.toNat 24 24 ∧ mapGet t.policers (16 * port + cls) = some
      (Bucket.mk (8000 * bitsOf data.toNat 24 24) s.clock.mono) ∧ SameMemory s t ∧ SameCompute s t ∧ SameSearch s t ∧ SameRings s t ∧ t.depots =
      s.depots ∧ t.nv = s.nv) ∧
    (∀ (port cls : Nat) (data : Word), port < 2 → bitsOf data.toNat 4 20 ≤ 200000 ∧ 4128 ≤ bitsOf data.toNat 24 24 → Completes (.policerWrite true
      port cls data) s fun t => t.fld SHP_CCLPOL_EN port = data.toNat % 2 ∧ t.fld SHP_CCLPOL_RATE port = bitsOf data.toNat 4 20 ∧ t.fld
      SHP_CCLPOL_BURST port = bitsOf data.toNat 24 24 ∧ mapGet t.policers (128 + port) = some (Bucket.mk (8000 * bitsOf data.toNat 24 24)
      s.clock.mono) ∧ SameMemory s t ∧ SameCompute s t ∧ SameSearch s t ∧ SameRings s t ∧ t.depots = s.depots ∧ t.nv = s.nv) ∧
    (∀ (port cls : Nat) (data : Word), port < 8 → cls < 16 → s.absentReg .shpCbs port cls = false → bitsOf data.toNat 4 20 ≤ 800000 ∧ 4128 ≤ bitsOf
      data.toNat 24 24 → (((s.settle port).port port).sending.elim false (fun e => e.1 == cls) = false) → Completes (.cbsWrite port cls data) s fun
      t => t.fld SHP_CBS_EN port cls = data.toNat % 2 ∧ t.fld SHP_CBS_HICREDIT port cls = bitsOf data.toNat 24 24 ∧ mapGet (t.port port).credit cls
      = some (if bitOf data.toNat 1 then 8000 * (bitsOf data.toNat 24 24 : Int) else 0) ∧ SameMemory s t ∧ SameCompute s t ∧ SameSearch s t ∧
      SameRings s t ∧ t.depots = s.depots ∧ t.nv = s.nv) ∧
    (∀ (port cls : Nat) (data : Word), port < 8 → cls < 16 → s.absentReg .shpWeight port cls = false → 1 ≤ data.toNat % 256 → Completes
      (.weightWrite port cls data) s fun t => t.fld SHP_WEIGHT_WEIGHT port cls = data.toNat % 256 ∧ t = { s with regs := t.regs }) ∧
    (∀ (port cls : Nat) (data : Word), port < 8 → cls < 16 → s.absentReg .shpWeight port cls = true → exec (.weightWrite port cls data) s = .next s
      ∧ exec (.cbsWrite port cls data) s = .next s ∧ exec (.policerWrite false port cls data) s = .next s)

/-- CCL_WRITE and CCL_READ (R446, R447).
Rests on log entry 11. -/
def Obligations.ControlPacketsReadAndWriteTheWindow : Prop :=
  ∀ s : State,
    (∀ (port off len : Nat) (packet : Bytes) (dt : Nat), s.cclUp port = true → leAt packet 0 1 = 1 → off = leAt packet 4 4 → len = leAt packet 8 2 →
      cclWriteOk off len = true → off < 0x0100000 → exec (.cclWrite port packet dt) s = .next ((List.range (len / 8)).foldl (fun (u : State) i =>
      u.writeWord (off + 8 * i) (BitVec.ofNat 64 (leAt packet (16 + 8 * i) 8))) (s.tick dt))) ∧
    (∀ (port off : Nat) (packet : Bytes), s.cclUp port = true → leAt packet 0 1 = 2 → off = leAt packet 4 4 → leAt packet 8 2 = 8 → off % 8 = 0 →
      off < 0x0100000 → exec (.cclRead port packet) s = .next
      { s with cclOut := s.cclOut ++ [(port, leBytes 1 0x82 ++ [0] ++ bytesAt packet 2 2 ++ leBytes 4 off ++ leBytes 2 8 ++ List.replicate 6 0 ++ leBytes 8 (s.readWord off).toNat)] })

/-- RING_ENABLE, RING_DISABLE, RING_SCAN, COMMAND_START, COMMAND_COMPLETE and NOP (R448 to R458).
Rests on log entries 37, 38, 39, 40. -/
def Obligations.RingsConsumeStartAndComplete : Prop :=
  ∀ s : State,
    (∀ (r : Nat) (data : Word), s.writable = true → r < 64 → data.toNat % 2 = 1 → s.ringEn r = false → s.drained r = true → ringcfgLegal data.toNat
      = true → s.areasFit r (bitsOf data.toNat 2 4) = true → Completes (.ringEnable r data) s fun t => t.ringEn r = true ∧ t.fld CMD_RINGCFG_LOG2N r
      = bitsOf data.toNat 2 4 ∧ t.fld CMD_RINGCFG_INFLIGHT r = bitsOf data.toNat 16 9 ∧ (t.ring r).consumed = 0 ∧ (t.ring r).completed = 0 ∧
      SameMemory s t ∧ SameCompute s t ∧ SameSearch s t ∧ SameFabric s t ∧ t.nv = s.nv) ∧
    (∀ (r : Nat) (data : Word), s.writable = true → r < 64 → data.toNat % 2 = 1 → s.ringEn r = false → s.areasFit r (bitsOf data.toNat 2 4) = false
      → exec (.ringEnable r data) s = .next (s.badWrite (regOffset .cmdRingcfg r 0))) ∧
    (∀ (r : Nat) (data : Word), s.writable = true → r < 64 → data.toNat % 2 = 0 → s.ringEn r = true → bitsOf data.toNat 2 4 = s.fld
      CMD_RINGCFG_LOG2N r → bitsOf data.toNat 8 8 = s.fld CMD_RINGCFG_SLICE r → bitsOf data.toNat 16 9 = s.fld CMD_RINGCFG_INFLIGHT r → Completes
      (.ringDisable r data) s fun t => t.ringEn r = false ∧ (t.ring r).consumed = (s.ring r).consumed ∧ (t.ring r).completed = (s.ring r).completed
      ∧ t.cmds = s.cmds ∧ SameMemory s t) ∧
    (∀ (r dt n slot : Nat), s.phase = phReady → r < 64 → n = (s.ring r).consumed + 1 → slot = s.fld CMD_RINGAREA_OFFSET r + 256 * (n % 2 ^ s.fld
      CMD_RINGCFG_LOG2N r) → s.ringEn r = true → s.fenced = false → (s.ring r).stopped = false → leAt (s.ringRead slot 256) 0 4 = n % 2 ^ 32 →
      (s.inFlight r).length < s.fld CMD_RINGCFG_INFLIGHT r → Completes (.ringScan r dt) s fun t => n ≤ (t.ring r).consumed ∧ (t.cmd r n).any (fun (c
      : Cmd) => c.entry == s.ringRead slot 256 && (c.stage == CmdStage.consumed || c.stage == CmdStage.finished)) = true ∧ SameMemory s t ∧
      SameCompute s t ∧ SameSearch s t ∧ t.nv = s.nv) ∧
    (∀ (r dt n slot : Nat), s.phase = phReady → r < 64 → n = (s.ring r).consumed + 1 → slot = s.fld CMD_RINGAREA_OFFSET r + 256 * (n % 2 ^ s.fld
      CMD_RINGCFG_LOG2N r) → leAt (s.ringRead slot 256) 0 4 ≠ n % 2 ^ 32 → Completes (.ringScan r dt) s fun t => (t.ring r).consumed = (s.ring
      r).consumed ∧ t.cmds = s.cmds) ∧
    (∀ (r seq : Nat) (c : Cmd), s.cmd r seq = some c → c.ring ≠ mgmtRing → c.stage = .consumed → opcodeCritical c.opcode = false → s.mayStart c =
      true → s.sliceInService c.slice = true → 64 ≤ c.reslen → exec (.commandStart r seq) s = .next (s.setCmd
      { c with accepted := false, stage := .running, since := s.clock.mono })) ∧
    (∀ (r seq dt : Nat) (c : Cmd), RingCanonical s → s.cmd r seq = some c → c.ring = r → c.seq = seq → r ≠ mgmtRing → c.stage = .finished →
      c.noRecord = false → Completes (.commandComplete r seq dt) s fun t => memRead t.ringMem (s.dataArea r + c.par 16 4) 64 = (s.tick dt).record c
      ∧ (seq = (s.ring r).completed + 1 → seq ≤ (t.ring r).completed) ∧ SameCompute s t ∧ SameSearch s t ∧ t.depots = s.depots ∧ t.allocs =
      s.allocs) ∧
    (∀ (r seq : Nat) (c : Cmd), s.running r seq 0x0001 = some c → c.unusedZero [] = true → exec (.nop r seq) s = .next (s.finish c stOK))

/-- INSERT, DELETE, UPDATE, VECTOR_WRITE_ACK, COMMIT_GROUP_CLOSE, GROUP_PUBLISH and LOG_RECORD_ACK (R92 to R98, R462).
Rests on log entries 68, 69. -/
def Obligations.WritesStageJoinAndPublish : Prop :=
  ∀ s : State,
    (∀ (r seq n k : Nat) (c : Cmd) (x : Index) (y : Index), s.running r seq 0x0011 = some c → c.step = 0 → c.unusedZero [(32, 4)] = true → c.par 32
      2 = n → c.par 34 2 = k → n < 2 ^ 15 → 1 ≤ k → k ≤ 256 → s.openIndex c.slice n = some x → c.paylen = writePaylen 0x0011 k x.vecfmt x.dim →
      (writeArgs 0x0011 k x.vecfmt x.dim (s.payload c)).bad x.vecfmt = false → roundUp (4 * k) 64 ≤ c.room → y = (if x.sealDue then x.seal s.mergeSw
      else x) → (y.buf y.act).slots.length + k ≤ sidingSlots → k ≤ y.freeIds → Completes (.insert r seq) s fun t => (t.index n).any (fun (z : Index)
      => z.counter == x.counter && z.imgver == x.imgver && z.staged.any (fun w => w.ring == r && w.seq == seq && !w.acked && w.olds == (writeArgs
      0x0011 k x.vecfmt x.dim (s.payload c)).olds && w.news.map NewPoint.id == lowestFree x.life 0 k)) = true ∧ t.nv.retired = s.nv.retired ∧ t.fab
      = s.fab ∧ t.rings = s.rings) ∧
    (∀ (r seq n k : Nat) (c : Cmd) (x : Index) (y : Index), s.running r seq 0x0013 = some c → c.step = 0 → c.unusedZero [(32, 4)] = true → c.par 32
      2 = n → c.par 34 2 = k → n < 2 ^ 15 → 1 ≤ k → k ≤ 256 → s.openIndex c.slice n = some x → c.paylen = writePaylen 0x0013 k x.vecfmt x.dim →
      (writeArgs 0x0013 k x.vecfmt x.dim (s.payload c)).bad x.vecfmt = false → roundUp (4 * k) 64 ≤ c.room → y = (if x.sealDue then x.seal s.mergeSw
      else x) → (y.buf y.act).slots.length + k ≤ sidingSlots → k ≤ y.freeIds → Completes (.update r seq) s fun t => (t.index n).any (fun (z : Index)
      => z.counter == x.counter && z.imgver == x.imgver && z.staged.any (fun w => w.ring == r && w.seq == seq && !w.acked && w.olds == (writeArgs
      0x0013 k x.vecfmt x.dim (s.payload c)).olds && w.news.map NewPoint.id == lowestFree x.life 0 k)) = true ∧ t.nv.retired = s.nv.retired ∧ t.fab
      = s.fab ∧ t.rings = s.rings) ∧
    (∀ (r seq n k : Nat) (c : Cmd) (x : Index), s.running r seq 0x0012 = some c → c.step = 0 → c.unusedZero [(32, 4)] = true → c.par 32 2 = n →
      c.par 34 2 = k → n < 2 ^ 15 → 1 ≤ k → k ≤ 256 → s.openIndex c.slice n = some x → c.paylen = roundUp (4 * k) 64 → (writeArgs 0x0012 k x.vecfmt
      x.dim (s.payload c)).bad x.vecfmt = false → Completes (.delete r seq) s fun t => (t.index n).any (fun (z : Index) => z.counter == x.counter &&
      z.life == x.life && (z.staged ++ z.openGroup.elim [] (fun g => g.cmds)).any (fun w => w.ring == r && w.seq == seq && w.olds == (writeArgs
      0x0012 k x.vecfmt x.dim (s.payload c)).olds)) = true ∧ t = { s with indexes := t.indexes, cmds := t.cmds }) ∧
    (∀ (r seq dt n : Nat) (x : Index) (w : StagedWrite), (s.indexes.find? (fun e => e.2.staged.any fun w => w.ring == r && w.seq == seq && !w.acked)
      = some (n, x)) → mapGet s.indexes n = some x → (x.staged.find? (fun w => w.ring == r && w.seq == seq) = some w) → s.flashPending x.slice =
      false → Completes (.vectorWriteAck r seq dt) s fun t => (t.index n).any (fun (z : Index) => z.counter == x.counter && z.life == x.life &&
      (z.staged ++ z.openGroup.elim [] (fun g => g.cmds)).any (fun v => v == { w with acked := true })) = true ∧ t =
      { s.tick dt with indexes := t.indexes }) ∧
    (∀ (index dt : Nat) (u : State) (x : Index) (g : CommitGroup), u = (s.tick dt).joinAll index → u.index index = some x → x.openGroup = some g →
      (1024 ≤ g.cmds.length ∨ g.opened + 100000 ≤ u.clock.mono ∨ (x.staged.any fun w => w.acked && u.ringOrderOk index x w) = false) → exec
      (.commitGroupClose index dt) s = .next ((u.setIndex index { x with openGroup := none, closedGroups := x.closedGroups ++ [g] }).joinAll index)) ∧
    (∀ (index : Nat) (x : Index) (g : CommitGroup) (rest : List CommitGroup), s.index index = some x → x.pub = none → x.closedGroups = g :: rest →
      g.cmds ≠ [] → (g.cmds.all (fun w => w.status == stOK) = true) → x.checkLive [] g.cmds = g.cmds → x.counter + g.cmds.length < noTicket →
      (s.store x.store).hasRoom x.skw ((assignTickets x.counter false g.cmds).map StagedWrite.logCmd) = true → Completes (.groupPublish index) s fun
      t => (t.index index).any (fun (z : Index) => z.counter == x.counter && z.life == x.life && z.closedGroups == rest && (z.pub.elim [] (fun p =>
      p.cmds)).map StagedWrite.ticket == (List.range g.cmds.length).map (x.counter + 1 + ·)) = true ∧ t = { s with indexes := t.indexes }) ∧
    (∀ (index : Nat) (x : Index) (g : CommitGroup) (ws : List StagedWrite) (w : StagedWrite) (c : Cmd), s.index index = some x → x.pub = some g →
      g.cmds = ws ++ [w] → w.status = stOK → s.cmd w.ring w.seq = some c → c.ring = w.ring → c.seq = w.seq → Completes (.logRecordAck index) s fun t
      => (t.index index).any (fun (z : Index) => z.pub.isNone && z.counter == w.ticket && w.news.all (fun p => (mapGet z.life p.id).elim true fun l
      => l.ins == w.ticket) && w.olds.all (fun id => (mapGet z.life id).elim true fun l => l.del == w.ticket)) = true ∧ Ended c stOK t ∧ t.rings =
      s.rings ∧ t.nv = s.nv ∧ t.regs = s.regs)

/-- SIDING_SEAL, MERGE_FORWARD_SEARCH, MERGE_LIST_COMPUTE, LIST_PUBLICATION, BUFFER_FREE, REPAIR_LIST and RECLAIM (R57, R59, R102, R104, R109
to R116).
Rests on log entries 73, 74, 75, 76. -/
def Obligations.MergesRepairAndReclaimKeepTheirRules : Prop :=
  ∀ s : State,
    (∀ (index : Nat) (x : Index), s.index index = some x → x.sealDue = true → x.act ≤ 1 → x.bufs.length = 2 → Completes (.sidingSeal index) s fun t
      => (t.index index).any (fun (z : Index) => z.act == 1 - x.act && (z.buf x.act).st == BufState.sealed && (z.buf x.act).slots == (x.buf
      x.act).slots && (z.buf z.act).st == BufState.active && (z.buf z.act).slots.isEmpty && z.life == x.life && z.counter == x.counter && z.imgver
      == x.imgver) = true ∧ t = { s with indexes := t.indexes }) ∧
    (∀ (index point sk : Nat) (x : Index) (m : Merge), s.index index = some x → x.merge = some m → m.stage = .searching → (x.newPoints m).find? (fun
      p => p.1 == point) = some (point, sk) → mapGet m.found point = none → (x.forwardWalk index m sk (s.badRecords index x)).2 = none →
      (x.forwardWalk index m sk (s.badRecords index x)).1.media = false → Completes (.mergeForwardSearch index point) s fun t => (t.index index).any
      (fun (z : Index) => z.life == x.life && z.recs == x.recs && z.merge == some
      { m with found := mapSet m.found point (x.forwardCands m (point, sk) ((x.forwardWalk index m sk (s.badRecords index x)).1.hits.map Prod.snd)) })
      = true ∧ t = { s with indexes := t.indexes, regs := t.regs }) ∧
    (∀ (index : Nat) (x : Index) (m : Merge), s.index index = some x → x.merge = some m → m.stage = .searching → ((x.newPoints m).all (fun p =>
      (mapGet m.found p.1).isSome) = true) → Completes (.mergeListCompute index) s fun t => (t.index index).any (fun (z : Index) => z.life == x.life
      && z.recs == x.recs && z.imgver == x.imgver && z.merge.any (fun (k : Merge) => k.stage == MergeStage.publishing && k.lists == (x.mergeLists
      m).1)) = true ∧ t = { s with indexes := t.indexes }) ∧
    (∀ (index : Nat) (x : Index), s.index index = some x → x.hasLists = true → ((s.indexPins index).any (fun v => v != x.imgver) = false) →
      Completes (.listPublication index) s fun t => (t.index index).any (fun (z : Index) => z.imgver == nextVer x.imgver && z.prevOk && z.prev ==
      x.imgver && z.life == x.life && z.counter == x.counter) = true ∧ t = { s with indexes := t.indexes, regs := t.regs }) ∧
    (∀ (index : Nat) (x : Index), s.index index = some x → x.hasLists = true → ((s.indexPins index).any (fun v => v != x.imgver) = true) → exec
      (.listPublication index) s = .next (s.setIndex index { x with prevOk := false })) ∧
    (∀ (index : Nat) (x : Index), s.index index = some x → (x.buf x.other).st = .retiring → ((s.activeWalks.any fun w => w.index == index &&
      verLater (x.buf x.other).f w.pin) = false) → exec (.bufferFree index) s = .next (s.setIndex index (x.setBuf x.other Siding.blank))) ∧
    (∀ (index p : Nat) (x : Index), s.index index = some x → x.key = false → x.rate ≠ 0 → x.repair.started = true → x.repair.next = p → p + 1 <
      x.repair.upto → (x.record p).present = true → ((mapGet x.repair.staged p).getD (listEnd (x.record p).slots)).any x.tomb = true → Completes
      (.repairList index) s fun t => (t.index index).any (fun (z : Index) => z.repair.started && z.repair.next == p + 1 && z.recs == x.recs &&
      z.life == x.life && (mapGet z.repair.staged p).any (fun (l : List Nat) => l.all fun id => !x.tomb id)) = true ∧ t =
      { s with indexes := t.indexes }) ∧
    (∀ (index id : Nat) (x : Index), s.index index = some x → x.reclaimable (s.rdmin index x) id = true → Completes (.reclaim index id) s fun t =>
      (t.index index).any (fun (z : Index) => (mapGet z.life id).isNone && (mapGet z.recs id).isNone && (mapGet z.copies id).isNone && z ==
      { x with life := z.life, recs := z.recs, undo := z.undo, copies := z.copies, delAt := z.delAt }) = true ∧ t = { s with indexes := t.indexes })

/-- INDEX_CREATE, INDEX_LOAD, INDEX_SAVE, INDEX_CLOSE and FREE (R55, R64, R122, R346, R596, R598, R599).
Rests on log entries 67, 72, 79. -/
def Obligations.IndexesAreCreatedSavedLoadedAndClosed : Prop :=
  ∀ s : State,
    (∀ (r seq : Nat) (c : Cmd) (n skw degree dim entries capacity : Nat) (p : Nat × Alloc) (needs : List (Nat × Nat)), s.running r seq 0x0017 = some
      c → c.par 32 2 = n → c.par 34 1 = skw → c.par 35 1 = degree → c.par 38 2 = dim → c.par 40 2 = entries → c.par 44 4 = capacity → s.index n =
      none → c.unusedZero [(32, 10), (44, 28)] = true → n < 2 ^ 15 → skw ≤ 3 → c.par 36 1 ≤ 2 → degree % 8 = 0 → 8 ≤ degree → degree ≤ 64 → c.par 37
      1 ≤ 1 → 1 ≤ dim → dim ≤ 4096 → 1 ≤ entries → entries ≤ 1024 → entries ≤ capacity → s.named c.slice (c.par 56 8) = some p → 32 * 2 ^ skw * 8 *
      dim ≤ p.2.size → c.par 64 8 ≠ 0 → s.named c.slice (c.par 64 8) = none → needs = indexNeeds skw degree capacity entries dim (c.par 52 4) (bitOf
      (c.par 37 1) 0) → (((s.roomFor c.slice needs).bind fun u => u.newPersist c.slice (c.par 64 8) (storeSize (c.par 48 4) capacity (c.par 36 1)
      dim) []).isSome = true) → Completes (.indexCreate r seq) s fun t => (t.index n).any (fun (z : Index) => z.slice == c.slice && z.skw == skw &&
      z.degree == degree && z.dim == dim && z.capacity == capacity && z.entries == List.range entries && z.counter == 0 && z.imgver == 1 &&
      z.life.isEmpty && z.recs.isEmpty) = true ∧ Ended c stOK t ∧ t.nv.retired = s.nv.retired ∧ t.nv.slices = s.nv.slices ∧ t.fab = s.fab ∧ t.rings
      = s.rings ∧ t.consists = s.consists) ∧
    (∀ (r seq : Nat) (c : Cmd) (n : Nat) (ia pa sa : Nat × Alloc) (b : Bytes) (p : ImageParts) (u : State) (x y : Index), s.running r seq 0x0014 =
      some c → c.par 32 2 = n → s.index n = none → c.unusedZero [(32, 6), (40, 32)] = true → n < 2 ^ 15 → c.par 34 1 ≤ 1 → c.par 35 1 ≤ 2 → 1 ≤
      c.par 36 2 → c.par 36 2 ≤ 4096 → s.named c.slice (c.par 48 8) = some ia → s.named c.slice (c.par 56 8) = some pa → s.named c.slice (c.par 64
      8) = some sa → ((mapVals s.indexes).any (fun x => (!x.key && x.store == sa.1) || x.saves.any fun v => v.begun && v.alloc == ia.1) = false) →
      s.readStatus ia.1 0 ia.2.size = none → b = memRead ia.2.mem 0 ia.2.size → imageHeaderOk b = true → shake256 (b.drop 64) 32 = bytesAt b 32 32 →
      imageParts b = some p → 256 * 2 ^ p.skw * c.par 36 2 ≤ pa.2.size → (s.store sa.1).dim = c.par 36 2 → (s.store sa.1).vecfmt = c.par 35 1 →
      (s.store sa.1).capacity = p.capacity → (c.par 40 4 = 0 ∨ c.par 40 4 = (s.store sa.1).logsize) → s.roomFor c.slice (indexNeeds p.skw p.degree
      p.capacity p.entries.length (c.par 36 2) (c.par 44 4) (bitOf (c.par 34 1) 0)) = some u → u.formCopies (p.open_ c.slice (c.par 35 1) (c.par 36
      2) (bitOf (c.par 34 1) 0) (c.par 44 4) (u.allocBytes pa.1 0 (256 * 2 ^ p.skw * c.par 36 2)) sa.1) = (x, none) → (u.replayAll n ((u.store
      sa.1).log.filter fun l => decide (x.counter < l.ticket)) x = (y, true)) → Completes (.indexLoad r seq) s fun t => t.index n = some y ∧ Ended c
      stOK t ∧ t.nv.retired = s.nv.retired ∧ t.nv.slices = s.nv.slices ∧ t.fab = s.fab ∧ t.rings = s.rings ∧ t.consists = s.consists) ∧
    (∀ (r seq : Nat) (c : Cmd) (n name : Nat) (x : Index), s.running r seq 0x0015 = some c → c.par 32 2 = n → c.par 40 8 = name → (x.saves.find?
      (fun v => v.ring == r && v.seq == seq) = none) → s.index n = some x → c.unusedZero [(32, 2), (40, 8)] = true → n < 2 ^ 15 → name ≠ 0 →
      s.openIndex c.slice n = some x → s.named c.slice name = none → exec (.indexSave r seq) s = .next (s.setIndex n
      { x with saves := x.saves ++ [Save.mk r seq name false 0 0 0] })) ∧
    (∀ (r seq : Nat) (c : Cmd) (n : Nat) (x : Index) (v : Save), s.running r seq 0x0015 = some c → c.ring = r → c.seq = seq → c.par 32 2 = n →
      s.index n = some x → (x.saves.find? (fun v => v.ring == r && v.seq == seq) = some v) → v.begun = true → s.readStatus v.alloc 0 1 = none →
      s.flashPending c.slice = false → Completes (.indexSave r seq) s fun t => (t.store x.store).log = (s.store x.store).log.filter (fun (l :
      LogCmd) => decide (v.ticket < l.ticket)) ∧ (t.index n).any (fun (z : Index) => z == { x with saves := z.saves } && !z.saves.any fun w =>
      w.ring == r && w.seq == seq) = true ∧ Ended c stOK t ∧ t.nv.retired = s.nv.retired ∧ t.nv.slices = s.nv.slices ∧ t.fab = s.fab ∧ t.rings =
      s.rings ∧ t.consists = s.consists) ∧
    (∀ (r seq : Nat) (c : Cmd) (n : Nat) (x : Index), s.running r seq 0x0016 = some c → c.par 32 2 = n → n < 2 ^ 15 → c.unusedZero [(32, 2)] = true
      → s.index n = some x → x.slice = c.slice → x.key = false → s.indexBusy n x = false → Completes (.indexClose r seq) s fun t => t.indexes =
      mapErase s.indexes n ∧ t.stores = s.stores ∧ t.allocs = s.allocs ∧ Ended c stOK t ∧ t.nv.retired = s.nv.retired ∧ t.nv.slices = s.nv.slices ∧
      t.fab = s.fab ∧ t.rings = s.rings ∧ t.consists = s.consists) ∧
    (∀ (r seq : Nat) (c : Cmd) (id : Nat) (a : Alloc), s.running r seq 0x003A = some c → c.unusedZero [(32, 8)] = true → s.named c.slice (c.par 32
      8) = some (id, a) → a.flags.persist = true → a.users = [] → ((mapVals s.indexes).any (fun x => (!x.key && x.store == id) || x.saves.any fun v
      => v.begun && v.alloc == id) = false) → ((mapVals s.cmds).any (fun d => d.live && d.opcode == 0x0014 && d.slice == c.slice && d.stage ==
      .running && d.par 48 8 == c.par 32 8) = false) → Completes (.free r seq) s fun t => t.allocs = mapErase s.allocs id ∧ t.stores = mapErase
      s.stores id ∧ Ended c stOK t ∧ t.nv.retired = s.nv.retired ∧ t.nv.slices = s.nv.slices ∧ t.fab = s.fab ∧ t.rings = s.rings ∧ t.consists =
      s.consists)

/-- TABLE_OPEN, TABLE_CLOSE, SEQ_OPEN, SEQ_CLOSE, KVAPPEND and ATTEND (R157, R237, R240, R242, R464).
Rests on log entries 79, 85, 88, 90, 92. -/
def Obligations.TablesAndSequencesOpenTakeDataAndClose : Prop :=
  ∀ s : State,
    (∀ (r seq : Nat) (c : Cmd) (n : Nat) (x : Table), s.running r seq 0x0020 = some c → c.par 32 2 = n → (x = c.table (nodeList (s.payload c))
      ((nodeList (s.payload c)).findIdx fun d => d == s.node) (s.reg .memTblcfg 0 0).toNat) → c.unusedZero [(32, 2), (40, 14), (56, 13)] = true →
      x.bad n = false → c.par 68 1 ≤ 1 → s.devsBad (s.payload c) 256 = false → mapGet s.tables n = none → (x.repl = false ∨ x.rows * (x.rowSize +
      x.stateSize) ≤ s.fld MEM_TBLCFG_REPLSMALL * 2 ^ 26) → (((s.chargeHot (.table n) c.slice ((if x.repl then x.rows else x.homeRows x.mine) *
      x.rowSize)).bind fun u => u.chargeHot (.table n) c.slice ((if x.repl then x.rows else x.homeRows x.mine) * x.stateSize)).isSome = true) →
      Completes (.tableOpen r seq) s fun t => mapGet t.tables n = some x ∧ Ended c stOK t ∧ t.fab = s.fab ∧ t.seqs = s.seqs ∧ t.nv.retired =
      s.nv.retired ∧ t.nv.slices = s.nv.slices ∧ t.rings = s.rings ∧ t.indexes = s.indexes) ∧
    (∀ (r seq : Nat) (c : Cmd) (n : Nat) (x : Table), s.running r seq 0x0021 = some c → c.par 32 2 = n → c.unusedZero [(32, 2)] = true → mapGet
      s.tables n = some x → x.slice = c.slice → Completes (.tableClose r seq) s fun t => t.tables = mapErase s.tables n ∧ Ended c stOK t ∧ t.fab =
      s.fab ∧ t.seqs = s.seqs ∧ t.allocs = s.allocs ∧ t.nv.retired = s.nv.retired ∧ t.nv.slices = s.nv.slices ∧ t.rings = s.rings ∧ t.indexes =
      s.indexes) ∧
    (∀ (r seq : Nat) (c : Cmd) (n need : Nat) (p : Nat × Alloc) (q : Seq), s.running r seq 0x0028 = some c → c.par 32 2 = n → c.seqBad = false →
      s.devsBad (s.payload c) 16 = false → (nodeList (s.payload c)).length = c.par 44 1 → mapGet s.seqs n = none → s.named c.slice (c.par 56 8) =
      some p → need = c.par 34 2 * c.par 36 1 * (256 * 2 ^ c.par 41 1) * c.par 38 2 → need ≤ p.2.size → s.readStatus p.1 0 need = none → (q =
      c.seqArgs (nodeList (s.payload c)) ((nodeList (s.payload c)).findIdx fun d => d == s.node) (s.allocBytes p.1 0 need)) → ((q.graph &&
      (List.range (q.layers * q.kvh)).any fun i => (s.index (q.ibase + i)).isSome) = false) → (s.chargeSeq n q).isSome = true → Completes (.seqOpen
      r seq) s fun t => mapGet t.seqs n = some q ∧ Ended c stOK t ∧ t.fab = s.fab ∧ t.tables = s.tables ∧ t.nv.retired = s.nv.retired ∧ t.rings =
      s.rings) ∧
    (∀ (r seq : Nat) (c : Cmd) (n : Nat) (q : Seq), s.running r seq 0x0029 = some c → c.par 32 2 = n → n ≤ 4095 → c.unusedZero [(32, 2)] = true →
      s.seqOf c.slice n = some q → (s.activeWalks.any (fun w => q.graphs.contains w.index) = false) → Completes (.seqClose r seq) s fun t => t.seqs
      = mapErase s.seqs n ∧ Ended c stOK t ∧ t.fab = s.fab ∧ t.tables = s.tables ∧ t.allocs = s.allocs ∧ t.nv.retired = s.nv.retired ∧ t.rings =
      s.rings) ∧
    (∀ (r seq : Nat) (c : Cmd) (n layer pos k : Nat) (q : Seq), s.running r seq 0x002A = some c → c.par 32 2 = n → c.par 34 2 = layer → c.par 36 4 =
      pos → c.par 40 4 = k → c.unusedZero [(32, 12)] = true → n ≤ 4095 → 1 ≤ k → k ≤ 65536 → s.seqOf c.slice n = some q → layer < q.layers →
      c.paylen = 2 * (k * q.kvh * q.dh * 2) → s.appendBefore c = false → pos = q.count layer → pos + k ≤ q.size → ((if q.graph then (List.range
      q.kvh).any (fun h => (s.graphRoom (q.ibase + q.head layer h) ((List.range k).filter fun i => q.isHome (pos + i)).length).isNone) else false) =
      false) → Completes (.kvappend r seq) s fun t => (mapGet t.seqs n).any (fun (z : Seq) => mapGet z.nkeys layer == some (pos + k)) = true ∧
      (t.cmd c.ring c.seq).any (fun (d : Cmd) => d.stage == CmdStage.finished && d.status == stOK && d.count == k) = true ∧ t.fab = s.fab ∧ t.tables
      = s.tables ∧ t.allocs = s.allocs ∧ t.nv = s.nv ∧ t.rings = s.rings) ∧
    (∀ (r seq : Nat) (c : Cmd) (remote rest : List Bytes) (q : Seq) (se : Nat) (u : State) (out : Bytes), s.running r seq 0x002B = some c →
      s.attendStatus c = none → s.seqOf c.slice c.attnArgs.seq = some q → (s.sliceSelectors c.slice).head? = some se → c.attnArgs.scratch q ≤ s.free
      c.slice 2 → s.attendAll c q (q.count c.attnArgs.layer) (s.payload c) (List.range (c.attnArgs.nq * q.kvh * q.group)) remote = .ok (some (u,
      out, rest)) → exec (.attend r seq remote .clean) s = .next ((u.count CMP_ATTNCALLS_COUNT).finish c stOK out))

/-- JOB_BIND, JOB_UNBIND and EXPORT (R403, R404, R465, R536). The message ring that a rebind keeps keeps its messages: an inference of the
model (log entry 102), about which the statement says nothing. -/
def Obligations.JobsBindAndExportTheirPages : Prop :=
  ∀ s : State,
    (∀ (r seq : Nat) (c : Cmd) (job : Nat), s.jobCmd r seq false = some c → c.par 32 2 = job → s.jobStatus c false = none → (s.chargeJob job c.slice
      (bitOf (c.par 35 1) 0) 0).isSome = true → Completes (.jobBind r seq) s fun t => (mapGet t.jobs job).any (fun (j : Job) => j.slice == c.slice
      && j.tc == c.par 34 1 && j.pages == 0 && j.entries.isEmpty && j.msgs.isSome == bitOf (c.par 35 1) 0) = true ∧ Ended c stOK t ∧ t.fab = s.fab ∧
      t.allocs.length = s.allocs.length ∧ t.nv.retired = s.nv.retired ∧ t.nv.slices = s.nv.slices ∧ t.rings = s.rings ∧ t.indexes = s.indexes) ∧
    (∀ (r seq : Nat) (c : Cmd), s.jobCmd r seq true = some c → s.jobStatus c true = none → Completes (.jobUnbind r seq) s fun t => t.jobs = mapErase
      s.jobs (c.par 32 2) ∧ Ended c stOK t ∧ t.fab = s.fab ∧ t.allocs = s.allocs ∧ t.nv.retired = s.nv.retired ∧ t.nv.slices = s.nv.slices ∧ t.rings
      = s.rings ∧ t.indexes = s.indexes) ∧
    (∀ (r seq : Nat) (c : Cmd) (job pages first n : Nat) (j : Job) (recs : List PageRec), s.running r seq 0x0039 = some c → c.par 32 2 = job →
      c.unusedZero [(32, 3), (36, 12)] = true → c.par 34 1 ≤ 1 → mapGet s.jobs job = some j → j.slice = c.slice → first = c.par 40 4 → n = c.par 44
      4 → c.paylen = 24 * n → pages = (if bitOf (c.par 34 1) 0 then c.par 36 4 else j.pages) → pages ≤ 524288 → first + n ≤ pages → recs = pageRecs
      (s.payload c) n → (recs.any (fun p => decide (16 ≤ p.perm) || decide (p.zero ≠ 0)) = false) → recs.any (s.recordBad c.slice) = false →
      (s.chargeJob job c.slice j.msgs.isSome pages).isSome = true → Completes (.exportPages r seq) s fun t => (mapGet t.jobs job).any (fun (z : Job)
      => z.slice == j.slice && z.tc == j.tc && z.msgs == j.msgs && z.pages == pages) = true ∧ (n = 0 → (mapGet t.jobs job).any (fun (z : Job) =>
      z.entries == mapFilter j.entries (fun w _ => decide (w < pages))) = true) ∧ Ended c stOK t ∧ t.fab = s.fab ∧ t.nv.retired = s.nv.retired ∧
      t.nv.slices = s.nv.slices ∧ t.rings = s.rings ∧ t.indexes = s.indexes)

/-- LOAD, RUN, RUN_START and UNLOAD (R259, R266, R267, R463).
Rests on log entry 108. -/
def Obligations.ConsistsLoadRunAndUnload : Prop :=
  ∀ s : State,
    (∀ (r seq : Nat) (c : Cmd) (total off : Nat), s.running r seq 0x0030 = some c → c.ring = r → c.unusedZero [(32, 4), (40, 8), (48, 1)] = true →
      c.par 48 1 = 0 → total = c.par 32 4 → off = c.par 40 8 → (s.ring r).staging = none → off + c.paylen ≤ total → total ≤ s.free c.slice 2 →
      Completes (.load r seq) s fun t => (t.ring r).staging = some (StageBuf.mk total (memWrite [] off (s.payload c)) [(off, off + c.paylen)]) ∧
      Ended c stOK t ∧ t.consists = s.consists ∧ t.allocs = s.allocs ∧ t.nv = s.nv) ∧
    (∀ (r seq : Nat) (c : Cmd) (off : Nat) (b : StageBuf), s.running r seq 0x0030 = some c → c.ring = r → c.unusedZero [(32, 4), (40, 8), (48, 1)] =
      true → c.par 48 1 = 0 → off = c.par 40 8 → (s.ring r).staging = some b → b.total = c.par 32 4 → off + c.paylen ≤ b.total → Completes (.load r
      seq) s fun t => (t.ring r).staging = some { b with mem := memWrite b.mem off (s.payload c), written := b.written ++ [(off, off + c.paylen)] }
      ∧ Ended c stOK t ∧ t.consists = s.consists ∧ t.allocs = s.allocs ∧ t.nv = s.nv) ∧
    (∀ (r seq : Nat) (c : Cmd) (b : StageBuf) (u : State) (h : Nat), s.running r seq 0x0030 = some c → c.ring = r → c.unusedZero [(32, 4), (40, 8),
      (48, 1)] = true → c.par 48 1 = 1 → c.paylen = 0 → (s.ring r).staging = some b → covered b.written b.total = true → (s.dropStaging
      r).loadConsist c.slice (memRead b.mem 0 b.total) = .inr (u, h) → exec (.load r seq) s = .next (u.finish { c with handle := h } stOK)) ∧
    (∀ (r seq : Nat) (c : Cmd) (b : StageBuf), s.running r seq 0x0030 = some c → c.ring = r → c.unusedZero [(32, 4), (40, 8), (48, 1)] = true →
      c.par 48 1 = 1 → c.paylen = 0 → (s.ring r).staging = some b → covered b.written b.total = false → Completes (.load r seq) s fun t => Ended c
      stCONSISTFORMAT t ∧ t.consists = s.consists ∧ t.allocs = s.allocs ∧ t.nv = s.nv) ∧
    (∀ (r seq : Nat) (c : Cmd) (h : Nat) (k : Consist), s.running r seq 0x0031 = some c → (s.runOf r seq) = none → c.unusedZero [(32, 8)] = true → h
      = c.par 32 8 → mapGet s.consists h = some k → k.slice = c.slice → c.paylen = k.parambytes → k.resultbytes + 64 * k.nframes ≤ c.room →
      s.consistBusy h = false → s.tooFew c.slice k = false → Completes (.run r seq) s fun t => (t.run s.nextId).any (fun (x : Run) => x.ring == r &&
      x.seq == seq && x.slice == c.slice && x.handle == h && x.phys.isEmpty) = true ∧ t = { s with runs := t.runs, nextId := s.nextId + 1 }) ∧
    (∀ (r seq : Nat) (c : Cmd) (id : Nat) (x : Run) (k : Consist) (fs : List Nat), s.runOf r seq = some (id, x) → s.cmd r seq = some c →
      s.runConsist x = some k → x.phys = [] → s.waitsBefore x.slice id = false → fs = (s.claimable x.slice).take k.nframes → fs.length = k.nframes →
      s.tooFew x.slice k = false → Completes (.runStart r seq) s fun t => (t.run id).any (fun (y : Run) => y.phys == fs && y.ring == r && y.seq ==
      seq && y.handle == x.handle) = true ∧ fs.all (fun f => (t.frame f).any fun (y : Frame) => y.run == id && y.wait == FrameWait.none) = true ∧
      t.cmds = s.cmds ∧ t.nv = s.nv ∧ t.rings = s.rings ∧ t.consists = s.consists) ∧
    (∀ (r seq : Nat) (c : Cmd) (h : Nat) (k : Consist), s.running r seq 0x0032 = some c → c.unusedZero [(32, 8)] = true → h = c.par 32 8 → mapGet
      s.consists h = some k → k.slice = c.slice → s.consistBusy h = false → Completes (.unload r seq) s fun t => t.consists = mapErase s.consists h
      ∧ Ended c stOK t ∧ t.runs = s.runs ∧ t.rings = s.rings)

/-- SEARCH, RERANK_STAGE1 and RERANK_STAGE2 (R69, R105, R149 to R155, R461).
Rests on log entries 71, 80, 81. -/
def Obligations.SearchCutsAndRanks : Prop :=
  ∀ s : State,
    (∀ (r seq : Nat) (c : Cmd) (x : Index) (a : SearchArgs) (sh se ticket : Nat) (w : Walk) (sw : SweepRes) (sk : Nat), s.running r seq 0x0010 =
      some c → c.ring = r → c.seq = seq → mapGet s.queries (cmdKey r seq) = none → a = c.searchArgs → s.searchStatus c = none → s.index a.index =
      some x → s.walkPlace a.index x (scratchBytes (x.entrySet a.entry).length a.hopmax x.degree) = some sh → (s.sliceSelectors c.slice).head? =
      some se → ticket = a.given.getD x.counter → sk = sketchOf x.proj x.bits x.dim (int8Codes (vecFmt x.vecfmt) (vecOf x.vecfmt x.dim (s.payload
      c))).1 → sw = x.sweep x.imgver ticket a.filter sk → (Walk.start a.index x.imgver ticket a.filter sk a.sw a.swmax a.hopmax a.batch (x.entrySet
      a.entry) a.k a.widening sh (s.badRecords a.index x)) = w → (x.runWalk sw.hits w.fuel w).2 = none → (x.runWalk sw.hits w.fuel w).1.media =
      false → Completes (.search r seq .cut .clean .clean) s fun t => (mapGet t.queries (cmdKey r seq)).any (fun (q : Query) => q.index == a.index
      && q.ticket == ticket && !q.staged1 && q.row == (topk 0 false true a.rerank SumSet.none (s.hitRow a.index ((x.runWalk sw.hits w.fuel w).1.hits
      ++ sw.hits))).kept) = true ∧ t = { s with queries := t.queries, regs := t.regs }) ∧
    (∀ (r seq : Nat) (c : Cmd) (q : Query) (x : Index) (a : SearchArgs) (rr : Selected), s.query r seq = some (c, q, x) → c.ring = r → c.seq = seq →
      a = c.searchArgs → q.staged1 = false → a.rrmode = 0 → (q.row.any (fun e => s.copyBad a.index x (e.id % 2 ^ 32)) = false) → (rr = topk 5
      (a.metric != 1) true a.exact SumSet.none (q.row.map fun e =>
      { e with key := x.keyOne a.metric (copyOf (vecFmt x.vecfmt) q.vec) (e.id % 2 ^ 32) })) → Completes (.rerankStage1 r seq) s fun t => mapGet
      t.queries (cmdKey r seq) = some { q with row := rr.kept, summary := rr.sum.bytes, staged1 := true } ∧ t =
      { s with queries := t.queries, regs := t.regs }) ∧
    (∀ (r seq : Nat) (c : Cmd) (q : Query) (x : Index) (a : SearchArgs), s.query r seq = some (c, q, x) → c.ring = r → c.seq = seq → a =
      c.searchArgs → q.staged1 = false → a.rrmode = 1 → (q.row.any (fun e => s.copyBad a.index x (e.id % 2 ^ 32)) = false) → Completes
      (.rerankStage1 r seq) s fun t => t.queries = mapErase s.queries (cmdKey r seq) ∧ (t.cmd r seq).any (fun (d : Cmd) => d.stage ==
      CmdStage.finished && d.ticket == q.ticket) = true ∧ t = { s with queries := t.queries, regs := t.regs, cmds := t.cmds }) ∧
    (∀ (r seq : Nat) (c : Cmd) (q : Query) (x : Index) (a : SearchArgs) (rows : List (SelEntry × Bool)) (rr : Selected), s.query r seq = some (c, q,
      x) → c.ring = r → c.seq = seq → a = c.searchArgs → (q.staged1 = true ∨ a.rrmode = 2) → s.stageTwoRow a q x q.row = .ok rows → rr = topk 5
      (a.metric != 1) true a.k SumSet.none (rows.map Prod.fst) → (rr.kept.any (fun e => e.pos == approxPos) = false) → Completes (.rerankStage2 r
      seq) s fun t => t.queries = mapErase s.queries (cmdKey r seq) ∧ Ended c (if a.k ≤ rr.sum.valid then stOK else if 0 < q.filtrej then
      stFILTERSHORT else stSHORT) t ∧ (t.cmd r seq).any (fun (d : Cmd) => d.ticket == q.ticket && d.count == rr.sum.valid) = true ∧ t =
      { s with queries := t.queries, regs := t.regs, cmds := t.cmds })

/-- FW_STAGE, FW_ACTIVATE in its three modes, the four steps of an activation, and TRIAL_TIMEOUT (R557, R568 to R570, Table 19-4). That a trial
begins with HANDOVER is the model's choice (log entry 43).
Rests on log entry 44. -/
def Obligations.FirmwareIsStagedActivatedAndCommitted : Prop :=
  ∀ s : State,
    (∀ (r seq : Nat) (c : Cmd) (total : Nat), s.running r seq 0x0100 = some c → c.unusedZero [(32, 4), (40, 9)] = true → s.nv.trial = none →
      s.stm.act.stage = .idle → c.par 48 1 = 0 → c.par 40 8 = 0 → total = c.par 32 4 → (s.payload c).length ≤ total → total ≤ 2 ^ 27 → Completes
      (.fwStage r seq) s fun t => t.stm.stage = some (StageBuf.mk total (memWrite [] 0 (s.payload c)) [(0, (s.payload c).length)]) ∧ t.stm.verified
      = none ∧ t.nv.rollback = s.nv.rollback ∧ t.nv.activeSlot = s.nv.activeSlot ∧ Ended c stOK t ∧ t.nv.retired = s.nv.retired ∧ t.indexes =
      s.indexes ∧ t.consists = s.consists ∧ t.runs = s.runs ∧ t.allocs = s.allocs ∧ t.depots = s.depots) ∧
    (∀ (r seq : Nat) (c : Cmd) (b : StageBuf) (x : FwSlot), s.running r seq 0x0100 = some c → c.unusedZero [(32, 4), (40, 9)] = true → s.nv.trial =
      none → s.stm.act.stage = .idle → c.par 48 1 = 1 → s.payload c = [] → s.stm.stage = some b → x = FwSlot.ofImage (memRead b.mem 0 b.total) →
      b.complete = true → x.present = true → bitOf x.variants s.nv.record.variant = true → x.floor ≤ x.version → s.nv.rollback ≤ x.version →
      Completes (.fwStage r seq) s fun t => Ended c (if x.measOk && x.sigOk then stOK else stMISMATCH) t ∧ t.stm.verified = (if x.measOk && x.sigOk
      then some x else s.stm.verified) ∧ t.nv.rollback = s.nv.rollback ∧ t.nv.activeSlot = s.nv.activeSlot ∧ t.nv.retired = s.nv.retired ∧ t.indexes
      = s.indexes ∧ t.consists = s.consists ∧ t.runs = s.runs ∧ t.allocs = s.allocs ∧ t.depots = s.depots) ∧
    (∀ (r seq : Nat) (c : Cmd), s.activateCmd r seq 0 = some c → s.activateStatus c 0 = none → exec (.fwActivateTrial r seq) s = .next
      (s.beginActivation (some (r, seq)) 0 s.idleSlot)) ∧
    (∀ (r seq : Nat) (c : Cmd), s.activateCmd r seq 1 = some c → s.activateStatus c 1 = none → s.nv.trial = none → exec (.fwActivateCommit r seq) s
      = .next (s.beginActivation (some (r, seq)) 1 s.idleSlot)) ∧
    (∀ (r seq : Nat) (c : Cmd) (x : Trial), s.activateCmd r seq 1 = some c → s.activateStatus c 1 = none → s.nv.trial = some x → Completes
      (.fwActivateCommit r seq) s fun t => t.nv.rollback = max s.nv.rollback s.runningImage.floor ∧ t.nv.trial = none ∧ t.nv.activeSlot =
      s.nv.activeSlot ∧ Ended c stOK t ∧ t.nv.retired = s.nv.retired ∧ t.indexes = s.indexes ∧ t.consists = s.consists ∧ t.runs = s.runs ∧ t.allocs
      = s.allocs ∧ t.depots = s.depots) ∧
    (∀ (r seq : Nat) (c : Cmd) (x : Trial), s.activateCmd r seq 2 = some c → s.activateStatus c 2 = none → s.nv.trial = some x → exec
      (.fwActivateRevert r seq) s = .next (s.beginActivation (some (r, seq)) 2 x.prevSlot)) ∧
    (s.stm.act.stage = .standbyRestart → s.isUp s.standbyDie = true → s.nv.accepts s.stm.act.slot = true → Completes (.activationStandbyRestart
      true) s fun t => t.stm.act = { s.stm.act with stage := .handover } ∧ t.fld STM_STATE_STANDBY = 2 ∧ t.stm.mirror = some s.mirrorOf ∧ t =
      { s with stm := t.stm, regs := t.regs }) ∧
    (∀ (r seq : Nat) (c : Cmd), s.stm.act.stage = .standbyRestart → s.isUp s.standbyDie = true → s.stm.act.cmd = some (r, seq) → s.cmd r seq = some
      c → Completes (.activationStandbyRestart false) s fun t => t.stm.act.stage = ActStage.idle ∧ Ended c stMISMATCH t ∧ t.nv = s.nv ∧ t.fld
      STM_STATE_STANDBY = 2) ∧
    (∀ (m : Nat), s.stm.act.stage = .handover → m = s.stm.act.mode → Completes .activationHandover s fun t => t.nv.activeSlot = s.stm.act.slot ∧
      t.fld STM_STATE_ACTIVE = s.standbyDie % 2 ∧ t.fld STM_STATE_STANDBY = 0 ∧ t.stm.act = { s.stm.act with stage := .activeRestart } ∧ t.nv.trial
      = (if m = 0 then some (Trial.mk 0 (1 - s.stm.act.slot)) else if m = 2 then none else s.nv.trial) ∧ t.nv.rollback = s.nv.rollback ∧
      t.nv.retired = s.nv.retired ∧ t.indexes = s.indexes ∧ t.consists = s.consists ∧ t.runs = s.runs ∧ t.allocs = s.allocs ∧ t.depots = s.depots) ∧
    (s.stm.act.stage = .activeRestart → Completes (.activationActiveRestart true) s fun t => t.stm.act = { s.stm.act with stage := .handback } ∧
      t.fld STM_STATE_STANDBY = 2 ∧ t = { s with stm := t.stm, regs := t.regs }) ∧
    (∀ (r seq : Nat) (c : Cmd) (m : Nat), s.stm.act.stage = .handback → m = s.stm.act.mode → s.stm.act.cmd = some (r, seq) → s.cmd r seq = some c →
      Completes .activationHandback s fun t => t.stm.act.stage = ActStage.idle ∧ t.fld STM_STATE_ACTIVE = s.standbyDie % 2 ∧ t.fld STM_STATE_STANDBY
      = 2 ∧ t.nv.rollback = (if m = 1 then max s.nv.rollback s.runningImage.floor else s.nv.rollback) ∧ t.stm.verified = none ∧ Ended c stOK t ∧
      t.nv.retired = s.nv.retired ∧ t.indexes = s.indexes ∧ t.consists = s.consists ∧ t.runs = s.runs ∧ t.allocs = s.allocs ∧ t.depots = s.depots) ∧
    (∀ (dtSec : Nat) (x : Trial), s.nv.trial = some x → s.phase ≠ phPower → s.stm.act.stage = .idle → s.fld STM_TRIAL_TRIALSEC ≤ s.stm.trialPassed +
      dtSec → exec (.trialTimeout dtSec) s = .next ({ s with stm := { s.stm with trialPassed := s.stm.trialPassed + dtSec } }.beginActivation none 2
      x.prevSlot))

/-- TENANT_CREATE with and without AMEND, TENANT_DESTROY, DESTROY_RESUME and UNIT_CLEAR (R526 to R533, R538, R539).
Rests on log entries 51, 52. -/
def Obligations.SlicesAreCreatedAmendedAndDestroyed : Prop :=
  ∀ s : State,
    (∀ (r seq : Nat) (c : Cmd) (failedClears : List Nat) (sl : Nat) (b : Bytes) (e : SliceEntry) (u : State), s.running r seq 0x0102 = some c →
      bitOf (c.par 33 1) 2 = false → c.step = 0 → sl = c.par 32 1 → b = s.payload c → s.tenantStatus c false b = none → e = s.tenantEntry c false b
      → u = { (s.fixPages 0).setCmd { c with step := 1, since := s.clock.mono } with stm := { s.stm with changing := mapSet s.stm.changing sl e } }
      → u.unitsBusy e.comp Composition.none = false → (u.drainUnits (compMinus e.comp Composition.none)).2 = true → (compMinus e.comp
      Composition.none).any failedClears.contains = false → Completes (.tenantCreate r seq failedClears) s fun t => t.nv.slices = mapSet s.nv.slices
      sl e ∧ t.stm.changing = mapErase u.stm.changing sl ∧ Ended c stOK t ∧ mapGetD t.nv.gens sl 0 = (mapGetD s.nv.gens sl 0 + 1) % 2 ^ 16) ∧
    (∀ (r seq : Nat) (c : Cmd) (failedClears : List Nat) (sl : Nat) (b : Bytes) (o e : SliceEntry) (u : State), s.running r seq 0x0102 = some c →
      bitOf (c.par 33 1) 2 = true → c.step = 0 → sl = c.par 32 1 → b = s.payload c → mapGet s.nv.slices sl = some o → s.tenantStatus c true b = none
      → e = s.tenantEntry c true b → u =
      { ((s.fixPages 0).fixPages sl).setCmd { c with step := 1, since := s.clock.mono } with stm := { s.stm with changing := mapSet s.stm.changing sl e } }
      → u.unitsBusy e.comp o.comp = false → (u.drainUnits (compMinus e.comp o.comp)).2 = true → ((u.drainUnits (compMinus e.comp
      o.comp)).1.drainRemoved sl e (compMinus o.comp e.comp)).2 = true → (compMinus e.comp o.comp).any failedClears.contains = false → Completes
      (.tenantAmend r seq failedClears) s fun t => t.nv.slices = mapSet s.nv.slices sl e ∧ t.stm.changing = mapErase u.stm.changing sl ∧ Ended c
      stOK t) ∧
    (∀ (r seq : Nat) (c : Cmd) (failedClears : List Nat) (sl : Nat), s.running r seq 0x0103 = some c → c.ring = r → c.seq = seq → c.step = 0 → sl =
      c.par 32 1 → sl ≠ 0 → sl ≤ 63 → c.unusedZero [(32, 1)] = true → c.paylen = 0 → s.sliceInService sl = true → mapGet s.stm.changing sl = none →
      s.criticalGoes sl (cmdKey r seq) = false → Completes (.tenantDestroy r seq failedClears) s fun t => t.nv.slices = mapErase s.nv.slices sl ∧
      Ended c stOK t) ∧
    (∀ (slice : Nat) (failedClears : List Nat) (e : SliceEntry), s.phase = phReady → mapGet s.nv.slices slice = some e → e.st = .destroying →
      ((s.cmds.any fun e => e.2.opcode == 0x0103 && e.2.stage == .running && e.2.par 32 1 == slice) = false) → Completes (.destroyResume slice
      failedClears) s fun t => t.nv.slices = mapErase s.nv.slices slice) ∧
    (∀ (unit fromSlice toSlice cause dt : Nat), s.phase = phReady → s.clearable unit = true → s.unitClearing unit = false → Completes (.unitClear
      unit fromSlice toSlice cause .underWay dt) s fun t => t.unitClearing unit = true ∧ t.nv.retired = s.nv.retired ∧ SameBulk s t) ∧
    (∀ (unit fromSlice toSlice cause dt : Nat), s.phase = phReady → s.clearable unit = true → Completes (.unitClear unit fromSlice toSlice cause
      .cleared dt) s fun t => t.stm.clearing = mapErase s.stm.clearing unit ∧ t.fld SEC_CLEAR_DONE = (s.fld SEC_CLEAR_DONE + 1) % 2 ^ 32 ∧
      t.nv.retired = s.nv.retired ∧ t.consists = s.consists ∧ t.runs = s.runs ∧ t.depots = s.depots ∧ t.rings = s.rings) ∧
    (∀ (unit fromSlice toSlice cause dt : Nat), s.phase = phReady → s.clearable unit = true → Completes (.unitClear unit fromSlice toSlice cause
      .failed dt) s fun t => t.stm.clearing = mapErase s.stm.clearing unit ∧ t.retired unit = true)

/-- KEY_ROTATE, SLICE_KEY, NS_ERASE, FENCE, SCRUB, EPOCH_SET, TT_COMMIT and DEBUG_CTL (R414 to R418, R437, R438, R466, R544, R553).
Rests on log entries 53, 54, 94. -/
def Obligations.CriticalOperatorsActOnKeysLanesAndEpochs : Prop :=
  ∀ s : State,
    (∀ (r seq : Nat) (c : Cmd), s.keyCmd r seq 0 = some c → c.par 32 1 = 0 → c.unusedZero [(32, 1)] = true → c.paylen = 32 → exec (.keyRotate r seq)
      s = .next (s.finish { c with rekey := some (xorBytes (s.payload c) (kmac256 (s.nv.ock.getD []) (leBytes 8 c.counter) 32 "PN-880 rekey")) }
      stOK)) ∧
    (∀ (r seq : Nat) (c : Cmd) (sl : Nat) (e : SliceEntry), s.keyCmd r seq 1 = some c → c.par 32 1 = 1 → sl = c.par 33 1 → c.unusedZero [(32, 2)] =
      true → sl ≠ 0 → sl ≤ 63 → mapGet s.nv.slices sl = some e → e.st = .inService → (c.paylen = 0 ∨ falconKeyOk (s.payload c) = true) → Completes
      (.sliceKey r seq) s fun t => mapGet t.nv.slices sl = some { e with policyKey := if c.paylen = 0 then none else some (s.payload c) } ∧ Ended c
      stOK t ∧ t.nv = { s.nv with slices := t.nv.slices } ∧ t.nv.retired = s.nv.retired ∧ t.indexes = s.indexes ∧ t.consists = s.consists ∧ t.runs =
      s.runs ∧ t.allocs = s.allocs ∧ t.depots = s.depots) ∧
    (∀ (r seq : Nat) (c : Cmd) (sl j n : Nat) (x : Namespace), s.keyCmd r seq 2 = some c → c.par 32 1 = 2 → sl = c.par 33 1 → j = c.par 34 1 → j <
      s.depots.length → c.unusedZero [(32, 3)] = true → c.paylen = 0 → s.sliceNs sl j = some n → mapGet (s.depot j).namespaces n = some x →
      s.sliceOpen sl = false → Completes (.nsErase r seq) s fun t => (mapGet (t.depot j).namespaces n).any (fun (y : Namespace) => y.size == x.size
      && y.dies == x.dies && y.slice == sl) = true ∧ Ended c stOK t ∧ t.nv.slices = s.nv.slices ∧ t.indexes = s.indexes) ∧
    (∀ (r seq : Nat) (c : Cmd), s.running r seq 0x0105 = some c → c.unusedZero [(32, 8)] = true → c.par 36 4 = s.node → s.fenced = false → Completes
      (.fence r seq) s fun t => t.fenced = true ∧ t.owns = [] ∧ Ended c stFENCED t ∧ t.fab = { s.fab with quiesced := 0 } ∧ t.nv.retired =
      s.nv.retired ∧ t.indexes = s.indexes ∧ t.consists = s.consists ∧ t.runs = s.runs ∧ t.allocs = s.allocs ∧ t.depots = s.depots) ∧
    (∀ (r seq : Nat) (c : Cmd) (j l : Nat), s.scrubCmd r seq 0 = some c → c.par 32 1 = 0 → c.unusedZero [(32, 3)] = true → j = c.par 33 1 → l =
      c.par 34 1 → j < s.jdCount → l ≤ 1 → s.depots.length = 4 → (s.depot j).lanes.length = 2 → ((s.depot j).lane l).st = .suspect → Completes
      (.scrubClearSuspect r seq) s fun t => (((t.depot j).lane l).st = LaneState.ready ∨ ((t.depot j).lane l).st = LaneState.degraded) ∧ Ended c
      stOK t ∧ t.nv = s.nv ∧ t.allocs = s.allocs ∧ t.regs = s.regs) ∧
    (∀ (r seq : Nat) (c : Cmd), s.scrubCmd r seq 1 = some c → c.par 32 1 = 1 → c.unusedZero [(32, 1)] = true → exec (.scrubPatrol r seq) s = .next
      ({ s with stm := { s.stm with patrol := true } }.finish c stOK)) ∧
    (∀ (r seq : Nat) (c : Cmd) (body : Bytes) (e : Nat) (p : List Nat × List (Nat × Bool × Nat × List Nat)) (trees : KMap (List Nat)), s.running r
      seq 0x0107 = some c → body = s.payload c → c.unusedZero [] = true → epochPart body = some p → leAt body 6 2 = 1 → e = leAt body 0 4 → s.epoch
      < e → treesAfter s.fab.trees p.2 = some trees → p.1.length ≤ 256 → Completes (.epochSet r seq) s fun t => t.epoch = e ∧ t.fab.trees = trees ∧
      Ended c (if p.1.contains s.node then stOK else stFENCED) t ∧ (p.1.contains s.node = false → t.fenced = true) ∧ t.nv.slices = s.nv.slices ∧
      t.rings = s.rings) ∧
    (∀ (r seq : Nat) (c : Cmd) (dt l n base : Nat) (u : State), s.running r seq 0x0108 = some c → u = s.tick dt → l = c.par 32 1 → n = c.par 34 2 →
      base = c.par 40 8 → c.unusedZero [(32, 1), (34, 2), (40, 8)] = true → u.ttCheck l n base = none → exec (.ttCommit r seq dt) s = .next
      ((u.ttAccept l n base).finish c stOK)) ∧
    (∀ (r seq : Nat) (c : Cmd), s.running r seq 0x0109 = some c → c.par 32 1 ≤ 1 → c.par 33 1 ≤ 1 → c.par 34 1 ≤ 1 → c.unusedZero [(32, 3)] = true →
      c.paylen = 8 → Completes (.debugCtl r seq) s fun t => t.fld SEC_DEBUG_JTAGFULL = c.par 32 1 ∧ t.fld SEC_DEBUG_TRACE = c.par 33 1 ∧ t.fld
      SEC_DEBUG_PROFILE = c.par 34 1 ∧ t.fld SEC_TRACEMASK_SLICES = leAt (s.payload c) 0 8 ∧ Ended c stOK t ∧ t.nv.retired = s.nv.retired ∧
      t.indexes = s.indexes ∧ t.consists = s.consists ∧ t.runs = s.runs ∧ t.allocs = s.allocs ∧ t.depots = s.depots)

/-- TIMETABLE_SWITCH, TIMETABLE_ENTRY_BEGIN, EGRESS_ENQUEUE and EGRESS_BEGIN (R431, R432, R436 to R440). The queues and the credits of the
link are those of the model's port state.
Rests on log entries 119, 130. -/
def Obligations.TimetablesAndQueuesServeTheirPorts : Prop :=
  ∀ s : State,
    (∀ (list dt w : Nat) (o : TimeList) (u : State), u = (s.tick dt).settleAll → (u.timetable list).pend = some (o, w) → w ≤ u.clock.station →
      Completes (.timetableSwitch list dt) s fun t => t.timetable list = Timetable.mk (some o) (o.entry u.clock.station) (o.gates (o.entry
      u.clock.station)) none none ∧ (List.range 9).all (fun l => l == list || t.timetable l == u.timetable l) = true ∧ t =
      { u with timetables := t.timetables }) ∧
    (∀ (list dt : Nat) (o : TimeList) (u : State), u = (s.tick dt).settleAll → (u.timetable list).oper = some o → ((u.timetable list).hold.elim true
      (fun h => decide (h ≤ u.clock.station)) = true) → Completes (.timetableEntryBegin list dt) s fun t => t.timetable list = Timetable.mk (some o)
      (o.entry u.clock.station) (o.gates (o.entry u.clock.station)) (u.timetable list).pend none ∧ (List.range 9).all (fun l => l == list ||
      t.timetable l == u.timetable l) = true ∧ t = { u with timetables := t.timetables }) ∧
    (∀ (port cls : Nat) (packet : Bytes) (dt st : Nat) (u : State), s.portUp port = true → u = (s.tick dt).settle port → pktTc packet = cls → cls <
      16 → pktOk packet = true → (isRequest packet = false ∨ (u.readyReq packet).any (fun e => e.2.frame.isSome && u.req e.1 == some e.2) = true ∧
      u.classClosed cls = false) → (st = ((s.port port).queue cls).getLast?.elim (s.port port).vtime fun q => q.finish) → Completes (.egressEnqueue
      port cls packet dt) s fun t => (t.port port).queue cls = (s.port port).queue cls ++ [QPacket.mk packet st ((st + packet.length * 65536 / max
      (u.fld SHP_WEIGHT_WEIGHT port cls) 1) % 2 ^ 64)] ∧ (List.range 16).all (fun c => c == cls || (t.port port).queue c == (s.port port).queue c) =
      true ∧ t.fab = { s.fab with out := s.fab.out.erase packet } ∧ SameMemory s t ∧ SameCompute s t ∧ SameSearch s t ∧ SameRings s t ∧ t.depots =
      s.depots ∧ t.nv = s.nv) ∧
    (∀ (port dt c : Nat) (q : QPacket) (l : List QPacket) (u : State), s.portUp port = true → u = (s.tick dt).settle port → u.nextClass port = some
      c → (u.port port).queue c = q :: l → Completes (.egressBegin port dt) s fun t => (c ≠ 0 → (t.port port).sending = some (c, u.clock.mono +
      ceilDiv (flitCount q.bytes.length * 2048) (max (u.portRate port) 1)) ∧ mapGetD (t.port port).linkCredit c 0 = mapGetD (u.port port).linkCredit
      c 0 - ceilDiv q.bytes.length 16) ∧ (l ≠ [] → (t.port port).queue c = l) ∧ (u.readyReq q.bytes).elim true (fun e => (t.req e.1).any fun (r :
      Req) => decide (r.stage = ReqStage.sent) && r.sentAt == u.clock.mono) = true ∧ SameMemory s t ∧ SameCompute s t ∧ SameSearch s t ∧ SameRings s
      t ∧ t.depots = s.depots ∧ t.nv = s.nv)

/-- FLIT_RECEIVE and NAK (R395, R396).
Rests on log entry 96. -/
def Obligations.FlitsAreCheckedAndReplayed : Prop :=
  ∀ s : State,
    (∀ (port : Nat) (flit : Bytes) (x : Port), s.portUp port = true → x = s.port port → flit.length = 256 → leAt flit 252 4 = (crc32c (bytesAt flit
      0 252)).toNat → leAt flit 0 1 = 1 → leAt flit 1 2 % 4096 = (x.rxSeq + 1) % 4096 → Completes (.flitReceive port flit) s fun t => t.port port =
      { x with acked := leAt flit 3 2 % 4096, rxSeq := (x.rxSeq + 1) % 4096, rxSlots := x.rxSlots ++ chunks 16 15 (bytesAt flit 8 240), linkCredit := (t.port port).linkCredit }
      ∧ (0 < leAt flit 6 2 → mapGetD (t.port port).linkCredit (leAt flit 5 1 % 16) 0 = mapGetD x.linkCredit (leAt flit 5 1 % 16) 0 + leAt flit 6 2)
      ∧ t = { s with ports := t.ports }) ∧
    (∀ (port : Nat) (flit : Bytes), s.portUp port = true → flit.length = 256 → leAt flit 252 4 ≠ (crc32c (bytesAt flit 0 252)).toNat → Completes
      (.flitReceive port flit) s fun t => (t.port port).rxSeq = (s.port port).rxSeq ∧ (t.port port).rxSlots = (s.port port).rxSlots ∧ t.fld
      JUG_LINKRETX_CRCERR port = countUp JUG_LINKRETX_CRCERR (s.fld JUG_LINKRETX_CRCERR port) 1 ∧ t.fab.flits.length = s.fab.flits.length + 1 ∧
      t.fab.flits.take s.fab.flits.length = s.fab.flits ∧ t.fab.flits.drop s.fab.flits.length ≠ [] ∧ SameMemory s t ∧ SameCompute s t ∧ SameSearch s
      t ∧ SameRings s t ∧ t.depots = s.depots ∧ t.nv = s.nv) ∧
    (∀ (port seq : Nat), s.portUp port = true → seq < 4096 → Completes (.nak port seq) s fun t => t.fab =
      { s.fab with flits := s.fab.flits ++ ((s.port port).replay.filter fun f => State.replayAfter.seqAfter (leAt f 1 2 % 4096) seq).map fun f => (port, f) }
      ∧ t.fld JUG_LINKRETX_REPLAYS port = countUp JUG_LINKRETX_REPLAYS (s.fld JUG_LINKRETX_REPLAYS port) 1 ∧ t.ports = s.ports ∧ SameMemory s t ∧
      SameCompute s t ∧ SameSearch s t ∧ SameRings s t ∧ t.depots = s.depots ∧ t.nv = s.nv)

/-- INBOUND_READ, INBOUND_WRITE, INBOUND_ATOMIC, INBOUND_MSG and LATER_EPOCH_HOLD_EXPIRY (R405 to R415). The length of a message ring is the
model's (log entry 98).
Rests on log entry 94. -/
def Obligations.InboundRequestsAreCheckedServedAndAnswered : Prop :=
  ∀ s : State,
    (∀ (port : Nat) (packet : Bytes) (dt : Nat) (p : Pkt) (id off : Nat), port < s.jugPorts → pktOp packet = opREAD → pktOk packet = true →
      (((s.tick dt).takeSlots port packet).policed port (pktTc packet) (32 + leAt packet 26 2)).1 = true → s.fenced = false → p = Pkt.ofBytes packet
      → p.epoch = s.epoch → 0 < s.epoch → p.job ≠ 0 → p.job ≠ 0xFFFF → s.inboundPlace p = some (id, off) → s.readStatus id off p.len = none →
      Completes (.inboundRead port packet dt) s fun t => t.fab.out = s.fab.out ++ [(s.replyTo p stOK (s.allocBytes id off p.len)).bytes] ∧
      t.allocBytes id off p.len = s.allocBytes id off p.len ∧ t.poison = s.poison ∧ t.jobs = s.jobs ∧ t.fab.replay = s.fab.replay ∧ t.depots =
      s.depots ∧ t.regs = s.regs ∧ SameCompute s t ∧ SameSearch s t ∧ SameRings s t ∧ t.nv = s.nv) ∧
    (∀ (port : Nat) (packet : Bytes) (dt : Nat) (p : Pkt), port < s.jugPorts → pktOp packet = opREAD → pktOk packet = true → (((s.tick dt).takeSlots
      port packet).policed port (pktTc packet) (32 + leAt packet 26 2)).1 = true → s.fenced = false → p = Pkt.ofBytes packet → p.epoch = s.epoch → 0
      < s.epoch → (p.job = 0 ∨ p.job = 0xFFFF ∨ s.inboundPlace p = none) → Completes (.inboundRead port packet dt) s fun t => t.fab.out = s.fab.out
      ++ [(s.replyTo p stNOACCESS []).bytes] ∧ t.fld JUG_NOACCESS_COUNT = countUp JUG_NOACCESS_COUNT (s.fld JUG_NOACCESS_COUNT) 1 ∧ t.jobs = s.jobs
      ∧ SameMemory s t ∧ SameCompute s t ∧ SameSearch s t ∧ SameRings s t ∧ t.depots = s.depots ∧ t.nv = s.nv) ∧
    (∀ (port : Nat) (packet : Bytes) (dt : Nat) (p : Pkt) (id off : Nat) (a : Alloc), port < s.jugPorts → pktOp packet = opWRITE → pktOk packet =
      true → (((s.tick dt).takeSlots port packet).policed port (pktTc packet) (32 + leAt packet 26 2)).1 = true → s.fenced = false → p = Pkt.ofBytes
      packet → p.epoch = s.epoch → 0 < s.epoch → p.job ≠ 0 → p.job ≠ 0xFFFF → s.inboundPlace p = some (id, off) → s.partPoison id off p.len = false
      → s.alloc id = some a → a.flags.persist = false → Completes (.inboundWrite port packet dt) s fun t => t.fab.out = s.fab.out ++ [(s.replyTo p
      stOK []).bytes] ∧ (t.alloc id).any (fun (z : Alloc) => z.mem == memWrite a.mem off p.payload && z.size == a.size) = true ∧ t.jobs = s.jobs ∧
      t.fab.replay = s.fab.replay ∧ SameCompute s t ∧ SameSearch s t ∧ SameRings s t ∧ t.nv = s.nv) ∧
    (∀ (port : Nat) (packet : Bytes) (dt : Nat) (p : Pkt), port < s.jugPorts → pktOp packet = opWRITE → pktOk packet = true → (((s.tick
      dt).takeSlots port packet).policed port (pktTc packet) (32 + leAt packet 26 2)).1 = true → s.fenced = false → p = Pkt.ofBytes packet → p.epoch
      = s.epoch → 0 < s.epoch → (p.job = 0 ∨ p.job = 0xFFFF ∨ s.inboundPlace p = none) → Completes (.inboundWrite port packet dt) s fun t =>
      t.fab.out = s.fab.out ++ [(s.replyTo p stNOACCESS []).bytes] ∧ t.fld JUG_NOACCESS_COUNT = countUp JUG_NOACCESS_COUNT (s.fld
      JUG_NOACCESS_COUNT) 1 ∧ t.jobs = s.jobs ∧ SameMemory s t ∧ SameCompute s t ∧ SameSearch s t ∧ SameRings s t ∧ t.depots = s.depots ∧ t.nv =
      s.nv) ∧
    (∀ (port : Nat) (packet : Bytes) (dt : Nat) (p : Pkt) (id off old v : Nat) (a : Alloc), port < s.jugPorts → pktOp packet = opATOMIC → pktOk
      packet = true → (((s.tick dt).takeSlots port packet).policed port (pktTc packet) (32 + leAt packet 26 2)).1 = true → s.fenced = false → p =
      Pkt.ofBytes packet → p.epoch = s.epoch → 0 < s.epoch → p.job ≠ 0 → p.job ≠ 0xFFFF → s.inboundPlace p = some (id, off) → (((mapGetD
      s.fab.replay p.src (ReplayTable.mk [] none)).entries.any fun e => e.ctx == p.ctx && e.seqn == p.seqn) = false) → (mapGetD s.fab.replay p.src
      (ReplayTable.mk [] none)).entries.length < replaySize → ((mapGetD s.fab.replay p.src (ReplayTable.mk [] none)).lowmark.elim true (fun m =>
      seqLater p.seqn m) = true) → (s.poisonIn id off p.size).isEmpty = true → s.alloc id = some a → old = leNat (s.allocBytes id off p.size) →
      atomicNew (p.asize % 16) (p.asize / 16 % 8) old (leAt p.payload 0 p.size) (leAt p.payload 8 p.size) = some v → Completes (.inboundAtomic port
      packet dt) s fun t => t.fab.out = s.fab.out ++ [(s.replyTo p stOK (leBytes 8 old)).bytes] ∧ (t.alloc id).any (fun (z : Alloc) => z.mem ==
      memWrite a.mem off (leBytes p.size v) && z.size == a.size) = true ∧ (mapGetD t.fab.replay p.src (ReplayTable.mk [] none)).entries = (mapGetD
      s.fab.replay p.src (ReplayTable.mk [] none)).entries ++ [ReplayEntry.mk p.ctx p.seqn old stOK (s.clock.mono + dt)] ∧ t.jobs = s.jobs ∧
      SameCompute s t ∧ SameSearch s t ∧ SameRings s t ∧ t.nv = s.nv) ∧
    (∀ (port : Nat) (packet : Bytes) (dt : Nat) (p : Pkt) (id off : Nat) (e : ReplayEntry), port < s.jugPorts → pktOp packet = opATOMIC → pktOk
      packet = true → (((s.tick dt).takeSlots port packet).policed port (pktTc packet) (32 + leAt packet 26 2)).1 = true → s.fenced = false → p =
      Pkt.ofBytes packet → p.epoch = s.epoch → 0 < s.epoch → p.job ≠ 0 → p.job ≠ 0xFFFF → s.inboundPlace p = some (id, off) → ((mapGetD s.fab.replay
      p.src (ReplayTable.mk [] none)).entries.find? (fun e => e.ctx == p.ctx && e.seqn == p.seqn) = some e) → Completes (.inboundAtomic port packet
      dt) s fun t => t.fab.out = s.fab.out ++ [(s.replyTo p e.status (leBytes 8 e.old)).bytes] ∧ t.fab.replay = s.fab.replay ∧ t.fld
      JUG_ATOMIC_REPLAYED = countUp JUG_ATOMIC_REPLAYED (s.fld JUG_ATOMIC_REPLAYED) 1 ∧ t.jobs = s.jobs ∧ SameMemory s t ∧ SameCompute s t ∧
      SameSearch s t ∧ SameRings s t ∧ t.depots = s.depots ∧ t.nv = s.nv) ∧
    (∀ (port : Nat) (packet : Bytes) (dt : Nat) (p : Pkt) (j : Job) (ms : List Bytes), port < s.jugPorts → pktOp packet = opMSG → pktOk packet =
      true → (((s.tick dt).takeSlots port packet).policed port (pktTc packet) (32 + leAt packet 26 2)).1 = true → s.fenced = false → p = Pkt.ofBytes
      packet → p.epoch = s.epoch → 0 < s.epoch → p.job ≠ 0 → p.job ≠ 0xFFFF → mapGet s.jobs p.job = some j → j.msgs = some ms → Completes
      (.inboundMsg port packet dt) s fun t => (sumNat (ms.map List.length) + p.len ≤ msgRingBytes → t.jobs = mapSet s.jobs p.job
      { j with msgs := some (ms ++ [p.payload]) } ∧ t.fab.out = s.fab.out ++ [(s.replyTo p stOK []).bytes]) ∧ (msgRingBytes < sumNat (ms.map
      List.length) + p.len → t.jobs = s.jobs ∧ t.fab.out = s.fab.out ++ [(s.replyTo p stBUSY []).bytes]) ∧ SameMemory s t ∧ SameCompute s t ∧
      SameSearch s t ∧ SameRings s t ∧ t.depots = s.depots ∧ t.nv = s.nv) ∧
    (∀ (hold dt : Nat) (h : HeldReq), mapGet s.fab.holds hold = some h → h.time + 500000 ≤ s.clock.mono + dt → Completes (.laterEpochHoldExpiry hold
      dt) s fun t => t.fab =
      { s.fab with holds := mapErase s.fab.holds hold, out := s.fab.out ++ [(s.replyTo (Pkt.ofBytes h.packet) stSTALEEPOCH []).bytes] } ∧ t.fld
      JUG_STALE_IN = countUp JUG_STALE_IN (s.fld JUG_STALE_IN) 1 ∧ t.jobs = s.jobs ∧ SameMemory s t ∧ SameCompute s t ∧ SameSearch s t ∧ SameRings s
      t ∧ t.depots = s.depots ∧ t.nv = s.nv)

/-- READ_REPLY, WRITE_ACK, ATOMIC_REPLY, MSG_ACK, MSG_RESEND, ATOMIC_RETRY_TIMEOUT, REQUEST_UNREACHABLE and WRITE_ACK_TIMEOUT (R330, R332,
R406 to R413). The matching of replies is the model's (log entry 96). -/
def Obligations.RepliesAndTimeoutsEndOwnRequests : Prop :=
  ∀ s : State,
    (∀ (packet : Bytes) (id : Nat) (r : Req) (q : Pkt) (run f : Nat) (x : Frame) (v : Word), pktOp packet = 0x81 → pktOk packet = true → s.reqOf
      packet = some (id, r) → q = Pkt.ofBytes packet → s.req id = some r → q.status ≠ stBUSY → r.frame = some (run, f) → s.frame f = some x → x.run
      = run → x.wait = .reply id r.reg → v = (s.replyValue r q.status q.payload).1 → Completes (.readReply packet) s fun t => (t.frame f).any (fun
      (y : Frame) => y.wait == FrameWait.none && y.sreg == ((x.setS r.reg (if q.status = stOK then v else 0)).setS (r.reg + 1) (BitVec.ofNat 64
      q.status)).sreg && y.pc == x.pc) = true ∧ t.runs = s.runs ∧ t.calls = s.calls ∧ SameSearch s t ∧ SameRings s t ∧ t.nv = s.nv) ∧
    (∀ (packet : Bytes) (id : Nat) (r : Req) (q : Pkt) (dt run f : Nat) (x : Frame) (v : Word), pktOp packet = 0x84 → pktOk packet = true → s.reqOf
      packet = some (id, r) → q = Pkt.ofBytes packet → s.req id = some r → q.status ≠ stBUSY → r.frame = some (run, f) → s.frame f = some x → x.run
      = run → x.wait = .reply id r.reg → v = (s.replyValue r q.status q.payload).1 → Completes (.atomicReply packet dt) s fun t => (t.frame f).any
      (fun (y : Frame) => y.wait == FrameWait.none && y.sreg == ((x.setS r.reg (if q.status = stOK then v else 0)).setS (r.reg + 1) (BitVec.ofNat 64
      q.status)).sreg && y.pc == x.pc) = true ∧ t.runs = s.runs ∧ t.calls = s.calls ∧ SameSearch s t ∧ SameRings s t ∧ t.nv = s.nv) ∧
    (∀ (packet : Bytes) (id : Nat) (r : Req) (q : Pkt) (dt : Nat), pktOp packet = 0x84 → pktOk packet = true → s.reqOf packet = some (id, r) → q =
      Pkt.ofBytes packet → s.req id = some r → q.status = stBUSY → Completes (.atomicReply packet dt) s fun t => t.req id = some
      { r with busyAt := some (s.clock.mono + dt) } ∧ t = { s.tick dt with fab := { s.fab with reqs := t.fab.reqs } }) ∧
    (∀ (packet : Bytes) (id : Nat) (r : Req) (q : Pkt) (run f : Nat) (x : Frame), pktOp packet = 0x82 → pktOk packet = true → s.reqOf packet = some
      (id, r) → q = Pkt.ofBytes packet → s.req id = some r → q.status ≠ stBUSY → pktOp r.packet = opWRITE → r.frame = some (run, f) → s.frame f =
      some x → x.run = run → Completes (.writeAck packet) s fun t => (t.frame f).any (fun (y : Frame) => !y.stores.contains id && (q.status == stOK
      || y.failed.isSome) && y.pc == x.pc && y.sreg == x.sreg && y.wait == x.wait) = true ∧ t.runs = s.runs ∧ t.calls = s.calls ∧ SameSearch s t ∧
      SameRings s t ∧ t.nv = s.nv) ∧
    (∀ (packet : Bytes) (id : Nat) (r : Req) (q : Pkt) (dt : Nat), pktOp packet = 0x85 → pktOk packet = true → s.reqOf packet = some (id, r) → q =
      Pkt.ofBytes packet → s.req id = some r → q.status ≠ stBUSY → r.frame = none → Completes (.msgAck packet dt) s fun t => t.fab =
      { s.fab with reqs := mapErase s.fab.reqs id } ∧ SameMemory s t ∧ SameCompute s t ∧ SameSearch s t ∧ SameRings s t ∧ t.depots = s.depots ∧ t.nv
      = s.nv) ∧
    (∀ (packet : Bytes) (id : Nat) (r : Req) (q : Pkt) (dt : Nat), pktOp packet = 0x85 → pktOk packet = true → s.reqOf packet = some (id, r) → q =
      Pkt.ofBytes packet → s.req id = some r → q.status = stBUSY → Completes (.msgAck packet dt) s fun t => t.req id = some
      { r with busyAt := some (s.clock.mono + dt) } ∧ t = { s.tick dt with fab := { s.fab with reqs := t.fab.reqs } }) ∧
    (∀ (req dt b : Nat) (r : Req) (p : Pkt), s.req req = some r → pktOp r.packet = opMSG → r.busyAt = some b → b + 100000 ≤ s.clock.mono + dt → p =
      { Pkt.ofBytes r.packet with retry := true, epoch := s.epoch } → (Pkt.ofBytes p.bytes).dst ≠ s.node → Completes (.msgResend req dt) s fun t =>
      t.req req = some { r with packet := p.bytes, stage := ReqStage.ready, busyAt := none } ∧ t.fab =
      { s.fab with reqs := t.fab.reqs, out := s.fab.out ++ [p.bytes] } ∧ SameMemory s t ∧ SameCompute s t ∧ SameSearch s t ∧ SameRings s t ∧
      t.depots = s.depots ∧ t.nv = s.nv) ∧
    (∀ (req dt : Nat) (r : Req) (p : Pkt), s.req req = some r → r.frame.isSome = true → (pktOp r.packet = opREAD ∨ pktOp r.packet = opATOMIC) →
      r.stage = .sent → r.busyAt = none → r.retries < s.fld JUG_RETRY_RETRIES → r.sentAt + s.fld JUG_RETRY_ATIMEOUT * 10 ^ 6 ≤ s.clock.mono + dt → p
      = { Pkt.ofBytes r.packet with retry := true, epoch := s.epoch } → (Pkt.ofBytes p.bytes).dst ≠ s.node → Completes (.atomicRetryTimeout req dt)
      s fun t => t.req req = some { r with packet := p.bytes, retries := r.retries + 1, stage := ReqStage.ready, busyAt := none } ∧ t.fab =
      { s.fab with reqs := t.fab.reqs, out := s.fab.out ++ [p.bytes] } ∧ SameMemory s t ∧ SameCompute s t ∧ SameSearch s t ∧ SameRings s t ∧
      t.depots = s.depots ∧ t.nv = s.nv) ∧
    (∀ (req dt run f : Nat) (r : Req) (x : Frame), s.req req = some r → (pktOp r.packet = opREAD ∨ pktOp r.packet = opATOMIC) → s.fld
      JUG_RETRY_RETRIES ≤ r.retries → r.stage = .sent → r.busyAt = none → r.sentAt + 5000000 ≤ s.clock.mono + dt → r.frame = some (run, f) → s.frame
      f = some x → x.run = run → x.wait = .reply req r.reg → Completes (.requestUnreachable req dt) s fun t => (t.frame f).any (fun (y : Frame) =>
      y.wait == FrameWait.none && y.sreg == ((x.setS r.reg 0).setS (r.reg + 1) (BitVec.ofNat 64 stUNREACHABLE)).sreg && y.pc == x.pc) = true ∧
      SameSearch s t ∧ SameRings s t ∧ t.nv = s.nv) ∧
    (∀ (req dt : Nat) (r : Req), s.req req = some r → r.frame = none → pktOp r.packet ≠ opWRITE → r.stage = .sent → r.busyAt = none → r.sentAt +
      5000000 ≤ s.clock.mono + dt → r.firstAt + 5000000 ≤ s.clock.mono + dt → Completes (.requestUnreachable req dt) s fun t => t.fab =
      { s.fab with reqs := mapErase s.fab.reqs req } ∧ t.fld JUG_UNREACH_COUNT = countUp JUG_UNREACH_COUNT (s.fld JUG_UNREACH_COUNT) 1 ∧ SameMemory
      s t ∧ SameCompute s t ∧ SameSearch s t ∧ SameRings s t ∧ t.depots = s.depots ∧ t.nv = s.nv) ∧
    (∀ (req dt run f : Nat) (r : Req) (x : Frame), s.req req = some r → pktOp r.packet = opWRITE → r.stage = .sent → r.sentAt + 5000000 ≤
      s.clock.mono + dt → r.frame = some (run, f) → s.frame f = some x → x.run = run → Completes (.writeAckTimeout req dt) s fun t => (t.frame
      f).any (fun (y : Frame) => !y.stores.contains req && y.failed.isSome && y.pc == x.pc && y.sreg == x.sreg && y.wait == x.wait) = true ∧
      SameSearch s t ∧ SameRings s t ∧ t.nv = s.nv)

/-- LEASE, LEASE_EXPIRY, FENCE_PACKET, EPOCH_SET_PART, QUIESCE and QUIESCE_DEPOT_FLUSH (R414 to R418, R517, R518). The answer of a FENCE after
step 4 rests on the model's reading (log entry 96).
Rests on log entry 97. -/
def Obligations.LeasesFencesAndEpochsKeepMembership : Prop :=
  ∀ s : State,
    (∀ (packet : Bytes) (dt : Nat) (u : State), pktOp packet = opLEASE → pktOk packet = true → leAt packet 26 2 = 32 → leAt packet 44 4 = 0 →
      (s.tick dt).criticalPacket packet = (none, u) → leAt packet 40 4 = u.epoch → u.fld JUG_EPOCH_STATE = 1 → Completes (.lease packet dt) s fun t
      => t.fab.leaseAt = some u.clock.mono ∧ t.fld JUG_LEASE_GRANTS = countUp JUG_LEASE_GRANTS (u.fld JUG_LEASE_GRANTS) 1 ∧ t =
      { u with regs := t.regs, fab := { u.fab with leaseAt := t.fab.leaseAt } }) ∧
    (∀ (dt t0 : Nat), s.fld JUG_EPOCH_STATE = 1 → s.fab.leaseAt = some t0 → t0 + 2 * 10 ^ 9 ≤ s.clock.mono + dt → Completes (.leaseExpiry dt) s fun
      t => t.fenced = true ∧ t.owns = [] ∧ t.epoch = s.epoch ∧ t.fab = { s.fab with quiesced := 0 } ∧ SameMemory s t ∧ SameCompute s t ∧ SameSearch
      s t ∧ SameRings s t ∧ t.depots = s.depots ∧ t.nv = s.nv) ∧
    (∀ (packet : Bytes) (u : State), pktOp packet = opFENCE → pktOk packet = true → leAt packet 26 2 = 32 → leAt packet 44 4 = s.node → s.node < 2 ^
      17 → s.criticalPacket packet = (none, u) → u.fenced = false → Completes (.fencePacket packet) s fun t => t.fenced = true ∧ t.owns = [] ∧
      t.epoch = s.epoch ∧ t.fab = { s.fab with quiesced := 0, fenceReplies := s.fab.fenceReplies ++ [packet] } ∧ t.runs = s.runs ∧ t.cmds = s.cmds ∧
      t.nv.slices = s.nv.slices) ∧
    (∀ (packet : Bytes) (u : State), pktOp packet = opFENCE → pktOk packet = true → leAt packet 26 2 = 32 → leAt packet 44 4 < 2 ^ 17 → leAt packet
      44 4 ≠ s.node → s.criticalPacket packet = (none, u) → Completes (.fencePacket packet) s fun t => t.fenced = s.fenced ∧ t.owns = s.owns ∧ t.fab
      = { s.fab with out := s.fab.out ++ [(s.replyTo (Pkt.ofBytes packet) stLIMIT []).bytes] } ∧ t.runs = s.runs ∧ t.cmds = s.cmds ∧ t.nv.slices =
      s.nv.slices) ∧
    (∀ (packet body : Bytes) (u : State) (e : Nat), pktOp packet = opEPOCHSET → pktOk packet = true → 40 ≤ leAt packet 26 2 → body = (packet.drop
      40).take (leAt packet 26 2 - 24) → (epochPart body).isSome = true → s.criticalPacket packet = (none, u) → u.fenced = false → e = leAt body 0 4
      → u.epoch < e → (mapSet (mapGetD u.fab.parts e (EpochParts.mk (leAt body 6 2) [])).parts (leAt body 4 2) body).length < (mapGetD u.fab.parts e
      (EpochParts.mk (leAt body 6 2) [])).nparts → Completes (.epochSetPart packet) s fun t => t.epoch = s.epoch ∧ (mapGet t.fab.parts e).any (fun
      (x : EpochParts) => mapGet x.parts (leAt body 4 2) == some body) = true ∧ t.fab.out = s.fab.out ++ [(s.replyTo (Pkt.ofBytes packet) stBUSY
      []).bytes] ∧ t.fab.domain = s.fab.domain ∧ t.fab.trees = s.fab.trees ∧ t.runs = s.runs ∧ t.cmds = s.cmds) ∧
    (s.fenced = true → s.fab.quiesced < 4 → Completes .quiesce s fun t => t.fab.reqs = [] ∧ t.calls = [] ∧ t.fab.quiesced = 4 ∧ t.fab.fenceReplies =
      [] ∧ t.fab.out.any quiesceDrops = false ∧ t.nv.slices = s.nv.slices ∧ t.nv.retired = s.nv.retired) ∧
    (s.fab.quiesced = 4 → Completes .quiesceDepotFlush s fun t => t.fab = { s.fab with quiesced := 5 } ∧ t.allocs = s.allocs ∧ t.runs = s.runs ∧
      t.cmds = s.cmds ∧ t.nv.slices = s.nv.slices)

/-- BAR_ARRIVE, BAR_RELEASE and BAR_BREAK (R285, R419 to R421, R517). The layout of the barrier payloads is the model's (log entry 99). -/
def Obligations.FabricBarriersJoinReleaseAndBreak : Prop :=
  ∀ s : State,
    (∀ (packet : Bytes) (p : Pkt) (n i j : Nat) (b : BarState) (tree group : List Nat), pktOp packet = opBARARRIVE → s.barOk opBARARRIVE 4 packet =
      true → p = Pkt.ofBytes packet → n = leAt packet 32 4 → tree = mapGetD s.fab.trees p.job [] → treeIndex tree s.node = some i → treeIndex tree
      p.src = some j → i % 64 = 0 → j / 64 = i / 64 → b = s.bar p.job → b.expects n = true → b.arrived.contains p.src = false → group = treeGroup
      tree i → b.arrived.length + 1 < group.length → Completes (.barArrive packet) s fun t => t.bar p.job =
      { b with number := n, arrived := b.arrived ++ [p.src] } ∧ t = { s with fab := { s.fab with bars := t.fab.bars } }) ∧
    (∀ (packet : Bytes) (p : Pkt) (n i j : Nat) (b : BarState) (tree group : List Nat), pktOp packet = opBARARRIVE → s.barOk opBARARRIVE 4 packet =
      true → p = Pkt.ofBytes packet → n = leAt packet 32 4 → tree = mapGetD s.fab.trees p.job [] → treeIndex tree s.node = some i → treeIndex tree
      p.src = some j → i % 64 = 0 → 0 < i → j / 64 = i / 64 → b = s.bar p.job → b.expects n = true → b.arrived.contains p.src = false → group =
      treeGroup tree i → b.arrived.length + 1 = group.length → tree.getD 0 0 ≠ s.node → Completes (.barArrive packet) s fun t => t.bar p.job =
      { b with number := n, arrived := b.arrived ++ [p.src] } ∧ t.fab =
      { s.fab with bars := t.fab.bars, out := s.fab.out ++ [s.barPacket opBARARRIVE p.job (tree.getD 0 0) (leBytes 4 n)] } ∧ SameMemory s t ∧
      SameCompute s t ∧ SameSearch s t ∧ SameRings s t ∧ t.depots = s.depots ∧ t.nv = s.nv) ∧
    (∀ (packet : Bytes) (p : Pkt) (n i : Nat) (ids : List Nat), pktOp packet = opBARRELEASE → s.barOk opBARRELEASE 8 packet = true → p = Pkt.ofBytes
      packet → n = leAt packet 32 4 → treeIndex (mapGetD s.fab.trees p.job []) s.node = some i → i % 64 ≠ 0 → ids = s.runsAt p.job n → ids ≠ [] →
      Completes (.barRelease packet) s fun t => t.fld FLT_STRAG_BARS = countUp FLT_STRAG_BARS (s.fld FLT_STRAG_BARS) 1 ∧ (ids.any fun id => (s.run
      id).any fun (r : Run) => r.phys.any fun f => (t.frame f).any fun (x : Frame) => decide (x.run = id) && decide (x.wait = FrameWait.barrier 1
      n)) = false ∧ t.fab = { s.fab with last64 := t.fab.last64 } ∧ SameSearch s t ∧ t.nv = s.nv) ∧
    (∀ (packet : Bytes) (job : Nat), pktOp packet = opBARBREAK → pktOk packet = true → leAt packet 26 2 = 4 → job = (Pkt.ofBytes packet).job →
      ((s.runs.any fun e => e.2.job == job) = false) → (s.bar job).arrived = [] → (s.bar job).groups = [] → exec (.barBreak packet) s = .next s) ∧
    (∀ (packet : Bytes) (job id f : Nat) (r : Run) (x : Frame), pktOp packet = opBARBREAK → pktOk packet = true → leAt packet 26 2 = 4 → job =
      (Pkt.ofBytes packet).job → (s.bar job).arrived = [] → (s.bar job).groups = [] → s.runs = [(id, r)] → r.job = job → r.phys = [f] → s.frame f =
      some x → x.run = id → x.wait = .barrier 1 (x.bars1) → Completes (.barBreak packet) s fun t => (t.frame f).any (fun (y : Frame) => y.wait ==
      FrameWait.halted && y.cause == fcBARBROKEN) = true ∧ t.fab = s.fab ∧ t.allocs = s.allocs)

/-- RS_ENCODE, RS_RECONSTRUCT and SPARE_ASSIGN (R422 to R424).
Rests on log entry 101. -/
def Obligations.StripesAreEncodedRebuiltAndSpared : Prop :=
  ∀ s : State,
    (∀ (jd group stripe role n : Nat) (units : List (Option Bytes)) (good : List (Nat × Bytes)) (b : Bytes), s.rsEngine jd = true → 8 ≤ units.length
      → units.length ≤ 64 → role < units.length → (good = ((List.range units.length).filterMap fun m => (units.getD m none).map fun y => ((m +
      units.length - stripe % units.length) % units.length, y)).filter fun y => rsGood y.2) → ((rsGens good).find? (fun g => decide (units.length -
      2 ≤ good.countP fun y => rsGen y.2 == g)) = some n) → (rsRole (units.length - 2) (fun i => (good.find? fun y => y.1 == i && rsGen y.2 ==
      n).map fun y => y.2.take rsUnit) role = some b) → Completes (.rsReconstruct jd group stripe units role) s fun t => t.fab.shards.any (fun (x :
      Shard) => x.group == group && x.stripe == stripe && x.member == rsMember units.length stripe role && x.bytes == rsStored group stripe n role
      b) = true ∧ t.fld JUG_RSDONE_REBUILT = countUp JUG_RSDONE_REBUILT (s.fld JUG_RSDONE_REBUILT) 1 ∧ t.jobs = s.jobs ∧ SameMemory s t ∧
      SameCompute s t ∧ SameSearch s t ∧ SameRings s t ∧ t.depots = s.depots ∧ t.nv = s.nv) ∧
    (∀ (jd group stripe gen : Nat) (data : List Bytes) (acked : List Bool) (k : Nat), s.rsEngine jd = true → k = data.length → 6 ≤ k → k ≤ 62 →
      ((List.range (k + 2)).all (fun i => acked.getD i false) = true) → Completes (.rsEncode jd group stripe gen data acked) s fun t => t.fld
      JUG_RSDONE_ENCODED = countUp JUG_RSDONE_ENCODED (s.fld JUG_RSDONE_ENCODED) 1 ∧ (∀ role < k, t.fab.shards.any (fun (x : Shard) => x.group ==
      group && x.stripe == stripe && x.member == rsMember (k + 2) stripe role && x.bytes == rsStored group stripe gen role (bytesAt (data.getD role
      []) 0 rsUnit)) = true) ∧ t = { s with regs := t.regs, fab := { s.fab with shards := t.fab.shards } }) ∧
    (∀ (jd group stripe role : Nat) (units : List (Option Bytes)), s.rsEngine jd = true → 8 ≤ units.length → units.length ≤ 64 → role < units.length
      → ((units.any fun u => u.isSome) = false) → Completes (.rsReconstruct jd group stripe units role) s fun t => t.fld JUG_RSFAIL_SHORT = countUp
      JUG_RSFAIL_SHORT (s.fld JUG_RSFAIL_SHORT) 1 ∧ t.fab = s.fab ∧ t.jobs = s.jobs ∧ t.runs = s.runs ∧ SameMemory s t ∧ SameSearch s t ∧ SameRings
      s t) ∧
    (∀ (group members member : Nat), 8 ≤ members → members ≤ 64 → member < members → exec (.spareAssign group members member) s = .next
      { s with fab := { s.fab with spares := mapSet s.fab.spares group (members, member) } })

/-- MGMT_COMMAND, FAULT_ACK, LOGREAD, READREG, DEVICE_RESET_REQUEST and ATTEST (R492, R547, R566, R572, R573). The queue of 16 per type is
R572's; what enters the entry of a COMMAND message rests on the model's reading (log entry 46).
Rests on log entry 47. -/
def Obligations.ManagementMessagesAreServed : Prop :=
  ∀ s : State,
    (∀ (msg : Bytes) (u : State), s.mgmtUp = true → msgType msg = 1 → s.receive msg = (true, u) → 256 ≤ msgLen msg → (u.inFlight mgmtRing).length <
      mgmtQueue → Completes (.mgmtCommand msg) s fun t => (t.ring mgmtRing).consumed = (s.ring mgmtRing).consumed + 1 ∧ (t.cmd mgmtRing ((s.ring
      mgmtRing).consumed + 1)).any (fun (c : Cmd) => c.entry == msgEntry msg && c.reqid == leAt msg 8 4 && (c.stage == CmdStage.consumed || c.stage
      == CmdStage.finished)) = true ∧ SameMemory s t ∧ SameCompute s t ∧ SameSearch s t ∧ SameFabric s t ∧ t.depots = s.depots ∧ t.nv.retired =
      s.nv.retired ∧ t.nv.slices = s.nv.slices ∧ t.nv.ock = s.nv.ock) ∧
    (∀ (msg : Bytes) (u : State), s.mgmtUp = true → msgType msg = 5 → s.receive msg = (true, u) → msgLen msg = 4 → Completes (.faultAck msg) s fun t
      => t.stm.faultAcked = max s.stm.faultAcked (leAt (msgPayload msg) 0 4) ∧ t = { u with stm := t.stm } ∧ SameBulk s t) ∧
    (∀ (msg : Bytes) (u : State), s.mgmtUp = true → msgType msg = 6 → s.receive msg = (true, u) → msgLen msg = 5 → 1 ≤ leAt (msgPayload msg) 4 1 →
      leAt (msgPayload msg) 4 1 ≤ 8 → Completes (.logread msg) s fun t => t =
      { u with mgmtOut := u.mgmtOut ++ [u.mgmtReply 6 (leAt msg 8 4) stOK (leAt msg 16 8) ((List.range (leAt (msgPayload msg) 4 1)).flatMap fun k => u.logShown (leAt (msgPayload msg) 0 4 + k)) true] }
      ∧ SameBulk s t) ∧
    (∀ (msg : Bytes) (u : State) (off n : Nat), s.mgmtUp = true → msgType msg = 7 → s.receive msg = (true, u) → msgLen msg = 5 → off = leAt
      (msgPayload msg) 0 4 → n = leAt (msgPayload msg) 4 1 → 1 ≤ n → n ≤ 64 → off % 8 = 0 → off + 8 * n ≤ 0x0100000 → Completes (.readreg msg) s fun
      t => t = { u with mgmtOut := u.mgmtOut ++ [u.mgmtReply 7 (leAt msg 8 4) stOK (leAt msg 16 8) (u.windowBytes off (8 * n)) true] } ∧ SameBulk s
      t) ∧
    (∀ (msg : Bytes) (u : State), s.mgmtUp = true → msgType msg = 2 → s.receive msg = (true, u) → msgLen msg = 8 → msgPayload msg = List.replicate 8
      0 → s.pins.powered = true → s.pins.tripped = false → s.pins.refclk100 = true → Bootable s → Completes (.deviceResetRequest msg) s fun t =>
      Restarted 3 s t) ∧
    (∀ (msg : Bytes) (u : State) (kind target : Nat), s.mgmtUp = true → msgType msg = 2 → s.receive msg = (true, u) → msgLen msg = 8 → msgPayload
      msg = leBytes 1 kind ++ [0] ++ leBytes 2 target ++ List.replicate 4 0 → 1 ≤ kind → kind ≤ 4 → target < 2 ^ 16 → s.resetTarget kind target =
      true → s.phase = phReady → s.resetJob kind target = none → s.stm.resetJobs.length < mgmtQueue → Completes (.deviceResetRequest msg) s fun t =>
      t.stm.resetJobs = s.stm.resetJobs ++ [ResetJob.mk kind target false (leAt msg 8 4) (leAt msg 16 8)] ∧ t = { u with stm := t.stm } ∧ SameBulk s
      t) ∧
    (∀ (msg : Bytes) (u : State) (n : Nat), s.mgmtUp = true → msgType msg = 3 → s.receive msg = (true, u) → n = leAt (msgPayload msg) 1 1 → leAt
      (msgPayload msg) 0 1 = 0xFF → (msgPayload msg).length = 2 + n → 8 ≤ n → n ≤ 64 → u.criticalBusy = false → Completes (.attest msg) s fun t =>
      t.nv.attCtr = s.nv.attCtr + 1 ∧ t.fld SEC_ATTEST_SIGNED = countUp SEC_ATTEST_SIGNED (s.fld SEC_ATTEST_SIGNED) 1 ∧ t.mgmtOut = s.mgmtOut ++
      [s.mgmtReply 3 (leAt msg 8 4) stOK (leAt msg 16 8) (u.nextSerial.certificate 0xFF ((msgPayload msg).drop 2)) false] ∧ SameBulk s t)

/-- SLICE_RESET, FRAME_RESET, PORT_RESET and DEPOT_RESET (R492 to R496, R551).
Rests on log entries 30, 31, 32, 33. -/
def Obligations.PartialResetsClearTheirTargetAndAnswer : Prop :=
  ∀ s : State,
    (∀ (slice : Nat) (j : ResetJob), s.resetJob 1 slice = some j → Completes (.sliceReset slice) s fun t => t.stm.resetJobs = s.stm.resetJobs.filter
      (fun (k : ResetJob) => k.kind != j.kind || k.target != j.target) ∧ t.mgmtOut.getLast? = some (t.mgmtReply 2 j.reqid stOK j.counter [] true) ∧
      t.consists = mapFilter s.consists (fun _ k => k.slice != slice) ∧ t.charges.any (fun (c : Charge) => c.slice == slice) = false ∧ mapGetD
      t.nv.gens slice 0 = (mapGetD s.nv.gens slice 0 + 1) % 2 ^ 16 ∧ t.nv.retired = s.nv.retired ∧ t.nv.slices = s.nv.slices) ∧
    (∀ (frame : Nat) (j : ResetJob), s.resetJob 2 frame = some j → s.frame frame = none → Completes (.frameReset frame) s fun t => t.stm.resetJobs =
      s.stm.resetJobs.filter (fun (k : ResetJob) => k.kind != j.kind || k.target != j.target) ∧ t.mgmtOut = s.mgmtOut ++ [s.mgmtReply 2 j.reqid stOK
      j.counter [] true] ∧ t.fld GLB_PRESET_FRAME = countUp GLB_PRESET_FRAME (s.fld GLB_PRESET_FRAME) 1 ∧ t.nv = s.nv ∧ SameBulk s t) ∧
    (∀ (port alignFails : Nat) (farEnd : Bool) (lanesOk : BitVec 4) (j : ResetJob), port < 8 → s.hasPort port = true → s.resetJob 3 port = some j →
      Completes (.portReset port alignFails farEnd lanesOk) s fun t => t.stm.resetJobs = s.stm.resetJobs.filter (fun (k : ResetJob) => k.kind !=
      j.kind || k.target != j.target) ∧ t.mgmtOut.getLast? = some (s.mgmtReply 2 j.reqid stOK j.counter [] true) ∧ (t.port port).queues = [] ∧
      (t.port port).vtime = 0 ∧ (t.port port).credit = [] ∧ (t.port port).sending = none ∧ t.portState port ≤ 2 ∧ SameSearch s t ∧ t.runs = s.runs ∧
      t.jobs = s.jobs) ∧
    (∀ (jd : Nat) (alignFails : List (Nat × Nat)) (untrained : List Nat) (unreadable : List Pua) (failedDies : List (Nat × Nat)) (ms : Nat) (j :
      ResetJob), s.resetJob 4 jd = some j → j.format = true → (s.depot jd).hasNamespaces = true → Completes (.depotReset jd alignFails untrained
      unreadable failedDies ms) s fun t => t.stm.resetJobs = s.stm.resetJobs.filter (fun (k : ResetJob) => k.kind != j.kind || k.target != j.target)
      ∧ t.mgmtOut = s.mgmtOut ++ [s.mgmtReply 2 j.reqid stBUSY j.counter [] true] ∧ t.regs = s.regs ∧ t.nv = s.nv ∧ SameBulk s t) ∧
    (∀ (jd : Nat) (alignFails : List (Nat × Nat)) (untrained : List Nat) (unreadable : List Pua) (failedDies : List (Nat × Nat)) (ms : Nat) (j :
      ResetJob), s.resetJob 4 jd = some j → jd < s.jdCount → j.format = false → Completes (.depotReset jd alignFails untrained unreadable failedDies
      ms) s fun t => t.stm.resetJobs = s.stm.resetJobs.filter (fun (k : ResetJob) => k.kind != j.kind || k.target != j.target) ∧ t.mgmtOut.getLast?
      = some (s.mgmtReply 2 j.reqid stOK j.counter [] true) ∧ (List.range 4).all (fun i => i == jd || t.depot i == s.depot i) = true ∧ t.runs =
      s.runs ∧ t.indexes = s.indexes ∧ t.rings = s.rings)

/-- LOG_APPEND, LOG_PROGRAM, LOG_OVERFLOW, FAULT_RECORD, CORRECTED_SUMMARY, FAULT_RESEND and WINDOW_SAVE (R501, R515, R563 to R565, R573).
Rests on log entries 41, 42. -/
def Obligations.LogEntriesAreFormedProgrammedAndResent : Prop :=
  ∀ s : State,
    (∀ (typ : Nat) (body : Bytes), s.phase ≠ phPower → logAtOnce typ = true → Completes (.logAppend typ body) s fun t => mapGet t.nv.log
      ((s.stm.logHead + 1) % 2 ^ 32) = some (logEntry ((s.stm.logHead + 1) % 2 ^ 32) typ (s.fld STM_STATE_ACTIVE) s.now body s.stm.chain) ∧
      t.stm.logHead = (s.stm.logHead + 1) % 2 ^ 32 ∧ t.stm.logPending = [] ∧ t.regs = s.regs ∧ t.nv.slices = s.nv.slices ∧ t.nv.ock = s.nv.ock ∧
      SameBulk s t) ∧
    (∀ (typ : Nat) (body : Bytes), s.phase ≠ phPower → 2 ≤ typ → typ ≤ 11 → logAtOnce typ = false → Completes (.logAppend typ body) s fun t =>
      t.stm.logPending = s.stm.logPending ++ [LogPending.mk ((s.stm.logHead + 1) % 2 ^ 32) (logEntry ((s.stm.logHead + 1) % 2 ^ 32) typ (s.fld
      STM_STATE_ACTIVE) s.now body s.stm.chain) s.now] ∧ t.stm.logHead = (s.stm.logHead + 1) % 2 ^ 32 ∧ t = { s with stm := t.stm }) ∧
    (∀ (unit : Nat) (cls : FaultClass) (source pattern slice addr : Nat), (unit = 0 ∨ s.unitPresent unit = true) → faultSourceOk source = true → cls
      ≠ .corrected → (cls ≠ .transient ∨ s.logFull = false) → Completes (.faultRecord unit cls source pattern slice addr) s fun t =>
      t.stm.logPending = s.stm.logPending ++ [LogPending.mk ((s.stm.logHead + 1) % 2 ^ 32) (logEntry ((s.stm.logHead + 1) % 2 ^ 32) ltFault (s.fld
      STM_STATE_ACTIVE) s.now (s.faultBytes ((s.stm.logHead + 1) % 2 ^ 32) unit cls source (pattern % 2 ^ 16) slice addr (s.count24 unit cls))
      s.stm.chain) s.now] ∧ t.stm.logHead = (s.stm.logHead + 1) % 2 ^ 32 ∧ t.stm.lastFaultSeq = (s.stm.logHead + 1) % 2 ^ 32 ∧ t.regs = s.regs ∧
      t.nv = s.nv ∧ SameBulk s t) ∧
    (∀ (unit : Nat) (cls : FaultClass) (source pattern slice addr : Nat), (unit = 0 ∨ s.unitPresent unit = true) → faultSourceOk source = true → cls
      = .transient → s.logFull = true → Completes (.faultRecord unit cls source pattern slice addr) s fun t => t.fld STM_LOGDROP_COUNT = countUp
      STM_LOGDROP_COUNT (s.fld STM_LOGDROP_COUNT) 1 ∧ t.stm = { s.stm with logDropped := s.stm.logDropped + 1 } ∧ t.nv = s.nv ∧ SameBulk s t) ∧
    (∀ (unit count : Nat), s.unitPresent unit = true → 0 < count → s.logFull = false → Completes (.correctedSummary unit count) s fun t =>
      t.stm.logPending = s.stm.logPending ++ [LogPending.mk ((s.stm.logHead + 1) % 2 ^ 32) (logEntry ((s.stm.logHead + 1) % 2 ^ 32) ltFault (s.fld
      STM_STATE_ACTIVE) s.now (s.faultBytes ((s.stm.logHead + 1) % 2 ^ 32) unit .corrected (correctedSource unit) 0 0xFF 0 (count % 2 ^ 32))
      s.stm.chain) s.now] ∧ t.stm.logHead = (s.stm.logHead + 1) % 2 ^ 32 ∧ t.regs = s.regs ∧ t.nv = s.nv ∧ SameBulk s t) ∧
    (∀ (e : LogPending), s.phase ≠ phPower → s.stm.logPending = [e] → Completes .logProgram s fun t => t.stm.logPending = [] ∧ mapGet t.nv.log e.seq
      = some e.bytes ∧ t.regs = s.regs ∧ t.nv.slices = s.nv.slices ∧ t.nv.ock = s.nv.ock ∧ SameBulk s t) ∧
    (s.stm.logDropped ≠ 0 → Completes .logOverflow s fun t => t.stm.logDropped = 0 ∧ t.stm.logPending = s.stm.logPending ++ [LogPending.mk
      ((s.stm.logHead + 1) % 2 ^ 32) (logEntry ((s.stm.logHead + 1) % 2 ^ 32) ltOverflow (s.fld STM_STATE_ACTIVE) s.now (leBytes 8 s.stm.logDropped)
      s.stm.chain) s.now] ∧ t.stm.logHead = (s.stm.logHead + 1) % 2 ^ 32 ∧ t = { s with stm := t.stm }) ∧
    (s.mgmtUp = true → s.stm.takeoverWindow = false → s.fmSet = true → exec .faultResend s = .next
      { s with mgmtOut := s.mgmtOut ++ (s.recordsAbove s.stm.faultAcked).filterMap s.faultMessage }) ∧
    (s.phase ≠ phPower → s.stm.takeoverWindow = false → exec .windowSave s = .next
      { s with nv := { s.nv with windows := s.stm.windows, cells := s.stm.cells } })

/-- STANDBY_MIRROR, STANDBY_SYNC_DONE, STANDBY_HEARTBEAT_MISS, TAKEOVER and STATIONMASTER_WATCHDOG_EXPIRY (R503, R524, R557). That the third
expiry counts from start-up on is the model's reading (log entry 43).
Rests on log entry 45. -/
def Obligations.TheStandbyFollowsAndTakesOver : Prop :=
  ∀ s : State,
    (s.fld STM_STATE_STANDBY ≠ 0 → exec .standbyMirror s = .next { s with stm := { s.stm with mirror := some s.mirrorOf } }) ∧
    (s.fld STM_STATE_STANDBY = 1 → s.isUp s.standbyDie = true → Completes .standbySyncDone s fun t => t.fld STM_STATE_STANDBY = 2 ∧ t.stm =
      { s.stm with mirror := some s.mirrorOf } ∧ t.nv = s.nv ∧ SameBulk s t) ∧
    (∀ (missed : Nat) (imageFailed : Bool), s.phase ≠ phPower → s.stm.takeoverWindow = false → s.activeUp = true → (10 ≤ missed ∨ imageFailed =
      true) → Completes (.standbyHeartbeatMiss missed imageFailed) s fun t => t.isUp (s.fld STM_STATE_ACTIVE) = false ∧ t.stm.takeoverWindow =
      s.standbyReady ∧ (imageFailed = true → t.retired (unitId 13 (s.fld STM_STATE_ACTIVE)) = true) ∧ (imageFailed = false → t.nv = s.nv) ∧ t.regs =
      s.regs ∧ (s.nv.retired.all fun e => t.retired e.unit) = true ∧ SameBulk s t) ∧
    (s.stm.takeoverWindow = true → Completes .takeover s fun t => t.fld STM_STATE_ACTIVE = s.standbyDie % 2 ∧ t.fld STM_STATE_STANDBY = 0 ∧
      t.stm.takeoverWindow = false ∧ t.stm.heldRecords = [] ∧ t.nv = { s.nv with takeovers := min (s.nv.takeovers + 1) 0xFFFF } ∧ SameBulk s t) ∧
    (∀ (which dt : Nat), s.phase ≠ phPower → which ≤ 1 → s.retired (unitId 13 which) = false → mapGetD s.stm.watchdogs which 0 + 1 < 3 → which ≠
      s.fld STM_STATE_ACTIVE → s.fld STM_STATE_STANDBY ≠ 1 → (which = 0 ∨ s.nv.dkWrap = true) → s.stm.act.stage = .idle → ((s.tick dt).addEvent
      (unitId 13 which) .transient).windowCount (unitId 13 which) .transient ≤ 2 → Completes (.stationmasterWatchdogExpiry which dt) s fun t =>
      t.isUp which = true ∧ t.fld STM_STATE_STANDBY = 1 ∧ mapGetD t.stm.watchdogs which 0 = mapGetD s.stm.watchdogs which 0 + 1 ∧ t.nv.retired =
      s.nv.retired ∧ SameBulk s t) ∧
    (∀ (which dt : Nat), s.phase ≠ phPower → which ≤ 1 → s.retired (unitId 13 which) = false → 3 ≤ mapGetD s.stm.watchdogs which 0 + 1 → Completes
      (.stationmasterWatchdogExpiry which dt) s fun t => t.retired (unitId 13 which) = true ∧ t.isUp which = false ∧ (s.nv.retired.all fun e =>
      t.retired e.unit) = true ∧ SameBulk s t)

/-- TRANSIENT_EVENT, UNIT_RETIRE, FRAME_QUARANTINE, PENDING_RETIRE, MEMORY_UNIT_DRAIN, RUN_RESTART, RUN_RETIRED and NAND_COMMAND_TIMEOUT (R500
to R508, R514).
Rests on log entries 59, 62, 109. -/
def Obligations.UnitsCountEventsAndRetire : Prop :=
  ∀ s : State,
    (∀ (unit source dt : Nat) (v : State), s.unitPresent unit = true → faultSourceOk source = true → s.retired unit = false → v = (s.tick
      dt).addEvent unit .transient → v.windowCount unit .transient ≤ tolerated unit → Completes (.transientEvent unit source dt) s fun t =>
      t.stm.windows = v.stm.windows ∧ t.nv = s.nv ∧ SameBulk s t) ∧
    (∀ (unit source dt : Nat) (v : State), s.unitPresent unit = true → faultSourceOk source = true → s.retired unit = false → v = (s.tick
      dt).addEvent unit .transient → tolerated unit < v.windowCount unit .transient → s.frameClaimed unit = false → Completes (.transientEvent unit
      source dt) s fun t => t.retired unit = true ∧ (s.nv.retired.all fun e => t.retired e.unit) = true ∧ t.runs = s.runs ∧ t.rings = s.rings ∧
      t.indexes = s.indexes) ∧
    (∀ (unit source dt : Nat) (v : State), s.unitPresent unit = true → faultSourceOk source = true → s.retired unit = false → v = (s.tick
      dt).addEvent unit .transient → tolerated unit < v.windowCount unit .transient → s.frameClaimed unit = true → Completes (.transientEvent unit
      source dt) s fun t => mapGet t.stm.pendingFrames (unitIndex unit) = some source ∧ t.nv.retired = s.nv.retired ∧ t.runs = s.runs ∧ t.frames =
      s.frames) ∧
    (∀ (unit source : Nat), s.unitPresent unit = true → faultSourceOk source = true → s.frameClaimed unit = false → Completes (.unitRetire unit
      source) s fun t => t.retired unit = true ∧ (s.nv.retired.all fun e => t.retired e.unit) = true ∧ t.runs = s.runs ∧ t.rings = s.rings ∧
      t.indexes = s.indexes) ∧
    (∀ (frame : Nat), s.cellsBad frame = true → s.frameInService frame = true → Completes (.frameQuarantine frame) s fun t => t.retired (unitId 1
      frame) = true ∧ (s.nv.retired.all fun e => t.retired e.unit) = true ∧ (s.frame frame).elim true (fun (x : Frame) => (s.run x.run).elim true
      fun _ => (t.run x.run).any fun (r : Run) => r.quarantined) = true ∧ t.rings = s.rings ∧ t.indexes = s.indexes) ∧
    (∀ (frame source : Nat), mapGet s.stm.pendingFrames frame = some source → s.frame frame = none → Completes (.pendingRetire frame) s fun t =>
      t.retired (unitId 1 frame) = true ∧ t.stm.pendingFrames = mapErase s.stm.pendingFrames frame ∧ (s.nv.retired.all fun e => t.retired e.unit) =
      true ∧ t.runs = s.runs ∧ t.rings = s.rings) ∧
    (∀ (unit : Nat) (v : State), s.stm.retiring.contains unit = true → (s.pagesOn unit).foldl (fun (acc : State × Bool) e => ((acc.1.drainPage e.1
      e.2).1, acc.2 && (acc.1.drainPage e.1 e.2).2)) (s, true) = (v, true) → exec (.memoryUnitDrain unit) s = .next
      { v with stm := { v.stm with retiring := v.stm.retiring.filter fun (x : Nat) => x != unit } }) ∧
    (∀ (run : Nat) (r : Run) (k : Consist) (c : Cmd) (fs : List Nat), s.run run = some r → s.runConsist r = some k → s.cmd r.ring r.seq = some c →
      r.restartDue = true → s.tooFew r.slice k = false → fs = (s.releaseFrames run).claimable r.slice → k.nframes ≤ fs.length → Completes
      (.runRestart run) s fun t => (t.run run).any (fun (x : Run) => x.restarted && !x.quarantined && !x.wrong && x.phys == fs.take k.nframes &&
      x.startedAt == s.clock.mono) = true ∧ t.fld FLT_RESTART_RESTARTS = countUp FLT_RESTART_RESTARTS (s.fld FLT_RESTART_RESTARTS) 1 ∧ t.nv = s.nv ∧
      SameSearch s t ∧ SameRings s t) ∧
    (∀ (run : Nat) (r : Run) (k : Consist) (c : Cmd), s.run run = some r → s.runConsist r = some k → s.tooFew r.slice k = true → (r.phys = [] ∨
      r.restartDue = true) → s.cmd r.ring r.seq = some c → c.ring = r.ring → c.seq = r.seq → Completes (.runRetired run) s fun t => t.runs =
      mapErase s.runs run ∧ Ended c stRETIRED t ∧ t.nv = s.nv ∧ SameMemory s t ∧ SameSearch s t ∧ t.rings = s.rings) ∧
    (∀ (jd ch die dt n : Nat), jd < s.depots.length → (s.depot jd).dieUp ch die = true → (n = ((s.depot jd).timeouts.find? fun (e : (Nat × Nat) ×
      Nat) => e.1 == (ch, die)).elim 0 (fun e => e.2)) → n + 1 < 3 → Completes (.nandCommandTimeout jd ch die false dt) s fun t => ((t.depot
      jd).timeouts.find? fun (e : (Nat × Nat) × Nat) => e.1 == (ch, die)) = some ((ch, die), n + 1) ∧ t.depot jd =
      { s.depot jd with timeouts := (t.depot jd).timeouts } ∧ t.nv = s.nv ∧ t.regs = s.regs ∧ SameMemory s t ∧ SameRings s t) ∧
    (∀ (jd ch die dt n : Nat), (s.depot jd).dieUp ch die = true → (n = ((s.depot jd).timeouts.find? fun (e : (Nat × Nat) × Nat) => e.1 == (ch,
      die)).elim 0 (fun e => e.2)) → 3 ≤ n + 1 → Completes (.nandCommandTimeout jd ch die false dt) s fun t => t.retired (unitId 7 (256 * jd + 16 *
      ch + die)) = true ∧ (s.nv.retired.all fun e => t.retired e.unit) = true ∧ SameMemory s t ∧ SameRings s t)

/-- CANARY_START, CANARY_COMPLETE, CANARY_ABORT, SHADOW_COMPARE and SHADOW_THIRD_COMPUTE (R511 to R513).
Rests on log entries 26, 110, 111. -/
def Obligations.CanariesAndShadowPassesCheckUnits : Prop :=
  ∀ s : State,
    (∀ (unit cls number : Nat), s.phase = phReady → s.activeUp = true → s.fld FLT_CFG_CANEN = 1 → number < 4096 → s.canaryChoice unit cls = true →
      exec (.canaryStart unit cls number) s = .next { s with stm := { s.stm with canaries := s.stm.canaries ++ [Canary.mk unit cls number] } }) ∧
    (∀ (unit : Nat) (digest stored : BitVec 128) (c : Canary), s.canaryOn unit = some c → digest = stored → Completes (.canaryComplete unit digest
      stored) s fun t => t.fld FLT_CANARY_RUN = countUp FLT_CANARY_RUN (s.fld FLT_CANARY_RUN) 1 ∧ t.stm.canaries = s.stm.canaries.filter (fun (x :
      Canary) => x.unit != unit) ∧ t.stm.canPasses = s.stm.canPasses ++ (if unitType unit = 1 then [(unitIndex unit, tempBin (s.unitTemp unit),
      c.cls, s.clock.mono)] else []) ∧ t.nv = s.nv ∧ SameBulk s t) ∧
    (∀ (unit : Nat) (digest stored : BitVec 128) (c : Canary), s.canaryOn unit = some c → digest ≠ stored → Completes (.canaryComplete unit digest
      stored) s fun t => t.fld FLT_CANARY_RUN = countUp FLT_CANARY_RUN (s.fld FLT_CANARY_RUN) 1 ∧ t.fld FLT_CANARY_FAILED = countUp
      FLT_CANARY_FAILED (s.fld FLT_CANARY_FAILED) 1 ∧ t.stm.canaries = s.stm.canaries.filter (fun (x : Canary) => x.unit != unit) ∧ t.stm.canPasses
      = s.stm.canPasses ∧ (s.nv.retired.all fun e => t.retired e.unit) = true ∧ t.rings = s.rings) ∧
    (∀ (unit : Nat), unitType unit = 1 → s.aboutToClaim.contains (unitIndex unit) = true → exec (.canaryAbort unit) s = .next
      { s with stm := { s.stm with canaries := s.stm.canaries.filter fun (x : Canary) => x.unit != unit } }) ∧
    (∀ (run origin : Nat) (agree : Bool) (cls shadow : Nat) (r : Run), s.run run = some r → s.shadowOf r origin = some shadow → Completes
      (.shadowCompare run origin agree cls) s fun t => t.fld FLT_SHADOW_COMPARED = countUp FLT_SHADOW_COMPARED (s.fld FLT_SHADOW_COMPARED) 1 ∧ t.fld
      FLT_SHADOW_MISMATCH = (if agree then s.fld FLT_SHADOW_MISMATCH else countUp FLT_SHADOW_MISMATCH (s.fld FLT_SHADOW_MISMATCH) 1) ∧ t.run run =
      some (if agree then r else { r with shadows := r.shadows ++ [(origin, shadow, cls % 8)] }) ∧ t = { s with regs := t.regs, runs := t.runs }) ∧
    (∀ (run origin shadow third : Nat) (originOk shadowOk : Bool) (cls : Nat) (r : Run), s.run run = some r → r.shadows.contains (origin, shadow,
      cls) = true → originOk = true → shadowOk = false → s.thirdOk r.slice origin shadow third true = true → s.frame shadow = none → Completes
      (.shadowThirdCompute run origin shadow third originOk shadowOk cls) s fun t => t.run run = some
      { r with shadows := r.shadows.erase (origin, shadow, cls) } ∧ (s.nv.retired.all fun e => t.retired e.unit) = true ∧ t.rings = s.rings ∧
      t.indexes = s.indexes) ∧
    (∀ (run origin shadow third : Nat) (originOk shadowOk : Bool) (cls : Nat) (r : Run), s.run run = some r → r.shadows.contains (origin, shadow,
      cls) = true → originOk = false → shadowOk = true → s.thirdOk r.slice origin shadow third true = true → s.frame origin = none → Completes
      (.shadowThirdCompute run origin shadow third originOk shadowOk cls) s fun t => (t.run run).any (fun (x : Run) => x.wrong && x.shadows ==
      r.shadows.erase (origin, shadow, cls)) = true ∧ (s.nv.retired.all fun e => t.retired e.unit) = true ∧ t.rings = s.rings ∧ t.indexes =
      s.indexes)

/-- OWNERSHIP_CLAIM, CLAIM_RECEIVE, STATE_READ_DONE, OWNERSHIP_DONE, CLAIM_REPEAT and HANDED_EXPIRY (R519 to R522). The payload of the
messages of the hand-off is the model's (log entry 114). Membership is a free predicate of the model (log entry 94), so the witness of a claim is
either that the owner is reachable or that it is not.
Rests on log entries 115, 116. -/
def Obligations.OwnershipPassesWithItsKey : Prop :=
  ∀ s : State,
    (∀ (reqid owner epoch hseq phase job : Nat), s.phase = phReady → s.fenced = false → reqid < 2 ^ 64 → owner < 2 ^ 17 → mapGet s.owns reqid = none
      → s.owns.length < ownTableSize → owner ≠ s.node → Completes (.ownershipClaim reqid owner epoch hseq phase job) s fun t => (s.reachable owner =
      true → (mapGet t.owns reqid).any (fun (r : OwnRecord) => r.st == OwnState.importing && r.owner == s.node && r.key == (s.epoch, (hseq + 1) % 2
      ^ 32) && r.peer == owner && !r.copy) = true ∧ t.fab.out.length = s.fab.out.length + 1) ∧ (s.reachable owner = false → t.fld
      FLT_STATELOST_COUNT = countUp FLT_STATELOST_COUNT (s.fld FLT_STATELOST_COUNT) 1 ∧ t.owns = s.owns ∧ t.fab = s.fab) ∧ SameMemory s t ∧
      SameCompute s t ∧ SameSearch s t ∧ SameRings s t) ∧
    (∀ (reqid claimant epoch hseq newEpoch newHseq : Nat) (r : OwnRecord), s.fenced = false → mapGet s.owns reqid = some r → r.st = .owned → r.key =
      (epoch, hseq) → keyLater (newEpoch, newHseq) r.key = true → Completes (.claimReceive reqid claimant epoch hseq newEpoch newHseq) s fun t =>
      mapGet t.owns reqid = some
      { r with st := OwnState.handed, owner := claimant, epoch := newEpoch, hseq := newHseq, fromEpoch := epoch, fromHseq := hseq, peer := claimant, doneAt := none }
      ∧ t.fab.out.length = s.fab.out.length + 1 ∧ t = { s with owns := t.owns, fab := { s.fab with out := t.fab.out } }) ∧
    (∀ (reqid claimant epoch hseq newEpoch newHseq : Nat) (r : OwnRecord), s.fenced = false → mapGet s.owns reqid = some r → r.st = .owned →
      keyLater r.key (epoch, hseq) = true → Completes (.claimReceive reqid claimant epoch hseq newEpoch newHseq) s fun t => t.owns = s.owns ∧ t.fld
      FLT_OWN_STALE = countUp FLT_OWN_STALE (s.fld FLT_OWN_STALE) 1 ∧ t.fab.out.length = s.fab.out.length + 1 ∧ SameMemory s t ∧ SameCompute s t ∧
      SameSearch s t ∧ SameRings s t) ∧
    (∀ (reqid outcome : Nat) (r : OwnRecord), s.fenced = false → mapGet s.owns reqid = some r → r.st = .importing → outcome = stOK → Completes
      (.stateReadDone reqid outcome) s fun t => mapGet t.owns reqid = some { r with st := OwnState.owned, copy := true } ∧ t.fab.out.length =
      s.fab.out.length + 1 ∧ t = { s with owns := t.owns, fab := { s.fab with out := t.fab.out } }) ∧
    (∀ (reqid outcome : Nat) (r : OwnRecord), s.fenced = false → mapGet s.owns reqid = some r → r.st = .importing → (outcome = stFENCED ∨ outcome =
      stSTATELOST) → Completes (.stateReadDone reqid outcome) s fun t => t.owns = mapErase s.owns reqid ∧ t.fld FLT_STATELOST_COUNT = countUp
      FLT_STATELOST_COUNT (s.fld FLT_STATELOST_COUNT) 1 ∧ t = { s with owns := t.owns, regs := t.regs }) ∧
    (∀ (reqid sender epoch hseq : Nat) (r : OwnRecord), s.fenced = false → mapGet s.owns reqid = some r → r.st = .handed → r.key = (epoch, hseq) →
      r.owner = sender → exec (.ownershipDone reqid sender epoch hseq) s = .next (s.setOwn reqid
      { r with copy := false, doneAt := some s.clock.mono })) ∧
    (∀ (reqid : Nat) (r : OwnRecord), s.fenced = false → mapGet s.owns reqid = some r → r.st = .importing → Completes (.claimRepeat reqid) s fun t
      => (s.reachable r.peer = true → t.owns = s.owns ∧ t.fab.out.length = s.fab.out.length + 1 ∧ t =
      { s with fab := { s.fab with out := t.fab.out } }) ∧ (s.reachable r.peer = false → t.owns = mapErase s.owns reqid ∧ t.fld FLT_STATELOST_COUNT
      = countUp FLT_STATELOST_COUNT (s.fld FLT_STATELOST_COUNT) 1)) ∧
    (∀ (reqid dt t0 : Nat) (r : OwnRecord), mapGet s.owns reqid = some r → r.st = .handed → r.doneAt = some t0 → t0 + 60 * 10 ^ 9 ≤ s.clock.mono +
      dt → Completes (.handedExpiry reqid dt) s fun t => t = { s.tick dt with owns := mapErase s.owns reqid })

/-- SLICE_TELEMETRY_UPDATE, JTAG_ACCESS, TENANT_UNIT_WAIT_TIMEOUT and RECOVERY_SERVICE (R531, R552, R554, R568, R571).
Rests on log entries 48, 49, 55. -/
def Obligations.TelemetryDebugAndRecoveryServeTheOperator : Prop :=
  ∀ s : State,
    (∀ (dt sl id : Nat) (e : SliceEntry) (a : Alloc), s.phase = phReady → s.stm.takeoverWindow = false → s.nv.slices = [(sl, e)] → s.named sl
      telemetryName = some (id, a) → mapGet s.allocs id = some a → a.flash = [] → Completes (.sliceTelemetryUpdate dt) s fun t => (t.alloc id).any
      (fun (x : Alloc) => (leAt (memRead x.mem 0 8) 0 8 == (s.tick dt).now || !Memory.wf a.mem) && x.size == a.size) = true ∧ t.indexes = s.indexes
      ∧ t.runs = s.runs ∧ t.nv = s.nv ∧ SameRings s t) ∧
    (∀ (op : JtagOp), s.fld SEC_DEBUG_JTAGFULL = 0 → s.recovering = false → Completes (.jtagAccess op) s fun t => t.regs = s.regs ∧ t.nv = s.nv ∧
      t.stm = s.stm ∧ SameBulk s t ∧ (op = JtagOp.idcode → t.jtagOut = s.jtagOut ++ [Config.jtagIdcode])) ∧
    (∀ (f : Nat) (x : Frame), s.fld SEC_DEBUG_JTAGFULL = 1 → s.frame f = some x → exec (.jtagAccess (.haltFrame f)) s = .next (s.setFrame f
      { x with wait := FrameWait.jtag })) ∧
    (∀ (off : Nat), s.fld SEC_DEBUG_JTAGFULL = 1 → off % 8 = 0 → exec (.jtagAccess (.readReg off)) s = .next
      { s with jtagOut := s.jtagOut ++ [leBytes 8 (s.readWord off).toNat] }) ∧
    (∀ (id off len : Nat), s.fld SEC_DEBUG_JTAGFULL = 1 → exec (.jtagAccess (.readMem id off len)) s = .next
      { s with jtagOut := s.jtagOut ++ [s.allocBytes id off len] }) ∧
    (∀ (id off : Nat) (data : Bytes) (a : Alloc), s.fld SEC_DEBUG_JTAGFULL = 1 → s.alloc id = some a → Completes (.jtagAccess (.writeMem id off
      data)) s fun t => (t.alloc id).any (fun (z : Alloc) => z.mem == memWrite a.mem off data && z.size == a.size) = true ∧ t.indexes = s.indexes ∧
      t.runs = s.runs ∧ t.nv = s.nv) ∧
    (∀ (r seq : Nat) (c : Cmd), s.running r seq 0x0102 = some c → c.step = 1 → c.since + 10 * 10 ^ 9 ≤ s.clock.mono → Completes
      (.tenantUnitWaitTimeout r seq) s fun t => Ended c stUNITTAKEN t ∧ t.stm = { s.stm with changing := mapErase s.stm.changing (c.par 32 1) } ∧
      t.nv = s.nv ∧ t.rings = s.rings ∧ SameMemory s t ∧ SameCompute s t ∧ SameSearch s t ∧ SameFabric s t) ∧
    (∀ (msg : Bytes) (total : Nat) (p : Bytes), s.recovering = true → leAt (bytesAt msg 0 256) 4 2 = 0x0100 → leAt (bytesAt msg 0 256) 48 1 = 0 →
      leAt (bytesAt msg 0 256) 40 8 = 0 → total = leAt (bytesAt msg 0 256) 32 4 → p = msg.drop 256 → p.length ≤ total → total ≤ 2 ^ 27 → Completes
      (.recoveryService true msg) s fun t => t.stm.stage = some (StageBuf.mk total (memWrite [] 0 p) [(0, p.length)]) ∧ t.stm.verified = none ∧
      t.nv.activeSlot = s.nv.activeSlot ∧ t.nv.rollback = s.nv.rollback ∧ t.nv.retired = s.nv.retired ∧ SameBulk s t)

/-- BUNDLE_ISSUE of a bundle that completes (R274, R282, R287, R296, R301, R303, R305, R313).
Rests on log entry 103. -/
def Obligations.BundlesIssueAsOneAct : Prop :=
  ∀ s : State,
    (∀ (f dt w : Nat) (x : Frame) (u : State) (b : Bundle) (fn d i j : Nat), s.frame f = some x → x.issues = true → u = s.tick dt → u.fetchBundle x
      = some w → decodeBundle w = some b → x.guard b.ag = true → b.a = .alu fn d i j → b.v = .nop → b.t = .nop → exec (.bundleIssue f dt) s = .next
      { u with frames := mapSet s.frames f { x.setS d (aluFn fn (x.s i) (x.s j)) with pc := (x.pc + 1) % 2 ^ 64, barPassed := false, counted := false } }) ∧
    (∀ (f dt w : Nat) (x : Frame) (u : State) (b : Bundle) (fn : LaneFn) (ty : Ty) (d i j : Nat), s.frame f = some x → x.issues = true → u = s.tick
      dt → u.fetchBundle x = some w → decodeBundle w = some b → x.guard b.vg = true → b.a = .nop → b.v = .bin fn ty d i j → b.t = .nop → exec
      (.bundleIssue f dt) s = .next
      { u with frames := mapSet s.frames f { x.setV d (mapLanes ty.width (laneFn fn ty) (x.v i) (x.v j)) with pc := (x.pc + 1) % 2 ^ 64, barPassed := false, counted := false } }) ∧
    (∀ (f dt w : Nat) (x : Frame) (u : State) (b : Bundle), s.frame f = some x → x.issues = true → u = s.tick dt → u.fetchBundle x = some w →
      decodeBundle w = some b → x.guard b.ag = false → x.guard b.vg = false → x.guard b.tg = false → alignIllegal x b.t = false → exec (.bundleIssue
      f dt) s = .next { u with frames := mapSet s.frames f { x with pc := (x.pc + 1) % 2 ^ 64, barPassed := false, counted := false } }) ∧
    (∀ (f dt w : Nat) (x : Frame) (u : State) (b : Bundle) (off : Int), s.frame f = some x → x.issues = true → u = s.tick dt → u.fetchBundle x =
      some w → decodeBundle w = some b → x.guard b.ag = true → b.a = .b off → b.v = .nop → b.t = .nop → exec (.bundleIssue f dt) s = .next
      { u with frames := mapSet s.frames f { x with pc := (BitVec.ofNat 64 x.pc + BitVec.ofInt 64 off).toNat, barPassed := false, counted := false } }) ∧
    (∀ (f dt w : Nat) (x : Frame) (u : State) (b : Bundle) (i aa size id off p id2 : Nat) (ofs : Int) (a : Alloc), s.frame f = some x → x.issues =
      true → u = s.tick dt → u.fetchBundle x = some w → decodeBundle w = some b → x.guard b.ag = true → b.a = .st i aa size ofs → b.v = .nop → b.t =
      .nop → addrPlus (x.a aa) ofs % 2 ^ size = 0 → u.resolve x (addrPlus (x.a aa) ofs) (2 ^ size) true = some (.alloc id off) → s.partPoison id off
      (2 ^ size) = false → s.alloc id = some a → Memory.wf a.mem = true → (id2 ≠ id ∨ p < off ∨ off + 2 ^ size ≤ p) → Completes (.bundleIssue f dt)
      s fun t => t.frame f = some { x with pc := (x.pc + 1) % 2 ^ 64, barPassed := false, counted := false } ∧ t.allocBytes id off (2 ^ size) =
      leBytes (2 ^ size) (x.s i).toNat ∧ t.allocBytes id2 p 1 = s.allocBytes id2 p 1 ∧ t.ringMem = s.ringMem ∧ t.cmds = s.cmds ∧ t.nv = s.nv) ∧
    (∀ (f dt w : Nat) (x : Frame) (u : State) (b : Bundle) (i aa size off : Nat) (ofs : Int), s.frame f = some x → x.issues = true → u = s.tick dt →
      u.fetchBundle x = some w → decodeBundle w = some b → x.guard b.ag = true → b.a = .st i aa size ofs → b.v = .nop → b.t = .nop → addrPlus (x.a
      aa) ofs % 2 ^ size = 0 → u.resolve x (addrPlus (x.a aa) ofs) (2 ^ size) true = some (.result off) → Completes (.bundleIssue f dt) s fun t =>
      t.frame f = some { x with pc := (x.pc + 1) % 2 ^ 64, barPassed := false, counted := false } ∧ t.ringMem = memWrite s.ringMem off (leBytes (2 ^
      size) (x.s i).toNat) ∧ t.allocs = s.allocs ∧ t.cmds = s.cmds ∧ t.nv = s.nv) ∧
    (∀ (f dt w : Nat) (x : Frame) (u : State) (b : Bundle) (d aa size p id2 : Nat) (sx : Bool) (ofs : Int), s.frame f = some x → x.issues = true → u
      = s.tick dt → u.fetchBundle x = some w → decodeBundle w = some b → x.guard b.ag = true → b.a = .ld d aa size sx ofs → b.v = .nop → b.t = .nop
      → u.rangeStop x (addrPlus (x.a aa) ofs) (2 ^ size) (2 ^ size) false = none → u.readStop x (addrPlus (x.a aa) ofs) (2 ^ size) = none →
      Completes (.bundleIssue f dt) s fun t => t.frame f = some
      { x.setS d (loadValue (2 ^ size) sx (leAt (u.readAddr x (addrPlus (x.a aa) ofs) (2 ^ size)) 0 (2 ^ size))) with pc := (x.pc + 1) % 2 ^ 64, barPassed := false, counted := false }
      ∧ t.allocBytes id2 p 1 = s.allocBytes id2 p 1 ∧ t.ringMem = s.ringMem ∧ t.cmds = s.cmds ∧ t.nv = s.nv ∧ t.depots = s.depots) ∧
    (∀ (f dt w : Nat) (x : Frame) (u : State) (b : Bundle) (q d id : Nat) (v : Queue) (l : List Nat) (c : Call), s.frame f = some x → x.issues =
      true → u = s.tick dt → u.fetchBundle x = some w → decodeBundle w = some b → x.guard b.ag = true → b.a = .wait q d → b.v = .nop → b.t = .nop →
      mapGet x.queues q = some v → v.kind = 1 → v.calls = id :: l → mapGet s.calls id = some c → c.done = true → Completes (.bundleIssue f dt) s fun
      t => t.frame f = some
      { (x.setS d (BitVec.ofNat 64 (c.status % 2 ^ 16 + leAt c.bytes 0 1 * 2 ^ 16 + c.count % 2 ^ 32 * 2 ^ 32))).setS (d + 1) (BitVec.ofNat 64 c.desc) with pc := (x.pc + 1) % 2 ^ 64, queues := mapSet x.queues q { v with calls := l }, barPassed := false, counted := false }
      ∧ t = { u with calls := mapErase s.calls id, frames := t.frames }) ∧
    (∀ (f dt w : Nat) (x : Frame) (u : State) (b : Bundle) (code : Nat), s.frame f = some x → x.issues = true → u = s.tick dt → u.fetchBundle x =
      some w → decodeBundle w = some b → x.guard b.ag = true → b.a = .halt code → b.v = .nop → b.t = .nop → u.haltStop f x code = none → Completes
      (.bundleIssue f dt) s fun t => (t.frame f).any (fun (y : Frame) => y.wait == FrameWait.halted && y.cause == 0 && y.haltCode == code) = true ∧
      t.allocs = s.allocs ∧ t.ringMem = s.ringMem ∧ t.cmds = s.cmds ∧ t.nv = s.nv ∧ t.fab = s.fab)

/-- BUNDLE_ISSUE of a bundle that faults, waits at a barrier, or begins an engine call or an MMA (R273, R280, R284, R288, R289, R320).
Rests on log entry 104. -/
def Obligations.BundlesFaultWaitAndCall : Prop :=
  ∀ s : State,
    (∀ (f dt w : Nat) (x : Frame) (u : State) (r : Run), s.frame f = some x → x.issues = true → u = s.tick dt → u.fetchBundle x = some w →
      decodeBundle w = none → s.run x.run = some r → Completes (.bundleIssue f dt) s fun t => t.frames = mapMap (mapSet s.frames f
      { x with wait := .halted, mma := none, cause := fcILLEGAL, haltCode := 0 }) (fun (_ : Nat) (y : Frame) => if y.run = x.run ∧ y.live = true
      then { y with peerHalt := true } else y) ∧ (t.run x.run).any (fun (y : Run) => leAt (mapGetD y.halts x.lframe []) 0 2 == fcILLEGAL) = true ∧
      t.reg .cmpLastfault 0 0 = BitVec.ofNat 64 (fcILLEGAL + f * 2 ^ 16 + u.now % 2 ^ 32 * 2 ^ 32) ∧ t.allocs = s.allocs ∧ t.ringMem = s.ringMem) ∧
    (∀ (f dt : Nat) (x : Frame) (u : State) (r : Run), s.frame f = some x → x.issues = true → u = s.tick dt → u.fetchBundle x = none → s.run x.run =
      some r → Completes (.bundleIssue f dt) s fun t => t.frames = mapMap (mapSet s.frames f
      { x with wait := .halted, mma := none, cause := fcPCRANGE, haltCode := 0 }) (fun (_ : Nat) (y : Frame) => if y.run = x.run ∧ y.live = true
      then { y with peerHalt := true } else y) ∧ (t.run x.run).any (fun (y : Run) => leAt (mapGetD y.halts x.lframe []) 0 2 == fcPCRANGE) = true ∧
      t.reg .cmpLastfault 0 0 = BitVec.ofNat 64 (fcPCRANGE + f * 2 ^ 16 + u.now % 2 ^ 32 * 2 ^ 32) ∧ t.allocs = s.allocs ∧ t.ringMem = s.ringMem) ∧
    (∀ (f dt w : Nat) (x : Frame) (u : State) (b : Bundle) (r : Run) (g : Nat) (y : Frame), s.frame f = some x → x.issues = true → u = s.tick dt →
      u.fetchBundle x = some w → decodeBundle w = some b → x.guard b.ag = true → b.a = .bar 0 → x.barPassed = false → alignIllegal x b.t = false →
      remoteStop x = none → s.run x.run = some r → r.phys.contains g = true → g ≠ f → s.frame g = some y → y.bars0 ≤ x.bars0 → (r.phys.all (fun (m :
      Nat) => (s.frame m).elim true Frame.live) = true) → Completes (.bundleIssue f dt) s fun t => t.frames = mapSet s.frames f
      { x with bars0 := x.bars0 + 1, wait := FrameWait.barrier 0 (x.bars0 + 1) } ∧ t.allocs = s.allocs ∧ t.ringMem = s.ringMem ∧ t.regs = s.regs) ∧
    (∀ (f dt w : Nat) (x : Frame) (u : State) (b : Bundle) (r : Run), s.frame f = some x → x.issues = true → u = s.tick dt → u.fetchBundle x = some
      w → decodeBundle w = some b → x.guard b.ag = true → b.a = .bar 0 → x.barPassed = false → alignIllegal x b.t = false → remoteStop x = none →
      s.run x.run = some r → (r.phys.all (fun (m : Nat) => m == f || (s.frame m).any (fun (y : Frame) => decide (x.bars0 + 1 ≤ y.bars0))) = true) →
      Completes (.bundleIssue f dt) s fun t => t.frames = mapMap (mapSet s.frames f
      { x with bars0 := x.bars0 + 1, wait := FrameWait.barrier 0 (x.bars0 + 1) }) (fun (_ : Nat) (y : Frame) => if y.run = x.run ∧ y.wait =
      FrameWait.barrier 0 (x.bars0 + 1) then { y with wait := FrameWait.none, barPassed := true } else y) ∧ t.allocs = s.allocs ∧ t.ringMem =
      s.ringMem) ∧
    (∀ (f dt w : Nat) (x : Frame) (u : State) (b : Bundle) (fn : EngineFn) (aa ofs addr q : Nat) (desc : Bytes) (v : Queue), s.frame f = some x →
      x.issues = true → u = s.tick dt → u.fetchBundle x = some w → decodeBundle w = some b → x.guard b.tg = true → b.a = .nop → b.v = .nop → b.t =
      .engine fn aa ofs → addr = ((x.a aa) + BitVec.ofNat 64 (64 * ofs)).toNat → desc = u.readAddr x addr 64 → u.rangeStop x addr 64 64 false = none
      → u.readStop x addr 64 = none → x.queuesOk fn desc = true → q = (fn.outq desc).1 → mapGet x.queues q = some v → Completes (.bundleIssue f dt)
      s fun t => t.frame f = some
      { x with queues := mapSet x.queues q { v with calls := v.calls ++ [s.nextId] }, pc := (x.pc + 1) % 2 ^ 64, barPassed := false, counted := false }
      ∧ t.calls = mapSet s.calls s.nextId (Call.mk x.run x.lframe f fn.code addr desc q (v.calls.getLast?.getD 0) false 0 0 none none [] [] false) ∧
      t.nextId = s.nextId + 1 ∧ t.ringMem = s.ringMem ∧ t.runs = s.runs) ∧
    (∀ (f dt w : Nat) (x : Frame) (u : State) (b : Bundle) (o : MmaOp) (m : MmaTensors), s.frame f = some x → x.issues = true → u = s.tick dt →
      u.fetchBundle x = some w → decodeBundle w = some b → x.guard b.tg = true → b.a = .nop → b.v = .nop → b.t = .mma o → alignIllegal x b.t = false
      → u.mmaTensors x o = some m → u.mmaStop x o m = none → m.i = none → Completes (.bundleIssue f dt) s fun t => t.frame f = some
      { x with banks := (if o.start then mapSet x.banks o.bank (Bank.start (formMode o.form) (m.p.elim [] fun (p : Tensor) => ((u.tensorRows x p).getD 0 []).take 128)) else x.banks), mma := some (mmaJob x o m), pc := (x.pc + 1) % 2 ^ 64, barPassed := false, counted := false }
      ∧ t = { u with frames := t.frames })

/-- MMA_SLAB_ADD, CARRY_CHECK_MISMATCH, WINDOW_FETCH_DONE, RUN_TIMEOUT, BAR_TIMEOUT, PEER_HALT and RUN_COMPLETE (R212, R227, R285, R287,
R288, R290, R508 to R510).
Rests on log entries 105, 109, 132. -/
def Obligations.SlabsAreAddedAndRunsEndByTheirRules : Prop :=
  ∀ s : State,
    (∀ (frame k : Nat) (x y : Frame) (j : MmaJob) (u : State) (v : MmaView), s.frame frame = some x → x.live = true → x.mma = some j → k ≤ 3 → u =
      s.residue frame k (formClass j.form * 4096 + 0xFFF) → u.frame frame = some y → y.live = true → v = u.mmaView y j → Completes (.mmaSlabAdd
      frame k) s fun t => (t.frame frame).any (fun (z : Frame) => z.banks == mapSet y.banks j.bank (v.addSlab j (y.bank j.bank) j.next).1 && z.mma
      == (if j.nslabs ≤ j.next + 1 then none else some { j with next := j.next + 1 }) && z.sreg == y.sreg && z.vreg == y.vreg && z.areg == y.areg &&
      z.pc == y.pc) = true ∧ t.allocs = u.allocs ∧ t.runs = u.runs ∧ t.ringMem = u.ringMem) ∧
    (∀ (frame k : Nat) (x : Frame) (j : MmaJob), s.frame frame = some x → x.live = true → x.mma = some j → 3 < k → frame < 4096 → Completes
      (.mmaSlabAdd frame k) s fun t => t.retired (unitId 1 frame) = true ∧ (t.frame frame).any (fun (z : Frame) => z.wait == FrameWait.halted &&
      z.banks == x.banks) = true ∧ t.allocs = s.allocs ∧ t.ringMem = s.ringMem ∧ t.nv.slices = s.nv.slices) ∧
    (∀ (frame k : Nat) (x : Frame), s.frame frame = some x → x.live = true → 3 < k → frame < 4096 → Completes (.carryCheckMismatch frame k) s fun t
      => t.retired (unitId 1 frame) = true ∧ (t.frame frame).any (fun (z : Frame) => z.wait == FrameWait.halted && z.banks == x.banks) = true ∧
      t.allocs = s.allocs ∧ t.ringMem = s.ringMem ∧ t.nv.slices = s.nv.slices) ∧
    (∀ (frame : Nat) (x : Frame), s.frame frame = some x → x.live = true → Completes (.carryCheckMismatch frame 1) s fun t => mapGet t.stm.cells
      frame = some (s.cellEvents frame ++ [CellEvent.mk (tempBin (s.unitTemp (unitId 1 frame))) 5 s.clock.mono]) ∧ t.allocs = s.allocs ∧ t.ringMem =
      s.ringMem ∧ t.nv.slices = s.nv.slices) ∧
    (∀ (run alloc layer b : Nat) (r : Run) (k : Consist) (w : WindowDecl) (st : WindowState), s.run run = some r → s.runConsist r = some k → mapGet
      k.windows alloc = some w → st = mapGetD r.windows alloc WindowState.blank → s.windowBase r w st = some b → b ≤ layer → layer < b + w.depth →
      layer < w.layers → ((List.range (layer - b)).all (fun (i : Nat) => st.fetched.contains (b + i)) = true) → st.fetched.contains layer = false →
      (w.routed = false ∨ (mapGet st.bitmaps layer).isSome = true) → exec (.windowFetchDone run alloc layer) s = .next
      { s with runs := mapSet s.runs run { r with windows := mapSet r.windows alloc { st with fetched := st.fetched ++ [layer] } } }) ∧
    (∀ (run dt : Nat) (r : Run) (k : Consist), s.run run = some r → s.runConsist r = some k → k.runtimeout ≠ 0 → r.phys ≠ [] → r.startedAt +
      k.runtimeout * 10 ^ 6 ≤ s.clock.mono + dt → Completes (.runTimeout run dt) s fun t => (t.run run).any (fun (y : Run) => y.timedOut) = true ∧
      r.phys.all (fun (f : Nat) => (t.frame f).elim true fun (z : Frame) => !z.live) = true ∧ t.allocs = s.allocs ∧ t.nv = s.nv) ∧
    (∀ (run dt t0 g : Nat) (r : Run) (k : Consist), s.run run = some r → s.runConsist r = some k → k.bartimeout ≠ 0 → g < 2 → mapGet r.barFirst g =
      some t0 → t0 + k.bartimeout * 10 ^ 6 ≤ s.clock.mono + dt → Completes (.barTimeout run dt) s fun t => r.phys.all (fun (f : Nat) => (t.frame
      f).elim true fun (z : Frame) => !z.atBarrier g) = true ∧ t.allocs = s.allocs ∧ t.nv = s.nv) ∧
    (∀ (run dt f : Nat) (r : Run) (x : Frame), s.run run = some r → r.phys.contains f = true → s.frame f = some x → x.live = true → x.peerHalt =
      true → Completes (.peerHalt run dt) s fun t => (t.frame f).any (fun (z : Frame) => z.wait == FrameWait.halted && z.cause == fcHALTPEER &&
      z.sreg == x.sreg) = true ∧ t.calls.all (fun (e : Nat × Call) => e.2.frame != f) = true ∧ t.allocs = s.allocs ∧ t.nv = s.nv) ∧
    (∀ (run : Nat) (r : Run) (c : Cmd), s.run run = some r → r.phys ≠ [] → s.liveFrames r = [] → r.quarantined = false → r.wrong = false →
      r.mismatch = false → r.shadows = [] → s.flashPending r.slice = false → s.fenced = false → s.cmd r.ring r.seq = some c → c.ring = r.ring →
      c.seq = r.seq → ((r.timedOut || (List.range r.phys.length).any fun (i : Nat) => leAt (mapGetD r.halts i []) 0 2 != 0) = true) → Completes
      (.runComplete run) s fun t => Ended c stFAULTPROG t ∧ t.runs = mapErase s.runs run ∧ t.frames = mapFilter s.frames (fun (_ : Nat) (z : Frame)
      => z.run != run) ∧ t.calls = mapFilter s.calls (fun (_ : Nat) (z : Call) => z.run != run) ∧ t.allocs = s.allocs ∧ t.nv = s.nv) ∧
    (∀ (run : Nat) (r : Run) (c : Cmd), s.run run = some r → r.phys ≠ [] → s.liveFrames r = [] → r.quarantined = false → r.wrong = false →
      r.mismatch = false → r.shadows = [] → s.flashPending r.slice = false → s.fenced = false → s.cmd r.ring r.seq = some c → c.ring = r.ring →
      c.seq = r.seq → r.timedOut = false → (((List.range r.phys.length).any fun (i : Nat) => leAt (mapGetD r.halts i []) 0 2 != 0) = false) →
      Completes (.runComplete run) s fun t => Ended c ((((List.range r.phys.length).map fun (i : Nat) => leAt (mapGetD r.halts i []) 6 2).find? fun
      (n : Nat) => n != 0).getD stOK) t ∧ t.runs = mapErase s.runs run ∧ t.frames = mapFilter s.frames (fun (_ : Nat) (z : Frame) => z.run != run) ∧
      t.calls = mapFilter s.calls (fun (_ : Nat) (z : Call) => z.run != run) ∧ t.allocs = s.allocs ∧ t.nv = s.nv)

/-- WALK, WALK_ROUND, SWEEP, TOPK_CALL and MERGE_CALL (R67, R69, R79, R106, R108, R130, R136, R138, R139, R142).
Rests on log entries 82, 83, 84. -/
def Obligations.EngineCallsOfFramesAreServed : Prop :=
  ∀ s : State,
    (∀ (shunter : Nat) (id : Nat) (c : Call) (x : Frame) (sl : Nat) (ix : Index) (w : Walk), s.openCall id 0 = some (c, x, sl) → c.walk = none →
      c.out = [] → (s.sliceShunters sl).contains shunter = true → c.walkReserved = false → s.walkIndex sl (c.at_ 2 2) = some ix → s.walkStatus c x
      ix = none → w = s.walkOf c x ix shunter → s.scratchUsed w.index ix.degree + scratchBytes w.entry.length w.hopmax ix.degree ≤ ix.pool * 2 ^ 20
      → s.shunterFree shunter = true → exec (.walk shunter id) s = .next { s with calls := mapSet s.calls id { c with walk := some w } }) ∧
    (∀ (shunter : Nat) (id : Nat) (c : Call) (x : Frame) (sl : Nat), s.openCall id 0 = some (c, x, sl) → c.walk = none → c.out = [] →
      (s.sliceShunters sl).contains shunter = true → c.walkReserved = false → s.walkIndex sl (c.at_ 2 2) = none → Completes (.walk shunter id) s fun
      t => (mapGet t.calls id).any (fun (e : Call) => e.status == stNOINDEX) = true ∧ t.indexes = s.indexes ∧ t.stores = s.stores ∧ t.tables =
      s.tables ∧ t.nv = s.nv ∧ t.runs = s.runs) ∧
    (∀ (shunter : Nat) (id : Nat) (c : Call) (x : Frame) (sl : Nat) (ix : Index) (w w2 : Walk) (hits : List (Nat × Nat)), s.openCall id 0 = some (c,
      x, sl) → c.walk = some w → c.out = [] → w.shunter = shunter → s.index w.index = some ix → s.joinedSweep id = (false, hits) → ix.walkRound hits
      w = (w2, none) → w2.media = false → w2.ended = false → exec (.walkRound shunter id .clean) s = .next
      { s with calls := mapSet s.calls id { c with walk := some w2 } }) ∧
    (∀ (shunter : Nat) (id : Nat) (c : Call) (x : Frame) (sl : Nat) (ix : Index) (w w2 : Walk) (hits : List (Nat × Nat)), s.openCall id 0 = some (c,
      x, sl) → c.walk = some w → c.out = [] → w.shunter = shunter → s.index w.index = some ix → s.joinedSweep id = (false, hits) → ix.walkRound hits
      w = (w2, none) → w2.media = false → w2.ended = true → Completes (.walkRound shunter id .clean) s fun t => (mapGet t.calls id).any (fun (e :
      Call) => e.status == stOK && e.walk == some w2) = true ∧ t.indexes = s.indexes ∧ t.stores = s.stores ∧ t.tables = s.tables ∧ t.nv = s.nv ∧
      t.runs = s.runs) ∧
    (∀ (shunter : Nat) (id : Nat) (c : Call) (x : Frame) (sl : Nat) (ix : Index) (v k : Nat) (r : SweepRes), s.openCall id 1 = some (c, x, sl) →
      c.out = [] → (s.sliceShunters sl).contains shunter = true → c.sweepReserved = false → s.walkIndex sl (c.at_ 2 2) = some ix → s.joinBad c =
      false → s.callFilterBad c x = false → (ix.key && bitOf (c.at_ 1 1) 1) = false → (bitOf (c.at_ 1 1) 5 = true ∨ (s.ticketBad (c.at_ 2 2) ix c =
      false ∧ ix.versionBad c = false)) → s.walkReads c x (32 * 2 ^ ix.skw) 16 = none → s.sweepAt c ix = .at_ v k → r = ix.sweep v k ((s.callFilter
      c x).map filterOf) (leNat (s.readAddr x (c.at_ 32 8) (32 * 2 ^ ix.skw))) → Completes (.sweep shunter [id]) s fun t => (mapGet t.calls id).any
      (fun (e : Call) => e.status == stOK && e.swept == some r) = true ∧ t.indexes = s.indexes ∧ t.stores = s.stores ∧ t.tables = s.tables ∧ t.nv =
      s.nv ∧ t.runs = s.runs) ∧
    (∀ (selector : Nat) (id : Nat) (c : Call) (x : Frame) (sl : Nat) (r : Selected), s.openCall id 2 = some (c, x, sl) → (s.sliceSelectors
      sl).contains selector = true → c.topkBad = false → c.topkOverlap = false → bitOf (c.at_ 1 1) 5 = false → s.selStop c x = none → s.engineStop x
      (c.at_ 16 8) c.rowBytes = none → r = topk (c.at_ 2 1) (bitOf (c.at_ 1 1) 0) (bitOf (c.at_ 1 1) 2) (c.at_ 4 2) c.sums (s.topkRow c x) →
      Completes (.topkCall selector id .clean) s fun t => (mapGet t.calls id).any (fun (e : Call) => e.done && e.status == (if r.sum.valid < r.sum.k
      then stSHORT else stOK) && e.count == r.sum.valid) = true ∧ t.allocs = ((s.storeRaw x (c.at_ 24 8) (r.entries (c.at_ 2 1))).storeRaw x (c.at_
      32 8) r.sum.bytes).allocs ∧ t.ringMem = ((s.storeRaw x (c.at_ 24 8) (r.entries (c.at_ 2 1))).storeRaw x (c.at_ 32 8) r.sum.bytes).ringMem ∧
      t.indexes = s.indexes ∧ t.stores = s.stores ∧ t.tables = s.tables ∧ t.nv = s.nv) ∧
    (∀ (selector : Nat) (id : Nat) (c : Call) (x : Frame) (sl : Nat) (lists : List Selected) (r : Selected), s.openCall id 3 = some (c, x, sl) →
      (s.sliceSelectors sl).contains selector = true → c.mergeBad = false → s.mergeStop c x = none → (lists = (s.mergeInputs c x).map (fun (e : Nat
      × Nat × Selected) => e.2.2)) → s.mergeOverlap c x = false → lists.any c.listBad = false → s.selStop c x = none → r = mergeLists (c.at_ 2 1)
      (bitOf (c.at_ 1 1) 0) (c.at_ 4 2) c.sums lists → Completes (.mergeCall selector id .clean) s fun t => (mapGet t.calls id).any (fun (e : Call)
      => e.done && e.status == (if r.sum.valid < r.sum.k then stSHORT else stOK) && e.count == r.sum.valid) = true ∧ t.allocs = ((s.storeRaw x
      (c.at_ 24 8) (r.entries (c.at_ 2 1))).storeRaw x (c.at_ 32 8) r.sum.bytes).allocs ∧ t.ringMem = ((s.storeRaw x (c.at_ 24 8) (r.entries (c.at_
      2 1))).storeRaw x (c.at_ 32 8) r.sum.bytes).ringMem ∧ t.indexes = s.indexes ∧ t.stores = s.stores ∧ t.tables = s.tables ∧ t.nv = s.nv)

/-- GATHER_SERVE, SCATADD_ACCUMULATE, APPLY, TABLE_INTERVAL_END and the commands of a row's migration (R161, R163, R165, R167 to R170, R173).
What a device sends of its rows is the model's operand (log entry 86).
Rests on log entry 87. -/
def Obligations.TablesServeApplyAndMigrateRows : Prop :=
  ∀ s : State,
    (∀ (n : Nat) (e : Option Nat) (rows : List Nat) (tb : Table), mapGet s.tables n = some tb → tb.epochTest e = .serve → exec (.gatherServe
      (.device n e rows)) s = .next { s with tables := mapSet s.tables n (rows.foldl (fun (y : Table) (r : Nat) => y.request r) tb) }) ∧
    (∀ (n : Nat) (e : Option Nat) (rows : List Nat) (tb : Table), mapGet s.tables n = some tb → tb.epochTest e = .stale → Completes (.gatherServe
      (.device n e rows)) s fun t => t.fld MEM_TBLSTALE_COUNT = countUp MEM_TBLSTALE_COUNT (s.fld MEM_TBLSTALE_COUNT) 1 ∧ t =
      { s with regs := t.regs }) ∧
    (∀ (id : Nat) (c : Call) (x : Frame) (sl : Nat) (tb : Table) (rows : List Nat) (wide : Bool), s.openCall id 4 = some (c, x, sl) → c.gatherBad =
      false → s.tableOf sl (c.at_ 2 2) = some tb → s.engineStop x (c.at_ 16 8) (8 * c.at_ 4 4) = none → rows = s.callRows c x → (rows.all (fun (r :
      Nat) => decide (r < tb.rows) && tb.hasRow r tb.tepoch && (tb.value r).length != 2) = true) → tb.epochTest (if bitOf (c.at_ 1 1) 0 then some
      (c.at_ 8 4) else none) = .serve → wide = bitOf (c.at_ 1 1) 1 → s.outStop x (c.at_ 24 8) (c.at_ 4 4 * if wide then 4 * tb.w else tb.rowSize) =
      none → Completes (.gatherServe (.call id [])) s fun t => (mapGet t.calls id).any (fun (e : Call) => e.done && e.status == stOK && e.count ==
      rows.length) = true ∧ t.allocs = (s.storeRaw x (c.at_ 24 8) (rows.flatMap fun (r : Nat) => tb.outRow wide (tb.value r))).allocs ∧ t.tables =
      mapSet s.tables (c.at_ 2 2) (rows.foldl (fun (y : Table) (r : Nat) => y.request r) tb) ∧ t.nv = s.nv) ∧
    (∀ (n row src pos scale : Nat) (e : Option Nat) (codes : List Nat) (tb : Table), mapGet s.tables n = some tb → tb.epochTest e = .serve →
      tb.owner row tb.tepoch = tb.mine → exec (.scataddAccumulate (.device n e row src pos scale codes)) s = .next
      { s with tables := mapSet s.tables n (tb.hold (Contribution.mk tb.tepoch row src pos scale codes)) }) ∧
    (∀ (id : Nat) (c : Call) (x : Frame) (sl : Nat) (tb : Table) (cs : List Contribution), s.openCall id 5 = some (c, x, sl) → c.at_ 0 1 = 0x21 →
      c.scatBad = false → s.tableOf sl (c.at_ 2 2) = some tb → tb.opt ≠ 0 → s.engineStop x (c.at_ 16 8) (8 * c.at_ 4 4) = none → s.engineStop x
      (c.at_ 24 8) (c.at_ 4 4 * roundUp tb.w 64) = none → ((s.callRows c x).all (fun (r : Nat) => decide (r < tb.rows) && tb.owner r tb.tepoch ==
      tb.mine) = true) → tb.epochTest (if bitOf (c.at_ 1 1) 0 then some (c.at_ 8 4) else none) = .serve → cs = s.contributions c x tb → Completes
      (.scataddAccumulate (.call id [])) s fun t => (mapGet t.calls id).any (fun (e : Call) => e.done && e.status == stOK && e.count == cs.length) =
      true ∧ t.tables = mapSet s.tables (c.at_ 2 2) (cs.foldl (fun (y : Table) (e : Contribution) => y.hold e) tb) ∧ t.allocs = s.allocs ∧ t.nv =
      s.nv) ∧
    (∀ (oldest : Nat) (id : Nat) (c : Call) (x : Frame) (sl : Nat) (tb tc : Table) (sat non : Nat), s.openCall id 5 = some (c, x, sl) → c.at_ 0 1 =
      0x22 → c.applyBad = false → s.tableOf sl (c.at_ 2 2) = some tb → tb.opt ≠ 0 → c.at_ 8 4 = tb.tepoch → s.gatherOpen (c.at_ 2 2) tb = false →
      (tb.touched.foldl (fun (acc : Table × Nat × Nat) (row : Nat) => let z := acc.1.applyRow (c.at_ 40 4) row; (z.1, acc.2.1 + z.2.1, acc.2.2 +
      z.2.2)) (tb, 0, 0) = (tc, sat, non)) → Completes (.apply id oldest) s fun t => (mapGet t.tables (c.at_ 2 2)).any (fun (y : Table) => y.tepoch
      == (tb.tepoch + 1) % 2 ^ 32 && y.values == tc.values && y.states == tc.states && y.grads == tb.grads.filter (fun (k : Contribution) => k.epoch
      != tb.tepoch) && y.rows == tb.rows && y.w == tb.w) = true ∧ (mapGet t.calls id).any (fun (e : Call) => e.done && e.status == (if non = 0 then
      stOK else stNONFINITEGRAD) && e.count == tb.grads.countP (fun (k : Contribution) => k.epoch == tb.tepoch)) = true ∧ t.allocs = s.allocs ∧ t.nv
      = s.nv) ∧
    (∀ (n : Nat) (totals : List Nat) (tb : Table), mapGet s.tables n = some tb → Completes (.tableIntervalEnd n totals) s fun t => (mapGet t.tables
      n).any (fun (y : Table) => y.total == 0 && y.counts == [] && y.lastTotal == tb.total && y.age == tb.age + 1 && y.values == tb.values &&
      y.tepoch == tb.tepoch && y.cfg == (s.reg .memTblcfg 0 0).toNat) = true ∧ t = { s with tables := t.tables }) ∧
    (∀ (n row target : Nat) (tb : Table) (m : RowMove), mapGet s.tables n = some tb → mapGet tb.moves row = some m → m.target = target → exec
      (.rowMigrationCopy n row target) s = .next
      { s with tables := mapSet s.tables n { tb with moves := mapSet tb.moves row { m with copied := true } } }) ∧
    (∀ (n row : Nat) (v z : Bytes) (tb : Table), mapGet s.tables n = some tb → exec (.migrationInstall n row (.image v z)) s = .next
      { s with tables := mapSet s.tables n { tb with values := mapSet tb.values row v, states := mapSet tb.states row z } }) ∧
    (∀ (n row : Nat) (tb : Table) (m : RowMove), mapGet s.tables n = some tb → mapGet tb.moves row = some m → exec (.migrationInstall n row
      .confirmed) s = .next { s with tables := mapSet s.tables n { tb with moves := mapSet tb.moves row { m with confirmed := m.em.isSome } } }) ∧
    (∀ (n row em : Nat) (tb : Table) (m : RowMove), mapGet s.tables n = some tb → mapGet tb.moves row = some m → m.confirmed = true → m.em = some em
      → em ≤ tb.tepoch → exec (.migrationFree n row) s = .next
      { s with tables := mapSet s.tables n { tb with moves := mapErase tb.moves row, values := mapErase tb.values row, states := mapErase tb.states row, migrDone := tb.migrDone + 1 } })

/-- TIER_INTERVAL_END, PAGE_MOVE_COPY_DONE, PAGE_MOVE_SOURCE_FREE, SRAM_SCRUB, DRAM_PATROL, BLOCK_ENCODE and BLOCK_DECODE (R342 to R344, R349
to R354).
Rests on log entries 56, 63. -/
def Obligations.TiersMovePagesAndScrubbersFindErrors : Prop :=
  ∀ s : State,
    (∀ (id : Nat) (a : Alloc), s.phase = phReady → s.alloc id = some a → Completes .tierIntervalEnd s fun t => t.tierAge = s.tierAge + 1 ∧ (t.alloc
      id).any (fun (b : Alloc) => b.age == a.age + 1 && b.last == a.hits && b.hits == [] && b.mem == a.mem && b.pages == a.pages && b.tier ==
      a.tier) = true ∧ (t.tierAge < 9 → t.moves = s.moves) ∧ t.poison = s.poison ∧ t.charges = s.charges ∧ t.regs = s.regs) ∧
    (∀ (id p : Nat) (a : Alloc) (l : List (Nat × Nat)) (u : State), s.phase = phReady → 8 ≤ s.tierAge → (u =
      { s with tierAge := s.tierAge + 1, allocs := mapMap s.allocs fun (_ : Nat) (b : Alloc) => { b with age := b.age + 1 } }) → u.promotions = (id,
      p) :: l → u.alloc id = some a → 2 ^ 21 * a.copies ≤ u.free a.slice 2 → Completes .tierIntervalEnd s fun t => t.moves.contains (PageMove.mk id
      p 2 false 0 (u.placeUnit id p 2)) = true ∧ t.poison = s.poison ∧ t.charges = s.charges ∧ t.regs = s.regs) ∧
    (∀ (i : Nat) (m : PageMove) (a : Alloc), s.moves[i]? = some m → m.copied = false → s.alloc m.alloc = some a → Completes (.pageMoveCopyDone i) s
      fun t => t.moves = s.moves.set i { m with copied := true, stalled := 0 } ∧ t.allocs = mapSet s.allocs m.alloc
      { a with pages := (if m.dest = a.tier then mapErase a.pages m.page else mapSet a.pages m.page m.dest), low := mapErase a.low m.page } ∧
      (m.dest = 2 → t.fld MEM_MOVES_PROMOTED = countUp MEM_MOVES_PROMOTED (s.fld MEM_MOVES_PROMOTED) 1) ∧ (m.dest ≠ 2 → t.fld MEM_MOVES_DEMOTED =
      countUp MEM_MOVES_DEMOTED (s.fld MEM_MOVES_DEMOTED) 1) ∧ t.poison = s.poison ∧ t.nv = s.nv) ∧
    (∀ (i : Nat) (m : PageMove), s.moves[i]? = some m → m.copied = true → exec (.pageMoveSourceFree i) s = .next
      { s with moves := s.moves.eraseIdx i }) ∧
    (∀ (site : MemSite), exec (.sramScrub site .good) s = .next s) ∧
    (∀ (site : MemSite), site.tier < 4 → s.isMoving site.alloc (site.offset / 2 ^ 21) = false → s.unitClearing site.unit = false → Completes
      (.sramScrub site .corrected) s fun t => t.fld MEM_ECC_CORR site.tier = countUp MEM_ECC_CORR (s.fld MEM_ECC_CORR site.tier) 1 ∧ t.allocs =
      s.allocs ∧ t.poison = s.poison ∧ t.nv.slices = s.nv.slices) ∧
    (∀ (site : MemSite), site.tier < 4 → s.isMoving site.alloc (site.offset / 2 ^ 21) = false → s.unitClearing site.unit = false → Completes
      (.sramScrub site .uncorrectable) s fun t => t.fld MEM_ECC_UNCORR site.tier = countUp MEM_ECC_UNCORR (s.fld MEM_ECC_UNCORR site.tier) 1 ∧
      t.poison.contains (Poison.mk site.alloc (site.offset / s.poisonLen site * s.poisonLen site) (s.poisonLen site) site.tier) = true ∧ t.allocs =
      s.allocs ∧ t.nv.slices = s.nv.slices) ∧
    (∀ (site : MemSite), exec (.dramPatrol site .good false) s = .next s) ∧
    (∀ (site : MemSite), Completes (.dramPatrol site .good true) s fun t => t.fld MEM_SCRUB_PASSES = countUp MEM_SCRUB_PASSES (s.fld
      MEM_SCRUB_PASSES) 1 ∧ t = { s with regs := t.regs, stm := { s.stm with patrol := false } }) ∧
    (∀ (site : MemSite), site.tier < 4 → s.isMoving site.alloc (site.offset / 2 ^ 21) = false → s.unitClearing site.unit = false → Completes
      (.dramPatrol site .uncorrectable false) s fun t => t.fld MEM_ECC_UNCORR site.tier = countUp MEM_ECC_UNCORR (s.fld MEM_ECC_UNCORR site.tier) 1
      ∧ t.poison.contains (Poison.mk site.alloc (site.offset / s.poisonLen site * s.poisonLen site) (s.poisonLen site) site.tier) = true ∧ t.allocs
      = s.allocs ∧ t.nv.slices = s.nv.slices) ∧
    (∀ (engine id b : Nat) (a : Alloc), s.alloc id = some a → Completes (.blockEncode engine id b true) s fun t => t.fld MEM_CODECIN_BYTES = countUp
      MEM_CODECIN_BYTES (s.fld MEM_CODECIN_BYTES) 4096 ∧ t.fld MEM_CODECOUT_BYTES = countUp MEM_CODECOUT_BYTES (s.fld MEM_CODECOUT_BYTES) (64 *
      (encodeBlock (memRead a.mem (b * 4096) 4096)).len) ∧ t = { s with regs := t.regs }) ∧
    (∀ (engine id b : Nat) (a : Alloc), s.alloc id = some a → Completes (.blockEncode engine id b false) s fun t => t.fld MEM_CODECIN_BYTES =
      countUp MEM_CODECIN_BYTES (s.fld MEM_CODECIN_BYTES) 4096 ∧ t.fld MEM_CODECOUT_BYTES = countUp MEM_CODECOUT_BYTES (s.fld MEM_CODECOUT_BYTES)
      4096 ∧ t.fld MEM_CODECERR_ENCODE = countUp MEM_CODECERR_ENCODE (s.fld MEM_CODECERR_ENCODE) 1 ∧ t.allocs = s.allocs ∧ t.poison = s.poison) ∧
    (∀ (engine id b : Nat) (payload out : Bytes) (desc : Word) (ok : Bool), decodeBlock payload desc.toNat = some out → exec (.blockDecode engine id
      b payload desc ok) s = .next s) ∧
    (∀ (engine id b : Nat) (payload : Bytes) (desc : Word), decodeBlock payload desc.toNat = none → Completes (.blockDecode engine id b payload desc
      false) s fun t => t.fld MEM_CODECERR_DECODE = countUp MEM_CODECERR_DECODE (s.fld MEM_CODECERR_DECODE) 1 ∧ t.poison.contains (Poison.mk id (b *
      4096) 4096 ((s.alloc id).elim 3 fun (a : Alloc) => a.pageTier (b / 512))) = true ∧ t.allocs = s.allocs ∧ t.nv.slices = s.nv.slices)

/-- BATCH_CLOSE, BATCH_PROGRAM_DONE, PROGRAM_FAILURE, ERASE_FAILURE, BLOCK_CLOSE_VERIFY, FOLD, GARBAGE_COLLECT, BLOCK_REFRESH and BLOCK_ERASE
(R368 to R370, R372, R373, R377, R382, R383). Where a slot goes is an operand (log entry 64). Folding stops at
4 GiB of held journal: log entry 133. -/
def Obligations.BatchesProgramFailAndRepair : Prop :=
  ∀ s : State,
    (∀ (jd lane : Nat) (d : Depot) (x : Lane) (place : List Pua) (parity : Pua) (dt : Nat) (w : OpenSlot) (ws : List OpenSlot), jd < s.depots.length
      → lane < 2 → d = s.depot jd → d.lanes.length = 2 → x = d.lane lane → x.batch.take 60 = w :: ws → x.serves = true → (60 ≤ x.batch.length ∨
      x.batchSince + 20000 ≤ s.clock.mono + dt) → d.batchPlaceOk lane (w :: ws) (place.map puaWord) (puaWord parity) = true → Completes (.batchClose
      jd lane place parity dt) s fun t => ((t.depot jd).lane lane).batch = x.batch.drop 60 ∧ ((t.depot jd).lane lane).batches = mapSet x.batches
      w.seq (Batch.mk w.seq (place.map puaWord) (puaWord parity) true) ∧ ((t.depot jd).lane lane).map = x.map ∧ ((t.depot jd).lane lane).seqCtr =
      x.seqCtr ∧ t.allocs = s.allocs ∧ t.runs = s.runs ∧ t.cmds = s.cmds ∧ t.nv = s.nv) ∧
    (∀ (jd lane : Nat) (d : Depot) (x : Lane) (n p : Nat) (b : Batch) (q : Slot), jd < s.depots.length → lane < 2 → d = s.depot jd → d.lanes.length
      = 2 → x = d.lane lane → mapGet x.batches n = some b → b.programming = true → x.serves = true → b.place = [p] → mapGet x.slots p = some q →
      mapGet x.map (unitKey q.ns q.unit) = none → Completes (.batchProgramDone jd lane n) s fun t => ((t.depot jd).lane lane).batches = mapSet
      x.batches n { b with programming := false } ∧ ((t.depot jd).lane lane).map = mapSet x.map (unitKey q.ns q.unit) p ∧ ((t.depot jd).lane
      lane).slots = x.slots ∧ ((t.depot jd).lane lane).sinceFlush = x.sinceFlush + 4096 ∧ t.allocs = s.allocs ∧ t.runs = s.runs ∧ t.cmds = s.cmds ∧
      t.nv = s.nv) ∧
    (∀ (jd lane : Nat) (d : Depot) (x : Lane) (n ch die block p : Nat) (pua : Pua) (b : Batch) (q : Slot), jd < s.depots.length → lane < 2 → d =
      s.depot jd → d.lanes.length = 2 → x = d.lane lane → mapGet x.batches n = some b → b.programming = true → x.serves = true → b.place = [p] →
      d.blockOf lane p = BlockId.mk ch die block → (d.placeOk lane [puaWord pua] (decide (0 < d.pslc)) (fun (c k : Nat) => decide (c ≠ 8 * lane +
      ch) || decide (k ≠ die)) = true) → (x.block (BlockId.mk ch die block)).progFails = 0 → mapGet x.slots p = some q → Completes (.programFailure
      jd lane n ch die block [pua]) s fun t => ((t.depot jd).lane lane).batches = mapSet x.batches n { b with place := [puaWord pua] } ∧ ((t.depot
      jd).lane lane).slots = mapErase (mapSet x.slots (puaWord pua) q) p ∧ ((t.depot jd).lane lane).map = x.map ∧ (t.depot jd).progFails =
      d.progFails + 1 ∧ t.allocs = s.allocs ∧ t.runs = s.runs ∧ t.cmds = s.cmds ∧ t.nv = s.nv) ∧
    (∀ (jd lane : Nat) (d : Depot) (x : Lane) (ch die block : Nat), jd < s.depots.length → lane < 2 → d = s.depot jd → d.lanes.length = 2 → x =
      d.lane lane → x.serves = true → d.dieUp (8 * lane + ch) die = true → (x.block (BlockId.mk ch die block)).retired = false → Completes
      (.eraseFailure jd lane ch die block) s fun t => (((t.depot jd).lane lane).block (BlockId.mk ch die block)).retired = true ∧ (t.depot
      jd).eraseFails = d.eraseFails + 1 ∧ (t.depot jd).retiredBlocks = d.retiredBlocks + 1 ∧ ((t.depot jd).lane lane).map = x.map ∧ ((t.depot
      jd).lane lane).slots = x.slots ∧ t.allocs = s.allocs ∧ t.runs = s.runs ∧ t.nv.slices = s.nv.slices) ∧
    (∀ (jd lane : Nat) (d : Depot) (x : Lane) (ch die block : Nat), jd < s.depots.length → lane < 2 → d = s.depot jd → d.lanes.length = 2 → x =
      d.lane lane → x.serves = true → d.closed lane (BlockId.mk ch die block) = true → (x.block (BlockId.mk ch die block)).verified = false →
      Completes (.blockCloseVerify jd lane ch die block [] []) s fun t => (((t.depot jd).lane lane).block (BlockId.mk ch die block)).verified = true
      ∧ ((t.depot jd).lane lane).copies = x.copies.filter (fun (c : PendingCopy) => d.blockOf lane c.dst != BlockId.mk ch die block) ∧ ((t.depot
      jd).lane lane).slots = x.slots ∧ t.allocs = s.allocs ∧ t.runs = s.runs ∧ t.cmds = s.cmds ∧ t.nv = s.nv) ∧
    (∀ (jd lane : Nat) (d : Depot) (x : Lane) (ch die block : Nat) (place : List Pua) (src : List Nat), jd < s.depots.length → lane < 2 → d =
      s.depot jd → d.lanes.length = 2 → x = d.lane lane → x.serves = true → x.journalLimit = false → (75 < d.bufferFill lane ∨ (50 ≤ d.bufferFill
      lane ∧ s.maintOpen = true)) → (d.bufferUsed lane).contains (BlockId.mk ch die block) = true → d.closed lane (BlockId.mk ch die block) = true →
      src = d.toCopy lane (BlockId.mk ch die block) → src ≠ [] → ((d.bufferUsed lane).all (fun (o : BlockId) => !d.closed lane o || (d.toCopy lane
      o).isEmpty || decide (d.oldest lane (BlockId.mk ch die block) ≤ d.oldest lane o)) = true) → d.copyPlaceOk lane src (place.map puaWord) = true
      → exec (.fold jd lane ch die block place) s = .next { s with depots := s.depots.set jd (d.copySlots lane src (place.map puaWord) .fold) }) ∧
    (∀ (jd lane : Nat) (d : Depot) (x : Lane) (place : List Pua) (b : BlockId) (src : List Nat), jd < s.depots.length → lane < 2 → d = s.depot jd →
      d.lanes.length = 2 → x = d.lane lane → x.serves = true → x.journalLimit = false → d.gcVictim lane = some b → src = d.toCopy lane b →
      d.copyPlaceOk lane src (place.map puaWord) = true → exec (.garbageCollect jd lane place) s = .next
      { s with depots := s.depots.set jd (d.copySlots lane src (place.map puaWord) .reloc) }) ∧
    (∀ (jd lane : Nat) (d : Depot) (x : Lane) (ch die block : Nat) (place : List Pua) (src : List Nat), jd < s.depots.length → lane < 2 → d =
      s.depot jd → d.lanes.length = 2 → x = d.lane lane → jd < 4 → x.serves = true → x.emergency.contains (BlockId.mk ch die block) = false →
      x.refresh.contains (BlockId.mk ch die block) = true → s.maintOpen = true → src = d.toCopy lane (BlockId.mk ch die block) → d.copyPlaceOk lane
      src (place.map puaWord) = true → Completes (.blockRefresh jd lane ch die block place) s fun t => t.depots = s.depots.set jd ((d.setLane lane
      { x with refresh := x.refresh.filter (· != BlockId.mk ch die block), emergency := x.emergency.filter (· != BlockId.mk ch die block) }).copySlots
      lane src (place.map puaWord) .reloc) ∧ t.fld DEP_REFRESH_SCHED jd = countUp DEP_REFRESH_SCHED (s.fld DEP_REFRESH_SCHED jd) 1 ∧ t.allocs =
      s.allocs ∧ t.runs = s.runs ∧ t.cmds = s.cmds ∧ t.nv = s.nv) ∧
    (∀ (jd lane : Nat) (d : Depot) (x : Lane) (ch die block : Nat) (b : Block), jd < s.depots.length → lane < 2 → d = s.depot jd → d.lanes.length =
      2 → x = d.lane lane → x.serves = true → x.freed.contains (BlockId.mk ch die block) = true → d.validSlots lane (BlockId.mk ch die block) = [] →
      b = x.block (BlockId.mk ch die block) → b.retired = false → d.parityBlock lane (BlockId.mk ch die block) = false → (x.journal.getLast?.any
      (fun (r : JournalRec) => !r.openSet.contains (BlockId.mk ch die block)) = true) → Completes (.blockErase jd lane ch die block) s fun t =>
      ((t.depot jd).lane lane).block (BlockId.mk ch die block) = { b with filled := 0, verified := false, erases := b.erases + 1, reads := 0 } ∧
      ((t.depot jd).lane lane).slots = mapFilter x.slots (fun (p : Nat) (_ : Slot) => d.blockOf lane p != BlockId.mk ch die block) ∧ ((t.depot
      jd).lane lane).map = x.map ∧ t.allocs = s.allocs ∧ t.runs = s.runs ∧ t.cmds = s.cmds ∧ t.nv = s.nv)

/-- JOURNAL_FLUSH, CHECKPOINT_SEGMENT, COUNTER_CHECKPOINT, SUPERBLOCK_UPDATE, SLOT_READ, MEDIA_PATROL, DIE_RETIRE, NAMESPACE_DESTROY,
KEY_TABLE_UPDATE and NAND_TEMP_READ (R364, R374 to R376, R381 to R383, R388 to R390).
Rests on log entries 57, 65, 66. -/
def Obligations.JournalsCheckpointsReadsAndKeysOfTheDepot : Prop :=
  ∀ s : State,
    (∀ (jd lane : Nat) (d : Depot) (x : Lane) (next : List (Nat × Nat × Nat)) (dt : Nat), jd < s.depots.length → lane < 2 → d = s.depot jd →
      d.lanes.length = 2 → x = d.lane lane → jd < s.jdCount → x.serves = true → (x.journal = [] ∨ x.flushedAt + 64 * 10 ^ 6 ≤ s.clock.mono + dt ∨ 2
      ^ 24 ≤ x.sinceFlush) → Completes (.journalFlush jd lane next dt) s fun t => (t.depot jd).lane lane =
      { x with journal := ((t.depot jd).lane lane).journal, flush := x.flush + 1, flushedAt := s.clock.mono + dt, sinceFlush := 0, deltas := [], freed := x.freed ++ d.newlyFree lane }
      ∧ ((t.depot jd).lane lane).journal.length = x.journal.length + 1 ∧ ((t.depot jd).lane lane).journal.getLast?.any (fun (r : JournalRec) =>
      r.flush == x.flush + 1 && r.epoch == x.sbEpoch && r.deltas == x.deltas ++ (d.newlyFree lane).map Delta.free) = true ∧ t.allocs = s.allocs ∧
      t.runs = s.runs ∧ t.cmds = s.cmds ∧ t.nv = s.nv) ∧
    (∀ (jd lane : Nat) (d : Depot) (x : Lane) (ns segment : Nat), jd < s.depots.length → lane < 2 → d = s.depot jd → d.lanes.length = 2 → x = d.lane
      lane → x.serves = true → x.deltas = [] → Completes (.checkpointSegment jd lane ns segment) s fun t => (mapGet ((t.depot jd).lane
      lane).segments (ns * 2 ^ 40 + segment)).any (fun (g : Segment) => g.flush == x.flush) = true ∧ ((t.depot jd).lane lane).map = x.map ∧
      ((t.depot jd).lane lane).slots = x.slots ∧ t.allocs = s.allocs ∧ t.runs = s.runs ∧ t.cmds = s.cmds ∧ t.nv = s.nv) ∧
    (∀ (jd lane : Nat) (d : Depot) (x : Lane), jd < s.depots.length → lane < 2 → d = s.depot jd → d.lanes.length = 2 → x = d.lane lane → x.serves =
      true → exec (.counterCheckpoint jd lane) s = .next
      { s with depots := s.depots.set jd ({ d with healthSaved := d.health }.setLane lane { x with counters := mapMap x.blocks fun (_ : Nat) (b : Block) => (b.erases, b.reads) }) }) ∧
    (∀ (jd lane : Nat) (d : Depot) (x : Lane), jd < s.depots.length → lane < 2 → d = s.depot jd → d.lanes.length = 2 → x = d.lane lane → x.serves =
      true → exec (.superblockUpdate jd lane) s = .next
      { s with depots := s.depots.set jd (d.setLane lane { x with sbVersion := x.sbVersion + 1, sbDestroying := d.destroying }) }) ∧
    (∀ (jd lane : Nat) (d : Depot) (x : Lane) (ns unit bits p : Nat) (n : Namespace) (q : Slot) (b : BlockId), jd < s.depots.length → lane < 2 → d =
      s.depot jd → d.lanes.length = 2 → x = d.lane lane → mapGet d.namespaces ns = some n → n.laneOf unit = lane → x.serves = true → mapGet x.map
      (unitKey ns unit) = some p → p ≠ lostEntry → mapGet x.slots p = some q → b = d.blockOf lane p → Completes (.slotRead jd ns unit (.hard bits))
      s fun t => (((t.depot jd).lane lane).block b).reads = (x.block b).reads + 1 ∧ ((t.depot jd).lane lane).map = x.map ∧ ((t.depot jd).lane
      lane).slots = x.slots ∧ (t.depot jd).health.lost = d.health.lost ∧ (t.depot jd).health.retry = d.health.retry ∧ t.regs = s.regs ∧ t.allocs =
      s.allocs ∧ t.runs = s.runs ∧ t.cmds = s.cmds ∧ t.nv = s.nv) ∧
    (∀ (jd lane : Nat) (d : Depot) (x : Lane) (ns unit p : Nat) (n : Namespace) (q : Slot), jd < s.depots.length → lane < 2 → d = s.depot jd →
      d.lanes.length = 2 → x = d.lane lane → mapGet d.namespaces ns = some n → n.laneOf unit = lane → x.serves = true → mapGet x.map (unitKey ns
      unit) = some p → p ≠ lostEntry → mapGet x.slots p = some q → q.ns = ns → q.unit = unit → Completes (.slotRead jd ns unit .lost) s fun t =>
      mapGet ((t.depot jd).lane lane).map (unitKey ns unit) = some lostEntry ∧ (t.depot jd).health.lost = (d.health.lost + 1) % 2 ^ 32 ∧ (t.depot
      jd).health.uncorr = (d.health.uncorr + 1) % 2 ^ 32 ∧ t.allocs = s.allocs ∧ t.nv.slices = s.nv.slices) ∧
    (∀ (jd lane : Nat) (d : Depot) (x : Lane) (pua : Pua) (bits : Nat) (q : Slot) (b : BlockId), jd < s.depots.length → lane < 2 → d = s.depot jd →
      d.lanes.length = 2 → x = d.lane lane → x.serves = true → s.maintOpen = true → b = d.blockOf lane (puaWord pua) → d.closed lane b = true →
      mapGet x.slots (puaWord pua) = some q → Completes (.mediaPatrol jd lane [(pua, .hard bits)]) s fun t => (((t.depot jd).lane lane).block
      b).reads = (x.block b).reads + 1 ∧ ((t.depot jd).lane lane).map = x.map ∧ ((t.depot jd).lane lane).slots = x.slots ∧ (t.depot jd).health.lost
      = d.health.lost ∧ t.regs = s.regs ∧ t.allocs = s.allocs ∧ t.runs = s.runs ∧ t.cmds = s.cmds ∧ t.nv = s.nv) ∧
    (∀ (jd ch die : Nat) (d : Depot) (x : Lane) (place : List Pua) (src : List Nat), jd < s.depots.length → ch < 16 → d = s.depot jd →
      d.lanes.length = 2 → x = d.lane (ch / 8) → s.retired (unitId 7 (256 * jd + 16 * ch + die)) = true → x.serves = true → (src = (mapKeys
      x.slots).filter (fun (p : Nat) => decide (puaCh p = ch % 8) && decide (puaDie p = die) && x.valid p && !x.copies.any (fun (c : PendingCopy) =>
      c.src == p))) → d.copyPlaceOk (ch / 8) src (place.map puaWord) = true → Completes (.dieRetire jd ch (some die) [] place) s fun t => ((t.depot
      jd).lane (ch / 8)).journal.getLast?.any (fun (r : JournalRec) => r.deltas.contains (Delta.retireDie (ch % 8) die)) = true ∧ ((t.depot jd).lane
      (ch / 8)).map = x.map ∧ (t.depot jd).health.lost = d.health.lost % 2 ^ 32 ∧ t.allocs = s.allocs ∧ t.runs = s.runs ∧ t.cmds = s.cmds ∧ t.nv =
      s.nv) ∧
    (∀ (jd ns : Nat), jd < s.depots.length → (s.depot jd).destroying.contains ns = true → Completes (.namespaceDestroy jd ns) s fun t => (t.depot
      jd).namespaces = mapErase (s.depot jd).namespaces ns ∧ (t.depot jd).destroying.contains ns = false ∧ (t.depot jd).keyTables = (s.depot
      jd).keyTables + 1 ∧ t.allocs = s.allocs ∧ t.runs = s.runs ∧ t.nv.slices = s.nv.slices) ∧
    (∀ (jd : Nat) (d : Depot), d = s.depot jd → ((d.lane 0).serves = true ∨ (d.lane 1).serves = true) → exec (.keyTableUpdate jd) s = .next
      { s with depots := s.depots.set jd ({ d with keyTables := d.keyTables + 1 }) }) ∧
    (∀ (jd : Nat) (v : Int) (vs : List Int) (d : Depot), jd < s.depots.length → d = s.depot jd → ((d.lane 0).serves = true ∨ (d.lane 1).serves =
      true) → 0 < d.health.temps → Completes (.nandTempRead jd (v :: vs)) s fun t => (t.depot jd).health.tmax = max d.health.tmax (vs.foldl max v) ∧
      (t.depot jd).health.tmin = min d.health.tmin (vs.foldl max v) ∧ (t.depot jd).health.temps = d.health.temps + 1 ∧ (t.depot jd).lanes = d.lanes
      ∧ t = { s with depots := t.depots })

/-- One step of the block runs the command at the front of its queue (the order in which writes and commands reach the block, R18, R453). -/
def Obligations.StepRunsTheFrontCommand : Prop :=
  ∀ (c : Instr) (rest : List Instr) (s : State), s.pending = c :: rest → step s = exec c { s with pending := rest }

/-- The block idles for 1 ns on an empty queue: DESIGN CHOICE of log entry 2, no rule of the spec. Only the clock moves. -/
def Obligations.AnEmptyQueueIdlesForOneNanosecond : Prop :=
  ∀ s : State, s.pending = [] →
    ∃ t : State, step s = .next t ∧ t.clock.mono = s.clock.mono + 1 ∧ t = { s with clock := t.clock } ∧
      (s.clock.running = false → t.clock.station = s.clock.station) ∧ t.clock.timeZero = s.clock.timeZero

/-- State.reset holds the Reset columns of the register tables (R16) and an unpowered, empty device (R472, R491). -/
def Obligations.ResetHoldsTheTablesValues : Prop :=
  (∀ (n : RegName) (i j : Nat), State.reset.reg n i j =
    match n with
    | .srcTkthold => 0xFFFFFFFFFFFF | .srcMergecfg => 0x1000100 | .srcRepair => 10000 | .memTblcfg => 0x0004010000960064
    | .memTblrepl => 65536 | .memTiercfg => 0x0010010010000064 | .memScrub => 24 | .depCfg => 0x1E0C03 | .depRdcfg => 0x000186A000009C40
    | .jugNode => 0x1FFFF | .jugRetry => 0x33 | .jugRcache => 8 | .shpWeight => 16 | .shpCbs => 0x4000000000 | .shpJpol => 0x4000000000
    | .shpCclpol => 0x4000000000 | .cmdRingcfg => 0x100002 | .fltCfg => 0x100103E8 | .secIsol => 0x2D00004 | .stmTrial => 600
    | .pwrRail => 0x2D00000 | _ => 0) ∧
  State.reset.pins.powered = false ∧ State.reset.pending = [] ∧ QueueWellFormed State.reset ∧ State.reset.cmds = [] ∧
  RingCanonical State.reset ∧ (∀ a : Nat, memGet State.reset.ringMem a = 0) ∧ State.reset.runs = [] ∧ State.reset.frames = [] ∧
  State.reset.indexes = [] ∧ State.reset.tables = [] ∧ State.reset.queries = [] ∧ State.reset.jobs = [] ∧ State.reset.allocs = []

/-- No command touches the queue of commands that wait, not even a reset of the device; only step takes the front one. -/
def Obligations.EveryStepTakesOneCommandFromTheQueue : Prop :=
  ∀ s t : State, step s = .next t → t.pending = s.pending.tail ∧ (QueueWellFormed s → QueueWellFormed t)

/-- The retirement record in management flash lists every unit retired since manufacture (R475): no command takes an entry out. -/
def Obligations.RetirementRecordIsOnlyAppendedTo : Prop :=
  ∀ s t : State, step s = .next t → (∃ es : List RetireEntry, t.nv.retired = s.nv.retired ++ es) ∧ KeepsRetired s t

/-- The ring region (R449) stays a canonical memory through every step, so equal contents are equal data. -/
def Obligations.RingRegionStaysCanonical : Prop :=
  ∀ s t : State, RingCanonical s → step s = .next t → RingCanonical t

/-- No pin, register write or command changes the signed record (R5, R475); OCK is provisioned once and afterwards only rotated (R543, R544). -/
def Obligations.FlashKeepsTheDeviceRecordAndAnOperatorKey : Prop :=
  ∀ s t : State, step s = .next t → t.nv.record = s.nv.record ∧ (s.nv.ock.isSome = true → t.nv.ock.isSome = true)

/-- No register write changes GLB_GRADE (R5); GLB_ID is read-only (R20). -/
def Obligations.NoRegisterWriteChangesTheGrade : Prop :=
  ∀ s : State,
    ∀ (src : Source) (offset len : Nat) (data : Word), Completes (.registerWrite src offset len data) s fun t => t.readNamed .glbGrade 0 0 =
      s.readNamed .glbGrade 0 0 ∧ t.readNamed .glbId 0 0 = s.readNamed .glbId 0 0 ∧ t.nv.record = s.nv.record ∧ t.nv.retired = s.nv.retired

/-- R15 whole: which offsets are unassigned, what a read of one returns, and what a write to one does. -/
def Obligations.UnassignedOffsetsReadZeroAndCountWrites : Prop :=
  (∀ off : Nat, 0x00F0000 ≤ off → off < 0x0100000 → findReg off = none ∧ inStatus off = false) ∧
  (∀ (s : State) (off : Nat), s.variant = 2 → 0x00A0000 ≤ off → off < 0x00C0000 → s.missingBlock off = true ∧ inStatus off = false) ∧
  ∀ (s : State) (src : Source) (off : Nat) (data : Word), s.sourceOk src = true → off % 8 = 0 → off < 0x4000000 →
    (0x0100000 ≤ off → s.inRingArea off = false) →
    (off < 0x0100000 → inStatus off = false ∧ (s.missingBlock off = true ∨ findReg off = none)) →
    s.readWord off = 0 ∧
    Completes (.registerWrite src off 8 data) s fun t =>
      t = { s with regs := t.regs } ∧ t.fld GLB_BADACC_WRITES = (s.fld GLB_BADACC_WRITES + 1) % 2 ^ 32 ∧
      t.fld GLB_BADACC_READS = s.fld GLB_BADACC_READS ∧
      ∀ (n : RegName) (i j : Nat), regOffset n i j ≠ regOffset .glbBadacc 0 0 → t.reg n i j = s.reg n i j

/-- R457 whole: the layout of the status word (Table 15-5), and that only the device writes it. -/
def Obligations.StatusWordsAreReadOnlyAndLaidOutByTheTable : Prop :=
  (∀ (s : State) (r : Nat), r < 64 →
    let w := 0x0021000 + 64 * r
    let x := s.ring r
    s.readWord w = BitVec.ofNat 64 x.consumed ∧ s.readWord (w + 8) = BitVec.ofNat 64 x.completed ∧
    s.readWord (w + 16) = BitVec.ofNat 64 x.progress ∧ s.readWord (w + 24) = BitVec.ofNat 64 x.pcount ∧
    s.readWord (w + 32) = BitVec.ofNat 64 x.pseq ∧ s.readWord (w + 40) = BitVec.ofNat 64 x.time ∧
    s.readWord (w + 48) = BitVec.ofNat 64 (x.status % 2 ^ 16 + x.flags % 2 ^ 16 * 2 ^ 16 + x.snap % 2 ^ 32 * 2 ^ 32) ∧
    s.readWord (w + 56) = 0) ∧
  (∀ (s : State) (r : Nat),
    ((s.updateStatus r).ring r).flags = (if s.fenced then 1 else 0) + (if s.drained r then 2 else 0) + (if s.ringEn r then 4 else 0)) ∧
  ∀ (s : State) (src : Source) (r off len : Nat) (data : Word), r < 64 → 0x0021000 + 64 * r ≤ off → off < 0x0021040 + 64 * r →
    Completes (.registerWrite src off len data) s fun t => t.rings = s.rings ∧ t.cmds = s.cmds

/-- COMMAND_START under checks 4 to 6 of R456, with the tag and the counters of R466 to R468.
Rests on log entries 37, 38. -/
def Obligations.CommandsAreCheckedWhenTheyStart : Prop :=
  ∀ s : State,
    (∀ (r seq : Nat) (c : Cmd), s.cmd r seq = some c → c.ring ≠ mgmtRing → c.stage = .consumed → s.mayStart c = true → opcodeCritical c.opcode =
      true → s.nv.ock = none → exec (.commandStart r seq) s = .next ((s.count CMD_CRITERR_BADTAG).refuse c stBADTAG)) ∧
    (∀ (r seq : Nat) (c : Cmd) (k : Bytes), s.cmd r seq = some c → c.ring ≠ mgmtRing → c.stage = .consumed → s.mayStart c = true → opcodeCritical
      c.opcode = true → s.nv.ock = some k → kmac256 k (s.ringTagMessage c) 16 "PN-880 ring" ≠ bytesAt c.entry 240 16 → exec (.commandStart r seq) s
      = .next ((s.count CMD_CRITERR_BADTAG).refuse c stBADTAG)) ∧
    (∀ (r seq : Nat) (c : Cmd) (k : Bytes), s.cmd r seq = some c → c.ring ≠ mgmtRing → c.stage = .consumed → s.mayStart c = true → opcodeCritical
      c.opcode = true → s.nv.ock = some k → kmac256 k (s.ringTagMessage c) 16 "PN-880 ring" = bytesAt c.entry 240 16 → c.counter ≤ s.lastCounter 0 →
      exec (.commandStart r seq) s = .next ((s.count CMD_CRITERR_BADCTR).refuse c stBADCOUNTER)) ∧
    (∀ (r seq : Nat) (c : Cmd) (k : Bytes), s.cmd r seq = some c → c.ring ≠ mgmtRing → c.stage = .consumed → s.mayStart c = true → opcodeCritical
      c.opcode = true → s.nv.ock = some k → kmac256 k (s.ringTagMessage c) 16 "PN-880 ring" = bytesAt c.entry 240 16 → s.lastCounter 0 < c.counter →
      s.nv.marks.length = 3 → s.criticalBusy = false → 64 ≤ c.reslen → Completes (.commandStart r seq) s fun t => t = (s.spendCounter 0
      c.counter).setCmd { c with accepted := true, stage := .running, since := s.clock.mono } ∧ t.lastCounter 0 = c.counter ∧ c.counter ≤
      t.nv.marks.getD 0 0) ∧
    (∀ (r seq : Nat) (c : Cmd) (k : Bytes), s.cmd r seq = some c → c.ring ≠ mgmtRing → c.stage = .consumed → s.mayStart c = true → opcodeCritical
      c.opcode = true → s.nv.ock = some k → kmac256 k (s.ringTagMessage c) 16 "PN-880 ring" = bytesAt c.entry 240 16 → s.lastCounter 0 < c.counter →
      s.criticalBusy = true → exec (.commandStart r seq) s = .next ((s.spendCounter 0 c.counter).refuse { c with accepted := true } stBUSY)) ∧
    (∀ (r seq : Nat) (c : Cmd) (k : Bytes), s.cmd r seq = some c → c.ring ≠ mgmtRing → c.stage = .consumed → s.mayStart c = true → opcodeCritical
      c.opcode = true → s.nv.ock = some k → kmac256 k (s.ringTagMessage c) 16 "PN-880 ring" = bytesAt c.entry 240 16 → s.lastCounter 0 < c.counter →
      s.criticalBusy = false → c.reslen < 64 → exec (.commandStart r seq) s = .next (((s.spendCounter 0 c.counter).count MEM_BUFSHORT_COUNT).refuse
      { c with accepted := true } stBUFFERSHORT)) ∧
    (∀ (r seq : Nat) (c : Cmd), s.cmd r seq = some c → c.ring ≠ mgmtRing → c.stage = .consumed → s.mayStart c = true → opcodeCritical c.opcode =
      false → s.sliceInService c.slice = false → exec (.commandStart r seq) s = .next (s.refuse { c with accepted := false } stSLICEGONE)) ∧
    (∀ (r seq : Nat) (c : Cmd), s.cmd r seq = some c → c.ring ≠ mgmtRing → c.stage = .consumed → s.mayStart c = true → opcodeCritical c.opcode =
      false → s.sliceInService c.slice = true → c.reslen < 64 → exec (.commandStart r seq) s = .next ((s.count MEM_BUFSHORT_COUNT).refuse
      { c with accepted := false } stBUFFERSHORT))

/-- The header of Table 13-2 in both directions (R397): no field and no bit is dropped, HOPS apart, which a source sets to 8. -/
def Obligations.PacketHeadersLoseNothing : Prop :=
  (∀ p : Pkt, p.op < 2 ^ 8 → p.tc < 2 ^ 4 → p.asize < 2 ^ 8 → p.dst < 2 ^ 17 → p.src < 2 ^ 17 → p.job < 2 ^ 16 → p.epoch < 2 ^ 32 →
    p.offset < 2 ^ 40 → p.seqn < 2 ^ 24 → p.ctx < 2 ^ 16 → p.len < 2 ^ 16 → p.status < 2 ^ 16 → Pkt.ofBytes p.bytes = p) ∧
  ∀ b : Bytes, pktOk b = true → (Pkt.ofBytes b).bytes = b.take 2 ++ [8] ++ b.drop 3

/-- R595 and Table 20-11 over the ball map of R591 to R594. -/
def Obligations.BallsAreCountedByGroup : Prop :=
  countBalls (fun _ _ => true) = 7980 ∧
  ((List.range 7).map fun g => countBalls fun b _ => b.group == g) = [48, 2304, 2336, 128, 44, 3080, 40] ∧
  ([0, 1, 2, 3].map fun d => countBalls fun b c => b.unconnectedOnH c && blockDie c == d) = [0, 0, 1194, 1194] ∧
  ∀ col : Nat, Ball.vin50.unconnectedOnH col = false ∧ Ball.gnd.unconnectedOnH col = false

/-- R592 and Table 20-8. -/
def Obligations.NandTilesLieWhereTheirChannelPutsThem : Prop :=
  (((List.range 6).map fun r => (List.range 8).map (nandTile r)) =
    [[some (.dq 0), some (.dq 1), none, some .dqsT, some .dqsC, none, some (.dq 2), some (.dq 3)],
     [some (.dq 4), some (.dq 5), none, some .reT, some .reC, none, some (.dq 6), some (.dq 7)],
     [some .weN, some .cle, some .ale, some .wpN, none, some (.rbN 0), some (.rbN 1), some (.rbN 2)],
     [some (.rbN 3), some (.ceN 0), some (.ceN 1), some (.ceN 2), none, some (.ceN 3), some (.ceN 4), some (.ceN 5)],
     [some (.ceN 6), some (.ceN 7), some (.ceN 8), some (.ceN 9), none, some (.ceN 10), some (.ceN 11), some (.ceN 12)],
     [some (.ceN 13), some (.ceN 14), some (.ceN 15), none, none, none, none, none]]) ∧
  (((List.range 6).flatMap fun r => (List.range 8).filterMap (nandTile r)).length = 36) ∧
  (∀ n r u : Nat, n < 64 → r < 6 → u < 8 →
    ballAt (6 * (n % 16 / 4) + r) (blockBase (n / 16) + 8 * (n % 16 % 4) + u) = (nandTile r u).elim .gnd (.nand n)) ∧
  ∀ row d u : Nat, row < 24 → d < 4 → 32 ≤ u → u < 35 → ballAt row (blockBase d + u) = .gnd
end

