-- ==== Sys2Proof/Laws/Bytes.lean ====
section
/-! SUPPORT. Little-endian bytes: their length, what they read back as, and reading them out of a longer string. -/

namespace Sys2Proof.Machine

@[simp] theorem leBytes_length (n v : Nat) : (leBytes n v).length = n := by
  induction n generalizing v with
  | zero => rfl
  | succ n ih => simp [leBytes, ih]

theorem leNat_leBytes (n v : Nat) : leNat (leBytes n v) = v % 256 ^ n := by
  induction n generalizing v with
  | zero => simp [leBytes, leNat, Nat.mod_one]
  | succ n ih => rw [leBytes, leNat, ih, Nat.pow_succ', Nat.mod_mul]; simp

theorem leAt_append (a b : Bytes) (n v : Nat) (k : Bytes) (h : b = leBytes n v ++ k) : leAt (a ++ b) a.length n = v % 256 ^ n := by
  subst h
  unfold leAt bytesAt
  simp [List.take_left' (leBytes_length n v), leBytes_length, leNat_leBytes]

end Sys2Proof.Machine
end

