-- ==== Sys2Proof/Laws/Crypto.lean ====
section
/-! SUPPORT. The length of a tag, and what makes a control packet of the fabric or a management message pass its checks. -/

namespace Sys2Proof.Machine

/-- A round leaves 25 lanes. -/
theorem keccakRound_length (a : List Word) (rc : Word) : (keccakRound a rc).length = 25 := by
  unfold keccakRound
  simp only
  split
  · rename_i l r h
    have := congrArg List.length h
    simp at this ⊢
    omega
  · rename_i h
    have := congrArg List.length h
    simp at this

/-- So do rounds on 25 lanes. -/
theorem foldl_round_length (l : List Word) (a : List Word) (h : a.length = 25) : (l.foldl keccakRound a).length = 25 := by
  induction l generalizing a with
  | nil => exact h
  | cons x l ih => exact ih _ (keccakRound_length a x)

/-- So does the absorption of blocks. -/
theorem absorb_length (l : List Bytes) (a : List Word) (h : a.length = 25) :
    (l.foldl (fun a b => keccakF (keccakXor a b)) a).length = 25 := by
  induction l generalizing a with
  | nil => exact h
  | cons x l ih =>
    refine ih _ (foldl_round_length _ _ ?_)
    simp [keccakXor]

theorem flatMap_eight_length (l : List Word) : (l.flatMap fun w => leBytes 8 w.toNat).length = 8 * l.length := by
  induction l with
  | nil => rfl
  | cons x l ih => simp [List.flatMap_cons, leBytes_length] at ih ⊢; omega

/-- A tag of 16 bytes has 16 bytes. -/
theorem kmac_length (k x : Bytes) (c : String) : (kmac256 k x 16 c).length = 16 := by
  unfold kmac256 keccakSponge
  simp only [keccakRate]
  generalize hm : bytepad (encodeString (ascii "KMAC") ++ encodeString (ascii c)) ++ bytepad (encodeString k) ++ x ++ rightEncode (8 * 16) = m
  have hl : ∀ l, (keccakAbsorb l).length = 25 := fun l => absorb_length l _ (by simp)
  show (keccakSqueeze (16 / 136 + 1) _ 16).length = 16
  rw [show 16 / 136 + 1 = 1 from rfl, keccakSqueeze]
  simp only [keccakRate, show 16 ≤ 136 from by decide, if_true]
  rw [List.length_take, flatMap_eight_length, List.length_take, hl]
  rfl

/-- A control packet whose tag is right under the device's key, and whose counter is later, is accepted. -/
theorem criticalPacket_tagged (s : State) (k h body : Bytes) (hk : s.nv.ock = some k) (h28 : (h.take 28).length = 28) (h30 : (h.drop 30).length = 2)
    (hh : h = h.take 28 ++ [0, 0] ++ h.drop 30) (hb : 8 ≤ body.length) (hc : s.lastCounter 1 < leAt body 0 8) :
    s.criticalPacket (h ++ (body ++ kmac256 k (h ++ body) 16 "PN-880 fabric")) = (none, s.spendCounter 1 (leAt body 0 8)) := by
  have hT := kmac_length k (h ++ body) "PN-880 fabric"
  generalize hg : kmac256 k (h ++ body) 16 "PN-880 fabric" = T at *
  have hl : h.length = 32 := by rw [hh]; simp only [List.length_append, h28, h30, List.length_cons, List.length_nil]
  have hd : (h ++ (body ++ T)).drop 32 = body ++ T := List.drop_left' hl
  have hm : controlMessage (h ++ (body ++ T)) = h ++ body := by
    unfold controlMessage
    simp only
    rw [hd]
    have e1 : (h ++ (body ++ T)).take 28 = h.take 28 := by rw [List.take_append_of_le_length (by omega)]
    have e2 : bytesAt (h ++ (body ++ T)) 30 2 = h.drop 30 := by
      unfold bytesAt
      simp only
      rw [List.drop_append_of_le_length (by omega), List.take_left' h30, h30]
      simp
    have e3 : (body ++ T).take ((body ++ T).length - 16) = body := by
      rw [List.length_append, hT, Nat.add_sub_cancel]; exact List.take_left' rfl
    rw [e1, e2, e3, ← hh]
  have ht : (body ++ T).drop ((body ++ T).length - 16) = T := by
    rw [List.length_append, hT, Nat.add_sub_cancel]; exact List.drop_left' rfl
  have hq : leAt (body ++ T) 0 8 = leAt body 0 8 := by
    unfold leAt bytesAt
    simp only [List.drop_zero]
    rw [List.take_append_of_le_length hb]
  unfold State.criticalPacket State.critical
  simp only [hd, hm, ht, hk, hq, hg]
  simp [Nat.not_le.mpr hc]

/-- A management message whose tag is right under the device's key, and whose counter is later, may act. -/
theorem receive_tagged (s : State) (k m : Bytes) (hk : s.nv.ock = some k)
    (ho : msgOk (m ++ kmac256 k m 16 "PN-880 management") = true) (ht : msgTagged (msgType (m ++ kmac256 k m 16 "PN-880 management")) = true)
    (hc : (s.setFld STM_MGMT_LINK 1).lastCounter 2 < leAt (m ++ kmac256 k m 16 "PN-880 management") 16 8) :
    s.receive (m ++ kmac256 k m 16 "PN-880 management") =
      (true, (s.setFld STM_MGMT_LINK 1).spendCounter 2 (leAt (m ++ kmac256 k m 16 "PN-880 management") 16 8)) := by
  have hT := kmac_length k m "PN-880 management"
  generalize hg : kmac256 k m 16 "PN-880 management" = T at *
  have h1 : (m ++ T).take ((m ++ T).length - 16) = m := by
    rw [List.length_append, hT, Nat.add_sub_cancel]; exact List.take_left' rfl
  have h2 : (m ++ T).drop ((m ++ T).length - 16) = T := by
    rw [List.length_append, hT, Nat.add_sub_cancel]; exact List.drop_left' rfl
  have hk' : (s.setFld STM_MGMT_LINK 1).nv.ock = some k := hk
  unfold State.receive State.critical
  simp only [ho, ht, h1, h2, hk', hg]
  simp [Nat.not_le.mpr hc]

end Sys2Proof.Machine
end

