-- ==== Sys2Proof/Laws/Memory.lean ====
section
/-! SUPPORT. The laws of the keyed tables and the byte memories: a read after a write, and the canonical form that every operation keeps. -/

namespace Sys2Proof.Machine

variable {α : Type}

/-- A read of the key just written gives the value written. -/
@[simp] theorem mapGet_mapSet_same (m : KMap α) (k : Nat) (v : α) : mapGet (mapSet m k v) k = some v := by
  induction m with
  | nil => simp [mapSet, mapGet]
  | cons e m ih => grind [mapSet, mapGet]

/-- A write leaves every other key alone. -/
theorem mapGet_mapSet_other (m : KMap α) {k j : Nat} (v : α) (h : j ≠ k) : mapGet (mapSet m k v) j = mapGet m j := by
  induction m with
  | nil => grind [mapSet, mapGet]
  | cons e m ih => grind [mapSet, mapGet]

/-- The keys of `m` all lie above `j`. -/
def mapAbove (j : Nat) (m : KMap α) : Prop := ∀ e ∈ m, j < e.1

/-- A table is canonical when its head's key lies below the rest and the rest is canonical. -/
theorem mapWf_cons (j : Nat) (v : α) (m : KMap α) : mapWf ((j, v) :: m) = true ↔ mapAbove j m ∧ mapWf m = true := by
  induction m generalizing j v with
  | nil => simp [mapWf, mapAbove]
  | cons e m ih =>
    obtain ⟨k, w⟩ := e
    simp only [mapWf, Bool.and_eq_true, decide_eq_true_eq, mapAbove, List.mem_cons, forall_eq_or_imp]
    constructor
    · rintro ⟨h, hw⟩
      have := (ih k w).1 hw
      exact ⟨⟨h, fun e he => Nat.lt_trans h (this.1 e he)⟩, hw⟩
    · rintro ⟨⟨h, _⟩, hw⟩
      exact ⟨h, hw⟩

theorem mapSet_above {j k : Nat} (m : KMap α) (v : α) (h : mapAbove j m) (hk : j < k) : mapAbove j (mapSet m k v) := by
  induction m with
  | nil => simp [mapSet, mapAbove, hk]
  | cons e m ih => grind [mapSet, mapAbove]

theorem mapErase_above {j : Nat} (m : KMap α) (k : Nat) (h : mapAbove j m) : mapAbove j (mapErase m k) := by
  induction m with
  | nil => simp [mapErase, mapAbove]
  | cons e m ih => grind [mapErase, mapAbove]

/-- A write keeps a table's keys strictly rising. -/
theorem mapSet_wf (m : KMap α) (k : Nat) (v : α) (h : mapWf m = true) : mapWf (mapSet m k v) = true := by
  induction m with
  | nil => rfl
  | cons e m ih =>
    obtain ⟨j, w⟩ := e
    have hm := (mapWf_cons j w m).1 h
    simp only [mapSet]
    split
    · rename_i hk; subst hk; exact (mapWf_cons _ _ _).2 hm
    · split
      · rename_i hlt
        exact (mapWf_cons _ _ _).2 ⟨fun e he => by
          rcases List.mem_cons.1 he with rfl | he
          · exact hlt
          · exact Nat.lt_trans hlt (hm.1 e he), h⟩
      · exact (mapWf_cons _ _ _).2 ⟨mapSet_above m v hm.1 (by omega), ih hm.2⟩

/-- Erasing a key keeps a table's keys strictly rising. -/
theorem mapErase_wf (m : KMap α) (k : Nat) (h : mapWf m = true) : mapWf (mapErase m k) = true := by
  induction m with
  | nil => rfl
  | cons e m ih =>
    obtain ⟨j, w⟩ := e
    have hm := (mapWf_cons j w m).1 h
    simp only [mapErase]
    split
    · exact hm.2
    · split
      · exact h
      · exact (mapWf_cons _ _ _).2 ⟨mapErase_above m k hm.1, ih hm.2⟩

/-- A filtered table keeps its keys strictly rising. -/
theorem mapWf_filter (m : KMap α) (p : Nat × α → Bool) (h : mapWf m = true) : mapWf (m.filter p) = true := by
  induction m with
  | nil => rfl
  | cons e m ih =>
    obtain ⟨j, w⟩ := e
    have hm := (mapWf_cons j w m).1 h
    by_cases hp : p (j, w) = true
    · rw [List.filter_cons_of_pos hp]
      exact (mapWf_cons _ _ _).2 ⟨fun e he => hm.1 e (List.mem_filter.1 he).1, ih hm.2⟩
    · rw [List.filter_cons_of_neg hp]
      exact ih hm.2

theorem mem_mapSet {m : KMap α} {k : Nat} {v : α} {e : Nat × α} (h : e ∈ mapSet m k v) : e = (k, v) ∨ e ∈ m := by
  induction m with
  | nil => simpa [mapSet] using h
  | cons d m ih => grind [mapSet]

theorem mem_mapErase {m : KMap α} {k : Nat} {e : Nat × α} (h : e ∈ mapErase m k) : e ∈ m := by
  induction m with
  | nil => simp [mapErase] at h
  | cons d m ih => grind [mapErase]

/-- A byte written keeps the canonical form of a memory. -/
theorem memSet_wf (m : Mem) (a : Nat) (b : Byte) (h : Memory.wf m = true) : Memory.wf (memSet m a b) = true := by
  simp only [Memory.wf, Bool.and_eq_true, List.all_eq_true, decide_eq_true_eq] at h ⊢
  unfold memSet
  split
  · exact ⟨mapErase_wf m a h.1, fun c hc => h.2 c (mem_mapErase hc)⟩
  · rename_i hb
    refine ⟨mapSet_wf m a b h.1, fun c hc => ?_⟩
    rcases mem_mapSet hc with rfl | hc
    · exact hb
    · exact h.2 c hc

/-- Bytes written keep the canonical form of a memory. -/
theorem memWrite_wf (m : Mem) (a : Nat) (bs : Bytes) (h : Memory.wf m = true) : Memory.wf (memWrite m a bs) = true := by
  induction bs generalizing m a with
  | nil => exact h
  | cons b bs ih => exact ih _ _ (memSet_wf m a b h)

/-- Zeroed bytes keep the canonical form of a memory. -/
theorem memZero_wf (m : Mem) (a n : Nat) (h : Memory.wf m = true) : Memory.wf (memZero m a n) = true := by
  simp only [Memory.wf, Bool.and_eq_true, List.all_eq_true, decide_eq_true_eq] at h ⊢
  exact ⟨mapWf_filter m _ h.1, fun c hc => h.2 c (List.mem_filter.1 hc).1⟩

/-- A memory with nothing listed is canonical. -/
@[simp] theorem memory_nil_wf : Memory.wf [] = true := rfl

/-- The ring region is canonical at reset. -/
theorem reset_ringMem_wf : Memory.wf State.reset.ringMem = true := rfl

theorem mapGet_mapErase_other (m : KMap α) {k j : Nat} (h : j ≠ k) (hw : mapWf m = true) : mapGet (mapErase m k) j = mapGet m j := by
  induction m with
  | nil => rfl
  | cons e m ih =>
    obtain ⟨i, w⟩ := e
    have hm := (mapWf_cons i w m).1 hw
    have hnone : ∀ (l : KMap α), mapAbove i l → j < i → mapGet l j = none := by
      intro l hl hji
      cases l with
      | nil => rfl
      | cons d l =>
        have := hl d (by simp)
        obtain ⟨x, y⟩ := d
        grind [mapGet]
    grind [mapErase, mapGet]

theorem mapGet_mapErase_same (m : KMap α) (k : Nat) (hw : mapWf m = true) : mapGet (mapErase m k) k = none := by
  induction m with
  | nil => rfl
  | cons e m ih =>
    obtain ⟨i, w⟩ := e
    have hm := (mapWf_cons i w m).1 hw
    have hnone : ∀ (l : KMap α), mapAbove k l → mapGet l k = none := by
      intro l hl
      cases l with
      | nil => rfl
      | cons d l =>
        have := hl d (by simp)
        obtain ⟨x, y⟩ := d
        grind [mapGet]
    by_cases hi : k = i
    · subst hi; simp [mapErase, hnone m hm.1]
    · grind [mapErase, mapGet]

/-- A byte read at the address just written gives the byte written. -/
theorem memGet_memSet_same (m : Mem) (a : Nat) (b : Byte) (hw : Memory.wf m = true) : memGet (memSet m a b) a = b := by
  simp only [Memory.wf, Bool.and_eq_true] at hw
  unfold memGet memSet mapGetD
  split
  · rename_i hb; rw [mapGet_mapErase_same m a hw.1, hb]; rfl
  · simp

/-- A byte written leaves every other address alone. -/
theorem memGet_memSet_other (m : Mem) {a c : Nat} (b : Byte) (h : c ≠ a) (hw : Memory.wf m = true) : memGet (memSet m a b) c = memGet m c := by
  simp only [Memory.wf, Bool.and_eq_true] at hw
  unfold memGet memSet mapGetD
  split
  · rw [mapGet_mapErase_other m h hw.1]
  · rw [mapGet_mapSet_other m b h]

/-- Bytes written leave every address below and above them alone. -/
theorem memGet_memWrite_other (m : Mem) (a : Nat) (bs : Bytes) (c : Nat) (h : c < a ∨ a + bs.length ≤ c) (hw : Memory.wf m = true) :
    memGet (memWrite m a bs) c = memGet m c := by
  induction bs generalizing m a with
  | nil => rfl
  | cons b bs ih =>
    simp only [List.length_cons] at h
    rw [memWrite, ih _ _ (by omega) (memSet_wf m a b hw), memGet_memSet_other m b (by omega) hw]

end Sys2Proof.Machine
end

