-- ==== Sys2Proof/Laws/State.lean ====
section
/-! SUPPORT. What each update of State leaves in each field, so that no proof unfolds a record update. -/

namespace Sys2Proof.Machine

-- ## State.setReg

section
variable (s : State) (n : RegName) (i j : Nat) (v : Word)

@[simp] theorem State.setReg_regs : (s.setReg n i j v).regs = mapSet s.regs (regOffset n i j) v := rfl
@[simp] theorem State.setReg_ringMem : (s.setReg n i j v).ringMem = s.ringMem := rfl
@[simp] theorem State.setReg_nv : (s.setReg n i j v).nv = s.nv := rfl
@[simp] theorem State.setReg_clock : (s.setReg n i j v).clock = s.clock := rfl
@[simp] theorem State.setReg_pins : (s.setReg n i j v).pins = s.pins := rfl
@[simp] theorem State.setReg_boot : (s.setReg n i j v).boot = s.boot := rfl
@[simp] theorem State.setReg_rings : (s.setReg n i j v).rings = s.rings := rfl
@[simp] theorem State.setReg_cmds : (s.setReg n i j v).cmds = s.cmds := rfl
@[simp] theorem State.setReg_stm : (s.setReg n i j v).stm = s.stm := rfl
@[simp] theorem State.setReg_counts : (s.setReg n i j v).counts = s.counts := rfl
@[simp] theorem State.setReg_allocs : (s.setReg n i j v).allocs = s.allocs := rfl
@[simp] theorem State.setReg_charges : (s.setReg n i j v).charges = s.charges := rfl
@[simp] theorem State.setReg_poison : (s.setReg n i j v).poison = s.poison := rfl
@[simp] theorem State.setReg_moves : (s.setReg n i j v).moves = s.moves := rfl
@[simp] theorem State.setReg_tierAge : (s.setReg n i j v).tierAge = s.tierAge := rfl
@[simp] theorem State.setReg_tierCfg : (s.setReg n i j v).tierCfg = s.tierCfg := rfl
@[simp] theorem State.setReg_pageUnits : (s.setReg n i j v).pageUnits = s.pageUnits := rfl
@[simp] theorem State.setReg_consists : (s.setReg n i j v).consists = s.consists := rfl
@[simp] theorem State.setReg_runs : (s.setReg n i j v).runs = s.runs := rfl
@[simp] theorem State.setReg_frames : (s.setReg n i j v).frames = s.frames := rfl
@[simp] theorem State.setReg_calls : (s.setReg n i j v).calls = s.calls := rfl
@[simp] theorem State.setReg_zruns : (s.setReg n i j v).zruns = s.zruns := rfl
@[simp] theorem State.setReg_nextId : (s.setReg n i j v).nextId = s.nextId := rfl
@[simp] theorem State.setReg_indexes : (s.setReg n i j v).indexes = s.indexes := rfl
@[simp] theorem State.setReg_stores : (s.setReg n i j v).stores = s.stores := rfl
@[simp] theorem State.setReg_queries : (s.setReg n i j v).queries = s.queries := rfl
@[simp] theorem State.setReg_tables : (s.setReg n i j v).tables = s.tables := rfl
@[simp] theorem State.setReg_seqs : (s.setReg n i j v).seqs = s.seqs := rfl
@[simp] theorem State.setReg_depots : (s.setReg n i j v).depots = s.depots := rfl
@[simp] theorem State.setReg_owns : (s.setReg n i j v).owns = s.owns := rfl
@[simp] theorem State.setReg_timetables : (s.setReg n i j v).timetables = s.timetables := rfl
@[simp] theorem State.setReg_jobs : (s.setReg n i j v).jobs = s.jobs := rfl
@[simp] theorem State.setReg_fab : (s.setReg n i j v).fab = s.fab := rfl
@[simp] theorem State.setReg_ports : (s.setReg n i j v).ports = s.ports := rfl
@[simp] theorem State.setReg_policers : (s.setReg n i j v).policers = s.policers := rfl
@[simp] theorem State.setReg_cclOut : (s.setReg n i j v).cclOut = s.cclOut := rfl
@[simp] theorem State.setReg_mgmtOut : (s.setReg n i j v).mgmtOut = s.mgmtOut := rfl
@[simp] theorem State.setReg_jtagOut : (s.setReg n i j v).jtagOut = s.jtagOut := rfl
@[simp] theorem State.setReg_freeCtr : (s.setReg n i j v).freeCtr = s.freeCtr := rfl
@[simp] theorem State.setReg_pending : (s.setReg n i j v).pending = s.pending := rfl

end

-- ## State.setFld

section
variable (s : State) (f : FieldRef) (v i j : Nat)

@[simp] theorem State.setFld_regs : (s.setFld f v i j).regs = mapSet s.regs (regOffset f.reg i j) (BitVec.ofNat 64 (setBitsOf (s.reg f.reg i j).toNat f.lo f.width v)) := rfl
@[simp] theorem State.setFld_ringMem : (s.setFld f v i j).ringMem = s.ringMem := rfl
@[simp] theorem State.setFld_nv : (s.setFld f v i j).nv = s.nv := rfl
@[simp] theorem State.setFld_clock : (s.setFld f v i j).clock = s.clock := rfl
@[simp] theorem State.setFld_pins : (s.setFld f v i j).pins = s.pins := rfl
@[simp] theorem State.setFld_boot : (s.setFld f v i j).boot = s.boot := rfl
@[simp] theorem State.setFld_rings : (s.setFld f v i j).rings = s.rings := rfl
@[simp] theorem State.setFld_cmds : (s.setFld f v i j).cmds = s.cmds := rfl
@[simp] theorem State.setFld_stm : (s.setFld f v i j).stm = s.stm := rfl
@[simp] theorem State.setFld_counts : (s.setFld f v i j).counts = s.counts := rfl
@[simp] theorem State.setFld_allocs : (s.setFld f v i j).allocs = s.allocs := rfl
@[simp] theorem State.setFld_charges : (s.setFld f v i j).charges = s.charges := rfl
@[simp] theorem State.setFld_poison : (s.setFld f v i j).poison = s.poison := rfl
@[simp] theorem State.setFld_moves : (s.setFld f v i j).moves = s.moves := rfl
@[simp] theorem State.setFld_tierAge : (s.setFld f v i j).tierAge = s.tierAge := rfl
@[simp] theorem State.setFld_tierCfg : (s.setFld f v i j).tierCfg = s.tierCfg := rfl
@[simp] theorem State.setFld_pageUnits : (s.setFld f v i j).pageUnits = s.pageUnits := rfl
@[simp] theorem State.setFld_consists : (s.setFld f v i j).consists = s.consists := rfl
@[simp] theorem State.setFld_runs : (s.setFld f v i j).runs = s.runs := rfl
@[simp] theorem State.setFld_frames : (s.setFld f v i j).frames = s.frames := rfl
@[simp] theorem State.setFld_calls : (s.setFld f v i j).calls = s.calls := rfl
@[simp] theorem State.setFld_zruns : (s.setFld f v i j).zruns = s.zruns := rfl
@[simp] theorem State.setFld_nextId : (s.setFld f v i j).nextId = s.nextId := rfl
@[simp] theorem State.setFld_indexes : (s.setFld f v i j).indexes = s.indexes := rfl
@[simp] theorem State.setFld_stores : (s.setFld f v i j).stores = s.stores := rfl
@[simp] theorem State.setFld_queries : (s.setFld f v i j).queries = s.queries := rfl
@[simp] theorem State.setFld_tables : (s.setFld f v i j).tables = s.tables := rfl
@[simp] theorem State.setFld_seqs : (s.setFld f v i j).seqs = s.seqs := rfl
@[simp] theorem State.setFld_depots : (s.setFld f v i j).depots = s.depots := rfl
@[simp] theorem State.setFld_owns : (s.setFld f v i j).owns = s.owns := rfl
@[simp] theorem State.setFld_timetables : (s.setFld f v i j).timetables = s.timetables := rfl
@[simp] theorem State.setFld_jobs : (s.setFld f v i j).jobs = s.jobs := rfl
@[simp] theorem State.setFld_fab : (s.setFld f v i j).fab = s.fab := rfl
@[simp] theorem State.setFld_ports : (s.setFld f v i j).ports = s.ports := rfl
@[simp] theorem State.setFld_policers : (s.setFld f v i j).policers = s.policers := rfl
@[simp] theorem State.setFld_cclOut : (s.setFld f v i j).cclOut = s.cclOut := rfl
@[simp] theorem State.setFld_mgmtOut : (s.setFld f v i j).mgmtOut = s.mgmtOut := rfl
@[simp] theorem State.setFld_jtagOut : (s.setFld f v i j).jtagOut = s.jtagOut := rfl
@[simp] theorem State.setFld_freeCtr : (s.setFld f v i j).freeCtr = s.freeCtr := rfl
@[simp] theorem State.setFld_pending : (s.setFld f v i j).pending = s.pending := rfl

end

-- ## State.count

section
variable (s : State) (f : FieldRef) (k i j : Nat)

@[simp] theorem State.count_ringMem : (s.count f k i j).ringMem = s.ringMem := rfl
@[simp] theorem State.count_nv : (s.count f k i j).nv = s.nv := rfl
@[simp] theorem State.count_clock : (s.count f k i j).clock = s.clock := rfl
@[simp] theorem State.count_pins : (s.count f k i j).pins = s.pins := rfl
@[simp] theorem State.count_boot : (s.count f k i j).boot = s.boot := rfl
@[simp] theorem State.count_rings : (s.count f k i j).rings = s.rings := rfl
@[simp] theorem State.count_cmds : (s.count f k i j).cmds = s.cmds := rfl
@[simp] theorem State.count_stm : (s.count f k i j).stm = s.stm := rfl
@[simp] theorem State.count_counts : (s.count f k i j).counts = s.counts := rfl
@[simp] theorem State.count_allocs : (s.count f k i j).allocs = s.allocs := rfl
@[simp] theorem State.count_charges : (s.count f k i j).charges = s.charges := rfl
@[simp] theorem State.count_poison : (s.count f k i j).poison = s.poison := rfl
@[simp] theorem State.count_moves : (s.count f k i j).moves = s.moves := rfl
@[simp] theorem State.count_tierAge : (s.count f k i j).tierAge = s.tierAge := rfl
@[simp] theorem State.count_tierCfg : (s.count f k i j).tierCfg = s.tierCfg := rfl
@[simp] theorem State.count_pageUnits : (s.count f k i j).pageUnits = s.pageUnits := rfl
@[simp] theorem State.count_consists : (s.count f k i j).consists = s.consists := rfl
@[simp] theorem State.count_runs : (s.count f k i j).runs = s.runs := rfl
@[simp] theorem State.count_frames : (s.count f k i j).frames = s.frames := rfl
@[simp] theorem State.count_calls : (s.count f k i j).calls = s.calls := rfl
@[simp] theorem State.count_zruns : (s.count f k i j).zruns = s.zruns := rfl
@[simp] theorem State.count_nextId : (s.count f k i j).nextId = s.nextId := rfl
@[simp] theorem State.count_indexes : (s.count f k i j).indexes = s.indexes := rfl
@[simp] theorem State.count_stores : (s.count f k i j).stores = s.stores := rfl
@[simp] theorem State.count_queries : (s.count f k i j).queries = s.queries := rfl
@[simp] theorem State.count_tables : (s.count f k i j).tables = s.tables := rfl
@[simp] theorem State.count_seqs : (s.count f k i j).seqs = s.seqs := rfl
@[simp] theorem State.count_depots : (s.count f k i j).depots = s.depots := rfl
@[simp] theorem State.count_owns : (s.count f k i j).owns = s.owns := rfl
@[simp] theorem State.count_timetables : (s.count f k i j).timetables = s.timetables := rfl
@[simp] theorem State.count_jobs : (s.count f k i j).jobs = s.jobs := rfl
@[simp] theorem State.count_fab : (s.count f k i j).fab = s.fab := rfl
@[simp] theorem State.count_ports : (s.count f k i j).ports = s.ports := rfl
@[simp] theorem State.count_policers : (s.count f k i j).policers = s.policers := rfl
@[simp] theorem State.count_cclOut : (s.count f k i j).cclOut = s.cclOut := rfl
@[simp] theorem State.count_mgmtOut : (s.count f k i j).mgmtOut = s.mgmtOut := rfl
@[simp] theorem State.count_jtagOut : (s.count f k i j).jtagOut = s.jtagOut := rfl
@[simp] theorem State.count_freeCtr : (s.count f k i j).freeCtr = s.freeCtr := rfl
@[simp] theorem State.count_pending : (s.count f k i j).pending = s.pending := rfl

end

-- ## State.setPhase

section
variable (s : State) (p : Nat)

@[simp] theorem State.setPhase_ringMem : (s.setPhase p).ringMem = s.ringMem := rfl
@[simp] theorem State.setPhase_nv : (s.setPhase p).nv = s.nv := rfl
@[simp] theorem State.setPhase_clock : (s.setPhase p).clock = s.clock := rfl
@[simp] theorem State.setPhase_pins : (s.setPhase p).pins = s.pins := rfl
@[simp] theorem State.setPhase_rings : (s.setPhase p).rings = s.rings := rfl
@[simp] theorem State.setPhase_cmds : (s.setPhase p).cmds = s.cmds := rfl
@[simp] theorem State.setPhase_stm : (s.setPhase p).stm = s.stm := rfl
@[simp] theorem State.setPhase_counts : (s.setPhase p).counts = s.counts := rfl
@[simp] theorem State.setPhase_allocs : (s.setPhase p).allocs = s.allocs := rfl
@[simp] theorem State.setPhase_charges : (s.setPhase p).charges = s.charges := rfl
@[simp] theorem State.setPhase_poison : (s.setPhase p).poison = s.poison := rfl
@[simp] theorem State.setPhase_moves : (s.setPhase p).moves = s.moves := rfl
@[simp] theorem State.setPhase_tierAge : (s.setPhase p).tierAge = s.tierAge := rfl
@[simp] theorem State.setPhase_tierCfg : (s.setPhase p).tierCfg = s.tierCfg := rfl
@[simp] theorem State.setPhase_pageUnits : (s.setPhase p).pageUnits = s.pageUnits := rfl
@[simp] theorem State.setPhase_consists : (s.setPhase p).consists = s.consists := rfl
@[simp] theorem State.setPhase_runs : (s.setPhase p).runs = s.runs := rfl
@[simp] theorem State.setPhase_frames : (s.setPhase p).frames = s.frames := rfl
@[simp] theorem State.setPhase_calls : (s.setPhase p).calls = s.calls := rfl
@[simp] theorem State.setPhase_zruns : (s.setPhase p).zruns = s.zruns := rfl
@[simp] theorem State.setPhase_nextId : (s.setPhase p).nextId = s.nextId := rfl
@[simp] theorem State.setPhase_indexes : (s.setPhase p).indexes = s.indexes := rfl
@[simp] theorem State.setPhase_stores : (s.setPhase p).stores = s.stores := rfl
@[simp] theorem State.setPhase_queries : (s.setPhase p).queries = s.queries := rfl
@[simp] theorem State.setPhase_tables : (s.setPhase p).tables = s.tables := rfl
@[simp] theorem State.setPhase_seqs : (s.setPhase p).seqs = s.seqs := rfl
@[simp] theorem State.setPhase_depots : (s.setPhase p).depots = s.depots := rfl
@[simp] theorem State.setPhase_owns : (s.setPhase p).owns = s.owns := rfl
@[simp] theorem State.setPhase_timetables : (s.setPhase p).timetables = s.timetables := rfl
@[simp] theorem State.setPhase_jobs : (s.setPhase p).jobs = s.jobs := rfl
@[simp] theorem State.setPhase_fab : (s.setPhase p).fab = s.fab := rfl
@[simp] theorem State.setPhase_ports : (s.setPhase p).ports = s.ports := rfl
@[simp] theorem State.setPhase_policers : (s.setPhase p).policers = s.policers := rfl
@[simp] theorem State.setPhase_cclOut : (s.setPhase p).cclOut = s.cclOut := rfl
@[simp] theorem State.setPhase_mgmtOut : (s.setPhase p).mgmtOut = s.mgmtOut := rfl
@[simp] theorem State.setPhase_jtagOut : (s.setPhase p).jtagOut = s.jtagOut := rfl
@[simp] theorem State.setPhase_freeCtr : (s.setPhase p).freeCtr = s.freeCtr := rfl
@[simp] theorem State.setPhase_pending : (s.setPhase p).pending = s.pending := rfl

end

-- ## State.tick

section
variable (s : State) (dt : Nat)

@[simp] theorem State.tick_regs : (s.tick dt).regs = s.regs := rfl
@[simp] theorem State.tick_ringMem : (s.tick dt).ringMem = s.ringMem := rfl
@[simp] theorem State.tick_nv : (s.tick dt).nv = s.nv := rfl
@[simp] theorem State.tick_pins : (s.tick dt).pins = s.pins := rfl
@[simp] theorem State.tick_boot : (s.tick dt).boot = s.boot := rfl
@[simp] theorem State.tick_rings : (s.tick dt).rings = s.rings := rfl
@[simp] theorem State.tick_cmds : (s.tick dt).cmds = s.cmds := rfl
@[simp] theorem State.tick_stm : (s.tick dt).stm = s.stm := rfl
@[simp] theorem State.tick_counts : (s.tick dt).counts = s.counts := rfl
@[simp] theorem State.tick_allocs : (s.tick dt).allocs = s.allocs := rfl
@[simp] theorem State.tick_charges : (s.tick dt).charges = s.charges := rfl
@[simp] theorem State.tick_poison : (s.tick dt).poison = s.poison := rfl
@[simp] theorem State.tick_moves : (s.tick dt).moves = s.moves := rfl
@[simp] theorem State.tick_tierAge : (s.tick dt).tierAge = s.tierAge := rfl
@[simp] theorem State.tick_tierCfg : (s.tick dt).tierCfg = s.tierCfg := rfl
@[simp] theorem State.tick_pageUnits : (s.tick dt).pageUnits = s.pageUnits := rfl
@[simp] theorem State.tick_consists : (s.tick dt).consists = s.consists := rfl
@[simp] theorem State.tick_runs : (s.tick dt).runs = s.runs := rfl
@[simp] theorem State.tick_frames : (s.tick dt).frames = s.frames := rfl
@[simp] theorem State.tick_calls : (s.tick dt).calls = s.calls := rfl
@[simp] theorem State.tick_zruns : (s.tick dt).zruns = s.zruns := rfl
@[simp] theorem State.tick_nextId : (s.tick dt).nextId = s.nextId := rfl
@[simp] theorem State.tick_indexes : (s.tick dt).indexes = s.indexes := rfl
@[simp] theorem State.tick_stores : (s.tick dt).stores = s.stores := rfl
@[simp] theorem State.tick_queries : (s.tick dt).queries = s.queries := rfl
@[simp] theorem State.tick_tables : (s.tick dt).tables = s.tables := rfl
@[simp] theorem State.tick_seqs : (s.tick dt).seqs = s.seqs := rfl
@[simp] theorem State.tick_depots : (s.tick dt).depots = s.depots := rfl
@[simp] theorem State.tick_owns : (s.tick dt).owns = s.owns := rfl
@[simp] theorem State.tick_timetables : (s.tick dt).timetables = s.timetables := rfl
@[simp] theorem State.tick_jobs : (s.tick dt).jobs = s.jobs := rfl
@[simp] theorem State.tick_fab : (s.tick dt).fab = s.fab := rfl
@[simp] theorem State.tick_ports : (s.tick dt).ports = s.ports := rfl
@[simp] theorem State.tick_policers : (s.tick dt).policers = s.policers := rfl
@[simp] theorem State.tick_cclOut : (s.tick dt).cclOut = s.cclOut := rfl
@[simp] theorem State.tick_mgmtOut : (s.tick dt).mgmtOut = s.mgmtOut := rfl
@[simp] theorem State.tick_jtagOut : (s.tick dt).jtagOut = s.jtagOut := rfl
@[simp] theorem State.tick_freeCtr : (s.tick dt).freeCtr = s.freeCtr := rfl
@[simp] theorem State.tick_pending : (s.tick dt).pending = s.pending := rfl

end

-- ## State.setCmd

section
variable (s : State) (c : Cmd)

@[simp] theorem State.setCmd_regs : (s.setCmd c).regs = s.regs := rfl
@[simp] theorem State.setCmd_ringMem : (s.setCmd c).ringMem = s.ringMem := rfl
@[simp] theorem State.setCmd_nv : (s.setCmd c).nv = s.nv := rfl
@[simp] theorem State.setCmd_clock : (s.setCmd c).clock = s.clock := rfl
@[simp] theorem State.setCmd_pins : (s.setCmd c).pins = s.pins := rfl
@[simp] theorem State.setCmd_boot : (s.setCmd c).boot = s.boot := rfl
@[simp] theorem State.setCmd_rings : (s.setCmd c).rings = s.rings := rfl
@[simp] theorem State.setCmd_cmds : (s.setCmd c).cmds = mapSet s.cmds (cmdKey c.ring c.seq) c := rfl
@[simp] theorem State.setCmd_stm : (s.setCmd c).stm = s.stm := rfl
@[simp] theorem State.setCmd_counts : (s.setCmd c).counts = s.counts := rfl
@[simp] theorem State.setCmd_allocs : (s.setCmd c).allocs = s.allocs := rfl
@[simp] theorem State.setCmd_charges : (s.setCmd c).charges = s.charges := rfl
@[simp] theorem State.setCmd_poison : (s.setCmd c).poison = s.poison := rfl
@[simp] theorem State.setCmd_moves : (s.setCmd c).moves = s.moves := rfl
@[simp] theorem State.setCmd_tierAge : (s.setCmd c).tierAge = s.tierAge := rfl
@[simp] theorem State.setCmd_tierCfg : (s.setCmd c).tierCfg = s.tierCfg := rfl
@[simp] theorem State.setCmd_pageUnits : (s.setCmd c).pageUnits = s.pageUnits := rfl
@[simp] theorem State.setCmd_consists : (s.setCmd c).consists = s.consists := rfl
@[simp] theorem State.setCmd_runs : (s.setCmd c).runs = s.runs := rfl
@[simp] theorem State.setCmd_frames : (s.setCmd c).frames = s.frames := rfl
@[simp] theorem State.setCmd_calls : (s.setCmd c).calls = s.calls := rfl
@[simp] theorem State.setCmd_zruns : (s.setCmd c).zruns = s.zruns := rfl
@[simp] theorem State.setCmd_nextId : (s.setCmd c).nextId = s.nextId := rfl
@[simp] theorem State.setCmd_indexes : (s.setCmd c).indexes = s.indexes := rfl
@[simp] theorem State.setCmd_stores : (s.setCmd c).stores = s.stores := rfl
@[simp] theorem State.setCmd_queries : (s.setCmd c).queries = s.queries := rfl
@[simp] theorem State.setCmd_tables : (s.setCmd c).tables = s.tables := rfl
@[simp] theorem State.setCmd_seqs : (s.setCmd c).seqs = s.seqs := rfl
@[simp] theorem State.setCmd_depots : (s.setCmd c).depots = s.depots := rfl
@[simp] theorem State.setCmd_owns : (s.setCmd c).owns = s.owns := rfl
@[simp] theorem State.setCmd_timetables : (s.setCmd c).timetables = s.timetables := rfl
@[simp] theorem State.setCmd_jobs : (s.setCmd c).jobs = s.jobs := rfl
@[simp] theorem State.setCmd_fab : (s.setCmd c).fab = s.fab := rfl
@[simp] theorem State.setCmd_ports : (s.setCmd c).ports = s.ports := rfl
@[simp] theorem State.setCmd_policers : (s.setCmd c).policers = s.policers := rfl
@[simp] theorem State.setCmd_cclOut : (s.setCmd c).cclOut = s.cclOut := rfl
@[simp] theorem State.setCmd_mgmtOut : (s.setCmd c).mgmtOut = s.mgmtOut := rfl
@[simp] theorem State.setCmd_jtagOut : (s.setCmd c).jtagOut = s.jtagOut := rfl
@[simp] theorem State.setCmd_freeCtr : (s.setCmd c).freeCtr = s.freeCtr := rfl
@[simp] theorem State.setCmd_pending : (s.setCmd c).pending = s.pending := rfl

end

-- ## State.finish

section
variable (s : State) (c : Cmd) (st : Nat) (o : Bytes) (k : Nat)

@[simp] theorem State.finish_regs : (s.finish c st o k).regs = s.regs := rfl
@[simp] theorem State.finish_ringMem : (s.finish c st o k).ringMem = s.ringMem := rfl
@[simp] theorem State.finish_nv : (s.finish c st o k).nv = s.nv := rfl
@[simp] theorem State.finish_clock : (s.finish c st o k).clock = s.clock := rfl
@[simp] theorem State.finish_pins : (s.finish c st o k).pins = s.pins := rfl
@[simp] theorem State.finish_boot : (s.finish c st o k).boot = s.boot := rfl
@[simp] theorem State.finish_rings : (s.finish c st o k).rings = s.rings := rfl
@[simp] theorem State.finish_stm : (s.finish c st o k).stm = s.stm := rfl
@[simp] theorem State.finish_counts : (s.finish c st o k).counts = s.counts := rfl
@[simp] theorem State.finish_allocs : (s.finish c st o k).allocs = s.allocs := rfl
@[simp] theorem State.finish_charges : (s.finish c st o k).charges = s.charges := rfl
@[simp] theorem State.finish_poison : (s.finish c st o k).poison = s.poison := rfl
@[simp] theorem State.finish_moves : (s.finish c st o k).moves = s.moves := rfl
@[simp] theorem State.finish_tierAge : (s.finish c st o k).tierAge = s.tierAge := rfl
@[simp] theorem State.finish_tierCfg : (s.finish c st o k).tierCfg = s.tierCfg := rfl
@[simp] theorem State.finish_pageUnits : (s.finish c st o k).pageUnits = s.pageUnits := rfl
@[simp] theorem State.finish_consists : (s.finish c st o k).consists = s.consists := rfl
@[simp] theorem State.finish_runs : (s.finish c st o k).runs = s.runs := rfl
@[simp] theorem State.finish_frames : (s.finish c st o k).frames = s.frames := rfl
@[simp] theorem State.finish_calls : (s.finish c st o k).calls = s.calls := rfl
@[simp] theorem State.finish_zruns : (s.finish c st o k).zruns = s.zruns := rfl
@[simp] theorem State.finish_nextId : (s.finish c st o k).nextId = s.nextId := rfl
@[simp] theorem State.finish_indexes : (s.finish c st o k).indexes = s.indexes := rfl
@[simp] theorem State.finish_stores : (s.finish c st o k).stores = s.stores := rfl
@[simp] theorem State.finish_queries : (s.finish c st o k).queries = s.queries := rfl
@[simp] theorem State.finish_tables : (s.finish c st o k).tables = s.tables := rfl
@[simp] theorem State.finish_seqs : (s.finish c st o k).seqs = s.seqs := rfl
@[simp] theorem State.finish_depots : (s.finish c st o k).depots = s.depots := rfl
@[simp] theorem State.finish_owns : (s.finish c st o k).owns = s.owns := rfl
@[simp] theorem State.finish_timetables : (s.finish c st o k).timetables = s.timetables := rfl
@[simp] theorem State.finish_jobs : (s.finish c st o k).jobs = s.jobs := rfl
@[simp] theorem State.finish_fab : (s.finish c st o k).fab = s.fab := rfl
@[simp] theorem State.finish_ports : (s.finish c st o k).ports = s.ports := rfl
@[simp] theorem State.finish_policers : (s.finish c st o k).policers = s.policers := rfl
@[simp] theorem State.finish_cclOut : (s.finish c st o k).cclOut = s.cclOut := rfl
@[simp] theorem State.finish_mgmtOut : (s.finish c st o k).mgmtOut = s.mgmtOut := rfl
@[simp] theorem State.finish_jtagOut : (s.finish c st o k).jtagOut = s.jtagOut := rfl
@[simp] theorem State.finish_freeCtr : (s.finish c st o k).freeCtr = s.freeCtr := rfl
@[simp] theorem State.finish_pending : (s.finish c st o k).pending = s.pending := rfl

end

-- ## State.refuse

section
variable (s : State) (c : Cmd) (st : Nat)

@[simp] theorem State.refuse_regs : (s.refuse c st).regs = s.regs := rfl
@[simp] theorem State.refuse_ringMem : (s.refuse c st).ringMem = s.ringMem := rfl
@[simp] theorem State.refuse_nv : (s.refuse c st).nv = s.nv := rfl
@[simp] theorem State.refuse_clock : (s.refuse c st).clock = s.clock := rfl
@[simp] theorem State.refuse_pins : (s.refuse c st).pins = s.pins := rfl
@[simp] theorem State.refuse_boot : (s.refuse c st).boot = s.boot := rfl
@[simp] theorem State.refuse_rings : (s.refuse c st).rings = s.rings := rfl
@[simp] theorem State.refuse_stm : (s.refuse c st).stm = s.stm := rfl
@[simp] theorem State.refuse_counts : (s.refuse c st).counts = s.counts := rfl
@[simp] theorem State.refuse_allocs : (s.refuse c st).allocs = s.allocs := rfl
@[simp] theorem State.refuse_charges : (s.refuse c st).charges = s.charges := rfl
@[simp] theorem State.refuse_poison : (s.refuse c st).poison = s.poison := rfl
@[simp] theorem State.refuse_moves : (s.refuse c st).moves = s.moves := rfl
@[simp] theorem State.refuse_tierAge : (s.refuse c st).tierAge = s.tierAge := rfl
@[simp] theorem State.refuse_tierCfg : (s.refuse c st).tierCfg = s.tierCfg := rfl
@[simp] theorem State.refuse_pageUnits : (s.refuse c st).pageUnits = s.pageUnits := rfl
@[simp] theorem State.refuse_consists : (s.refuse c st).consists = s.consists := rfl
@[simp] theorem State.refuse_runs : (s.refuse c st).runs = s.runs := rfl
@[simp] theorem State.refuse_frames : (s.refuse c st).frames = s.frames := rfl
@[simp] theorem State.refuse_calls : (s.refuse c st).calls = s.calls := rfl
@[simp] theorem State.refuse_zruns : (s.refuse c st).zruns = s.zruns := rfl
@[simp] theorem State.refuse_nextId : (s.refuse c st).nextId = s.nextId := rfl
@[simp] theorem State.refuse_indexes : (s.refuse c st).indexes = s.indexes := rfl
@[simp] theorem State.refuse_stores : (s.refuse c st).stores = s.stores := rfl
@[simp] theorem State.refuse_queries : (s.refuse c st).queries = s.queries := rfl
@[simp] theorem State.refuse_tables : (s.refuse c st).tables = s.tables := rfl
@[simp] theorem State.refuse_seqs : (s.refuse c st).seqs = s.seqs := rfl
@[simp] theorem State.refuse_depots : (s.refuse c st).depots = s.depots := rfl
@[simp] theorem State.refuse_owns : (s.refuse c st).owns = s.owns := rfl
@[simp] theorem State.refuse_timetables : (s.refuse c st).timetables = s.timetables := rfl
@[simp] theorem State.refuse_jobs : (s.refuse c st).jobs = s.jobs := rfl
@[simp] theorem State.refuse_fab : (s.refuse c st).fab = s.fab := rfl
@[simp] theorem State.refuse_ports : (s.refuse c st).ports = s.ports := rfl
@[simp] theorem State.refuse_policers : (s.refuse c st).policers = s.policers := rfl
@[simp] theorem State.refuse_cclOut : (s.refuse c st).cclOut = s.cclOut := rfl
@[simp] theorem State.refuse_mgmtOut : (s.refuse c st).mgmtOut = s.mgmtOut := rfl
@[simp] theorem State.refuse_jtagOut : (s.refuse c st).jtagOut = s.jtagOut := rfl
@[simp] theorem State.refuse_freeCtr : (s.refuse c st).freeCtr = s.freeCtr := rfl
@[simp] theorem State.refuse_pending : (s.refuse c st).pending = s.pending := rfl

end

-- ## State.setRing

section
variable (s : State) (r : Nat) (x : Ring)

@[simp] theorem State.setRing_regs : (s.setRing r x).regs = s.regs := rfl
@[simp] theorem State.setRing_ringMem : (s.setRing r x).ringMem = s.ringMem := rfl
@[simp] theorem State.setRing_nv : (s.setRing r x).nv = s.nv := rfl
@[simp] theorem State.setRing_clock : (s.setRing r x).clock = s.clock := rfl
@[simp] theorem State.setRing_pins : (s.setRing r x).pins = s.pins := rfl
@[simp] theorem State.setRing_boot : (s.setRing r x).boot = s.boot := rfl
@[simp] theorem State.setRing_rings : (s.setRing r x).rings = mapSet s.rings r x := rfl
@[simp] theorem State.setRing_cmds : (s.setRing r x).cmds = s.cmds := rfl
@[simp] theorem State.setRing_stm : (s.setRing r x).stm = s.stm := rfl
@[simp] theorem State.setRing_counts : (s.setRing r x).counts = s.counts := rfl
@[simp] theorem State.setRing_allocs : (s.setRing r x).allocs = s.allocs := rfl
@[simp] theorem State.setRing_charges : (s.setRing r x).charges = s.charges := rfl
@[simp] theorem State.setRing_poison : (s.setRing r x).poison = s.poison := rfl
@[simp] theorem State.setRing_moves : (s.setRing r x).moves = s.moves := rfl
@[simp] theorem State.setRing_tierAge : (s.setRing r x).tierAge = s.tierAge := rfl
@[simp] theorem State.setRing_tierCfg : (s.setRing r x).tierCfg = s.tierCfg := rfl
@[simp] theorem State.setRing_pageUnits : (s.setRing r x).pageUnits = s.pageUnits := rfl
@[simp] theorem State.setRing_consists : (s.setRing r x).consists = s.consists := rfl
@[simp] theorem State.setRing_runs : (s.setRing r x).runs = s.runs := rfl
@[simp] theorem State.setRing_frames : (s.setRing r x).frames = s.frames := rfl
@[simp] theorem State.setRing_calls : (s.setRing r x).calls = s.calls := rfl
@[simp] theorem State.setRing_zruns : (s.setRing r x).zruns = s.zruns := rfl
@[simp] theorem State.setRing_nextId : (s.setRing r x).nextId = s.nextId := rfl
@[simp] theorem State.setRing_indexes : (s.setRing r x).indexes = s.indexes := rfl
@[simp] theorem State.setRing_stores : (s.setRing r x).stores = s.stores := rfl
@[simp] theorem State.setRing_queries : (s.setRing r x).queries = s.queries := rfl
@[simp] theorem State.setRing_tables : (s.setRing r x).tables = s.tables := rfl
@[simp] theorem State.setRing_seqs : (s.setRing r x).seqs = s.seqs := rfl
@[simp] theorem State.setRing_depots : (s.setRing r x).depots = s.depots := rfl
@[simp] theorem State.setRing_owns : (s.setRing r x).owns = s.owns := rfl
@[simp] theorem State.setRing_timetables : (s.setRing r x).timetables = s.timetables := rfl
@[simp] theorem State.setRing_jobs : (s.setRing r x).jobs = s.jobs := rfl
@[simp] theorem State.setRing_fab : (s.setRing r x).fab = s.fab := rfl
@[simp] theorem State.setRing_ports : (s.setRing r x).ports = s.ports := rfl
@[simp] theorem State.setRing_policers : (s.setRing r x).policers = s.policers := rfl
@[simp] theorem State.setRing_cclOut : (s.setRing r x).cclOut = s.cclOut := rfl
@[simp] theorem State.setRing_mgmtOut : (s.setRing r x).mgmtOut = s.mgmtOut := rfl
@[simp] theorem State.setRing_jtagOut : (s.setRing r x).jtagOut = s.jtagOut := rfl
@[simp] theorem State.setRing_freeCtr : (s.setRing r x).freeCtr = s.freeCtr := rfl
@[simp] theorem State.setRing_pending : (s.setRing r x).pending = s.pending := rfl

end

-- ## State.setRun

section
variable (s : State) (id : Nat) (x : Run)

@[simp] theorem State.setRun_regs : (s.setRun id x).regs = s.regs := rfl
@[simp] theorem State.setRun_ringMem : (s.setRun id x).ringMem = s.ringMem := rfl
@[simp] theorem State.setRun_nv : (s.setRun id x).nv = s.nv := rfl
@[simp] theorem State.setRun_clock : (s.setRun id x).clock = s.clock := rfl
@[simp] theorem State.setRun_pins : (s.setRun id x).pins = s.pins := rfl
@[simp] theorem State.setRun_boot : (s.setRun id x).boot = s.boot := rfl
@[simp] theorem State.setRun_rings : (s.setRun id x).rings = s.rings := rfl
@[simp] theorem State.setRun_cmds : (s.setRun id x).cmds = s.cmds := rfl
@[simp] theorem State.setRun_stm : (s.setRun id x).stm = s.stm := rfl
@[simp] theorem State.setRun_counts : (s.setRun id x).counts = s.counts := rfl
@[simp] theorem State.setRun_allocs : (s.setRun id x).allocs = s.allocs := rfl
@[simp] theorem State.setRun_charges : (s.setRun id x).charges = s.charges := rfl
@[simp] theorem State.setRun_poison : (s.setRun id x).poison = s.poison := rfl
@[simp] theorem State.setRun_moves : (s.setRun id x).moves = s.moves := rfl
@[simp] theorem State.setRun_tierAge : (s.setRun id x).tierAge = s.tierAge := rfl
@[simp] theorem State.setRun_tierCfg : (s.setRun id x).tierCfg = s.tierCfg := rfl
@[simp] theorem State.setRun_pageUnits : (s.setRun id x).pageUnits = s.pageUnits := rfl
@[simp] theorem State.setRun_consists : (s.setRun id x).consists = s.consists := rfl
@[simp] theorem State.setRun_runs : (s.setRun id x).runs = mapSet s.runs id x := rfl
@[simp] theorem State.setRun_frames : (s.setRun id x).frames = s.frames := rfl
@[simp] theorem State.setRun_calls : (s.setRun id x).calls = s.calls := rfl
@[simp] theorem State.setRun_zruns : (s.setRun id x).zruns = s.zruns := rfl
@[simp] theorem State.setRun_nextId : (s.setRun id x).nextId = s.nextId := rfl
@[simp] theorem State.setRun_indexes : (s.setRun id x).indexes = s.indexes := rfl
@[simp] theorem State.setRun_stores : (s.setRun id x).stores = s.stores := rfl
@[simp] theorem State.setRun_queries : (s.setRun id x).queries = s.queries := rfl
@[simp] theorem State.setRun_tables : (s.setRun id x).tables = s.tables := rfl
@[simp] theorem State.setRun_seqs : (s.setRun id x).seqs = s.seqs := rfl
@[simp] theorem State.setRun_depots : (s.setRun id x).depots = s.depots := rfl
@[simp] theorem State.setRun_owns : (s.setRun id x).owns = s.owns := rfl
@[simp] theorem State.setRun_timetables : (s.setRun id x).timetables = s.timetables := rfl
@[simp] theorem State.setRun_jobs : (s.setRun id x).jobs = s.jobs := rfl
@[simp] theorem State.setRun_fab : (s.setRun id x).fab = s.fab := rfl
@[simp] theorem State.setRun_ports : (s.setRun id x).ports = s.ports := rfl
@[simp] theorem State.setRun_policers : (s.setRun id x).policers = s.policers := rfl
@[simp] theorem State.setRun_cclOut : (s.setRun id x).cclOut = s.cclOut := rfl
@[simp] theorem State.setRun_mgmtOut : (s.setRun id x).mgmtOut = s.mgmtOut := rfl
@[simp] theorem State.setRun_jtagOut : (s.setRun id x).jtagOut = s.jtagOut := rfl
@[simp] theorem State.setRun_freeCtr : (s.setRun id x).freeCtr = s.freeCtr := rfl
@[simp] theorem State.setRun_pending : (s.setRun id x).pending = s.pending := rfl

end

-- ## State.setFrame

section
variable (s : State) (f : Nat) (x : Frame)

@[simp] theorem State.setFrame_regs : (s.setFrame f x).regs = s.regs := rfl
@[simp] theorem State.setFrame_ringMem : (s.setFrame f x).ringMem = s.ringMem := rfl
@[simp] theorem State.setFrame_nv : (s.setFrame f x).nv = s.nv := rfl
@[simp] theorem State.setFrame_clock : (s.setFrame f x).clock = s.clock := rfl
@[simp] theorem State.setFrame_pins : (s.setFrame f x).pins = s.pins := rfl
@[simp] theorem State.setFrame_boot : (s.setFrame f x).boot = s.boot := rfl
@[simp] theorem State.setFrame_rings : (s.setFrame f x).rings = s.rings := rfl
@[simp] theorem State.setFrame_cmds : (s.setFrame f x).cmds = s.cmds := rfl
@[simp] theorem State.setFrame_stm : (s.setFrame f x).stm = s.stm := rfl
@[simp] theorem State.setFrame_counts : (s.setFrame f x).counts = s.counts := rfl
@[simp] theorem State.setFrame_allocs : (s.setFrame f x).allocs = s.allocs := rfl
@[simp] theorem State.setFrame_charges : (s.setFrame f x).charges = s.charges := rfl
@[simp] theorem State.setFrame_poison : (s.setFrame f x).poison = s.poison := rfl
@[simp] theorem State.setFrame_moves : (s.setFrame f x).moves = s.moves := rfl
@[simp] theorem State.setFrame_tierAge : (s.setFrame f x).tierAge = s.tierAge := rfl
@[simp] theorem State.setFrame_tierCfg : (s.setFrame f x).tierCfg = s.tierCfg := rfl
@[simp] theorem State.setFrame_pageUnits : (s.setFrame f x).pageUnits = s.pageUnits := rfl
@[simp] theorem State.setFrame_consists : (s.setFrame f x).consists = s.consists := rfl
@[simp] theorem State.setFrame_runs : (s.setFrame f x).runs = s.runs := rfl
@[simp] theorem State.setFrame_frames : (s.setFrame f x).frames = mapSet s.frames f x := rfl
@[simp] theorem State.setFrame_calls : (s.setFrame f x).calls = s.calls := rfl
@[simp] theorem State.setFrame_zruns : (s.setFrame f x).zruns = s.zruns := rfl
@[simp] theorem State.setFrame_nextId : (s.setFrame f x).nextId = s.nextId := rfl
@[simp] theorem State.setFrame_indexes : (s.setFrame f x).indexes = s.indexes := rfl
@[simp] theorem State.setFrame_stores : (s.setFrame f x).stores = s.stores := rfl
@[simp] theorem State.setFrame_queries : (s.setFrame f x).queries = s.queries := rfl
@[simp] theorem State.setFrame_tables : (s.setFrame f x).tables = s.tables := rfl
@[simp] theorem State.setFrame_seqs : (s.setFrame f x).seqs = s.seqs := rfl
@[simp] theorem State.setFrame_depots : (s.setFrame f x).depots = s.depots := rfl
@[simp] theorem State.setFrame_owns : (s.setFrame f x).owns = s.owns := rfl
@[simp] theorem State.setFrame_timetables : (s.setFrame f x).timetables = s.timetables := rfl
@[simp] theorem State.setFrame_jobs : (s.setFrame f x).jobs = s.jobs := rfl
@[simp] theorem State.setFrame_fab : (s.setFrame f x).fab = s.fab := rfl
@[simp] theorem State.setFrame_ports : (s.setFrame f x).ports = s.ports := rfl
@[simp] theorem State.setFrame_policers : (s.setFrame f x).policers = s.policers := rfl
@[simp] theorem State.setFrame_cclOut : (s.setFrame f x).cclOut = s.cclOut := rfl
@[simp] theorem State.setFrame_mgmtOut : (s.setFrame f x).mgmtOut = s.mgmtOut := rfl
@[simp] theorem State.setFrame_jtagOut : (s.setFrame f x).jtagOut = s.jtagOut := rfl
@[simp] theorem State.setFrame_freeCtr : (s.setFrame f x).freeCtr = s.freeCtr := rfl
@[simp] theorem State.setFrame_pending : (s.setFrame f x).pending = s.pending := rfl

end

-- ## State.setCall

section
variable (s : State) (id : Nat) (x : Call)

@[simp] theorem State.setCall_regs : (s.setCall id x).regs = s.regs := rfl
@[simp] theorem State.setCall_ringMem : (s.setCall id x).ringMem = s.ringMem := rfl
@[simp] theorem State.setCall_nv : (s.setCall id x).nv = s.nv := rfl
@[simp] theorem State.setCall_clock : (s.setCall id x).clock = s.clock := rfl
@[simp] theorem State.setCall_pins : (s.setCall id x).pins = s.pins := rfl
@[simp] theorem State.setCall_boot : (s.setCall id x).boot = s.boot := rfl
@[simp] theorem State.setCall_rings : (s.setCall id x).rings = s.rings := rfl
@[simp] theorem State.setCall_cmds : (s.setCall id x).cmds = s.cmds := rfl
@[simp] theorem State.setCall_stm : (s.setCall id x).stm = s.stm := rfl
@[simp] theorem State.setCall_counts : (s.setCall id x).counts = s.counts := rfl
@[simp] theorem State.setCall_allocs : (s.setCall id x).allocs = s.allocs := rfl
@[simp] theorem State.setCall_charges : (s.setCall id x).charges = s.charges := rfl
@[simp] theorem State.setCall_poison : (s.setCall id x).poison = s.poison := rfl
@[simp] theorem State.setCall_moves : (s.setCall id x).moves = s.moves := rfl
@[simp] theorem State.setCall_tierAge : (s.setCall id x).tierAge = s.tierAge := rfl
@[simp] theorem State.setCall_tierCfg : (s.setCall id x).tierCfg = s.tierCfg := rfl
@[simp] theorem State.setCall_pageUnits : (s.setCall id x).pageUnits = s.pageUnits := rfl
@[simp] theorem State.setCall_consists : (s.setCall id x).consists = s.consists := rfl
@[simp] theorem State.setCall_runs : (s.setCall id x).runs = s.runs := rfl
@[simp] theorem State.setCall_frames : (s.setCall id x).frames = s.frames := rfl
@[simp] theorem State.setCall_calls : (s.setCall id x).calls = mapSet s.calls id x := rfl
@[simp] theorem State.setCall_zruns : (s.setCall id x).zruns = s.zruns := rfl
@[simp] theorem State.setCall_nextId : (s.setCall id x).nextId = s.nextId := rfl
@[simp] theorem State.setCall_indexes : (s.setCall id x).indexes = s.indexes := rfl
@[simp] theorem State.setCall_stores : (s.setCall id x).stores = s.stores := rfl
@[simp] theorem State.setCall_queries : (s.setCall id x).queries = s.queries := rfl
@[simp] theorem State.setCall_tables : (s.setCall id x).tables = s.tables := rfl
@[simp] theorem State.setCall_seqs : (s.setCall id x).seqs = s.seqs := rfl
@[simp] theorem State.setCall_depots : (s.setCall id x).depots = s.depots := rfl
@[simp] theorem State.setCall_owns : (s.setCall id x).owns = s.owns := rfl
@[simp] theorem State.setCall_timetables : (s.setCall id x).timetables = s.timetables := rfl
@[simp] theorem State.setCall_jobs : (s.setCall id x).jobs = s.jobs := rfl
@[simp] theorem State.setCall_fab : (s.setCall id x).fab = s.fab := rfl
@[simp] theorem State.setCall_ports : (s.setCall id x).ports = s.ports := rfl
@[simp] theorem State.setCall_policers : (s.setCall id x).policers = s.policers := rfl
@[simp] theorem State.setCall_cclOut : (s.setCall id x).cclOut = s.cclOut := rfl
@[simp] theorem State.setCall_mgmtOut : (s.setCall id x).mgmtOut = s.mgmtOut := rfl
@[simp] theorem State.setCall_jtagOut : (s.setCall id x).jtagOut = s.jtagOut := rfl
@[simp] theorem State.setCall_freeCtr : (s.setCall id x).freeCtr = s.freeCtr := rfl
@[simp] theorem State.setCall_pending : (s.setCall id x).pending = s.pending := rfl

end

-- ## State.setPort

section
variable (s : State) (p : Nat) (x : Port)

@[simp] theorem State.setPort_regs : (s.setPort p x).regs = s.regs := rfl
@[simp] theorem State.setPort_ringMem : (s.setPort p x).ringMem = s.ringMem := rfl
@[simp] theorem State.setPort_nv : (s.setPort p x).nv = s.nv := rfl
@[simp] theorem State.setPort_clock : (s.setPort p x).clock = s.clock := rfl
@[simp] theorem State.setPort_pins : (s.setPort p x).pins = s.pins := rfl
@[simp] theorem State.setPort_boot : (s.setPort p x).boot = s.boot := rfl
@[simp] theorem State.setPort_rings : (s.setPort p x).rings = s.rings := rfl
@[simp] theorem State.setPort_cmds : (s.setPort p x).cmds = s.cmds := rfl
@[simp] theorem State.setPort_stm : (s.setPort p x).stm = s.stm := rfl
@[simp] theorem State.setPort_counts : (s.setPort p x).counts = s.counts := rfl
@[simp] theorem State.setPort_allocs : (s.setPort p x).allocs = s.allocs := rfl
@[simp] theorem State.setPort_charges : (s.setPort p x).charges = s.charges := rfl
@[simp] theorem State.setPort_poison : (s.setPort p x).poison = s.poison := rfl
@[simp] theorem State.setPort_moves : (s.setPort p x).moves = s.moves := rfl
@[simp] theorem State.setPort_tierAge : (s.setPort p x).tierAge = s.tierAge := rfl
@[simp] theorem State.setPort_tierCfg : (s.setPort p x).tierCfg = s.tierCfg := rfl
@[simp] theorem State.setPort_pageUnits : (s.setPort p x).pageUnits = s.pageUnits := rfl
@[simp] theorem State.setPort_consists : (s.setPort p x).consists = s.consists := rfl
@[simp] theorem State.setPort_runs : (s.setPort p x).runs = s.runs := rfl
@[simp] theorem State.setPort_frames : (s.setPort p x).frames = s.frames := rfl
@[simp] theorem State.setPort_calls : (s.setPort p x).calls = s.calls := rfl
@[simp] theorem State.setPort_zruns : (s.setPort p x).zruns = s.zruns := rfl
@[simp] theorem State.setPort_nextId : (s.setPort p x).nextId = s.nextId := rfl
@[simp] theorem State.setPort_indexes : (s.setPort p x).indexes = s.indexes := rfl
@[simp] theorem State.setPort_stores : (s.setPort p x).stores = s.stores := rfl
@[simp] theorem State.setPort_queries : (s.setPort p x).queries = s.queries := rfl
@[simp] theorem State.setPort_tables : (s.setPort p x).tables = s.tables := rfl
@[simp] theorem State.setPort_seqs : (s.setPort p x).seqs = s.seqs := rfl
@[simp] theorem State.setPort_depots : (s.setPort p x).depots = s.depots := rfl
@[simp] theorem State.setPort_owns : (s.setPort p x).owns = s.owns := rfl
@[simp] theorem State.setPort_timetables : (s.setPort p x).timetables = s.timetables := rfl
@[simp] theorem State.setPort_jobs : (s.setPort p x).jobs = s.jobs := rfl
@[simp] theorem State.setPort_fab : (s.setPort p x).fab = s.fab := rfl
@[simp] theorem State.setPort_ports : (s.setPort p x).ports = mapSet s.ports p x := rfl
@[simp] theorem State.setPort_policers : (s.setPort p x).policers = s.policers := rfl
@[simp] theorem State.setPort_cclOut : (s.setPort p x).cclOut = s.cclOut := rfl
@[simp] theorem State.setPort_mgmtOut : (s.setPort p x).mgmtOut = s.mgmtOut := rfl
@[simp] theorem State.setPort_jtagOut : (s.setPort p x).jtagOut = s.jtagOut := rfl
@[simp] theorem State.setPort_freeCtr : (s.setPort p x).freeCtr = s.freeCtr := rfl
@[simp] theorem State.setPort_pending : (s.setPort p x).pending = s.pending := rfl

end

-- ## State.setTimetable

section
variable (s : State) (l : Nat) (x : Timetable)

@[simp] theorem State.setTimetable_regs : (s.setTimetable l x).regs = s.regs := rfl
@[simp] theorem State.setTimetable_ringMem : (s.setTimetable l x).ringMem = s.ringMem := rfl
@[simp] theorem State.setTimetable_nv : (s.setTimetable l x).nv = s.nv := rfl
@[simp] theorem State.setTimetable_clock : (s.setTimetable l x).clock = s.clock := rfl
@[simp] theorem State.setTimetable_pins : (s.setTimetable l x).pins = s.pins := rfl
@[simp] theorem State.setTimetable_boot : (s.setTimetable l x).boot = s.boot := rfl
@[simp] theorem State.setTimetable_rings : (s.setTimetable l x).rings = s.rings := rfl
@[simp] theorem State.setTimetable_cmds : (s.setTimetable l x).cmds = s.cmds := rfl
@[simp] theorem State.setTimetable_stm : (s.setTimetable l x).stm = s.stm := rfl
@[simp] theorem State.setTimetable_counts : (s.setTimetable l x).counts = s.counts := rfl
@[simp] theorem State.setTimetable_allocs : (s.setTimetable l x).allocs = s.allocs := rfl
@[simp] theorem State.setTimetable_charges : (s.setTimetable l x).charges = s.charges := rfl
@[simp] theorem State.setTimetable_poison : (s.setTimetable l x).poison = s.poison := rfl
@[simp] theorem State.setTimetable_moves : (s.setTimetable l x).moves = s.moves := rfl
@[simp] theorem State.setTimetable_tierAge : (s.setTimetable l x).tierAge = s.tierAge := rfl
@[simp] theorem State.setTimetable_tierCfg : (s.setTimetable l x).tierCfg = s.tierCfg := rfl
@[simp] theorem State.setTimetable_pageUnits : (s.setTimetable l x).pageUnits = s.pageUnits := rfl
@[simp] theorem State.setTimetable_consists : (s.setTimetable l x).consists = s.consists := rfl
@[simp] theorem State.setTimetable_runs : (s.setTimetable l x).runs = s.runs := rfl
@[simp] theorem State.setTimetable_frames : (s.setTimetable l x).frames = s.frames := rfl
@[simp] theorem State.setTimetable_calls : (s.setTimetable l x).calls = s.calls := rfl
@[simp] theorem State.setTimetable_zruns : (s.setTimetable l x).zruns = s.zruns := rfl
@[simp] theorem State.setTimetable_nextId : (s.setTimetable l x).nextId = s.nextId := rfl
@[simp] theorem State.setTimetable_indexes : (s.setTimetable l x).indexes = s.indexes := rfl
@[simp] theorem State.setTimetable_stores : (s.setTimetable l x).stores = s.stores := rfl
@[simp] theorem State.setTimetable_queries : (s.setTimetable l x).queries = s.queries := rfl
@[simp] theorem State.setTimetable_tables : (s.setTimetable l x).tables = s.tables := rfl
@[simp] theorem State.setTimetable_seqs : (s.setTimetable l x).seqs = s.seqs := rfl
@[simp] theorem State.setTimetable_depots : (s.setTimetable l x).depots = s.depots := rfl
@[simp] theorem State.setTimetable_owns : (s.setTimetable l x).owns = s.owns := rfl
@[simp] theorem State.setTimetable_timetables : (s.setTimetable l x).timetables = mapSet s.timetables l x := rfl
@[simp] theorem State.setTimetable_jobs : (s.setTimetable l x).jobs = s.jobs := rfl
@[simp] theorem State.setTimetable_fab : (s.setTimetable l x).fab = s.fab := rfl
@[simp] theorem State.setTimetable_ports : (s.setTimetable l x).ports = s.ports := rfl
@[simp] theorem State.setTimetable_policers : (s.setTimetable l x).policers = s.policers := rfl
@[simp] theorem State.setTimetable_cclOut : (s.setTimetable l x).cclOut = s.cclOut := rfl
@[simp] theorem State.setTimetable_mgmtOut : (s.setTimetable l x).mgmtOut = s.mgmtOut := rfl
@[simp] theorem State.setTimetable_jtagOut : (s.setTimetable l x).jtagOut = s.jtagOut := rfl
@[simp] theorem State.setTimetable_freeCtr : (s.setTimetable l x).freeCtr = s.freeCtr := rfl
@[simp] theorem State.setTimetable_pending : (s.setTimetable l x).pending = s.pending := rfl

end

-- ## State.setDepot

section
variable (s : State) (j : Nat) (x : Depot)

@[simp] theorem State.setDepot_regs : (s.setDepot j x).regs = s.regs := rfl
@[simp] theorem State.setDepot_ringMem : (s.setDepot j x).ringMem = s.ringMem := rfl
@[simp] theorem State.setDepot_nv : (s.setDepot j x).nv = s.nv := rfl
@[simp] theorem State.setDepot_clock : (s.setDepot j x).clock = s.clock := rfl
@[simp] theorem State.setDepot_pins : (s.setDepot j x).pins = s.pins := rfl
@[simp] theorem State.setDepot_boot : (s.setDepot j x).boot = s.boot := rfl
@[simp] theorem State.setDepot_rings : (s.setDepot j x).rings = s.rings := rfl
@[simp] theorem State.setDepot_cmds : (s.setDepot j x).cmds = s.cmds := rfl
@[simp] theorem State.setDepot_stm : (s.setDepot j x).stm = s.stm := rfl
@[simp] theorem State.setDepot_counts : (s.setDepot j x).counts = s.counts := rfl
@[simp] theorem State.setDepot_allocs : (s.setDepot j x).allocs = s.allocs := rfl
@[simp] theorem State.setDepot_charges : (s.setDepot j x).charges = s.charges := rfl
@[simp] theorem State.setDepot_poison : (s.setDepot j x).poison = s.poison := rfl
@[simp] theorem State.setDepot_moves : (s.setDepot j x).moves = s.moves := rfl
@[simp] theorem State.setDepot_tierAge : (s.setDepot j x).tierAge = s.tierAge := rfl
@[simp] theorem State.setDepot_tierCfg : (s.setDepot j x).tierCfg = s.tierCfg := rfl
@[simp] theorem State.setDepot_pageUnits : (s.setDepot j x).pageUnits = s.pageUnits := rfl
@[simp] theorem State.setDepot_consists : (s.setDepot j x).consists = s.consists := rfl
@[simp] theorem State.setDepot_runs : (s.setDepot j x).runs = s.runs := rfl
@[simp] theorem State.setDepot_frames : (s.setDepot j x).frames = s.frames := rfl
@[simp] theorem State.setDepot_calls : (s.setDepot j x).calls = s.calls := rfl
@[simp] theorem State.setDepot_zruns : (s.setDepot j x).zruns = s.zruns := rfl
@[simp] theorem State.setDepot_nextId : (s.setDepot j x).nextId = s.nextId := rfl
@[simp] theorem State.setDepot_indexes : (s.setDepot j x).indexes = s.indexes := rfl
@[simp] theorem State.setDepot_stores : (s.setDepot j x).stores = s.stores := rfl
@[simp] theorem State.setDepot_queries : (s.setDepot j x).queries = s.queries := rfl
@[simp] theorem State.setDepot_tables : (s.setDepot j x).tables = s.tables := rfl
@[simp] theorem State.setDepot_seqs : (s.setDepot j x).seqs = s.seqs := rfl
@[simp] theorem State.setDepot_depots : (s.setDepot j x).depots = s.depots.set j x := rfl
@[simp] theorem State.setDepot_owns : (s.setDepot j x).owns = s.owns := rfl
@[simp] theorem State.setDepot_timetables : (s.setDepot j x).timetables = s.timetables := rfl
@[simp] theorem State.setDepot_jobs : (s.setDepot j x).jobs = s.jobs := rfl
@[simp] theorem State.setDepot_fab : (s.setDepot j x).fab = s.fab := rfl
@[simp] theorem State.setDepot_ports : (s.setDepot j x).ports = s.ports := rfl
@[simp] theorem State.setDepot_policers : (s.setDepot j x).policers = s.policers := rfl
@[simp] theorem State.setDepot_cclOut : (s.setDepot j x).cclOut = s.cclOut := rfl
@[simp] theorem State.setDepot_mgmtOut : (s.setDepot j x).mgmtOut = s.mgmtOut := rfl
@[simp] theorem State.setDepot_jtagOut : (s.setDepot j x).jtagOut = s.jtagOut := rfl
@[simp] theorem State.setDepot_freeCtr : (s.setDepot j x).freeCtr = s.freeCtr := rfl
@[simp] theorem State.setDepot_pending : (s.setDepot j x).pending = s.pending := rfl

end

-- ## State.setTable

section
variable (s : State) (n : Nat) (x : Table)

@[simp] theorem State.setTable_regs : (s.setTable n x).regs = s.regs := rfl
@[simp] theorem State.setTable_ringMem : (s.setTable n x).ringMem = s.ringMem := rfl
@[simp] theorem State.setTable_nv : (s.setTable n x).nv = s.nv := rfl
@[simp] theorem State.setTable_clock : (s.setTable n x).clock = s.clock := rfl
@[simp] theorem State.setTable_pins : (s.setTable n x).pins = s.pins := rfl
@[simp] theorem State.setTable_boot : (s.setTable n x).boot = s.boot := rfl
@[simp] theorem State.setTable_rings : (s.setTable n x).rings = s.rings := rfl
@[simp] theorem State.setTable_cmds : (s.setTable n x).cmds = s.cmds := rfl
@[simp] theorem State.setTable_stm : (s.setTable n x).stm = s.stm := rfl
@[simp] theorem State.setTable_counts : (s.setTable n x).counts = s.counts := rfl
@[simp] theorem State.setTable_allocs : (s.setTable n x).allocs = s.allocs := rfl
@[simp] theorem State.setTable_charges : (s.setTable n x).charges = s.charges := rfl
@[simp] theorem State.setTable_poison : (s.setTable n x).poison = s.poison := rfl
@[simp] theorem State.setTable_moves : (s.setTable n x).moves = s.moves := rfl
@[simp] theorem State.setTable_tierAge : (s.setTable n x).tierAge = s.tierAge := rfl
@[simp] theorem State.setTable_tierCfg : (s.setTable n x).tierCfg = s.tierCfg := rfl
@[simp] theorem State.setTable_pageUnits : (s.setTable n x).pageUnits = s.pageUnits := rfl
@[simp] theorem State.setTable_consists : (s.setTable n x).consists = s.consists := rfl
@[simp] theorem State.setTable_runs : (s.setTable n x).runs = s.runs := rfl
@[simp] theorem State.setTable_frames : (s.setTable n x).frames = s.frames := rfl
@[simp] theorem State.setTable_calls : (s.setTable n x).calls = s.calls := rfl
@[simp] theorem State.setTable_zruns : (s.setTable n x).zruns = s.zruns := rfl
@[simp] theorem State.setTable_nextId : (s.setTable n x).nextId = s.nextId := rfl
@[simp] theorem State.setTable_indexes : (s.setTable n x).indexes = s.indexes := rfl
@[simp] theorem State.setTable_stores : (s.setTable n x).stores = s.stores := rfl
@[simp] theorem State.setTable_queries : (s.setTable n x).queries = s.queries := rfl
@[simp] theorem State.setTable_tables : (s.setTable n x).tables = mapSet s.tables n x := rfl
@[simp] theorem State.setTable_seqs : (s.setTable n x).seqs = s.seqs := rfl
@[simp] theorem State.setTable_depots : (s.setTable n x).depots = s.depots := rfl
@[simp] theorem State.setTable_owns : (s.setTable n x).owns = s.owns := rfl
@[simp] theorem State.setTable_timetables : (s.setTable n x).timetables = s.timetables := rfl
@[simp] theorem State.setTable_jobs : (s.setTable n x).jobs = s.jobs := rfl
@[simp] theorem State.setTable_fab : (s.setTable n x).fab = s.fab := rfl
@[simp] theorem State.setTable_ports : (s.setTable n x).ports = s.ports := rfl
@[simp] theorem State.setTable_policers : (s.setTable n x).policers = s.policers := rfl
@[simp] theorem State.setTable_cclOut : (s.setTable n x).cclOut = s.cclOut := rfl
@[simp] theorem State.setTable_mgmtOut : (s.setTable n x).mgmtOut = s.mgmtOut := rfl
@[simp] theorem State.setTable_jtagOut : (s.setTable n x).jtagOut = s.jtagOut := rfl
@[simp] theorem State.setTable_freeCtr : (s.setTable n x).freeCtr = s.freeCtr := rfl
@[simp] theorem State.setTable_pending : (s.setTable n x).pending = s.pending := rfl

end

-- ## State.setSeq

section
variable (s : State) (n : Nat) (x : Seq)

@[simp] theorem State.setSeq_regs : (s.setSeq n x).regs = s.regs := rfl
@[simp] theorem State.setSeq_ringMem : (s.setSeq n x).ringMem = s.ringMem := rfl
@[simp] theorem State.setSeq_nv : (s.setSeq n x).nv = s.nv := rfl
@[simp] theorem State.setSeq_clock : (s.setSeq n x).clock = s.clock := rfl
@[simp] theorem State.setSeq_pins : (s.setSeq n x).pins = s.pins := rfl
@[simp] theorem State.setSeq_boot : (s.setSeq n x).boot = s.boot := rfl
@[simp] theorem State.setSeq_rings : (s.setSeq n x).rings = s.rings := rfl
@[simp] theorem State.setSeq_cmds : (s.setSeq n x).cmds = s.cmds := rfl
@[simp] theorem State.setSeq_stm : (s.setSeq n x).stm = s.stm := rfl
@[simp] theorem State.setSeq_counts : (s.setSeq n x).counts = s.counts := rfl
@[simp] theorem State.setSeq_allocs : (s.setSeq n x).allocs = s.allocs := rfl
@[simp] theorem State.setSeq_charges : (s.setSeq n x).charges = s.charges := rfl
@[simp] theorem State.setSeq_poison : (s.setSeq n x).poison = s.poison := rfl
@[simp] theorem State.setSeq_moves : (s.setSeq n x).moves = s.moves := rfl
@[simp] theorem State.setSeq_tierAge : (s.setSeq n x).tierAge = s.tierAge := rfl
@[simp] theorem State.setSeq_tierCfg : (s.setSeq n x).tierCfg = s.tierCfg := rfl
@[simp] theorem State.setSeq_pageUnits : (s.setSeq n x).pageUnits = s.pageUnits := rfl
@[simp] theorem State.setSeq_consists : (s.setSeq n x).consists = s.consists := rfl
@[simp] theorem State.setSeq_runs : (s.setSeq n x).runs = s.runs := rfl
@[simp] theorem State.setSeq_frames : (s.setSeq n x).frames = s.frames := rfl
@[simp] theorem State.setSeq_calls : (s.setSeq n x).calls = s.calls := rfl
@[simp] theorem State.setSeq_zruns : (s.setSeq n x).zruns = s.zruns := rfl
@[simp] theorem State.setSeq_nextId : (s.setSeq n x).nextId = s.nextId := rfl
@[simp] theorem State.setSeq_indexes : (s.setSeq n x).indexes = s.indexes := rfl
@[simp] theorem State.setSeq_stores : (s.setSeq n x).stores = s.stores := rfl
@[simp] theorem State.setSeq_queries : (s.setSeq n x).queries = s.queries := rfl
@[simp] theorem State.setSeq_tables : (s.setSeq n x).tables = s.tables := rfl
@[simp] theorem State.setSeq_seqs : (s.setSeq n x).seqs = mapSet s.seqs n x := rfl
@[simp] theorem State.setSeq_depots : (s.setSeq n x).depots = s.depots := rfl
@[simp] theorem State.setSeq_owns : (s.setSeq n x).owns = s.owns := rfl
@[simp] theorem State.setSeq_timetables : (s.setSeq n x).timetables = s.timetables := rfl
@[simp] theorem State.setSeq_jobs : (s.setSeq n x).jobs = s.jobs := rfl
@[simp] theorem State.setSeq_fab : (s.setSeq n x).fab = s.fab := rfl
@[simp] theorem State.setSeq_ports : (s.setSeq n x).ports = s.ports := rfl
@[simp] theorem State.setSeq_policers : (s.setSeq n x).policers = s.policers := rfl
@[simp] theorem State.setSeq_cclOut : (s.setSeq n x).cclOut = s.cclOut := rfl
@[simp] theorem State.setSeq_mgmtOut : (s.setSeq n x).mgmtOut = s.mgmtOut := rfl
@[simp] theorem State.setSeq_jtagOut : (s.setSeq n x).jtagOut = s.jtagOut := rfl
@[simp] theorem State.setSeq_freeCtr : (s.setSeq n x).freeCtr = s.freeCtr := rfl
@[simp] theorem State.setSeq_pending : (s.setSeq n x).pending = s.pending := rfl

end

-- ## State.setIndex

section
variable (s : State) (n : Nat) (x : Index)

@[simp] theorem State.setIndex_regs : (s.setIndex n x).regs = s.regs := rfl
@[simp] theorem State.setIndex_ringMem : (s.setIndex n x).ringMem = s.ringMem := rfl
@[simp] theorem State.setIndex_nv : (s.setIndex n x).nv = s.nv := rfl
@[simp] theorem State.setIndex_clock : (s.setIndex n x).clock = s.clock := rfl
@[simp] theorem State.setIndex_pins : (s.setIndex n x).pins = s.pins := rfl
@[simp] theorem State.setIndex_boot : (s.setIndex n x).boot = s.boot := rfl
@[simp] theorem State.setIndex_rings : (s.setIndex n x).rings = s.rings := rfl
@[simp] theorem State.setIndex_cmds : (s.setIndex n x).cmds = s.cmds := rfl
@[simp] theorem State.setIndex_stm : (s.setIndex n x).stm = s.stm := rfl
@[simp] theorem State.setIndex_counts : (s.setIndex n x).counts = s.counts := rfl
@[simp] theorem State.setIndex_allocs : (s.setIndex n x).allocs = s.allocs := rfl
@[simp] theorem State.setIndex_charges : (s.setIndex n x).charges = s.charges := rfl
@[simp] theorem State.setIndex_poison : (s.setIndex n x).poison = s.poison := rfl
@[simp] theorem State.setIndex_moves : (s.setIndex n x).moves = s.moves := rfl
@[simp] theorem State.setIndex_tierAge : (s.setIndex n x).tierAge = s.tierAge := rfl
@[simp] theorem State.setIndex_tierCfg : (s.setIndex n x).tierCfg = s.tierCfg := rfl
@[simp] theorem State.setIndex_pageUnits : (s.setIndex n x).pageUnits = s.pageUnits := rfl
@[simp] theorem State.setIndex_consists : (s.setIndex n x).consists = s.consists := rfl
@[simp] theorem State.setIndex_runs : (s.setIndex n x).runs = s.runs := rfl
@[simp] theorem State.setIndex_frames : (s.setIndex n x).frames = s.frames := rfl
@[simp] theorem State.setIndex_calls : (s.setIndex n x).calls = s.calls := rfl
@[simp] theorem State.setIndex_zruns : (s.setIndex n x).zruns = s.zruns := rfl
@[simp] theorem State.setIndex_nextId : (s.setIndex n x).nextId = s.nextId := rfl
@[simp] theorem State.setIndex_indexes : (s.setIndex n x).indexes = mapSet s.indexes n x := rfl
@[simp] theorem State.setIndex_stores : (s.setIndex n x).stores = s.stores := rfl
@[simp] theorem State.setIndex_queries : (s.setIndex n x).queries = s.queries := rfl
@[simp] theorem State.setIndex_tables : (s.setIndex n x).tables = s.tables := rfl
@[simp] theorem State.setIndex_seqs : (s.setIndex n x).seqs = s.seqs := rfl
@[simp] theorem State.setIndex_depots : (s.setIndex n x).depots = s.depots := rfl
@[simp] theorem State.setIndex_owns : (s.setIndex n x).owns = s.owns := rfl
@[simp] theorem State.setIndex_timetables : (s.setIndex n x).timetables = s.timetables := rfl
@[simp] theorem State.setIndex_jobs : (s.setIndex n x).jobs = s.jobs := rfl
@[simp] theorem State.setIndex_fab : (s.setIndex n x).fab = s.fab := rfl
@[simp] theorem State.setIndex_ports : (s.setIndex n x).ports = s.ports := rfl
@[simp] theorem State.setIndex_policers : (s.setIndex n x).policers = s.policers := rfl
@[simp] theorem State.setIndex_cclOut : (s.setIndex n x).cclOut = s.cclOut := rfl
@[simp] theorem State.setIndex_mgmtOut : (s.setIndex n x).mgmtOut = s.mgmtOut := rfl
@[simp] theorem State.setIndex_jtagOut : (s.setIndex n x).jtagOut = s.jtagOut := rfl
@[simp] theorem State.setIndex_freeCtr : (s.setIndex n x).freeCtr = s.freeCtr := rfl
@[simp] theorem State.setIndex_pending : (s.setIndex n x).pending = s.pending := rfl

end

-- ## State.setStore

section
variable (s : State) (n : Nat) (x : Store)

@[simp] theorem State.setStore_regs : (s.setStore n x).regs = s.regs := rfl
@[simp] theorem State.setStore_ringMem : (s.setStore n x).ringMem = s.ringMem := rfl
@[simp] theorem State.setStore_nv : (s.setStore n x).nv = s.nv := rfl
@[simp] theorem State.setStore_clock : (s.setStore n x).clock = s.clock := rfl
@[simp] theorem State.setStore_pins : (s.setStore n x).pins = s.pins := rfl
@[simp] theorem State.setStore_boot : (s.setStore n x).boot = s.boot := rfl
@[simp] theorem State.setStore_rings : (s.setStore n x).rings = s.rings := rfl
@[simp] theorem State.setStore_cmds : (s.setStore n x).cmds = s.cmds := rfl
@[simp] theorem State.setStore_stm : (s.setStore n x).stm = s.stm := rfl
@[simp] theorem State.setStore_counts : (s.setStore n x).counts = s.counts := rfl
@[simp] theorem State.setStore_allocs : (s.setStore n x).allocs = s.allocs := rfl
@[simp] theorem State.setStore_charges : (s.setStore n x).charges = s.charges := rfl
@[simp] theorem State.setStore_poison : (s.setStore n x).poison = s.poison := rfl
@[simp] theorem State.setStore_moves : (s.setStore n x).moves = s.moves := rfl
@[simp] theorem State.setStore_tierAge : (s.setStore n x).tierAge = s.tierAge := rfl
@[simp] theorem State.setStore_tierCfg : (s.setStore n x).tierCfg = s.tierCfg := rfl
@[simp] theorem State.setStore_pageUnits : (s.setStore n x).pageUnits = s.pageUnits := rfl
@[simp] theorem State.setStore_consists : (s.setStore n x).consists = s.consists := rfl
@[simp] theorem State.setStore_runs : (s.setStore n x).runs = s.runs := rfl
@[simp] theorem State.setStore_frames : (s.setStore n x).frames = s.frames := rfl
@[simp] theorem State.setStore_calls : (s.setStore n x).calls = s.calls := rfl
@[simp] theorem State.setStore_zruns : (s.setStore n x).zruns = s.zruns := rfl
@[simp] theorem State.setStore_nextId : (s.setStore n x).nextId = s.nextId := rfl
@[simp] theorem State.setStore_indexes : (s.setStore n x).indexes = s.indexes := rfl
@[simp] theorem State.setStore_stores : (s.setStore n x).stores = mapSet s.stores n x := rfl
@[simp] theorem State.setStore_queries : (s.setStore n x).queries = s.queries := rfl
@[simp] theorem State.setStore_tables : (s.setStore n x).tables = s.tables := rfl
@[simp] theorem State.setStore_seqs : (s.setStore n x).seqs = s.seqs := rfl
@[simp] theorem State.setStore_depots : (s.setStore n x).depots = s.depots := rfl
@[simp] theorem State.setStore_owns : (s.setStore n x).owns = s.owns := rfl
@[simp] theorem State.setStore_timetables : (s.setStore n x).timetables = s.timetables := rfl
@[simp] theorem State.setStore_jobs : (s.setStore n x).jobs = s.jobs := rfl
@[simp] theorem State.setStore_fab : (s.setStore n x).fab = s.fab := rfl
@[simp] theorem State.setStore_ports : (s.setStore n x).ports = s.ports := rfl
@[simp] theorem State.setStore_policers : (s.setStore n x).policers = s.policers := rfl
@[simp] theorem State.setStore_cclOut : (s.setStore n x).cclOut = s.cclOut := rfl
@[simp] theorem State.setStore_mgmtOut : (s.setStore n x).mgmtOut = s.mgmtOut := rfl
@[simp] theorem State.setStore_jtagOut : (s.setStore n x).jtagOut = s.jtagOut := rfl
@[simp] theorem State.setStore_freeCtr : (s.setStore n x).freeCtr = s.freeCtr := rfl
@[simp] theorem State.setStore_pending : (s.setStore n x).pending = s.pending := rfl

end

-- ## State.setAlloc

section
variable (s : State) (n : Nat) (x : Alloc)

@[simp] theorem State.setAlloc_regs : (s.setAlloc n x).regs = s.regs := rfl
@[simp] theorem State.setAlloc_ringMem : (s.setAlloc n x).ringMem = s.ringMem := rfl
@[simp] theorem State.setAlloc_nv : (s.setAlloc n x).nv = s.nv := rfl
@[simp] theorem State.setAlloc_clock : (s.setAlloc n x).clock = s.clock := rfl
@[simp] theorem State.setAlloc_pins : (s.setAlloc n x).pins = s.pins := rfl
@[simp] theorem State.setAlloc_boot : (s.setAlloc n x).boot = s.boot := rfl
@[simp] theorem State.setAlloc_rings : (s.setAlloc n x).rings = s.rings := rfl
@[simp] theorem State.setAlloc_cmds : (s.setAlloc n x).cmds = s.cmds := rfl
@[simp] theorem State.setAlloc_stm : (s.setAlloc n x).stm = s.stm := rfl
@[simp] theorem State.setAlloc_counts : (s.setAlloc n x).counts = s.counts := rfl
@[simp] theorem State.setAlloc_allocs : (s.setAlloc n x).allocs = mapSet s.allocs n x := rfl
@[simp] theorem State.setAlloc_charges : (s.setAlloc n x).charges = s.charges := rfl
@[simp] theorem State.setAlloc_poison : (s.setAlloc n x).poison = s.poison := rfl
@[simp] theorem State.setAlloc_moves : (s.setAlloc n x).moves = s.moves := rfl
@[simp] theorem State.setAlloc_tierAge : (s.setAlloc n x).tierAge = s.tierAge := rfl
@[simp] theorem State.setAlloc_tierCfg : (s.setAlloc n x).tierCfg = s.tierCfg := rfl
@[simp] theorem State.setAlloc_pageUnits : (s.setAlloc n x).pageUnits = s.pageUnits := rfl
@[simp] theorem State.setAlloc_consists : (s.setAlloc n x).consists = s.consists := rfl
@[simp] theorem State.setAlloc_runs : (s.setAlloc n x).runs = s.runs := rfl
@[simp] theorem State.setAlloc_frames : (s.setAlloc n x).frames = s.frames := rfl
@[simp] theorem State.setAlloc_calls : (s.setAlloc n x).calls = s.calls := rfl
@[simp] theorem State.setAlloc_zruns : (s.setAlloc n x).zruns = s.zruns := rfl
@[simp] theorem State.setAlloc_nextId : (s.setAlloc n x).nextId = s.nextId := rfl
@[simp] theorem State.setAlloc_indexes : (s.setAlloc n x).indexes = s.indexes := rfl
@[simp] theorem State.setAlloc_stores : (s.setAlloc n x).stores = s.stores := rfl
@[simp] theorem State.setAlloc_queries : (s.setAlloc n x).queries = s.queries := rfl
@[simp] theorem State.setAlloc_tables : (s.setAlloc n x).tables = s.tables := rfl
@[simp] theorem State.setAlloc_seqs : (s.setAlloc n x).seqs = s.seqs := rfl
@[simp] theorem State.setAlloc_depots : (s.setAlloc n x).depots = s.depots := rfl
@[simp] theorem State.setAlloc_owns : (s.setAlloc n x).owns = s.owns := rfl
@[simp] theorem State.setAlloc_timetables : (s.setAlloc n x).timetables = s.timetables := rfl
@[simp] theorem State.setAlloc_jobs : (s.setAlloc n x).jobs = s.jobs := rfl
@[simp] theorem State.setAlloc_fab : (s.setAlloc n x).fab = s.fab := rfl
@[simp] theorem State.setAlloc_ports : (s.setAlloc n x).ports = s.ports := rfl
@[simp] theorem State.setAlloc_policers : (s.setAlloc n x).policers = s.policers := rfl
@[simp] theorem State.setAlloc_cclOut : (s.setAlloc n x).cclOut = s.cclOut := rfl
@[simp] theorem State.setAlloc_mgmtOut : (s.setAlloc n x).mgmtOut = s.mgmtOut := rfl
@[simp] theorem State.setAlloc_jtagOut : (s.setAlloc n x).jtagOut = s.jtagOut := rfl
@[simp] theorem State.setAlloc_freeCtr : (s.setAlloc n x).freeCtr = s.freeCtr := rfl
@[simp] theorem State.setAlloc_pending : (s.setAlloc n x).pending = s.pending := rfl

end

-- ## State.setReq

section
variable (s : State) (n : Nat) (x : Req)

@[simp] theorem State.setReq_regs : (s.setReq n x).regs = s.regs := rfl
@[simp] theorem State.setReq_ringMem : (s.setReq n x).ringMem = s.ringMem := rfl
@[simp] theorem State.setReq_nv : (s.setReq n x).nv = s.nv := rfl
@[simp] theorem State.setReq_clock : (s.setReq n x).clock = s.clock := rfl
@[simp] theorem State.setReq_pins : (s.setReq n x).pins = s.pins := rfl
@[simp] theorem State.setReq_boot : (s.setReq n x).boot = s.boot := rfl
@[simp] theorem State.setReq_rings : (s.setReq n x).rings = s.rings := rfl
@[simp] theorem State.setReq_cmds : (s.setReq n x).cmds = s.cmds := rfl
@[simp] theorem State.setReq_stm : (s.setReq n x).stm = s.stm := rfl
@[simp] theorem State.setReq_counts : (s.setReq n x).counts = s.counts := rfl
@[simp] theorem State.setReq_allocs : (s.setReq n x).allocs = s.allocs := rfl
@[simp] theorem State.setReq_charges : (s.setReq n x).charges = s.charges := rfl
@[simp] theorem State.setReq_poison : (s.setReq n x).poison = s.poison := rfl
@[simp] theorem State.setReq_moves : (s.setReq n x).moves = s.moves := rfl
@[simp] theorem State.setReq_tierAge : (s.setReq n x).tierAge = s.tierAge := rfl
@[simp] theorem State.setReq_tierCfg : (s.setReq n x).tierCfg = s.tierCfg := rfl
@[simp] theorem State.setReq_pageUnits : (s.setReq n x).pageUnits = s.pageUnits := rfl
@[simp] theorem State.setReq_consists : (s.setReq n x).consists = s.consists := rfl
@[simp] theorem State.setReq_runs : (s.setReq n x).runs = s.runs := rfl
@[simp] theorem State.setReq_frames : (s.setReq n x).frames = s.frames := rfl
@[simp] theorem State.setReq_calls : (s.setReq n x).calls = s.calls := rfl
@[simp] theorem State.setReq_zruns : (s.setReq n x).zruns = s.zruns := rfl
@[simp] theorem State.setReq_nextId : (s.setReq n x).nextId = s.nextId := rfl
@[simp] theorem State.setReq_indexes : (s.setReq n x).indexes = s.indexes := rfl
@[simp] theorem State.setReq_stores : (s.setReq n x).stores = s.stores := rfl
@[simp] theorem State.setReq_queries : (s.setReq n x).queries = s.queries := rfl
@[simp] theorem State.setReq_tables : (s.setReq n x).tables = s.tables := rfl
@[simp] theorem State.setReq_seqs : (s.setReq n x).seqs = s.seqs := rfl
@[simp] theorem State.setReq_depots : (s.setReq n x).depots = s.depots := rfl
@[simp] theorem State.setReq_owns : (s.setReq n x).owns = s.owns := rfl
@[simp] theorem State.setReq_timetables : (s.setReq n x).timetables = s.timetables := rfl
@[simp] theorem State.setReq_jobs : (s.setReq n x).jobs = s.jobs := rfl
@[simp] theorem State.setReq_ports : (s.setReq n x).ports = s.ports := rfl
@[simp] theorem State.setReq_policers : (s.setReq n x).policers = s.policers := rfl
@[simp] theorem State.setReq_cclOut : (s.setReq n x).cclOut = s.cclOut := rfl
@[simp] theorem State.setReq_mgmtOut : (s.setReq n x).mgmtOut = s.mgmtOut := rfl
@[simp] theorem State.setReq_jtagOut : (s.setReq n x).jtagOut = s.jtagOut := rfl
@[simp] theorem State.setReq_freeCtr : (s.setReq n x).freeCtr = s.freeCtr := rfl
@[simp] theorem State.setReq_pending : (s.setReq n x).pending = s.pending := rfl

end

-- ## State.setBar

section
variable (s : State) (n : Nat) (x : BarState)

@[simp] theorem State.setBar_regs : (s.setBar n x).regs = s.regs := rfl
@[simp] theorem State.setBar_ringMem : (s.setBar n x).ringMem = s.ringMem := rfl
@[simp] theorem State.setBar_nv : (s.setBar n x).nv = s.nv := rfl
@[simp] theorem State.setBar_clock : (s.setBar n x).clock = s.clock := rfl
@[simp] theorem State.setBar_pins : (s.setBar n x).pins = s.pins := rfl
@[simp] theorem State.setBar_boot : (s.setBar n x).boot = s.boot := rfl
@[simp] theorem State.setBar_rings : (s.setBar n x).rings = s.rings := rfl
@[simp] theorem State.setBar_cmds : (s.setBar n x).cmds = s.cmds := rfl
@[simp] theorem State.setBar_stm : (s.setBar n x).stm = s.stm := rfl
@[simp] theorem State.setBar_counts : (s.setBar n x).counts = s.counts := rfl
@[simp] theorem State.setBar_allocs : (s.setBar n x).allocs = s.allocs := rfl
@[simp] theorem State.setBar_charges : (s.setBar n x).charges = s.charges := rfl
@[simp] theorem State.setBar_poison : (s.setBar n x).poison = s.poison := rfl
@[simp] theorem State.setBar_moves : (s.setBar n x).moves = s.moves := rfl
@[simp] theorem State.setBar_tierAge : (s.setBar n x).tierAge = s.tierAge := rfl
@[simp] theorem State.setBar_tierCfg : (s.setBar n x).tierCfg = s.tierCfg := rfl
@[simp] theorem State.setBar_pageUnits : (s.setBar n x).pageUnits = s.pageUnits := rfl
@[simp] theorem State.setBar_consists : (s.setBar n x).consists = s.consists := rfl
@[simp] theorem State.setBar_runs : (s.setBar n x).runs = s.runs := rfl
@[simp] theorem State.setBar_frames : (s.setBar n x).frames = s.frames := rfl
@[simp] theorem State.setBar_calls : (s.setBar n x).calls = s.calls := rfl
@[simp] theorem State.setBar_zruns : (s.setBar n x).zruns = s.zruns := rfl
@[simp] theorem State.setBar_nextId : (s.setBar n x).nextId = s.nextId := rfl
@[simp] theorem State.setBar_indexes : (s.setBar n x).indexes = s.indexes := rfl
@[simp] theorem State.setBar_stores : (s.setBar n x).stores = s.stores := rfl
@[simp] theorem State.setBar_queries : (s.setBar n x).queries = s.queries := rfl
@[simp] theorem State.setBar_tables : (s.setBar n x).tables = s.tables := rfl
@[simp] theorem State.setBar_seqs : (s.setBar n x).seqs = s.seqs := rfl
@[simp] theorem State.setBar_depots : (s.setBar n x).depots = s.depots := rfl
@[simp] theorem State.setBar_owns : (s.setBar n x).owns = s.owns := rfl
@[simp] theorem State.setBar_timetables : (s.setBar n x).timetables = s.timetables := rfl
@[simp] theorem State.setBar_jobs : (s.setBar n x).jobs = s.jobs := rfl
@[simp] theorem State.setBar_ports : (s.setBar n x).ports = s.ports := rfl
@[simp] theorem State.setBar_policers : (s.setBar n x).policers = s.policers := rfl
@[simp] theorem State.setBar_cclOut : (s.setBar n x).cclOut = s.cclOut := rfl
@[simp] theorem State.setBar_mgmtOut : (s.setBar n x).mgmtOut = s.mgmtOut := rfl
@[simp] theorem State.setBar_jtagOut : (s.setBar n x).jtagOut = s.jtagOut := rfl
@[simp] theorem State.setBar_freeCtr : (s.setBar n x).freeCtr = s.freeCtr := rfl
@[simp] theorem State.setBar_pending : (s.setBar n x).pending = s.pending := rfl

end

-- ## State.emit

section
variable (s : State) (b : Bytes)

@[simp] theorem State.emit_regs : (s.emit b).regs = s.regs := rfl
@[simp] theorem State.emit_ringMem : (s.emit b).ringMem = s.ringMem := rfl
@[simp] theorem State.emit_nv : (s.emit b).nv = s.nv := rfl
@[simp] theorem State.emit_clock : (s.emit b).clock = s.clock := rfl
@[simp] theorem State.emit_pins : (s.emit b).pins = s.pins := rfl
@[simp] theorem State.emit_boot : (s.emit b).boot = s.boot := rfl
@[simp] theorem State.emit_rings : (s.emit b).rings = s.rings := rfl
@[simp] theorem State.emit_cmds : (s.emit b).cmds = s.cmds := rfl
@[simp] theorem State.emit_stm : (s.emit b).stm = s.stm := rfl
@[simp] theorem State.emit_counts : (s.emit b).counts = s.counts := rfl
@[simp] theorem State.emit_allocs : (s.emit b).allocs = s.allocs := rfl
@[simp] theorem State.emit_charges : (s.emit b).charges = s.charges := rfl
@[simp] theorem State.emit_poison : (s.emit b).poison = s.poison := rfl
@[simp] theorem State.emit_moves : (s.emit b).moves = s.moves := rfl
@[simp] theorem State.emit_tierAge : (s.emit b).tierAge = s.tierAge := rfl
@[simp] theorem State.emit_tierCfg : (s.emit b).tierCfg = s.tierCfg := rfl
@[simp] theorem State.emit_pageUnits : (s.emit b).pageUnits = s.pageUnits := rfl
@[simp] theorem State.emit_consists : (s.emit b).consists = s.consists := rfl
@[simp] theorem State.emit_runs : (s.emit b).runs = s.runs := rfl
@[simp] theorem State.emit_frames : (s.emit b).frames = s.frames := rfl
@[simp] theorem State.emit_calls : (s.emit b).calls = s.calls := rfl
@[simp] theorem State.emit_zruns : (s.emit b).zruns = s.zruns := rfl
@[simp] theorem State.emit_nextId : (s.emit b).nextId = s.nextId := rfl
@[simp] theorem State.emit_indexes : (s.emit b).indexes = s.indexes := rfl
@[simp] theorem State.emit_stores : (s.emit b).stores = s.stores := rfl
@[simp] theorem State.emit_queries : (s.emit b).queries = s.queries := rfl
@[simp] theorem State.emit_tables : (s.emit b).tables = s.tables := rfl
@[simp] theorem State.emit_seqs : (s.emit b).seqs = s.seqs := rfl
@[simp] theorem State.emit_depots : (s.emit b).depots = s.depots := rfl
@[simp] theorem State.emit_owns : (s.emit b).owns = s.owns := rfl
@[simp] theorem State.emit_timetables : (s.emit b).timetables = s.timetables := rfl
@[simp] theorem State.emit_jobs : (s.emit b).jobs = s.jobs := rfl
@[simp] theorem State.emit_ports : (s.emit b).ports = s.ports := rfl
@[simp] theorem State.emit_policers : (s.emit b).policers = s.policers := rfl
@[simp] theorem State.emit_cclOut : (s.emit b).cclOut = s.cclOut := rfl
@[simp] theorem State.emit_mgmtOut : (s.emit b).mgmtOut = s.mgmtOut := rfl
@[simp] theorem State.emit_jtagOut : (s.emit b).jtagOut = s.jtagOut := rfl
@[simp] theorem State.emit_freeCtr : (s.emit b).freeCtr = s.freeCtr := rfl
@[simp] theorem State.emit_pending : (s.emit b).pending = s.pending := rfl

end

-- ## State.setOwn

section
variable (s : State) (n : Nat) (x : OwnRecord)

@[simp] theorem State.setOwn_regs : (s.setOwn n x).regs = s.regs := rfl
@[simp] theorem State.setOwn_ringMem : (s.setOwn n x).ringMem = s.ringMem := rfl
@[simp] theorem State.setOwn_nv : (s.setOwn n x).nv = s.nv := rfl
@[simp] theorem State.setOwn_clock : (s.setOwn n x).clock = s.clock := rfl
@[simp] theorem State.setOwn_pins : (s.setOwn n x).pins = s.pins := rfl
@[simp] theorem State.setOwn_boot : (s.setOwn n x).boot = s.boot := rfl
@[simp] theorem State.setOwn_rings : (s.setOwn n x).rings = s.rings := rfl
@[simp] theorem State.setOwn_cmds : (s.setOwn n x).cmds = s.cmds := rfl
@[simp] theorem State.setOwn_stm : (s.setOwn n x).stm = s.stm := rfl
@[simp] theorem State.setOwn_counts : (s.setOwn n x).counts = s.counts := rfl
@[simp] theorem State.setOwn_allocs : (s.setOwn n x).allocs = s.allocs := rfl
@[simp] theorem State.setOwn_charges : (s.setOwn n x).charges = s.charges := rfl
@[simp] theorem State.setOwn_poison : (s.setOwn n x).poison = s.poison := rfl
@[simp] theorem State.setOwn_moves : (s.setOwn n x).moves = s.moves := rfl
@[simp] theorem State.setOwn_tierAge : (s.setOwn n x).tierAge = s.tierAge := rfl
@[simp] theorem State.setOwn_tierCfg : (s.setOwn n x).tierCfg = s.tierCfg := rfl
@[simp] theorem State.setOwn_pageUnits : (s.setOwn n x).pageUnits = s.pageUnits := rfl
@[simp] theorem State.setOwn_consists : (s.setOwn n x).consists = s.consists := rfl
@[simp] theorem State.setOwn_runs : (s.setOwn n x).runs = s.runs := rfl
@[simp] theorem State.setOwn_frames : (s.setOwn n x).frames = s.frames := rfl
@[simp] theorem State.setOwn_calls : (s.setOwn n x).calls = s.calls := rfl
@[simp] theorem State.setOwn_zruns : (s.setOwn n x).zruns = s.zruns := rfl
@[simp] theorem State.setOwn_nextId : (s.setOwn n x).nextId = s.nextId := rfl
@[simp] theorem State.setOwn_indexes : (s.setOwn n x).indexes = s.indexes := rfl
@[simp] theorem State.setOwn_stores : (s.setOwn n x).stores = s.stores := rfl
@[simp] theorem State.setOwn_queries : (s.setOwn n x).queries = s.queries := rfl
@[simp] theorem State.setOwn_tables : (s.setOwn n x).tables = s.tables := rfl
@[simp] theorem State.setOwn_seqs : (s.setOwn n x).seqs = s.seqs := rfl
@[simp] theorem State.setOwn_depots : (s.setOwn n x).depots = s.depots := rfl
@[simp] theorem State.setOwn_owns : (s.setOwn n x).owns = mapSet s.owns n x := rfl
@[simp] theorem State.setOwn_timetables : (s.setOwn n x).timetables = s.timetables := rfl
@[simp] theorem State.setOwn_jobs : (s.setOwn n x).jobs = s.jobs := rfl
@[simp] theorem State.setOwn_fab : (s.setOwn n x).fab = s.fab := rfl
@[simp] theorem State.setOwn_ports : (s.setOwn n x).ports = s.ports := rfl
@[simp] theorem State.setOwn_policers : (s.setOwn n x).policers = s.policers := rfl
@[simp] theorem State.setOwn_cclOut : (s.setOwn n x).cclOut = s.cclOut := rfl
@[simp] theorem State.setOwn_mgmtOut : (s.setOwn n x).mgmtOut = s.mgmtOut := rfl
@[simp] theorem State.setOwn_jtagOut : (s.setOwn n x).jtagOut = s.jtagOut := rfl
@[simp] theorem State.setOwn_freeCtr : (s.setOwn n x).freeCtr = s.freeCtr := rfl
@[simp] theorem State.setOwn_pending : (s.setOwn n x).pending = s.pending := rfl

end

-- ## State.mgmtSend

section
variable (s : State) (m : Bytes)

@[simp] theorem State.mgmtSend_regs : (s.mgmtSend m).regs = s.regs := rfl
@[simp] theorem State.mgmtSend_ringMem : (s.mgmtSend m).ringMem = s.ringMem := rfl
@[simp] theorem State.mgmtSend_nv : (s.mgmtSend m).nv = s.nv := rfl
@[simp] theorem State.mgmtSend_clock : (s.mgmtSend m).clock = s.clock := rfl
@[simp] theorem State.mgmtSend_pins : (s.mgmtSend m).pins = s.pins := rfl
@[simp] theorem State.mgmtSend_boot : (s.mgmtSend m).boot = s.boot := rfl
@[simp] theorem State.mgmtSend_rings : (s.mgmtSend m).rings = s.rings := rfl
@[simp] theorem State.mgmtSend_cmds : (s.mgmtSend m).cmds = s.cmds := rfl
@[simp] theorem State.mgmtSend_stm : (s.mgmtSend m).stm = s.stm := rfl
@[simp] theorem State.mgmtSend_counts : (s.mgmtSend m).counts = s.counts := rfl
@[simp] theorem State.mgmtSend_allocs : (s.mgmtSend m).allocs = s.allocs := rfl
@[simp] theorem State.mgmtSend_charges : (s.mgmtSend m).charges = s.charges := rfl
@[simp] theorem State.mgmtSend_poison : (s.mgmtSend m).poison = s.poison := rfl
@[simp] theorem State.mgmtSend_moves : (s.mgmtSend m).moves = s.moves := rfl
@[simp] theorem State.mgmtSend_tierAge : (s.mgmtSend m).tierAge = s.tierAge := rfl
@[simp] theorem State.mgmtSend_tierCfg : (s.mgmtSend m).tierCfg = s.tierCfg := rfl
@[simp] theorem State.mgmtSend_pageUnits : (s.mgmtSend m).pageUnits = s.pageUnits := rfl
@[simp] theorem State.mgmtSend_consists : (s.mgmtSend m).consists = s.consists := rfl
@[simp] theorem State.mgmtSend_runs : (s.mgmtSend m).runs = s.runs := rfl
@[simp] theorem State.mgmtSend_frames : (s.mgmtSend m).frames = s.frames := rfl
@[simp] theorem State.mgmtSend_calls : (s.mgmtSend m).calls = s.calls := rfl
@[simp] theorem State.mgmtSend_zruns : (s.mgmtSend m).zruns = s.zruns := rfl
@[simp] theorem State.mgmtSend_nextId : (s.mgmtSend m).nextId = s.nextId := rfl
@[simp] theorem State.mgmtSend_indexes : (s.mgmtSend m).indexes = s.indexes := rfl
@[simp] theorem State.mgmtSend_stores : (s.mgmtSend m).stores = s.stores := rfl
@[simp] theorem State.mgmtSend_queries : (s.mgmtSend m).queries = s.queries := rfl
@[simp] theorem State.mgmtSend_tables : (s.mgmtSend m).tables = s.tables := rfl
@[simp] theorem State.mgmtSend_seqs : (s.mgmtSend m).seqs = s.seqs := rfl
@[simp] theorem State.mgmtSend_depots : (s.mgmtSend m).depots = s.depots := rfl
@[simp] theorem State.mgmtSend_owns : (s.mgmtSend m).owns = s.owns := rfl
@[simp] theorem State.mgmtSend_timetables : (s.mgmtSend m).timetables = s.timetables := rfl
@[simp] theorem State.mgmtSend_jobs : (s.mgmtSend m).jobs = s.jobs := rfl
@[simp] theorem State.mgmtSend_fab : (s.mgmtSend m).fab = s.fab := rfl
@[simp] theorem State.mgmtSend_ports : (s.mgmtSend m).ports = s.ports := rfl
@[simp] theorem State.mgmtSend_policers : (s.mgmtSend m).policers = s.policers := rfl
@[simp] theorem State.mgmtSend_cclOut : (s.mgmtSend m).cclOut = s.cclOut := rfl
@[simp] theorem State.mgmtSend_mgmtOut : (s.mgmtSend m).mgmtOut = s.mgmtOut ++ [m] := rfl
@[simp] theorem State.mgmtSend_jtagOut : (s.mgmtSend m).jtagOut = s.jtagOut := rfl
@[simp] theorem State.mgmtSend_freeCtr : (s.mgmtSend m).freeCtr = s.freeCtr := rfl
@[simp] theorem State.mgmtSend_pending : (s.mgmtSend m).pending = s.pending := rfl

end

end Sys2Proof.Machine
end

