-- ==== Sys2Proof/Laws/Registers.lean ====
section
/-! SUPPORT. What a write of a register or of one of its fields does to every register and field. -/

namespace Sys2Proof.Machine

/-- The parts of a number around the field of `w` bits at `lo`. -/
theorem setBitsOf_parts (v lo w x : Nat) :
    setBitsOf v lo w x = (v / 2 ^ (lo + w) * 2 ^ w + x % 2 ^ w) * 2 ^ lo + v % 2 ^ lo := by
  have h1 : v = v / 2 ^ lo * 2 ^ lo + v % 2 ^ lo := by rw [Nat.mul_comm]; exact (Nat.div_add_mod v (2 ^ lo)).symm
  have h2 : v / 2 ^ lo = v / 2 ^ lo / 2 ^ w * 2 ^ w + v / 2 ^ lo % 2 ^ w := by
    rw [Nat.mul_comm]; exact (Nat.div_add_mod _ _).symm
  have h3 : v / 2 ^ (lo + w) = v / 2 ^ lo / 2 ^ w := by rw [Nat.pow_add, Nat.div_div_eq_div_mul]
  unfold setBitsOf bitsOf
  rw [h3]
  generalize v / 2 ^ lo / 2 ^ w = a at *
  generalize v / 2 ^ lo % 2 ^ w = b at *
  generalize v % 2 ^ lo = c at *
  rw [h2] at h1
  rw [h1, Nat.add_mul, Nat.add_mul]
  omega

/-- A field reads what was written to it. -/
theorem bitsOf_setBitsOf_same (v lo w x : Nat) : bitsOf (setBitsOf v lo w x) lo w = x % 2 ^ w := by
  rw [setBitsOf_parts]
  unfold bitsOf
  have hlt : v % 2 ^ lo < 2 ^ lo := Nat.mod_lt _ (Nat.pow_pos (by decide))
  rw [Nat.mul_comm, Nat.mul_add_div (Nat.pow_pos (by decide)), Nat.div_eq_of_lt hlt, Nat.add_zero, Nat.mul_comm, Nat.mul_add_mod,
    Nat.mod_mod]

/-- The bits below a field stay. -/
theorem setBitsOf_mod (v lo w x : Nat) : setBitsOf v lo w x % 2 ^ lo = v % 2 ^ lo := by
  rw [setBitsOf_parts, Nat.mul_comm, Nat.mul_add_mod, Nat.mod_mod]

/-- The bits above a field stay. -/
theorem setBitsOf_div (v lo w x : Nat) : setBitsOf v lo w x / 2 ^ (lo + w) = v / 2 ^ (lo + w) := by
  rw [setBitsOf_parts]
  have hlt : v % 2 ^ lo < 2 ^ lo := Nat.mod_lt _ (Nat.pow_pos (by decide))
  have hx : x % 2 ^ w < 2 ^ w := Nat.mod_lt _ (Nat.pow_pos (by decide))
  rw [Nat.pow_add, ← Nat.div_div_eq_div_mul, Nat.mul_comm _ (2 ^ lo), Nat.mul_add_div (Nat.pow_pos (by decide)), Nat.div_eq_of_lt hlt,
    Nat.add_zero, Nat.mul_comm, Nat.mul_add_div (Nat.pow_pos (by decide)), Nat.div_eq_of_lt hx, Nat.add_zero]

/-- A field apart from the one written stays. -/
theorem bitsOf_setBitsOf_other (v lo w x l k : Nat) (h : l + k ≤ lo ∨ lo + w ≤ l) : bitsOf (setBitsOf v lo w x) l k = bitsOf v l k := by
  unfold bitsOf
  rcases h with h | h
  · have key : ∀ u : Nat, u / 2 ^ l % 2 ^ k = u % 2 ^ lo / 2 ^ l % 2 ^ k := by
      intro u
      have : (2 : Nat) ^ lo = 2 ^ l * 2 ^ (lo - l) := by rw [← Nat.pow_add]; congr 1; omega
      rw [this, Nat.mod_mul_right_div_self]
      have h2 : (2 : Nat) ^ (lo - l) = 2 ^ k * 2 ^ (lo - l - k) := by rw [← Nat.pow_add]; congr 1; omega
      rw [h2, Nat.mod_mul_right_mod]
    rw [key (setBitsOf v lo w x), setBitsOf_mod, ← key]
  · have key : ∀ u : Nat, u / 2 ^ l = u / 2 ^ (lo + w) / 2 ^ (l - (lo + w)) := by
      intro u
      rw [Nat.div_div_eq_div_mul, ← Nat.pow_add]; congr 2; omega
    rw [key (setBitsOf v lo w x), setBitsOf_div, ← key]

/-- A field written keeps a word a word. -/
theorem setBitsOf_lt (v lo w x n : Nat) (hv : v < 2 ^ n) (h : lo + w ≤ n) : setBitsOf v lo w x < 2 ^ n := by
  have hd := setBitsOf_div v lo w x
  have hn : (2 : Nat) ^ n = 2 ^ (lo + w) * 2 ^ (n - (lo + w)) := by rw [← Nat.pow_add]; congr 1; omega
  have hv' : v / 2 ^ (lo + w) < 2 ^ (n - (lo + w)) := by
    rw [Nat.div_lt_iff_lt_mul (Nat.pow_pos (by decide)), Nat.mul_comm, ← hn]; exact hv
  rw [← hd, Nat.div_lt_iff_lt_mul (Nat.pow_pos (by decide)), Nat.mul_comm, ← hn] at hv'
  exact hv'

/-- A register reads what was written to it. -/
@[simp] theorem State.reg_setReg_same (s : State) (n : RegName) (i j : Nat) (v : Word) : (s.setReg n i j v).reg n i j = v := by
  simp [State.reg, mapGetD]

/-- A register apart from the one written stays. -/
theorem State.reg_setReg_other (s : State) (n m : RegName) (i j k l : Nat) (v : Word) (h : regOffset m k l ≠ regOffset n i j) :
    (s.setReg n i j v).reg m k l = s.reg m k l := by
  simp [State.reg, mapGetD, mapGet_mapSet_other _ _ h]

/-- A field reads what was written to it, as far as it is wide. -/
theorem State.fld_setFld_same (s : State) (f : FieldRef) (v i j : Nat) (h : f.lo + f.width ≤ 64) :
    (s.setFld f v i j).fld f i j = v % 2 ^ f.width := by
  have hlt := setBitsOf_lt (s.reg f.reg i j).toNat f.lo f.width v 64 (s.reg f.reg i j).isLt h
  simp only [State.fld, State.setFld, State.reg_setReg_same, BitVec.toNat_ofNat]
  rw [Nat.mod_eq_of_lt hlt, bitsOf_setBitsOf_same]

/-- A field of another register stays. -/
theorem State.fld_setFld_reg (s : State) (f g : FieldRef) (v i j k l : Nat) (h : regOffset g.reg k l ≠ regOffset f.reg i j) :
    (s.setFld f v i j).fld g k l = s.fld g k l := by
  simp [State.fld, State.setFld, State.reg_setReg_other _ _ _ _ _ _ _ _ h]

/-- Another field of the same register stays. -/
theorem State.fld_setFld_field (s : State) (f g : FieldRef) (v i j : Nat) (hr : g.reg = f.reg) (h : f.lo + f.width ≤ 64)
    (hd : g.lo + g.width ≤ f.lo ∨ f.lo + f.width ≤ g.lo) : (s.setFld f v i j).fld g i j = s.fld g i j := by
  have hlt := setBitsOf_lt (s.reg f.reg i j).toNat f.lo f.width v 64 (s.reg f.reg i j).isLt h
  simp only [State.fld, State.setFld, hr, State.reg_setReg_same, BitVec.toNat_ofNat]
  rw [Nat.mod_eq_of_lt hlt, bitsOf_setBitsOf_other _ _ _ _ _ _ hd]

/-- A field of a register depends on the registers alone. -/
theorem State.fld_congr (s t : State) (f : FieldRef) (i j : Nat) (h : t.regs = s.regs) : t.fld f i j = s.fld f i j := by
  simp [State.fld, State.reg, h]

end Sys2Proof.Machine
end

