-- ==== Sys2Proof/Laws/Ops.lean ====
section
/-! SUPPORT. What each shared operation of the machine can do, said once: which parts of the state it may change, and what it leaves
there. A proof cites these in place of unfolding the operation. -/

namespace Sys2Proof.Machine

-- ## Accesses that are counted (R14, R15, R20)

/-- A counted write changes registers alone. -/
theorem State.badWrite_eq (s : State) (off : Nat) : s.badWrite off = { s with regs := (s.badWrite off).regs } := rfl

/-- A counted read changes registers alone. -/
theorem State.badRead_eq (s : State) (off : Nat) : s.badRead off = { s with regs := (s.badRead off).regs } := rfl

/-- A counter that is counted up holds its next value. -/
theorem State.fld_count_same (s : State) (f : FieldRef) (k i j : Nat) (h : f.lo + f.width ≤ 64) :
    (s.count f k i j).fld f i j = countUp f (s.fld f i j) k % 2 ^ f.width := by
  unfold State.count
  exact State.fld_setFld_same s f _ i j h

/-- A counted write adds 1 to WRITES and names the block. -/
theorem State.badWrite_writes (s : State) (off : Nat) :
    (s.badWrite off).fld GLB_BADACC_WRITES = (s.fld GLB_BADACC_WRITES + 1) % 2 ^ 32 := by
  unfold State.badWrite
  rw [State.fld_setFld_field (s.count GLB_BADACC_WRITES) GLB_BADACC_LASTBLK GLB_BADACC_WRITES (off / 2 ^ 16) 0 0 rfl (by decide) (by decide),
    State.fld_count_same s GLB_BADACC_WRITES 1 0 0 (by decide)]
  simp [countUp]

-- ## The event log (R563 to R565)

/-- Programming an entry changes the retained log alone. -/
theorem State.programEntry_eq (s : State) (seq : Nat) (b : Bytes) :
    s.programEntry seq b = { s with nv := { s.nv with log := (s.programEntry seq b).nv.log } } := rfl

/-- Programming a list of entries changes the retained log alone. -/
theorem State.foldl_programEntry_eq (l : List LogPending) (s : State) :
    l.foldl (fun (s : State) e => s.programEntry e.seq e.bytes) s =
      { s with nv := { s.nv with log := (l.foldl (fun (s : State) e => s.programEntry e.seq e.bytes) s).nv.log } } := by
  induction l generalizing s with
  | nil => rfl
  | cons e l ih =>
    rw [List.foldl_cons, ih]
    rfl

/-- Programming the log empties the entries that wait and changes the retained log. -/
theorem State.programLog_eq (s : State) :
    s.programLog = { s with nv := { s.nv with log := s.programLog.nv.log }, stm := { s.stm with logPending := [] } } := by
  unfold State.programLog
  simp only
  rw [State.foldl_programEntry_eq]

/-- An entry that is appended changes the Stationmaster's log and the retained log alone. -/
theorem State.logAppend_eq (s : State) (t : Nat) (b : Bytes) :
    s.logAppend t b = { s with stm := (s.logAppend t b).stm, nv := { s.nv with log := (s.logAppend t b).nv.log } } := by
  unfold State.logAppend
  simp only
  split
  · rw [State.programLog_eq]
  · rfl

/-- SEQ of the entry that is appended. -/
theorem State.logAppend_logHead (s : State) (t : Nat) (b : Bytes) : (s.logAppend t b).stm.logHead = (s.stm.logHead + 1) % 2 ^ 32 := by
  unfold State.logAppend
  simp only
  split
  · rw [State.programLog_eq]
  · rfl

/-- The unit windows are no part of the log. -/
theorem State.logAppend_windows (s : State) (t : Nat) (b : Bytes) : (s.logAppend t b).stm.windows = s.stm.windows := by
  unfold State.logAppend
  simp only
  split
  · rw [State.programLog_eq]
  · rfl

-- ## Fault records (R515, R565, R573)

/-- A push to the fault manager changes what waits in a takeover, or what is sent. -/
theorem State.faultPush_eq (s : State) (r : Bytes) :
    s.faultPush r = { s with stm := (s.faultPush r).stm, mgmtOut := (s.faultPush r).mgmtOut } := by
  unfold State.faultPush
  split
  · rfl
  · split
    · split <;> rfl
    · rfl

/-- A fault record that is filed changes the log, its slice's telemetry and the messages. -/
theorem State.fileRecord_eq (s : State) (sl : Nat) (r : Bytes) :
    s.fileRecord sl r =
      { s with stm := (s.fileRecord sl r).stm, nv := { s.nv with log := (s.fileRecord sl r).nv.log },
               counts := (s.fileRecord sl r).counts, mgmtOut := (s.fileRecord sl r).mgmtOut } := by
  unfold State.fileRecord
  simp only
  rw [State.faultPush_eq, State.logAppend_eq]
  split <;> rfl

/-- A fault record changes no more than the log, the slice's telemetry, the messages and the count of dropped entries. -/
theorem State.faultRecord_eq (s : State) (u : Nat) (c : FaultClass) (src p sl a k : Nat) :
    s.faultRecord u c src p sl a k =
      { s with stm := (s.faultRecord u c src p sl a k).stm, nv := { s.nv with log := (s.faultRecord u c src p sl a k).nv.log },
               counts := (s.faultRecord u c src p sl a k).counts, mgmtOut := (s.faultRecord u c src p sl a k).mgmtOut,
               regs := (s.faultRecord u c src p sl a k).regs } := by
  unfold State.faultRecord
  split
  · rfl
  · rw [State.fileRecord_eq]

/-- The same for a record with the unit's own count. -/
theorem State.report_eq (s : State) (u : Nat) (c : FaultClass) (src p sl a : Nat) :
    s.report u c src p sl a =
      { s with stm := (s.report u c src p sl a).stm, nv := { s.nv with log := (s.report u c src p sl a).nv.log },
               counts := (s.report u c src p sl a).counts, mgmtOut := (s.report u c src p sl a).mgmtOut,
               regs := (s.report u c src p sl a).regs } :=
  State.faultRecord_eq s u c src p sl a (s.count24 u c)

-- ## Retirement (R501 to R506)

/-- The effect of a retirement at once changes the Stationmaster's list of units to evacuate and the page moves to them, or a Depot. -/
theorem State.retireEffect_eq (s : State) (u : Nat) :
    s.retireEffect u =
      { s with stm := (s.retireEffect u).stm, depots := (s.retireEffect u).depots, moves := (s.retireEffect u).moves } := by
  unfold State.retireEffect
  split
  · rfl
  · split <;> rfl

/-- The retirement record after a retirement: the same where the unit stood in it, one entry more where it did not. -/
theorem State.retireOne_record (s : State) (u : Nat) (c : FaultClass) (src p : Nat) :
    (s.retireOne u c src p).nv.retired = if s.retired u then s.nv.retired else s.nv.retired ++ [RetireEntry.mk u c src s.now] := by
  unfold State.retireOne
  split
  · rfl
  · simp only
    rw [State.retireEffect_eq, State.report_eq]
    rfl

/-- A retirement keeps everything but the registers, the Stationmaster, management flash, the telemetry, the messages, the Depots and the
page moves. -/
theorem State.retireOne_eq (s : State) (u : Nat) (c : FaultClass) (src p : Nat) :
    s.retireOne u c src p =
      { s with stm := (s.retireOne u c src p).stm, nv := (s.retireOne u c src p).nv, counts := (s.retireOne u c src p).counts,
               mgmtOut := (s.retireOne u c src p).mgmtOut, regs := (s.retireOne u c src p).regs,
               depots := (s.retireOne u c src p).depots, moves := (s.retireOne u c src p).moves } := by
  unfold State.retireOne
  split
  · rfl
  · simp only
    rw [State.retireEffect_eq, State.report_eq]
    rfl

/-- A unit that has been retired stands in the record. -/
theorem State.retireOne_retired (s : State) (u : Nat) (c : FaultClass) (src p : Nat) : (s.retireOne u c src p).retired u = true := by
  unfold State.retired
  rw [State.retireOne_record]
  split
  · assumption
  · simp

/-- An event enters the windows alone. -/
theorem State.addEvent_eq (s : State) (u : Nat) (k : EventKind) :
    s.addEvent u k = { s with stm := { s.stm with windows := (s.addEvent u k).stm.windows } } := rfl

/-- Retiring a unit, with the channel of a NAND die, only appends to the retirement record. -/
theorem State.retireUnit_record (s : State) (u : Nat) (c : FaultClass) (src p : Nat) :
    ∃ es : List RetireEntry, (s.retireUnit u c src p).nv.retired = s.nv.retired ++ es := by
  have one : ∀ (t : State) (v : Nat) (k : FaultClass) (x y : Nat), ∃ es : List RetireEntry, (t.retireOne v k x y).nv.retired = t.nv.retired ++ es := by
    intro t v k x y
    rw [State.retireOne_record]
    split
    · exact ⟨[], by simp⟩
    · exact ⟨_, rfl⟩
  unfold State.retireUnit
  split
  · exact ⟨[], by simp⟩
  · simp only
    obtain ⟨es, h⟩ := one s u c src p
    split
    · split
      · obtain ⟨fs, k⟩ := one ((s.retireOne u c src p).addEvent _ .memberRetired) _ .permanent src 0
        refine ⟨es ++ fs, ?_⟩
        rw [k, ← List.append_assoc, ← h]
        rfl
      · exact ⟨es, h⟩
    · exact ⟨es, h⟩

-- ## Commands in flight (R453 to R458)

/-- A command that finishes is found finished, with its status. -/
theorem State.cmd_finish (s : State) (c : Cmd) (st : Nat) (o : Bytes) (k : Nat) :
    (s.finish c st o k).cmd c.ring c.seq = some { c with stage := .finished, status := st, outputs := o, count := k } := by
  unfold State.finish State.cmd State.setCmd
  exact mapGet_mapSet_same _ _ _

/-- A command that another one's end leaves alone. -/
theorem State.cmd_finish_other (s : State) (c : Cmd) (st : Nat) (o : Bytes) (k r seq : Nat) (h : cmdKey r seq ≠ cmdKey c.ring c.seq) :
    (s.finish c st o k).cmd r seq = s.cmd r seq := by
  unfold State.finish State.cmd State.setCmd
  exact mapGet_mapSet_other _ _ h

/-- A status word that is rewritten changes the rings alone. -/
theorem State.updateStatus_eq (s : State) (r : Nat) : s.updateStatus r = { s with rings := (s.updateStatus r).rings } := rfl

/-- A counter that is spent changes the marks and registers alone. -/
theorem State.spendCounter_eq (s : State) (d ctr : Nat) :
    s.spendCounter d ctr = { s with nv := { s.nv with marks := (s.spendCounter d ctr).nv.marks }, regs := (s.spendCounter d ctr).regs } := rfl

/-- The counter that is spent becomes the last accepted (R467). -/
theorem State.lastCounter_spend (s : State) (d ctr : Nat) (h : ctr < 2 ^ 64) : (s.spendCounter d ctr).lastCounter d = ctr := by
  unfold State.lastCounter State.spendCounter
  rw [State.fld_setFld_same _ _ _ _ _ (by decide)]
  exact Nat.mod_eq_of_lt h

/-- The outcomes of the tag and the counter (R466, R467): refused and counted without a key or with a wrong tag, refused and counted with
a counter that is not above the last, or accepted with the counter spent. -/
theorem State.critical_cases (s : State) (d ctr : Nat) (m t : Bytes) (cust : String) :
    ((s.nv.ock = none ∨ ∃ k, s.nv.ock = some k ∧ kmac256 k m 16 cust ≠ t) ∧
      s.critical d ctr m t cust = (some stBADTAG, s.count CMD_CRITERR_BADTAG)) ∨
    ∃ k, s.nv.ock = some k ∧ kmac256 k m 16 cust = t ∧
      ((ctr ≤ s.lastCounter d ∧ s.critical d ctr m t cust = (some stBADCOUNTER, s.count CMD_CRITERR_BADCTR)) ∨
       (s.lastCounter d < ctr ∧ s.critical d ctr m t cust = (none, s.spendCounter d ctr))) := by
  unfold State.critical
  cases hk : s.nv.ock with
  | none => exact .inl ⟨.inl rfl, rfl⟩
  | some k =>
    by_cases ht : kmac256 k m 16 cust = t
    · refine .inr ⟨k, rfl, ht, ?_⟩
      by_cases hc : ctr ≤ s.lastCounter d
      · exact .inl ⟨hc, by simp [ht, hc]⟩
      · exact .inr ⟨by omega, by simp [ht, hc]⟩
    · exact .inl ⟨.inr ⟨k, rfl, ht⟩, by simp [ht]⟩

-- ## Reads and writes of the control window (R12 to R20)

/-- A write to the ring region changes the region inside a configured area, and counts elsewhere. -/
theorem State.writeRegion_cases (s : State) (off : Nat) (v : Word) :
    (s.inRingArea off = true ∧ s.writeRegion off v = { s with ringMem := memWrite s.ringMem off (leBytes 8 v.toNat) }) ∨
    (s.inRingArea off = false ∧ s.writeRegion off v = s.badWrite off) := by
  unfold State.writeRegion
  by_cases h : s.inRingArea off = true
  · exact .inl ⟨h, by simp [h]⟩
  · exact .inr ⟨by simpa using h, by simp [h]⟩

/-- A write to the ring region keeps its canonical form. -/
theorem State.writeRegion_wf (s : State) (off : Nat) (v : Word) (h : Memory.wf s.ringMem = true) :
    Memory.wf (s.writeRegion off v).ringMem = true := by
  rcases State.writeRegion_cases s off v with ⟨-, e⟩ | ⟨-, e⟩
  · rw [e]; exact memWrite_wf _ _ _ h
  · rw [e]; exact h

end Sys2Proof.Machine
end

