-- ==== Sys2Proof/Machine/Programs.lean ====
section
/-! DEFINITION. What the manual fixes for programs that the frames run, beside the instructions themselves: the accumulator preload and
the carry word of a layer (R194, R200), the routing of a mixture-of-experts layer (R223, R225), and the split and the join of a
reduction under a geometry (R230, R231). No command calls these: a consist's code computes them with the instructions of the frames. -/

namespace Sys2Proof.Machine

-- ## Preload and carry word (R194, R200)

/-- PRE of an output channel: bias over (sa × sw), to nearest even, less za × Wc; none outside INT32 (R194).
DEDUCED: log entry 93. -/
def preload (bias sa sw : Val) (za : Nat) (wc : Int) : Option Int :=
  let q := (bias.div (sa.mul sw)).signed
  let p := rneInt q.1 q.2 - za * wc
  if -(2 ^ 31 : Int) ≤ p ∧ p < 2 ^ 31 then some p else none

/-- The multiplier `n / d` of a layer as M, S and EXP of a carry word; none where it cannot be expressed (R200).
DEDUCED: log entry 93. -/
def foldScale (n d : Nat) (floatOut : Bool) : Option (Nat × Nat × Int) :=
  if n = 0 then some (0, 0, 0)
  else
    let e := floorLog2 n d + 1
    let times := fun (k : Int) => (rneInt (n * 2 ^ k.toNat) (d * 2 ^ (-k).toNat)).toNat
    let m := times (31 - e)
    let (m, e) := if m = 2 ^ 31 then (2 ^ 30, e + 1) else (m, e)
    if floatOut then (if -128 ≤ e ∧ e ≤ 127 then some (m, 31, e) else none)
    else if 31 - e > 62 then some (times 62, 62, 0)
    else if 31 - e < 0 then none
    else some (m, (31 - e).toNat, 0)

-- ## Mixture-of-experts routing (R223, R225)

/-- The experts that a token selects, best first: SEL.TOPK over its row of FP32 logits, the larger first. DEDUCED: log entry 93. -/
def gateCut (k : Nat) (logits : List Nat) : List SelEntry :=
  (topk 5 true false k SumSet.none ((List.range logits.length).map fun e => ⟨logits.getD e 0, e, e⟩)).kept

/-- The (token, rank) pairs of an expert, by token, then by rank. DEDUCED: log entry 93. -/
def expertPairs (routes : List (List Nat)) (e : Nat) : List (Nat × Nat) :=
  (List.range routes.length).flatMap fun t =>
    ((List.range (routes.getD t []).length).filter fun r => (routes.getD t []).getD r 0 == e).map fun r => (t, r)

/-- Pass and row of the pair at ordinal `o` of an expert of capacity `c`. DEDUCED: log entry 93. -/
def passRow (c o : Nat) : Nat × Nat := (o / c, o % c)

/-- Passes that a layer of `n` experts runs. DEDUCED: log entry 93. -/
def passCount (routes : List (List Nat)) (n c : Nat) : Nat :=
  maxNat ((List.range n).map fun e => ceilDiv (expertPairs routes e).length c)

/-- x of an expert's logit against the largest selected one: exp2 of LOG2E × (l − m). -/
def gateTerm (m l : Nat) : Nat := exp2Code (fpMul .fp32 log2e (fpSub .fp32 l m))

/-- Gate weights of a token's selected experts, in ascending expert index (R225); `mode` 0 softmax over the selection, 1 over all valid
experts, 2 raw. DEDUCED: log entry 93. -/
def gateWeights (mode : Nat) (logits : List Nat) (cut : List SelEntry) : List (Nat × Nat) :=
  let m := (cut.head?.map SelEntry.key).getD 0
  let chosen := (List.range logits.length).filter fun e => cut.any fun c => c.id == e
  let valid := (List.range logits.length).filter fun e => !(unfp32 (logits.getD e 0)).isNan
  let z := fpSum ((if mode = 0 then chosen else valid).map fun e => gateTerm m (logits.getD e 0))
  let same := chosen.countP fun e => logits.getD e 0 == m
  chosen.map fun e =>
    let l := logits.getD e 0
    (e,
      if mode = 2 then l
      else if (unfp32 m).isFin then fpDiv .fp32 (gateTerm m l) z
      else if l = m then fp32 ((Val.ofInt 1).div (Val.ofInt same))
      else 0)

/-- An element of a token's output: the gated expert outputs in ascending expert index; +0 for a token with no valid expert (R223).
DEDUCED: log entry 93. -/
def combine (gates : List (Nat × Nat)) (out : Nat → Nat) : Nat := fpSum (gates.map fun g => fpMul .fp32 g.2 (out g.1))

-- ## Reduction geometry (R230, R231)

/-- Parts of geometry `g` (Table 7-4). -/
def geomParts (g : Nat) : Nat := 10 + g

/-- First slab and slab past the last of part `i` of `p`, of `n` slabs (R230). -/
def partSlabs (n p i : Nat) : Nat × Nat := (min n (i * ceilDiv n p), min n ((i + 1) * ceilDiv n p))

/-- One round of the join: neighbours added, an odd last part carried over. -/
def joinRound (add : Nat → Nat → Nat) : List Nat → List Nat
  | a :: b :: rest => add a b :: joinRound add rest
  | l => l

/-- The join of partial sums, in rounds until one is left (R230). -/
def joinParts (add : Nat → Nat → Nat) : Nat → List Nat → Nat
  | 0, l => l.headD 0
  | fuel + 1, l => if l.length ≤ 1 then l.headD 0 else joinParts add fuel (joinRound add l)

end Sys2Proof.Machine
end

