-- ==== Sys2Proof/Tests/Slice0.lean ====
section
/-! SUPPORT. Tests: the manual's worked examples, ill-formed commands that the check refuses, and for every statement with conditions a state and operands that meet
them. -/

namespace Sys2Proof.Tests

set_option Elab.async false

open Sys2Proof Sys2Proof.Machine

-- ## States that the tests start from

/-- A powered device whose registers show a phase of start-up, variant B with 192 frames (R4), both Stationmasters running. -/
def inPhase (p : Nat) : State :=
  let s := { State.reset with pins := { State.reset.pins with powered := true }
                              stm := { State.reset.stm with jd0Up := true, jd1Up := true }
                              clock := { State.reset.clock with running := true, station := 5000000000, mono := 7000000000 } }
  let s := ((s.setFld GLB_GRADE_VARIANT 1).setFld GLB_GRADE_FRAMES 192).setFld GLB_GRADE_GEOM 2
  s.setFld GLB_BOOT_PHASE p

/-- A device that is READY. -/
def ready : State := inPhase phReady

-- ## Ill-formed commands, one for each check of WellFormed

theorem test_ring_checks : Instr.wellFormed (.nop 65 1) = false ∧ Instr.wellFormed (.nop 64 1) = true ∧
    Instr.wellFormed (.ringScan 64 0) = false ∧ Instr.wellFormed (.opkeyWrite 4 0) = false := by decide

theorem test_seq_checks : Instr.wellFormed (.nop 3 0) = false ∧ Instr.wellFormed (.commandStart 3 (2 ^ 64)) = false := by decide

theorem test_port_checks : Instr.wellFormed (.portReset 8 0 false 0) = false ∧ Instr.wellFormed (.cclRead 2 []) = false ∧
    Instr.wellFormed (.weightWrite 7 16 0) = false ∧ Instr.wellFormed (.policerWrite true 2 0 0) = false ∧
    Instr.wellFormed (.timetableSwitch 9 0) = false ∧ Instr.wellFormed (.nak 0 4096) = false := by decide

theorem test_packet_checks : Instr.wellFormed (.writeAck (List.replicate 4129 0)) = false ∧
    Instr.wellFormed (.flitReceive 0 (List.replicate 255 0)) = false := by decide +kernel

theorem test_die_checks : Instr.wellFormed (.refclk156Loss 4) = false ∧ Instr.wellFormed (.counterCheckpoint 0 2) = false ∧
    Instr.wellFormed (.eraseFailure 0 0 8 0 0) = false ∧ Instr.wellFormed (.blockErase 0 0 0 16 0) = false ∧
    Instr.wellFormed (.garbageCollect 0 0 [⟨0, 0, 2 ^ 25⟩]) = false ∧ Instr.wellFormed (.hbmTraining 10 []) = false ∧
    Instr.wellFormed (.crossingAlignAttempt ⟨.hbm, 640⟩ true []) = false := by decide

theorem test_unit_checks : Instr.wellFormed (.frameReset 192) = false ∧ Instr.wellFormed (.memoryUnitDrain 0xE000) = false ∧
    Instr.wellFormed (.unitRetire 4096 15) = false ∧ Instr.wellFormed (.walk 128 0) = false ∧
    Instr.wellFormed (.topkCall 16 0 .clean) = false ∧ Instr.wellFormed (.blockEncode 16 0 0 true) = false ∧
    Instr.wellFormed (.canaryStart 4096 8 0) = false ∧ Instr.wellFormed (.canaryStart 4096 7 4096) = false := by decide

theorem test_number_checks : Instr.wellFormed (.sliceReset 64) = false ∧ Instr.wellFormed (.logAppend 12 []) = false ∧
    Instr.wellFormed (.stationmasterWatchdogExpiry 2 0) = false ∧ Instr.wellFormed (.claimRepeat (2 ^ 64)) = false ∧
    Instr.wellFormed (.ownershipDone 1 (2 ^ 17) 0 0) = false ∧ Instr.wellFormed (.ownershipDone 1 1 (2 ^ 32) 0) = false ∧
    Instr.wellFormed (.ownershipClaim 1 1 0 0 65536 0) = false ∧ Instr.wellFormed (.sramScrub ⟨5, 0, 0, 0⟩ .good) = false := by decide

-- ## Worked examples of the manual

/-- Tables 4-6 and 4-7: the kept ids, TIECOUNT, CONFLICTS, SUMIN 5.0 and SUMOUT +∞ with OUTACC 2.5. -/
theorem test_topk_corners :
    let r := topk 5 false true 4 ⟨true, false, 0, 0⟩
      [⟨0x40200000, 0, 0x40⟩, ⟨0x80000000, 1, 0x17⟩, ⟨0x7FC00000, 2, 5⟩, ⟨0, 3, 9⟩, ⟨0x40200000, 4, 0x22⟩, ⟨0x40200000, 5, 0x31⟩,
       ⟨0x7F800000, 6, 2⟩, ⟨0x3F800000, 7, 0x17⟩]
    (r.kept.map fun e => (e.id, e.pos)) = [(9, 3), (0x17, 1), (0x22, 4), (0x31, 5)] ∧ r.sum.tiecount = 3 ∧ r.sum.conflicts = 1 ∧
      r.sum.dups = 0 ∧ r.sum.elements = 8 ∧ r.sum.invalid = 1 ∧ r.sum.sumin = 0x40A00000 ∧ r.sum.sumout = 0x7F800000 ∧
      r.sum.out = ⟨5 * 2 ^ 148, true, false⟩ := by decide +kernel

/-- A list of four of the second example of chapter 4. -/
def listOf (es : List SelEntry) (ties : Nat) : Selected :=
  ⟨es, { (topk 0 false true 4 SumSet.none []).sum with valid := 4, tiecount := ties }⟩

/-- The merged order, TIECOUNT 4 and DUPS 1. -/
theorem test_merge_lists :
    let r := mergeLists 0 false 4 SumSet.none
      [listOf [⟨101, 5, 0x10⟩, ⟨104, 9, 0x11⟩, ⟨107, 2, 0x12⟩, ⟨107, 4, 0x15⟩] 3,
       listOf [⟨104, 70, 0x11⟩, ⟨107, 81, 0x08⟩, ⟨112, 90, 0x21⟩, ⟨115, 91, 0x22⟩] 1]
    r.kept = [⟨101, 5, 0x10⟩, ⟨104, 9, 0x11⟩, ⟨107, 81, 0x08⟩, ⟨107, 2, 0x12⟩] ∧ r.sum.tiecount = 4 ∧ r.sum.dups = 1 ∧
      r.sum.conflicts = 0 := by decide +kernel

/-- Table 3-6 with the counter's last digits: what Q1 (5) and Q2 (7) see. -/
theorem test_visibility :
    ([Life.mk 5 (2 ^ 48 - 1) 0, Life.mk 1 6 0, Life.mk 1 7 0, Life.mk 7 (2 ^ 48 - 1) 0, Life.mk 8 (2 ^ 48 - 1) 0].map
      fun l => (l.visible 5, l.visible 7)) = [(true, true), (true, false), (true, false), (false, true), (false, false)] := by decide

/-- The gradient sum of chapter 5: (−2^24 + 1) + 2^24 = 1. -/
theorem test_gradient_order :
    gradSum [⟨0, 0, 2, 5, 0x44800000, [0x74]⟩, ⟨0, 0, 0, 9, 0x44800000, [0x14]⟩, ⟨0, 0, 0, 3, 0x44800000, [0xF4]⟩] 0 = 0x3F800000 := by
  decide +kernel

/-- The constant channels of chapter 6: SCALE and ZP of 0.75, −2.5 and 0. -/
theorem test_constant_channels :
    ([unfp32 0x3F400000, unfp32 0xC0200000, Val.ofInt 0].map fun v =>
      let r := scanGroup .uint8 4 true false 255 [v, v]
      (r.scale, r.zp, r.const)) = [(0x3F400000, 0, true), (0x40200000, 1, true), (0x3F800000, 0, true)] := by decide +kernel

/-- Table 6-7: four sums carried, two of them saturated. -/
theorem test_carry :
    ([1075, 42315, 88515, -5581].map fun (x : Int) =>
      let c := carrySum ⟨0x60000000, 39, 10, 0, 4, false, false⟩ .uint8 (1485 + x)
      (c.code, c.sat)) = [(18, false), (138, false), (255, true), (0, true)] := by decide +kernel

/-- The fold and the preload of the same layer. -/
theorem test_fold : foldScale 3 1024 false = some (0x60000000, 39, 0) ∧
    preload (unfp32 0x3F000000) (.fin false 3 64) (.fin false 1 128) 3 (-40) = some 1485 := by decide +kernel

/-- Table 7-3: the assignment of eight tokens, and its two passes. -/
theorem test_routes :
    let routes := [[1, 2], [1, 3], [1, 0], [2, 1], [1, 2], [0, 3], [1, 2], [3, 0]]
    expertPairs routes 1 = [(0, 0), (1, 0), (2, 0), (3, 1), (4, 0), (6, 0)] ∧ expertPairs routes 2 = [(0, 1), (3, 0), (4, 1), (6, 1)] ∧
      passCount routes 4 3 = 2 ∧ passRow 3 5 = (1, 2) := by decide

/-- The split of R230: 256 slabs under GEOM 0x2 and 0x0. -/
theorem test_parts : partSlabs 256 12 11 = (242, 256) ∧ partSlabs 256 12 0 = (0, 22) ∧ partSlabs 256 10 9 = (234, 256) := by decide

/-- Table 10-12: the bundle with ADDI, VFMA and CARRY. -/
theorem test_bundle :
    decodeBundle 0x10248400001010221840000155A00000 =
      some ⟨⟨0, false⟩, .imm .add 4 4 1, ⟨0, false⟩, .fma .f32 1 2 3 1, ⟨0, false⟩, .carry 1 5 6 true⟩ := by decide +kernel

/-- Chapter 5's moving row: home shard 15, 256 bytes of value, 320 of state. -/
theorem test_table_layout :
    let t : Table :=
      { slice := 0, rows := 400000000, w := 128, rfmt := 0, shard := 0, opt := 3, statefmt := 0, b1 := 0, b2 := 0, eps := 0, repl := false,
        devs := List.range 16, mine := 0, tepoch := 0, values := [], states := [], dir := [], grads := [], total := 0, counts := [],
        lastTotal := 0, overrun := 0, age := 0, cold := [], moves := [], toRepl := [], toHome := [], cfg := 0, migrDone := 0,
        migrAbandoned := 0, dirFull := 0 }
    t.home 393685509 = 15 ∧ t.rowSize = 256 ∧ t.stateSize = 320 := by decide

/-- Table 20-12: five balls. -/
theorem test_balls :
    ballName 10 51 = "L51" ∧ ballAt 10 51 = .nand 37 (.ceN 12) ∧ ballName 27 64 = "AJ64" ∧ ballAt 27 64 = .ddr 9 true (.dqsC 3) ∧
      ballName 35 8 = "AV8" ∧ ballAt 35 8 = .ddr 0 false .alertN ∧ ballName 50 55 = "BN55" ∧ ballAt 50 55 = .jugan 5 false 2 false ∧
      ballAt 55 106 = .vin50 ∧ ballAt 56 111 = .vin50 := by decide +kernel

/-- CRC-32C of "123456789", the check value that the polynomial's definition gives. -/
theorem test_crc32c : crc32c [0x31, 0x32, 0x33, 0x34, 0x35, 0x36, 0x37, 0x38, 0x39] = 0xE3069283 := by decide +kernel


/-- Every training of step 7 is over (variant B). -/
def trainedState : State :=
  { inPhase phTrain with boot := { State.reset.boot with
      hbmDone := List.range 8, ddrDone := true, nandDone := (List.range 64).map fun c => (c / 16, c % 16) } }

/-- A NAND channel's devices within the limits of Table 12-1. -/
def goodNand : NandInfo :=
  { packages := 4, chipEnables := 16, dies := 16, mts := 3600, toggle := false, cellBits := 3, pageBytes := 16384, spareBytes := 1664,
    ppb := 2304, blocks := 1024, model := 7, endurance := 3000 }

/-- Passes in both directions of a crossing. -/
def goodPasses : List AlignPass := [⟨(List.range 64).map trainingWord, 4⟩, ⟨(List.range 64).map trainingWord, 5⟩]

/-- Lanes of every Depot rebuilt. -/
def rebuiltState : State := { inPhase phRebuild with boot := { State.reset.boot with lanesDone := (List.range 8).map fun k => (k / 2, k % 2) } }

/-- A device that is READY with every crossing aligned and both CCL pigtails off. -/
def linked : State :=
  { ready with boot := { State.reset.boot with aligned := (List.range 10).map fun p => (portCrossing p, [12, 12]) } }

/-- The same with Jugan port 5 UP on four lanes and CCL port 1 UP. -/
def portsUp : State := (linked.setPortState 5 2 15).setPortState 9 2 15

/-- A command of ring 3 that runs in slice 0, with parameter bytes at the offsets given. -/
def cmdOf (op : Nat) (ps : List (Nat × Bytes)) : Cmd :=
  let base := leBytes 4 1 ++ leBytes 2 op ++ List.replicate 250 0
  let entry := ps.foldl (fun e p => e.take p.1 ++ p.2 ++ e.drop (p.1 + p.2.length)) base
  { ring := 3, seq := 1, slice := 0, entry := entry, mgmtPayload := [], reqid := 0, stage := .running, status := 0, count := 0,
    ticket := noTicket, handle := 0, outputs := [], tadmit := 5000000000, accepted := false, noRecord := false, step := 0, since := 0,
    progress := 0, pcount := 0, partialSeen := false, rekey := none }

/-- Ring 3 of a READY device with its areas set: entries at 0x0100000, data at 0x0200000 of 65536 bytes. -/
def ringSet : State :=
  let s := (ready.setFld CMD_RINGAREA_OFFSET 0x0100000 3).setFld CMD_DATAAREA_OFFSET 0x0200000 3
  (s.setFld CMD_DATAAREA_SIZE 65536 3).setFld CMD_RINGCFG_INFLIGHT 16 3

/-- The same with ring 3 enabled, 16 entries long. -/
def ringOn : State := (ringSet.setFld CMD_RINGCFG_LOG2N 4 3).setFld CMD_RINGCFG_EN 1 3

/-- An empty index of slice 0, with ticket 6 given out and its floor at 3. -/
def anIndex : Index := { Index.blank 0 1 16 0 64 false 1000 64 [] 0 [0] with counter := 6, floor := 3 }

/-- A READY device on which that index is number 0. -/
def indexed : State := { ready with indexes := [(0, anIndex)] }

/-- Index 0 with two points: id 0, the entry, and id 1, whose list points to id 0; ticket 2 is the last. -/
def pair : Index :=
  { Index.blank 0 0 8 0 64 false 1000 64 [] 77 [0] with
    counter := 2, life := [(0, ⟨1, noTicket, 0⟩), (1, ⟨2, noTicket, 5⟩)], imgver := 4
    recs := [(0, ⟨3, 1 :: List.replicate 7 nullId, true⟩), (1, ⟨1, 0 :: List.replicate 7 nullId, true⟩)] }

/-- Ring 3 with a command that runs, and index 0 as given. -/
def onIndex (x : Index) (c : Cmd) : State := { (ringOn.setFld SRC_MERGECFG_MERGESW 256) with indexes := [(0, x)], cmds := [(cmdKey 3 1, c)] }

/-- A write of ring 3 that has been staged. -/
def stagedWrite (olds : List Nat) (news : List NewPoint) (acked : Bool) : StagedWrite :=
  { ring := 3, seq := 1, olds := olds, news := news, buf := 0, acked := acked, ticket := noTicket, status := stOK }

/-- The DELETE of id 1 that the tests run. -/
def deleteCmd : Cmd := { cmdOf 0x0012 [(12, leBytes 4 64), (34, leBytes 2 1)] with mgmtPayload := [] }

/-- The two points and a merge of a sealed buffer that holds a third, id 2. -/
def merging (stage : MergeStage) (found : KMap (List Nat)) (lists : List (Nat × List Nat)) : Index :=
  { pair with life := pair.life ++ [(2, ⟨2, noTicket, 0⟩)]
              act := 1, bufs := [{ st := .sealed, slots := [(2, 7)], ts := 2, v0 := 4, f := 0 }, { Siding.blank with st := .active }]
              merge := some { buf := 0, v0 := 4, sw := 256, stage := stage, found := found, lists := lists, newRecs := [2], first := true } }

/-- A log of a size that holds a record of `n` bytes. -/
theorem log_fits (n : Nat) : decide (sumNat [] + sumNat [n] ≤ n * 2 ^ 20) = true := by simp [sumNat]; omega

/-- Its active buffer at 75 %. -/
def full : Index := { pair with bufs := [{ Siding.blank with st := .active, slots := List.replicate 49152 (5, 0) }, Siding.blank] }

theorem full_due : full.sealDue = true := by
  show (decide (sealPoint ≤ (List.replicate 49152 ((5 : Nat), (0 : Nat))).length) && true) = true
  rw [List.length_replicate]
  rfl

/-- Id 1 is deleted at ticket 3, and a whole repair pass has run since. -/
def gone : Index :=
  { pair with counter := 5, life := [(0, ⟨1, noTicket, 0⟩), (1, ⟨2, 3, 5⟩)], imgver := 6
              passesDone := [⟨4, 0, 5⟩], delAt := [(1, 0)] }

/-- Flags of a PERSIST allocation. -/
def persistAlloc (name size : Nat) : Alloc :=
  { slice := 1, consist := 0, num := 0, lframe := 0, name := name, size := size, flags := persistFlags, tier := 4, pages := [], hits := [],
    low := [], last := [], flash := [], age := 0, users := [], mem := [] }

/-- The entry of a tenant slice with 16 frames, 4 granules, 16 pseudo-channels, one rank, one Shunter and one Selector, class 1. -/
def tenantEntry : SliceEntry :=
  { st := .inService, signReq := false, borrow := false, classes := 2, power := 100,
    comp := { frames := 0xFFFF, shunters := 1, selectors := 1, jdies := 0, granules := [0, 1, 2, 3], pcs := 0xFFFF, ranks := 1, nandDies := 1,
              nsUnits := [1048576, 0, 0, 0] },
    policyKey := none, namespaces := [some 1, none, none, none] }

/-- Ring 3 belongs to tenant slice 1, which has memory in every tier; PERSIST allocations named 9 and 10 exist. -/
def tenant : State :=
  { ringOn.setFld JUG_NODE_NODE 0 with
    nv := { ringOn.nv with slices := [(1, tenantEntry)], record := { ringOn.nv.record with enableMap := 0xFFFF } }
    boot := { ringOn.boot with dimms := [(0, (1, 2 ^ 34))] }
    depots := ringOn.depots.set 0 { Depot.blank with namespaces := [(1, ⟨1048576, [(0, 0)], 1, []⟩)] }
    allocs := [(50, persistAlloc 9 65536), (51, persistAlloc 10 65536)], nextId := 60 }

/-- The tenant with a command that runs. -/
def tenantRuns (c : Cmd) : State := tenant.setCmd { c with slice := 1 }

/-- A command of the tenant. -/
def cmd1 (op : Nat) (ps : List (Nat × Bytes)) : Cmd := { cmdOf op ps with slice := 1 }

/-- An empty index of the tenant whose store is allocation 51. -/
def tenantIndex : Index := Index.blank 1 0 8 0 1 false 10 4 [] 51 [0]

/-- A table of the tenant. -/
def aTable : Table := (cmd1 0x0020 [(40, leBytes 8 100), (48, leBytes 2 8), (64, leBytes 4 0x3F800000)]).table [0] 0 (ringOn.reg .memTblcfg 0 0).toNat

/-- An attention sequence of the tenant: one layer, one head, 256 positions. -/
def aSeq : Seq :=
  (cmd1 0x0028 [(34, leBytes 2 1), (36, [1, 1]), (38, leBytes 2 32), (44, [1])]).seqArgs [0] 0 []

/-- The image of an empty index: its header with the digest of what follows (Tables 2-3 and 2-4), one entry id, two empty sections. -/
def savedBytes : Bytes :=
  [80, 78, 73, 88, 1, 0, 0, 8, 0, 0, 0, 0, 10, 0, 0, 0, 1, 0, 64, 0, 1, 0, 0, 0, 0, 0, 0, 0, 0, 0, 0, 0, 192, 14, 240, 24, 34, 186, 50, 108,
   223, 249, 0, 151, 189, 245, 166, 47, 64, 105, 95, 238, 84, 217, 189, 39, 171, 19, 252, 3, 86, 126, 225, 145] ++ List.replicate 64 0 ++
  1 :: List.replicate 63 0 ++ 2 :: List.replicate 63 0

/-- It as allocation 51 of the tenant. -/
def imageAlloc : Alloc := { persistAlloc 10 256 with mem := memWrite [] 0 savedBytes }

/-- What the image takes apart into. -/
def loadParts : ImageParts :=
  { skw := 0, degree := 8, points := 0, capacity := 10, ticket := 0, entries := [0], records := [], life := [], siding := [] }

/-- The index that it opens as. -/
def loadIndex : Index := loadParts.open_ 1 0 1 false 4 (List.replicate 256 0) 52

/-- The tenant with the image, a projection and a store of one-element vectors. -/
def loadState (c : Cmd) : State :=
  { tenantRuns c with allocs := [(50, persistAlloc 9 65536), (51, imageAlloc), (52, persistAlloc 11 65536)]
                      stores := [(52, { dim := 1, vecfmt := 0, capacity := 10, logsize := 1, log := [] })] }

/-- A consist of 11 frames whose one frame image only halts, and the tenant's run of it that waits. -/
def aConsist : Consist :=
  { slice := 1, geom := 1, nframes := 11, srkey := 0, tallykey := 0, pubframe := 0, bartimeout := 0, runtimeout := 0, parambytes := 0,
    resultbytes := 0, images := [], framemap := [], tds := [], digestPlan := [], windows := [], allocs := [], locals := [] }

def aRun : Run :=
  { ring := 3, seq := 1, slice := 1, handle := 40, phys := [], job := 0, tallies := [], windows := [], startedAt := 0, barFirst := [],
    barSent := 0, restartable := true, restarted := false, quarantined := false, mismatch := false, timedOut := false, wrong := false,
    shadows := [], halts := [] }

/-- A SEARCH of the tenant's index, and a device that can run it. -/
def searchCmd : Cmd := cmd1 0x0010 [(12, leBytes 4 2), (20, leBytes 4 512), (32, leBytes 2 5), (44, leBytes 2 1), (46, leBytes 2 4)]

def searchable : State := { tenantRuns searchCmd with indexes := [(5, tenantIndex)] }

def searchWalk : Walk :=
  Walk.start 5 1 0 none (sketchOf [] 256 1 (int8Codes (vecFmt 0) [0]).1) 128 1024 4096 2 (tenantIndex.entrySet 1) 4 false 0 []

/-- The same under an RRMODE, with its query cut. -/
def rankCmd (m : Nat) : Cmd :=
  cmd1 0x0010 [(12, leBytes 4 2), (20, leBytes 4 512), (32, leBytes 2 5), (35, leBytes 1 m), (44, leBytes 2 1), (46, leBytes 2 4)]

def aQuery (staged1 : Bool) : Query :=
  { index := 5, ticket := 0, row := [], summary := [], stats := [], vec := [0], staged1 := staged1, visrej := 0, filtrej := 0, finalsw := 128,
    hoplimit := false, widened := false }

def queried (m : Nat) (staged1 : Bool) : State :=
  { tenantRuns (rankCmd m) with indexes := [(5, tenantIndex)], queries := [(cmdKey 3 1, aQuery staged1)] }

/-- A consist of one frame whose image is one bundle (Tables 9-1 to 9-3), with the digest of its bytes. -/
def packageBytes : Bytes :=
  [67, 78, 83, 84, 1, 0, 0, 0, 1, 0, 1] ++ List.replicate 13 0 ++ [2] ++ List.replicate 15 0 ++ [255, 255] ++ List.replicate 22 0 ++
  [1, 0, 0, 1, 0, 0, 0, 0, 192, 0, 0, 0, 0, 0, 0, 0, 2, 0, 192, 1, 0, 0, 0, 0, 2, 0, 0, 0, 0, 0, 0, 0, 5, 0, 0, 2] ++ List.replicate 92 0 ++
  [251, 100, 72, 158, 187, 40, 31, 204, 101, 251, 40, 219, 26, 223, 194, 187, 243, 52, 76, 59, 126, 163, 236, 113, 124, 72, 210, 128, 212,
   205, 209, 182] ++ List.replicate 36 0 ++ [16] ++ List.replicate 43 0 ++ List.replicate 32 255 ++ List.replicate 176 0

def packageBuf : StageBuf := ⟨512, memWrite [] 0 packageBytes, [(0, 512)]⟩

def loadCheckCmd : Cmd := cmd1 0x0030 [(48, [1])]

def loadable : State := (tenantRuns loadCheckCmd).setRing 3 { Ring.initial with staging := some packageBuf }

def loadedState : State × Nat :=
  match (loadable.dropStaging 3).loadConsist 1 packageBytes with
  | .inr p => p
  | .inl _ => (loadable, 0)

theorem of_isRight (x : Nat ⊕ (State × Nat)) (h : x.isRight = true) : ∃ u n, x = .inr (u, n) := by
  cases x with
  | inl a => cases h
  | inr p => exact ⟨p.1, p.2, rfl⟩

/-- A sequence with one key, and an ATTEND at its position with a window of one and no selected keys. -/
def aKeyedSeq : Seq :=
  { aSeq with nkeys := [(0, 1)], keys := [(0, List.replicate 32 0)], vals := [(0, List.replicate 32 0)] }

def attendCmd : Cmd :=
  cmd1 0x002B [(12, leBytes 4 68), (20, leBytes 4 256), (32, leBytes 2 2), (40, leBytes 4 1), (48, leBytes 4 1), (52, [1]),
    (56, leBytes 4 0x3F800000)]

def attendState : State := { tenantRuns attendCmd with seqs := [(2, aKeyedSeq)] }

/-- The call has its outputs. -/
def isDone : HeadRes → Bool
  | .ok (some _) => true
  | _ => false

theorem of_done (x : HeadRes) (h : isDone x = true) : ∃ u o l, x = .ok (some (u, o, l)) := by
  unfold isDone at h
  split at h
  · exact ⟨_, _, _, rfl⟩
  · cases h

def attended : State × Bytes :=
  match attendState.attendAll attendCmd aKeyedSeq 1 (attendState.payload attendCmd) [0] [] with
  | .ok (some (s, o, _)) => (s, o)
  | _ => (attendState, [])

/-- An image of 4,096 bytes of header for variant B, version 7, floor 3 (Table 19-4a), staged whole. -/
def imageBuf : StageBuf :=
  ⟨4096, memWrite [] 0 (leBytes 4 0x4D545350 ++ leBytes 4 1 ++ leBytes 4 7 ++ leBytes 4 3 ++ leBytes 4 0 ++ leBytes 4 0xFFFF), [(0, 4096)]⟩

/-- A command that runs beside that image. -/
def stagedImage (c : Cmd) : State := let s := ringOn.setCmd c; { s with stm := { s.stm with stage := some imageBuf } }

def aSlot (v : Nat) : FwSlot :=
  { present := true, version := v, floor := v, variants := 7, measurement := [], measOk := true, sigOk := true }

/-- The standby is ready; slot A runs version 5, slot B holds version 7. -/
def standing : State :=
  let s := ringOn.setFld STM_STATE_STANDBY 2
  { s with nv := { s.nv with slotA := aSlot 5, slotB := aSlot 7 } }

/-- An image has been verified. -/
def verifiedState (c : Cmd) : State := let s := standing.setCmd c; { s with stm := { s.stm with verified := some (aSlot 7) } }

/-- A trial goes on. -/
def onTrial (c : Cmd) : State := let s := standing.setCmd c; { s with nv := { s.nv with trial := some ⟨1, 0⟩ } }

/-- An activation of slot B stands at a step. -/
def activating (st : ActStage) (mode : Nat) : State :=
  let s := standing.setCmd (cmdOf 0x0101 [])
  { s with stm := { s.stm with act := { stage := st, cmd := some (3, 1), mode := mode, slot := 1 } } }

/-- The payload of a create or an amend: frame 20, Shunter 5, Selector 3, pseudo-channel 40 (Table 18-2). -/
def newTenant : Bytes :=
  leBytes 24 (2 ^ 20) ++ leBytes 16 32 ++ leBytes 2 8 ++ List.replicate 6 0 ++ leBytes 80 (2 ^ 40) ++ List.replicate 192 0

def createCmd : Cmd := cmdOf 0x0102 [(12, leBytes 4 320), (32, [2]), (34, leBytes 2 2), (36, leBytes 2 10)]

def amendCmd : Cmd := cmdOf 0x0102 [(12, leBytes 4 320), (32, [1, 4]), (34, leBytes 2 2), (36, leBytes 2 10)]

/-- A device with no tenant and an envelope of 600 W, with a create that runs. -/
def creating : State :=
  let s := ((ringOn.setFld PWR_ENVELOPE_ENV 600).setFld PWR_ENVELOPE_RESERVE 48).setCmd createCmd
  { s with ringMem := memWrite [] 0x0200000 newTenant, nv := { s.nv with record := { s.nv.record with enableMap := 2 ^ 192 - 1 } } }

/-- What slice 1 holds before it is amended: frame 21 and the other units of the payload. -/
def amendedFrom : SliceEntry :=
  { creating.tenantEntry createCmd false newTenant with comp := { (creating.tenantEntry createCmd false newTenant).comp with frames := 2 ^ 21 } }

/-- That device with slice 1 and an amend that runs. -/
def amending : State :=
  let s := creating.setCmd amendCmd
  { s with nv := { s.nv with slices := [(1, amendedFrom)] } }

def creatingOn : State :=
  let v := (creating.fixPages 0).setCmd { createCmd with step := 1, since := creating.clock.mono }
  { v with stm := { v.stm with changing := mapSet v.stm.changing 2 (creating.tenantEntry createCmd false newTenant) } }

def amendingOn : State :=
  let v := ((amending.fixPages 0).fixPages 1).setCmd { amendCmd with step := 1, since := amending.clock.mono }
  { v with stm := { v.stm with changing := mapSet v.stm.changing 1 (amending.tenantEntry amendCmd true newTenant) } }

/-- A Depot whose lane 1 is SUSPECT. -/
def suspectDepot : Depot := { Depot.blank with lanes := [Lane.blank, { Lane.blank with st := .suspect }] }

/-- EPOCH 5, one part, domain node 0, no trees (Table 13-8). -/
def epochBody : Bytes := leBytes 4 5 ++ leBytes 2 0 ++ leBytes 2 1 ++ leBytes 2 1 ++ leBytes 2 0 ++ leBytes 4 0 ++ leBytes 4 0

def epochs (c : Cmd) : State := { tenant.setCmd c with ringMem := memWrite [] 0x0200000 epochBody }

/-- Timetable 8 has two admin entries of 600 ns. -/
def timetabled (c : Cmd) : State := ((ringOn.setFld SHP_TTADMIN_DURATION 600 8 0).setFld SHP_TTADMIN_DURATION 600 8 1).setCmd c

/-- An allocation of slice 0 in DDR5. -/
def aPage : Alloc := { persistAlloc 9 65536 with slice := 0, flags := { persistFlags with persist := false, warm := true }, tier := 3 }

/-- Node 7 in epoch 5 with a job whose first page is that allocation's. -/
def onFabric : State :=
  let s := ((portsUp.setFld JUG_NODE_NODE 7).setFld JUG_EPOCH_EPOCH 5).setFld JUG_EPOCH_STATE 1
  { s with allocs := [(50, aPage)], jobs := [(1, ⟨0, 1, 4, [(0, ⟨50, 0, true, true, true⟩)], some []⟩)] }

/-- Port 5 with a pending list in timetable 5 and an operative one in timetable 6. -/
def timed : State :=
  { portsUp with timetables := [(5, { Timetable.blank with pend := some (⟨0, [(600, 1), (400, 3)]⟩, 5000500000) }),
                                (6, { Timetable.blank with oper := some ⟨0, [(600, 2), (400, 0xFFFF)]⟩ })] }

/-- A DATA flit without its CRC: sequence 0, acknowledgement 7, 12 credits of class 3. -/
def flitHead : Bytes := leBytes 1 1 ++ leBytes 2 0 ++ leBytes 2 7 ++ leBytes 1 3 ++ leBytes 2 12 ++ [1, 2, 3] ++ List.replicate 241 0

def goodFlit : Bytes := flitHead ++ leBytes 4 (crc32c flitHead).toNat

def badFlit : Bytes := flitHead ++ leBytes 4 ((crc32c flitHead).toNat + 1)

theorem flit_parts (b : Bytes) (v : Nat) (h : b.length = 252) :
    (b ++ leBytes 4 v).length = 256 ∧ leAt (b ++ leBytes 4 v) 252 4 = v % 2 ^ 32 ∧ bytesAt (b ++ leBytes 4 v) 0 252 = b := by
  refine ⟨by simp [h], ?_, ?_⟩
  · rw [← h]; exact leAt_append b _ 4 v [] (List.append_nil _).symm
  · unfold bytesAt
    simp [List.take_left' h, h]

theorem goodFlit_crc : goodFlit.length = 256 ∧ leAt goodFlit 252 4 = (crc32c (bytesAt goodFlit 0 252)).toNat := by
  have h := flit_parts flitHead (crc32c flitHead).toNat (by decide +kernel)
  have := (crc32c flitHead).isLt
  refine ⟨h.1, ?_⟩
  unfold goodFlit
  rw [h.2.1, h.2.2]
  omega

theorem badFlit_crc : badFlit.length = 256 ∧ leAt badFlit 252 4 ≠ (crc32c (bytesAt badFlit 0 252)).toNat := by
  have h := flit_parts flitHead ((crc32c flitHead).toNat + 1) (by decide +kernel)
  have := (crc32c flitHead).isLt
  refine ⟨h.1, ?_⟩
  unfold badFlit
  rw [h.2.1, h.2.2]
  omega

/-- A READ of this device towards node 3. -/
def askPkt : Pkt := Pkt.mk opREAD 1 false false 0 3 7 1 5 64 0 0 8 0 []

def loadReq : Req :=
  { packet := askPkt.bytes, frame := some (60, 0), stage := .sent, firstAt := 7000000000, sentAt := 7000000000, retries := 0, busyAt := none,
    reg := 4, size := 3, sx := false, lineOff := 0 }

def aFrame : Frame := { Frame.start 60 0 aConsist with wait := .reply 90 4 }

/-- Frame 0 of run 60 has issued a request. -/
def issued (r : Req) (x : Frame) : State :=
  { onFabric with fab := { onFabric.fab with reqs := [(90, r)] }, runs := [(60, { aRun with phys := [0], job := 1 })], frames := [(0, x)] }

def loading : State := issued loadReq aFrame

def asking : State := issued { loadReq with stage := .ready } aFrame

/-- Its packet waits in the queue of class 1 of port 5 with credits of the link. -/
def queued : State :=
  asking.setPort 5 { (asking.port 5) with queues := [(1, [⟨askPkt.bytes, 0, 0⟩])], linkCredit := [(1, 100)] }

def atomReq : Req :=
  { loadReq with packet := (Pkt.mk opATOMIC 1 false false 0x10 3 7 1 5 64 9 0 16 0 (List.replicate 16 0)).bytes }

def atoming : State := issued atomReq aFrame

def busyReply : Pkt := Pkt.mk 0x84 1 false false 0x10 7 3 1 5 64 9 0 0 0x10 []

def storeReq : Req := { loadReq with packet := (Pkt.mk opWRITE 1 false false 3 3 7 1 5 64 0 0 8 0 (List.replicate 8 1)).bytes }

def storing : State := issued storeReq { aFrame with stores := [90] }

def msgReq : Req := { loadReq with packet := (Pkt.mk opMSG 1 false false 0 3 7 1 5 0 0 0 3 0 [1, 2, 3]).bytes, frame := none }

def messaging : State := issued msgReq aFrame

def busyMsg : Pkt := Pkt.mk 0x85 1 false false 0 7 3 1 5 0 0 0 0 0x10 []

/-- The header of a control packet from node 3 in epoch 5 with `len` payload bytes. -/
def ctlHead (op dst len : Nat) : Bytes := (Pkt.mk op 0 false false 0 dst 3 0 5 0 0 0 len 0 []).bytes

def theKey : Bytes := List.replicate 32 7

/-- A control packet with the payload given, tagged under that key. -/
def tagged (op dst : Nat) (body : Bytes) : Bytes :=
  ctlHead op dst (body.length + 16) ++ (body ++ kmac256 theKey (ctlHead op dst (body.length + 16) ++ body) 16 "PN-880 fabric")

def keyed : State :=
  { onFabric with nv := { onFabric.nv with ock := some (List.replicate 32 7) }, fab := { onFabric.fab with leaseAt := some 6900000000 } }

def leaseBody : Bytes := leBytes 8 9 ++ leBytes 4 5 ++ leBytes 4 0

def leased : State := (keyed.tick 10).spendCounter 1 (leAt leaseBody 0 8)

def fenceBody (node : Nat) : Bytes := leBytes 8 9 ++ leBytes 4 5 ++ leBytes 4 node

def fenceSeen (node : Nat) : State := keyed.spendCounter 1 (leAt (fenceBody node) 0 8)

/-- Part 0 of an EPOCH_SET of `n` parts for epoch 6 with no domain and no trees (Table 13-8). -/
def partBody (n : Nat) : Bytes := leBytes 4 6 ++ leBytes 2 0 ++ leBytes 2 n ++ leBytes 2 0 ++ leBytes 2 0 ++ leBytes 4 0

def ctrPart (n : Nat) : Bytes := leBytes 8 9 ++ partBody n

def partSeen : State := keyed.spendCounter 1 (leAt (ctrPart 2) 0 8)

/-- A fenced device with a request of its own. -/
def fencedState : State := (loading.setFld JUG_EPOCH_STATE 2)

/-- Node 7 is the root of a tree of three. -/
def leader : State := { onFabric with fab := { onFabric.fab with trees := [(1, [7, 3, 4])] } }

def arrive : Pkt := Pkt.mk opBARARRIVE 0 false false 0 7 3 1 5 0 0 0 4 0 (leBytes 4 1)

/-- A tree of 66 in which node 7 leads the second group. -/
def bigTree : List Nat := (List.range 64).map (· + 100) ++ [7, 3]

def secondLeader : State := { onFabric with fab := { onFabric.fab with trees := [(1, bigTree)], bars := [(1, ⟨1, [7], []⟩)] } }

def atBar : Frame := { Frame.start 60 0 aConsist with wait := .barrier 1 1, bars1 := 1 }

/-- Frame 0 of run 60 waits at barrier 1 of group 1; node 7 is a member under node 3. -/
def waiting : State :=
  { onFabric with fab := { onFabric.fab with trees := [(1, [3, 7])] }, runs := [(60, { aRun with phys := [0], job := 1, barSent := 1 })],
                  frames := [(0, atBar)], consists := [(40, aConsist)] }

def release : Pkt := Pkt.mk opBARRELEASE 0 false false 0 7 3 1 5 0 0 0 8 0 (leBytes 4 1 ++ leBytes 4 0)

def breakPkt : Pkt := Pkt.mk opBARBREAK 0 false false 0 7 3 2 5 0 0 0 4 0 (leBytes 4 1)

/-- The eight stored units of an all-zero stripe 0 of group 1, generation 3. -/
def goodUnit (r : Nat) : Bytes := rsStored 1 0 3 r (List.replicate rsUnit 0)

def goodUnits : List (Option Bytes) := (List.range 8).map fun r => some (goodUnit r)

def goodList : List (Nat × Bytes) := (List.range 8).map fun r => (r, goodUnit r)

theorem goodUnit_good (r : Nat) : rsGood (goodUnit r) = true := by
  unfold goodUnit rsStored
  generalize ht : (leBytes 4 1 ++ leBytes 5 0 ++ leBytes 4 3 ++ leBytes 1 r ++ List.replicate 46 0 : Bytes) = t
  generalize hu : (List.replicate rsUnit 0 : Bytes) = u
  have hl : (u ++ t).length = rsUnit + 60 := by rw [← ht, ← hu]; simp [leBytes_length]
  unfold rsGood
  have h1 := leAt_append (u ++ t) _ 4 (crc32c (u ++ t)).toNat [] (List.append_nil _).symm
  rw [hl] at h1
  simp only
  rw [h1, List.take_left' hl, List.length_append, hl, leBytes_length]
  have := (crc32c (u ++ t)).isLt
  rw [Nat.mod_eq_of_lt (by omega)]
  simp

theorem goodUnit_gen (r : Nat) : rsGen (goodUnit r) = 3 := by
  unfold goodUnit rsStored rsGen
  have e : ∀ (u a b c : Bytes), a.length = 9 → u.length = rsUnit → (u ++ (a ++ leBytes 4 3 ++ b)) ++ c = (u ++ a) ++ (leBytes 4 3 ++ (b ++ c)) := by
    intros; simp
  have h := fun c => leAt_append (List.replicate rsUnit 0 ++ (leBytes 4 1 ++ leBytes 5 0)) _ 4 3 (leBytes 1 r ++ List.replicate 46 0 ++ c) rfl
  simp only [List.length_append, List.length_replicate, leBytes_length] at h
  simpa [List.append_assoc] using h _

theorem goodUnit_take (r : Nat) : (goodUnit r).take rsUnit = List.replicate rsUnit 0 := by
  unfold goodUnit rsStored
  simp only [List.append_assoc]
  exact List.take_left' (List.length_replicate ..)

theorem goodList_eq :
    goodList = ((List.range goodUnits.length).filterMap fun m => (goodUnits.getD m none).map fun y =>
      ((m + goodUnits.length - 0 % goodUnits.length) % goodUnits.length, y)).filter fun y => rsGood y.2 := by
  have hl : goodUnits.length = 8 := by simp [goodUnits]
  rw [hl]
  simp [goodUnits, goodList, List.range_succ, goodUnit_good]

theorem goodList_gen : (rsGens goodList).find? (fun g => decide (goodUnits.length - 2 ≤ goodList.countP fun y => rsGen y.2 == g)) = some 3 := by
  have hl : goodUnits.length = 8 := by simp [goodUnits]
  have hg : rsGens goodList = [3] := by
    unfold rsGens
    simp only [goodList, List.map_map, Function.comp_def, goodUnit_gen]
    decide +kernel
  rw [hl, hg]
  simp [goodList, List.range_succ, goodUnit_gen]

theorem rsRole_present (k : Nat) (have_ : Nat → Option Bytes) (role : Nat) (b : Bytes) (h : have_ role = some b) :
    rsRole k have_ role = some b := by
  unfold rsRole rsData
  split <;> simp [h]

theorem goodList_role :
    rsRole (goodUnits.length - 2) (fun i => (goodList.find? fun y => y.1 == i && rsGen y.2 == 3).map fun y => y.2.take rsUnit) 0 =
      some (List.replicate rsUnit 0) := by
  apply rsRole_present
  have h0 : (goodList.find? fun y => y.1 == 0 && rsGen y.2 == 3) = some (0, goodUnit 0) := by
    simp [goodList, List.range_succ, goodUnit_gen]
  rw [h0, Option.map_some, goodUnit_take]

def breakPkt1 : Pkt := Pkt.mk opBARBREAK 0 false false 0 7 3 1 5 0 0 0 4 0 (leBytes 4 1)

/-- A READY device with an operator command key. -/
def mport : State := { ready with nv := { ready.nv with ock := some theKey } }

/-- A management message without flags, counter 9, tagged under that key. -/
def mgmtMsg (typ : Nat) (p : Bytes) : Bytes :=
  (mgmtHead typ 0 p.length 77 0 9 ++ p) ++ kmac256 theKey (mgmtHead typ 0 p.length 77 0 9 ++ p) 16 "PN-880 management"

/-- The device once it has accepted a message. -/
def heard (m : Bytes) : State := (mport.setFld STM_MGMT_LINK 1).spendCounter 2 (leAt m 16 8)

/-- An ATTEST message for the device with a nonce of eight bytes, which carries no tag. -/
def attestMsg : Bytes := mgmtHead 3 0 10 77 0 0 ++ [0xFF, 8] ++ List.replicate 8 1

/-- The tenant's device with an accepted request for a partial reset. -/
def resetting (kind target : Nat) : State := { tenant with stm := { tenant.stm with resetJobs := [⟨kind, target, false, 7, 9⟩] } }

/-- The log has taken its 4,096 entries of this second and dropped two. -/
def flooded : State := { ready with stm := { ready.stm with logSecond := 5, logCount := 4096, logDropped := 2 } }

/-- Depot 0 has channel 2 in service. -/
def nanded (ts : List ((Nat × Nat) × Nat)) : State :=
  { ready with depots := ready.depots.set 0 { Depot.blank with channels := [(2, ⟨16, 3, 2304, 1024, 3000, 7⟩)], timeouts := ts } }

/-- Events that fill the windows of frame 5 and of unit 2 of type 11. -/
def worn : State :=
  { ready with stm := { ready.stm with windows :=
      [(unitId 1 5, List.replicate 4 ⟨.transient, 6900000000⟩), (unitId 11 2, List.replicate 4 ⟨.transient, 6900000000⟩)] } }

/-- Frame 5 has four CHECK events. -/
def badCells : State :=
  { ready with stm := { ready.stm with cells := [(5, [⟨0, 0, 6900000000⟩, ⟨1, 1, 6900000000⟩, ⟨2, 2, 6900000000⟩, ⟨3, 3, 6900000000⟩])] } }

/-- A run of the tenant that lost its frame and may restart. -/
def restarting : State :=
  { tenantRuns (cmd1 0x0031 []) with consists := [(40, aConsist)], runs := [(60, { aRun with quarantined := true, phys := [30] })] }

/-- A run that waits for more frames than its slice has. -/
def starved : State := { tenantRuns (cmd1 0x0031 []) with consists := [(40, { aConsist with nframes := 20 })], runs := [(60, aRun)] }

def canarying : State := { ready with stm := { ready.stm with canaries := [⟨unitId 1 5, 0, 17⟩] } }

/-- A run whose turn has come while a canary runs on frame 5. -/
def claiming : State :=
  { tenant with consists := [(40, aConsist)], runs := [(60, aRun)], stm := { tenant.stm with canaries := [⟨unitId 1 5, 0, 17⟩] } }

/-- A run of frames 3 and 4 with comparisons that wait. -/
def shadowed (l : List (Nat × Nat × Nat)) : State := { tenant with runs := [(60, { aRun with phys := [3, 4], shadows := l })] }

def anOwn (st : OwnState) (done : Option Nat) : OwnRecord :=
  { owner := 7, st := st, epoch := 4, hseq := 9, phase := 1, copy := true, fromEpoch := 3, fromHseq := 8, peer := 3, doneAt := done, job := 1 }

/-- Node 7 has an ownership record for request 12. -/
def owning (st : OwnState) (done : Option Nat) : State := { onFabric with owns := [(12, anOwn st done)] }

def telemetryAlloc : Alloc := { aPage with slice := 1, name := telemetryName }

def telemetered : State := { tenant with allocs := [(52, telemetryAlloc)] }

def waitingCreate : State :=
  let s := creating.setCmd { createCmd with step := 1, since := 0 }
  { s with clock := { s.clock with mono := 20000000000 } }

/-- A device that accepted no image. -/
def unbootable : State := (inPhase phFailed).setFld GLB_BOOT_FAILCODE stBOOTIMAGE

/-- FW_STAGE of the first three bytes of an image of 4,096, as an entry with its payload. -/
def recoveryMsg : Bytes := leBytes 4 0 ++ leBytes 2 0x0100 ++ List.replicate 26 0 ++ leBytes 4 4096 ++ List.replicate 220 0 ++ [1, 2, 3]

/-- A bundle of FORMAT 1 from its three slots (R272). -/
def bundleWord (a v t : Nat) : Nat := 2 ^ 124 + a * 2 ^ 84 + v * 2 ^ 42 + t

def nopBundle : Bundle := ⟨Guard.always, .nop, Guard.always, .nop, Guard.always, .nop⟩

/-- A consist whose image is one bundle, with allocation 1 and a result window of 64 bytes. -/
def oneBundle (w : Nat) : Consist :=
  { aConsist with nframes := 1, resultbytes := 64, images := [{ entry := 0, queues := [], tdbind := [], code := leBytes 16 w }],
                  framemap := [0, 0], allocs := [(1, [50])] }

/-- A frame of run 60 with values in s1, s2 and addresses in a3, a4. -/
def aThread : Frame := { Frame.start 60 0 (oneBundle 0) with sreg := [(1, 7), (2, 5)], areg := [(3, 0x0010000000000000), (4, 0xFFE0000000000000)] }

/-- That frame, alone in its run, about to issue a bundle. -/
def issuing (w : Nat) : State :=
  { tenantRuns (cmd1 0x0031 []) with consists := [(40, oneBundle w)], runs := [(60, { aRun with phys := [0] })], frames := [(0, aThread)] }

/-- The same beside another frame of the run. -/
def twoFrames (w : Nat) (y : Frame) : State :=
  { issuing w with runs := [(60, { aRun with phys := [0, 1] })], frames := [(0, aThread), (1, y)] }

def atBar0 : Frame := { aThread with bars0 := 1, wait := .barrier 0 1 }

def doneCall : Call :=
  { run := 60, lframe := 0, frame := 0, fn := 2, desc := 0x0010000000000000, bytes := [16], outq := 2, prev := 0, done := true, status := 0, count := 9,
    walk := none, swept := none, out := [], taken := [], waited := false }

def queueing : Frame := { aThread with queues := [(2, ⟨1, 4, [70], []⟩)] }

def streaming : Frame := { aThread with queues := [(0, ⟨2, 4, [], []⟩)] }

/-- An INT8 tensor of one element at the start of allocation 1 (Table 9-5). -/
def tdA : Bytes := leBytes 8 0x0010000000000000 ++ [3, 2, 0, 0] ++ leBytes 4 0 ++ leBytes 4 1 ++ leBytes 4 1 ++ leBytes 4 1 ++ leBytes 4 1 ++ List.replicate 32 0

def tensoring : Frame := { aThread with tds := [(0, tdA), (1, tdA)] }

/-- MMA.I8 of td0 and td1 into bank 2 under START. -/
def mmaOp1 : MmaOp := ⟨1, 2, 0, 1, 0, 0, 0, true, false, false, false, false, 0⟩

def mmaWord : Nat := 2 * 2 ^ 124 + (2 ^ 74 + 2 ^ 70 + 2 * 2 ^ 68 + 2 ^ 60 + 2 ^ 47)

def mmaJob1 : MmaJob := ⟨1, 2, 0, false, tdA, tdA, none, none, 1, 0⟩

/-- A frame whose rod array has one slab of one element left. -/
def multiplier : Frame := { tensoring with mma := some mmaJob1, banks := [(2, Bank.start .int32 [])] }

def multiplying : State := { issuing mmaWord with frames := [(0, multiplier)] }

/-- A window of two layers of one region over allocation 1, governed by frame 0. -/
def aWindow : WindowDecl := { depth := 1, routed := false, layers := 2, frames := 1, lstart := [0, 1, 2], regions := [(2 ^ 52, 64), (2 ^ 52 + 64, 64)] }

def windowedConsist : Consist := { oneBundle 0 with windows := [(1, aWindow)] }

def windowedRun : Run := { aRun with phys := [0], windows := [(1, ⟨[(0, 0)], [], [], []⟩)] }

def windowed : State := { issuing 0 with consists := [(40, windowedConsist)], runs := [(60, windowedRun)] }

/-- The run whose frame has halted with a record. -/
def ended (h : KMap Bytes) : State :=
  { issuing 0 with runs := [(60, { aRun with phys := [0], halts := h })], frames := [(0, { aThread with wait := .halted })] }

/-- A call of that frame's queue 0 from its descriptor. -/
def callOf (fn : Nat) (desc : Bytes) : Call :=
  { run := 60, lframe := 0, frame := 0, fn := fn, desc := 2 ^ 52, bytes := desc ++ List.replicate (64 - desc.length) 0, outq := 0, prev := 0,
    done := false, status := 0, count := 0, walk := none, swept := none, out := [], taken := [], waited := false }

/-- SHN.WALK on index 5: SW 128, SWMAX 1024, HOPMAX 4096, BATCH 2, one entry, K 4, the sketch at address 2 ^ 52 (Table 2-6). -/
def walkCall : Call :=
  callOf 0 ([1, 0] ++ leBytes 2 5 ++ leBytes 2 128 ++ leBytes 2 1024 ++ leBytes 2 4096 ++ [2, 0] ++ leBytes 2 1 ++ leBytes 2 4 ++ List.replicate 16 0 ++ leBytes 8 (2 ^ 52))

def sweepCall : Call := callOf 1 ([2, 0] ++ leBytes 2 5 ++ List.replicate 28 0 ++ leBytes 8 (2 ^ 52))

/-- That frame's run with an index and the walk. -/
def walking : State := { issuing 0 with indexes := [(5, tenantIndex)], frames := [(0, streaming)], calls := [(70, walkCall)] }

/-- The walk after its one round. -/
def steppedWalk : Walk := (tenantIndex.walkRound [] (walking.walkOf walkCall streaming tenantIndex 0)).1

/-- SEL.TOPK of one I32 entry at 2 ^ 52 into 2 ^ 52 + 64, its summary at 2 ^ 52 + 128. -/
def topkOne : Call :=
  callOf 2 ([16, 0, 2, 0] ++ leBytes 2 1 ++ [0, 0] ++ leBytes 4 1 ++ leBytes 4 0 ++ leBytes 8 (2 ^ 52) ++ leBytes 8 (2 ^ 52 + 64) ++ leBytes 8 (2 ^ 52 + 128))

/-- SEL.MERGE of two lists of one I32 entry whose table stands at 2 ^ 52. -/
def mergeOne : Call :=
  callOf 3 ([17, 0, 2, 2] ++ leBytes 2 1 ++ [0, 0] ++ leBytes 8 (2 ^ 52) ++ List.replicate 8 0 ++ leBytes 8 (2 ^ 52 + 1024) ++ leBytes 8 (2 ^ 52 + 1088))

def mergeBytes : Bytes :=
  leBytes 8 (2 ^ 52 + 256) ++ leBytes 8 (2 ^ 52 + 512) ++ leBytes 8 (2 ^ 52 + 256) ++ leBytes 8 (2 ^ 52 + 512) ++ List.replicate 224 0 ++
  leBytes 4 5 ++ leBytes 4 0 ++ leBytes 8 9 ++ List.replicate 240 0 ++ (topk 2 false false 1 SumSet.none [⟨5, 0, 9⟩]).sum.bytes

def listsReady : State :=
  { walking with allocs := [(50, { persistAlloc 9 65536 with mem := memWrite [] 0 mergeBytes })], calls := [(70, mergeOne)] }

def sgdTable : Table := { aTable with opt := 1 }

def tabled : State := { issuing 0 with tables := [(2, aTable)], frames := [(0, queueing)] }

def sgdTabled : State := { tabled with tables := [(2, sgdTable)] }

/-- GATHER of rows 0 and 0 of table 2 into 2 ^ 52 + 1024. -/
def gatherOne : Call :=
  callOf 4 ([32, 0] ++ leBytes 2 2 ++ leBytes 4 2 ++ List.replicate 8 0 ++ leBytes 8 (2 ^ 52) ++ leBytes 8 (2 ^ 52 + 1024))

/-- SCATADD accumulate of two contributions to row 0 of table 2. -/
def scatOne : Call :=
  callOf 5 ([33, 0] ++ leBytes 2 2 ++ leBytes 4 2 ++ List.replicate 8 0 ++ leBytes 8 (2 ^ 52) ++ leBytes 8 (2 ^ 52 + 1024) ++ List.replicate 8 0 ++ leBytes 4 fp32One)

/-- SCATADD apply of epoch 1 to table 2 with a rate of 1. -/
def applyOne : Call := callOf 5 ([34, 0] ++ leBytes 2 2 ++ List.replicate 4 0 ++ leBytes 4 1 ++ List.replicate 28 0 ++ leBytes 4 fp32One)

def aMove : RowMove := { target := 1, copied := false, applies := 0, log := [], em := some 1, confirmed := true, lost := false }

def movingTable : Table := { aTable with moves := [(3, aMove)] }

def migrating : State := { issuing 0 with tables := [(2, movingTable)] }

/-- A WARM allocation of the tenant of one page that has been read often. -/
def aWarm : Alloc :=
  { persistAlloc 9 65536 with flags := { persistFlags with persist := false, warm := true }, tier := 3, hits := [(0, 2 ^ 40)], age := 8 }

def paging : State := { tenant with allocs := [(50, aWarm)], tierAge := 8 }

/-- A block of zeros decodes from an empty payload. -/
theorem zeroDesc_bits (c : Nat) (h : c < 2 ^ 32) :
    (BitVec.ofNat 64 (2 ^ 7 + c * 2 ^ 32)).toNat = 128 + c * 2 ^ 32 ∧ bitsOf (128 + c * 2 ^ 32) 0 7 = 0 ∧
      bitsOf (128 + c * 2 ^ 32) 7 3 = 1 ∧ bitsOf (128 + c * 2 ^ 32) 32 32 = c := by
  unfold bitsOf
  rw [BitVec.toNat_ofNat]
  omega

theorem zeros_decode (n c : Nat) (z : Bytes) (hz : List.replicate blockBytes 0 = z) (hc : (crc32c z).toNat = c)
    (a0 : bitsOf n 0 7 = 0) (a7 : bitsOf n 7 3 = 1) (a32 : bitsOf n 32 32 = c) : decodeBlock [] n = some z := by
  unfold decodeBlock
  rw [hz, a0, a7, a32]
  subst hc
  exact if_pos rfl

def zeroBlock : Bytes := List.replicate blockBytes 0

theorem decodes_at (m n : Nat) (o : Option Bytes) (h : m = n) (k : decodeBlock [] n = o) : decodeBlock [] m = o := by rw [h]; exact k

theorem zeroBlock_decodes : decodeBlock [] (BitVec.ofNat 64 (2 ^ 7 + (crc32c zeroBlock).toNat * 2 ^ 32)).toNat = some zeroBlock :=
  let h := zeroDesc_bits _ (crc32c zeroBlock).isLt
  decodes_at _ _ _ h.1 (zeros_decode _ _ zeroBlock rfl rfl h.2.1 h.2.2.1 h.2.2.2)

/-- Namespace 1 over dies 0 and 1 of channel 0. -/
def aNamespace : Namespace := ⟨1048576, [(0, 0), (0, 1)], 1, []⟩

/-- A lane of Depot 0 that is READY with one journal record whose open set holds blocks 1 of dies 0 and 1. -/
def openLane : Lane :=
  { Lane.blank with st := .ready, batch := [⟨1, 7, 1, [1]⟩], seqCtr := 1, journal := [⟨1, 0, 0, [⟨0, 0, 1⟩, ⟨0, 1, 1⟩], []⟩], flush := 1 }

def depotOf (x : Lane) (pslc : Nat) : Depot :=
  { Depot.blank with channels := [(0, ⟨16, 3, 2304, 1024, 3000, 7⟩)], namespaces := [(1, aNamespace)], lanes := [x, Lane.blank], pslc := pslc }

def withDepot (d : Depot) : State := { tenant with depots := tenant.depots.set 0 d, stm := { tenant.stm with windows := [] } }

def openDepot : Depot := depotOf openLane 0

def writing : State := withDepot openDepot

/-- The slot of unit 7 of namespace 1. -/
def nandSlot : Slot := ⟨1, 7, .data, 1, 0, 0, 1, 1, []⟩

/-- Its batch is programming. -/
def programmedLane : Lane :=
  { openLane with batch := [], slots := [(9216, nandSlot)], batches := [(1, ⟨1, [9216], 33563648, true⟩)] }

def programmedDepot : Depot := depotOf programmedLane 0

def programmed : State := withDepot programmedDepot

/-- A block with `n` pages programmed. -/
def aBlock (n : Nat) (pslc : Bool) : Block := { Block.fresh with filled := n, pslc := pslc }

/-- Block 1 of die 0 is closed and holds the slot; it waits for refresh. -/
def fullLane : Lane :=
  { openLane with batch := [], slots := [(9216, nandSlot)], map := [(unitKey 1 7, 9216)], blocks := [(1, aBlock 9216 false)], refresh := [⟨0, 0, 1⟩] }

def fullDepot : Depot := depotOf fullLane 0

def fullState : State := withDepot fullDepot

/-- The same in a pSLC block of a buffer of one block. -/
def bufferedLane : Lane := { fullLane with blocks := [(1, aBlock 9216 true)] }

def bufferedDepot : Depot := { depotOf bufferedLane 17 with channels := [(0, ⟨2, 3, 2304, 3, 3000, 7⟩)] }

def buffered : State := withDepot bufferedDepot

/-- Nothing maps the block any more and its FREE is flushed. -/
def freedLane : Lane := { fullLane with map := [], freed := [⟨0, 0, 1⟩], journal := [⟨1, 0, 0, [], []⟩] }

def freedDepot : Depot := depotOf freedLane 0

def freed : State := withDepot freedDepot

/-- Die 0 of channel 0 has been retired. -/
def goneDepot : Depot := { fullDepot with deadDies := [(0, 0)] }

def dieGone : State := { withDepot goneDepot with nv := { tenant.nv with retired := [⟨unitId 7 0, .permanent, 9, 0⟩] } }

def hotDepot : Depot := { fullDepot with health := { Health.zero with temps := 1, tmin := 400, tmax := 400 } }

def hotDepotState : State := withDepot hotDepot

/-- The operator command key of the tests. -/
def critKey : Bytes := List.replicate 32 1

/-- Entry bytes 0 to 239 of a SCRUB of sequence 1 with CRIT, COUNTER 65 and `reslen` bytes of output block. -/
def critBase (reslen : Nat) : Bytes :=
  leBytes 4 1 ++ leBytes 2 0x0106 ++ [1, 0] ++ List.replicate 4 0 ++
    (leBytes 4 0 ++ (List.replicate 4 0 ++ leBytes 4 reslen ++ leBytes 8 65 ++ List.replicate 208 0))

/-- That entry with a tag, consumed on ring 3. -/
def critEntry (reslen : Nat) (tag : Bytes) : Cmd := { cmdOf 0x0106 [] with entry := critBase reslen ++ tag, stage := .consumed }

def critCmd (tag : Bytes) : Cmd := critEntry 64 tag

def critTag (reslen : Nat) : Bytes := kmac256 critKey (critBase reslen) 16 "PN-880 ring"

/-- The entry with its tag, with a tag that is wrong in every byte, and with an output block that is too short. -/
def goodCrit : Cmd := critEntry 64 (critTag 64)

def badCrit : Cmd := critEntry 64 ((critTag 64).map fun b => b + 1)

def shortCrit : Cmd := critEntry 0 (critTag 0)

/-- Ring 3 on a device whose operator command key is set. -/
def critKeyed : State := { ringOn with nv := { ringOn.nv with ock := some critKey } }

theorem cmd_setCmd (s : State) (c : Cmd) : (s.setCmd c).cmd c.ring c.seq = some c := by
  unfold State.cmd State.setCmd
  exact mapGet_mapSet_same _ _ _

theorem critBase_length (n : Nat) : (critBase n).length = 240 := by
  simp only [critBase, List.length_append, leBytes_length, List.length_replicate, List.length_cons, List.length_nil]

theorem critEntry_tag (n : Nat) (T : Bytes) (hT : T.length = 16) : bytesAt (critEntry n T).entry 240 16 = T := by
  unfold bytesAt critEntry
  simp only
  rw [List.drop_left' (critBase_length n), List.take_of_length_le (by omega), hT]
  simp

theorem critEntry_message (s : State) (n : Nat) (T : Bytes) : s.ringTagMessage (critEntry n T) = critBase n := by
  unfold State.ringTagMessage
  have h1 : (critEntry n T).entry.take 240 = critBase n := List.take_left' (critBase_length n)
  have h3 : (critEntry n T).paylen = 0 := by
    unfold Cmd.paylen critEntry critBase
    simp only
    rw [List.append_assoc]
    exact leAt_append (leBytes 4 1 ++ leBytes 2 0x0106 ++ [1, 0] ++ List.replicate 4 0) _ 4 0 _ (by rw [List.append_assoc])
  have h2 : s.payload (critEntry n T) = [] := by
    unfold State.payload
    rw [h3]
    rfl
  rw [h1, h2, List.append_nil]

theorem goodCrit_tag (s : State) : kmac256 critKey (s.ringTagMessage goodCrit) 16 "PN-880 ring" = bytesAt goodCrit.entry 240 16 := by
  unfold goodCrit
  rw [critEntry_message, critEntry_tag _ (critTag 64) (kmac_length _ _ _)]
  rfl

theorem shortCrit_tag (s : State) : kmac256 critKey (s.ringTagMessage shortCrit) 16 "PN-880 ring" = bytesAt shortCrit.entry 240 16 := by
  unfold shortCrit
  rw [critEntry_message, critEntry_tag _ (critTag 0) (kmac_length _ _ _)]
  rfl

theorem map_add_one_ne (l : Bytes) (h : l.length = 16) : l ≠ l.map fun b => b + 1 := by
  cases l with
  | nil => simp at h
  | cons b l =>
    intro e
    have hb : b = b + 1 := by simpa using congrArg List.head? e
    exact absurd hb (by bv_omega)

theorem badCrit_tag : kmac256 critKey (State.ringTagMessage (critKeyed.setCmd badCrit) badCrit) 16 "PN-880 ring" ≠ bytesAt badCrit.entry 240 16 := by
  unfold badCrit
  have hT : (critTag 64).length = 16 := kmac_length _ _ _
  rw [critEntry_message, critEntry_tag _ _ (by rw [List.length_map]; exact hT)]
  exact map_add_one_ne (critTag 64) hT

/-- A queue with one command, whose step answers a next state, meets the conditions of the whole-machine statements. -/
theorem meets_everyStep : ∃ s : State, ∃ t : State,
    s.pending = [.pwrfailEdge] ∧ QueueWellFormed s ∧ RingCanonical s ∧ step s = .next t :=
  ⟨{ State.reset with pending := [.pwrfailEdge] }, _, rfl, by decide, rfl, rfl⟩

theorem meets_front : ∃ s : State, s.pending = [.pwrfailEdge, .powerOnReset] := ⟨{ State.reset with pending := [.pwrfailEdge, .powerOnReset] }, rfl⟩

theorem meets_idle : ∃ s : State, s.pending = [] ∧ s.clock.running = false := ⟨State.reset, rfl, rfl⟩

theorem meets_unassigned : ready.sourceOk .stationmaster = true ∧ inStatus 0x00F0000 = false ∧ findReg 0x00F0000 = none ∧
    ready.inRingArea 0x3FFFFF8 = false := by decide +kernel

theorem meets_missingBlock : ∃ s : State, s.variant = 2 ∧ s.sourceOk .stationmaster = true ∧ s.missingBlock 0x00A0000 = true :=
  ⟨ready.setFld GLB_GRADE_VARIANT 2, by decide +kernel⟩

theorem meets_packet : ∃ b : Bytes, pktOk b = true :=
  ⟨[0x01, 3, 8, 1] ++ leBytes 3 5 ++ leBytes 3 7 ++ List.replicate 16 0 ++ leBytes 2 64 ++ List.replicate 4 0, by decide +kernel⟩

theorem meets_powerOnReset :
    ∃ s : State, Bootable s ∧ s.pins.powered = false ∧ s.pins.refclk100 = true :=
  ⟨State.reset, by decide +kernel⟩

theorem meets_deviceReset :
    ∃ s : State, Bootable s ∧ s.pins.powered = true ∧ s.pins.tripped = false ∧ s.pins.refclk100 = true :=
  ⟨ready, by decide +kernel⟩

theorem meets_resetNAssert :
    ∃ s : State, ∃ lowNs : Nat, Bootable s ∧ s.pins.powered = true ∧ s.pins.tripped = false ∧ s.pins.refclk100 = true ∧ 6000 ≤ lowNs :=
  ⟨ready, 6000, by decide +kernel⟩

theorem meets_watchdogReset :
    ∃ s : State, Bootable s ∧ s.pins.powered = true ∧ s.pins.tripped = false ∧ s.pins.refclk100 = true ∧ phBoot ≤ s.phase ∧ s.stationmastersFailed =
      true :=
  ⟨{ ready with stm := { ready.stm with jd0Up := false, jd1Up := false } }, by decide +kernel⟩

theorem meets_thermtripReset :
    ∃ s : State, Bootable s ∧ s.pins.powered = true ∧ s.pins.tripped = true ∧ s.pins.refclk100 = true :=
  ⟨{ State.reset with pins := { State.reset.pins with powered := true, tripped := true } }, by decide +kernel⟩

theorem meets_refclk100Return :
    ∃ s : State, Bootable s ∧ s.pins.powered = true ∧ s.boot.waitRefclk = true :=
  ⟨{ State.reset with pins := { State.reset.pins with powered := true }, boot := { State.reset.boot with waitRefclk := true } }, by decide +kernel⟩

theorem meets_crossingAlignAttempt :
    ∃ s : State, ∃ x : Crossing, ∃ passes : List AlignPass, s.alignDue x = true ∧ s.attempts x = 0 ∧ passes.length = crossingDirections x ∧
      passes.all AlignPass.ok = true :=
  ⟨inPhase phAlign, ⟨.jugan, 3⟩, goodPasses, by decide +kernel⟩

theorem meets_crossingAlignAttempt_2 :
    ∃ s : State, ∃ x : Crossing, s.alignDue x = true ∧ s.attempts x = 0 :=
  ⟨inPhase phAlign, ⟨.jugan, 3⟩, by decide +kernel⟩

theorem meets_crossingAlignRetry :
    ∃ s : State, ∃ x : Crossing, ∃ passes : List AlignPass, s.alignDue x = true ∧ 0 < s.attempts x ∧ passes.length = crossingDirections x ∧
      passes.all AlignPass.ok = true :=
  ⟨{ inPhase phAlign with boot := { State.reset.boot with attempts := [(⟨.jugan, 3⟩, 1)] } }, ⟨.jugan, 3⟩, goodPasses, by decide +kernel⟩

theorem meets_crossingAlignRetry_2 :
    ∃ s : State, ∃ x : Crossing, s.alignDue x = true ∧ s.attempts x = 2 ∧ crossingFatal x = true :=
  ⟨{ inPhase phAlign with boot := { State.reset.boot with attempts := [(⟨.dieToDie, 3⟩, 2)] } }, ⟨.dieToDie, 3⟩, by decide +kernel⟩

theorem meets_hbmTraining :
    ∃ s : State, ∃ stack : Nat, s.phase = phTrain ∧ stack < s.hbmStacks ∧ s.boot.hbmDone.contains stack = false :=
  ⟨inPhase phTrain, 7, by decide +kernel⟩

theorem meets_ddr5Training :
    ∃ s : State, ∃ d : DimmInfo, s.phase = phTrain ∧ s.boot.ddrDone = false ∧ d.channel < s.ddrChannels ∧ d.dimms = 1 ∧ d.trained = true ∧
      s.boot.ddrOut.contains d.channel = false :=
  ⟨inPhase phTrain, ⟨15, 1, true, 12800, 4, 2 ^ 36, true⟩, by decide +kernel⟩

theorem meets_nandChannelTraining :
    ∃ s : State, ∃ jd : Nat, ∃ ch : Nat, ∃ info : NandInfo, s.phase = phTrain ∧ jd < s.jdCount ∧ ch < 16 ∧ s.boot.nandDone.contains (jd, ch) = false
      ∧ s.retired (unitId 8 (16 * jd + ch)) = false ∧ nandWithin info = true ∧ (s.depot jd).uniform ch info = true :=
  ⟨inPhase phTrain, 3, 15, goodNand, by decide +kernel⟩

theorem meets_nandChannelTraining_2 :
    ∃ s : State, ∃ jd : Nat, ∃ ch : Nat, ∃ info : NandInfo, s.phase = phTrain ∧ jd < s.jdCount ∧ ch < 16 ∧ s.boot.nandDone.contains (jd, ch) = false
      ∧ s.retired (unitId 8 (16 * jd + ch)) = false ∧ nandWithin info = true ∧ (s.depot jd).uniform ch info = true :=
  ⟨inPhase phTrain, 0, 0, goodNand, by decide +kernel⟩

theorem meets_startupCanaries :
    ∃ s : State, s.phase = phTrain ∧ s.trained = true ∧ s.boot.canariesDone = false :=
  ⟨trainedState, by decide +kernel⟩

theorem meets_laneRebuild :
    ∃ s : State, ∃ jd : Nat, ∃ lane : Nat, s.phase = phRebuild ∧ jd < s.jdCount ∧ lane < 2 ∧ s.boot.lanesDone.contains (jd, lane) = false :=
  ⟨inPhase phRebuild, 3, 1, by decide +kernel⟩

theorem meets_deviceReady :
    ∃ s : State, s.phase = phRebuild ∧ ((List.range (2 * s.jdCount)).all (fun k => s.boot.lanesDone.contains (k / 2, k % 2)) = true) :=
  ⟨rebuiltState, by decide +kernel⟩

theorem meets_undervoltageShutdown :
    ∃ s : State, ∃ mv : Nat, ∃ heldNs : Nat, s.pins.powered = true ∧ 20000 ≤ heldNs ∧ mv < 38100 :=
  ⟨ready, 38099, 20000, by decide +kernel⟩

theorem meets_overvoltageShutdown :
    ∃ s : State, ∃ mv : Nat, ∃ heldNs : Nat, s.pins.powered = true ∧ 10000 ≤ heldNs ∧ 59400 < mv ∧ mv ≤ 60000 :=
  ⟨ready, 59401, 10000, by decide +kernel⟩

theorem meets_overvoltage_stop :
    ∃ s : State, ∃ mv : Nat, 60000 < mv :=
  ⟨ready, 60001, by decide +kernel⟩

theorem meets_pwrfailEdge :
    ∃ s : State, s.pins.powered = true ∧ s.pins.tripped = false :=
  ⟨ready, by decide +kernel⟩

theorem meets_refclk100Loss :
    ∃ s : State, s.pins.refclk100 = true ∧ s.phase = phReady :=
  ⟨ready, by decide +kernel⟩

theorem meets_refclk100Loss_startup :
    ∃ s : State, s.pins.refclk100 = true ∧ phAlign ≤ s.phase ∧ s.phase < phReady :=
  ⟨inPhase phTrain, by decide +kernel⟩

theorem meets_portTraining :
    ∃ s : State, ∃ port : Nat, s.mayTrain port = true ∧ s.portState port = 0 :=
  ⟨linked, 5, by decide +kernel⟩

theorem meets_portTraining_2 :
    ∃ s : State, ∃ port : Nat, port < 8 ∧ s.mayTrain port = true ∧ s.portState port = 0 ∧ ((List.range 4).all (fun l => !s.retired (laneUnit port
      l)) = true) :=
  ⟨linked, 7, by decide +kernel⟩

theorem meets_portTrainingRepeat :
    ∃ s : State, ∃ port : Nat, port < 8 ∧ s.mayTrain port = true ∧ s.portState port = 1 ∧ ((List.range 4).all (fun l => !s.retired (laneUnit port
      l)) = true) :=
  ⟨linked.setPortState 7 1 0, 7, by decide +kernel⟩

theorem meets_portLinkLoss :
    ∃ s : State, ∃ port : Nat, s.hasPort port = true ∧ s.portState port = 2 :=
  ⟨portsUp, 9, by decide +kernel⟩

theorem meets_refclk156Loss :
    ∃ s : State, ∃ jd : Nat, jd < 4 :=
  ⟨portsUp, 1, by decide +kernel⟩

theorem meets_refclk156Return :
    ∃ s : State, ∃ jd : Nat, jd < 4 :=
  ⟨{ linked with pins := { linked.pins with refclk156 := [true, false, true, true] } }, 1, by decide +kernel⟩

theorem meets_pigtailFitted :
    ∃ s : State, ∃ port : Nat, port < 2 ∧ s.pins.pigtail[port]? = some false ∧ s.hasPort (8 + port) = true ∧ phTrain ≤ s.phase ∧ s.phase ≤ phReady ∧
      s.isAligned (portCrossing (8 + port)) = true ∧ s.pins.refclk156.getD port false = true ∧ ((List.range 4).all (fun l => !s.retired (laneUnit (8
      + port) l)) = true) :=
  ⟨linked, 1, by decide +kernel⟩

theorem meets_laneRetireRetrain :
    ∃ s : State, ∃ port : Nat, port < 8 ∧ s.mayTrain port = true ∧ s.portState port = 2 ∧ ((List.range 4).any (fun l => bitOf (s.fld JUG_PORT_LANES
      port) l && s.retired (laneUnit port l)) = true) ∧ ((List.range 4).any (fun l => !s.retired (laneUnit port l)) = true) :=
  ⟨{ portsUp with nv := { portsUp.nv with retired := [⟨laneUnit 5 3, .permanent, 8, 0⟩] } }, 5, by decide +kernel⟩

theorem meets_thermalSample :
    ∃ s : State, ∃ diodes : List Int, ∃ d : Nat, d < 2 ∧ s.phase ≠ phPower ∧ ((hotAfter s.stm.hot diodes).find? (fun e => decide (3 ≤ e.2)) = none)
      ∧ t105 ≤ hottest (dieDiodes diodes d) :=
  ⟨ready, List.replicate 36 300 ++ List.replicate 36 840 ++ List.replicate 24 300, 1, by decide +kernel⟩

theorem meets_thermalSample_cool :
    ∃ s : State, ∃ diodes : List Int, ∃ d : Nat, d < 2 ∧ s.phase ≠ phPower ∧ ((hotAfter s.stm.hot diodes).find? (fun e => decide (3 ≤ e.2)) = none)
      ∧ hottest (dieDiodes diodes d) ≤ t102 :=
  ⟨ready.setFld PWR_THERM_THROTTLE 1 0, List.replicate 96 816, 0, by decide +kernel⟩

theorem meets_thermalSample_trip :
    ∃ s : State, ∃ diodes : List Int, ∃ e : Nat × Nat, s.phase ≠ phPower ∧ ((hotAfter s.stm.hot diodes).find? (fun e => decide (3 ≤ e.2)) = some e) :=
  ⟨{ ready with stm := { ready.stm with hot := [(5, 2)] } }, List.replicate 5 300 ++ 920 :: List.replicate 90 300, (5, 3), by decide +kernel⟩

theorem meets_i3cPoll :
    ∃ s : State, ∃ temp : Int, s.phase ≠ phPower ∧ 680 ≤ temp :=
  ⟨ready, 680, by decide +kernel⟩

theorem meets_i3cPoll_cool :
    ∃ s : State, ∃ temp : Int, s.phase ≠ phPower ∧ temp ≤ 656 :=
  ⟨{ ready with stm := { ready.stm with ddrDouble := [3] } }, 656, by decide +kernel⟩

theorem meets_i3cHotJoin :
    ∃ s : State, ∃ device : Nat, s.phase ≠ phPower ∧ s.stm.i3c.contains device = false :=
  ⟨ready, 9, by decide +kernel⟩

theorem meets_governorPass :
    ∃ s : State, ∃ draws : List SliceDraw, ∃ input : Nat, ∃ sl : Nat, ∃ w : Nat, s.phase ≠ phPower ∧ s.phase ≠ phFailed ∧ s.stm.takeoverWindow =
      false ∧ s.govSlices.Nodup ∧ sl ∈ s.govSlices ∧ s.borrows sl = false ∧ 10 * input ≤ 108 * s.fld PWR_ENVELOPE_ENV ∧ (w = mapGetD (draws.foldl
      (fun (m : KMap Nat) (d : SliceDraw) => mapSet m d.slice d.watts) []) sl 0) ∧ s.budget sl < w :=
  ⟨(ready.setFld PWR_ENVELOPE_ENV 600).setFld PWR_ENVELOPE_RESERVE 48, [⟨0, 553⟩], 6000, 0, 553, by decide +kernel⟩

theorem meets_governorPass_release :
    ∃ s : State, ∃ draws : List SliceDraw, ∃ input : Nat, ∃ sl : Nat, ∃ w : Nat, s.phase ≠ phPower ∧ s.phase ≠ phFailed ∧ s.stm.takeoverWindow =
      false ∧ s.govSlices.Nodup ∧ sl ∈ s.govSlices ∧ s.borrows sl = false ∧ 10 * input ≤ 108 * s.fld PWR_ENVELOPE_ENV ∧ (w = mapGetD (draws.foldl
      (fun (m : KMap Nat) (d : SliceDraw) => mapSet m d.slice d.watts) []) sl 0) ∧ 100 * w < 95 * s.budget sl ∧ 0 < s.pace sl :=
  ⟨{ (ready.setFld PWR_ENVELOPE_ENV 600).setFld PWR_ENVELOPE_RESERVE 48 with stm := { ready.stm with pace := [(0, 8)] } }, [⟨0, 500⟩], 6000, 0, 500, by decide +kernel⟩

theorem meets_railStep :
    ∃ s : State, ∃ d : Nat, d < 2 ∧ phAlign ≤ s.phase ∧ s.phase ≠ phFailed ∧ s.stm.takeoverWindow = false ∧ s.fld PWR_THERM_THROTTLE d = 1 :=
  ⟨(ready.setFld PWR_THERM_THROTTLE 1 1).setFld PWR_RAIL_MV 720 1, 1, by decide +kernel⟩

theorem meets_sensePublish :
    ∃ s : State, s.phase ≠ phPower :=
  ⟨ready, by decide +kernel⟩

theorem meets_ptpSync :
    ∃ s : State, ∃ offset : Int, s.clock.running = true ∧ s.mgmtUp = true ∧ s.fld STM_TIME_SRC = 0 ∧ offset.natAbs ≤ 1000000 :=
  ⟨ready, -500, by decide +kernel⟩

theorem meets_ppsInEdge :
    ∃ s : State, ∃ offset : Int, s.clock.running = true ∧ phBoot ≤ s.phase ∧ s.fld STM_TIME_SRC = 1 ∧ offset.natAbs ≤ 1000000 :=
  ⟨ready.setFld STM_TIME_SRC 1, 700, by decide +kernel⟩

theorem meets_ptpLockLoss :
    ∃ s : State, ∃ dt : Nat, s.clock.locked = true ∧ s.clock.lastSync + 8 * 10 ^ 9 ≤ s.clock.mono + dt :=
  ⟨{ ready with clock := { ready.clock with locked := true } }, 1000000000, by decide +kernel⟩

theorem meets_ppsOutEdge :
    ∃ s : State, s.clock.running = true :=
  ⟨ready, by decide +kernel⟩

theorem meets_registerWrite_bad :
    ∃ s : State, ∃ src : Source, ∃ off : Nat, ∃ len : Nat, s.sourceOk src = true ∧ off < 0x4000000 ∧ ((len ≠ 8 ∨ off % 8 ≠ 0)) :=
  ⟨ready, .stationmaster, 0xD0004, 4, by decide +kernel⟩

theorem meets_registerWrite :
    ∃ s : State, ∃ src : Source, ∃ off : Nat, ∃ i : Nat, ∃ j : Nat, ∃ n : RegName, s.sourceOk src = true ∧ off % 8 = 0 ∧ off < 0x0100000 ∧ inStatus
      off = false ∧ s.missingBlock off = false ∧ findReg off = some (n, i, j) ∧ plainRegister n = true ∧ s.absentReg n i j = false :=
  ⟨ready, .stationmaster, 0xD00A0, 0, 0, .srcMergecfg, by decide +kernel⟩

theorem meets_registerWrite_absent :
    ∃ s : State, ∃ src : Source, ∃ off : Nat, ∃ i : Nat, ∃ j : Nat, ∃ n : RegName, s.sourceOk src = true ∧ off % 8 = 0 ∧ off < 0x0100000 ∧ inStatus
      off = false ∧ s.missingBlock off = false ∧ findReg off = some (n, i, j) ∧ s.absentReg n i j = true :=
  ⟨ready, .stationmaster, 0x70080, 1, 0, .shpWeight, by decide +kernel⟩

theorem meets_registerWrite_area :
    ∃ s : State, ∃ src : Source, ∃ r : Nat, ∃ data : Word, s.sourceOk src = true ∧ r < 64 ∧ s.ringEn r = true ∧ ((bitsOf data.toNat 0 26 ≠ s.fld
      CMD_DATAAREA_OFFSET r ∨ bitsOf data.toNat 32 26 ≠ s.fld CMD_DATAAREA_SIZE r)) :=
  ⟨ready.setFld CMD_RINGCFG_EN 1 3, .stationmaster, 3, 64, by decide +kernel⟩

theorem meets_seal :
    ∃ s : State, s.writable = true :=
  ⟨ready, by decide +kernel⟩

theorem meets_opkeyWrite :
    ∃ s : State, ∃ i : Nat, s.writable = true ∧ i < 4 ∧ s.sealed = false ∧ s.nv.ock = none :=
  ⟨ready, 3, by decide +kernel⟩

theorem meets_keyCommit :
    ∃ s : State, ∃ a : Word, ∃ b : Word, ∃ c : Word, ∃ d : Word, s.writable = true ∧ s.sealed = false ∧ s.nv.ock = none ∧ s.stm.opkey = [some a,
      some b, some c, some d] :=
  ⟨{ ready with stm := { ready.stm with opkey := [some 1, some 2, some 3, some 4] } }, 1, 2, 3, 4, by decide +kernel⟩

theorem meets_isolWrite :
    ∃ s : State, ∃ data : Word, s.writable = true ∧ 550 ≤ bitsOf data.toNat 16 10 ∧ bitsOf data.toNat 16 10 ≤ 850 :=
  ⟨ready, 0x3520009, by decide +kernel⟩

theorem meets_tktholdWrite :
    ∃ s : State, ∃ data : Word, ∃ n : Nat, ∃ x : Index, s.writable = true ∧ s.selIndex = some (n, x) ∧ s.rdmin n x ≤ data.toNat % 2 ^ 48 :=
  ⟨indexed, 7, 0, anIndex, by decide +kernel⟩

theorem meets_tktholdWrite_low :
    ∃ s : State, ∃ data : Word, ∃ n : Nat, ∃ x : Index, s.writable = true ∧ s.selIndex = some (n, x) ∧ data.toNat % 2 ^ 48 < s.rdmin n x :=
  ⟨indexed, 2, 0, anIndex, by decide +kernel⟩

theorem meets_repairRateWrite :
    ∃ s : State, ∃ n : Nat, ∃ x : Index, s.writable = true ∧ s.selIndex = some (n, x) :=
  ⟨indexed, 0, anIndex, by decide +kernel⟩

theorem meets_logselWrite :
    ∃ s : State, s.writable = true :=
  ⟨ready, by decide +kernel⟩

theorem meets_policerWrite :
    ∃ s : State, ∃ port : Nat, ∃ cls : Nat, ∃ data : Word, s.writable = true ∧ port < 8 ∧ cls < 16 ∧ s.absentReg .shpJpol port cls = false ∧ bitsOf
      data.toNat 4 20 ≤ 800000 ∧ 4128 ≤ bitsOf data.toNat 24 24 :=
  ⟨ready, 7, 15, 0x2000000641, by decide +kernel⟩

theorem meets_policerWrite_ccl :
    ∃ s : State, ∃ port : Nat, ∃ data : Word, s.writable = true ∧ port < 2 ∧ bitsOf data.toNat 4 20 ≤ 200000 ∧ 4128 ≤ bitsOf data.toNat 24 24 :=
  ⟨ready, 1, 0x2000000641, by decide +kernel⟩

theorem meets_cbsWrite :
    ∃ s : State, ∃ port : Nat, ∃ cls : Nat, ∃ data : Word, s.writable = true ∧ port < 8 ∧ cls < 16 ∧ s.absentReg .shpCbs port cls = false ∧ bitsOf
      data.toNat 4 20 ≤ 800000 ∧ 4128 ≤ bitsOf data.toNat 24 24 ∧ (((s.settle port).port port).sending.elim false (fun e => e.1 == cls) = false) :=
  ⟨ready, 2, 3, 0x2000000643, by decide +kernel⟩

theorem meets_weightWrite :
    ∃ s : State, ∃ port : Nat, ∃ cls : Nat, ∃ data : Word, s.writable = true ∧ port < 8 ∧ cls < 16 ∧ s.absentReg .shpWeight port cls = false ∧ 1 ≤
      data.toNat % 256 :=
  ⟨ready, 0, 15, 255, by decide +kernel⟩

theorem meets_weightWrite_absent :
    ∃ s : State, ∃ port : Nat, ∃ cls : Nat, s.writable = true ∧ port < 8 ∧ cls < 16 ∧ s.absentReg .shpWeight port cls = true :=
  ⟨ready, 0, 0, by decide +kernel⟩

theorem meets_cclWrite :
    ∃ s : State, ∃ port : Nat, ∃ off : Nat, ∃ len : Nat, ∃ packet : Bytes, s.cclUp port = true ∧ leAt packet 0 1 = 1 ∧ off = leAt packet 4 4 ∧ len =
      leAt packet 8 2 ∧ cclWriteOk off len = true ∧ off < 0x0100000 :=
  ⟨ready.setFld CMD_CCL_STATE 2 1, 1, 0xD00A0, 16, leBytes 4 1 ++ leBytes 4 0xD00A0 ++ leBytes 2 16 ++ List.replicate 6 0 ++ leBytes 8 0x400040 ++ leBytes 8 5, by decide +kernel⟩

theorem meets_cclRead :
    ∃ s : State, ∃ port : Nat, ∃ off : Nat, ∃ packet : Bytes, s.cclUp port = true ∧ leAt packet 0 1 = 2 ∧ off = leAt packet 4 4 ∧ leAt packet 8 2 =
      8 ∧ off % 8 = 0 ∧ off < 0x0100000 :=
  ⟨ready.setFld CMD_CCL_STATE 2 0, 0, 8, leBytes 2 2 ++ leBytes 2 77 ++ leBytes 4 8 ++ leBytes 2 8 ++ List.replicate 6 0, by decide +kernel⟩

theorem meets_ringEnable :
    ∃ s : State, ∃ r : Nat, ∃ data : Word, s.writable = true ∧ r < 64 ∧ data.toNat % 2 = 1 ∧ s.ringEn r = false ∧ s.drained r = true ∧ ringcfgLegal
      data.toNat = true ∧ s.areasFit r (bitsOf data.toNat 2 4) = true :=
  ⟨ringSet, 3, 0x100011, by decide +kernel⟩

theorem meets_ringEnable_refused :
    ∃ s : State, ∃ r : Nat, ∃ data : Word, s.writable = true ∧ r < 64 ∧ data.toNat % 2 = 1 ∧ s.ringEn r = false ∧ s.areasFit r (bitsOf data.toNat 2
      4) = false :=
  ⟨ready, 3, 0x100011, by decide +kernel⟩

theorem meets_ringDisable :
    ∃ s : State, ∃ r : Nat, ∃ data : Word, s.writable = true ∧ r < 64 ∧ data.toNat % 2 = 0 ∧ s.ringEn r = true ∧ bitsOf data.toNat 2 4 = s.fld
      CMD_RINGCFG_LOG2N r ∧ bitsOf data.toNat 8 8 = s.fld CMD_RINGCFG_SLICE r ∧ bitsOf data.toNat 16 9 = s.fld CMD_RINGCFG_INFLIGHT r :=
  ⟨ringOn, 3, 0x100010, by decide +kernel⟩

theorem meets_ringScan :
    ∃ s : State, ∃ r : Nat, ∃ n : Nat, ∃ slot : Nat, s.phase = phReady ∧ r < 64 ∧ n = (s.ring r).consumed + 1 ∧ slot = s.fld CMD_RINGAREA_OFFSET r +
      256 * (n % 2 ^ s.fld CMD_RINGCFG_LOG2N r) ∧ s.ringEn r = true ∧ s.fenced = false ∧ (s.ring r).stopped = false ∧ leAt (s.ringRead slot 256) 0 4
      = n % 2 ^ 32 ∧ (s.inFlight r).length < s.fld CMD_RINGCFG_INFLIGHT r :=
  ⟨{ ringOn with ringMem := memWrite [] 0x0100100 (leBytes 4 1 ++ leBytes 2 1 ++ List.replicate 14 0 ++ leBytes 4 64) }, 3, 1, 0x0100100, by decide +kernel⟩

theorem meets_ringScan_none :
    ∃ s : State, ∃ r : Nat, ∃ n : Nat, ∃ slot : Nat, s.phase = phReady ∧ r < 64 ∧ n = (s.ring r).consumed + 1 ∧ slot = s.fld CMD_RINGAREA_OFFSET r +
      256 * (n % 2 ^ s.fld CMD_RINGCFG_LOG2N r) ∧ leAt (s.ringRead slot 256) 0 4 ≠ n % 2 ^ 32 :=
  ⟨ringOn, 3, 1, 0x0100100, by decide +kernel⟩

theorem meets_commandStart :
    ∃ s : State, ∃ r : Nat, ∃ seq : Nat, ∃ c : Cmd, s.cmd r seq = some c ∧ c.ring ≠ mgmtRing ∧ c.stage = .consumed ∧ opcodeCritical c.opcode = false
      ∧ s.mayStart c = true ∧ s.sliceInService c.slice = true ∧ 64 ≤ c.reslen :=
  ⟨ringOn.setCmd { cmdOf 1 [(20, leBytes 4 64)] with stage := .consumed }, 3, 1, { cmdOf 1 [(20, leBytes 4 64)] with stage := .consumed }, by decide +kernel⟩

theorem meets_commandComplete :
    ∃ s : State, ∃ r : Nat, ∃ seq : Nat, ∃ c : Cmd, RingCanonical s ∧ s.cmd r seq = some c ∧ c.ring = r ∧ c.seq = seq ∧ r ≠ mgmtRing ∧ c.stage =
      .finished ∧ c.noRecord = false :=
  ⟨ringOn.setCmd { cmdOf 1 [(20, leBytes 4 64)] with stage := .finished }, 3, 1, { cmdOf 1 [(20, leBytes 4 64)] with stage := .finished }, by decide +kernel⟩

theorem meets_nop :
    ∃ s : State, ∃ r : Nat, ∃ seq : Nat, ∃ c : Cmd, s.running r seq 0x0001 = some c ∧ c.unusedZero [] = true :=
  ⟨ringOn.setCmd (cmdOf 1 []), 3, 1, cmdOf 1 [], by decide +kernel⟩

theorem meets_insert :
    ∃ s : State, ∃ r : Nat, ∃ seq : Nat, ∃ n : Nat, ∃ k : Nat, ∃ c : Cmd, ∃ x : Index, ∃ y : Index, s.running r seq 0x0011 = some c ∧ c.step = 0 ∧
      c.unusedZero [(32, 4)] = true ∧ c.par 32 2 = n ∧ c.par 34 2 = k ∧ n < 2 ^ 15 ∧ 1 ≤ k ∧ k ≤ 256 ∧ s.openIndex c.slice n = some x ∧ c.paylen =
      writePaylen 0x0011 k x.vecfmt x.dim ∧ (writeArgs 0x0011 k x.vecfmt x.dim (s.payload c)).bad x.vecfmt = false ∧ roundUp (4 * k) 64 ≤ c.room ∧ y
      = (if x.sealDue then x.seal s.mergeSw else x) ∧ (y.buf y.act).slots.length + k ≤ sidingSlots ∧ k ≤ y.freeIds :=
  ⟨onIndex pair (cmdOf 0x0011 [(12, leBytes 4 192), (20, leBytes 4 128), (34, leBytes 2 1)]), 3, 1, 0, 1, cmdOf 0x0011 [(12, leBytes 4 192), (20, leBytes 4 128), (34, leBytes 2 1)], pair, pair, by decide +kernel⟩

theorem meets_update :
    ∃ s : State, ∃ r : Nat, ∃ seq : Nat, ∃ n : Nat, ∃ k : Nat, ∃ c : Cmd, ∃ x : Index, ∃ y : Index, s.running r seq 0x0013 = some c ∧ c.step = 0 ∧
      c.unusedZero [(32, 4)] = true ∧ c.par 32 2 = n ∧ c.par 34 2 = k ∧ n < 2 ^ 15 ∧ 1 ≤ k ∧ k ≤ 256 ∧ s.openIndex c.slice n = some x ∧ c.paylen =
      writePaylen 0x0013 k x.vecfmt x.dim ∧ (writeArgs 0x0013 k x.vecfmt x.dim (s.payload c)).bad x.vecfmt = false ∧ roundUp (4 * k) 64 ≤ c.room ∧ y
      = (if x.sealDue then x.seal s.mergeSw else x) ∧ (y.buf y.act).slots.length + k ≤ sidingSlots ∧ k ≤ y.freeIds :=
  ⟨onIndex pair (cmdOf 0x0013 [(12, leBytes 4 256), (20, leBytes 4 128), (34, leBytes 2 1)]), 3, 1, 0, 1, cmdOf 0x0013 [(12, leBytes 4 256), (20, leBytes 4 128), (34, leBytes 2 1)], pair, pair, by decide +kernel⟩

theorem meets_delete :
    ∃ s : State, ∃ r : Nat, ∃ seq : Nat, ∃ n : Nat, ∃ k : Nat, ∃ c : Cmd, ∃ x : Index, s.running r seq 0x0012 = some c ∧ c.step = 0 ∧ c.unusedZero
      [(32, 4)] = true ∧ c.par 32 2 = n ∧ c.par 34 2 = k ∧ n < 2 ^ 15 ∧ 1 ≤ k ∧ k ≤ 256 ∧ s.openIndex c.slice n = some x ∧ c.paylen = roundUp (4 *
      k) 64 ∧ (writeArgs 0x0012 k x.vecfmt x.dim (s.payload c)).bad x.vecfmt = false :=
  ⟨onIndex pair deleteCmd, 3, 1, 0, 1, deleteCmd, pair, by decide +kernel⟩

theorem meets_vectorWriteAck :
    ∃ s : State, ∃ r : Nat, ∃ seq : Nat, ∃ n : Nat, ∃ x : Index, ∃ w : StagedWrite, (s.indexes.find? (fun e => e.2.staged.any fun w => w.ring == r
      && w.seq == seq && !w.acked) = some (n, x)) ∧ mapGet s.indexes n = some x ∧ (x.staged.find? (fun w => w.ring == r && w.seq == seq) = some w) ∧
      s.flashPending x.slice = false :=
  ⟨onIndex { pair with staged := [stagedWrite [] [⟨2, 0, 9⟩] false] } (cmdOf 0x0011 []), 3, 1, 0, { pair with staged := [stagedWrite [] [⟨2, 0, 9⟩] false] }, stagedWrite [] [⟨2, 0, 9⟩] false, by decide +kernel⟩

theorem meets_commitGroupClose :
    ∃ s : State, ∃ index : Nat, ∃ dt : Nat, ∃ u : State, ∃ x : Index, ∃ g : CommitGroup, u = (s.tick dt).joinAll index ∧ u.index index = some x ∧
      x.openGroup = some g ∧ ((1024 ≤ g.cmds.length ∨ g.opened + 100000 ≤ u.clock.mono ∨ (x.staged.any fun w => w.acked && u.ringOrderOk index x w)
      = false)) :=
  ⟨onIndex { pair with openGroup := some ⟨0, [stagedWrite [1] [] true]⟩ } deleteCmd, 0, 50, (onIndex { pair with openGroup := some ⟨0, [stagedWrite [1] [] true]⟩ } deleteCmd).tick 50, { pair with openGroup := some ⟨0, [stagedWrite [1] [] true]⟩ }, ⟨0, [stagedWrite [1] [] true]⟩, by decide +kernel⟩

theorem meets_groupPublish :
    ∃ s : State, ∃ index : Nat, ∃ x : Index, ∃ g : CommitGroup, ∃ rest : List CommitGroup, s.index index = some x ∧ x.pub = none ∧ x.closedGroups =
      g :: rest ∧ g.cmds ≠ [] ∧ (g.cmds.all (fun w => w.status == stOK) = true) ∧ x.checkLive [] g.cmds = g.cmds ∧ x.counter + g.cmds.length <
      noTicket ∧ (s.store x.store).hasRoom x.skw ((assignTickets x.counter false g.cmds).map StagedWrite.logCmd) = true :=
  ⟨{ onIndex { pair with closedGroups := [⟨0, [stagedWrite [1] [] true]⟩] } deleteCmd with stores := [(77, ⟨64, 0, 1000, Config.logBytes 0 1 32, []⟩)] }, 0, { pair with closedGroups := [⟨0, [stagedWrite [1] [] true]⟩] }, ⟨0, [stagedWrite [1] [] true]⟩, [], by decide +kernel, by decide, by decide +kernel, by decide +kernel, by decide +kernel, by decide +kernel, by decide +kernel, log_fits (Config.logBytes 0 1 32)⟩

theorem meets_logRecordAck :
    ∃ s : State, ∃ index : Nat, ∃ x : Index, ∃ g : CommitGroup, ∃ ws : List StagedWrite, ∃ w : StagedWrite, ∃ c : Cmd, s.index index = some x ∧
      x.pub = some g ∧ g.cmds = ws ++ [w] ∧ w.status = stOK ∧ s.cmd w.ring w.seq = some c ∧ c.ring = w.ring ∧ c.seq = w.seq :=
  ⟨onIndex { pair with pub := some ⟨0, [{ stagedWrite [1] [] true with ticket := 3 }]⟩ } deleteCmd, 0, { pair with pub := some ⟨0, [{ stagedWrite [1] [] true with ticket := 3 }]⟩ }, ⟨0, [{ stagedWrite [1] [] true with ticket := 3 }]⟩, [], { stagedWrite [1] [] true with ticket := 3 }, deleteCmd, by decide +kernel⟩

theorem meets_sidingSeal :
    ∃ s : State, ∃ index : Nat, ∃ x : Index, s.index index = some x ∧ x.sealDue = true ∧ x.act ≤ 1 ∧ x.bufs.length = 2 :=
  ⟨onIndex full deleteCmd, 0, full, by rfl, full_due, by decide, by decide⟩

theorem meets_mergeForwardSearch :
    ∃ s : State, ∃ index : Nat, ∃ point : Nat, ∃ sk : Nat, ∃ x : Index, ∃ m : Merge, s.index index = some x ∧ x.merge = some m ∧ m.stage =
      .searching ∧ ((x.newPoints m).find? (fun p => p.1 == point) = some (point, sk)) ∧ mapGet m.found point = none ∧ (x.forwardWalk index m sk
      (s.badRecords index x)).2 = none ∧ (x.forwardWalk index m sk (s.badRecords index x)).1.media = false :=
  ⟨onIndex (merging .searching [] []) deleteCmd, 0, 2, 7, merging .searching [] [], (merging .searching [] []).merge.getD ⟨0, 0, 0, .searching, [], [], [], false⟩, by decide +kernel⟩

theorem meets_mergeListCompute :
    ∃ s : State, ∃ index : Nat, ∃ x : Index, ∃ m : Merge, s.index index = some x ∧ x.merge = some m ∧ m.stage = .searching ∧ ((x.newPoints m).all
      (fun p => (mapGet m.found p.1).isSome) = true) :=
  ⟨onIndex (merging .searching [(2, [0, 1])] []) deleteCmd, 0, merging .searching [(2, [0, 1])] [], (merging .searching [(2, [0, 1])] []).merge.getD ⟨0, 0, 0, .searching, [], [], [], false⟩, by decide +kernel⟩

theorem meets_listPublication :
    ∃ s : State, ∃ index : Nat, ∃ x : Index, s.index index = some x ∧ x.hasLists = true ∧ ((s.indexPins index).any (fun v => v != x.imgver) = false) :=
  ⟨onIndex (merging .publishing [] [(1, [0, 2]), (2, [1])]) deleteCmd, 0, merging .publishing [] [(1, [0, 2]), (2, [1])], by decide +kernel⟩

theorem meets_listPublication_pinned :
    ∃ s : State, ∃ index : Nat, ∃ x : Index, s.index index = some x ∧ x.hasLists = true ∧ ((s.indexPins index).any (fun v => v != x.imgver) = true) :=
  ⟨onIndex { merging .publishing [] [(1, [0, 2]), (2, [1])] with saves := [⟨3, 9, 5, true, 3, 2, 8⟩] } deleteCmd, 0, { merging .publishing [] [(1, [0, 2]), (2, [1])] with saves := [⟨3, 9, 5, true, 3, 2, 8⟩] }, by decide +kernel⟩

theorem meets_bufferFree :
    ∃ s : State, ∃ index : Nat, ∃ x : Index, s.index index = some x ∧ (x.buf x.other).st = .retiring ∧ ((s.activeWalks.any fun w => w.index == index
      && verLater (x.buf x.other).f w.pin) = false) :=
  ⟨onIndex { pair with bufs := [{ Siding.blank with st := .active }, { Siding.blank with st := .retiring, slots := [(0, 3)], f := 4 }] } deleteCmd, 0, { pair with bufs := [{ Siding.blank with st := .active }, { Siding.blank with st := .retiring, slots := [(0, 3)], f := 4 }] }, by decide +kernel⟩

theorem meets_repairList :
    ∃ s : State, ∃ index : Nat, ∃ p : Nat, ∃ x : Index, s.index index = some x ∧ x.key = false ∧ x.rate ≠ 0 ∧ x.repair.started = true ∧
      x.repair.next = p ∧ p + 1 < x.repair.upto ∧ (x.record p).present = true ∧ ((mapGet x.repair.staged p).getD (listEnd (x.record p).slots)).any
      x.tomb = true :=
  ⟨onIndex { pair with life := [(0, ⟨1, noTicket, 0⟩), (1, ⟨2, 3, 5⟩)], repair := { Repair.idle with started := true, upto := 2 } } deleteCmd, 0, 0, { pair with life := [(0, ⟨1, noTicket, 0⟩), (1, ⟨2, 3, 5⟩)], repair := { Repair.idle with started := true, upto := 2 } }, by decide +kernel⟩

theorem meets_reclaim :
    ∃ s : State, ∃ index : Nat, ∃ id : Nat, ∃ x : Index, s.index index = some x ∧ x.reclaimable (s.rdmin index x) id = true :=
  ⟨onIndex gone deleteCmd, 0, 1, gone, by decide +kernel⟩

theorem meets_indexCreate :
    ∃ s : State, ∃ r : Nat, ∃ seq : Nat, ∃ c : Cmd, ∃ n : Nat, ∃ skw : Nat, ∃ degree : Nat, ∃ dim : Nat, ∃ entries : Nat, ∃ capacity : Nat, ∃ p :
      Nat × Alloc, ∃ needs : List (Nat × Nat), s.running r seq 0x0017 = some c ∧ c.par 32 2 = n ∧ c.par 34 1 = skw ∧ c.par 35 1 = degree ∧ c.par 38
      2 = dim ∧ c.par 40 2 = entries ∧ c.par 44 4 = capacity ∧ s.index n = none ∧ c.unusedZero [(32, 10), (44, 28)] = true ∧ n < 2 ^ 15 ∧ skw ≤ 3 ∧
      c.par 36 1 ≤ 2 ∧ degree % 8 = 0 ∧ 8 ≤ degree ∧ degree ≤ 64 ∧ c.par 37 1 ≤ 1 ∧ 1 ≤ dim ∧ dim ≤ 4096 ∧ 1 ≤ entries ∧ entries ≤ 1024 ∧ entries ≤
      capacity ∧ s.named c.slice (c.par 56 8) = some p ∧ 32 * 2 ^ skw * 8 * dim ≤ p.2.size ∧ c.par 64 8 ≠ 0 ∧ s.named c.slice (c.par 64 8) = none ∧
      needs = indexNeeds skw degree capacity entries dim (c.par 52 4) (bitOf (c.par 37 1) 0) ∧ (((s.roomFor c.slice needs).bind fun u =>
      u.newPersist c.slice (c.par 64 8) (storeSize (c.par 48 4) capacity (c.par 36 1) dim) []).isSome = true) :=
  ⟨tenantRuns (cmd1 0x0017 [(32, leBytes 2 5), (34, [0, 8, 0, 0]), (38, leBytes 2 1), (40, leBytes 2 1), (44, leBytes 4 10), (48, leBytes 4 1), (52, leBytes 4 4), (56, leBytes 8 9), (64, leBytes 8 77)]), 3, 1, cmd1 0x0017 [(32, leBytes 2 5), (34, [0, 8, 0, 0]), (38, leBytes 2 1), (40, leBytes 2 1), (44, leBytes 4 10), (48, leBytes 4 1), (52, leBytes 4 4), (56, leBytes 8 9), (64, leBytes 8 77)], 5, 0, 8, 1, 1, 10, (50, persistAlloc 9 65536), indexNeeds 0 8 10 1 1 4 false, by decide +kernel⟩

theorem meets_indexLoad :
    ∃ s : State, ∃ r : Nat, ∃ seq : Nat, ∃ c : Cmd, ∃ n : Nat, ∃ ia : Nat × Alloc, ∃ pa : Nat × Alloc, ∃ sa : Nat × Alloc, ∃ b : Bytes, ∃ p :
      ImageParts, ∃ u : State, ∃ x : Index, ∃ y : Index, s.running r seq 0x0014 = some c ∧ c.par 32 2 = n ∧ s.index n = none ∧ c.unusedZero [(32,
      6), (40, 32)] = true ∧ n < 2 ^ 15 ∧ c.par 34 1 ≤ 1 ∧ c.par 35 1 ≤ 2 ∧ 1 ≤ c.par 36 2 ∧ c.par 36 2 ≤ 4096 ∧ s.named c.slice (c.par 48 8) = some
      ia ∧ s.named c.slice (c.par 56 8) = some pa ∧ s.named c.slice (c.par 64 8) = some sa ∧ ((mapVals s.indexes).any (fun x => (!x.key && x.store
      == sa.1) || x.saves.any fun v => v.begun && v.alloc == ia.1) = false) ∧ s.readStatus ia.1 0 ia.2.size = none ∧ b = memRead ia.2.mem 0
      ia.2.size ∧ imageHeaderOk b = true ∧ shake256 (b.drop 64) 32 = bytesAt b 32 32 ∧ imageParts b = some p ∧ 256 * 2 ^ p.skw * c.par 36 2 ≤
      pa.2.size ∧ (s.store sa.1).dim = c.par 36 2 ∧ (s.store sa.1).vecfmt = c.par 35 1 ∧ (s.store sa.1).capacity = p.capacity ∧ ((c.par 40 4 = 0 ∨
      c.par 40 4 = (s.store sa.1).logsize)) ∧ s.roomFor c.slice (indexNeeds p.skw p.degree p.capacity p.entries.length (c.par 36 2) (c.par 44 4)
      (bitOf (c.par 34 1) 0)) = some u ∧ u.formCopies (p.open_ c.slice (c.par 35 1) (c.par 36 2) (bitOf (c.par 34 1) 0) (c.par 44 4) (u.allocBytes
      pa.1 0 (256 * 2 ^ p.skw * c.par 36 2)) sa.1) = (x, none) ∧ (u.replayAll n ((u.store sa.1).log.filter fun l => decide (x.counter < l.ticket)) x
      = (y, true)) :=
  ⟨loadState (cmd1 0x0014 [(32, leBytes 2 5), (36, leBytes 2 1), (44, leBytes 4 4), (48, leBytes 8 10), (56, leBytes 8 9), (64, leBytes 8 11)]), 3, 1, cmd1 0x0014 [(32, leBytes 2 5), (36, leBytes 2 1), (44, leBytes 4 4), (48, leBytes 8 10), (56, leBytes 8 9), (64, leBytes 8 11)], 5, (51, imageAlloc), (50, persistAlloc 9 65536), (52, persistAlloc 11 65536), savedBytes, loadParts, (loadState (cmd1 0x0014 [(32, leBytes 2 5), (36, leBytes 2 1), (44, leBytes 4 4), (48, leBytes 8 10), (56, leBytes 8 9), (64, leBytes 8 11)])).pressure 1 0, loadIndex, loadIndex, by decide +kernel⟩

theorem meets_indexSave_admit :
    ∃ s : State, ∃ r : Nat, ∃ seq : Nat, ∃ c : Cmd, ∃ n : Nat, ∃ name : Nat, ∃ x : Index, s.running r seq 0x0015 = some c ∧ c.par 32 2 = n ∧ c.par
      40 8 = name ∧ (x.saves.find? (fun v => v.ring == r && v.seq == seq) = none) ∧ s.index n = some x ∧ c.unusedZero [(32, 2), (40, 8)] = true ∧ n
      < 2 ^ 15 ∧ name ≠ 0 ∧ s.openIndex c.slice n = some x ∧ s.named c.slice name = none :=
  ⟨{ tenantRuns (cmd1 0x0015 [(32, leBytes 2 5), (40, leBytes 8 80)]) with indexes := [(5, tenantIndex)] }, 3, 1, cmd1 0x0015 [(32, leBytes 2 5), (40, leBytes 8 80)], 5, 80, tenantIndex, by decide +kernel⟩

theorem meets_indexSave :
    ∃ s : State, ∃ r : Nat, ∃ seq : Nat, ∃ c : Cmd, ∃ n : Nat, ∃ x : Index, ∃ v : Save, s.running r seq 0x0015 = some c ∧ c.ring = r ∧ c.seq = seq ∧
      c.par 32 2 = n ∧ s.index n = some x ∧ (x.saves.find? (fun v => v.ring == r && v.seq == seq) = some v) ∧ v.begun = true ∧ s.readStatus v.alloc
      0 1 = none ∧ s.flashPending c.slice = false :=
  ⟨{ tenantRuns (cmd1 0x0015 [(32, leBytes 2 5), (40, leBytes 8 80)]) with indexes := [(5, { tenantIndex with saves := [⟨3, 1, 80, true, 1, 0, 51⟩] })] }, 3, 1, cmd1 0x0015 [(32, leBytes 2 5), (40, leBytes 8 80)], 5, { tenantIndex with saves := [⟨3, 1, 80, true, 1, 0, 51⟩] }, ⟨3, 1, 80, true, 1, 0, 51⟩, by decide +kernel⟩

theorem meets_indexClose :
    ∃ s : State, ∃ r : Nat, ∃ seq : Nat, ∃ c : Cmd, ∃ n : Nat, ∃ x : Index, s.running r seq 0x0016 = some c ∧ c.par 32 2 = n ∧ n < 2 ^ 15 ∧
      c.unusedZero [(32, 2)] = true ∧ s.index n = some x ∧ x.slice = c.slice ∧ x.key = false ∧ s.indexBusy n x = false :=
  ⟨{ tenantRuns (cmd1 0x0016 [(32, leBytes 2 5)]) with indexes := [(5, tenantIndex)] }, 3, 1, cmd1 0x0016 [(32, leBytes 2 5)], 5, tenantIndex, by decide +kernel⟩

theorem meets_free :
    ∃ s : State, ∃ r : Nat, ∃ seq : Nat, ∃ c : Cmd, ∃ id : Nat, ∃ a : Alloc, s.running r seq 0x003A = some c ∧ c.unusedZero [(32, 8)] = true ∧
      s.named c.slice (c.par 32 8) = some (id, a) ∧ a.flags.persist = true ∧ a.users = [] ∧ ((mapVals s.indexes).any (fun x => (!x.key && x.store ==
      id) || x.saves.any fun v => v.begun && v.alloc == id) = false) ∧ ((mapVals s.cmds).any (fun d => d.live && d.opcode == 0x0014 && d.slice ==
      c.slice && d.stage == .running && d.par 48 8 == c.par 32 8) = false) :=
  ⟨tenantRuns (cmd1 0x003A [(32, leBytes 8 10)]), 3, 1, cmd1 0x003A [(32, leBytes 8 10)], 51, persistAlloc 10 65536, by decide +kernel⟩

theorem meets_tableOpen :
    ∃ s : State, ∃ r : Nat, ∃ seq : Nat, ∃ c : Cmd, ∃ n : Nat, ∃ x : Table, s.running r seq 0x0020 = some c ∧ c.par 32 2 = n ∧ (x = c.table
      (nodeList (s.payload c)) ((nodeList (s.payload c)).findIdx fun d => d == s.node) (s.reg .memTblcfg 0 0).toNat) ∧ c.unusedZero [(32, 2), (40,
      14), (56, 13)] = true ∧ x.bad n = false ∧ c.par 68 1 ≤ 1 ∧ s.devsBad (s.payload c) 256 = false ∧ mapGet s.tables n = none ∧ ((x.repl = false ∨
      x.rows * (x.rowSize + x.stateSize) ≤ s.fld MEM_TBLCFG_REPLSMALL * 2 ^ 26)) ∧ (((s.chargeHot (.table n) c.slice ((if x.repl then x.rows else
      x.homeRows x.mine) * x.rowSize)).bind fun u => u.chargeHot (.table n) c.slice ((if x.repl then x.rows else x.homeRows x.mine) *
      x.stateSize)).isSome = true) :=
  ⟨tenantRuns (cmd1 0x0020 [(12, leBytes 4 4), (32, leBytes 2 7), (40, leBytes 8 100), (48, leBytes 2 8), (64, leBytes 4 0x3F800000)]), 3, 1, cmd1 0x0020 [(12, leBytes 4 4), (32, leBytes 2 7), (40, leBytes 8 100), (48, leBytes 2 8), (64, leBytes 4 0x3F800000)], 7, aTable, by decide +kernel⟩

theorem meets_tableClose :
    ∃ s : State, ∃ r : Nat, ∃ seq : Nat, ∃ c : Cmd, ∃ n : Nat, ∃ x : Table, s.running r seq 0x0021 = some c ∧ c.par 32 2 = n ∧ c.unusedZero [(32,
      2)] = true ∧ mapGet s.tables n = some x ∧ x.slice = c.slice :=
  ⟨{ tenantRuns (cmd1 0x0021 [(32, leBytes 2 7)]) with tables := [(7, aTable)] }, 3, 1, cmd1 0x0021 [(32, leBytes 2 7)], 7, aTable, by decide +kernel⟩

theorem meets_seqOpen :
    ∃ s : State, ∃ r : Nat, ∃ seq : Nat, ∃ c : Cmd, ∃ n : Nat, ∃ need : Nat, ∃ p : Nat × Alloc, ∃ q : Seq, s.running r seq 0x0028 = some c ∧ c.par
      32 2 = n ∧ c.seqBad = false ∧ s.devsBad (s.payload c) 16 = false ∧ (nodeList (s.payload c)).length = c.par 44 1 ∧ mapGet s.seqs n = none ∧
      s.named c.slice (c.par 56 8) = some p ∧ need = c.par 34 2 * c.par 36 1 * (256 * 2 ^ c.par 41 1) * c.par 38 2 ∧ need ≤ p.2.size ∧ s.readStatus
      p.1 0 need = none ∧ (q = c.seqArgs (nodeList (s.payload c)) ((nodeList (s.payload c)).findIdx fun d => d == s.node) (s.allocBytes p.1 0 need))
      ∧ ((q.graph && (List.range (q.layers * q.kvh)).any fun i => (s.index (q.ibase + i)).isSome) = false) ∧ (s.chargeSeq n q).isSome = true :=
  ⟨tenantRuns (cmd1 0x0028 [(12, leBytes 4 4), (32, leBytes 2 2), (34, leBytes 2 1), (36, [1, 1]), (38, leBytes 2 32), (44, [1]), (56, leBytes 8 9)]), 3, 1, cmd1 0x0028 [(12, leBytes 4 4), (32, leBytes 2 2), (34, leBytes 2 1), (36, [1, 1]), (38, leBytes 2 32), (44, [1]), (56, leBytes 8 9)], 2, 8192, (50, persistAlloc 9 65536), (cmd1 0x0028 [(12, leBytes 4 4), (32, leBytes 2 2), (34, leBytes 2 1), (36, [1, 1]), (38, leBytes 2 32), (44, [1]), (56, leBytes 8 9)]).seqArgs [0] 0 ((tenantRuns (cmd1 0x0028 [(12, leBytes 4 4), (32, leBytes 2 2), (34, leBytes 2 1), (36, [1, 1]), (38, leBytes 2 32), (44, [1]), (56, leBytes 8 9)])).allocBytes 50 0 8192), by decide +kernel, by decide +kernel, by decide +kernel, by decide +kernel, by decide +kernel, by decide +kernel, by decide +kernel, by decide +kernel, by decide +kernel, by decide +kernel, rfl, by decide +kernel, by decide +kernel⟩

theorem meets_seqClose :
    ∃ s : State, ∃ r : Nat, ∃ seq : Nat, ∃ c : Cmd, ∃ n : Nat, ∃ q : Seq, s.running r seq 0x0029 = some c ∧ c.par 32 2 = n ∧ n ≤ 4095 ∧ c.unusedZero
      [(32, 2)] = true ∧ s.seqOf c.slice n = some q ∧ (s.activeWalks.any (fun w => q.graphs.contains w.index) = false) :=
  ⟨{ tenantRuns (cmd1 0x0029 [(32, leBytes 2 2)]) with seqs := [(2, aSeq)] }, 3, 1, cmd1 0x0029 [(32, leBytes 2 2)], 2, aSeq, by decide +kernel⟩

theorem meets_kvappend :
    ∃ s : State, ∃ r : Nat, ∃ seq : Nat, ∃ c : Cmd, ∃ n : Nat, ∃ layer : Nat, ∃ pos : Nat, ∃ k : Nat, ∃ q : Seq, s.running r seq 0x002A = some c ∧
      c.par 32 2 = n ∧ c.par 34 2 = layer ∧ c.par 36 4 = pos ∧ c.par 40 4 = k ∧ c.unusedZero [(32, 12)] = true ∧ n ≤ 4095 ∧ 1 ≤ k ∧ k ≤ 65536 ∧
      s.seqOf c.slice n = some q ∧ layer < q.layers ∧ c.paylen = 2 * (k * q.kvh * q.dh * 2) ∧ s.appendBefore c = false ∧ pos = q.count layer ∧ pos +
      k ≤ q.size ∧ ((if q.graph then (List.range q.kvh).any (fun h => (s.graphRoom (q.ibase + q.head layer h) ((List.range k).filter fun i =>
      q.isHome (pos + i)).length).isNone) else false) = false) :=
  ⟨{ tenantRuns (cmd1 0x002A [(12, leBytes 4 128), (32, leBytes 2 2), (40, leBytes 4 1)]) with seqs := [(2, aSeq)] }, 3, 1, cmd1 0x002A [(12, leBytes 4 128), (32, leBytes 2 2), (40, leBytes 4 1)], 2, 0, 0, 1, aSeq, by decide +kernel⟩

theorem meets_attend :
    ∃ s : State, ∃ r : Nat, ∃ seq : Nat, ∃ c : Cmd, ∃ remote : List Bytes, ∃ rest : List Bytes, ∃ q : Seq, ∃ se : Nat, ∃ u : State, ∃ out : Bytes,
      s.running r seq 0x002B = some c ∧ s.attendStatus c = none ∧ s.seqOf c.slice c.attnArgs.seq = some q ∧ (s.sliceSelectors c.slice).head? = some
      se ∧ c.attnArgs.scratch q ≤ s.free c.slice 2 ∧ s.attendAll c q (q.count c.attnArgs.layer) (s.payload c) (List.range (c.attnArgs.nq * q.kvh *
      q.group)) remote = .ok (some (u, out, rest)) := by
  obtain ⟨u, o, l, e⟩ := of_done (attendState.attendAll attendCmd aKeyedSeq 1 (attendState.payload attendCmd) [0] []) (by decide +kernel)
  exact ⟨attendState, 3, 1, attendCmd, [], l, aKeyedSeq, 0, u, o, by decide +kernel, by decide +kernel, by decide +kernel, by decide +kernel,
    by decide +kernel, e⟩

theorem meets_jobBind :
    ∃ s : State, ∃ r : Nat, ∃ seq : Nat, ∃ c : Cmd, ∃ job : Nat, s.jobCmd r seq false = some c ∧ c.par 32 2 = job ∧ s.jobStatus c false = none ∧
      (s.chargeJob job c.slice (bitOf (c.par 35 1) 0) 0).isSome = true :=
  ⟨tenantRuns (cmd1 0x0038 [(32, leBytes 2 3), (34, [1, 1])]), 3, 1, cmd1 0x0038 [(32, leBytes 2 3), (34, [1, 1])], 3, by decide +kernel⟩

theorem meets_jobUnbind :
    ∃ s : State, ∃ r : Nat, ∃ seq : Nat, ∃ c : Cmd, s.jobCmd r seq true = some c ∧ s.jobStatus c true = none :=
  ⟨{ tenantRuns (cmd1 0x0038 [(32, leBytes 2 3), (35, [2])]) with jobs := [(3, ⟨1, 1, 0, [], none⟩)] }, 3, 1, cmd1 0x0038 [(32, leBytes 2 3), (35, [2])], by decide +kernel⟩

theorem meets_exportPages :
    ∃ s : State, ∃ r : Nat, ∃ seq : Nat, ∃ c : Cmd, ∃ job : Nat, ∃ pages : Nat, ∃ first : Nat, ∃ n : Nat, ∃ j : Job, ∃ recs : List PageRec,
      s.running r seq 0x0039 = some c ∧ c.par 32 2 = job ∧ c.unusedZero [(32, 3), (36, 12)] = true ∧ c.par 34 1 ≤ 1 ∧ mapGet s.jobs job = some j ∧
      j.slice = c.slice ∧ first = c.par 40 4 ∧ n = c.par 44 4 ∧ c.paylen = 24 * n ∧ pages = (if bitOf (c.par 34 1) 0 then c.par 36 4 else j.pages) ∧
      pages ≤ 524288 ∧ first + n ≤ pages ∧ recs = pageRecs (s.payload c) n ∧ (recs.any (fun p => decide (16 ≤ p.perm) || decide (p.zero ≠ 0)) =
      false) ∧ recs.any (s.recordBad c.slice) = false ∧ (s.chargeJob job c.slice j.msgs.isSome pages).isSome = true :=
  ⟨{ tenantRuns (cmd1 0x0039 [(32, leBytes 2 3), (34, [1]), (36, leBytes 4 8)]) with jobs := [(3, ⟨1, 1, 0, [], none⟩)] }, 3, 1, cmd1 0x0039 [(32, leBytes 2 3), (34, [1]), (36, leBytes 4 8)], 3, 8, 0, 0, ⟨1, 1, 0, [], none⟩, [], by decide +kernel⟩

theorem meets_load :
    ∃ s : State, ∃ r : Nat, ∃ seq : Nat, ∃ c : Cmd, ∃ total : Nat, ∃ off : Nat, s.running r seq 0x0030 = some c ∧ c.ring = r ∧ c.unusedZero [(32,
      4), (40, 8), (48, 1)] = true ∧ c.par 48 1 = 0 ∧ total = c.par 32 4 ∧ off = c.par 40 8 ∧ (s.ring r).staging = none ∧ off + c.paylen ≤ total ∧
      total ≤ s.free c.slice 2 :=
  ⟨tenantRuns (cmd1 0x0030 [(12, leBytes 4 64), (32, leBytes 4 256)]), 3, 1, cmd1 0x0030 [(12, leBytes 4 64), (32, leBytes 4 256)], 256, 0, by decide +kernel⟩

theorem meets_load_next :
    ∃ s : State, ∃ r : Nat, ∃ seq : Nat, ∃ c : Cmd, ∃ off : Nat, ∃ b : StageBuf, s.running r seq 0x0030 = some c ∧ c.ring = r ∧ c.unusedZero [(32,
      4), (40, 8), (48, 1)] = true ∧ c.par 48 1 = 0 ∧ off = c.par 40 8 ∧ (s.ring r).staging = some b ∧ b.total = c.par 32 4 ∧ off + c.paylen ≤
      b.total :=
  ⟨(tenantRuns (cmd1 0x0030 [(12, leBytes 4 64), (32, leBytes 4 256)])).setRing 3 { Ring.initial with staging := some ⟨256, [], [(64, 256)]⟩ }, 3, 1, cmd1 0x0030 [(12, leBytes 4 64), (32, leBytes 4 256)], 0, ⟨256, [], [(64, 256)]⟩, by decide +kernel⟩

theorem meets_load_check :
    ∃ s : State, ∃ r : Nat, ∃ seq : Nat, ∃ c : Cmd, ∃ b : StageBuf, ∃ u : State, ∃ h : Nat, s.running r seq 0x0030 = some c ∧ c.ring = r ∧
      c.unusedZero [(32, 4), (40, 8), (48, 1)] = true ∧ c.par 48 1 = 1 ∧ c.paylen = 0 ∧ (s.ring r).staging = some b ∧ covered b.written b.total =
      true ∧ (s.dropStaging r).loadConsist c.slice (memRead b.mem 0 b.total) = .inr (u, h) := by
  obtain ⟨u, n, e⟩ := of_isRight ((loadable.dropStaging 3).loadConsist 1 (memRead packageBuf.mem 0 512)) (by decide +kernel)
  exact ⟨loadable, 3, 1, loadCheckCmd, packageBuf, u, n, by decide +kernel, by decide +kernel, by decide +kernel, by decide +kernel,
    by decide +kernel, by decide +kernel, by decide +kernel, e⟩

theorem meets_load_short :
    ∃ s : State, ∃ r : Nat, ∃ seq : Nat, ∃ c : Cmd, ∃ b : StageBuf, s.running r seq 0x0030 = some c ∧ c.ring = r ∧ c.unusedZero [(32, 4), (40, 8),
      (48, 1)] = true ∧ c.par 48 1 = 1 ∧ c.paylen = 0 ∧ (s.ring r).staging = some b ∧ covered b.written b.total = false :=
  ⟨(tenantRuns (cmd1 0x0030 [(48, [1])])).setRing 3 { Ring.initial with staging := some ⟨256, [], [(64, 256)]⟩ }, 3, 1, cmd1 0x0030 [(48, [1])], ⟨256, [], [(64, 256)]⟩, by decide +kernel⟩

theorem meets_run :
    ∃ s : State, ∃ r : Nat, ∃ seq : Nat, ∃ c : Cmd, ∃ h : Nat, ∃ k : Consist, s.running r seq 0x0031 = some c ∧ (s.runOf r seq) = none ∧
      c.unusedZero [(32, 8)] = true ∧ h = c.par 32 8 ∧ mapGet s.consists h = some k ∧ k.slice = c.slice ∧ c.paylen = k.parambytes ∧ k.resultbytes +
      64 * k.nframes ≤ c.room ∧ s.consistBusy h = false ∧ s.tooFew c.slice k = false :=
  ⟨{ tenantRuns (cmd1 0x0031 [(20, leBytes 4 1024), (32, leBytes 8 40)]) with consists := [(40, aConsist)] }, 3, 1, cmd1 0x0031 [(20, leBytes 4 1024), (32, leBytes 8 40)], 40, aConsist, by decide +kernel⟩

theorem meets_runStart :
    ∃ s : State, ∃ r : Nat, ∃ seq : Nat, ∃ c : Cmd, ∃ id : Nat, ∃ x : Run, ∃ k : Consist, ∃ fs : List Nat, s.runOf r seq = some (id, x) ∧ s.cmd r
      seq = some c ∧ s.runConsist x = some k ∧ x.phys = [] ∧ s.waitsBefore x.slice id = false ∧ fs = (s.claimable x.slice).take k.nframes ∧
      fs.length = k.nframes ∧ s.tooFew x.slice k = false :=
  ⟨{ tenantRuns (cmd1 0x0031 [(20, leBytes 4 1024), (32, leBytes 8 40)]) with consists := [(40, aConsist)], runs := [(60, aRun)] }, 3, 1, cmd1 0x0031 [(20, leBytes 4 1024), (32, leBytes 8 40)], 60, aRun, aConsist, List.range 11, by decide +kernel⟩

theorem meets_unload :
    ∃ s : State, ∃ r : Nat, ∃ seq : Nat, ∃ c : Cmd, ∃ h : Nat, ∃ k : Consist, s.running r seq 0x0032 = some c ∧ c.unusedZero [(32, 8)] = true ∧ h =
      c.par 32 8 ∧ mapGet s.consists h = some k ∧ k.slice = c.slice ∧ s.consistBusy h = false :=
  ⟨{ tenantRuns (cmd1 0x0032 [(32, leBytes 8 40)]) with consists := [(40, aConsist)] }, 3, 1, cmd1 0x0032 [(32, leBytes 8 40)], 40, aConsist, by decide +kernel⟩

theorem meets_search :
    ∃ s : State, ∃ r : Nat, ∃ seq : Nat, ∃ c : Cmd, ∃ x : Index, ∃ a : SearchArgs, ∃ sh : Nat, ∃ se : Nat, ∃ ticket : Nat, ∃ w : Walk, ∃ sw :
      SweepRes, ∃ sk : Nat, s.running r seq 0x0010 = some c ∧ c.ring = r ∧ c.seq = seq ∧ mapGet s.queries (cmdKey r seq) = none ∧ a = c.searchArgs ∧
      s.searchStatus c = none ∧ s.index a.index = some x ∧ s.walkPlace a.index x (scratchBytes (x.entrySet a.entry).length a.hopmax x.degree) = some
      sh ∧ (s.sliceSelectors c.slice).head? = some se ∧ ticket = a.given.getD x.counter ∧ sk = sketchOf x.proj x.bits x.dim (int8Codes (vecFmt
      x.vecfmt) (vecOf x.vecfmt x.dim (s.payload c))).1 ∧ sw = x.sweep x.imgver ticket a.filter sk ∧ (Walk.start a.index x.imgver ticket a.filter sk
      a.sw a.swmax a.hopmax a.batch (x.entrySet a.entry) a.k a.widening sh (s.badRecords a.index x)) = w ∧ (x.runWalk sw.hits w.fuel w).2 = none ∧
      (x.runWalk sw.hits w.fuel w).1.media = false :=
  ⟨searchable, 3, 1, searchCmd, tenantIndex, searchCmd.searchArgs, 0, 0, 0, searchWalk, tenantIndex.sweep 1 0 none (sketchOf [] 256 1 (int8Codes (vecFmt 0) [0]).1), sketchOf [] 256 1 (int8Codes (vecFmt 0) [0]).1, by decide +kernel⟩

theorem meets_rerankStage1 :
    ∃ s : State, ∃ r : Nat, ∃ seq : Nat, ∃ c : Cmd, ∃ q : Query, ∃ x : Index, ∃ a : SearchArgs, ∃ rr : Selected, s.query r seq = some (c, q, x) ∧
      c.ring = r ∧ c.seq = seq ∧ a = c.searchArgs ∧ q.staged1 = false ∧ a.rrmode = 0 ∧ (q.row.any (fun e => s.copyBad a.index x (e.id % 2 ^ 32)) =
      false) ∧ (rr = topk 5 (a.metric != 1) true a.exact SumSet.none (q.row.map fun e =>
      { e with key := x.keyOne a.metric (copyOf (vecFmt x.vecfmt) q.vec) (e.id % 2 ^ 32) })) :=
  ⟨queried 0 false, 3, 1, rankCmd 0, aQuery false, tenantIndex, (rankCmd 0).searchArgs, topk 5 true true 4 SumSet.none [], by decide +kernel⟩

theorem meets_rerankStage1_ends :
    ∃ s : State, ∃ r : Nat, ∃ seq : Nat, ∃ c : Cmd, ∃ q : Query, ∃ x : Index, ∃ a : SearchArgs, s.query r seq = some (c, q, x) ∧ c.ring = r ∧ c.seq
      = seq ∧ a = c.searchArgs ∧ q.staged1 = false ∧ a.rrmode = 1 ∧ (q.row.any (fun e => s.copyBad a.index x (e.id % 2 ^ 32)) = false) :=
  ⟨queried 4 false, 3, 1, rankCmd 4, aQuery false, tenantIndex, (rankCmd 4).searchArgs, by decide +kernel⟩

theorem meets_rerankStage2 :
    ∃ s : State, ∃ r : Nat, ∃ seq : Nat, ∃ c : Cmd, ∃ q : Query, ∃ x : Index, ∃ a : SearchArgs, ∃ rows : List (SelEntry × Bool), ∃ rr : Selected,
      s.query r seq = some (c, q, x) ∧ c.ring = r ∧ c.seq = seq ∧ a = c.searchArgs ∧ ((q.staged1 = true ∨ a.rrmode = 2)) ∧ s.stageTwoRow a q x q.row
      = .ok rows ∧ rr = topk 5 (a.metric != 1) true a.k SumSet.none (rows.map Prod.fst) ∧ (rr.kept.any (fun e => e.pos == approxPos) = false) :=
  ⟨queried 0 true, 3, 1, rankCmd 0, aQuery true, tenantIndex, (rankCmd 0).searchArgs, [], topk 5 true true 4 SumSet.none [], by decide +kernel, by decide +kernel, by decide +kernel, by decide +kernel, by decide +kernel, rfl, rfl, by decide +kernel⟩

theorem meets_fwStage :
    ∃ s : State, ∃ r : Nat, ∃ seq : Nat, ∃ c : Cmd, ∃ total : Nat, s.running r seq 0x0100 = some c ∧ c.unusedZero [(32, 4), (40, 9)] = true ∧
      s.nv.trial = none ∧ s.stm.act.stage = .idle ∧ c.par 48 1 = 0 ∧ c.par 40 8 = 0 ∧ total = c.par 32 4 ∧ (s.payload c).length ≤ total ∧ total ≤ 2
      ^ 27 :=
  ⟨ringOn.setCmd (cmdOf 0x0100 [(12, leBytes 4 64), (32, leBytes 4 4096)]), 3, 1, cmdOf 0x0100 [(12, leBytes 4 64), (32, leBytes 4 4096)], 4096, by decide +kernel⟩

theorem meets_fwStage_verify :
    ∃ s : State, ∃ r : Nat, ∃ seq : Nat, ∃ c : Cmd, ∃ b : StageBuf, ∃ x : FwSlot, s.running r seq 0x0100 = some c ∧ c.unusedZero [(32, 4), (40, 9)]
      = true ∧ s.nv.trial = none ∧ s.stm.act.stage = .idle ∧ c.par 48 1 = 1 ∧ s.payload c = [] ∧ s.stm.stage = some b ∧ x = FwSlot.ofImage (memRead
      b.mem 0 b.total) ∧ b.complete = true ∧ x.present = true ∧ bitOf x.variants s.nv.record.variant = true ∧ x.floor ≤ x.version ∧ s.nv.rollback ≤
      x.version :=
  ⟨stagedImage (cmdOf 0x0100 [(48, [1])]), 3, 1, cmdOf 0x0100 [(48, [1])], imageBuf, FwSlot.ofImage (memRead imageBuf.mem 0 4096), by decide +kernel, by decide +kernel, by decide +kernel, by decide +kernel, by decide +kernel, by decide +kernel, by rfl, by rfl, by decide +kernel, by decide +kernel, by decide +kernel, by decide +kernel, by decide +kernel⟩

theorem meets_fwActivateTrial :
    ∃ s : State, ∃ r : Nat, ∃ seq : Nat, ∃ c : Cmd, s.activateCmd r seq 0 = some c ∧ s.activateStatus c 0 = none :=
  ⟨verifiedState (cmdOf 0x0101 []), 3, 1, cmdOf 0x0101 [], by decide +kernel⟩

theorem meets_fwActivateCommit :
    ∃ s : State, ∃ r : Nat, ∃ seq : Nat, ∃ c : Cmd, s.activateCmd r seq 1 = some c ∧ s.activateStatus c 1 = none ∧ s.nv.trial = none :=
  ⟨verifiedState (cmdOf 0x0101 [(32, [1])]), 3, 1, cmdOf 0x0101 [(32, [1])], by decide +kernel⟩

theorem meets_fwActivateCommit_trial :
    ∃ s : State, ∃ r : Nat, ∃ seq : Nat, ∃ c : Cmd, ∃ x : Trial, s.activateCmd r seq 1 = some c ∧ s.activateStatus c 1 = none ∧ s.nv.trial = some x :=
  ⟨onTrial (cmdOf 0x0101 [(32, [1])]), 3, 1, cmdOf 0x0101 [(32, [1])], ⟨1, 0⟩, by decide +kernel⟩

theorem meets_fwActivateRevert :
    ∃ s : State, ∃ r : Nat, ∃ seq : Nat, ∃ c : Cmd, ∃ x : Trial, s.activateCmd r seq 2 = some c ∧ s.activateStatus c 2 = none ∧ s.nv.trial = some x :=
  ⟨onTrial (cmdOf 0x0101 [(32, [2])]), 3, 1, cmdOf 0x0101 [(32, [2])], ⟨1, 0⟩, by decide +kernel⟩

theorem meets_activationStandbyRestart :
    ∃ s : State, s.stm.act.stage = .standbyRestart ∧ s.isUp s.standbyDie = true ∧ s.nv.accepts s.stm.act.slot = true :=
  ⟨activating .standbyRestart 0, by decide +kernel⟩

theorem meets_activationStandbyRestart_fails :
    ∃ s : State, ∃ r : Nat, ∃ seq : Nat, ∃ c : Cmd, s.stm.act.stage = .standbyRestart ∧ s.isUp s.standbyDie = true ∧ s.stm.act.cmd = some (r, seq) ∧
      s.cmd r seq = some c :=
  ⟨activating .standbyRestart 0, 3, 1, cmdOf 0x0101 [], by decide +kernel⟩

theorem meets_activationHandover :
    ∃ s : State, ∃ m : Nat, s.stm.act.stage = .handover ∧ m = s.stm.act.mode :=
  ⟨activating .handover 0, 0, by decide +kernel⟩

theorem meets_activationActiveRestart :
    ∃ s : State, s.stm.act.stage = .activeRestart :=
  ⟨activating .activeRestart 0, by decide +kernel⟩

theorem meets_activationHandback :
    ∃ s : State, ∃ r : Nat, ∃ seq : Nat, ∃ c : Cmd, ∃ m : Nat, s.stm.act.stage = .handback ∧ m = s.stm.act.mode ∧ s.stm.act.cmd = some (r, seq) ∧
      s.cmd r seq = some c :=
  ⟨activating .handback 1, 3, 1, cmdOf 0x0101 [], 1, by decide +kernel⟩

theorem meets_trialTimeout :
    ∃ s : State, ∃ dtSec : Nat, ∃ x : Trial, s.nv.trial = some x ∧ s.phase ≠ phPower ∧ s.stm.act.stage = .idle ∧ s.fld STM_TRIAL_TRIALSEC ≤
      s.stm.trialPassed + dtSec :=
  ⟨onTrial (cmdOf 0x0101 [(32, [2])]), 70000, ⟨1, 0⟩, by decide +kernel⟩

theorem meets_tenantCreate :
    ∃ s : State, ∃ r : Nat, ∃ seq : Nat, ∃ c : Cmd, ∃ failedClears : List Nat, ∃ sl : Nat, ∃ b : Bytes, ∃ e : SliceEntry, ∃ u : State, s.running r
      seq 0x0102 = some c ∧ bitOf (c.par 33 1) 2 = false ∧ c.step = 0 ∧ sl = c.par 32 1 ∧ b = s.payload c ∧ s.tenantStatus c false b = none ∧ e =
      s.tenantEntry c false b ∧ u =
      { (s.fixPages 0).setCmd { c with step := 1, since := s.clock.mono } with stm := { s.stm with changing := mapSet s.stm.changing sl e } } ∧
      u.unitsBusy e.comp Composition.none = false ∧ (u.drainUnits (compMinus e.comp Composition.none)).2 = true ∧ (compMinus e.comp
      Composition.none).any failedClears.contains = false :=
  ⟨creating, 3, 1, cmdOf 0x0102 [(12, leBytes 4 320), (32, [2]), (34, leBytes 2 2), (36, leBytes 2 10)], [], 2, newTenant, creating.tenantEntry createCmd false newTenant, creatingOn, by decide +kernel, by decide +kernel, by decide +kernel, by decide +kernel, by decide +kernel, by decide +kernel, rfl, rfl, by decide +kernel, by decide +kernel, by decide +kernel⟩

theorem meets_tenantAmend :
    ∃ s : State, ∃ r : Nat, ∃ seq : Nat, ∃ c : Cmd, ∃ failedClears : List Nat, ∃ sl : Nat, ∃ b : Bytes, ∃ o : SliceEntry, ∃ e : SliceEntry, ∃ u :
      State, s.running r seq 0x0102 = some c ∧ bitOf (c.par 33 1) 2 = true ∧ c.step = 0 ∧ sl = c.par 32 1 ∧ b = s.payload c ∧ mapGet s.nv.slices sl
      = some o ∧ s.tenantStatus c true b = none ∧ e = s.tenantEntry c true b ∧ u =
      { ((s.fixPages 0).fixPages sl).setCmd { c with step := 1, since := s.clock.mono } with stm := { s.stm with changing := mapSet s.stm.changing sl e } }
      ∧ u.unitsBusy e.comp o.comp = false ∧ (u.drainUnits (compMinus e.comp o.comp)).2 = true ∧ ((u.drainUnits (compMinus e.comp
      o.comp)).1.drainRemoved sl e (compMinus o.comp e.comp)).2 = true ∧ (compMinus e.comp o.comp).any failedClears.contains = false :=
  ⟨amending, 3, 1, cmdOf 0x0102 [(12, leBytes 4 320), (32, [1, 4]), (34, leBytes 2 2), (36, leBytes 2 10)], [], 1, newTenant, amendedFrom, amending.tenantEntry amendCmd true newTenant, amendingOn, by decide +kernel, by decide +kernel, by decide +kernel, by decide +kernel, by decide +kernel, by decide +kernel, by decide +kernel, rfl, rfl, by decide +kernel, by decide +kernel, by decide +kernel, by decide +kernel⟩

theorem meets_tenantDestroy :
    ∃ s : State, ∃ r : Nat, ∃ seq : Nat, ∃ c : Cmd, ∃ sl : Nat, s.running r seq 0x0103 = some c ∧ c.ring = r ∧ c.seq = seq ∧ c.step = 0 ∧ sl = c.par
      32 1 ∧ sl ≠ 0 ∧ sl ≤ 63 ∧ c.unusedZero [(32, 1)] = true ∧ c.paylen = 0 ∧ s.sliceInService sl = true ∧ mapGet s.stm.changing sl = none ∧
      s.criticalGoes sl (cmdKey r seq) = false :=
  ⟨tenant.setCmd (cmdOf 0x0103 [(32, [1])]), 3, 1, cmdOf 0x0103 [(32, [1])], 1, by decide +kernel⟩

theorem meets_destroyResume :
    ∃ s : State, ∃ slice : Nat, ∃ e : SliceEntry, s.phase = phReady ∧ mapGet s.nv.slices slice = some e ∧ e.st = .destroying ∧ ((s.cmds.any fun e =>
      e.2.opcode == 0x0103 && e.2.stage == .running && e.2.par 32 1 == slice) = false) :=
  ⟨tenant.markDestroying 1, 1, { Sys2Proof.Tests.tenantEntry with st := .destroying }, by decide +kernel⟩

theorem meets_unitClear_begins :
    ∃ s : State, ∃ unit : Nat, s.phase = phReady ∧ s.clearable unit = true ∧ s.unitClearing unit = false :=
  ⟨tenant, unitId 1 3, by decide +kernel⟩

theorem meets_unitClear :
    ∃ s : State, ∃ unit : Nat, s.phase = phReady ∧ s.clearable unit = true :=
  ⟨tenant, unitId 1 3, by decide +kernel⟩

theorem meets_unitClear_fails :
    ∃ s : State, ∃ unit : Nat, s.phase = phReady ∧ s.clearable unit = true :=
  ⟨tenant, unitId 1 3, by decide +kernel⟩

theorem meets_keyRotate :
    ∃ s : State, ∃ r : Nat, ∃ seq : Nat, ∃ c : Cmd, s.keyCmd r seq 0 = some c ∧ c.par 32 1 = 0 ∧ c.unusedZero [(32, 1)] = true ∧ c.paylen = 32 :=
  ⟨ringOn.setCmd (cmdOf 0x0104 [(12, leBytes 4 32)]), 3, 1, cmdOf 0x0104 [(12, leBytes 4 32)], by decide +kernel⟩

theorem meets_sliceKey :
    ∃ s : State, ∃ r : Nat, ∃ seq : Nat, ∃ c : Cmd, ∃ sl : Nat, ∃ e : SliceEntry, s.keyCmd r seq 1 = some c ∧ c.par 32 1 = 1 ∧ sl = c.par 33 1 ∧
      c.unusedZero [(32, 2)] = true ∧ sl ≠ 0 ∧ sl ≤ 63 ∧ mapGet s.nv.slices sl = some e ∧ e.st = .inService ∧ ((c.paylen = 0 ∨ falconKeyOk
      (s.payload c) = true)) :=
  ⟨tenant.setCmd (cmdOf 0x0104 [(32, [1, 1])]), 3, 1, cmdOf 0x0104 [(32, [1, 1])], 1, Sys2Proof.Tests.tenantEntry, by decide +kernel⟩

theorem meets_nsErase :
    ∃ s : State, ∃ r : Nat, ∃ seq : Nat, ∃ c : Cmd, ∃ sl : Nat, ∃ j : Nat, ∃ n : Nat, ∃ x : Namespace, s.keyCmd r seq 2 = some c ∧ c.par 32 1 = 2 ∧
      sl = c.par 33 1 ∧ j = c.par 34 1 ∧ j < s.depots.length ∧ c.unusedZero [(32, 3)] = true ∧ c.paylen = 0 ∧ s.sliceNs sl j = some n ∧ mapGet
      (s.depot j).namespaces n = some x ∧ s.sliceOpen sl = false :=
  ⟨tenant.setCmd (cmdOf 0x0104 [(32, [2, 1, 0])]), 3, 1, cmdOf 0x0104 [(32, [2, 1, 0])], 1, 0, 1, ⟨1048576, [(0, 0)], 1, []⟩, by decide +kernel⟩

theorem meets_fence :
    ∃ s : State, ∃ r : Nat, ∃ seq : Nat, ∃ c : Cmd, s.running r seq 0x0105 = some c ∧ c.unusedZero [(32, 8)] = true ∧ c.par 36 4 = s.node ∧ s.fenced
      = false :=
  ⟨tenant.setCmd (cmdOf 0x0105 [(32, leBytes 4 7), (36, leBytes 4 0)]), 3, 1, cmdOf 0x0105 [(32, leBytes 4 7), (36, leBytes 4 0)], by decide +kernel⟩

theorem meets_scrubClearSuspect :
    ∃ s : State, ∃ r : Nat, ∃ seq : Nat, ∃ c : Cmd, ∃ j : Nat, ∃ l : Nat, s.scrubCmd r seq 0 = some c ∧ c.par 32 1 = 0 ∧ c.unusedZero [(32, 3)] =
      true ∧ j = c.par 33 1 ∧ l = c.par 34 1 ∧ j < s.jdCount ∧ l ≤ 1 ∧ s.depots.length = 4 ∧ (s.depot j).lanes.length = 2 ∧ ((s.depot j).lane l).st
      = .suspect :=
  ⟨{ tenant.setCmd (cmdOf 0x0106 [(33, [0]), (34, [1])]) with depots := tenant.depots.set 0 suspectDepot }, 3, 1, cmdOf 0x0106 [(33, [0]), (34, [1])], 0, 1, by decide +kernel⟩

theorem meets_scrubPatrol :
    ∃ s : State, ∃ r : Nat, ∃ seq : Nat, ∃ c : Cmd, s.scrubCmd r seq 1 = some c ∧ c.par 32 1 = 1 ∧ c.unusedZero [(32, 1)] = true :=
  ⟨ringOn.setCmd (cmdOf 0x0106 [(32, [1])]), 3, 1, cmdOf 0x0106 [(32, [1])], by decide +kernel⟩

theorem meets_epochSet :
    ∃ s : State, ∃ r : Nat, ∃ seq : Nat, ∃ c : Cmd, ∃ body : Bytes, ∃ e : Nat, ∃ p : List Nat × List (Nat × Bool × Nat × List Nat), ∃ trees : KMap
      (List Nat), s.running r seq 0x0107 = some c ∧ body = s.payload c ∧ c.unusedZero [] = true ∧ epochPart body = some p ∧ leAt body 6 2 = 1 ∧ e =
      leAt body 0 4 ∧ s.epoch < e ∧ treesAfter s.fab.trees p.2 = some trees ∧ p.1.length ≤ 256 :=
  ⟨epochs (cmdOf 0x0107 [(12, leBytes 4 20)]), 3, 1, cmdOf 0x0107 [(12, leBytes 4 20)], epochBody, 5, ([0], []), [], by decide +kernel, by decide +kernel, by decide +kernel, rfl, by decide +kernel, by decide +kernel, by decide +kernel, by decide +kernel, by decide +kernel⟩

theorem meets_ttCommit :
    ∃ s : State, ∃ r : Nat, ∃ seq : Nat, ∃ c : Cmd, ∃ dt : Nat, ∃ l : Nat, ∃ n : Nat, ∃ base : Nat, ∃ u : State, s.running r seq 0x0108 = some c ∧ u
      = s.tick dt ∧ l = c.par 32 1 ∧ n = c.par 34 2 ∧ base = c.par 40 8 ∧ c.unusedZero [(32, 1), (34, 2), (40, 8)] = true ∧ u.ttCheck l n base =
      none :=
  ⟨timetabled (cmdOf 0x0108 [(32, [8]), (34, leBytes 2 2)]), 3, 1, cmdOf 0x0108 [(32, [8]), (34, leBytes 2 2)], 100, 8, 2, 0, (timetabled (cmdOf 0x0108 [(32, [8]), (34, leBytes 2 2)])).tick 100, by decide +kernel⟩

theorem meets_debugCtl :
    ∃ s : State, ∃ r : Nat, ∃ seq : Nat, ∃ c : Cmd, s.running r seq 0x0109 = some c ∧ c.par 32 1 ≤ 1 ∧ c.par 33 1 ≤ 1 ∧ c.par 34 1 ≤ 1 ∧
      c.unusedZero [(32, 3)] = true ∧ c.paylen = 8 :=
  ⟨ringOn.setCmd (cmdOf 0x0109 [(12, leBytes 4 8), (32, [1, 0, 1])]), 3, 1, cmdOf 0x0109 [(12, leBytes 4 8), (32, [1, 0, 1])], by decide +kernel⟩

theorem meets_timetableSwitch :
    ∃ s : State, ∃ list : Nat, ∃ dt : Nat, ∃ w : Nat, ∃ o : TimeList, ∃ u : State, u = (s.tick dt).settleAll ∧ (u.timetable list).pend = some (o, w)
      ∧ w ≤ u.clock.station :=
  ⟨timed, 5, 1000000, 5000500000, ⟨0, [(600, 1), (400, 3)]⟩, (timed.tick 1000000).settleAll, by decide +kernel⟩

theorem meets_timetableEntryBegin :
    ∃ s : State, ∃ list : Nat, ∃ dt : Nat, ∃ o : TimeList, ∃ u : State, u = (s.tick dt).settleAll ∧ (u.timetable list).oper = some o ∧ ((u.timetable
      list).hold.elim true (fun h => decide (h ≤ u.clock.station)) = true) :=
  ⟨timed, 6, 700, ⟨0, [(600, 2), (400, 0xFFFF)]⟩, (timed.tick 700).settleAll, by decide +kernel⟩

theorem meets_egressEnqueue :
    ∃ s : State, ∃ port : Nat, ∃ cls : Nat, ∃ packet : Bytes, ∃ dt : Nat, ∃ st : Nat, ∃ u : State, s.portUp port = true ∧ u = (s.tick dt).settle
      port ∧ pktTc packet = cls ∧ cls < 16 ∧ pktOk packet = true ∧ ((isRequest packet = false ∨ (u.readyReq packet).any (fun e => e.2.frame.isSome
      && u.req e.1 == some e.2) = true ∧ u.classClosed cls = false)) ∧ (st = ((s.port port).queue cls).getLast?.elim (s.port port).vtime fun q =>
      q.finish) :=
  ⟨asking, 5, 1, askPkt.bytes, 10, 0, (asking.tick 10).settle 5, by decide +kernel⟩

theorem meets_egressBegin :
    ∃ s : State, ∃ port : Nat, ∃ dt : Nat, ∃ c : Nat, ∃ q : QPacket, ∃ l : List QPacket, ∃ u : State, s.portUp port = true ∧ u = (s.tick dt).settle
      port ∧ u.nextClass port = some c ∧ (u.port port).queue c = q :: l :=
  ⟨queued, 5, 10, 1, ⟨askPkt.bytes, 0, 0⟩, [], (queued.tick 10).settle 5, by decide +kernel⟩

theorem meets_flitReceive :
    ∃ s : State, ∃ port : Nat, ∃ flit : Bytes, ∃ x : Port, s.portUp port = true ∧ x = s.port port ∧ flit.length = 256 ∧ leAt flit 252 4 = (crc32c
      (bytesAt flit 0 252)).toNat ∧ leAt flit 0 1 = 1 ∧ leAt flit 1 2 % 4096 = (x.rxSeq + 1) % 4096 :=
  ⟨portsUp, 5, goodFlit, portsUp.port 5, by decide +kernel, rfl, goodFlit_crc.1, goodFlit_crc.2, by decide +kernel, by decide +kernel⟩

theorem meets_flitReceive_crc :
    ∃ s : State, ∃ port : Nat, ∃ flit : Bytes, s.portUp port = true ∧ flit.length = 256 ∧ leAt flit 252 4 ≠ (crc32c (bytesAt flit 0 252)).toNat :=
  ⟨portsUp, 5, badFlit, by decide +kernel, badFlit_crc.1, badFlit_crc.2⟩

theorem meets_nak :
    ∃ s : State, ∃ port : Nat, ∃ seq : Nat, s.portUp port = true ∧ seq < 4096 :=
  ⟨portsUp, 5, 4095, by decide +kernel⟩

theorem meets_inboundRead :
    ∃ s : State, ∃ port : Nat, ∃ packet : Bytes, ∃ dt : Nat, ∃ p : Pkt, ∃ id : Nat, ∃ off : Nat, port < s.jugPorts ∧ pktOp packet = opREAD ∧ pktOk
      packet = true ∧ (((s.tick dt).takeSlots port packet).policed port (pktTc packet) (32 + leAt packet 26 2)).1 = true ∧ s.fenced = false ∧ p =
      Pkt.ofBytes packet ∧ p.epoch = s.epoch ∧ 0 < s.epoch ∧ p.job ≠ 0 ∧ p.job ≠ 0xFFFF ∧ s.inboundPlace p = some (id, off) ∧ s.readStatus id off
      p.len = none :=
  ⟨onFabric, 5, (Pkt.mk opREAD 1 false false 0 7 3 1 5 64 0 0 8 0 []).bytes, 10, Pkt.mk opREAD 1 false false 0 7 3 1 5 64 0 0 8 0 [], 50, 64, by decide +kernel⟩

theorem meets_inboundRead_refused :
    ∃ s : State, ∃ port : Nat, ∃ packet : Bytes, ∃ dt : Nat, ∃ p : Pkt, port < s.jugPorts ∧ pktOp packet = opREAD ∧ pktOk packet = true ∧ (((s.tick
      dt).takeSlots port packet).policed port (pktTc packet) (32 + leAt packet 26 2)).1 = true ∧ s.fenced = false ∧ p = Pkt.ofBytes packet ∧ p.epoch
      = s.epoch ∧ 0 < s.epoch ∧ ((p.job = 0 ∨ p.job = 0xFFFF ∨ s.inboundPlace p = none)) :=
  ⟨onFabric, 5, (Pkt.mk opREAD 1 false false 0 7 3 1 5 (2 ^ 21) 0 0 8 0 []).bytes, 10, Pkt.mk opREAD 1 false false 0 7 3 1 5 (2 ^ 21) 0 0 8 0 [], by decide +kernel⟩

theorem meets_inboundWrite :
    ∃ s : State, ∃ port : Nat, ∃ packet : Bytes, ∃ dt : Nat, ∃ p : Pkt, ∃ id : Nat, ∃ off : Nat, ∃ a : Alloc, port < s.jugPorts ∧ pktOp packet =
      opWRITE ∧ pktOk packet = true ∧ (((s.tick dt).takeSlots port packet).policed port (pktTc packet) (32 + leAt packet 26 2)).1 = true ∧ s.fenced
      = false ∧ p = Pkt.ofBytes packet ∧ p.epoch = s.epoch ∧ 0 < s.epoch ∧ p.job ≠ 0 ∧ p.job ≠ 0xFFFF ∧ s.inboundPlace p = some (id, off) ∧
      s.partPoison id off p.len = false ∧ s.alloc id = some a ∧ a.flags.persist = false :=
  ⟨onFabric, 5, (Pkt.mk opWRITE 1 false false 0 7 3 1 5 64 0 0 8 0 ([8, 7, 6, 5, 4, 3, 2, 1])).bytes, 10, Pkt.mk opWRITE 1 false false 0 7 3 1 5 64 0 0 8 0 ([8, 7, 6, 5, 4, 3, 2, 1]), 50, 64, aPage, by decide +kernel⟩

theorem meets_inboundWrite_refused :
    ∃ s : State, ∃ port : Nat, ∃ packet : Bytes, ∃ dt : Nat, ∃ p : Pkt, port < s.jugPorts ∧ pktOp packet = opWRITE ∧ pktOk packet = true ∧ (((s.tick
      dt).takeSlots port packet).policed port (pktTc packet) (32 + leAt packet 26 2)).1 = true ∧ s.fenced = false ∧ p = Pkt.ofBytes packet ∧ p.epoch
      = s.epoch ∧ 0 < s.epoch ∧ ((p.job = 0 ∨ p.job = 0xFFFF ∨ s.inboundPlace p = none)) :=
  ⟨onFabric, 5, (Pkt.mk opWRITE 1 false false 0 7 3 2 5 64 0 0 8 0 ([8, 7, 6, 5, 4, 3, 2, 1])).bytes, 10, Pkt.mk opWRITE 1 false false 0 7 3 2 5 64 0 0 8 0 ([8, 7, 6, 5, 4, 3, 2, 1]), by decide +kernel⟩

theorem meets_inboundAtomic :
    ∃ s : State, ∃ port : Nat, ∃ packet : Bytes, ∃ dt : Nat, ∃ p : Pkt, ∃ id : Nat, ∃ off : Nat, ∃ old : Nat, ∃ v : Nat, ∃ a : Alloc, port <
      s.jugPorts ∧ pktOp packet = opATOMIC ∧ pktOk packet = true ∧ (((s.tick dt).takeSlots port packet).policed port (pktTc packet) (32 + leAt
      packet 26 2)).1 = true ∧ s.fenced = false ∧ p = Pkt.ofBytes packet ∧ p.epoch = s.epoch ∧ 0 < s.epoch ∧ p.job ≠ 0 ∧ p.job ≠ 0xFFFF ∧
      s.inboundPlace p = some (id, off) ∧ (((mapGetD s.fab.replay p.src (ReplayTable.mk [] none)).entries.any fun e => e.ctx == p.ctx && e.seqn ==
      p.seqn) = false) ∧ (mapGetD s.fab.replay p.src (ReplayTable.mk [] none)).entries.length < replaySize ∧ ((mapGetD s.fab.replay p.src
      (ReplayTable.mk [] none)).lowmark.elim true (fun m => seqLater p.seqn m) = true) ∧ (s.poisonIn id off p.size).isEmpty = true ∧ s.alloc id =
      some a ∧ old = leNat (s.allocBytes id off p.size) ∧ atomicNew (p.asize % 16) (p.asize / 16 % 8) old (leAt p.payload 0 p.size) (leAt p.payload
      8 p.size) = some v :=
  ⟨onFabric, 5, (Pkt.mk opATOMIC 1 false false 0x10 7 3 1 5 64 4 0 16 0 (leBytes 8 5 ++ leBytes 8 0)).bytes, 10, Pkt.mk opATOMIC 1 false false 0x10 7 3 1 5 64 4 0 16 0 (leBytes 8 5 ++ leBytes 8 0), 50, 64, 0, 5, aPage, by decide +kernel⟩

theorem meets_inboundAtomic_replayed :
    ∃ s : State, ∃ port : Nat, ∃ packet : Bytes, ∃ dt : Nat, ∃ p : Pkt, ∃ id : Nat, ∃ off : Nat, ∃ e : ReplayEntry, port < s.jugPorts ∧ pktOp packet
      = opATOMIC ∧ pktOk packet = true ∧ (((s.tick dt).takeSlots port packet).policed port (pktTc packet) (32 + leAt packet 26 2)).1 = true ∧
      s.fenced = false ∧ p = Pkt.ofBytes packet ∧ p.epoch = s.epoch ∧ 0 < s.epoch ∧ p.job ≠ 0 ∧ p.job ≠ 0xFFFF ∧ s.inboundPlace p = some (id, off) ∧
      ((mapGetD s.fab.replay p.src (ReplayTable.mk [] none)).entries.find? (fun e => e.ctx == p.ctx && e.seqn == p.seqn) = some e) :=
  ⟨{ onFabric with fab := { onFabric.fab with replay := [(3, ⟨[⟨0, 4, 77, 0, 0⟩], none⟩)] } }, 5, (Pkt.mk opATOMIC 1 false false 0x10 7 3 1 5 64 4 0 16 0 (leBytes 8 5 ++ leBytes 8 0)).bytes, 10, Pkt.mk opATOMIC 1 false false 0x10 7 3 1 5 64 4 0 16 0 (leBytes 8 5 ++ leBytes 8 0), 50, 64, ⟨0, 4, 77, 0, 0⟩, by decide +kernel⟩

theorem meets_inboundMsg :
    ∃ s : State, ∃ port : Nat, ∃ packet : Bytes, ∃ dt : Nat, ∃ p : Pkt, ∃ j : Job, ∃ ms : List Bytes, port < s.jugPorts ∧ pktOp packet = opMSG ∧
      pktOk packet = true ∧ (((s.tick dt).takeSlots port packet).policed port (pktTc packet) (32 + leAt packet 26 2)).1 = true ∧ s.fenced = false ∧
      p = Pkt.ofBytes packet ∧ p.epoch = s.epoch ∧ 0 < s.epoch ∧ p.job ≠ 0 ∧ p.job ≠ 0xFFFF ∧ mapGet s.jobs p.job = some j ∧ j.msgs = some ms :=
  ⟨onFabric, 5, (Pkt.mk opMSG 1 false false 0 7 3 1 5 64 0 0 3 0 ([1, 2, 3])).bytes, 10, Pkt.mk opMSG 1 false false 0 7 3 1 5 64 0 0 3 0 ([1, 2, 3]), ⟨0, 1, 4, [(0, ⟨50, 0, true, true, true⟩)], some []⟩, [], by decide +kernel⟩

theorem meets_laterEpochHoldExpiry :
    ∃ s : State, ∃ hold : Nat, ∃ dt : Nat, ∃ h : HeldReq, mapGet s.fab.holds hold = some h ∧ h.time + 500000 ≤ s.clock.mono + dt :=
  ⟨{ onFabric with fab := { onFabric.fab with holds := [(61, ⟨(Pkt.mk opREAD 1 false false 0 7 3 1 6 64 0 0 8 0 []).bytes, 7000000000⟩)] } }, 61, 500000, ⟨(Pkt.mk opREAD 1 false false 0 7 3 1 6 64 0 0 8 0 []).bytes, 7000000000⟩, by decide +kernel⟩

theorem meets_readReply :
    ∃ s : State, ∃ packet : Bytes, ∃ id : Nat, ∃ r : Req, ∃ q : Pkt, ∃ run : Nat, ∃ f : Nat, ∃ x : Frame, ∃ v : Word, pktOp packet = 0x81 ∧ pktOk
      packet = true ∧ s.reqOf packet = some (id, r) ∧ q = Pkt.ofBytes packet ∧ s.req id = some r ∧ q.status ≠ stBUSY ∧ r.frame = some (run, f) ∧
      s.frame f = some x ∧ x.run = run ∧ x.wait = .reply id r.reg ∧ v = (s.replyValue r q.status q.payload).1 :=
  ⟨loading, (Pkt.mk 0x81 1 false false 0 7 3 1 5 64 0 0 8 0 ([1, 2, 3, 4, 5, 6, 7, 8])).bytes, 90, loadReq, Pkt.mk 0x81 1 false false 0 7 3 1 5 64 0 0 8 0 ([1, 2, 3, 4, 5, 6, 7, 8]), 60, 0, aFrame, 0x0807060504030201, by decide +kernel⟩

theorem meets_atomicReply :
    ∃ s : State, ∃ packet : Bytes, ∃ id : Nat, ∃ r : Req, ∃ q : Pkt, ∃ run : Nat, ∃ f : Nat, ∃ x : Frame, ∃ v : Word, pktOp packet = 0x84 ∧ pktOk
      packet = true ∧ s.reqOf packet = some (id, r) ∧ q = Pkt.ofBytes packet ∧ s.req id = some r ∧ q.status ≠ stBUSY ∧ r.frame = some (run, f) ∧
      s.frame f = some x ∧ x.run = run ∧ x.wait = .reply id r.reg ∧ v = (s.replyValue r q.status q.payload).1 :=
  ⟨atoming, (Pkt.mk 0x84 1 false false 0 7 3 1 5 64 9 0 8 0 ([1, 2, 3, 4, 5, 6, 7, 8])).bytes, 90, atomReq, Pkt.mk 0x84 1 false false 0 7 3 1 5 64 9 0 8 0 ([1, 2, 3, 4, 5, 6, 7, 8]), 60, 0, aFrame, 0x0807060504030201, by decide +kernel⟩

theorem meets_atomicReply_busy :
    ∃ s : State, ∃ packet : Bytes, ∃ id : Nat, ∃ r : Req, ∃ q : Pkt, pktOp packet = 0x84 ∧ pktOk packet = true ∧ s.reqOf packet = some (id, r) ∧ q =
      Pkt.ofBytes packet ∧ s.req id = some r ∧ q.status = stBUSY :=
  ⟨atoming, busyReply.bytes, 90, atomReq, busyReply, by decide +kernel⟩

theorem meets_writeAck :
    ∃ s : State, ∃ packet : Bytes, ∃ id : Nat, ∃ r : Req, ∃ q : Pkt, ∃ run : Nat, ∃ f : Nat, ∃ x : Frame, pktOp packet = 0x82 ∧ pktOk packet = true
      ∧ s.reqOf packet = some (id, r) ∧ q = Pkt.ofBytes packet ∧ s.req id = some r ∧ q.status ≠ stBUSY ∧ pktOp r.packet = opWRITE ∧ r.frame = some
      (run, f) ∧ s.frame f = some x ∧ x.run = run :=
  ⟨storing, (Pkt.mk 0x82 1 false false 0 7 3 1 5 64 0 0 0 0 []).bytes, 90, storeReq, Pkt.mk 0x82 1 false false 0 7 3 1 5 64 0 0 0 0 [], 60, 0, { aFrame with stores := [90] }, by decide +kernel⟩

theorem meets_msgAck :
    ∃ s : State, ∃ packet : Bytes, ∃ id : Nat, ∃ r : Req, ∃ q : Pkt, pktOp packet = 0x85 ∧ pktOk packet = true ∧ s.reqOf packet = some (id, r) ∧ q =
      Pkt.ofBytes packet ∧ s.req id = some r ∧ q.status ≠ stBUSY ∧ r.frame = none :=
  ⟨messaging, (Pkt.mk 0x85 1 false false 0 7 3 1 5 0 0 0 0 0 []).bytes, 90, msgReq, Pkt.mk 0x85 1 false false 0 7 3 1 5 0 0 0 0 0 [], by decide +kernel⟩

theorem meets_msgAck_busy :
    ∃ s : State, ∃ packet : Bytes, ∃ id : Nat, ∃ r : Req, ∃ q : Pkt, pktOp packet = 0x85 ∧ pktOk packet = true ∧ s.reqOf packet = some (id, r) ∧ q =
      Pkt.ofBytes packet ∧ s.req id = some r ∧ q.status = stBUSY :=
  ⟨messaging, busyMsg.bytes, 90, msgReq, busyMsg, by decide +kernel⟩

theorem meets_msgResend :
    ∃ s : State, ∃ req : Nat, ∃ dt : Nat, ∃ b : Nat, ∃ r : Req, ∃ p : Pkt, s.req req = some r ∧ pktOp r.packet = opMSG ∧ r.busyAt = some b ∧ b +
      100000 ≤ s.clock.mono + dt ∧ p = { Pkt.ofBytes r.packet with retry := true, epoch := s.epoch } ∧ (Pkt.ofBytes p.bytes).dst ≠ s.node :=
  ⟨{ messaging with fab := { messaging.fab with reqs := [(90, { msgReq with busyAt := some 7000000000 })] } }, 90, 100000, 7000000000, { msgReq with busyAt := some 7000000000 }, { Pkt.ofBytes msgReq.packet with retry := true, epoch := 5 }, by decide +kernel⟩

theorem meets_atomicRetryTimeout :
    ∃ s : State, ∃ req : Nat, ∃ dt : Nat, ∃ r : Req, ∃ p : Pkt, s.req req = some r ∧ r.frame.isSome = true ∧ ((pktOp r.packet = opREAD ∨ pktOp
      r.packet = opATOMIC)) ∧ r.stage = .sent ∧ r.busyAt = none ∧ r.retries < s.fld JUG_RETRY_RETRIES ∧ r.sentAt + s.fld JUG_RETRY_ATIMEOUT * 10 ^ 6
      ≤ s.clock.mono + dt ∧ p = { Pkt.ofBytes r.packet with retry := true, epoch := s.epoch } ∧ (Pkt.ofBytes p.bytes).dst ≠ s.node :=
  ⟨atoming, 90, 1000000000, atomReq, { Pkt.ofBytes atomReq.packet with retry := true, epoch := 5 }, by decide +kernel⟩

theorem meets_requestUnreachable :
    ∃ s : State, ∃ req : Nat, ∃ dt : Nat, ∃ run : Nat, ∃ f : Nat, ∃ r : Req, ∃ x : Frame, s.req req = some r ∧ ((pktOp r.packet = opREAD ∨ pktOp
      r.packet = opATOMIC)) ∧ s.fld JUG_RETRY_RETRIES ≤ r.retries ∧ r.stage = .sent ∧ r.busyAt = none ∧ r.sentAt + 5000000 ≤ s.clock.mono + dt ∧
      r.frame = some (run, f) ∧ s.frame f = some x ∧ x.run = run ∧ x.wait = .reply req r.reg :=
  ⟨{ loading with fab := { loading.fab with reqs := [(90, { loadReq with retries := 255 })] } }, 90, 5000000, 60, 0, { loadReq with retries := 255 }, aFrame, by decide +kernel⟩

theorem meets_requestUnreachable_engine :
    ∃ s : State, ∃ req : Nat, ∃ dt : Nat, ∃ r : Req, s.req req = some r ∧ r.frame = none ∧ pktOp r.packet ≠ opWRITE ∧ r.stage = .sent ∧ r.busyAt =
      none ∧ r.sentAt + 5000000 ≤ s.clock.mono + dt ∧ r.firstAt + 5000000 ≤ s.clock.mono + dt :=
  ⟨messaging, 90, 5000000, msgReq, by decide +kernel⟩

theorem meets_writeAckTimeout :
    ∃ s : State, ∃ req : Nat, ∃ dt : Nat, ∃ run : Nat, ∃ f : Nat, ∃ r : Req, ∃ x : Frame, s.req req = some r ∧ pktOp r.packet = opWRITE ∧ r.stage =
      .sent ∧ r.sentAt + 5000000 ≤ s.clock.mono + dt ∧ r.frame = some (run, f) ∧ s.frame f = some x ∧ x.run = run :=
  ⟨storing, 90, 5000000, 60, 0, storeReq, { aFrame with stores := [90] }, by decide +kernel⟩

theorem meets_lease :
    ∃ s : State, ∃ packet : Bytes, ∃ dt : Nat, ∃ u : State, pktOp packet = opLEASE ∧ pktOk packet = true ∧ leAt packet 26 2 = 32 ∧ leAt packet 44 4
      = 0 ∧ (s.tick dt).criticalPacket packet = (none, u) ∧ leAt packet 40 4 = u.epoch ∧ u.fld JUG_EPOCH_STATE = 1 :=
  ⟨keyed, tagged opLEASE 7 leaseBody, 10, leased, by decide +kernel, by decide +kernel, by decide +kernel, by decide +kernel, criticalPacket_tagged _ _ _ _ rfl (by decide +kernel) (by decide +kernel) (by decide +kernel) (by decide +kernel) (by decide +kernel), by decide +kernel, by decide +kernel⟩

theorem meets_leaseExpiry :
    ∃ s : State, ∃ dt : Nat, ∃ t0 : Nat, s.fld JUG_EPOCH_STATE = 1 ∧ s.fab.leaseAt = some t0 ∧ t0 + 2 * 10 ^ 9 ≤ s.clock.mono + dt :=
  ⟨{ onFabric with fab := { onFabric.fab with leaseAt := some 7000000000 } }, 2000000000, 7000000000, by decide +kernel⟩

theorem meets_fencePacket :
    ∃ s : State, ∃ packet : Bytes, ∃ u : State, pktOp packet = opFENCE ∧ pktOk packet = true ∧ leAt packet 26 2 = 32 ∧ leAt packet 44 4 = s.node ∧
      s.node < 2 ^ 17 ∧ s.criticalPacket packet = (none, u) ∧ u.fenced = false :=
  ⟨keyed, tagged opFENCE 7 (fenceBody 7), fenceSeen 7, by decide +kernel, by decide +kernel, by decide +kernel, by decide +kernel, by decide +kernel, criticalPacket_tagged _ _ _ _ rfl (by decide +kernel) (by decide +kernel) (by decide +kernel) (by decide +kernel) (by decide +kernel), by decide +kernel⟩

theorem meets_fencePacket_other :
    ∃ s : State, ∃ packet : Bytes, ∃ u : State, pktOp packet = opFENCE ∧ pktOk packet = true ∧ leAt packet 26 2 = 32 ∧ leAt packet 44 4 < 2 ^ 17 ∧
      leAt packet 44 4 ≠ s.node ∧ s.criticalPacket packet = (none, u) :=
  ⟨keyed, tagged opFENCE 7 (fenceBody 8), fenceSeen 8, by decide +kernel, by decide +kernel, by decide +kernel, by decide +kernel, by decide +kernel, criticalPacket_tagged _ _ _ _ rfl (by decide +kernel) (by decide +kernel) (by decide +kernel) (by decide +kernel) (by decide +kernel)⟩

theorem meets_epochSetPart :
    ∃ s : State, ∃ packet : Bytes, ∃ body : Bytes, ∃ u : State, ∃ e : Nat, pktOp packet = opEPOCHSET ∧ pktOk packet = true ∧ 40 ≤ leAt packet 26 2 ∧
      body = (packet.drop 40).take (leAt packet 26 2 - 24) ∧ (epochPart body).isSome = true ∧ s.criticalPacket packet = (none, u) ∧ u.fenced = false
      ∧ e = leAt body 0 4 ∧ u.epoch < e ∧ (mapSet (mapGetD u.fab.parts e (EpochParts.mk (leAt body 6 2) [])).parts (leAt body 4 2) body).length <
      (mapGetD u.fab.parts e (EpochParts.mk (leAt body 6 2) [])).nparts :=
  ⟨keyed, tagged opEPOCHSET 7 (ctrPart 2), partBody 2, partSeen, 6, by decide +kernel, by decide +kernel, by decide +kernel, by decide +kernel, by decide +kernel, criticalPacket_tagged _ _ _ _ rfl (by decide +kernel) (by decide +kernel) (by decide +kernel) (by decide +kernel) (by decide +kernel), by decide +kernel, by decide +kernel, by decide +kernel, by decide +kernel⟩

theorem meets_quiesce :
    ∃ s : State, s.fenced = true ∧ s.fab.quiesced < 4 :=
  ⟨fencedState, by decide +kernel⟩

theorem meets_quiesceDepotFlush :
    ∃ s : State, s.fab.quiesced = 4 :=
  ⟨{ fencedState with fab := { fencedState.fab with quiesced := 4 } }, by decide +kernel⟩

theorem meets_barArrive :
    ∃ s : State, ∃ packet : Bytes, ∃ p : Pkt, ∃ n : Nat, ∃ i : Nat, ∃ j : Nat, ∃ b : BarState, ∃ tree : List Nat, ∃ group : List Nat, pktOp packet =
      opBARARRIVE ∧ s.barOk opBARARRIVE 4 packet = true ∧ p = Pkt.ofBytes packet ∧ n = leAt packet 32 4 ∧ tree = mapGetD s.fab.trees p.job [] ∧
      treeIndex tree s.node = some i ∧ treeIndex tree p.src = some j ∧ i % 64 = 0 ∧ j / 64 = i / 64 ∧ b = s.bar p.job ∧ b.expects n = true ∧
      b.arrived.contains p.src = false ∧ group = treeGroup tree i ∧ b.arrived.length + 1 < group.length :=
  ⟨leader, arrive.bytes, arrive, 1, 0, 1, ⟨0, [], []⟩, [7, 3, 4], [7, 3, 4], by decide +kernel⟩

theorem meets_barArrive_last :
    ∃ s : State, ∃ packet : Bytes, ∃ p : Pkt, ∃ n : Nat, ∃ i : Nat, ∃ j : Nat, ∃ b : BarState, ∃ tree : List Nat, ∃ group : List Nat, pktOp packet =
      opBARARRIVE ∧ s.barOk opBARARRIVE 4 packet = true ∧ p = Pkt.ofBytes packet ∧ n = leAt packet 32 4 ∧ tree = mapGetD s.fab.trees p.job [] ∧
      treeIndex tree s.node = some i ∧ treeIndex tree p.src = some j ∧ i % 64 = 0 ∧ 0 < i ∧ j / 64 = i / 64 ∧ b = s.bar p.job ∧ b.expects n = true ∧
      b.arrived.contains p.src = false ∧ group = treeGroup tree i ∧ b.arrived.length + 1 = group.length ∧ tree.getD 0 0 ≠ s.node :=
  ⟨secondLeader, arrive.bytes, arrive, 1, 64, 65, ⟨1, [7], []⟩, bigTree, [7, 3], by decide +kernel⟩

theorem meets_barRelease :
    ∃ s : State, ∃ packet : Bytes, ∃ p : Pkt, ∃ n : Nat, ∃ i : Nat, ∃ ids : List Nat, pktOp packet = opBARRELEASE ∧ s.barOk opBARRELEASE 8 packet =
      true ∧ p = Pkt.ofBytes packet ∧ n = leAt packet 32 4 ∧ treeIndex (mapGetD s.fab.trees p.job []) s.node = some i ∧ i % 64 ≠ 0 ∧ ids = s.runsAt
      p.job n ∧ ids ≠ [] :=
  ⟨waiting, release.bytes, release, 1, 1, [60], by decide +kernel⟩

theorem meets_barBreak :
    ∃ s : State, ∃ packet : Bytes, ∃ job : Nat, pktOp packet = opBARBREAK ∧ pktOk packet = true ∧ leAt packet 26 2 = 4 ∧ job = (Pkt.ofBytes
      packet).job ∧ ((s.runs.any fun e => e.2.job == job) = false) ∧ (s.bar job).arrived = [] ∧ (s.bar job).groups = [] :=
  ⟨leader, breakPkt.bytes, 2, by decide +kernel⟩

theorem meets_barBreak_halts :
    ∃ s : State, ∃ packet : Bytes, ∃ job : Nat, ∃ id : Nat, ∃ f : Nat, ∃ r : Run, ∃ x : Frame, pktOp packet = opBARBREAK ∧ pktOk packet = true ∧
      leAt packet 26 2 = 4 ∧ job = (Pkt.ofBytes packet).job ∧ (s.bar job).arrived = [] ∧ (s.bar job).groups = [] ∧ s.runs = [(id, r)] ∧ r.job = job
      ∧ r.phys = [f] ∧ s.frame f = some x ∧ x.run = id ∧ x.wait = .barrier 1 (x.bars1) :=
  ⟨waiting, breakPkt1.bytes, 1, 60, 0, { aRun with phys := [0], job := 1, barSent := 1 }, atBar, by decide +kernel⟩

theorem meets_rsReconstruct :
    ∃ s : State, ∃ jd : Nat, ∃ stripe : Nat, ∃ role : Nat, ∃ n : Nat, ∃ units : List (Option Bytes), ∃ good : List (Nat × Bytes), ∃ b : Bytes,
      s.rsEngine jd = true ∧ 8 ≤ units.length ∧ units.length ≤ 64 ∧ role < units.length ∧ (good = ((List.range units.length).filterMap fun m =>
      (units.getD m none).map fun y => ((m + units.length - stripe % units.length) % units.length, y)).filter fun y => rsGood y.2) ∧ ((rsGens
      good).find? (fun g => decide (units.length - 2 ≤ good.countP fun y => rsGen y.2 == g)) = some n) ∧ (rsRole (units.length - 2) (fun i =>
      (good.find? fun y => y.1 == i && rsGen y.2 == n).map fun y => y.2.take rsUnit) role = some b) :=
  ⟨ready, 0, 0, 0, 3, goodUnits, goodList, List.replicate rsUnit 0, by decide +kernel, by decide +kernel, by decide +kernel, by decide +kernel, goodList_eq, goodList_gen, goodList_role⟩

theorem meets_rsEncode :
    ∃ s : State, ∃ jd : Nat, ∃ data : List Bytes, ∃ acked : List Bool, ∃ k : Nat, s.rsEngine jd = true ∧ k = data.length ∧ 6 ≤ k ∧ k ≤ 62 ∧
      ((List.range (k + 2)).all (fun i => acked.getD i false) = true) :=
  ⟨ready, 0, [[], [], [], [], [], []], List.replicate 8 true, 6, by decide +kernel⟩

theorem meets_rsReconstruct_short :
    ∃ s : State, ∃ jd : Nat, ∃ role : Nat, ∃ units : List (Option Bytes), s.rsEngine jd = true ∧ 8 ≤ units.length ∧ units.length ≤ 64 ∧ role <
      units.length ∧ ((units.any fun u => u.isSome) = false) :=
  ⟨ready, 0, 3, List.replicate 8 none, by decide +kernel⟩

theorem meets_spareAssign :
    ∃ s : State, ∃ members : Nat, ∃ member : Nat, 8 ≤ members ∧ members ≤ 64 ∧ member < members :=
  ⟨ready, 64, 63, by decide +kernel⟩

theorem meets_mgmtCommand :
    ∃ s : State, ∃ msg : Bytes, ∃ u : State, s.mgmtUp = true ∧ msgType msg = 1 ∧ s.receive msg = (true, u) ∧ 256 ≤ msgLen msg ∧ (u.inFlight
      mgmtRing).length < mgmtQueue :=
  ⟨mport, (mgmtMsg 1 (List.replicate 256 0)), heard (mgmtMsg 1 (List.replicate 256 0)), by decide +kernel, by decide +kernel, receive_tagged _ _ _ rfl (by decide +kernel) (by decide +kernel) (by decide +kernel), by decide +kernel, by decide +kernel⟩

theorem meets_faultAck :
    ∃ s : State, ∃ msg : Bytes, ∃ u : State, s.mgmtUp = true ∧ msgType msg = 5 ∧ s.receive msg = (true, u) ∧ msgLen msg = 4 :=
  ⟨mport, (mgmtMsg 5 (leBytes 4 12)), heard (mgmtMsg 5 (leBytes 4 12)), by decide +kernel, by decide +kernel, receive_tagged _ _ _ rfl (by decide +kernel) (by decide +kernel) (by decide +kernel), by decide +kernel⟩

theorem meets_logread :
    ∃ s : State, ∃ msg : Bytes, ∃ u : State, s.mgmtUp = true ∧ msgType msg = 6 ∧ s.receive msg = (true, u) ∧ msgLen msg = 5 ∧ 1 ≤ leAt (msgPayload
      msg) 4 1 ∧ leAt (msgPayload msg) 4 1 ≤ 8 :=
  ⟨mport, (mgmtMsg 6 (leBytes 4 1 ++ [8])), heard (mgmtMsg 6 (leBytes 4 1 ++ [8])), by decide +kernel, by decide +kernel, receive_tagged _ _ _ rfl (by decide +kernel) (by decide +kernel) (by decide +kernel), by decide +kernel, by decide +kernel, by decide +kernel⟩

theorem meets_readreg :
    ∃ s : State, ∃ msg : Bytes, ∃ u : State, ∃ off : Nat, ∃ n : Nat, s.mgmtUp = true ∧ msgType msg = 7 ∧ s.receive msg = (true, u) ∧ msgLen msg = 5
      ∧ off = leAt (msgPayload msg) 0 4 ∧ n = leAt (msgPayload msg) 4 1 ∧ 1 ≤ n ∧ n ≤ 64 ∧ off % 8 = 0 ∧ off + 8 * n ≤ 0x0100000 :=
  ⟨mport, (mgmtMsg 7 (leBytes 4 16 ++ [64])), heard (mgmtMsg 7 (leBytes 4 16 ++ [64])), 16, 64, by decide +kernel, by decide +kernel, receive_tagged _ _ _ rfl (by decide +kernel) (by decide +kernel) (by decide +kernel), by decide +kernel, by decide +kernel, by decide +kernel, by decide +kernel, by decide +kernel, by decide +kernel, by decide +kernel⟩

theorem meets_deviceResetRequest :
    ∃ s : State, ∃ msg : Bytes, ∃ u : State, s.mgmtUp = true ∧ msgType msg = 2 ∧ s.receive msg = (true, u) ∧ msgLen msg = 8 ∧ msgPayload msg =
      List.replicate 8 0 ∧ s.pins.powered = true ∧ s.pins.tripped = false ∧ s.pins.refclk100 = true ∧ Bootable s :=
  ⟨mport, (mgmtMsg 2 (List.replicate 8 0)), heard (mgmtMsg 2 (List.replicate 8 0)), by decide +kernel, by decide +kernel, receive_tagged _ _ _ rfl (by decide +kernel) (by decide +kernel) (by decide +kernel), by decide +kernel, by decide +kernel, by decide +kernel, by decide +kernel, by decide +kernel, by decide +kernel⟩

theorem meets_deviceResetRequest_partial :
    ∃ s : State, ∃ msg : Bytes, ∃ u : State, ∃ kind : Nat, ∃ target : Nat, s.mgmtUp = true ∧ msgType msg = 2 ∧ s.receive msg = (true, u) ∧ msgLen
      msg = 8 ∧ msgPayload msg = leBytes 1 kind ++ [0] ++ leBytes 2 target ++ List.replicate 4 0 ∧ 1 ≤ kind ∧ kind ≤ 4 ∧ target < 2 ^ 16 ∧
      s.resetTarget kind target = true ∧ s.phase = phReady ∧ s.resetJob kind target = none ∧ s.stm.resetJobs.length < mgmtQueue :=
  ⟨mport, (mgmtMsg 2 (leBytes 1 2 ++ [0] ++ leBytes 2 5 ++ List.replicate 4 0)), heard (mgmtMsg 2 (leBytes 1 2 ++ [0] ++ leBytes 2 5 ++ List.replicate 4 0)), 2, 5, by decide +kernel, by decide +kernel, receive_tagged _ _ _ rfl (by decide +kernel) (by decide +kernel) (by decide +kernel), by decide +kernel, by decide +kernel, by decide +kernel, by decide +kernel, by decide +kernel, by decide +kernel, by decide +kernel, by decide +kernel, by decide +kernel⟩

theorem meets_attest :
    ∃ s : State, ∃ msg : Bytes, ∃ u : State, ∃ n : Nat, s.mgmtUp = true ∧ msgType msg = 3 ∧ s.receive msg = (true, u) ∧ n = leAt (msgPayload msg) 1
      1 ∧ leAt (msgPayload msg) 0 1 = 0xFF ∧ (msgPayload msg).length = 2 + n ∧ 8 ≤ n ∧ n ≤ 64 ∧ u.criticalBusy = false :=
  ⟨mport, attestMsg, mport.setFld STM_MGMT_LINK 1, 8, by decide +kernel⟩

theorem meets_sliceReset :
    ∃ s : State, ∃ slice : Nat, ∃ j : ResetJob, s.resetJob 1 slice = some j :=
  ⟨{ resetting 1 1 with consists := [(40, aConsist)] }, 1, ⟨1, 1, false, 7, 9⟩, by decide +kernel⟩

theorem meets_frameReset :
    ∃ s : State, ∃ frame : Nat, ∃ j : ResetJob, s.resetJob 2 frame = some j ∧ s.frame frame = none :=
  ⟨resetting 2 5, 5, ⟨2, 5, false, 7, 9⟩, by decide +kernel⟩

theorem meets_portReset :
    ∃ s : State, ∃ port : Nat, ∃ j : ResetJob, port < 8 ∧ s.hasPort port = true ∧ s.resetJob 3 port = some j :=
  ⟨{ portsUp with stm := { portsUp.stm with resetJobs := [⟨3, 5, false, 7, 9⟩] } }, 5, ⟨3, 5, false, 7, 9⟩, by decide +kernel⟩

theorem meets_depotReset_busy :
    ∃ s : State, ∃ jd : Nat, ∃ j : ResetJob, s.resetJob 4 jd = some j ∧ j.format = true ∧ (s.depot jd).hasNamespaces = true :=
  ⟨{ tenant with stm := { tenant.stm with resetJobs := [⟨4, 0, true, 7, 9⟩] } }, 0, ⟨4, 0, true, 7, 9⟩, by decide +kernel⟩

theorem meets_depotReset :
    ∃ s : State, ∃ jd : Nat, ∃ j : ResetJob, s.resetJob 4 jd = some j ∧ jd < s.jdCount ∧ j.format = false :=
  ⟨{ tenant with stm := { tenant.stm with resetJobs := [⟨4, 0, false, 7, 9⟩] } }, 0, ⟨4, 0, false, 7, 9⟩, by decide +kernel⟩

theorem meets_logAppend :
    ∃ s : State, ∃ typ : Nat, s.phase ≠ phPower ∧ logAtOnce typ = true :=
  ⟨ready, 9, by decide +kernel⟩

theorem meets_logAppend_waits :
    ∃ s : State, ∃ typ : Nat, s.phase ≠ phPower ∧ 2 ≤ typ ∧ typ ≤ 11 ∧ logAtOnce typ = false :=
  ⟨ready, 7, by decide +kernel⟩

theorem meets_faultRecord :
    ∃ s : State, ∃ unit : Nat, ∃ cls : FaultClass, ∃ source : Nat, ((unit = 0 ∨ s.unitPresent unit = true)) ∧ faultSourceOk source = true ∧ cls ≠
      .corrected ∧ ((cls ≠ .transient ∨ s.logFull = false)) :=
  ⟨ready, unitId 1 5, .check, 3, by decide +kernel⟩

theorem meets_faultRecord_dropped :
    ∃ s : State, ∃ unit : Nat, ∃ cls : FaultClass, ∃ source : Nat, ((unit = 0 ∨ s.unitPresent unit = true)) ∧ faultSourceOk source = true ∧ cls =
      .transient ∧ s.logFull = true :=
  ⟨flooded, unitId 1 5, .transient, 3, by decide +kernel⟩

theorem meets_correctedSummary :
    ∃ s : State, ∃ unit : Nat, ∃ count : Nat, s.unitPresent unit = true ∧ 0 < count ∧ s.logFull = false :=
  ⟨ready, unitId 9 3, 40, by decide +kernel⟩

theorem meets_logProgram :
    ∃ s : State, ∃ e : LogPending, s.phase ≠ phPower ∧ s.stm.logPending = [e] :=
  ⟨{ ready with stm := { ready.stm with logPending := [⟨4, [9], 0⟩] } }, ⟨4, [9], 0⟩, by decide +kernel⟩

theorem meets_logOverflow :
    ∃ s : State, s.stm.logDropped ≠ 0 :=
  ⟨flooded, by decide +kernel⟩

theorem meets_faultResend :
    ∃ s : State, s.mgmtUp = true ∧ s.stm.takeoverWindow = false ∧ s.fmSet = true :=
  ⟨ready.setReg .stmFmaddr 0 0 5, by decide +kernel⟩

theorem meets_windowSave :
    ∃ s : State, s.phase ≠ phPower ∧ s.stm.takeoverWindow = false :=
  ⟨ready, by decide +kernel⟩

theorem meets_standbyMirror :
    ∃ s : State, s.fld STM_STATE_STANDBY ≠ 0 :=
  ⟨ready.setFld STM_STATE_STANDBY 1, by decide +kernel⟩

theorem meets_standbySyncDone :
    ∃ s : State, s.fld STM_STATE_STANDBY = 1 ∧ s.isUp s.standbyDie = true :=
  ⟨ready.setFld STM_STATE_STANDBY 1, by decide +kernel⟩

theorem meets_standbyHeartbeatMiss :
    ∃ s : State, ∃ missed : Nat, ∃ imageFailed : Bool, s.phase ≠ phPower ∧ s.stm.takeoverWindow = false ∧ s.activeUp = true ∧ ((10 ≤ missed ∨
      imageFailed = true)) :=
  ⟨standing, 10, false, by decide +kernel⟩

theorem meets_takeover :
    ∃ s : State, s.stm.takeoverWindow = true :=
  ⟨{ standing with stm := { standing.stm with takeoverWindow := true } }, by decide +kernel⟩

theorem meets_stationmasterWatchdogExpiry :
    ∃ s : State, ∃ which : Nat, ∃ dt : Nat, s.phase ≠ phPower ∧ which ≤ 1 ∧ s.retired (unitId 13 which) = false ∧ mapGetD s.stm.watchdogs which 0 +
      1 < 3 ∧ which ≠ s.fld STM_STATE_ACTIVE ∧ s.fld STM_STATE_STANDBY ≠ 1 ∧ ((which = 0 ∨ s.nv.dkWrap = true)) ∧ s.stm.act.stage = .idle ∧ ((s.tick
      dt).addEvent (unitId 13 which) .transient).windowCount (unitId 13 which) .transient ≤ 2 :=
  ⟨standing, 1, 5, by decide +kernel⟩

theorem meets_stationmasterWatchdogExpiry_third :
    ∃ s : State, ∃ which : Nat, s.phase ≠ phPower ∧ which ≤ 1 ∧ s.retired (unitId 13 which) = false ∧ 3 ≤ mapGetD s.stm.watchdogs which 0 + 1 :=
  ⟨{ standing with stm := { standing.stm with watchdogs := [(1, 2)] } }, 1, by decide +kernel⟩

theorem meets_transientEvent :
    ∃ s : State, ∃ unit : Nat, ∃ source : Nat, ∃ dt : Nat, ∃ v : State, s.unitPresent unit = true ∧ faultSourceOk source = true ∧ s.retired unit =
      false ∧ v = (s.tick dt).addEvent unit .transient ∧ v.windowCount unit .transient ≤ tolerated unit :=
  ⟨ready, unitId 1 5, 3, 10, (ready.tick 10).addEvent (unitId 1 5) .transient, by decide +kernel⟩

theorem meets_transientEvent_retires :
    ∃ s : State, ∃ unit : Nat, ∃ source : Nat, ∃ dt : Nat, ∃ v : State, s.unitPresent unit = true ∧ faultSourceOk source = true ∧ s.retired unit =
      false ∧ v = (s.tick dt).addEvent unit .transient ∧ tolerated unit < v.windowCount unit .transient ∧ s.frameClaimed unit = false :=
  ⟨worn, unitId 11 2, 3, 10, (worn.tick 10).addEvent (unitId 11 2) .transient, by decide +kernel⟩

theorem meets_transientEvent_pending :
    ∃ s : State, ∃ unit : Nat, ∃ source : Nat, ∃ dt : Nat, ∃ v : State, s.unitPresent unit = true ∧ faultSourceOk source = true ∧ s.retired unit =
      false ∧ v = (s.tick dt).addEvent unit .transient ∧ tolerated unit < v.windowCount unit .transient ∧ s.frameClaimed unit = true :=
  ⟨{ worn with frames := [(5, aFrame)] }, unitId 1 5, 3, 10, (({ worn with frames := [(5, aFrame)] } : State).tick 10).addEvent (unitId 1 5) .transient, by decide +kernel⟩

theorem meets_unitRetire :
    ∃ s : State, ∃ unit : Nat, ∃ source : Nat, s.unitPresent unit = true ∧ faultSourceOk source = true ∧ s.frameClaimed unit = false :=
  ⟨ready, unitId 5 9, 1, by decide +kernel⟩

theorem meets_frameQuarantine :
    ∃ s : State, ∃ frame : Nat, s.cellsBad frame = true ∧ s.frameInService frame = true :=
  ⟨badCells, 5, by decide +kernel⟩

theorem meets_pendingRetire :
    ∃ s : State, ∃ frame : Nat, ∃ source : Nat, mapGet s.stm.pendingFrames frame = some source ∧ s.frame frame = none :=
  ⟨{ ready with stm := { ready.stm with pendingFrames := [(5, 3)] } }, 5, 3, by decide +kernel⟩

theorem meets_memoryUnitDrain :
    ∃ s : State, ∃ unit : Nat, ∃ v : State, s.stm.retiring.contains unit = true ∧ ((s.pagesOn unit).foldl (fun (acc : State × Bool) e =>
      ((acc.1.drainPage e.1 e.2).1, acc.2 && (acc.1.drainPage e.1 e.2).2)) (s, true) = (v, true)) :=
  ⟨{ ready with stm := { ready.stm with retiring := [unitId 5 9] } }, unitId 5 9, { ready with stm := { ready.stm with retiring := [unitId 5 9] } }, by decide +kernel⟩

theorem meets_runRestart :
    ∃ s : State, ∃ run : Nat, ∃ r : Run, ∃ k : Consist, ∃ c : Cmd, ∃ fs : List Nat, s.run run = some r ∧ s.runConsist r = some k ∧ s.cmd r.ring
      r.seq = some c ∧ r.restartDue = true ∧ s.tooFew r.slice k = false ∧ fs = (s.releaseFrames run).claimable r.slice ∧ k.nframes ≤ fs.length :=
  ⟨restarting, 60, { aRun with quarantined := true, phys := [30] }, aConsist, cmd1 0x0031 [], List.range 16, by decide +kernel⟩

theorem meets_runRetired :
    ∃ s : State, ∃ run : Nat, ∃ r : Run, ∃ k : Consist, ∃ c : Cmd, s.run run = some r ∧ s.runConsist r = some k ∧ s.tooFew r.slice k = true ∧
      ((r.phys = [] ∨ r.restartDue = true)) ∧ s.cmd r.ring r.seq = some c ∧ c.ring = r.ring ∧ c.seq = r.seq :=
  ⟨starved, 60, aRun, { aConsist with nframes := 20 }, cmd1 0x0031 [], by decide +kernel⟩

theorem meets_nandCommandTimeout :
    ∃ s : State, ∃ jd : Nat, ∃ ch : Nat, ∃ die : Nat, ∃ n : Nat, jd < s.depots.length ∧ (s.depot jd).dieUp ch die = true ∧ (n = ((s.depot
      jd).timeouts.find? fun (e : (Nat × Nat) × Nat) => e.1 == (ch, die)).elim 0 (fun e => e.2)) ∧ n + 1 < 3 :=
  ⟨nanded [], 0, 2, 3, 0, by decide +kernel⟩

theorem meets_nandCommandTimeout_third :
    ∃ s : State, ∃ jd : Nat, ∃ ch : Nat, ∃ die : Nat, ∃ n : Nat, (s.depot jd).dieUp ch die = true ∧ (n = ((s.depot jd).timeouts.find? fun (e : (Nat
      × Nat) × Nat) => e.1 == (ch, die)).elim 0 (fun e => e.2)) ∧ 3 ≤ n + 1 :=
  ⟨nanded [((2, 3), 2)], 0, 2, 3, 2, by decide +kernel⟩

theorem meets_canaryStart :
    ∃ s : State, ∃ unit : Nat, ∃ cls : Nat, ∃ number : Nat, s.phase = phReady ∧ s.activeUp = true ∧ s.fld FLT_CFG_CANEN = 1 ∧ number < 4096 ∧
      s.canaryChoice unit cls = true :=
  ⟨ready.setFld FLT_CFG_CANEN 1, unitId 1 5, 0, 17, by decide +kernel⟩

theorem meets_canaryComplete :
    ∃ s : State, ∃ unit : Nat, ∃ digest : BitVec 128, ∃ stored : BitVec 128, ∃ c : Canary, s.canaryOn unit = some c ∧ digest = stored :=
  ⟨canarying, unitId 1 5, 9, 9, ⟨unitId 1 5, 0, 17⟩, by decide +kernel⟩

theorem meets_canaryComplete_fails :
    ∃ s : State, ∃ unit : Nat, ∃ digest : BitVec 128, ∃ stored : BitVec 128, ∃ c : Canary, s.canaryOn unit = some c ∧ digest ≠ stored :=
  ⟨canarying, unitId 1 5, 9, 8, ⟨unitId 1 5, 0, 17⟩, by decide +kernel⟩

theorem meets_canaryAbort :
    ∃ s : State, ∃ unit : Nat, unitType unit = 1 ∧ s.aboutToClaim.contains (unitIndex unit) = true :=
  ⟨claiming, unitId 1 5, by decide +kernel⟩

theorem meets_shadowCompare :
    ∃ s : State, ∃ run : Nat, ∃ origin : Nat, ∃ shadow : Nat, ∃ r : Run, s.run run = some r ∧ s.shadowOf r origin = some shadow :=
  ⟨shadowed [], 60, 3, 4, { aRun with phys := [3, 4] }, by decide +kernel⟩

theorem meets_shadowThirdCompute :
    ∃ s : State, ∃ run : Nat, ∃ origin : Nat, ∃ shadow : Nat, ∃ third : Nat, ∃ originOk : Bool, ∃ shadowOk : Bool, ∃ cls : Nat, ∃ r : Run, s.run run
      = some r ∧ r.shadows.contains (origin, shadow, cls) = true ∧ originOk = true ∧ shadowOk = false ∧ s.thirdOk r.slice origin shadow third true =
      true ∧ s.frame shadow = none :=
  ⟨shadowed [(3, 4, 1)], 60, 3, 4, 5, true, false, 1, { aRun with phys := [3, 4], shadows := [(3, 4, 1)] }, by decide +kernel⟩

theorem meets_shadowThirdCompute_wrong :
    ∃ s : State, ∃ run : Nat, ∃ origin : Nat, ∃ shadow : Nat, ∃ third : Nat, ∃ originOk : Bool, ∃ shadowOk : Bool, ∃ cls : Nat, ∃ r : Run, s.run run
      = some r ∧ r.shadows.contains (origin, shadow, cls) = true ∧ originOk = false ∧ shadowOk = true ∧ s.thirdOk r.slice origin shadow third true =
      true ∧ s.frame origin = none :=
  ⟨shadowed [(3, 4, 1)], 60, 3, 4, 5, false, true, 1, { aRun with phys := [3, 4], shadows := [(3, 4, 1)] }, by decide +kernel⟩

theorem meets_ownershipClaim :
    ∃ s : State, ∃ reqid : Nat, ∃ owner : Nat, ∃ phase : Nat, s.phase = phReady ∧ s.fenced = false ∧ reqid < 2 ^ 64 ∧ owner < 2 ^ 17 ∧ mapGet s.owns
      reqid = none ∧ s.owns.length < ownTableSize ∧ owner ≠ s.node :=
  ⟨onFabric, 12, 3, 1, by decide +kernel⟩

theorem meets_claimReceive :
    ∃ s : State, ∃ reqid : Nat, ∃ epoch : Nat, ∃ hseq : Nat, ∃ newEpoch : Nat, ∃ newHseq : Nat, ∃ r : OwnRecord, s.fenced = false ∧ mapGet s.owns
      reqid = some r ∧ r.st = .owned ∧ r.key = (epoch, hseq) ∧ keyLater (newEpoch, newHseq) r.key = true :=
  ⟨owning .owned none, 12, 4, 9, 5, 10, anOwn .owned none, by decide +kernel⟩

theorem meets_claimReceive_stale :
    ∃ s : State, ∃ reqid : Nat, ∃ epoch : Nat, ∃ hseq : Nat, ∃ r : OwnRecord, s.fenced = false ∧ mapGet s.owns reqid = some r ∧ r.st = .owned ∧
      keyLater r.key (epoch, hseq) = true :=
  ⟨owning .owned none, 12, 4, 8, anOwn .owned none, by decide +kernel⟩

theorem meets_stateReadDone :
    ∃ s : State, ∃ reqid : Nat, ∃ outcome : Nat, ∃ r : OwnRecord, s.fenced = false ∧ mapGet s.owns reqid = some r ∧ r.st = .importing ∧ outcome =
      stOK :=
  ⟨owning .importing none, 12, 0, anOwn .importing none, by decide +kernel⟩

theorem meets_stateReadDone_lost :
    ∃ s : State, ∃ reqid : Nat, ∃ outcome : Nat, ∃ r : OwnRecord, s.fenced = false ∧ mapGet s.owns reqid = some r ∧ r.st = .importing ∧ ((outcome =
      stFENCED ∨ outcome = stSTATELOST)) :=
  ⟨owning .importing none, 12, stFENCED, anOwn .importing none, by decide +kernel⟩

theorem meets_ownershipDone :
    ∃ s : State, ∃ reqid : Nat, ∃ sender : Nat, ∃ epoch : Nat, ∃ hseq : Nat, ∃ r : OwnRecord, s.fenced = false ∧ mapGet s.owns reqid = some r ∧ r.st
      = .handed ∧ r.key = (epoch, hseq) ∧ r.owner = sender :=
  ⟨owning .handed none, 12, 7, 4, 9, anOwn .handed none, by decide +kernel⟩

theorem meets_claimRepeat :
    ∃ s : State, ∃ reqid : Nat, ∃ r : OwnRecord, s.fenced = false ∧ mapGet s.owns reqid = some r ∧ r.st = .importing :=
  ⟨owning .importing none, 12, anOwn .importing none, by decide +kernel⟩

theorem meets_handedExpiry :
    ∃ s : State, ∃ reqid : Nat, ∃ dt : Nat, ∃ t0 : Nat, ∃ r : OwnRecord, mapGet s.owns reqid = some r ∧ r.st = .handed ∧ r.doneAt = some t0 ∧ t0 +
      60 * 10 ^ 9 ≤ s.clock.mono + dt :=
  ⟨owning .handed (some 7000000000), 12, 60000000000, 7000000000, anOwn .handed (some 7000000000), by decide +kernel⟩

theorem meets_sliceTelemetryUpdate :
    ∃ s : State, ∃ sl : Nat, ∃ id : Nat, ∃ e : SliceEntry, ∃ a : Alloc, s.phase = phReady ∧ s.stm.takeoverWindow = false ∧ s.nv.slices = [(sl, e)] ∧
      s.named sl telemetryName = some (id, a) ∧ mapGet s.allocs id = some a ∧ a.flash = [] :=
  ⟨telemetered, 1, 52, Sys2Proof.Tests.tenantEntry, telemetryAlloc, by decide +kernel⟩

theorem meets_jtagAccess :
    ∃ s : State, s.fld SEC_DEBUG_JTAGFULL = 0 ∧ s.recovering = false :=
  ⟨ready, by decide +kernel⟩

theorem meets_jtagAccess_halt :
    ∃ s : State, ∃ f : Nat, ∃ x : Frame, s.fld SEC_DEBUG_JTAGFULL = 1 ∧ s.frame f = some x :=
  ⟨{ ready.setFld SEC_DEBUG_JTAGFULL 1 with frames := [(5, aFrame)] }, 5, aFrame, by decide +kernel⟩

theorem meets_jtagAccess_readReg :
    ∃ s : State, ∃ off : Nat, s.fld SEC_DEBUG_JTAGFULL = 1 ∧ off % 8 = 0 :=
  ⟨ready.setFld SEC_DEBUG_JTAGFULL 1, 8, by decide +kernel⟩

theorem meets_jtagAccess_readMem :
    ∃ s : State, s.fld SEC_DEBUG_JTAGFULL = 1 :=
  ⟨onFabric.setFld SEC_DEBUG_JTAGFULL 1, by decide +kernel⟩

theorem meets_jtagAccess_writeMem :
    ∃ s : State, ∃ id : Nat, ∃ a : Alloc, s.fld SEC_DEBUG_JTAGFULL = 1 ∧ s.alloc id = some a :=
  ⟨onFabric.setFld SEC_DEBUG_JTAGFULL 1, 50, aPage, by decide +kernel⟩

theorem meets_tenantUnitWaitTimeout :
    ∃ s : State, ∃ r : Nat, ∃ seq : Nat, ∃ c : Cmd, s.running r seq 0x0102 = some c ∧ c.step = 1 ∧ c.since + 10 * 10 ^ 9 ≤ s.clock.mono :=
  ⟨waitingCreate, 3, 1, { createCmd with step := 1, since := 0 }, by decide +kernel⟩

theorem meets_recoveryService :
    ∃ s : State, ∃ msg : Bytes, ∃ total : Nat, ∃ p : Bytes, s.recovering = true ∧ leAt (bytesAt msg 0 256) 4 2 = 0x0100 ∧ leAt (bytesAt msg 0 256)
      48 1 = 0 ∧ leAt (bytesAt msg 0 256) 40 8 = 0 ∧ total = leAt (bytesAt msg 0 256) 32 4 ∧ p = msg.drop 256 ∧ p.length ≤ total ∧ total ≤ 2 ^ 27 :=
  ⟨unbootable, recoveryMsg, 4096, [1, 2, 3], by decide +kernel⟩

theorem meets_bundleIssue_alu :
    ∃ s : State, ∃ f : Nat, ∃ dt : Nat, ∃ w : Nat, ∃ x : Frame, ∃ u : State, ∃ b : Bundle, ∃ fn : Nat, ∃ d : Nat, ∃ i : Nat, ∃ j : Nat, s.frame f =
      some x ∧ x.issues = true ∧ u = s.tick dt ∧ u.fetchBundle x = some w ∧ decodeBundle w = some b ∧ x.guard b.ag = true ∧ b.a = .alu fn d i j ∧
      b.v = .nop ∧ b.t = .nop :=
  ⟨issuing (bundleWord 0x206110000 0 0), 0, 10, bundleWord 0x206110000 0 0, aThread, (issuing (bundleWord 0x206110000 0 0)).tick 10, (decodeBundle (bundleWord 0x206110000 0 0)).getD nopBundle, 0, 3, 1, 2, by decide +kernel⟩

theorem meets_bundleIssue_lanes :
    ∃ s : State, ∃ f : Nat, ∃ dt : Nat, ∃ w : Nat, ∃ x : Frame, ∃ u : State, ∃ b : Bundle, ∃ fn : LaneFn, ∃ ty : Ty, ∃ d : Nat, ∃ i : Nat, ∃ j :
      Nat, s.frame f = some x ∧ x.issues = true ∧ u = s.tick dt ∧ u.fetchBundle x = some w ∧ decodeBundle w = some b ∧ x.guard b.vg = true ∧ b.a =
      .nop ∧ b.v = .bin fn ty d i j ∧ b.t = .nop :=
  ⟨issuing (bundleWord 0 0x118440400 0), 0, 10, bundleWord 0 0x118440400 0, aThread, (issuing (bundleWord 0 0x118440400 0)).tick 10, (decodeBundle (bundleWord 0 0x118440400 0)).getD nopBundle, .add, .i32, 3, 1, 2, by decide +kernel⟩

theorem meets_bundleIssue_guarded :
    ∃ s : State, ∃ f : Nat, ∃ dt : Nat, ∃ w : Nat, ∃ x : Frame, ∃ u : State, ∃ b : Bundle, s.frame f = some x ∧ x.issues = true ∧ u = s.tick dt ∧
      u.fetchBundle x = some w ∧ decodeBundle w = some b ∧ x.guard b.ag = false ∧ x.guard b.vg = false ∧ x.guard b.tg = false ∧ alignIllegal x b.t =
      false :=
  ⟨issuing (bundleWord 0x1206110000 0x4000000000 0x4000000000), 0, 10, bundleWord 0x1206110000 0x4000000000 0x4000000000, aThread, (issuing (bundleWord 0x1206110000 0x4000000000 0x4000000000)).tick 10, (decodeBundle (bundleWord 0x1206110000 0x4000000000 0x4000000000)).getD nopBundle, by decide +kernel⟩

theorem meets_bundleIssue_branch :
    ∃ s : State, ∃ f : Nat, ∃ dt : Nat, ∃ w : Nat, ∃ x : Frame, ∃ u : State, ∃ b : Bundle, ∃ off : Int, s.frame f = some x ∧ x.issues = true ∧ u =
      s.tick dt ∧ u.fetchBundle x = some w ∧ decodeBundle w = some b ∧ x.guard b.ag = true ∧ b.a = .b off ∧ b.v = .nop ∧ b.t = .nop :=
  ⟨issuing (bundleWord 0x400ffffe 0 0), 0, 10, bundleWord 0x400ffffe 0 0, aThread, (issuing (bundleWord 0x400ffffe 0 0)).tick 10, (decodeBundle (bundleWord 0x400ffffe 0 0)).getD nopBundle, -2, by decide +kernel⟩

theorem meets_bundleIssue_store :
    ∃ s : State, ∃ f : Nat, ∃ dt : Nat, ∃ w : Nat, ∃ x : Frame, ∃ u : State, ∃ b : Bundle, ∃ i : Nat, ∃ aa : Nat, ∃ size : Nat, ∃ id : Nat, ∃ off :
      Nat, ∃ p : Nat, ∃ id2 : Nat, ∃ ofs : Int, ∃ a : Alloc, s.frame f = some x ∧ x.issues = true ∧ u = s.tick dt ∧ u.fetchBundle x = some w ∧
      decodeBundle w = some b ∧ x.guard b.ag = true ∧ b.a = .st i aa size ofs ∧ b.v = .nop ∧ b.t = .nop ∧ addrPlus (x.a aa) ofs % 2 ^ size = 0 ∧
      u.resolve x (addrPlus (x.a aa) ofs) (2 ^ size) true = some (.alloc id off) ∧ s.partPoison id off (2 ^ size) = false ∧ s.alloc id = some a ∧
      Memory.wf a.mem = true ∧ ((id2 ≠ id ∨ p < off ∨ off + 2 ^ size ≤ p)) :=
  ⟨issuing (bundleWord 0x5426c0008 0 0), 0, 10, bundleWord 0x5426c0008 0 0, aThread, (issuing (bundleWord 0x5426c0008 0 0)).tick 10, (decodeBundle (bundleWord 0x5426c0008 0 0)).getD nopBundle, 1, 3, 3, 50, 8, 16, 50, 8, persistAlloc 9 65536, by decide +kernel⟩

theorem meets_bundleIssue_result :
    ∃ s : State, ∃ f : Nat, ∃ dt : Nat, ∃ w : Nat, ∃ x : Frame, ∃ u : State, ∃ b : Bundle, ∃ i : Nat, ∃ aa : Nat, ∃ size : Nat, ∃ off : Nat, ∃ ofs :
      Int, s.frame f = some x ∧ x.issues = true ∧ u = s.tick dt ∧ u.fetchBundle x = some w ∧ decodeBundle w = some b ∧ x.guard b.ag = true ∧ b.a =
      .st i aa size ofs ∧ b.v = .nop ∧ b.t = .nop ∧ addrPlus (x.a aa) ofs % 2 ^ size = 0 ∧ u.resolve x (addrPlus (x.a aa) ofs) (2 ^ size) true =
      some (.result off) :=
  ⟨issuing (bundleWord 0x5428c0000 0 0), 0, 10, bundleWord 0x5428c0000 0 0, aThread, (issuing (bundleWord 0x5428c0000 0 0)).tick 10, (decodeBundle (bundleWord 0x5428c0000 0 0)).getD nopBundle, 1, 4, 3, (issuing (bundleWord 0x5428c0000 0 0)).outBase (cmd1 0x0031 []), 0, by decide +kernel⟩

theorem meets_bundleIssue_load :
    ∃ s : State, ∃ f : Nat, ∃ dt : Nat, ∃ w : Nat, ∃ x : Frame, ∃ u : State, ∃ b : Bundle, ∃ d : Nat, ∃ aa : Nat, ∃ size : Nat, ∃ sx : Bool, ∃ ofs :
      Int, s.frame f = some x ∧ x.issues = true ∧ u = s.tick dt ∧ u.fetchBundle x = some w ∧ decodeBundle w = some b ∧ x.guard b.ag = true ∧ b.a =
      .ld d aa size sx ofs ∧ b.v = .nop ∧ b.t = .nop ∧ u.rangeStop x (addrPlus (x.a aa) ofs) (2 ^ size) (2 ^ size) false = none ∧ u.readStop x
      (addrPlus (x.a aa) ofs) (2 ^ size) = none :=
  ⟨issuing (bundleWord 0x50a6c0008 0 0), 0, 10, bundleWord 0x50a6c0008 0 0, aThread, (issuing (bundleWord 0x50a6c0008 0 0)).tick 10, (decodeBundle (bundleWord 0x50a6c0008 0 0)).getD nopBundle, 5, 3, 3, false, 8, by decide +kernel⟩

theorem meets_bundleIssue_wait :
    ∃ s : State, ∃ f : Nat, ∃ dt : Nat, ∃ w : Nat, ∃ x : Frame, ∃ u : State, ∃ b : Bundle, ∃ q : Nat, ∃ d : Nat, ∃ id : Nat, ∃ v : Queue, ∃ l : List
      Nat, ∃ c : Call, s.frame f = some x ∧ x.issues = true ∧ u = s.tick dt ∧ u.fetchBundle x = some w ∧ decodeBundle w = some b ∧ x.guard b.ag =
      true ∧ b.a = .wait q d ∧ b.v = .nop ∧ b.t = .nop ∧ mapGet x.queues q = some v ∧ v.kind = 1 ∧ v.calls = id :: l ∧ mapGet s.calls id = some c ∧
      c.done = true :=
  ⟨{ issuing (bundleWord 0x18c800000 0 0) with frames := [(0, queueing)], calls := [(70, doneCall)] }, 0, 10, bundleWord 0x18c800000 0 0, queueing, ({ issuing (bundleWord 0x18c800000 0 0) with frames := [(0, queueing)], calls := [(70, doneCall)] }).tick 10, (decodeBundle (bundleWord 0x18c800000 0 0)).getD nopBundle, 2, 6, 70, ⟨1, 4, [70], []⟩, [], doneCall, by decide +kernel⟩

theorem meets_bundleIssue_halt :
    ∃ s : State, ∃ f : Nat, ∃ dt : Nat, ∃ w : Nat, ∃ x : Frame, ∃ u : State, ∃ b : Bundle, ∃ code : Nat, s.frame f = some x ∧ x.issues = true ∧ u =
      s.tick dt ∧ u.fetchBundle x = some w ∧ decodeBundle w = some b ∧ x.guard b.ag = true ∧ b.a = .halt code ∧ b.v = .nop ∧ b.t = .nop ∧ u.haltStop
      f x code = none :=
  ⟨issuing (bundleWord 0x1c0000000 0 0), 0, 10, bundleWord 0x1c0000000 0 0, aThread, (issuing (bundleWord 0x1c0000000 0 0)).tick 10, (decodeBundle (bundleWord 0x1c0000000 0 0)).getD nopBundle, 0, by decide +kernel⟩

theorem meets_bundleIssue_illegal :
    ∃ s : State, ∃ f : Nat, ∃ dt : Nat, ∃ w : Nat, ∃ x : Frame, ∃ u : State, ∃ r : Run, s.frame f = some x ∧ x.issues = true ∧ u = s.tick dt ∧
      u.fetchBundle x = some w ∧ decodeBundle w = none ∧ s.run x.run = some r :=
  ⟨issuing 0, 0, 10, 0, aThread, (issuing 0).tick 10, { aRun with phys := [0] }, by decide +kernel⟩

theorem meets_bundleIssue_range :
    ∃ s : State, ∃ f : Nat, ∃ dt : Nat, ∃ x : Frame, ∃ u : State, ∃ r : Run, s.frame f = some x ∧ x.issues = true ∧ u = s.tick dt ∧ u.fetchBundle x
      = none ∧ s.run x.run = some r :=
  ⟨{ issuing 0 with frames := [(0, { aThread with pc := 1 })] }, 0, 10, { aThread with pc := 1 }, ({ issuing 0 with frames := [(0, { aThread with pc := 1 })] }).tick 10, { aRun with phys := [0] }, by decide +kernel⟩

theorem meets_bundleIssue_bar :
    ∃ s : State, ∃ f : Nat, ∃ dt : Nat, ∃ w : Nat, ∃ x : Frame, ∃ u : State, ∃ b : Bundle, ∃ r : Run, ∃ g : Nat, ∃ y : Frame, s.frame f = some x ∧
      x.issues = true ∧ u = s.tick dt ∧ u.fetchBundle x = some w ∧ decodeBundle w = some b ∧ x.guard b.ag = true ∧ b.a = .bar 0 ∧ x.barPassed =
      false ∧ alignIllegal x b.t = false ∧ remoteStop x = none ∧ s.run x.run = some r ∧ r.phys.contains g = true ∧ g ≠ f ∧ s.frame g = some y ∧
      y.bars0 ≤ x.bars0 ∧ (r.phys.all (fun (m : Nat) => (s.frame m).elim true Frame.live) = true) :=
  ⟨twoFrames (bundleWord 0x740000000 0 0) aThread, 0, 10, bundleWord 0x740000000 0 0, aThread, (twoFrames (bundleWord 0x740000000 0 0) aThread).tick 10, (decodeBundle (bundleWord 0x740000000 0 0)).getD nopBundle, { aRun with phys := [0, 1] }, 1, aThread, by decide +kernel⟩

theorem meets_bundleIssue_barLast :
    ∃ s : State, ∃ f : Nat, ∃ dt : Nat, ∃ w : Nat, ∃ x : Frame, ∃ u : State, ∃ b : Bundle, ∃ r : Run, s.frame f = some x ∧ x.issues = true ∧ u =
      s.tick dt ∧ u.fetchBundle x = some w ∧ decodeBundle w = some b ∧ x.guard b.ag = true ∧ b.a = .bar 0 ∧ x.barPassed = false ∧ alignIllegal x b.t
      = false ∧ remoteStop x = none ∧ s.run x.run = some r ∧ (r.phys.all (fun (m : Nat) => m == f || (s.frame m).any (fun (y : Frame) => decide
      (x.bars0 + 1 ≤ y.bars0))) = true) :=
  ⟨twoFrames (bundleWord 0x740000000 0 0) atBar0, 0, 10, bundleWord 0x740000000 0 0, aThread, (twoFrames (bundleWord 0x740000000 0 0) atBar0).tick 10, (decodeBundle (bundleWord 0x740000000 0 0)).getD nopBundle, { aRun with phys := [0, 1] }, by decide +kernel⟩

theorem meets_bundleIssue_call :
    ∃ s : State, ∃ f : Nat, ∃ dt : Nat, ∃ w : Nat, ∃ x : Frame, ∃ u : State, ∃ b : Bundle, ∃ fn : EngineFn, ∃ aa : Nat, ∃ ofs : Nat, ∃ addr : Nat, ∃
      q : Nat, ∃ desc : Bytes, ∃ v : Queue, s.frame f = some x ∧ x.issues = true ∧ u = s.tick dt ∧ u.fetchBundle x = some w ∧ decodeBundle w = some
      b ∧ x.guard b.tg = true ∧ b.a = .nop ∧ b.v = .nop ∧ b.t = .engine fn aa ofs ∧ addr = ((x.a aa) + BitVec.ofNat 64 (64 * ofs)).toNat ∧ desc =
      u.readAddr x addr 64 ∧ u.rangeStop x addr 64 64 false = none ∧ u.readStop x addr 64 = none ∧ x.queuesOk fn desc = true ∧ q = (fn.outq desc).1
      ∧ mapGet x.queues q = some v :=
  ⟨{ issuing (bundleWord 0 0 0x1030000001) with frames := [(0, streaming)] }, 0, 10, bundleWord 0 0 0x1030000001, streaming, ({ issuing (bundleWord 0 0 0x1030000001) with frames := [(0, streaming)] }).tick 10, (decodeBundle (bundleWord 0 0 0x1030000001)).getD nopBundle, .walk, 3, 1, 2 ^ 52 + 64, 0, List.replicate 64 0, ⟨2, 4, [], []⟩, by decide +kernel⟩

theorem meets_bundleIssue_mma :
    ∃ s : State, ∃ f : Nat, ∃ dt : Nat, ∃ w : Nat, ∃ x : Frame, ∃ u : State, ∃ b : Bundle, ∃ o : MmaOp, ∃ m : MmaTensors, s.frame f = some x ∧
      x.issues = true ∧ u = s.tick dt ∧ u.fetchBundle x = some w ∧ decodeBundle w = some b ∧ x.guard b.tg = true ∧ b.a = .nop ∧ b.v = .nop ∧ b.t =
      .mma o ∧ alignIllegal x b.t = false ∧ u.mmaTensors x o = some m ∧ u.mmaStop x o m = none ∧ m.i = none :=
  ⟨{ issuing mmaWord with frames := [(0, tensoring)] }, 0, 10, mmaWord, tensoring, ({ issuing mmaWord with frames := [(0, tensoring)] }).tick 10, (decodeBundle mmaWord).getD nopBundle, mmaOp1, ⟨Tensor.ofBytes tdA, Tensor.ofBytes tdA, none, none, none⟩, by decide +kernel⟩

theorem meets_mmaSlabAdd :
    ∃ s : State, ∃ frame : Nat, ∃ k : Nat, ∃ x : Frame, ∃ y : Frame, ∃ j : MmaJob, ∃ u : State, ∃ v : MmaView, s.frame frame = some x ∧ x.live =
      true ∧ x.mma = some j ∧ k ≤ 3 ∧ u = s.residue frame k (formClass j.form * 4096 + 0xFFF) ∧ u.frame frame = some y ∧ y.live = true ∧ v =
      u.mmaView y j :=
  ⟨multiplying, 0, 0, multiplier, multiplier, mmaJob1, multiplying.residue 0 0 (formClass 1 * 4096 + 0xFFF), multiplying.mmaView multiplier mmaJob1, by decide +kernel, by decide +kernel, by decide +kernel, by decide +kernel, rfl, by decide +kernel, by decide +kernel, by decide +kernel⟩

theorem meets_mmaSlabAdd_quarantine :
    ∃ s : State, ∃ frame : Nat, ∃ k : Nat, ∃ x : Frame, ∃ j : MmaJob, s.frame frame = some x ∧ x.live = true ∧ x.mma = some j ∧ 3 < k ∧ frame < 4096 :=
  ⟨multiplying, 0, 4, multiplier, mmaJob1, by decide +kernel⟩

theorem meets_carryCheckMismatch :
    ∃ s : State, ∃ frame : Nat, ∃ k : Nat, ∃ x : Frame, s.frame frame = some x ∧ x.live = true ∧ 3 < k ∧ frame < 4096 :=
  ⟨multiplying, 0, 4, multiplier, by decide +kernel⟩

theorem meets_carryCheckMismatch_one :
    ∃ s : State, ∃ frame : Nat, ∃ x : Frame, s.frame frame = some x ∧ x.live = true :=
  ⟨multiplying, 0, multiplier, by decide +kernel⟩

theorem meets_windowFetchDone :
    ∃ s : State, ∃ run : Nat, ∃ alloc : Nat, ∃ layer : Nat, ∃ b : Nat, ∃ r : Run, ∃ k : Consist, ∃ w : WindowDecl, ∃ st : WindowState, s.run run =
      some r ∧ s.runConsist r = some k ∧ mapGet k.windows alloc = some w ∧ st = mapGetD r.windows alloc WindowState.blank ∧ s.windowBase r w st =
      some b ∧ b ≤ layer ∧ layer < b + w.depth ∧ layer < w.layers ∧ ((List.range (layer - b)).all (fun (i : Nat) => st.fetched.contains (b + i)) =
      true) ∧ st.fetched.contains layer = false ∧ ((w.routed = false ∨ (mapGet st.bitmaps layer).isSome = true)) :=
  ⟨windowed, 60, 1, 0, 0, windowedRun, windowedConsist, aWindow, ⟨[(0, 0)], [], [], []⟩, by decide +kernel⟩

theorem meets_runTimeout :
    ∃ s : State, ∃ run : Nat, ∃ dt : Nat, ∃ r : Run, ∃ k : Consist, s.run run = some r ∧ s.runConsist r = some k ∧ k.runtimeout ≠ 0 ∧ r.phys ≠ [] ∧
      r.startedAt + k.runtimeout * 10 ^ 6 ≤ s.clock.mono + dt :=
  ⟨{ issuing 0 with consists := [(40, { oneBundle 0 with runtimeout := 5 })] }, 60, 10, { aRun with phys := [0] }, { oneBundle 0 with runtimeout := 5 }, by decide +kernel⟩

theorem meets_barTimeout :
    ∃ s : State, ∃ run : Nat, ∃ dt : Nat, ∃ t0 : Nat, ∃ g : Nat, ∃ r : Run, ∃ k : Consist, s.run run = some r ∧ s.runConsist r = some k ∧
      k.bartimeout ≠ 0 ∧ g < 2 ∧ mapGet r.barFirst g = some t0 ∧ t0 + k.bartimeout * 10 ^ 6 ≤ s.clock.mono + dt :=
  ⟨{ twoFrames 0 atBar0 with consists := [(40, { oneBundle 0 with bartimeout := 5 })], runs := [(60, { aRun with phys := [0, 1], barFirst := [(0, 100)] })] }, 60, 10, 100, 0, { aRun with phys := [0, 1], barFirst := [(0, 100)] }, { oneBundle 0 with bartimeout := 5 }, by decide +kernel⟩

theorem meets_peerHalt :
    ∃ s : State, ∃ run : Nat, ∃ f : Nat, ∃ r : Run, ∃ x : Frame, s.run run = some r ∧ r.phys.contains f = true ∧ s.frame f = some x ∧ x.live = true
      ∧ x.peerHalt = true :=
  ⟨{ issuing 0 with frames := [(0, { aThread with peerHalt := true })], calls := [(70, doneCall)] }, 60, 0, { aRun with phys := [0] }, { aThread with peerHalt := true }, by decide +kernel⟩

theorem meets_runComplete :
    ∃ s : State, ∃ run : Nat, ∃ r : Run, ∃ c : Cmd, s.run run = some r ∧ r.phys ≠ [] ∧ s.liveFrames r = [] ∧ r.quarantined = false ∧ r.wrong = false
      ∧ r.mismatch = false ∧ r.shadows = [] ∧ s.flashPending r.slice = false ∧ s.fenced = false ∧ s.cmd r.ring r.seq = some c ∧ c.ring = r.ring ∧
      c.seq = r.seq ∧ (((r.timedOut || (List.range r.phys.length).any fun (i : Nat) => leAt (mapGetD r.halts i []) 0 2 != 0) = true)) :=
  ⟨ended [(0, leBytes 2 fcILLEGAL ++ List.replicate 62 0)], 60, { aRun with phys := [0], halts := [(0, leBytes 2 fcILLEGAL ++ List.replicate 62 0)] }, cmd1 0x0031 [], by decide +kernel⟩

theorem meets_runComplete_code :
    ∃ s : State, ∃ run : Nat, ∃ r : Run, ∃ c : Cmd, s.run run = some r ∧ r.phys ≠ [] ∧ s.liveFrames r = [] ∧ r.quarantined = false ∧ r.wrong = false
      ∧ r.mismatch = false ∧ r.shadows = [] ∧ s.flashPending r.slice = false ∧ s.fenced = false ∧ s.cmd r.ring r.seq = some c ∧ c.ring = r.ring ∧
      c.seq = r.seq ∧ r.timedOut = false ∧ ((((List.range r.phys.length).any fun (i : Nat) => leAt (mapGetD r.halts i []) 0 2 != 0) = false)) :=
  ⟨ended [(0, List.replicate 6 0 ++ [2] ++ List.replicate 57 0)], 60, { aRun with phys := [0], halts := [(0, List.replicate 6 0 ++ [2] ++ List.replicate 57 0)] }, cmd1 0x0031 [], by decide +kernel⟩

theorem meets_walk :
    ∃ s : State, ∃ shunter : Nat, ∃ id : Nat, ∃ c : Call, ∃ x : Frame, ∃ sl : Nat, ∃ ix : Index, ∃ w : Walk, s.openCall id 0 = some (c, x, sl) ∧
      c.walk = none ∧ c.out = [] ∧ (s.sliceShunters sl).contains shunter = true ∧ c.walkReserved = false ∧ s.walkIndex sl (c.at_ 2 2) = some ix ∧
      s.walkStatus c x ix = none ∧ w = s.walkOf c x ix shunter ∧ s.scratchUsed w.index ix.degree + scratchBytes w.entry.length w.hopmax ix.degree ≤
      ix.pool * 2 ^ 20 ∧ s.shunterFree shunter = true :=
  ⟨walking, 0, 70, walkCall, streaming, 1, tenantIndex, walking.walkOf walkCall streaming tenantIndex 0, by decide +kernel⟩

theorem meets_walk_noIndex :
    ∃ s : State, ∃ shunter : Nat, ∃ id : Nat, ∃ c : Call, ∃ x : Frame, ∃ sl : Nat, s.openCall id 0 = some (c, x, sl) ∧ c.walk = none ∧ c.out = [] ∧
      (s.sliceShunters sl).contains shunter = true ∧ c.walkReserved = false ∧ s.walkIndex sl (c.at_ 2 2) = none :=
  ⟨{ walking with indexes := [] }, 0, 70, walkCall, streaming, 1, by decide +kernel⟩

theorem meets_walkRound :
    ∃ s : State, ∃ shunter : Nat, ∃ id : Nat, ∃ c : Call, ∃ x : Frame, ∃ sl : Nat, ∃ ix : Index, ∃ w : Walk, ∃ w2 : Walk, ∃ hits : List (Nat × Nat),
      s.openCall id 0 = some (c, x, sl) ∧ c.walk = some w ∧ c.out = [] ∧ w.shunter = shunter ∧ s.index w.index = some ix ∧ s.joinedSweep id =
      (false, hits) ∧ ix.walkRound hits w = (w2, none) ∧ w2.media = false ∧ w2.ended = false :=
  ⟨{ walking with indexes := [(5, tenantIndex)], calls := [(70, { walkCall with walk := some (walking.walkOf walkCall streaming tenantIndex 0) })] }, 0, 70, { walkCall with walk := some (walking.walkOf walkCall streaming tenantIndex 0) }, streaming, 1, tenantIndex, walking.walkOf walkCall streaming tenantIndex 0, (tenantIndex.walkRound [] (walking.walkOf walkCall streaming tenantIndex 0)).1, [], by decide +kernel⟩

theorem meets_walkRound_ends :
    ∃ s : State, ∃ shunter : Nat, ∃ id : Nat, ∃ c : Call, ∃ x : Frame, ∃ sl : Nat, ∃ ix : Index, ∃ w : Walk, ∃ w2 : Walk, ∃ hits : List (Nat × Nat),
      s.openCall id 0 = some (c, x, sl) ∧ c.walk = some w ∧ c.out = [] ∧ w.shunter = shunter ∧ s.index w.index = some ix ∧ s.joinedSweep id =
      (false, hits) ∧ ix.walkRound hits w = (w2, none) ∧ w2.media = false ∧ w2.ended = true :=
  ⟨{ walking with calls := [(70, { walkCall with walk := some (steppedWalk) })] }, 0, 70, { walkCall with walk := some (steppedWalk) }, streaming, 1, tenantIndex, steppedWalk, (tenantIndex.walkRound [] steppedWalk).1, [], by decide +kernel⟩

theorem meets_sweep :
    ∃ s : State, ∃ shunter : Nat, ∃ id : Nat, ∃ c : Call, ∃ x : Frame, ∃ sl : Nat, ∃ ix : Index, ∃ v : Nat, ∃ k : Nat, ∃ r : SweepRes, s.openCall id
      1 = some (c, x, sl) ∧ c.out = [] ∧ (s.sliceShunters sl).contains shunter = true ∧ c.sweepReserved = false ∧ s.walkIndex sl (c.at_ 2 2) = some
      ix ∧ s.joinBad c = false ∧ s.callFilterBad c x = false ∧ (ix.key && bitOf (c.at_ 1 1) 1) = false ∧ ((bitOf (c.at_ 1 1) 5 = true ∨ (s.ticketBad
      (c.at_ 2 2) ix c = false ∧ ix.versionBad c = false))) ∧ s.walkReads c x (32 * 2 ^ ix.skw) 16 = none ∧ s.sweepAt c ix = .at_ v k ∧ r = ix.sweep
      v k ((s.callFilter c x).map filterOf) (leNat (s.readAddr x (c.at_ 32 8) (32 * 2 ^ ix.skw))) :=
  ⟨{ walking with calls := [(70, sweepCall)] }, 0, 70, sweepCall, streaming, 1, tenantIndex, 1, 0, tenantIndex.sweep 1 0 none 0, by decide +kernel⟩

theorem meets_topkCall :
    ∃ s : State, ∃ selector : Nat, ∃ id : Nat, ∃ c : Call, ∃ x : Frame, ∃ sl : Nat, ∃ r : Selected, s.openCall id 2 = some (c, x, sl) ∧
      (s.sliceSelectors sl).contains selector = true ∧ c.topkBad = false ∧ c.topkOverlap = false ∧ bitOf (c.at_ 1 1) 5 = false ∧ s.selStop c x =
      none ∧ s.engineStop x (c.at_ 16 8) c.rowBytes = none ∧ r = topk (c.at_ 2 1) (bitOf (c.at_ 1 1) 0) (bitOf (c.at_ 1 1) 2) (c.at_ 4 2) c.sums
      (s.topkRow c x) :=
  ⟨{ walking with calls := [(70, topkOne)] }, 0, 70, topkOne, streaming, 1, topk 2 false false 1 topkOne.sums (walking.topkRow topkOne streaming), by decide +kernel⟩

theorem meets_mergeCall :
    ∃ s : State, ∃ selector : Nat, ∃ id : Nat, ∃ c : Call, ∃ x : Frame, ∃ sl : Nat, ∃ lists : List Selected, ∃ r : Selected, s.openCall id 3 = some
      (c, x, sl) ∧ (s.sliceSelectors sl).contains selector = true ∧ c.mergeBad = false ∧ s.mergeStop c x = none ∧ (lists = (s.mergeInputs c x).map
      (fun (e : Nat × Nat × Selected) => e.2.2)) ∧ s.mergeOverlap c x = false ∧ lists.any c.listBad = false ∧ s.selStop c x = none ∧ r = mergeLists
      (c.at_ 2 1) (bitOf (c.at_ 1 1) 0) (c.at_ 4 2) c.sums lists :=
  ⟨listsReady, 0, 70, mergeOne, streaming, 1, (listsReady.mergeInputs mergeOne streaming).map fun e => e.2.2, mergeLists 2 false 1 mergeOne.sums ((listsReady.mergeInputs mergeOne streaming).map fun e => e.2.2), by decide +kernel⟩

theorem meets_gatherServe :
    ∃ s : State, ∃ n : Nat, ∃ e : Option Nat, ∃ tb : Table, mapGet s.tables n = some tb ∧ tb.epochTest e = .serve :=
  ⟨tabled, 2, some 1, aTable, by decide +kernel⟩

theorem meets_gatherServe_stale :
    ∃ s : State, ∃ n : Nat, ∃ e : Option Nat, ∃ tb : Table, mapGet s.tables n = some tb ∧ tb.epochTest e = .stale :=
  ⟨tabled, 2, some 0, aTable, by decide +kernel⟩

theorem meets_gatherServe_call :
    ∃ s : State, ∃ id : Nat, ∃ c : Call, ∃ x : Frame, ∃ sl : Nat, ∃ tb : Table, ∃ rows : List Nat, ∃ wide : Bool, s.openCall id 4 = some (c, x, sl)
      ∧ c.gatherBad = false ∧ s.tableOf sl (c.at_ 2 2) = some tb ∧ s.engineStop x (c.at_ 16 8) (8 * c.at_ 4 4) = none ∧ rows = s.callRows c x ∧
      (rows.all (fun (r : Nat) => decide (r < tb.rows) && tb.hasRow r tb.tepoch && (tb.value r).length != 2) = true) ∧ tb.epochTest (if bitOf (c.at_
      1 1) 0 then some (c.at_ 8 4) else none) = .serve ∧ wide = bitOf (c.at_ 1 1) 1 ∧ s.outStop x (c.at_ 24 8) (c.at_ 4 4 * if wide then 4 * tb.w
      else tb.rowSize) = none :=
  ⟨{ tabled with calls := [(70, gatherOne)] }, 70, gatherOne, queueing, 1, aTable, [0, 0], false, by decide +kernel⟩

theorem meets_scataddAccumulate :
    ∃ s : State, ∃ n : Nat, ∃ row : Nat, ∃ e : Option Nat, ∃ tb : Table, mapGet s.tables n = some tb ∧ tb.epochTest e = .serve ∧ tb.owner row
      tb.tepoch = tb.mine :=
  ⟨tabled, 2, 3, none, aTable, by decide +kernel⟩

theorem meets_scataddAccumulate_call :
    ∃ s : State, ∃ id : Nat, ∃ c : Call, ∃ x : Frame, ∃ sl : Nat, ∃ tb : Table, ∃ cs : List Contribution, s.openCall id 5 = some (c, x, sl) ∧ c.at_
      0 1 = 0x21 ∧ c.scatBad = false ∧ s.tableOf sl (c.at_ 2 2) = some tb ∧ tb.opt ≠ 0 ∧ s.engineStop x (c.at_ 16 8) (8 * c.at_ 4 4) = none ∧
      s.engineStop x (c.at_ 24 8) (c.at_ 4 4 * roundUp tb.w 64) = none ∧ ((s.callRows c x).all (fun (r : Nat) => decide (r < tb.rows) && tb.owner r
      tb.tepoch == tb.mine) = true) ∧ tb.epochTest (if bitOf (c.at_ 1 1) 0 then some (c.at_ 8 4) else none) = .serve ∧ cs = s.contributions c x tb :=
  ⟨{ sgdTabled with calls := [(70, scatOne)] }, 70, scatOne, queueing, 1, sgdTable, ({ sgdTabled with calls := [(70, scatOne)] }).contributions scatOne queueing sgdTable, by decide +kernel⟩

theorem meets_apply :
    ∃ s : State, ∃ id : Nat, ∃ c : Call, ∃ x : Frame, ∃ sl : Nat, ∃ tb : Table, ∃ tc : Table, ∃ sat : Nat, ∃ non : Nat, s.openCall id 5 = some (c,
      x, sl) ∧ c.at_ 0 1 = 0x22 ∧ c.applyBad = false ∧ s.tableOf sl (c.at_ 2 2) = some tb ∧ tb.opt ≠ 0 ∧ c.at_ 8 4 = tb.tepoch ∧ s.gatherOpen (c.at_
      2 2) tb = false ∧ (tb.touched.foldl (fun (acc : Table × Nat × Nat) (row : Nat) => let z := acc.1.applyRow (c.at_ 40 4) row; (z.1, acc.2.1 +
      z.2.1, acc.2.2 + z.2.2)) (tb, 0, 0) = (tc, sat, non)) :=
  ⟨{ sgdTabled with calls := [(70, applyOne)] }, 70, applyOne, queueing, 1, sgdTable, sgdTable, 0, 0, by decide +kernel⟩

theorem meets_tableIntervalEnd :
    ∃ s : State, ∃ n : Nat, ∃ tb : Table, mapGet s.tables n = some tb :=
  ⟨tabled, 2, aTable, by decide +kernel⟩

theorem meets_rowMigrationCopy :
    ∃ s : State, ∃ n : Nat, ∃ row : Nat, ∃ target : Nat, ∃ tb : Table, ∃ m : RowMove, mapGet s.tables n = some tb ∧ mapGet tb.moves row = some m ∧
      m.target = target :=
  ⟨migrating, 2, 3, 1, movingTable, aMove, by decide +kernel⟩

theorem meets_migrationInstall :
    ∃ s : State, ∃ n : Nat, ∃ tb : Table, mapGet s.tables n = some tb :=
  ⟨migrating, 2, movingTable, by decide +kernel⟩

theorem meets_migrationInstall_confirmed :
    ∃ s : State, ∃ n : Nat, ∃ row : Nat, ∃ tb : Table, ∃ m : RowMove, mapGet s.tables n = some tb ∧ mapGet tb.moves row = some m :=
  ⟨migrating, 2, 3, movingTable, aMove, by decide +kernel⟩

theorem meets_migrationFree :
    ∃ s : State, ∃ n : Nat, ∃ row : Nat, ∃ em : Nat, ∃ tb : Table, ∃ m : RowMove, mapGet s.tables n = some tb ∧ mapGet tb.moves row = some m ∧
      m.confirmed = true ∧ m.em = some em ∧ em ≤ tb.tepoch :=
  ⟨migrating, 2, 3, 1, movingTable, aMove, by decide +kernel⟩

theorem meets_tierIntervalEnd :
    ∃ s : State, ∃ id : Nat, ∃ a : Alloc, s.phase = phReady ∧ s.alloc id = some a :=
  ⟨paging, 50, aWarm, by decide +kernel⟩

theorem meets_tierIntervalEnd_promotes :
    ∃ s : State, ∃ id : Nat, ∃ p : Nat, ∃ a : Alloc, ∃ l : List (Nat × Nat), ∃ u : State, s.phase = phReady ∧ 8 ≤ s.tierAge ∧ (u =
      { s with tierAge := s.tierAge + 1, allocs := mapMap s.allocs fun (_ : Nat) (b : Alloc) => { b with age := b.age + 1 } }) ∧ u.promotions = (id,
      p) :: l ∧ u.alloc id = some a ∧ 2 ^ 21 * a.copies ≤ u.free a.slice 2 :=
  ⟨paging, 50, 0, { aWarm with age := 9 }, [], { paging with tierAge := paging.tierAge + 1, allocs := mapMap paging.allocs fun (_ : Nat) (b : Alloc) => { b with age := b.age + 1 } }, by decide +kernel⟩

theorem meets_pageMoveCopyDone :
    ∃ s : State, ∃ i : Nat, ∃ m : PageMove, ∃ a : Alloc, s.moves[i]? = some m ∧ m.copied = false ∧ s.alloc m.alloc = some a :=
  ⟨{ paging with moves := [⟨50, 0, 2, false, 3, 0⟩] }, 0, ⟨50, 0, 2, false, 3, 0⟩, aWarm, by decide +kernel⟩

theorem meets_pageMoveSourceFree :
    ∃ s : State, ∃ i : Nat, ∃ m : PageMove, s.moves[i]? = some m ∧ m.copied = true :=
  ⟨{ paging with moves := [⟨50, 0, 2, true, 0, 0⟩] }, 0, ⟨50, 0, 2, true, 0, 0⟩, by decide +kernel⟩

theorem meets_sramScrub_corrected :
    ∃ s : State, ∃ site : MemSite, site.tier < 4 ∧ s.isMoving site.alloc (site.offset / 2 ^ 21) = false ∧ s.unitClearing site.unit = false :=
  ⟨paging, ⟨0, 50, 8, unitId 1 3⟩, by decide +kernel⟩

theorem meets_sramScrub_uncorrectable :
    ∃ s : State, ∃ site : MemSite, site.tier < 4 ∧ s.isMoving site.alloc (site.offset / 2 ^ 21) = false ∧ s.unitClearing site.unit = false :=
  ⟨paging, ⟨0, 50, 8, unitId 1 3⟩, by decide +kernel⟩

theorem meets_dramPatrol_uncorrectable :
    ∃ s : State, ∃ site : MemSite, site.tier < 4 ∧ s.isMoving site.alloc (site.offset / 2 ^ 21) = false ∧ s.unitClearing site.unit = false :=
  ⟨paging, ⟨2, 50, 8, unitId 5 3⟩, by decide +kernel⟩

theorem meets_blockEncode :
    ∃ s : State, ∃ id : Nat, ∃ a : Alloc, s.alloc id = some a :=
  ⟨paging, 50, aWarm, by decide +kernel⟩

theorem meets_blockEncode_check :
    ∃ s : State, ∃ id : Nat, ∃ a : Alloc, s.alloc id = some a :=
  ⟨paging, 50, aWarm, by decide +kernel⟩

theorem meets_blockDecode :
    ∃ s : State, ∃ payload : Bytes, ∃ out : Bytes, ∃ desc : Word, decodeBlock payload desc.toNat = some out :=
  ⟨paging, [], zeroBlock, BitVec.ofNat 64 (2 ^ 7 + (crc32c zeroBlock).toNat * 2 ^ 32), zeroBlock_decodes⟩

theorem meets_blockDecode_fails :
    ∃ s : State, ∃ payload : Bytes, ∃ desc : Word, decodeBlock payload desc.toNat = none :=
  ⟨paging, [], 100, by decide +kernel⟩

theorem meets_batchClose :
    ∃ s : State, ∃ jd : Nat, ∃ lane : Nat, ∃ d : Depot, ∃ x : Lane, ∃ place : List Pua, ∃ parity : Pua, ∃ dt : Nat, ∃ w : OpenSlot, ∃ ws : List
      OpenSlot, jd < s.depots.length ∧ lane < 2 ∧ d = s.depot jd ∧ d.lanes.length = 2 ∧ x = d.lane lane ∧ x.batch.take 60 = w :: ws ∧ x.serves =
      true ∧ ((60 ≤ x.batch.length ∨ x.batchSince + 20000 ≤ s.clock.mono + dt)) ∧ d.batchPlaceOk lane (w :: ws) (place.map puaWord) (puaWord parity)
      = true :=
  ⟨writing, 0, 0, openDepot, openLane, [⟨0, 0, 9216⟩], ⟨0, 1, 9216⟩, 30000, ⟨1, 7, 1, [1]⟩, [], by decide +kernel⟩

theorem meets_batchProgramDone :
    ∃ s : State, ∃ jd : Nat, ∃ lane : Nat, ∃ d : Depot, ∃ x : Lane, ∃ n : Nat, ∃ p : Nat, ∃ b : Batch, ∃ q : Slot, jd < s.depots.length ∧ lane < 2 ∧
      d = s.depot jd ∧ d.lanes.length = 2 ∧ x = d.lane lane ∧ mapGet x.batches n = some b ∧ b.programming = true ∧ x.serves = true ∧ b.place = [p] ∧
      mapGet x.slots p = some q ∧ mapGet x.map (unitKey q.ns q.unit) = none :=
  ⟨programmed, 0, 0, programmedDepot, programmedLane, 1, 9216, ⟨1, [9216], 33563648, true⟩, nandSlot, by decide +kernel⟩

theorem meets_programFailure :
    ∃ s : State, ∃ jd : Nat, ∃ lane : Nat, ∃ d : Depot, ∃ x : Lane, ∃ n : Nat, ∃ ch : Nat, ∃ die : Nat, ∃ block : Nat, ∃ p : Nat, ∃ pua : Pua, ∃ b :
      Batch, ∃ q : Slot, jd < s.depots.length ∧ lane < 2 ∧ d = s.depot jd ∧ d.lanes.length = 2 ∧ x = d.lane lane ∧ mapGet x.batches n = some b ∧
      b.programming = true ∧ x.serves = true ∧ b.place = [p] ∧ d.blockOf lane p = BlockId.mk ch die block ∧ (d.placeOk lane [puaWord pua] (decide (0
      < d.pslc)) (fun (c k : Nat) => decide (c ≠ 8 * lane + ch) || decide (k ≠ die)) = true) ∧ (x.block (BlockId.mk ch die block)).progFails = 0 ∧
      mapGet x.slots p = some q :=
  ⟨programmed, 0, 0, programmedDepot, programmedLane, 1, 0, 0, 1, 9216, ⟨0, 1, 9216⟩, ⟨1, [9216], 33563648, true⟩, nandSlot, by decide +kernel⟩

theorem meets_eraseFailure :
    ∃ s : State, ∃ jd : Nat, ∃ lane : Nat, ∃ d : Depot, ∃ x : Lane, ∃ ch : Nat, ∃ die : Nat, ∃ block : Nat, jd < s.depots.length ∧ lane < 2 ∧ d =
      s.depot jd ∧ d.lanes.length = 2 ∧ x = d.lane lane ∧ x.serves = true ∧ d.dieUp (8 * lane + ch) die = true ∧ (x.block (BlockId.mk ch die
      block)).retired = false :=
  ⟨programmed, 0, 0, programmedDepot, programmedLane, 0, 2, 9, by decide +kernel⟩

theorem meets_blockCloseVerify :
    ∃ s : State, ∃ jd : Nat, ∃ lane : Nat, ∃ d : Depot, ∃ x : Lane, ∃ ch : Nat, ∃ die : Nat, ∃ block : Nat, jd < s.depots.length ∧ lane < 2 ∧ d =
      s.depot jd ∧ d.lanes.length = 2 ∧ x = d.lane lane ∧ x.serves = true ∧ d.closed lane (BlockId.mk ch die block) = true ∧ (x.block (BlockId.mk ch
      die block)).verified = false :=
  ⟨fullState, 0, 0, fullDepot, fullLane, 0, 0, 1, by decide +kernel⟩

theorem meets_fold :
    ∃ s : State, ∃ jd : Nat, ∃ lane : Nat, ∃ d : Depot, ∃ x : Lane, ∃ ch : Nat, ∃ die : Nat, ∃ block : Nat, ∃ place : List Pua, ∃ src : List Nat, jd
      < s.depots.length ∧ lane < 2 ∧ d = s.depot jd ∧ d.lanes.length = 2 ∧ x = d.lane lane ∧ x.serves = true ∧ x.journalLimit = false ∧ ((75 <
      d.bufferFill lane ∨ (50 ≤ d.bufferFill lane ∧ s.maintOpen = true))) ∧ (d.bufferUsed lane).contains (BlockId.mk ch die block) = true ∧ d.closed
      lane (BlockId.mk ch die block) = true ∧ src = d.toCopy lane (BlockId.mk ch die block) ∧ src ≠ [] ∧ ((d.bufferUsed lane).all (fun (o : BlockId)
      => !d.closed lane o || (d.toCopy lane o).isEmpty || decide (d.oldest lane (BlockId.mk ch die block) ≤ d.oldest lane o)) = true) ∧
      d.copyPlaceOk lane src (place.map puaWord) = true :=
  ⟨buffered, 0, 0, bufferedDepot, bufferedLane, 0, 0, 1, [⟨0, 1, 9216⟩], [9216], by decide +kernel⟩

theorem meets_garbageCollect :
    ∃ s : State, ∃ jd : Nat, ∃ lane : Nat, ∃ d : Depot, ∃ x : Lane, ∃ place : List Pua, ∃ b : BlockId, ∃ src : List Nat, jd < s.depots.length ∧ lane
      < 2 ∧ d = s.depot jd ∧ d.lanes.length = 2 ∧ x = d.lane lane ∧ x.serves = true ∧ x.journalLimit = false ∧ d.gcVictim lane = some b ∧ src =
      d.toCopy lane b ∧ d.copyPlaceOk lane src (place.map puaWord) = true :=
  ⟨fullState, 0, 0, fullDepot, fullLane, [⟨0, 1, 9216⟩], ⟨0, 0, 1⟩, [9216], by decide +kernel⟩

theorem meets_blockRefresh :
    ∃ s : State, ∃ jd : Nat, ∃ lane : Nat, ∃ d : Depot, ∃ x : Lane, ∃ ch : Nat, ∃ die : Nat, ∃ block : Nat, ∃ place : List Pua, ∃ src : List Nat, jd
      < s.depots.length ∧ lane < 2 ∧ d = s.depot jd ∧ d.lanes.length = 2 ∧ x = d.lane lane ∧ jd < 4 ∧ x.serves = true ∧ x.emergency.contains
      (BlockId.mk ch die block) = false ∧ x.refresh.contains (BlockId.mk ch die block) = true ∧ s.maintOpen = true ∧ src = d.toCopy lane (BlockId.mk
      ch die block) ∧ d.copyPlaceOk lane src (place.map puaWord) = true :=
  ⟨fullState, 0, 0, fullDepot, fullLane, 0, 0, 1, [⟨0, 1, 9216⟩], [9216], by decide +kernel⟩

theorem meets_blockErase :
    ∃ s : State, ∃ jd : Nat, ∃ lane : Nat, ∃ d : Depot, ∃ x : Lane, ∃ ch : Nat, ∃ die : Nat, ∃ block : Nat, ∃ b : Block, jd < s.depots.length ∧ lane
      < 2 ∧ d = s.depot jd ∧ d.lanes.length = 2 ∧ x = d.lane lane ∧ x.serves = true ∧ x.freed.contains (BlockId.mk ch die block) = true ∧
      d.validSlots lane (BlockId.mk ch die block) = [] ∧ b = x.block (BlockId.mk ch die block) ∧ b.retired = false ∧ d.parityBlock lane (BlockId.mk
      ch die block) = false ∧ (x.journal.getLast?.any (fun (r : JournalRec) => !r.openSet.contains (BlockId.mk ch die block)) = true) :=
  ⟨freed, 0, 0, freedDepot, freedLane, 0, 0, 1, aBlock 9216 false, by decide +kernel⟩

theorem meets_journalFlush :
    ∃ s : State, ∃ jd : Nat, ∃ lane : Nat, ∃ d : Depot, ∃ x : Lane, ∃ dt : Nat, jd < s.depots.length ∧ lane < 2 ∧ d = s.depot jd ∧ d.lanes.length =
      2 ∧ x = d.lane lane ∧ jd < s.jdCount ∧ x.serves = true ∧ ((x.journal = [] ∨ x.flushedAt + 64 * 10 ^ 6 ≤ s.clock.mono + dt ∨ 2 ^ 24 ≤
      x.sinceFlush)) :=
  ⟨programmed, 0, 0, programmedDepot, programmedLane, 64000000, by decide +kernel⟩

theorem meets_checkpointSegment :
    ∃ s : State, ∃ jd : Nat, ∃ lane : Nat, ∃ d : Depot, ∃ x : Lane, jd < s.depots.length ∧ lane < 2 ∧ d = s.depot jd ∧ d.lanes.length = 2 ∧ x =
      d.lane lane ∧ x.serves = true ∧ x.deltas = [] :=
  ⟨fullState, 0, 0, fullDepot, fullLane, by decide +kernel⟩

theorem meets_counterCheckpoint :
    ∃ s : State, ∃ jd : Nat, ∃ lane : Nat, ∃ d : Depot, ∃ x : Lane, jd < s.depots.length ∧ lane < 2 ∧ d = s.depot jd ∧ d.lanes.length = 2 ∧ x =
      d.lane lane ∧ x.serves = true :=
  ⟨fullState, 0, 0, fullDepot, fullLane, by decide +kernel⟩

theorem meets_superblockUpdate :
    ∃ s : State, ∃ jd : Nat, ∃ lane : Nat, ∃ d : Depot, ∃ x : Lane, jd < s.depots.length ∧ lane < 2 ∧ d = s.depot jd ∧ d.lanes.length = 2 ∧ x =
      d.lane lane ∧ x.serves = true :=
  ⟨fullState, 0, 0, fullDepot, fullLane, by decide +kernel⟩

theorem meets_slotRead :
    ∃ s : State, ∃ jd : Nat, ∃ lane : Nat, ∃ d : Depot, ∃ x : Lane, ∃ ns : Nat, ∃ unit : Nat, ∃ p : Nat, ∃ n : Namespace, ∃ q : Slot, ∃ b : BlockId,
      jd < s.depots.length ∧ lane < 2 ∧ d = s.depot jd ∧ d.lanes.length = 2 ∧ x = d.lane lane ∧ mapGet d.namespaces ns = some n ∧ n.laneOf unit =
      lane ∧ x.serves = true ∧ mapGet x.map (unitKey ns unit) = some p ∧ p ≠ lostEntry ∧ mapGet x.slots p = some q ∧ b = d.blockOf lane p :=
  ⟨fullState, 0, 0, fullDepot, fullLane, 1, 7, 9216, aNamespace, nandSlot, ⟨0, 0, 1⟩, by decide +kernel⟩

theorem meets_slotRead_lost :
    ∃ s : State, ∃ jd : Nat, ∃ lane : Nat, ∃ d : Depot, ∃ x : Lane, ∃ ns : Nat, ∃ unit : Nat, ∃ p : Nat, ∃ n : Namespace, ∃ q : Slot, jd <
      s.depots.length ∧ lane < 2 ∧ d = s.depot jd ∧ d.lanes.length = 2 ∧ x = d.lane lane ∧ mapGet d.namespaces ns = some n ∧ n.laneOf unit = lane ∧
      x.serves = true ∧ mapGet x.map (unitKey ns unit) = some p ∧ p ≠ lostEntry ∧ mapGet x.slots p = some q ∧ q.ns = ns ∧ q.unit = unit :=
  ⟨fullState, 0, 0, fullDepot, fullLane, 1, 7, 9216, aNamespace, nandSlot, by decide +kernel⟩

theorem meets_mediaPatrol :
    ∃ s : State, ∃ jd : Nat, ∃ lane : Nat, ∃ d : Depot, ∃ x : Lane, ∃ pua : Pua, ∃ q : Slot, ∃ b : BlockId, jd < s.depots.length ∧ lane < 2 ∧ d =
      s.depot jd ∧ d.lanes.length = 2 ∧ x = d.lane lane ∧ x.serves = true ∧ s.maintOpen = true ∧ b = d.blockOf lane (puaWord pua) ∧ d.closed lane b
      = true ∧ mapGet x.slots (puaWord pua) = some q :=
  ⟨fullState, 0, 0, fullDepot, fullLane, ⟨0, 0, 9216⟩, nandSlot, ⟨0, 0, 1⟩, by decide +kernel⟩

theorem meets_dieRetire :
    ∃ s : State, ∃ jd : Nat, ∃ ch : Nat, ∃ die : Nat, ∃ d : Depot, ∃ x : Lane, ∃ place : List Pua, ∃ src : List Nat, jd < s.depots.length ∧ ch < 16
      ∧ d = s.depot jd ∧ d.lanes.length = 2 ∧ x = d.lane (ch / 8) ∧ s.retired (unitId 7 (256 * jd + 16 * ch + die)) = true ∧ x.serves = true ∧ (src
      = (mapKeys x.slots).filter (fun (p : Nat) => decide (puaCh p = ch % 8) && decide (puaDie p = die) && x.valid p && !x.copies.any (fun (c :
      PendingCopy) => c.src == p))) ∧ d.copyPlaceOk (ch / 8) src (place.map puaWord) = true :=
  ⟨dieGone, 0, 0, 0, goneDepot, fullLane, [⟨0, 1, 9216⟩], [9216], by decide +kernel⟩

theorem meets_namespaceDestroy :
    ∃ s : State, ∃ jd : Nat, ∃ ns : Nat, jd < s.depots.length ∧ (s.depot jd).destroying.contains ns = true :=
  ⟨{ fullState with depots := fullState.depots.set 0 { fullDepot with destroying := [1] } }, 0, 1, by decide +kernel⟩

theorem meets_keyTableUpdate :
    ∃ s : State, ∃ jd : Nat, ∃ d : Depot, d = s.depot jd ∧ (((d.lane 0).serves = true ∨ (d.lane 1).serves = true)) :=
  ⟨fullState, 0, fullDepot, by decide +kernel⟩

theorem meets_nandTempRead :
    ∃ s : State, ∃ jd : Nat, ∃ d : Depot, jd < s.depots.length ∧ d = s.depot jd ∧ (((d.lane 0).serves = true ∨ (d.lane 1).serves = true)) ∧ 0 <
      d.health.temps :=
  ⟨hotDepotState, 0, hotDepot, by decide +kernel⟩

theorem meets_start_noKey :
    ∃ s : State, ∃ r : Nat, ∃ seq : Nat, ∃ c : Cmd, s.cmd r seq = some c ∧ c.ring ≠ mgmtRing ∧ c.stage = .consumed ∧ s.mayStart c = true ∧
      opcodeCritical c.opcode = true ∧ s.nv.ock = none :=
  ⟨ringOn.setCmd (critCmd []), ((critCmd [])).ring, ((critCmd [])).seq, (critCmd []), cmd_setCmd _ _, by decide +kernel, by decide +kernel, by decide +kernel, by decide +kernel, by decide +kernel⟩

theorem meets_start_badTag :
    ∃ s : State, ∃ r : Nat, ∃ seq : Nat, ∃ c : Cmd, ∃ k : Bytes, s.cmd r seq = some c ∧ c.ring ≠ mgmtRing ∧ c.stage = .consumed ∧ s.mayStart c =
      true ∧ opcodeCritical c.opcode = true ∧ s.nv.ock = some k ∧ kmac256 k (s.ringTagMessage c) 16 "PN-880 ring" ≠ bytesAt c.entry 240 16 :=
  ⟨critKeyed.setCmd badCrit, (badCrit).ring, (badCrit).seq, badCrit, critKey, cmd_setCmd _ _, by decide +kernel, by decide +kernel, by decide +kernel, by decide +kernel, rfl, badCrit_tag⟩

theorem meets_start_badCounter :
    ∃ s : State, ∃ r : Nat, ∃ seq : Nat, ∃ c : Cmd, ∃ k : Bytes, s.cmd r seq = some c ∧ c.ring ≠ mgmtRing ∧ c.stage = .consumed ∧ s.mayStart c =
      true ∧ opcodeCritical c.opcode = true ∧ s.nv.ock = some k ∧ kmac256 k (s.ringTagMessage c) 16 "PN-880 ring" = bytesAt c.entry 240 16 ∧
      c.counter ≤ s.lastCounter 0 :=
  ⟨(critKeyed.setFld CMD_CRITCTR_LAST 65 0).setCmd goodCrit, (goodCrit).ring, (goodCrit).seq, goodCrit, critKey, cmd_setCmd _ _, by decide +kernel, by decide +kernel, by decide +kernel, by decide +kernel, rfl, goodCrit_tag _, by decide +kernel⟩

theorem meets_start_critical :
    ∃ s : State, ∃ r : Nat, ∃ seq : Nat, ∃ c : Cmd, ∃ k : Bytes, s.cmd r seq = some c ∧ c.ring ≠ mgmtRing ∧ c.stage = .consumed ∧ s.mayStart c =
      true ∧ opcodeCritical c.opcode = true ∧ s.nv.ock = some k ∧ kmac256 k (s.ringTagMessage c) 16 "PN-880 ring" = bytesAt c.entry 240 16 ∧
      s.lastCounter 0 < c.counter ∧ s.nv.marks.length = 3 ∧ s.criticalBusy = false ∧ 64 ≤ c.reslen :=
  ⟨critKeyed.setCmd goodCrit, (goodCrit).ring, (goodCrit).seq, goodCrit, critKey, cmd_setCmd _ _, by decide +kernel, by decide +kernel, by decide +kernel, by decide +kernel, rfl, goodCrit_tag _, by decide +kernel, by decide +kernel, by decide +kernel, by decide +kernel⟩

theorem meets_start_busy :
    ∃ s : State, ∃ r : Nat, ∃ seq : Nat, ∃ c : Cmd, ∃ k : Bytes, s.cmd r seq = some c ∧ c.ring ≠ mgmtRing ∧ c.stage = .consumed ∧ s.mayStart c =
      true ∧ opcodeCritical c.opcode = true ∧ s.nv.ock = some k ∧ kmac256 k (s.ringTagMessage c) 16 "PN-880 ring" = bytesAt c.entry 240 16 ∧
      s.lastCounter 0 < c.counter ∧ s.criticalBusy = true :=
  ⟨{ critKeyed with stm := { critKeyed.stm with takeoverWindow := true } }.setCmd goodCrit, (goodCrit).ring, (goodCrit).seq, goodCrit, critKey, cmd_setCmd _ _, by decide +kernel, by decide +kernel, by decide +kernel, by decide +kernel, rfl, goodCrit_tag _, by decide +kernel, by decide +kernel⟩

theorem meets_start_short :
    ∃ s : State, ∃ r : Nat, ∃ seq : Nat, ∃ c : Cmd, ∃ k : Bytes, s.cmd r seq = some c ∧ c.ring ≠ mgmtRing ∧ c.stage = .consumed ∧ s.mayStart c =
      true ∧ opcodeCritical c.opcode = true ∧ s.nv.ock = some k ∧ kmac256 k (s.ringTagMessage c) 16 "PN-880 ring" = bytesAt c.entry 240 16 ∧
      s.lastCounter 0 < c.counter ∧ s.criticalBusy = false ∧ c.reslen < 64 :=
  ⟨critKeyed.setCmd shortCrit, (shortCrit).ring, (shortCrit).seq, shortCrit, critKey, cmd_setCmd _ _, by decide +kernel, by decide +kernel, by decide +kernel, by decide +kernel, rfl, shortCrit_tag _, by decide +kernel, by decide +kernel, by decide +kernel⟩

theorem meets_start_sliceGone :
    ∃ s : State, ∃ r : Nat, ∃ seq : Nat, ∃ c : Cmd, s.cmd r seq = some c ∧ c.ring ≠ mgmtRing ∧ c.stage = .consumed ∧ s.mayStart c = true ∧
      opcodeCritical c.opcode = false ∧ s.sliceInService c.slice = false :=
  ⟨ringOn.setCmd { cmdOf 1 [] with stage := .consumed, slice := 9 }, 3, 1, { cmdOf 1 [] with stage := .consumed, slice := 9 }, by decide +kernel⟩

theorem meets_start_bufferShort :
    ∃ s : State, ∃ r : Nat, ∃ seq : Nat, ∃ c : Cmd, s.cmd r seq = some c ∧ c.ring ≠ mgmtRing ∧ c.stage = .consumed ∧ s.mayStart c = true ∧
      opcodeCritical c.opcode = false ∧ s.sliceInService c.slice = true ∧ c.reslen < 64 :=
  ⟨ringOn.setCmd { cmdOf 1 [] with stage := .consumed }, 3, 1, { cmdOf 1 [] with stage := .consumed }, by decide +kernel⟩

end Sys2Proof.Tests
end

