-- ==== Sys2Proof/Proofs/QueueAndReset.lean ====
section
/-! The front of the queue, and the state after reset. -/

namespace Sys2Proof.Machine

/-- Settles O47: `step` unfolded at a queue that is not empty. -/
theorem stepRunsTheFrontCommand : Obligations.StepRunsTheFrontCommand := by
  intro c rest s h
  simp [step, h]

/-- No register has been written after reset, so each reads its Reset column. -/
theorem State.reset_reg (n : RegName) (i j : Nat) : State.reset.reg n i j = resetWord n := rfl

/-- Settles O49: the Reset columns register by register, and the empty parts of `State.reset`. -/
theorem resetHoldsTheTablesValues : Obligations.ResetHoldsTheTablesValues := by
  refine ⟨fun n i j => ?_, rfl, rfl, nofun, rfl, rfl, fun _ => rfl, rfl, rfl, rfl, rfl, rfl, rfl, rfl⟩
  rw [State.reset_reg]
  cases n <;> rfl

end Sys2Proof.Machine
end

