-- ==== Sys2Proof/Proofs/RegisterTables.lean ====
section
/-! The register tables: where the rows stand in the window, how their fields lie, and what `findReg` finds. -/

namespace Sys2Proof.Machine

/-! ### Rows -/

/-- The offset of the last register of a row. -/
def RegRow.last (r : RegRow) : Nat := r.base + r.s1 * (r.n1 - 1) + r.s2 * (r.n2 - 1)

/-- No row reaches the block at 0x00F_0000. -/
theorem RegName.last_lt (n : RegName) : n.row.last < 0x00F0000 := by cases n <;> decide

theorem regOffset_le_last (n : RegName) {i j : Nat} (hi : i < n.row.n1) (hj : j < n.row.n2) : regOffset n i j ≤ n.row.last := by
  unfold regOffset RegRow.last
  have hrow : n.row.s1 * i ≤ n.row.s1 * (n.row.n1 - 1) := Nat.mul_le_mul_left _ (by omega)
  have hcol : n.row.s2 * j ≤ n.row.s2 * (n.row.n2 - 1) := Nat.mul_le_mul_left _ (by omega)
  omega

theorem RegRow.index_eq_some {r : RegRow} {off i j : Nat} (h : r.index off = some (i, j)) :
    r.base + r.s1 * i + r.s2 * j = off ∧ i < r.n1 ∧ j < r.n2 := by
  unfold RegRow.index at h
  split at h
  · cases h
  · simp only [Option.ite_none_right_eq_some, Option.some.injEq, Prod.mk.injEq] at h
    obtain ⟨⟨hi, hj, he⟩, rfl, rfl⟩ := h
    have hd : r.s1 * (if r.s1 = 0 then 0 else (off - r.base) / r.s1) ≤ off - r.base := by
      split
      · omega
      · exact Nat.mul_div_le _ _
    exact ⟨by omega, hi, hj⟩

theorem findReg_eq_some {off i j : Nat} {n : RegName} (h : findReg off = some (n, i, j)) :
    regOffset n i j = off ∧ i < n.row.n1 ∧ j < n.row.n2 := by
  obtain ⟨m, -, hm⟩ := List.exists_of_findSome?_eq_some h
  obtain ⟨x, hx, e⟩ := Option.map_eq_some_iff.mp hm
  cases e
  exact RegRow.index_eq_some hx

theorem findReg_badacc : findReg (regOffset .glbBadacc 0 0) = some (.glbBadacc, 0, 0) := by decide +kernel

theorem findReg_sealviol : findReg (regOffset .secSealviol 0 0) = some (.secSealviol, 0, 0) := by decide +kernel

theorem findReg_seal : findReg (regOffset .secSeal 0 0) = some (.secSeal, 0, 0) := by decide +kernel

theorem findReg_dataarea : ∀ r < 64, findReg (regOffset .cmdDataarea r 0) = some (.cmdDataarea, r, 0) := by decide +kernel

/-! ### Fields -/

/-- Two fields that share no bit. -/
def Field.Apart (f g : Field) : Prop := f.lo + f.width ≤ g.lo ∨ g.lo + g.width ≤ f.lo

theorem RegName.fields_apart (n : RegName) : n.row.fields.Pairwise Field.Apart := by
  unfold Field.Apart
  cases n <;> decide

theorem RegName.fields_fit (n : RegName) : ∀ f ∈ n.row.fields, f.lo + f.width ≤ 64 := by cases n <;> decide

theorem bitsOf_lt (v lo w : Nat) : bitsOf v lo w < 2 ^ w := Nat.mod_lt _ (Nat.pow_pos (by decide))

theorem setBitsOf_bitsOf (v lo w : Nat) : setBitsOf v lo w (bitsOf v lo w) = v := by
  unfold setBitsOf
  rw [Nat.mod_eq_of_lt (bitsOf_lt v lo w)]
  have hle : bitsOf v lo w * 2 ^ lo ≤ v := Nat.le_trans (Nat.mul_le_mul_right _ (Nat.mod_le _ _)) (Nat.div_mul_le_self _ _)
  exact Nat.sub_add_cancel hle

end Sys2Proof.Machine
end

