-- ==== Sys2Proof/Proofs/RegisterWrites.lean ====
section
/-! Writes of the control window: what the access codes do to the fields of a register, and which registers a write reaches. -/

namespace Sys2Proof.Machine

/-! ### The access codes field by field -/

/-- Clearing the bits that are written 1, said with an exclusive or and with the complement in the field. -/
theorem and_xor_eq_and_compl {o v w : Nat} (ho : o < 2 ^ w) (hv : v < 2 ^ w) : o &&& (o ^^^ v) = o &&& (2 ^ w - 1 - v) := by
  rw [Nat.sub_sub, Nat.add_comm 1 v]
  refine Nat.eq_of_testBit_eq fun k => ?_
  simp only [Nat.testBit_and, Nat.testBit_xor, Nat.testBit_two_pow_sub_succ hv]
  by_cases hk : k < w
  · simp only [hk, decide_true, Bool.true_and]
    cases o.testBit k <;> simp
  · have hok : o.testBit k = false := Nat.testBit_lt_two_pow (Nat.lt_of_lt_of_le ho (Nat.pow_le_pow_right (by decide) (by omega)))
    simp [hok]

theorem Field.write_eq_written (f : Field) (isSealed : Bool) (old data : Nat) :
    f.write isSealed old data = f.written isSealed (bitsOf old f.lo f.width) (bitsOf data f.lo f.width) := by
  unfold Field.write Field.written
  cases f.acc with
  | w1c => exact and_xor_eq_and_compl (bitsOf_lt _ _ _) (bitsOf_lt _ _ _)
  | _ => rfl

theorem Field.written_lt (f : Field) (isSealed : Bool) {o v : Nat} (ho : o < 2 ^ f.width) (hv : v < 2 ^ f.width) :
    f.written isSealed o v < 2 ^ f.width := by
  unfold Field.written
  cases f.acc with
  | ro => exact ho
  | wo => exact ho
  | rw => dsimp only; split <;> assumption
  | w1c => exact Nat.and_lt_two_pow _ (by omega)
  | w1s => exact Nat.or_lt_two_pow ho hv
  | rws => dsimp only; split <;> assumption

/-- Fields apart from every field of a list stay when those are set. -/
theorem bitsOf_foldl_setBitsOf_apart (g : Field) (w : Field → Nat) (fs : List Field) (h : ∀ f ∈ fs, g.Apart f) (v : Nat) :
    bitsOf (fs.foldl (fun v f => setBitsOf v f.lo f.width (w f)) v) g.lo g.width = bitsOf v g.lo g.width := by
  induction fs generalizing v with
  | nil => rfl
  | cons f fs ih =>
    rw [List.foldl_cons, ih fun k hk => h k (List.mem_cons_of_mem _ hk)]
    exact bitsOf_setBitsOf_other _ _ _ _ _ _ (h f List.mem_cons_self)

theorem bitsOf_foldl_setBitsOf_mem (w : Field → Nat) {fs : List Field} (hp : fs.Pairwise Field.Apart) {f : Field} (hf : f ∈ fs) (v : Nat) :
    bitsOf (fs.foldl (fun v f => setBitsOf v f.lo f.width (w f)) v) f.lo f.width = w f % 2 ^ f.width := by
  induction hp generalizing v with
  | nil => cases hf
  | @cons g gs hg _ ih =>
    rw [List.foldl_cons]
    rcases List.mem_cons.mp hf with rfl | hm
    · rw [bitsOf_foldl_setBitsOf_apart f w gs hg, bitsOf_setBitsOf_same]
    · exact ih hm _

theorem foldl_setBitsOf_lt (w : Field → Nat) (fs : List Field) (h : ∀ f ∈ fs, f.lo + f.width ≤ 64) (v : Nat) (hv : v < 2 ^ 64) :
    fs.foldl (fun v f => setBitsOf v f.lo f.width (w f)) v < 2 ^ 64 := by
  induction fs generalizing v with
  | nil => exact hv
  | cons f fs ih =>
    exact ih (fun k hk => h k (List.mem_cons_of_mem _ hk)) _ (setBitsOf_lt _ _ _ _ _ hv (h f List.mem_cons_self))

theorem bitsOf_mergeWrite (n : RegName) (isSealed : Bool) (old data : Nat) {f : Field} (hf : f ∈ n.row.fields) :
    bitsOf (mergeWrite n.row.fields isSealed old data) f.lo f.width =
      f.written isSealed (bitsOf old f.lo f.width) (bitsOf data f.lo f.width) := by
  unfold mergeWrite
  rw [bitsOf_foldl_setBitsOf_mem _ n.fields_apart hf, Field.write_eq_written]
  exact Nat.mod_eq_of_lt (f.written_lt _ (bitsOf_lt _ _ _) (bitsOf_lt _ _ _))

theorem mergeWrite_lt (n : RegName) (isSealed : Bool) (old : Word) (data : Nat) :
    mergeWrite n.row.fields isSealed old.toNat data < 2 ^ 64 :=
  foldl_setBitsOf_lt _ _ n.fields_fit _ old.isLt

/-- A write of a register without a field that takes one leaves its value. -/
theorem mergeWrite_readOnly {fs : List Field} (h : ∀ f ∈ fs, f.acc = .ro) (isSealed : Bool) (old data : Nat) :
    mergeWrite fs isSealed old data = old := by
  have key : ∀ gs ⊆ fs, gs.foldl (fun v f => setBitsOf v f.lo f.width (f.write isSealed old data)) old = old := by
    intro gs
    induction gs with
    | nil => intro _; rfl
    | cons g gs ih =>
      intro hs
      obtain ⟨hg, hgs⟩ := List.cons_subset.mp hs
      rw [List.foldl_cons, Field.write, h g hg, setBitsOf_bitsOf, ih hgs]
  exact key fs (List.Subset.refl _)

/-! ### A write of a register with no behaviour of its own -/

theorem plainRegister_ne_badacc {n : RegName} (h : plainRegister n = true) : n ≠ .glbBadacc := by rintro rfl; cases h

theorem plainRegister_ne_sealviol {n : RegName} (h : plainRegister n = true) : n ≠ .secSealviol := by rintro rfl; cases h

/-- A write changes registers alone. -/
theorem State.writePlain_eq (s : State) (n : RegName) (i j : Nat) (data : Word) :
    s.writePlain n i j data = { s with regs := (s.writePlain n i j data).regs } := by
  unfold State.writePlain
  dsimp only
  split <;> split <;> rfl

/-- A register apart from GLB_BADACC holds the merged value, whatever the write counts. -/
theorem State.reg_writePlain (s : State) (n : RegName) (i j : Nat) (data : Word)
    (hb : regOffset n i j ≠ regOffset .glbBadacc 0 0) :
    (s.writePlain n i j data).reg n i j = BitVec.ofNat 64 (s.mergeNamed n i j data).1 := by
  unfold State.writePlain
  dsimp only
  split <;> split <;> simp [State.badWrite, State.count, State.setFld, State.reg_setReg_other _ _ _ _ _ _ _ _ hb]

theorem State.mergeNamed_of_plain (s : State) {n : RegName} (hn : plainRegister n = true) (i j : Nat) (data : Word) :
    s.mergeNamed n i j data =
      (mergeWrite n.row.fields s.sealed (s.reg n i j).toNat data.toNat, keepsPrevious n.row.fields data.toNat) := by
  have hp : ∀ v, pairRule n v = none := by
    intro v
    unfold pairRule
    split
    · cases hn
    · cases hn
    · rfl
  simp [State.mergeNamed, hp]

/-! ### The word that an offset names -/

theorem State.registerWrite_eq (s : State) {src : Source} {off : Nat} (data : Word) (hs : s.sourceOk src = true) (ha : off % 8 = 0)
    (hw : off < 0x4000000) : s.registerWrite src off 8 data = s.writeWord off data := by
  simp [State.registerWrite, hs, ha, Nat.not_le.mpr hw]

theorem State.writeWord_absent (s : State) {off i j : Nat} {n : RegName} (data : Word) (hoff : off < 0x0100000) (hst : inStatus off = false)
    (hmb : s.missingBlock off = false) (hf : findReg off = some (n, i, j)) (ha : s.absentReg n i j = true) : s.writeWord off data = s := by
  simp [State.writeWord, hst, hmb, hf, ha, Nat.not_le.mpr hoff]

theorem State.writeWord_plain (s : State) {off i j : Nat} {n : RegName} (data : Word) (hoff : off < 0x0100000) (hst : inStatus off = false)
    (hmb : s.missingBlock off = false) (hf : findReg off = some (n, i, j)) (ha : s.absentReg n i j = false) (hn : plainRegister n = true) :
    s.writeWord off data = s.writePlain n i j data := by
  simp only [State.writeWord, hst, hmb, hf, ha, Nat.not_le.mpr hoff, if_false, Bool.false_eq_true]
  split
  case h_13 => rfl
  all_goals cases hn

/-- A write that no register takes is counted. -/
theorem State.writeWord_unassigned (s : State) {off : Nat} (data : Word) (hr : 0x0100000 ≤ off → s.inRingArea off = false)
    (hu : off < 0x0100000 → inStatus off = false ∧ (s.missingBlock off = true ∨ findReg off = none)) :
    s.writeWord off data = s.badWrite off := by
  unfold State.writeWord
  split
  · next h => simp [State.writeRegion, hr h]
  · next h =>
    obtain ⟨hst, hmb | hf⟩ := hu (Nat.lt_of_not_le h)
    · simp [hst, hmb]
    · simp [hst, hf]

theorem State.readWord_unassigned (s : State) {off : Nat} (hr : 0x0100000 ≤ off → s.inRingArea off = false)
    (hu : off < 0x0100000 → inStatus off = false ∧ (s.missingBlock off = true ∨ findReg off = none)) : s.readWord off = 0 := by
  unfold State.readWord
  split
  · next h => simp [State.readRegion, hr h]
  · next h =>
    obtain ⟨hst, hmb | hf⟩ := hu (Nat.lt_of_not_le h)
    · simp [hst, hmb]
    · simp [hst, hf]

/-! ### Accesses that are counted -/

theorem State.reg_badWrite (s : State) (off : Nat) {n : RegName} {i j : Nat} (h : regOffset n i j ≠ regOffset .glbBadacc 0 0) :
    (s.badWrite off).reg n i j = s.reg n i j := by
  simp [State.badWrite, State.count, State.setFld, State.reg_setReg_other _ _ _ _ _ _ _ _ h]

/-- A counted write leaves the count of reads. -/
theorem State.badWrite_reads (s : State) (off : Nat) : (s.badWrite off).fld GLB_BADACC_READS = s.fld GLB_BADACC_READS := by
  unfold State.badWrite State.count
  rw [State.fld_setFld_field _ GLB_BADACC_LASTBLK GLB_BADACC_READS _ 0 0 rfl (by decide) (by decide),
    State.fld_setFld_field _ GLB_BADACC_WRITES GLB_BADACC_READS _ 0 0 rfl (by decide) (by decide)]

/-- The block at 0x00F_0000 holds no register. -/
theorem findReg_eq_none {off : Nat} (h : 0x00F0000 ≤ off) : findReg off = none := by
  cases hf : findReg off with
  | none => rfl
  | some x =>
    obtain ⟨e, hi, hj⟩ := findReg_eq_some (n := x.1) (i := x.2.1) (j := x.2.2) hf
    have := regOffset_le_last x.1 hi hj
    have := x.1.last_lt
    omega

/-- Settles O55: no row of the tables reaches 0x00F_0000, and the word of an unassigned offset falls through to the counted write. -/
theorem unassignedOffsetsReadZeroAndCountWrites : Obligations.UnassignedOffsetsReadZeroAndCountWrites := by
  refine ⟨fun off h _ => ⟨findReg_eq_none h, ?_⟩, fun s off hv hlo hhi => ⟨?_, ?_⟩, fun s src off data hs ha hw hr hu => ?_⟩
  · simp [inStatus]; omega
  · simp [State.missingBlock, hv, hlo, hhi]
  · simp [inStatus]; omega
  · refine ⟨s.readWord_unassigned hr hu, s.badWrite off, ?_, s.badWrite_eq off, s.badWrite_writes off, s.badWrite_reads off, fun n i j h =>
      s.reg_badWrite off h⟩
    change Host.Outcome.next (s.registerWrite src off 8 data) = _
    rw [s.registerWrite_eq data hs ha hw, s.writeWord_unassigned data hr hu]

/-! ### The access codes, a ring's areas, and SEAL -/

theorem State.writePlain_fields (s : State) {off i j : Nat} {n : RegName} (data : Word) (hf : findReg off = some (n, i, j))
    (hn : plainRegister n = true) {f : Field} (hm : f ∈ n.row.fields) :
    bitsOf ((s.writePlain n i j data).reg n i j).toNat f.lo f.width =
      f.written s.sealed (bitsOf (s.reg n i j).toNat f.lo f.width) (bitsOf data.toNat f.lo f.width) := by
  have hb : regOffset n i j ≠ regOffset .glbBadacc 0 0 := by
    intro e
    rw [← (findReg_eq_some hf).1, e, findReg_badacc] at hf
    cases hf
    cases hn
  rw [s.reg_writePlain n i j data hb, s.mergeNamed_of_plain hn, BitVec.toNat_ofNat, Nat.mod_eq_of_lt (mergeWrite_lt _ _ _ _),
    bitsOf_mergeWrite n _ _ _ hm]

theorem State.writeAt_eq (s : State) {n : RegName} {i j : Nat} (data : Word) (hw : s.writable = true) (hi : i < n.row.n1) (hj : j < n.row.n2) :
    s.writeAt n i j data = s.writeWord (regOffset n i j) data := by
  simp [State.writeAt, hw, hi, hj]

/-- A write of an area that would move a field of an enabled ring is discarded and counted. -/
theorem State.writeArea_enabled (s : State) {n : RegName} {r : Nat} {data : Word} (hn : pairRule n = fun _ => none)
    (he : s.ringEn r = true) {f : Field} (hm : f ∈ n.row.fields)
    (hd : f.written s.sealed (bitsOf (s.reg n r 0).toNat f.lo f.width) (bitsOf data.toNat f.lo f.width) ≠ bitsOf (s.reg n r 0).toNat f.lo f.width) :
    s.writeArea n r data = s.badWrite (regOffset n r 0) := by
  have hne : (s.mergeNamed n r 0 data).1 ≠ (s.reg n r 0).toNat := by
    intro e
    apply hd
    rw [← bitsOf_mergeWrite n _ _ _ hm]
    congr 1
    simpa [State.mergeNamed, hn] using e
  simp [State.writeArea, he, hne]

theorem State.writeWord_dataarea (s : State) {r : Nat} (data : Word) (hr : r < 64) :
    s.writeWord (regOffset .cmdDataarea r 0) data = s.writeArea .cmdDataarea r data := by
  have ho : regOffset .cmdDataarea r 0 = 0x0020010 + 32 * r := by simp [regOffset, RegName.row]
  have hst : inStatus (regOffset .cmdDataarea r 0) = false := by rw [ho]; simp [inStatus]; omega
  have hmb : s.missingBlock (regOffset .cmdDataarea r 0) = false := by rw [ho]; simp [State.missingBlock]; omega
  have hlt : ¬ 0x0100000 ≤ regOffset .cmdDataarea r 0 := by omega
  simp [State.writeWord, hst, hmb, hlt, findReg_dataarea r hr, State.absentReg]

/-- A field that takes every value takes the one written. -/
theorem Field.written_of_full {f : Field} (ha : f.acc = .rw) (hmin : f.min = 0) (hmax : f.max = 2 ^ f.width - 1) (isSealed : Bool) (o : Nat)
    {v : Nat} (hv : v < 2 ^ f.width) : f.written isSealed o v = v := by
  have : v ≤ 2 ^ f.width - 1 := by omega
  simp [Field.written, ha, hmin, hmax, this]

theorem State.writeArea_dataarea_enabled (s : State) {r : Nat} {data : Word} (he : s.ringEn r = true)
    (hd : bitsOf data.toNat 0 26 ≠ s.fld CMD_DATAAREA_OFFSET r ∨ bitsOf data.toNat 32 26 ≠ s.fld CMD_DATAAREA_SIZE r) :
    s.writeArea .cmdDataarea r data = s.badWrite (regOffset .cmdDataarea r 0) := by
  rcases hd with hd | hd
  · refine s.writeArea_enabled (f := ⟨0, 26, .rw, 0, 0, 67108863, false⟩) rfl he (by decide) ?_
    rwa [Field.written_of_full rfl rfl rfl _ _ (bitsOf_lt _ _ _)]
  · refine s.writeArea_enabled (f := ⟨32, 26, .rw, 0, 0, 67108863, false⟩) rfl he (by decide) ?_
    rwa [Field.written_of_full rfl rfl rfl _ _ (bitsOf_lt _ _ _)]

/-- SEALED is a W1S field of one bit: it is set whatever it held. -/
theorem State.writePlain_seal (s : State) : (s.writePlain .secSeal 0 0 1).sealed = true := by
  have hf := s.writePlain_fields 1 findReg_seal rfl (f := ⟨0, 1, .w1s, 0, 0, 1, false⟩) (by decide)
  have ho : bitsOf (s.reg .secSeal 0 0).toNat 0 1 < 2 := bitsOf_lt _ _ _
  rw [State.sealed, beq_iff_eq]
  refine hf.trans ?_
  change bitsOf (s.reg .secSeal 0 0).toNat 0 1 ||| 1 = 1
  generalize bitsOf (s.reg .secSeal 0 0).toNat 0 1 = o at ho
  match o, ho with
  | 0, _ => rfl
  | 1, _ => rfl

theorem State.writeAt_seal (s : State) (hw : s.writable = true) (data : Word) :
    s.writeAt .secSeal 0 0 data = s.writePlain .secSeal 0 0 data := by
  rw [s.writeAt_eq data hw (by decide) (by decide)]
  exact s.writeWord_plain data (by decide) (by decide) (by simp [State.missingBlock, regOffset, RegName.row]) findReg_seal rfl rfl

/-- Settles O10: an access that is not an aligned word is counted, and a word follows the register that its offset names: field by field
where the register is plain, not at all where it is absent, and as a ring's area or SEAL. -/
theorem registerWritesFollowTheAccessCodes : Obligations.RegisterWritesFollowTheAccessCodes := by
  intro s
  refine ⟨fun src off len data hs hw hb => ?_, fun src off i j data n hs ha hoff hst hmb hf hn hab => ?_,
    fun src off i j data n hs ha hoff hst hmb hf hab => ⟨?_, ?_⟩, fun src r data hs hr he hd => ?_, fun hw => ?_⟩
  · change Host.Outcome.next (s.registerWrite src off len data) = _
    simp [State.registerWrite, hs, Nat.not_le.mpr hw, hb]
  · refine ⟨s.writePlain n i j data, ?_, fun f hm => s.writePlain_fields data hf hn hm, s.writePlain_eq n i j data⟩
    change Host.Outcome.next (s.registerWrite src off 8 data) = _
    rw [s.registerWrite_eq data hs ha (by omega), s.writeWord_plain data hoff hst hmb hf hab hn]
  · change Host.Outcome.next (s.registerWrite src off 8 data) = _
    rw [s.registerWrite_eq data hs ha (by omega), s.writeWord_absent data hoff hst hmb hf hab]
  · simp [State.readNamed, hab]
  · have ho : regOffset .cmdDataarea r 0 = 0x0020010 + 32 * r := by simp [regOffset, RegName.row]
    change Host.Outcome.next (s.registerWrite src (regOffset .cmdDataarea r 0) 8 data) = _
    rw [s.registerWrite_eq data hs (by omega) (by omega), s.writeWord_dataarea data hr]
    rw [s.writeArea_dataarea_enabled he hd]
  · refine ⟨s.writePlain .secSeal 0 0 1, ?_, s.writePlain_seal, s.writePlain_eq .secSeal 0 0 1⟩
    change Host.Outcome.next (s.writeAt .secSeal 0 0 1) = _
    rw [s.writeAt_seal hw]

end Sys2Proof.Machine
end

