-- ==== Sys2Proof/Proofs/ControlPackets.lean ====
section
/-! Control packets: a WRITE as its words, and a READ of one word. -/

namespace Sys2Proof.Machine

@[simp] theorem State.cclUp_tick (s : State) (dt k : Nat) : (s.tick dt).cclUp k = s.cclUp k := rfl

/-- The bytes of one aligned word of the window. -/
theorem State.windowBytes_word (s : State) {off : Nat} (ha : off % 8 = 0) : s.windowBytes off 8 = leBytes 8 (s.readWord off).toNat := by
  have hn : (off + 8 + 7) / 8 - off / 8 = 1 := by omega
  have ho : 8 * (off / 8) = off := by omega
  have hlen : (leBytes 8 (s.readWord off).toNat).take 8 = leBytes 8 (s.readWord off).toNat :=
    List.take_of_length_le (Nat.le_of_eq (leBytes_length 8 _))
  simp [State.windowBytes, hn, ha, ho, bytesAt, hlen]

theorem State.readCcl_word (s : State) {off : Nat} (ha : off % 8 = 0) (hoff : off < 0x0100000) :
    s.readCcl off 8 = (leBytes 8 (s.readWord off).toNat, s) := by
  have hw : off + 8 ≤ 0x4000000 := by omega
  simp [State.readCcl, readSingle, ha, hw, s.windowBytes_word ha]

/-- Settles O12: below 0x010_0000 no packet is policed, and one aligned word is a single read. -/
theorem controlPacketsReadAndWriteTheWindow : Obligations.ControlPacketsReadAndWriteTheWindow := by
  intro s
  refine ⟨fun port off len packet dt hup hkind hoff hlen hok hlow => ?_, fun port off packet hup hkind hoff hlen ha hlow => ?_⟩
  · subst hoff hlen
    change Host.Outcome.next (s.cclWrite port packet dt) = _
    simp [State.cclWrite, hup, hkind, hok, Nat.not_le.mpr hlow]
  · subst hoff
    have hwin : leAt packet 4 4 < 67108864 := by omega
    change Host.Outcome.next (s.cclRead port packet) = _
    simp [State.cclRead, hup, hkind, hlen, hwin, s.readCcl_word ha hlow]

end Sys2Proof.Machine
end

