-- ==== Sys2Proof/Proofs/Identity.lean ====
section
/-! The identity of a device: GLB_GRADE, GLB_ID, the signed record and the retirement record. No write of the control window reaches it:
the two registers have read-only fields, every other register stands at another offset, and no register is a part of the records. -/

namespace Sys2Proof.Machine

structure Identity where
  grade : Word
  id : Word
  record : DeviceRecord
  retired : List RetireEntry

def State.identity (s : State) : Identity := ⟨s.reg .glbGrade 0 0, s.reg .glbId 0 0, s.nv.record, s.nv.retired⟩

/-- The registers below 0x10 are GLB_GRADE and GLB_ID. -/
theorem RegName.base_ge {n : RegName} (hg : n ≠ .glbGrade) (hi : n ≠ .glbId) : 0x10 ≤ n.row.base := by
  cases n with
  | glbGrade => exact absurd rfl hg
  | glbId => exact absurd rfl hi
  | _ => decide

/-- Only a change of the registers or of management flash is a change of the identity. -/
theorem State.identity_congr {s t : State} (hr : t.regs = s.regs) (hn : t.nv = s.nv) : t.identity = s.identity := by
  simp [State.identity, State.reg, hr, hn]

@[simp] theorem State.setReg_identity (s : State) {n : RegName} (i j : Nat) (v : Word) (hg : n ≠ .glbGrade) (hi : n ≠ .glbId) :
    (s.setReg n i j v).identity = s.identity := by
  have hlo : 0x10 ≤ regOffset n i j := by
    have := RegName.base_ge hg hi
    unfold regOffset
    omega
  have hgrade : regOffset .glbGrade 0 0 ≠ regOffset n i j := Nat.ne_of_lt (Nat.lt_of_lt_of_le (by decide) hlo)
  have hid : regOffset .glbId 0 0 ≠ regOffset n i j := Nat.ne_of_lt (Nat.lt_of_lt_of_le (by decide) hlo)
  simp [State.identity, State.reg_setReg_other _ _ _ _ _ _ _ _ hgrade, State.reg_setReg_other _ _ _ _ _ _ _ _ hid]

/-- A register of the identity that is given the value it holds. -/
theorem State.setReg_self_identity (s : State) {n : RegName} (hn : n = .glbGrade ∨ n = .glbId) (i j : Nat) :
    (s.setReg n i j (s.reg n i j)).identity = s.identity := by
  have hother : regOffset .glbGrade 0 0 ≠ regOffset .glbId 0 0 := by decide
  rcases hn with rfl | rfl
  · have h0 : regOffset .glbGrade i j = regOffset .glbGrade 0 0 := by simp [regOffset, RegName.row]
    have hself : s.setReg .glbGrade i j (s.reg .glbGrade i j) = s.setReg .glbGrade 0 0 (s.reg .glbGrade 0 0) := by
      simp [State.setReg, State.reg, h0]
    simp [hself, State.identity, State.reg_setReg_other _ _ _ _ _ _ _ _ hother.symm]
  · have h0 : regOffset .glbId i j = regOffset .glbId 0 0 := by simp [regOffset, RegName.row]
    have hself : s.setReg .glbId i j (s.reg .glbId i j) = s.setReg .glbId 0 0 (s.reg .glbId 0 0) := by
      simp [State.setReg, State.reg, h0]
    simp [hself, State.identity, State.reg_setReg_other _ _ _ _ _ _ _ _ hother]

/-- The access codes keep GLB_GRADE and GLB_ID: every field of theirs is RO. -/
theorem State.mergeNamed_readOnly (s : State) {n : RegName} (hn : n = .glbGrade ∨ n = .glbId) (i j : Nat) (data : Word) :
    (s.mergeNamed n i j data).1 = (s.reg n i j).toNat := by
  rcases hn with rfl | rfl
  · exact mergeWrite_readOnly (by decide) _ _ _
  · exact mergeWrite_readOnly (by decide) _ _ _

@[simp] theorem State.setFld_identity (s : State) {f : FieldRef} (v i j : Nat) (hg : f.reg ≠ .glbGrade) (hi : f.reg ≠ .glbId) :
    (s.setFld f v i j).identity = s.identity := s.setReg_identity i j _ hg hi

@[simp] theorem State.count_identity (s : State) {f : FieldRef} (k i j : Nat) (hg : f.reg ≠ .glbGrade) (hi : f.reg ≠ .glbId) :
    (s.count f k i j).identity = s.identity := s.setFld_identity _ i j hg hi

@[simp] theorem State.badWrite_identity (s : State) (off : Nat) : (s.badWrite off).identity = s.identity := by simp [State.badWrite]

@[simp] theorem State.ite_identity (c : Prop) [Decidable c] (s t : State) :
    (if c then s else t).identity = if c then s.identity else t.identity := apply_ite State.identity c s t

@[simp] theorem foldl_identity {α : Type} (f : State → α → State) (h : ∀ s a, (f s a).identity = s.identity) (l : List α) (s : State) :
    (l.foldl f s).identity = s.identity := by
  induction l generalizing s with
  | nil => rfl
  | cons a l ih => exact (ih _).trans (h s a)

@[simp] theorem State.writePlain_identity (s : State) (n : RegName) (i j : Nat) (data : Word) : (s.writePlain n i j data).identity = s.identity := by
  by_cases hn : n = .glbGrade ∨ n = .glbId
  · have hrws : n.row.fields.any (fun f => f.acc == .rws) = false := by rcases hn with rfl | rfl <;> rfl
    have hself : BitVec.ofNat 64 (s.mergeNamed n i j data).1 = s.reg n i j := by simp [s.mergeNamed_readOnly hn]
    simp [State.writePlain, hrws, hself, s.setReg_self_identity hn]
  · obtain ⟨hg, hi⟩ := not_or.mp hn
    simp [State.writePlain, State.setReg_identity, hg, hi]

@[simp] theorem State.writeRegion_identity (s : State) (off : Nat) (data : Word) : (s.writeRegion off data).identity = s.identity := by
  rcases s.writeRegion_cases off data with ⟨-, e⟩ | ⟨-, e⟩
  · rw [e]; exact State.identity_congr rfl rfl
  · rw [e]; exact s.badWrite_identity off

@[simp] theorem State.updateStatus_identity (s : State) (r : Nat) : (s.updateStatus r).identity = s.identity := State.identity_congr rfl rfl
@[simp] theorem State.setRing_identity (s : State) (r x) : (s.setRing r x).identity = s.identity := State.identity_congr rfl rfl
@[simp] theorem State.setIndex_identity (s : State) (n x) : (s.setIndex n x).identity = s.identity := State.identity_congr rfl rfl
@[simp] theorem State.setPort_identity (s : State) (p x) : (s.setPort p x).identity = s.identity := State.identity_congr rfl rfl
@[simp] theorem State.fillBucket_identity (s : State) (key burst) : (s.fillBucket key burst).identity = s.identity := State.identity_congr rfl rfl

@[simp] theorem State.writeRingcfg_identity (s : State) (r : Nat) (data : Word) : (s.writeRingcfg r data).identity = s.identity := by
  unfold State.writeRingcfg
  dsimp only
  split
  · simp
  · split
    · split
      · rw [State.updateStatus_identity]
        exact (State.identity_congr rfl rfl).trans (s.setReg_identity r 0 _ (by decide) (by decide))
      · simp
    · simp

@[simp] theorem State.writeTkthold_identity (s : State) (data : Word) : (s.writeTkthold data).identity = s.identity := by
  unfold State.writeTkthold
  split <;> simp

@[simp] theorem State.writeRepair_identity (s : State) (data : Word) : (s.writeRepair data).identity = s.identity := by
  unfold State.writeRepair
  split <;> simp

@[simp] theorem State.writeOpkey_identity (s : State) (i : Nat) (data : Word) : (s.writeOpkey i data).identity = s.identity := by
  unfold State.writeOpkey
  split
  · simp
  · exact State.identity_congr rfl rfl

@[simp] theorem State.writeLogsel_identity (s : State) (data : Word) : (s.writeLogsel data).identity = s.identity := by
  simp [State.writeLogsel]

@[simp] theorem State.settle_identity (s : State) (p : Nat) : (s.settle p).identity = s.identity := by
  unfold State.settle
  dsimp only
  split <;> simp

@[simp] theorem State.writeShaper_identity (s : State) (p c : Nat) (v : Word) : (s.writeShaper p c v).identity = s.identity := by
  unfold State.writeShaper
  dsimp only
  split <;> simp

@[simp] theorem State.writeCbs_identity (s : State) (p c : Nat) (data : Word) : (s.writeCbs p c data).identity = s.identity := by
  simp [State.writeCbs]

@[simp] theorem State.writeArea_identity (s : State) (n : RegName) (r : Nat) (data : Word) : (s.writeArea n r data).identity = s.identity := by
  simp [State.writeArea]

@[simp] theorem State.writePolicer_identity (s : State) (n : RegName) (i j key : Nat) (data : Word) :
    (s.writePolicer n i j key data).identity = s.identity := by
  simp [State.writePolicer]

@[simp] theorem State.writeKeyctl_identity (s : State) (data : Word) : (s.writeKeyctl data).identity = s.identity := by
  have hock : ∀ (t : State) (k : Option Bytes) (m : List Nat), { t with nv := { t.nv with ock := k, marks := m } }.identity = t.identity :=
    fun _ _ _ => rfl
  simp [State.writeKeyctl, hock]

@[simp] theorem State.writeWord_identity (s : State) (off : Nat) (data : Word) : (s.writeWord off data).identity = s.identity := by
  have hrcache : ∀ (t : State) (k : Nat), { t with nv := { t.nv with rcache := k } }.identity = t.identity := fun _ _ => rfl
  fun_cases State.writeWord <;> simp +zetaDelta [hrcache]

@[simp] theorem State.registerWrite_identity (s : State) (src : Source) (off len : Nat) (data : Word) :
    (s.registerWrite src off len data).identity = s.identity := by
  simp [State.registerWrite]

/-- Settles O54: a register write keeps the identity, from which both registers are read with nothing laid over them. -/
theorem noRegisterWriteChangesTheGrade : Obligations.NoRegisterWriteChangesTheGrade := by
  intro s src off len data
  have h := s.registerWrite_identity src off len data
  simp only [State.identity, Identity.mk.injEq] at h
  obtain ⟨hgrade, hid, hrecord, hretired⟩ := h
  exact ⟨s.registerWrite src off len data, rfl, by simp [State.readNamed, State.absentReg, State.overlay, hgrade],
    by simp [State.readNamed, State.absentReg, State.overlay, hid], hrecord, hretired⟩

end Sys2Proof.Machine
end

