-- ==== Sys2Proof/Proofs/Lasting.lean ====
section
/-! What no command takes back: the queue that waits, the canonical ring region, and the identity in management flash (the signed
record, the operator command key and the retirement record). These five parts of the state are gathered in `Lasting`, and every
operation of the model gets one lemma on them:

* `f_lasting`, an equation, where the operation leaves all five alone;
* `f_keeps`, over `Lasting.KeptBy`, where the operation may write the ring region, the operator command key or the retirement record.

`(rfl)`, in parentheses, keeps an equation out of `dsimp`, which would otherwise unfold the fold lemmas' side conditions. -/

namespace Sys2Proof.Machine

/-! ### The lasting parts and how a command may change them -/

/-- The parts of a state that no command takes back. -/
structure Lasting where
  pending : List Instr
  ringMem : Mem
  record : DeviceRecord
  ock : Option Bytes
  retired : List RetireEntry

def State.lasting (s : State) : Lasting := ⟨s.pending, s.ringMem, s.nv.record, s.nv.ock, s.nv.retired⟩

/-- `b` keeps what lasts of `a`: the queue and the signed record are the same, the ring region stays canonical, an operator command key
stays set, and the retirement record is only appended to. -/
structure Lasting.KeptBy (a b : Lasting) : Prop where
  pending : b.pending = a.pending
  ringMem : Memory.wf a.ringMem = true → Memory.wf b.ringMem = true
  record : b.record = a.record
  ock : a.ock.isSome = true → b.ock.isSome = true
  retired : a.retired <+: b.retired

variable {was : Lasting}

/-- A slot of a bundle keeps what lasts in the state it answers with, if it answers with one. -/
def SlotRes.Keeps (was : Lasting) : SlotRes → Prop
  | .ok s => was.KeptBy s.lasting
  | .stop _ => True
  | .partly s _ _ => was.KeptBy s.lasting

/-- A command keeps what lasts in the next state, if there is one. -/
def OutcomeKeeps (was : Lasting) : Outcome → Prop
  | .next s => was.KeptBy s.lasting
  | .fault _ | .refused _ => True

theorem Lasting.KeptBy.refl (a : Lasting) : a.KeptBy a := ⟨rfl, id, rfl, id, List.prefix_rfl⟩

theorem Lasting.KeptBy.ringMem_update {s : State} (h : was.KeptBy s.lasting) {m : Mem}
    (hm : Memory.wf s.ringMem = true → Memory.wf m = true) : was.KeptBy { s with ringMem := m }.lasting :=
  ⟨h.pending, fun w => hm (h.ringMem w), h.record, h.ock, h.retired⟩

@[simp] theorem State.lasting_eta (s : State) :
    (⟨s.pending, s.ringMem, s.nv.record, s.nv.ock, s.nv.retired⟩ : Lasting) = s.lasting := (rfl)

/-- What lasts of a record update: with `State.lasting_eta`, an update of any other field drops out. -/
@[simp] theorem State.lasting_mk (regs ringMem nv clock pins boot rings cmds stm counts allocs charges poison moves tierAge tierCfg pageUnits
      consists runs frames calls zruns nextId indexes stores queries tables seqs depots owns timetables jobs fab ports policers cclOut mgmtOut
      jtagOut freeCtr pending) :
    (State.mk regs ringMem nv clock pins boot rings cmds stm counts allocs charges poison moves tierAge tierCfg pageUnits consists runs frames
      calls zruns nextId indexes stores queries tables seqs depots owns timetables jobs fab ports policers cclOut mgmtOut jtagOut freeCtr
      pending).lasting = ⟨pending, ringMem, nv.record, nv.ock, nv.retired⟩ := (rfl)

/-! ### Branches -/

@[simp] theorem State.ite_lasting (c : Prop) [Decidable c] (s t : State) :
    (if c then s else t).lasting = if c then s.lasting else t.lasting := apply_ite State.lasting c s t

@[simp] theorem Lasting.keptBy_ite (c : Prop) [Decidable c] (a b : Lasting) :
    was.KeptBy (if c then a else b) ↔ if c then was.KeptBy a else was.KeptBy b := by split <;> rfl

@[simp] theorem SlotRes.keeps_ite (c : Prop) [Decidable c] (a b : SlotRes) :
    (if c then a else b).Keeps was ↔ if c then a.Keeps was else b.Keeps was := by split <;> rfl

/-! ### The outcomes of a slot -/

@[simp] theorem SlotRes.keeps_ok (s) : (SlotRes.ok s).Keeps was ↔ was.KeptBy s.lasting := Iff.of_eq (rfl)

@[simp] theorem SlotRes.keeps_partly (s c a) : (SlotRes.partly s c a).Keeps was ↔ was.KeptBy s.lasting := Iff.of_eq (rfl)

@[simp] theorem SlotRes.keeps_stop (w) : (SlotRes.stop w).Keeps was := trivial

@[simp] theorem SlotRes.fault_keeps (c a) : (SlotRes.fault c a).Keeps was := trivial

@[simp] theorem unlessStop_keeps (w) {r : SlotRes} (h : r.Keeps was) : (unlessStop w r).Keeps was := by
  unfold unlessStop; split <;> simp [h]

@[simp] theorem remoteAligned_keeps (a n) {r : SlotRes} (h : r.Keeps was) : (remoteAligned a n r).Keeps was := by
  unfold remoteAligned; split <;> simp [h]

/-! ### Folds and pairs -/

@[simp] theorem foldl_lasting {α : Type} (f : State → α → State) (h : ∀ s a, (f s a).lasting = s.lasting) (l : List α) (s : State) :
    (l.foldl f s).lasting = s.lasting := by
  induction l generalizing s with
  | nil => rfl
  | cons a l ih => exact (ih _).trans (h s a)

@[simp] theorem foldl_fst_lasting {α β : Type} (f : State × β → α → State × β) (h : ∀ p a, (f p a).1.lasting = p.1.lasting)
    (l : List α) (p : State × β) : (l.foldl f p).1.lasting = p.1.lasting := by
  induction l generalizing p with
  | nil => rfl
  | cons a l ih => exact (ih _).trans (h p a)

theorem foldl_keeps {α : Type} (f : State → α → State) (h : ∀ s a, was.KeptBy s.lasting → was.KeptBy (f s a).lasting) (l : List α)
    (s : State) (hs : was.KeptBy s.lasting) : was.KeptBy (l.foldl f s).lasting := by
  induction l generalizing s with
  | nil => exact hs
  | cons a l ih => exact ih _ (h s a hs)

theorem foldl_bind_none {α β : Type} (f : β → α → Option β) (l : List α) :
    l.foldl (fun acc a => acc.bind fun s => f s a) none = none := by
  induction l with
  | nil => rfl
  | cons a l ih => exact ih

theorem foldl_bind_lasting {α : Type} (f : State → α → Option State) (h : ∀ s a t, f s a = some t → t.lasting = s.lasting) (l : List α)
    (s : State) {t} (e : l.foldl (fun acc a => acc.bind fun s => f s a) (some s) = some t) : t.lasting = s.lasting := by
  induction l generalizing s with
  | nil => cases e; rfl
  | cons a l ih =>
    cases hf : f s a with
    | none => simp [hf, foldl_bind_none] at e
    | some u => exact (ih u (by simpa [hf] using e)).trans (h s a u hf)

theorem lasting_of_fst {α : Type} {p : State × α} {l : Lasting} (h : p.1.lasting = l) {t a} (e : p = (t, a)) : t.lasting = l := by
  subst e; exact h

theorem lasting_of_snd {α : Type} {p : α × State} {l : Lasting} (h : p.2.lasting = l) {a t} (e : p = (a, t)) : t.lasting = l := by
  subst e; exact h

/-! ### The shared operations (Machine/Ops.lean) -/

@[simp] theorem State.setReg_lasting (s : State) (n i j v) : (s.setReg n i j v).lasting = s.lasting := (rfl)
@[simp] theorem State.setFld_lasting (s : State) (f v i j) : (s.setFld f v i j).lasting = s.lasting := (rfl)
@[simp] theorem State.count_lasting (s : State) (f k i j) : (s.count f k i j).lasting = s.lasting := (rfl)
@[simp] theorem State.badWrite_lasting (s : State) (off) : (s.badWrite off).lasting = s.lasting := (rfl)
@[simp] theorem State.badRead_lasting (s : State) (off) : (s.badRead off).lasting = s.lasting := (rfl)
@[simp] theorem State.setPhase_lasting (s : State) (p) : (s.setPhase p).lasting = s.lasting := (rfl)
@[simp] theorem State.fail_lasting (s : State) (code) : (s.fail code).lasting = s.lasting := (rfl)
@[simp] theorem State.tick_lasting (s : State) (dt) : (s.tick dt).lasting = s.lasting := (rfl)
@[simp] theorem State.draw_lasting (s : State) (n) : (s.draw n).2.lasting = s.lasting := (rfl)
@[simp] theorem State.programEntry_lasting (s : State) (seq bytes) : (s.programEntry seq bytes).lasting = s.lasting := (rfl)
@[simp] theorem State.programLog_lasting (s : State) : s.programLog.lasting = s.lasting := by simp [State.programLog]
@[simp] theorem State.logAppend_lasting (s : State) (typ body) : (s.logAppend typ body).lasting = s.lasting := by simp [State.logAppend]
@[simp] theorem State.addEvent_lasting (s : State) (u k) : (s.addEvent u k).lasting = s.lasting := (rfl)
@[simp] theorem State.mgmtSend_lasting (s : State) (m) : (s.mgmtSend m).lasting = s.lasting := (rfl)
@[simp] theorem State.faultPush_lasting (s : State) (rec_) : (s.faultPush rec_).lasting = s.lasting := by fun_cases State.faultPush <;> rfl
@[simp] theorem State.fileRecord_lasting (s : State) (slice rec_) : (s.fileRecord slice rec_).lasting = s.lasting := by simp [State.fileRecord]
@[simp] theorem State.logDrop_lasting (s : State) : s.logDrop.lasting = s.lasting := (rfl)
@[simp] theorem State.faultRecord_lasting (s : State) (unit cls source pattern slice addr count) :
    (s.faultRecord unit cls source pattern slice addr count).lasting = s.lasting := by simp [State.faultRecord]
@[simp] theorem State.setCmd_lasting (s : State) (c) : (s.setCmd c).lasting = s.lasting := (rfl)
@[simp] theorem State.finish_lasting (s : State) (c status outputs count) : (s.finish c status outputs count).lasting = s.lasting := (rfl)
@[simp] theorem State.refuse_lasting (s : State) (c status) : (s.refuse c status).lasting = s.lasting := (rfl)

/-! ### The command rings (Machine/Rings.lean) -/

@[simp] theorem State.setRing_lasting (s : State) (r x) : (s.setRing r x).lasting = s.lasting := (rfl)

@[simp] theorem State.writeRegion_keeps (s : State) (off data) (h : was.KeptBy s.lasting) : was.KeptBy (s.writeRegion off data).lasting := by
  unfold State.writeRegion
  split
  · exact h.ringMem_update (memWrite_wf _ _ _)
  · simp [h]

@[simp] theorem State.updateStatus_lasting (s : State) (r) : (s.updateStatus r).lasting = s.lasting := (rfl)
@[simp] theorem State.writeRingcfg_lasting (s : State) (r data) : (s.writeRingcfg r data).lasting = s.lasting := by simp [State.writeRingcfg]
@[simp] theorem State.spendCounter_lasting (s : State) (d ctr) : (s.spendCounter d ctr).lasting = s.lasting := (rfl)
@[simp] theorem State.critical_lasting (s : State) (d ctr msg tag cust) : (s.critical d ctr msg tag cust).2.lasting = s.lasting := by
  fun_cases State.critical <;> rfl
@[simp] theorem State.refuseEntry_lasting (s : State) (c st) : (s.refuseEntry c st).lasting = s.lasting := by simp [State.refuseEntry]

theorem State.consumeOne_lasting (s : State) (r) {t} (e : s.consumeOne r = some t) : t.lasting = s.lasting := by
  unfold State.consumeOne at e
  simp only [Option.ite_none_right_eq_some, Option.some.injEq] at e
  obtain ⟨-, rfl⟩ := e
  simp only [State.updateStatus_lasting]
  split <;> simp

@[simp] theorem State.consumeAll_lasting (s : State) (r c) : (s.consumeAll r c).lasting = s.lasting := by
  fun_induction State.consumeAll with
  | case1 => rfl
  | case2 s n t e ih => exact ih.trans (State.consumeOne_lasting _ _ e)
  | case3 => rfl

@[simp] theorem State.ringScan_lasting (s : State) (r dt) : (s.ringScan r dt).lasting = s.lasting := by simp [State.ringScan]
@[simp] theorem State.startCmd_lasting (s : State) (c) : (s.startCmd c).lasting = s.lasting := by simp only [State.startCmd]; (repeat' split) <;> simp
@[simp] theorem State.commandStart_lasting (s : State) (r seq) : (s.commandStart r seq).lasting = s.lasting := by
  unfold State.commandStart; split <;> simp

@[simp] theorem State.advanceCompleted_lasting (s : State) (r c) : (s.advanceCompleted r c).lasting = s.lasting := by
  fun_induction State.advanceCompleted with
  | case1 => rfl
  | case2 s n x c e hc t ih => exact ih.trans (by simp +zetaDelta)
  | case3 => rfl
  | case4 => rfl

@[simp] theorem State.logCommand_lasting (s : State) (c) : (s.logCommand c).lasting = s.lasting := by simp [State.logCommand]

@[simp] theorem State.writeRecord_keeps (s : State) (c) (h : was.KeptBy s.lasting) : was.KeptBy (s.writeRecord c).lasting := by
  unfold State.writeRecord
  simp only [State.ite_lasting, State.count_lasting, ite_self, Lasting.keptBy_ite]
  split
  · exact h
  · exact h.ringMem_update (memWrite_wf _ _ _)

@[simp] theorem State.takeKey_keeps (s : State) (c) (h : was.KeptBy s.lasting) : was.KeptBy (s.takeKey c).lasting := by
  unfold State.takeKey
  split
  · exact ⟨h.pending, h.ringMem, h.record, fun _ => ‹_›, h.retired⟩
  · exact h

@[simp] theorem State.complete_keeps (s : State) (c) (h : was.KeptBy s.lasting) : was.KeptBy (s.complete c).lasting := by
  fun_cases State.complete <;> simp +zetaDelta [h]
@[simp] theorem State.commandComplete_keeps (s : State) (r seq dt) (h : was.KeptBy s.lasting) : was.KeptBy (s.commandComplete r seq dt).lasting := by
  fun_cases State.commandComplete <;> simp +zetaDelta [h]
@[simp] theorem State.nopRun_lasting (s : State) (r seq) : (s.nopRun r seq).lasting = s.lasting := by unfold State.nopRun; split <;> simp

/-! ### What survives a reset (Machine/Reset.lean) -/

@[simp] theorem State.lose_keeps (s : State) (h : was.KeptBy s.lasting) : was.KeptBy s.lose.lasting :=
  ⟨h.pending, fun _ => rfl, h.record, h.ock, h.retired⟩

/-! ### Power, thermal limits and clocks (Machine/Power.lean) -/

@[simp] theorem State.logPower_lasting (s : State) (event die temp diode) : (s.logPower event die temp diode).lasting = s.lasting := (rfl)
@[simp] theorem State.throttleSample_lasting (s : State) (d) : (s.throttleSample d).lasting = s.lasting := by simp [State.throttleSample]
@[simp] theorem State.trip_keeps (s : State) (diode) (h : was.KeptBy s.lasting) : was.KeptBy (s.trip diode).lasting := by simp [State.trip, h]
@[simp] theorem State.thermalSample_keeps (s : State) (diodes) (h : was.KeptBy s.lasting) : was.KeptBy (s.thermalSample diodes).lasting := by
  fun_cases State.thermalSample <;> simp +zetaDelta [h]
@[simp] theorem State.paceSlice_lasting (s : State) (pool sl) : (s.paceSlice pool sl).lasting = s.lasting := (rfl)
@[simp] theorem State.paceEmergency_lasting (s : State) (sl) : (s.paceEmergency sl).lasting = s.lasting := by simp [State.paceEmergency]
@[simp] theorem State.governorPass_lasting (s : State) (draws inputDeciwatts) : (s.governorPass draws inputDeciwatts).lasting = s.lasting := by
  simp [State.governorPass]
@[simp] theorem State.railStepDie_lasting (s : State) (inputDeciwatts d) : (s.railStepDie inputDeciwatts d).lasting = s.lasting := (rfl)
@[simp] theorem State.railStep_lasting (s : State) (inputDeciwatts) : (s.railStep inputDeciwatts).lasting = s.lasting := by simp [State.railStep]
@[simp] theorem State.sensePublish_lasting (s : State) (dt diodes volts milliamps deciwatts railAmps rails i3c) :
    (s.sensePublish dt diodes volts milliamps deciwatts railAmps rails i3c).lasting = s.lasting := by simp [State.sensePublish]
@[simp] theorem State.i3cPoll_lasting (s : State) (readings) : (s.i3cPoll readings).lasting = s.lasting := by simp [State.i3cPoll]
@[simp] theorem State.i3cHotJoin_lasting (s : State) (device) : (s.i3cHotJoin device).lasting = s.lasting := by simp [State.i3cHotJoin]
@[simp] theorem State.logTime_lasting (s : State) (event step) : (s.logTime event step).lasting = s.lasting := (rfl)
@[simp] theorem State.lockStep_lasting (s : State) (offset) : (s.lockStep offset).lasting = s.lasting := by simp [State.lockStep]

/-! ### Units under fault and the retirement record (Machine/Units.lean) -/

@[simp] theorem State.saveWindows_lasting (s : State) : s.saveWindows.lasting = s.lasting := (rfl)
@[simp] theorem State.report_lasting (s : State) (unit cls source pattern slice addr) :
    (s.report unit cls source pattern slice addr).lasting = s.lasting := by simp [State.report]
@[simp] theorem State.setDepot_lasting (s : State) (j d) : (s.setDepot j d).lasting = s.lasting := (rfl)
@[simp] theorem State.retireEffect_lasting (s : State) (u) : (s.retireEffect u).lasting = s.lasting := by simp [State.retireEffect]

@[simp] theorem State.retireOne_keeps (s : State) (u cls source pattern) (h : was.KeptBy s.lasting) :
    was.KeptBy (s.retireOne u cls source pattern).lasting := by
  unfold State.retireOne
  split
  · exact h
  · simp only [State.retireEffect_lasting, State.report_lasting, State.saveWindows_lasting]
    exact ⟨h.pending, h.ringMem, h.record, h.ock, h.retired.trans (List.prefix_append _ _)⟩

@[simp] theorem State.retireUnit_keeps (s : State) (u cls source pattern) (h : was.KeptBy s.lasting) :
    was.KeptBy (s.retireUnit u cls source pattern).lasting := by fun_cases State.retireUnit <;> simp +zetaDelta [h]
@[simp] theorem State.retirePermanent_keeps (s : State) (u source) (h : was.KeptBy s.lasting) : was.KeptBy (s.retirePermanent u source).lasting := by
  unfold State.retirePermanent; split <;> simp [h]
@[simp] theorem State.transient_keeps (s : State) (u source slice addr) (h : was.KeptBy s.lasting) :
    was.KeptBy (s.transient u source slice addr).lasting := by fun_cases State.transient <;> simp +zetaDelta [h]
@[simp] theorem State.uncorrectable_keeps (s : State) (u source slice addr) (h : was.KeptBy s.lasting) :
    was.KeptBy (s.uncorrectable u source slice addr).lasting := by fun_cases State.uncorrectable <;> simp +zetaDelta [h]

/-! ### The flash Depots (Machine/Depot.lean) -/

@[simp] theorem State.flushNow_lasting (s : State) (j l) : (s.flushNow j l).lasting = s.lasting := by simp [State.flushNow]
@[simp] theorem State.journalFlush_lasting (s : State) (j l next dt) : (s.journalFlush j l next dt).lasting = s.lasting := by
  simp [State.journalFlush]
@[simp] theorem State.logDepot_lasting (s : State) (event j l ns detail) : (s.logDepot event j l ns detail).lasting = s.lasting := by
  simp [State.logDepot]
@[simp] theorem State.depotWrite_lasting (s : State) (j ns unit block) : (s.depotWrite j ns unit block).lasting = s.lasting := by
  fun_cases State.depotWrite <;> simp +zetaDelta
@[simp] theorem State.depotTrim_lasting (s : State) (j ns unit) : (s.depotTrim j ns unit).lasting = s.lasting := by simp [State.depotTrim]
@[simp] theorem State.batchClose_lasting (s : State) (j l place parity dt) : (s.batchClose j l place parity dt).lasting = s.lasting := by
  fun_cases State.batchClose <;> rfl
@[simp] theorem State.applyTrims_lasting (s : State) (j l) : (s.applyTrims j l).lasting = s.lasting := by fun_cases State.applyTrims <;> simp
@[simp] theorem State.batchProgramDone_lasting (s : State) (j l batch) : (s.batchProgramDone j l batch).lasting = s.lasting := by
  fun_cases State.batchProgramDone <;> simp
@[simp] theorem State.retireBlock_keeps (s : State) (j l b) (h : was.KeptBy s.lasting) : was.KeptBy (s.retireBlock j l b).lasting := by
  fun_cases State.retireBlock <;> simp +zetaDelta [h]
@[simp] theorem State.programFailure_keeps (s : State) (j l batch ch die block place) (h : was.KeptBy s.lasting) :
    was.KeptBy (s.programFailure j l batch ch die block place).lasting := by fun_cases State.programFailure <;> simp +zetaDelta [h]
@[simp] theorem State.eraseFailure_keeps (s : State) (j l ch die block) (h : was.KeptBy s.lasting) :
    was.KeptBy (s.eraseFailure j l ch die block).lasting := by fun_cases State.eraseFailure <;> simp +zetaDelta [h]
@[simp] theorem State.blockCloseVerify_lasting (s : State) (j l ch die block weak place) :
    (s.blockCloseVerify j l ch die block weak place).lasting = s.lasting := by simp [State.blockCloseVerify]
@[simp] theorem State.fold_lasting (s : State) (j l ch die block place) : (s.fold j l ch die block place).lasting = s.lasting := by simp [State.fold]
@[simp] theorem State.garbageCollect_lasting (s : State) (j l place) : (s.garbageCollect j l place).lasting = s.lasting := by
  fun_cases State.garbageCollect <;> rfl
@[simp] theorem State.blockErase_lasting (s : State) (j l ch die block) : (s.blockErase j l ch die block).lasting = s.lasting := by
  simp [State.blockErase]
@[simp] theorem State.blockRefresh_lasting (s : State) (j l ch die block place) : (s.blockRefresh j l ch die block place).lasting = s.lasting := by
  simp [State.blockRefresh]
@[simp] theorem State.checkpointSegment_lasting (s : State) (j l ns segment) : (s.checkpointSegment j l ns segment).lasting = s.lasting := by
  simp [State.checkpointSegment]
@[simp] theorem State.counterCheckpoint_lasting (s : State) (j l) : (s.counterCheckpoint j l).lasting = s.lasting := by simp [State.counterCheckpoint]
@[simp] theorem State.superblockUpdate_lasting (s : State) (j l) : (s.superblockUpdate j l).lasting = s.lasting := by simp [State.superblockUpdate]
@[simp] theorem State.readSlot_keeps (s : State) (j l p step) (h : was.KeptBy s.lasting) : was.KeptBy (s.readSlot j l p step).lasting := by
  fun_cases State.readSlot <;> simp +zetaDelta [h]
@[simp] theorem State.slotRead_keeps (s : State) (j ns unit step) (h : was.KeptBy s.lasting) : was.KeptBy (s.slotRead j ns unit step).lasting := by
  fun_cases State.slotRead <;> simp +zetaDelta [h]

@[simp] theorem State.mediaPatrol_keeps (s : State) (j l steps) (h : was.KeptBy s.lasting) : was.KeptBy (s.mediaPatrol j l steps).lasting := by
  unfold State.mediaPatrol
  split
  · exact foldl_keeps _ (fun s e hs => by simp [hs]) _ _ h
  · exact h

@[simp] theorem State.dieRetire_lasting (s : State) (j ch die unreadable place) : (s.dieRetire j ch die unreadable place).lasting = s.lasting := by
  simp [State.dieRetire]
@[simp] theorem State.nandCommandTimeout_keeps (s : State) (j ch die cleared dt) (h : was.KeptBy s.lasting) :
    was.KeptBy (s.nandCommandTimeout j ch die cleared dt).lasting := by fun_cases State.nandCommandTimeout <;> simp +zetaDelta [h]
@[simp] theorem State.nandTempRead_lasting (s : State) (j temps) : (s.nandTempRead j temps).lasting = s.lasting := by
  unfold State.nandTempRead; split <;> simp
@[simp] theorem State.keyTableUpdate_lasting (s : State) (j) : (s.keyTableUpdate j).lasting = s.lasting := by simp [State.keyTableUpdate]
@[simp] theorem State.namespaceCreate_lasting (s : State) (j ns size slice dies) : (s.namespaceCreate j ns size slice dies).lasting = s.lasting :=
  (rfl)
@[simp] theorem State.namespaceMark_lasting (s : State) (j ns) : (s.namespaceMark j ns).lasting = s.lasting := by simp [State.namespaceMark]
@[simp] theorem State.namespaceFinish_lasting (s : State) (j ns) : (s.namespaceFinish j ns).lasting = s.lasting := by simp [State.namespaceFinish]
@[simp] theorem State.namespaceDestroy_lasting (s : State) (j ns) : (s.namespaceDestroy j ns).lasting = s.lasting := by simp [State.namespaceDestroy]
@[simp] theorem State.namespaceDestroyStep_lasting (s : State) (j ns) : (s.namespaceDestroyStep j ns).lasting = s.lasting := by
  simp [State.namespaceDestroyStep]
@[simp] theorem State.rebuild_lasting (s : State) (j l bad failedDies ms) : (s.rebuild j l bad failedDies ms).lasting = s.lasting := by
  simp [State.rebuild]

/-! ### The memory tiers (Machine/Memory.lean) -/

@[simp] theorem State.charge_lasting (s : State) (h sl tier bytes) : (s.charge h sl tier bytes).lasting = s.lasting := by simp [State.charge]
@[simp] theorem State.discharge_lasting (s : State) (h) : (s.discharge h).lasting = s.lasting := (rfl)
@[simp] theorem State.setAlloc_lasting (s : State) (id a) : (s.setAlloc id a).lasting = s.lasting := (rfl)
@[simp] theorem State.touchRead_lasting (s : State) (id off n) : (s.touchRead id off n).lasting = s.lasting := (rfl)
@[simp] theorem State.writeFlash_lasting (s : State) (id off n) : (s.writeFlash id off n).lasting = s.lasting := by
  fun_cases State.writeFlash <;> simp +zetaDelta (disch := intros; split <;> simp)
@[simp] theorem State.allocStore_lasting (s : State) (id off bs) : (s.allocStore id off bs).lasting = s.lasting := by
  unfold State.allocStore; split <;> simp

@[simp] theorem State.markLost_lasting (s : State) (old) : (s.markLost old).lasting = s.lasting := by
  unfold State.markLost
  refine foldl_lasting _ (fun s e => ?_) _ _
  split
  · rfl
  · refine foldl_lasting _ (fun s b => ?_) _ _
    split <;> simp

@[simp] theorem State.setPage_lasting (s : State) (id page tier) : (s.setPage id page tier).lasting = s.lasting := (rfl)
@[simp] theorem State.pressure_lasting (s : State) (sl need) : (s.pressure sl need).lasting = s.lasting := by simp [State.pressure]
@[simp] theorem State.pressureHot_lasting (s : State) (sl f size) : (s.pressureHot sl f size).lasting = s.lasting := by simp [State.pressureHot]
@[simp] theorem State.pressureLocal_lasting (s : State) (sl size taken n) : (s.pressureLocal sl size taken n).lasting = s.lasting := by
  simp [State.pressureLocal]
@[simp] theorem State.addAlloc_lasting (s : State) (a) : (s.addAlloc a).1.lasting = s.lasting := (rfl)
@[simp] theorem State.clearRecord_lasting (s : State) (tstart unit fromSl toSl result cause bytes addr) :
    (s.clearRecord tstart unit fromSl toSl result cause bytes addr).lasting = s.lasting := by simp [State.clearRecord]
@[simp] theorem State.clearAlloc_lasting (s : State) (a cause) : (s.clearAlloc a cause).lasting = s.lasting := by simp [State.clearAlloc]

@[simp] theorem State.freeAlloc_lasting (s : State) (id) : (s.freeAlloc id).lasting = s.lasting := by
  unfold State.freeAlloc
  split
  · rfl
  · simp only [State.lasting_mk, State.lasting_eta]
    refine foldl_lasting _ (fun s x => foldl_lasting _ (fun s k => ?_) _ _) _ _
    split <;> simp

@[simp] theorem State.startMove_lasting (s : State) (id page dest) : (s.startMove id page dest).lasting = s.lasting := (rfl)

@[simp] theorem State.tierIntervalEnd_lasting (s : State) : s.tierIntervalEnd.lasting = s.lasting := by
  unfold State.tierIntervalEnd
  split
  · rfl
  · extract_lets s1 s2 s3
    have h2 : s2.lasting = s1.lasting := by
      unfold s2
      split
      · exact foldl_lasting _ (fun s e => by split <;> simp) _ _
      · rfl
    have h3 : s3.lasting = s.lasting := h2
    simp [h3]

@[simp] theorem State.pageMoveCopyDone_lasting (s : State) (i) : (s.pageMoveCopyDone i).lasting = s.lasting := by
  unfold State.pageMoveCopyDone; split <;> simp
@[simp] theorem State.pageMoveSourceFree_lasting (s : State) (i) : (s.pageMoveSourceFree i).lasting = s.lasting := by
  unfold State.pageMoveSourceFree; split <;> simp
@[simp] theorem State.rehome_lasting (s : State) (id page tier) : (s.rehome id page tier).lasting = s.lasting := by unfold State.rehome; split <;> rfl
@[simp] theorem State.drainPage_lasting (s : State) (id page) : (s.drainPage id page).1.lasting = s.lasting := by
  fun_cases State.drainPage <;> simp +zetaDelta

@[simp] theorem State.memoryUnitDrain_lasting (s : State) (u) : (s.memoryUnitDrain u).lasting = s.lasting := by
  simp [State.memoryUnitDrain]

@[simp] theorem State.addPoison_lasting (s : State) (site) : (s.addPoison site).lasting = s.lasting := by simp [State.addPoison]
@[simp] theorem State.frameCorrected_keeps (s : State) (f) (h : was.KeptBy s.lasting) : was.KeptBy (s.frameCorrected f).lasting := by
  fun_cases State.frameCorrected <;> simp +zetaDelta [h]
@[simp] theorem State.corrected_keeps (s : State) (site) (h : was.KeptBy s.lasting) : was.KeptBy (s.corrected site).lasting := by
  fun_cases State.corrected <;> simp +zetaDelta [h]
@[simp] theorem State.uncorrected_keeps (s : State) (site) (h : was.KeptBy s.lasting) : was.KeptBy (s.uncorrected site).lasting := by
  fun_cases State.uncorrected <;> simp +zetaDelta [h]
@[simp] theorem State.eccEvent_keeps (s : State) (site found) (h : was.KeptBy s.lasting) : was.KeptBy (s.eccEvent site found).lasting := by
  fun_cases State.eccEvent <;> simp +zetaDelta [h]
@[simp] theorem State.sramScrub_keeps (s : State) (site found) (h : was.KeptBy s.lasting) : was.KeptBy (s.sramScrub site found).lasting := by
  simp [State.sramScrub, h]
@[simp] theorem State.dramPatrol_keeps (s : State) (site found last) (h : was.KeptBy s.lasting) :
    was.KeptBy (s.dramPatrol site found last).lasting := by simp [State.dramPatrol, h]
@[simp] theorem State.blockEncode_keeps (s : State) (engine id b ok) (h : was.KeptBy s.lasting) :
    was.KeptBy (s.blockEncode engine id b ok).lasting := by fun_cases State.blockEncode <;> simp +zetaDelta [h]
@[simp] theorem State.blockDecode_keeps (s : State) (engine id b payload desc secondOk) (h : was.KeptBy s.lasting) :
    was.KeptBy (s.blockDecode engine id b payload desc secondOk).lasting := by fun_cases State.blockDecode <;> simp +zetaDelta [h]

/-! ### Consists (Machine/Consists.lean) -/

@[simp] theorem State.place_lasting (s : State) (sl consist num lframe name size f tier pages init) :
    (s.place sl consist num lframe name size f tier pages init).1.lasting = s.lasting := by simp [State.place]

theorem State.placeEntry_lasting (s : State) (sl handle data b) {t} (e : s.placeEntry sl handle data b = some t) : t.1.lasting = s.lasting := by
  unfold State.placeEntry at e
  simp only at e
  split at e
  · cases e; simp
  · obtain ⟨p, -, rfl⟩ := Option.map_eq_some_iff.1 e
    simp

theorem State.placeLocals_lasting (s : State) (sl handle nframes taken data b) {t} (e : s.placeLocals sl handle nframes taken data b = some t) :
    t.1.lasting = s.lasting := by
  obtain ⟨tier, -, rfl⟩ := Option.map_eq_some_iff.1 e
  simp

theorem State.placeAll_lasting (sl handle nframes data) (es : List Bytes) (s : State) (taken m) {t}
    (e : State.placeAll sl handle nframes data es s taken m = some t) : t.1.lasting = s.lasting := by
  induction es generalizing s taken m with
  | nil => cases e; rfl
  | cons b es ih =>
    unfold State.placeAll at e
    split at e
    · split at e
      · exact (ih _ _ _ e).trans (State.placeLocals_lasting _ _ _ _ _ _ _ ‹_›)
      · cases e
    · split at e
      · exact (ih _ _ _ e).trans (State.placeEntry_lasting _ _ _ _ _ ‹_›)
      · cases e

theorem State.placeFixed_lasting (s : State) (sl handle num size init m) {t} (e : s.placeFixed sl handle num size init m = some t) :
    t.1.lasting = s.lasting := by
  unfold State.placeFixed at e
  split at e
  · cases e; rfl
  · obtain ⟨p, -, rfl⟩ := Option.map_eq_some_iff.1 e
    simp

theorem State.loadConsist_lasting (s : State) (sl b) {t} (e : s.loadConsist sl b = .inr t) : t.1.lasting = s.lasting := by
  unfold State.loadConsist at e
  split at e
  · cases e
  · dsimp only at e
    split at e
    · cases e
    · next placed =>
      cases e
      obtain ⟨u, hu, placed⟩ := Option.bind_eq_some_iff.1 placed
      obtain ⟨v, hv, placed⟩ := Option.bind_eq_some_iff.1 placed
      simpa using (State.placeFixed_lasting _ _ _ _ _ _ _ placed).trans
        ((State.placeFixed_lasting _ _ _ _ _ _ _ hv).trans (State.placeAll_lasting _ _ _ _ _ _ _ _ hu))

@[simp] theorem State.loadPart_lasting (s : State) (c total off) : (s.loadPart c total off).lasting = s.lasting := by
  fun_cases State.loadPart <;> simp
@[simp] theorem State.dropStaging_lasting (s : State) (r) : (s.dropStaging r).lasting = s.lasting := (rfl)

@[simp] theorem State.loadCheck_lasting (s : State) (c) : (s.loadCheck c).lasting = s.lasting := by
  fun_cases State.loadCheck <;> simp +zetaDelta
  exact (State.loadConsist_lasting _ _ _ ‹_›).trans (State.dropStaging_lasting _ _)

@[simp] theorem State.loadRun_lasting (s : State) (r seq) : (s.loadRun r seq).lasting = s.lasting := by unfold State.loadRun; split <;> simp
@[simp] theorem State.unmapAlloc_lasting (s : State) (id) : (s.unmapAlloc id).lasting = s.lasting := (rfl)
@[simp] theorem State.leaveAlloc_lasting (s : State) (handle id) : (s.leaveAlloc handle id).lasting = s.lasting := by
  unfold State.leaveAlloc; split <;> simp
@[simp] theorem State.unloadConsist_lasting (s : State) (handle) : (s.unloadConsist handle).lasting = s.lasting := by
  unfold State.unloadConsist; split <;> simp
@[simp] theorem State.unloadRun_lasting (s : State) (r seq) : (s.unloadRun r seq).lasting = s.lasting := by unfold State.unloadRun; split <;> simp

/-! ### Runs (Machine/Runs.lean) -/

@[simp] theorem State.setRun_lasting (s : State) (id r) : (s.setRun id r).lasting = s.lasting := (rfl)
@[simp] theorem State.setFrame_lasting (s : State) (f x) : (s.setFrame f x).lasting = s.lasting := (rfl)
@[simp] theorem State.resetLocals_lasting (s : State) (k) : (s.resetLocals k).lasting = s.lasting := by simp [State.resetLocals]

@[simp] theorem State.beginRun_keeps (s : State) (id) (r : Run) (k c phys) (h : was.KeptBy s.lasting) :
    was.KeptBy (s.beginRun id r k c phys).lasting := by
  unfold State.beginRun
  simp only [State.setRun_lasting, State.setFrame_lasting, foldl_lasting, implies_true, State.lasting_mk, State.lasting_eta,
    State.resetLocals_lasting]
  refine Lasting.KeptBy.ringMem_update (s := List.foldl _ s _) ?_ (memZero_wf _ _ _)
  simp [h]

@[simp] theorem State.runCmd_lasting (s : State) (r seq) : (s.runCmd r seq).lasting = s.lasting := by fun_cases State.runCmd <;> rfl
@[simp] theorem State.runStart_keeps (s : State) (r seq) (h : was.KeptBy s.lasting) : was.KeptBy (s.runStart r seq).lasting := by
  fun_cases State.runStart <;> simp +zetaDelta [h]
@[simp] theorem State.countHalt_lasting (s : State) (cause) : (s.countHalt cause).lasting = s.lasting := by simp [State.countHalt]
@[simp] theorem State.endFrame_lasting (s : State) (f slot cause code addr) : (s.endFrame f slot cause code addr).lasting = s.lasting := by
  unfold State.endFrame; split <;> simp
@[simp] theorem State.haltPeers_lasting (s : State) (run) : (s.haltPeers run).lasting = s.lasting := (rfl)
@[simp] theorem State.faultFrame_lasting (s : State) (f slot cause addr) : (s.faultFrame f slot cause addr).lasting = s.lasting := by
  unfold State.faultFrame; split <;> simp
@[simp] theorem State.haltFrame_lasting (s : State) (f code) : (s.haltFrame f code).lasting = s.lasting := by simp [State.haltFrame]
@[simp] theorem State.peerHalt_lasting (s : State) (run dt) : (s.peerHalt run dt).lasting = s.lasting := by
  fun_cases State.peerHalt <;> simp +zetaDelta (disch := intros; split <;> simp)
@[simp] theorem State.haltAll_lasting (s : State) (run cause which) : (s.haltAll run cause which).lasting = s.lasting := by
  fun_cases State.haltAll <;> simp +zetaDelta (disch := intros; split <;> simp)
@[simp] theorem State.runTimeout_lasting (s : State) (run dt) : (s.runTimeout run dt).lasting = s.lasting := by
  fun_cases State.runTimeout <;> simp +zetaDelta
@[simp] theorem State.releaseBarrier_lasting (s : State) (run g n) : (s.releaseBarrier run g n).lasting = s.lasting := (rfl)
@[simp] theorem State.arriveBarrier_lasting (s : State) (f g) : (s.arriveBarrier f g).lasting = s.lasting := by
  unfold State.arriveBarrier; split <;> simp
@[simp] theorem State.barTimeout_lasting (s : State) (run dt) : (s.barTimeout run dt).lasting = s.lasting := by
  fun_cases State.barTimeout <;> simp +zetaDelta
@[simp] theorem State.quarantine_keeps (s : State) (f source pattern) (h : was.KeptBy s.lasting) :
    was.KeptBy (s.quarantine f source pattern).lasting := by fun_cases State.quarantine <;> simp +zetaDelta [h]
@[simp] theorem State.checkEvent_keeps (s : State) (f source pattern slice) (h : was.KeptBy s.lasting) :
    was.KeptBy (s.checkEvent f source pattern slice).lasting := by fun_cases State.checkEvent <;> simp +zetaDelta [h]
@[simp] theorem State.frameQuarantine_keeps (s : State) (f) (h : was.KeptBy s.lasting) : was.KeptBy (s.frameQuarantine f).lasting := by
  unfold State.frameQuarantine; split <;> simp [h]
@[simp] theorem State.residue_keeps (s : State) (f k pattern) (h : was.KeptBy s.lasting) : was.KeptBy (s.residue f k pattern).lasting := by
  fun_cases State.residue <;> simp +zetaDelta +contextual [h, foldl_keeps]
@[simp] theorem State.pendingRetire_keeps (s : State) (f) (h : was.KeptBy s.lasting) : was.KeptBy (s.pendingRetire f).lasting := by
  fun_cases State.pendingRetire <;> simp +zetaDelta [h]
@[simp] theorem State.releaseFrames_lasting (s : State) (id) : (s.releaseFrames id).lasting = s.lasting := (rfl)
@[simp] theorem State.runRestart_keeps (s : State) (id) (h : was.KeptBy s.lasting) : was.KeptBy (s.runRestart id).lasting := by
  fun_cases State.runRestart <;> simp +zetaDelta [h]
@[simp] theorem State.endRun_lasting (s : State) (id status) : (s.endRun id status).lasting = s.lasting := by
  fun_cases State.endRun <;> simp +zetaDelta
@[simp] theorem State.runComplete_lasting (s : State) (id) : (s.runComplete id).lasting = s.lasting := by unfold State.runComplete; split <;> simp
@[simp] theorem State.runRetired_lasting (s : State) (id) : (s.runRetired id).lasting = s.lasting := by fun_cases State.runRetired <;> simp

/-! ### Start-up (Machine/Boot.lean) -/

@[simp] theorem State.logBoot_lasting (s : State) : s.logBoot.lasting = s.lasting := (rfl)
@[simp] theorem State.failBoot_lasting (s : State) (code) : (s.failBoot code).lasting = s.lasting := (rfl)
@[simp] theorem State.restoreStationmaster_lasting (s : State) : s.restoreStationmaster.lasting = s.lasting := (rfl)
@[simp] theorem State.trialStart_lasting (s : State) : s.trialStart.lasting = s.lasting := by unfold State.trialStart; split <;> simp
@[simp] theorem State.logLeftovers_lasting (s : State) : s.logLeftovers.lasting = s.lasting := by unfold State.logLeftovers; split <;> simp
@[simp] theorem State.loadRecord_lasting (s : State) : s.loadRecord.lasting = s.lasting := (rfl)
@[simp] theorem State.raiseRails_lasting (s : State) : s.raiseRails.lasting = s.lasting := by fun_cases State.raiseRails <;> simp +zetaDelta
@[simp] theorem State.bootFrom2_lasting (s : State) (kind) : (s.bootFrom2 kind).lasting = s.lasting := by
  fun_cases State.bootFrom2 <;> simp +zetaDelta
@[simp] theorem State.powerOnReset_keeps (s : State) (h : was.KeptBy s.lasting) : was.KeptBy s.powerOnReset.lasting := by
  unfold State.powerOnReset; split <;> simp [h]
@[simp] theorem State.resetDevice_keeps (s : State) (kind) (h : was.KeptBy s.lasting) : was.KeptBy (s.resetDevice kind).lasting := by
  simp [State.resetDevice, h]
@[simp] theorem State.deviceReset_keeps (s : State) (cause) (h : was.KeptBy s.lasting) : was.KeptBy (s.deviceReset cause).lasting := by
  fun_cases State.deviceReset <;> simp +zetaDelta [h]
@[simp] theorem State.resetNAssert_keeps (s : State) (lowNs) (h : was.KeptBy s.lasting) : was.KeptBy (s.resetNAssert lowNs).lasting := by
  fun_cases State.resetNAssert <;> simp +zetaDelta [h]
@[simp] theorem State.thermtripReset_keeps (s : State) (h : was.KeptBy s.lasting) : was.KeptBy s.thermtripReset.lasting := by
  unfold State.thermtripReset; split <;> simp [h]
@[simp] theorem State.watchdogReset_keeps (s : State) (h : was.KeptBy s.lasting) : was.KeptBy s.watchdogReset.lasting := by
  unfold State.watchdogReset; split <;> simp [h]
@[simp] theorem State.shutdown_keeps (s : State) (holdUp) (h : was.KeptBy s.lasting) : was.KeptBy (s.shutdown holdUp).lasting := by
  simp [State.shutdown, h]
@[simp] theorem State.threshold_lasting (s : State) (sure may) : (s.threshold sure may).2.lasting = s.lasting := by fun_cases State.threshold <;> rfl
@[simp] theorem State.undervoltage_keeps (s : State) (mv heldNs holdUp) (h : was.KeptBy s.lasting) :
    was.KeptBy (s.undervoltage mv heldNs holdUp).lasting := by simp only [State.undervoltage]; (repeat' split) <;> simp [h]
@[simp] theorem State.overvoltage_keeps (s : State) (mv heldNs holdUp) (h : was.KeptBy s.lasting) :
    was.KeptBy (s.overvoltage mv heldNs holdUp).lasting := by simp only [State.overvoltage]; (repeat' split) <;> simp [h]
@[simp] theorem State.pwrfail_lasting (s : State) : s.pwrfail.lasting = s.lasting := by simp [State.pwrfail]
@[simp] theorem State.refclk100Loss_keeps (s : State) (h : was.KeptBy s.lasting) : was.KeptBy s.refclk100Loss.lasting := by
  fun_cases State.refclk100Loss <;> simp +zetaDelta [h]
@[simp] theorem State.refclk100Return_keeps (s : State) (h : was.KeptBy s.lasting) : was.KeptBy s.refclk100Return.lasting := by
  fun_cases State.refclk100Return <;> simp +zetaDelta [h]
@[simp] theorem State.crossingFailed_keeps (s : State) (x) (h : was.KeptBy s.lasting) : was.KeptBy (s.crossingFailed x).lasting := by
  fun_cases State.crossingFailed <;> simp +zetaDelta [h]
@[simp] theorem State.alignOutcome_keeps (s : State) (x ok thresholds) (h : was.KeptBy s.lasting) :
    was.KeptBy (s.alignOutcome x ok thresholds).lasting := by fun_cases State.alignOutcome <;> simp +zetaDelta [h]
@[simp] theorem State.crossingAttempt_keeps (s : State) (x pll passes) (h : was.KeptBy s.lasting) :
    was.KeptBy (s.crossingAttempt x pll passes).lasting := by simp [State.crossingAttempt, h]
@[simp] theorem State.alignAttempt_keeps (s : State) (x pll passes) (h : was.KeptBy s.lasting) :
    was.KeptBy (s.alignAttempt x pll passes).lasting := by unfold State.alignAttempt; split <;> simp [h]
@[simp] theorem State.alignRetry_keeps (s : State) (x pll passes) (h : was.KeptBy s.lasting) : was.KeptBy (s.alignRetry x pll passes).lasting := by
  unfold State.alignRetry; split <;> simp [h]
@[simp] theorem State.hbmTraining_keeps (s : State) (stack failing) (h : was.KeptBy s.lasting) :
    was.KeptBy (s.hbmTraining stack failing).lasting := by fun_cases State.hbmTraining <;> simp +zetaDelta +contextual [h, foldl_keeps]

@[simp] theorem State.ddr5Training_keeps (s : State) (dimms) (h : was.KeptBy s.lasting) : was.KeptBy (s.ddr5Training dimms).lasting := by
  unfold State.ddr5Training
  split
  · simp
    exact foldl_keeps _ (fun s d hs => foldl_keeps _ (fun s r hs => by simp [hs]) _ _ hs) _ _ h
  · exact h

@[simp] theorem State.trainNand_keeps (s : State) (j ch i trained) (h : was.KeptBy s.lasting) : was.KeptBy (s.trainNand j ch i trained).lasting := by
  fun_cases State.trainNand <;> simp +zetaDelta [h]
@[simp] theorem State.nandTraining_keeps (s : State) (j ch i trained) (h : was.KeptBy s.lasting) :
    was.KeptBy (s.nandTraining j ch i trained).lasting := by unfold State.nandTraining; split <;> simp [h]
@[simp] theorem State.canaryEnd_keeps (s : State) (u c pattern pass) (h : was.KeptBy s.lasting) :
    was.KeptBy (s.canaryEnd u c pattern pass).lasting := by fun_cases State.canaryEnd <;> simp +zetaDelta [h]
@[simp] theorem State.startupCanaries_keeps (s : State) (failing) (h : was.KeptBy s.lasting) : was.KeptBy (s.startupCanaries failing).lasting := by
  fun_cases State.startupCanaries <;> simp +zetaDelta +contextual [h, foldl_keeps]

@[simp] theorem State.refillAlloc_lasting (s : State) (j id a) : (s.refillAlloc j id a).lasting = s.lasting := by
  unfold State.refillAlloc
  refine foldl_lasting _ (fun s b => ?_) _ _
  split
  · split
    · rfl
    · split <;> simp
  · rfl

@[simp] theorem State.refill_lasting (s : State) (j) : (s.refill j).lasting = s.lasting := by simp [State.refill]
@[simp] theorem State.laneRebuild_lasting (s : State) (j l bad failedDies ms) : (s.laneRebuild j l bad failedDies ms).lasting = s.lasting := by
  simp [State.laneRebuild]
@[simp] theorem State.deviceReady_lasting (s : State) (dt) : (s.deviceReady dt).lasting = s.lasting := by simp [State.deviceReady]

/-! ### Policers, shapers and timetables (Machine/Shaping.lean) -/

@[simp] theorem State.setPort_lasting (s : State) (p x) : (s.setPort p x).lasting = s.lasting := (rfl)
@[simp] theorem State.police_lasting (s : State) (key en rate burst size) : (s.police key en rate burst size).2.lasting = s.lasting := by
  fun_cases State.police <;> rfl
@[simp] theorem State.fillBucket_lasting (s : State) (key burst) : (s.fillBucket key burst).lasting = s.lasting := (rfl)
@[simp] theorem State.policed_lasting (s : State) (p c size) : (s.policed p c size).2.lasting = s.lasting := by
  fun_cases State.policed <;> simp +zetaDelta
@[simp] theorem State.admitCcl_lasting (s : State) (k size) : (s.admitCcl k size).2.lasting = s.lasting := by
  fun_cases State.admitCcl <;> simp +zetaDelta
@[simp] theorem State.setTimetable_lasting (s : State) (l t) : (s.setTimetable l t).lasting = s.lasting := (rfl)
@[simp] theorem State.ttAccept_lasting (s : State) (l n base) : (s.ttAccept l n base).lasting = s.lasting := (rfl)
@[simp] theorem State.ttCommit_lasting (s : State) (r seq dt) : (s.ttCommit r seq dt).lasting = s.lasting := by fun_cases State.ttCommit <;> rfl
@[simp] theorem State.settle_lasting (s : State) (p) : (s.settle p).lasting = s.lasting := by simp [State.settle]
@[simp] theorem State.settleAll_lasting (s : State) : s.settleAll.lasting = s.lasting := by simp [State.settleAll]
@[simp] theorem State.writeShaper_lasting (s : State) (p c v) : (s.writeShaper p c v).lasting = s.lasting := by simp [State.writeShaper]
@[simp] theorem State.refreshGates_lasting (s : State) (l) : (s.refreshGates l).lasting = s.lasting := by fun_cases State.refreshGates <;> rfl

@[simp] theorem State.timetableSwitch_lasting (s : State) (l dt) : (s.timetableSwitch l dt).lasting = s.lasting := by
  unfold State.timetableSwitch
  simp only
  split <;> simp

@[simp] theorem State.timetableEntryBegin_lasting (s : State) (l dt) : (s.timetableEntryBegin l dt).lasting = s.lasting := by
  simp [State.timetableEntryBegin]
@[simp] theorem State.stepClock_lasting (s : State) (now) : (s.stepClock now).lasting = s.lasting := by
  simp (disch := intros; split <;> simp) [State.stepClock]
@[simp] theorem State.sendFlit_lasting (s : State) (p typ slots) : (s.sendFlit p typ slots).lasting = s.lasting := (rfl)
@[simp] theorem State.beginPacket_lasting (s : State) (p c q) : (s.beginPacket p c q).lasting = s.lasting := by simp [State.beginPacket]

/-! ### The fabric (Machine/Fabric.lean) -/

@[simp] theorem State.emit_lasting (s : State) (b) : (s.emit b).lasting = s.lasting := (rfl)
@[simp] theorem State.serveRead_lasting (s : State) (p id off) : (s.serveRead p id off).2.2.lasting = s.lasting := by
  unfold State.serveRead; split <;> rfl
@[simp] theorem State.serveWrite_lasting (s : State) (p id off) : (s.serveWrite p id off).2.2.lasting = s.lasting := by
  unfold State.serveWrite; split <;> simp
@[simp] theorem State.applyAtomic_lasting (s : State) (p id off t) : (s.applyAtomic p id off t).2.2.lasting = s.lasting := by
  fun_cases State.applyAtomic <;> simp +zetaDelta
@[simp] theorem State.serveAtomic_lasting (s : State) (p id off) : (s.serveAtomic p id off).2.2.lasting = s.lasting := by
  fun_cases State.serveAtomic <;> simp
@[simp] theorem State.serveMsg_lasting (s : State) (p) : (s.serveMsg p).2.2.lasting = s.lasting := by fun_cases State.serveMsg <;> rfl
@[simp] theorem State.serve_lasting (s : State) (p) : (s.serve p).2.2.lasting = s.lasting := by fun_cases State.serve <;> simp
@[simp] theorem State.serveRemote_lasting (s : State) (p) : (s.serveRemote p).lasting = s.lasting := by
  simp only [State.serveRemote]; (repeat' split) <;> simp
@[simp] theorem State.releaseAcks_lasting (s : State) : s.releaseAcks.lasting = s.lasting := by simp [State.releaseAcks]
@[simp] theorem State.refuseStale_lasting (s : State) (p) : (s.refuseStale p).lasting = s.lasting := (rfl)
@[simp] theorem State.inboundEpoch_lasting (s : State) (b) : (s.inboundEpoch b).lasting = s.lasting := by simp [State.inboundEpoch]
@[simp] theorem State.takeSlots_lasting (s : State) (port b) : (s.takeSlots port b).lasting = s.lasting := by simp [State.takeSlots]
@[simp] theorem State.badPacket_lasting (s : State) : s.badPacket.lasting = s.lasting := (rfl)
@[simp] theorem State.inbound_lasting (s : State) (op port b dt) : (s.inbound op port b dt).lasting = s.lasting := by simp [State.inbound]
@[simp] theorem State.holdExpiry_lasting (s : State) (hold dt) : (s.holdExpiry hold dt).lasting = s.lasting := by fun_cases State.holdExpiry <;> rfl
@[simp] theorem State.fillLine_lasting (s : State) (l) : (s.fillLine l).lasting = s.lasting := (rfl)
@[simp] theorem State.dropLines_lasting (s : State) (p) : (s.dropLines p).lasting = s.lasting := (rfl)
@[simp] theorem State.inval_lasting (s : State) (slice mode a n) : (s.inval slice mode a n).lasting = s.lasting := by simp [State.inval]
@[simp] theorem State.setReq_lasting (s : State) (id r) : (s.setReq id r).lasting = s.lasting := (rfl)
@[simp] theorem State.countOutcome_lasting (s : State) (st) : (s.countOutcome st).lasting = s.lasting := by simp [State.countOutcome]
@[simp] theorem State.deliver_lasting (s : State) (id r st value) : (s.deliver id r st value).lasting = s.lasting := by
  fun_cases State.deliver <;> rfl
@[simp] theorem State.replyValue_lasting (s : State) (r st data) : (s.replyValue r st data).2.lasting = s.lasting := by
  simp only [State.replyValue]; (repeat' split) <;> simp
@[simp] theorem State.finishReq_lasting (s : State) (id st data) : (s.finishReq id st data).lasting = s.lasting := by
  unfold State.finishReq; split <;> simp
@[simp] theorem State.launch_lasting (s : State) (id) : (s.launch id).lasting = s.lasting := by unfold State.launch; split <;> simp
@[simp] theorem State.releaseStores_lasting (c : State) (ctx b) : (c.releaseStores ctx b).lasting = c.lasting := by
  fun_induction State.releaseStores <;> simp_all
@[simp] theorem State.completeReq_lasting (s : State) (id st data) : (s.completeReq id st data).lasting = s.lasting := by
  fun_cases State.completeReq <;> simp +zetaDelta
@[simp] theorem State.addReq_lasting (s : State) (p frame stage reg size sx lineOff) :
    (s.addReq p frame stage reg size sx lineOff).1.lasting = s.lasting := (rfl)
@[simp] theorem State.dropWritten_lasting (s : State) (addr) : (s.dropWritten addr).lasting = s.lasting := (rfl)
@[simp] theorem State.remoteStore_lasting (s : State) (f size addr v ordered) : (s.remoteStore f size addr v ordered).lasting = s.lasting := by
  simp only [State.remoteStore]; (repeat' split) <;> simp
@[simp] theorem State.replyNow_lasting (s : State) (f d st v) : (s.replyNow f d st v).lasting = s.lasting := by unfold State.replyNow; split <;> rfl
@[simp] theorem State.awaitReply_lasting (s : State) (f id d) : (s.awaitReply f id d).lasting = s.lasting := by
  unfold State.awaitReply; split <;> simp
@[simp] theorem State.remoteLoad_lasting (s : State) (f d size sx addr) : (s.remoteLoad f d size sx addr).lasting = s.lasting := by
  simp only [State.remoteLoad]; (repeat' split) <;> simp
@[simp] theorem State.remoteAtomic_lasting (s : State) (f d addr op ty b c) : (s.remoteAtomic f d addr op ty b c).lasting = s.lasting := by
  simp only [State.remoteAtomic]; (repeat' split) <;> simp
@[simp] theorem State.reply_lasting (s : State) (op b dt) : (s.reply op b dt).lasting = s.lasting := by fun_cases State.reply <;> simp +zetaDelta
@[simp] theorem State.resend_lasting (s : State) (id r retries) : (s.resend id r retries).lasting = s.lasting := by simp [State.resend]
@[simp] theorem State.msgResend_lasting (s : State) (id dt) : (s.msgResend id dt).lasting = s.lasting := by
  fun_cases State.msgResend <;> simp +zetaDelta
@[simp] theorem State.atomicRetry_lasting (s : State) (id dt) : (s.atomicRetry id dt).lasting = s.lasting := by
  fun_cases State.atomicRetry <;> simp +zetaDelta
@[simp] theorem State.unreachable_lasting (s : State) (id dt) : (s.unreachable id dt).lasting = s.lasting := by
  fun_cases State.unreachable <;> simp +zetaDelta
@[simp] theorem State.writeTimeout_lasting (s : State) (id dt) : (s.writeTimeout id dt).lasting = s.lasting := by
  fun_cases State.writeTimeout <;> simp +zetaDelta
@[simp] theorem State.engineReq_lasting (s : State) (b) : (s.engineReq b).1.lasting = s.lasting := (rfl)
@[simp] theorem State.claimReq_lasting (s : State) (b) : (s.claimReq b).1.lasting = s.lasting := by fun_cases State.claimReq <;> rfl
@[simp] theorem State.egressEnqueue_lasting (s : State) (port cls b dt) : (s.egressEnqueue port cls b dt).lasting = s.lasting := by
  simp only [State.egressEnqueue]; (repeat' split) <;> simp
@[simp] theorem State.egressBegin_lasting (s : State) (port dt) : (s.egressBegin port dt).lasting = s.lasting := by
  simp only [State.egressBegin]; (repeat' split) <;> simp
@[simp] theorem State.replayAfter_lasting (s : State) (p seq) : (s.replayAfter p seq).lasting = s.lasting := (rfl)
@[simp] theorem State.nak_lasting (s : State) (p seq) : (s.nak p seq).lasting = s.lasting := by simp [State.nak]
@[simp] theorem State.flitReceive_lasting (s : State) (p f) : (s.flitReceive p f).lasting = s.lasting := by simp [State.flitReceive]

/-! ### Membership epochs and leases (Machine/Epochs.lean) -/

@[simp] theorem State.criticalPacket_lasting (s : State) (b) : (s.criticalPacket b).2.lasting = s.lasting := by simp [State.criticalPacket]
@[simp] theorem State.controlReply_lasting (s : State) (b status) : (s.controlReply b status).lasting = s.lasting := (rfl)
@[simp] theorem State.logPacket_lasting (s : State) (opcode b status) : (s.logPacket opcode b status).lasting = s.lasting := by simp [State.logPacket]
@[simp] theorem State.enterFenced_lasting (s : State) : s.enterFenced.lasting = s.lasting := by simp [State.enterFenced]
@[simp] theorem State.lease_lasting (s : State) (b dt) : (s.lease b dt).lasting = s.lasting := by simp [State.lease]
@[simp] theorem State.leaseExpiry_lasting (s : State) (dt) : (s.leaseExpiry dt).lasting = s.lasting := by
  fun_cases State.leaseExpiry <;> simp +zetaDelta

@[simp] theorem State.fencePacket_lasting (s : State) (b) : (s.fencePacket b).lasting = s.lasting := by
  unfold State.fencePacket
  have hc := s.criticalPacket_lasting b
  generalize s.criticalPacket b = p at hc ⊢
  obtain ⟨_ | st, t⟩ := p <;> simp [hc]

@[simp] theorem State.fenceCmd_lasting (s : State) (r seq) : (s.fenceCmd r seq).lasting = s.lasting := by unfold State.fenceCmd; split <;> simp
@[simp] theorem State.setBar_lasting (s : State) (job b) : (s.setBar job b).lasting = s.lasting := (rfl)
@[simp] theorem State.straggler_lasting (s : State) (last) : (s.straggler last).lasting = s.lasting := by simp [State.straggler]
@[simp] theorem State.memberRelease_lasting (s : State) (job n rank size) : (s.memberRelease job n rank size).lasting = s.lasting := by
  unfold State.memberRelease; split <;> simp
@[simp] theorem State.leaderRelease_lasting (s : State) (job n groupRank) : (s.leaderRelease job n groupRank).lasting = s.lasting := by
  simp [State.leaderRelease]
@[simp] theorem State.groupArrive_lasting (s : State) (job n leader) : (s.groupArrive job n leader).lasting = s.lasting := by simp [State.groupArrive]
@[simp] theorem State.memberArrive_lasting (s : State) (job n node) : (s.memberArrive job n node).lasting = s.lasting := by simp [State.memberArrive]
@[simp] theorem State.joinFabric_lasting (s : State) (run) : (s.joinFabric run).lasting = s.lasting := by
  fun_cases State.joinFabric <;> simp +zetaDelta
@[simp] theorem State.barArrive_lasting (s : State) (b) : (s.barArrive b).lasting = s.lasting := by fun_cases State.barArrive <;> simp
@[simp] theorem State.barRelease_lasting (s : State) (b) : (s.barRelease b).lasting = s.lasting := by fun_cases State.barRelease <;> simp
@[simp] theorem State.breakRuns_lasting (s : State) (job) : (s.breakRuns job).lasting = s.lasting := by simp [State.breakRuns]
@[simp] theorem State.breakBarrier_lasting (s : State) (job tree) : (s.breakBarrier job tree).lasting = s.lasting := by
  unfold State.breakBarrier; split <;> simp
@[simp] theorem State.barBreak_lasting (s : State) (b) : (s.barBreak b).lasting = s.lasting := by simp [State.barBreak]
@[simp] theorem State.serveHolds_lasting (s : State) : s.serveHolds.lasting = s.lasting := by simp [State.serveHolds]
@[simp] theorem State.acceptEpoch_lasting (s : State) (e parts) : (s.acceptEpoch e parts).2.lasting = s.lasting := by
  fun_cases State.acceptEpoch <;> simp +zetaDelta

@[simp] theorem State.epochSetPart_lasting (s : State) (b) : (s.epochSetPart b).lasting = s.lasting := by
  unfold State.epochSetPart
  have hc := s.criticalPacket_lasting b
  generalize s.criticalPacket b = p at hc ⊢
  obtain ⟨_ | st, t⟩ := p <;> simp [hc]

@[simp] theorem State.epochSetCmd_lasting (s : State) (r seq) : (s.epochSetCmd r seq).lasting = s.lasting := by
  unfold State.epochSetCmd; split <;> simp

@[simp] theorem State.endAllFenced_keeps (s : State) (h : was.KeptBy s.lasting) : was.KeptBy s.endAllFenced.lasting := by
  unfold State.endAllFenced
  exact foldl_keeps _ (fun s c hs => by split <;> simp [hs]) _ _ h

@[simp] theorem State.quiesce_keeps (s : State) (h : was.KeptBy s.lasting) : was.KeptBy s.quiesce.lasting := by
  unfold State.quiesce; split <;> simp [h]
@[simp] theorem State.quiesceDepotFlush_lasting (s : State) : s.quiesceDepotFlush.lasting = s.lasting := by simp [State.quiesceDepotFlush]

/-! ### Flags and counters of frame instructions (Machine/Flags.lean) -/

@[simp] theorem State.countRun_lasting (s : State) (run f) : (s.countRun run f).lasting = s.lasting := by unfold State.countRun; split <;> rfl
@[simp] theorem State.countCvtSat_lasting (s : State) (run n) : (s.countCvtSat run n).lasting = s.lasting := by simp [State.countCvtSat]
@[simp] theorem State.countCvtNan_lasting (s : State) (run n) : (s.countCvtNan run n).lasting = s.lasting := by simp [State.countCvtNan]
@[simp] theorem State.countCarrySat_lasting (s : State) (run n) : (s.countCarrySat run n).lasting = s.lasting := by simp [State.countCarrySat]
@[simp] theorem State.countAccSat_lasting (s : State) (run n) : (s.countAccSat run n).lasting = s.lasting := by simp [State.countAccSat]
@[simp] theorem State.flagRow_lasting (s : State) (id bits off codes) : (s.flagRow id bits off codes).lasting = s.lasting := by simp [State.flagRow]

/-! ### Operands of frame instructions (Machine/Operands.lean) -/

@[simp] theorem State.modFrame_lasting (s : State) (f g) : (s.modFrame f g).lasting = s.lasting := (rfl)
@[simp] theorem State.tallyStore_lasting (s : State) (x addr n) : (s.tallyStore x addr n).lasting = s.lasting := by
  unfold State.tallyStore; split <;> simp

@[simp] theorem State.storeRaw_keeps (s : State) (x addr bs) (h : was.KeptBy s.lasting) : was.KeptBy (s.storeRaw x addr bs).lasting := by
  unfold State.storeRaw
  split
  · simp [h]
  · exact h.ringMem_update (memWrite_wf _ _ _)
  · exact h

@[simp] theorem State.frameStore_keeps (s : State) (x addr bs) (h : was.KeptBy s.lasting) : was.KeptBy (s.frameStore x addr bs).lasting := by
  unfold State.frameStore; split <;> simp [h]
@[simp] theorem State.touchAddr_lasting (s : State) (x addr n) : (s.touchAddr x addr n).lasting = s.lasting := by
  unfold State.touchAddr; split <;> rfl

@[simp] theorem State.writeTensor_keeps (s : State) (x t rows flag) (h : was.KeptBy s.lasting) :
    was.KeptBy (s.writeTensor x t rows flag).lasting := by
  unfold State.writeTensor
  refine foldl_keeps _ (fun s r hs => ?_) _ _ h
  dsimp only
  split
  · split <;> simp [hs]
  · simp [hs]

/-! ### The rod array (Machine/Rods.lean) -/

@[simp] theorem State.slab_lasting (s : State) (f j k) : (s.slab f j k).lasting = s.lasting := by unfold State.slab; split <;> simp
@[simp] theorem State.mmaSlabAdd_keeps (s : State) (f residueFailures) (h : was.KeptBy s.lasting) :
    was.KeptBy (s.mmaSlabAdd f residueFailures).lasting := by unfold State.mmaSlabAdd; split <;> simp [h]
@[simp] theorem State.carryCheck_keeps (s : State) (f failures) (h : was.KeptBy s.lasting) : was.KeptBy (s.carryCheck f failures).lasting := by
  unfold State.carryCheck; split <;> simp [h]
@[simp] theorem State.execMmaOp_keeps (s : State) (f x o) (h : was.KeptBy s.lasting) : (s.execMmaOp f x o).Keeps was := by
  fun_cases State.execMmaOp <;> simp +zetaDelta [h]

/-! ### Slot A (Machine/Scalar.lean) -/

@[simp] theorem State.execLd_keeps (s : State) (f x d aa size sx ofs) (h : was.KeptBy s.lasting) : (s.execLd f x d aa size sx ofs).Keeps was := by
  simp [State.execLd, h]
@[simp] theorem State.execSt_keeps (s : State) (x a aa size ofs) (h : was.KeptBy s.lasting) : (s.execSt x a aa size ofs).Keeps was := by
  simp [State.execSt, h]
@[simp] theorem State.execTdld_keeps (s : State) (f x td aa ofs) (h : was.KeptBy s.lasting) : (s.execTdld f x td aa ofs).Keeps was := by
  simp only [State.execTdld]; (repeat' split) <;> simp [h]
@[simp] theorem State.execTdbase_keeps (s : State) (f x td aa) (h : was.KeptBy s.lasting) : (s.execTdbase f x td aa).Keeps was := by
  unfold State.execTdbase; split <;> simp [h]
@[simp] theorem State.execFencep_keeps (s : State) (x count progress) (h : was.KeptBy s.lasting) : (s.execFencep x count progress).Keeps was := by
  simp only [State.execFencep]; (repeat' split) <;> simp [h]
@[simp] theorem State.execWait_keeps (s : State) (f x q d) (h : was.KeptBy s.lasting) : (s.execWait f x q d).Keeps was := by
  fun_cases State.execWait <;> simp +zetaDelta [h]
@[simp] theorem State.execTallyOpen_keeps (s : State) (x slot layer) (h : was.KeptBy s.lasting) : (s.execTallyOpen x slot layer).Keeps was := by
  fun_cases State.execTallyOpen <;> simp +zetaDelta [h]
@[simp] theorem State.execTallyClose_keeps (s : State) (x slot) (h : was.KeptBy s.lasting) : (s.execTallyClose x slot).Keeps was := by
  simp only [State.execTallyClose]; (repeat' split) <;> simp [h]
@[simp] theorem State.execA_keeps (s : State) (f x o) (h : was.KeptBy s.lasting) : (s.execA f x o).Keeps was := by
  fun_cases State.execA <;> simp +zetaDelta [h]

/-! ### Slot V (Machine/Vector.lean) -/

@[simp] theorem State.execVld_keeps (s : State) (f x v mode addrs) (h : was.KeptBy s.lasting) : (s.execVld f x v mode addrs).Keeps was := by
  simp [State.execVld, h]

@[simp] theorem State.execVst_keeps (s : State) (x v mode addrs) (h : was.KeptBy s.lasting) : (s.execVst x v mode addrs).Keeps was := by
  unfold State.execVst
  refine unlessStop_keeps _ ?_
  split
  · simp [h]
  · exact foldl_keeps _ (fun s p hs => by simp [hs]) _ _ h

@[simp] theorem State.execV_keeps (s : State) (f x o) (h : was.KeptBy s.lasting) : (s.execV f x o).Keeps was := by
  unfold State.execV; split <;> simp [h]

/-! ### Tensor instructions (Machine/Tensors.lean) -/

@[simp] theorem State.execCarry_keeps (s : State) (x bank tdd aa perch) (h : was.KeptBy s.lasting) : (s.execCarry x bank tdd aa perch).Keeps was := by
  unfold State.execCarry; split <;> simp [h]
@[simp] theorem State.execQscan_keeps (s : State) (x tds aa gran kind tfmt) (h : was.KeptBy s.lasting) :
    (s.execQscan x tds aa gran kind tfmt).Keeps was := by unfold State.execQscan; split <;> simp [h]

@[simp] theorem State.markSat_keeps (s : State) (x addr groups) (h : was.KeptBy s.lasting) : was.KeptBy (s.markSat x addr groups).lasting := by
  unfold State.markSat
  exact foldl_keeps _ (fun s c hs => by simp [hs]) _ _ h

@[simp] theorem State.convert_keeps (s : State) (x o k sf dst scales recs codes pick) (h : was.KeptBy s.lasting) :
    was.KeptBy (s.convert x o k sf dst scales recs codes pick).lasting := by simp only [State.convert]; (repeat' split) <;> simp [h]
@[simp] theorem State.execQcvt_keeps (s : State) (x o) (h : was.KeptBy s.lasting) : (s.execQcvt x o).Keeps was := by
  simp only [State.execQcvt]; (repeat' split) <;> simp [h]
@[simp] theorem State.execStream_keeps (s : State) (x tds tdd) (h : was.KeptBy s.lasting) : (s.execStream x tds tdd).Keeps was := by
  unfold State.execStream; split <;> simp [h]
@[simp] theorem State.releaseLayers_lasting (s : State) (run alloc w) : (s.releaseLayers run alloc w).lasting = s.lasting := by
  fun_cases State.releaseLayers <;> rfl
@[simp] theorem State.declareLayer_keeps (s : State) (x r alloc w l) (h : was.KeptBy s.lasting) : (s.declareLayer x r alloc w l).Keeps was := by
  fun_cases State.declareLayer <;> simp +zetaDelta [h]
@[simp] theorem State.supplyBitmap_keeps (s : State) (x r alloc w l addr) (h : was.KeptBy s.lasting) :
    (s.supplyBitmap x r alloc w l addr).Keeps was := by simp only [State.supplyBitmap]; (repeat' split) <;> simp [h]
@[simp] theorem State.execPrefetch_keeps (s : State) (x alloc layer route addr) (h : was.KeptBy s.lasting) :
    (s.execPrefetch x alloc layer route addr).Keeps was := by fun_cases State.execPrefetch <;> simp +zetaDelta [h]
@[simp] theorem State.windowFetchDone_lasting (s : State) (run alloc layer) : (s.windowFetchDone run alloc layer).lasting = s.lasting := by
  fun_cases State.windowFetchDone <;> rfl

/-! ### Bundles and frames (Machine/Frames.lean) -/

@[simp] theorem State.execEngine_keeps (s : State) (f x fn addr) (h : was.KeptBy s.lasting) : (s.execEngine f x fn addr).Keeps was := by
  simp [State.execEngine, h]
@[simp] theorem State.execT_keeps (s : State) (f x o) (h : was.KeptBy s.lasting) : (s.execT f x o).Keeps was := by
  unfold State.execT; split <;> simp [h]
@[simp] theorem State.finishMma_lasting (s : State) (f) : (s.finishMma f).lasting = s.lasting := by unfold State.finishMma; split <;> simp
@[simp] theorem State.endBundle_lasting (s : State) (f x b) : (s.endBundle f x b).lasting = s.lasting := by unfold State.endBundle; split <;> simp
@[simp] theorem State.stallBundle_lasting (s : State) (f x window) : (s.stallBundle f x window).lasting = s.lasting := by simp [State.stallBundle]
@[simp] theorem State.stallMove_lasting (s : State) (f x) : (s.stallMove f x).lasting = s.lasting := by simp [State.stallMove]

@[simp] theorem State.partBundle_keeps (s : State) (f x b) (h : was.KeptBy s.lasting) : was.KeptBy (s.partBundle f x b).lasting := by
  have ht := State.execT_keeps s f x b.t h
  unfold State.partBundle
  split
  · next e => rw [e] at ht; simp_all
  · exact h

@[simp] theorem State.execSlots_keeps (s : State) (f x b) (h : was.KeptBy s.lasting) : (s.execSlots f x b).res.Keeps was := by
  have hA : (if x.guard b.ag then s.execA f x b.a else .ok s).Keeps was := by simp [h]
  unfold State.execSlots
  split
  · next s1 e1 =>
    have h1 : was.KeptBy s1.lasting := by simpa [e1] using hA
    have hV : (if x.guard b.vg then s1.execV f x b.v else .ok s1).Keeps was := by simp [h1]
    split
    · next s2 e2 =>
      have h2 : was.KeptBy s2.lasting := by simpa [e2] using hV
      simp [h2]
    · exact hV
  · exact hA

@[simp] theorem State.issue_keeps (s : State) (f x b) (h : was.KeptBy s.lasting) : was.KeptBy (s.issue f x b).lasting := by
  have hr := State.execSlots_keeps s f x b h
  unfold State.issue
  dsimp only
  split
  · next e => rw [e] at hr; simp_all
  all_goals simp [h]

@[simp] theorem State.reachBarrier_lasting (s : State) (f x g) : (s.reachBarrier f x g).lasting = s.lasting := by
  unfold State.reachBarrier; split <;> simp
@[simp] theorem State.bundleIssue_keeps (s : State) (f dt) (h : was.KeptBy s.lasting) : was.KeptBy (s.bundleIssue f dt).lasting := by
  fun_cases State.bundleIssue <;> simp +zetaDelta [h]

/-! ### The selector (Machine/Selector.lean) -/

@[simp] theorem State.countSel_lasting (s : State) (r conflicts invalid) : (s.countSel r conflicts invalid).lasting = s.lasting := by
  simp [State.countSel]
@[simp] theorem State.firstCheck_keeps (s : State) (u source slice) (h : was.KeptBy s.lasting) :
    was.KeptBy (s.firstCheck u source slice).lasting := by fun_cases State.firstCheck <;> simp +zetaDelta [h]
@[simp] theorem State.secondCheck_keeps (s : State) (u source slice) (h : was.KeptBy s.lasting) :
    was.KeptBy (s.secondCheck u source slice).lasting := by fun_cases State.secondCheck <;> simp +zetaDelta [h]
@[simp] theorem State.beadCheck_keeps (s : State) (shunter slice e) (h : was.KeptBy s.lasting) :
    was.KeptBy (s.beadCheck shunter slice e).lasting := by unfold State.beadCheck; split <;> simp [h]
@[simp] theorem State.selCheck_keeps (s : State) (selector slice e) (h : was.KeptBy s.lasting) :
    was.KeptBy (s.selCheck selector slice e).lasting := by unfold State.selCheck; split <;> simp [h]

/-! ### Indexes (Machine/Indexes.lean) -/

@[simp] theorem State.setIndex_lasting (s : State) (n x) : (s.setIndex n x).lasting = s.lasting := (rfl)

theorem State.roomFor_lasting (s : State) (sl l) {t} (e : s.roomFor sl l = some t) : t.lasting = s.lasting := by
  unfold State.roomFor at e
  simp only [Option.ite_none_right_eq_some, Option.some.injEq] at e
  rw [← e.2, State.pressure_lasting]

@[simp] theorem State.chargeAll_lasting (s : State) (h sl l) : (s.chargeAll h sl l).lasting = s.lasting := by simp [State.chargeAll]

theorem State.newPersist_lasting (s : State) (sl name size init) {t} (e : s.newPersist sl name size init = some t) : t.1.lasting = s.lasting := by
  unfold State.newPersist at e
  simp only [Option.ite_none_right_eq_some, Option.some.injEq] at e
  rw [← e.2, State.place_lasting]

@[simp] theorem State.setStore_lasting (s : State) (id t) : (s.setStore id t).lasting = s.lasting := (rfl)
@[simp] theorem State.writeVector_lasting (s : State) (store id v) : (s.writeVector store id v).lasting = s.lasting := by simp [State.writeVector]

@[simp] theorem State.indexCreate_lasting (s : State) (r seq) : (s.indexCreate r seq).lasting = s.lasting := by
  fun_cases State.indexCreate <;> simp +zetaDelta
  obtain ⟨u, hu, ht⟩ := Option.bind_eq_some_iff.1 ‹_ = some (_, _)›
  exact (State.newPersist_lasting _ _ _ _ _ ht).trans (State.roomFor_lasting _ _ _ hu)

@[simp] theorem State.logReplay_lasting (s : State) (x) : (s.logReplay x).lasting = s.lasting := by simp [State.logReplay]
@[simp] theorem State.openImage_lasting (s : State) (c n x needs) : (s.openImage c n x needs).lasting = s.lasting := by
  unfold State.openImage; split <;> simp

@[simp] theorem State.indexLoad_lasting (s : State) (r seq) : (s.indexLoad r seq).lasting = s.lasting := by
  fun_cases State.indexLoad <;> simp +zetaDelta
  exact State.roomFor_lasting _ _ _ ‹_›

@[simp] theorem State.setSave_lasting (s : State) (n r seq f) : (s.setSave n r seq f).lasting = s.lasting := (rfl)

@[simp] theorem State.beginSave_lasting (s : State) (c n x v) : (s.beginSave c n x v).lasting = s.lasting := by
  fun_cases State.beginSave <;> simp +zetaDelta
  exact State.newPersist_lasting _ _ _ _ _ ‹_›

@[simp] theorem State.endSave_lasting (s : State) (c n x v) : (s.endSave c n x v).lasting = s.lasting := (rfl)
@[simp] theorem State.indexSave_lasting (s : State) (r seq) : (s.indexSave r seq).lasting = s.lasting := by fun_cases State.indexSave <;> simp
@[simp] theorem State.dropIndex_lasting (s : State) (n) : (s.dropIndex n).lasting = s.lasting := (rfl)
@[simp] theorem State.indexClose_lasting (s : State) (r seq) : (s.indexClose r seq).lasting = s.lasting := by fun_cases State.indexClose <;> rfl
@[simp] theorem State.dropHanded_lasting (s : State) (reqid) : (s.dropHanded reqid).lasting = s.lasting := by simp [State.dropHanded]
@[simp] theorem State.freeCmd_lasting (s : State) (r seq) : (s.freeCmd r seq).lasting = s.lasting := by fun_cases State.freeCmd <;> simp +zetaDelta

/-! ### Updates and commit groups (Machine/Updates.lean) -/

@[simp] theorem State.stagePoint_lasting (s : State) (n x id attr v) : (s.stagePoint n x id attr v).1.lasting = s.lasting := by
  simp [State.stagePoint]

@[simp] theorem State.stagePoints_lasting (s : State) (n x ids as vs) : (s.stagePoints n x ids as vs).1.lasting = s.lasting := by
  fun_induction State.stagePoints with
  | case1 s id ids a as v vs s1 p e s2 ps e2 ih =>
    exact (lasting_of_fst ih e2).trans (lasting_of_fst (s.stagePoint_lasting n x id a v) e)
  | case2 => rfl

@[simp] theorem State.addStaged_lasting (s : State) (n c w) : (s.addStaged n c w).lasting = s.lasting := (rfl)
@[simp] theorem State.joinWrites_lasting (s : State) (n c) : (s.joinWrites n c).lasting = s.lasting := by fun_induction State.joinWrites <;> simp_all
@[simp] theorem State.joinAll_lasting (s : State) (n) : (s.joinAll n).lasting = s.lasting := by simp [State.joinAll]
@[simp] theorem State.writeCmd_lasting (s : State) (op r seq) : (s.writeCmd op r seq).lasting = s.lasting := by
  simp only [State.writeCmd]; (repeat' split) <;> simp
@[simp] theorem State.vectorWriteAck_lasting (s : State) (r seq dt) : (s.vectorWriteAck r seq dt).lasting = s.lasting := by
  fun_cases State.vectorWriteAck <;> simp +zetaDelta
@[simp] theorem State.commitGroupClose_lasting (s : State) (n dt) : (s.commitGroupClose n dt).lasting = s.lasting := by
  fun_cases State.commitGroupClose <;> simp +zetaDelta
@[simp] theorem State.finishWrite_lasting (s : State) (w) : (s.finishWrite w).lasting = s.lasting := by unfold State.finishWrite; split <;> simp
@[simp] theorem State.groupPublish_lasting (s : State) (n) : (s.groupPublish n).lasting = s.lasting := by
  fun_cases State.groupPublish <;> simp +zetaDelta
@[simp] theorem State.logRecordAck_lasting (s : State) (n) : (s.logRecordAck n).lasting = s.lasting := by
  fun_cases State.logRecordAck <;> simp +zetaDelta
@[simp] theorem State.sidingSeal_lasting (s : State) (n) : (s.sidingSeal n).lasting = s.lasting := by unfold State.sidingSeal; split <;> simp
@[simp] theorem State.logCorrupt_lasting (s : State) (shunter n id slot slice) : (s.logCorrupt shunter n id slot slice).lasting = s.lasting := by
  simp [State.logCorrupt]
@[simp] theorem State.countWalk_lasting (s : State) (w) : (s.countWalk w).lasting = s.lasting := by simp [State.countWalk]
@[simp] theorem State.countHop_lasting (s : State) (w) : (s.countHop w).lasting = s.lasting := by simp [State.countHop]
@[simp] theorem State.mergeForwardSearch_lasting (s : State) (n point) : (s.mergeForwardSearch n point).lasting = s.lasting := by
  fun_cases State.mergeForwardSearch <;> simp +zetaDelta
@[simp] theorem State.mergeListCompute_lasting (s : State) (n) : (s.mergeListCompute n).lasting = s.lasting := by
  fun_cases State.mergeListCompute <;> rfl
@[simp] theorem State.listPublication_lasting (s : State) (n) : (s.listPublication n).lasting = s.lasting := by
  unfold State.listPublication; split <;> simp
@[simp] theorem State.bufferFree_lasting (s : State) (n) : (s.bufferFree n).lasting = s.lasting := by unfold State.bufferFree; split <;> simp
@[simp] theorem State.repairList_lasting (s : State) (n) : (s.repairList n).lasting = s.lasting := by unfold State.repairList; split <;> simp
@[simp] theorem State.reclaim_lasting (s : State) (n id) : (s.reclaim n id).lasting = s.lasting := by unfold State.reclaim; split <;> simp
@[simp] theorem State.writeTkthold_lasting (s : State) (data) : (s.writeTkthold data).lasting = s.lasting := by
  unfold State.writeTkthold; split <;> simp
@[simp] theorem State.writeRepair_lasting (s : State) (data) : (s.writeRepair data).lasting = s.lasting := by unfold State.writeRepair; split <;> rfl

/-! ### Walks and searches (Machine/Search.lean) -/

@[simp] theorem State.endQuery_lasting (s : State) (c status) : (s.endQuery c status).lasting = s.lasting := (rfl)
@[simp] theorem State.finishQuery_lasting (s : State) (c q r) : (s.finishQuery c q r).lasting = s.lasting := by simp [State.finishQuery]
@[simp] theorem State.stageOne_lasting (s : State) (c q x) : (s.stageOne c q x).lasting = s.lasting := by simp [State.stageOne]
@[simp] theorem State.stageTwo_lasting (s : State) (c q x) : (s.stageTwo c q x).lasting = s.lasting := by fun_cases State.stageTwo <;> simp +zetaDelta
@[simp] theorem State.rerankStage1_lasting (s : State) (r seq) : (s.rerankStage1 r seq).lasting = s.lasting := by
  unfold State.rerankStage1; split <;> simp
@[simp] theorem State.rerankStage2_lasting (s : State) (r seq) : (s.rerankStage2 r seq).lasting = s.lasting := by
  unfold State.rerankStage2; split <;> simp
@[simp] theorem State.corruptSlot_lasting (s : State) (shunter n x b) : (s.corruptSlot shunter n x b).lasting = s.lasting := by
  simp [State.corruptSlot]
@[simp] theorem State.cutQuery_keeps (s : State) (c x ticket shunter selector bead sel) (h : was.KeptBy s.lasting) :
    was.KeptBy (s.cutQuery c x ticket shunter selector bead sel).lasting := by fun_cases State.cutQuery <;> simp +zetaDelta [h]
@[simp] theorem State.waitBuffer_lasting (s : State) (c) : (s.waitBuffer c).lasting = s.lasting := by simp [State.waitBuffer]
@[simp] theorem State.searchOn_lasting (s : State) (r seq upto) : (s.searchOn r seq upto).lasting = s.lasting := by
  unfold State.searchOn; split <;> simp
@[simp] theorem State.search_keeps (s : State) (r seq upto bead sel) (h : was.KeptBy s.lasting) :
    was.KeptBy (s.search r seq upto bead sel).lasting := by fun_cases State.search <;> simp +zetaDelta [h]

/-! ### The engines (Machine/Engines.lean) -/

@[simp] theorem State.setCall_lasting (s : State) (id c) : (s.setCall id c).lasting = s.lasting := (rfl)
@[simp] theorem State.completeCall_lasting (s : State) (id c status count) : (s.completeCall id c status count).lasting = s.lasting := (rfl)
@[simp] theorem State.postOut_lasting (s : State) (id) : (s.postOut id).lasting = s.lasting := by fun_cases State.postOut <;> rfl
@[simp] theorem State.produce_lasting (s : State) (id c status recs) : (s.produce id c status recs).lasting = s.lasting := by simp [State.produce]
@[simp] theorem State.countShort_lasting (s : State) (status) : (s.countShort status).lasting = s.lasting := by simp [State.countShort]
@[simp] theorem State.waitCall_lasting (s : State) (id c) : (s.waitCall id c).lasting = s.lasting := by simp [State.waitCall]
@[simp] theorem State.walk_lasting (s : State) (shunter id) : (s.walk shunter id).lasting = s.lasting := by fun_cases State.walk <;> simp
@[simp] theorem State.engineStore_keeps (s : State) (x addr bs) (h : was.KeptBy s.lasting) : was.KeptBy (s.engineStore x addr bs).lasting := by
  simp [State.engineStore, h]
@[simp] theorem State.endWalk_keeps (s : State) (id c x w) (h : was.KeptBy s.lasting) : was.KeptBy (s.endWalk id c x w).lasting := by
  unfold State.endWalk; split <;> simp [h]
@[simp] theorem State.walkRound_keeps (s : State) (shunter id bead) (h : was.KeptBy s.lasting) :
    was.KeptBy (s.walkRound shunter id bead).lasting := by fun_cases State.walkRound <;> simp +zetaDelta [h]
@[simp] theorem State.sweepOne_keeps (s : State) (shunter id) (h : was.KeptBy s.lasting) : was.KeptBy (s.sweepOne shunter id).lasting := by
  simp only [State.sweepOne]; (repeat' split) <;> simp [h]
@[simp] theorem State.sweep_keeps (s : State) (shunter ids) (h : was.KeptBy s.lasting) : was.KeptBy (s.sweep shunter ids).lasting := by
  simp +contextual [State.sweep, h, foldl_keeps]
@[simp] theorem State.selDone_keeps (s : State) (id c x r conflicts invalid) (h : was.KeptBy s.lasting) :
    was.KeptBy (s.selDone id c x r conflicts invalid).lasting := by simp [State.selDone, h]
@[simp] theorem State.topkRun_keeps (s : State) (id c x selector sl sel row) (h : was.KeptBy s.lasting) :
    was.KeptBy (s.topkRun id c x selector sl sel row).lasting := by unfold State.topkRun; split <;> simp [h]
@[simp] theorem State.topkStream_keeps (s : State) (id c x selector sl sel) (h : was.KeptBy s.lasting) :
    was.KeptBy (s.topkStream id c x selector sl sel).lasting := by fun_cases State.topkStream <;> simp +zetaDelta [h]
@[simp] theorem State.topkCall_keeps (s : State) (selector id sel) (h : was.KeptBy s.lasting) : was.KeptBy (s.topkCall selector id sel).lasting := by
  fun_cases State.topkCall <;> simp +zetaDelta [h]
@[simp] theorem State.mergeCall_keeps (s : State) (selector id sel) (h : was.KeptBy s.lasting) :
    was.KeptBy (s.mergeCall selector id sel).lasting := by fun_cases State.mergeCall <;> simp +zetaDelta [h]

/-! ### Tables (Machine/Tables.lean) -/

@[simp] theorem State.setTable_lasting (s : State) (n t) : (s.setTable n t).lasting = s.lasting := (rfl)

theorem State.chargeHot_lasting (s : State) (h sl size) {t} (e : s.chargeHot h sl size = some t) : t.lasting = s.lasting := by
  unfold State.chargeHot at e
  split at e
  · cases e; rfl
  · obtain ⟨p, -, rfl⟩ := Option.map_eq_some_iff.1 e
    simp

@[simp] theorem State.tableOpen_lasting (s : State) (r seq) : (s.tableOpen r seq).lasting = s.lasting := by
  fun_cases State.tableOpen <;> simp +zetaDelta
  next e =>
    obtain ⟨u, hu, ht⟩ := Option.bind_eq_some_iff.1 e
    rw [State.chargeHot_lasting _ _ _ _ ht, State.chargeHot_lasting _ _ _ _ hu]

@[simp] theorem State.tableClose_lasting (s : State) (r seq) : (s.tableClose r seq).lasting = s.lasting := by fun_cases State.tableClose <;> rfl
@[simp] theorem State.gatherRun_keeps (s : State) (id c x t remote) (h : was.KeptBy s.lasting) :
    was.KeptBy (s.gatherRun id c x t remote).lasting := by fun_cases State.gatherRun <;> simp +zetaDelta [h]
@[simp] theorem State.countStale_lasting (s : State) : s.countStale.lasting = s.lasting := (rfl)
@[simp] theorem State.gatherServe_keeps (s : State) (req) (h : was.KeptBy s.lasting) : was.KeptBy (s.gatherServe req).lasting := by
  fun_cases State.gatherServe <;> simp +zetaDelta [h]
@[simp] theorem State.scatRun_lasting (s : State) (id c x t replies) : (s.scatRun id c x t replies).lasting = s.lasting := by
  fun_cases State.scatRun <;> rfl
@[simp] theorem State.scataddAccumulate_lasting (s : State) (req) : (s.scataddAccumulate req).lasting = s.lasting := by
  fun_cases State.scataddAccumulate <;> simp
@[simp] theorem State.apply_lasting (s : State) (id oldest) : (s.apply id oldest).lasting = s.lasting := by fun_cases State.apply <;> rfl
@[simp] theorem State.tableIntervalEnd_lasting (s : State) (n totals) : (s.tableIntervalEnd n totals).lasting = s.lasting := by
  unfold State.tableIntervalEnd; split <;> rfl
@[simp] theorem State.rowMigrationCopy_lasting (s : State) (n row target) : (s.rowMigrationCopy n row target).lasting = s.lasting := by
  unfold State.rowMigrationCopy; split <;> rfl
@[simp] theorem State.migrationInstall_lasting (s : State) (n row news) : (s.migrationInstall n row news).lasting = s.lasting := by
  fun_cases State.migrationInstall <;> rfl
@[simp] theorem State.migrationFree_lasting (s : State) (n row) : (s.migrationFree n row).lasting = s.lasting := by
  fun_cases State.migrationFree <;> rfl

/-! ### Attention (Machine/Attention.lean) -/

@[simp] theorem State.setSeq_lasting (s : State) (n q) : (s.setSeq n q).lasting = s.lasting := (rfl)
@[simp] theorem State.openGraphs_lasting (s : State) (q) : (s.openGraphs q).lasting = s.lasting := by simp [State.openGraphs]

theorem State.chargeSeq_lasting (s : State) (n q) {t} (e : s.chargeSeq n q = some t) : t.lasting = s.lasting := by
  obtain ⟨u, hu, ht⟩ := Option.bind_eq_some_iff.1 e
  rw [foldl_bind_lasting _ (fun _ _ _ h => State.chargeHot_lasting _ _ _ _ h) _ _ ht, State.chargeAll_lasting,
    State.roomFor_lasting _ _ _ hu]

@[simp] theorem State.seqOpen_lasting (s : State) (r seq) : (s.seqOpen r seq).lasting = s.lasting := by
  fun_cases State.seqOpen <;> simp +zetaDelta
  exact State.chargeSeq_lasting _ _ _ ‹_›

@[simp] theorem State.seqClose_lasting (s : State) (r seq) : (s.seqClose r seq).lasting = s.lasting := by fun_cases State.seqClose <;> simp +zetaDelta
@[simp] theorem State.appendPos_lasting (s : State) (n q layer pos i keys vals) : (s.appendPos n q layer pos i keys vals).lasting = s.lasting := by
  simp [State.appendPos]
@[simp] theorem State.kvappend_lasting (s : State) (r seq) : (s.kvappend r seq).lasting = s.lasting := by
  fun_cases State.kvappend <;> simp +zetaDelta (disch := intros; split <;> simp)

theorem State.graphList_lasting (s : State) (x) {t} (e : s.graphList x = .ok t) : t.1.lasting = s.lasting := by
  revert e
  fun_cases State.graphList <;> intro e <;> cases e <;> simp +zetaDelta

@[simp] theorem State.countLists_lasting (s : State) (r calls) : (s.countLists r calls).lasting = s.lasting := by simp [State.countLists]

theorem State.selectHead_lasting (s : State) (x remote) {t} (e : s.selectHead x remote = .ok (some t)) : t.1.lasting = s.lasting := by
  unfold State.selectHead at e
  dsimp only at e
  split at e
  · cases e; rfl
  · split at e
    · cases e
    · split at e
      · cases e
      · next u mine first =>
        have hu : u.lasting = s.lasting := by
          split at first
          · cases hg : s.graphList x with
            | error st => rw [hg] at first; cases first
            | ok g =>
              rw [hg] at first
              cases first
              simpa using State.graphList_lasting _ _ hg
          · cases first; simp
        split at e
        · cases e
        · cases e
        · split at e <;> cases e <;> simp [hu]

theorem State.attendHead_lasting (s : State) (x remote) {t} (e : s.attendHead x remote = .ok (some t)) : t.1.lasting = s.lasting := by
  unfold State.attendHead at e
  split at e
  · cases e
  · cases e
  · next u sel rest hsel =>
    have hu := State.selectHead_lasting _ _ _ hsel
    dsimp only at e hu
    split at e
    · cases e
    · split at e
      · cases e
      · cases e
      · split at e <;> cases e <;> simp [hu]

theorem State.attendAll_lasting (s : State) (c q nkeys pay is remote) {t} (e : s.attendAll c q nkeys pay is remote = .ok (some t)) :
    t.1.lasting = s.lasting := by
  induction is generalizing s remote t with
  | nil => unfold State.attendAll at e; cases e; rfl
  | cons i is ih =>
    unfold State.attendAll at e
    dsimp only at e
    split at e
    · cases e
    · cases e
    · next u out rest one =>
      have hu : u.lasting = s.lasting := by
        split at one
        · exact State.attendHead_lasting _ _ _ one
        · split at one <;> cases one
          rfl
      split at e
      · next v outs rest' more => cases e; exact (ih _ _ more).trans hu
      · exact (ih _ _ e).trans hu

@[simp] theorem State.attend_keeps (s : State) (r seq remote sel) (h : was.KeptBy s.lasting) : was.KeptBy (s.attend r seq remote sel).lasting := by
  fun_cases State.attend <;> simp +zetaDelta [h]
  all_goals
    refine State.selCheck_keeps _ _ _ _ ?_
    have e := State.attendAll_lasting _ _ _ _ _ _ _ ‹_›
    exact e ▸ h

/-! ### Groups (Machine/Groups.lean) -/

@[simp] theorem State.storeShard_lasting (s : State) (group stripe member b) : (s.storeShard group stripe member b).lasting = s.lasting := (rfl)
@[simp] theorem State.rsEncode_lasting (s : State) (jd group stripe gen data acked) :
    (s.rsEncode jd group stripe gen data acked).lasting = s.lasting := by simp [State.rsEncode]
@[simp] theorem State.rsReconstruct_lasting (s : State) (jd group stripe units role) :
    (s.rsReconstruct jd group stripe units role).lasting = s.lasting := by fun_cases State.rsReconstruct <;> simp +zetaDelta
@[simp] theorem State.spareAssign_lasting (s : State) (group members member) : (s.spareAssign group members member).lasting = s.lasting := by
  simp [State.spareAssign]

theorem State.chargeJob_lasting (s : State) (job sl msgs pages) {t} (e : s.chargeJob job sl msgs pages = some t) : t.lasting = s.lasting := by
  unfold State.chargeJob at e
  simp only [Option.ite_none_right_eq_some, Option.some.injEq] at e
  simp [← e.2]

@[simp] theorem State.jobBind_lasting (s : State) (r seq) : (s.jobBind r seq).lasting = s.lasting := by
  fun_cases State.jobBind <;> simp +zetaDelta
  exact State.chargeJob_lasting _ _ _ _ _ ‹_›

@[simp] theorem State.jobUnbind_lasting (s : State) (r seq) : (s.jobUnbind r seq).lasting = s.lasting := by fun_cases State.jobUnbind <;> rfl

@[simp] theorem State.exportPages_lasting (s : State) (r seq) : (s.exportPages r seq).lasting = s.lasting := by
  fun_cases State.exportPages <;> simp +zetaDelta
  exact State.chargeJob_lasting _ _ _ _ _ ‹_›

/-! ### Resets and the health checks (Machine/Resets.lean) -/

@[simp] theorem State.setPortState_lasting (s : State) (p st lanes) : (s.setPortState p st lanes).lasting = s.lasting := by simp [State.setPortState]
@[simp] theorem State.laneTrained_keeps (s : State) (u ok) (h : was.KeptBy s.lasting) : was.KeptBy (s.laneTrained u ok).lasting := by
  fun_cases State.laneTrained <;> simp +zetaDelta [h]
@[simp] theorem State.requeue_lasting (s : State) (p) : (s.requeue p).lasting = s.lasting := (rfl)
@[simp] theorem State.trainPort_keeps (s : State) (p farEnd lanesOk) (h : was.KeptBy s.lasting) :
    was.KeptBy (s.trainPort p farEnd lanesOk).lasting := by fun_cases State.trainPort <;> simp +zetaDelta +contextual [h, foldl_keeps]
@[simp] theorem State.portTraining_keeps (s : State) (p farEnd lanesOk) (h : was.KeptBy s.lasting) :
    was.KeptBy (s.portTraining p farEnd lanesOk).lasting := by unfold State.portTraining; split <;> simp [h]
@[simp] theorem State.portTrainingRepeat_keeps (s : State) (p farEnd lanesOk) (h : was.KeptBy s.lasting) :
    was.KeptBy (s.portTrainingRepeat p farEnd lanesOk).lasting := by unfold State.portTrainingRepeat; split <;> simp [h]
@[simp] theorem State.portDown_lasting (s : State) (p) : (s.portDown p).lasting = s.lasting := by simp [State.portDown]
@[simp] theorem State.portLinkLoss_lasting (s : State) (p) : (s.portLinkLoss p).lasting = s.lasting := by simp [State.portLinkLoss]
@[simp] theorem State.refclk156Loss_lasting (s : State) (j) : (s.refclk156Loss j).lasting = s.lasting := by simp [State.refclk156Loss]
@[simp] theorem State.refclk156Return_lasting (s : State) (j) : (s.refclk156Return j).lasting = s.lasting := by simp [State.refclk156Return]
@[simp] theorem State.pigtailFitted_keeps (s : State) (k farEnd lanesOk) (h : was.KeptBy s.lasting) :
    was.KeptBy (s.pigtailFitted k farEnd lanesOk).lasting := by fun_cases State.pigtailFitted <;> simp +zetaDelta [h]
@[simp] theorem State.retrain_keeps (s : State) (p farEnd lanesOk) (h : was.KeptBy s.lasting) : was.KeptBy (s.retrain p farEnd lanesOk).lasting := by
  fun_cases State.retrain <;> simp +zetaDelta [h]
@[simp] theorem State.laneRetireRetrain_keeps (s : State) (p lanesOk) (h : was.KeptBy s.lasting) :
    was.KeptBy (s.laneRetireRetrain p lanesOk).lasting := by fun_cases State.laneRetireRetrain <;> simp +zetaDelta [h]
@[simp] theorem State.resetDone_lasting (s : State) (j status) : (s.resetDone j status).lasting = s.lasting := (rfl)
@[simp] theorem State.realign_keeps (s : State) (x fails) (h : was.KeptBy s.lasting) : was.KeptBy (s.realign x fails).1.lasting := by
  unfold State.realign; split <;> simp [h]
@[simp] theorem State.portReset_keeps (s : State) (p alignFails farEnd lanesOk) (h : was.KeptBy s.lasting) :
    was.KeptBy (s.portReset p alignFails farEnd lanesOk).lasting := by unfold State.portReset; split <;> simp [h]
@[simp] theorem State.frameReset_lasting (s : State) (f) : (s.frameReset f).lasting = s.lasting := by unfold State.frameReset; split <;> simp
@[simp] theorem State.endSlice_lasting (s : State) (sl) : (s.endSlice sl).lasting = s.lasting := by simp [State.endSlice]
@[simp] theorem State.closeSlice_lasting (s : State) (sl) : (s.closeSlice sl).lasting = s.lasting := by simp [State.closeSlice]
@[simp] theorem State.clearSlice_lasting (s : State) (sl) : (s.clearSlice sl).lasting = s.lasting := by simp [State.clearSlice]
@[simp] theorem State.logSlice_lasting (s : State) (sl event) : (s.logSlice sl event).lasting = s.lasting := by simp [State.logSlice]
@[simp] theorem State.nextGen_lasting (s : State) (sl) : (s.nextGen sl).lasting = s.lasting := (rfl)
@[simp] theorem State.emptySlice_lasting (s : State) (sl) : (s.emptySlice sl).lasting = s.lasting := by simp [State.emptySlice]

@[simp] theorem State.passEnded_keeps (s : State) (sl) (h : was.KeptBy s.lasting) : was.KeptBy (s.passEnded sl).lasting := by
  unfold State.passEnded
  exact foldl_keeps _ (fun s c hs => by split <;> simp [hs]) _ _ h

@[simp] theorem State.sliceReset_keeps (s : State) (sl) (h : was.KeptBy s.lasting) : was.KeptBy (s.sliceReset sl).lasting := by
  unfold State.sliceReset; split <;> simp [h]
@[simp] theorem State.settleDepot_lasting (s : State) (j) : (s.settleDepot j).lasting = s.lasting := by simp [State.settleDepot]

@[simp] theorem State.retrainChannels_keeps (s : State) (j alignFails untrained) (h : was.KeptBy s.lasting) :
    was.KeptBy (s.retrainChannels j alignFails untrained).lasting := by
  unfold State.retrainChannels
  refine foldl_keeps _ (fun s ch hs => ?_) _ _ h
  dsimp only
  split <;> simp [hs]

@[simp] theorem State.formatDepot_lasting (s : State) (j) : (s.formatDepot j).lasting = s.lasting := (rfl)
@[simp] theorem State.rewrite_lasting (s : State) (j ws) : (s.rewrite j ws).lasting = s.lasting := by simp [State.rewrite]
@[simp] theorem State.depotReset_keeps (s : State) (j alignFails untrained bad failedDies ms) (h : was.KeptBy s.lasting) :
    was.KeptBy (s.depotReset j alignFails untrained bad failedDies ms).lasting := by fun_cases State.depotReset <;> simp +zetaDelta [h]

/-! ### Register accesses (Machine/Registers.lean) -/

@[simp] theorem State.readCcl_lasting (s : State) (off len) : (s.readCcl off len).2.lasting = s.lasting := by unfold State.readCcl; split <;> rfl
@[simp] theorem State.writePlain_lasting (s : State) (n i j data) : (s.writePlain n i j data).lasting = s.lasting := by simp [State.writePlain]
@[simp] theorem State.writeOpkey_lasting (s : State) (i data) : (s.writeOpkey i data).lasting = s.lasting := by simp [State.writeOpkey]

@[simp] theorem State.writeKeyctl_keeps (s : State) (data) (h : was.KeptBy s.lasting) : was.KeptBy (s.writeKeyctl data).lasting := by
  unfold State.writeKeyctl
  split
  · exact h
  · dsimp only
    split
    · simp [h]
    · rw [foldl_lasting _ fun s d => State.setFld_lasting _ _ _ _ _]
      exact ⟨h.pending, h.ringMem, h.record, fun _ => rfl, h.retired⟩

@[simp] theorem State.writeLogsel_lasting (s : State) (data) : (s.writeLogsel data).lasting = s.lasting := by
  simp (disch := intros; split <;> simp) [State.writeLogsel]
@[simp] theorem State.writePolicer_lasting (s : State) (n i j key data) : (s.writePolicer n i j key data).lasting = s.lasting := by
  simp [State.writePolicer]
@[simp] theorem State.writeCbs_lasting (s : State) (p c data) : (s.writeCbs p c data).lasting = s.lasting := by simp [State.writeCbs]
@[simp] theorem State.writeArea_lasting (s : State) (n r data) : (s.writeArea n r data).lasting = s.lasting := by simp [State.writeArea]
@[simp] theorem State.writeWord_keeps (s : State) (off data) (h : was.KeptBy s.lasting) : was.KeptBy (s.writeWord off data).lasting := by
  fun_cases State.writeWord <;> simp +zetaDelta [h]
@[simp] theorem State.writeAt_keeps (s : State) (n i j data) (h : was.KeptBy s.lasting) : was.KeptBy (s.writeAt n i j data).lasting := by
  unfold State.writeAt; split <;> simp [h]
@[simp] theorem State.registerWrite_keeps (s : State) (src off len data) (h : was.KeptBy s.lasting) :
    was.KeptBy (s.registerWrite src off len data).lasting := by fun_cases State.registerWrite <;> simp +zetaDelta [h]

@[simp] theorem State.cclWrite_keeps (s : State) (k : Nat) (pkt dt) (h : was.KeptBy s.lasting) : was.KeptBy (s.cclWrite k pkt dt).lasting := by
  have writes (u : State) (off n : Nat) (hu : was.KeptBy u.lasting) : was.KeptBy ((List.range n).foldl (fun (s : State) i =>
      s.writeWord (off + 8 * i) (BitVec.ofNat 64 (leAt pkt (16 + 8 * i) 8))) u).lasting :=
    foldl_keeps _ (fun s i hs => by simp [hs]) _ _ hu
  unfold State.cclWrite
  by_cases ho : 0x0100000 ≤ leAt pkt 4 4 <;> simp [ho, h, writes]

@[simp] theorem State.cclRead_lasting (s : State) (k pkt) : (s.cclRead k pkt).lasting = s.lasting := by
  unfold State.cclRead
  split
  · rfl
  · split
    · simp
    · dsimp only
      split <;> simp

/-! ### Attestation (Machine/Attest.lean) -/

@[simp] theorem State.nextSerial_lasting (s : State) : s.nextSerial.lasting = s.lasting := (rfl)

/-! ### Management commands (Machine/Management.lean) -/

@[simp] theorem State.answer_lasting (s : State) (m status payload) : (s.answer m status payload).lasting = s.lasting := (rfl)
@[simp] theorem State.refuseMsg_lasting (s : State) (m status) : (s.refuseMsg m status).lasting = s.lasting := (rfl)

@[simp] theorem State.receive_lasting (s : State) (m) : (s.receive m).2.lasting = s.lasting := by
  fun_cases State.receive <;> simp +zetaDelta
  · rw [lasting_of_snd (State.critical_lasting _ _ _ _ _ _) ‹_›, State.setFld_lasting]
  · rw [lasting_of_snd (State.critical_lasting _ _ _ _ _ _) ‹_›, State.setFld_lasting]

@[simp] theorem State.takeCommand_lasting (s : State) (m) : (s.takeCommand m).lasting = s.lasting := by
  unfold State.takeCommand
  simp only
  split <;> simp

@[simp] theorem State.mgmtCommand_lasting (s : State) (m) : (s.mgmtCommand m).lasting = s.lasting := by
  unfold State.mgmtCommand
  have hr := s.receive_lasting m
  generalize s.receive m = p at hr ⊢
  obtain ⟨_ | _, t⟩ := p <;> simp [hr]

@[simp] theorem State.request_lasting (s : State) (typ m) : (s.request typ m).2.lasting = s.lasting := by unfold State.request; split <;> simp

@[simp] theorem State.deviceResetRequest_keeps (s : State) (m) (h : was.KeptBy s.lasting) : was.KeptBy (s.deviceResetRequest m).lasting := by
  fun_cases State.deviceResetRequest <;> simp +zetaDelta [lasting_of_snd (s.request_lasting 2 m) ‹_›, h]

@[simp] theorem State.attest_lasting (s : State) (m) : (s.attest m).lasting = s.lasting := by
  fun_cases State.attest <;> simp +zetaDelta [lasting_of_snd (s.request_lasting 3 m) ‹_›]

@[simp] theorem State.faultAck_lasting (s : State) (m) : (s.faultAck m).lasting = s.lasting := by
  fun_cases State.faultAck <;> simp +zetaDelta [lasting_of_snd (s.request_lasting 5 m) ‹_›]

@[simp] theorem State.logread_lasting (s : State) (m) : (s.logread m).lasting = s.lasting := by
  fun_cases State.logread <;> simp +zetaDelta [lasting_of_snd (s.request_lasting 6 m) ‹_›]

@[simp] theorem State.readreg_lasting (s : State) (m) : (s.readreg m).lasting = s.lasting := by
  fun_cases State.readreg <;> simp +zetaDelta [lasting_of_snd (s.request_lasting 7 m) ‹_›]

@[simp] theorem State.faultResend_lasting (s : State) : s.faultResend.lasting = s.lasting := by simp [State.faultResend]
@[simp] theorem State.appendEntry_lasting (s : State) (typ body) : (s.appendEntry typ body).lasting = s.lasting := by simp [State.appendEntry]
@[simp] theorem State.logProgram_lasting (s : State) : s.logProgram.lasting = s.lasting := by simp [State.logProgram]
@[simp] theorem State.logOverflow_lasting (s : State) : s.logOverflow.lasting = s.lasting := by simp [State.logOverflow]
@[simp] theorem State.logFirmware_lasting (s : State) (action before after) : (s.logFirmware action before after).lasting = s.lasting := by
  simp [State.logFirmware]
@[simp] theorem State.setSlot_lasting (s : State) (slot x) : (s.setSlot slot x).lasting = s.lasting := by unfold State.setSlot; split <;> rfl
@[simp] theorem State.stagePart_lasting (s : State) (total off p) : (s.stagePart total off p).2.lasting = s.lasting := by
  fun_cases State.stagePart <;> simp +zetaDelta
@[simp] theorem State.stageCheck_lasting (s : State) : (s.stageCheck).2.lasting = s.lasting := by fun_cases State.stageCheck <;> simp +zetaDelta
@[simp] theorem State.stage_lasting (s : State) (total off phase p) : (s.stage total off phase p).2.lasting = s.lasting := by
  fun_cases State.stage <;> simp
@[simp] theorem State.fwStage_lasting (s : State) (r seq) : (s.fwStage r seq).lasting = s.lasting := by unfold State.fwStage; split <;> simp
@[simp] theorem State.beginActivation_lasting (s : State) (cmd mode slot) : (s.beginActivation cmd mode slot).lasting = s.lasting := (rfl)
@[simp] theorem State.endActivation_lasting (s : State) (status) : (s.endActivation status).lasting = s.lasting := by
  fun_cases State.endActivation <;> rfl
@[simp] theorem State.commit_lasting (s : State) : s.commit.lasting = s.lasting := by simp [State.commit]
@[simp] theorem State.fwActivateTrial_lasting (s : State) (r seq) : (s.fwActivateTrial r seq).lasting = s.lasting := by
  fun_cases State.fwActivateTrial <;> rfl
@[simp] theorem State.fwActivateCommit_lasting (s : State) (r seq) : (s.fwActivateCommit r seq).lasting = s.lasting := by
  fun_cases State.fwActivateCommit <;> simp
@[simp] theorem State.fwActivateRevert_lasting (s : State) (r seq) : (s.fwActivateRevert r seq).lasting = s.lasting := by
  fun_cases State.fwActivateRevert <;> rfl
@[simp] theorem State.setUp_lasting (s : State) (d up) : (s.setUp d up).lasting = s.lasting := (rfl)
@[simp] theorem State.mirrorNow_lasting (s : State) : s.mirrorNow.lasting = s.lasting := (rfl)
@[simp] theorem State.fromMirror_lasting (s : State) : s.fromMirror.lasting = s.lasting := by unfold State.fromMirror; split <;> rfl
@[simp] theorem State.activationStandbyRestart_lasting (s : State) (verified) : (s.activationStandbyRestart verified).lasting = s.lasting := by
  simp [State.activationStandbyRestart]
@[simp] theorem State.swapActive_lasting (s : State) : s.swapActive.lasting = s.lasting := (rfl)
@[simp] theorem State.activationHandover_lasting (s : State) : s.activationHandover.lasting = s.lasting := by simp [State.activationHandover]
@[simp] theorem State.activationActiveRestart_keeps (s : State) (verified) (h : was.KeptBy s.lasting) :
    was.KeptBy (s.activationActiveRestart verified).lasting := by fun_cases State.activationActiveRestart <;> simp +zetaDelta [h]
@[simp] theorem State.activationHandback_lasting (s : State) : s.activationHandback.lasting = s.lasting := by simp [State.activationHandback]
@[simp] theorem State.trialTimeout_lasting (s : State) (dtSec) : (s.trialTimeout dtSec).lasting = s.lasting := by
  unfold State.trialTimeout; split <;> simp
@[simp] theorem State.recoveryRequest_lasting (s : State) (entry payload) : (s.recoveryRequest entry payload).2.lasting = s.lasting := by
  fun_cases State.recoveryRequest <;> simp +zetaDelta
@[simp] theorem State.recoveredReset_keeps (s : State) (entry st) (h : was.KeptBy s.lasting) : was.KeptBy (s.recoveredReset entry st).lasting := by
  unfold State.recoveredReset; split <;> simp [h]
@[simp] theorem State.recoveryReceive_lasting (s : State) (m) : (s.recoveryReceive m).2.lasting = s.lasting := by
  fun_cases State.recoveryReceive <;> simp

@[simp] theorem State.recoveryService_keeps (s : State) (jtag m) (h : was.KeptBy s.lasting) : was.KeptBy (s.recoveryService jtag m).lasting := by
  unfold State.recoveryService
  have hr := s.recoveryReceive_lasting m
  generalize s.recoveryReceive m = p at hr ⊢
  obtain ⟨_ | _, t⟩ := p <;> simp [hr, h]

@[simp] theorem State.standbyMirror_lasting (s : State) : s.standbyMirror.lasting = s.lasting := by simp [State.standbyMirror]
@[simp] theorem State.standbySyncDone_lasting (s : State) : s.standbySyncDone.lasting = s.lasting := by simp [State.standbySyncDone]
@[simp] theorem State.standbyHeartbeatMiss_keeps (s : State) (missed imageFailed) (h : was.KeptBy s.lasting) :
    was.KeptBy (s.standbyHeartbeatMiss missed imageFailed).lasting := by fun_cases State.standbyHeartbeatMiss <;> simp +zetaDelta [h]
@[simp] theorem State.takeover_lasting (s : State) : s.takeover.lasting = s.lasting := by simp [State.takeover]
@[simp] theorem State.windowSave_lasting (s : State) : s.windowSave.lasting = s.lasting := by simp [State.windowSave]
@[simp] theorem State.stationmasterWatchdogExpiry_keeps (s : State) (d dt) (h : was.KeptBy s.lasting) :
    was.KeptBy (s.stationmasterWatchdogExpiry d dt).lasting := by simp only [State.stationmasterWatchdogExpiry]; (repeat' split) <;> simp [h]
@[simp] theorem State.discipline_lasting (s : State) (dt offset) : (s.discipline dt offset).lasting = s.lasting := by simp [State.discipline]
@[simp] theorem State.ptpSync_lasting (s : State) (dt offset) : (s.ptpSync dt offset).lasting = s.lasting := by simp [State.ptpSync]
@[simp] theorem State.ptpLockLoss_lasting (s : State) (dt) : (s.ptpLockLoss dt).lasting = s.lasting := by simp [State.ptpLockLoss]
@[simp] theorem State.ppsIn_lasting (s : State) (dt offset) : (s.ppsIn dt offset).lasting = s.lasting := by simp [State.ppsIn]
@[simp] theorem State.ppsOut_lasting (s : State) : s.ppsOut.lasting = s.lasting := by simp [State.ppsOut]

/-! ### Tenants and namespaces (Machine/Tenancy.lean) -/

@[simp] theorem State.zeroUnit_lasting (s : State) (u) : (s.zeroUnit u).lasting = s.lasting := by simp [State.zeroUnit]
@[simp] theorem State.clearUnit_keeps (s : State) (u from_ to_ cause ok) (h : was.KeptBy s.lasting) :
    was.KeptBy (s.clearUnit u from_ to_ cause ok).lasting := by unfold State.clearUnit; split <;> simp [h]
@[simp] theorem State.unitClear_keeps (s : State) (u from_ to_ cause outcome dt) (h : was.KeptBy s.lasting) :
    was.KeptBy (s.unitClear u from_ to_ cause outcome dt).lasting := by fun_cases State.unitClear <;> simp +zetaDelta [h]
@[simp] theorem State.clearUnits_keeps (s : State) (us from_ to_ cause bad) (h : was.KeptBy s.lasting) :
    was.KeptBy (s.clearUnits us from_ to_ cause bad).lasting := by simp +contextual [State.clearUnits, h, foldl_keeps]
@[simp] theorem State.fixPages_lasting (s : State) (sl) : (s.fixPages sl).lasting = s.lasting := (rfl)

@[simp] theorem State.drainUnits_lasting (s : State) (us) : (s.drainUnits us).1.lasting = s.lasting := by
  simp [State.drainUnits]

@[simp] theorem State.namespaceResize_lasting (s : State) (j ns size dies) : (s.namespaceResize j ns size dies).lasting = s.lasting := by
  fun_cases State.namespaceResize <;> simp
@[simp] theorem State.sliceNamespace_lasting (s : State) (sl j new) : (s.sliceNamespace sl j new).lasting = s.lasting := by
  simp [State.sliceNamespace]
@[simp] theorem State.sliceNamespaces_lasting (s : State) (sl new) : (s.sliceNamespaces sl new).lasting = s.lasting := by simp [State.sliceNamespaces]

/-- The definition is opened as a function: opened at its arguments, the kernel would compute the page placement. -/
@[simp] theorem State.addTelemetry_lasting (s : State) (sl) : (s.addTelemetry sl).lasting = s.lasting := by
  have unfolded : State.addTelemetry = State.addTelemetry := rfl
  conv at unfolded => rhs; delta State.addTelemetry
  rw [congrFun (congrFun unfolded s) sl]
  generalize AllocFlags.mk _ _ _ _ _ _ _ _ _ _ _ = flags
  extract_lets
  generalize Option.getD _ _ = placed
  obtain ⟨tier, pages⟩ := placed
  exact State.addAlloc_lasting _ _

@[simp] theorem State.endTenant_lasting (s : State) (c status) : (s.endTenant c status).lasting = s.lasting := (rfl)
@[simp] theorem State.commitSlice_lasting (s : State) (sl e amend) : (s.commitSlice sl e amend).lasting = s.lasting := by simp [State.commitSlice]
@[simp] theorem State.drainRemoved_lasting (s : State) (sl e removed) : (s.drainRemoved sl e removed).1.lasting = s.lasting := by
  simp [State.drainRemoved]
@[simp] theorem State.tenantAdvance_keeps (s : State) (c amend e bad) (h : was.KeptBy s.lasting) :
    was.KeptBy (s.tenantAdvance c amend e bad).lasting := by simp only [State.tenantAdvance]; (repeat' split) <;> simp [h]
@[simp] theorem State.tenant_keeps (s : State) (r seq amend bad) (h : was.KeptBy s.lasting) : was.KeptBy (s.tenant r seq amend bad).lasting := by
  fun_cases State.tenant <;> simp +zetaDelta [h]
@[simp] theorem State.tenantCreate_keeps (s : State) (r seq bad) (h : was.KeptBy s.lasting) : was.KeptBy (s.tenantCreate r seq bad).lasting := by
  simp [State.tenantCreate, h]
@[simp] theorem State.tenantAmend_keeps (s : State) (r seq bad) (h : was.KeptBy s.lasting) : was.KeptBy (s.tenantAmend r seq bad).lasting := by
  simp [State.tenantAmend, h]
@[simp] theorem State.tenantUnitWaitTimeout_lasting (s : State) (r seq) : (s.tenantUnitWaitTimeout r seq).lasting = s.lasting := by
  unfold State.tenantUnitWaitTimeout; split <;> simp
@[simp] theorem State.destroyNamespaces_lasting (s : State) (sl) : (s.destroyNamespaces sl).lasting = s.lasting := by
  simp (disch := intros; split <;> simp) [State.destroyNamespaces]
@[simp] theorem State.destroySlice_keeps (s : State) (sl bad) (h : was.KeptBy s.lasting) : was.KeptBy (s.destroySlice sl bad).lasting := by
  simp [State.destroySlice, h]
@[simp] theorem State.markDestroying_lasting (s : State) (sl) : (s.markDestroying sl).lasting = s.lasting := (rfl)
@[simp] theorem State.tenantDestroy_keeps (s : State) (r seq bad) (h : was.KeptBy s.lasting) : was.KeptBy (s.tenantDestroy r seq bad).lasting := by
  fun_cases State.tenantDestroy <;> simp +zetaDelta [h]
@[simp] theorem State.destroyResume_keeps (s : State) (sl bad) (h : was.KeptBy s.lasting) : was.KeptBy (s.destroyResume sl bad).lasting := by
  unfold State.destroyResume; split <;> simp [h]
@[simp] theorem State.keyRotate_lasting (s : State) (r seq) : (s.keyRotate r seq).lasting = s.lasting := by unfold State.keyRotate; split <;> simp
@[simp] theorem State.sliceKey_lasting (s : State) (r seq) : (s.sliceKey r seq).lasting = s.lasting := by fun_cases State.sliceKey <;> rfl
@[simp] theorem State.eraseAllocs_lasting (s : State) (sl j) : (s.eraseAllocs sl j).lasting = s.lasting := by simp [State.eraseAllocs]
@[simp] theorem State.nsErase_lasting (s : State) (r seq) : (s.nsErase r seq).lasting = s.lasting := by
  simp only [State.nsErase]; (repeat' split) <;> simp
@[simp] theorem State.scrubClearSuspect_lasting (s : State) (r seq) : (s.scrubClearSuspect r seq).lasting = s.lasting := by
  unfold State.scrubClearSuspect; split <;> simp
@[simp] theorem State.scrubPatrol_lasting (s : State) (r seq) : (s.scrubPatrol r seq).lasting = s.lasting := by
  unfold State.scrubPatrol; split <;> simp
@[simp] theorem State.debugCtl_lasting (s : State) (r seq) : (s.debugCtl r seq).lasting = s.lasting := by unfold State.debugCtl; split <;> simp
@[simp] theorem State.jtagWrite_keeps (s : State) (off v) (h : was.KeptBy s.lasting) : was.KeptBy (s.jtagWrite off v).lasting := by
  simp [State.jtagWrite, h]
@[simp] theorem State.jtagAccess_keeps (s : State) (op) (h : was.KeptBy s.lasting) : was.KeptBy (s.jtagAccess op).lasting := by
  fun_cases State.jtagAccess <;> simp +zetaDelta [h]
@[simp] theorem State.sliceTelemetryUpdate_lasting (s : State) (dt) : (s.sliceTelemetryUpdate dt).lasting = s.lasting := by
  simp (disch := intros; split <;> simp) [State.sliceTelemetryUpdate]

/-! ### Faults, mirrors and drains (Machine/Faults.lean) -/

@[simp] theorem State.transientEvent_keeps (s : State) (u source dt) (h : was.KeptBy s.lasting) :
    was.KeptBy (s.transientEvent u source dt).lasting := by fun_cases State.transientEvent <;> simp +zetaDelta [h]
@[simp] theorem State.unitRetire_keeps (s : State) (u source) (h : was.KeptBy s.lasting) : was.KeptBy (s.unitRetire u source).lasting := by
  unfold State.unitRetire; split <;> simp [h]
@[simp] theorem State.faultRecordRow_lasting (s : State) (u cls source pattern slice addr) :
    (s.faultRecordRow u cls source pattern slice addr).lasting = s.lasting := by simp [State.faultRecordRow]
@[simp] theorem State.correctedSummary_lasting (s : State) (u count) : (s.correctedSummary u count).lasting = s.lasting := by
  simp [State.correctedSummary]
@[simp] theorem State.canaryStart_lasting (s : State) (u c number) : (s.canaryStart u c number).lasting = s.lasting := by simp [State.canaryStart]
@[simp] theorem State.canaryOff_lasting (s : State) (u) : (s.canaryOff u).lasting = s.lasting := (rfl)
@[simp] theorem State.canaryComplete_keeps (s : State) (u digest stored) (h : was.KeptBy s.lasting) :
    was.KeptBy (s.canaryComplete u digest stored).lasting := by unfold State.canaryComplete; split <;> simp [h]
@[simp] theorem State.canaryAbort_lasting (s : State) (u) : (s.canaryAbort u).lasting = s.lasting := by simp [State.canaryAbort]
@[simp] theorem State.shadowCompare_lasting (s : State) (run origin agree cls) : (s.shadowCompare run origin agree cls).lasting = s.lasting := by
  fun_cases State.shadowCompare <;> rfl
@[simp] theorem State.wrongResult_lasting (s : State) (run) : (s.wrongResult run).lasting = s.lasting := by unfold State.wrongResult; split <;> simp
@[simp] theorem State.shadowThirdCompute_keeps (s : State) (run origin shadow third originOk shadowOk cls) (h : was.KeptBy s.lasting) :
    was.KeptBy (s.shadowThirdCompute run origin shadow third originOk shadowOk cls).lasting := by
  simp only [State.shadowThirdCompute]; (repeat' split) <;> simp [h]
@[simp] theorem State.setOwn_lasting (s : State) (reqid r) : (s.setOwn reqid r).lasting = s.lasting := (rfl)
@[simp] theorem State.reportOwnership_lasting (s : State) : s.reportOwnership.lasting = s.lasting := by simp [State.reportOwnership]
@[simp] theorem State.ownerStale_lasting (s : State) : s.ownerStale.lasting = s.lasting := by simp [State.ownerStale]
@[simp] theorem State.handOff_lasting (s : State) (kind status reqid job dst carried new) :
    (s.handOff kind status reqid job dst carried new).lasting = s.lasting := (rfl)
@[simp] theorem State.sendClaim_lasting (s : State) (reqid r) : (s.sendClaim reqid r).lasting = s.lasting := (rfl)
@[simp] theorem State.stateLost_lasting (s : State) (reqid) : (s.stateLost reqid).lasting = s.lasting := by fun_cases State.stateLost <;> rfl
@[simp] theorem State.learnLater_lasting (s : State) (reqid r key owner done) : (s.learnLater reqid r key owner done).lasting = s.lasting := (rfl)
@[simp] theorem State.beginImport_lasting (s : State) (reqid owner epoch hseq phase job) :
    (s.beginImport reqid owner epoch hseq phase job).lasting = s.lasting := by simp [State.beginImport]
@[simp] theorem State.ownershipClaim_lasting (s : State) (reqid owner epoch hseq phase job) :
    (s.ownershipClaim reqid owner epoch hseq phase job).lasting = s.lasting := by fun_cases State.ownershipClaim <;> simp
@[simp] theorem State.grantClaim_lasting (s : State) (reqid claimant r carried new) :
    (s.grantClaim reqid claimant r carried new).lasting = s.lasting := (rfl)
@[simp] theorem State.claimReceive_lasting (s : State) (reqid claimant epoch hseq newEpoch newHseq) :
    (s.claimReceive reqid claimant epoch hseq newEpoch newHseq).lasting = s.lasting := by fun_cases State.claimReceive <;> simp +zetaDelta
@[simp] theorem State.stateReadDone_lasting (s : State) (reqid outcome) : (s.stateReadDone reqid outcome).lasting = s.lasting := by
  fun_cases State.stateReadDone <;> simp +zetaDelta
@[simp] theorem State.ownershipDone_lasting (s : State) (reqid sender epoch hseq) :
    (s.ownershipDone reqid sender epoch hseq).lasting = s.lasting := by fun_cases State.ownershipDone <;> simp +zetaDelta
@[simp] theorem State.claimRepeat_lasting (s : State) (reqid) : (s.claimRepeat reqid).lasting = s.lasting := by fun_cases State.claimRepeat <;> simp
@[simp] theorem State.handedExpiry_lasting (s : State) (reqid dt) : (s.handedExpiry reqid dt).lasting = s.lasting := by
  fun_cases State.handedExpiry <;> rfl

/-! ### A step at an empty queue (Machine/Idle.lean) -/

@[simp] theorem State.idle_lasting (s : State) : s.idle.lasting = s.lasting := (rfl)

/-! ### One command, and one step -/

/-- No command takes back what lasts: each arm of `exec` answers with one operation of the model, whose lemma stands above. -/
theorem exec_keeps (c : Instr) (s : State) : OutcomeKeeps s.lasting (exec c s) := by
  have h := Lasting.KeptBy.refl s.lasting
  cases c with
  | overvoltageShutdown millivolts heldNs holdUp =>
    change OutcomeKeeps s.lasting (execOvervoltageShutdown millivolts heldNs holdUp s)
    unfold execOvervoltageShutdown
    split
    · trivial
    · change s.lasting.KeptBy (State.lasting _)
      simp [h]
  | _ =>
    change s.lasting.KeptBy (State.lasting _)
    simp [h]

/-- What lasts of `s` once the command at the front of its queue is taken. -/
theorem step_keeps {s t : State} (e : step s = .next t) : { s.lasting with pending := s.pending.tail }.KeptBy t.lasting := by
  unfold step at e
  split at e
  · next hq =>
    cases e
    exact ⟨by rw [hq]; exact hq, id, rfl, id, List.prefix_rfl⟩
  · next c rest hq =>
    have h := exec_keeps c { s with pending := rest }
    rw [e] at h
    rw [hq]
    exact h

/-- Settles O50: the queue lasts through every command, so a step only takes its front. -/
theorem everyStepTakesOneCommandFromTheQueue : Obligations.EveryStepTakesOneCommandFromTheQueue := by
  intro s t e
  have hq : t.pending = s.pending.tail := (step_keeps e).pending
  exact ⟨hq, fun wf c hc => wf c (List.mem_of_mem_tail (hq ▸ hc))⟩

/-- Settles O52: only `writeRegion` and the resets touch the ring region, and both leave it canonical. -/
theorem ringRegionStaysCanonical : Obligations.RingRegionStaysCanonical :=
  fun _ _ wf e => (step_keeps e).ringMem wf

/-- Settles O53: the signed record lasts, and the operator command key is written only with a key. -/
theorem flashKeepsTheDeviceRecordAndAnOperatorKey : Obligations.FlashKeepsTheDeviceRecordAndAnOperatorKey :=
  fun _ _ e => ⟨(step_keeps e).record, (step_keeps e).ock⟩

end Sys2Proof.Machine
end

