-- ==== Sys2Proof/Proofs/RetiredShunter.lean ====
section
/-! The rounds of a walk once the Shunter that holds it is retired. By R76 the walk restarts on another Shunter, so the retired one is
in service for no slice and takes no round. The clauses of O42 on WALK_ROUND ask only that the command names the walk's own Shunter,
not that this Shunter is still in service; a walk that a retired Shunter holds meets their premises and is left where it stands. -/

namespace Sys2Proof.Machine

/-! ### A retired Shunter takes no round -/

theorem State.sliceShunters_contains_retired {s : State} {u : Nat} (h : s.retired (unitId 2 u) = true) (sl : Nat) :
    (s.sliceShunters sl).contains u = false := by
  simp [State.sliceShunters, h]

/-- The Shunter that holds a walk gives up its rounds by its own retirement (R76). -/
theorem State.takesWalk_own_retired {s : State} {w : Walk} (h : s.retired (unitId 2 w.shunter) = true) (sl : Nat) :
    s.takesWalk sl w.shunter w = false := by
  simp only [State.takesWalk, h, if_true, s.sliceShunters_contains_retired h, Bool.false_and]

/-- WALK_ROUND by a Shunter that does not take the walk leaves it, while no stream waits to be posted. -/
theorem State.walkRound_not_taken {s : State} {shunter id sl : Nat} {c : Call} {x : Frame} {w : Walk}
    (hopen : s.openCall id 0 = some (c, x, sl)) (hwalk : c.walk = some w) (hout : c.out = [])
    (htakes : s.takesWalk sl shunter w = false) (bead : CheckEvent) : s.walkRound shunter id bead = s := by
  simp [State.walkRound, hopen, hwalk, hout, htakes]

theorem State.walkRound_own_retired {s : State} {id sl : Nat} {c : Call} {x : Frame} {w : Walk}
    (hopen : s.openCall id 0 = some (c, x, sl)) (hwalk : c.walk = some w) (hout : c.out = [])
    (hretired : s.retired (unitId 2 w.shunter) = true) (bead : CheckEvent) : s.walkRound w.shunter id bead = s :=
  s.walkRound_not_taken hopen hwalk hout (s.takesWalk_own_retired hretired sl) bead

/-! ### A walk that stands before round 0 on a retired Shunter -/

/-- An index of slice 1 without points, whose entry id is 0. -/
def emptyIndex : Index := Index.blank 1 0 8 0 1 false 10 4 [] 51 [0]

/-- A walk of index 5 by Shunter 0, before round 0. -/
def unsteppedWalk : Walk := Walk.start 5 1 0 none 0 128 1024 4096 2 [0] 4 false 0 []

/-- The call that was admitted as that walk: SHN.WALK with SW 128, SWMAX 1,024, HOPMAX 4,096, BATCH 2, one entry and K 4 (Table 2-6). -/
def unsteppedCall : Call :=
  { run := 60, lframe := 0, frame := 0, fn := 0, desc := 2 ^ 52,
    bytes := [1, 0] ++ leBytes 2 5 ++ leBytes 2 128 ++ leBytes 2 1024 ++ leBytes 2 4096 ++ [2, 0] ++ leBytes 2 1 ++ leBytes 2 4 ++
      List.replicate 16 0 ++ leBytes 8 (2 ^ 52) ++ List.replicate 24 0,
    outq := 0, prev := 0, done := false, status := 0, count := 0, walk := some unsteppedWalk, swept := none, out := [], taken := [],
    waited := false }

/-- The frame that issued the call. -/
def walkFrame : Frame := { Frame.start 60 0 (consistOf 1 [] []) with queues := [(0, ⟨2, 4, [70], []⟩)] }

/-- The run of that frame, in slice 1. -/
def walkRun : Run :=
  { ring := 3, seq := 1, slice := 1, handle := 40, phys := [0], job := 0, tallies := [], windows := [], startedAt := 0, barFirst := [],
    barSent := 0, restartable := true, restarted := false, quarantined := false, mismatch := false, timedOut := false, wrong := false,
    shadows := [], halts := [] }

/-- The walk is under way and Shunter 0, which holds it, stands in the retirement record. -/
def walkOnRetiredShunter : State :=
  { State.reset with
    nv := { State.reset.nv with retired := [⟨unitId 2 0, .permanent, 5, 0⟩] }
    runs := [(60, walkRun)]
    frames := [(0, walkFrame)]
    calls := [(70, unsteppedCall)]
    indexes := [(5, emptyIndex)] }

/-- The call is open and its walk's Shunter is retired. -/
theorem walkOnRetiredShunter_open :
    walkOnRetiredShunter.openCall 70 0 = some (unsteppedCall, walkFrame, 1) ∧
      walkOnRetiredShunter.retired (unitId 2 unsteppedWalk.shunter) = true := ⟨rfl, rfl⟩

/-- Round 0 of the walk finds no record to offer, and goes on. -/
theorem emptyIndex_walkRound : emptyIndex.walkRound [] unsteppedWalk = ({ unsteppedWalk with rounds := 1 }, none) := rfl

/-- Refutes O42: WALK_ROUND by Shunter 0 of the walk that it held when it was retired. The walk's next round goes on, so the statement
asks for a step to round 1, but the retired Shunter leaves the walk before round 0. -/
theorem not_engineCallsOfFramesAreServed : ¬ Obligations.EngineCallsOfFramesAreServed := by
  intro h
  obtain ⟨-, -, hround, -⟩ := h walkOnRetiredShunter
  obtain ⟨hopen, hretired⟩ := walkOnRetiredShunter_open
  have hnext := hround 0 70 unsteppedCall walkFrame 1 emptyIndex unsteppedWalk _ [] hopen rfl rfl rfl rfl rfl emptyIndex_walkRound rfl rfl
  change Host.Outcome.next (walkOnRetiredShunter.walkRound unsteppedWalk.shunter 70 .clean) = _ at hnext
  rw [walkOnRetiredShunter.walkRound_own_retired hopen rfl rfl hretired] at hnext
  injection hnext with hstate
  have hcall := congrArg (fun t : State => (mapGet t.calls 70).bind Call.walk) hstate
  have hrounds : (0 : Nat) = 1 := congrArg (fun w : Option Walk => w.elim 0 Walk.rounds) hcall
  exact absurd hrounds (by decide)

end Sys2Proof.Machine
end

