-- ==== Sys2Proof/Proofs/StagedTwice.lean ====
section
/-! Writes of one command in an index. A write joins its commit group by the ring and sequence number of its command, and every staged
write with these leaves the index's list together. DELETE's clause in O14 has no premise on the writes that are staged already, so it also
speaks of an index in which one under the DELETE's own ring and sequence number stands; that one joins, and the DELETE is gone. Staging
sets a command's step to 1, so that it is staged once: the premise that the clause lacks is that nothing stands under its name yet. -/

namespace Sys2Proof.Machine

/-! ### Joining a commit group -/

/-- A join takes every staged write of the command that joins. -/
theorem Index.join_staged (x : Index) (w : StagedWrite) (now : Nat) :
    (x.join w now).staged = x.staged.filter fun o => !(o.ring == w.ring && o.seq == w.seq) := rfl

@[simp] theorem State.index_setIndex_same (s : State) (n : Nat) (x : Index) : (s.setIndex n x).index n = some x := mapGet_mapSet_same _ _ _

/-- With nothing staged no write joins. -/
theorem State.joinWrites_of_staged_nil {s : State} {n : Nat} {x : Index} (hx : s.index n = some x) (h : x.staged = []) (fuel : Nat) :
    s.joinWrites n fuel = s := by
  cases fuel with
  | zero => rfl
  | succ fuel => simp [State.joinWrites, hx, h]

/-- The first staged write that may join does, while the group has room. -/
theorem State.joinWrites_succ {s : State} {n : Nat} {x : Index} {w : StagedWrite} (hx : s.index n = some x)
    (hroom : (x.openGroup.elim 0 fun g => g.cmds.length) < 1024)
    (hw : x.staged.find? (fun w => w.acked && s.ringOrderOk n x w) = some w) (fuel : Nat) :
    s.joinWrites n (fuel + 1) = (s.setIndex n (x.join w s.clock.mono)).joinWrites n fuel := by
  simp [State.joinWrites, hx, Nat.not_le.mpr hroom, hw]

/-- With every staged write under one command, the first that may join is the only one that does. -/
theorem State.joinAll_of_same_command {s : State} {n : Nat} {x : Index} {w : StagedWrite} (hx : s.index n = some x)
    (hroom : (x.openGroup.elim 0 fun g => g.cmds.length) < 1024)
    (hw : x.staged.find? (fun w => w.acked && s.ringOrderOk n x w) = some w) (hall : ∀ o ∈ x.staged, o.ring = w.ring ∧ o.seq = w.seq) :
    s.joinAll n = s.setIndex n (x.join w s.clock.mono) := by
  obtain ⟨fuel, hfuel⟩ : ∃ fuel, x.staged.length = fuel + 1 :=
    Nat.exists_eq_succ_of_ne_zero fun h => by simp [List.length_eq_zero_iff.mp h] at hw
  have hnone : (x.join w s.clock.mono).staged = [] := by
    rw [Index.join_staged, List.filter_eq_nil_iff]
    intro o ho
    simp [hall o ho]
  rw [State.joinAll, hx, Option.elim_some, hfuel, State.joinWrites_succ hx hroom hw,
    State.joinWrites_of_staged_nil (State.index_setIndex_same _ _ _) hnone]

/-! ### DELETE -/

/-- The write that a DELETE stages: no new point, so nothing to acknowledge (R95). -/
def deleteWrite (r seq : Nat) (olds : List Nat) : StagedWrite :=
  { ring := r, seq := seq, olds := olds, news := [], buf := 0, acked := true, ticket := noTicket, status := stOK }

/-- A DELETE whose checks pass is staged, and what may join does. -/
theorem State.writeCmd_delete {s : State} {r seq : Nat} {c : Cmd} {x : Index} (hrun : s.running r seq 0x0012 = some c) (hstep : c.step = 0)
    (hzero : c.unusedZero [(32, 4)] = true) (hn : c.par 32 2 < 2 ^ 15) (hk : 1 ≤ c.par 34 2) (hk' : c.par 34 2 ≤ 256)
    (hx : s.openIndex c.slice (c.par 32 2) = some x) (hlen : c.paylen = writePaylen 0x0012 (c.par 34 2) x.vecfmt x.dim)
    (hbad : (writeArgs 0x0012 (c.par 34 2) x.vecfmt x.dim (s.payload c)).bad x.vecfmt = false) :
    s.writeCmd 0x0012 r seq =
      (s.addStaged (c.par 32 2) c
        (deleteWrite r seq (writeArgs 0x0012 (c.par 34 2) x.vecfmt x.dim (s.payload c)).olds)).joinAll (c.par 32 2) := by
  have hn' : ¬ 32768 ≤ c.par 32 2 := Nat.not_le.mpr hn
  have hk0 : c.par 34 2 ≠ 0 := by omega
  simp [State.writeCmd, hrun, hstep, hzero, hn', hk0, Nat.not_lt.mpr hk', hx, hlen, hbad, deleteWrite]

/-! ### A DELETE beside a staged write of its own name -/

/-- DELETE of the one id that its payload names, in index 5, as the first command of ring 3 (R462). -/
def deleteOfOne : Cmd :=
  { ring := 3, seq := 1, slice := 1,
    entry := leBytes 4 1 ++ leBytes 2 0x0012 ++ List.replicate 6 0 ++ leBytes 4 64 ++ List.replicate 16 0 ++ leBytes 2 5 ++ leBytes 2 1 ++
      List.replicate 220 0,
    mgmtPayload := [], reqid := 0, stage := .running, status := 0, count := 0, ticket := noTicket, handle := 0, outputs := [], tadmit := 0,
    accepted := false, noRecord := false, step := 0, since := 0, progress := 0, pcount := 0, partialSeen := false, rekey := none }

/-- An index in which a write without ids stands under the ring and sequence number of `deleteOfOne`. -/
def indexWithNamesake : Index := { emptyIndex with staged := [deleteWrite 3 1 []] }

/-- `deleteOfOne` runs on that index. -/
def deleteWithNamesake : State :=
  { State.reset with indexes := [(5, indexWithNamesake)], cmds := [(cmdKey 3 1, deleteOfOne)] }

theorem deleteOfOne_names : deleteOfOne.par 32 2 = 5 ∧ deleteOfOne.par 34 2 = 1 ∧ deleteOfOne.paylen = 64 ∧
    deleteOfOne.unusedZero [(32, 4)] = true := by decide +kernel

theorem deleteWithNamesake_open :
    deleteWithNamesake.running 3 1 0x0012 = some deleteOfOne ∧ deleteWithNamesake.openIndex 1 5 = some indexWithNamesake := by
  decide +kernel

/-- The payload names id 0. -/
theorem deleteWithNamesake_args :
    writeArgs 0x0012 1 indexWithNamesake.vecfmt indexWithNamesake.dim (deleteWithNamesake.payload deleteOfOne) = ⟨[0], [], []⟩ := by
  decide +kernel

/-- The DELETE is staged behind its namesake. -/
theorem deleteWithNamesake_staged :
    (deleteWithNamesake.addStaged 5 deleteOfOne (deleteWrite 3 1 [0])).index 5 =
      some { emptyIndex with staged := [deleteWrite 3 1 [], deleteWrite 3 1 [0]] } := rfl

/-- No earlier write of ring 3 has still to join, so the namesake joins first, and the DELETE leaves the list with it. -/
theorem deleteWithNamesake_joins :
    ((deleteWithNamesake.addStaged 5 deleteOfOne (deleteWrite 3 1 [0])).joinAll 5).index 5 =
      some { emptyIndex with openGroup := some ⟨0, [deleteWrite 3 1 []]⟩ } := by
  rw [State.joinAll_of_same_command (w := deleteWrite 3 1 []) deleteWithNamesake_staged (by decide) (by decide +kernel)
    (by simp [deleteWrite])]
  rfl

/-- Refutes O14: a DELETE that starts while a write under its own ring and sequence number stands staged. The statement asks for the DELETE
among the staged writes or in the open group, but the namesake joins the group and takes the DELETE from the list. -/
theorem not_writesStageJoinAndPublish : ¬ Obligations.WritesStageJoinAndPublish := by
  intro h
  obtain ⟨-, -, hdelete, -⟩ := h deleteWithNamesake
  obtain ⟨hindex, hcount, hlen, hzero⟩ := deleteOfOne_names
  obtain ⟨hrun, hopen⟩ := deleteWithNamesake_open
  obtain ⟨t, ht, hfound, -⟩ := hdelete 3 1 5 1 deleteOfOne indexWithNamesake hrun rfl hzero hindex hcount (by decide) (by decide) (by decide)
    hopen hlen (by rw [deleteWithNamesake_args]; rfl)
  change Host.Outcome.next (deleteWithNamesake.writeCmd 0x0012 3 1) = _ at ht
  injection ht with ht
  have hstate := State.writeCmd_delete hrun rfl hzero (by simp [hindex]) (by simp [hcount]) (by simp [hcount]) (by rw [hindex]; exact hopen)
    (by rw [hcount]; exact hlen) (by rw [hcount, deleteWithNamesake_args]; rfl)
  rw [hindex, hcount, deleteWithNamesake_args] at hstate
  rw [← ht, hstate, deleteWithNamesake_joins, deleteWithNamesake_args] at hfound
  exact absurd hfound (by decide)

end Sys2Proof.Machine
end

