-- ==== Sys2Proof/Proofs/RegisterLookups.lean ====
section
/-! Writes of the registers that have a row of their own in the instruction table: each reaches its register's behaviour, and the fields
written within their ranges take the values written. -/

namespace Sys2Proof.Machine

/-! ### Where the registers stand -/

/-- The registers of the tables stand apart: the offset of an (i, j) in range is found as that register, in a block of every variant. -/
def RegName.foundAt (n : RegName) (i j : Nat) : Bool :=
  decide (i < n.row.n1) && decide (j < n.row.n2) && decide (regOffset n i j < 0x0100000) && !inStatus (regOffset n i j) &&
    (decide (regOffset n i j < 0x00A0000) || decide (0x00C0000 ≤ regOffset n i j)) && findReg (regOffset n i j) == some (n, i, j)

theorem RegName.findReg_of_foundAt {n : RegName} {i j : Nat} (h : n.foundAt i j = true) : findReg (regOffset n i j) = some (n, i, j) := by
  simp only [RegName.foundAt, Bool.and_eq_true, beq_iff_eq] at h
  exact h.2

/-- Only GLB_BADACC stands at its offset. -/
theorem RegName.offset_ne_badacc {n : RegName} {i j : Nat} (h : n.foundAt i j = true) (hn : n ≠ .glbBadacc) :
    regOffset n i j ≠ regOffset .glbBadacc 0 0 := by
  intro e
  have hf := RegName.findReg_of_foundAt h
  rw [e, findReg_badacc] at hf
  cases hf
  exact hn rfl

/-- What the lookup of a write meets at a register that stands in the window. -/
theorem State.writeAt_lookup {s : State} {n : RegName} {i j : Nat} (hw : s.writable = true) (h : n.foundAt i j = true) (data : Word) :
    s.writeAt n i j data = s.writeWord (regOffset n i j) data ∧ ¬ 0x0100000 ≤ regOffset n i j ∧ inStatus (regOffset n i j) = false ∧
      s.missingBlock (regOffset n i j) = false ∧ findReg (regOffset n i j) = some (n, i, j) := by
  simp only [RegName.foundAt, Bool.and_eq_true, Bool.or_eq_true, Bool.not_eq_true', beq_iff_eq, decide_eq_true_eq] at h
  obtain ⟨⟨⟨⟨⟨hi, hj⟩, hoff⟩, hst⟩, hblock⟩, hf⟩ := h
  refine ⟨s.writeAt_eq data hw hi hj, Nat.not_le.mpr hoff, hst, ?_, hf⟩
  simp [State.missingBlock]
  omega

theorem State.writeAt_plain {s : State} {n : RegName} {i j : Nat} (hw : s.writable = true) (h : n.foundAt i j = true)
    (ha : s.absentReg n i j = false) (hn : plainRegister n = true) (data : Word) : s.writeAt n i j data = s.writePlain n i j data := by
  obtain ⟨e, hoff, hst, hmb, hf⟩ := State.writeAt_lookup hw h data
  rw [e, s.writeWord_plain data (Nat.lt_of_not_le hoff) hst hmb hf ha hn]

theorem State.writeAt_absent {s : State} {n : RegName} {i j : Nat} (hw : s.writable = true) (h : n.foundAt i j = true)
    (ha : s.absentReg n i j = true) (data : Word) : s.writeAt n i j data = s := by
  obtain ⟨e, hoff, hst, hmb, hf⟩ := State.writeAt_lookup hw h data
  rw [e, s.writeWord_absent data (Nat.lt_of_not_le hoff) hst hmb hf ha]

section
variable {s : State} (hw : s.writable = true) (data : Word)
include hw

theorem State.writeAt_opkey {i : Nat} (hi : i < 4) : s.writeAt .secOpkey i 0 data = s.writeOpkey i data := by
  have hfound : ∀ i < 4, RegName.secOpkey.foundAt i 0 = true := by decide +kernel
  obtain ⟨e, hoff, hst, hmb, hf⟩ := State.writeAt_lookup hw (hfound i hi) data
  simp [e, State.writeWord, hoff, hst, hmb, hf, State.absentReg]

theorem State.writeAt_keyctl : s.writeAt .secKeyctl 0 0 data = s.writeKeyctl data := by
  obtain ⟨e, hoff, hst, hmb, hf⟩ := State.writeAt_lookup hw (n := .secKeyctl) (i := 0) (j := 0) (by decide +kernel) data
  simp [e, State.writeWord, hoff, hst, hmb, hf, State.absentReg]

theorem State.writeAt_tkthold : s.writeAt .srcTkthold 0 0 data = s.writeTkthold data := by
  obtain ⟨e, hoff, hst, hmb, hf⟩ := State.writeAt_lookup hw (n := .srcTkthold) (i := 0) (j := 0) (by decide +kernel) data
  simp [e, State.writeWord, hoff, hst, hmb, hf, State.absentReg]

theorem State.writeAt_repair : s.writeAt .srcRepair 0 0 data = s.writeRepair data := by
  obtain ⟨e, hoff, hst, hmb, hf⟩ := State.writeAt_lookup hw (n := .srcRepair) (i := 0) (j := 0) (by decide +kernel) data
  simp [e, State.writeWord, hoff, hst, hmb, hf, State.absentReg]

theorem State.writeAt_logsel : s.writeAt .stmLogsel 0 0 data = s.writeLogsel data := by
  obtain ⟨e, hoff, hst, hmb, hf⟩ := State.writeAt_lookup hw (n := .stmLogsel) (i := 0) (j := 0) (by decide +kernel) data
  simp [e, State.writeWord, hoff, hst, hmb, hf, State.absentReg]

end

theorem RegName.foundAt_cclpol : ∀ i < 2, RegName.shpCclpol.foundAt i 0 = true := by decide +kernel

/-- The registers of a port's classes. -/
theorem RegName.foundAt_class : ∀ n ∈ [RegName.shpWeight, .shpCbs, .shpJpol], ∀ i < 8, ∀ j < 16, n.foundAt i j = true := by decide +kernel

theorem State.writeAt_jpol {s : State} (hw : s.writable = true) (data : Word) {p c : Nat} (hp : p < 8) (hc : c < 16)
    (ha : s.absentReg .shpJpol p c = false) : s.writeAt .shpJpol p c data = s.writePolicer .shpJpol p c (16 * p + c) data := by
  obtain ⟨e, hoff, hst, hmb, hf⟩ := State.writeAt_lookup hw (RegName.foundAt_class .shpJpol (by simp) p hp c hc) data
  simp [e, State.writeWord, hoff, hst, hmb, hf, ha]

theorem State.writeAt_cclpol {s : State} (hw : s.writable = true) (data : Word) {p : Nat} (hp : p < 2) :
    s.writeAt .shpCclpol p 0 data = s.writePolicer .shpCclpol p 0 (128 + p) data := by
  obtain ⟨e, hoff, hst, hmb, hf⟩ := State.writeAt_lookup hw (RegName.foundAt_cclpol p hp) data
  simp [e, State.writeWord, hoff, hst, hmb, hf, State.absentReg]

theorem State.writeAt_cbs {s : State} (hw : s.writable = true) (data : Word) {p c : Nat} (hp : p < 8) (hc : c < 16)
    (ha : s.absentReg .shpCbs p c = false) : s.writeAt .shpCbs p c data = s.writeCbs p c data := by
  obtain ⟨e, hoff, hst, hmb, hf⟩ := State.writeAt_lookup hw (RegName.foundAt_class .shpCbs (by simp) p hp c hc) data
  simp [e, State.writeWord, hoff, hst, hmb, hf, ha]

/-! ### Values in range -/

/-- An RW field takes a value in its range. -/
theorem Field.written_of_range {f : Field} (ha : f.acc = .rw) (isSealed : Bool) (o : Nat) {v : Nat} (hv : f.min ≤ v ∧ v ≤ f.max) :
    f.written isSealed o v = v := by
  simp [Field.written, ha, hv]

theorem State.mergeNamed_of_no_pair (s : State) {n : RegName} (hp : ∀ v, pairRule n v = none) (i j : Nat) (data : Word) :
    s.mergeNamed n i j data =
      (mergeWrite n.row.fields s.sealed (s.reg n i j).toNat data.toNat, keepsPrevious n.row.fields data.toNat) := by
  simp [State.mergeNamed, hp]

/-- An RW field of a register reads back the value written, when that is in its range. -/
theorem State.fld_writePlain_rw (s : State) {n : RegName} {i j : Nat} {data : Word} (hfound : n.foundAt i j = true) (hn : n ≠ .glbBadacc)
    (hp : ∀ v, pairRule n v = none) {f : Field} (hm : f ∈ n.row.fields) (ha : f.acc = .rw)
    (hv : f.min ≤ bitsOf data.toNat f.lo f.width ∧ bitsOf data.toNat f.lo f.width ≤ f.max) :
    bitsOf ((s.writePlain n i j data).reg n i j).toNat f.lo f.width = bitsOf data.toNat f.lo f.width := by
  rw [s.reg_writePlain n i j data (RegName.offset_ne_badacc hfound hn), s.mergeNamed_of_no_pair hp, BitVec.toNat_ofNat,
    Nat.mod_eq_of_lt (mergeWrite_lt _ _ _ _), bitsOf_mergeWrite n _ _ _ hm, Field.written_of_range ha _ _ hv]

theorem bitsOf_le (v lo w : Nat) : 0 ≤ bitsOf v lo w ∧ bitsOf v lo w ≤ 2 ^ w - 1 := by
  have := bitsOf_lt v lo w
  omega

theorem bitsOf_zero_one (v : Nat) : bitsOf v 0 1 = v % 2 := by simp [bitsOf]

end Sys2Proof.Machine
end

