-- ==== Sys2Proof/Proofs/RegisterActs.lean ====
section
/-! What the writes of keys, the log window, policers and shapers change, each said once: the parts that are written and those that stay. -/

namespace Sys2Proof.Machine

/-! ### KEY_COMMIT (R543) -/

/-- Management flash with a new operator command key: the marks of every domain start anew. -/
def State.storeKey (s : State) (key : Bytes) : State := { s with nv := { s.nv with ock := some key, marks := [2 ^ 20, 2 ^ 20, 2 ^ 20] } }

theorem State.writeKeyctl_one {s : State} {a b c d : Word} (hs : s.sealed = false) (hk : s.nv.ock = none)
    (hq : s.stm.opkey = [some a, some b, some c, some d]) :
    s.writeKeyctl 1 =
      (((s.storeKey (leBytes 8 a.toNat ++ leBytes 8 b.toNat ++ leBytes 8 c.toNat ++ leBytes 8 d.toNat)).setFld CMD_CRITCTR_LAST 0 0).setFld
        CMD_CRITCTR_LAST 0 1).setFld CMD_CRITCTR_LAST 0 2 := by
  simp [State.writeKeyctl, hs, hk, hq, State.storeKey]

/-- A domain's last counter once it is set to 0. -/
theorem State.lastCounter_setFld_zero (s : State) (d : Nat) : (s.setFld CMD_CRITCTR_LAST 0 d).lastCounter d = 0 :=
  s.fld_setFld_same CMD_CRITCTR_LAST 0 d 0 (by decide)

/-- The other domains keep theirs. -/
theorem State.lastCounter_setFld_other (s : State) {d e : Nat} (v : Nat) (h : e ≠ d) :
    (s.setFld CMD_CRITCTR_LAST v d).lastCounter e = s.lastCounter e := by
  refine s.fld_setFld_reg CMD_CRITCTR_LAST CMD_CRITCTR_LAST v d 0 e 0 ?_
  simp only [regOffset, RegName.row]
  omega

/-! ### LOGSEL_WRITE (R566) -/

/-- STM_LOGWIN filled with the words that `f` gives. -/
def State.fillLogwin (s : State) (f : Nat → Word) (l : List Nat) : State := l.foldl (fun (s : State) i => s.setReg .stmLogwin i 0 (f i)) s

theorem State.fillLogwin_eq (f : Nat → Word) (l : List Nat) (s : State) : s.fillLogwin f l = { s with regs := (s.fillLogwin f l).regs } := by
  induction l generalizing s with
  | nil => rfl
  | cons i l ih => exact ih (s.setReg .stmLogwin i 0 (f i))

/-- A register of the window that is filled holds its word. -/
theorem State.fillLogwin_reg (f : Nat → Word) {k : Nat} (l : List Nat) (s : State) (hk : k ∈ l ∨ s.reg .stmLogwin k 0 = f k) :
    (s.fillLogwin f l).reg .stmLogwin k 0 = f k := by
  induction l generalizing s with
  | nil => exact hk.resolve_left List.not_mem_nil
  | cons i l ih =>
    refine ih _ ?_
    by_cases hi : k = i
    · subst hi
      exact .inr (s.reg_setReg_same ..)
    · rw [List.mem_cons, or_iff_right hi] at hk
      have hoff : regOffset .stmLogwin k 0 ≠ regOffset .stmLogwin i 0 := by
        simp only [regOffset, RegName.row]
        omega
      exact hk.imp_right fun h => (s.reg_setReg_other _ _ _ _ _ _ _ hoff).trans h

/-- The registers below the window stay. -/
theorem State.fillLogwin_reg_below (f : Nat → Word) {n : RegName} {i j : Nat} (h : regOffset n i j < 0x0011000) (l : List Nat) (s : State) :
    (s.fillLogwin f l).reg n i j = s.reg n i j := by
  induction l generalizing s with
  | nil => rfl
  | cons k l ih =>
    refine (ih _).trans (s.reg_setReg_other _ _ _ _ _ _ _ (Nat.ne_of_lt (Nat.lt_of_lt_of_le h ?_)))
    simp [regOffset, RegName.row]

/-- The words of the entries from `seq` on, as STM_LOGWIN shows them. -/
def State.logWindow (s : State) (seq : Nat) (i : Nat) : Word :=
  BitVec.ofNat 64 (leAt (if seq < s.stm.logTail then [] else (List.range 32).flatMap fun k => bytesAt (s.logEntryAt (seq + k)) 0 128) (8 * i) 8)

theorem State.writeLogsel_eq (s : State) (data : Word) :
    s.writeLogsel data =
      ((s.setFld STM_LOGSEL_SEQ (data.toNat % 2 ^ 32)).setFld STM_LOGSEL_GONE (if data.toNat % 2 ^ 32 < s.stm.logTail then 1 else 0)).fillLogwin
        (s.logWindow (data.toNat % 2 ^ 32)) (List.range 512) := by
  simp only [State.writeLogsel, bit, decide_eq_true_eq]
  rfl

theorem leNat_lt (b : Bytes) : leNat b < 2 ^ (8 * b.length) := by
  induction b with
  | nil => decide
  | cons x b ih =>
    have := x.isLt
    rw [leNat, List.length_cons, Nat.mul_succ, Nat.pow_add]
    omega

theorem bytesAt_length (b : Bytes) (off n : Nat) : (bytesAt b off n).length = n := by
  simp only [bytesAt, List.length_append, List.length_replicate, List.length_take, List.length_drop]
  omega

/-- The first bytes of a string that is long enough are those of any longer one. -/
theorem bytesAt_append_left {a : Bytes} {n : Nat} (h : n ≤ a.length) (b : Bytes) : bytesAt (a ++ b) 0 n = bytesAt a 0 n := by
  simp [bytesAt, List.take_append_of_le_length h]

/-- The first word of the window is that of the entry SEQ. -/
theorem State.logWindow_zero {s : State} {seq : Nat} (h : ¬ seq < s.stm.logTail) :
    (s.logWindow seq 0).toNat = leAt (bytesAt (s.logEntryAt seq) 0 128) 0 8 := by
  have hfirst : bytesAt ((List.range 32).flatMap fun k => bytesAt (s.logEntryAt (seq + k)) 0 128) 0 8 =
      bytesAt (bytesAt (s.logEntryAt seq) 0 128) 0 8 := by
    rw [List.range_succ_eq_map, List.flatMap_cons]
    exact bytesAt_append_left (by rw [bytesAt_length]; decide) _
  have hlt := leNat_lt (bytesAt (bytesAt (s.logEntryAt seq) 0 128) 0 8)
  rw [bytesAt_length] at hlt
  rw [State.logWindow, if_neg h, leAt, Nat.mul_zero, hfirst, BitVec.toNat_ofNat, Nat.mod_eq_of_lt hlt, leAt]

/-! ### POLICER_WRITE (R430) -/

theorem State.writePolicer_eq (s : State) (n : RegName) (i j key : Nat) (data : Word) :
    s.writePolicer n i j key data =
      { s with regs := (s.writePlain n i j data).regs
               policers := mapSet s.policers key ⟨8000 * bitsOf ((s.writePlain n i j data).reg n i j).toNat 24 24, s.clock.mono⟩ } := by
  rw [State.writePolicer, State.fillBucket, s.writePlain_eq]

/-! ### CBS_WRITE (R434) -/

@[simp] theorem State.port_setPort_same (s : State) (p : Nat) (x : Port) : (s.setPort p x).port p = x := by
  simp [State.port, State.setPort, mapGetD]

/-- Late writes of SHP_CBS change registers alone. -/
theorem State.foldl_setReg_cbs_eq (p : Nat) (l : KMap Word) (s : State) :
    l.foldl (fun (s : State) w => s.setReg .shpCbs p w.1 w.2) s =
      { s with regs := (l.foldl (fun (s : State) w => s.setReg .shpCbs p w.1 w.2) s).regs } := by
  induction l generalizing s with
  | nil => rfl
  | cons w l ih => exact ih (s.setReg .shpCbs p w.1 w.2)

/-- Bringing a port's credits up to now changes the ports and, by late writes, registers. -/
theorem State.settle_eq (s : State) (p : Nat) : s.settle p = { s with regs := (s.settle p).regs, ports := (s.settle p).ports } := by
  unfold State.settle
  dsimp only
  split
  · rw [State.foldl_setReg_cbs_eq]
    rfl
  · rfl

/-- The word that a write of SHP_CBS gives the shaper: the merged fields, and FILL as written. -/
def State.cbsWord (s : State) (p c : Nat) (data : Word) : Word :=
  BitVec.ofNat 64 (setBitsOf (mergeWrite RegName.shpCbs.row.fields s.sealed (s.reg .shpCbs p c).toNat data.toNat) 1 1 (bitsOf data.toNat 1 1))

/-- SHP_CBS as it is stored: FILL reads 0. -/
theorem State.writeCbs_eq {s : State} {p c : Nat} {data : Word} (hkeep : keepsPrevious RegName.shpCbs.row.fields data.toNat = false)
    (hidle : (((s.settle p).port p).sending.elim false fun e => e.1 == c) = false) :
    s.writeCbs p c data =
      ((s.settle p).setReg .shpCbs p c (BitVec.ofNat 64 (setBitsOf (s.cbsWord p c data).toNat 1 1 0))).setPort p
        { (s.settle p).port p with
          credit := mapSet ((s.settle p).port p).credit c
            (if bitOf (s.cbsWord p c data).toNat 1 then 8000 * (bitsOf (s.cbsWord p c data).toNat 24 24 : Nat) else (0 : Int)) } := by
  simp [State.writeCbs, s.mergeNamed_of_no_pair (n := .shpCbs) (fun _ => rfl), hkeep, State.writeShaper, hidle, State.cbsWord]

theorem State.cbsWord_toNat (s : State) (p c : Nat) (data : Word) :
    (s.cbsWord p c data).toNat =
      setBitsOf (mergeWrite RegName.shpCbs.row.fields s.sealed (s.reg .shpCbs p c).toNat data.toNat) 1 1 (bitsOf data.toNat 1 1) := by
  rw [State.cbsWord, BitVec.toNat_ofNat, Nat.mod_eq_of_lt (setBitsOf_lt _ _ _ _ _ (mergeWrite_lt .shpCbs _ _ _) (by decide))]

/-- An RW field of the shaper's word is the value written, when that is in its range. -/
theorem State.bitsOf_cbsWord (s : State) (p c : Nat) {data : Word} {f : Field} (hm : f ∈ RegName.shpCbs.row.fields) (ha : f.acc = .rw)
    (hv : f.min ≤ bitsOf data.toNat f.lo f.width ∧ bitsOf data.toNat f.lo f.width ≤ f.max)
    (hapart : f.lo + f.width ≤ 1 ∨ 1 + 1 ≤ f.lo) :
    bitsOf (s.cbsWord p c data).toNat f.lo f.width = bitsOf data.toNat f.lo f.width := by
  rw [s.cbsWord_toNat, bitsOf_setBitsOf_other _ _ _ _ _ _ hapart, bitsOf_mergeWrite .shpCbs _ _ _ hm, Field.written_of_range ha _ _ hv]

theorem State.bitOf_cbsWord (s : State) (p c : Nat) (data : Word) : bitOf (s.cbsWord p c data).toNat 1 = bitOf data.toNat 1 := by
  have h : bitsOf (s.cbsWord p c data).toNat 1 1 = bitsOf data.toNat 1 1 := by
    rw [s.cbsWord_toNat, bitsOf_setBitsOf_same, Nat.mod_eq_of_lt (bitsOf_lt _ _ _)]
  simpa [bitOf, bitsOf] using congrArg (fun b => decide (b = 1)) h

/-- A field of the word that is stored, apart from FILL. -/
theorem bitsOf_clearFill (v : Word) {lo w : Nat} (hapart : lo + w ≤ 1 ∨ 1 + 1 ≤ lo) :
    bitsOf (BitVec.ofNat 64 (setBitsOf v.toNat 1 1 0)).toNat lo w = bitsOf v.toNat lo w := by
  rw [BitVec.toNat_ofNat, Nat.mod_eq_of_lt (setBitsOf_lt _ _ _ _ _ v.isLt (by decide)), bitsOf_setBitsOf_other _ _ _ _ _ _ hapart]

end Sys2Proof.Machine
end

