-- ==== Sys2Proof/Proofs/KeysAndRates.lean ====
section
/-! The registers of keys, isolation, tickets, repair, log window, policers and shapers do on a write what their chapters say: one lemma
per clause of O11, and the obligation. -/

namespace Sys2Proof.Machine

/-! ### What stays -/

/-- A state that differs in registers and management flash alone keeps the rest of the device. -/
theorem SameBulk.of_regs_nv {s t : State} (h : t = { s with regs := t.regs, nv := t.nv }) : SameBulk s t := by
  rw [h]
  exact ⟨⟨rfl, rfl, rfl, rfl, rfl, rfl, rfl⟩, ⟨rfl, rfl, rfl, rfl⟩, ⟨rfl, rfl, rfl, rfl, rfl⟩, ⟨rfl, rfl, rfl, rfl, rfl⟩, ⟨rfl, rfl⟩,
    rfl, rfl⟩

/-- The parts that policers and shapers do not reach. -/
def SameButShaping (s t : State) : Prop :=
  SameMemory s t ∧ SameCompute s t ∧ SameSearch s t ∧ SameRings s t ∧ t.depots = s.depots ∧ t.nv = s.nv

/-- A state that differs in registers, ports and policers alone. -/
theorem SameButShaping.of_eq {s t : State} (h : t = { s with regs := t.regs, ports := t.ports, policers := t.policers }) :
    SameButShaping s t := by
  rw [h]
  exact ⟨⟨rfl, rfl, rfl, rfl, rfl, rfl, rfl⟩, ⟨rfl, rfl, rfl, rfl⟩, ⟨rfl, rfl, rfl, rfl, rfl⟩, ⟨rfl, rfl⟩, rfl, rfl⟩

/-! ### Policers and shapers -/

/-- A policer's fields in range are stored and its bucket is filled, at either kind of port. -/
theorem State.writePolicer_acts (s : State) {n : RegName} {i j top : Nat} {data : Word} (hn : n = .shpJpol ∨ n = .shpCclpol)
    (hfound : n.foundAt i j = true)
    (hfields : n.row.fields =
      [⟨0, 1, .rw, 0, 0, 1, false⟩, ⟨4, 20, .rw, 0, 0, top, false⟩, ⟨24, 24, .rw, 16384, 4128, 16777215, false⟩])
    (hv : bitsOf data.toNat 4 20 ≤ top ∧ 4128 ≤ bitsOf data.toNat 24 24) (key : Nat) :
    bitsOf ((s.writePolicer n i j key data).reg n i j).toNat 0 1 = data.toNat % 2 ∧
      bitsOf ((s.writePolicer n i j key data).reg n i j).toNat 4 20 = bitsOf data.toNat 4 20 ∧
      bitsOf ((s.writePolicer n i j key data).reg n i j).toNat 24 24 = bitsOf data.toNat 24 24 ∧
      mapGet (s.writePolicer n i j key data).policers key = some (Bucket.mk (8000 * bitsOf data.toNat 24 24) s.clock.mono) ∧
      SameButShaping s (s.writePolicer n i j key data) := by
  have hb : n ≠ .glbBadacc := by rcases hn with rfl | rfl <;> decide
  have hp : ∀ v, pairRule n v = none := by rcases hn with rfl | rfl <;> exact fun _ => rfl
  have hfld := fun f hm => s.fld_writePlain_rw (data := data) (f := f) hfound hb hp (by rw [hfields]; exact hm)
  have hburst := hfld ⟨24, 24, .rw, 16384, 4128, 16777215, false⟩ (by simp) rfl ⟨hv.2, (bitsOf_le _ _ _).2⟩
  rw [State.writePolicer_eq, hburst]
  exact ⟨(hfld ⟨0, 1, .rw, 0, 0, 1, false⟩ (by simp) rfl (bitsOf_le _ _ _)).trans (bitsOf_zero_one _),
    hfld ⟨4, 20, .rw, 0, 0, top, false⟩ (by simp) rfl ⟨Nat.zero_le _, hv.1⟩, hburst, mapGet_mapSet_same _ _ _, .of_eq rfl⟩

/-- The credit is written after the port's credits are brought up to now. -/
theorem State.writeCbs_acts {s : State} {p c : Nat} {data : Word} (hv : bitsOf data.toNat 4 20 ≤ 800000 ∧ 4128 ≤ bitsOf data.toNat 24 24)
    (hidle : (((s.settle p).port p).sending.elim false fun e => e.1 == c) = false) :
    (s.writeCbs p c data).fld SHP_CBS_EN p c = data.toNat % 2 ∧ (s.writeCbs p c data).fld SHP_CBS_HICREDIT p c = bitsOf data.toNat 24 24 ∧
      mapGet ((s.writeCbs p c data).port p).credit c =
        some (if bitOf data.toNat 1 then 8000 * (bitsOf data.toNat 24 24 : Int) else 0) ∧
      SameButShaping s (s.writeCbs p c data) := by
  have hbit : bitsOf data.toNat 0 1 ≤ 1 := (bitsOf_le _ _ _).2
  have hhi : 4128 ≤ bitsOf data.toNat 24 24 ∧ bitsOf data.toNat 24 24 ≤ 16777215 := ⟨hv.2, (bitsOf_le _ _ _).2⟩
  have hkeep : keepsPrevious RegName.shpCbs.row.fields data.toNat = false := by
    simp [keepsPrevious, RegName.row, hv.1, hhi, hbit]
  have hen := s.bitsOf_cbsWord p c (data := data) (f := ⟨0, 1, .rw, 0, 0, 1, false⟩) (by decide) rfl ⟨Nat.zero_le _, hbit⟩ (by decide)
  have hburst := s.bitsOf_cbsWord p c (data := data) (f := ⟨24, 24, .rw, 16384, 4128, 16777215, false⟩) (by decide) rfl hhi (by decide)
  have heq := State.writeCbs_eq hkeep hidle
  rw [State.bitOf_cbsWord, hburst] at heq
  have hreg : (s.writeCbs p c data).reg .shpCbs p c = BitVec.ofNat 64 (setBitsOf (s.cbsWord p c data).toNat 1 1 0) := by
    rw [heq]
    exact State.reg_setReg_same _ _ _ _ _
  refine ⟨?_, ?_, ?_, ?_⟩
  · rw [State.fld, hreg, bitsOf_clearFill _ (by decide), hen, bitsOf_zero_one]
  · rw [State.fld, hreg, bitsOf_clearFill _ (by decide), hburst]
  · rw [heq, State.port_setPort_same, mapGet_mapSet_same]
  · rw [heq, State.settle_eq]
    exact .of_eq rfl

/-! ### The clauses -/

section
variable {s : State} (hw : s.writable = true)
include hw

/-- Every domain's last counter is 0 once the key is stored. -/
theorem State.keyCommit_completes {a b c d : Word} (hs : s.sealed = false) (hk : s.nv.ock = none)
    (hq : s.stm.opkey = [some a, some b, some c, some d]) :
    Completes (.keyCommit 1) s fun t =>
      t.nv.ock = some (leBytes 8 a.toNat ++ leBytes 8 b.toNat ++ leBytes 8 c.toNat ++ leBytes 8 d.toNat) ∧ t.lastCounter 0 = 0 ∧
        t.lastCounter 1 = 0 ∧ t.lastCounter 2 = 0 ∧ t.nv.retired = s.nv.retired ∧ SameBulk s t := by
  refine ⟨s.writeKeyctl 1, ?_, ?_⟩
  · change Host.Outcome.next (s.writeAt .secKeyctl 0 0 1) = _
    rw [State.writeAt_keyctl hw]
  · rw [State.writeKeyctl_one hs hk hq]
    refine ⟨rfl, ?_, ?_, State.lastCounter_setFld_zero _ _, rfl, .of_regs_nv rfl⟩
    · rw [State.lastCounter_setFld_other _ _ (by decide), State.lastCounter_setFld_other _ _ (by decide), State.lastCounter_setFld_zero]
    · rw [State.lastCounter_setFld_other _ _ (by decide), State.lastCounter_setFld_zero]

theorem State.isolWrite_completes {data : Word} (hmv : 550 ≤ bitsOf data.toNat 16 10 ∧ bitsOf data.toNat 16 10 ≤ 850) :
    Completes (.isolWrite data) s fun t =>
      t.fld SEC_ISOL_RAILFIX = data.toNat % 2 ∧ t.fld SEC_ISOL_TEMPCOARSE = bitsOf data.toNat 1 1 ∧
        t.fld SEC_ISOL_NETTDM = bitsOf data.toNat 2 1 ∧ t.fld SEC_ISOL_JDTDM = bitsOf data.toNat 3 1 ∧
        t.fld SEC_ISOL_RAILMV = bitsOf data.toNat 16 10 ∧ t = { s with regs := t.regs } := by
  have hfound : RegName.secIsol.foundAt 0 0 = true := by decide +kernel
  have hfld := fun f => s.fld_writePlain_rw (data := data) (f := f) hfound (by decide) (fun _ => rfl)
  refine ⟨s.writePlain .secIsol 0 0 data, ?_, (hfld ⟨0, 1, .rw, 0, 0, 1, false⟩ (by decide) rfl (bitsOf_le _ _ _)).trans (bitsOf_zero_one _),
    hfld ⟨1, 1, .rw, 0, 0, 1, false⟩ (by decide) rfl (bitsOf_le _ _ _), hfld ⟨2, 1, .rw, 1, 0, 1, false⟩ (by decide) rfl (bitsOf_le _ _ _),
    hfld ⟨3, 1, .rw, 0, 0, 1, false⟩ (by decide) rfl (bitsOf_le _ _ _), hfld ⟨16, 10, .rw, 720, 550, 850, false⟩ (by decide) rfl hmv,
    s.writePlain_eq .secIsol 0 0 data⟩
  change Host.Outcome.next (s.writeAt .secIsol 0 0 data) = _
  rw [State.writeAt_plain hw hfound rfl rfl]

/-- The window lies above STM_LOGSEL, so filling it leaves SEQ and GONE. -/
theorem State.logselWrite_completes (data : Word) :
    Completes (.logselWrite data) s fun t =>
      t.fld STM_LOGSEL_SEQ = data.toNat % 2 ^ 32 ∧ t.fld STM_LOGSEL_GONE = (if data.toNat % 2 ^ 32 < s.stm.logTail then 1 else 0) ∧
        (¬ data.toNat % 2 ^ 32 < s.stm.logTail →
          (t.reg .stmLogwin 0 0).toNat = leAt (bytesAt (s.logEntryAt (data.toNat % 2 ^ 32)) 0 128) 0 8) ∧
        t = { s with regs := t.regs } := by
  refine ⟨s.writeLogsel data, ?_, ?_⟩
  · change Host.Outcome.next (s.writeAt .stmLogsel 0 0 data) = _
    rw [State.writeAt_logsel hw]
  · rw [State.writeLogsel_eq]
    refine ⟨?_, ?_, fun h => ?_, State.fillLogwin_eq _ _ _⟩
    · rw [State.fld, State.fillLogwin_reg_below _ (by decide), ← State.fld,
        State.fld_setFld_field _ STM_LOGSEL_GONE STM_LOGSEL_SEQ _ 0 0 rfl (by decide) (by decide),
        State.fld_setFld_same _ STM_LOGSEL_SEQ _ 0 0 (by decide), Nat.mod_mod]
    · rw [State.fld, State.fillLogwin_reg_below _ (by decide), ← State.fld, State.fld_setFld_same _ STM_LOGSEL_GONE _ 0 0 (by decide)]
      split <;> rfl
    · rw [State.fillLogwin_reg _ _ _ (.inl (by simp)), State.logWindow_zero h]

end

/-- Settles O11: every register stands where its write looks it up, and its behaviour stores the fields that are in range. -/
theorem keyIsolationAndRateRegistersAct : Obligations.KeyIsolationAndRateRegistersAct := by
  intro s hw
  refine ⟨fun i data hi hs hk => ?_, fun a b c d => State.keyCommit_completes hw, fun data hlo hhi => State.isolWrite_completes hw ⟨hlo, hhi⟩,
    fun data n x hx hf => ?_, fun data n x hx hf => ?_, fun data n x hx => ?_, State.logselWrite_completes hw,
    fun port cls data hp hc ha hv => ?_, fun port cls data hp hv => ?_, fun port cls data hp hc ha hv hidle => ?_,
    fun port cls data hp hc ha hv => ?_, fun port cls data hp hc ha => ⟨?_, ?_, ?_⟩⟩
  · change Host.Outcome.next (s.writeAt .secOpkey i 0 data) = _
    rw [State.writeAt_opkey hw data hi]
    simp [State.writeOpkey, hs, hk]
  · change Host.Outcome.next (s.writeAt .srcTkthold 0 0 data) = _
    rw [State.writeAt_tkthold hw]
    simp only [State.writeTkthold, hx, Nat.not_lt.mpr hf, if_false]
  · change Host.Outcome.next (s.writeAt .srcTkthold 0 0 data) = _
    rw [State.writeAt_tkthold hw]
    simp only [State.writeTkthold, hx, hf, if_true]
  · change Host.Outcome.next (s.writeAt .srcRepair 0 0 data) = _
    rw [State.writeAt_repair hw]
    simp [State.writeRepair, hx]
  · refine ⟨s.writePolicer .shpJpol port cls (16 * port + cls) data, ?_,
      s.writePolicer_acts (.inl rfl) (RegName.foundAt_class .shpJpol (by simp) port hp cls hc) rfl hv _⟩
    change Host.Outcome.next (s.writeAt .shpJpol port cls data) = _
    rw [State.writeAt_jpol hw data hp hc ha]
  · refine ⟨s.writePolicer .shpCclpol port 0 (128 + port) data, ?_,
      s.writePolicer_acts (.inr rfl) (RegName.foundAt_cclpol port hp) rfl hv _⟩
    change Host.Outcome.next (s.writeAt .shpCclpol port 0 data) = _
    rw [State.writeAt_cclpol hw data hp]
  · refine ⟨s.writeCbs port cls data, ?_, State.writeCbs_acts hv hidle⟩
    change Host.Outcome.next (s.writeAt .shpCbs port cls data) = _
    rw [State.writeAt_cbs hw data hp hc ha]
  · have hfound := RegName.foundAt_class .shpWeight (by simp) port hp cls hc
    have hval : bitsOf data.toNat 0 8 = data.toNat % 256 := by simp [bitsOf]
    refine ⟨s.writePlain .shpWeight port cls data, ?_, ?_, s.writePlain_eq .shpWeight port cls data⟩
    · change Host.Outcome.next (s.writeAt .shpWeight port cls data) = _
      rw [State.writeAt_plain hw hfound ha rfl]
    · refine (s.fld_writePlain_rw (f := ⟨0, 8, .rw, 16, 1, 255, false⟩) hfound (by decide) (fun _ => rfl) (by decide) rfl
        ⟨?_, (bitsOf_le _ _ _).2⟩).trans hval
      rw [hval]
      exact hv
  · exact congrArg Host.Outcome.next (State.writeAt_absent hw (RegName.foundAt_class .shpWeight (by simp) port hp cls hc) ha data)
  · exact congrArg Host.Outcome.next (State.writeAt_absent hw (RegName.foundAt_class .shpCbs (by simp) port hp cls hc) ha data)
  · exact congrArg Host.Outcome.next (State.writeAt_absent hw (RegName.foundAt_class .shpJpol (by simp) port hp cls hc) ha data)

end Sys2Proof.Machine
end

