-- ==== Sys2Proof/Proofs/TierAccounts.lean ====
section
/-! The accounts of the memory tiers: a charge changes the charges alone, pressure demotes pages, and a structure that is charged for
changes nothing else. -/

namespace Sys2Proof.Machine

/-! ### Charges (R341) -/

theorem State.charge_eq (s : State) (h : Holder) (sl tier bytes : Nat) : ∃ cs, s.charge h sl tier bytes = { s with charges := cs } := by
  unfold State.charge
  split <;> exact ⟨_, rfl⟩

theorem State.chargeAll_eq (s : State) (h : Holder) (sl : Nat) (l : List (Nat × Nat)) : ∃ cs, s.chargeAll h sl l = { s with charges := cs } := by
  refine List.foldlRecOn (motive := fun t => ∃ cs, t = { s with charges := cs }) l _ ?_ ?_
  · exact ⟨_, rfl⟩
  · rintro _ ⟨cs, rfl⟩ e -
    exact State.charge_eq { s with charges := cs } h sl e.1 e.2

theorem State.chargeHot_eq {s t : State} {h : Holder} {sl size : Nat} (e : s.chargeHot h sl size = some t) :
    ∃ cs, t = { s with charges := cs } := by
  unfold State.chargeHot at e
  split at e
  · cases e; exact ⟨_, rfl⟩
  · obtain ⟨p, -, rfl⟩ := Option.map_eq_some_iff.1 e
    split
    · exact s.charge_eq _ _ _ _
    · obtain ⟨cs, hcs⟩ := s.charge_eq h sl 2 (2 ^ 21 * (ceilDiv size (2 ^ 21) - p.2.length))
      rw [hcs]
      exact State.charge_eq { s with charges := cs } _ _ _ _

/-! ### Pressure (R343) -/

theorem State.pressure_eq (s : State) (sl need : Nat) : ∃ as rs, s.pressure sl need = { s with allocs := as, regs := rs } := by
  refine List.foldlRecOn (motive := fun t => ∃ as rs, t = { s with allocs := as, regs := rs }) (s.promoted sl) _ ?_ ?_
  · exact ⟨_, _, rfl⟩
  · rintro _ ⟨as, rs, rfl⟩ e -
    split <;> exact ⟨_, _, rfl⟩

theorem State.roomFor_eq {s t : State} {sl : Nat} {l : List (Nat × Nat)} (e : s.roomFor sl l = some t) :
    ∃ as rs, t = { s with allocs := as, regs := rs } := by
  unfold State.roomFor at e
  dsimp only at e
  split at e
  · cases e; exact s.pressure_eq _ _
  · cases e

/-- What a sequence takes is charged to its slice, once promoted pages have made room for it. -/
theorem State.chargeSeq_eq {s t : State} {n : Nat} {q : Seq} (e : s.chargeSeq n q = some t) :
    ∃ as rs cs, t = { s with allocs := as, regs := rs, charges := cs } := by
  obtain ⟨u, hroom, hhot⟩ := Option.bind_eq_some_iff.1 e
  obtain ⟨as, rs, rfl⟩ := State.roomFor_eq hroom
  refine List.foldlRecOn (motive := fun acc => ∀ t, acc = some t → ∃ as rs cs, t = { s with allocs := as, regs := rs, charges := cs })
    q.hotArrays _ ?_ ?_ t hhot
  · rintro t ⟨rfl⟩
    obtain ⟨cs, hcs⟩ := State.chargeAll_eq { s with allocs := as, regs := rs } (.seq n) q.slice q.needs
    exact ⟨as, rs, cs, hcs⟩
  · intro acc hacc size _ t ht
    obtain ⟨v, rfl, hv⟩ := Option.bind_eq_some_iff.1 ht
    obtain ⟨as, rs, cs, rfl⟩ := hacc v rfl
    obtain ⟨ds, rfl⟩ := State.chargeHot_eq hv
    exact ⟨as, rs, ds, rfl⟩

end Sys2Proof.Machine
end

