-- ==== Sys2Proof/Proofs/TablesAndSequences.lean ====
section
/-! The commands that open, feed and close embedding tables and attention sequences: what each answers once its checks have passed. -/

namespace Sys2Proof.Machine

/-- The end of a command, in the terms of the statements. -/
theorem State.ended_finish {s : State} {c : Cmd} {st : Nat} {o : Bytes} {k : Nat} : Ended c st (s.finish c st o k) := by
  simp [Ended, State.cmd_finish]

/-! ### TABLE_OPEN and TABLE_CLOSE (R157, R464) -/

theorem State.tableOpen_of_room {s u : State} {r seq : Nat} {c : Cmd} {x : Table} (hrun : s.running r seq 0x0020 = some c)
    (hx : x = c.table (nodeList (s.payload c)) ((nodeList (s.payload c)).findIdx fun d => d == s.node) (s.reg .memTblcfg 0 0).toNat)
    (hzero : c.unusedZero [(32, 2), (40, 14), (56, 13)] = true) (hbad : x.bad (c.par 32 2) = false) (hrepl : c.par 68 1 ≤ 1)
    (hdevs : s.devsBad (s.payload c) 256 = false) (hnew : mapGet s.tables (c.par 32 2) = none)
    (hsmall : x.repl = false ∨ x.rows * (x.rowSize + x.stateSize) ≤ s.fld MEM_TBLCFG_REPLSMALL * 2 ^ 26)
    (hroom : ((s.chargeHot (.table (c.par 32 2)) c.slice ((if x.repl then x.rows else x.homeRows x.mine) * x.rowSize)).bind fun u =>
      u.chargeHot (.table (c.par 32 2)) c.slice ((if x.repl then x.rows else x.homeRows x.mine) * x.stateSize)) = some u) :
    s.tableOpen r seq = (u.setTable (c.par 32 2) x).finish c stOK := by
  have hlarge : (x.repl && decide (s.fld MEM_TBLCFG_REPLSMALL * 2 ^ 26 < x.rows * (x.rowSize + x.stateSize))) = false := by
    rcases hsmall with h | h
    · rw [h, Bool.false_and]
    · rw [decide_eq_false (Nat.not_lt.mpr h), Bool.and_false]
  unfold State.tableOpen
  simp only [hrun, ← hx, hzero, hbad, hdevs, hnew, hlarge, hroom, decide_eq_false (Nat.not_lt.mpr hrepl), Bool.not_true, Bool.or_false,
    Option.isSome_none, Bool.false_eq_true, if_false]

theorem State.tableClose_of_open {s : State} {r seq : Nat} {c : Cmd} {x : Table} (hrun : s.running r seq 0x0021 = some c)
    (hzero : c.unusedZero [(32, 2)] = true) (hopen : mapGet s.tables (c.par 32 2) = some x) (hslice : x.slice = c.slice) :
    s.tableClose r seq =
      ({ s.discharge (.table (c.par 32 2)) with tables := mapErase s.tables (c.par 32 2) } : State).finish c stOK := by
  simp [State.tableClose, hrun, hzero, hopen, hslice, Option.filter]

/-! ### SEQ_OPEN and SEQ_CLOSE (R237, R239, R243) -/

theorem State.openGraphs_eq (s : State) (q : Seq) : ∃ is, s.openGraphs q = { s with indexes := is } := by
  unfold State.openGraphs
  split
  · refine List.foldlRecOn (motive := fun t => ∃ is, t = { s with indexes := is }) _ _ ?_ ?_
    · exact ⟨_, rfl⟩
    · rintro _ ⟨is, rfl⟩ i -
      exact ⟨_, rfl⟩
  · exact ⟨_, rfl⟩

theorem State.foldl_dropIndex_eq (l : List Nat) (s : State) :
    ∃ is cs ps, l.foldl (fun (s : State) i => s.dropIndex i) s = { s with indexes := is, charges := cs, poison := ps } := by
  refine List.foldlRecOn (motive := fun t => ∃ is cs ps, t = { s with indexes := is, charges := cs, poison := ps }) l _ ?_ ?_
  · exact ⟨_, _, _, rfl⟩
  · rintro _ ⟨is, cs, ps, rfl⟩ i -
    exact ⟨_, _, _, rfl⟩

theorem State.seqOpen_of_room {s u : State} {r seq need : Nat} {c : Cmd} {p : Nat × Alloc} {q : Seq} (hrun : s.running r seq 0x0028 = some c)
    (hbad : c.seqBad = false) (hdevs : s.devsBad (s.payload c) 16 = false) (hspread : (nodeList (s.payload c)).length = c.par 44 1)
    (hnew : mapGet s.seqs (c.par 32 2) = none) (hproj : s.named c.slice (c.par 56 8) = some p)
    (hneed : need = c.par 34 2 * c.par 36 1 * (256 * 2 ^ c.par 41 1) * c.par 38 2) (hfits : need ≤ p.2.size)
    (hread : s.readStatus p.1 0 need = none)
    (hq : q = c.seqArgs (nodeList (s.payload c)) ((nodeList (s.payload c)).findIdx fun d => d == s.node) (s.allocBytes p.1 0 need))
    (hgraphs : (q.graph && (List.range (q.layers * q.kvh)).any fun i => (s.index (q.ibase + i)).isSome) = false)
    (hroom : s.chargeSeq (c.par 32 2) q = some u) :
    s.seqOpen r seq = ((u.setSeq (c.par 32 2) q).openGraphs q).finish c stOK := by
  unfold State.seqOpen
  simp only [hrun, hbad, hdevs, hspread, hnew, hproj, ← hneed, ← hq, hgraphs, hread, hroom, hfits, Option.filter, ne_eq, not_true_eq_false,
    decide_false, decide_true, Bool.or_false, Option.isSome_none, Bool.false_eq_true, if_false, if_true]

theorem State.seqClose_of_idle {s : State} {r seq : Nat} {c : Cmd} {q : Seq} (hrun : s.running r seq 0x0029 = some c)
    (hrange : c.par 32 2 ≤ 4095) (hzero : c.unusedZero [(32, 2)] = true) (hopen : s.seqOf c.slice (c.par 32 2) = some q)
    (hidle : (s.activeWalks.any fun w => q.graphs.contains w.index) = false) :
    ∃ is cs ps, s.seqClose r seq =
      ({ s with seqs := mapErase s.seqs (c.par 32 2), indexes := is, charges := cs, poison := ps } : State).finish c stOK := by
  obtain ⟨is, cs, ps, hdrop⟩ := State.foldl_dropIndex_eq q.graphs (s.discharge (.seq (c.par 32 2)))
  refine ⟨is, cs, ps.filter fun p => p.alloc != seqArea (c.par 32 2), ?_⟩
  unfold State.seqClose
  simp only [hrun, hzero, hopen, hidle, decide_eq_false (Nat.not_lt.mpr hrange), Bool.not_true, Bool.or_false, Bool.false_eq_true, if_false, hdrop]
  rfl

/-! ### KVAPPEND (R240, R241, R243, R248) -/

@[simp] theorem mapGet_mapUpdate_same {α : Type} (m : KMap α) (k : Nat) (f : α → α) : mapGet (mapUpdate m k f) k = (mapGet m k).map f := by
  unfold mapUpdate
  split
  · next v h => rw [mapGet_mapSet_same, h, Option.map_some]
  · next h => rw [h, Option.map_none]

/-- What an append may change on its way: the indexes and the sequences, among which sequence `n` stays open. -/
def State.AppendsTo (n : Nat) (s t : State) : Prop := ∃ is qs, t = { s with indexes := is, seqs := qs } ∧ (mapGet qs n).isSome = true

theorem State.AppendsTo.refl {n : Nat} {s : State} (h : (mapGet s.seqs n).isSome = true) : s.AppendsTo n s := ⟨_, _, rfl, h⟩

theorem State.AppendsTo.opened {n : Nat} {s t : State} (h : s.AppendsTo n t) : (mapGet t.seqs n).isSome = true := by
  obtain ⟨is, qs, rfl, hn⟩ := h
  exact hn

theorem State.AppendsTo.trans {n : Nat} {s t u : State} (h : s.AppendsTo n t) (k : t.AppendsTo n u) : s.AppendsTo n u := by
  obtain ⟨is, qs, rfl, -⟩ := h
  obtain ⟨js, rs, rfl, hn⟩ := k
  exact ⟨js, rs, rfl, hn⟩

theorem State.AppendsTo.foldl {α : Type} {n : Nat} {s t : State} {f : State → α → State} (h : s.AppendsTo n t)
    (hf : ∀ (u : State) (a : α), (mapGet u.seqs n).isSome = true → u.AppendsTo n (f u a)) (l : List α) : s.AppendsTo n (l.foldl f t) :=
  List.foldlRecOn (motive := s.AppendsTo n) l f h fun u hu a _ => hu.trans (hf u a hu.opened)

theorem State.appendPos_appendsTo {n : Nat} {s : State} (h : (mapGet s.seqs n).isSome = true) (q : Seq) (layer pos i : Nat) (keys vals : Bytes) :
    s.AppendsTo n (s.appendPos n q layer pos i keys vals) := by
  refine (State.AppendsTo.refl h).foldl (fun t j ht => ?_) _
  have hn : (mapGet (mapUpdate t.seqs n fun (p : Seq) => p.appendOne layer j pos (payloadVec keys q.dh (i * q.kvh + j))
      (payloadVec vals q.dh (i * q.kvh + j))) n).isSome = true := by
    rw [mapGet_mapUpdate_same, Option.isSome_map, ht]
  dsimp only
  split <;> exact ⟨_, _, rfl, hn⟩

/-- The positions of an append whose home is this device, counted from its first. -/
def Cmd.appendsHere (c : Cmd) (q : Seq) : List Nat := (List.range (c.par 40 4)).filter fun i => q.isHome (c.par 36 4 + i)

theorem State.kvappend_of_room {s : State} {r seq : Nat} {c : Cmd} {q : Seq} (hrun : s.running r seq 0x002A = some c)
    (hzero : c.unusedZero [(32, 12)] = true) (hrange : c.par 32 2 ≤ 4095) (hlow : 1 ≤ c.par 40 4) (hhigh : c.par 40 4 ≤ 65536)
    (hopen : s.seqOf c.slice (c.par 32 2) = some q) (hlayer : c.par 34 2 < q.layers) (hlen : c.paylen = 2 * (c.par 40 4 * q.kvh * q.dh * 2))
    (hfirst : s.appendBefore c = false) (hnext : c.par 36 4 = q.count (c.par 34 2)) (hsize : c.par 36 4 + c.par 40 4 ≤ q.size)
    (hroom : (if q.graph then (List.range q.kvh).any (fun h => (s.graphRoom (q.ibase + q.head (c.par 34 2) h) (c.appendsHere q).length).isNone)
      else false) = false) :
    ∃ u, s.AppendsTo (c.par 32 2) u ∧ s.kvappend r seq =
      (({ u with seqs := mapUpdate u.seqs (c.par 32 2) fun (p : Seq) =>
          { p with nkeys := mapSet p.nkeys (c.par 34 2) (c.par 36 4 + c.par 40 4) } } : State).count
        CMP_KEYAPP_COUNT ((c.appendsHere q).length * q.kvh)).finish c stOK [] (c.par 40 4) := by
  unfold Cmd.appendsHere at *
  have hgraphs : ((if q.graph then (List.range q.kvh).map fun h => q.ibase + q.head (c.par 34 2) h else []).any fun g =>
      (s.graphRoom g ((List.range (c.par 40 4)).filter fun i => q.isHome (c.par 36 4 + i)).length).isNone) = false := by
    cases hg : q.graph with
    | true => rw [hg, if_pos rfl] at hroom; rwa [if_pos rfl, List.any_map]
    | false => rfl
  have hn : (mapGet s.seqs (c.par 32 2)).isSome = true := by
    obtain ⟨hq, -⟩ := Option.filter_eq_some_iff.1 hopen
    rw [hq, Option.isSome_some]
  unfold State.kvappend
  simp only [hrun, hzero, hopen, hlen, hfirst, hgraphs, ← hnext, decide_eq_false (Nat.not_lt.mpr hrange),
    decide_eq_false (Nat.not_lt.mpr hhigh), decide_eq_false (Nat.not_le.mpr hlayer), Nat.not_lt.mpr hsize,
    decide_eq_false (Nat.ne_of_gt hlow), ne_eq, not_true_eq_false, decide_false, Bool.not_true, Bool.or_false, Bool.false_eq_true, if_false]
  refine ⟨_, ((State.AppendsTo.refl hn).foldl (fun t g ht => ?_) _).foldl (fun t i ht => ?_) _, rfl⟩
  · split
    · exact ⟨_, _, rfl, ht⟩
    · exact .refl ht
  · exact State.appendPos_appendsTo ht _ _ _ _ _ _

/-! ### ATTEND (R242 to R251) -/

theorem State.attend_of_answers {s u : State} {r seq se : Nat} {c : Cmd} {remote rest : List Bytes} {q : Seq} {out : Bytes}
    (hrun : s.running r seq 0x002B = some c) (hchecks : s.attendStatus c = none) (hopen : s.seqOf c.slice c.attnArgs.seq = some q)
    (hselector : (s.sliceSelectors c.slice).head? = some se) (hscratch : c.attnArgs.scratch q ≤ s.free c.slice 2)
    (hheads : s.attendAll c q (q.count c.attnArgs.layer) (s.payload c) (List.range (c.attnArgs.nq * q.kvh * q.group)) remote =
      .ok (some (u, out, rest))) :
    s.attend r seq remote .clean = (u.count CMP_ATTNCALLS_COUNT).finish c stOK out := by
  simp [State.attend, State.selCheck, hrun, hchecks, hopen, hselector, Nat.not_lt.mpr hscratch, hheads]

/-- Settles O17: each command's answer is the equation of its lemma, from which the parts that it changes are read off. -/
theorem tablesAndSequencesOpenTakeDataAndClose : Obligations.TablesAndSequencesOpenTakeDataAndClose := by
  intro s
  refine ⟨?tableOpen, ?tableClose, ?seqOpen, ?seqClose, ?kvappend, ?attend⟩
  case tableOpen =>
    rintro r seq c _ x hrun rfl hx hzero hbad hrepl hdevs hnew hsmall hroom
    obtain ⟨v, hv⟩ := Option.isSome_iff_exists.1 hroom
    obtain ⟨u, hrows, hstates⟩ := Option.bind_eq_some_iff.1 hv
    obtain ⟨cs, rfl⟩ := State.chargeHot_eq hrows
    obtain ⟨ds, rfl⟩ := State.chargeHot_eq hstates
    exact ⟨_, congrArg Host.Outcome.next (State.tableOpen_of_room hrun hx hzero hbad hrepl hdevs hnew hsmall hv), mapGet_mapSet_same _ _ _,
      State.ended_finish, rfl, rfl, rfl, rfl, rfl, rfl⟩
  case tableClose =>
    rintro r seq c _ x hrun rfl hzero hopen hslice
    exact ⟨_, congrArg Host.Outcome.next (State.tableClose_of_open hrun hzero hopen hslice), rfl, State.ended_finish, rfl, rfl, rfl, rfl,
      rfl, rfl, rfl⟩
  case seqOpen =>
    rintro r seq c _ need p q hrun rfl hbad hdevs hspread hnew hproj hneed hfits hread hq hgraphs hroom
    obtain ⟨u, hu⟩ := Option.isSome_iff_exists.1 hroom
    obtain ⟨is, his⟩ := (u.setSeq (c.par 32 2) q).openGraphs_eq q
    have hopened := State.seqOpen_of_room hrun hbad hdevs hspread hnew hproj hneed hfits hread hq hgraphs hu
    rw [his] at hopened
    obtain ⟨as, rs, cs, rfl⟩ := State.chargeSeq_eq hu
    exact ⟨_, congrArg Host.Outcome.next hopened, mapGet_mapSet_same _ _ _, State.ended_finish, rfl, rfl, rfl, rfl⟩
  case seqClose =>
    rintro r seq c _ q hrun rfl hrange hzero hopen hidle
    obtain ⟨is, cs, ps, hclosed⟩ := State.seqClose_of_idle hrun hrange hzero hopen hidle
    exact ⟨_, congrArg Host.Outcome.next hclosed, rfl, State.ended_finish, rfl, rfl, rfl, rfl, rfl⟩
  case kvappend =>
    rintro r seq c _ _ _ _ q hrun rfl rfl rfl rfl hzero hrange hlow hhigh hopen hlayer hlen hfirst hnext hsize hroom
    obtain ⟨_, ⟨is, qs, rfl, hn⟩, happended⟩ :=
      State.kvappend_of_room hrun hzero hrange hlow hhigh hopen hlayer hlen hfirst hnext hsize hroom
    obtain ⟨z, hz⟩ := Option.isSome_iff_exists.1 hn
    refine ⟨_, congrArg Host.Outcome.next happended, ?_, ?_, rfl, rfl, rfl, rfl, rfl⟩
    · simp [hz]
    · simp [State.cmd_finish]
  case attend =>
    intro r seq c remote rest q se u out hrun hchecks hopen hselector hscratch hheads
    exact congrArg Host.Outcome.next (State.attend_of_answers hrun hchecks hopen hselector hscratch hheads)

end Sys2Proof.Machine
end

