-- ==== Sys2Proof/Proofs/ByteStores.lean ====
section
/-! Bytes that an engine stores: the allocation that takes them, and the parts of the state that a store reaches. -/

namespace Sys2Proof.Machine

/-! ### Writes to flash (R347, R364) -/

theorem State.flushNow_eq (s : State) (j l : Nat) : ∃ ds, s.flushNow j l = { s with depots := ds } := by
  unfold State.flushNow
  dsimp only
  split <;> exact ⟨_, rfl⟩

theorem State.depotWrite_eq (s : State) (j ns unit : Nat) (block : Bytes) :
    ∃ ds rs, s.depotWrite j ns unit block = { s with depots := ds, regs := rs } := by
  fun_cases State.depotWrite
  case case5 =>
    exact (State.flushNow_eq _ _ _).elim fun ds hflush => ⟨ds, _, hflush⟩
  case case6 =>
    rename_i waited
    unfold waited
    split <;> exact ⟨_, _, rfl⟩
  all_goals exact ⟨_, _, rfl⟩

theorem State.writeFlash_eq (s : State) (id off n : Nat) : ∃ ds rs, s.writeFlash id off n = { s with depots := ds, regs := rs } := by
  unfold State.writeFlash
  split
  · exact ⟨_, _, rfl⟩
  · dsimp only
    split
    · exact ⟨_, _, rfl⟩
    · refine List.foldlRecOn (motive := fun t => ∃ ds rs, t = { s with depots := ds, regs := rs }) _ _ ?_ ?_
      · exact ⟨_, _, rfl⟩
      · rintro _ ⟨ds, rs, rfl⟩ k -
        split
        · exact State.depotWrite_eq { s with depots := ds, regs := rs } _ _ _ _
        · exact ⟨_, _, rfl⟩

/-! ### Stores (R222, R342, R344, R354) -/

theorem State.allocStore_eq (s : State) (id off : Nat) (bs : Bytes) :
    ∃ rs ms ps zs ds, s.allocStore id off bs =
      { s with allocs := mapUpdate s.allocs id fun a => ({ a with mem := memWrite a.mem off bs } : Alloc).touch off bs.length,
               regs := rs, moves := ms, poison := ps, zruns := zs, depots := ds } := by
  unfold State.allocStore mapUpdate State.alloc
  cases mapGet s.allocs id with
  | none => exact ⟨_, _, _, _, _, rfl⟩
  | some a =>
    dsimp only
    obtain ⟨ds, rs, hflash⟩ := State.writeFlash_eq _ id off bs.length
    rw [hflash]
    split <;> exact ⟨_, _, _, _, _, rfl⟩

/-- What a store leaves in the allocations depends on them, the address and the bytes alone. -/
theorem State.allocStore_allocs (s : State) (id off : Nat) (bs : Bytes) : (s.allocStore id off bs).allocs =
    mapUpdate s.allocs id fun a => ({ a with mem := memWrite a.mem off bs } : Alloc).touch off bs.length := by
  obtain ⟨_, _, _, _, _, hstore⟩ := s.allocStore_eq id off bs
  rw [hstore]

theorem State.storeRaw_eq (s : State) (x : Frame) (addr : Nat) (bs : Bytes) :
    ∃ rm as rs ms ps zs ds, s.storeRaw x addr bs =
      { s with ringMem := rm, allocs := as, regs := rs, moves := ms, poison := ps, zruns := zs, depots := ds } := by
  unfold State.storeRaw
  split
  · obtain ⟨_, _, _, _, _, hstore⟩ := s.allocStore_eq _ _ bs
    exact ⟨_, _, _, _, _, _, _, hstore⟩
  · exact ⟨_, _, _, _, _, _, _, rfl⟩
  · exact ⟨_, _, _, _, _, _, _, rfl⟩

/-- A table that changes first does not change where bytes are stored. -/
theorem State.storeRaw_setTable_allocs (s : State) (n : Nat) (t : Table) (x : Frame) (addr : Nat) (bs : Bytes) :
    ((s.setTable n t).storeRaw x addr bs).allocs = (s.storeRaw x addr bs).allocs := by
  have hplace : (s.setTable n t).resolve x addr bs.length true = s.resolve x addr bs.length true := rfl
  unfold State.storeRaw
  rw [hplace]
  split
  · rw [State.allocStore_allocs, State.allocStore_allocs, State.setTable_allocs]
  · rfl
  · rfl

end Sys2Proof.Machine
end

