-- ==== Sys2Proof/Proofs/TableRows.lean ====
section
/-! Rows of embedding tables: what a gather returns and which gradient contributions a device holds. -/

namespace Sys2Proof.Machine

/-! ### Counts and calls -/

theorem countUp_lt (f : FieldRef) (old k : Nat) : countUp f old k < 2 ^ f.width := by
  have hpos : 0 < 2 ^ f.width := Nat.pow_pos (by decide)
  unfold countUp
  split
  · omega
  · exact Nat.mod_lt _ hpos

/-- A counter that is counted up holds its next value whole. -/
theorem State.fld_count (s : State) (f : FieldRef) (k i j : Nat) (h : f.lo + f.width ≤ 64) :
    (s.count f k i j).fld f i j = countUp f (s.fld f i j) k := by
  rw [State.fld_count_same s f k i j h, Nat.mod_eq_of_lt (countUp_lt f _ k)]

theorem State.calls_completeCall (s : State) (id : Nat) (c : Call) (status count : Nat) :
    mapGet (s.completeCall id c status count).calls id = some { c with done := true, status := status, count := count } :=
  mapGet_mapSet_same _ _ _

theorem mapUpdate_of_get {α : Type} {m : KMap α} {k : Nat} {v : α} (f : α → α) (h : mapGet m k = some v) :
    mapUpdate m k f = mapSet m k (f v) := by
  rw [mapUpdate, h]

/-! ### GATHER (R162, R163) -/

/-- A gather of rows that all lie on this device takes nothing from the others. -/
theorem Table.gatherRows_own {t : Table} {rows : List Nat} (h : ∀ r ∈ rows, t.hasRow r t.tepoch = true) (remote : List Bytes) :
    t.gatherRows rows remote = some (rows.map t.value) := by
  induction rows with
  | nil => rfl
  | cons r rs ih =>
    obtain ⟨hr, hrs⟩ := List.forall_mem_cons.1 h
    unfold Table.gatherRows
    rw [if_pos hr, ih hrs, Option.map_some, List.map_cons]

/-- A gather whose rows all lie here writes them to its output. Two bytes in place of a row would be a status. -/
theorem State.gatherRun_own {s : State} {id : Nat} {c : Call} {x : Frame} {t : Table} (hrows : ∀ r ∈ s.callRows c x, t.hasRow r t.tepoch = true)
    (hwhole : ∀ r ∈ s.callRows c x, (t.value r).length ≠ 2)
    (hout : s.outStop x (c.at_ 24 8) (c.at_ 4 4 * if bitOf (c.at_ 1 1) 1 then 4 * t.w else t.rowSize) = none) (remote : List Bytes) :
    s.gatherRun id c x t remote =
      ((s.setTable (c.at_ 2 2) ((s.callRows c x).foldl (fun (y : Table) (r : Nat) => y.request r) t)).storeRaw x (c.at_ 24 8)
        ((s.callRows c x).flatMap fun r => t.outRow (bitOf (c.at_ 1 1) 1) (t.value r))).completeCall id c stOK (s.callRows c x).length := by
  have hstatus : ((s.callRows c x).map t.value).find? (fun b => b.length == 2) = none := by
    simpa using hwhole
  unfold State.gatherRun State.engineStore
  simp only [hout, Table.gatherRows_own hrows, List.filter_eq_self.2 hrows, hstatus, List.flatMap_map]

theorem State.gatherServe_call {s : State} {id sl : Nat} {c : Call} {x : Frame} {t : Table} (hopen : s.openCall id 4 = some (c, x, sl))
    (hbad : c.gatherBad = false) (htable : s.tableOf sl (c.at_ 2 2) = some t) (hread : s.engineStop x (c.at_ 16 8) (8 * c.at_ 4 4) = none)
    (hrange : ∀ r ∈ s.callRows c x, r < t.rows)
    (hepoch : t.epochTest (if bitOf (c.at_ 1 1) 0 then some (c.at_ 8 4) else none) = .serve) (remote : List Bytes) :
    s.gatherServe (.call id remote) = s.gatherRun id c x t remote := by
  have hin : ((s.callRows c x).any fun r => decide (t.rows ≤ r)) = false := by simpa using hrange
  simp only [State.gatherServe, hopen, hbad, htable, hread, hin, hepoch, Bool.false_eq_true, if_false]

/-! ### SCATADD (R164, R165) -/

theorem State.contributions_row_mem {s : State} {c : Call} {x : Frame} {t : Table} {k : Contribution} (h : k ∈ s.contributions c x t) :
    k.row ∈ s.callRows c x := by
  obtain ⟨i, hi, rfl⟩ := List.mem_map.1 h
  have hlt := List.mem_range.1 hi
  simp [hlt]

/-- An accumulate call whose rows are all owned here waits for no other device and holds every contribution. -/
theorem State.scatRun_own {s : State} {id : Nat} {c : Call} {x : Frame} {t : Table}
    (hown : ∀ r ∈ s.callRows c x, t.owner r t.tepoch = t.mine) (replies : List Nat) :
    s.scatRun id c x t replies =
      (s.setTable (c.at_ 2 2) ((s.contributions c x t).foldl (fun (y : Table) (e : Contribution) => y.hold e) t)).completeCall id c stOK
        (s.contributions c x t).length := by
  have hmine : ∀ k ∈ s.contributions c x t, t.owner k.row t.tepoch = t.mine := fun k hk => hown k.row (State.contributions_row_mem hk)
  have hothers : (((s.contributions c x t).map fun k => t.owner k.row t.tepoch).filter fun o => o != t.mine) = [] := by
    simpa using hmine
  have hall : ((s.contributions c x t).filter fun k => t.owner k.row t.tepoch == t.mine) = s.contributions c x t :=
    List.filter_eq_self.2 fun k hk => beq_iff_eq.2 (hmine k hk)
  unfold State.scatRun
  simp [hothers, hall]

theorem State.scataddAccumulate_call {s : State} {id sl : Nat} {c : Call} {x : Frame} {t : Table} (hopen : s.openCall id 5 = some (c, x, sl))
    (htype : c.at_ 0 1 = 0x21) (hbad : c.scatBad = false) (htable : s.tableOf sl (c.at_ 2 2) = some t) (hopt : t.opt ≠ 0)
    (hread : s.engineStop x (c.at_ 16 8) (8 * c.at_ 4 4) = none)
    (hgrads : s.engineStop x (c.at_ 24 8) (c.at_ 4 4 * roundUp t.w 64) = none) (hrange : ∀ r ∈ s.callRows c x, r < t.rows)
    (hepoch : t.epochTest (if bitOf (c.at_ 1 1) 0 then some (c.at_ 8 4) else none) = .serve) (replies : List Nat) :
    s.scataddAccumulate (.call id replies) = s.scatRun id c x t replies := by
  have hin : ((s.callRows c x).any fun r => decide (t.rows ≤ r)) = false := by simpa using hrange
  have hstop : (s.engineStop x (c.at_ 16 8) (8 * c.at_ 4 4) <|> s.engineStop x (c.at_ 24 8) (c.at_ 4 4 * roundUp t.w 64)) = none := by
    rw [hread, hgrads]; rfl
  have happly : (c.at_ 0 1 == 0x22) = false := by rw [htype]; rfl
  simp only [State.scataddAccumulate, hopen, happly, hbad, htable, hopt, hstop, hin, hepoch, Bool.false_eq_true, if_false]

end Sys2Proof.Machine
end

