-- ==== Sys2Proof/Proofs/TableEpochs.lean ====
section
/-! The epochs of embedding tables: APPLY, the directory changes that come with the next epoch, measurement intervals and migration. -/

namespace Sys2Proof.Machine

/-! ### What the directory and the bookkeeping of a table leave alone -/

/-- A table without its directory, its migrations and replications, and what an interval decides them by. -/
def Table.content (t : Table) : Table :=
  { t with dir := [], moves := [], toRepl := [], toHome := [], cold := [], overrun := 0, dirFull := 0, migrAbandoned := 0 }

theorem Table.fields_of_content {t u : Table} (h : t.content = u.content) :
    t.rows = u.rows ∧ t.w = u.w ∧ t.values = u.values ∧ t.states = u.states ∧ t.tepoch = u.tepoch ∧
      t.lastTotal = u.lastTotal ∧ t.age = u.age :=
  ⟨(congrArg Table.rows h :), (congrArg Table.w h :), (congrArg Table.values h :), (congrArg Table.states h :), (congrArg Table.tepoch h :),
    (congrArg Table.lastTotal h :), (congrArg Table.age h :)⟩

@[simp] theorem Table.content_update (t : Table) (dir moves toRepl toHome cold overrun dirFull migrAbandoned) :
    ({ t with dir := dir, moves := moves, toRepl := toRepl, toHome := toHome, cold := cold, overrun := overrun, dirFull := dirFull,
              migrAbandoned := migrAbandoned } : Table).content = t.content := (rfl)

@[simp] theorem foldl_content {α : Type} (f : Table → α → Table) (h : ∀ t a, (f t a).content = t.content) (l : List α) (t : Table) :
    (l.foldl f t).content = t.content :=
  List.foldlRecOn (motive := fun u => u.content = t.content) l f rfl fun u hu a _ => (h u a).trans hu

@[simp] theorem Table.addEntry_content (t : Table) (row place em) : (t.addEntry row place em).content = t.content := (rfl)

@[simp] theorem Table.endEntry_content (t : Table) (row ee) : (t.endEntry row ee).content = t.content := by
  unfold Table.endEntry
  split <;> rfl

@[simp] theorem Table.moveStep_content (t : Table) (row e) : (t.moveStep row e).content = t.content := by
  fun_cases Table.moveStep <;> simp +zetaDelta [apply_ite Table.content]

@[simp] theorem Table.install_content (t : Table) (e oldest) : (t.install e oldest).content = t.content := by
  simp [Table.install]

@[simp] theorem Table.startRepl_content (t : Table) (row) : (t.startRepl row).content = t.content := by
  unfold Table.startRepl
  split
  · split <;> rfl
  · rfl

@[simp] theorem Table.replStep_content (t : Table) (thr) : (t.replStep thr).content = t.content := by
  simp [Table.replStep]

@[simp] theorem Table.migrateGo_content (target left : Nat) (excess : Int) (rows : List (Nat × Nat)) (t : Table) :
    (Table.migrateGo target left excess rows t).content = t.content := by
  fun_induction Table.migrateGo
  case case4 ih => exact ih
  case case5 ih => exact ih
  all_goals rfl

@[simp] theorem Table.migrateStep_content (t : Table) (totals) : (t.migrateStep totals).content = t.content := by
  fun_cases Table.migrateStep
  · exact Table.migrateGo_content _ _ _ _ _
  · rfl

/-! ### APPLY (R161, R165 to R169) -/

/-- One more row of an APPLY: the table, the saturated elements and the rows left unchanged so far. -/
def Table.applyNext (lr : Nat) (acc : Table × Nat × Nat) (row : Nat) : Table × Nat × Nat :=
  let z := acc.1.applyRow lr row
  (z.1, acc.2.1 + z.2.1, acc.2.2 + z.2.2)

theorem Table.applyRow_eq (t : Table) (lr row : Nat) :
    ∃ vs ss ms, (t.applyRow lr row).1 = { t with values := vs, states := ss, moves := ms } := by
  unfold Table.applyRow
  split <;> exact ⟨_, _, _, rfl⟩

/-- The rows of an APPLY change the values and states of a table, and the logs of its migrations. -/
theorem Table.foldl_applyNext_eq (lr : Nat) (rows : List Nat) (t : Table) (sat non : Nat) :
    ∃ vs ss ms, (rows.foldl (Table.applyNext lr) (t, sat, non)).1 = { t with values := vs, states := ss, moves := ms } := by
  refine List.foldlRecOn (motive := fun (acc : Table × Nat × Nat) => ∃ vs ss ms, acc.1 = { t with values := vs, states := ss, moves := ms })
    rows _ ?_ ?_
  · exact ⟨_, _, _, rfl⟩
  · rintro ⟨_, m, n⟩ ⟨vs, ss, ms, rfl⟩ row -
    exact Table.applyRow_eq { t with values := vs, states := ss, moves := ms } lr row

/-- The table that an APPLY leaves once its rows have been updated to `t`: the next epoch, without the contributions of the last. -/
def Table.advance (t : Table) (oldest : Nat) : Table :=
  { t.install ((t.tepoch + 1) % 2 ^ 32) oldest with
    tepoch := (t.tepoch + 1) % 2 ^ 32, grads := t.grads.filter fun k => k.epoch != t.tepoch }

/-- The directory changes that come with the new epoch leave the rows alone. -/
theorem Table.advance_fields (t : Table) (oldest : Nat) :
    (t.advance oldest).tepoch = (t.tepoch + 1) % 2 ^ 32 ∧ (t.advance oldest).grads = (t.grads.filter fun k => k.epoch != t.tepoch) ∧
      (t.advance oldest).rows = t.rows ∧ (t.advance oldest).w = t.w ∧ (t.advance oldest).values = t.values ∧
      (t.advance oldest).states = t.states := by
  obtain ⟨hrows, hw, hvalues, hstates, -⟩ := Table.fields_of_content (t.install_content ((t.tepoch + 1) % 2 ^ 32) oldest)
  exact ⟨rfl, rfl, hrows, hw, hvalues, hstates⟩

theorem State.apply_at_epoch {s : State} {id sl oldest sat non : Nat} {c : Call} {x : Frame} {t u : Table}
    (hopen : s.openCall id 5 = some (c, x, sl)) (htype : c.at_ 0 1 = 0x22) (hbad : c.applyBad = false)
    (htable : s.tableOf sl (c.at_ 2 2) = some t) (hopt : t.opt ≠ 0) (hepoch : c.at_ 8 4 = t.tepoch)
    (hgather : s.gatherOpen (c.at_ 2 2) t = false)
    (hrows : t.touched.foldl (Table.applyNext (c.at_ 40 4)) (t, 0, 0) = (u, sat, non)) :
    s.apply id oldest =
      (((s.count MEM_TBLSAT_COUNT sat).count MEM_TBLNONFIN_COUNT non).setTable (c.at_ 2 2) (u.advance oldest)).completeCall id c
        (if non = 0 then stOK else stNONFINITEGRAD) (t.grads.countP fun k => k.epoch == t.tepoch) := by
  have happly : (c.at_ 0 1 != 0x22) = false := by rw [htype]; rfl
  unfold Table.applyNext at hrows
  unfold State.apply
  simp only [hopen, happly, hbad, htable, hopt, hepoch, hgather, hrows, Bool.false_eq_true, if_false, ne_eq, not_true_eq_false]
  rfl

/-! ### Intervals (R170 to R172) -/

/-- The end of an interval decides what to replicate and to migrate, and starts to count anew. -/
theorem State.tableIntervalEnd_of_open {s : State} {n : Nat} {t : Table} (h : mapGet s.tables n = some t) (totals : List Nat) :
    ∃ y : Table, y.content = ({ t with lastTotal := t.total, age := t.age + 1 } : Table).content ∧
      s.tableIntervalEnd n totals = s.setTable n { y with total := 0, counts := [], cfg := (s.reg .memTblcfg 0 0).toNat } := by
  unfold State.tableIntervalEnd
  simp only [h]
  refine ⟨_, ?_, rfl⟩
  rw [Table.migrateStep_content]
  split
  · exact Table.replStep_content _ _
  · rfl

/-- Settles O43: each command's answer is the equation of its lemma, from which the parts that it changes are read off. -/
theorem tablesServeApplyAndMigrateRows : Obligations.TablesServeApplyAndMigrateRows := by
  intro s
  refine ⟨?gatherServe, ?gatherStale, ?gatherCall, ?accumulate, ?accumulateCall, ?apply, ?intervalEnd, ?copy, ?install, ?confirm, ?free⟩
  case gatherServe =>
    intro n e rows t ht hepoch
    refine congrArg Host.Outcome.next (?_ : s.gatherServe (.device n e rows) = _)
    simp only [State.gatherServe, ht, hepoch]
    rfl
  case gatherStale =>
    intro n e rows t ht hepoch
    have hstale : s.gatherServe (.device n e rows) = s.countStale := by simp only [State.gatherServe, ht, hepoch]
    exact ⟨_, congrArg Host.Outcome.next hstale, s.fld_count _ _ _ _ (by decide), rfl⟩
  case gatherCall =>
    rintro id c x sl t _ _ hopen hbad htable hread rfl hall hepoch rfl hout
    obtain ⟨hrange, hhere, hwhole⟩ : (∀ r ∈ s.callRows c x, r < t.rows) ∧ (∀ r ∈ s.callRows c x, t.hasRow r t.tepoch = true) ∧
        ∀ r ∈ s.callRows c x, (t.value r).length ≠ 2 := by
      simpa [imp_and, forall_and, and_assoc] using hall
    have hserved := (State.gatherServe_call hopen hbad htable hread hrange hepoch []).trans (State.gatherRun_own hhere hwhole hout [])
    refine ⟨_, congrArg Host.Outcome.next hserved, ?_, State.storeRaw_setTable_allocs _ _ _ _ _ _, ?_, ?_⟩
    · simp [State.calls_completeCall]
    all_goals
      obtain ⟨_, _, _, _, _, _, _, hstore⟩ := State.storeRaw_eq _ x (c.at_ 24 8) _
      rw [hstore]
      rfl
  case accumulate =>
    intro n row src pos scale e codes t ht hepoch hown
    refine congrArg Host.Outcome.next (?_ : s.scataddAccumulate (.device n e row src pos scale codes) = _)
    simp only [State.scataddAccumulate, ht, hepoch, hown, beq_self_eq_true, if_true]
    rfl
  case accumulateCall =>
    rintro id c x sl t _ hopen htype hbad htable hopt hread hgrads hall hepoch rfl
    obtain ⟨hrange, hown⟩ : (∀ r ∈ s.callRows c x, r < t.rows) ∧ ∀ r ∈ s.callRows c x, t.owner r t.tepoch = t.mine := by
      simpa [imp_and, forall_and] using hall
    have hheld := (State.scataddAccumulate_call hopen htype hbad htable hopt hread hgrads hrange hepoch []).trans (State.scatRun_own hown [])
    refine ⟨_, congrArg Host.Outcome.next hheld, ?_, rfl, rfl, rfl⟩
    simp [State.calls_completeCall]
  case apply =>
    intro oldest id c x sl t u sat non hopen htype hbad htable hopt hepoch hgather hrows
    refine ⟨_, congrArg Host.Outcome.next (State.apply_at_epoch hopen htype hbad htable hopt hepoch hgather hrows), ?_, ?_, rfl, rfl⟩
    · obtain ⟨vs, ss, ms, hu⟩ := Table.foldl_applyNext_eq (c.at_ 40 4) t.touched t 0 0
      obtain rfl : u = { t with values := vs, states := ss, moves := ms } := (congrArg Prod.fst hrows).symm.trans hu
      obtain ⟨htepoch, hleft, hrow, hw, hvalues, hstates⟩ := Table.advance_fields { t with values := vs, states := ss, moves := ms } oldest
      simp [State.completeCall, htepoch, hleft, hrow, hw, hvalues, hstates]
    · simp [State.calls_completeCall]
  case intervalEnd =>
    intro n totals t ht
    obtain ⟨y, hy, hend⟩ := State.tableIntervalEnd_of_open ht totals
    obtain ⟨-, -, hvalues, -, hepoch, hlast, hage⟩ := Table.fields_of_content hy
    refine ⟨_, congrArg Host.Outcome.next hend, ?_, rfl⟩
    simp [hlast, hage, hvalues, hepoch]
  case copy =>
    rintro n row _ t m ht hm rfl
    refine congrArg Host.Outcome.next (?_ : s.rowMigrationCopy n row m.target = _)
    simp only [State.rowMigrationCopy, ht, mapUpdate_of_get _ hm, if_true]
    rfl
  case install =>
    intro n row v z t ht
    refine congrArg Host.Outcome.next (?_ : s.migrationInstall n row (.image v z) = _)
    simp only [State.migrationInstall, ht]
    rfl
  case confirm =>
    intro n row t m ht hm
    refine congrArg Host.Outcome.next (?_ : s.migrationInstall n row .confirmed = _)
    simp only [State.migrationInstall, ht, mapUpdate_of_get _ hm]
    rfl
  case free =>
    intro n row em t m ht hm hconfirmed hem hpassed
    refine congrArg Host.Outcome.next (?_ : s.migrationFree n row = _)
    simp [State.migrationFree, ht, hm, hconfirmed, hem, hpassed, State.setTable]

end Sys2Proof.Machine
end

