-- ==== Sys2Proof/Proofs/ConsistRuns.lean ====
section
/-! Consists from LOAD to UNLOAD: what each command of chapter 9 answers once its checks have passed, what the start of a run changes, and
what leaving the allocations of a consist cannot change. -/

namespace Sys2Proof.Machine

section
variable {s : State} {r seq : Nat} {c : Cmd}

/-! ### LOAD (R259, R463) -/

@[simp] theorem State.ring_setRing_same (s : State) (r : Nat) (x : Ring) : (s.setRing r x).ring r = x := by
  simp [State.ring, mapGetD]

@[simp] theorem State.ring_finish (s : State) (c : Cmd) (st : Nat) (o : Bytes) (k i : Nat) : (s.finish c st o k).ring i = s.ring i := rfl

/-- PHASE 0 stages a part. -/
theorem State.loadRun_part (hrun : s.running r seq 0x0030 = some c) (hzero : c.unusedZero [(32, 4), (40, 8), (48, 1)] = true)
    (hphase : c.par 48 1 = 0) : s.loadRun r seq = s.loadPart c (c.par 32 4) (c.par 40 8) := by
  simp [State.loadRun, hrun, hzero, hphase]

/-- PHASE 1 checks what is staged. -/
theorem State.loadRun_check (hrun : s.running r seq 0x0030 = some c) (hzero : c.unusedZero [(32, 4), (40, 8), (48, 1)] = true)
    (hphase : c.par 48 1 = 1) (hlen : c.paylen = 0) : s.loadRun r seq = s.loadCheck c := by
  simp [State.loadRun, hrun, hzero, hphase, hlen]

/-- The first part opens a staging buffer, which is charged to the slice's package memory. -/
theorem State.loadPart_first {total off : Nat} (hnone : (s.ring c.ring).staging = none) (hin : off + c.paylen ≤ total)
    (hfree : total ≤ s.free c.slice 2) :
    s.loadPart c total off = ((s.charge (.staging c.ring) c.slice 2 total).setRing c.ring
      { s.ring c.ring with staging := some ⟨total, memWrite [] off (s.payload c), [(off, off + c.paylen)]⟩ }).finish c stOK := by
  simp [State.loadPart, hnone, Nat.not_lt.mpr hin, Nat.not_lt.mpr hfree]

/-- A later part joins the buffer that stands. -/
theorem State.loadPart_next {off : Nat} {b : StageBuf} (hb : (s.ring c.ring).staging = some b) (hin : off + c.paylen ≤ b.total) :
    s.loadPart c b.total off = (s.setRing c.ring
      { s.ring c.ring with
        staging := some { b with mem := memWrite b.mem off (s.payload c), written := b.written ++ [(off, off + c.paylen)] } }).finish c stOK := by
  simp [State.loadPart, hb, Nat.not_lt.mpr hin]

/-- A staged consist that passes its checks gets its handle. -/
theorem State.loadCheck_of_loads {b : StageBuf} {u : State} {h : Nat} (hb : (s.ring c.ring).staging = some b)
    (hwhole : covered b.written b.total = true)
    (hload : (s.dropStaging c.ring).loadConsist c.slice (memRead b.mem 0 b.total) = .inr (u, h)) :
    s.loadCheck c = u.finish { c with handle := h } stOK := by
  simp [State.loadCheck, hb, hwhole, hload]

/-- Where bytes were never staged there is no consist to check. -/
theorem State.loadCheck_of_gap {b : StageBuf} (hb : (s.ring c.ring).staging = some b) (hgap : covered b.written b.total = false) :
    s.loadCheck c = (s.count CMP_LOADREF_COUNT).refuse c stCONSISTFORMAT := by
  simp [State.loadCheck, hb, hgap]

/-! ### RUN (R266, R463) -/

/-- A run that RUN adds: without frames yet. -/
def State.waitingRun (s : State) (r seq : Nat) (c : Cmd) : Run :=
  { ring := r, seq := seq, slice := c.slice, handle := c.par 32 8, phys := [], job := s.sliceJob c.slice, tallies := [], windows := [],
    startedAt := s.clock.mono, barFirst := [], barSent := 0, restartable := true, restarted := false, quarantined := false,
    mismatch := false, timedOut := false, wrong := false, shadows := [], halts := [] }

theorem State.runCmd_of_room {k : Consist} (hrun : s.running r seq 0x0031 = some c) (hnew : s.runOf r seq = none)
    (hzero : c.unusedZero [(32, 8)] = true) (hk : mapGet s.consists (c.par 32 8) = some k) (hslice : k.slice = c.slice)
    (hlen : c.paylen = k.parambytes) (hroom : k.resultbytes + 64 * k.nframes ≤ c.room) (hidle : s.consistBusy (c.par 32 8) = false)
    (hframes : s.tooFew c.slice k = false) :
    s.runCmd r seq = { s with nextId := s.nextId + 1 }.setRun s.nextId (s.waitingRun r seq c) := by
  simp [State.runCmd, hrun, hnew, hzero, hk, hslice, hlen, Nat.not_lt.mpr hroom, hidle, hframes, State.waitingRun]

/-! ### RUN_START (R266, R267) -/

/-- Of the values that a fold writes by their numbers, a key holds one: a later one, if several have the same key. -/
theorem mapGet_foldl_mapSet {α : Type} (key : Nat → Nat) (v : Nat → α) (l : List Nat) (m : KMap α) {k : Nat}
    (hk : (∃ i ∈ l, key i = k) ∨ ∃ i, mapGet m k = some (v i)) :
    ∃ i, mapGet (l.foldl (fun m i => mapSet m (key i) (v i)) m) k = some (v i) := by
  induction l generalizing m with
  | nil => simpa using hk
  | cons j l ih =>
    refine ih _ ?_
    by_cases hj : k = key j
    · exact .inr ⟨j, by rw [hj, mapGet_mapSet_same]⟩
    · rw [mapGet_mapSet_other _ _ hj]
      obtain ⟨i, hi, rfl⟩ | hm := hk
      · exact .inl ⟨i, (List.mem_cons.mp hi).resolve_left fun h => hj (by rw [h]), rfl⟩
      · exact .inr hm

/-- Claiming frames for a run changes the frames alone. -/
theorem State.foldl_setFrame_eq (key : Nat → Nat) (v : Nat → Frame) (l : List Nat) (s : State) :
    l.foldl (fun (s : State) i => s.setFrame (key i) (v i)) s =
      { s with frames := l.foldl (fun m i => mapSet m (key i) (v i)) s.frames } := by
  induction l generalizing s with
  | nil => rfl
  | cons i l ih => exact ih _

theorem State.resetLocals_eq (s : State) (k : Consist) : ∃ as zs, s.resetLocals k = { s with allocs := as, zruns := zs } := by
  refine List.foldlRecOn (motive := fun t => ∃ as zs, t = { s with allocs := as, zruns := zs }) k.locals _ ?_ ?_
  · exact ⟨_, _, rfl⟩
  · rintro _ ⟨as, zs, rfl⟩ e -
    refine List.foldlRecOn (motive := fun t => ∃ as zs, t = { s with allocs := as, zruns := zs }) (mapGetD k.allocs e.1 []) _ ?_ ?_
    · exact ⟨_, _, rfl⟩
    · rintro _ ⟨as, zs, rfl⟩ id -
      exact ⟨_, _, rfl⟩

/-- The frames of a state once logical frame `i` of run `id` starts on the `i`-th of the frames `phys`. -/
def State.startedFrames (s : State) (id : Nat) (k : Consist) (phys : List Nat) : KMap Frame :=
  (List.range phys.length).foldl (fun m i => mapSet m (phys.getD i 0) (Frame.start id i k)) s.frames

theorem State.startedFrames_get (s : State) (id : Nat) (k : Consist) {phys : List Nat} {f : Nat} (hf : f ∈ phys) :
    ∃ i, mapGet (s.startedFrames id k phys) f = some (Frame.start id i k) := by
  obtain ⟨i, hi, hget⟩ := List.mem_iff_getElem.mp hf
  refine mapGet_foldl_mapSet _ (Frame.start id · k) _ _ (.inl ⟨i, List.mem_range.mpr hi, ?_⟩)
  simp only [List.getD_eq_getElem?_getD, List.getElem?_eq_getElem hi, Option.getD_some, hget]

/-- The start of a run writes its blocks and its LOCAL data, ends the canaries of its frames, and starts the frames. -/
theorem State.beginRun_eq (s : State) (id : Nat) (x : Run) (k : Consist) (c : Cmd) (phys : List Nat) :
    ∃ as rm zs st, s.beginRun id x k c phys =
      { s with allocs := as, ringMem := rm, zruns := zs, stm := st, frames := s.startedFrames id k phys,
               runs := mapSet s.runs id
                 { x with phys := phys, tallies := [],
                          windows := k.windows.map fun w => (w.1, { decls := [], last := [], fetched := [], bitmaps := [] }), barFirst := [],
                          barSent := 0, halts := [], startedAt := s.clock.mono, restartable := true, quarantined := false, wrong := false,
                          shadows := [] } } := by
  generalize hbegin : s.beginRun id x k c phys = t
  unfold State.beginRun at hbegin
  extract_lets argued zeroed loaded stationmaster quiet started at hbegin
  obtain ⟨as, hargued⟩ : ∃ as, argued = { s with allocs := as } := by
    refine List.foldlRecOn (motive := fun t => ∃ as, t = { s with allocs := as }) _ _ ?_ ?_
    · exact ⟨_, rfl⟩
    · rintro _ ⟨as, rfl⟩ a -
      exact ⟨_, rfl⟩
  obtain ⟨as', zs, hloaded⟩ : ∃ as zs, loaded = { zeroed with allocs := as, zruns := zs } := zeroed.resetLocals_eq k
  have hstarted : started = { quiet with frames := quiet.startedFrames id k phys } := State.foldl_setFrame_eq _ _ _ _
  clear_value argued loaded started
  subst hargued hloaded hstarted hbegin
  exact ⟨_, _, _, _, rfl⟩

theorem State.runOf_some {id : Nat} {x : Run} (h : s.runOf r seq = some (id, x)) : x.ring = r ∧ x.seq = seq := by
  simpa using List.find?_some h

theorem State.runStart_of_turn {id : Nat} {x : Run} {k : Consist} (hx : s.runOf r seq = some (id, x)) (hc : s.cmd r seq = some c)
    (hk : s.runConsist x = some k) (hwaits : x.phys = []) (hturn : s.waitsBefore x.slice id = false)
    (henough : ((s.claimable x.slice).take k.nframes).length = k.nframes) (hframes : s.tooFew x.slice k = false) :
    s.runStart r seq = s.beginRun id x k c ((s.claimable x.slice).take k.nframes) := by
  have hle : k.nframes ≤ (s.claimable x.slice).length := henough ▸ List.length_take_le' _ _
  simp [State.runStart, hx, hc, hk, hwaits, hturn, hle, hframes]

/-! ### UNLOAD (R259, R346) -/

/-- The consists, their runs and the rings are left alone. -/
def State.SameRuns (s t : State) : Prop := t.consists = s.consists ∧ t.runs = s.runs ∧ t.rings = s.rings

theorem State.SameRuns.trans {s t u : State} : s.SameRuns t → t.SameRuns u → s.SameRuns u
  | ⟨hconsists, hruns, hrings⟩, ⟨kconsists, kruns, krings⟩ => ⟨kconsists.trans hconsists, kruns.trans hruns, krings.trans hrings⟩

theorem State.foldl_sameRuns {α : Type} {f : State → α → State} (h : ∀ (s : State) a, s.SameRuns (f s a)) (l : List α) (s : State) :
    s.SameRuns (l.foldl f s) :=
  List.foldlRecOn (motive := s.SameRuns) l _ ⟨rfl, rfl, rfl⟩ fun t ht a _ => ht.trans (h t a)

theorem State.depotTrim_sameRuns (s : State) (j ns unit : Nat) : s.SameRuns (s.depotTrim j ns unit) := by
  obtain ⟨_, _, hwrite⟩ := s.depotWrite_eq j ns unit (List.replicate blockBytes 0)
  rw [State.depotTrim, hwrite]
  exact ⟨rfl, rfl, rfl⟩

theorem State.freeAlloc_sameRuns (s : State) (id : Nat) : s.SameRuns (s.freeAlloc id) := by
  unfold State.freeAlloc
  split
  · exact ⟨rfl, rfl, rfl⟩
  · refine State.foldl_sameRuns (fun s x => State.foldl_sameRuns (fun s k => ?_) _ s) _ s
    split
    · exact s.depotTrim_sameRuns _ _ _
    · exact ⟨rfl, rfl, rfl⟩

theorem State.clearAlloc_sameRuns (s : State) (a : Alloc) (cause : Nat) : s.SameRuns (s.clearAlloc a cause) := by
  rw [State.clearAlloc, State.clearRecord, State.logAppend_eq]
  exact ⟨rfl, rfl, rfl⟩

theorem State.leaveAlloc_sameRuns (s : State) (handle id : Nat) : s.SameRuns (s.leaveAlloc handle id) := by
  unfold State.leaveAlloc
  split
  · exact ⟨rfl, rfl, rfl⟩
  · have hunmap : s.SameRuns (s.unmapAlloc id) := ⟨rfl, rfl, rfl⟩
    dsimp only
    split
    · split
      · exact (hunmap.trans (State.clearAlloc_sameRuns _ _ _)).trans (State.freeAlloc_sameRuns _ _)
      · exact hunmap.trans (State.freeAlloc_sameRuns _ _)
    · exact ⟨rfl, rfl, rfl⟩

/-- A consist that goes is erased from the consists; the runs and the rings stay. -/
theorem State.unloadConsist_of_loaded {h : Nat} {k : Consist} (hk : mapGet s.consists h = some k) :
    (s.unloadConsist h).consists = mapErase s.consists h ∧ (s.unloadConsist h).runs = s.runs ∧ (s.unloadConsist h).rings = s.rings := by
  obtain ⟨hconsists, hruns, hrings⟩ :=
    State.foldl_sameRuns (fun s ids => State.foldl_sameRuns (fun s id => s.leaveAlloc_sameRuns h id) ids s) (mapVals k.allocs) s
  simp only [State.unloadConsist, hk]
  exact ⟨by rw [hconsists], hruns, hrings⟩

theorem State.unloadRun_of_idle {k : Consist} (hrun : s.running r seq 0x0032 = some c) (hzero : c.unusedZero [(32, 8)] = true)
    (hk : mapGet s.consists (c.par 32 8) = some k) (hslice : k.slice = c.slice) (hidle : s.consistBusy (c.par 32 8) = false) :
    s.unloadRun r seq = (s.unloadConsist (c.par 32 8)).finish c stOK := by
  simp [State.unloadRun, hrun, hzero, hk, hslice, hidle]

end

/-- Settles O19: each command's answer is the equation of its lemma, from which the parts that it changes are read off. -/
theorem consistsLoadRunAndUnload : Obligations.ConsistsLoadRunAndUnload := by
  intro s
  refine ⟨?first, ?next, ?loads, ?gap, ?run, ?start, ?unload⟩
  case first =>
    rintro r seq c total off hrun rfl hzero hphase rfl rfl hnone hin hfree
    have hload := (State.loadRun_part hrun hzero hphase).trans (State.loadPart_first hnone hin hfree)
    obtain ⟨cs, hcharge⟩ := s.charge_eq (.staging c.ring) c.slice 2 (c.par 32 4)
    rw [hcharge] at hload
    exact ⟨_, congrArg Host.Outcome.next hload, by simp, State.ended_finish, rfl, rfl, rfl⟩
  case next =>
    rintro r seq c off b hrun rfl hzero hphase rfl hb htotal hin
    have hload := State.loadRun_part hrun hzero hphase
    rw [← htotal, State.loadPart_next hb hin] at hload
    exact ⟨_, congrArg Host.Outcome.next hload, by simp, State.ended_finish, rfl, rfl, rfl⟩
  case loads =>
    rintro r seq c b u h hrun rfl hzero hphase hlen hb hwhole hload
    exact congrArg Host.Outcome.next ((State.loadRun_check hrun hzero hphase hlen).trans (State.loadCheck_of_loads hb hwhole hload))
  case gap =>
    rintro r seq c b hrun rfl hzero hphase hlen hb hgap
    have hload := (State.loadRun_check hrun hzero hphase hlen).trans (State.loadCheck_of_gap hb hgap)
    exact ⟨_, congrArg Host.Outcome.next hload, State.ended_finish, rfl, rfl, rfl⟩
  case run =>
    rintro r seq c _ k hrun hnew hzero rfl hk hslice hlen hroom hidle hframes
    refine ⟨_, congrArg Host.Outcome.next (State.runCmd_of_room hrun hnew hzero hk hslice hlen hroom hidle hframes), ?_, rfl⟩
    simp [State.run, State.waitingRun]
  case start =>
    rintro r seq c id x k _ hx hc hk hwaits hturn rfl henough hframes
    obtain ⟨hring, hseq⟩ := State.runOf_some hx
    obtain ⟨as, rm, zs, st, hbegin⟩ := s.beginRun_eq id x k c ((s.claimable x.slice).take k.nframes)
    have hstart := (State.runStart_of_turn hx hc hk hwaits hturn henough hframes).trans hbegin
    refine ⟨_, congrArg Host.Outcome.next hstart, ?_, ?_, rfl, rfl, rfl, rfl⟩
    · simp [State.run, hring, hseq]
    · refine List.all_eq_true.mpr fun f hf => ?_
      obtain ⟨i, hi⟩ := s.startedFrames_get id k hf
      simp [State.frame, hi, Frame.start]
  case unload =>
    rintro r seq c _ k hrun hzero rfl hk hslice hidle
    obtain ⟨hconsists, hruns, hrings⟩ := State.unloadConsist_of_loaded hk
    exact ⟨_, congrArg Host.Outcome.next (State.unloadRun_of_idle hrun hzero hk hslice hidle), hconsists, State.ended_finish, hruns, hrings⟩

end Sys2Proof.Machine
end

