-- ==== Sys2Proof/Proofs/BundleIssue.lean ====
section
/-! How a bundle issues: the frame that takes it, its slots one after the other, and the frame's next bundle (R272 to R276, R300). -/

namespace Sys2Proof.Machine

/-! ### Frames that are claimed -/

theorem mapSet_mapSet_same {α : Type} (m : KMap α) (k : Nat) (v w : α) : mapSet (mapSet m k v) k w = mapSet m k w := by
  induction m with
  | nil => simp [mapSet]
  | cons e m ih => grind [mapSet]

@[simp] theorem State.frame_tick (s : State) (dt f : Nat) : (s.tick dt).frame f = s.frame f := rfl

@[simp] theorem State.frame_setFrame_same (s : State) (f : Nat) (x : Frame) : (s.setFrame f x).frame f = some x := mapGet_mapSet_same _ _ _

theorem State.frame_setFrame_other (s : State) {f g : Nat} (x : Frame) (h : g ≠ f) : (s.setFrame f x).frame g = s.frame g :=
  mapGet_mapSet_other _ _ h

section
variable {s : State} {f dt w : Nat} {x : Frame} {b : Bundle}

/-- A claimed frame that is changed is replaced. -/
theorem State.modFrame_of_frame (hx : s.frame f = some x) (g : Frame → Frame) : s.modFrame f g = s.setFrame f (g x) := by
  rw [State.modFrame, mapUpdate_of_get g hx]
  rfl

/-- A frame that has been replaced is replaced again. -/
theorem State.setFrame_setFrame (s : State) (f : Nat) (x y : Frame) : (s.setFrame f x).setFrame f y = s.setFrame f y := by
  simp only [State.setFrame, mapSet_mapSet_same]

theorem State.modFrame_setFrame (s : State) (f : Nat) (x : Frame) (g : Frame → Frame) :
    (s.setFrame f x).modFrame f g = s.setFrame f (g x) := by
  rw [State.modFrame_of_frame (s.frame_setFrame_same f x), State.setFrame_setFrame]

theorem Frame.live_of_issues (h : x.issues = true) : x.live = true := by
  have hwait : x.wait = FrameWait.none := by simp_all [Frame.issues]
  simp [Frame.live, hwait]

/-! ### The bundle that a frame takes -/

/-- Beyond the image there is no bundle to take. -/
theorem State.bundleIssue_pcRange (hx : s.frame f = some x) (hissues : x.issues = true) (hw : (s.tick dt).fetchBundle x = none) :
    s.bundleIssue f dt = (s.tick dt).faultFrame f 0xFF fcPCRANGE 0 := by
  simp [State.bundleIssue, hx, hissues, hw]

theorem State.bundleIssue_reserved (hx : s.frame f = some x) (hissues : x.issues = true) (hw : (s.tick dt).fetchBundle x = some w)
    (hb : decodeBundle w = none) : s.bundleIssue f dt = (s.tick dt).faultFrame f (illegalSlot w) fcILLEGAL 0 := by
  simp [State.bundleIssue, hx, hissues, hw, hb]

/-- A barrier that the frame has not passed comes before the bundle's slots. -/
theorem State.bundleIssue_barrier {g : Nat} (hx : s.frame f = some x) (hissues : x.issues = true)
    (hw : (s.tick dt).fetchBundle x = some w) (hb : decodeBundle w = some b) (halign : alignIllegal x b.t = false) (hbar : b.bar x = some g) :
    s.bundleIssue f dt = (s.tick dt).reachBarrier f x g := by
  simp [State.bundleIssue, hx, hissues, hw, hb, halign, hbar]

theorem State.bundleIssue_slots (hx : s.frame f = some x) (hissues : x.issues = true) (hw : (s.tick dt).fetchBundle x = some w)
    (hb : decodeBundle w = some b) (halign : alignIllegal x b.t = false) (hbar : b.bar x = none) :
    s.bundleIssue f dt = (s.tick dt).issue f x b := by
  simp [State.bundleIssue, hx, hissues, hw, hb, halign, hbar]

theorem Bundle.bar_of_bar {g : Nat} (ha : b.a = .bar g) (hguard : x.guard b.ag = true) (hpassed : x.barPassed = false) : b.bar x = some g := by
  simp [Bundle.bar, ha, hguard, hpassed]

theorem Bundle.bar_of_nop (ha : b.a = .nop) : b.bar x = none := by
  simp [Bundle.bar, ha]

/-! ### The slots -/

/-- A frame as the bundle of which slot A says nothing leaves it: at the next bundle, with nothing counted. -/
def Frame.goOn (x : Frame) : Frame := { x with pc := (x.pc + 1) % 2 ^ 64, barPassed := false, counted := false }

/-- Where slot A is idle, an instruction of slot T that completes ends the bundle. -/
theorem State.issue_slotT {y : Frame} {t : State} (ha : b.a = .nop) (hv : b.v = .nop) (hguard : x.guard b.tg = true)
    (ht : s.execT f x b.t = .ok (t.setFrame f y)) (hpc : y.pc = x.pc) : s.issue f x b = t.setFrame f y.goOn := by
  have hslots : s.execSlots f x b = ⟨2, .ok (t.setFrame f y)⟩ := by
    simp [State.execSlots, State.execA, State.execV, ha, hv, hguard, ht]
  have hnext : b.next x = (y.pc + 1) % 2 ^ 64 := by simp [Bundle.next, ha, AOp.target, hpc]
  simp only [State.issue, hslots, State.endBundle, ha, State.modFrame_setFrame, hnext]
  rfl

/-- A store of slot A to a page under a move leaves the bundle where it stands. -/
theorem State.issue_moving (hguard : x.guard b.ag = true) (ha : s.execA f x b.a = .stop .moving) : s.issue f x b = s.stallMove f x := by
  simp [State.issue, State.execSlots, hguard, ha]

end

end Sys2Proof.Machine
end

