-- ==== Sys2Proof/Proofs/BundleFaults.lean ====
section
/-! Bundles that halt their frame, wait at a barrier of the run, call an engine, or give the rod array its job. -/

namespace Sys2Proof.Machine

section
variable {s : State} {f : Nat} {x : Frame}

/-! ### Faults (R287 to R289) -/

/-- A frame as a fault leaves it. -/
def Frame.halted (x : Frame) (cause : Nat) : Frame := { x with wait := .halted, mma := none, cause := cause, haltCode := 0 }

/-- The record of a halt begins with its cause (Table 9-13). -/
theorem State.haltRecord_cause (s : State) (f : Nat) (x : Frame) (slot code addr : Nat) {cause : Nat} (h : cause < 2 ^ 16) :
    leAt (s.haltRecord f x slot cause code addr) 0 2 = cause := by
  simp only [State.haltRecord, List.append_assoc]
  exact (leAt_append [] _ 2 cause _ rfl).trans (Nat.mod_eq_of_lt h)

/-- A frame of run `r` that faults: it has its record, CMP_LASTFAULT names it, and the other frames of the run are to halt. -/
def State.faulted (s : State) (f : Nat) (x : Frame) (r : Run) (slot cause addr : Nat) : State :=
  ((({ s with runs := mapSet s.runs x.run { r with halts := mapSet r.halts x.lframe (s.haltRecord f x slot cause 0 addr) } } : State).setReg
    .cmpLastfault 0 0 (BitVec.ofNat 64 (cause + f * 2 ^ 16 + s.now % 2 ^ 32 * 2 ^ 32))).setFrame f (x.halted cause)).haltPeers x.run

theorem State.faulted_record (s : State) (f : Nat) (x : Frame) (r : Run) (slot addr : Nat) {cause : Nat} (h : cause < 2 ^ 16) :
    ((s.faulted f x r slot cause addr).run x.run).any (fun y => leAt (mapGetD y.halts x.lframe []) 0 2 == cause) = true := by
  simp [State.faulted, State.haltPeers, State.run, mapGetD, State.haltRecord_cause s f x slot 0 addr h]

theorem State.faulted_lastfault (s : State) (f : Nat) (x : Frame) (r : Run) (slot cause addr : Nat) :
    (s.faulted f x r slot cause addr).reg .cmpLastfault 0 0 = BitVec.ofNat 64 (cause + f * 2 ^ 16 + s.now % 2 ^ 32 * 2 ^ 32) :=
  State.reg_setReg_same _ _ _ _ _

/-- What a fault whose cause has no counter of its own does. -/
theorem State.faultFrame_of_live {r : Run} {slot cause addr : Nat} (hx : s.frame f = some x) (hlive : x.live = true)
    (hrun : s.run x.run = some r) (hcause : cause ≠ 0) (hpeer : cause ≠ fcHALTPEER) (hcount : ∀ t : State, t.countHalt cause = t) :
    s.faultFrame f slot cause addr = s.faulted f x r slot cause addr := by
  have hruns := mapUpdate_of_get (fun r : Run => { r with halts := mapSet r.halts x.lframe (s.haltRecord f x slot cause 0 addr) }) hrun
  simp only [State.faultFrame, State.endFrame, hx, hlive, hcount, ne_eq, hcause, hpeer, not_false_eq_true, and_self, if_true,
    State.setReg_runs, hruns]
  rfl

/-! ### Barriers of a run (R284) -/

/-- A frame that has arrived at its next barrier of group 0. -/
def Frame.arrived (x : Frame) : Frame := { x with bars0 := x.bars0 + 1, wait := .barrier 0 (x.bars0 + 1) }

/-- A run whose first arrival at a barrier of group 0 is known. -/
def Run.marked (r : Run) (now : Nat) : Run := if (mapGet r.barFirst 0).isSome then r else { r with barFirst := mapSet r.barFirst 0 now }

theorem Run.marked_phys (r : Run) (now : Nat) : (r.marked now).phys = r.phys := by
  unfold Run.marked
  split <;> rfl

/-- The state once frame `f` of run `r` has arrived. -/
def State.arrival (s : State) (f : Nat) (x : Frame) (r : Run) : State :=
  (s.setFrame f x.arrived).setRun x.run (r.marked s.clock.mono)

theorem State.arrival_frame_same (s : State) (f : Nat) (x : Frame) (r : Run) : (s.arrival f x r).frame f = some x.arrived :=
  s.frame_setFrame_same f x.arrived

theorem State.arrival_frame_other (s : State) {f g : Nat} (x : Frame) (r : Run) (h : g ≠ f) : (s.arrival f x r).frame g = s.frame g :=
  s.frame_setFrame_other x.arrived h

/-- What the arrival finds among the members of the run: one that halted short of the barrier, all of them there, or neither. -/
theorem State.arriveBarrier_eq {r : Run} (hx : s.frame f = some x) (hrun : s.run x.run = some r) :
    s.arriveBarrier f 0 =
      if (r.phys.any fun m => ((s.arrival f x r).frame m).elim false fun y => !y.live && decide (y.bars0 < x.bars0 + 1)) = true then
        (s.arrival f x r).haltAll x.run fcBARBROKEN fun y => y.atBarrier 0
      else if (r.phys.all fun m => ((s.arrival f x r).frame m).elim false fun y => decide (x.bars0 + 1 ≤ y.bars0)) = true then
        ((s.arrival f x r).count CMP_BARLAST_COUNT 1 f).releaseBarrier x.run 0 (x.bars0 + 1)
      else s.arrival f x r := by
  have hmark := mapUpdate_of_get (fun r : Run => r.marked s.clock.mono) hrun
  have hphys : ((s.arrival f x r).run x.run).elim [] Run.phys = r.phys := by
    simp [State.arrival, State.run, Run.marked_phys]
  unfold State.arriveBarrier
  rw [hx]
  dsimp -zeta only
  extract_lets n arrived waiting marked members all broken
  have hmarked : marked = s.arrival f x r := by
    change ({ s.setFrame f x.arrived with runs := mapUpdate s.runs x.run fun r => r.marked s.clock.mono } : State) = _
    rw [hmark]
    rfl
  have hmembers : members = r.phys := by
    rw [← hphys, ← hmarked]
    rfl
  rw [← hmarked, ← hmembers]
  rw [show ((0 : Nat) == 0) = true from rfl, Bool.and_true]
  rfl

/-- While a member of the run has not arrived, and none has halted, the frame waits. -/
theorem State.arriveBarrier_waits {r : Run} {g : Nat} {y : Frame} (hx : s.frame f = some x) (hrun : s.run x.run = some r)
    (hmember : r.phys.contains g = true) (hother : g ≠ f) (hy : s.frame g = some y) (hlate : y.bars0 ≤ x.bars0)
    (hlive : (r.phys.all fun m => (s.frame m).elim true Frame.live) = true) : s.arriveBarrier f 0 = s.arrival f x r := by
  have hunbroken : ¬(r.phys.any fun m =>
      ((s.arrival f x r).frame m).elim false fun y => !y.live && decide (y.bars0 < x.bars0 + 1)) = true := by
    intro h
    obtain ⟨m, hm, hhalted⟩ := List.any_eq_true.mp h
    by_cases hmf : m = f
    · subst hmf
      rw [s.arrival_frame_same] at hhalted
      exact absurd hhalted (by simp [Frame.arrived, Frame.live])
    · rw [s.arrival_frame_other x r hmf] at hhalted
      have hmlive := List.all_eq_true.mp hlive m hm
      cases hz : s.frame m with
      | none => simp [hz] at hhalted
      | some z => simp_all
  have hopen : ¬(r.phys.all fun m => ((s.arrival f x r).frame m).elim false fun y => decide (x.bars0 + 1 ≤ y.bars0)) = true := by
    intro h
    have hg := List.all_eq_true.mp h g (List.contains_iff_mem.mp hmember)
    rw [s.arrival_frame_other x r hother, hy, Option.elim_some, decide_eq_true_eq] at hg
    omega
  rw [State.arriveBarrier_eq hx hrun, if_neg hunbroken, if_neg hopen]

/-- With the last arrival the barrier completes. -/
theorem State.arriveBarrier_completes {r : Run} (hx : s.frame f = some x) (hrun : s.run x.run = some r)
    (hall : (r.phys.all fun m => m == f || (s.frame m).any fun y => decide (x.bars0 + 1 ≤ y.bars0)) = true) :
    s.arriveBarrier f 0 = ((s.arrival f x r).count CMP_BARLAST_COUNT 1 f).releaseBarrier x.run 0 (x.bars0 + 1) := by
  have harrived : ∀ m ∈ r.phys, ∃ y, (s.arrival f x r).frame m = some y ∧ x.bars0 + 1 ≤ y.bars0 := by
    intro m hm
    by_cases hmf : m = f
    · subst hmf
      exact ⟨x.arrived, s.arrival_frame_same _ _ _, Nat.le_refl _⟩
    · rw [s.arrival_frame_other x r hmf]
      simpa [hmf, Option.any_eq_true] using List.all_eq_true.mp hall m hm
  have hunbroken : ¬(r.phys.any fun m =>
      ((s.arrival f x r).frame m).elim false fun y => !y.live && decide (y.bars0 < x.bars0 + 1)) = true := by
    intro h
    obtain ⟨m, hm, hhalted⟩ := List.any_eq_true.mp h
    obtain ⟨y, hy, hle⟩ := harrived m hm
    simp only [hy, Option.elim_some, Nat.not_lt.mpr hle, decide_false, Bool.and_false, Bool.false_eq_true] at hhalted
  have hcomplete : (r.phys.all fun m => ((s.arrival f x r).frame m).elim false fun y => decide (x.bars0 + 1 ≤ y.bars0)) = true := by
    refine List.all_eq_true.mpr fun m hm => ?_
    obtain ⟨y, hy, hle⟩ := harrived m hm
    rw [hy, Option.elim_some, decide_eq_true hle]
  rw [State.arriveBarrier_eq hx hrun, if_neg hunbroken, if_pos hcomplete]

theorem State.reachBarrier_group0 (hstores : remoteStop x = none) : s.reachBarrier f x 0 = s.arriveBarrier f 0 := by
  simp [State.reachBarrier, hstores]

/-! ### Engine calls (R280, R283) -/

theorem State.touchAddr_eq (s : State) (x : Frame) (addr n : Nat) : ∃ as, s.touchAddr x addr n = { s with allocs := as } := by
  unfold State.touchAddr
  split <;> exact ⟨_, rfl⟩

/-- The call that a frame issues, behind the last that names its queue. -/
def Frame.engineCall (x : Frame) (f : Nat) (fn : EngineFn) (addr : Nat) (desc : Bytes) (v : Queue) : Call :=
  ⟨x.run, x.lframe, f, fn.code, addr, desc, (fn.outq desc).1, v.calls.getLast?.getD 0, false, 0, 0, none, none, [], [], false⟩

/-- A frame that has put a call last on a queue. -/
def Frame.pushCall (x : Frame) (q : Nat) (v : Queue) (id : Nat) : Frame :=
  { x with queues := mapSet x.queues q { v with calls := v.calls ++ [id] } }

/-- An engine instruction whose checks pass records its call. -/
theorem State.execEngine_of_checks {fn : EngineFn} {addr : Nat} {v : Queue} (hx : s.frame f = some x)
    (hrange : s.rangeStop x addr 64 64 false = none) (hread : s.readStop x addr 64 = none)
    (hqueues : x.queuesOk fn (s.readAddr x addr 64) = true) (hv : mapGet x.queues (fn.outq (s.readAddr x addr 64)).1 = some v) :
    ∃ as, s.execEngine f x fn addr = .ok
      (({ s with allocs := as, nextId := s.nextId + 1,
                 calls := mapSet s.calls s.nextId (x.engineCall f fn addr (s.readAddr x addr 64) v) } : State).setFrame f
        (x.pushCall (fn.outq (s.readAddr x addr 64)).1 v s.nextId)) := by
  obtain ⟨as, htouch⟩ := s.touchAddr_eq x addr 64
  have hpush := mapUpdate_of_get (fun q : Queue => { q with calls := q.calls ++ [s.nextId] }) hv
  refine ⟨as, ?_⟩
  simp only [State.execEngine, hrange, hread, hqueues, hv, htouch, need, if_true, Option.orElse_eq_orElse, Option.orElse_none, unlessStop,
    Option.bind_some]
  rw [State.modFrame_of_frame (x := x)]
  · rw [hpush]
    rfl
  · exact hx

/-! ### MMA (R216, R320) -/

/-- A frame whose rod array has taken the job of an MMA, its bank started under START. -/
def Frame.multiplying (x : Frame) (o : MmaOp) (t : MmaTensors) (pre : List Nat) : Frame :=
  { x with banks := if o.start then mapSet x.banks o.bank (Bank.start (formMode o.form) pre) else x.banks, mma := some (mmaJob x o t) }

/-- An MMA whose checks pass, and that names no index, leaves its slabs to the rod array. -/
theorem State.execMmaOp_of_checks {o : MmaOp} {t : MmaTensors} (hx : s.frame f = some x) (ht : s.mmaTensors x o = some t)
    (hstop : s.mmaStop x o t = none) (hindex : t.i = none) :
    s.execMmaOp f x o = .ok (s.setFrame f (x.multiplying o t (t.p.elim [] fun p => ((s.tensorRows x p).getD 0 []).take 128))) := by
  simp only [State.execMmaOp, ht, hstop, hindex, Option.bind_none]
  split
  · rename_i hstart
    simp only [State.modFrame_of_frame hx, State.modFrame_setFrame, Frame.multiplying, hstart, if_true]
  · rename_i hstart
    simp only [State.modFrame_of_frame hx, Frame.multiplying, hstart, Bool.false_eq_true, if_false]

end

/-- Settles O40: the bundle's answer is the equation of its lemma, from which the parts that it changes are read off. -/
theorem bundlesFaultWaitAndCall : Obligations.BundlesFaultWaitAndCall := by
  intro s
  refine ⟨?reserved, ?pcRange, ?waits, ?completes, ?engine, ?mma⟩
  case reserved =>
    rintro f dt w x _ r hx hissues rfl hw hb hrun
    have hfault := State.faultFrame_of_live (s := s.tick dt) (slot := illegalSlot w) (cause := fcILLEGAL) (addr := 0) hx
      (Frame.live_of_issues hissues) hrun (by decide) (by decide) fun _ => rfl
    exact ⟨_, congrArg Host.Outcome.next ((State.bundleIssue_reserved hx hissues hw hb).trans hfault), rfl,
      State.faulted_record _ _ _ _ _ _ (by decide), State.faulted_lastfault _ _ _ _ _ _ _, rfl, rfl⟩
  case pcRange =>
    rintro f dt x _ r hx hissues rfl hw hrun
    have hfault := State.faultFrame_of_live (s := s.tick dt) (slot := 0xFF) (cause := fcPCRANGE) (addr := 0) hx
      (Frame.live_of_issues hissues) hrun (by decide) (by decide) fun _ => rfl
    exact ⟨_, congrArg Host.Outcome.next ((State.bundleIssue_pcRange hx hissues hw).trans hfault), rfl,
      State.faulted_record _ _ _ _ _ _ (by decide), State.faulted_lastfault _ _ _ _ _ _ _, rfl, rfl⟩
  case waits =>
    rintro f dt w x _ b r g y hx hissues rfl hw hb hguard ha hpassed halign hstores hrun hmember hother hy hlate hlive
    have hissue := State.bundleIssue_barrier hx hissues hw hb halign (Bundle.bar_of_bar ha hguard hpassed)
    have harrive := State.arriveBarrier_waits (s := s.tick dt) hx hrun hmember hother hy hlate hlive
    exact ⟨_, congrArg Host.Outcome.next (hissue.trans ((State.reachBarrier_group0 hstores).trans harrive)), rfl, rfl, rfl, rfl⟩
  case completes =>
    rintro f dt w x _ b r hx hissues rfl hw hb hguard ha hpassed halign hstores hrun hall
    have hissue := State.bundleIssue_barrier hx hissues hw hb halign (Bundle.bar_of_bar ha hguard hpassed)
    have harrive := State.arriveBarrier_completes (s := s.tick dt) hx hrun hall
    exact ⟨_, congrArg Host.Outcome.next (hissue.trans ((State.reachBarrier_group0 hstores).trans harrive)), rfl, rfl, rfl⟩
  case engine =>
    rintro f dt w x _ b fn aa ofs _ _ _ v hx hissues rfl hw hb hguard ha hv ht rfl rfl hrange hread hqueues rfl hqueue
    have hissue := State.bundleIssue_slots hx hissues hw hb (by rw [ht]; rfl) (Bundle.bar_of_nop ha)
    obtain ⟨as, hcall⟩ := State.execEngine_of_checks (s := s.tick dt) hx hrange hread hqueues hqueue
    have hslot := State.issue_slotT ha hv hguard ((congrArg ((s.tick dt).execT f x) ht).trans hcall) rfl
    exact ⟨_, congrArg Host.Outcome.next (hissue.trans hslot), State.frame_setFrame_same _ _ _, rfl, rfl, rfl, rfl⟩
  case mma =>
    rintro f dt w x _ b o m hx hissues rfl hw hb hguard ha hv ht halign hm hstop hindex
    have hissue := State.bundleIssue_slots hx hissues hw hb halign (Bundle.bar_of_nop ha)
    have hmma := State.execMmaOp_of_checks (s := s.tick dt) hx hm hstop hindex
    have hslot := State.issue_slotT ha hv hguard ((congrArg ((s.tick dt).execT f x) ht).trans hmma) rfl
    exact ⟨_, congrArg Host.Outcome.next (hissue.trans hslot), State.frame_setFrame_same _ _ _, rfl⟩

end Sys2Proof.Machine
end

