-- ==== Sys2Proof/Proofs/StoreUnderMove.lean ====
section
/-! A store of a frame to a page that is being copied. By Table 11-4 the stores to such a page stall until its translation has switched
(R344), so the bundle of an ST waits where it stands and is counted in MEM_MOVEWAIT. The clause of O39 on an ST into an allocation has a
premise on poison and none on page moves: it asks that the store be done and the frame go on while the page is copied, and fails there. -/

namespace Sys2Proof.Machine

/-! ### The bundle of a store that stalls -/

section
variable {s : State} {f dt w : Nat} {x : Frame} {b : Bundle} {i aa size id off : Nat} {ofs : Int}

theorem State.execA_st_moving (ha : b.a = .st i aa size ofs) (halign : addrPlus (x.a aa) ofs % 2 ^ size = 0)
    (hplace : s.resolve x (addrPlus (x.a aa) ofs) (2 ^ size) true = some (.alloc id off)) (hwhole : s.partPoison id off (2 ^ size) = false)
    (hmoving : s.moving id off (2 ^ size) = true) : s.execA f x b.a = .stop .moving := by
  rw [ha]
  simp [State.execA, State.execSt, State.rangeStop, State.writeStop, halign, hplace, hwhole, hmoving, unlessStop]

/-- A store to a page that is being copied leaves the whole bundle for later. -/
theorem State.bundleIssue_st_moving (hx : s.frame f = some x) (hissues : x.issues = true) (hw : (s.tick dt).fetchBundle x = some w)
    (hb : decodeBundle w = some b) (hguard : x.guard b.ag = true) (ha : b.a = .st i aa size ofs) (ht : b.t = .nop)
    (halign : addrPlus (x.a aa) ofs % 2 ^ size = 0)
    (hplace : (s.tick dt).resolve x (addrPlus (x.a aa) ofs) (2 ^ size) true = some (.alloc id off))
    (hwhole : s.partPoison id off (2 ^ size) = false) (hmoving : s.moving id off (2 ^ size) = true) :
    s.bundleIssue f dt = (s.tick dt).stallMove f x := by
  have hbar : b.bar x = none := by simp [Bundle.bar, ha]
  rw [State.bundleIssue_slots hx hissues hw hb (by rw [ht]; rfl) hbar]
  exact State.issue_moving hguard (State.execA_st_moving ha halign hplace hwhole hmoving)

/-- A frame that stalls stays at its bundle. -/
theorem State.pc_stallMove (hx : s.frame f = some x) : ((s.stallMove f x).frame f).map Frame.pc = some x.pc := by
  unfold State.stallMove
  split
  · rw [hx, Option.map_some]
  · rw [State.frame_setFrame_same, Option.map_some]

end

/-! ### A store to a page under promotion -/

/-- ST of the 8 bytes of s1 at a3 + 8, in slot A of a bundle of FORMAT 1 (R272, Table 10-3). -/
def storeWord : Nat := 2 ^ 124 + 0x5426C0008 * 2 ^ 84

def storeBundle : Bundle := ⟨Guard.always, .st 1 3 3 8, Guard.always, .nop, Guard.always, .nop⟩

/-- A consist of one frame whose image is that bundle, and whose allocation 1 is number 50. -/
def storeConsist : Consist :=
  { consistOf 1 [] [(1, [50])] with
    nframes := 1, framemap := [0], images := [{ entry := 0, queues := [], tdbind := [], code := leBytes 16 storeWord }] }

/-- The frame that runs it, with the address of allocation 1 in a3. -/
def storeFrame : Frame := { Frame.start 60 0 storeConsist with sreg := [(1, 7)], areg := [(3, BitVec.ofNat 64 (2 ^ 52))] }

/-- A WARM allocation of 64 KiB in board memory. -/
def warmAlloc : Alloc :=
  { slice := 1, consist := 40, num := 1, lframe := 0, name := 0, size := 65536,
    flags := { hot := false, warm := true, cold := false, stream := false, persist := false, pin := false, share := false, repl := false,
               clear := false, isLocal := false, window := false },
    tier := 3, pages := [], hits := [], low := [], last := [], flash := [], age := 8, users := [40], mem := [] }

/-- The frame is about to store while the allocation's page is copied to package memory (step 2 of Table 11-4). -/
def storeUnderMove : State :=
  { State.reset with
    consists := [(40, storeConsist)]
    runs := [(60, walkRun)]
    frames := [(0, storeFrame)]
    allocs := [(50, warmAlloc)]
    moves := [{ alloc := 50, page := 0, dest := 2, copied := false, stalled := 0, unit := unitId 5 0 }] }

theorem storeWord_fetched : (storeUnderMove.tick 10).fetchBundle storeFrame = some storeWord ∧ decodeBundle storeWord = some storeBundle := by
  decide +kernel

theorem storeFrame_issues : storeFrame.issues = true ∧ storeFrame.guard storeBundle.ag = true ∧ storeFrame.pc = 0 := by decide +kernel

/-- The address is aligned and lies in allocation 50, which has no poison and whose page is being copied. -/
theorem storeUnderMove_target : addrPlus (storeFrame.a 3) 8 % 2 ^ 3 = 0 ∧
    (storeUnderMove.tick 10).resolve storeFrame (addrPlus (storeFrame.a 3) 8) (2 ^ 3) true = some (.alloc 50 8) ∧
    storeUnderMove.partPoison 50 8 (2 ^ 3) = false ∧ storeUnderMove.moving 50 8 (2 ^ 3) = true := by decide +kernel

/-- Refutes O39: an ST of 8 bytes while the page that it names is copied to package memory. The statement asks for the frame at the next
bundle, but the store stalls and the frame stays at bundle 0. -/
theorem not_bundlesIssueAsOneAct : ¬ Obligations.BundlesIssueAsOneAct := by
  intro h
  obtain ⟨-, -, -, -, hstore, -⟩ := h storeUnderMove
  obtain ⟨hw, hb⟩ := storeWord_fetched
  obtain ⟨hissues, hguard, hpc⟩ := storeFrame_issues
  obtain ⟨halign, hplace, hwhole, hmoving⟩ := storeUnderMove_target
  obtain ⟨t, ht, hframe, -⟩ := hstore 0 10 storeWord storeFrame _ storeBundle 1 3 3 50 8 0 51 8 warmAlloc rfl hissues rfl hw hb hguard rfl rfl
    rfl halign hplace hwhole rfl rfl (.inl (by decide))
  change Host.Outcome.next (storeUnderMove.bundleIssue 0 10) = _ at ht
  injection ht with ht
  have hstall := State.bundleIssue_st_moving (dt := 10) (f := 0) (s := storeUnderMove) rfl hissues hw hb hguard rfl rfl halign hplace hwhole hmoving
  have hstays := State.pc_stallMove (s := storeUnderMove.tick 10) (f := 0) (x := storeFrame) rfl
  rw [← hstall, ht, hframe, Option.map_some, hpc] at hstays
  exact absurd hstays (by decide)

end Sys2Proof.Machine
end

