-- ==== Sys2Proof/Proofs/StoreBesideLoad.lean ====
section
/-! The acknowledgement of a store while a number stands twice in the table of requests. What a reply releases is found by its entry in the
table and ended by its number (R408, R413), which agree while the numbers rise strictly, as every operation of the machine keeps them. The
clause of O27 on WRITE_ACK has no premise on the table: where an RSTF is listed behind a load of its own number, the RSTF's ORDER_BROKEN
goes to the load, and the frame that waits for the load goes on. -/

namespace Sys2Proof.Machine

/-! ### A reply that ends its request, and what it releases -/

section
variable {s : State} {op id st dt : Nat} {packet data : Bytes} {r : Req} {ctx : Nat × Nat}

/-- A status other than BUSY ends the request that the reply answers (R413). -/
theorem State.reply_of_status (hop : pktOp packet = op) (hok : pktOk packet = true) (hreq : s.reqOf packet = some (id, r))
    (hstatus : (Pkt.ofBytes packet).status ≠ stBUSY) :
    s.reply op packet dt = (s.tick dt).completeReq id (Pkt.ofBytes packet).status (Pkt.ofBytes packet).payload := by
  have hticked : (s.tick dt).reqOf packet = some (id, r) := hreq
  simp [State.reply, hop, hok, hticked, hstatus]

/-- The end of a frame's request lets the stores go that it held back. -/
theorem State.completeReq_of_frame (hr : s.req id = some r) (hctx : r.frame = some ctx) :
    s.completeReq id st data =
      State.releaseStores ctx ((s.finishReq id st data).fab.reqs.length + 1) (s.finishReq id st data) := by
  simp [State.completeReq, hr, hctx]

/-- An RSTF whose turn comes behind a failed store ends with ORDER_BROKEN (R408). -/
theorem State.releaseStores_broken (fuel : Nat) (hnext : s.releasable ctx = some (id, r)) (hordered : (Pkt.ofBytes r.packet).ordered = true)
    (hfailed : ((s.frame ctx.2).bind Frame.failed).isSome = true) :
    State.releaseStores ctx (fuel + 1) s = State.releaseStores ctx fuel (s.finishReq id stORDERBROKEN []) := by
  simp [State.releaseStores, hnext, hordered, hfailed]

end

/-! ### An RSTF listed behind a load of its own number -/

/-- A request of frame 0 of run 60, for register 4. -/
def requestOfFrame (p : Pkt) (stage : ReqStage) : Req :=
  { packet := p.bytes, frame := some (60, 0), stage := stage, firstAt := 0, sentAt := 0, retries := 0, busyAt := none, reg := 4, size := 3,
    sx := false, lineOff := 0 }

/-- An RST of 8 bytes at offset 64, sent. -/
def sentStore : Req := requestOfFrame (Pkt.mk opWRITE 1 false false 3 3 0 1 5 64 0 0 8 0 (List.replicate 8 1)) .sent

/-- The RLD of the line at offset 128 that the frame waits for. -/
def awaitedLoad : Req := requestOfFrame (Pkt.mk opREAD 1 false false 3 3 0 1 5 128 0 0 64 0 []) .sent

/-- An RSTF of 8 bytes at offset 192, held. -/
def heldFlagStore : Req := requestOfFrame (Pkt.mk opWRITE 1 false true 3 3 0 1 5 192 0 0 8 0 (List.replicate 8 1)) .held

/-- The frame waits for the reply of request 91; two of its stores have no outcome. -/
def loadingFrame : Frame := { walkFrame with wait := .reply 91 4, stores := [90, 91] }

/-- Number 91 stands twice in the table of requests: for the load, and behind it for the RSTF. -/
def numberedTwice : State :=
  { State.reset with
    fab := { State.reset.fab with reqs := [(90, sentStore), (91, awaitedLoad), (91, heldFlagStore)] }
    runs := [(60, walkRun)]
    frames := [(0, loadingFrame)] }

/-- The WRITE_ACK of the sent store, with MEDIA. -/
def failedAck : Bytes := (Pkt.mk 0x82 1 false false 0 0 3 1 5 64 0 0 0 stMEDIA []).bytes

theorem failedAck_packet : pktOp failedAck = 0x82 ∧ pktOk failedAck = true ∧ (Pkt.ofBytes failedAck).status = stMEDIA ∧
    (Pkt.ofBytes failedAck).payload = [] ∧ pktOp sentStore.packet = opWRITE := by decide +kernel

theorem failedAck_answers : numberedTwice.reqOf failedAck = some (90, sentStore) ∧ numberedTwice.req 90 = some sentStore := by
  decide +kernel

/-- The state once the failed store has ended and the RSTF's turn has come. -/
def storeFailed : State := (numberedTwice.tick 0).finishReq 90 stMEDIA []

/-- The RSTF may leave behind a failed store, so it is broken. -/
theorem storeFailed_releases : storeFailed.releasable (60, 0) = some (91, heldFlagStore) ∧
    (Pkt.ofBytes heldFlagStore.packet).ordered = true ∧ ((storeFailed.frame 0).bind Frame.failed).isSome = true ∧
    storeFailed.fab.reqs.length = 2 := by decide +kernel

/-- Request 91 ends as the load, and the frame goes on. -/
theorem storeFailed_loadEnds :
    ((State.releaseStores (60, 0) 2 (storeFailed.finishReq 91 stORDERBROKEN [])).frame 0).map Frame.wait = some .none := by
  decide +kernel

/-- Refutes O27: the WRITE_ACK of a failed store in front of an RSTF that is listed behind a load of its own number. The statement asks
that the frame still wait for the load, but the RSTF's ORDER_BROKEN ends the load's request, and the frame goes on. -/
theorem not_repliesAndTimeoutsEndOwnRequests : ¬ Obligations.RepliesAndTimeoutsEndOwnRequests := by
  intro h
  obtain ⟨-, -, -, hack, -⟩ := h numberedTwice
  obtain ⟨hop, hok, hstatus, hpayload, hwrite⟩ := failedAck_packet
  obtain ⟨hanswers, hreq⟩ := failedAck_answers
  obtain ⟨hnext, hordered, hfailed, hlength⟩ := storeFailed_releases
  have hbusy : (Pkt.ofBytes failedAck).status ≠ stBUSY := by rw [hstatus]; decide
  obtain ⟨t, ht, hframe, -⟩ := hack failedAck 90 sentStore _ 60 0 loadingFrame hop hok hanswers rfl hreq hbusy hwrite rfl rfl rfl
  change Host.Outcome.next (numberedTwice.reply 0x82 failedAck 0) = _ at ht
  injection ht with ht
  have hwait : (t.frame 0).map Frame.wait = some .none := by
    rw [← ht, State.reply_of_status hop hok hanswers hbusy, hstatus, hpayload,
      State.completeReq_of_frame (s := numberedTwice.tick 0) hreq rfl]
    change ((State.releaseStores (60, 0) (storeFailed.fab.reqs.length + 1) storeFailed).frame 0).map Frame.wait = _
    rw [hlength, State.releaseStores_broken 2 hnext hordered hfailed]
    exact storeFailed_loadEnds
  obtain ⟨y, hy, hkept⟩ := (Option.any_eq_true _ _).mp hframe
  simp only [Bool.and_eq_true, beq_iff_eq] at hkept
  obtain ⟨-, hstill⟩ := hkept
  rw [hy, Option.map_some, hstill] at hwait
  exact absurd hwait (by decide)

end Sys2Proof.Machine
end

