-- ==== Sys2Proof/Proofs/PageMoves.lean ====
section
/-! The page moves of the memory tiers: what the end of a tier interval begins and starts to count anew, and how one page is switched. -/

namespace Sys2Proof.Machine

theorem mapGet_mapMap {α β : Type} (m : KMap α) (f : Nat → α → β) (k : Nat) : mapGet (mapMap m f) k = (mapGet m k).map (f k) := by
  induction m with
  | nil => rfl
  | cons e m ih =>
    have htail : mapMap (e :: m) f = (e.1, f e.1 e.2) :: mapMap m f := rfl
    rw [htail, mapGet, mapGet, ih]
    split
    · rename_i hkey
      rw [Option.map_some, hkey]
    · split <;> rfl

/-! ### The parts of TIER_INTERVAL_END (R342, R343) -/

/-- The interval is over: every allocation is one older. -/
def State.aged (s : State) : State := { s with tierAge := s.tierAge + 1, allocs := mapMap s.allocs fun _ a => { a with age := a.age + 1 } }

/-- A page due for promotion starts to move if package memory has room for it. -/
def State.promotePage (s : State) (e : Nat × Nat) : State :=
  match s.alloc e.1 with
  | some a => if 2 ^ 21 * a.copies ≤ s.free a.slice 2 then s.startMove e.1 e.2 2 else s
  | none => s

def State.promotePages (s : State) : State := s.promotions.foldl State.promotePage s

/-- The counts start anew, and MEM_TIERCFG is taken over. -/
def State.countAnew (s : State) : State :=
  { s with allocs := mapMap s.allocs fun _ a => { a.endInterval (s.tierFld MEM_TIERCFG_DEMTHR) with age := a.age },
           tierCfg := s.reg .memTiercfg 0 0 }

/-- A promoted page of an allocation starts to move back, unless it is moving. -/
def State.demotePage (id : Nat) (s : State) (p : Nat × Nat) : State := if s.isMoving id p.1 then s else s.startMove id p.1 3

def State.demotePages (s : State) : State :=
  s.allocs.foldl (fun s e => (e.2.low.filter fun p => decide (8 ≤ p.2) && decide (9 ≤ e.2.age)).foldl (State.demotePage e.1) s) s

/-! ### Moves that begin -/

/-- `t` is `s` with further page moves begun. -/
def State.MovesBegun (s t : State) : Prop := ∃ ms, t = { s with moves := s.moves ++ ms }

theorem State.movesBegun_refl (s : State) : s.MovesBegun s := ⟨[], by rw [List.append_nil]⟩

theorem State.MovesBegun.trans {s t u : State} (h : s.MovesBegun t) (h' : t.MovesBegun u) : s.MovesBegun u := by
  obtain ⟨ms, rfl⟩ := h
  obtain ⟨ns, rfl⟩ := h'
  exact ⟨ms ++ ns, by rw [List.append_assoc]⟩

theorem State.movesBegun_foldl {α : Type} {f : State → α → State} (h : ∀ (s : State) (a : α), s.MovesBegun (f s a)) (l : List α) (s : State) :
    s.MovesBegun (l.foldl f s) :=
  List.foldlRecOn (motive := s.MovesBegun) l f s.movesBegun_refl fun _ ht a _ => ht.trans (h _ a)

theorem State.MovesBegun.mem {s t : State} (h : s.MovesBegun t) {m : PageMove} (hm : m ∈ s.moves) : m ∈ t.moves := by
  obtain ⟨ms, rfl⟩ := h
  exact List.mem_append_left ms hm

theorem State.startMove_begun (s : State) (id page dest : Nat) : s.MovesBegun (s.startMove id page dest) := ⟨_, rfl⟩

theorem State.promotePage_begun (s : State) (e : Nat × Nat) : s.MovesBegun (s.promotePage e) := by
  unfold State.promotePage
  split
  · split
    · exact s.startMove_begun _ _ _
    · exact s.movesBegun_refl
  · exact s.movesBegun_refl

theorem State.promotePages_begun (s : State) : s.MovesBegun s.promotePages := State.movesBegun_foldl State.promotePage_begun _ _

theorem State.demotePage_begun (id : Nat) (s : State) (p : Nat × Nat) : s.MovesBegun (State.demotePage id s p) := by
  unfold State.demotePage
  split
  · exact s.movesBegun_refl
  · exact s.startMove_begun _ _ _

theorem State.demotePages_begun (s : State) : s.MovesBegun s.demotePages :=
  State.movesBegun_foldl (fun (s : State) (e : Nat × Alloc) => State.movesBegun_foldl (State.demotePage_begun e.1) _ s) _ s

/-- The first page due for promotion starts to move if there is room. -/
theorem State.promotePages_first {s : State} {id p : Nat} {l : List (Nat × Nat)} {a : Alloc} (hdue : s.promotions = (id, p) :: l)
    (ha : s.alloc id = some a) (hroom : 2 ^ 21 * a.copies ≤ s.free a.slice 2) :
    PageMove.mk id p 2 false 0 (s.placeUnit id p 2) ∈ s.promotePages.moves := by
  have hfirst : s.promotePage (id, p) = s.startMove id p 2 := by
    simp only [State.promotePage, ha, if_pos hroom]
  rw [State.promotePages, hdue, List.foldl_cons, hfirst]
  exact (State.movesBegun_foldl State.promotePage_begun l _).mem (List.mem_append_right _ (List.mem_singleton_self _))

/-! ### The whole of TIER_INTERVAL_END -/

theorem State.tierIntervalEnd_early {s : State} (hready : s.phase = phReady) (h : s.tierAge + 1 < 9) : s.tierIntervalEnd = s.aged.countAnew := by
  unfold State.tierIntervalEnd
  rw [if_neg (Decidable.not_not.2 hready)]
  simp only [if_neg (Nat.not_le.2 h)]
  rfl

/-- From the ninth interval on pages are promoted before the counts start anew, and demoted after it. -/
theorem State.tierIntervalEnd_late {s : State} (hready : s.phase = phReady) (h : 9 ≤ s.tierAge + 1) :
    s.tierIntervalEnd = s.aged.promotePages.countAnew.demotePages := by
  have hage : 9 ≤ s.aged.promotePages.countAnew.tierAge := by
    obtain ⟨ms, hms⟩ := s.aged.promotePages_begun
    rw [hms]
    exact h
  unfold State.tierIntervalEnd
  rw [if_neg (Decidable.not_not.2 hready)]
  simp only [if_pos h]
  exact if_pos hage

/-- At the end of an interval every allocation ages, the counts start anew, and page moves begin, none before the ninth interval. -/
theorem State.tierIntervalEnd_of_ready {s : State} (hready : s.phase = phReady) :
    s.aged.countAnew.MovesBegun s.tierIntervalEnd ∧ (s.tierAge + 1 < 9 → s.tierIntervalEnd.moves = s.moves) := by
  by_cases h : s.tierAge + 1 < 9
  · rw [State.tierIntervalEnd_early hready h]
    exact ⟨State.movesBegun_refl _, fun _ => rfl⟩
  · rw [State.tierIntervalEnd_late hready (Nat.not_lt.1 h)]
    refine ⟨?_, fun hearly => absurd hearly h⟩
    obtain ⟨ms, hms⟩ := s.aged.promotePages_begun
    have hcounted : s.aged.countAnew.MovesBegun s.aged.promotePages.countAnew := by
      rw [hms]
      exact ⟨ms, rfl⟩
    exact hcounted.trans (State.demotePages_begun _)

/-- An allocation after the counts have started anew. -/
theorem State.alloc_countAnew_aged {s : State} {id : Nat} {a : Alloc} (ha : s.alloc id = some a) :
    s.aged.countAnew.alloc id = some { ({ a with age := a.age + 1 } : Alloc).endInterval (s.tierFld MEM_TIERCFG_DEMTHR) with age := a.age + 1 } := by
  have hget : mapGet s.allocs id = some a := ha
  unfold State.countAnew State.aged State.alloc
  rw [mapGet_mapMap, mapGet_mapMap, hget]
  rfl

/-! ### The switch of a page (R344) -/

theorem State.setPage_of_alloc {s : State} {id : Nat} {a : Alloc} (ha : s.alloc id = some a) (page tier : Nat) :
    (s.setPage id page tier).allocs = mapSet s.allocs id
      { a with pages := (if tier = a.tier then mapErase a.pages page else mapSet a.pages page tier), low := mapErase a.low page } :=
  mapUpdate_of_get _ ha

/-- The move whose copy is done counts as a promotion or a demotion. -/
theorem State.pageMoveCopyDone_of_move {s : State} {i : Nat} {m : PageMove} (hm : s.moves[i]? = some m) (hcopied : m.copied = false) :
    s.pageMoveCopyDone i =
      ({ s.setPage m.alloc m.page m.dest with moves := s.moves.set i { m with copied := true, stalled := 0 } } : State).count
        (if m.dest = 2 then MEM_MOVES_PROMOTED else MEM_MOVES_DEMOTED) := by
  simp only [State.pageMoveCopyDone, hm, hcopied, Bool.false_eq_true, if_false]
  split <;> rfl

end Sys2Proof.Machine
end

