-- ==== Sys2Proof/Proofs/ErrorReports.lean ====
section
/-! Errors that scrubbing and the codec find (R351 to R354): reporting one may retire its unit, but reaches no allocation, no poison, no
slice and no register beside the count of log entries that were dropped. What else an error leaves is then its counter and its poison. -/

namespace Sys2Proof.Machine

/-! ### What a report leaves alone -/

/-- The parts of the state that no report of an error reaches. -/
structure Unreported where
  allocs : KMap Alloc
  poison : List Poison
  slices : KMap SliceEntry
  regs : Nat → Option Word

/-- They are read out of a state; of the registers all but STM_LOGDROP. -/
def State.unreported (s : State) : Unreported :=
  ⟨s.allocs, s.poison, s.nv.slices, fun off => if off = regOffset .stmLogdrop 0 0 then none else mapGet s.regs off⟩

theorem State.allocs_of_unreported {s t : State} (h : t.unreported = s.unreported) : t.allocs = s.allocs := congrArg Unreported.allocs h

theorem State.poison_of_unreported {s t : State} (h : t.unreported = s.unreported) : t.poison = s.poison := congrArg Unreported.poison h

theorem State.slices_of_unreported {s t : State} (h : t.unreported = s.unreported) : t.nv.slices = s.nv.slices :=
  congrArg Unreported.slices h

theorem State.fld_of_unreported {s t : State} (h : t.unreported = s.unreported) {f : FieldRef} {i j : Nat}
    (hother : regOffset f.reg i j ≠ regOffset .stmLogdrop 0 0) : t.fld f i j = s.fld f i j := by
  have hreg := congrFun (congrArg Unreported.regs h) (regOffset f.reg i j)
  simp only [State.unreported, if_neg hother] at hreg
  simp only [State.fld, State.reg, mapGetD, hreg]

@[simp] theorem State.logDrop_unreported (s : State) : s.logDrop.unreported = s.unreported := by
  have hregs : s.logDrop.unreported.regs = s.unreported.regs := by
    funext off
    unfold State.unreported
    dsimp only
    split
    · rfl
    · rename_i hother
      exact mapGet_mapSet_other _ _ hother
  exact congrArg (Unreported.mk s.allocs s.poison s.nv.slices) hregs

@[simp] theorem State.faultRecord_unreported (s : State) (u : Nat) (c : FaultClass) (src p sl a k : Nat) :
    (s.faultRecord u c src p sl a k).unreported = s.unreported := by
  unfold State.faultRecord
  split
  · exact s.logDrop_unreported
  · rw [State.fileRecord_eq]
    rfl

@[simp] theorem State.report_unreported (s : State) (u : Nat) (c : FaultClass) (src p sl a : Nat) :
    (s.report u c src p sl a).unreported = s.unreported := s.faultRecord_unreported u c src p sl a _

@[simp] theorem State.addEvent_unreported (s : State) (u : Nat) (k : EventKind) : (s.addEvent u k).unreported = s.unreported := rfl

@[simp] theorem State.retireEffect_unreported (s : State) (u : Nat) : (s.retireEffect u).unreported = s.unreported := by
  rw [State.retireEffect_eq]
  rfl

@[simp] theorem State.retireOne_unreported (s : State) (u : Nat) (c : FaultClass) (src p : Nat) :
    (s.retireOne u c src p).unreported = s.unreported := by
  unfold State.retireOne
  split
  · rfl
  · rw [State.retireEffect_unreported, State.report_unreported]
    rfl

@[simp] theorem State.retireUnit_unreported (s : State) (u : Nat) (c : FaultClass) (src p : Nat) :
    (s.retireUnit u c src p).unreported = s.unreported := by
  fun_cases State.retireUnit <;> simp +zetaDelta

@[simp] theorem State.retirePermanent_unreported (s : State) (u src : Nat) : (s.retirePermanent u src).unreported = s.unreported := by
  unfold State.retirePermanent
  split
  · split <;> rfl
  · exact s.retireUnit_unreported u .permanent src 0

@[simp] theorem State.transient_unreported (s : State) (u src sl a : Nat) : (s.transient u src sl a).unreported = s.unreported := by
  fun_cases State.transient <;> simp +zetaDelta

@[simp] theorem State.uncorrectable_unreported (s : State) (u src sl a : Nat) : (s.uncorrectable u src sl a).unreported = s.unreported := by
  fun_cases State.uncorrectable <;> simp +zetaDelta

@[simp] theorem State.frameCorrected_unreported (s : State) (f : Nat) : (s.frameCorrected f).unreported = s.unreported := by
  fun_cases State.frameCorrected
  · exact State.transient_unreported _ _ _ _ _
  · rfl

/-! ### Errors in memory (R353, R354) -/

/-- A corrected error is counted in its tier and reported. -/
theorem State.corrected_unreported (s : State) {site : MemSite} (htier : site.tier < 4) :
    (s.corrected site).unreported = (s.count MEM_ECC_CORR 1 site.tier).unreported := by
  unfold State.corrected
  simp only [if_pos htier]
  split
  · exact State.frameCorrected_unreported _ _
  · split
    · split <;> simp
    · rfl

/-- An uncorrectable error is counted in its tier, poisons its unit and is reported. -/
theorem State.uncorrected_unreported (s : State) {site : MemSite} (htier : site.tier < 4) :
    (s.uncorrected site).unreported = ((s.count MEM_ECC_UNCORR 1 site.tier).addPoison site).unreported := by
  unfold State.uncorrected
  simp only [if_pos htier]
  split
  · split
    · rw [State.retirePermanent_unreported, State.report_unreported, State.addEvent_unreported]
      rfl
    · rw [State.report_unreported, State.addEvent_unreported]
      rfl
  · exact State.uncorrectable_unreported _ _ _ _ _

/-- The state with a unit poisoned. -/
def State.poisoned (s : State) (p : Poison) : State := if s.poison.contains p then s else { s with poison := s.poison ++ [p] }

theorem State.poisoned_eq (s : State) (p : Poison) : ∃ ps, s.poisoned p = { s with poison := ps } ∧ ps.contains p = true := by
  unfold State.poisoned
  split
  · exact ⟨_, rfl, ‹_›⟩
  · exact ⟨_, rfl, by simp⟩

/-- The unit of a site, as an error there poisons it. -/
def State.poisonAt (s : State) (site : MemSite) : Poison :=
  ⟨site.alloc, site.offset / s.poisonLen site * s.poisonLen site, s.poisonLen site, site.tier⟩

theorem State.addPoison_eq_poisoned (s : State) (site : MemSite) : s.addPoison site = s.poisoned (s.poisonAt site) := rfl

/-- A site that is not under a move and whose unit is not being cleared is looked at. -/
theorem State.eccEvent_at {s : State} {site : MemSite} (hmoving : s.isMoving site.alloc (site.offset / 2 ^ 21) = false)
    (hclear : s.unitClearing site.unit = false) :
    s.eccEvent site .corrected = s.corrected site ∧ s.eccEvent site .uncorrectable = s.uncorrected site := by
  simp only [State.eccEvent, hmoving, hclear, Bool.or_self, Bool.false_eq_true, if_false, and_self]

theorem State.eccEvent_good (s : State) (site : MemSite) : s.eccEvent site .good = s := by
  unfold State.eccEvent
  split <;> rfl

/-- The counters of a tier are not the count of dropped log entries. -/
theorem regOffset_memEcc_ne_logdrop (i : Nat) : regOffset .memEcc i 0 ≠ regOffset .stmLogdrop 0 0 := by
  simp only [regOffset, RegName.row]
  omega

/-- What remains of an error that was counted and reported. -/
theorem State.effect_of_counted {s t : State} {f : FieldRef} {i : Nat} (h : t.unreported = (s.count f 1 i).unreported)
    (hword : f.lo + f.width ≤ 64) (hother : regOffset f.reg i 0 ≠ regOffset .stmLogdrop 0 0) :
    t.fld f i = countUp f (s.fld f i) 1 ∧ t.allocs = s.allocs ∧ t.poison = s.poison ∧ t.nv.slices = s.nv.slices :=
  ⟨(State.fld_of_unreported h hother).trans (s.fld_count f 1 i 0 hword), (State.allocs_of_unreported h).trans rfl,
    (State.poison_of_unreported h).trans rfl, (State.slices_of_unreported h).trans rfl⟩

/-- What remains of an error that was counted, poisoned its unit and was reported. -/
theorem State.effect_of_poisoned {s t : State} {f : FieldRef} {i : Nat} {p : Poison}
    (h : t.unreported = ((s.count f 1 i).poisoned p).unreported) (hword : f.lo + f.width ≤ 64)
    (hother : regOffset f.reg i 0 ≠ regOffset .stmLogdrop 0 0) :
    t.fld f i = countUp f (s.fld f i) 1 ∧ t.poison.contains p = true ∧ t.allocs = s.allocs ∧ t.nv.slices = s.nv.slices := by
  obtain ⟨ps, hps, hpoison⟩ := (s.count f 1 i).poisoned_eq p
  rw [hps] at h
  refine ⟨?_, ?_, (State.allocs_of_unreported h).trans rfl, (State.slices_of_unreported h).trans rfl⟩
  · exact (State.fld_of_unreported h hother).trans (s.fld_count f 1 i 0 hword)
  · rw [State.poison_of_unreported h]
    exact hpoison

theorem State.uncorrected_effect (s : State) {site : MemSite} (htier : site.tier < 4) :
    (s.uncorrected site).fld MEM_ECC_UNCORR site.tier = countUp MEM_ECC_UNCORR (s.fld MEM_ECC_UNCORR site.tier) 1 ∧
      (s.uncorrected site).poison.contains (s.poisonAt site) = true ∧ (s.uncorrected site).allocs = s.allocs ∧
      (s.uncorrected site).nv.slices = s.nv.slices :=
  State.effect_of_poisoned (s.uncorrected_unreported htier) (by decide) (regOffset_memEcc_ne_logdrop _)

/-! ### The codec (R351, R352) -/

/-- The state with the bytes in and out of an encoded block counted. -/
def State.countEncoded (s : State) (out : Nat) : State := (s.count MEM_CODECIN_BYTES blockBytes).count MEM_CODECOUT_BYTES out

theorem State.countEncoded_fld (s : State) (out : Nat) :
    (s.countEncoded out).fld MEM_CODECIN_BYTES = countUp MEM_CODECIN_BYTES (s.fld MEM_CODECIN_BYTES) blockBytes ∧
      (s.countEncoded out).fld MEM_CODECOUT_BYTES = countUp MEM_CODECOUT_BYTES (s.fld MEM_CODECOUT_BYTES) out ∧
      (s.countEncoded out).fld MEM_CODECERR_ENCODE = s.fld MEM_CODECERR_ENCODE := by
  have hin := fun g => State.fld_setFld_reg s MEM_CODECIN_BYTES g (countUp MEM_CODECIN_BYTES (s.fld MEM_CODECIN_BYTES) blockBytes) 0 0 0 0
  have hout := fun g v => State.fld_setFld_reg (s.count MEM_CODECIN_BYTES blockBytes) MEM_CODECOUT_BYTES g v 0 0 0 0
  unfold State.countEncoded
  refine ⟨?_, ?_, ?_⟩
  · exact (hout MEM_CODECIN_BYTES _ (by decide)).trans (s.fld_count _ _ _ _ (by decide))
  · rw [State.fld_count _ _ _ _ _ (by decide)]
    exact congrArg (countUp MEM_CODECOUT_BYTES · out) (hin MEM_CODECOUT_BYTES (by decide))
  · exact (hout MEM_CODECERR_ENCODE _ (by decide)).trans (hin MEM_CODECERR_ENCODE (by decide))

theorem State.blockEncode_of_alloc {s : State} {id : Nat} {a : Alloc} (ha : s.alloc id = some a) (engine b : Nat) :
    s.blockEncode engine id b true = s.countEncoded (64 * (encodeBlock (memRead a.mem (b * blockBytes) blockBytes)).len) ∧
      s.blockEncode engine id b false = ((s.countEncoded blockBytes).count MEM_CODECERR_ENCODE).transient (unitId 11 engine) 10 := by
  simp only [State.blockEncode, ha, State.countEncoded, if_true, Bool.false_eq_true, if_false, and_self]

/-- A block that does not decode, as its failure poisons it. -/
def State.poisonOfBlock (s : State) (id b : Nat) : Poison :=
  ⟨id, b * blockBytes, blockBytes, (s.alloc id).elim 3 fun a => a.pageTier (b / 512)⟩

/-- A block that both engines fail to decode is counted, poisoned and reported. -/
theorem State.blockDecode_unreported {payload : Bytes} {desc : Word} (hfails : decodeBlock payload desc.toNat = none) (s : State)
    (engine id b : Nat) : (s.blockDecode engine id b payload desc false).unreported =
      ((s.count MEM_CODECERR_DECODE).poisoned (s.poisonOfBlock id b)).unreported := by
  simp only [State.blockDecode, hfails, Bool.false_eq_true, if_false, State.report_unreported]
  rfl

/-! ### The whole statement -/

/-- Settles O44: each command's next state is that of its lemma; where an error is reported, the report leaves the rest alone. -/
theorem tiersMovePagesAndScrubbersFindErrors : Obligations.TiersMovePagesAndScrubbersFindErrors := by
  intro s
  refine ⟨?interval, ?promotion, ?copyDone, ?sourceFree, ?scrubGood, ?scrubCorrected, ?scrubUncorrectable, ?patrolGood, ?patrolLast,
    ?patrolUncorrectable, ?encode, ?encodeStored, ?decode, ?decodeFails⟩
  case interval =>
    intro id a hready ha
    obtain ⟨⟨ms, hend⟩, hearly⟩ := State.tierIntervalEnd_of_ready hready
    have hage : s.tierIntervalEnd.tierAge = s.tierAge + 1 := by rw [hend]; rfl
    have halloc : s.tierIntervalEnd.alloc id = s.aged.countAnew.alloc id := by rw [hend]; rfl
    refine ⟨_, rfl, hage, ?_, fun h => hearly (hage ▸ h), ?_⟩
    · rw [halloc, State.alloc_countAnew_aged ha]
      simp [Alloc.endInterval]
    · rw [hend]
      exact ⟨rfl, rfl, rfl⟩
  case promotion =>
    rintro id p a l _ hready hage rfl hdue ha hroom
    obtain ⟨⟨ms, hend⟩, -⟩ := State.tierIntervalEnd_of_ready hready
    refine ⟨_, rfl, ?_, ?_⟩
    · rw [State.tierIntervalEnd_late hready (Nat.succ_le_succ hage), List.contains_iff_mem]
      exact (State.demotePages_begun _).mem (State.promotePages_first (s := s.aged) hdue ha hroom)
    · rw [hend]
      exact ⟨rfl, rfl, rfl⟩
  case copyDone =>
    intro i m a hm hcopied ha
    refine ⟨_, congrArg Host.Outcome.next (State.pageMoveCopyDone_of_move hm hcopied), rfl, State.setPage_of_alloc ha _ _, ?_, ?_, rfl, rfl⟩
    · intro hdest
      rw [if_pos hdest]
      exact State.fld_count _ _ _ _ _ (by decide)
    · intro hdest
      rw [if_neg hdest]
      exact State.fld_count _ _ _ _ _ (by decide)
  case sourceFree =>
    intro i m hm hcopied
    refine congrArg Host.Outcome.next (?_ : s.pageMoveSourceFree i = _)
    simp only [State.pageMoveSourceFree, hm, hcopied, if_true]
  case scrubGood => exact fun site => congrArg Host.Outcome.next (s.eccEvent_good site)
  case scrubCorrected =>
    intro site htier hmoving hclear
    exact ⟨_, congrArg Host.Outcome.next (State.eccEvent_at hmoving hclear).1,
      State.effect_of_counted (s.corrected_unreported htier) (by decide) (regOffset_memEcc_ne_logdrop _)⟩
  case scrubUncorrectable =>
    intro site htier hmoving hclear
    exact ⟨_, congrArg Host.Outcome.next (State.eccEvent_at hmoving hclear).2, s.uncorrected_effect htier⟩
  case patrolGood => exact fun site => congrArg Host.Outcome.next (s.eccEvent_good site)
  case patrolLast =>
    intro site
    have hpass : s.dramPatrol site .good true = ({ s with stm := { s.stm with patrol := false } } : State).count MEM_SCRUB_PASSES := by
      simp only [State.dramPatrol, State.eccEvent_good, if_true]
    exact ⟨_, congrArg Host.Outcome.next hpass, State.fld_count _ _ _ _ _ (by decide), rfl⟩
  case patrolUncorrectable =>
    intro site htier hmoving hclear
    exact ⟨_, congrArg Host.Outcome.next (State.eccEvent_at hmoving hclear).2, s.uncorrected_effect htier⟩
  case encode =>
    intro engine id b a ha
    obtain ⟨hin, hout, -⟩ := s.countEncoded_fld (64 * (encodeBlock (memRead a.mem (b * blockBytes) blockBytes)).len)
    exact ⟨_, congrArg Host.Outcome.next (State.blockEncode_of_alloc ha engine b).1, hin, hout, rfl⟩
  case encodeStored =>
    intro engine id b a ha
    obtain ⟨hin, hout, herr⟩ := s.countEncoded_fld blockBytes
    have hsame := State.transient_unreported ((s.countEncoded blockBytes).count MEM_CODECERR_ENCODE) (unitId 11 engine) 10 0xFF 0
    obtain ⟨hcount, hallocs, hpoison, -⟩ := State.effect_of_counted hsame (by decide) (by decide)
    refine ⟨_, congrArg Host.Outcome.next (State.blockEncode_of_alloc ha engine b).2, ?_, ?_, herr ▸ hcount, hallocs, hpoison⟩
    · rw [State.fld_of_unreported hsame (by decide)]
      exact (State.fld_setFld_reg _ MEM_CODECERR_ENCODE MEM_CODECIN_BYTES _ 0 0 0 0 (by decide)).trans hin
    · rw [State.fld_of_unreported hsame (by decide)]
      exact (State.fld_setFld_reg _ MEM_CODECERR_ENCODE MEM_CODECOUT_BYTES _ 0 0 0 0 (by decide)).trans hout
  case decode =>
    intro engine id b payload out desc ok hdecodes
    refine congrArg Host.Outcome.next (?_ : s.blockDecode engine id b payload desc ok = s)
    simp only [State.blockDecode, hdecodes]
  case decodeFails =>
    intro engine id b payload desc hfails
    exact ⟨_, rfl, State.effect_of_poisoned (s.blockDecode_unreported hfails engine id b) (by decide) (by decide)⟩

end Sys2Proof.Machine
end

