-- ==== Sys2Proof/Proofs/DepotLanes.lean ====
section
/-! What a Depot holds after one of its lanes changes (chapter 12), and the operations on a lane that several commands share: the flush of
its journal (R375), the copy of its slots (R372) and the read of one (R381, R382). Each is said as the lane it leaves. -/

namespace Sys2Proof.Machine

/-! ### One Depot, one lane -/

theorem State.depot_setDepot_same {s : State} {j : Nat} (h : j < s.depots.length) (d : Depot) : (s.setDepot j d).depot j = d := by
  simp [State.depot, h]

theorem Depot.lane_setLane_same {d : Depot} {l : Nat} (h : l < d.lanes.length) (x : Lane) : (d.setLane l x).lane l = x := by
  simp [Depot.lane, Depot.setLane, h]

/-- An element written back where it stands changes nothing, not even past the end. -/
theorem set_getD_self {α : Type} (xs : List α) (i : Nat) (x : α) : xs.set i (xs.getD i x) = xs := by
  by_cases h : i < xs.length
  · rw [← List.getElem_eq_getD (h := h), List.set_getElem_self]
  · exact List.set_eq_of_length_le (Nat.le_of_not_lt h)

theorem State.setDepot_depot (s : State) (j : Nat) : s.setDepot j (s.depot j) = s := by
  simp only [State.setDepot, State.depot, set_getD_self]

@[simp] theorem Depot.setLane_lane (d : Depot) (l : Nat) : d.setLane l (d.lane l) = d := by
  simp only [Depot.setLane, Depot.lane, set_getD_self]

@[simp] theorem Depot.setLane_setLane (d : Depot) (l : Nat) (x y : Lane) : (d.setLane l x).setLane l y = d.setLane l y := by
  simp [Depot.setLane]

@[simp] theorem Depot.setLane_lanes_length (d : Depot) (l : Nat) (x : Lane) : (d.setLane l x).lanes.length = d.lanes.length :=
  List.length_set

theorem Lane.block_setBlock_same (x : Lane) (b : BlockId) (v : Block) : (x.setBlock b v).block b = v := by
  simp [Lane.block, Lane.setBlock, mapGetD]

/-! ### The flush of a lane (R375) -/

/-- The journal record of a flush: the open set, and the deltas since the last flush with those of the blocks that became free. -/
def Depot.flushRecord (d : Depot) (l : Nat) (next : List BlockId) : JournalRec :=
  { flush := (d.lane l).flush + 1, epoch := (d.lane l).sbEpoch, high := (d.lane l).high,
    openSet := distinct (d.mustOpen l (d.lane l).high ++ next), deltas := (d.lane l).deltas ++ (d.newlyFree l).map Delta.free }

/-- The lane that a flush leaves. -/
def Depot.flushed (d : Depot) (l mono : Nat) (next : List BlockId) : Lane :=
  { d.lane l with journal := (d.lane l).journal ++ [d.flushRecord l next], flush := (d.lane l).flush + 1, flushedAt := mono,
                  sinceFlush := 0, deltas := [], freed := (d.lane l).freed ++ d.newlyFree l }

theorem Depot.flushLane_eq (d : Depot) (l mono : Nat) (next : List BlockId) : d.flushLane l mono next = d.setLane l (d.flushed l mono next) :=
  rfl

theorem State.journalFlush_of_due {s : State} {j l dt : Nat} (hj : j < s.jdCount) (hl : l < 2)
    (hserves : ((s.depot j).lane l).serves = true)
    (hdue : ((s.depot j).lane l).journal = [] ∨ ((s.depot j).lane l).flushedAt + 64 * 10 ^ 6 ≤ s.clock.mono + dt ∨
      2 ^ 24 ≤ ((s.depot j).lane l).sinceFlush) (next : List (Nat × Nat × Nat)) :
    s.journalFlush j l next dt = (s.tick dt).setDepot j
      ((s.depot j).flushLane l (s.clock.mono + dt) (next.map fun b => ⟨b.1, b.2.1, b.2.2⟩)) :=
  if_pos ⟨hj, hl, hserves, hdue⟩

theorem State.flushNow_of_serves {s : State} {j l : Nat} (h : ((s.depot j).lane l).serves = true) :
    s.flushNow j l = s.setDepot j ((s.depot j).flushLane l s.clock.mono ((s.depot j).lane l).nextBlocks) := by
  simp only [State.flushNow, h, Bool.true_or, if_true]

/-- A lane that is replaced under a forced flush: its pending deltas stand in the record that the flush appends. -/
theorem State.flushNow_setDepot_setLane {s : State} {j l : Nat} {d : Depot} {x : Lane} (hj : j < s.depots.length) (hl : l < d.lanes.length)
    (hserves : x.serves = true) :
    ∃ (r : JournalRec) (y : Lane), (s.setDepot j (d.setLane l x)).flushNow j l = s.setDepot j (d.setLane l y) ∧
      y.journal = x.journal ++ [r] ∧ x.deltas ⊆ r.deltas ∧ y.map = x.map := by
  have hd := State.depot_setDepot_same hj (d.setLane l x)
  have hx := Depot.lane_setLane_same hl x
  refine ⟨(d.setLane l x).flushRecord l x.nextBlocks, (d.setLane l x).flushed l s.clock.mono x.nextBlocks, ?_, ?_, ?_, ?_⟩
  · rw [State.flushNow_of_serves (by rw [hd, hx]; exact hserves), hd, hx, Depot.flushLane_eq, Depot.setLane_setLane]
    simp only [State.setDepot, List.set_set]
  · simp only [Depot.flushed, hx]
  · simp only [Depot.flushRecord, hx]
    exact List.subset_append_left _ _
  · simp only [Depot.flushed, hx]

/-! ### Copies of slots (R372) -/

theorem Depot.foldl_markPage_eq (l : Nat) (pslc : Bool) (place : List Nat) {d : Depot} (hl : l < d.lanes.length) :
    ∃ bs, place.foldl (fun d p => d.markPage l p pslc) d = d.setLane l { d.lane l with blocks := bs } := by
  induction place generalizing d with
  | nil => exact ⟨(d.lane l).blocks, (d.setLane_lane l).symm⟩
  | cons p place ih =>
    obtain ⟨bs, hrest⟩ := ih (d := d.markPage l p pslc) (by simpa [Depot.markPage] using hl)
    refine ⟨bs, hrest.trans ?_⟩
    simp only [Depot.markPage, Depot.lane_setLane_same hl, Depot.setLane_setLane, Lane.setBlock]

/-- Copying slots fills blocks, and leaves the map, the journal and the deltas that wait. -/
theorem Depot.copySlots_eq {d : Depot} {l : Nat} (hl : l < d.lanes.length) (src place : List Nat) (typ : SlotType) :
    ∃ slots copies bs, d.copySlots l src place typ = d.setLane l { d.lane l with slots := slots, copies := copies, blocks := bs } := by
  unfold Depot.copySlots
  dsimp only
  generalize hcopied : d.setLane l { d.lane l with slots := _, copies := _ } = c
  obtain ⟨bs, hmarked⟩ := Depot.foldl_markPage_eq l false place (d := c) (by simpa [← hcopied] using hl)
  rw [hmarked, ← hcopied, Depot.lane_setLane_same hl, Depot.setLane_setLane]
  exact ⟨_, _, _, rfl⟩

/-! ### Reads (R381, R382) -/

/-- The lane with a read of a block counted. -/
def Lane.countRead (x : Lane) (b : BlockId) : Lane := x.setBlock b { x.block b with reads := (x.block b).reads + 1 }

/-- The lane with a block queued for refresh, at the next window or at once. -/
def Lane.queueBlock (x : Lane) (b : BlockId) (refresh emergency : Bool) : Lane :=
  let x := if refresh && !x.refresh.contains b then { x with refresh := x.refresh ++ [b] } else x
  if emergency && !x.emergency.contains b then { x with emergency := x.emergency ++ [b] } else x

theorem Lane.queueBlock_eq (x : Lane) (b : BlockId) (refresh emergency : Bool) :
    ∃ rs es, x.queueBlock b refresh emergency = { x with refresh := rs, emergency := es } := by
  unfold Lane.queueBlock
  dsimp only
  split <;> split <;> exact ⟨_, _, rfl⟩

/-- The lane with a unit lost, and its delta. -/
def Lane.loseUnit (x : Lane) (ns unit : Nat) : Lane :=
  { x with map := mapSet x.map (unitKey ns unit) lostEntry, deltas := x.deltas ++ [Delta.lost ns unit] }

/-- The lane after the read of the slot `q` at `p` of block `b`. -/
def Lane.afterRead (x : Lane) (b : BlockId) (p : Nat) (q : Slot) (step : LadderStep) (refresh emergency : Bool) : Lane :=
  let y := (x.countRead b).queueBlock b refresh emergency
  if step == .lost && y.valid p then y.loseUnit q.ns q.unit else y

theorem Lane.afterRead_hard (x : Lane) (b : BlockId) (p : Nat) (q : Slot) (bits : Nat) (refresh emergency : Bool) :
    ∃ rs es, x.afterRead b p q (.hard bits) refresh emergency = { x.countRead b with refresh := rs, emergency := es } :=
  (x.countRead b).queueBlock_eq b refresh emergency

/-- A valid slot that no step reads loses its unit. -/
theorem Lane.afterRead_lost {x : Lane} {p : Nat} {q : Slot} (hq : mapGet x.slots p = some q)
    (hmap : mapGet x.map (unitKey q.ns q.unit) = some p) (b : BlockId) (refresh emergency : Bool) :
    (x.afterRead b p q .lost refresh emergency).map = mapSet x.map (unitKey q.ns q.unit) lostEntry := by
  obtain ⟨rs, es, hqueue⟩ := (x.countRead b).queueBlock_eq b refresh emergency
  have hvalid : ((x.countRead b).queueBlock b refresh emergency).valid p = true := by
    rw [hqueue]
    simp only [Lane.valid, Lane.countRead, Lane.setBlock, hq, hmap, beq_self_eq_true]
  simp only [Lane.afterRead, hvalid, beq_self_eq_true, Bool.and_self, if_true]
  rw [hqueue]
  rfl

/-- The Depot after a read of lane `l`, the health record counted. -/
def Depot.afterRead (d : Depot) (step : LadderStep) (l : Nat) (x : Lane) : Depot := { d with health := d.health.read step }.setLane l x

/-- A read counts in its block and in the health record; one that went deep is an event of its die. -/
theorem State.readSlot_of_slot {s : State} {j l p : Nat} {q : Slot} (hq : mapGet ((s.depot j).lane l).slots p = some q) (step : LadderStep) :
    ∃ refresh emergency u,
      let t := s.setDepot j ((s.depot j).afterRead step l
        (((s.depot j).lane l).afterRead ((s.depot j).blockOf l p) p q step refresh emergency))
      s.readSlot j l p step = if ladderDeep step then t.transient u 1 0xFF p else t := by
  simp only [State.readSlot, hq]
  exact ⟨_, _, _, rfl⟩

theorem State.readSlot_hard {s : State} {j l p : Nat} {q : Slot} (hq : mapGet ((s.depot j).lane l).slots p = some q) (bits : Nat) :
    ∃ rs es, s.readSlot j l p (.hard bits) = s.setDepot j ((s.depot j).afterRead (.hard bits) l
      { ((s.depot j).lane l).countRead ((s.depot j).blockOf l p) with refresh := rs, emergency := es }) := by
  obtain ⟨refresh, emergency, u, hread⟩ := State.readSlot_of_slot hq (.hard bits)
  obtain ⟨rs, es, hlane⟩ := ((s.depot j).lane l).afterRead_hard ((s.depot j).blockOf l p) p q bits refresh emergency
  rw [hlane] at hread
  exact ⟨rs, es, hread⟩

theorem State.readSlot_lost {s : State} {j l p : Nat} {q : Slot} (hq : mapGet ((s.depot j).lane l).slots p = some q) :
    ∃ refresh emergency u, s.readSlot j l p .lost = (s.setDepot j ((s.depot j).afterRead .lost l
      (((s.depot j).lane l).afterRead ((s.depot j).blockOf l p) p q .lost refresh emergency))).transient u 1 0xFF p :=
  State.readSlot_of_slot hq .lost

theorem State.slotRead_of_mapped {s : State} {j ns unit p : Nat} {n : Namespace} (hns : mapGet (s.depot j).namespaces ns = some n)
    (hserves : ((s.depot j).lane (n.laneOf unit)).serves = true)
    (hmap : mapGet ((s.depot j).lane (n.laneOf unit)).map (unitKey ns unit) = some p) (hp : p ≠ lostEntry) (step : LadderStep) :
    s.slotRead j ns unit step = s.readSlot j (n.laneOf unit) p step := by
  simp only [State.slotRead, hns, hserves, hmap, hp, if_true, if_false]

theorem State.mediaPatrol_of_closed {s : State} {j l : Nat} {pua : Pua} (hserves : ((s.depot j).lane l).serves = true)
    (hopen : s.maintOpen = true) (hclosed : (s.depot j).closed l ((s.depot j).blockOf l (puaWord pua)) = true) (step : LadderStep) :
    s.mediaPatrol j l [(pua, step)] = s.readSlot j l (puaWord pua) step := by
  simp only [State.mediaPatrol, hserves, hopen, Bool.and_self, if_true, List.foldl_cons, List.foldl_nil, hclosed]

/-- Marking what became lost only poisons (R364). -/
theorem State.markLost_eq (s old : State) : ∃ ps, s.markLost old = { s with poison := ps } := by
  unfold State.markLost
  refine List.foldlRecOn (motive := fun t => ∃ ps, t = { s with poison := ps }) _ _ ?_ ?_
  · exact ⟨_, rfl⟩
  · rintro _ ⟨ps, rfl⟩ e -
    split
    · exact ⟨_, rfl⟩
    · refine List.foldlRecOn (motive := fun t => ∃ ps, t = { s with poison := ps }) _ _ ?_ ?_
      · exact ⟨_, rfl⟩
      · rintro _ ⟨ps, rfl⟩ b -
        split
        · dsimp only
          split <;> exact ⟨_, rfl⟩
        · exact ⟨_, rfl⟩

theorem State.markLost_keeps {α : Type} (f : State → α) (hpoison : ∀ (s : State) ps, f { s with poison := ps } = f s) (s old : State) :
    f (s.markLost old) = f s := by
  obtain ⟨ps, hmark⟩ := s.markLost_eq old
  rw [hmark, hpoison]

section
variable (s old : State)

@[simp] theorem State.markLost_depot (j : Nat) : (s.markLost old).depot j = s.depot j := State.markLost_keeps (·.depot j) (fun _ _ => rfl) s old
@[simp] theorem State.markLost_regs : (s.markLost old).regs = s.regs := State.markLost_keeps State.regs (fun _ _ => rfl) s old
@[simp] theorem State.markLost_allocs : (s.markLost old).allocs = s.allocs := State.markLost_keeps State.allocs (fun _ _ => rfl) s old
@[simp] theorem State.markLost_runs : (s.markLost old).runs = s.runs := State.markLost_keeps State.runs (fun _ _ => rfl) s old
@[simp] theorem State.markLost_cmds : (s.markLost old).cmds = s.cmds := State.markLost_keeps State.cmds (fun _ _ => rfl) s old
@[simp] theorem State.markLost_nv : (s.markLost old).nv = s.nv := State.markLost_keeps State.nv (fun _ _ => rfl) s old

end

end Sys2Proof.Machine
end

