-- ==== Sys2Proof/Proofs/DepotRecords.lean ====
section
/-! What the Depots record (chapter 12): flushes, checkpoints and superblocks of a lane, the reads that count and the units they lose,
the retirement of dies, the destruction of namespaces, the key table and the temperatures. -/

namespace Sys2Proof.Machine

/-! ### What the retirement of a unit leaves of the Depots (R383, R504) -/

/-- The health record of a Depot and the maps of its lanes. -/
def Depot.unitMaps (d : Depot) : Health × (Nat → KMap Nat) := (d.health, fun l => (d.lane l).map)

def State.unitMaps (s : State) (j : Nat) : Health × (Nat → KMap Nat) := (s.depot j).unitMaps

/-- A unit that leaves service changes no more of a lane than its STATE. -/
theorem Depot.dropUnit_lane (d : Depot) (u l : Nat) : ∃ st, (d.dropUnit u).lane l = { d.lane l with st := st } := by
  simp only [Depot.dropUnit, Depot.lane, apply_ite Depot.lanes, ite_self, List.getD_eq_getElem?_getD, List.getElem?_map]
  by_cases hl : l < d.lanes.length
  · rw [List.getElem?_range hl]
    dsimp only [Option.map_some, Option.getD_some]
    generalize (if unitType u = 7 then unitIndex u / 16 % 16 else unitIndex u % 16) = ch
    split <;> exact ⟨_, rfl⟩
  · rw [List.getElem?_eq_none (by simpa using hl), List.getElem?_eq_none (Nat.le_of_not_lt hl)]
    exact ⟨_, rfl⟩

theorem Depot.dropUnit_unitMaps (d : Depot) (u : Nat) : (d.dropUnit u).unitMaps = d.unitMaps := by
  refine Prod.ext ?_ (funext fun l => ?_)
  · simp only [Depot.unitMaps, Depot.dropUnit, apply_ite Depot.health, ite_self]
  · obtain ⟨st, hlane⟩ := d.dropUnit_lane u l
    simp only [Depot.unitMaps, hlane]

theorem State.setDepot_unitMaps {s : State} {j : Nat} {d : Depot} (h : d.unitMaps = (s.depot j).unitMaps) :
    (s.setDepot j d).unitMaps = s.unitMaps := by
  funext k
  by_cases hk : j = k ∧ j < s.depots.length
  · obtain ⟨rfl, hj⟩ := hk
    simp only [State.unitMaps, State.depot_setDepot_same hj, h]
  · have hother : (s.depots.set j d)[k]? = s.depots[k]? := by
      rw [List.getElem?_set]
      split
      · subst j
        rw [if_neg fun hj => hk ⟨rfl, hj⟩, List.getElem?_eq_none (Nat.le_of_not_lt fun hj => hk ⟨rfl, hj⟩)]
      · rfl
    simp only [State.unitMaps, State.depot, State.setDepot, List.getD_eq_getElem?_getD, hother]

@[simp] theorem State.report_unitMaps (s : State) (u : Nat) (c : FaultClass) (src p sl a : Nat) :
    (s.report u c src p sl a).unitMaps = s.unitMaps := by
  rw [State.report_eq]
  rfl

@[simp] theorem State.addEvent_unitMaps (s : State) (u : Nat) (k : EventKind) : (s.addEvent u k).unitMaps = s.unitMaps := rfl

@[simp] theorem State.retireEffect_unitMaps (s : State) (u : Nat) : (s.retireEffect u).unitMaps = s.unitMaps := by
  unfold State.retireEffect
  split
  · rfl
  · split
    · exact State.setDepot_unitMaps (Depot.dropUnit_unitMaps _ _)
    · rfl

@[simp] theorem State.retireOne_unitMaps (s : State) (u : Nat) (c : FaultClass) (src p : Nat) :
    (s.retireOne u c src p).unitMaps = s.unitMaps := by
  unfold State.retireOne
  split
  · rfl
  · rw [State.retireEffect_unitMaps, State.report_unitMaps]
    rfl

@[simp] theorem State.retireUnit_unitMaps (s : State) (u : Nat) (c : FaultClass) (src p : Nat) :
    (s.retireUnit u c src p).unitMaps = s.unitMaps := by
  fun_cases State.retireUnit <;> simp +zetaDelta

@[simp] theorem State.retirePermanent_unitMaps (s : State) (u src : Nat) : (s.retirePermanent u src).unitMaps = s.unitMaps := by
  unfold State.retirePermanent
  split
  · split <;> rfl
  · exact s.retireUnit_unitMaps u .permanent src 0

@[simp] theorem State.transient_unitMaps (s : State) (u src sl a : Nat) : (s.transient u src sl a).unitMaps = s.unitMaps := by
  fun_cases State.transient <;> simp +zetaDelta

/-! ### Destruction of a namespace (R389) -/

/-- A Depot but for its lanes. -/
def Depot.bare (d : Depot) : Depot := { d with lanes := [] }

def State.bareDepots (s : State) : List Depot := s.depots.map Depot.bare

theorem State.depot_bare (s : State) (j : Nat) : (s.depot j).bare = s.bareDepots.getD j Depot.blank.bare := by
  simp only [State.depot, State.bareDepots, List.getD_eq_getElem?_getD, List.getElem?_map, Option.getD_map]

theorem State.setDepot_bareDepots (s : State) (j : Nat) (d : Depot) : (s.setDepot j d).bareDepots = s.bareDepots.set j d.bare := List.map_set

/-- The states that differ in the lanes of Depots alone. -/
def State.SameButLanes (s t : State) : Prop := t.bareDepots = s.bareDepots ∧ ∃ ds, t = { s with depots := ds }

theorem State.SameButLanes.refl (s : State) : s.SameButLanes s := ⟨rfl, _, rfl⟩

theorem State.SameButLanes.trans {s t u : State} (hst : s.SameButLanes t) (htu : t.SameButLanes u) : s.SameButLanes u := by
  obtain ⟨hbare, ds, rfl⟩ := hst
  obtain ⟨hbare', ds', rfl⟩ := htu
  exact ⟨hbare'.trans hbare, ds', rfl⟩

theorem State.SameButLanes.depot_bare {s t : State} (h : s.SameButLanes t) (j : Nat) : (t.depot j).bare = (s.depot j).bare := by
  rw [State.depot_bare, State.depot_bare, h.1]

/-- The same Depot replaced in both. -/
theorem State.SameButLanes.setDepot {s t : State} (h : s.SameButLanes t) {d e : Depot} (he : e.bare = d.bare) (j : Nat) :
    (s.setDepot j d).SameButLanes (t.setDepot j e) := by
  obtain ⟨hbare, ds, rfl⟩ := h
  refine ⟨?_, _, rfl⟩
  rw [State.setDepot_bareDepots, State.setDepot_bareDepots, hbare, he]

theorem State.sameButLanes_setDepot {s : State} {j : Nat} {d : Depot} (h : d.bare = (s.depot j).bare) : s.SameButLanes (s.setDepot j d) := by
  have hset := (State.SameButLanes.refl s).setDepot h j
  rwa [State.setDepot_depot] at hset

theorem State.sameButLanes_flushNow (s : State) (j l : Nat) : s.SameButLanes (s.flushNow j l) := by
  unfold State.flushNow
  dsimp only
  split
  · exact State.sameButLanes_setDepot rfl
  · exact .refl s

/-- A lane whose superblock is written under a forced flush. -/
def State.superblockLane (s : State) (j l : Nat) (x : Lane) : State :=
  (s.setDepot j (((s.depot j).setLane l x).superblock l)).flushNow j l

theorem State.sameButLanes_superblockLane (s : State) (j l : Nat) (x : Lane) : s.SameButLanes (s.superblockLane j l x) := by
  have hset : s.SameButLanes (s.setDepot j (((s.depot j).setLane l x).superblock l)) := State.sameButLanes_setDepot rfl
  exact hset.trans (State.sameButLanes_flushNow _ j l)

/-- NSDESTROY in a lane (step 1 of R389). -/
def State.markLane (j ns : Nat) (s : State) (l : Nat) : State :=
  let x := (s.depot j).lane l
  if x.st = .absent then s else s.superblockLane j l { x with deltas := x.deltas ++ [Delta.nsdestroy ns] }

/-- A lane without what it holds of a namespace. -/
def Lane.withoutNamespace (x : Lane) (ns : Nat) : Lane :=
  { x with map := mapFilter x.map fun k _ => decide (k / 2 ^ 40 ≠ ns), batch := x.batch.filter (fun w => w.ns != ns),
           trims := x.trims.filter (fun t => t.1 != ns), copies := x.copies.filter (fun c => c.ns != ns),
           segments := mapFilter x.segments fun k _ => decide (k / 2 ^ 40 ≠ ns) }

/-- The entries of a namespace leave a lane (steps 2 to 4 of R389). -/
def State.clearLane (j ns : Nat) (s : State) (l : Nat) : State := s.superblockLane j l (((s.depot j).lane l).withoutNamespace ns)

/-- A Depot without a namespace and without its key. -/
def Depot.withoutNamespace (d : Depot) (ns : Nat) : Depot :=
  { d with namespaces := mapErase d.namespaces ns, destroying := d.destroying.filter (· != ns) }.writeKeyTable

theorem Depot.withoutNamespace_bare (d : Depot) (ns : Nat) : (d.withoutNamespace ns).bare = d.bare.withoutNamespace ns := rfl

theorem State.namespaceMark_of_recorded {s : State} {j ns : Nat} (h : (s.depot j).destroying.contains ns = true) :
    s.namespaceMark j ns = [0, 1].foldl (State.markLane j ns) s := by
  have hstart : ∀ f : State → Nat → State, [0, 1].foldl f (s.setDepot j (s.depot j)) = [0, 1].foldl f s := by
    intro f
    rw [State.setDepot_depot]
  simp only [State.namespaceMark, h, if_true]
  exact hstart (State.markLane j ns)

theorem State.namespaceFinish_eq (s : State) (j ns : Nat) : s.namespaceFinish j ns =
    ([0, 1].foldl (State.clearLane j ns) (s.setDepot j ((s.depot j).withoutNamespace ns))).logDepot 2 j 0 ns 0 := rfl

theorem State.sameButLanes_markLane (j ns : Nat) (s : State) (l : Nat) : s.SameButLanes (s.markLane j ns l) := by
  unfold State.markLane
  dsimp only
  split
  · exact .refl s
  · exact s.sameButLanes_superblockLane j l _

theorem State.sameButLanes_clearLane (j ns : Nat) (s : State) (l : Nat) : s.SameButLanes (s.clearLane j ns l) :=
  s.sameButLanes_superblockLane j l _

theorem State.sameButLanes_foldl {f : State → Nat → State} (h : ∀ (s : State) l, s.SameButLanes (f s l)) (ls : List Nat) (s : State) :
    s.SameButLanes (ls.foldl f s) := by
  induction ls generalizing s with
  | nil => exact .refl s
  | cons l ls ih => exact (h s l).trans (ih (f s l))

/-- A recorded destruction takes the namespace and its key out, changes lanes, and logs its end. -/
theorem State.namespaceDestroyStep_of_recorded {s : State} {j ns : Nat} (h : (s.depot j).destroying.contains ns = true) :
    ∃ t, s.namespaceDestroyStep j ns = t.logDepot 2 j 0 ns 0 ∧ (s.setDepot j ((s.depot j).withoutNamespace ns)).SameButLanes t := by
  have hmark : s.SameButLanes (s.namespaceMark j ns) := by
    rw [State.namespaceMark_of_recorded h]
    exact State.sameButLanes_foldl (State.sameButLanes_markLane j ns) [0, 1] s
  have hbare : (((s.namespaceMark j ns).depot j).withoutNamespace ns).bare = ((s.depot j).withoutNamespace ns).bare := by
    rw [Depot.withoutNamespace_bare, Depot.withoutNamespace_bare, hmark.depot_bare]
  have hdrop : (s.setDepot j ((s.depot j).withoutNamespace ns)).SameButLanes _ := hmark.setDepot hbare j
  have hclear := State.sameButLanes_foldl (State.sameButLanes_clearLane j ns) [0, 1]
    ((s.namespaceMark j ns).setDepot j (((s.namespaceMark j ns).depot j).withoutNamespace ns))
  have hall := hdrop.trans hclear
  have hstep : s.namespaceDestroyStep j ns = (s.namespaceMark j ns).namespaceFinish j ns := by
    simp only [State.namespaceDestroyStep, State.namespaceDestroy, h, or_true, if_true]
  exact ⟨_, hstep.trans (State.namespaceFinish_eq _ j ns), hall⟩

theorem State.logDepot_depot (s : State) (event j l ns detail k : Nat) : (s.logDepot event j l ns detail).depot k = s.depot k := by
  rw [State.logDepot, State.logAppend_eq]
  rfl

/-! ### Checkpoints (R376) and retired dies (R383) -/

/-- A segment without pending deltas is written at the lane's flush; the journal may shrink. -/
theorem State.checkpointSegment_of_durable {s : State} {j l : Nat} (hserves : ((s.depot j).lane l).serves = true)
    (hdurable : ((s.depot j).lane l).deltas = []) (ns segment : Nat) :
    ∃ entries keep, s.checkpointSegment j l ns segment = s.setDepot j ((s.depot j).setLane l
      { (s.depot j).lane l with
        segments := mapSet ((s.depot j).lane l).segments (ns * 2 ^ 40 + segment) ⟨((s.depot j).lane l).flush, entries⟩, journal := keep }) := by
  simp only [State.checkpointSegment, hserves, hdurable, List.any_nil, Bool.not_false, Bool.and_self, if_true, Depot.setLane_setLane]
  exact ⟨_, _, rfl⟩

/-- The Depot with a count of lost units. -/
def Depot.withLost (d : Depot) (n : Nat) : Depot := { d with health := { d.health with lost := n } }

/-- The valid slots of a die that no pending copy moves already. -/
def Lane.slotsOfDie (x : Lane) (ch die : Nat) : List Nat :=
  (mapKeys x.slots).filter fun p => decide (puaCh p = ch) && decide (puaDie p = die) && x.valid p && !x.copies.any fun c => c.src == p

/-- A retired die whose slots all read is journalled, and no unit is lost. -/
theorem State.dieRetire_of_readable {s : State} {j ch die : Nat} {place : List Pua} (hj : j < s.depots.length)
    (hl : ch / 8 < (s.depot j).lanes.length) (hretired : s.retired (unitId 7 (256 * j + 16 * ch + die)) = true)
    (hserves : ((s.depot j).lane (ch / 8)).serves = true)
    (hplace : (s.depot j).copyPlaceOk (ch / 8) (((s.depot j).lane (ch / 8)).slotsOfDie (ch % 8) die) (place.map puaWord) = true) :
    ∃ (r : JournalRec) (y : Lane), s.dieRetire j ch (some die) [] place = s.setDepot j
        (((s.depot j).withLost ((s.depot j).health.lost % 2 ^ 32)).setLane (ch / 8) y) ∧
      y.journal = ((s.depot j).lane (ch / 8)).journal ++ [r] ∧ Delta.retireDie (ch % 8) die ∈ r.deltas ∧
      y.map = ((s.depot j).lane (ch / 8)).map := by
  generalize hx : { (s.depot j).lane (ch / 8) with deltas := ((s.depot j).lane (ch / 8)).deltas ++ [Delta.retireDie (ch % 8) die] } = x
  generalize hd : (s.depot j).withLost ((s.depot j).health.lost % 2 ^ 32) = d
  have hlane : ch / 8 < (d.setLane (ch / 8) x).lanes.length := by
    rw [Depot.setLane_lanes_length, ← hd]
    exact hl
  obtain ⟨slots, copies, bs, hcopied⟩ :=
    Depot.copySlots_eq hlane (((s.depot j).lane (ch / 8)).slotsOfDie (ch % 8) die) (place.map puaWord) .reloc
  rw [Depot.lane_setLane_same (by simpa using hlane), Depot.setLane_setLane] at hcopied
  obtain ⟨r, y, hflush, hjournal, hdeltas, hmap⟩ := State.flushNow_setDepot_setLane (d := d)
    (x := { x with slots := slots, copies := copies, blocks := bs }) hj (by simpa using hlane) (by rw [← hx]; exact hserves)
  refine ⟨r, y, ?_, by rw [hjournal, ← hx], hdeltas (by simp [← hx]), by rw [hmap, ← hx]⟩
  rw [← hflush, ← hcopied, ← hx, ← hd]
  have hreadable : ∀ ps : List Nat, ps.filter (fun p => !([] : List Nat).contains p) = ps ∧ ps.filter ([] : List Nat).contains = [] := by
    simp
  simp only [State.dieRetire, Option.elim_some, List.map_nil, hreadable, hretired, hserves, Bool.true_and, Option.getD_some,
    List.foldl_nil, List.length_nil, Nat.add_zero]
  exact if_pos hplace

/-! ### What reads leave (R381, R382) -/

/-- A read that the first step serves. -/
theorem State.hardRead_effect {s t : State} {j l p : Nat} {q : Slot} (hj : j < s.depots.length) (hl : l < (s.depot j).lanes.length)
    (hq : mapGet ((s.depot j).lane l).slots p = some q) {bits : Nat} (ht : t = s.readSlot j l p (.hard bits)) :
    (((t.depot j).lane l).block ((s.depot j).blockOf l p)).reads = (((s.depot j).lane l).block ((s.depot j).blockOf l p)).reads + 1 ∧
      ((t.depot j).lane l).map = ((s.depot j).lane l).map ∧ ((t.depot j).lane l).slots = ((s.depot j).lane l).slots ∧
      (t.depot j).health.lost = (s.depot j).health.lost ∧ (t.depot j).health.retry = (s.depot j).health.retry ∧ t.regs = s.regs ∧
      t.allocs = s.allocs ∧ t.runs = s.runs ∧ t.cmds = s.cmds ∧ t.nv = s.nv := by
  obtain ⟨rs, es, hread⟩ := State.readSlot_hard hq bits
  generalize hx : { ((s.depot j).lane l).countRead ((s.depot j).blockOf l p) with refresh := rs, emergency := es } = x at hread
  have hlane : ((s.depot j).afterRead (.hard bits) l x).lane l = x := Depot.lane_setLane_same hl x
  rw [ht, hread, State.depot_setDepot_same hj, hlane, ← hx]
  exact ⟨congrArg Block.reads (((s.depot j).lane l).block_setBlock_same _ _), rfl, rfl, rfl, rfl, rfl, rfl, rfl, rfl, rfl⟩

/-- A read that every step fails: reporting it changes neither the maps nor the health record. -/
theorem State.lostRead_effect {s t : State} {j l p : Nat} {q : Slot} (hj : j < s.depots.length) (hl : l < (s.depot j).lanes.length)
    (hq : mapGet ((s.depot j).lane l).slots p = some q) (hmap : mapGet ((s.depot j).lane l).map (unitKey q.ns q.unit) = some p)
    (ht : t = s.readSlot j l p .lost) :
    mapGet ((t.depot j).lane l).map (unitKey q.ns q.unit) = some lostEntry ∧
      (t.depot j).health.lost = ((s.depot j).health.lost + 1) % 2 ^ 32 ∧
      (t.depot j).health.uncorr = ((s.depot j).health.uncorr + 1) % 2 ^ 32 ∧ t.allocs = s.allocs ∧ t.nv.slices = s.nv.slices := by
  obtain ⟨refresh, emergency, u, hread⟩ := State.readSlot_lost hq
  generalize hx : ((s.depot j).lane l).afterRead ((s.depot j).blockOf l p) p q .lost refresh emergency = x at hread
  generalize hcounted : s.setDepot j ((s.depot j).afterRead .lost l x) = v at hread
  rw [← ht] at hread
  have hmaps : (t.depot j).unitMaps = ((s.depot j).afterRead .lost l x).unitMaps := by
    calc (t.depot j).unitMaps = (v.depot j).unitMaps := hread ▸ congrFun (v.transient_unitMaps u 1 0xFF p) j
      _ = _ := by rw [← hcounted, State.depot_setDepot_same hj]
  have hhealth : (t.depot j).health = (s.depot j).health.read .lost := congrArg Prod.fst hmaps
  have hlost : ((t.depot j).lane l).map = mapSet ((s.depot j).lane l).map (unitKey q.ns q.unit) lostEntry := by
    calc ((t.depot j).lane l).map = (((s.depot j).afterRead .lost l x).lane l).map := congrFun (congrArg Prod.snd hmaps) l
      _ = x.map := congrArg Lane.map (Depot.lane_setLane_same hl x)
      _ = _ := hx ▸ Lane.afterRead_lost hq hmap _ _ _
  have hevent : t.unreported = v.unreported := hread ▸ v.transient_unreported u 1 0xFF p
  rw [hlost, hhealth, State.allocs_of_unreported hevent, State.slices_of_unreported hevent, ← hcounted]
  exact ⟨mapGet_mapSet_same _ _ _, rfl, rfl, rfl, rfl⟩

theorem completes_of_next {c : Instr} {s t : State} {P : State → Prop} (hstep : exec c s = .next t) (hP : P t) : Completes c s P :=
  ⟨t, hstep, hP⟩

/-! ### The whole statement -/

/-- Settles O46: each command's next state is that of its lemma, in the Depot and the lane it names. -/
theorem journalsCheckpointsReadsAndKeysOfTheDepot : Obligations.JournalsCheckpointsReadsAndKeysOfTheDepot := by
  intro s
  refine ⟨?flush, ?segment, ?counters, ?superblock, ?read, ?readLost, ?patrol, ?retire, ?destroy, ?keys, ?temps⟩
  case flush =>
    rintro jd lane _ _ next dt hjd hlane rfl hlen rfl hcount hserves hdue
    have hlane : lane < (s.depot jd).lanes.length := hlen ▸ hlane
    refine completes_of_next (congrArg Host.Outcome.next (State.journalFlush_of_due hcount (hlen ▸ hlane) hserves hdue next)) ?_
    rw [State.depot_setDepot_same (s := s.tick dt) hjd, Depot.flushLane_eq, Depot.lane_setLane_same hlane]
    refine ⟨rfl, ?_, ?_, rfl, rfl, rfl, rfl⟩
    · simp only [Depot.flushed, List.length_append, List.length_singleton]
    · simp only [Depot.flushed, Depot.flushRecord, List.getLast?_concat, Option.any_some, beq_self_eq_true, Bool.and_self]
  case segment =>
    rintro jd lane _ _ ns segment hjd hlane rfl hlen rfl hserves hdurable
    have hlane : lane < (s.depot jd).lanes.length := hlen ▸ hlane
    obtain ⟨entries, keep, hstep⟩ := State.checkpointSegment_of_durable hserves hdurable ns segment
    refine completes_of_next (congrArg Host.Outcome.next hstep) ?_
    rw [State.depot_setDepot_same hjd, Depot.lane_setLane_same hlane]
    refine ⟨?_, rfl, rfl, rfl, rfl, rfl, rfl⟩
    simp only [mapGet_mapSet_same, Option.any_some, beq_self_eq_true]
  case counters =>
    rintro jd lane _ _ - - rfl - rfl hserves
    exact congrArg Host.Outcome.next (if_pos hserves)
  case superblock =>
    rintro jd lane _ _ - - rfl - rfl hserves
    exact congrArg Host.Outcome.next (if_pos hserves)
  case read =>
    rintro jd _ _ _ ns unit bits p n q _ hjd hlane rfl hlen rfl hns rfl hserves hmap hp hq rfl
    refine completes_of_next rfl ?_
    simp only [State.markLost_depot, State.markLost_regs, State.markLost_allocs, State.markLost_runs, State.markLost_cmds, State.markLost_nv]
    exact State.hardRead_effect hjd (hlen ▸ hlane) hq (State.slotRead_of_mapped hns hserves hmap hp _)
  case readLost =>
    rintro jd _ _ _ _ _ p n q hjd hlane rfl hlen rfl hns rfl hserves hmap hp hq rfl rfl
    refine completes_of_next rfl ?_
    simp only [State.markLost_depot, State.markLost_allocs, State.markLost_nv]
    exact State.lostRead_effect hjd (hlen ▸ hlane) hq hmap (State.slotRead_of_mapped hns hserves hmap hp _)
  case patrol =>
    rintro jd lane _ _ pua bits q _ hjd hlane rfl hlen rfl hserves hopen rfl hclosed hq
    refine completes_of_next rfl ?_
    simp only [State.markLost_depot, State.markLost_regs, State.markLost_allocs, State.markLost_runs, State.markLost_cmds, State.markLost_nv]
    obtain ⟨hreads, hmap, hslots, hlost, -, hrest⟩ :=
      State.hardRead_effect hjd (hlen ▸ hlane) hq (State.mediaPatrol_of_closed hserves hopen hclosed (.hard bits))
    exact ⟨hreads, hmap, hslots, hlost, hrest⟩
  case retire =>
    rintro jd ch die _ _ place _ hjd hch rfl hlen rfl hretired hserves rfl hplace
    have hl : ch / 8 < (s.depot jd).lanes.length := by omega
    obtain ⟨r, y, hstep, hjournal, hdelta, hmap⟩ := State.dieRetire_of_readable hjd hl hretired hserves hplace
    have hlane : (((s.depot jd).withLost ((s.depot jd).health.lost % 2 ^ 32)).setLane (ch / 8) y).lane (ch / 8) = y :=
      Depot.lane_setLane_same hl y
    refine completes_of_next rfl ?_
    simp only [State.markLost_depot, State.markLost_allocs, State.markLost_runs, State.markLost_cmds, State.markLost_nv]
    rw [hstep, State.depot_setDepot_same hjd, hlane, hjournal]
    refine ⟨?_, hmap, rfl, rfl, rfl, rfl, rfl⟩
    simpa using hdelta
  case destroy =>
    rintro jd ns hjd hrecorded
    obtain ⟨t, hstep, hlanes⟩ := State.namespaceDestroyStep_of_recorded hrecorded
    have hbare := hlanes.depot_bare jd
    rw [State.depot_setDepot_same hjd] at hbare
    refine completes_of_next (congrArg Host.Outcome.next hstep) ?_
    rw [State.logDepot_depot]
    obtain ⟨-, ds, rfl⟩ := hlanes
    refine ⟨congrArg Depot.namespaces hbare, ?_, congrArg Depot.keyTables hbare, ?_⟩
    · have hdestroying := congrArg Depot.destroying hbare
      exact hdestroying ▸ by simp [Depot.bare, Depot.withoutNamespace, Depot.writeKeyTable]
    · rw [State.logDepot, State.logAppend_eq]
      exact ⟨rfl, rfl, rfl⟩
  case keys =>
    rintro jd _ rfl hserves
    refine congrArg Host.Outcome.next (if_pos ?_)
    simpa using hserves
  case temps =>
    rintro jd v vs _ hjd rfl hserves htemps
    refine completes_of_next (congrArg Host.Outcome.next (if_pos (by simpa using hserves))) ?_
    rw [State.depot_setDepot_same hjd]
    exact ⟨if_neg (Nat.ne_of_gt htemps), if_neg (Nat.ne_of_gt htemps), rfl, rfl, rfl⟩

end Sys2Proof.Machine
end

