-- ==== Sys2Proof/Proofs/PacketHeaders.lean ====
section
/-! Packet headers (R397, Table 13-2): a field read where it was written, and a field written back as it was read. -/

namespace Sys2Proof.Machine

/-! ### Fields of a byte string -/

/-- A field behind one that is skipped. -/
theorem leAt_leBytes_append_skip {m off : Nat} (h : m ≤ off) (v n : Nat) (k : Bytes) : leAt (leBytes m v ++ k) off n = leAt k (off - m) n := by
  have hskip : m - off = 0 := by omega
  simp [leAt, bytesAt, List.drop_append, List.drop_eq_nil_of_le (as := leBytes m v) (i := off) (by simpa using h)]

/-- The field that begins a byte string. -/
theorem leAt_leBytes_append_zero (n v : Nat) (k : Bytes) : leAt (leBytes n v ++ k) 0 n = v % 256 ^ n :=
  leAt_append [] _ n v k rfl

/-- Bytes read as a number and written again are the same bytes. -/
theorem leBytes_leNat (b : Bytes) : leBytes b.length (leNat b) = b := by
  induction b with
  | nil => rfl
  | cons x b ih =>
    have hdiv : (x.toNat + 256 * leNat b) / 256 = leNat b := by omega
    have hmod : BitVec.ofNat 8 (x.toNat + 256 * leNat b) = x := by
      apply BitVec.eq_of_toNat_eq
      simpa using x.isLt
    rw [List.length_cons, leNat, leBytes, hdiv, ih, hmod]

/-- A field inside a byte string, written again, is the slice it was read from. -/
theorem leBytes_leAt {b : Bytes} {off n : Nat} (h : off + n ≤ b.length) : leBytes n (leAt b off n) = (b.drop off).take n := by
  have hlen : ((b.drop off).take n).length = n := by simp; omega
  have hall : bytesAt b off n = (b.drop off).take n := by simp [bytesAt, hlen]
  calc leBytes n (leAt b off n) = leBytes ((b.drop off).take n).length (leNat ((b.drop off).take n)) := by rw [leAt, hall, hlen]
    _ = (b.drop off).take n := leBytes_leNat _

/-- A slice and what follows it. -/
theorem take_drop_append_drop {off n m : Nat} (h : off + n = m) (b : Bytes) : (b.drop off).take n ++ b.drop m = b.drop off := by
  rw [← h, ← List.drop_drop, List.take_append_drop]

/-! ### The byte of TC, RETRY and ORDERED (Table 13-2) -/

/-- The byte's value from its fields. -/
def flagByte (tc : Nat) (retry ordered : Bool) : Nat := tc + (if retry then 16 else 0) + (if ordered then 32 else 0)

theorem flagByte_lt {tc : Nat} (h : tc < 16) (retry ordered : Bool) : flagByte tc retry ordered < 256 := by
  cases retry <;> cases ordered <;> simp [flagByte] <;> omega

theorem flagByte_tc {tc : Nat} (h : tc < 16) (retry ordered : Bool) : flagByte tc retry ordered % 16 = tc := by
  cases retry <;> cases ordered <;> simp [flagByte] <;> omega

theorem flagByte_retry {tc : Nat} (h : tc < 16) (retry ordered : Bool) : bitOf (flagByte tc retry ordered) 4 = retry := by
  cases retry <;> cases ordered <;> simp [flagByte, bitOf] <;> omega

theorem flagByte_ordered {tc : Nat} (h : tc < 16) (retry ordered : Bool) : bitOf (flagByte tc retry ordered) 5 = ordered := by
  cases retry <;> cases ordered <;> simp [flagByte, bitOf] <;> omega

/-- A byte whose two upper bits are zero is made of its fields. -/
theorem flagByte_of_fields {v : Nat} (h : v < 64) : flagByte (v % 16) (bitOf v 4) (bitOf v 5) = v := by
  unfold flagByte bitOf
  split <;> split <;> simp_all <;> omega

/-! ### Both directions -/

/-- A packet's bytes field by field, the form in which a field is found behind those that are skipped. -/
theorem Pkt.bytes_eq (p : Pkt) :
    p.bytes = leBytes 1 p.op ++ (leBytes 1 (flagByte p.tc p.retry p.ordered) ++ (leBytes 1 8 ++ (leBytes 1 p.asize ++ (leBytes 3 p.dst ++
      (leBytes 3 p.src ++ (leBytes 2 p.job ++ (leBytes 4 p.epoch ++ (leBytes 5 p.offset ++ (leBytes 3 p.seqn ++ (leBytes 2 p.ctx ++
      (leBytes 2 p.len ++ (leBytes 2 p.status ++ (leBytes 2 0 ++ p.payload))))))))))))) := by
  simp [Pkt.bytes, flagByte]

/-- The header of a packet takes 32 bytes. -/
theorem Pkt.bytes_drop (p : Pkt) : p.bytes.drop 32 = p.payload := by
  unfold Pkt.bytes
  exact List.drop_left' (by simp)

/-- Fields that fit their widths are read back from the packet's bytes. -/
theorem Pkt.ofBytes_bytes {p : Pkt} (hop : p.op < 2 ^ 8) (htc : p.tc < 2 ^ 4) (hasize : p.asize < 2 ^ 8) (hdst : p.dst < 2 ^ 17)
    (hsrc : p.src < 2 ^ 17) (hjob : p.job < 2 ^ 16) (hepoch : p.epoch < 2 ^ 32) (hoffset : p.offset < 2 ^ 40) (hseqn : p.seqn < 2 ^ 24)
    (hctx : p.ctx < 2 ^ 16) (hlen : p.len < 2 ^ 16) (hstatus : p.status < 2 ^ 16) : Pkt.ofBytes p.bytes = p := by
  have hflags : leAt p.bytes 1 1 = flagByte p.tc p.retry p.ordered := by
    rw [Pkt.bytes_eq]
    simp [leAt_leBytes_append_skip, leAt_leBytes_append_zero, Nat.mod_eq_of_lt (flagByte_lt htc p.retry p.ordered)]
  unfold Pkt.ofBytes
  rw [hflags, flagByte_tc htc, flagByte_retry htc, flagByte_ordered htc, Pkt.bytes_drop, Pkt.bytes_eq]
  simp (disch := omega) only [leAt_leBytes_append_skip, leAt_leBytes_append_zero, Nat.mod_eq_of_lt, Nat.reducePow, Nat.reduceSub]

/-- The bytes of a packet that is allowed are those written from its fields, HOPS apart. -/
theorem Pkt.bytes_ofBytes {b : Bytes} (h : pktOk b = true) : (Pkt.ofBytes b).bytes = b.take 2 ++ [8] ++ b.drop 3 := by
  simp only [pktOk, Bool.and_eq_true, decide_eq_true_eq, beq_iff_eq] at h
  obtain ⟨⟨⟨⟨⟨⟨⟨⟨⟨⟨h32, -⟩, hflags⟩, hasize⟩, hdst⟩, hsrc⟩, hzero⟩, -⟩, -⟩, -⟩, -⟩ := h
  have hreserved : leBytes 2 0 = (b.drop 30).take 2 := by rw [← hzero, leBytes_leAt (by omega)]
  rw [Pkt.bytes_eq]
  simp (disch := omega) only [Pkt.ofBytes, flagByte_of_fields hflags, Nat.mod_eq_of_lt hdst, Nat.mod_eq_of_lt hsrc, hreserved, leBytes_leAt,
    take_drop_append_drop]
  have hhead : b.take (1 + 1) = b.take 1 ++ (b.drop 1).take 1 := List.take_add
  simp [leBytes, hhead]

/-- Settles O58: each field stands behind those before it, and the slices of the fields join to the whole header. -/
theorem packetHeadersLoseNothing : Obligations.PacketHeadersLoseNothing :=
  ⟨fun _ hop htc hasize hdst hsrc hjob hepoch hoffset hseqn hctx hlen hstatus =>
    Pkt.ofBytes_bytes hop htc hasize hdst hsrc hjob hepoch hoffset hseqn hctx hlen hstatus, fun _ => Pkt.bytes_ofBytes⟩

end Sys2Proof.Machine
end

