-- ==== Sys2Proof/Proofs/PortFlits.lean ====
section
/-! Flits of a port (R395, R396): what a received flit leaves in its port, and what is sent again. -/

namespace Sys2Proof.Machine

/-! ### What stays -/

/-- A command of the fabric keeps memory, compute, search, the rings, the Depots and management flash when it changes registers, the
clock, the pins, the Stationmasters, jobs, ports, policers and the fabric alone. -/
theorem SameButShaping.of_fabric {s t : State}
    (h : t = { s with regs := t.regs, clock := t.clock, pins := t.pins, stm := t.stm, jobs := t.jobs, fab := t.fab, ports := t.ports,
                      policers := t.policers }) : SameButShaping s t := by
  rw [h]
  exact ⟨⟨rfl, rfl, rfl, rfl, rfl, rfl, rfl⟩, ⟨rfl, rfl, rfl, rfl⟩, ⟨rfl, rfl, rfl, rfl, rfl⟩, ⟨rfl, rfl⟩, rfl, rfl⟩

/-! ### Flits that are received and sent -/

/-- The credits that a flit returns to a class. -/
def flitCredits (m : KMap Nat) (flit : Bytes) : KMap Nat :=
  if leAt flit 6 2 = 0 then m else mapSet m (leAt flit 5 1 % 16) (mapGetD m (leAt flit 5 1 % 16) 0 + leAt flit 6 2)

theorem flitCredits_returned {flit : Bytes} (h : 0 < leAt flit 6 2) (m : KMap Nat) :
    mapGetD (flitCredits m flit) (leAt flit 5 1 % 16) 0 = mapGetD m (leAt flit 5 1 % 16) 0 + leAt flit 6 2 := by
  simp [flitCredits, Nat.ne_of_gt h, mapGetD]

/-- The port that a DATA flit in order leaves. -/
def Port.accept (x : Port) (flit : Bytes) : Port :=
  { x with acked := leAt flit 3 2 % 4096, linkCredit := flitCredits x.linkCredit flit, rxSeq := (x.rxSeq + 1) % 4096,
           rxSlots := x.rxSlots ++ chunks 16 15 (bytesAt flit 8 240) }

theorem State.setPort_setPort (s : State) (p : Nat) (x y : Port) : (s.setPort p x).setPort p y = s.setPort p y := by
  simp only [State.setPort, mapSet_mapSet_same]

/-- A DATA flit in order is accepted. -/
theorem State.flitReceive_data {s : State} {p : Nat} {flit : Bytes} (hup : s.portUp p = true) (hlen : flit.length = 256)
    (hcrc : leAt flit 252 4 = (crc32c (bytesAt flit 0 252)).toNat) (htype : leAt flit 0 1 = 1)
    (hseq : leAt flit 1 2 % 4096 = ((s.port p).rxSeq + 1) % 4096) : s.flitReceive p flit = s.setPort p ((s.port p).accept flit) := by
  simp [State.flitReceive, hup, hlen, hcrc, htype, hseq, State.setPort_setPort, Port.accept, flitCredits]

/-- A flit whose CRC is wrong is counted and answered with a NAK. -/
theorem State.flitReceive_badCrc {s : State} {p : Nat} {flit : Bytes} (hup : s.portUp p = true)
    (hcrc : leAt flit 252 4 ≠ (crc32c (bytesAt flit 0 252)).toNat) :
    s.flitReceive p flit = (s.count JUG_LINKRETX_CRCERR 1 p).sendFlit p 3 [] := by
  simp [State.flitReceive, hup, hcrc]

/-- A flit that carries no data pays owed credits and joins the flits that leave; what its port has received stays. -/
theorem State.sendFlit_control (s : State) (p : Nat) {typ : Nat} (h : typ ≠ 1) (slots : Bytes) :
    ∃ x f, s.sendFlit p typ slots = { s.setPort p x with fab := { s.fab with flits := s.fab.flits ++ [(p, f)] } } ∧
      x.rxSeq = (s.port p).rxSeq ∧ x.rxSlots = (s.port p).rxSlots := by
  simp only [State.sendFlit, if_neg h]
  exact ⟨_, _, rfl, rfl, rfl⟩

/-- A NAK that names a flit of the port's numbering. -/
theorem State.nak_of_up {s : State} {p seq : Nat} (hup : s.portUp p = true) (hseq : seq < 4096) : s.nak p seq = s.replayAfter p seq := by
  simp [State.nak, hup, Nat.mod_eq_of_lt hseq]

/-! ### The statement -/

/-- Settles O25: each flit meets one branch of FLIT_RECEIVE, and a NAK adds the later flits of the replay buffer. -/
theorem flitsAreCheckedAndReplayed : Obligations.FlitsAreCheckedAndReplayed := by
  intro s
  refine ⟨?data, ?badCrc, ?nak⟩
  case data =>
    rintro port flit _ hup rfl hlen hcrc htype hseq
    refine completes_of_next (congrArg Host.Outcome.next (State.flitReceive_data hup hlen hcrc htype hseq)) ?_
    rw [State.port_setPort_same]
    exact ⟨rfl, fun hreturns => flitCredits_returned hreturns _, rfl⟩
  case badCrc =>
    intro port flit hup hlen hcrc
    obtain ⟨x, f, hsend, hseq, hslots⟩ := (s.count JUG_LINKRETX_CRCERR 1 port).sendFlit_control port (typ := 3) (by decide) []
    have hport := (s.count JUG_LINKRETX_CRCERR 1 port).port_setPort_same port x
    refine completes_of_next (congrArg Host.Outcome.next ((State.flitReceive_badCrc hup hcrc).trans hsend)) ?_
    refine ⟨(congrArg Port.rxSeq hport).trans hseq, (congrArg Port.rxSlots hport).trans hslots,
      s.fld_count JUG_LINKRETX_CRCERR 1 port 0 (by decide), ?_, ?_, ?_, SameButShaping.of_fabric rfl⟩
    all_goals simp
  case nak =>
    intro port seq hup hseq
    refine completes_of_next (congrArg Host.Outcome.next (State.nak_of_up hup hseq)) ?_
    exact ⟨rfl, s.fld_count JUG_LINKRETX_REPLAYS 1 port 0 (by decide), rfl, SameButShaping.of_fabric rfl⟩

end Sys2Proof.Machine
end

