-- ==== Sys2Proof/Proofs/StripeUnits.lean ====
section
/-! Reed-Solomon groups (R422 to R424): the units that a member holds after an encoding, and what a reconstruction stores or counts. -/

namespace Sys2Proof.Machine

/-! ### Units at their members -/

/-- A member's unit of a stripe. -/
def State.holds (s : State) (group stripe member : Nat) (b : Bytes) : Bool :=
  s.fab.shards.any fun (x : Shard) => x.group == group && x.stripe == stripe && x.member == member && x.bytes == b

theorem State.holds_storeShard_same (s : State) (group stripe member : Nat) (b : Bytes) :
    (s.storeShard group stripe member b).holds group stripe member b = true := by
  simp [State.holds, State.storeShard]

/-- A unit stored at another member leaves those of this one. -/
theorem State.holds_storeShard_other {s : State} {group stripe member : Nat} {b : Bytes} (h : s.holds group stripe member b = true)
    {other : Nat} (hother : member ≠ other) (c : Bytes) : (s.storeShard group stripe other c).holds group stripe member b = true := by
  simp only [State.holds, List.any_eq_true, Bool.and_eq_true, beq_iff_eq] at h ⊢
  obtain ⟨x, hx, ⟨⟨hg, hs⟩, hm⟩, hb⟩ := h
  refine ⟨x, List.mem_append_left _ (List.mem_filter.mpr ⟨hx, ?_⟩), ⟨⟨hg, hs⟩, hm⟩, hb⟩
  simp [hm, hother]

/-- Different roles of a stripe lie at different members. -/
theorem rsMember_inj {g stripe a b : Nat} (ha : a < g) (hb : b < g) (h : rsMember g stripe a = rsMember g stripe b) : a = b := by
  have hle : ∀ x y, x < g → (x + stripe) % g = (y + stripe) % g → x ≤ y := by
    intro x y hx hmod
    have hdiff : (x + stripe - (y + stripe)) % g = 0 := Nat.sub_mod_eq_zero_of_mod_eq hmod
    rw [Nat.mod_eq_of_lt (by omega)] at hdiff
    omega
  exact Nat.le_antisymm (hle a b ha h) (hle b a hb h.symm)

/-! ### RS_ENCODE (R423) -/

/-- Units by role, each stored with its trailer at the member of its role. -/
def State.storeUnits (s : State) (group stripe gen g : Nat) (units : List (Nat × Bytes)) : State :=
  units.foldl (fun (s : State) u => s.storeShard group stripe (rsMember g stripe u.1) (rsStored group stripe gen u.1 u.2)) s

theorem State.storeUnits_eq (group stripe gen g : Nat) (units : List (Nat × Bytes)) (s : State) :
    s.storeUnits group stripe gen g units =
      { s with fab := { s.fab with shards := (s.storeUnits group stripe gen g units).fab.shards } } := by
  induction units generalizing s with
  | nil => rfl
  | cons u units ih => exact ih (s.storeShard ..)

/-- A unit that is held stays while units of other roles are stored. -/
theorem State.holds_storeUnits {group stripe gen g role : Nat} {b : Bytes} (hrole : role < g) (units : List (Nat × Bytes))
    (hroles : ∀ u ∈ units, u.1 < g ∧ u.1 ≠ role) {s : State} (h : s.holds group stripe (rsMember g stripe role) b = true) :
    (s.storeUnits group stripe gen g units).holds group stripe (rsMember g stripe role) b = true := by
  induction units generalizing s with
  | nil => exact h
  | cons u units ih =>
    obtain ⟨hlt, hne⟩ := hroles u List.mem_cons_self
    exact ih (fun v hv => hroles v (List.mem_cons_of_mem _ hv))
      (State.holds_storeShard_other h (fun e => hne (rsMember_inj hrole hlt e).symm) _)

/-- Units of different roles are all held once they are stored. -/
theorem State.holds_storeUnits_of_mem {group stripe gen g : Nat} (units : List (Nat × Bytes)) (hroles : ∀ u ∈ units, u.1 < g)
    (hnodup : (units.map Prod.fst).Nodup) (s : State) {u : Nat × Bytes} (hu : u ∈ units) :
    (s.storeUnits group stripe gen g units).holds group stripe (rsMember g stripe u.1) (rsStored group stripe gen u.1 u.2) = true := by
  induction units generalizing s with
  | nil => exact absurd hu List.not_mem_nil
  | cons v units ih =>
    rw [List.map_cons, List.nodup_cons] at hnodup
    obtain ⟨hv, hnodup⟩ := hnodup
    obtain ⟨hvlt, htail⟩ := List.forall_mem_cons.mp hroles
    rcases List.mem_cons.mp hu with rfl | hmem
    · exact State.holds_storeUnits hvlt units
        (fun w hw => ⟨htail w hw, fun e => hv (e ▸ List.mem_map_of_mem hw)⟩) (s.holds_storeShard_same ..)
    · exact ih htail hnodup _ hmem

/-- The data units of a stripe by role, and its two parity units. -/
def rsUnits (data : List Bytes) : List (Nat × Bytes) :=
  let units := (List.range data.length).map fun j => (j, bytesAt (data.getD j []) 0 rsUnit)
  units ++ [(data.length, rsP units), (data.length + 1, rsQ units)]

theorem rsUnits_roles (data : List Bytes) : (rsUnits data).map Prod.fst = List.range (data.length + 2) := by
  simp [rsUnits, Function.comp_def, List.range_succ]

theorem mem_rsUnits {data : List Bytes} {role : Nat} (h : role < data.length) :
    (role, bytesAt (data.getD role []) 0 rsUnit) ∈ rsUnits data :=
  List.mem_append_left _ (List.mem_map.mpr ⟨role, List.mem_range.mpr h, rfl⟩)

theorem rsUnits_role_lt {data : List Bytes} {u : Nat × Bytes} (h : u ∈ rsUnits data) : u.1 < data.length + 2 := by
  rw [← List.mem_range, ← rsUnits_roles]
  exact List.mem_map_of_mem h

/-- An encoding whose holders all acknowledge. -/
theorem State.rsEncode_of_acked {s : State} {jd : Nat} {data : List Bytes} {acked : List Bool} (hengine : s.rsEngine jd = true)
    (hmin : 6 ≤ data.length) (hmax : data.length ≤ 62) (hacked : ∀ m < data.length + 2, acked.getD m false = true)
    (group stripe gen : Nat) : s.rsEncode jd group stripe gen data acked =
      (s.storeUnits group stripe gen (data.length + 2) (rsUnits data)).count JUG_RSDONE_ENCODED := by
  have hok : ∀ role, acked.getD (rsMember (data.length + 2) stripe role) false = true :=
    fun role => hacked _ (Nat.mod_lt _ (Nat.succ_pos _))
  have hguard : (!s.rsEngine jd || decide (data.length + 2 < 8) || decide (64 < data.length + 2)) = false := by
    simp only [hengine, Bool.not_true, Bool.false_or, Bool.or_eq_false_iff, decide_eq_false_iff_not]
    omega
  simp only [State.rsEncode, hguard, hok, Bool.false_eq_true, if_false, if_true, List.all_eq_true, implies_true]
  rfl

/-! ### RS_RECONSTRUCT (R424) -/

/-- The units that the members of a group return for a stripe, by role. -/
def rsRead (stripe : Nat) (units : List (Option Bytes)) : List (Nat × Bytes) :=
  (List.range units.length).filterMap fun m => (units.getD m none).map fun b => ((m + units.length - stripe % units.length) % units.length, b)

/-- Those of them whose CRC holds. -/
def rsGoodUnits (stripe : Nat) (units : List (Option Bytes)) : List (Nat × Bytes) := (rsRead stripe units).filter fun u => rsGood u.2

/-- The highest generation of which enough units are good. -/
def rsBestGen (stripe : Nat) (units : List (Option Bytes)) : Option Nat :=
  (rsGens (rsGoodUnits stripe units)).find? fun n => decide (units.length - 2 ≤ (rsGoodUnits stripe units).countP fun u => rsGen u.2 == n)

/-- The unit of a role out of the good units of a generation. -/
def rsRebuilt (stripe : Nat) (units : List (Option Bytes)) (n role : Nat) : Option Bytes :=
  rsRole (units.length - 2) (fun r => ((rsGoodUnits stripe units).find? fun u => u.1 == r && rsGen u.2 == n).map fun u => u.2.take rsUnit) role

/-- The state with the bad units among those returned counted. -/
def State.countBadUnits (s : State) (stripe : Nat) (units : List (Option Bytes)) : State :=
  s.count JUG_RSFAIL_BADUNIT ((rsRead stripe units).length - (rsGoodUnits stripe units).length)

section
variable {s : State} {jd stripe role : Nat} {units : List (Option Bytes)} (hengine : s.rsEngine jd = true) (hmin : 8 ≤ units.length)
  (hmax : units.length ≤ 64) (hrole : role < units.length) (group : Nat)
include hengine hmin hmax hrole

/-- The checks of the command pass. -/
theorem rsReconstruct_guard :
    (!s.rsEngine jd || decide (units.length < 8) || decide (64 < units.length) || decide (units.length ≤ role)) = false := by
  simp only [hengine, Bool.not_true, Bool.false_or, Bool.or_eq_false_iff, decide_eq_false_iff_not]
  omega

/-- With enough good units of a generation, the unit of the role is stored and counted. -/
theorem State.rsReconstruct_of_rebuilt {n : Nat} {b : Bytes} (hgen : rsBestGen stripe units = some n)
    (hunit : rsRebuilt stripe units n role = some b) : s.rsReconstruct jd group stripe units role =
      ((s.countBadUnits stripe units).storeShard group stripe (rsMember units.length stripe role) (rsStored group stripe n role b)).count
        JUG_RSDONE_REBUILT := by
  unfold rsBestGen rsGoodUnits rsRead at hgen
  unfold rsRebuilt rsGoodUnits rsRead at hunit
  simp only [State.rsReconstruct, rsReconstruct_guard hengine hmin hmax hrole, Bool.false_eq_true, if_false, hgen, hunit]
  rfl

/-- Without any generation of which enough units are good, nothing is stored: DECODE_SHORT is logged and counted. -/
theorem State.rsReconstruct_of_short (hgen : rsBestGen stripe units = none) : s.rsReconstruct jd group stripe units role =
      ((s.countBadUnits stripe units).faultRecord (unitId 12 jd) .check 1 group 0xFF stripe).count JUG_RSFAIL_SHORT := by
  unfold rsBestGen rsGoodUnits rsRead at hgen
  simp only [State.rsReconstruct, rsReconstruct_guard hengine hmin hmax hrole, Bool.false_eq_true, if_false, hgen]
  rfl

end

/-- Where no member returns a unit there is no generation. -/
theorem rsBestGen_of_no_units {units : List (Option Bytes)} (h : (units.any fun u => u.isSome) = false) (stripe : Nat) :
    rsBestGen stripe units = none := by
  have hnone : ∀ m : Nat, units[m]?.getD none = none := by
    intro m
    rw [List.any_eq_false] at h
    cases hm : units[m]? with
    | none => rfl
    | some u => simpa using h u (List.mem_of_getElem? hm)
  have hread : rsRead stripe units = [] := by simp [rsRead, hnone]
  simp only [rsBestGen, rsGoodUnits, hread]
  rfl

/-! ### The statement -/

/-- Settles O30: what the members hold follows from each unit being stored at a member of its own, and the rest from the frames of the
counters and of a fault record. -/
theorem stripesAreEncodedRebuiltAndSpared : Obligations.StripesAreEncodedRebuiltAndSpared := by
  intro s
  refine ⟨?rebuilt, ?encoded, ?short, ?spare⟩
  case rebuilt =>
    rintro jd group stripe role n units _ b hengine hmin hmax hrole rfl hgen hunit
    refine completes_of_next (congrArg Host.Outcome.next (State.rsReconstruct_of_rebuilt hengine hmin hmax hrole group hgen hunit)) ?_
    refine ⟨State.holds_storeShard_same _ group stripe _ _, ?_, rfl, SameButShaping.of_fabric rfl⟩
    rw [State.fld_count _ _ _ _ _ (by decide)]
    exact congrArg (countUp JUG_RSDONE_REBUILT · 1) (s.fld_setFld_reg JUG_RSFAIL_BADUNIT JUG_RSDONE_REBUILT _ 0 0 0 0 (by decide))
  case encoded =>
    rintro jd group stripe gen data acked _ hengine rfl hmin hmax hacked
    have hall : ∀ m < data.length + 2, acked.getD m false = true := by simpa using hacked
    have hstep := State.rsEncode_of_acked hengine hmin hmax hall group stripe gen
    have hstored := State.storeUnits_eq group stripe gen (data.length + 2) (rsUnits data) s
    refine completes_of_next (congrArg Host.Outcome.next hstep) ⟨?_, ?_, ?_⟩
    · rw [State.fld_count _ _ _ _ _ (by decide), hstored]
      rfl
    · intro role hrole
      exact State.holds_storeUnits_of_mem _ (fun _ => rsUnits_role_lt) (rsUnits_roles data ▸ List.nodup_range) s (mem_rsUnits hrole)
    · rw [hstored]
      rfl
  case short =>
    intro jd group stripe role units hengine hmin hmax hrole hnone
    have hstep := State.rsReconstruct_of_short hengine hmin hmax hrole group (rsBestGen_of_no_units hnone stripe)
    have hrecord := (s.countBadUnits stripe units).faultRecord_eq (unitId 12 jd) .check 1 group 0xFF stripe 0
    have hlogged := (s.countBadUnits stripe units).faultRecord_unreported (unitId 12 jd) .check 1 group 0xFF stripe 0
    have hshort : (s.countBadUnits stripe units).fld JUG_RSFAIL_SHORT = s.fld JUG_RSFAIL_SHORT :=
      s.fld_setFld_field JUG_RSFAIL_BADUNIT JUG_RSFAIL_SHORT _ 0 0 rfl (by decide) (by decide)
    refine completes_of_next (congrArg Host.Outcome.next hstep) ⟨?_, ?_⟩
    · rw [State.fld_count _ _ _ _ _ (by decide), State.fld_of_unreported hlogged (by decide), hshort]
    · rw [hrecord]
      exact ⟨rfl, rfl, rfl, ⟨rfl, rfl, rfl, rfl, rfl, rfl, rfl⟩, ⟨rfl, rfl, rfl, rfl, rfl⟩, ⟨rfl, rfl⟩⟩
  case spare =>
    intro group members member hmin hmax hmember
    exact congrArg Host.Outcome.next (if_pos ⟨hmin, hmax, hmember⟩)

end Sys2Proof.Machine
end

