-- ==== Sys2Proof/Proofs/PortTraining.lean ====
section
/-! Ports and their training (R394, R484, R579, R589): what STATE and LANES of a port hold after each command, and what stays. -/

namespace Sys2Proof.Machine

/-! ### The register of a port -/

/-- Where STATE of a port stands. -/
def portOffset (p : Nat) : Nat := if p < 8 then regOffset .jugPort p 0 else regOffset .cmdCcl (p - 8) 0

theorem portOffset_ne {p q : Nat} (hp : p < 10) (hq : q < 10) (h : q ≠ p) : portOffset q ≠ portOffset p := by
  unfold portOffset
  split <;> split <;> simp only [regOffset, RegName.row] <;> omega

/-- The ports' registers stand apart from GLB_GRADE and GLB_BOOT. -/
theorem portOffset_gt (p : Nat) : 0x0020000 < portOffset p := by
  unfold portOffset
  split <;> simp only [regOffset, RegName.row] <;> omega

theorem State.setPortState_eq (s : State) (p st lanes : Nat) : s.setPortState p st lanes = { s with regs := (s.setPortState p st lanes).regs } := by
  unfold State.setPortState
  split <;> rfl

/-- Setting STATE reaches the port's own register alone. -/
theorem State.fld_setPortState_other (s : State) {p : Nat} {f : FieldRef} {i j : Nat} (h : regOffset f.reg i j ≠ portOffset p) (st lanes : Nat) :
    (s.setPortState p st lanes).fld f i j = s.fld f i j := by
  unfold State.setPortState portOffset at *
  split
  · rename_i hp
    rw [if_pos hp] at h
    exact ((s.setFld JUG_PORT_STATE st p).fld_setFld_reg JUG_PORT_LANES f lanes p 0 i j h).trans (s.fld_setFld_reg JUG_PORT_STATE f st p 0 i j h)
  · rename_i hp
    rw [if_neg hp] at h
    exact s.fld_setFld_reg CMD_CCL_STATE f st (p - 8) 0 i j h

theorem State.variant_setPortState (s : State) (p st lanes : Nat) : (s.setPortState p st lanes).variant = s.variant :=
  s.fld_setPortState_other (Nat.ne_of_lt (Nat.lt_trans (by decide) (portOffset_gt p))) st lanes

theorem State.phase_setPortState (s : State) (p st lanes : Nat) : (s.setPortState p st lanes).phase = s.phase :=
  s.fld_setPortState_other (Nat.ne_of_lt (Nat.lt_trans (by decide) (portOffset_gt p))) st lanes

theorem State.portState_setPortState_same (s : State) (p : Nat) {st : Nat} (hst : st < 4) (lanes : Nat) :
    (s.setPortState p st lanes).portState p = st := by
  unfold State.setPortState State.portState
  split
  · rw [State.fld_setFld_field _ JUG_PORT_LANES JUG_PORT_STATE _ _ _ rfl (by decide) (by decide), State.fld_setFld_same _ _ _ _ _ (by decide)]
    exact Nat.mod_eq_of_lt hst
  · rw [State.fld_setFld_same _ _ _ _ _ (by decide)]
    exact Nat.mod_eq_of_lt hst

theorem State.portState_setPortState_other (s : State) {p q : Nat} (hp : p < 10) (hq : q < 10) (h : q ≠ p) (st lanes : Nat) :
    (s.setPortState p st lanes).portState q = s.portState q := by
  have hne := portOffset_ne hp hq h
  unfold State.portState
  split <;> refine State.fld_setPortState_other s (fun e => hne ?_) st lanes <;> simp [portOffset, *]

theorem State.lanes_setPortState (s : State) {p lanes : Nat} (hp : p < 8) (hlanes : lanes < 16) (st : Nat) :
    (s.setPortState p st lanes).fld JUG_PORT_LANES p = lanes := by
  unfold State.setPortState
  rw [if_pos hp, State.fld_setFld_same _ _ _ _ _ (by decide)]
  exact Nat.mod_eq_of_lt hlanes

theorem State.portState_of_jugan {p : Nat} (hp : p < 8) (s : State) : s.portState p = s.fld JUG_PORT_STATE p := if_pos hp

/-! ### Ports that may train -/

theorem State.hasPort_congr {s t : State} (h : t.variant = s.variant) (p : Nat) : t.hasPort p = s.hasPort p := by
  unfold State.hasPort State.jugPorts
  rw [h]

/-- A port that the device has is one of ten. -/
theorem State.lt_of_hasPort {s : State} {p : Nat} (h : s.hasPort p = true) : p < 10 := by
  unfold State.hasPort at h
  split at h
  · omega
  · simpa using h

theorem State.mayTrain_congr {s t : State} (hvariant : t.variant = s.variant) (hphase : t.phase = s.phase) (hboot : t.boot = s.boot)
    (hpins : t.pins = s.pins) (p : Nat) : t.mayTrain p = s.mayTrain p := by
  simp only [State.mayTrain, State.hasPort_congr hvariant, hphase, State.isAligned, hboot, hpins]

theorem State.mayTrain_setPortState (s : State) (p st lanes q : Nat) : (s.setPortState p st lanes).mayTrain q = s.mayTrain q := by
  have heq := s.setPortState_eq p st lanes
  exact State.mayTrain_congr (s.variant_setPortState p st lanes) (s.phase_setPortState p st lanes) (by rw [heq]) (by rw [heq]) q

/-! ### Ports that go DOWN -/

/-- A port that goes DOWN gives its packets back: registers, ports and the fabric change. -/
theorem State.portDown_eq (s : State) (p : Nat) :
    s.portDown p = { s.setPortState p 0 0 with fab := (s.portDown p).fab, ports := (s.portDown p).ports } := by
  unfold State.portDown
  dsimp only
  split <;> rfl

theorem State.fld_portDown (s : State) (p : Nat) (f : FieldRef) (i j : Nat) : (s.portDown p).fld f i j = (s.setPortState p 0 0).fld f i j := by
  rw [s.portDown_eq]
  rfl

theorem State.portState_portDown (s : State) (p q : Nat) : (s.portDown p).portState q = (s.setPortState p 0 0).portState q := by
  simp only [State.portState, State.fld_portDown]

theorem State.variant_portDown (s : State) (p : Nat) : (s.portDown p).variant = s.variant :=
  (s.fld_portDown p GLB_GRADE_VARIANT 0 0).trans (s.variant_setPortState p 0 0)

theorem State.phase_portDown (s : State) (p : Nat) : (s.portDown p).phase = s.phase :=
  (s.fld_portDown p GLB_BOOT_PHASE 0 0).trans (s.phase_setPortState p 0 0)

/-! ### One training -/

/-- Lanes of a port that are not retired, as a mask. -/
def State.lanesLeft (s : State) (p : Nat) : Nat := maskOf ((List.range 4).filter fun l => !s.retired (laneUnit p l))

/-- What the four lanes of a mask of usable lanes allow. -/
theorem widestLanes_maskOf (usable : Nat → Bool) :
    widestLanes (maskOf ((List.range 4).filter usable)) < 16 ∧
      ((List.range 4).any usable = true → widestLanes (maskOf ((List.range 4).filter usable)) ≠ 0) := by
  have hrange : List.range 4 = [0, 1, 2, 3] := by decide
  rw [hrange]
  simp only [List.filter, List.any]
  cases usable 0 <;> cases usable 1 <;> cases usable 2 <;> cases usable 3 <;> decide

theorem State.lanesLeft_of_all {s : State} {p : Nat} (h : ((List.range 4).all fun l => !s.retired (laneUnit p l)) = true) :
    s.lanesLeft p = 15 := by
  rw [State.lanesLeft, List.filter_eq_self.mpr (List.all_eq_true.mp h)]
  decide

/-- A lane that trains well has no failures left. -/
theorem State.laneTrained_ok (s : State) (u : Nat) : s.laneTrained u true = { s with stm := (s.laneTrained u true).stm } := by
  unfold State.laneTrained
  split <;> rfl

/-- The four lanes of a port that train well. -/
def State.lanesTrained (s : State) (p : Nat) : State :=
  (List.range 4).foldl (fun (s : State) l => s.laneTrained (laneUnit p l) ((15 : BitVec 4).getLsbD l)) s

theorem State.lanesTrained_eq (s : State) (p : Nat) : s.lanesTrained p = { s with stm := (s.lanesTrained p).stm } := by
  have hfold : ∀ (l : List Nat) (s : State), l.foldl (fun (s : State) k => s.laneTrained (laneUnit p k) true) s =
      { s with stm := (l.foldl (fun (s : State) k => s.laneTrained (laneUnit p k) true) s).stm } := by
    intro l
    induction l with
    | nil => exact fun _ => rfl
    | cons k l ih =>
      intro s
      rw [List.foldl_cons, ih, s.laneTrained_ok]
  exact hfold (List.range 4) s

/-- The lanes that such a training finds usable are those that are not retired. -/
theorem State.usable_lanesTrained (s : State) (p : Nat) :
    maskOf ((List.range 4).filter fun l => (15 : BitVec 4).getLsbD l && !(s.lanesTrained p).retired (laneUnit p l)) = s.lanesLeft p := by
  rw [s.lanesTrained_eq]
  rfl

/-- A training of a Jugan port whose lanes all answer brings it UP at the widest lanes that are left. -/
theorem State.trainPort_jugan {s : State} {p : Nat} (hp : p < 8) (hleft : ((List.range 4).any fun l => !s.retired (laneUnit p l)) = true) :
    ∃ x, s.trainPort p true 15 = ((s.lanesTrained p).setPortState p 2 (widestLanes (s.lanesLeft p))).setPort p x := by
  have husable := s.usable_lanesTrained p
  have hwidth : widestLanes (s.lanesLeft p) ≠ 0 := (widestLanes_maskOf _).2 hleft
  unfold State.lanesTrained at *
  simp only [State.trainPort, Bool.not_true, Bool.false_eq_true, if_false, husable, if_pos hp, if_neg hwidth]
  exact ⟨_, rfl⟩

/-- A training of a CCL port whose four lanes answer and are not retired brings it UP. -/
theorem State.trainPort_ccl {s : State} {p : Nat} (hp : 8 ≤ p) (hleft : s.lanesLeft p = 15) :
    s.trainPort p true 15 = (s.lanesTrained p).setPortState p 2 15 := by
  have husable := s.usable_lanesTrained p
  unfold State.lanesTrained at *
  simp only [State.trainPort, Bool.not_true, Bool.false_eq_true, if_false, husable, hleft, if_neg (Nat.not_lt.mpr hp), if_true]
  rfl

/-- What a Jugan port holds once its training has ended well, and what stays. -/
theorem State.trainPort_effect {s : State} {p : Nat} (hp : p < 8)
    (hleft : ((List.range 4).any fun l => !s.retired (laneUnit p l)) = true) :
    (s.trainPort p true 15).fld JUG_PORT_STATE p = 2 ∧ (s.trainPort p true 15).fld JUG_PORT_LANES p = widestLanes (s.lanesLeft p) ∧
      (s.trainPort p true 15).fab = s.fab ∧ SameButShaping s (s.trainPort p true 15) := by
  obtain ⟨x, htrain⟩ := State.trainPort_jugan hp hleft
  have hup := (s.lanesTrained p).portState_setPortState_same p (st := 2) (by decide) (widestLanes (s.lanesLeft p))
  rw [State.portState_of_jugan hp] at hup
  rw [htrain]
  refine ⟨hup, (s.lanesTrained p).lanes_setPortState hp (widestLanes_maskOf _).1 2, ?_⟩
  rw [State.setPortState_eq, s.lanesTrained_eq]
  exact ⟨rfl, SameButShaping.of_fabric rfl⟩

/-- The same for a port none of whose lanes is retired: it is UP with all four. -/
theorem State.trainPort_whole {s : State} {p : Nat} (hp : p < 8) (hall : ((List.range 4).all fun l => !s.retired (laneUnit p l)) = true) :
    (s.trainPort p true 15).fld JUG_PORT_STATE p = 2 ∧ (s.trainPort p true 15).fld JUG_PORT_LANES p = 15 ∧
      (s.trainPort p true 15).fab = s.fab ∧ SameButShaping s (s.trainPort p true 15) := by
  have hany : ((List.range 4).any fun l => !s.retired (laneUnit p l)) = true :=
    List.any_eq_true.mpr ⟨0, by decide, List.all_eq_true.mp hall 0 (by decide)⟩
  have heffect := State.trainPort_effect hp hany
  rwa [State.lanesLeft_of_all hall] at heffect

/-! ### Ports that meet a test one after another -/

/-- What each step of a fold over ports brings about at its port, and keeps at the others, holds of all of them in the end. -/
theorem foldl_establishes {f : State → Nat → State} {P : State → Nat → Prop} (l : List Nat) (hset : ∀ s, ∀ p ∈ l, P (f s p) p)
    (hkeep : ∀ s, ∀ p ∈ l, ∀ q ∈ l, P s q → P (f s p) q) (s : State) : ∀ q ∈ l, P (l.foldl f s) q := by
  have hinv : ∀ m ⊆ l, ∀ s, (∀ q ∈ l, q ∉ m → P s q) → ∀ q ∈ l, P (m.foldl f s) q := by
    intro m
    induction m with
    | nil => exact fun _ s h q hq => h q hq List.not_mem_nil
    | cons p m ih =>
      intro hsub s h
      have hp : p ∈ l := hsub List.mem_cons_self
      refine ih (fun q hq => hsub (List.mem_cons_of_mem _ hq)) (f s p) fun q hq hnot => ?_
      by_cases hqp : q = p
      · exact hqp ▸ hset s p hp
      · exact hkeep s p hp q hq (h q hq (by simp [hqp, hnot]))
  exact hinv l (fun _ h => h) s fun q hq hnot => absurd hq hnot

theorem diePorts_lt {j p : Nat} (h : p ∈ diePorts j) : p < 10 := by
  unfold diePorts at h
  split at h
  · split at h <;> simp at h <;> omega
  · exact absurd h List.not_mem_nil

/-! ### REFCLK156_LOSS and REFCLK156_RETURN (R589) -/

/-- The state with the reference of a Junction die running or stopped. -/
def State.setRefclk156 (s : State) (j : Nat) (runs : Bool) : State := { s with pins := { s.pins with refclk156 := s.pins.refclk156.set j runs } }

/-- A port goes DOWN if the device has it. -/
def State.dropPort (s : State) (p : Nat) : State := if s.hasPort p && decide (s.portState p ≠ 0) then s.portDown p else s

/-- The device has no such port, or it is DOWN. -/
def State.isDown (s : State) (p : Nat) : Prop := (!s.hasPort p || s.portState p == 0) = true

theorem State.dropPort_isDown (s : State) (p : Nat) : (s.dropPort p).isDown p := by
  unfold State.dropPort State.isDown
  split
  · simp [State.portState_portDown, State.portState_setPortState_same]
  · rename_i h
    cases hhas : s.hasPort p with
    | false => rfl
    | true => simpa [hhas] using h

theorem State.dropPort_keeps_isDown {s : State} {p q : Nat} (hp : p < 10) (hq : q < 10) (h : s.isDown q) : (s.dropPort p).isDown q := by
  by_cases hqp : q = p
  · exact hqp ▸ s.dropPort_isDown q
  · unfold State.dropPort State.isDown at *
    split
    · rwa [State.hasPort_congr (s.variant_portDown p), State.portState_portDown, State.portState_setPortState_other s hp hq hqp]
    · exact h

theorem State.dropPort_eq (s : State) (p : Nat) : ∃ rs fb ps, s.dropPort p = { s with regs := rs, fab := fb, ports := ps } := by
  unfold State.dropPort
  split
  · rw [s.portDown_eq, s.setPortState_eq]
    exact ⟨_, _, _, rfl⟩
  · exact ⟨_, _, _, rfl⟩

theorem State.foldl_dropPort_eq (l : List Nat) (s : State) :
    ∃ rs fb ps, l.foldl State.dropPort s = { s with regs := rs, fab := fb, ports := ps } := by
  induction l generalizing s with
  | nil => exact ⟨_, _, _, rfl⟩
  | cons p l ih =>
    obtain ⟨rs, fb, ps, hdrop⟩ := s.dropPort_eq p
    obtain ⟨rs', fb', ps', hrest⟩ := ih (s.dropPort p)
    exact ⟨rs', fb', ps', hrest.trans (by rw [hdrop])⟩

/-- A port begins to train if it may and is DOWN. -/
def State.wakePort (s : State) (p : Nat) : State := if s.mayTrain p && s.portState p == 0 then s.setPortState p 1 0 else s

/-- The port may not train, or it is not DOWN. -/
def State.isAwake (s : State) (p : Nat) : Prop := (!s.mayTrain p || s.portState p != 0) = true

theorem State.wakePort_isAwake (s : State) (p : Nat) : (s.wakePort p).isAwake p := by
  unfold State.wakePort State.isAwake
  split
  · simp [State.portState_setPortState_same]
  · rename_i h
    cases hmay : s.mayTrain p with
    | false => rfl
    | true => simpa [hmay] using h

theorem State.wakePort_keeps_isAwake {s : State} {p q : Nat} (hp : p < 10) (hq : q < 10) (h : s.isAwake q) : (s.wakePort p).isAwake q := by
  by_cases hqp : q = p
  · exact hqp ▸ s.wakePort_isAwake q
  · unfold State.wakePort State.isAwake at *
    split
    · rwa [s.mayTrain_setPortState, State.portState_setPortState_other s hp hq hqp]
    · exact h

theorem State.foldl_wakePort_eq (l : List Nat) (s : State) : ∃ rs, l.foldl State.wakePort s = { s with regs := rs } := by
  induction l generalizing s with
  | nil => exact ⟨_, rfl⟩
  | cons p l ih =>
    have hwake : ∃ rs, s.wakePort p = { s with regs := rs } := by
      unfold State.wakePort
      split
      · exact ⟨_, s.setPortState_eq p 1 0⟩
      · exact ⟨_, rfl⟩
    obtain ⟨rs, hrs⟩ := hwake
    obtain ⟨rs', hrest⟩ := ih (s.wakePort p)
    exact ⟨rs', hrest.trans (by rw [hrs])⟩

/-- A state that differs in registers, the Stationmasters and the pins keeps the rest of the device. -/
theorem SameBulk.of_regs_stm_pins {s t : State} (h : t = { s with regs := t.regs, stm := t.stm, pins := t.pins }) : SameBulk s t := by
  rw [h]
  exact ⟨⟨rfl, rfl, rfl, rfl, rfl, rfl, rfl⟩, ⟨rfl, rfl, rfl, rfl⟩, ⟨rfl, rfl, rfl, rfl, rfl⟩, ⟨rfl, rfl, rfl, rfl, rfl⟩, ⟨rfl, rfl⟩,
    rfl, rfl⟩

/-! ### PIGTAIL_FITTED and LANE_RETIRE_RETRAIN (R579, R394) -/

/-- The state with the pigtail of a CCL receptacle fitted. -/
def State.fitted (s : State) (k : Nat) : State := { s with pins := { s.pins with pigtail := s.pins.pigtail.set k true } }

/-- A CCL port that was only without its pigtail may train once it is fitted. -/
theorem State.mayTrain_fitted {s : State} {k : Nat} (hhas : s.hasPort (8 + k) = true) (htrain : phTrain ≤ s.phase) (hready : s.phase ≤ phReady)
    (haligned : s.isAligned (portCrossing (8 + k)) = true) (hclock : s.pins.refclk156.getD k false = true) (hlt : k < s.pins.pigtail.length) :
    (s.fitted k).mayTrain (8 + k) = true := by
  have hdie : portDie (8 + k) = k := by
    unfold portDie
    split <;> omega
  have hindex : 8 + k - 8 = k := by omega
  have hpigtail : (s.pins.pigtail.set k true).getD k false = true := by simp [hlt]
  have hrest : (s.fitted k).mayTrain (8 + k) = (s.hasPort (8 + k) && decide (phTrain ≤ s.phase) && decide (s.phase ≤ phReady) &&
      s.isAligned (portCrossing (8 + k)) && s.pins.refclk156.getD (portDie (8 + k)) false &&
      (decide (8 + k < 8) || (s.pins.pigtail.set k true).getD (8 + k - 8) false)) := rfl
  rw [hrest, hhas, haligned, hdie, hclock, hindex, hpigtail]
  simp [htrain, hready]

theorem State.pigtailFitted_of_aligned {s : State} {k : Nat} (hunfitted : s.pins.pigtail[k]? = some false)
    (hmay : (s.fitted k).mayTrain (8 + k) = true) (hleft : s.lanesLeft (8 + k) = 15) :
    s.pigtailFitted k true 15 = ((s.fitted k).lanesTrained (8 + k)).setPortState (8 + k) 2 15 := by
  have hopen : s.pins.pigtail.getD k true = false := by rw [List.getD_eq_getElem?_getD, hunfitted]; rfl
  have htrain := State.trainPort_ccl (s := s.fitted k) (p := 8 + k) (by omega) hleft
  rw [← htrain]
  unfold State.fitted at *
  simp only [State.pigtailFitted, hopen, Bool.false_eq_true, if_false, hmay, if_true]

/-- A port that stops before it retrains, with the reset counted. -/
def State.stopped (s : State) (p : Nat) : State := (s.portDown p).count GLB_PRESET_PORT

theorem State.mayTrain_stopped (s : State) (p q : Nat) : (s.stopped p).mayTrain q = s.mayTrain q := by
  have hother : ∀ f : FieldRef, regOffset f.reg 0 0 ≠ regOffset .glbPreset 0 0 → (s.stopped p).fld f = (s.portDown p).fld f :=
    fun f h => (s.portDown p).fld_setFld_reg GLB_PRESET_PORT f _ 0 0 0 0 h
  refine State.mayTrain_congr ((hother GLB_GRADE_VARIANT (by decide)).trans (s.variant_portDown p))
    ((hother GLB_BOOT_PHASE (by decide)).trans (s.phase_portDown p)) ?_ ?_ q
  all_goals
    rw [State.stopped, s.portDown_eq, s.setPortState_eq]
    rfl

theorem State.hasPort_of_mayTrain {s : State} {p : Nat} (h : s.mayTrain p = true) : s.hasPort p = true := by
  simp only [State.mayTrain, Bool.and_eq_true] at h
  obtain ⟨⟨⟨⟨⟨hhas, -⟩, -⟩, -⟩, -⟩, -⟩ := h
  exact hhas

/-- A Jugan port that may train does so after it has stopped. -/
theorem State.retrain_of_mayTrain {s : State} {p : Nat} (hp : p < 8) (hmay : s.mayTrain p = true) :
    ∃ x, s.retrain p true 15 = ((s.stopped p).setPort p x).trainPort p true 15 := by
  have hagain : ∀ x, ((s.stopped p).setPort p x).mayTrain p = true := fun x => (s.mayTrain_stopped p p).trans hmay
  unfold State.stopped at *
  simp only [State.retrain, if_pos hp, hagain, if_true]
  exact ⟨_, rfl⟩

theorem SameButShaping.trans {s t u : State} (h : SameButShaping s t) (k : SameButShaping t u) : SameButShaping s u := by
  simp_all [SameButShaping, SameMemory, SameCompute, SameSearch, SameRings]

/-! ### The statement -/

/-- Settles O6: a training ends with the widest lanes left, and each command is a training, a port that goes DOWN, or several of them. -/
theorem portsTrainAndGoDown : Obligations.PortsTrainAndGoDown := by
  intro s
  refine ⟨?silent, ?training, ?repeated, ?linkLoss, ?loss, ?clockReturn, ?pigtail, ?retire⟩
  case silent =>
    intro port lanesOk hmay hdown
    refine congrArg Host.Outcome.next (?_ : s.portTraining port false lanesOk = _)
    simp [State.portTraining, State.trainPort, hmay, hdown]
  case training =>
    intro port hp hmay hdown hall
    have hstep : s.portTraining port true 15 = s.trainPort port true 15 := by simp [State.portTraining, hmay, hdown]
    obtain ⟨hup, hlanes, hfab, hmem, hcompute, hsearch, hrings, hdepots, hnv⟩ := State.trainPort_whole hp hall
    exact completes_of_next (congrArg Host.Outcome.next hstep) ⟨hup, hlanes, hnv, hmem, hcompute, hsearch, hrings, hdepots, hfab⟩
  case repeated =>
    intro port hp hmay htraining hall
    have hstep : s.portTrainingRepeat port true 15 = s.trainPort port true 15 := by simp [State.portTrainingRepeat, hmay, htraining]
    obtain ⟨hup, hlanes, hfab, hmem, hcompute, hsearch, hrings, hdepots, hnv⟩ := State.trainPort_whole hp hall
    exact completes_of_next (congrArg Host.Outcome.next hstep) ⟨hup, hlanes, hnv, hmem, hcompute, hsearch, hrings, hdepots, hfab⟩
  case linkLoss =>
    intro port hhas hup
    have hstep : s.portLinkLoss port = s.portDown port := by simp [State.portLinkLoss, hhas, hup]
    have hdown : (s.portDown port).portState port = 0 :=
      (s.portState_portDown port port).trans (s.portState_setPortState_same port (by decide) 0)
    refine completes_of_next (congrArg Host.Outcome.next hstep) ⟨hdown, ?_⟩
    rw [s.portDown_eq, s.setPortState_eq]
    exact ⟨rfl, rfl, ⟨rfl, rfl, rfl, rfl, rfl, rfl, rfl⟩, ⟨rfl, rfl, rfl, rfl⟩, ⟨rfl, rfl, rfl, rfl, rfl⟩, ⟨rfl, rfl⟩, rfl, rfl⟩
  case loss =>
    intro jd _
    have hdown := foldl_establishes (diePorts jd) (fun v p _ => v.dropPort_isDown p)
      (fun v p hp q hq h => State.dropPort_keeps_isDown (diePorts_lt hp) (diePorts_lt hq) h) (s.setRefclk156 jd false)
    obtain ⟨rs, fb, ps, heq⟩ := State.foldl_dropPort_eq (diePorts jd) (s.setRefclk156 jd false)
    refine completes_of_next (t := (diePorts jd).foldl State.dropPort (s.setRefclk156 jd false)) rfl ⟨?_, List.all_eq_true.mpr hdown, ?_⟩
    · rw [heq]
      rfl
    · rw [heq]
      exact ⟨rfl, rfl, ⟨rfl, rfl, rfl, rfl, rfl, rfl, rfl⟩, ⟨rfl, rfl, rfl, rfl⟩, ⟨rfl, rfl, rfl, rfl, rfl⟩, ⟨rfl, rfl⟩, rfl⟩
  case clockReturn =>
    intro jd _
    have hawake := foldl_establishes (diePorts jd) (fun v p _ => v.wakePort_isAwake p)
      (fun v p hp q hq h => State.wakePort_keeps_isAwake (diePorts_lt hp) (diePorts_lt hq) h) (s.setRefclk156 jd true)
    obtain ⟨rs, heq⟩ := State.foldl_wakePort_eq (diePorts jd) (s.setRefclk156 jd true)
    refine completes_of_next (t := (diePorts jd).foldl State.wakePort (s.setRefclk156 jd true)) rfl ⟨?_, List.all_eq_true.mpr hawake, ?_⟩
    · rw [heq]
      rfl
    · rw [heq]
      exact ⟨rfl, rfl, SameBulk.of_regs_stm_pins rfl⟩
  case pigtail =>
    intro port hport hunfitted hhas htrain hready haligned hclock hall
    obtain ⟨hlt, -⟩ := List.getElem?_eq_some_iff.mp hunfitted
    have hstep := State.pigtailFitted_of_aligned hunfitted (State.mayTrain_fitted hhas htrain hready haligned hclock hlt)
      (State.lanesLeft_of_all hall)
    have hup := (((s.fitted port).lanesTrained (8 + port)).portState_setPortState_same (8 + port) (st := 2) (by decide) 15)
    have hindex : 8 + port - 8 = port := by omega
    rw [State.portState, if_neg (by omega), hindex] at hup
    refine completes_of_next (congrArg Host.Outcome.next hstep) ⟨hup, ?_⟩
    rw [State.setPortState_eq, State.lanesTrained_eq]
    exact ⟨by simp [State.fitted, hlt], rfl, SameBulk.of_regs_stm_pins rfl⟩
  case retire =>
    intro port hp hmay hup hinuse hany
    have hhas : s.hasPort port = true := State.hasPort_of_mayTrain hmay
    obtain ⟨x, hretrain⟩ := State.retrain_of_mayTrain hp hmay
    have hstep : s.laneRetireRetrain port 15 = ((s.stopped port).setPort port x).trainPort port true 15 := by
      rw [State.laneRetireRetrain, if_pos hp, hhas, hup, hinuse]
      exact hretrain
    have hkeep : SameButShaping s ((s.stopped port).setPort port x) := by
      rw [State.stopped, s.portDown_eq, s.setPortState_eq]
      exact SameButShaping.of_fabric rfl
    have hretired : ∀ u, ((s.stopped port).setPort port x).retired u = s.retired u := by
      obtain ⟨-, -, -, -, -, hnv⟩ := hkeep
      exact fun u => by rw [State.retired, hnv, State.retired]
    have hleftAny : ((List.range 4).any fun l => !((s.stopped port).setPort port x).retired (laneUnit port l)) = true := by
      simpa only [hretired] using hany
    obtain ⟨hstate, hlanes, -, hsame⟩ := State.trainPort_effect hp hleftAny
    obtain ⟨hmem, hcompute, hsearch, hrings, hdepots, hnv⟩ := hkeep.trans hsame
    simp only [State.lanesLeft, hretired] at hlanes
    exact completes_of_next (congrArg Host.Outcome.next hstep) ⟨hstate, hlanes, hnv, hmem, hcompute, hsearch, hrings, hdepots⟩

end Sys2Proof.Machine
end

