-- ==== Sys2Proof/Proofs/InboundRequests.lean ====
section
/-! Inbound requests (R405 to R415): what an admitted request meets, what serving it changes, and the reply that leaves. -/

namespace Sys2Proof.Machine

/-! ### Registers below the Depots' blocks

A store counts in the blocks of the Depots and of the memory tiers alone, so the node id and the epoch of a reply stay. -/

/-- The registers below the Depots' blocks hold the same values. -/
def SameLowRegs (s t : State) : Prop := ∀ off < 0x0080000, mapGet t.regs off = mapGet s.regs off

theorem SameLowRegs.trans {s t u : State} (h : SameLowRegs s t) (k : SameLowRegs t u) : SameLowRegs s u :=
  fun off hoff => (k off hoff).trans (h off hoff)

theorem SameLowRegs.of_regs {s t : State} (h : t.regs = s.regs) : SameLowRegs s t := fun _ _ => by rw [h]

theorem SameLowRegs.fld {s t : State} (h : SameLowRegs s t) {f : FieldRef} {i j : Nat} (hf : regOffset f.reg i j < 0x0080000) :
    t.fld f i j = s.fld f i j := by
  simp only [State.fld, State.reg, mapGetD, h _ hf]

theorem State.count_sameLowRegs (s : State) {f : FieldRef} {i j : Nat} (h : 0x0080000 ≤ regOffset f.reg i j) (k : Nat) :
    SameLowRegs s (s.count f k i j) :=
  fun off hoff => mapGet_mapSet_other _ _ (by omega)

theorem State.flushNow_regs (s : State) (j l : Nat) : (s.flushNow j l).regs = s.regs := by
  obtain ⟨ds, hflush⟩ := s.flushNow_eq j l
  rw [hflush]

theorem State.depotWrite_sameLowRegs (s : State) (j ns unit : Nat) (block : Bytes) : SameLowRegs s (s.depotWrite j ns unit block) := by
  have hcount : SameLowRegs s (s.count DEP_WRWAIT_COUNT 1 j) := s.count_sameLowRegs (by simp [regOffset, RegName.row]; omega) 1
  fun_cases State.depotWrite
  case case5 => exact .of_regs (State.flushNow_regs _ _ _)
  case case6 =>
    rename_i waited
    unfold waited
    split
    · exact hcount
    · exact .of_regs rfl
  all_goals exact .of_regs rfl

theorem State.writeFlash_sameLowRegs (s : State) (id off n : Nat) : SameLowRegs s (s.writeFlash id off n) := by
  unfold State.writeFlash
  split
  · exact .of_regs rfl
  · dsimp only
    split
    · exact .of_regs rfl
    · refine List.foldlRecOn (motive := SameLowRegs s) _ _ (.of_regs rfl) fun t ht k _ => ?_
      split
      · exact ht.trans (t.depotWrite_sameLowRegs _ _ _ _)
      · exact ht

theorem State.allocStore_sameLowRegs (s : State) (id off : Nat) (bs : Bytes) : SameLowRegs s (s.allocStore id off bs) := by
  have hcount : SameLowRegs s (s.count MEM_MOVEWAIT_COUNT) := s.count_sameLowRegs (by decide) 1
  unfold State.allocStore
  split
  · exact .of_regs rfl
  · dsimp only
    refine SameLowRegs.trans ?_ (State.writeFlash_sameLowRegs _ id off bs.length)
    split
    · exact hcount
    · exact .of_regs rfl

/-! ### Allocations that are read and stored to -/

/-- Accesses that are counted leave the rest of the allocation. -/
theorem Alloc.touch_eq (a : Alloc) (off n : Nat) : a.touch off n = { a with hits := (a.touch off n).hits } := by
  unfold Alloc.touch
  split <;> rfl

@[simp] theorem Alloc.touch_size (a : Alloc) (off n : Nat) : (a.touch off n).size = a.size := by rw [a.touch_eq]
@[simp] theorem Alloc.touch_mem (a : Alloc) (off n : Nat) : (a.touch off n).mem = a.mem := by rw [a.touch_eq]
@[simp] theorem Alloc.touch_flags (a : Alloc) (off n : Nat) : (a.touch off n).flags = a.flags := by rw [a.touch_eq]

theorem State.alloc_allocStore_same {s : State} {id : Nat} {a : Alloc} (ha : s.alloc id = some a) (off : Nat) (bs : Bytes) :
    (s.allocStore id off bs).alloc id = some (({ a with mem := memWrite a.mem off bs } : Alloc).touch off bs.length) := by
  unfold State.alloc at *
  rw [State.allocStore_allocs, mapGet_mapUpdate_same, ha]
  rfl

theorem State.alloc_allocStore_other {s : State} {id i : Nat} (h : i ≠ id) (off : Nat) (bs : Bytes) :
    (s.allocStore id off bs).alloc i = s.alloc i := by
  unfold State.alloc
  rw [State.allocStore_allocs]
  unfold mapUpdate
  split
  · exact mapGet_mapSet_other _ _ h
  · rfl

/-- A store keeps every allocation's size. -/
theorem State.size_allocStore (s : State) (id off : Nat) (bs : Bytes) (i : Nat) :
    ((s.allocStore id off bs).alloc i).map Alloc.size = (s.alloc i).map Alloc.size := by
  by_cases hi : i = id
  · subst hi
    unfold State.alloc
    rw [State.allocStore_allocs, mapGet_mapUpdate_same]
    cases mapGet s.allocs i with
    | none => rfl
    | some a => simp
  · rw [State.alloc_allocStore_other hi]

theorem State.allocBytes_touchRead (s : State) (id off n : Nat) : (s.touchRead id off n).allocBytes id off n = s.allocBytes id off n := by
  unfold State.allocBytes State.touchRead State.alloc
  rw [mapGet_mapUpdate_same]
  cases mapGet s.allocs id with
  | none => rfl
  | some a => simp

theorem State.alloc_emit (s : State) (b : Bytes) (id : Nat) : (s.emit b).alloc id = s.alloc id := rfl

/-! ### Requests that are admitted -/

/-- A packet of operation `op` that is well formed, admitted by its policer, and of the device's epoch on a device that is not fenced. -/
structure State.Admits (s : State) (op port : Nat) (packet : Bytes) (dt : Nat) (p : Pkt) : Prop where
  port_lt : port < s.jugPorts
  op_eq : pktOp packet = op
  ok : pktOk packet = true
  policed : (((s.tick dt).takeSlots port packet).policed port (pktTc packet) (32 + leAt packet 26 2)).1 = true
  unfenced : s.fenced = false
  fields : p = Pkt.ofBytes packet
  epoch_eq : p.epoch = s.epoch
  epoch_pos : 0 < s.epoch

/-- The state in which an admitted request is served: its slots and its tokens are taken. -/
def State.admitted (s : State) (port : Nat) (packet : Bytes) (dt : Nat) : State :=
  (((s.tick dt).takeSlots port packet).policed port (pktTc packet) (32 + leAt packet 26 2)).2

theorem State.takeSlots_eq (s : State) (port : Nat) (b : Bytes) : s.takeSlots port b = { s with ports := (s.takeSlots port b).ports } := by
  unfold State.takeSlots
  dsimp only
  split <;> rfl

/-- A policer that admits changes its bucket alone. -/
theorem State.policed_eq {s : State} {p c size : Nat} (h : (s.policed p c size).1 = true) :
    (s.policed p c size).2 = { s with policers := (s.policed p c size).2.policers } := by
  have hpolice : ∀ key en rate burst, (s.police key en rate burst size).2 =
      { s with policers := (s.police key en rate burst size).2.policers } := by
    intro key en rate burst
    unfold State.police
    dsimp only
    split
    · rfl
    · split <;> rfl
  unfold State.policed at *
  dsimp only at *
  split
  · rfl
  · rename_i hc
    rw [if_neg hc] at h
    split
    · exact hpolice ..
    · rename_i hrefused
      rw [if_neg hrefused] at h
      exact absurd h Bool.false_ne_true

section
variable {s : State} {op port : Nat} {packet : Bytes} {dt : Nat} {p : Pkt}

theorem State.Admits.pkt_op (h : s.Admits op port packet dt p) : p.op = op := by
  rw [h.fields]
  exact h.op_eq

theorem State.Admits.admitted_eq (h : s.Admits op port packet dt p) :
    ∃ ps pol, s.admitted port packet dt = { s.tick dt with ports := ps, policers := pol } := by
  unfold State.admitted
  rw [State.policed_eq h.policed, State.takeSlots_eq]
  exact ⟨_, _, rfl⟩

theorem State.Admits.inbound_eq (h : s.Admits op port packet dt p) : s.inbound op port packet dt = (s.admitted port packet dt).serveRemote p := by
  have hpolicer : ((s.tick dt).takeSlots port packet).policed port (pktTc packet) (32 + leAt packet 26 2) = (true, s.admitted port packet dt) :=
    Prod.ext h.policed rfl
  have hport : ¬ ((s.tick dt).jugPorts ≤ port ∨ pktOp packet ≠ op) := by
    rintro (hle | hne)
    · exact Nat.not_lt.mpr hle h.port_lt
    · exact hne h.op_eq
  have hregs : (s.admitted port packet dt).regs = s.regs := by
    obtain ⟨ps, pol, hu⟩ := h.admitted_eq
    rw [hu]
    rfl
  have hfenced : (s.admitted port packet dt).fenced = false := by
    rw [State.fenced, State.fld_congr _ _ _ _ _ hregs]
    exact h.unfenced
  have hepoch : (s.admitted port packet dt).epoch = s.epoch := State.fld_congr _ _ _ _ _ hregs
  unfold State.inbound
  simp only [if_neg hport, h.ok, Bool.not_true, Bool.false_eq_true, if_false, hpolicer, if_true]
  simp [State.inboundEpoch, hfenced, hepoch, ← h.fields, h.epoch_eq, Nat.ne_of_gt h.epoch_pos]

/-! ### Replies -/

/-- What a reply takes from the device. -/
def State.replyHead (s : State) : Nat × Nat := (s.node, s.epoch)

theorem State.replyTo_congr {t : State} (h : t.replyHead = s.replyHead) (status : Nat) (data : Bytes) :
    t.replyTo p status data = s.replyTo p status data := by
  obtain ⟨hnode, hepoch⟩ := Prod.ext_iff.mp h
  change t.node = s.node at hnode
  change t.epoch = s.epoch at hepoch
  simp only [State.replyTo, hnode, hepoch]

theorem SameLowRegs.replyHead {t : State} (h : SameLowRegs s t) : t.replyHead = s.replyHead :=
  Prod.ext (h.fld (f := JUG_NODE_NODE) (by decide)) (h.fld (f := JUG_EPOCH_EPOCH) (by decide))

/-- A counter above the epoch's register leaves the replies as they are. -/
theorem State.replyHead_count (s : State) {f : FieldRef} (h : 0x0060008 < regOffset f.reg 0 0) : (s.count f).replyHead = s.replyHead :=
  Prod.ext (s.fld_setFld_reg f JUG_NODE_NODE _ 0 0 0 0 (Nat.ne_of_lt (Nat.lt_trans (by decide) h)))
    (s.fld_setFld_reg f JUG_EPOCH_EPOCH _ 0 0 0 0 (Nat.ne_of_lt h))

/-- The reply to an admitted request that is served at once. -/
theorem State.Admits.answer (h : s.Admits op port packet dt p) {t : State} {status : Nat} {data : Bytes}
    (hserve : (s.admitted port packet dt).serve p = (status, data, t)) (hack : status = stOK → t.ackWaits p = none)
    (hhead : t.replyHead = s.replyHead) : s.inbound op port packet dt = t.emit (s.replyTo p status data).bytes := by
  have hwait : (if status = stOK then t.ackWaits p else none) = none := by
    split
    · exact hack ‹_›
    · rfl
  rw [h.inbound_eq, State.serveRemote, hserve]
  dsimp only
  rw [hwait, State.replyTo_congr hhead]

theorem State.ackWaits_of_not_write (h : p.op ≠ opWRITE) (s : State) : s.ackWaits p = none := if_neg h

/-! ### Requests that are refused (R405) -/

theorem State.serve_refused (hop : p.op ≠ opMSG) (h : p.job = 0 ∨ p.job = 0xFFFF ∨ s.inboundPlace p = none) :
    s.serve p = (stNOACCESS, [], s.count JUG_NOACCESS_COUNT) := by
  unfold State.serve
  by_cases hjob : p.job = 0 ∨ p.job = 0xFFFF
  · rw [if_pos hjob]
  · have hplace : s.inboundPlace p = none := (or_assoc.mpr h).resolve_left hjob
    rw [if_neg hjob, if_neg hop, hplace]

/-- A request that no page of its job permits is counted and answered NO_ACCESS. -/
theorem State.Admits.refused (h : s.Admits op port packet dt p) (hop : op ≠ opMSG)
    (hno : p.job = 0 ∨ p.job = 0xFFFF ∨ s.inboundPlace p = none) :
    (s.inbound op port packet dt).fab.out = s.fab.out ++ [(s.replyTo p stNOACCESS []).bytes] ∧
      (s.inbound op port packet dt).fld JUG_NOACCESS_COUNT = countUp JUG_NOACCESS_COUNT (s.fld JUG_NOACCESS_COUNT) 1 ∧
      (s.inbound op port packet dt).jobs = s.jobs ∧ SameButShaping s (s.inbound op port packet dt) := by
  obtain ⟨ps, pol, hu⟩ := h.admitted_eq
  have hno' : p.job = 0 ∨ p.job = 0xFFFF ∨ (s.admitted port packet dt).inboundPlace p = none := by
    rw [hu]
    exact hno
  have hhead : ((s.admitted port packet dt).count JUG_NOACCESS_COUNT).replyHead = s.replyHead := by
    rw [State.replyHead_count _ (by decide), hu]
    rfl
  rw [h.answer (State.serve_refused (h.pkt_op ▸ hop) hno') (fun e => absurd e (by decide)) hhead, hu]
  exact ⟨rfl, State.fld_count _ _ _ _ _ (by decide), rfl, SameButShaping.of_fabric rfl⟩

/-! ### Requests that reach a page (R405 to R412) -/

theorem State.serve_of_place {id off : Nat} (hop : p.op ≠ opMSG) (hzero : p.job ≠ 0) (hall : p.job ≠ 0xFFFF)
    (hplace : s.inboundPlace p = some (id, off)) : s.serve p =
      if p.op = opREAD then s.serveRead p id off else if p.op = opWRITE then s.serveWrite p id off else s.serveAtomic p id off := by
  unfold State.serve
  rw [if_neg (not_or.mpr ⟨hzero, hall⟩), if_neg hop, hplace]

/-- An admitted request that reaches a page is served there as it would be at its arrival. -/
theorem State.Admits.place (h : s.Admits op port packet dt p) {id off : Nat} (hplace : s.inboundPlace p = some (id, off)) :
    (s.admitted port packet dt).inboundPlace p = some (id, off) := by
  obtain ⟨ps, pol, hu⟩ := h.admitted_eq
  rw [hu]
  exact hplace

/-- A READ changes no more than the access counts of its pages. -/
theorem State.Admits.read_eq (h : s.Admits opREAD port packet dt p) (hzero : p.job ≠ 0) (hall : p.job ≠ 0xFFFF) {id off : Nat}
    (hplace : s.inboundPlace p = some (id, off)) (hstatus : s.readStatus id off p.len = none) :
    s.inbound opREAD port packet dt =
      ((s.admitted port packet dt).touchRead id off p.len).emit (s.replyTo p stOK (s.allocBytes id off p.len)).bytes := by
  have hop := h.pkt_op
  obtain ⟨ps, pol, hu⟩ := h.admitted_eq
  have hserve : (s.admitted port packet dt).serve p =
      (stOK, s.allocBytes id off p.len, (s.admitted port packet dt).touchRead id off p.len) := by
    have hstatus' : (s.admitted port packet dt).readStatus id off p.len = none := by rw [hu]; exact hstatus
    have hbytes : (s.admitted port packet dt).allocBytes id off p.len = s.allocBytes id off p.len := by rw [hu]; rfl
    rw [State.serve_of_place (by rw [hop]; decide) hzero hall (h.place hplace), if_pos hop, State.serveRead, hstatus', hbytes]
  exact h.answer hserve (fun _ => State.ackWaits_of_not_write (by rw [hop]; decide) _) (by rw [hu]; rfl)

/-- Checks 2 to 5 of R405 depend on the jobs, the slices and the sizes of allocations. -/
theorem State.inboundPlace_congr {t : State} (hjobs : t.jobs = s.jobs) (hnv : t.nv = s.nv)
    (hsize : ∀ i, (t.alloc i).map Alloc.size = (s.alloc i).map Alloc.size) : t.inboundPlace p = s.inboundPlace p := by
  have hfits : ∀ i n, (t.alloc i).elim false (fun a => decide (n ≤ a.size)) = (s.alloc i).elim false (fun a => decide (n ≤ a.size)) := by
    intro i n
    have helim : ∀ x : Option Alloc, x.elim false (fun a => decide (n ≤ a.size)) = (x.map Alloc.size).elim false (fun k => decide (n ≤ k)) := by
      rintro (_ | _) <;> rfl
    rw [helim, helim, hsize]
  simp only [State.inboundPlace, State.sliceInService, hjobs, hnv, hfits]
  rfl

/-- A WRITE stores its payload at its place and is acknowledged. -/
theorem State.Admits.write_eq (h : s.Admits opWRITE port packet dt p) (hzero : p.job ≠ 0) (hall : p.job ≠ 0xFFFF) {id off : Nat} {a : Alloc}
    (hplace : s.inboundPlace p = some (id, off)) (hpoison : s.partPoison id off p.len = false) (ha : s.alloc id = some a)
    (hpersist : a.flags.persist = false) :
    s.inbound opWRITE port packet dt = ((s.admitted port packet dt).allocStore id off p.payload).emit (s.replyTo p stOK []).bytes := by
  have hop := h.pkt_op
  obtain ⟨ps, pol, hu⟩ := h.admitted_eq
  have ha' : (s.admitted port packet dt).alloc id = some a := by rw [hu]; exact ha
  obtain ⟨rs, ms, qs, zs, ds, hstore⟩ := (s.admitted port packet dt).allocStore_eq id off p.payload
  have hserve : (s.admitted port packet dt).serve p = (stOK, [], (s.admitted port packet dt).allocStore id off p.payload) := by
    have hpoison' : (s.admitted port packet dt).partPoison id off p.len = false := by rw [hu]; exact hpoison
    rw [State.serve_of_place (by rw [hop]; decide) hzero hall (h.place hplace), if_neg (by rw [hop]; decide), if_pos hop, State.serveWrite,
      hpoison']
    rfl
  have hack : ((s.admitted port packet dt).allocStore id off p.payload).ackWaits p = none := by
    have hplace' : ((s.admitted port packet dt).allocStore id off p.payload).inboundPlace p = some (id, off) := by
      rw [← h.place hplace]
      exact State.inboundPlace_congr (by rw [hstore]) (by rw [hstore]) (State.size_allocStore _ _ _ _)
    simp [State.ackWaits, hop, hplace', State.alloc_allocStore_same ha', hpersist]
  exact h.answer hserve (fun _ => hack) ((SameLowRegs.replyHead (State.allocStore_sameLowRegs _ _ _ _)).trans (by rw [hu]; rfl))

/-! ### Atomic operations (R411, R412) -/

/-- The replay table of a source. -/
def State.replayOf (s : State) (src : Nat) : ReplayTable := mapGetD s.fab.replay src (ReplayTable.mk [] none)

/-- The state with a record added to the replay table of a source. -/
def State.recordAtomic (s : State) (src : Nat) (e : ReplayEntry) : State :=
  { s with fab := { s.fab with replay := mapSet s.fab.replay src { s.replayOf src with entries := (s.replayOf src).entries ++ [e] } } }

theorem State.entries_recordAtomic (s : State) (src : Nat) (e : ReplayEntry) :
    ((s.recordAtomic src e).replayOf src).entries = (s.replayOf src).entries ++ [e] := by
  simp [State.recordAtomic, State.replayOf, mapGetD]

theorem State.replyHead_recordAtomic (s : State) (src : Nat) (e : ReplayEntry) : (s.recordAtomic src e).replyHead = s.replyHead := rfl

theorem State.alloc_recordAtomic (s : State) (src : Nat) (e : ReplayEntry) (id : Nat) : (s.recordAtomic src e).alloc id = s.alloc id := rfl

/-- An ATOMIC that the table has not met and has room for is applied and recorded. -/
theorem State.serveAtomic_new {id off old v : Nat} (hnew : ((s.replayOf p.src).entries.any fun e => e.ctx == p.ctx && e.seqn == p.seqn) = false)
    (hroom : (s.replayOf p.src).entries.length < replaySize)
    (hlater : ((s.replayOf p.src).lowmark.elim true fun m => seqLater p.seqn m) = true) (hclean : (s.poisonIn id off p.size).isEmpty = true)
    (hold : old = leNat (s.allocBytes id off p.size))
    (hv : atomicNew (p.asize % 16) (p.asize / 16 % 8) old (leAt p.payload 0 p.size) (leAt p.payload 8 p.size) = some v) :
    s.serveAtomic p id off = (stOK, leBytes 8 old,
      (s.allocStore id off (leBytes p.size v)).recordAtomic p.src ⟨p.ctx, p.seqn, old, stOK, s.clock.mono⟩) := by
  have hfind : (s.replayOf p.src).entries.find? (fun e => e.ctx == p.ctx && e.seqn == p.seqn) = none := by
    simpa [List.find?_eq_none] using hnew
  obtain ⟨rs, ms, qs, zs, ds, hstore⟩ := s.allocStore_eq id off (leBytes p.size v)
  have hfab : (s.allocStore id off (leBytes p.size v)).fab = s.fab := by rw [hstore]
  have hclock : (s.allocStore id off (leBytes p.size v)).clock = s.clock := by rw [hstore]
  unfold State.recordAtomic State.replayOf at *
  simp only [State.serveAtomic, hfind, hlater, if_true, ReplayTable.room, hroom, State.applyAtomic, hclean, Bool.not_true, Bool.false_eq_true,
    if_false, ← hold, hv, hfab, hclock]

/-- One that the table has met gets the recorded answer. -/
theorem State.serveAtomic_replayed {id off : Nat} {e : ReplayEntry}
    (hmet : (s.replayOf p.src).entries.find? (fun e => e.ctx == p.ctx && e.seqn == p.seqn) = some e) :
    s.serveAtomic p id off = (e.status, leBytes 8 e.old, s.count JUG_ATOMIC_REPLAYED) := by
  unfold State.replayOf at hmet
  simp only [State.serveAtomic, hmet]

theorem State.Admits.serve_atomic (h : s.Admits opATOMIC port packet dt p) (hzero : p.job ≠ 0) (hall : p.job ≠ 0xFFFF) {id off : Nat}
    (hplace : s.inboundPlace p = some (id, off)) :
    (s.admitted port packet dt).serve p = (s.admitted port packet dt).serveAtomic p id off := by
  have hop := h.pkt_op
  rw [State.serve_of_place (by rw [hop]; decide) hzero hall (h.place hplace), if_neg (by rw [hop]; decide), if_neg (by rw [hop]; decide)]

theorem State.Admits.atomic_eq (h : s.Admits opATOMIC port packet dt p) (hzero : p.job ≠ 0) (hall : p.job ≠ 0xFFFF) {id off old v : Nat}
    (hplace : s.inboundPlace p = some (id, off))
    (hnew : ((s.replayOf p.src).entries.any fun e => e.ctx == p.ctx && e.seqn == p.seqn) = false)
    (hroom : (s.replayOf p.src).entries.length < replaySize)
    (hlater : ((s.replayOf p.src).lowmark.elim true fun m => seqLater p.seqn m) = true) (hclean : (s.poisonIn id off p.size).isEmpty = true)
    (hold : old = leNat (s.allocBytes id off p.size))
    (hv : atomicNew (p.asize % 16) (p.asize / 16 % 8) old (leAt p.payload 0 p.size) (leAt p.payload 8 p.size) = some v) :
    s.inbound opATOMIC port packet dt =
      (((s.admitted port packet dt).allocStore id off (leBytes p.size v)).recordAtomic p.src ⟨p.ctx, p.seqn, old, stOK, s.clock.mono + dt⟩).emit
        (s.replyTo p stOK (leBytes 8 old)).bytes := by
  have hserve := h.serve_atomic hzero hall hplace
  obtain ⟨ps, pol, hu⟩ := h.admitted_eq
  have hclock : (s.admitted port packet dt).clock.mono = s.clock.mono + dt := by rw [hu]; rfl
  rw [State.serveAtomic_new (by rw [hu]; exact hnew) (by rw [hu]; exact hroom) (by rw [hu]; exact hlater) (by rw [hu]; exact hclean)
    (by rw [hu]; exact hold) hv, hclock] at hserve
  have hhead : ((s.admitted port packet dt).allocStore id off (leBytes p.size v)).replyHead = s.replyHead :=
    (SameLowRegs.replyHead (State.allocStore_sameLowRegs _ _ _ _)).trans (by rw [hu]; rfl)
  exact h.answer hserve (fun _ => State.ackWaits_of_not_write (by rw [h.pkt_op]; decide) _) ((State.replyHead_recordAtomic ..).trans hhead)

theorem State.Admits.atomic_replayed_eq (h : s.Admits opATOMIC port packet dt p) (hzero : p.job ≠ 0) (hall : p.job ≠ 0xFFFF) {id off : Nat}
    {e : ReplayEntry} (hplace : s.inboundPlace p = some (id, off))
    (hmet : (s.replayOf p.src).entries.find? (fun e => e.ctx == p.ctx && e.seqn == p.seqn) = some e) :
    s.inbound opATOMIC port packet dt =
      ((s.admitted port packet dt).count JUG_ATOMIC_REPLAYED).emit (s.replyTo p e.status (leBytes 8 e.old)).bytes := by
  have hserve := h.serve_atomic hzero hall hplace
  obtain ⟨ps, pol, hu⟩ := h.admitted_eq
  rw [State.serveAtomic_replayed (by rw [hu]; exact hmet)] at hserve
  have hhead : ((s.admitted port packet dt).count JUG_ATOMIC_REPLAYED).replyHead = s.replyHead :=
    (State.replyHead_count _ (by decide)).trans (by rw [hu]; rfl)
  exact h.answer hserve (fun _ => State.ackWaits_of_not_write (by rw [h.pkt_op]; decide) _) hhead

/-! ### Messages (R406) -/

theorem State.serve_msg (hop : p.op = opMSG) (hzero : p.job ≠ 0) (hall : p.job ≠ 0xFFFF) {j : Job} {ms : List Bytes}
    (hjob : mapGet s.jobs p.job = some j) (hms : j.msgs = some ms) : s.serve p =
      if msgRingBytes < sumNat (ms.map List.length) + p.len then (stBUSY, [], s)
      else (stOK, [], { s with jobs := mapSet s.jobs p.job { j with msgs := some (ms ++ [p.payload]) } }) := by
  unfold State.serve State.serveMsg
  rw [if_neg (not_or.mpr ⟨hzero, hall⟩), if_pos hop, hjob]
  dsimp only
  rw [hms]

/-- A message is appended to its job's ring, or refused BUSY where the ring is full. -/
theorem State.Admits.msg_eq (h : s.Admits opMSG port packet dt p) (hzero : p.job ≠ 0) (hall : p.job ≠ 0xFFFF) {j : Job} {ms : List Bytes}
    (hjob : mapGet s.jobs p.job = some j) (hms : j.msgs = some ms) : s.inbound opMSG port packet dt =
      if msgRingBytes < sumNat (ms.map List.length) + p.len then (s.admitted port packet dt).emit (s.replyTo p stBUSY []).bytes
      else ({ s.admitted port packet dt with jobs := mapSet s.jobs p.job { j with msgs := some (ms ++ [p.payload]) } } : State).emit
        (s.replyTo p stOK []).bytes := by
  have hop := h.pkt_op
  obtain ⟨ps, pol, hu⟩ := h.admitted_eq
  have hjobs : (s.admitted port packet dt).jobs = s.jobs := by rw [hu]; rfl
  have hserve := State.serve_msg (s := s.admitted port packet dt) hop hzero hall (hjobs ▸ hjob) hms
  have hack : ∀ t : State, t.ackWaits p = none := State.ackWaits_of_not_write (by rw [hop]; decide)
  rw [hjobs] at hserve
  split at hserve
  · rename_i hfull
    rw [if_pos hfull, h.answer hserve (fun _ => hack _) (by rw [hu]; rfl)]
  · rename_i hroom
    rw [if_neg hroom, h.answer hserve (fun _ => hack _) (by rw [hu]; rfl)]

/-! ### Held requests (R415) -/

/-- The state in which a held request is no longer held. -/
def State.unheld (s : State) (hold dt : Nat) : State :=
  { s.tick dt with fab := { s.fab with holds := mapErase s.fab.holds hold } }

theorem State.holdExpiry_due {hold : Nat} {r : HeldReq} (hheld : mapGet s.fab.holds hold = some r) (hdue : r.time + 500000 ≤ s.clock.mono + dt) :
    s.holdExpiry hold dt =
      ((s.unheld hold dt).count JUG_STALE_IN).emit (s.replyTo (Pkt.ofBytes r.packet) stSTALEEPOCH []).bytes := by
  have hhead : (s.unheld hold dt).replyHead = s.replyHead := rfl
  have hexpiry : s.holdExpiry hold dt = (s.unheld hold dt).refuseStale (Pkt.ofBytes r.packet) := by
    unfold State.holdExpiry
    dsimp only
    rw [State.tick_fab, hheld]
    exact if_pos hdue
  rw [hexpiry, State.refuseStale, State.replyTo_congr hhead]

end

/-! ### The statement -/

/-- Settles O26: an admitted request is served in a state that differs from its arrival in slots and tokens alone, and the reply takes the
node and the epoch that service leaves. -/
theorem inboundRequestsAreCheckedServedAndAnswered : Obligations.InboundRequestsAreCheckedServedAndAnswered := by
  intro s
  refine ⟨?read, ?readRefused, ?write, ?writeRefused, ?atomic, ?atomicReplayed, ?msg, ?hold⟩
  case read =>
    intro port packet dt p id off hport hop hok hpoliced hfenced hp hepoch hpos hzero hall hplace hstatus
    have hadmits : s.Admits opREAD port packet dt p := ⟨hport, hop, hok, hpoliced, hfenced, hp, hepoch, hpos⟩
    obtain ⟨ps, pol, hu⟩ := hadmits.admitted_eq
    refine completes_of_next (congrArg Host.Outcome.next (hadmits.read_eq hzero hall hplace hstatus)) ?_
    rw [hu]
    refine ⟨rfl, State.allocBytes_touchRead _ id off p.len, rfl, rfl, rfl, rfl, rfl, ⟨rfl, rfl, rfl, rfl⟩, ⟨rfl, rfl, rfl, rfl, rfl⟩,
      ⟨rfl, rfl⟩, rfl⟩
  case readRefused =>
    intro port packet dt p hport hop hok hpoliced hfenced hp hepoch hpos hno
    have hadmits : s.Admits opREAD port packet dt p := ⟨hport, hop, hok, hpoliced, hfenced, hp, hepoch, hpos⟩
    exact ⟨_, rfl, hadmits.refused (by decide) hno⟩
  case write =>
    intro port packet dt p id off a hport hop hok hpoliced hfenced hp hepoch hpos hzero hall hplace hpoison ha hpersist
    have hadmits : s.Admits opWRITE port packet dt p := ⟨hport, hop, hok, hpoliced, hfenced, hp, hepoch, hpos⟩
    obtain ⟨ps, pol, hu⟩ := hadmits.admitted_eq
    have ha' : (s.admitted port packet dt).alloc id = some a := by rw [hu]; exact ha
    have halloc := State.alloc_allocStore_same ha' off p.payload
    obtain ⟨rs, ms, qs, zs, ds, hstore⟩ := (s.admitted port packet dt).allocStore_eq id off p.payload
    refine completes_of_next (congrArg Host.Outcome.next (hadmits.write_eq hzero hall hplace hpoison ha hpersist)) ⟨?_, ?_, ?_⟩
    · rw [hstore, hu]
      rfl
    · rw [State.alloc_emit, halloc]
      simp
    · rw [hstore, hu]
      exact ⟨rfl, rfl, ⟨rfl, rfl, rfl, rfl⟩, ⟨rfl, rfl, rfl, rfl, rfl⟩, ⟨rfl, rfl⟩, rfl⟩
  case writeRefused =>
    intro port packet dt p hport hop hok hpoliced hfenced hp hepoch hpos hno
    have hadmits : s.Admits opWRITE port packet dt p := ⟨hport, hop, hok, hpoliced, hfenced, hp, hepoch, hpos⟩
    exact ⟨_, rfl, hadmits.refused (by decide) hno⟩
  case atomic =>
    intro port packet dt p id off old v a hport hop hok hpoliced hfenced hp hepoch hpos hzero hall hplace hnew hroom hlater hclean ha hold hv
    have hadmits : s.Admits opATOMIC port packet dt p := ⟨hport, hop, hok, hpoliced, hfenced, hp, hepoch, hpos⟩
    obtain ⟨ps, pol, hu⟩ := hadmits.admitted_eq
    have ha' : (s.admitted port packet dt).alloc id = some a := by rw [hu]; exact ha
    have halloc := State.alloc_allocStore_same ha' off (leBytes p.size v)
    obtain ⟨rs, ms, qs, zs, ds, hstore⟩ := (s.admitted port packet dt).allocStore_eq id off (leBytes p.size v)
    have hstep := hadmits.atomic_eq hzero hall hplace hnew hroom hlater hclean hold hv
    refine completes_of_next (congrArg Host.Outcome.next hstep) ⟨?_, ?_, ?_, ?_⟩
    · rw [hstore, hu]
      rfl
    · rw [State.alloc_emit, State.alloc_recordAtomic, halloc]
      simp
    · refine (State.entries_recordAtomic _ p.src _).trans ?_
      rw [hstore, hu]
      rfl
    · rw [hstore, hu]
      exact ⟨rfl, ⟨rfl, rfl, rfl, rfl⟩, ⟨rfl, rfl, rfl, rfl, rfl⟩, ⟨rfl, rfl⟩, rfl⟩
  case atomicReplayed =>
    intro port packet dt p id off e hport hop hok hpoliced hfenced hp hepoch hpos hzero hall hplace hmet
    have hadmits : s.Admits opATOMIC port packet dt p := ⟨hport, hop, hok, hpoliced, hfenced, hp, hepoch, hpos⟩
    obtain ⟨ps, pol, hu⟩ := hadmits.admitted_eq
    refine completes_of_next (congrArg Host.Outcome.next (hadmits.atomic_replayed_eq hzero hall hplace hmet)) ?_
    rw [hu]
    exact ⟨rfl, rfl, State.fld_count _ _ _ _ _ (by decide), rfl, SameButShaping.of_fabric rfl⟩
  case msg =>
    intro port packet dt p j ms hport hop hok hpoliced hfenced hp hepoch hpos hzero hall hjob hms
    have hadmits : s.Admits opMSG port packet dt p := ⟨hport, hop, hok, hpoliced, hfenced, hp, hepoch, hpos⟩
    obtain ⟨ps, pol, hu⟩ := hadmits.admitted_eq
    refine completes_of_next (congrArg Host.Outcome.next (hadmits.msg_eq hzero hall hjob hms)) ?_
    rw [hu]
    split
    · rename_i hfull
      exact ⟨fun hroom => absurd hfull (Nat.not_lt.mpr hroom), fun _ => ⟨rfl, rfl⟩, SameButShaping.of_fabric rfl⟩
    · rename_i hroom
      exact ⟨fun _ => ⟨rfl, rfl⟩, fun hfull => absurd hfull hroom, SameButShaping.of_fabric rfl⟩
  case hold =>
    intro hold dt r hheld hdue
    exact completes_of_next (congrArg Host.Outcome.next (State.holdExpiry_due hheld hdue))
      ⟨rfl, (s.unheld hold dt).fld_count JUG_STALE_IN 1 0 0 (by decide), rfl, SameButShaping.of_fabric rfl⟩

end Sys2Proof.Machine
end

