-- ==== Sys2Proof/Proofs/StatusWords.lean ====
section
/-! The status word of a ring (R457, Table 15-5): what its eight words read, and what a write from outside leaves. -/

namespace Sys2Proof.Machine

/-! ### Fields that share a word -/

/-- Two fields side by side are one number, the first field in its low bytes. -/
theorem leBytes_append (m n v u : Nat) : leBytes m v ++ leBytes n u = leBytes (m + n) (v % 256 ^ m + 256 ^ m * u) := by
  induction m generalizing v with
  | zero => simp [leBytes, Nat.mod_one]
  | succ m ih =>
    have hnum : v % 256 ^ (m + 1) + 256 ^ (m + 1) * u = v % 256 + 256 * (v / 256 % 256 ^ m + 256 ^ m * u) := by
      rw [Nat.pow_succ', Nat.mod_mul, Nat.mul_add, Nat.mul_assoc, Nat.add_assoc]
    have hlow : BitVec.ofNat 8 (v % 256 + 256 * (v / 256 % 256 ^ m + 256 ^ m * u)) = BitVec.ofNat 8 v := by
      apply BitVec.eq_of_toNat_eq
      simp
    have hrest : (v % 256 + 256 * (v / 256 % 256 ^ m + 256 ^ m * u)) / 256 = v / 256 % 256 ^ m + 256 ^ m * u := by omega
    rw [leBytes, List.cons_append, ih, Nat.succ_add, leBytes, hnum, hlow, hrest]

/-- A field of `n` bytes holds a value as far as it fits. -/
theorem leBytes_mod (n v : Nat) : leBytes n (v % 256 ^ n) = leBytes n v := by
  simpa [leBytes] using (leBytes_append n 0 v 0).symm

/-- The word at place `i` of a byte string made of 64-bit words. -/
theorem leAt_flatMap_leBytes {ws : List Nat} {i : Nat} (h : i < ws.length) :
    leAt (ws.flatMap (leBytes 8)) (8 * i) 8 = ws[i] % 2 ^ 64 := by
  induction ws generalizing i with
  | nil => cases h
  | cons w ws ih =>
    cases i with
    | zero => exact leAt_leBytes_append_zero 8 w _
    | succ i =>
      rw [List.flatMap_cons, leAt_leBytes_append_skip (by omega), Nat.mul_succ, Nat.add_sub_cancel]
      exact ih (Nat.lt_of_succ_lt_succ h)

/-! ### Reads of the status word -/

/-- The eight words of Table 15-5. -/
def Ring.statusWords (x : Ring) : List Nat :=
  [x.consumed, x.completed, x.progress, x.pcount, x.pseq, x.time, x.status % 2 ^ 16 + x.flags % 2 ^ 16 * 2 ^ 16 + x.snap % 2 ^ 32 * 2 ^ 32, 0]

theorem State.statusBytes_eq_words (s : State) (r : Nat) : s.statusBytes r = (s.ring r).statusWords.flatMap (leBytes 8) := by
  have hshared : ∀ status flags snap : Nat, leBytes 2 status ++ (leBytes 2 flags ++ leBytes 4 snap) =
      leBytes 8 (status % 2 ^ 16 + flags % 2 ^ 16 * 2 ^ 16 + snap % 2 ^ 32 * 2 ^ 32) := by
    intro status flags snap
    rw [← leBytes_mod 4 snap, leBytes_append 2 4, leBytes_append 2 6]
    congr 1
    omega
  have hzero : List.replicate 8 0 = leBytes 8 0 := rfl
  simp only [State.statusBytes, Ring.statusWords, hzero, ← hshared, List.flatMap_cons, List.flatMap_nil, List.append_assoc, List.append_nil]

theorem inStatus_of_ring {r off : Nat} (hr : r < 64) (hlo : 0x0021000 + 64 * r ≤ off) (hhi : off < 0x0021040 + 64 * r) :
    inStatus off = true := by
  simp only [inStatus, Bool.and_eq_true, decide_eq_true_eq]
  omega

theorem State.readWord_status (s : State) {r i : Nat} (hr : r < 64) (hi : i < 8) :
    s.readWord (0x0021000 + 64 * r + 8 * i) = BitVec.ofNat 64 (s.ring r).statusWords[i] := by
  have hstatus : inStatus (0x0021000 + 64 * r + 8 * i) = true := inStatus_of_ring hr (by omega) (by omega)
  have hring : (0x0021000 + 64 * r + 8 * i - 0x0021000) / 64 = r := by omega
  have hplace : (0x0021000 + 64 * r + 8 * i) % 64 = 8 * i := by omega
  rw [State.readWord, if_neg (by omega), if_pos hstatus, hring, hplace, s.statusBytes_eq_words, leAt_flatMap_leBytes hi]
  exact BitVec.eq_of_toNat_eq (by simp)

/-- The flags as the device writes them at an update. -/
theorem State.flags_updateStatus (s : State) (r : Nat) :
    ((s.updateStatus r).ring r).flags = (if s.fenced then 1 else 0) + (if s.drained r then 2 else 0) + (if s.ringEn r then 4 else 0) :=
  congrArg Ring.flags (s.ring_setRing_same r _)

/-! ### Writes to it -/

/-- A write to a status word is discarded: without a trace, or counted when R14 does not allow its form. -/
theorem State.registerWrite_status (s : State) (src : Source) {off : Nat} (len : Nat) (data : Word) (h : inStatus off = true) :
    s.registerWrite src off len data = s ∨ s.registerWrite src off len data = s.badWrite off := by
  have hword : s.writeWord off data = s := by
    have hoff : ¬ 0x0100000 ≤ off := by
      simp only [inStatus, Bool.and_eq_true, decide_eq_true_eq] at h
      omega
    rw [State.writeWord, if_neg hoff, if_pos h]
  unfold State.registerWrite
  split
  · exact .inl rfl
  · split
    · exact .inr rfl
    · exact .inl hword

/-- Settles O56: the words are those of Table 15-5 in order, and a write to them changes at most the count of bad accesses. -/
theorem statusWordsAreReadOnlyAndLaidOutByTheTable : Obligations.StatusWordsAreReadOnlyAndLaidOutByTheTable := by
  refine ⟨fun s r hr => ?reads, State.flags_updateStatus, fun s src r off len data hr hlo hhi => ?writes⟩
  case reads =>
    have hword : ∀ (i : Nat) (hi : i < 8), s.readWord (0x0021000 + 64 * r + 8 * i) = BitVec.ofNat 64 (s.ring r).statusWords[i] :=
      fun i hi => s.readWord_status hr hi
    exact ⟨hword 0 (by decide), hword 1 (by decide), hword 2 (by decide), hword 3 (by decide), hword 4 (by decide), hword 5 (by decide),
      hword 6 (by decide), hword 7 (by decide)⟩
  case writes =>
    refine completes_of_next rfl ?_
    rcases s.registerWrite_status src len data (inStatus_of_ring hr hlo hhi) with hsame | hbad
    · rw [hsame]
      exact ⟨rfl, rfl⟩
    · rw [hbad]
      exact ⟨rfl, rfl⟩

end Sys2Proof.Machine
end

