-- ==== Sys2Proof/Proofs/CommandStarts.lean ====
section
/-! The start of a ring command (R454, checks 4 to 6 of R456): its tag and counter first, then its window or slice, then RESLEN. -/

namespace Sys2Proof.Machine

/-! ### The tag and the counter (R466, R467) -/

section
variable {s : State} {d ctr : Nat} {m t : Bytes} {cust : String}

/-- No key, and no other key than the tag's, lets a command pass. -/
theorem State.critical_badTag (h : ∀ k, s.nv.ock = some k → kmac256 k m 16 cust ≠ t) :
    s.critical d ctr m t cust = (some stBADTAG, s.count CMD_CRITERR_BADTAG) := by
  rcases s.critical_cases d ctr m t cust with ⟨-, e⟩ | ⟨k, hk, ht, -⟩
  · exact e
  · exact absurd ht (h k hk)

/-- With the right tag the counter decides. -/
theorem State.critical_of_tag {k : Bytes} (hk : s.nv.ock = some k) (ht : kmac256 k m 16 cust = t) :
    s.critical d ctr m t cust =
      if ctr ≤ s.lastCounter d then (some stBADCOUNTER, s.count CMD_CRITERR_BADCTR) else (none, s.spendCounter d ctr) := by
  simp [State.critical, hk, ht]

end

theorem Cmd.counter_lt (c : Cmd) : c.counter < 2 ^ 64 := by
  have h := leNat_lt (bytesAt c.entry 24 8)
  rwa [bytesAt_length] at h

/-- The counter that is spent lies at or below the mark recorded in management flash (R468). -/
theorem State.le_mark_spendCounter (s : State) {d ctr : Nat} (hd : d < s.nv.marks.length) (h : ctr < 2 ^ 64) :
    ctr ≤ (s.spendCounter d ctr).nv.marks.getD d 0 := by
  simp only [State.spendCounter, State.setFld_nv]
  split
  · rw [List.getD_eq_getElem?_getD, List.getElem?_set_self hd, Option.getD_some]
    omega
  · omega

@[simp] theorem State.criticalBusy_spendCounter (s : State) (d ctr : Nat) : (s.spendCounter d ctr).criticalBusy = s.criticalBusy := rfl

/-! ### Checks 5 and 6 -/

/-- What follows the tag and the counter: the window of a critical command, the slice of another, RESLEN, and the start. -/
def State.startChecked (s : State) (c : Cmd) : State :=
  let c := { c with accepted := opcodeCritical c.opcode }
  if opcodeCritical c.opcode && s.criticalBusy then s.refuse c stBUSY
  else if !opcodeCritical c.opcode && !s.sliceInService c.slice then s.refuse c stSLICEGONE
  else if c.reslen < 64 && c.ring != mgmtRing then (s.count MEM_BUFSHORT_COUNT).refuse c stBUFFERSHORT
  else s.setCmd { c with stage := .running, since := s.clock.mono }

section
variable {s : State} {c : Cmd}

theorem State.startChecked_busy (hcrit : opcodeCritical c.opcode = true) (hbusy : s.criticalBusy = true) :
    s.startChecked c = s.refuse { c with accepted := true } stBUSY := by
  have hwindow : (opcodeCritical c.opcode && s.criticalBusy) = true := by simp [hcrit, hbusy]
  exact (if_pos hwindow).trans (by rw [hcrit])

theorem State.startChecked_sliceGone (hcrit : opcodeCritical c.opcode = false) (hslice : s.sliceInService c.slice = false) :
    s.startChecked c = s.refuse { c with accepted := false } stSLICEGONE := by
  have hwindow : ¬ (opcodeCritical c.opcode && s.criticalBusy) = true := by simp [hcrit]
  have hgone : (!opcodeCritical c.opcode && !s.sliceInService c.slice) = true := by simp [hcrit, hslice]
  exact (if_neg hwindow).trans ((if_pos hgone).trans (by rw [hcrit]))

/-- Behind check 5 the size of the output block decides. -/
theorem State.startChecked_of_open {b : Bool} (hring : c.ring ≠ mgmtRing) (hcrit : opcodeCritical c.opcode = b)
    (hopen : (bif b then s.criticalBusy else !s.sliceInService c.slice) = false) :
    s.startChecked c =
      if c.reslen < 64 then (s.count MEM_BUFSHORT_COUNT).refuse { c with accepted := b } stBUFFERSHORT
      else s.setCmd { c with accepted := b, stage := .running, since := s.clock.mono } := by
  have hwindow : ¬ (opcodeCritical c.opcode && s.criticalBusy) = true := by cases b <;> simp_all
  have hgone : ¬ (!opcodeCritical c.opcode && !s.sliceInService c.slice) = true := by cases b <;> simp_all
  have hshort : (decide (c.reslen < 64) && c.ring != mgmtRing) = true ↔ c.reslen < 64 := by simp [hring]
  subst hcrit
  exact (if_neg hwindow).trans ((if_neg hgone).trans (ite_congr (propext hshort) (fun _ => rfl) fun _ => rfl))

end

/-! ### COMMAND_START -/

/-- Check 4: the tag and the counter of a critical command of a ring, nothing for another. -/
def State.startTag (s : State) (c : Cmd) : Option Nat × State :=
  if opcodeCritical c.opcode && c.ring != mgmtRing then
    s.critical 0 c.counter (s.ringTagMessage c) (bytesAt c.entry 240 16) "PN-880 ring"
  else (none, s)

section
variable {s u : State} {r seq : Nat} {c : Cmd}

theorem State.startTag_critical (hring : c.ring ≠ mgmtRing) (hcrit : opcodeCritical c.opcode = true) :
    s.startTag c = s.critical 0 c.counter (s.ringTagMessage c) (bytesAt c.entry 240 16) "PN-880 ring" := by
  simp [State.startTag, hring, hcrit]

theorem State.startTag_plain (hcrit : opcodeCritical c.opcode = false) : s.startTag c = (none, s) := by
  simp [State.startTag, hcrit]

theorem State.startCmd_refused {st : Nat} (h : s.startTag c = (some st, u)) : s.startCmd c = u.refuse c st := by
  unfold State.startTag at h
  simp only [State.startCmd, h]

theorem State.startCmd_passed (h : s.startTag c = (none, u)) : s.startCmd c = u.startChecked c := by
  unfold State.startTag at h
  simp only [State.startCmd, h]
  rfl

theorem exec_commandStart (hc : s.cmd r seq = some c) (hstage : c.stage = .consumed) (hmay : s.mayStart c = true) :
    exec (.commandStart r seq) s = .next (s.startCmd c) :=
  congrArg Host.Outcome.next (by simp [State.commandStart, hc, hstage, hmay])

/-- A critical command of a ring without a right tag ends BAD_TAG. -/
theorem State.startCmd_badTag (hring : c.ring ≠ mgmtRing) (hcrit : opcodeCritical c.opcode = true)
    (h : ∀ k, s.nv.ock = some k → kmac256 k (s.ringTagMessage c) 16 "PN-880 ring" ≠ bytesAt c.entry 240 16) :
    s.startCmd c = (s.count CMD_CRITERR_BADTAG).refuse c stBADTAG :=
  State.startCmd_refused ((State.startTag_critical hring hcrit).trans (State.critical_badTag h))

/-- With a right tag and a later counter it goes on to checks 5 and 6, the counter spent. -/
theorem State.startCmd_tagged {k : Bytes} (hring : c.ring ≠ mgmtRing) (hcrit : opcodeCritical c.opcode = true) (hk : s.nv.ock = some k)
    (ht : kmac256 k (s.ringTagMessage c) 16 "PN-880 ring" = bytesAt c.entry 240 16) (hctr : s.lastCounter 0 < c.counter) :
    s.startCmd c = (s.spendCounter 0 c.counter).startChecked c := by
  have htag : s.startTag c = (none, s.spendCounter 0 c.counter) := by
    rw [State.startTag_critical hring hcrit, State.critical_of_tag hk ht, if_neg (Nat.not_le.mpr hctr)]
  exact State.startCmd_passed htag

end

/-- Settles O57: check 4 decides first, and what passes it meets one branch of checks 5 and 6. -/
theorem commandsAreCheckedWhenTheyStart : Obligations.CommandsAreCheckedWhenTheyStart := by
  intro s
  refine ⟨?noKey, ?badTag, ?badCounter, ?runs, ?busy, ?short, ?sliceGone, ?plainShort⟩
  case noKey =>
    intro r seq c hc hring hstage hmay hcrit hk
    rw [exec_commandStart hc hstage hmay, State.startCmd_badTag hring hcrit (by simp [hk])]
  case badTag =>
    intro r seq c k hc hring hstage hmay hcrit hk ht
    rw [exec_commandStart hc hstage hmay, State.startCmd_badTag hring hcrit (by simp [hk, ht])]
  case badCounter =>
    intro r seq c k hc hring hstage hmay hcrit hk ht hctr
    have htag : s.startTag c = (some stBADCOUNTER, s.count CMD_CRITERR_BADCTR) := by
      rw [State.startTag_critical hring hcrit, State.critical_of_tag hk ht, if_pos hctr]
    rw [exec_commandStart hc hstage hmay, State.startCmd_refused htag]
  case runs =>
    intro r seq c k hc hring hstage hmay hcrit hk ht hctr hmarks hfree hres
    have hstart : s.startCmd c =
        (s.spendCounter 0 c.counter).setCmd { c with accepted := true, stage := .running, since := s.clock.mono } := by
      rw [State.startCmd_tagged hring hcrit hk ht hctr, State.startChecked_of_open hring hcrit (by simpa using hfree), if_neg (Nat.not_lt.mpr hres)]
      rfl
    refine completes_of_next ((exec_commandStart hc hstage hmay).trans (congrArg Host.Outcome.next hstart)) ⟨rfl, ?_, ?_⟩
    · exact s.lastCounter_spend 0 c.counter c.counter_lt
    · exact s.le_mark_spendCounter (hmarks ▸ by decide) c.counter_lt
  case busy =>
    intro r seq c k hc hring hstage hmay hcrit hk ht hctr hbusy
    rw [exec_commandStart hc hstage hmay, State.startCmd_tagged hring hcrit hk ht hctr, State.startChecked_busy hcrit (by simpa using hbusy)]
  case short =>
    intro r seq c k hc hring hstage hmay hcrit hk ht hctr hfree hres
    rw [exec_commandStart hc hstage hmay, State.startCmd_tagged hring hcrit hk ht hctr,
      State.startChecked_of_open hring hcrit (by simpa using hfree), if_pos hres]
  case sliceGone =>
    intro r seq c hc hring hstage hmay hcrit hslice
    rw [exec_commandStart hc hstage hmay, State.startCmd_passed (State.startTag_plain hcrit), State.startChecked_sliceGone hcrit hslice]
  case plainShort =>
    intro r seq c hc hring hstage hmay hcrit hslice hres
    rw [exec_commandStart hc hstage hmay, State.startCmd_passed (State.startTag_plain hcrit),
      State.startChecked_of_open hring hcrit (by simp [hslice]), if_pos hres]

end Sys2Proof.Machine
end

