-- ==== Sys2Proof/Proofs/RetirementRecord.lean ====
section
/-! The retirement record (R475, R504) through every step: a unit once retired stays retired. -/

namespace Sys2Proof.Machine

/-- Every unit of a record is in each record that goes on from it. -/
theorem keepsRetired_of_prefix {s t : State} (h : s.nv.retired <+: t.nv.retired) : KeepsRetired s t := by
  intro u hu
  obtain ⟨e, he, hunit⟩ := List.any_eq_true.mp hu
  exact List.any_eq_true.mpr ⟨e, h.subset he, hunit⟩

/-- Settles O51: every step keeps what lasts, and the record it finds is a prefix of the record it leaves. -/
theorem retirementRecordIsOnlyAppendedTo : Obligations.RetirementRecordIsOnlyAppendedTo := by
  intro s t hstep
  have hprefix : s.nv.retired <+: t.nv.retired := (step_keeps hstep).retired
  exact ⟨Exists.imp (fun _ => Eq.symm) hprefix, keepsRetired_of_prefix hprefix⟩

end Sys2Proof.Machine
end

