-- ==== Sys2Proof/Proofs/LoggedStates.lean ====
section
/-! Log entries and fault records that the rate limit does not drop (R515, R563, R565): they reach the Stationmaster, the retained log,
the telemetry of a slice and the messages, and nothing else. -/

namespace Sys2Proof.Machine

/-- A state that differs only beside the memories, the engines, the fabric, the rings and the Depots. -/
theorem SameBulk.of_control {s t : State}
    (h : t = { s with regs := t.regs, nv := t.nv, clock := t.clock, boot := t.boot, stm := t.stm, counts := t.counts, mgmtOut := t.mgmtOut,
                      freeCtr := t.freeCtr }) : SameBulk s t := by
  rw [h]
  exact ⟨⟨rfl, rfl, rfl, rfl, rfl, rfl, rfl⟩, ⟨rfl, rfl, rfl, rfl⟩, ⟨rfl, rfl, rfl, rfl, rfl⟩, ⟨rfl, rfl, rfl, rfl, rfl⟩, ⟨rfl, rfl⟩,
    rfl, rfl⟩

theorem SameBulk.trans {s t u : State} (h : SameBulk s t) (k : SameBulk t u) : SameBulk s u := by
  simp_all [SameBulk, SameMemory, SameCompute, SameSearch, SameFabric, SameRings]

/-- `t` is `s` but for what log entries and fault records change. -/
def State.SameButLog (s t : State) : Prop :=
  ∃ stm log counts out, t = { s with stm := stm, nv := { s.nv with log := log }, counts := counts, mgmtOut := out }

theorem State.SameButLog.refl (s : State) : s.SameButLog s := ⟨_, _, _, _, rfl⟩

theorem State.SameButLog.trans {s t u : State} (hst : s.SameButLog t) (htu : t.SameButLog u) : s.SameButLog u := by
  obtain ⟨_, _, _, _, rfl⟩ := hst
  obtain ⟨_, _, _, _, rfl⟩ := htu
  exact ⟨_, _, _, _, rfl⟩

theorem State.SameButLog.foldl {α : Type} {f : State → α → State} (hf : ∀ (s : State) a, s.SameButLog (f s a)) (l : List α) (s : State) :
    s.SameButLog (l.foldl f s) :=
  List.foldlRecOn (motive := s.SameButLog) l f (.refl s) fun t ht a _ => ht.trans (hf t a)

theorem State.sameButLog_logAppend (s : State) (typ : Nat) (body : Bytes) : s.SameButLog (s.logAppend typ body) := by
  rw [State.logAppend_eq]
  exact ⟨_, _, _, _, rfl⟩

theorem State.sameButLog_logBoot (s : State) : s.SameButLog s.logBoot := s.sameButLog_logAppend _ _

theorem State.sameButLog_logDepot (s : State) (event j l ns detail : Nat) : s.SameButLog (s.logDepot event j l ns detail) :=
  s.sameButLog_logAppend _ _

/-- Only records of class CORRECTED or TRANSIENT can be dropped. -/
theorem State.sameButLog_faultRecord (s : State) (unit : Nat) {cls : FaultClass} (hcls : (cls == .corrected || cls == .transient) = false)
    (source pattern slice addr count : Nat) : s.SameButLog (s.faultRecord unit cls source pattern slice addr count) := by
  rw [State.faultRecord, hcls, Bool.and_false, if_neg Bool.false_ne_true, State.fileRecord_eq]
  exact ⟨_, _, _, _, rfl⟩

/-- A clear that start-up completes is logged and not counted. -/
theorem State.sameButLog_clearRecord (s : State) (tstart unit fromSl toSl cause bytes addr : Nat) :
    s.SameButLog (s.clearRecord tstart unit fromSl toSl 2 cause bytes addr) := by
  unfold State.clearRecord
  exact s.sameButLog_logAppend _ _

theorem State.SameButLog.fld {s t : State} (h : s.SameButLog t) (f : FieldRef) (i j : Nat) : t.fld f i j = s.fld f i j := by
  obtain ⟨_, _, _, _, rfl⟩ := h
  rfl

theorem State.SameButLog.retired {s t : State} (h : s.SameButLog t) : t.nv.retired = s.nv.retired := by
  obtain ⟨_, _, _, _, rfl⟩ := h
  rfl

theorem State.SameButLog.sameBulk {s t : State} (h : s.SameButLog t) : SameBulk s t := by
  obtain ⟨_, _, _, _, rfl⟩ := h
  exact .of_control rfl

end Sys2Proof.Machine
end

