-- ==== Sys2Proof/Proofs/DeviceResets.lean ====
section
/-! Resets of the device (R472, R490, R491, R587, R588, R589): the volatile state is lost, and start-up runs to ALIGN over what is left. -/

namespace Sys2Proof.Machine

/-! ### What start-up finds and leaves -/

/-- The parts of the state that start-up leaves alone, once it has recorded KIND and counted its start. -/
structure BootKept where
  cause : Nat
  sealing : Nat
  pins : Pins
  runs : KMap Run
  frames : KMap Frame
  calls : KMap Call
  consists : KMap Consist
  cmds : KMap Cmd
  rings : KMap Ring
  ringMem : Mem
  indexes : KMap Index
  owns : KMap OwnRecord
  record : DeviceRecord
  retired : List RetireEntry
  slices : KMap SliceEntry
  ock : Option Bytes
  bootCount : Nat
  depots : List Depot
  stores : KMap Store
  allocs : KMap Alloc

def State.bootKept (s : State) : BootKept :=
  { cause := s.fld GLB_RESETCAUSE_KIND, sealing := s.fld SEC_SEAL_SEALED, pins := s.pins, runs := s.runs, frames := s.frames, calls := s.calls,
    consists := s.consists, cmds := s.cmds, rings := s.rings, ringMem := s.ringMem, indexes := s.indexes, owns := s.owns,
    record := s.nv.record, retired := s.nv.retired, slices := s.nv.slices, ock := s.nv.ock, bootCount := s.nv.bootCount, depots := s.depots,
    stores := s.stores, allocs := s.allocs }

@[simp] theorem State.setFld_bootKept (s : State) (f : FieldRef) (v i j : Nat) (hcause : regOffset .glbResetcause 0 0 ≠ regOffset f.reg i j)
    (hseal : regOffset .secSeal 0 0 ≠ regOffset f.reg i j) : (s.setFld f v i j).bootKept = s.bootKept := by
  simp only [State.bootKept, s.fld_setFld_reg f GLB_RESETCAUSE_KIND v i j 0 0 hcause, s.fld_setFld_reg f SEC_SEAL_SEALED v i j 0 0 hseal]
  rfl

/-- KIND is the one part that a write of its field changes. -/
theorem State.setKind_bootKept (s : State) {kind : Nat} (hkind : kind < 16) :
    (s.setFld GLB_RESETCAUSE_KIND kind).bootKept = { s.bootKept with cause := kind } := by
  have hcause := s.fld_setFld_same GLB_RESETCAUSE_KIND kind 0 0 (by decide)
  rw [Nat.mod_eq_of_lt (show kind < 2 ^ 4 from hkind)] at hcause
  simp only [State.bootKept, hcause, s.fld_setFld_reg GLB_RESETCAUSE_KIND SEC_SEAL_SEALED kind 0 0 0 0 (by decide)]
  rfl

@[simp] theorem State.setPhase_bootKept (s : State) (p : Nat) : (s.setPhase p).bootKept = s.bootKept :=
  s.setFld_bootKept GLB_BOOT_PHASE p 0 0 (by decide) (by decide)

theorem State.SameButLog.bootKept {s t : State} (h : s.SameButLog t) : t.bootKept = s.bootKept := by
  obtain ⟨_, _, _, _, rfl⟩ := h
  rfl

theorem State.restoreStationmaster_bootKept (s : State) : s.restoreStationmaster.bootKept = s.bootKept := by
  simp (disch := decide) only [State.restoreStationmaster, List.foldl, State.setFld_bootKept]
  rfl

theorem State.trialStart_bootKept (s : State) : s.trialStart.bootKept = s.bootKept := by
  unfold State.trialStart
  split
  · rfl
  · dsimp only
    split
    all_goals exact State.setFld_bootKept _ STM_TRIAL_STARTS _ 0 0 (by decide) (by decide)

theorem State.logLeftovers_bootKept (s : State) : s.logLeftovers.bootKept = s.bootKept := by
  have hkey : ∀ t : State, t.SameButLog (if t.nv.dkWrap then t else t.faultRecord (unitId 13 1) .permanent 8) := fun t => by
    split
    · exact .refl t
    · exact t.sameButLog_faultRecord _ rfl _ _ _ _ _
  unfold State.logLeftovers
  dsimp only
  refine Eq.trans (State.SameButLog.foldl (fun _ _ => State.sameButLog_clearRecord _ _ _ _ _ _ _ _) _ _).bootKept ?_
  refine Eq.trans (hkey _).bootKept ?_
  split
  · exact (s.sameButLog_logAppend _ _).bootKept
  · rfl

theorem State.loadRecord_bootKept (s : State) : s.loadRecord.bootKept = s.bootKept := by
  simp (disch := decide) only [State.loadRecord, State.setFld_bootKept]

theorem State.phase_setPhase (s : State) {p : Nat} (hp : p < 8) : (s.setPhase p).phase = p :=
  (s.fld_setFld_same GLB_BOOT_PHASE p 0 0 (by decide)).trans (Nat.mod_eq_of_lt hp)

/-- With the 100 MHz reference the rails rise and PHASE becomes ALIGN. -/
theorem State.raiseRails_effect {s : State} (hclock : s.pins.refclk100 = true) :
    s.raiseRails.phase = phAlign ∧ s.raiseRails.bootKept = s.bootKept := by
  have hrails : s.raiseRails = ({ (s.setFld PWR_RAIL_MV 720 0).setFld PWR_RAIL_MV 720 1 with
      clock := { s.clock with station := 0, running := true } } : State).logLeftovers.setPhase phAlign := if_pos hclock
  rw [hrails]
  refine ⟨State.phase_setPhase _ (by decide), ?_⟩
  rw [State.setPhase_bootKept, State.logLeftovers_bootKept]
  exact (State.setFld_bootKept _ PWR_RAIL_MV 720 1 0 (by decide) (by decide)).trans
    (s.setFld_bootKept PWR_RAIL_MV 720 0 0 (by decide) (by decide))

/-! ### Start-up from step 2 (Table 16-1) -/

/-- The start is counted. -/
def State.startCounted (s : State) : State := { s with nv := { s.nv with bootCount := (s.nv.bootCount + 1) % 2 ^ 32 } }

/-- Start-up has recorded its cause and reached PHASE BOOT. -/
def State.bootBegun (s : State) (kind : Nat) : State :=
  { ((s.startCounted.setFld GLB_RESETCAUSE_KIND kind).setPhase phBoot).setFld JUG_RCACHE_SIZE s.nv.rcache with
    fab := { s.fab with rcacheSize := s.nv.rcache } }

theorem State.bootBegun_bootKept (s : State) {kind : Nat} (hkind : kind < 16) :
    (s.bootBegun kind).bootKept = { s.bootKept with cause := kind, bootCount := (s.nv.bootCount + 1) % 2 ^ 32 } := by
  have hregs : (s.bootBegun kind).bootKept =
      (((s.startCounted.setFld GLB_RESETCAUSE_KIND kind).setPhase phBoot).setFld JUG_RCACHE_SIZE s.nv.rcache).bootKept := rfl
  rw [hregs, State.setFld_bootKept _ JUG_RCACHE_SIZE _ 0 0 (by decide) (by decide), State.setPhase_bootKept, State.setKind_bootKept _ hkind]
  rfl

/-- The image of a slot runs: GLB_BOOT and STM_STATE name it, and a trial counts the start. -/
def State.imageStarted (s : State) (slot : Nat) : State :=
  (((s.setFld GLB_BOOT_IMAGE slot).setFld STM_STATE_SLOT slot).setFld STM_STATE_VERSION (s.nv.image slot).version).trialStart

theorem State.imageStarted_bootKept (s : State) (slot : Nat) : (s.imageStarted slot).bootKept = s.bootKept := by
  unfold State.imageStarted
  rw [State.trialStart_bootKept]
  simp (disch := decide) only [State.setFld_bootKept]

/-- An accepted image and a good record lead to step 4. -/
theorem State.bootFrom2_of_bootable {s : State} {kind slot : Nat} (hslot : s.nv.bootSlot = some slot)
    (hrecord : (s.nv.record.sigOk && s.nv.record.reportable) = true) :
    s.bootFrom2 kind = (((s.bootBegun kind).restoreStationmaster).imageStarted slot).loadRecord.raiseRails := by
  have hfound : (s.bootBegun kind).restoreStationmaster.nv.bootSlot = some slot := hslot
  have hgood : ((((s.bootBegun kind).restoreStationmaster).imageStarted slot).nv.record.sigOk &&
      (((s.bootBegun kind).restoreStationmaster).imageStarted slot).nv.record.reportable) = true := by
    have hsame : (((s.bootBegun kind).restoreStationmaster).imageStarted slot).nv.record = s.nv.record :=
      congrArg BootKept.record ((s.bootBegun kind).restoreStationmaster.imageStarted_bootKept slot)
    rwa [hsame]
  unfold State.bootFrom2
  dsimp only
  split
  · next hnone => exact absurd (hnone.symm.trans hfound) nofun
  · next found hsome =>
    obtain rfl : found = slot := Option.some.inj (hsome.symm.trans hfound)
    exact if_pos hgood

/-- A start-up with a good boot image, a good record and the 100 MHz reference ends at ALIGN; it records KIND and counts its start. -/
theorem State.bootFrom2_effect {s : State} (hboot : Bootable s) (hclock : s.pins.refclk100 = true) {kind : Nat} (hkind : kind < 16) :
    (s.bootFrom2 kind).phase = phAlign ∧
      (s.bootFrom2 kind).bootKept = { s.bootKept with cause := kind, bootCount := (s.nv.bootCount + 1) % 2 ^ 32 } := by
  obtain ⟨himage, hsig, hreportable⟩ := hboot
  obtain ⟨slot, hslot⟩ := Option.isSome_iff_exists.mp himage
  have hkept : (((s.bootBegun kind).restoreStationmaster).imageStarted slot).loadRecord.bootKept =
      { s.bootKept with cause := kind, bootCount := (s.nv.bootCount + 1) % 2 ^ 32 } := by
    rw [State.loadRecord_bootKept, State.imageStarted_bootKept, State.restoreStationmaster_bootKept, s.bootBegun_bootKept hkind]
  have hpins : (((s.bootBegun kind).restoreStationmaster).imageStarted slot).loadRecord.pins = s.pins := congrArg BootKept.pins hkept
  obtain ⟨halign, hrails⟩ := State.raiseRails_effect (hpins ▸ hclock)
  rw [State.bootFrom2_of_bootable hslot (by rw [hsig, hreportable]; rfl)]
  exact ⟨halign, hrails.trans hkept⟩

/-! ### Resets -/

/-- What is left of the state when start-up runs from step 2: the rails have fallen or a reset has begun, the pins and the clock stand as
given, and the shutdown marker is set or not. -/
def State.lost (s : State) (pins : Pins) (clock : Clock) (marker : Bool) : State :=
  { s.lose with pins := pins, clock := clock, nv := { s.nv with marker := marker } }

theorem restarted_of_lost {s : State} {kind : Nat} (hboot : Bootable s) (hkind : kind < 16) {pins : Pins} (hpowered : pins.powered = true)
    (htripped : pins.tripped = false) (hclock : pins.refclk100 = true) (clock : Clock) (marker : Bool) :
    Restarted kind s ((s.lost pins clock marker).bootFrom2 kind) := by
  obtain ⟨halign, hkept⟩ := State.bootFrom2_effect (s := s.lost pins clock marker) hboot hclock hkind
  simp only [State.bootKept, BootKept.mk.injEq] at hkept
  obtain ⟨hcause, hseal, hpins, hruns, hframes, hcalls, hconsists, hcmds, hrings, hringMem, hindexes, howns, hrecord, hretired, hslices, hock,
    hcount, hdepots, hstores, hallocs⟩ := hkept
  have hunsealed : State.reset.fld SEC_SEAL_SEALED = 0 := by decide
  refine ⟨halign, hcause, hseal.trans hunsealed, hpins ▸ hpowered, hpins ▸ htripped, hruns, hframes, hcalls, hconsists, hcmds, hrings,
    hringMem, hindexes, howns, hrecord, hretired, hslices, hock, hcount, hdepots, hstores, ?_⟩
  intro e he
  rw [hallocs] at he
  obtain ⟨a, ha, rfl⟩ := List.mem_map.mp he
  exact (List.mem_filter.mp ha).2

/-- A device reset of a powered device with its 100 MHz reference. -/
theorem State.resetDevice_restarted {s : State} {kind : Nat} (hboot : Bootable s) (hkind : kind < 16) (hpowered : s.pins.powered = true)
    (hclock : s.pins.refclk100 = true) : Restarted kind s (s.resetDevice kind) :=
  restarted_of_lost hboot hkind (pins := { s.pins with tripped := false }) hpowered rfl hclock _ s.nv.marker

theorem State.deviceReset_untripped {s : State} (hpowered : s.pins.powered = true) (htripped : s.pins.tripped = false) (cause : ResetCause) :
    s.deviceReset cause = s.resetDevice (causeCode cause) := by
  simp [State.deviceReset, hpowered, htripped]

theorem causeCode_lt (cause : ResetCause) : causeCode cause < 16 := by cases cause <;> decide

theorem State.deviceReset_restarted {s : State} (hboot : Bootable s) (hpowered : s.pins.powered = true) (htripped : s.pins.tripped = false)
    (hclock : s.pins.refclk100 = true) (cause : ResetCause) : Restarted (causeCode cause) s (s.deviceReset cause) := by
  rw [State.deviceReset_untripped hpowered htripped]
  exact State.resetDevice_restarted hboot (causeCode_lt cause) hpowered hclock

/-- The 100 MHz reference is back, and the reset that waited for it may begin, under a cause that is drawn (R589). -/
def State.clockBack (s : State) : State :=
  { s with pins := { s.pins with refclk100 := true }, freeCtr := s.freeCtr + 1, boot := { s.boot with waitRefclk := false } }

/-- Settles O1: each cause ends in start-up from step 2 over what is left of the state. -/
theorem everyResetStartsTheDeviceAnew : Obligations.EveryResetStartsTheDeviceAnew := by
  intro s hboot
  refine ⟨?powerOn, ?reset, ?pin, ?watchdog, ?thermtrip, ?clockReturn⟩
  case powerOn =>
    intro hunpowered hclock
    have hkind : (if s.nv.marker then 5 else 1) < 16 := by split <;> decide
    have hstep : s.powerOnReset = (s.lost { s.pins with powered := true, tripped := false }
        { s.lose.clock with timeZero := s.lose.clock.mono } false).bootFrom2 (if s.nv.marker then 5 else 1) := by
      simp only [State.powerOnReset, hunpowered, Bool.false_and, Bool.false_eq_true, if_false]
      rfl
    exact completes_of_next (congrArg Host.Outcome.next hstep)
      (restarted_of_lost hboot hkind (pins := { s.pins with powered := true, tripped := false }) rfl rfl hclock _ _)
  case reset =>
    intro cause hpowered htripped hclock
    exact completes_of_next rfl (State.deviceReset_restarted hboot hpowered htripped hclock cause)
  case pin =>
    intro lowNs hpowered htripped hclock hlow
    have hstep : s.resetNAssert lowNs = s.deviceReset .resetN := by
      simp only [State.resetNAssert, if_neg (show ¬ lowNs < 4000 by omega), if_pos hlow]
    exact completes_of_next (congrArg Host.Outcome.next hstep) (State.deviceReset_restarted hboot hpowered htripped hclock .resetN)
  case watchdog =>
    intro hpowered htripped hclock hphase hfailed
    have hstep : s.watchdogReset = s.deviceReset .watchdog := by
      simp [State.watchdogReset, hpowered, htripped, hphase, hfailed]
    exact completes_of_next (congrArg Host.Outcome.next hstep) (State.deviceReset_restarted hboot hpowered htripped hclock .watchdog)
  case thermtrip =>
    intro hpowered htripped hclock
    have hstep : s.thermtripReset = s.resetDevice 4 := by
      simp [State.thermtripReset, State.deviceReset, hpowered, htripped]
    exact completes_of_next (congrArg Host.Outcome.next hstep) (State.resetDevice_restarted hboot (by decide) hpowered hclock)
  case clockReturn =>
    intro hpowered hwaits
    have hstep : s.refclk100Return = s.clockBack.resetDevice (Config.freeResetKind s.freeCtr % 6 + 1) := by
      simp [State.refclk100Return, hpowered, hwaits, State.clockBack]
    exact completes_of_next (congrArg Host.Outcome.next hstep) (State.resetDevice_restarted (s := s.clockBack) hboot (by omega) hpowered rfl)

end Sys2Proof.Machine
end

