-- ==== Sys2Proof/Proofs/CrossingAlignment.lean ====
section
/-! Alignment of the crossings (R476 to R480, Table 16-2): what an attempt leaves where it passes, where it fails, and where its failure
ends start-up. -/

namespace Sys2Proof.Machine

/-! ### PHASE after an attempt -/

/-- PHASE passes to TRAIN once every crossing is aligned or given up. -/
def State.enterTrain (s : State) : State := if s.phase = phAlign ∧ s.alignmentDone = true then s.setPhase phTrain else s

theorem State.crossingAttempt_eq (s : State) (x : Crossing) (pll : Bool) (passes : List AlignPass) :
    s.crossingAttempt x pll passes =
      (s.alignOutcome x (pll && decide (passes.length = crossingDirections x) && passes.all AlignPass.ok)
        (passes.map fun p => 16 - p.latency)).enterTrain := rfl

theorem State.enterTrain_eq (s : State) :
    s.enterTrain = { s with regs := s.enterTrain.regs, boot := { s.boot with highPhase := s.enterTrain.boot.highPhase } } := by
  unfold State.enterTrain
  split <;> rfl

theorem State.enterTrain_of_phase_ne {s : State} (h : s.phase ≠ phAlign) : s.enterTrain = s := if_neg fun hdone => h hdone.1

theorem State.fld_enterTrain (s : State) {f : FieldRef} {i j : Nat} (h : regOffset f.reg i j ≠ regOffset .glbBoot 0 0) :
    s.enterTrain.fld f i j = s.fld f i j := by
  unfold State.enterTrain
  split
  · exact s.fld_setFld_reg GLB_BOOT_PHASE f phTrain 0 0 i j h
  · rfl

/-! ### Outcomes of an attempt -/

/-- The crossing is aligned with its thresholds, and counted. -/
def State.aligned (s : State) (x : Crossing) (thresholds : List Nat) : State :=
  { s.count GLB_XALIGN_ALIGNED with boot := { s.boot with aligned := s.boot.aligned ++ [(x, thresholds)] } }

theorem State.fld_aligned (s : State) (x : Crossing) (thresholds : List Nat) (f : FieldRef) (i j : Nat) :
    (s.aligned x thresholds).fld f i j = (s.count GLB_XALIGN_ALIGNED).fld f i j := rfl

theorem State.crossingAttempt_passed (s : State) {x : Crossing} {passes : List AlignPass} (hlength : passes.length = crossingDirections x)
    (hok : passes.all AlignPass.ok = true) :
    s.crossingAttempt x true passes = (s.aligned x (passes.map fun p => 16 - p.latency)).enterTrain := by
  rw [State.crossingAttempt_eq, hok, decide_eq_true hlength]
  rfl

/-- What an attempt that passes leaves. -/
theorem State.aligned_effect (s : State) (x : Crossing) (thresholds : List Nat) :
    (s.aligned x thresholds).enterTrain.isAligned x = true ∧ (s.aligned x thresholds).enterTrain.nv = s.nv ∧
      (s.aligned x thresholds).enterTrain.stm = s.stm ∧ SameBulk s (s.aligned x thresholds).enterTrain := by
  rw [State.enterTrain_eq]
  exact ⟨by simp [State.isAligned, State.aligned], rfl, rfl, .of_control rfl⟩

/-- The crossing has failed `n` times. -/
def State.noteAttempts (s : State) (x : Crossing) (n : Nat) : State :=
  { s with boot := { s.boot with attempts := (s.boot.attempts.filter fun e => e.1 != x) ++ [(x, n)] } }

theorem State.attempts_noteAttempts (s : State) (x : Crossing) (n : Nat) : (s.noteAttempts x n).attempts x = n := by
  have hfirst : ((s.boot.attempts.filter fun e => e.1 != x) ++ [(x, n)]).find? (fun e => e.1 == x) = some (x, n) := by
    rw [List.find?_append, List.find?_eq_none.mpr (by simp)]
    simp
  simp [State.attempts, State.noteAttempts, hfirst]

theorem State.crossingAttempt_failed (s : State) (x : Crossing) (passes : List AlignPass) :
    s.crossingAttempt x false passes =
      (if 3 ≤ s.attempts x + 1 then (s.noteAttempts x (s.attempts x + 1)).crossingFailed x
        else s.noteAttempts x (s.attempts x + 1)).enterTrain := rfl

/-! ### Start-up that ends FAILED -/

theorem State.failBoot_effect (s : State) {code : Nat} (hcode : code < 2 ^ 16) :
    (s.failBoot code).phase = phFailed ∧ (s.failBoot code).fld GLB_BOOT_FAILCODE = code ∧ (s.failBoot code).nv.retired = s.nv.retired ∧
      SameBulk s (s.failBoot code) := by
  have hlog : (s.fail code).SameButLog (s.failBoot code) := (s.fail code).sameButLog_logBoot
  have hphase : (s.fail code).phase = phFailed :=
    ((s.setPhase phFailed).fld_setFld_field GLB_BOOT_FAILCODE GLB_BOOT_PHASE code 0 0 rfl (by decide) (by decide)).trans
      (s.phase_setPhase (by decide))
  refine ⟨(hlog.fld GLB_BOOT_PHASE 0 0).trans hphase, ?_, ?_⟩
  · rw [hlog.fld]
    exact ((s.setPhase phFailed).fld_setFld_same GLB_BOOT_FAILCODE code 0 0 (by decide)).trans (Nat.mod_eq_of_lt hcode)
  · obtain ⟨_, _, _, _, heq⟩ := hlog
    rw [heq]
    exact ⟨rfl, .of_control rfl⟩

/-- The crossing is given up, and counted. -/
def State.givenUp (s : State) (x : Crossing) : State :=
  { s.count GLB_XALIGN_FAILED with boot := { s.boot with failed := s.boot.failed ++ [x] } }

/-- The third failure of a FATAL crossing ends start-up. -/
theorem State.crossingFailed_fatal (s : State) {x : Crossing} (hfatal : crossingFatal x = true) :
    (s.crossingFailed x).phase = phFailed ∧ (s.crossingFailed x).fld GLB_BOOT_FAILCODE = stALIGNFATAL ∧
      (s.crossingFailed x).nv.retired = s.nv.retired ∧ SameBulk s (s.crossingFailed x) := by
  have hstep : s.crossingFailed x = ((s.givenUp x).faultRecord 0 .fatal 12).failBoot stALIGNFATAL := if_pos hfatal
  have hrecord : (s.givenUp x).SameButLog ((s.givenUp x).faultRecord 0 .fatal 12) := State.sameButLog_faultRecord _ 0 rfl 12 0 0xFF 0 0
  obtain ⟨hphase, hcode, hretired, hbulk⟩ := State.failBoot_effect ((s.givenUp x).faultRecord 0 .fatal 12) (code := stALIGNFATAL) (by decide)
  rw [hstep]
  refine ⟨hphase, hcode, hretired.trans ?_, SameBulk.trans ?_ hbulk⟩
  · exact hrecord.retired
  · exact SameBulk.trans (.of_control rfl) hrecord.sameBulk

/-! ### The statement -/

theorem State.alignAttempt_due {s : State} {x : Crossing} (hdue : s.alignDue x = true) (hfirst : s.attempts x = 0) (pll : Bool)
    (passes : List AlignPass) : s.alignAttempt x pll passes = s.crossingAttempt x pll passes := by
  simp [State.alignAttempt, hdue, hfirst]

theorem State.alignRetry_due {s : State} {x : Crossing} (hdue : s.alignDue x = true) (hfailed : 0 < s.attempts x) (pll : Bool)
    (passes : List AlignPass) : s.alignRetry x pll passes = (s.count GLB_XALIGN_RETRIES).crossingAttempt x pll passes := by
  simp [State.alignRetry, hdue, hfailed]

/-- Settles O2: an attempt is its outcome, followed by PHASE TRAIN where it was the last; a third failure of a FATAL crossing leaves ALIGN. -/
theorem crossingsAlignOrFail : Obligations.CrossingsAlignOrFail := by
  intro s
  refine ⟨?passes, ?fails, ?retryPasses, ?thirdFails⟩
  case passes =>
    intro x passes hdue hfirst hlength hok
    have hstep := (State.alignAttempt_due hdue hfirst true passes).trans (s.crossingAttempt_passed hlength hok)
    obtain ⟨haligned, hnv, hstm, hbulk⟩ := s.aligned_effect x (passes.map fun p => 16 - p.latency)
    refine completes_of_next (congrArg Host.Outcome.next hstep) ⟨haligned, ?_, hnv, hstm, hbulk⟩
    rw [State.fld_enterTrain _ (by decide), State.fld_aligned]
    exact s.fld_count GLB_XALIGN_ALIGNED 1 0 0 (by decide)
  case fails =>
    intro x passes hdue hfirst
    have hstep : s.alignAttempt x false passes = (s.noteAttempts x 1).enterTrain := by
      rw [State.alignAttempt_due hdue hfirst, State.crossingAttempt_failed, hfirst]
      rfl
    refine completes_of_next (congrArg Host.Outcome.next hstep) ?_
    rw [State.enterTrain_eq]
    exact ⟨s.attempts_noteAttempts x 1, rfl, rfl, rfl, rfl, .of_control rfl⟩
  case retryPasses =>
    intro x passes hdue hfailed hlength hok
    have hstep := (State.alignRetry_due hdue hfailed true passes).trans (State.crossingAttempt_passed _ hlength hok)
    obtain ⟨haligned, hnv, hstm, hbulk⟩ := (s.count GLB_XALIGN_RETRIES).aligned_effect x (passes.map fun p => 16 - p.latency)
    refine completes_of_next (congrArg Host.Outcome.next hstep) ⟨haligned, ?_, hnv, hstm, SameBulk.trans (.of_control rfl) hbulk⟩
    rw [State.fld_enterTrain _ (by decide), State.fld_aligned, State.count,
      State.fld_setFld_field _ GLB_XALIGN_ALIGNED GLB_XALIGN_RETRIES _ 0 0 rfl (by decide) (by decide)]
    exact s.fld_count GLB_XALIGN_RETRIES 1 0 0 (by decide)
  case thirdFails =>
    intro x passes hdue htwice hfatal
    obtain ⟨hphase, hcode, hretired, hbulk⟩ := State.crossingFailed_fatal ((s.count GLB_XALIGN_RETRIES).noteAttempts x 3) hfatal
    have hstep : s.alignRetry x false passes = ((s.count GLB_XALIGN_RETRIES).noteAttempts x 3).crossingFailed x := by
      have hcounted : (s.count GLB_XALIGN_RETRIES).attempts x = 2 := htwice
      rw [State.alignRetry_due hdue (by omega), State.crossingAttempt_failed, hcounted, if_pos (by decide)]
      exact State.enterTrain_of_phase_ne (hphase ▸ by decide)
    exact completes_of_next (congrArg Host.Outcome.next hstep) ⟨hphase, hcode, hretired, SameBulk.trans (.of_control rfl) hbulk⟩

end Sys2Proof.Machine
end

