-- ==== Sys2Proof/Proofs/TrainingUnderMove.lean ====
section
/-! HBM training while a page move to the stack is under way. By R344 the retirement of a memory unit abandons the moves to it that have
not been switched, so a pseudo-channel that fails its training (R481) takes such a move with it. The first clause of O3 says that training
leaves the memory tiers alone, page moves among them, and has no premise that no move is under way. -/

namespace Sys2Proof.Machine

/-- The retirement of a memory unit abandons the moves to it that have not been switched. -/
theorem State.retireOne_moves {s : State} {u : Nat} (hin : s.retired u = false) (hmemory : memoryUnit u = true) (cls : FaultClass)
    (source pattern : Nat) :
    (s.retireOne u cls source pattern).moves = s.moves.filter fun m => m.copied || m.unit != u := by
  have hout : ¬ s.retired u = true := by simp [hin]
  rw [State.retireOne, if_neg hout]
  simp only [State.retireEffect, if_pos hmemory]
  rw [State.report_eq]
  rfl

theorem State.retireUnit_moves {s : State} {u : Nat} (hin : s.retired u = false) (hmemory : memoryUnit u = true) (hlone : parentUnit u = none)
    (cls : FaultClass) (source pattern : Nat) :
    (s.retireUnit u cls source pattern).moves = s.moves.filter fun m => m.copied || m.unit != u := by
  have hout : ¬ s.retired u = true := by simp [hin]
  simp only [State.retireUnit, if_neg hout, hlone]
  exact State.retireOne_moves hin hmemory cls source pattern

/-- A device at step 7 of start-up, with a page on its way to pseudo-channel 0 of stack 0. -/
def trainingUnderMove : State :=
  { State.reset.setPhase phTrain with moves := [{ alloc := 1, page := 0, dest := 2, copied := false, stalled := 0, unit := unitId 5 0 }] }

theorem hbmTraining_trainingUnderMove : (trainingUnderMove.hbmTraining 0 [0]).moves = [] := by
  have hdue : trainingUnderMove.phase = phTrain ∧ 0 < trainingUnderMove.hbmStacks ∧ trainingUnderMove.boot.hbmDone.contains 0 = false := by
    decide
  have hmoves : (trainingUnderMove.retireUnit (unitId 5 0) .permanent 8).moves = [] :=
    (State.retireUnit_moves rfl (by decide) (by decide) _ _ _).trans (by decide)
  rw [State.hbmTraining, if_pos hdue]
  exact hmoves

/-- Refutes O3: pseudo-channel 0 of stack 0 fails its training, and the move to it is gone. -/
theorem not_trainingFollowsTheDevicesFound : ¬ Obligations.TrainingFollowsTheDevicesFound := by
  intro h
  obtain ⟨hhbm, -⟩ := h trainingUnderMove
  obtain ⟨t, hstep, -, -, -, hmemory, -⟩ := hhbm 0 [0] (by decide) (by decide) (by decide)
  obtain ⟨-, -, -, hmoves, -⟩ := hmemory
  obtain rfl : trainingUnderMove.hbmTraining 0 [0] = t := Host.Outcome.next.inj hstep
  rw [hbmTraining_trainingUnderMove] at hmoves
  exact absurd hmoves (by decide)

end Sys2Proof.Machine
end

