-- ==== Sys2Proof/Proofs/StartUpEnds.lean ====
section
/-! The end of start-up (R485, R487, R513, Table 16-1): the canaries of step 8, the rebuild of the lanes, and READY. -/

namespace Sys2Proof.Machine

/-! ### The canaries of step 8 (R513) -/

/-- A canary that passes is counted, and a frame's pass is remembered. -/
theorem State.canaryEnd_passed (s : State) (u c pattern : Nat) :
    ∃ stm, s.canaryEnd u c pattern true = { s.count FLT_CANARY_RUN with stm := stm } := by
  simp only [State.canaryEnd, if_true]
  split
  · exact ⟨_, rfl⟩
  · exact ⟨_, rfl⟩

theorem State.fld_lt (s : State) (f : FieldRef) (i j : Nat) : s.fld f i j < 2 ^ f.width := Nat.mod_lt _ (Nat.pow_pos (by decide))

/-- Canaries that pass one after another are all counted in RUN and none in FAILED. -/
theorem State.foldl_canaries {α : Type} {f : State → α → State} (hf : ∀ (s : State) a, ∃ stm, f s a = { s.count FLT_CANARY_RUN with stm := stm })
    (l : List α) (s : State) :
    (∃ regs stm, l.foldl f s = { s with regs := regs, stm := stm }) ∧
      (l.foldl f s).fld FLT_CANARY_RUN = (s.fld FLT_CANARY_RUN + l.length) % 2 ^ 32 ∧
      (l.foldl f s).fld FLT_CANARY_FAILED = s.fld FLT_CANARY_FAILED := by
  induction l generalizing s with
  | nil => exact ⟨⟨_, _, rfl⟩, (Nat.mod_eq_of_lt (s.fld_lt FLT_CANARY_RUN 0 0)).symm, rfl⟩
  | cons a l ih =>
    obtain ⟨stm, hstm⟩ := hf s a
    obtain ⟨⟨regs, stm', heq⟩, hrun, hfailed⟩ := ih (f s a)
    have hcount : (f s a).fld FLT_CANARY_RUN = (s.fld FLT_CANARY_RUN + 1) % 2 ^ 32 := by
      rw [hstm]
      exact s.fld_count FLT_CANARY_RUN 1 0 0 (by decide)
    have hother : (f s a).fld FLT_CANARY_FAILED = s.fld FLT_CANARY_FAILED := by
      rw [hstm]
      exact s.fld_setFld_field FLT_CANARY_RUN FLT_CANARY_FAILED _ 0 0 rfl (by decide) (by decide)
    rw [List.foldl_cons]
    refine ⟨⟨regs, stm', heq.trans (by rw [hstm]; rfl)⟩, ?_, hfailed.trans hother⟩
    rw [hrun, hcount, List.length_cons]
    omega

/-- The canaries of step 8 once they have all passed. -/
def State.canariesPassed (s : State) : State :=
  s.canaryRuns.foldl (fun (s : State) e => s.canaryEnd e.1 e.2 (e.2 * 4096 + Config.canaryNumber e.2 % 4096) true) s

theorem State.startupCanaries_passed {s : State} (hphase : s.phase = phTrain) (htrained : s.trained = true)
    (hfirst : s.boot.canariesDone = false) :
    s.startupCanaries [] = ({ s.canariesPassed with boot := { s.canariesPassed.boot with canariesDone := true } } : State).setPhase phRebuild :=
  if_pos ⟨hphase, htrained, hfirst⟩

/-! ### The rebuild of a lane (R378, R485) -/

/-- A rebuild writes the lane's outcome, its Depot and the log. -/
theorem State.rebuild_sameButLog (s : State) (j l : Nat) (bad : List Nat) (failedDies : List (Nat × Nat)) (ms : Nat) :
    ∃ lanes d, ((s.setFld GLB_DEPSTART_LANES lanes).setDepot j d).SameButLog (s.rebuild j l bad failedDies ms) := by
  unfold State.rebuild
  dsimp only
  split
  · exact ⟨_, _, .refl _⟩
  · split
    · exact ⟨_, _, (State.sameButLog_logDepot _ 1 j l 0 ms).trans (State.sameButLog_logDepot _ 3 j l 0 0)⟩
    · exact ⟨_, _, State.sameButLog_logDepot _ 1 j l 0 ms⟩

/-- What is read back from the media reaches allocations and their poison. -/
def State.SameButContents (s t : State) : Prop := ∃ allocs poison, t = { s with allocs := allocs, poison := poison }

theorem State.SameButContents.refl (s : State) : s.SameButContents s := ⟨_, _, rfl⟩

theorem State.SameButContents.trans {s t u : State} (hst : s.SameButContents t) (htu : t.SameButContents u) : s.SameButContents u := by
  obtain ⟨_, _, rfl⟩ := hst
  obtain ⟨_, _, rfl⟩ := htu
  exact ⟨_, _, rfl⟩

theorem State.refillAlloc_sameButContents (s : State) (j id : Nat) (a : Alloc) : s.SameButContents (s.refillAlloc j id a) := by
  unfold State.refillAlloc
  refine List.foldlRecOn (motive := s.SameButContents) _ _ (.refl s) fun t ht b _ => ht.trans ?_
  split
  · split
    · exact .refl t
    · split
      · exact ⟨_, _, rfl⟩
      · split
        · exact .refl t
        · exact ⟨_, _, rfl⟩
  · exact .refl t

theorem State.refill_sameButContents (s : State) (j : Nat) : s.SameButContents (s.refill j) :=
  List.foldlRecOn (motive := s.SameButContents) s.allocs _ (.refl s) fun t ht e _ => ht.trans (t.refillAlloc_sameButContents j e.1 e.2)

/-- The lane joins the rebuilt ones. -/
def State.laneDone (s : State) (j l : Nat) : State := { s with boot := { s.boot with lanesDone := s.boot.lanesDone ++ [(j, l)] } }

theorem State.laneRebuild_of_due {s : State} {j l : Nat} (hphase : s.phase = phRebuild) (hj : j < s.jdCount) (hl : l < 2)
    (hfirst : s.boot.lanesDone.contains (j, l) = false) (bad : List Nat) (failedDies : List (Nat × Nat)) (ms : Nat) :
    ((s.laneDone j l).rebuild j l bad failedDies ms).SameButContents (s.laneRebuild j l bad failedDies ms) := by
  rw [State.laneRebuild, if_pos ⟨hphase, hj, hl, hfirst⟩]
  dsimp only
  split
  · exact State.refill_sameButContents _ j
  · exact .refl _

/-! ### READY (R487) -/

/-- The state at READY before its BOOT entry is logged. -/
def State.readyAt (s : State) (dt : Nat) : State :=
  ((s.tick dt).setPhase phReady).setFld GLB_RESETCAUSE_READYMS ((s.clock.mono + dt - s.clock.timeZero) / 10 ^ 6)

theorem State.deviceReady_of_due {s : State} (hphase : s.phase = phRebuild)
    (hlanes : (List.range (2 * s.jdCount)).all (fun k => s.boot.lanesDone.contains (k / 2, k % 2)) = true) (dt : Nat) :
    s.deviceReady dt = (s.readyAt dt).logBoot := if_pos ⟨hphase, hlanes⟩

/-- Settles O4: the canaries are counted one by one, a lane is rebuilt apart from PHASE, and READY is one write of PHASE and one log entry. -/
theorem startUpEndsReady : Obligations.StartUpEndsReady := by
  intro s
  refine ⟨?canaries, ?lane, ?ready⟩
  case canaries =>
    intro hphase htrained hfirst
    obtain ⟨⟨regs, stm, heq⟩, hrun, hfailed⟩ : (∃ regs stm, s.canariesPassed = { s with regs := regs, stm := stm }) ∧
        s.canariesPassed.fld FLT_CANARY_RUN = (s.fld FLT_CANARY_RUN + s.canaryRuns.length) % 2 ^ 32 ∧
        s.canariesPassed.fld FLT_CANARY_FAILED = s.fld FLT_CANARY_FAILED :=
      State.foldl_canaries (fun _ _ => State.canaryEnd_passed _ _ _ _) _ s
    have hother : ∀ f : FieldRef, regOffset f.reg 0 0 ≠ regOffset .glbBoot 0 0 → (({ s.canariesPassed with
        boot := { s.canariesPassed.boot with canariesDone := true } } : State).setPhase phRebuild).fld f = s.canariesPassed.fld f :=
      fun f h => s.canariesPassed.fld_setFld_reg GLB_BOOT_PHASE f phRebuild 0 0 0 0 h
    refine completes_of_next (congrArg Host.Outcome.next (State.startupCanaries_passed hphase htrained hfirst))
      ⟨State.phase_setPhase _ (by decide), rfl, (hother FLT_CANARY_RUN (by decide)).trans hrun,
        (hother FLT_CANARY_FAILED (by decide)).trans hfailed, ?_⟩
    rw [heq]
    exact ⟨rfl, .of_control rfl⟩
  case lane =>
    intro jd lane unreadable failedDies ms hphase hjd hlane hfirst
    obtain ⟨allocs, poison, hrefill⟩ :=
      State.laneRebuild_of_due hphase hjd hlane hfirst (unreadable.map puaWord) failedDies ms
    obtain ⟨lanes, d, hrebuild⟩ := (s.laneDone jd lane).rebuild_sameButLog jd lane (unreadable.map puaWord) failedDies ms
    have hstays : ((s.laneDone jd lane).rebuild jd lane (unreadable.map puaWord) failedDies ms).phase = phRebuild := by
      refine (hrebuild.fld GLB_BOOT_PHASE 0 0).trans (Eq.trans ?_ hphase)
      exact s.fld_setFld_reg GLB_DEPSTART_LANES GLB_BOOT_PHASE lanes 0 0 0 0 (by decide)
    obtain ⟨_, _, _, _, heq⟩ := hrebuild
    refine completes_of_next (congrArg Host.Outcome.next hrefill) ⟨?_, hstays, ?_⟩
    · rw [heq]
      rfl
    · rw [heq]
      exact ⟨⟨rfl, rfl, rfl, rfl⟩, ⟨rfl, rfl, rfl, rfl, rfl⟩, ⟨rfl, rfl, rfl, rfl, rfl⟩, ⟨rfl, rfl⟩, rfl⟩
  case ready =>
    intro dt hphase hlanes
    have hlog : (s.readyAt dt).SameButLog (s.readyAt dt).logBoot := State.sameButLog_logBoot _
    refine completes_of_next (congrArg Host.Outcome.next (State.deviceReady_of_due hphase hlanes dt))
      ⟨?_, ?_, State.logAppend_logHead _ _ _, hlog.retired, SameBulk.trans (.of_control rfl) hlog.sameBulk⟩
    · refine (hlog.fld GLB_BOOT_PHASE 0 0).trans (Eq.trans ?_ ((s.tick dt).phase_setPhase (by decide)))
      exact State.fld_setFld_reg _ GLB_RESETCAUSE_READYMS GLB_BOOT_PHASE _ 0 0 0 0 (by decide)
    · rw [hlog.fld]
      exact State.fld_setFld_same _ GLB_RESETCAUSE_READYMS _ 0 0 (by decide)

end Sys2Proof.Machine
end

