-- ==== Sys2Proof/Proofs/ManagementMessages.lean ====
section
/-! Messages of the management port (R492, R547, R566, R572, R573): what the reception of one that may act leaves, and what each type then
does. -/

namespace Sys2Proof.Machine

/-! ### Reception (R467, R572) -/

/-- A message that may act leaves its link bit and, where its type carries a tag, its counter. -/
theorem State.receive_accepted {s u : State} {m : Bytes} (h : s.receive m = (true, u)) :
    u = s.setFld STM_MGMT_LINK 1 ∨ u = (s.setFld STM_MGMT_LINK 1).spendCounter 2 (leAt m 16 8) := by
  unfold State.receive at h
  dsimp only at h
  split at h
  · cases h
  · split at h
    · rcases (s.setFld STM_MGMT_LINK 1).critical_cases 2 (leAt m 16 8) (m.take (m.length - 16)) (m.drop (m.length - 16))
        "PN-880 management" with ⟨-, e⟩ | ⟨k, -, -, ⟨-, e⟩ | ⟨-, e⟩⟩
      · rw [e] at h
        cases h
      · rw [e] at h
        cases h
      · rw [e] at h
        cases h
        exact .inr rfl
    · cases h
      exact .inl rfl

/-- What a message that may act leaves alone: all but registers and the marks of the counters. -/
theorem State.receive_eq {s u : State} {m : Bytes} (h : s.receive m = (true, u)) :
    ∃ regs marks, u = { s with regs := regs, nv := { s.nv with marks := marks } } := by
  rcases State.receive_accepted h with rfl | rfl <;> exact ⟨_, _, rfl⟩

theorem State.receive_fld {s u : State} {m : Bytes} (h : s.receive m = (true, u)) (f : FieldRef) (i j : Nat)
    (hlink : regOffset f.reg i j ≠ regOffset .stmMgmt 0 0) (hcounter : regOffset f.reg i j ≠ regOffset .cmdCritctr 2 0) :
    u.fld f i j = s.fld f i j := by
  have hreceived := s.fld_setFld_reg STM_MGMT_LINK f 1 0 0 i j hlink
  rcases State.receive_accepted h with rfl | rfl
  · exact hreceived
  · exact (State.fld_setFld_reg _ CMD_CRITCTR_LAST f _ 2 0 i j hcounter).trans hreceived

theorem State.request_of_received {s u : State} {m : Bytes} {typ : Nat} (hup : s.mgmtUp = true) (htype : msgType m = typ)
    (hreceived : s.receive m = (true, u)) : s.request typ m = (true, u) := by
  simp [State.request, hup, htype, hreceived]

/-! ### COMMAND (R572) -/

/-- A COMMAND message becomes the next command of the management ring, waiting or already refused. -/
theorem State.takeCommand_effect (s : State) (m : Bytes) :
    ∃ (c : Cmd) (regs : KMap Word), s.takeCommand m =
      ({ s.setRing mgmtRing { s.ring mgmtRing with consumed := (s.ring mgmtRing).consumed + 1 } with regs := regs } : State).setCmd c ∧
      c.ring = mgmtRing ∧ c.seq = (s.ring mgmtRing).consumed + 1 ∧ c.entry = msgEntry m ∧ c.reqid = leAt m 8 4 ∧
      (c.stage = .consumed ∨ c.stage = .finished) := by
  unfold State.takeCommand
  dsimp only
  split
  · unfold State.refuseEntry
    split
    · exact ⟨_, _, rfl, rfl, rfl, rfl, rfl, .inr rfl⟩
    · exact ⟨_, _, rfl, rfl, rfl, rfl, rfl, .inr rfl⟩
  · exact ⟨_, _, rfl, rfl, rfl, rfl, rfl, .inl rfl⟩

theorem State.mgmtCommand_received {s u : State} {m : Bytes} (hup : s.mgmtUp = true) (htype : msgType m = 1)
    (hreceived : s.receive m = (true, u)) (hlen : 256 ≤ msgLen m) (hroom : (u.inFlight mgmtRing).length < mgmtQueue) :
    s.mgmtCommand m = u.takeCommand m := by
  simp [State.mgmtCommand, hup, htype, hreceived, Nat.not_lt.mpr hlen, Nat.not_le.mpr hroom]

/-! ### RESET (R492) -/

/-- The fields of a RESET payload. -/
theorem resetPayload_fields {kind target : Nat} (hkind : kind < 256) (htarget : target < 2 ^ 16) {p : Bytes}
    (hp : p = leBytes 1 kind ++ [0] ++ leBytes 2 target ++ List.replicate 4 0) :
    p.length = 8 ∧ leAt p 0 1 = kind ∧ leAt p 1 1 = 0 ∧ leAt p 2 2 = target ∧ leAt p 4 4 = 0 := by
  subst hp
  have htarget' : target % 256 + 256 * (target / 256 % 256) = target := by omega
  simp [leAt, bytesAt, leBytes, leNat, Nat.mod_eq_of_lt hkind, htarget', List.replicate]

/-- Only the variant and management flash say which targets exist. -/
theorem State.resetTarget_congr {s u : State} (hvariant : u.variant = s.variant) (hslices : u.nv.slices = s.nv.slices)
    (hrecord : u.nv.record = s.nv.record) (kind target : Nat) : u.resetTarget kind target = s.resetTarget kind target := by
  unfold State.resetTarget State.frameEnabled State.jdCount
  simp only [hvariant, hslices, hrecord, State.hasPort_congr hvariant]

/-- What a RESET message comes to once its checks have passed. -/
theorem State.deviceResetRequest_taken {s u : State} {m : Bytes} {kind target : Nat} (hrequest : s.request 2 m = (true, u))
    (hp : msgPayload m = leBytes 1 kind ++ [0] ++ leBytes 2 target ++ List.replicate 4 0) (hkind : kind ≤ 4) (htarget : target < 2 ^ 16)
    (hexists : u.resetTarget kind target = true)
    (hfree : kind = 0 ∨ u.phase = phReady ∧ u.resetJob kind target = none ∧ u.stm.resetJobs.length < mgmtQueue) :
    s.deviceResetRequest m =
      if kind = 0 then (u.answer m stOK).deviceReset .request
      else { u with stm := { u.stm with
        resetJobs := u.stm.resetJobs ++ [ResetJob.mk kind target false (leAt m 8 4) (leAt m 16 8)] } } := by
  obtain ⟨hlength, hkindField, hformat, htargetField, hrest⟩ := resetPayload_fields (by omega) htarget hp
  have hready : (decide (kind ≠ 0) && decide (u.phase ≠ phReady)) = false := by
    rcases hfree with rfl | ⟨h, -⟩
    · rfl
    · simp [h]
  have hqueue : (decide (kind ≠ 0) && ((u.resetJob kind target).isSome || decide (mgmtQueue ≤ u.stm.resetJobs.length))) = false := by
    rcases hfree with rfl | ⟨-, hnone, hroom⟩
    · rfl
    · simp [hnone, Nat.not_le.mpr hroom]
  simp only [State.deviceResetRequest, hrequest, hlength, hkindField, hformat, htargetField, hrest, hexists, hready, hqueue, firstStatus]
  simp [Nat.not_lt.mpr hkind]

/-! ### ATTEST (R546, R547) -/

/-- A report on the device alone, its serial taken and its signature counted. -/
def State.attested (s : State) (m nonce : Bytes) : State :=
  ({ s.nextSerial with freeCtr := s.freeCtr + 1 }.count SEC_ATTEST_SIGNED).answer m stOK (s.nextSerial.certificate 0xFF nonce)

theorem State.attest_device {s u : State} {m : Bytes} {n : Nat} (hrequest : s.request 3 m = (true, u)) (hn : n = leAt (msgPayload m) 1 1)
    (hdevice : leAt (msgPayload m) 0 1 = 0xFF) (hlength : (msgPayload m).length = 2 + n) (hmin : 8 ≤ n) (hmax : n ≤ 64)
    (hopen : u.criticalBusy = false) : s.attest m = u.attested m ((msgPayload m).drop 2) := by
  have hshort : ¬ n < 8 := by omega
  have hlong : ¬ 64 < n := by omega
  simp only [State.attest, hrequest, hdevice, ← hn, hlength, hopen, firstStatus]
  simp [hshort, hlong, State.attested, State.nextSerial]

theorem State.mgmtReply_untagged (s : State) (typ reqid status counter : Nat) (payload : Bytes) :
    s.mgmtReply typ reqid status counter payload false = mgmtHead typ 1 payload.length reqid status counter ++ payload := by
  unfold State.mgmtReply
  cases s.nv.ock <;> rfl

/-- The report goes out without a tag, whatever the key (Table 19-5). -/
theorem State.attested_mgmtOut {s t : State} {m : Bytes} (htype : msgType m = 3) (nonce : Bytes) :
    (s.attested m nonce).mgmtOut =
      s.mgmtOut ++ [t.mgmtReply 3 (leAt m 8 4) stOK (leAt m 16 8) (s.nextSerial.certificate 0xFF nonce) false] := by
  rw [State.mgmtReply_untagged, State.attested, State.answer, htype]
  exact congrArg (fun r => s.mgmtOut ++ [r]) (State.mgmtReply_untagged _ _ _ _ _ _)

/-! ### The statement -/

/-- Settles O31: a message that may act changes little on its reception, and each type then does its one thing. -/
theorem managementMessagesAreServed : Obligations.ManagementMessagesAreServed := by
  intro s
  refine ⟨?command, ?faultAck, ?logread, ?readreg, ?device, ?unitReset, ?attest⟩
  case command =>
    intro msg u hup htype hreceived hlen hroom
    obtain ⟨c, regs, htaken, hring, hseq, hentry, hreqid, hstage⟩ := u.takeCommand_effect msg
    obtain ⟨regs', marks, rfl⟩ := State.receive_eq hreceived
    have hstep := (State.mgmtCommand_received hup htype hreceived hlen hroom).trans htaken
    refine completes_of_next (congrArg Host.Outcome.next hstep) ⟨?_, ?_, ⟨rfl, rfl, rfl, rfl, rfl, rfl, rfl⟩, ⟨rfl, rfl, rfl, rfl⟩,
      ⟨rfl, rfl, rfl, rfl, rfl⟩, ⟨rfl, rfl, rfl, rfl, rfl⟩, rfl, rfl, rfl, rfl⟩
    · simp [State.ring, State.setRing, State.setCmd, mapGetD]
    · have hfound : ∀ v : State, (v.setCmd c).cmd mgmtRing ((s.ring mgmtRing).consumed + 1) = some c := by
        intro v
        have hkey : cmdKey mgmtRing ((s.ring mgmtRing).consumed + 1) = cmdKey c.ring c.seq := by
          rw [hring, hseq]
          rfl
        rw [State.cmd, hkey]
        exact mapGet_mapSet_same _ _ _
      rw [hfound]
      rcases hstage with h | h <;> simp [hentry, hreqid, h]
  case faultAck =>
    intro msg u hup htype hreceived hlen
    have hstep : s.faultAck msg = { u with stm := { u.stm with faultAcked := max u.stm.faultAcked (leAt (msgPayload msg) 0 4) } } := by
      simp [State.faultAck, State.request_of_received hup htype hreceived, hlen]
    obtain ⟨regs, marks, rfl⟩ := State.receive_eq hreceived
    exact completes_of_next (congrArg Host.Outcome.next hstep) ⟨rfl, rfl, .of_control rfl⟩
  case logread =>
    intro msg u hup htype hreceived hlen hmin hmax
    have hstep : s.logread msg =
        u.answer msg stOK ((List.range (leAt (msgPayload msg) 4 1)).flatMap fun k => u.logShown (leAt (msgPayload msg) 0 4 + k)) := by
      simp [State.logread, State.request_of_received hup htype hreceived, hlen, Nat.not_lt.mpr hmin, Nat.not_lt.mpr hmax]
    obtain ⟨regs, marks, rfl⟩ := State.receive_eq hreceived
    refine completes_of_next (congrArg Host.Outcome.next hstep) ⟨?_, .of_control rfl⟩
    rw [State.answer, htype]
    rfl
  case readreg =>
    rintro msg u off n hup htype hreceived hlen rfl rfl hmin hmax halign hwindow
    have hstep : s.readreg msg = u.answer msg stOK (u.windowBytes (leAt (msgPayload msg) 0 4) (8 * leAt (msgPayload msg) 4 1)) := by
      simp [State.readreg, State.request_of_received hup htype hreceived, hlen, Nat.not_lt.mpr hmin, Nat.not_lt.mpr hmax,
        Nat.not_lt.mpr hwindow, halign]
    obtain ⟨regs, marks, rfl⟩ := State.receive_eq hreceived
    refine completes_of_next (congrArg Host.Outcome.next hstep) ⟨?_, .of_control rfl⟩
    rw [State.answer, htype]
    rfl
  case device =>
    intro msg u hup htype hreceived hlen hpayload hpowered htripped hclock hboot
    have hrequest := State.request_of_received hup htype hreceived
    have hstep : s.deviceResetRequest msg = (u.answer msg stOK).deviceReset .request :=
      State.deviceResetRequest_taken (kind := 0) (target := 0) hrequest (hpayload.trans rfl) (by decide) (by decide) rfl (.inl rfl)
    obtain ⟨regs, marks, rfl⟩ := State.receive_eq hreceived
    exact completes_of_next (congrArg Host.Outcome.next hstep)
      (State.deviceReset_restarted (s := ({ s with regs := regs, nv := { s.nv with marks := marks } } : State).answer msg stOK) hboot hpowered
        htripped hclock .request)
  case unitReset =>
    intro msg u kind target hup htype hreceived hlen hpayload hmin hmax htarget hexists hphase hnone hroom
    have hrequest := State.request_of_received hup htype hreceived
    have hvariant : u.variant = s.variant := State.receive_fld hreceived GLB_GRADE_VARIANT 0 0 (by decide) (by decide)
    have hphase' : u.phase = phReady := (State.receive_fld hreceived GLB_BOOT_PHASE 0 0 (by decide) (by decide)).trans hphase
    obtain ⟨regs, marks, rfl⟩ := State.receive_eq hreceived
    have hstep := State.deviceResetRequest_taken hrequest hpayload hmax htarget
      ((State.resetTarget_congr hvariant rfl rfl kind target).trans hexists) (.inr ⟨hphase', hnone, hroom⟩)
    rw [if_neg (by omega)] at hstep
    exact completes_of_next (congrArg Host.Outcome.next hstep) ⟨rfl, rfl, .of_control rfl⟩
  case attest =>
    intro msg u n hup htype hreceived hn hdevice hlength hmin hmax hopen
    have hstep := State.attest_device (State.request_of_received hup htype hreceived) hn hdevice hlength hmin hmax hopen
    have hsigned : u.fld SEC_ATTEST_SIGNED = s.fld SEC_ATTEST_SIGNED :=
      State.receive_fld hreceived SEC_ATTEST_SIGNED 0 0 (by decide) (by decide)
    obtain ⟨regs, marks, hu⟩ := State.receive_eq hreceived
    refine completes_of_next (congrArg Host.Outcome.next hstep) ⟨?_, ?_, ?_, ?_⟩
    · rw [hu]
      rfl
    · rw [← hsigned]
      exact u.nextSerial.fld_count SEC_ATTEST_SIGNED 1 0 0 (by decide)
    · rw [State.attested_mgmtOut htype, hu]
    · rw [hu]
      exact .of_control rfl

end Sys2Proof.Machine
end

