-- ==== Sys2Proof/Proofs/IdleStep.lean ====
section
/-! A step at an empty queue. -/

namespace Sys2Proof.Machine

/-- Settles O48: with nothing in the queue `step` is a tick of 1 ns. -/
theorem anEmptyQueueIdlesForOneNanosecond : Obligations.AnEmptyQueueIdlesForOneNanosecond := by
  intro s hempty
  have hstep : step s = .next (s.tick 1) := by simp only [step, hempty, State.idle]
  exact ⟨s.tick 1, hstep, rfl, rfl, fun hstopped => if_neg (by simp [hstopped]), rfl⟩

end Sys2Proof.Machine
end

