-- ==== Sys2Proof/Proofs/BallMap.lean ====
section
/-! The ball map (R591 to R595): where the tiles of NAND channels lie, and how many balls each group of Table 20-11 has. -/

namespace Sys2Proof.Machine

theorem blockDie_blockBase {d u : Nat} (hd : d < 4) (hu : u < 35) : blockDie (blockBase d + u) = d := by
  unfold blockDie blockBase
  split_ifs <;> omega

theorem ballAt_nandBand {row d u : Nat} (hrow : row < 24) (hd : d < 4) (hu : u < 35) :
    ballAt row (blockBase d + u) =
      if 32 ≤ u then .gnd else (nandTile (row % 6) (u % 8)).elim .gnd (.nand (16 * d + 4 * (row / 6) + u / 8)) := by
  simp only [ballAt, blockDie_blockBase hd hu, Nat.add_sub_cancel_left, if_pos hrow]

/-- Settles O60: a row and a column of the NAND band name their channel and their place in its tile. -/
theorem nandTilesLieWhereTheirChannelPutsThem : Obligations.NandTilesLieWhereTheirChannelPutsThem := by
  refine ⟨by decide, by decide, ?tile, ?ground⟩
  case tile =>
    intro n r u hn hr hu
    have hrow : (6 * (n % 16 / 4) + r) % 6 = r ∧ (6 * (n % 16 / 4) + r) / 6 = n % 16 / 4 := by omega
    have hcol : (8 * (n % 16 % 4) + u) % 8 = u ∧ (8 * (n % 16 % 4) + u) / 8 = n % 16 % 4 := by omega
    have hchannel : 16 * (n / 16) + 4 * (n % 16 / 4) + n % 16 % 4 = n := by omega
    rw [Nat.add_assoc, ballAt_nandBand (by omega) (by omega) (by omega), if_neg (by omega), hrow.1, hrow.2, hcol.1, hcol.2, hchannel]
  case ground =>
    intro row d u hrow hd hmin hmax
    rw [ballAt_nandBand hrow hd hmax, if_pos hmin]

/-- What Table 20-11 and R595 ask of a ball: its group, and whether a PN-880H leaves it unconnected where it stands in the JD2 block. -/
def Ball.sort (b : Ball) : Nat × Bool := (b.group, b.unconnectedOnH (blockBase 2))

theorem Ball.unconnectedOnH_eq (b : Ball) (col : Nat) :
    b.unconnectedOnH col = (decide (blockDie col = 2 ∨ blockDie col = 3) && b.sort.2) := by
  have hbase : decide (blockDie (blockBase 2) = 2 ∨ blockDie (blockBase 2) = 3) = true := by decide
  simp only [Ball.sort, Ball.unconnectedOnH, hbase, Bool.true_and]

theorem ballAt_sort_nandBand {row : Nat} (hrow : row < 24) (col : Nat) : (ballAt row col).sort = (ballAt (row % 6) col).sort := by
  have hrow' : row % 6 < 24 := by omega
  simp only [ballAt, if_pos hrow, if_pos hrow', Nat.mod_mod]
  split
  · rfl
  · cases nandTile (row % 6) ((col - blockBase (blockDie col)) % 8) <;> rfl

theorem ballAt_sort_ddrBand {r : Nat} (hrow : r < 24) (col : Nat) : (ballAt (24 + r) col).sort = (ballAt (24 + r % 12) col).sort := by
  have hlow : ¬ 24 + r < 24 ∧ 24 + r < 48 := by omega
  have hlow' : ¬ 24 + r % 12 < 24 ∧ 24 + r % 12 < 48 := by omega
  simp only [ballAt, if_neg hlow.1, if_pos hlow.2, if_neg hlow'.1, if_pos hlow'.2, Nat.add_sub_cancel_left, Nat.mod_mod]
  split
  · rfl
  · cases ddrTile ((col - blockBase (blockDie col)) / 8 % 2 == 1) (r % 12) ((col - blockBase (blockDie col)) % 8) <;> rfl

/-- The positions of one row that satisfy a condition on the sort of their ball and their column. -/
def rowCount (q : Nat × Bool → Nat → Bool) (row : Nat) : Nat := (List.range 140).countP fun c => q (ballAt row (c + 1)).sort (c + 1)

theorem foldl_count {α : Type} (p : α → Bool) (l : List α) (n : Nat) : l.foldl (fun m c => if p c then m + 1 else m) n = n + l.countP p := by
  induction l generalizing n with
  | nil => rfl
  | cons a l ih => rw [List.foldl_cons, ih, List.countP_cons]; split <;> omega

theorem countBalls_eq_sum (q : Nat × Bool → Nat → Bool) :
    countBalls (fun b c => q b.sort c) = ((List.range 57).map (rowCount q)).sum := by
  have hrow : ∀ n row, (List.range 140).foldl (fun m c => if q (ballAt row (c + 1)).sort (c + 1) then m + 1 else m) n = n + rowCount q row :=
    fun n row => foldl_count _ _ n
  simp only [countBalls, hrow]
  rw [List.sum_eq_foldl, List.foldl_map]

/-- The sum over `k` periods of a function that repeats. -/
theorem sum_range_repeated {f : Nat → Nat} {n : Nat} (k : Nat) (h : ∀ r < k * n, f r = f (r % n)) :
    ((List.range (k * n)).map f).sum = k * ((List.range n).map f).sum := by
  induction k with
  | zero => simp
  | succ k ih =>
    have hlast : (List.range n).map (fun r => f (k * n + r)) = (List.range n).map f := List.map_congr_left fun r hr => by
      have hr := List.mem_range.mp hr
      rw [h (k * n + r) (by rw [Nat.succ_mul]; omega), Nat.mul_add_mod', Nat.mod_eq_of_lt hr]
    rw [Nat.succ_mul, List.range_add, List.map_append, List.map_map, List.sum_append, ih fun r hr => h r (by rw [Nat.succ_mul]; omega),
      Nat.succ_mul]
    exact congrArg (k * ((List.range n).map f).sum + List.sum ·) hlast

/-- The rows of the NAND tiles repeat after six, those of the DDR5 tiles after twelve (R592, R593). -/
theorem countBalls_eq_bands (q : Nat × Bool → Nat → Bool) :
    countBalls (fun b c => q b.sort c) =
      4 * ((List.range 6).map (rowCount q)).sum + 2 * ((List.range 12).map fun r => rowCount q (24 + r)).sum +
        ((List.range 9).map fun r => rowCount q (48 + r)).sum := by
  have hnand : ((List.range 24).map (rowCount q)).sum = 4 * ((List.range 6).map (rowCount q)).sum :=
    sum_range_repeated (n := 6) 4 fun r hr => by simp only [rowCount, ballAt_sort_nandBand hr]
  have hddr : ((List.range 24).map fun r => rowCount q (24 + r)).sum = 2 * ((List.range 12).map fun r => rowCount q (24 + r)).sum :=
    sum_range_repeated (n := 12) 2 fun r hr => by simp only [rowCount, ballAt_sort_ddrBand hr]
  have hrows : List.range 57 = List.range 24 ++ (List.range 24).map (24 + ·) ++ (List.range 9).map (48 + ·) := by decide
  rw [countBalls_eq_sum, hrows, List.map_append, List.map_append, List.map_map, List.map_map, List.sum_append, List.sum_append, hnand]
  exact congrArg (4 * ((List.range 6).map (rowCount q)).sum + · + ((List.range 9).map fun r => rowCount q (48 + r)).sum) hddr

/-- The balls of each group in six rows of NAND tiles, in twelve rows of DDR5 tiles, and in the nine rows below them. -/
theorem rowCounts_of_group : ((List.range 7).map fun g =>
    (((List.range 6).map (rowCount fun x _ => x.1 == g)).sum, ((List.range 12).map fun r => rowCount (fun x _ => x.1 == g) (24 + r)).sum,
      ((List.range 9).map fun r => rowCount (fun x _ => x.1 == g) (48 + r)).sum)) =
    [(0, 0, 48), (576, 0, 0), (0, 1168, 0), (0, 0, 128), (0, 0, 44), (264, 512, 1000), (0, 0, 40)] := by
  decide +kernel

/-- The same for the balls that a PN-880H leaves unconnected in the JD2 and JD3 blocks. -/
theorem rowCounts_of_unconnected : ([2, 3].map fun d =>
    (((List.range 6).map (rowCount fun x c => x.2 && blockDie c == d)).sum,
      ((List.range 12).map fun r => rowCount (fun x c => x.2 && blockDie c == d) (24 + r)).sum,
      ((List.range 9).map fun r => rowCount (fun x c => x.2 && blockDie c == d) (48 + r)).sum)) =
    [(144, 292, 34), (144, 292, 34)] := by
  decide +kernel

theorem countBalls_const (b : Bool) : countBalls (fun _ _ => b) = 57 * if b then 140 else 0 := by
  have hrow : rowCount (fun _ _ => b) = fun _ => if b then 140 else 0 := funext fun row => by cases b <;> simp [rowCount]
  rw [countBalls_eq_sum fun _ _ => b, hrow, List.map_const', List.sum_replicate, List.length_range, smul_eq_mul]

theorem countBalls_unconnected {d : Nat} (hd : d = 2 ∨ d = 3) :
    countBalls (fun b c => b.unconnectedOnH c && blockDie c == d) = countBalls fun b c => b.sort.2 && blockDie c == d := by
  congr 1
  funext b c
  rw [Ball.unconnectedOnH_eq]
  by_cases hc : blockDie c = d
  · rw [hc, decide_eq_true hd, Bool.true_and]
  · have hother : (blockDie c == d) = false := beq_eq_false_iff_ne.mpr hc
    simp only [hother, Bool.and_false]

theorem countBalls_unconnected_elsewhere {d : Nat} (hd : ¬ (d = 2 ∨ d = 3)) :
    countBalls (fun b c => b.unconnectedOnH c && blockDie c == d) = 0 := by
  rw [← Nat.mul_zero 57]
  refine Eq.trans (congrArg countBalls ?_) (countBalls_const false)
  funext b c
  rw [Ball.unconnectedOnH_eq]
  by_cases hc : blockDie c = d
  · rw [hc, decide_eq_false hd, Bool.false_and, Bool.false_and]
  · exact Bool.and_eq_false_imp.mpr fun _ => beq_eq_false_iff_ne.mpr hc

/-- Settles O59: the tiles' rows are counted once and multiplied, the nine rows below them counted as they stand. -/
theorem ballsAreCountedByGroup : Obligations.BallsAreCountedByGroup := by
  have hgroup : ∀ g, countBalls (fun b _ => b.group == g) = _ := fun g => countBalls_eq_bands fun x _ => x.1 == g
  have hblock : ∀ d, countBalls (fun b c => b.sort.2 && blockDie c == d) = _ := fun d =>
    countBalls_eq_bands fun x c => x.2 && blockDie c == d
  refine ⟨countBalls_const true, ?groups, ?blocks, fun col => ?unconnected⟩
  case groups =>
    have hcounts := congrArg (List.map fun x : Nat × Nat × Nat => 4 * x.1 + 2 * x.2.1 + x.2.2) rowCounts_of_group
    simp only [hgroup]
    rwa [List.map_map] at hcounts
  case blocks =>
    have hcounts := congrArg (List.map fun x : Nat × Nat × Nat => 4 * x.1 + 2 * x.2.1 + x.2.2) rowCounts_of_unconnected
    rw [List.map_map] at hcounts
    simp only [List.map_cons, List.map_nil, Function.comp, ← hblock] at hcounts
    simp only [List.map_cons, List.map_nil, countBalls_unconnected_elsewhere (d := 0) (by decide),
      countBalls_unconnected_elsewhere (d := 1) (by decide), countBalls_unconnected (d := 2) (by decide),
      countBalls_unconnected (d := 3) (by decide), hcounts]
  case unconnected => simp only [Ball.unconnectedOnH, Bool.and_false, and_self]

end Sys2Proof.Machine
end

