-- ==== Sys2Proof/Proofs/FaultReach.lean ====
section
/-! What an entry of the event log, a fault record and the retirement of a unit reach (R504, R515, R563 to R565): the entry that waits or is
programmed, said exactly, and the parts of the state that no fault reaches. -/

namespace Sys2Proof.Machine

/-! ### Entries of the log (R563, R564) -/

/-- The entry that the log takes next. -/
def State.nextEntry (s : State) (typ : Nat) (body : Bytes) : LogPending :=
  LogPending.mk ((s.stm.logHead + 1) % 2 ^ 32)
    (logEntry ((s.stm.logHead + 1) % 2 ^ 32) typ (s.fld STM_STATE_ACTIVE) s.now body s.stm.chain) s.now

/-- The entry has its SEQ and its CHAIN and waits behind the others. -/
def State.queueEntry (s : State) (typ : Nat) (body : Bytes) : State :=
  { s with stm := { s.stm with
      logHead := (s.stm.logHead + 1) % 2 ^ 32, chain := bytesAt (s.nextEntry typ body).bytes 80 32,
      logTail := if s.stm.logTail = 0 then (s.stm.logHead + 1) % 2 ^ 32
        else if (s.stm.logHead + 1) % 2 ^ 32 - s.stm.logTail ≥ logSize then s.stm.logTail + 1 else s.stm.logTail,
      logPending := s.stm.logPending ++ [s.nextEntry typ body],
      logSecond := s.now / 10 ^ 9,
      logCount := if s.stm.logSecond = s.now / 10 ^ 9 then s.stm.logCount + 1 else 1 } }

theorem State.logAppend_of_atOnce (s : State) {typ : Nat} (h : logAtOnce typ = true) (body : Bytes) :
    s.logAppend typ body = (s.queueEntry typ body).programLog := by
  unfold State.logAppend
  exact if_pos h

theorem State.logAppend_of_waits (s : State) {typ : Nat} (h : logAtOnce typ = false) (body : Bytes) :
    s.logAppend typ body = s.queueEntry typ body := by
  unfold State.logAppend
  exact if_neg (by simp [h])

/-- Of the entries that wait, the last is certainly in the log once they are programmed. -/
theorem State.programLog_last {s : State} {l : List LogPending} {e : LogPending} (h : s.stm.logPending = l ++ [e]) :
    mapGet s.programLog.nv.log e.seq = some e.bytes := by
  unfold State.programLog
  dsimp only
  rw [h, List.foldl_append]
  exact mapGet_mapSet_same _ _ _

/-! ### Fault records that the limit of the log lets pass (R515, R565, R573) -/

/-- The state with a fault record in the log; what the push and the telemetry hold of it is free. -/
def State.recorded (s : State) (body : Bytes) (held : List Bytes) (counts : KMap SliceCounts) (out : List Bytes) : State :=
  { s with stm := { (s.queueEntry ltFault body).stm with lastFaultSeq := (s.stm.logHead + 1) % 2 ^ 32, heldRecords := held },
           counts := counts, mgmtOut := out }

theorem State.faultPush_held (s : State) (r : Bytes) :
    s.faultPush r = { s with stm := { s.stm with heldRecords := (s.faultPush r).stm.heldRecords }, mgmtOut := (s.faultPush r).mgmtOut } := by
  unfold State.faultPush
  split
  · rfl
  · split
    · split <;> rfl
    · rfl

theorem State.fileRecord_effect (s : State) (sl : Nat) (r : Bytes) :
    ∃ held counts out, s.fileRecord sl r = s.recorded r held counts out := by
  unfold State.fileRecord
  dsimp only
  rw [State.faultPush_held, State.logAppend_of_waits s (by decide) r]
  split <;> exact ⟨_, _, _, rfl⟩

/-- A record is dropped only if the log has taken its entries of this second and the class is CORRECTED or TRANSIENT (R565). -/
theorem State.faultRecord_effect {s : State} {cls : FaultClass} (h : cls ≠ .corrected ∧ cls ≠ .transient ∨ s.logFull = false)
    (unit source pattern slice addr count : Nat) :
    ∃ held counts out, s.faultRecord unit cls source pattern slice addr count =
      s.recorded (s.faultBytes ((s.stm.logHead + 1) % 2 ^ 32) unit cls source pattern slice addr count) held counts out := by
  have hkept : (s.logFull && (cls == .corrected || cls == .transient)) = false := by
    rcases h with ⟨hcorrected, htransient⟩ | hroom
    · simp [hcorrected, htransient]
    · simp [hroom]
  unfold State.faultRecord
  rw [hkept, if_neg Bool.false_ne_true]
  exact s.fileRecord_effect _ _

theorem State.report_effect {s : State} {cls : FaultClass} (h : cls ≠ .corrected ∧ cls ≠ .transient ∨ s.logFull = false)
    (unit source pattern slice addr : Nat) :
    ∃ held counts out, s.report unit cls source pattern slice addr =
      s.recorded (s.faultBytes ((s.stm.logHead + 1) % 2 ^ 32) unit cls source pattern slice addr (s.count24 unit cls)) held counts out :=
  State.faultRecord_effect h _ _ _ _ _ _

theorem State.faultRecord_dropped {s : State} {cls : FaultClass} (hfull : s.logFull = true) (hcls : cls = .corrected ∨ cls = .transient)
    (unit source pattern slice addr count : Nat) : s.faultRecord unit cls source pattern slice addr count = s.logDrop := by
  have hdropped : (s.logFull && (cls == .corrected || cls == .transient)) = true := by
    rcases hcls with rfl | rfl <;> simp [hfull]
  unfold State.faultRecord
  rw [hdropped, if_pos rfl]

/-- A record is dropped and counted, or filed. -/
theorem State.faultRecord_cases (s : State) (unit : Nat) (cls : FaultClass) (source pattern slice addr count : Nat) :
    s.faultRecord unit cls source pattern slice addr count = s.logDrop ∨
      ∃ body held counts out, s.faultRecord unit cls source pattern slice addr count = s.recorded body held counts out := by
  unfold State.faultRecord
  split
  · exact .inl rfl
  · exact .inr ⟨_, s.fileRecord_effect _ _⟩

/-! ### What no fault reaches -/

/-- The Stationmaster beside its log, its windows and its list of memory units that drain. -/
def Stationmaster.besideFaults (m : Stationmaster) : Stationmaster :=
  { m with logPending := [], logHead := 0, logTail := 0, chain := [], logSecond := 0, logCount := 0, logDropped := 0, lastFaultSeq := 0,
           heldRecords := [], windows := [], retiring := [] }

/-- Management flash beside its log, its retirement record and the windows it saves. -/
def MgmtFlash.besideFaults (nv : MgmtFlash) : MgmtFlash := { nv with log := [], retired := [], windows := [], cells := [] }

/-- The parts of the state that no log entry, no fault record and no retirement reaches; of the registers all but STM_LOGDROP. -/
def State.besideFaults (s : State) : State × (Nat → Option Word) :=
  ({ s with regs := [], nv := s.nv.besideFaults, stm := s.stm.besideFaults, counts := [], mgmtOut := [], depots := [], moves := [] },
    fun off => if off = regOffset .stmLogdrop 0 0 then none else mapGet s.regs off)

@[simp] theorem State.logAppend_besideFaults (s : State) (typ : Nat) (body : Bytes) :
    (s.logAppend typ body).besideFaults = s.besideFaults := by
  unfold State.logAppend
  dsimp only
  split
  · rw [State.programLog_eq]
    rfl
  · rfl

@[simp] theorem State.logDrop_besideFaults (s : State) : s.logDrop.besideFaults = s.besideFaults := by
  refine congrArg (Prod.mk s.besideFaults.1) (funext fun off => ?_)
  split
  · rfl
  · exact mapGet_mapSet_other _ _ ‹_›

@[simp] theorem State.faultRecord_besideFaults (s : State) (unit : Nat) (cls : FaultClass) (source pattern slice addr count : Nat) :
    (s.faultRecord unit cls source pattern slice addr count).besideFaults = s.besideFaults := by
  rcases s.faultRecord_cases unit cls source pattern slice addr count with h | ⟨body, held, counts, out, h⟩
  · rw [h, State.logDrop_besideFaults]
  · rw [h]
    rfl

@[simp] theorem State.report_besideFaults (s : State) (unit : Nat) (cls : FaultClass) (source pattern slice addr : Nat) :
    (s.report unit cls source pattern slice addr).besideFaults = s.besideFaults := s.faultRecord_besideFaults _ _ _ _ _ _ _

/-- A record reaches no window, no page move, no Depot, and management flash only once it is programmed. -/
theorem State.report_keeps (s : State) (unit : Nat) (cls : FaultClass) (source pattern slice addr : Nat) :
    (s.report unit cls source pattern slice addr).stm.windows = s.stm.windows ∧
      (s.report unit cls source pattern slice addr).moves = s.moves ∧ (s.report unit cls source pattern slice addr).depots = s.depots ∧
      (s.report unit cls source pattern slice addr).nv = s.nv := by
  unfold State.report
  rcases s.faultRecord_cases unit cls source pattern slice addr (s.count24 unit cls) with h | ⟨body, held, counts, out, h⟩
  all_goals
    rw [h]
    exact ⟨rfl, rfl, rfl, rfl⟩

@[simp] theorem State.addEvent_besideFaults (s : State) (u : Nat) (k : EventKind) : (s.addEvent u k).besideFaults = s.besideFaults := rfl

@[simp] theorem State.retireEffect_besideFaults (s : State) (u : Nat) : (s.retireEffect u).besideFaults = s.besideFaults := by
  unfold State.retireEffect
  split
  · rfl
  · split <;> rfl

@[simp] theorem State.retireOne_besideFaults (s : State) (u : Nat) (cls : FaultClass) (source pattern : Nat) :
    (s.retireOne u cls source pattern).besideFaults = s.besideFaults := by
  unfold State.retireOne
  split
  · rfl
  · rw [State.retireEffect_besideFaults, State.report_besideFaults]
    rfl

@[simp] theorem State.retireUnit_besideFaults (s : State) (u : Nat) (cls : FaultClass) (source pattern : Nat) :
    (s.retireUnit u cls source pattern).besideFaults = s.besideFaults := by
  fun_cases State.retireUnit <;> simp +zetaDelta

section
variable {s t : State} (h : t.besideFaults = s.besideFaults)
include h

theorem State.stm_of_besideFaults : t.stm.besideFaults = s.stm.besideFaults := congrArg (fun x => x.1.stm) h

theorem State.nv_of_besideFaults : t.nv.besideFaults = s.nv.besideFaults := congrArg (fun x => x.1.nv) h

theorem State.compute_of_besideFaults : SameCompute s t :=
  ⟨congrArg (fun x => x.1.consists) h, congrArg (fun x => x.1.runs) h, congrArg (fun x => x.1.frames) h, congrArg (fun x => x.1.calls) h⟩

theorem State.search_of_besideFaults : SameSearch s t :=
  ⟨congrArg (fun x => x.1.indexes) h, congrArg (fun x => x.1.stores) h, congrArg (fun x => x.1.queries) h,
    congrArg (fun x => x.1.tables) h, congrArg (fun x => x.1.seqs) h⟩

theorem State.rings_of_besideFaults : SameRings s t := ⟨congrArg (fun x => x.1.rings) h, congrArg (fun x => x.1.cmds) h⟩

theorem State.bulk_of_besideFaults (hmoves : t.moves = s.moves) (hdepots : t.depots = s.depots) : SameBulk s t :=
  ⟨⟨congrArg (fun x => x.1.allocs) h, congrArg (fun x => x.1.charges) h, congrArg (fun x => x.1.poison) h, hmoves,
      congrArg (fun x => x.1.pageUnits) h, congrArg (fun x => x.1.zruns) h, congrArg (fun x => x.1.ringMem) h⟩,
    State.compute_of_besideFaults h, State.search_of_besideFaults h,
    ⟨congrArg (fun x => x.1.jobs) h, congrArg (fun x => x.1.fab) h, congrArg (fun x => x.1.ports) h, congrArg (fun x => x.1.timetables) h,
      congrArg (fun x => x.1.policers) h⟩,
    State.rings_of_besideFaults h, hdepots, congrArg (fun x => x.1.owns) h⟩

theorem State.fld_of_besideFaults {f : FieldRef} {i j : Nat} (hother : regOffset f.reg i j ≠ regOffset .stmLogdrop 0 0) :
    t.fld f i j = s.fld f i j := by
  have hreg := congrFun (congrArg Prod.snd h) (regOffset f.reg i j)
  simp only [State.besideFaults, if_neg hother] at hreg
  simp only [State.fld, State.reg, mapGetD, hreg]

end

/-! ### The retirement record (R504) -/

theorem State.retired_of_prefix {s t : State} (h : s.nv.retired <+: t.nv.retired) {u : Nat} (hu : s.retired u = true) :
    t.retired u = true := by
  obtain ⟨es, hes⟩ := h
  rw [State.retired, ← hes, List.any_append, Bool.or_eq_true]
  exact .inl hu

/-- What stands in the record stays in it. -/
theorem State.retired_all_of_prefix {s t : State} (h : s.nv.retired <+: t.nv.retired) : (s.nv.retired.all fun e => t.retired e.unit) = true :=
  List.all_eq_true.mpr fun e he => State.retired_of_prefix h (List.any_eq_true.mpr ⟨e, he, beq_self_eq_true _⟩)

theorem State.retireUnit_keepsRecord (s : State) (u : Nat) (cls : FaultClass) (source pattern : Nat) :
    (s.nv.retired.all fun e => (s.retireUnit u cls source pattern).retired e.unit) = true :=
  State.retired_all_of_prefix (s.retireUnit_keeps u cls source pattern (.refl _)).retired

theorem State.retireUnit_retired (s : State) (u : Nat) (cls : FaultClass) (source pattern : Nat) :
    (s.retireUnit u cls source pattern).retired u = true := by
  have hone := s.retireOne_retired u cls source pattern
  unfold State.retireUnit
  split
  · assumption
  · dsimp only
    split
    · split
      · exact State.retired_of_prefix (State.retireOne_keeps _ _ _ _ _ (.refl _)).retired hone
      · exact hone
    · exact hone

/-! ### Units whose retirement takes effect where they are used (Table 17-4) -/

/-- No page lies on the unit, and no Depot holds it. -/
def unitElsewhere (u : Nat) : Bool := !memoryUnit u && unitType u != 7 && unitType u != 8

/-- Beside its record such a retirement leaves the state alone, where its fault record is none that can be dropped. -/
theorem State.retireUnit_elsewhere {s : State} {u : Nat} (helsewhere : unitElsewhere u = true) {cls : FaultClass}
    (hcls : cls ≠ .corrected ∧ cls ≠ .transient) (source pattern : Nat) :
    (s.retireUnit u cls source pattern).moves = s.moves ∧ (s.retireUnit u cls source pattern).depots = s.depots ∧
      (s.retireUnit u cls source pattern).regs = s.regs := by
  obtain ⟨⟨hmemory, hdie⟩, hchannel⟩ : (memoryUnit u = false ∧ unitType u ≠ 7) ∧ unitType u ≠ 8 := by simpa [unitElsewhere] using helsewhere
  have hparent : parentUnit u = none := if_neg hdie
  have hnone : ∀ t : State, t.retireEffect u = t := fun t => by
    simp [State.retireEffect, hmemory, hdie, hchannel]
  unfold State.retireUnit
  split
  · exact ⟨rfl, rfl, rfl⟩
  · next hin =>
    dsimp only
    rw [hparent]
    unfold State.retireOne
    rw [if_neg hin]
    dsimp only
    rw [hnone]
    obtain ⟨held, counts, out, h⟩ := State.report_effect
      (s := State.saveWindows { s with nv := { s.nv with retired := s.nv.retired ++ [RetireEntry.mk u cls source s.now] } })
      (.inl hcls) u source pattern 0xFF 0
    rw [h]
    exact ⟨rfl, rfl, rfl⟩

end Sys2Proof.Machine
end

