-- ==== Sys2Proof/Proofs/LogEvents.lean ====
section
/-! The events of the log itself (R501, R515, R563 to R565, R573): what each appends, programs, drops or sends again. -/

namespace Sys2Proof.Machine

/-- An entry of a type other than FAULT is appended as it is given. -/
theorem State.appendEntry_of_type {s : State} (hpower : s.phase ≠ phPower) {typ : Nat} (hmin : 2 ≤ typ) (hmax : typ ≤ 11) (body : Bytes) :
    s.appendEntry typ body = s.logAppend typ body := by
  have hknown : ¬ (s.phase = phPower ∨ typ = 0 ∨ 11 < typ) := by rintro (h | h | h); exacts [hpower h, by omega, by omega]
  have hother : typ ≠ ltFault := by unfold ltFault; omega
  rw [State.appendEntry, if_neg hknown, if_neg hother]

theorem logAtOnce_range {typ : Nat} (h : logAtOnce typ = true) : 2 ≤ typ ∧ typ ≤ 11 := by
  have htyp : typ = 2 ∨ typ = 4 ∨ typ = 5 ∨ typ = 6 ∨ typ = 9 := by simpa [logAtOnce] using h
  omega

theorem State.faultRecordRow_of_unit {s : State} {unit source : Nat} {cls : FaultClass} (hunit : unit = 0 ∨ s.unitPresent unit = true)
    (hsource : faultSourceOk source = true) (hcls : cls ≠ .corrected) (pattern slice addr : Nat) :
    s.faultRecordRow unit cls source pattern slice addr = s.report unit cls source (pattern % 2 ^ 16) slice addr :=
  if_pos ⟨hunit, hsource, hcls⟩

/-- With an address of the fault manager and no takeover, a push sends the record's message if there is one. -/
theorem State.faultPush_open {s : State} (hopen : s.stm.takeoverWindow = false) (hset : s.fmSet = true) (r : Bytes) :
    s.faultPush r = { s with mgmtOut := s.mgmtOut ++ (s.faultMessage r).toList } := by
  unfold State.faultPush
  rw [hopen, hset, if_neg Bool.false_ne_true, if_pos rfl]
  split
  · next hsome => rw [hsome]; rfl
  · next hnone => rw [hnone, Option.toList_none, List.append_nil]

theorem State.foldl_faultPush_open {s : State} (hopen : s.stm.takeoverWindow = false) (hset : s.fmSet = true) (rs : List Bytes) :
    rs.foldl (fun (s : State) r => s.faultPush r) s = { s with mgmtOut := s.mgmtOut ++ rs.filterMap s.faultMessage } := by
  induction rs generalizing s with
  | nil => rw [List.filterMap_nil, List.append_nil]; rfl
  | cons r rs ih =>
    rw [List.foldl_cons, State.faultPush_open hopen hset, ih (by exact hopen) (by exact hset)]
    have hsame : State.faultMessage { s with mgmtOut := s.mgmtOut ++ (s.faultMessage r).toList } = s.faultMessage := rfl
    rw [hsame]
    cases hr : s.faultMessage r with
    | none => simp [hr]
    | some m => simp [hr]

/-- Settles O33: each event's next state is that of its lemma about the log or the fault records. -/
theorem logEntriesAreFormedProgrammedAndResent : Obligations.LogEntriesAreFormedProgrammedAndResent := by
  intro s
  refine ⟨?atOnce, ?waits, ?record, ?drop, ?summary, ?program, ?overflow, ?resend, ?windows⟩
  case atOnce =>
    intro typ body hpower htyp
    obtain ⟨hmin, hmax⟩ := logAtOnce_range htyp
    have hstep := (State.appendEntry_of_type hpower hmin hmax body).trans (s.logAppend_of_atOnce htyp body)
    have hlast : mapGet (s.queueEntry typ body).programLog.nv.log (s.nextEntry typ body).seq = some (s.nextEntry typ body).bytes :=
      State.programLog_last (l := s.stm.logPending) rfl
    refine completes_of_next (congrArg Host.Outcome.next hstep) ⟨hlast, ?_⟩
    rw [State.programLog_eq]
    exact ⟨rfl, rfl, rfl, rfl, rfl, .of_control rfl⟩
  case waits =>
    intro typ body hpower hmin hmax htyp
    have hstep := (State.appendEntry_of_type hpower hmin hmax body).trans (s.logAppend_of_waits htyp body)
    exact completes_of_next (congrArg Host.Outcome.next hstep) ⟨rfl, rfl, rfl⟩
  case record =>
    intro unit cls source pattern slice addr hunit hsource hcls hkept
    have hroom : cls ≠ .corrected ∧ cls ≠ .transient ∨ s.logFull = false := hkept.imp_left fun h => ⟨hcls, h⟩
    obtain ⟨held, counts, out, hreport⟩ := State.report_effect hroom unit source (pattern % 2 ^ 16) slice addr
    have hstep := (State.faultRecordRow_of_unit hunit hsource hcls pattern slice addr).trans hreport
    exact completes_of_next (congrArg Host.Outcome.next hstep) ⟨rfl, rfl, rfl, rfl, rfl, .of_control rfl⟩
  case drop =>
    rintro unit cls source pattern slice addr hunit hsource rfl hfull
    have hdropped : s.report unit .transient source (pattern % 2 ^ 16) slice addr = s.logDrop :=
      State.faultRecord_dropped hfull (.inr rfl) _ _ _ _ _ _
    have hstep := (State.faultRecordRow_of_unit (cls := .transient) hunit hsource nofun pattern slice addr).trans hdropped
    have hcount := (State.fld_congr _ s.logDrop STM_LOGDROP_COUNT 0 0 rfl).trans (s.fld_count STM_LOGDROP_COUNT 1 0 0 (by decide))
    exact completes_of_next (congrArg Host.Outcome.next hstep) ⟨hcount, rfl, rfl, .of_control rfl⟩
  case summary =>
    intro unit count hunit hcount hroom
    obtain ⟨held, counts, out, hrecord⟩ := State.faultRecord_effect (cls := .corrected) (.inr hroom) unit (correctedSource unit) 0 0xFF 0
      (count % 2 ^ 32)
    have hdue : (s.unitPresent unit && decide (0 < count)) = true := by simp [hunit, hcount]
    have hstep : s.correctedSummary unit count = _ := (if_pos hdue).trans hrecord
    exact completes_of_next (congrArg Host.Outcome.next hstep) ⟨rfl, rfl, rfl, rfl, .of_control rfl⟩
  case program =>
    intro e hpower hone
    have hstep : s.logProgram = s.programLog := if_neg hpower
    have hlast := State.programLog_last (s := s) (l := []) hone
    refine completes_of_next (congrArg Host.Outcome.next hstep) ⟨?_, hlast, ?_⟩
    all_goals rw [State.programLog_eq]
    exact ⟨rfl, rfl, rfl, .of_control rfl⟩
  case overflow =>
    intro hdropped
    have hstep : s.logOverflow = { s.queueEntry ltOverflow (leBytes 8 s.stm.logDropped) with
        stm := { (s.queueEntry ltOverflow (leBytes 8 s.stm.logDropped)).stm with logDropped := 0 } } := if_neg hdropped
    exact completes_of_next (congrArg Host.Outcome.next hstep) ⟨rfl, rfl, rfl, rfl⟩
  case resend =>
    intro hup hopen hset
    have hserved : (s.mgmtUp && !s.stm.takeoverWindow) = true := by simp [hup, hopen]
    exact congrArg Host.Outcome.next ((if_pos hserved).trans (State.foldl_faultPush_open hopen hset _))
  case windows =>
    intro hpower hopen
    have hsaved : ¬ (s.phase = phPower ∨ s.stm.takeoverWindow = true) := by simp [hpower, hopen]
    exact congrArg Host.Outcome.next (if_neg hsaved)

end Sys2Proof.Machine
end

