-- ==== Sys2Proof/Proofs/StandbyTakeover.lean ====
section
/-! The standby Stationmaster (R503, R524, R557): the mirror, the handing over of the active role, the missed heartbeats and the watchdog. -/

namespace Sys2Proof.Machine

/-! ### Which Stationmaster runs -/

@[simp] theorem State.isUp_setUp (s : State) (d : Nat) (up : Bool) : (s.setUp d up).isUp d = up := by
  unfold State.isUp State.setUp
  split <;> rfl

theorem State.isUp_of_besideFaults {s t : State} (h : t.stm.besideFaults = s.stm.besideFaults) (d : Nat) : t.isUp d = s.isUp d := by
  have hjd0 : t.stm.jd0Up = s.stm.jd0Up := (congrArg Stationmaster.jd0Up h :)
  have hjd1 : t.stm.jd1Up = s.stm.jd1Up := (congrArg Stationmaster.jd1Up h :)
  rw [State.isUp, State.isUp, hjd0, hjd1]

theorem State.setUp_stm (s : State) (d : Nat) (up : Bool) : ∃ stm, s.setUp d up = { s with stm := stm } ∧
    stm.takeoverWindow = s.stm.takeoverWindow ∧ stm.watchdogs = s.stm.watchdogs := by
  unfold State.setUp
  split <;> exact ⟨_, rfl, rfl, rfl⟩

/-- A Stationmaster holds no page and no NAND unit. -/
theorem unitElsewhere_stationmaster {d : Nat} (hd : d < 2) : unitElsewhere (unitId 13 d) = true := by
  interval_cases d <;> decide

/-! ### The active role passes (R524, R557) -/

/-- A mirror that has just been taken gives back what stands. -/
theorem State.fromMirror_mirrorNow (s : State) : s.mirrorNow.fromMirror = s.mirrorNow := rfl

/-- ACTIVE names the standby's die, no standby is left, and the slot that runs stays named. -/
theorem State.swapActive_effect (s : State) :
    (∃ regs, s.swapActive = { s with stm := { s.stm with mirror := some s.mirrorOf }, regs := regs }) ∧
      s.swapActive.fld STM_STATE_ACTIVE = s.standbyDie % 2 ∧ s.swapActive.fld STM_STATE_STANDBY = 0 ∧
      s.swapActive.fld STM_STATE_SLOT = s.fld STM_STATE_SLOT := by
  have hswap : s.swapActive =
      ((s.mirrorNow.setFld STM_STATE_ACTIVE s.standbyDie).setFld FLT_TAKEOVER_ACTIVE s.standbyDie).setFld STM_STATE_STANDBY 0 := by
    unfold State.swapActive
    rw [State.fromMirror_mirrorNow]
  rw [hswap]
  refine ⟨⟨_, rfl⟩, ?_, State.fld_setFld_same _ STM_STATE_STANDBY 0 0 0 (by decide), ?_⟩
  · rw [State.fld_setFld_field _ STM_STATE_STANDBY STM_STATE_ACTIVE 0 0 0 rfl (by decide) (by decide),
      State.fld_setFld_reg _ FLT_TAKEOVER_ACTIVE STM_STATE_ACTIVE _ 0 0 0 0 (by decide)]
    exact State.fld_setFld_same _ STM_STATE_ACTIVE _ 0 0 (by decide)
  · rw [State.fld_setFld_field _ STM_STATE_STANDBY STM_STATE_SLOT 0 0 0 rfl (by decide) (by decide),
      State.fld_setFld_reg _ FLT_TAKEOVER_ACTIVE STM_STATE_SLOT _ 0 0 0 0 (by decide),
      State.fld_setFld_field _ STM_STATE_ACTIVE STM_STATE_SLOT _ 0 0 rfl (by decide) (by decide)]
    rfl

/-- Outside a takeover a push changes the messages alone. -/
theorem State.faultPush_sends {s : State} (hopen : s.stm.takeoverWindow = false) (r : Bytes) : ∃ out, s.faultPush r = { s with mgmtOut := out } := by
  unfold State.faultPush
  rw [hopen, if_neg Bool.false_ne_true]
  split
  · split <;> exact ⟨_, rfl⟩
  · exact ⟨_, rfl⟩

theorem State.foldl_faultPush_sends {s : State} (hopen : s.stm.takeoverWindow = false) (rs : List Bytes) :
    ∃ out, rs.foldl (fun (s : State) r => s.faultPush r) s = { s with mgmtOut := out } := by
  refine List.foldlRecOn (motive := fun t : State => ∃ out, t = { s with mgmtOut := out }) rs _ ⟨s.mgmtOut, rfl⟩ ?_
  rintro _ ⟨out, rfl⟩ r -
  exact State.faultPush_sends (s := { s with mgmtOut := out }) hopen r

/-- The takeover is over: the role has passed and is counted, and no record is held back. -/
def State.takenOver (s : State) : State :=
  { s.swapActive with nv := { s.nv with takeovers := min (s.nv.takeovers + 1) 0xFFFF },
                      stm := { s.swapActive.stm with takeoverWindow := false, heldRecords := [] } }

theorem State.takeover_of_window {s : State} (hwindow : s.stm.takeoverWindow = true) :
    ∃ out, s.takeover = { s.takenOver with mgmtOut := out } := by
  obtain ⟨⟨regs, hswap⟩, -⟩ := s.swapActive_effect
  have hnv : s.swapActive.nv = s.nv := by rw [hswap]
  have htakeover : s.takeover = s.swapActive.stm.heldRecords.foldl (fun (s : State) r => s.faultPush r) s.takenOver := by
    unfold State.takeover State.takenOver
    rw [if_neg (by simp [hwindow])]
    dsimp only
    rw [hnv]
  rw [htakeover]
  exact State.foldl_faultPush_sends rfl _

/-! ### Missed heartbeats (R503, R524) -/

/-- The active Stationmaster is down, and the window is open exactly if the standby is ready. -/
def State.activeMissed (s : State) : State :=
  { s.setUp (s.fld STM_STATE_ACTIVE) false with
    stm := { (s.setUp (s.fld STM_STATE_ACTIVE) false).stm with takeoverWindow := s.standbyReady } }

theorem State.standbyHeartbeatMiss_due {s : State} {missed : Nat} {imageFailed : Bool} (hpower : s.phase ≠ phPower)
    (hopen : s.stm.takeoverWindow = false) (hup : s.activeUp = true) (hdue : 10 ≤ missed ∨ imageFailed = true) :
    s.standbyHeartbeatMiss missed imageFailed =
      if imageFailed then s.activeMissed.retireUnit (unitId 13 (s.fld STM_STATE_ACTIVE)) .permanent 11 else s.activeMissed := by
  have hserved : ¬ (s.phase = phPower ∨ s.stm.takeoverWindow = true ∨ (missed < 10 ∧ imageFailed = false) ∨ s.activeUp = false) := by
    rintro (h | h | ⟨h, himage⟩ | h)
    · exact hpower h
    · exact absurd (hopen.symm.trans h) nofun
    · rcases hdue with hmissed | hfailed
      · omega
      · exact absurd (himage.symm.trans hfailed) nofun
    · exact absurd (hup.symm.trans h) nofun
  obtain ⟨stm, hset, hwindow, -⟩ := s.setUp_stm (s.fld STM_STATE_ACTIVE) false
  have hready : (s.setUp (s.fld STM_STATE_ACTIVE) false).standbyReady = s.standbyReady := by rw [hset]; rfl
  have hmissed : (if (s.setUp (s.fld STM_STATE_ACTIVE) false).standbyReady then
        { s.setUp (s.fld STM_STATE_ACTIVE) false with stm := { (s.setUp (s.fld STM_STATE_ACTIVE) false).stm with takeoverWindow := true } }
      else s.setUp (s.fld STM_STATE_ACTIVE) false) = s.activeMissed := by
    rw [hready]
    unfold State.activeMissed
    rw [hset]
    split
    · next h => rw [h]
    · next h =>
      have hsame : stm.takeoverWindow = s.standbyReady := by rw [hwindow, hopen, Bool.eq_false_of_not_eq_true h]
      rw [← hsame]
  unfold State.standbyHeartbeatMiss
  rw [if_neg hserved]
  dsimp only
  rw [hmissed]

theorem State.activeMissed_effect (s : State) : ∃ stm, s.activeMissed = { s with stm := stm } ∧ stm.takeoverWindow = s.standbyReady ∧
    s.activeMissed.isUp (s.fld STM_STATE_ACTIVE) = false := by
  obtain ⟨stm, hset, -⟩ := s.setUp_stm (s.fld STM_STATE_ACTIVE) false
  have hdown := s.isUp_setUp (s.fld STM_STATE_ACTIVE) false
  unfold State.activeMissed
  rw [hset] at hdown ⊢
  exact ⟨_, rfl, rfl, hdown⟩

/-! ### The watchdog (R503) -/

/-- One more expiry of a Stationmaster's watchdog. -/
def State.watchdogCounted (s : State) (d dt : Nat) : State :=
  { s.tick dt with stm := { s.stm with watchdogs := mapSet s.stm.watchdogs d (mapGetD s.stm.watchdogs d 0 + 1) } }

/-- A retired Stationmaster is down: the standby is gone, or takes over if it is ready. -/
def State.stationmasterLost (s : State) (d : Nat) : State :=
  if d ≠ s.fld STM_STATE_ACTIVE then (s.setUp d false).setFld STM_STATE_STANDBY 0
  else if s.standbyReady then { s.setUp d false with stm := { (s.setUp d false).stm with takeoverWindow := true } }
  else s.setUp d false

/-- A Stationmaster that the expiry leaves in service returns as a standby that syncs. -/
def State.stationmasterBack (s : State) (d : Nat) : State :=
  if d ≠ s.fld STM_STATE_ACTIVE ∧ s.fld STM_STATE_STANDBY ≠ 1 ∧ (d = 0 ∨ s.nv.dkWrap = true) ∧ s.stm.act.stage = .idle then
    (s.setUp d true).setFld STM_STATE_STANDBY 1
  else s

theorem State.stationmasterLost_effect (s : State) (d : Nat) :
    ∃ regs stm, s.stationmasterLost d = { s with regs := regs, stm := stm } ∧ (s.stationmasterLost d).isUp d = false := by
  obtain ⟨stm, hset, -⟩ := s.setUp_stm d false
  have hdown := s.isUp_setUp d false
  unfold State.stationmasterLost
  rw [hset] at hdown ⊢
  split
  · exact ⟨_, _, rfl, hdown⟩
  · split
    · exact ⟨_, _, rfl, hdown⟩
    · exact ⟨_, _, rfl, hdown⟩

theorem State.stationmasterBack_effect {s : State} {d : Nat} (hactive : d ≠ s.fld STM_STATE_ACTIVE) (hstandby : s.fld STM_STATE_STANDBY ≠ 1)
    (hkey : d = 0 ∨ s.nv.dkWrap = true) (hidle : s.stm.act.stage = .idle) :
    ∃ regs stm, s.stationmasterBack d = { s with regs := regs, stm := stm } ∧ stm.watchdogs = s.stm.watchdogs ∧
      (s.stationmasterBack d).isUp d = true ∧ (s.stationmasterBack d).fld STM_STATE_STANDBY = 1 := by
  obtain ⟨stm, hset, -, hdogs⟩ := s.setUp_stm d true
  have hup := s.isUp_setUp d true
  have hback : s.stationmasterBack d = (s.setUp d true).setFld STM_STATE_STANDBY 1 := if_pos ⟨hactive, hstandby, hkey, hidle⟩
  rw [hback]
  rw [hset] at hup ⊢
  exact ⟨_, _, rfl, hdogs, hup, State.fld_setFld_same _ STM_STATE_STANDBY 1 0 0 (by decide)⟩

theorem State.watchdogExpiry_eq {s : State} {d : Nat} (hpower : s.phase ≠ phPower) (hd : d ≤ 1) (hin : s.retired (unitId 13 d) = false)
    (dt : Nat) {t : State}
    (ht : t = if 3 ≤ mapGetD s.stm.watchdogs d 0 + 1 then (s.watchdogCounted d dt).retireUnit (unitId 13 d) .permanent 11
      else (s.watchdogCounted d dt).transient (unitId 13 d) 11) :
    s.stationmasterWatchdogExpiry d dt = if t.retired (unitId 13 d) then t.stationmasterLost d else t.stationmasterBack d := by
  have hserved : ¬ ((s.tick dt).phase = phPower ∨ 1 < d ∨ (s.tick dt).retired (unitId 13 d) = true) := by
    rintro (h | h | h)
    · exact hpower h
    · omega
    · exact absurd (hin.symm.trans h) nofun
  obtain ⟨stm, hset, -⟩ := t.setUp_stm d false
  have hfld : ∀ f, (t.setUp d false).fld f = t.fld f := by rw [hset]; exact fun f => rfl
  have hready : (t.setUp d false).standbyReady = t.standbyReady := by rw [hset]; rfl
  unfold State.stationmasterLost
  rw [← hfld, ← hready, ht]
  exact if_neg hserved

/-- A TRANSIENT event that its unit's window tolerates is recorded, and nothing is retired. -/
theorem State.transient_tolerated {s : State} {u : Nat} (h : (s.addEvent u .transient).windowCount u .transient ≤ tolerated u)
    (source slice addr : Nat) : s.transient u source slice addr = (s.addEvent u .transient).report u .transient source 0 slice addr := by
  obtain ⟨hwindows, -⟩ := (s.addEvent u .transient).report_keeps u .transient source 0 slice addr
  have hclock : ((s.addEvent u .transient).report u .transient source 0 slice addr).clock = s.clock := by
    rw [State.report_eq]
    rfl
  have hcount : ((s.addEvent u .transient).report u .transient source 0 slice addr).windowCount u .transient =
      (s.addEvent u .transient).windowCount u .transient := by
    simp only [State.windowCount, State.window, hwindows, hclock]
    rfl
  unfold State.transient
  dsimp only
  rw [hcount, if_neg (Nat.not_lt.mpr h)]

/-- Settles O34: the states of the mirror, the takeover and the watchdog, as their lemmas give them. -/
theorem theStandbyFollowsAndTakesOver : Obligations.TheStandbyFollowsAndTakesOver := by
  intro s
  refine ⟨?mirror, ?sync, ?miss, ?takeover, ?recovers, ?third⟩
  case mirror => exact fun hstandby => congrArg Host.Outcome.next (if_neg hstandby)
  case sync =>
    intro hsyncs hup
    have hstep : s.standbySyncDone = s.mirrorNow.setFld STM_STATE_STANDBY 2 := if_pos ⟨hsyncs, hup⟩
    exact completes_of_next (congrArg Host.Outcome.next hstep)
      ⟨State.fld_setFld_same _ STM_STATE_STANDBY 2 0 0 (by decide), rfl, rfl, .of_control rfl⟩
  case miss =>
    intro missed imageFailed hpower hopen hup hdue
    have hstep := State.standbyHeartbeatMiss_due hpower hopen hup hdue
    obtain ⟨stm, hmissed, hwindow, hdown⟩ := s.activeMissed_effect
    have hbulk : SameBulk s s.activeMissed := by rw [hmissed]; exact .of_control rfl
    have hnv : s.activeMissed.nv = s.nv := by rw [hmissed]
    have hregs : s.activeMissed.regs = s.regs := by rw [hmissed]
    have hopened : s.activeMissed.stm.takeoverWindow = s.standbyReady := by rw [hmissed]; exact hwindow
    cases imageFailed with
    | false =>
      exact completes_of_next (congrArg Host.Outcome.next hstep)
        ⟨hdown, hopened, nofun, fun _ => hnv, hregs, State.retired_all_of_prefix (hnv ▸ List.prefix_rfl), hbulk⟩
    | true =>
      have hplain := State.retireUnit_elsewhere (s := s.activeMissed) (cls := .permanent)
        (unitElsewhere_stationmaster (s.fld_lt STM_STATE_ACTIVE 0 0)) ⟨nofun, nofun⟩ 11 0
      obtain ⟨hmoves, hdepots, hregs'⟩ := hplain
      have hsame := s.activeMissed.retireUnit_besideFaults (unitId 13 (s.fld STM_STATE_ACTIVE)) .permanent 11 0
      have hstm := State.stm_of_besideFaults hsame
      have hrecord := s.activeMissed.retireUnit_keepsRecord (unitId 13 (s.fld STM_STATE_ACTIVE)) .permanent 11 0
      rw [hnv] at hrecord
      exact completes_of_next (congrArg Host.Outcome.next hstep)
        ⟨(State.isUp_of_besideFaults hstm _).trans hdown, (congrArg Stationmaster.takeoverWindow hstm :).trans hopened,
          fun _ => State.retireUnit_retired _ _ _ _ _, nofun, hregs'.trans hregs, hrecord,
          hbulk.trans (State.bulk_of_besideFaults hsame hmoves hdepots)⟩
  case takeover =>
    intro hwindow
    obtain ⟨out, hstep⟩ := State.takeover_of_window hwindow
    obtain ⟨⟨regs, hswap⟩, hactive, hstandby, -⟩ := s.swapActive_effect
    refine completes_of_next (congrArg Host.Outcome.next hstep) ⟨hactive, hstandby, rfl, rfl, rfl, ?_⟩
    rw [State.takenOver, hswap]
    exact .of_control rfl
  case recovers =>
    intro d dt hpower hd hin hearly hactive hstandby hkey hidle hevents
    have htolerated : tolerated (unitId 13 d) = 2 := by interval_cases d <;> rfl
    have hevent := State.transient_tolerated (s := s.watchdogCounted d dt) (u := unitId 13 d) (by rw [htolerated]; exact hevents) 11 0xFF 0
    obtain ⟨-, hmoves, hdepots, hnv⟩ := ((s.watchdogCounted d dt).addEvent (unitId 13 d) .transient).report_keeps (unitId 13 d) .transient
      11 0 0xFF 0
    have hsame := ((s.watchdogCounted d dt).addEvent (unitId 13 d) .transient).report_besideFaults (unitId 13 d) .transient 11 0 0xFF 0
    have hstep := State.watchdogExpiry_eq hpower hd hin dt (if_neg (Nat.not_le.mpr hearly)).symm
    rw [hevent] at hstep
    have hbulk : SameBulk s _ := .trans (.of_control rfl) (State.bulk_of_besideFaults hsame hmoves hdepots)
    have hstm := State.stm_of_besideFaults hsame
    have hdie := State.fld_of_besideFaults hsame (f := STM_STATE_ACTIVE) (i := 0) (j := 0) (by decide)
    have hstate := State.fld_of_besideFaults hsame (f := STM_STATE_STANDBY) (i := 0) (j := 0) (by decide)
    generalize ((s.watchdogCounted d dt).addEvent (unitId 13 d) .transient).report (unitId 13 d) .transient 11 0 0xFF 0 = v at *
    have hkeeps : v.retired (unitId 13 d) = false := by rw [State.retired, hnv]; exact hin
    have hact : v.stm.act = s.stm.act := (congrArg Stationmaster.act hstm :)
    have hcount : v.stm.watchdogs = (s.watchdogCounted d dt).stm.watchdogs := (congrArg Stationmaster.watchdogs hstm :)
    obtain ⟨regs, stm, hback, hdogs, hup, hsyncs⟩ := State.stationmasterBack_effect (s := v) (d := d) (hdie ▸ hactive) (hstate ▸ hstandby)
      (hnv ▸ hkey) (hact ▸ hidle)
    rw [hkeeps, if_neg Bool.false_ne_true] at hstep
    refine completes_of_next (congrArg Host.Outcome.next hstep) ⟨hup, hsyncs, ?_⟩
    rw [hback]
    refine ⟨?_, congrArg MgmtFlash.retired hnv, hbulk.trans (.of_control rfl)⟩
    dsimp only
    rw [hdogs, hcount, mapGetD, State.watchdogCounted, mapGet_mapSet_same]
    rfl
  case third =>
    intro d dt hpower hd hin hthird
    have hstep := State.watchdogExpiry_eq hpower hd hin dt (if_pos hthird).symm
    rw [if_pos (State.retireUnit_retired _ _ _ _ _)] at hstep
    have hretired := (s.watchdogCounted d dt).retireUnit_retired (unitId 13 d) .permanent 11 0
    have hrecord := (s.watchdogCounted d dt).retireUnit_keepsRecord (unitId 13 d) .permanent 11 0
    have hsame := (s.watchdogCounted d dt).retireUnit_besideFaults (unitId 13 d) .permanent 11 0
    obtain ⟨hmoves, hdepots, -⟩ := State.retireUnit_elsewhere (s := s.watchdogCounted d dt) (cls := .permanent)
      (unitElsewhere_stationmaster (Nat.lt_succ_of_le hd)) ⟨nofun, nofun⟩ 11 0
    have hbulk : SameBulk s _ := .trans (.of_control rfl) (State.bulk_of_besideFaults hsame hmoves hdepots)
    generalize (s.watchdogCounted d dt).retireUnit (unitId 13 d) .permanent 11 = u at *
    obtain ⟨regs, stm, hlost, hdown⟩ := u.stationmasterLost_effect d
    refine completes_of_next (congrArg Host.Outcome.next hstep) ⟨?_, hdown, ?_⟩
    all_goals rw [hlost]
    · exact hretired
    · exact ⟨hrecord, hbulk.trans (.of_control rfl)⟩

end Sys2Proof.Machine
end

