-- ==== Sys2Proof/Proofs/CanaryShadow.lean ====
section
/-! Canaries and shadow passes (R511 to R513): what a CHECK event of a frame reaches, and how a disagreement is settled. -/

namespace Sys2Proof.Machine

/-! ### CHECK events and quarantine (R514) -/

/-- The parts of the state that no CHECK event of a frame reaches: those no fault reaches, beside runs, frames, and what the Stationmaster
keeps of cells. -/
def State.besideChecks (s : State) : State × (Nat → Option Word) :=
  ({ s.besideFaults.1 with
      runs := [], frames := [], stm := { s.besideFaults.1.stm with pendingFrames := [], cells := [], lastChecks := [] } }, s.besideFaults.2)

theorem State.besideChecks_of_besideFaults {s t : State} (h : t.besideFaults = s.besideFaults) : t.besideChecks = s.besideChecks := by
  unfold State.besideChecks
  rw [h]

/-- A frame that halts for its peer counts no cause and sets no register (R289). -/
theorem State.endFrame_peer (s : State) (f slot code addr : Nat) :
    ∃ runs frames, s.endFrame f slot fcHALTPEER code addr = { s with runs := runs, frames := frames } := by
  unfold State.endFrame
  split
  · exact ⟨_, _, rfl⟩
  · split
    · exact ⟨_, _, rfl⟩
    · exact ⟨_, _, rfl⟩

theorem State.faultFrame_peer (s : State) (f slot addr : Nat) :
    ∃ runs frames, s.faultFrame f slot fcHALTPEER addr = { s with runs := runs, frames := frames } := by
  unfold State.faultFrame
  split
  · exact ⟨_, _, rfl⟩
  · obtain ⟨runs, frames, h⟩ := s.endFrame_peer f slot 0 addr
    rw [h]
    exact ⟨_, _, rfl⟩

/-- A quarantine retires the frame; beside that it changes what waits to retire, runs and frames. -/
theorem State.quarantine_effect (s : State) (f source pattern : Nat) :
    ∃ pending runs frames, s.quarantine f source pattern =
      { s.retireUnit (unitId 1 f) .quarantine source pattern with
        stm := { (s.retireUnit (unitId 1 f) .quarantine source pattern).stm with pendingFrames := pending },
        runs := runs, frames := frames } := by
  unfold State.quarantine
  dsimp only
  split
  · exact ⟨_, _, _, rfl⟩
  · obtain ⟨runs, frames, h⟩ := State.faultFrame_peer _ f 0xFF 0
    rw [h]
    exact ⟨_, _, _, rfl⟩

theorem State.quarantine_unclaimed {s : State} {f : Nat} (hfree : s.frame f = none) (source pattern : Nat) :
    (s.quarantine f source pattern).runs = s.runs := by
  have hsame := s.retireUnit_besideFaults (unitId 1 f) .quarantine source pattern
  obtain ⟨-, hruns, hframes, -⟩ := State.compute_of_besideFaults hsame
  have hnone : mapGet (s.retireUnit (unitId 1 f) .quarantine source pattern).frames f = none := by rw [hframes]; exact hfree
  unfold State.quarantine
  simp only [State.frame, hnone]
  exact hruns

@[simp] theorem State.quarantine_besideChecks (s : State) (f source pattern : Nat) :
    (s.quarantine f source pattern).besideChecks = s.besideChecks := by
  obtain ⟨pending, runs, frames, h⟩ := s.quarantine_effect f source pattern
  have hretired := State.besideChecks_of_besideFaults (s.retireUnit_besideFaults (unitId 1 f) .quarantine source pattern)
  rw [h]
  exact hretired

/-- The event enters its frame's cells. -/
def State.cellEntered (s : State) (f pattern : Nat) : State :=
  { s with stm := { s.stm with
      cells := mapSet s.stm.cells f (s.cellEvents f ++ [⟨tempBin (s.unitTemp (unitId 1 f)), pattern / 4096 % 16, s.clock.mono⟩]),
      lastChecks := mapSet s.stm.lastChecks f ⟨pattern, s.unitTemp (unitId 1 f), s.fld PWR_RAIL_MV (f / 96)⟩ } }

theorem State.checkEvent_eq (s : State) (f source pattern slice : Nat) {t : State}
    (ht : t = (s.cellEntered f pattern).report (unitId 1 f) .check source pattern slice) :
    s.checkEvent f source pattern slice = if t.cellsBad f then t.quarantine f source pattern else t := by
  rw [ht]
  rfl

@[simp] theorem State.checkEvent_besideChecks (s : State) (f source pattern slice : Nat) :
    (s.checkEvent f source pattern slice).besideChecks = s.besideChecks := by
  have hentered : (s.cellEntered f pattern).besideChecks = s.besideChecks := rfl
  have hreport := State.besideChecks_of_besideFaults ((s.cellEntered f pattern).report_besideFaults (unitId 1 f) .check source pattern slice 0)
  rw [hentered] at hreport
  rw [State.checkEvent_eq _ _ _ _ _ rfl]
  split
  · rw [State.quarantine_besideChecks, hreport]
  · exact hreport

theorem State.checkEvent_unclaimed {s : State} {f : Nat} (hfree : s.frame f = none) (source pattern slice : Nat) :
    (s.checkEvent f source pattern slice).runs = s.runs := by
  have hsame := (s.cellEntered f pattern).report_besideFaults (unitId 1 f) .check source pattern slice 0
  obtain ⟨-, hruns, hframes, -⟩ := State.compute_of_besideFaults hsame
  rw [State.checkEvent_eq _ _ _ _ _ rfl]
  split
  · refine (State.quarantine_unclaimed ?_ source pattern).trans hruns
    rw [State.frame, hframes]
    exact hfree
  · exact hruns

section
variable {s t : State} (h : t.besideChecks = s.besideChecks)
include h

theorem State.canaries_of_besideChecks : t.stm.canaries = s.stm.canaries ∧ t.stm.canPasses = s.stm.canPasses :=
  ⟨congrArg (fun x => x.1.stm.canaries) h, congrArg (fun x => x.1.stm.canPasses) h⟩

theorem State.engines_of_besideChecks : t.rings = s.rings ∧ t.indexes = s.indexes :=
  ⟨congrArg (fun x => x.1.rings) h, congrArg (fun x => x.1.indexes) h⟩

theorem State.fld_of_besideChecks {f : FieldRef} {i j : Nat} (hother : regOffset f.reg i j ≠ regOffset .stmLogdrop 0 0) :
    t.fld f i j = s.fld f i j := by
  have hreg := congrFun (congrArg Prod.snd h) (regOffset f.reg i j)
  simp only [State.besideChecks, State.besideFaults, if_neg hother] at hreg
  simp only [State.fld, State.reg, mapGetD, hreg]

end

/-! ### Canaries (R513) -/

/-- A canary that passes is counted in RUN; a frame's pass is noted. -/
theorem State.canaryEnd_pass (s : State) (u c pattern : Nat) : ∃ stm, s.canaryEnd u c pattern true = { s.count FLT_CANARY_RUN with stm := stm } ∧
    stm.canaries = s.stm.canaries ∧ stm.canPasses =
      s.stm.canPasses ++ (if unitType u = 1 then [(unitIndex u, tempBin (s.unitTemp u), c, s.clock.mono)] else []) := by
  unfold State.canaryEnd
  dsimp only
  rw [if_pos rfl]
  split
  · exact ⟨_, rfl, rfl, rfl⟩
  · exact ⟨_, rfl, rfl, (List.append_nil _).symm⟩

/-- The counters after a canary that fails. -/
def State.canaryFailed (s : State) : State := (s.count FLT_CANARY_RUN).count FLT_CANARY_FAILED

theorem State.canaryFailed_fld (s : State) :
    s.canaryFailed.fld FLT_CANARY_RUN = countUp FLT_CANARY_RUN (s.fld FLT_CANARY_RUN) 1 ∧
      s.canaryFailed.fld FLT_CANARY_FAILED = countUp FLT_CANARY_FAILED (s.fld FLT_CANARY_FAILED) 1 := by
  unfold State.canaryFailed
  constructor
  · exact (State.fld_setFld_field _ FLT_CANARY_FAILED FLT_CANARY_RUN _ 0 0 rfl (by decide) (by decide)).trans
      (s.fld_count FLT_CANARY_RUN 1 0 0 (by decide))
  · have hfield : (s.count FLT_CANARY_RUN).fld FLT_CANARY_FAILED = s.fld FLT_CANARY_FAILED :=
      s.fld_setFld_field FLT_CANARY_RUN FLT_CANARY_FAILED _ 0 0 rfl (by decide) (by decide)
    rw [State.fld_count _ _ _ _ _ (by decide), hfield]

/-- A canary that fails is counted and is a CHECK event. -/
theorem State.canaryEnd_fail (s : State) (u c pattern : Nat) : (s.canaryEnd u c pattern false).besideChecks = s.canaryFailed.besideChecks := by
  simp only [State.canaryEnd, Bool.false_eq_true, if_false, ← State.canaryFailed.eq_1]
  split
  · exact State.checkEvent_besideChecks _ _ _ _ _
  · exact State.besideChecks_of_besideFaults (State.report_besideFaults _ _ _ _ _ _ _)

theorem State.canaryComplete_of_canary {s : State} {u : Nat} {c : Canary} (hc : s.canaryOn u = some c) (digest stored : BitVec 128) :
    s.canaryComplete u digest stored = (s.canaryOff u).canaryEnd u c.cls (c.cls * 4096 + c.number) (digest == stored) := by
  simp only [State.canaryComplete, hc]

/-! ### Shadow passes (R511, R512) -/

@[simp] theorem State.run_setRun (s : State) (id : Nat) (r : Run) : (s.setRun id r).run id = some r := mapGet_mapSet_same _ _ _

/-- A result that is wrong marks its run; its frames may halt, but none is claimed by it. -/
theorem State.wrongResult_effect {s : State} {id : Nat} {r : Run} (hr : s.run id = some r) :
    ∃ m frames, s.wrongResult id = { s.setRun id { r with wrong := true, mismatch := m } with frames := frames } ∧
      ∀ f, s.frame f = none → mapGet frames f = none := by
  unfold State.wrongResult
  simp only [hr]
  split
  · refine ⟨_, _, rfl, fun f hf => ?_⟩
    have hget : mapGet s.frames f = none := hf
    rw [mapGet_mapMap]
    simp only [State.setRun_frames, hget, Option.map_none]
  · exact ⟨_, _, rfl, fun f hf => hf⟩

section
variable {s : State} {id origin shadow third cls : Nat} {r : Run} (hr : s.run id = some r)
  (hwaits : r.shadows.contains (origin, shadow, cls) = true) (hthird : s.thirdOk r.slice origin shadow third true = true)
include hr hwaits hthird

/-- The third computation agrees with the origin: the shadow frame's CHECK event. -/
theorem State.shadowThird_origin : s.shadowThirdCompute id origin shadow third true false cls =
    (s.setRun id { r with shadows := r.shadows.erase (origin, shadow, cls) }).checkEvent shadow 3 (shadowPattern cls) r.slice := by
  simp only [State.shadowThirdCompute, hr, hwaits, Bool.or_false, hthird]
  rfl

/-- It agrees with the shadow: the run's result is wrong, and the origin has the CHECK event. -/
theorem State.shadowThird_shadow : s.shadowThirdCompute id origin shadow third false true cls =
    ((s.setRun id { r with shadows := r.shadows.erase (origin, shadow, cls) }).wrongResult id).checkEvent origin 3 (shadowPattern cls)
      r.slice := by
  simp only [State.shadowThirdCompute, hr, hwaits, Bool.or_true, hthird]
  rfl

end

theorem State.fld_setRun (s : State) (id : Nat) (r : Run) (f : FieldRef) : (s.setRun id r).fld f = s.fld f := rfl

/-- A comparison is counted; it does not count as a disagreement. -/
theorem State.shadowCompared_fld (s : State) :
    (s.count FLT_SHADOW_COMPARED).fld FLT_SHADOW_COMPARED = countUp FLT_SHADOW_COMPARED (s.fld FLT_SHADOW_COMPARED) 1 ∧
      (s.count FLT_SHADOW_COMPARED).fld FLT_SHADOW_MISMATCH = s.fld FLT_SHADOW_MISMATCH :=
  ⟨s.fld_count FLT_SHADOW_COMPARED 1 0 0 (by decide),
    s.fld_setFld_field FLT_SHADOW_COMPARED FLT_SHADOW_MISMATCH _ 0 0 rfl (by decide) (by decide)⟩

/-- The counters after a comparison that disagrees. -/
def State.shadowMismatched (s : State) : State := (s.count FLT_SHADOW_COMPARED).count FLT_SHADOW_MISMATCH

theorem State.shadowMismatched_fld (s : State) :
    s.shadowMismatched.fld FLT_SHADOW_COMPARED = countUp FLT_SHADOW_COMPARED (s.fld FLT_SHADOW_COMPARED) 1 ∧
      s.shadowMismatched.fld FLT_SHADOW_MISMATCH = countUp FLT_SHADOW_MISMATCH (s.fld FLT_SHADOW_MISMATCH) 1 := by
  obtain ⟨hcompared, hmismatch⟩ := s.shadowCompared_fld
  unfold State.shadowMismatched
  constructor
  · exact (State.fld_setFld_field _ FLT_SHADOW_MISMATCH FLT_SHADOW_COMPARED _ 0 0 rfl (by decide) (by decide)).trans hcompared
  · rw [State.fld_count _ _ _ _ _ (by decide), hmismatch]

/-- A comparison that the run's shadow frame has made. -/
theorem State.shadowCompare_effect {s : State} {id origin shadow : Nat} {r : Run} (hr : s.run id = some r)
    (hshadow : s.shadowOf r origin = some shadow) (agree : Bool) (cls : Nat) :
    s.shadowCompare id origin agree cls = if agree then s.count FLT_SHADOW_COMPARED
      else s.shadowMismatched.setRun id
        { r with shadows := r.shadows ++ [(origin, shadow, cls % 8)] } := by
  simp only [State.shadowCompare, hr, hshadow]
  rfl

/-- Settles O36: canaries and comparisons are counted, and a CHECK event reaches neither the counters nor the canaries. -/
theorem canariesAndShadowPassesCheckUnits : Obligations.CanariesAndShadowPassesCheckUnits := by
  intro s
  refine ⟨?start, ?pass, ?fail, ?abort, ?compare, ?origin, ?shadow⟩
  case start => exact fun unit cls number hready hup hon hnumber hchoice => congrArg Host.Outcome.next (if_pos ⟨hready, hup, hon, hnumber, hchoice⟩)
  case pass =>
    rintro unit digest _ c hc rfl
    obtain ⟨stm, hend, hcanaries, hpasses⟩ := (s.canaryOff unit).canaryEnd_pass unit c.cls (c.cls * 4096 + c.number)
    have hstep := State.canaryComplete_of_canary hc digest digest
    rw [beq_self_eq_true, hend] at hstep
    exact completes_of_next (congrArg Host.Outcome.next hstep)
      ⟨s.fld_count FLT_CANARY_RUN 1 0 0 (by decide), hcanaries, hpasses, rfl, .of_control rfl⟩
  case fail =>
    intro unit digest stored c hc hdiffers
    have hstep := State.canaryComplete_of_canary hc digest stored
    rw [beq_eq_false_iff_ne.mpr hdiffers] at hstep
    have hsame := (s.canaryOff unit).canaryEnd_fail unit c.cls (c.cls * 4096 + c.number)
    have hfld := fun f hf => State.fld_of_besideChecks hsame (f := f) (i := 0) (j := 0) hf
    obtain ⟨hrun, hfailed⟩ := (s.canaryOff unit).canaryFailed_fld
    obtain ⟨hcanaries, hpasses⟩ := State.canaries_of_besideChecks hsame
    obtain ⟨hrings, -⟩ := State.engines_of_besideChecks hsame
    have hrecord := (s.canaryComplete_keeps unit digest stored (.refl _)).retired
    exact completes_of_next (congrArg Host.Outcome.next hstep)
      ⟨(hfld _ (by decide)).trans hrun, (hfld _ (by decide)).trans hfailed, hcanaries, hpasses,
        State.retired_all_of_prefix (hstep ▸ hrecord), hrings⟩
  case abort =>
    intro unit hframe hclaim
    have hstops : (unitType unit == 1 && s.aboutToClaim.contains (unitIndex unit)) = true := by rw [hframe, hclaim]; rfl
    exact congrArg Host.Outcome.next (if_pos hstops)
  case compare =>
    intro id origin agree cls shadow r hr hshadow
    have hstep := State.shadowCompare_effect hr hshadow agree cls
    obtain ⟨hcompared, hmismatch⟩ := s.shadowCompared_fld
    obtain ⟨hcomparedStill, hmismatched⟩ := s.shadowMismatched_fld
    cases agree with
    | true =>
      rw [if_pos rfl] at hstep
      exact completes_of_next (congrArg Host.Outcome.next hstep) ⟨hcompared, hmismatch, hr, rfl⟩
    | false =>
      rw [if_neg Bool.false_ne_true] at hstep
      exact completes_of_next (congrArg Host.Outcome.next hstep)
        ⟨(State.fld_setRun _ _ _ _).trans hcomparedStill, (State.fld_setRun _ _ _ _).trans hmismatched, State.run_setRun _ _ _, rfl⟩
  case origin =>
    rintro id origin shadow third _ _ cls r hr hwaits rfl rfl hthird hfree
    have hstep := State.shadowThird_origin hr hwaits hthird
    have hruns := State.checkEvent_unclaimed (s := s.setRun id { r with shadows := r.shadows.erase (origin, shadow, cls) }) hfree 3
      (shadowPattern cls) r.slice
    have hsame := (s.setRun id { r with shadows := r.shadows.erase (origin, shadow, cls) }).checkEvent_besideChecks shadow 3
      (shadowPattern cls) r.slice
    have hrecord := (s.shadowThirdCompute_keeps id origin shadow third true false cls (.refl _)).retired
    refine completes_of_next (congrArg Host.Outcome.next hstep)
      ⟨?_, State.retired_all_of_prefix (hstep ▸ hrecord), State.engines_of_besideChecks hsame⟩
    rw [State.run, hruns]
    exact State.run_setRun _ _ _
  case shadow =>
    rintro id origin shadow third _ _ cls r hr hwaits rfl rfl hthird hfree
    have hstep := State.shadowThird_shadow hr hwaits hthird
    obtain ⟨m, frames, hwrong, hnone⟩ := State.wrongResult_effect
      (s.run_setRun id { r with shadows := r.shadows.erase (origin, shadow, cls) })
    rw [hwrong] at hstep
    have hrecord := (s.shadowThirdCompute_keeps id origin shadow third false true cls (.refl _)).retired
    refine completes_of_next (congrArg Host.Outcome.next hstep)
      ⟨?_, State.retired_all_of_prefix (hstep ▸ hrecord), State.engines_of_besideChecks (State.checkEvent_besideChecks _ _ _ _ _)⟩
    have hruns := State.checkEvent_unclaimed
      (s := { (s.setRun id { r with shadows := r.shadows.erase (origin, shadow, cls) }).setRun id
        { r with shadows := r.shadows.erase (origin, shadow, cls), wrong := true, mismatch := m } with frames := frames })
      (hnone origin hfree) 3 (shadowPattern cls) r.slice
    rw [State.run, hruns]
    exact (congrArg (Option.any _) (State.run_setRun _ _ _)).trans (by simp)

end Sys2Proof.Machine
end

