-- ==== Sys2Proof/Proofs/DieTimeout.lean ====
section
/-! The third NAND command timeout in a row while a page move is under way. The last clause of O35 says that it leaves the memory tiers alone,
page moves among them, and bounds neither the channel nor the die by the 16 of a Depot. Channel and die are carried into the unit id of the
die (R500) as they stand: die 53248 of channel 0 has id 7 × 4096 + 53248 = 81920, whose type (bits 15:12, as `unitType` reads it) is 4,
an HBM stack. So its retirement is that of a memory unit, which by R344 abandons the moves to it. -/

namespace Sys2Proof.Machine

/-- The last die of a channel of 53249 dies, whose unit id reads as that of a memory unit. -/
def farDie : Nat := 53248

/-- A device whose Depot 0 has a channel of 53249 dies, the last with two timeouts in a row, and a page on its way to unit 81920. -/
def timeoutUnderMove : State :=
  { State.reset with
    depots := [{ Depot.blank with channels := [(0, ⟨farDie + 1, 0, 0, 0, 0, 0⟩)], timeouts := [((0, farDie), 2)] }]
    moves := [{ alloc := 1, page := 0, dest := 2, copied := false, stalled := 0, unit := unitId 7 farDie }] }

theorem nandCommandTimeout_timeoutUnderMove : (timeoutUnderMove.nandCommandTimeout 0 0 farDie false 0).moves = [] := by
  have hretire : timeoutUnderMove.nandCommandTimeout 0 0 farDie false 0 =
      ((timeoutUnderMove.tick 0).setDepot 0 { (timeoutUnderMove.tick 0).depot 0 with timeouts := [] }).retireUnit (unitId 7 farDie)
        .permanent 9 := rfl
  rw [hretire, State.retireUnit_moves rfl (by decide) (by decide)]
  decide

/-- Refutes O35: the retirement of die 53248 of channel 0, unit 81920, abandons the move to unit 81920. -/
theorem not_unitsCountEventsAndRetire : ¬ Obligations.UnitsCountEventsAndRetire := by
  intro h
  obtain ⟨-, -, -, -, -, -, -, -, -, -, hthird⟩ := h timeoutUnderMove
  obtain ⟨t, hstep, -, -, hmemory, -⟩ := hthird 0 0 farDie 0 2 (by decide) (by decide) (by decide)
  obtain ⟨-, -, -, hmoves, -⟩ := hmemory
  obtain rfl : timeoutUnderMove.nandCommandTimeout 0 0 farDie false 0 = t := Host.Outcome.next.inj hstep
  rw [nandCommandTimeout_timeoutUnderMove] at hmoves
  exact absurd hmoves (by decide)

end Sys2Proof.Machine
end

