-- ==== Sys2Proof/Proofs/OwnershipPasses.lean ====
section
/-! Ownership of request state (R519 to R522): the messages of the hand-off, and what each of its steps does to the record. -/

namespace Sys2Proof.Machine

/-! ### Messages and counters of the hand-off -/

/-- A message of the hand-off leaves as one packet. -/
theorem State.handOff_effect (s : State) (kind status reqid job dst : Nat) (carried new : Nat × Nat) :
    ∃ p, s.handOff kind status reqid job dst carried new = s.emit p := ⟨_, rfl⟩

theorem State.emit_out_length (s : State) (p : Bytes) : (s.emit p).fab.out.length = s.fab.out.length + 1 := List.length_append

/-- No key is later than itself, so a later key is another. -/
theorem ne_of_keyLater {a b : Nat × Nat} (h : keyLater a b = true) : a ≠ b := by
  rintro rfl
  simp [keyLater] at h

theorem State.fld_stateLostCount (s : State) :
    (s.count FLT_STATELOST_COUNT).fld FLT_STATELOST_COUNT = countUp FLT_STATELOST_COUNT (s.fld FLT_STATELOST_COUNT) 1 :=
  s.fld_count FLT_STATELOST_COUNT 1 0 0 (by decide)

theorem State.stateLost_of_none {s : State} {reqid : Nat} (h : mapGet s.owns reqid = none) :
    s.stateLost reqid = s.count FLT_STATELOST_COUNT := by
  have hsame : mapGet (s.count FLT_STATELOST_COUNT).owns reqid = none := h
  simp only [State.stateLost, hsame, Option.elim_none, Bool.false_eq_true, if_false]

theorem State.stateLost_of_importing {s : State} {reqid : Nat} {r : OwnRecord} (h : mapGet s.owns reqid = some r) (hst : r.st = .importing) :
    s.stateLost reqid = { s.count FLT_STATELOST_COUNT with owns := mapErase s.owns reqid } := by
  have hsame : mapGet (s.count FLT_STATELOST_COUNT).owns reqid = some r := h
  simp only [State.stateLost, hsame, Option.elim_some, hst, beq_self_eq_true, if_true]
  rfl

@[simp] theorem State.ownerStale_besideFaults (s : State) : s.ownerStale.besideFaults = (s.count FLT_OWN_STALE).besideFaults :=
  State.report_besideFaults _ _ _ _ _ _ _

/-- OWNER_STALE is counted and reported; the report reaches no other field. -/
theorem State.ownerStale_effect (s : State) : SameBulk s s.ownerStale ∧
    s.ownerStale.fld FLT_OWN_STALE = countUp FLT_OWN_STALE (s.fld FLT_OWN_STALE) 1 := by
  obtain ⟨-, hmoves, hdepots, -⟩ := (s.count FLT_OWN_STALE).report_keeps 0 ownershipClass 14 0 0xFF 0
  exact ⟨SameBulk.trans (.of_control rfl) (State.bulk_of_besideFaults s.ownerStale_besideFaults hmoves hdepots),
    (State.fld_of_besideFaults s.ownerStale_besideFaults (by decide)).trans (s.fld_count FLT_OWN_STALE 1 0 0 (by decide))⟩

/-! ### The steps of the hand-off (Table 17-9) -/

/-- The record that a claim writes, under the next key of the device's epoch. -/
def State.importRecord (s : State) (owner epoch hseq phase job : Nat) : OwnRecord :=
  { owner := s.node, st := .importing, epoch := s.epoch, hseq := (hseq + 1) % 2 ^ 32, phase := phase, copy := false, fromEpoch := epoch,
    fromHseq := hseq, peer := owner, doneAt := none, job := job }

section
variable {s : State} {reqid owner epoch hseq phase job : Nat}

theorem State.beginImport_of_reachable (h : s.reachable owner = true) : ∃ p,
    s.beginImport reqid owner epoch hseq phase job = (s.setOwn reqid (s.importRecord owner epoch hseq phase job)).emit p :=
  ⟨_, if_neg (by simp [h])⟩

theorem State.beginImport_of_unreachable (h : s.reachable owner = false) :
    s.beginImport reqid owner epoch hseq phase job = s.stateLost reqid := if_pos (by simp [h])

theorem State.ownershipClaim_of_none (hready : s.phase = phReady) (hfence : s.fenced = false) (hreqid : reqid < 2 ^ 64)
    (howner : owner < 2 ^ 17) (hnone : mapGet s.owns reqid = none) (hroom : s.owns.length < ownTableSize) (hother : owner ≠ s.node) :
    s.ownershipClaim reqid owner epoch hseq phase job = s.beginImport reqid owner epoch hseq phase job := by
  unfold State.ownershipClaim
  have hserved : ¬ (s.phase ≠ phReady ∨ s.fenced = true ∨ 2 ^ 64 ≤ reqid ∨ 2 ^ 17 ≤ owner) := by
    rw [not_or, not_or, not_or]
    exact ⟨not_not.mpr hready, by simp [hfence], Nat.not_le.mpr hreqid, Nat.not_le.mpr howner⟩
  rw [if_neg hserved, hnone]
  dsimp only
  rw [if_neg (Nat.not_le.mpr hroom), if_neg hother]

end

section
variable {s : State} {reqid : Nat} {r : OwnRecord} (hfence : s.fenced = false) (hr : mapGet s.owns reqid = some r)
include hfence hr

theorem State.claimReceive_granted {claimant epoch hseq newEpoch newHseq : Nat} (hst : r.st = .owned) (hkey : r.key = (epoch, hseq))
    (hlater : keyLater (newEpoch, newHseq) r.key = true) :
    s.claimReceive reqid claimant epoch hseq newEpoch newHseq = s.grantClaim reqid claimant r (epoch, hseq) (newEpoch, newHseq) := by
  rw [hkey] at hlater
  simp [State.claimReceive, hfence, hr, hst, hkey, hlater]

/-- A claim that carries an earlier key than an OWNED record's is refused. -/
theorem State.claimReceive_stale {claimant epoch hseq newEpoch newHseq : Nat} (hst : r.st = .owned)
    (hearlier : keyLater r.key (epoch, hseq) = true) : ∃ p,
    s.claimReceive reqid claimant epoch hseq newEpoch newHseq = s.ownerStale.emit p := by
  have hother : r.key ≠ (epoch, hseq) := ne_of_keyLater hearlier
  simp only [State.claimReceive, hfence, hr, hst, hother, hearlier, Bool.false_eq_true, if_false, if_true, false_and, and_false, reduceCtorEq]
  exact State.handOff_effect _ _ _ _ _ _ _ _

theorem State.stateReadDone_ok (hst : r.st = .importing) : ∃ p,
    s.stateReadDone reqid stOK = (s.setOwn reqid { r with st := .owned, copy := true }).emit p := by
  simp only [State.stateReadDone, hfence, hr, hst, Bool.false_eq_true, if_false, if_true, ne_eq, not_true_eq_false]
  exact State.handOff_effect _ _ _ _ _ _ _ _

theorem State.stateReadDone_lost {outcome : Nat} (hst : r.st = .importing) (houtcome : outcome = stFENCED ∨ outcome = stSTATELOST) :
    s.stateReadDone reqid outcome = s.stateLost reqid := by
  have hnotOk : outcome ≠ stOK := by rcases houtcome with rfl | rfl <;> decide
  have hnotStale : outcome ≠ stOWNERSTALE := by rcases houtcome with rfl | rfl <;> decide
  simp only [State.stateReadDone, hfence, hr, hst, hnotOk, hnotStale, houtcome, Bool.false_eq_true, if_false, if_true, ne_eq,
    not_true_eq_false]

theorem State.ownershipDone_handed {sender epoch hseq : Nat} (hst : r.st = .handed) (hkey : r.key = (epoch, hseq)) (howner : r.owner = sender) :
    s.ownershipDone reqid sender epoch hseq = s.setOwn reqid { r with copy := false, doneAt := some s.clock.mono } := by
  simp only [State.ownershipDone, hfence, hr, hst, hkey, howner, Bool.false_eq_true, if_false, if_true, and_self]

theorem State.claimRepeat_importing (hst : r.st = .importing) :
    s.claimRepeat reqid = if s.reachable r.peer then s.sendClaim reqid r else s.stateLost reqid := by
  simp only [State.claimRepeat, hfence, hr, hst, Bool.false_eq_true, if_false, ne_eq, not_true_eq_false]

end

theorem State.handedExpiry_due {s : State} {reqid dt t0 : Nat} {r : OwnRecord} (hr : mapGet s.owns reqid = some r) (hst : r.st = .handed)
    (hdone : r.doneAt = some t0) (hdue : t0 + 60 * 10 ^ 9 ≤ s.clock.mono + dt) :
    s.handedExpiry reqid dt = { s.tick dt with owns := mapErase s.owns reqid } := by
  have hsame : mapGet (s.tick dt).owns reqid = some r := hr
  have hexpired : r.doneAt.elim false (fun t => decide (t + 60 * 10 ^ 9 ≤ (s.tick dt).clock.mono)) = true := by
    have hmono : (s.tick dt).clock.mono = s.clock.mono + dt := rfl
    rw [hdone, Option.elim_some, hmono]
    exact decide_eq_true hdue
  unfold State.handedExpiry
  dsimp only
  rw [hsame]
  exact if_pos ⟨hst, hexpired⟩

/-- Settles O37: each step of the hand-off writes its record and sends its message; a stale key is counted. -/
theorem ownershipPassesWithItsKey : Obligations.OwnershipPassesWithItsKey := by
  intro s
  refine ⟨?claim, ?granted, ?stale, ?read, ?lost, ?done, ?again, ?expiry⟩
  case claim =>
    intro reqid owner epoch hseq phase job hready hfence hreqid howner hnone hroom hother
    have hstep := State.ownershipClaim_of_none (epoch := epoch) (hseq := hseq) (phase := phase) (job := job) hready hfence hreqid howner
      hnone hroom hother
    cases hreach : s.reachable owner with
    | true =>
      obtain ⟨p, hsent⟩ := State.beginImport_of_reachable (reqid := reqid) (epoch := epoch) (hseq := hseq) (phase := phase) (job := job) hreach
      rw [hsent] at hstep
      refine completes_of_next (congrArg Host.Outcome.next hstep)
        ⟨fun _ => ⟨?_, State.emit_out_length _ _⟩, fun h => (Bool.false_ne_true h.symm).elim, ⟨rfl, rfl, rfl, rfl, rfl, rfl, rfl⟩,
          ⟨rfl, rfl, rfl, rfl⟩, ⟨rfl, rfl, rfl, rfl, rfl⟩, rfl, rfl⟩
      rw [State.emit_owns, State.setOwn_owns, mapGet_mapSet_same]
      simp [State.importRecord, OwnRecord.key]
    | false =>
      rw [State.beginImport_of_unreachable hreach, State.stateLost_of_none hnone] at hstep
      exact completes_of_next (congrArg Host.Outcome.next hstep)
        ⟨fun h => (Bool.false_ne_true h).elim, fun _ => ⟨s.fld_stateLostCount, rfl, rfl⟩, ⟨rfl, rfl, rfl, rfl, rfl, rfl, rfl⟩,
          ⟨rfl, rfl, rfl, rfl⟩, ⟨rfl, rfl, rfl, rfl, rfl⟩, rfl, rfl⟩
  case granted =>
    intro reqid claimant epoch hseq newEpoch newHseq r hfence hr hst hkey hlater
    exact completes_of_next (congrArg Host.Outcome.next (State.claimReceive_granted hfence hr hst hkey hlater))
      ⟨mapGet_mapSet_same _ _ _, State.emit_out_length _ _, rfl⟩
  case stale =>
    intro reqid claimant epoch hseq newEpoch newHseq r hfence hr hst hearlier
    obtain ⟨p, hstep⟩ := State.claimReceive_stale (claimant := claimant) (newEpoch := newEpoch) (newHseq := newHseq) hfence hr hst hearlier
    obtain ⟨⟨hmemory, hcompute, hsearch, ⟨-, hfab, -⟩, hrings, -, howns⟩, hcount⟩ := s.ownerStale_effect
    exact completes_of_next (congrArg Host.Outcome.next hstep)
      ⟨howns, hcount, (State.emit_out_length _ _).trans (by rw [hfab]), hmemory, hcompute, hsearch, hrings⟩
  case read =>
    rintro reqid _ r hfence hr hst rfl
    obtain ⟨p, hstep⟩ := State.stateReadDone_ok hfence hr hst
    exact completes_of_next (congrArg Host.Outcome.next hstep) ⟨mapGet_mapSet_same _ _ _, State.emit_out_length _ _, rfl⟩
  case lost =>
    intro reqid outcome r hfence hr hst houtcome
    have hstep := (State.stateReadDone_lost hfence hr hst houtcome).trans (State.stateLost_of_importing hr hst)
    exact completes_of_next (congrArg Host.Outcome.next hstep) ⟨rfl, s.fld_stateLostCount, rfl⟩
  case done =>
    exact fun reqid sender epoch hseq r hfence hr hst hkey howner =>
      congrArg Host.Outcome.next (State.ownershipDone_handed hfence hr hst hkey howner)
  case again =>
    intro reqid r hfence hr hst
    have hstep := State.claimRepeat_importing hfence hr hst
    cases hreach : s.reachable r.peer with
    | true =>
      rw [hreach, if_pos rfl] at hstep
      exact completes_of_next (congrArg Host.Outcome.next hstep)
        ⟨fun _ => ⟨rfl, State.emit_out_length _ _, rfl⟩, fun h => (Bool.false_ne_true h.symm).elim⟩
    | false =>
      rw [hreach, if_neg Bool.false_ne_true, State.stateLost_of_importing hr hst] at hstep
      exact completes_of_next (congrArg Host.Outcome.next hstep)
        ⟨fun h => (Bool.false_ne_true h).elim, fun _ => ⟨rfl, s.fld_stateLostCount⟩⟩
  case expiry =>
    exact fun reqid dt t0 r hr hst hdone hdue => completes_of_next (congrArg Host.Outcome.next (State.handedExpiry_due hr hst hdone hdue)) rfl

end Sys2Proof.Machine
end

