-- ==== Sys2Proof/Proofs/ThermalLimits.lean ====
section
/-! Thermal limits (R558, R559) and the polling of the DIMMs (R574): the throttle of each Counting die after a sample, the trip, and double
refresh. -/

namespace Sys2Proof.Machine

/-! ### The throttle of a Counting die (R559) -/

/-- The state beside its registers and its log: no throttle reaches it. -/
def State.besideThrottle (s : State) : State := { s with regs := [], stm := s.stm.besideFaults, nv := { s.nv with log := [] } }

theorem State.logPower_effect (s : State) (event die : Nat) (temp : Int) (diode : Nat) :
    (s.logPower event die temp diode).besideThrottle = s.besideThrottle ∧ (s.logPower event die temp diode).regs = s.regs := by
  have hstm := State.stm_of_besideFaults (s.logAppend_besideFaults ltPower
    (leBytes 1 event ++ leBytes 1 die ++ leBytes 2 (s.fld PWR_RAIL_MV die) ++ leBytes 2 (ofSigned temp 16) ++ leBytes 1 diode))
  unfold State.logPower State.besideThrottle
  rw [hstm, State.logAppend_eq]
  exact ⟨rfl, rfl⟩

theorem State.throttleSample_besideThrottle (s : State) (d : Nat) : (s.throttleSample d).besideThrottle = s.besideThrottle := by
  unfold State.throttleSample
  dsimp only
  split
  · exact (State.logPower_effect _ _ _ _ _).1
  · split
    · exact (State.logPower_effect _ _ _ _ _).1
    · rfl

theorem State.fld_logPower (s : State) (event die : Nat) (temp : Int) (diode : Nat) (f : FieldRef) (i j : Nat) :
    (s.logPower event die temp diode).fld f i j = s.fld f i j := State.fld_congr _ _ _ _ _ (s.logPower_effect event die temp diode).2

/-- The sample's temperature is shown beside the throttle. -/
theorem State.fld_throttle_setMax (s : State) (v d : Nat) : (s.setFld PWR_THERM_MAX v d).fld PWR_THERM_THROTTLE d = s.fld PWR_THERM_THROTTLE d :=
  s.fld_setFld_field PWR_THERM_MAX PWR_THERM_THROTTLE v d 0 rfl (by decide) (by decide)

/-- An episode is counted beside the throttle. -/
theorem State.fld_throttle_countEvents (s : State) (d : Nat) :
    (s.count PWR_THERM_EVENTS 1 d).fld PWR_THERM_THROTTLE d = s.fld PWR_THERM_THROTTLE d :=
  s.fld_setFld_field PWR_THERM_EVENTS PWR_THERM_THROTTLE _ d 0 rfl (by decide) (by decide)

theorem State.fld_setThrottle (s : State) (v d : Nat) : (s.setFld PWR_THERM_THROTTLE v d).fld PWR_THERM_THROTTLE d = v % 2 ^ 1 :=
  s.fld_setFld_same PWR_THERM_THROTTLE v d 0 (by decide)

/-- The throttle after a sample: on at 105 °C, off at 102 °C. -/
theorem State.throttleSample_throttle (s : State) (d : Nat) : (s.throttleSample d).fld PWR_THERM_THROTTLE d =
    if s.fld PWR_THERM_THROTTLE d = 0 ∧ t105 ≤ hottest (dieDiodes s.stm.diodes d) then 1
    else if s.fld PWR_THERM_THROTTLE d = 1 ∧ hottest (dieDiodes s.stm.diodes d) ≤ t102 then 0 else s.fld PWR_THERM_THROTTLE d := by
  unfold State.throttleSample
  dsimp only
  rw [State.fld_throttle_setMax]
  split
  · rw [State.fld_logPower, State.fld_throttle_countEvents, State.fld_setThrottle, Nat.mod_eq_of_lt (by decide)]
  · split
    · rw [State.fld_logPower, State.fld_setThrottle, Nat.zero_mod]
    · exact State.fld_throttle_setMax _ _ _

theorem State.fld_throttle_lt (s : State) (d : Nat) : s.fld PWR_THERM_THROTTLE d < 2 := s.fld_lt PWR_THERM_THROTTLE d 0

theorem State.throttleSample_of_hot {s : State} {d : Nat} (hhot : t105 ≤ hottest (dieDiodes s.stm.diodes d)) :
    (s.throttleSample d).fld PWR_THERM_THROTTLE d = 1 := by
  have hbit := s.fld_throttle_lt d
  have hnotCool : ¬ hottest (dieDiodes s.stm.diodes d) ≤ t102 := fun h => absurd (hhot.trans h) (by decide)
  rw [State.throttleSample_throttle]
  split
  · rfl
  · next hoff =>
    rw [if_neg (fun h => hnotCool h.2)]
    have hone : s.fld PWR_THERM_THROTTLE d ≠ 0 := fun h => hoff ⟨h, hhot⟩
    omega

theorem State.throttleSample_of_cool {s : State} {d : Nat} (hcool : hottest (dieDiodes s.stm.diodes d) ≤ t102) :
    (s.throttleSample d).fld PWR_THERM_THROTTLE d = 0 := by
  have hbit := s.fld_throttle_lt d
  have hnotHot : ¬ t105 ≤ hottest (dieDiodes s.stm.diodes d) := fun h => absurd (h.trans hcool) (by decide)
  rw [State.throttleSample_throttle, if_neg (fun h => hnotHot h.2)]
  split
  · rfl
  · next hon =>
    have hzero : s.fld PWR_THERM_THROTTLE d ≠ 1 := fun h => hon ⟨h, hcool⟩
    omega

theorem regOffset_pwrTherm_ne {d e : Nat} (h : e ≠ d) : regOffset .pwrTherm e 0 ≠ regOffset .pwrTherm d 0 := by
  simp only [regOffset, RegName.row]
  omega

/-- A die's sample leaves the throttle of another as it was. -/
theorem State.throttleSample_other (s : State) {d e : Nat} (h : e ≠ d) :
    (s.throttleSample d).fld PWR_THERM_THROTTLE e = s.fld PWR_THERM_THROTTLE e := by
  have hset : ∀ (t : State) (f : FieldRef) (v : Nat), f.reg = .pwrTherm → (t.setFld f v d).fld PWR_THERM_THROTTLE e = t.fld PWR_THERM_THROTTLE e :=
    fun t f v hreg => t.fld_setFld_reg f PWR_THERM_THROTTLE v d 0 e 0 (hreg ▸ regOffset_pwrTherm_ne h)
  unfold State.throttleSample
  dsimp only
  split
  · rw [State.fld_logPower, State.count, hset _ PWR_THERM_EVENTS _ rfl, hset _ PWR_THERM_THROTTLE _ rfl, hset _ PWR_THERM_MAX _ rfl]
  · split
    · rw [State.fld_logPower, hset _ PWR_THERM_THROTTLE _ rfl, hset _ PWR_THERM_MAX _ rfl]
    · exact hset _ PWR_THERM_MAX _ rfl

theorem State.diodes_of_besideThrottle {s t : State} (h : t.besideThrottle = s.besideThrottle) : t.stm.diodes = s.stm.diodes :=
  congrArg (fun x => x.stm.diodes) h

theorem State.bulk_of_besideThrottle {s t : State} (h : t.besideThrottle = s.besideThrottle) : SameBulk s t := by
  have hkeep {α : Type} (p : State → α) : p t.besideThrottle = p s.besideThrottle := congrArg p h
  exact ⟨⟨hkeep State.allocs, hkeep State.charges, hkeep State.poison, hkeep State.moves, hkeep State.pageUnits, hkeep State.zruns,
      hkeep State.ringMem⟩, ⟨hkeep State.consists, hkeep State.runs, hkeep State.frames, hkeep State.calls⟩,
    ⟨hkeep State.indexes, hkeep State.stores, hkeep State.queries, hkeep State.tables, hkeep State.seqs⟩,
    ⟨hkeep State.jobs, hkeep State.fab, hkeep State.ports, hkeep State.timetables, hkeep State.policers⟩, ⟨hkeep State.rings, hkeep State.cmds⟩,
    hkeep State.depots, hkeep State.owns⟩

/-! ### A sample of the diodes (R558, R559) -/

/-- The state with the diodes as read. -/
def State.thermalRead (s : State) (diodes : List Int) : State :=
  { s with stm := { s.stm with diodes := diodes, hot := hotAfter s.stm.hot diodes } }

/-- Both Counting dies have their throttle set by what was read. -/
def State.diesThrottled (s : State) (diodes : List Int) : State := ((s.thermalRead diodes).throttleSample 0).throttleSample 1

/-- The sample is taken; no diode has tripped the device yet. -/
def State.thermalTaken (s : State) (diodes : List Int) : State :=
  { s.diesThrottled diodes with stm := { (s.diesThrottled diodes).stm with
      jdHalved := (s.diesThrottled diodes).halvedAfter, hbmDouble := (s.diesThrottled diodes).doubledAfter } }

theorem State.diesThrottled_besideThrottle (s : State) (diodes : List Int) :
    (s.diesThrottled diodes).besideThrottle = (s.thermalRead diodes).besideThrottle :=
  (State.throttleSample_besideThrottle _ _).trans (State.throttleSample_besideThrottle _ _)

theorem State.thermalSample_on {s : State} (hpower : s.phase ≠ phPower) (diodes : List Int) : s.thermalSample diodes =
    ((hotAfter s.stm.hot diodes).find? fun e => decide (3 ≤ e.2)).elim (s.thermalTaken diodes) fun e => (s.thermalTaken diodes).trip e.1 := by
  have hhot : (s.diesThrottled diodes).stm.hot = hotAfter s.stm.hot diodes := congrArg (fun x => x.stm.hot) (s.diesThrottled_besideThrottle diodes)
  rw [← hhot]
  unfold State.thermalSample
  rw [if_neg hpower]
  change (match (s.diesThrottled diodes).stm.hot.find? fun e => decide (3 ≤ e.2) with
    | some e => (s.thermalTaken diodes).trip e.1
    | none => s.thermalTaken diodes) = _
  split
  · next h => rw [h]; rfl
  · next h => rw [h]; rfl

/-- A die's throttle after the sample is that of its own part of it. -/
theorem State.thermalTaken_throttle (s : State) (diodes : List Int) {d : Nat} (hd : d < 2) : ∃ t : State,
    t.stm.diodes = diodes ∧ (s.thermalTaken diodes).fld PWR_THERM_THROTTLE d = (t.throttleSample d).fld PWR_THERM_THROTTLE d := by
  have htaken : ∀ e, (s.thermalTaken diodes).fld PWR_THERM_THROTTLE e = (s.diesThrottled diodes).fld PWR_THERM_THROTTLE e := fun _ => rfl
  rw [htaken]
  obtain rfl | rfl : d = 0 ∨ d = 1 := by omega
  · exact ⟨s.thermalRead diodes, rfl, State.throttleSample_other _ (by decide)⟩
  · exact ⟨(s.thermalRead diodes).throttleSample 0, State.diodes_of_besideThrottle (State.throttleSample_besideThrottle _ _), rfl⟩

/-- Beside registers and Stationmasters a sample keeps all there is but the log. -/
theorem State.thermalTaken_keeps (s : State) (diodes : List Int) : (s.thermalTaken diodes).stm.diodes = diodes ∧
    (s.thermalTaken diodes).pins = s.pins ∧ (s.thermalTaken diodes).nv.retired = s.nv.retired ∧ SameBulk s (s.thermalTaken diodes) := by
  have hsame := s.diesThrottled_besideThrottle diodes
  exact ⟨State.diodes_of_besideThrottle hsame, congrArg (fun x => x.pins) hsame, congrArg (fun x => x.nv.retired) hsame,
    SameBulk.trans (.of_control rfl) (SameBulk.trans (State.bulk_of_besideThrottle hsame) (.of_control rfl))⟩

/-- A trip keeps the diode and is counted, the rails fall, and nothing runs any more (R559). -/
theorem State.thermalTaken_trip (s : State) (diodes : List Int) (e : Nat) :
    ((s.thermalTaken diodes).trip e).pins.tripped = true ∧ ((s.thermalTaken diodes).trip e).nv.tripDiode = e ∧
      ((s.thermalTaken diodes).trip e).nv.tripCount = min (s.nv.tripCount + 1) 0xFFFF ∧ ((s.thermalTaken diodes).trip e).phase = phPower ∧
      ((s.thermalTaken diodes).trip e).runs = [] ∧ ((s.thermalTaken diodes).trip e).nv.retired = s.nv.retired ∧
      ((s.thermalTaken diodes).trip e).nv.slices = s.nv.slices := by
  have hsame := s.diesThrottled_besideThrottle diodes
  have hcount : (s.diesThrottled diodes).nv.tripCount = s.nv.tripCount := congrArg (fun x => x.nv.tripCount) hsame
  have hphase : State.reset.phase = phPower := by decide
  exact ⟨rfl, rfl, congrArg (fun n => min (n + 1) 0xFFFF) hcount, hphase, rfl, congrArg (fun x => x.nv.retired) hsame,
    congrArg (fun x => x.nv.slices) hsame⟩

/-! ### The DIMMs (R574) -/

/-- The channels at double refresh once channel `c` reads `temp`. -/
def doubleAfter (l : List Nat) (c : Nat) (temp : Int) : List Nat :=
  if 680 ≤ temp then (if l.contains c then l else l ++ [c]) else if temp ≤ 656 then l.filter (· != c) else l

theorem State.i3cPoll_one {s : State} (hpower : s.phase ≠ phPower) (c : Nat) (temp : Int) (raw : BitVec 16) :
    s.i3cPoll [⟨some c, temp, raw⟩] = { s with stm := { s.stm with ddrDouble := doubleAfter s.stm.ddrDouble c temp } } := if_neg hpower

theorem contains_doubleAfter {l : List Nat} {c : Nat} {temp : Int} (h : 680 ≤ temp) : (doubleAfter l c temp).contains c = true := by
  rw [doubleAfter, if_pos h]
  split
  · assumption
  · simp

theorem doubleAfter_of_cool {l : List Nat} {c : Nat} {temp : Int} (h : temp ≤ 656) : doubleAfter l c temp = l.filter (· != c) := by
  rw [doubleAfter, if_neg (by omega), if_pos h]

/-- Settles O7: the sample is taken first, and the third sample in a row at 115 °C then takes the rails down. -/
theorem temperatureSetsThrottleAndTrip : Obligations.TemperatureSetsThrottleAndTrip := by
  intro s
  refine ⟨?hot, ?cool, ?trip, ?double, ?single, ?join⟩
  case hot =>
    intro diodes d hd hpower hnone hhot
    obtain ⟨t, hread, hthrottle⟩ := s.thermalTaken_throttle diodes hd
    have hstep := State.thermalSample_on hpower diodes
    rw [hnone] at hstep
    exact completes_of_next (congrArg Host.Outcome.next hstep)
      ⟨hthrottle.trans (State.throttleSample_of_hot (hread ▸ hhot)), s.thermalTaken_keeps diodes⟩
  case cool =>
    intro diodes d hd hpower hnone hcool
    obtain ⟨t, hread, hthrottle⟩ := s.thermalTaken_throttle diodes hd
    have hstep := State.thermalSample_on hpower diodes
    rw [hnone] at hstep
    exact completes_of_next (congrArg Host.Outcome.next hstep)
      ⟨hthrottle.trans (State.throttleSample_of_cool (hread ▸ hcool)), s.thermalTaken_keeps diodes⟩
  case trip =>
    intro diodes e hpower hsome
    have hstep := State.thermalSample_on hpower diodes
    rw [hsome] at hstep
    exact completes_of_next (congrArg Host.Outcome.next hstep) (s.thermalTaken_trip diodes e.1)
  case double =>
    intro c temp raw hpower htemp
    exact completes_of_next (congrArg Host.Outcome.next (State.i3cPoll_one hpower c temp raw)) ⟨contains_doubleAfter htemp, rfl⟩
  case single =>
    intro c temp raw hpower htemp
    have hstep := State.i3cPoll_one hpower c temp raw
    rw [doubleAfter_of_cool htemp] at hstep
    exact completes_of_next (congrArg Host.Outcome.next hstep) rfl
  case join =>
    intro device hpower hnew
    have hserved : ¬ (s.phase = phPower ∨ s.stm.i3c.contains device = true) := by
      rw [hnew]
      exact fun h => h.elim hpower Bool.false_ne_true
    exact congrArg Host.Outcome.next (if_neg hserved)

end Sys2Proof.Machine
end

