-- ==== Sys2Proof/Proofs/PowerGovernor.lean ====
section
/-! The power governor (R560 to R562) and the sensor snapshot (R558): one pass over the slices, one step of the rails, one publication. -/

namespace Sys2Proof.Machine

/-! ### A pass of the governor (R561) -/

/-- The pacing level of a slice without BORROW after a pass: by its budget, its draw and its level before. -/
def pacedLevel (budget draw level : Nat) : Nat :=
  if budget < draw then min 63 (level + 4) else if 100 * draw < 95 * budget ∧ 0 < level then level - 1 else level

theorem State.paceSlice_effect (s : State) (pool sl : Nat) :
    ∃ pace borrowed, s.paceSlice pool sl = { s with stm := { s.stm with pace := pace, borrowed := borrowed } } := ⟨_, _, rfl⟩

theorem State.paceSlice_pace_same {s : State} {sl : Nat} (hown : s.borrows sl = false) (pool : Nat) :
    (s.paceSlice pool sl).pace sl = pacedLevel (s.budget sl) (s.sliceDraw sl) (s.pace sl) := by
  have hset : (s.paceSlice pool sl).pace sl = mapGetD (s.paceSlice pool sl).stm.pace sl 0 := rfl
  rw [hset]
  simp only [State.paceSlice, hown, mapGetD, mapGet_mapSet_same, Option.getD_some, Bool.false_eq_true, if_false, Nat.mul_one, Nat.add_zero,
    pacedLevel]

theorem State.paceSlice_pace_other (s : State) (pool : Nat) {sl x : Nat} (h : sl ≠ x) : (s.paceSlice pool x).pace sl = s.pace sl := by
  have hset : (s.paceSlice pool x).pace sl = mapGetD (s.paceSlice pool x).stm.pace sl 0 := rfl
  rw [hset]
  simp only [State.paceSlice, mapGetD, mapGet_mapSet_other _ _ h]
  rfl

/-- A pass over slices, each with its own turn. -/
def State.pacePass (s : State) (pool : Nat) (l : List Nat) : State := l.foldl (fun (s : State) sl => s.paceSlice pool sl) s

theorem State.pacePass_effect (s : State) (pool : Nat) (l : List Nat) :
    ∃ pace borrowed, s.pacePass pool l = { s with stm := { s.stm with pace := pace, borrowed := borrowed } } := by
  refine List.foldlRecOn (motive := fun t : State => ∃ pace borrowed, t = { s with stm := { s.stm with pace := pace, borrowed := borrowed } })
    l _ ⟨s.stm.pace, s.stm.borrowed, rfl⟩ ?_
  rintro _ ⟨pace, borrowed, rfl⟩ sl -
  exact ⟨_, _, rfl⟩

theorem State.pacePass_pace_other (s : State) (pool : Nat) {sl : Nat} {l : List Nat} (h : sl ∉ l) : (s.pacePass pool l).pace sl = s.pace sl := by
  induction l generalizing s with
  | nil => rfl
  | cons x l ih =>
    rw [List.mem_cons, not_or] at h
    obtain ⟨hx, hl⟩ := h
    exact (ih (s.paceSlice pool x) hl).trans (s.paceSlice_pace_other pool hx)

/-- A slice that has one turn is paced by its budget and its draw. -/
theorem State.pacePass_pace {s : State} {sl : Nat} (hown : s.borrows sl = false) (pool : Nat) {l : List Nat} (hnodup : l.Nodup) (hmem : sl ∈ l) :
    (s.pacePass pool l).pace sl = pacedLevel (s.budget sl) (s.sliceDraw sl) (s.pace sl) := by
  induction l generalizing s with
  | nil => cases hmem
  | cons x l ih =>
    obtain ⟨hx, hl⟩ := List.nodup_cons.mp hnodup
    rcases List.mem_cons.mp hmem with rfl | hlater
    · exact ((s.paceSlice pool sl).pacePass_pace_other pool hx).trans (State.paceSlice_pace_same hown pool)
    · have hother : sl ≠ x := fun h => hx (h ▸ hlater)
      have hrest := ih (s := s.paceSlice pool x) hown hl hlater
      rw [State.paceSlice_pace_other s pool hother] at hrest
      exact hrest

/-- The state with the draws of the last millisecond. -/
def State.drawn (s : State) (draws : List SliceDraw) : State :=
  { s with stm := { s.stm with draw := draws.foldl (fun (m : KMap Nat) (d : SliceDraw) => mapSet m d.slice d.watts) [] } }

/-- The state after the slices' turns, with no emergency. -/
def State.calmlyPaced (s : State) (draws : List SliceDraw) : State :=
  { (s.drawn draws).pacePass (s.drawn draws).pool s.govSlices with
    stm := { ((s.drawn draws).pacePass (s.drawn draws).pool s.govSlices).stm with emergency := false } }

/-- Below 108 % of the envelope a pass is the slices' turns and the count of paced passes. -/
theorem State.governorPass_calm {s : State} (hpower : s.phase ≠ phPower) (hfailed : s.phase ≠ phFailed) (hopen : s.stm.takeoverWindow = false)
    (draws : List SliceDraw) {input : Nat} (hcalm : 10 * input ≤ 108 * s.fld PWR_ENVELOPE_ENV) : s.governorPass draws input =
      if (s.calmlyPaced draws).govSlices.any fun sl => decide (0 < (s.calmlyPaced draws).pace sl) then
        (s.calmlyPaced draws).count PWR_PACED_COUNT else s.calmlyPaced draws := by
  have hserved : ¬ (s.phase = phPower ∨ s.phase = phFailed ∨ s.stm.takeoverWindow = true) := by simp [hpower, hfailed, hopen]
  obtain ⟨pace, borrowed, hpass⟩ := (s.drawn draws).pacePass_effect (s.drawn draws).pool s.govSlices
  have henv : ((s.drawn draws).pacePass (s.drawn draws).pool s.govSlices).fld PWR_ENVELOPE_ENV = s.fld PWR_ENVELOPE_ENV := by rw [hpass]; rfl
  unfold State.governorPass
  rw [if_neg hserved]
  extract_lets stm drawn pool paced emergency slowed counted logged stmAfter ended
  have hemergency : emergency = false := decide_eq_false (henv ▸ Nat.not_lt.mpr hcalm)
  have hslowed : slowed = paced := if_neg (by simp [hemergency])
  have hcounted : counted = paced := (if_neg (by simp [hemergency])).trans hslowed
  have hlogged : logged = paced := (if_neg (by simp [hemergency])).trans hcounted
  have hended : ended = s.calmlyPaced draws := by
    simp only [ended, stmAfter, hlogged, hemergency]
    rfl
  rw [hended]

theorem State.governorPass_effect {s : State} (hpower : s.phase ≠ phPower) (hfailed : s.phase ≠ phFailed) (hopen : s.stm.takeoverWindow = false)
    (draws : List SliceDraw) {input sl : Nat} (hcalm : 10 * input ≤ 108 * s.fld PWR_ENVELOPE_ENV) (hnodup : s.govSlices.Nodup)
    (hsl : sl ∈ s.govSlices) (hown : s.borrows sl = false) :
    ((s.governorPass draws input).pace sl = pacedLevel (s.budget sl) ((s.drawn draws).sliceDraw sl) (s.pace sl) ∧
      (s.governorPass draws input).sliceDraw sl = (s.drawn draws).sliceDraw sl ∧ SameBulk s (s.governorPass draws input) ∧
      (s.governorPass draws input).nv.retired = s.nv.retired) := by
  have hpaced : (s.calmlyPaced draws).pace sl = pacedLevel (s.budget sl) ((s.drawn draws).sliceDraw sl) (s.pace sl) :=
    State.pacePass_pace (s := s.drawn draws) hown _ hnodup hsl
  obtain ⟨pace, borrowed, hpass⟩ := (s.drawn draws).pacePass_effect (s.drawn draws).pool s.govSlices
  have hcalmly : s.calmlyPaced draws =
      { s.drawn draws with stm := { (s.drawn draws).stm with pace := pace, borrowed := borrowed, emergency := false } } := by
    unfold State.calmlyPaced
    rw [hpass]
  rw [State.governorPass_calm hpower hfailed hopen draws hcalm]
  rw [hcalmly] at hpaced ⊢
  split <;> exact ⟨hpaced, rfl, .of_control rfl, rfl⟩

/-! ### A step of the rails (R562) -/

theorem regOffset_pwrRail_ne {d e : Nat} (h : e ≠ d) : regOffset .pwrRail e 0 ≠ regOffset .pwrRail d 0 := by
  simp only [regOffset, RegName.row]
  omega

theorem regOffset_pwrTherm_ne_pwrRail {d e : Nat} (hd : d < 2) (he : e < 2) : regOffset .pwrTherm e 0 ≠ regOffset .pwrRail d 0 := by
  simp only [regOffset, RegName.row]
  omega

theorem State.railStepDie_other (s : State) (input : Nat) {d e : Nat} (h : e ≠ d) :
    (s.railStepDie input d).fld PWR_RAIL_MV e = s.fld PWR_RAIL_MV e :=
  s.fld_setFld_reg PWR_RAIL_MV PWR_RAIL_MV _ d 0 e 0 (regOffset_pwrRail_ne h)

theorem State.railStepDie_throttle (s : State) (input : Nat) {d e : Nat} (hd : d < 2) (he : e < 2) :
    (s.railStepDie input d).fld PWR_THERM_THROTTLE e = s.fld PWR_THERM_THROTTLE e :=
  s.fld_setFld_reg PWR_RAIL_MV PWR_THERM_THROTTLE _ d 0 e 0 (regOffset_pwrTherm_ne_pwrRail hd he)

/-- The rail of a throttled die goes 20 mV down, not below 550 mV. -/
theorem State.railStepDie_throttled {s : State} {d : Nat} (h : s.fld PWR_THERM_THROTTLE d = 1) (input : Nat) :
    (s.railStepDie input d).fld PWR_RAIL_MV d = max 550 (s.fld PWR_RAIL_MV d - 20) := by
  have hwidth : s.fld PWR_RAIL_MV d < 2 ^ 10 := s.fld_lt PWR_RAIL_MV d 0
  have hstep : s.railStepDie input d = s.setFld PWR_RAIL_MV (max 550 (s.fld PWR_RAIL_MV d - 20)) d := by
    unfold State.railStepDie
    dsimp only
    rw [if_pos h]
  rw [hstep, State.fld_setFld_same _ PWR_RAIL_MV _ d 0 (by decide)]
  have hfits : max 550 (s.fld PWR_RAIL_MV d - 20) < 2 ^ 10 := by omega
  exact Nat.mod_eq_of_lt hfits

theorem State.railStep_on {s : State} (halign : phAlign ≤ s.phase) (hfailed : s.phase ≠ phFailed) (hopen : s.stm.takeoverWindow = false)
    (input : Nat) : s.railStep input = (s.railStepDie input 0).railStepDie input 1 := by
  have hserved : ¬ (s.phase < phAlign ∨ s.phase = phFailed ∨ s.stm.takeoverWindow = true) := by simp [Nat.not_lt.mpr halign, hfailed, hopen]
  exact if_neg hserved

/-! ### The sensor snapshot (R558) -/

/-- Registers written one after another, all of one array. -/
def State.setRegs (s : State) (n : RegName) (v : Nat → Word) (l : List Nat) : State := l.foldl (fun (s : State) i => s.setReg n i 0 (v i)) s

theorem State.setRegs_regs (s : State) (n : RegName) (v : Nat → Word) (l : List Nat) :
    s.setRegs n v l = { s with regs := (s.setRegs n v l).regs } := by
  refine List.foldlRecOn (motive := fun t : State => t = { s with regs := t.regs }) l _ rfl ?_
  intro t ht i _
  rw [ht]
  rfl

theorem State.setRegs_cons (s : State) (n : RegName) (v : Nat → Word) (i : Nat) (l : List Nat) :
    s.setRegs n v (i :: l) = (s.setReg n i 0 (v i)).setRegs n v l := rfl

theorem State.reg_setRegs_other (s : State) (n : RegName) (v : Nat → Word) {l : List Nat} {m : RegName} {k : Nat}
    (h : ∀ i ∈ l, regOffset m k 0 ≠ regOffset n i 0) : (s.setRegs n v l).reg m k 0 = s.reg m k 0 := by
  induction l generalizing s with
  | nil => rfl
  | cons i l ih =>
    exact (ih (s.setReg n i 0 (v i)) fun i hi => h i (List.mem_cons_of_mem _ hi)).trans
      (State.reg_setReg_other _ _ _ _ _ _ _ _ (h i List.mem_cons_self))

/-- STM_SENSE lies apart from the input readings. -/
theorem regOffset_pwrInput_ne_stmSense {i : Nat} (h : i < 512) : regOffset .pwrInput 0 0 ≠ regOffset .stmSense i 0 := by
  simp only [regOffset, RegName.row]
  omega

theorem State.fld_setRegs_sense (s : State) (v : Nat → Word) {f : FieldRef} (hreg : f.reg = .pwrInput) :
    (s.setRegs .stmSense v (List.range 512)).fld f = s.fld f := by
  have hinput : (s.setRegs .stmSense v (List.range 512)).reg .pwrInput 0 0 = s.reg .pwrInput 0 0 :=
    s.reg_setRegs_other _ _ fun i hi => regOffset_pwrInput_ne_stmSense (List.mem_range.mp hi)
  simp only [State.fld, hreg, hinput]

/-- The first word of the snapshot stays as it was written. -/
theorem State.reg_setRegs_sense (s : State) (v : Nat → Word) : (s.setRegs .stmSense v (List.range 512)).reg .stmSense 0 0 = v 0 := by
  have hapart : ∀ i ∈ List.range' 1 511, regOffset .stmSense 0 0 ≠ regOffset .stmSense i 0 := by
    intro i hi
    have hpos := (List.mem_range'_1.mp hi).1
    simp only [regOffset, RegName.row]
    omega
  have hrange : List.range 512 = 0 :: List.range' 1 511 := by rw [List.range_eq_range', List.range'_succ]
  rw [hrange, State.setRegs_cons, State.reg_setRegs_other _ _ _ hapart, State.reg_setReg_same]

/-- The state with the input readings and the core rails' currents shown. -/
def State.inputsShown (s : State) (volts milliamps deciwatts : Nat) (railAmps : List Nat) : State :=
  ((((s.setFld PWR_INPUT_VOLTS volts).setFld PWR_INPUT_AMPS milliamps).setFld PWR_INPUT_POWER deciwatts).setFld PWR_RAIL_AMPS
    (railAmps.getD 0 0) 0).setFld PWR_RAIL_AMPS (railAmps.getD 1 0) 1

/-- The currents stand apart from the input readings. -/
theorem State.fld_setAmps (s : State) (v : Nat) {d : Nat} {f : FieldRef} (hreg : f.reg = .pwrInput) :
    (s.setFld PWR_RAIL_AMPS v d).fld f = s.fld f :=
  s.fld_setFld_reg PWR_RAIL_AMPS f v d 0 0 0 (by rw [hreg]; simp only [regOffset, RegName.row]; omega)

theorem State.inputsShown_fld (s : State) (volts milliamps deciwatts : Nat) (railAmps : List Nat) :
    (s.inputsShown volts milliamps deciwatts railAmps).fld PWR_INPUT_VOLTS = volts % 2 ^ 16 ∧
      (s.inputsShown volts milliamps deciwatts railAmps).fld PWR_INPUT_AMPS = milliamps % 2 ^ 16 ∧
      (s.inputsShown volts milliamps deciwatts railAmps).fld PWR_INPUT_POWER = deciwatts % 2 ^ 16 := by
  unfold State.inputsShown
  simp only [State.fld_setAmps _ _ (show FieldRef.reg PWR_INPUT_VOLTS = .pwrInput from rfl),
    State.fld_setAmps _ _ (show FieldRef.reg PWR_INPUT_AMPS = .pwrInput from rfl),
    State.fld_setAmps _ _ (show FieldRef.reg PWR_INPUT_POWER = .pwrInput from rfl)]
  refine ⟨?_, ?_, State.fld_setFld_same _ PWR_INPUT_POWER _ 0 0 (by decide)⟩
  · rw [State.fld_setFld_field _ PWR_INPUT_POWER PWR_INPUT_VOLTS _ 0 0 rfl (by decide) (by decide),
      State.fld_setFld_field _ PWR_INPUT_AMPS PWR_INPUT_VOLTS _ 0 0 rfl (by decide) (by decide)]
    exact State.fld_setFld_same _ PWR_INPUT_VOLTS _ 0 0 (by decide)
  · rw [State.fld_setFld_field _ PWR_INPUT_POWER PWR_INPUT_AMPS _ 0 0 rfl (by decide) (by decide)]
    exact State.fld_setFld_same _ PWR_INPUT_AMPS _ 0 0 (by decide)

theorem State.inputsShown_sense (s : State) (volts milliamps deciwatts : Nat) (railAmps : List Nat) :
    (s.inputsShown volts milliamps deciwatts railAmps).reg .stmSense 0 0 = s.reg .stmSense 0 0 := by
  have hset : ∀ (t : State) (f : FieldRef) (v d : Nat), (f.reg = .pwrInput ∨ f.reg = .pwrRail) →
      (t.setFld f v d).reg .stmSense 0 0 = t.reg .stmSense 0 0 := by
    intro t f v d hreg
    refine t.reg_setReg_other f.reg .stmSense d 0 0 0 _ ?_
    rcases hreg with hreg | hreg
    all_goals
      rw [hreg]
      simp only [regOffset, RegName.row]
      omega
  unfold State.inputsShown
  rw [hset _ _ _ _ (.inr rfl), hset _ _ _ _ (.inr rfl), hset _ _ _ _ (.inl rfl), hset _ _ _ _ (.inl rfl), hset _ _ _ _ (.inl rfl)]

/-- SNAP stands in the low half of the first word. -/
theorem leAt_snap (snap : Nat) (rest : Bytes) : leAt (leBytes 4 snap ++ leBytes 4 0 ++ rest) 0 8 % 2 ^ 32 = snap % 2 ^ 32 := by
  rw [leBytes_append, leAt_leBytes_append_zero]
  omega

theorem State.sensePublish_on {s : State} (hpower : s.phase ≠ phPower) (dt : Nat) (diodes : List Int) (volts milliamps deciwatts : Nat)
    (railAmps : List Nat) (rails i3c : List (BitVec 16)) : ∃ rest, s.sensePublish dt diodes volts milliamps deciwatts railAmps rails i3c =
      ((s.tick dt).inputsShown volts milliamps deciwatts railAmps).setRegs .stmSense
        (fun i => BitVec.ofNat 64 (leAt (leBytes 4 (((s.reg .stmSense 0 0).toNat % 2 ^ 32 + 2) % 2 ^ 32) ++ leBytes 4 0 ++ rest) (8 * i) 8))
        (List.range 512) := by
  have hsnap : ((s.tick dt).inputsShown volts milliamps deciwatts railAmps).reg .stmSense 0 0 = s.reg .stmSense 0 0 :=
    State.inputsShown_sense _ _ _ _ _
  unfold State.sensePublish
  extract_lets ticked inputs shown snap bytes
  have hon : ¬ ticked.phase = phPower := hpower
  rw [if_neg hon]
  have hbytes : ∃ rest, bytes = leBytes 4 snap ++ leBytes 4 0 ++ rest := ⟨_, by simp only [bytes, List.append_assoc]; rfl⟩
  obtain ⟨rest, hbytes⟩ := hbytes
  have hshown : snap = ((s.reg .stmSense 0 0).toNat % 2 ^ 32 + 2) % 2 ^ 32 := congrArg (fun w => (BitVec.toNat w % 2 ^ 32 + 2) % 2 ^ 32) hsnap
  rw [hbytes, hshown]
  exact ⟨rest, rfl⟩

/-- Settles O8: a slice has one turn in a pass; a throttled die's rail goes down; the snapshot's registers lie apart from the readings. -/
theorem governorPacesAndStepsRails : Obligations.GovernorPacesAndStepsRails := by
  intro s
  refine ⟨?above, ?below, ?rail, ?sense⟩
  case above =>
    rintro draws input sl _ hpower hfailed hopen hnodup hsl hown hcalm rfl hover
    obtain ⟨hpace, hdraw, hbulk, hrecord⟩ := State.governorPass_effect hpower hfailed hopen draws hcalm hnodup hsl hown
    exact completes_of_next rfl ⟨hpace.trans (if_pos hover), hdraw, hbulk, hrecord⟩
  case below =>
    rintro draws input sl w hpower hfailed hopen hnodup hsl hown hcalm hw hunder hlevel
    obtain ⟨hpace, -, hbulk, hrecord⟩ := State.governorPass_effect hpower hfailed hopen draws hcalm hnodup hsl hown
    have hdraw : (s.drawn draws).sliceDraw sl = w := hw.symm
    rw [hdraw, pacedLevel, if_neg (by omega), if_pos ⟨hunder, hlevel⟩] at hpace
    exact completes_of_next rfl ⟨hpace, hbulk, hrecord⟩
  case rail =>
    intro input d hd halign hfailed hopen hthrottled
    refine completes_of_next (congrArg Host.Outcome.next (State.railStep_on halign hfailed hopen input)) ⟨?_, rfl⟩
    obtain rfl | rfl : d = 0 ∨ d = 1 := by omega
    · exact (State.railStepDie_other _ _ (by decide)).trans (State.railStepDie_throttled hthrottled input)
    · have hstill := (s.railStepDie_throttle input (d := 0) (by decide) hd).trans hthrottled
      rw [State.railStepDie_throttled hstill, State.railStepDie_other _ _ (by decide)]
  case sense =>
    intro dt diodes volts milliamps deciwatts railAmps rails i3c hpower
    obtain ⟨rest, hstep⟩ := State.sensePublish_on hpower dt diodes volts milliamps deciwatts railAmps rails i3c
    obtain ⟨hvolts, hamps, hwatts⟩ := (s.tick dt).inputsShown_fld volts milliamps deciwatts railAmps
    refine completes_of_next (congrArg Host.Outcome.next hstep) ⟨?_, ?_, ?_, ?_, ?_⟩
    · exact (State.fld_setRegs_sense _ _ rfl).trans hvolts
    · exact (State.fld_setRegs_sense _ _ rfl).trans hamps
    · exact (State.fld_setRegs_sense _ _ rfl).trans hwatts
    · rw [State.reg_setRegs_sense, BitVec.toNat_ofNat, Nat.mod_mod_of_dvd _ (by decide), Nat.mul_zero, leAt_snap]
      omega
    · refine (State.setRegs_regs _ _ _ _).trans ?_
      rfl

end Sys2Proof.Machine
end

