-- ==== Sys2Proof/Proofs/StationClock.lean ====
section
/-! The discipline of the station clock (R575, Table 20-5): an offset of at most 1 ms slews the clock, and a lost source unlocks it. -/

namespace Sys2Proof.Machine

theorem State.sameButLog_logTime (s : State) (event : Nat) (step : Int) : s.SameButLog (s.logTime event step) := s.sameButLog_logAppend _ _

theorem State.SameButLog.clock {s t : State} (h : s.SameButLog t) : t.clock = s.clock := by
  obtain ⟨_, _, _, _, rfl⟩ := h
  rfl

/-- The field holds every offset that it is given. -/
theorem offsetField_lt (offset : Int) : offsetField offset < 2 ^ 32 := by
  unfold offsetField ofSigned
  omega

/-- The lock reaches neither the time nor the offset. -/
theorem State.lockStep_effect (s : State) (offset : Int) : (s.lockStep offset).clock.station = s.clock.station ∧
    (s.lockStep offset).clock.lastSync = s.clock.lastSync ∧ (s.lockStep offset).fld STM_TIME_OFFSET = s.fld STM_TIME_OFFSET ∧
    SameBulk s (s.lockStep offset) := by
  unfold State.lockStep
  extract_lets good clock counted clockAfter
  split
  · have hlog := State.sameButLog_logTime (({ counted with clock := { clockAfter with locked := true } } : State).setFld STM_TIME_LOCKED 1) 1 0
    have hoffset := State.fld_setFld_field { counted with clock := { clockAfter with locked := true } } STM_TIME_LOCKED STM_TIME_OFFSET 1 0 0
      rfl (by decide) (by decide)
    exact ⟨(congrArg Clock.station hlog.clock :), (congrArg Clock.lastSync hlog.clock :), (hlog.fld _ 0 0).trans hoffset,
      SameBulk.trans (.of_control rfl) hlog.sameBulk⟩
  · exact ⟨rfl, rfl, rfl, .of_control rfl⟩

/-- An offset of at most 1 ms is recorded, and the clock moves by no more than the offset and 200 ppm of the interval. -/
theorem State.discipline_slew (s : State) (dt : Nat) {offset : Int} (hsmall : offset.natAbs ≤ 1000000) :
    (s.discipline dt offset).fld STM_TIME_OFFSET = offsetField offset ∧ (s.discipline dt offset).clock.lastSync = s.clock.mono ∧
      (((s.discipline dt offset).clock.station : Int) - s.clock.station).natAbs ≤ min offset.natAbs (maxSlew dt) ∧
      SameBulk s (s.discipline dt offset) := by
  unfold State.discipline
  extract_lets shown clock synced slew station clockAfter
  rw [if_neg (Nat.not_lt.mpr hsmall)]
  obtain ⟨hstation, hsync, hoffset, hbulk⟩ :=
    State.lockStep_effect { synced with freeCtr := synced.freeCtr + 1, clock := { clockAfter with station := station } } offset
  have hshown : shown.fld STM_TIME_OFFSET = offsetField offset :=
    (s.fld_setFld_same STM_TIME_OFFSET _ 0 0 (by decide)).trans (Nat.mod_eq_of_lt (offsetField_lt offset))
  have hslew : slew ≤ min offset.natAbs (maxSlew dt) := Nat.min_le_right _ _
  refine ⟨hoffset.trans hshown, hsync, ?_, SameBulk.trans (.of_control rfl) hbulk⟩
  have hmoved : station = if offset < 0 then s.clock.station + slew else s.clock.station - slew := rfl
  have hbounded : ((station : Int) - s.clock.station).natAbs ≤ slew := by
    rw [hmoved]
    split <;> omega
  rw [hstation]
  exact hbounded.trans hslew

/-- The same after the interval, of which a clock that runs has counted every nanosecond. -/
theorem State.discipline_tick {s : State} (hrunning : s.clock.running = true) (dt : Nat) {offset : Int} (hsmall : offset.natAbs ≤ 1000000) :
    ((s.tick dt).discipline dt offset).fld STM_TIME_OFFSET = offsetField offset ∧
      ((s.tick dt).discipline dt offset).clock.lastSync = s.clock.mono + dt ∧
      ((((s.tick dt).discipline dt offset).clock.station : Int) - (s.clock.station + dt : Nat)).natAbs ≤ min offset.natAbs (maxSlew dt) ∧
      SameBulk s ((s.tick dt).discipline dt offset) := by
  obtain ⟨hoffset, hsync, hmoved, hbulk⟩ := (s.tick dt).discipline_slew dt hsmall
  have hstation : (s.tick dt).clock.station = s.clock.station + dt := if_pos hrunning
  rw [hstation] at hmoved
  exact ⟨hoffset, hsync, hmoved, SameBulk.trans (.of_control rfl) hbulk⟩

/-- A clock that has lost its source is unlocked and logged. -/
theorem State.ptpLockLoss_due {s : State} {dt : Nat} (hlocked : s.clock.locked = true) (hdue : s.clock.lastSync + 8 * 10 ^ 9 ≤ s.clock.mono + dt) :
    s.ptpLockLoss dt = (({ s.tick dt with clock := { (s.tick dt).clock with locked := false, goodOffsets := 0 } } : State).setFld
      STM_TIME_LOCKED 0).logTime 2 0 := by
  have hlost : ((s.tick dt).clock.locked && decide ((s.tick dt).clock.lastSync + 8 * 10 ^ 9 ≤ (s.tick dt).clock.mono)) = true := by
    have hmono : (s.tick dt).clock.mono = s.clock.mono + dt := rfl
    have hsame : (s.tick dt).clock.lastSync = s.clock.lastSync := rfl
    rw [hmono, hsame, decide_eq_true hdue, Bool.and_true]
    exact hlocked
  exact if_pos hlost

/-- Settles O9: a Sync and an edge of the 1PPS input discipline the clock in the same way. -/
theorem stationClockIsDisciplined : Obligations.StationClockIsDisciplined := by
  intro s
  refine ⟨?sync, ?pps, ?loss, ?edge⟩
  case sync =>
    intro dt offset hrunning hup hsource hsmall
    have hheard : ((s.tick dt).clock.running && (s.tick dt).mgmtUp && (s.tick dt).fld STM_TIME_SRC == 0) = true := by
      have hsame : ((s.tick dt).clock.running && (s.tick dt).mgmtUp && (s.tick dt).fld STM_TIME_SRC == 0) =
        (s.clock.running && s.mgmtUp && s.fld STM_TIME_SRC == 0) := rfl
      rw [hsame, hrunning, hup, hsource]
      rfl
    have hstep : s.ptpSync dt offset = (s.tick dt).discipline dt offset := if_pos hheard
    exact completes_of_next (congrArg Host.Outcome.next hstep) (State.discipline_tick hrunning dt hsmall)
  case pps =>
    intro dt offset hrunning hboot hsource hsmall
    have hheard : ((s.tick dt).clock.running && decide (phBoot ≤ (s.tick dt).phase) && (s.tick dt).fld STM_TIME_SRC == 1) = true := by
      have hsame : ((s.tick dt).clock.running && decide (phBoot ≤ (s.tick dt).phase) && (s.tick dt).fld STM_TIME_SRC == 1) =
        (s.clock.running && decide (phBoot ≤ s.phase) && s.fld STM_TIME_SRC == 1) := rfl
      rw [hsame, hrunning, hsource, decide_eq_true hboot]
      rfl
    have hstep : s.ppsIn dt offset = (s.tick dt).discipline dt offset := if_pos hheard
    exact completes_of_next (congrArg Host.Outcome.next hstep) (State.discipline_tick hrunning dt hsmall)
  case loss =>
    intro dt hlocked hdue
    have hlog := State.sameButLog_logTime
      (({ s.tick dt with clock := { (s.tick dt).clock with locked := false, goodOffsets := 0 } } : State).setFld STM_TIME_LOCKED 0) 2 0
    exact completes_of_next (congrArg Host.Outcome.next (State.ptpLockLoss_due hlocked hdue))
      ⟨(congrArg Clock.locked hlog.clock :), (hlog.fld _ 0 0).trans (State.fld_setFld_same _ STM_TIME_LOCKED 0 0 0 (by decide)),
        (congrArg Clock.station hlog.clock :), SameBulk.trans (.of_control rfl) hlog.sameBulk⟩
  case edge => exact fun hrunning => congrArg Host.Outcome.next (if_pos hrunning)

end Sys2Proof.Machine
end

