-- ==== Sys2Proof/Proofs/FirmwareActivation.lean ====
section
/-! Firmware (R557, R568 to R570, Table 19-4): staging, the four steps of an activation, and the commit. -/

namespace Sys2Proof.Machine

/-! ### Staging (R568) -/

theorem State.running_spec {s : State} {r seq op : Nat} {c : Cmd} (h : s.running r seq op = some c) : s.cmd r seq = some c := by
  unfold State.running at h
  split at h
  · next d hd =>
    split at h
    · rw [hd, ← h]
    · cases h
  · cases h

theorem State.setSlot_effect (s : State) (slot : Nat) (x : FwSlot) :
    ∃ a b, s.setSlot slot x = { s with nv := { s.nv with slotA := a, slotB := b } } := by
  unfold State.setSlot
  split <;> exact ⟨_, _, rfl⟩

/-- With no trial and no activation FW_STAGE does what its parameters name, and its status ends it. -/
theorem State.fwStage_idle {s : State} {r seq : Nat} {c : Cmd} (hc : s.running r seq 0x0100 = some c)
    (hzero : c.unusedZero [(32, 4), (40, 9)] = true) (htrial : s.nv.trial = none) (hidle : s.stm.act.stage = .idle) :
    s.fwStage r seq = (s.stage (c.par 32 4) (c.par 40 8) (c.par 48 1) (s.payload c)).2.finish c
      (s.stage (c.par 32 4) (c.par 40 8) (c.par 48 1) (s.payload c)).1 := by
  unfold State.fwStage
  simp only [hc, hzero, htrial, hidle, Bool.not_true, Bool.false_eq_true, if_false, Option.isSome_none, Bool.false_or, bne_self_eq_false]

/-- A part at OFFSET 0 begins a new image of TOTAL bytes. -/
theorem State.stagePart_first (s : State) {total : Nat} {p : Bytes} (hfits : p.length ≤ total) (hmax : total ≤ 2 ^ 27) :
    ∃ a b, s.stagePart total 0 p =
      (stOK, { s with stm := { s.stm with stage := some ⟨total, memWrite [] 0 p, [(0, p.length)]⟩, verified := none },
                      nv := { s.nv with slotA := a, slotB := b } }) := by
  have hin : ¬ (total ≠ total ∨ total < 0 + p.length ∨ 2 ^ 27 < total) := by
    rintro (h | h | h)
    · exact h rfl
    · omega
    · exact absurd hmax (Nat.not_le.mpr h)
  obtain ⟨a, b, hslot⟩ := State.setSlot_effect
    { s with stm := { s.stm with stage := some ⟨total, memWrite [] 0 p, [(0, p.length)]⟩, verified := none } } s.idleSlot
    (if (StageBuf.mk total (memWrite [] 0 p) [(0, p.length)]).complete then FwSlot.ofImage (memRead (memWrite [] 0 p) 0 total) else FwSlot.empty)
  refine ⟨a, b, ?_⟩
  unfold State.stagePart
  dsimp only
  rw [if_pos rfl]
  dsimp only
  rw [if_neg hin, Nat.zero_add, List.nil_append]
  exact congrArg (Prod.mk stOK) hslot

/-- A FIRMWARE entry reaches the log and leaves the activation as it is. -/
theorem State.logFirmware_effect (s : State) (action before after : Nat) :
    ∃ stm log, s.logFirmware action before after = { s with stm := stm, nv := { s.nv with log := log } } ∧ stm.besideFaults = s.stm.besideFaults :=
  ⟨_, _, State.logAppend_eq _ _ _, State.stm_of_besideFaults (State.logAppend_besideFaults _ _ _)⟩

/-- An image that the device may run is verified by its measurement and its signature. -/
theorem State.stageCheck_whole {s : State} {b : StageBuf} (hstage : s.stm.stage = some b) {x : FwSlot}
    (hx : x = FwSlot.ofImage (memRead b.mem 0 b.total)) (hwhole : b.complete = true) (hpresent : x.present = true) (hvariant : bitOf x.variants s.nv.record.variant = true)
    (hfloor : x.floor ≤ x.version) (hrollback : s.nv.rollback ≤ x.version) : ∃ stm log,
    s.stageCheck = (if x.measOk && x.sigOk then stOK else stMISMATCH, { s with stm := stm, nv := { s.nv with log := log } }) ∧
      stm.verified = if x.measOk && x.sigOk then some x else s.stm.verified := by
  have hserves : (!b.complete || !x.present || !bitOf x.variants s.nv.record.variant || decide (x.version < x.floor) ||
      decide (x.version < s.nv.rollback)) = false := by
    simp [hwhole, hpresent, hvariant, hfloor, hrollback]
  unfold State.stageCheck
  rw [hstage]
  dsimp only
  rw [← hx, hserves, if_neg Bool.false_ne_true, ← Bool.not_and]
  cases x.measOk && x.sigOk with
  | false => exact ⟨s.stm, s.nv.log, rfl, rfl⟩
  | true =>
    obtain ⟨stm, log, hlog, hstm⟩ := State.logFirmware_effect { s with stm := { s.stm with verified := some x } } 1
      (s.fld STM_STATE_VERSION) x.version
    exact ⟨stm, log, congrArg (Prod.mk stOK) hlog, (congrArg Stationmaster.verified hstm :)⟩

/-! ### The commit, and the end of an activation (R570) -/

theorem State.commit_effect (s : State) : ∃ stm log, s.commit =
    { s with stm := stm, nv := { s.nv with log := log, rollback := max s.nv.rollback s.runningImage.floor, trial := none } } ∧
      stm.besideFaults = s.stm.besideFaults :=
  State.logFirmware_effect { s with nv := { s.nv with rollback := max s.nv.rollback s.runningImage.floor, trial := none } } 3
    s.runningImage.version s.runningImage.version

/-- An activation that serves a command ends with that command. -/
theorem State.endActivation_of_cmd {s : State} {r seq : Nat} {c : Cmd} (hcmd : s.stm.act.cmd = some (r, seq)) (hc : s.cmd r seq = some c)
    (status : Nat) : s.endActivation status =
      ({ s with stm := { s.stm with act := { stage := .idle, cmd := none, mode := 0, slot := 0 } } } : State).finish c status := by
  have hsame : State.cmd { s with stm := { s.stm with act := { stage := .idle, cmd := none, mode := 0, slot := 0 } } } r seq = some c := hc
  unfold State.endActivation
  dsimp only
  rw [hcmd, Option.bind_some]
  dsimp only
  rw [hsame]

/-! ### The steps of an activation (Table 19-4) -/

/-- STANDBY stands beside ACTIVE, SLOT and VERSION. -/
theorem State.fld_setStandby (s : State) (v : Nat) (hv : v < 4) : (s.setFld STM_STATE_STANDBY v).fld STM_STATE_STANDBY = v ∧
    (s.setFld STM_STATE_STANDBY v).fld STM_STATE_ACTIVE = s.fld STM_STATE_ACTIVE ∧
    (s.setFld STM_STATE_STANDBY v).fld STM_STATE_SLOT = s.fld STM_STATE_SLOT :=
  ⟨(s.fld_setFld_same STM_STATE_STANDBY v 0 0 (by decide)).trans (Nat.mod_eq_of_lt hv),
    s.fld_setFld_field STM_STATE_STANDBY STM_STATE_ACTIVE v 0 0 rfl (by decide) (by decide),
    s.fld_setFld_field STM_STATE_STANDBY STM_STATE_SLOT v 0 0 rfl (by decide) (by decide)⟩

theorem State.activationStandbyRestart_up {s : State} (hstage : s.stm.act.stage = .standbyRestart) (hup : s.isUp s.standbyDie = true)
    (verified : Bool) : s.activationStandbyRestart verified =
      if verified && s.nv.accepts s.stm.act.slot then
        { (s.setFld STM_STATE_STANDBY 2).mirrorNow with stm := { (s.setFld STM_STATE_STANDBY 2).mirrorNow.stm with
            act := { s.stm.act with stage := .handover } } }
      else (s.setFld STM_STATE_STANDBY 2).endActivation stMISMATCH := by
  have hserved : ¬ ((s.stm.act.stage != .standbyRestart || !s.isUp s.standbyDie) = true) := by simp [hstage, hup]
  exact if_neg hserved

/-- The slot of the activation is marked active, and a trial begins or ends with the mark. -/
def State.slotMarked (s : State) : State :=
  { s with
    nv := { s.nv with
      activeSlot := s.stm.act.slot,
      trial := if s.stm.act.mode = 0 then some ⟨0, 1 - s.stm.act.slot⟩ else if s.stm.act.mode = 2 then none else s.nv.trial }
    stm := { s.stm with act := { s.stm.act with stage := .activeRestart }, trialPassed := 0 } }

theorem State.activationHandover_due {s : State} (hstage : s.stm.act.stage = .handover) : s.activationHandover =
    (s.slotMarked.swapActive.setFld STM_STATE_SLOT s.stm.act.slot).setFld STM_STATE_VERSION (s.slotMarked.nv.image s.stm.act.slot).version := by
  have hserved : ¬ ((s.stm.act.stage != .handover) = true) := by simp [hstage]
  have hnv : ∀ t : State, t.swapActive.nv = t.nv := fun t => by
    obtain ⟨⟨regs, hswap⟩, -⟩ := t.swapActive_effect
    rw [hswap]
  rw [← hnv s.slotMarked]
  exact (if_neg hserved).trans (by rw [hnv]; rfl)

theorem State.fld_setSlot_version (s : State) (slot version : Nat) {f : FieldRef} (hreg : f.reg = .stmState) (hlow : f.lo + f.width ≤ 3) :
    ((s.setFld STM_STATE_SLOT slot).setFld STM_STATE_VERSION version).fld f = s.fld f := by
  rw [State.fld_setFld_field _ STM_STATE_VERSION f _ 0 0 hreg (by decide) (.inl (hlow.trans (by decide))),
    State.fld_setFld_field _ STM_STATE_SLOT f _ 0 0 hreg (by decide) (.inl hlow)]

theorem State.activationActiveRestart_verified {s : State} (hstage : s.stm.act.stage = .activeRestart) : s.activationActiveRestart true =
    ({ s.mirrorNow with stm := { s.mirrorNow.stm with act := { s.stm.act with stage := .handback } } } : State).setFld STM_STATE_STANDBY 2 := by
  have hserved : ¬ ((s.stm.act.stage != .activeRestart) = true) := by simp [hstage]
  exact (if_neg hserved).trans (if_pos rfl)

/-- The active role has returned, and the other Stationmaster is a ready standby. -/
def State.roleReturned (s : State) : State := s.swapActive.setFld STM_STATE_STANDBY 2

theorem State.roleReturned_effect (s : State) :
    (∃ regs, s.roleReturned = { s with stm := { s.stm with mirror := some s.mirrorOf }, regs := regs }) ∧
      s.roleReturned.fld STM_STATE_ACTIVE = s.standbyDie % 2 ∧ s.roleReturned.fld STM_STATE_STANDBY = 2 ∧
      s.roleReturned.runningImage = s.runningImage := by
  obtain ⟨⟨regs, hswap⟩, hactive, -, hslot⟩ := s.swapActive_effect
  obtain ⟨hstandby, hactiveSame, hslotSame⟩ := s.swapActive.fld_setStandby 2 (by decide)
  have hnv : s.roleReturned.nv = s.nv := (congrArg State.nv hswap :)
  refine ⟨⟨_, (congrArg (fun t : State => t.setFld STM_STATE_STANDBY 2) hswap :)⟩, hactiveSame.trans hactive, hstandby, ?_⟩
  unfold State.runningImage
  rw [hnv]
  exact congrArg _ (hslotSame.trans hslot)

/-- What the log gets at the end of an activation: ACTIVATED, then COMMITTED or REVERTED. -/
def State.activationLogged (s : State) (mode before after : Nat) : State :=
  if mode = 1 then (s.logFirmware 2 before after).commit
  else if mode = 2 then (s.logFirmware 2 before after).logFirmware 4 before after
  else s.logFirmware 2 before after

/-- The rollback counter rises only at a commit. -/
theorem State.activationLogged_effect (s : State) (mode before after : Nat) : ∃ stm log trial, s.activationLogged mode before after = { s with
      stm := stm
      nv := { s.nv with
        log := log, trial := trial, rollback := if mode = 1 then max s.nv.rollback s.runningImage.floor else s.nv.rollback } } ∧
      stm.besideFaults = s.stm.besideFaults := by
  obtain ⟨stm, log, hlog, hstm⟩ := s.logFirmware_effect 2 before after
  unfold State.activationLogged
  rw [hlog]
  split
  · obtain ⟨stm', log', hcommit, hstm'⟩ := State.commit_effect { s with stm := stm, nv := { s.nv with log := log } }
    exact ⟨stm', log', none, hcommit, hstm'.trans hstm⟩
  · split
    · obtain ⟨stm', log', hrevert, hstm'⟩ := State.logFirmware_effect { s with stm := stm, nv := { s.nv with log := log } } 4 before after
      exact ⟨stm', log', s.nv.trial, hrevert, hstm'.trans hstm⟩
    · exact ⟨stm, log, s.nv.trial, rfl, hstm⟩

theorem State.activationHandback_due {s : State} (hstage : s.stm.act.stage = .handback) : ∃ before after,
    s.activationHandback = ({ s.roleReturned.activationLogged s.stm.act.mode before after with
      stm := { (s.roleReturned.activationLogged s.stm.act.mode before after).stm with stage := none, verified := none } } : State).endActivation
        stOK := by
  have hserved : ¬ ((s.stm.act.stage != .handback) = true) := by simp [hstage]
  refine ⟨(s.nv.image (1 - s.stm.act.slot)).version, (s.nv.image s.stm.act.slot).version, (if_neg hserved).trans ?_⟩
  rfl

/-- Settles O21: staging and each step of an activation are their lemmas' states; only a commit touches the rollback counter. -/
theorem firmwareIsStagedActivatedAndCommitted : Obligations.FirmwareIsStagedActivatedAndCommitted := by
  intro s
  refine ⟨?part, ?check, ?trial, ?commit, ?trialCommit, ?revert, ?restarted, ?mismatch, ?handover, ?standby, ?handback, ?timeout⟩
  case part =>
    rintro r seq c total hc hzero htrial hidle hphase hoff rfl hfits hmax
    have hstep := State.fwStage_idle hc hzero htrial hidle
    obtain ⟨a, b, hpart⟩ := s.stagePart_first hfits hmax
    have hstage : s.stage (c.par 32 4) 0 0 (s.payload c) = s.stagePart (c.par 32 4) 0 (s.payload c) := rfl
    rw [hphase, hoff, hstage, hpart] at hstep
    exact completes_of_next (congrArg Host.Outcome.next hstep) ⟨rfl, rfl, rfl, rfl, State.ended_finish, rfl, rfl, rfl, rfl, rfl, rfl⟩
  case check =>
    intro r seq c b x hc hzero htrial hidle hphase hempty hbuf hx hwhole hpresent hvariant hfloor hrollback
    have hstep := State.fwStage_idle hc hzero htrial hidle
    obtain ⟨stm, log, hcheck, hverified⟩ := State.stageCheck_whole hbuf hx hwhole hpresent hvariant hfloor hrollback
    have hstage : s.stage (c.par 32 4) (c.par 40 8) 1 [] = s.stageCheck := rfl
    rw [hphase, hempty, hstage, hcheck] at hstep
    exact completes_of_next (congrArg Host.Outcome.next hstep) ⟨State.ended_finish, hverified, rfl, rfl, rfl, rfl, rfl, rfl, rfl, rfl⟩
  case trial =>
    intro r seq c hc hstatus
    have hstep : s.fwActivateTrial r seq = s.beginActivation (some (r, seq)) 0 s.idleSlot := by simp only [State.fwActivateTrial, hc, hstatus]
    exact congrArg Host.Outcome.next hstep
  case commit =>
    intro r seq c hc hstatus htrial
    have hstep : s.fwActivateCommit r seq = s.beginActivation (some (r, seq)) 1 s.idleSlot := by
      simp only [State.fwActivateCommit, hc, hstatus, htrial, Option.isSome_none, Bool.false_eq_true, if_false]
    exact congrArg Host.Outcome.next hstep
  case trialCommit =>
    intro r seq c x hc hstatus htrial
    obtain ⟨stm, log, hcommit, -⟩ := s.commit_effect
    have hstep : s.fwActivateCommit r seq = s.commit.finish c stOK := by
      simp only [State.fwActivateCommit, hc, hstatus, htrial, Option.isSome_some, if_true]
    rw [hcommit] at hstep
    exact completes_of_next (congrArg Host.Outcome.next hstep) ⟨rfl, rfl, rfl, State.ended_finish, rfl, rfl, rfl, rfl, rfl, rfl⟩
  case revert =>
    intro r seq c x hc hstatus htrial
    have hstep : s.fwActivateRevert r seq = s.beginActivation (some (r, seq)) 2 x.prevSlot := by
      simp only [State.fwActivateRevert, hc, hstatus, htrial, Option.elim_some]
    exact congrArg Host.Outcome.next hstep
  case restarted =>
    intro hstage hup haccepts
    have hstep := State.activationStandbyRestart_up hstage hup true
    rw [haccepts, Bool.and_true, if_pos rfl] at hstep
    obtain ⟨hstandby, -⟩ := s.fld_setStandby 2 (by decide)
    exact completes_of_next (congrArg Host.Outcome.next hstep) ⟨rfl, hstandby, rfl, rfl⟩
  case mismatch =>
    intro r seq c hstage hup hcmd hc
    have hstep := State.activationStandbyRestart_up hstage hup false
    rw [Bool.false_and, if_neg Bool.false_ne_true, State.endActivation_of_cmd (by exact hcmd) (by exact hc)] at hstep
    obtain ⟨hstandby, -⟩ := s.fld_setStandby 2 (by decide)
    exact completes_of_next (congrArg Host.Outcome.next hstep) ⟨rfl, State.ended_finish, rfl, hstandby⟩
  case handover =>
    rintro _ hstage rfl
    obtain ⟨⟨regs, hswap⟩, hactive, hstandby, -⟩ := s.slotMarked.swapActive_effect
    have hfields := fun (f : FieldRef) hreg hlow =>
      s.slotMarked.swapActive.fld_setSlot_version s.stm.act.slot (s.slotMarked.nv.image s.stm.act.slot).version (f := f) hreg hlow
    have hactive' := (hfields STM_STATE_ACTIVE rfl (by decide)).trans hactive
    have hstandby' := (hfields STM_STATE_STANDBY rfl (by decide)).trans hstandby
    have hstep := State.activationHandover_due hstage
    rw [hswap] at hactive' hstandby' hstep
    exact completes_of_next (congrArg Host.Outcome.next hstep) ⟨rfl, hactive', hstandby', rfl, rfl, rfl, rfl, rfl, rfl, rfl, rfl, rfl⟩
  case standby =>
    intro hstage
    obtain ⟨hstandby, -⟩ := State.fld_setStandby { s.mirrorNow with stm := { s.mirrorNow.stm with act := { s.stm.act with stage := .handback } } } 2
      (by decide)
    exact completes_of_next (congrArg Host.Outcome.next (State.activationActiveRestart_verified hstage)) ⟨rfl, hstandby, rfl⟩
  case handback =>
    rintro r seq c _ hstage rfl hcmd hc
    obtain ⟨before, after, hstep⟩ := State.activationHandback_due hstage
    obtain ⟨⟨regs, hreturned⟩, hactive, hstandby, himage⟩ := s.roleReturned_effect
    obtain ⟨stm, log, trial, hlogged, hstm⟩ := s.roleReturned.activationLogged_effect s.stm.act.mode before after
    rw [himage] at hlogged
    rw [hreturned] at hactive hstandby hlogged hstm
    rw [hreturned, hlogged, State.endActivation_of_cmd (c := c) (r := r) (seq := seq) (by exact (congrArg (fun m => m.act.cmd) hstm).trans hcmd)
      (by exact hc)] at hstep
    exact completes_of_next (congrArg Host.Outcome.next hstep)
      ⟨rfl, hactive, hstandby, rfl, rfl, State.ended_finish, rfl, rfl, rfl, rfl, rfl, rfl⟩
  case timeout =>
    intro dtSec x htrial hpower hidle hdue
    have hstep : s.trialTimeout dtSec =
        ({ s with stm := { s.stm with trialPassed := s.stm.trialPassed + dtSec } } : State).beginActivation none 2 x.prevSlot := by
      have hended : (s.stm.act.stage == .idle &&
          (decide (s.fld STM_TRIAL_TRIALSEC ≤ s.stm.trialPassed + dtSec) || decide (3 ≤ x.starts))) = true := by
        rw [hidle, decide_eq_true hdue]
        rfl
      unfold State.trialTimeout
      rw [htrial]
      exact (if_neg hpower).trans (if_pos hended)
    exact congrArg Host.Outcome.next hstep

end Sys2Proof.Machine
end

