-- ==== Sys2Proof/Proofs/SliceTable.lean ====
section
/-! What the operations of chapter 18 leave of the slice table (R526): the entries, the generations and the slices that are changing, through
drains, clears, namespaces, the ends of commands and fault records. -/

namespace Sys2Proof.Machine

/-- The slice table of management flash, the generations, and what the changing slices are to become. -/
structure Tenancy where
  slices : KMap SliceEntry
  gens : KMap Nat
  changing : KMap SliceEntry

def State.tenancy (s : State) : Tenancy := ⟨s.nv.slices, s.nv.gens, s.stm.changing⟩

@[simp] theorem State.tenancy_eta (s : State) : (⟨s.nv.slices, s.nv.gens, s.stm.changing⟩ : Tenancy) = s.tenancy := rfl

/-- With `State.tenancy_eta`, an update of any other field drops out. -/
@[simp] theorem State.tenancy_mk (regs ringMem nv clock pins boot rings cmds stm counts allocs charges poison moves tierAge tierCfg pageUnits
      consists runs frames calls zruns nextId indexes stores queries tables seqs depots owns timetables jobs fab ports policers cclOut mgmtOut
      jtagOut freeCtr pending) :
    (State.mk regs ringMem nv clock pins boot rings cmds stm counts allocs charges poison moves tierAge tierCfg pageUnits consists runs frames
      calls zruns nextId indexes stores queries tables seqs depots owns timetables jobs fab ports policers cclOut mgmtOut jtagOut freeCtr
      pending).tenancy = ⟨nv.slices, nv.gens, stm.changing⟩ := rfl

@[simp] theorem State.ite_tenancy (c : Prop) [Decidable c] (s t : State) :
    (if c then s else t).tenancy = if c then s.tenancy else t.tenancy := apply_ite State.tenancy c s t

theorem foldl_tenancy {α : Type} {f : State → α → State} (h : ∀ s a, (f s a).tenancy = s.tenancy) (l : List α) (s : State) :
    (l.foldl f s).tenancy = s.tenancy :=
  List.foldlRecOn (motive := fun t : State => t.tenancy = s.tenancy) l f rfl fun t ht a _ => (h t a).trans ht

theorem foldl_fst_tenancy {α β : Type} {f : State × β → α → State × β} (h : ∀ p a, (f p a).1.tenancy = p.1.tenancy) (l : List α)
    (p : State × β) : (l.foldl f p).1.tenancy = p.1.tenancy :=
  List.foldlRecOn (motive := fun q : State × β => q.1.tenancy = p.1.tenancy) l f rfl fun q hq a _ => (h q a).trans hq

/-! ### Registers, the log and faults -/

theorem State.tenancy_of_besideFaults {s t : State} (h : t.besideFaults = s.besideFaults) : t.tenancy = s.tenancy :=
  congrArg (fun x => (⟨x.1.nv.slices, x.1.nv.gens, x.1.stm.changing⟩ : Tenancy)) h

@[simp] theorem State.setFld_tenancy (s : State) (f : FieldRef) (v i j : Nat) : (s.setFld f v i j).tenancy = s.tenancy := rfl

@[simp] theorem State.count_tenancy (s : State) (f : FieldRef) (k i j : Nat) : (s.count f k i j).tenancy = s.tenancy := rfl

@[simp] theorem State.setCmd_tenancy (s : State) (c : Cmd) : (s.setCmd c).tenancy = s.tenancy := rfl

@[simp] theorem State.finish_tenancy (s : State) (c : Cmd) (status : Nat) (outputs : Bytes) (n : Nat) :
    (s.finish c status outputs n).tenancy = s.tenancy := rfl

@[simp] theorem State.setDepot_tenancy (s : State) (j : Nat) (d : Depot) : (s.setDepot j d).tenancy = s.tenancy := rfl

@[simp] theorem State.setAlloc_tenancy (s : State) (id : Nat) (a : Alloc) : (s.setAlloc id a).tenancy = s.tenancy := rfl

@[simp] theorem State.discharge_tenancy (s : State) (h : Holder) : (s.discharge h).tenancy = s.tenancy := rfl

@[simp] theorem State.logAppend_tenancy (s : State) (typ : Nat) (body : Bytes) : (s.logAppend typ body).tenancy = s.tenancy :=
  State.tenancy_of_besideFaults (s.logAppend_besideFaults typ body)

@[simp] theorem State.logSlice_tenancy (s : State) (sl event : Nat) : (s.logSlice sl event).tenancy = s.tenancy := s.logAppend_tenancy _ _

theorem State.logDepot_tenancy (s : State) (event j l ns detail : Nat) : (s.logDepot event j l ns detail).tenancy = s.tenancy :=
  s.logAppend_tenancy _ _

@[simp] theorem State.retireUnit_tenancy (s : State) (u : Nat) (cls : FaultClass) (source pattern : Nat) :
    (s.retireUnit u cls source pattern).tenancy = s.tenancy := State.tenancy_of_besideFaults (s.retireUnit_besideFaults u cls source pattern)

/-! ### Drains (R506) -/

@[simp] theorem State.fixPages_tenancy (s : State) (sl : Nat) : (s.fixPages sl).tenancy = s.tenancy := rfl

@[simp] theorem State.pressure_tenancy (s : State) (sl need : Nat) : (s.pressure sl need).tenancy = s.tenancy := by
  obtain ⟨allocs, regs, h⟩ := s.pressure_eq sl need
  rw [h]
  rfl

@[simp] theorem State.rehome_tenancy (s : State) (id page tier : Nat) : (s.rehome id page tier).tenancy = s.tenancy := by
  unfold State.rehome
  split <;> rfl

@[simp] theorem State.drainPage_tenancy (s : State) (id page : Nat) : (s.drainPage id page).1.tenancy = s.tenancy := by
  fun_cases State.drainPage <;> simp +zetaDelta

@[simp] theorem State.drainUnits_tenancy (s : State) (us : List Nat) : (s.drainUnits us).1.tenancy = s.tenancy := by
  unfold State.drainUnits
  refine foldl_fst_tenancy (fun acc u => ?_) _ (s, true)
  refine foldl_fst_tenancy (fun acc e => ?_) _ acc
  exact acc.1.drainPage_tenancy e.1 e.2

/-! ### Clears (R538, R539) -/

/-- A clear zeroes what lies on the unit, and nothing else. -/
theorem State.zeroUnit_effect (s : State) (u : Nat) : ∃ allocs, s.zeroUnit u = { s with allocs := allocs } := by
  unfold State.zeroUnit
  split
  · exact ⟨_, rfl⟩
  · refine List.foldlRecOn (motive := fun t : State => ∃ allocs, t = { s with allocs := allocs }) _ _ ⟨s.allocs, rfl⟩ ?_
    rintro _ ⟨allocs, rfl⟩ e -
    exact ⟨_, rfl⟩

@[simp] theorem State.zeroUnit_tenancy (s : State) (u : Nat) : (s.zeroUnit u).tenancy = s.tenancy := by
  obtain ⟨allocs, h⟩ := s.zeroUnit_effect u
  rw [h]
  rfl

@[simp] theorem State.clearRecord_tenancy (s : State) (tstart unit fromSl toSl result cause bytes addr : Nat) :
    (s.clearRecord tstart unit fromSl toSl result cause bytes addr).tenancy = s.tenancy := by simp [State.clearRecord]

@[simp] theorem State.clearUnit_tenancy (s : State) (u fromSl toSl cause : Nat) (ok : Bool) :
    (s.clearUnit u fromSl toSl cause ok).tenancy = s.tenancy := by
  unfold State.clearUnit
  split <;> simp

@[simp] theorem State.clearUnits_tenancy (s : State) (us : List Nat) (fromSl toSl cause : Nat) (bad : List Nat) :
    (s.clearUnits us fromSl toSl cause bad).tenancy = s.tenancy := foldl_tenancy (fun s u => s.clearUnit_tenancy u _ _ _ _) us s

@[simp] theorem State.clearAlloc_tenancy (s : State) (a : Alloc) (cause : Nat) : (s.clearAlloc a cause).tenancy = s.tenancy :=
  s.clearRecord_tenancy _ _ _ _ _ _ _ _

/-! ### Namespaces (R362, R389, R531) -/

@[simp] theorem State.depotWrite_tenancy (s : State) (j ns unit : Nat) (block : Bytes) : (s.depotWrite j ns unit block).tenancy = s.tenancy := by
  obtain ⟨depots, regs, h⟩ := s.depotWrite_eq j ns unit block
  rw [h]
  rfl

@[simp] theorem State.depotTrim_tenancy (s : State) (j ns unit : Nat) : (s.depotTrim j ns unit).tenancy = s.tenancy := s.depotWrite_tenancy _ _ _ _

theorem State.namespaceResize_tenancy (s : State) (j ns size : Nat) (dies : List (Nat × Nat)) :
    (s.namespaceResize j ns size dies).tenancy = s.tenancy := by
  unfold State.namespaceResize
  dsimp only
  split
  · rfl
  · exact (foldl_tenancy (fun s e => s.depotWrite_tenancy _ _ _ _) _ _).trans (s.setDepot_tenancy _ _)

theorem State.sliceNamespace_tenancy (s : State) (sl j : Nat) (new : Composition) : (s.sliceNamespace sl j new).tenancy = s.tenancy := by
  unfold State.sliceNamespace
  dsimp only
  split
  · exact s.namespaceResize_tenancy _ _ _ _
  · split <;> rfl

@[simp] theorem State.sliceNamespaces_tenancy (s : State) (sl : Nat) (new : Composition) : (s.sliceNamespaces sl new).tenancy = s.tenancy :=
  foldl_tenancy (fun s j => s.sliceNamespace_tenancy sl j new) _ s

@[simp] theorem State.flushNow_tenancy (s : State) (j l : Nat) : (s.flushNow j l).tenancy = s.tenancy := by
  unfold State.flushNow
  dsimp only
  split <;> rfl

theorem State.namespaceMark_tenancy (s : State) (j ns : Nat) : (s.namespaceMark j ns).tenancy = s.tenancy := by
  refine (foldl_tenancy (fun s l => ?_) _ _).trans (s.setDepot_tenancy _ _)
  dsimp only
  split
  · rfl
  · exact State.flushNow_tenancy _ _ _

theorem State.namespaceFinish_tenancy (s : State) (j ns : Nat) : (s.namespaceFinish j ns).tenancy = s.tenancy := by
  unfold State.namespaceFinish
  dsimp only
  rw [State.logDepot_tenancy]
  refine (foldl_tenancy (fun s l => ?_) _ _).trans (s.setDepot_tenancy _ _)
  exact (State.flushNow_tenancy _ _ _).trans (s.setDepot_tenancy _ _)

@[simp] theorem State.namespaceDestroy_tenancy (s : State) (j ns : Nat) : (s.namespaceDestroy j ns).tenancy = s.tenancy := by
  unfold State.namespaceDestroy
  split
  · exact (State.namespaceFinish_tenancy _ _ _).trans (s.namespaceMark_tenancy _ _)
  · rfl

theorem State.destroyNamespaces_tenancy (s : State) (sl : Nat) : (s.destroyNamespaces sl).tenancy = s.tenancy := by
  unfold State.destroyNamespaces
  dsimp only
  refine (foldl_tenancy (fun s j => ?_) _ _).trans rfl
  split
  · exact s.namespaceDestroy_tenancy _ _
  · rfl

/-! ### What a slice holds goes (R493) -/

@[simp] theorem State.freeAlloc_tenancy (s : State) (id : Nat) : (s.freeAlloc id).tenancy = s.tenancy := by
  unfold State.freeAlloc
  split
  · rfl
  · simp only [State.tenancy_mk, State.tenancy_eta]
    refine foldl_tenancy (fun s x => foldl_tenancy (fun s k => ?_) _ _) _ _
    split
    · exact s.depotTrim_tenancy _ _ _
    · rfl

@[simp] theorem State.endRun_tenancy (s : State) (id status : Nat) : (s.endRun id status).tenancy = s.tenancy := by
  have hrelease : (s.releaseFrames id).tenancy = s.tenancy := rfl
  fun_cases State.endRun <;> simp +zetaDelta [hrelease]

theorem State.endSlice_tenancy (s : State) (sl : Nat) : (s.endSlice sl).tenancy = s.tenancy := by
  unfold State.endSlice
  simp only [State.tenancy_mk, State.tenancy_eta]
  exact (foldl_tenancy (fun s c => by simp) _ _).trans (foldl_tenancy (fun s e => s.endRun_tenancy _ _) _ _)

theorem State.closeSlice_tenancy (s : State) (sl : Nat) : (s.closeSlice sl).tenancy = s.tenancy := by
  unfold State.closeSlice
  simp only [State.tenancy_mk, State.tenancy_eta]
  iterate 3 refine (foldl_tenancy (fun s e => ?_) _ _).trans ?_; rfl
  refine foldl_tenancy (fun s e => ?_) _ s
  rfl

theorem State.clearSlice_tenancy (s : State) (sl : Nat) : (s.clearSlice sl).tenancy = s.tenancy := by
  unfold State.clearSlice
  dsimp only
  refine (foldl_tenancy (fun s e => ?_) _ _).trans ?_
  · split
    · rfl
    · split <;> simp
  · exact foldl_tenancy (fun s c => s.clearRecord_tenancy _ _ _ _ _ _ _ _) _ _

theorem State.emptySlice_tenancy (s : State) (sl : Nat) : (s.emptySlice sl).tenancy = s.tenancy :=
  (State.clearSlice_tenancy _ _).trans ((State.closeSlice_tenancy _ _).trans (State.endSlice_tenancy _ _))

/-! ### Commands get their records (R455) -/

theorem State.advanceCompleted_tenancy (s : State) (r fuel : Nat) : (s.advanceCompleted r fuel).tenancy = s.tenancy := by
  induction fuel generalizing s with
  | zero => rfl
  | succ fuel ih =>
    unfold State.advanceCompleted
    dsimp only
    split
    · split
      · exact (ih _).trans rfl
      · rfl
    · rfl

theorem State.writeRecord_tenancy (s : State) (c : Cmd) : (s.writeRecord c).tenancy = s.tenancy := by simp [State.writeRecord]

theorem State.takeKey_tenancy (s : State) (c : Cmd) : (s.takeKey c).tenancy = s.tenancy := by
  unfold State.takeKey
  split <;> rfl

theorem State.complete_tenancy (s : State) (c : Cmd) : (s.complete c).tenancy = s.tenancy := by
  have hlogged : (if c.accepted then s.logCommand c else s).tenancy = s.tenancy := by
    split
    · exact s.logAppend_tenancy _ _
    · rfl
  unfold State.complete
  dsimp only
  split
  · exact (State.takeKey_tenancy _ _).trans hlogged
  · exact (State.advanceCompleted_tenancy _ _ _).trans ((State.takeKey_tenancy _ _).trans ((State.writeRecord_tenancy _ _).trans hlogged))

@[simp] theorem State.passEnded_tenancy (s : State) (sl : Nat) : (s.passEnded sl).tenancy = s.tenancy := by
  refine foldl_tenancy (fun s c => ?_) _ s
  split
  · exact s.complete_tenancy _
  · rfl

/-! ### The telemetry allocation (R554) -/

theorem State.addAlloc_tenancy (s : State) (a : Alloc) : (s.addAlloc a).1.tenancy = s.tenancy := rfl

/-- The definition is opened as a function: the place of the pages must not be computed. -/
@[simp] theorem State.addTelemetry_tenancy (s : State) (sl : Nat) : (s.addTelemetry sl).tenancy = s.tenancy := by
  have hopened : State.addTelemetry = State.addTelemetry := rfl
  conv at hopened => rhs; delta State.addTelemetry
  rw [congrFun (congrFun hopened s) sl]
  generalize AllocFlags.mk _ _ _ _ _ _ _ _ _ _ _ = flags
  extract_lets
  generalize Option.getD _ _ = placed
  obtain ⟨tier, pages⟩ := placed
  exact State.addAlloc_tenancy _ _

end Sys2Proof.Machine
end

