-- ==== Sys2Proof/Proofs/SliceLifecycle.lean ====
section
/-! Slices are created, amended and destroyed (R526 to R533), and units are cleared (R538, R539). -/

namespace Sys2Proof.Machine

/-! ### The slice table -/

theorem mapErase_mapSet_same {α : Type} (m : KMap α) (k : Nat) (v : α) : mapErase (mapSet m k v) k = mapErase m k := by
  induction m with
  | nil => simp [mapSet, mapErase]
  | cons e m ih =>
    obtain ⟨j, w⟩ := e
    rcases Nat.lt_trichotomy k j with hlt | rfl | hgt
    · simp [mapSet, mapErase, hlt, Nat.ne_of_lt hlt]
    · simp [mapSet, mapErase]
    · simp [mapSet, mapErase, Nat.ne_of_gt hgt, Nat.not_lt_of_gt hgt, ih]

theorem mapErase_mapUpdate_same {α : Type} (m : KMap α) (k : Nat) (f : α → α) : mapErase (mapUpdate m k f) k = mapErase m k := by
  unfold mapUpdate
  split
  · exact mapErase_mapSet_same m k _
  · rfl

theorem onesFrom_zero (n i : Nat) : onesFrom n i 0 = [] := by
  induction n generalizing i with
  | zero => rfl
  | succ n ih => simp [onesFrom, ih]

/-- The empty composition names no unit. -/
theorem compMinus_none (c : Composition) : compMinus Composition.none c = [] := by
  simp [compMinus, Composition.none, onesFrom_zero]

/-! ### Creating and amending (R531, R532) -/

/-- Step 4 of R531: the entry stands, the slice changes no more, and a new slice has a new generation. -/
theorem State.commitSlice_tenancy (s : State) (sl : Nat) (e : SliceEntry) (amend : Bool) : (s.commitSlice sl e amend).tenancy =
    ⟨mapSet s.nv.slices sl e, mapSet s.nv.gens sl ((mapGetD s.nv.gens sl 0 + 1) % 2 ^ 16), mapErase s.stm.changing sl⟩ := by
  have hgen : ∀ t : State, (t.nextGen sl).tenancy =
      ⟨t.tenancy.slices, mapSet t.tenancy.gens sl ((mapGetD t.tenancy.gens sl 0 + 1) % 2 ^ 16), t.tenancy.changing⟩ := fun _ => rfl
  unfold State.commitSlice
  rw [State.logSlice_tenancy, hgen]
  cases amend with
  | true => rfl
  | false =>
    dsimp only [Bool.false_eq_true, if_false]
    rw [if_neg Bool.false_ne_true, State.addTelemetry_tenancy]
    rfl

/-- The entry may stand in the table already, as it does while the removed units' pages are drained. -/
theorem State.commitSlice_of_tenancy {t : State} {slices : KMap SliceEntry} {gens : KMap Nat} {changing : KMap SliceEntry} {sl : Nat}
    {e : SliceEntry} (h : t.tenancy = ⟨mapSet slices sl e, gens, changing⟩) {amend : Bool} : (t.commitSlice sl e amend).tenancy =
      ⟨mapSet slices sl e, mapSet gens sl ((mapGetD gens sl 0 + 1) % 2 ^ 16), mapErase changing sl⟩ := by
  have hslices : t.nv.slices = mapSet slices sl e := congrArg Tenancy.slices h
  have hgens : t.nv.gens = gens := congrArg Tenancy.gens h
  have hchanging : t.stm.changing = changing := congrArg Tenancy.changing h
  rw [State.commitSlice_tenancy, hslices, hgens, hchanging, mapSet_mapSet_same]

theorem State.drainRemoved_tenancy (s : State) (sl : Nat) (e : SliceEntry) (removed : List Nat) : (s.drainRemoved sl e removed).1.tenancy =
    ⟨mapSet s.tenancy.slices sl e, s.tenancy.gens, s.tenancy.changing⟩ := State.drainUnits_tenancy _ _

section
variable {s : State} {c : Cmd} {sl : Nat} {amend : Bool} {e : SliceEntry} {bad : List Nat} {old : Composition} (hsl : c.par 32 1 = sl)
  (hold : s.oldComp sl amend = old) (hdrained : (s.drainUnits (compMinus e.comp old)).2 = true)
  (hroom : ((s.drainUnits (compMinus e.comp old)).1.drainRemoved sl e (compMinus old e.comp)).2 = true)
  (hcleared : (compMinus e.comp old).any bad.contains = false)
include hsl hold hdrained hroom hcleared

/-- Once the pages have left and the clears succeed, the command ends OK over a state whose slice table holds the entry. -/
theorem State.tenantAdvance_effect : ∃ t : State, s.tenantAdvance c amend e bad = t.finish c stOK ∧ t.tenancy =
    ⟨mapSet s.nv.slices sl e, mapSet s.nv.gens sl ((mapGetD s.nv.gens sl 0 + 1) % 2 ^ 16), mapErase s.stm.changing sl⟩ := by
  subst hsl
  unfold State.tenantAdvance
  dsimp only
  rw [hold, hdrained, hroom, hcleared]
  simp only [Bool.not_true, Bool.false_eq_true, if_false]
  refine ⟨_, rfl, ?_⟩
  rw [State.clearUnits_tenancy]
  refine State.commitSlice_of_tenancy ?_
  rw [State.sliceNamespaces_tenancy, State.drainRemoved_tenancy, State.clearUnits_tenancy, State.drainUnits_tenancy]
  rfl

end

/-- The command is accepted: the slice changes to the entry that it asks for. -/
def State.tenantAccepted (s : State) (c : Cmd) (amend : Bool) (e : SliceEntry) : State :=
  { (if amend then (s.fixPages 0).fixPages (c.par 32 1) else s.fixPages 0).setCmd { c with step := 1, since := s.clock.mono } with
    stm := { s.stm with changing := mapSet s.stm.changing (c.par 32 1) e } }

section
variable {s : State} {r seq : Nat} {c : Cmd} {amend : Bool} (hc : s.running r seq 0x0102 = some c) (hamend : bitOf (c.par 33 1) 2 = amend)
  (hfirst : c.step = 0) (hchecks : s.tenantStatus c amend (s.payload c) = none)
include hc hamend hfirst hchecks

/-- A command that passes its checks goes on at once where no run and no walk holds a unit that changes hands. -/
theorem State.tenant_accepted {u : State} (hu : u = s.tenantAccepted c amend (s.tenantEntry c amend (s.payload c)))
    (hfree : u.unitsBusy (s.tenantEntry c amend (s.payload c)).comp (u.oldComp (c.par 32 1) amend) = false) (bad : List Nat) :
    s.tenant r seq amend bad =
      u.tenantAdvance { c with step := 1, since := s.clock.mono } amend (s.tenantEntry c amend (s.payload c)) bad := by
  subst hu
  have hserved : (s.running r seq 0x0102).filter (fun c => bitOf (c.par 33 1) 2 == amend) = some c := by
    rw [hc, Option.filter_some, hamend, beq_self_eq_true, if_pos rfl]
  unfold State.tenant
  rw [hserved]
  dsimp only
  split
  · next hstep => exact absurd (hfirst.symm.trans hstep) (by decide)
  · rw [hchecks]
    dsimp only
    cases amend <;> exact if_neg (Bool.eq_false_iff.mp hfree)

end

/-! ### Destroying (R533) -/

theorem State.slices_finish (s : State) (c : Cmd) (status : Nat) : (s.finish c status).nv.slices = s.nv.slices := rfl

theorem State.slices_setCmd (s : State) (c : Cmd) : (s.setCmd c).nv.slices = s.nv.slices := rfl

theorem State.slices_markDestroying (s : State) (sl : Nat) :
    (s.markDestroying sl).nv.slices = mapUpdate s.nv.slices sl fun e => { e with st := .destroying } := rfl

theorem State.ended_finish_key {s : State} {c d : Cmd} {status : Nat} (hring : d.ring = c.ring) (hseq : d.seq = c.seq) :
    Ended c status (s.finish d status) := by
  unfold Ended
  rw [← hring, ← hseq]
  exact State.ended_finish

/-- Steps 2 to 6 of R533 leave no entry of the slice. -/
theorem State.destroySlice_slices (s : State) (sl : Nat) (bad : List Nat) : (s.destroySlice sl bad).nv.slices = mapErase s.nv.slices sl := by
  have hslices : ∀ t : State, t.nv.slices = t.tenancy.slices := fun _ => rfl
  unfold State.destroySlice
  dsimp only
  rw [hslices, State.passEnded_tenancy, State.logSlice_tenancy]
  refine congrArg (mapErase · sl) (congrArg Tenancy.slices (?_ : State.tenancy _ = s.tenancy))
  rw [State.clearUnits_tenancy, State.destroyNamespaces_tenancy, State.emptySlice_tenancy]

/-- The command's own entry is none that another command goes on for. -/
theorem State.criticalGoes_marked {s : State} {r seq sl : Nat} {c : Cmd} (hring : c.ring = r) (hseq : c.seq = seq)
    (hgoes : s.criticalGoes sl (cmdKey r seq) = false) : ((s.markDestroying sl).setCmd c).criticalGoes sl (cmdKey r seq) = false := by
  rw [State.criticalGoes, List.any_eq_false] at hgoes ⊢
  intro x hx
  rcases mem_mapSet hx with rfl | hold
  · simp [hring, hseq]
  · exact hgoes x hold

theorem State.tenantDestroy_due {s : State} {r seq sl : Nat} {c : Cmd} (hc : s.running r seq 0x0103 = some c) (hring : c.ring = r)
    (hseq : c.seq = seq) (hfirst : c.step = 0) (hsl : sl = c.par 32 1) (hpos : sl ≠ 0) (hmax : sl ≤ 63) (hzero : c.unusedZero [(32, 1)] = true)
    (hempty : c.paylen = 0) (hin : s.sliceInService sl = true) (hstill : mapGet s.stm.changing sl = none)
    (hgoes : s.criticalGoes sl (cmdKey r seq) = false) (bad : List Nat) : s.tenantDestroy r seq bad =
      (((s.markDestroying sl).setCmd { c with step := 1 }).destroySlice sl bad).finish { c with step := 1 } stOK := by
  subst hsl
  have hother : ((s.markDestroying (c.par 32 1)).setCmd { c with step := 1 }).criticalGoes (c.par 32 1) (cmdKey r seq) = false :=
    State.criticalGoes_marked hring hseq hgoes
  have hchecks : firstStatus [(decide (c.par 32 1 = 0) || decide (63 < c.par 32 1) || !c.unusedZero [(32, 1)] || decide (c.paylen ≠ 0), stLIMIT),
      (!s.sliceInService (c.par 32 1) || (mapGet s.stm.changing (c.par 32 1)).isSome, stNOSLICE)] = none := by
    simp [firstStatus, hpos, Nat.not_lt.mpr hmax, hzero, hempty, hin, hstill]
  unfold State.tenantDestroy
  rw [hc]
  dsimp only
  rw [if_neg (by rw [hfirst]; decide), hchecks]
  dsimp only
  rw [hother, if_neg Bool.false_ne_true]

/-! ### Clearing a unit (R538, R539) -/

/-- The unit is marked CLEARING, if it is not yet. -/
def State.clearBegun (s : State) (u fromSl toSl cause dt : Nat) : State :=
  if s.unitClearing u then s.tick dt
  else { s.tick dt with
    stm := { s.stm with clearing := mapSet s.stm.clearing u s.now }
    nv := { s.nv with clearing := s.nv.clearing ++ [(u, fromSl, toSl, cause)] } }

theorem State.clearBegun_effect (s : State) (u fromSl toSl cause dt : Nat) : ∃ clearing listed,
    s.clearBegun u fromSl toSl cause dt = { s.tick dt with stm := { s.stm with clearing := clearing }, nv := { s.nv with clearing := listed } } ∧
      (mapGet clearing u).isSome = true ∧ mapErase clearing u = mapErase s.stm.clearing u := by
  unfold State.clearBegun
  split
  · next h => exact ⟨s.stm.clearing, s.nv.clearing, rfl, h, rfl⟩
  · exact ⟨_, _, rfl, congrArg Option.isSome (mapGet_mapSet_same _ _ _), mapErase_mapSet_same _ _ _⟩

theorem State.unitClear_clearable {s : State} (hready : s.phase = phReady) {u : Nat} (hu : s.clearable u = true) (fromSl toSl cause : Nat)
    (outcome : ClearEnd) (dt : Nat) : s.unitClear u fromSl toSl cause outcome dt = match outcome with
      | .cleared => (s.clearBegun u fromSl toSl cause dt).clearUnit u fromSl toSl cause true
      | .failed => (s.clearBegun u fromSl toSl cause dt).clearUnit u fromSl toSl cause false
      | .underWay => s.clearBegun u fromSl toSl cause dt := by
  have hphase : (s.tick dt).phase = phReady := hready
  have hclearable : (s.tick dt).clearable u = true := hu
  have hserved : ¬ ((s.tick dt).phase ≠ phReady ∨ (s.tick dt).clearable u = false) := by simp [hphase, hclearable]
  unfold State.unitClear
  dsimp only
  rw [if_neg hserved]
  cases outcome <;> rfl

/-- The clear of a unit is over, and what lay on it is zeroed. -/
def State.clearEnded (s : State) (u : Nat) : State :=
  State.zeroUnit { s with stm := { s.stm with clearing := mapErase s.stm.clearing u },
                          nv := { s.nv with clearing := s.nv.clearing.filter fun c => c.1 != u } } u

theorem State.clearEnded_effect (s : State) (u : Nat) : ∃ allocs, s.clearEnded u =
    { s with stm := { s.stm with clearing := mapErase s.stm.clearing u },
             nv := { s.nv with clearing := s.nv.clearing.filter fun c => c.1 != u }, allocs := allocs } := State.zeroUnit_effect _ _

/-- A clear that succeeds is counted and logged. -/
theorem State.clearUnit_cleared (s : State) (u fromSl toSl cause : Nat) :
    ∃ body, s.clearUnit u fromSl toSl cause true = ((s.clearEnded u).count SEC_CLEAR_DONE).logAppend ltClear body := by
  unfold State.clearUnit State.clearRecord
  simp only [if_true]
  exact ⟨_, rfl⟩

/-- One that fails is counted and logged, and its unit is retired. -/
theorem State.clearUnit_failed (s : State) (u fromSl toSl cause : Nat) : ∃ body, s.clearUnit u fromSl toSl cause false =
    (((s.clearEnded u).count SEC_CLEAR_FAILED).logAppend ltClear body).retireUnit u .permanent 1 := by
  unfold State.clearUnit State.clearRecord
  simp only [Bool.false_eq_true, if_false, if_true, Nat.one_ne_zero]
  exact ⟨_, rfl⟩

theorem State.clearing_of_besideFaults {s t : State} (h : t.besideFaults = s.besideFaults) : t.stm.clearing = s.stm.clearing :=
  congrArg (fun x => x.1.stm.clearing) h

/-- The state once the clear of a unit has begun and ended: the marks of other units are left and none of its own. -/
def State.clearOver (s : State) (u dt : Nat) (listed : List (Nat × Nat × Nat × Nat)) (allocs : KMap Alloc) : State :=
  { s.tick dt with
    stm := { s.stm with clearing := mapErase s.stm.clearing u }
    nv := { s.nv with clearing := listed }
    allocs := allocs }

theorem State.clearEnded_begun (s : State) (u fromSl toSl cause dt : Nat) :
    ∃ listed allocs, (s.clearBegun u fromSl toSl cause dt).clearEnded u = s.clearOver u dt listed allocs := by
  obtain ⟨clearing, listed, hbegun, -, herase⟩ := s.clearBegun_effect u fromSl toSl cause dt
  obtain ⟨allocs, hended⟩ := (s.clearBegun u fromSl toSl cause dt).clearEnded_effect u
  rw [hbegun] at hended
  dsimp only at hended
  rw [herase] at hended
  rw [hbegun]
  exact ⟨_, allocs, hended⟩

/-- Settles O22: the pages leave, the units are cleared, the slice table gets or loses its entry, and the command ends last. -/
theorem slicesAreCreatedAmendedAndDestroyed : Obligations.SlicesAreCreatedAmendedAndDestroyed := by
  intro s
  refine ⟨?create, ?amend, ?destroy, ?resume, ?underWay, ?cleared, ?failed⟩
  case create =>
    rintro r seq c bad _ _ _ u hc hkind hfirst rfl rfl hchecks rfl hu hfree hdrained hcleared
    have hstep := State.tenant_accepted hc hkind hfirst hchecks hu hfree bad
    obtain ⟨t, hadvance, htenancy⟩ := State.tenantAdvance_effect (s := u) (c := { c with step := 1, since := s.clock.mono })
      (sl := c.par 32 1) (amend := false) (e := s.tenantEntry c false (s.payload c)) (bad := bad) (old := Composition.none)
      rfl rfl hdrained (by rw [compMinus_none]; rfl) hcleared
    have hslices : t.nv.slices = _ := congrArg Tenancy.slices htenancy
    have hgens : t.nv.gens = _ := congrArg Tenancy.gens htenancy
    have hchanging : t.stm.changing = _ := congrArg Tenancy.changing htenancy
    rw [hadvance] at hstep
    subst hu
    refine completes_of_next (congrArg Host.Outcome.next hstep) ⟨hslices, hchanging, State.ended_finish_key rfl rfl, ?_⟩
    refine (congrArg (fun m => mapGetD m (c.par 32 1) 0) hgens).trans ?_
    simp only [mapGetD, mapGet_mapSet_same, Option.getD_some]
    rfl
  case amend =>
    rintro r seq c bad _ _ o _ u hc hkind hfirst rfl rfl ho hchecks rfl hu hfree hdrained hroom hcleared
    have hold : u.oldComp (c.par 32 1) true = o.comp := by
      have hsame : mapGet u.nv.slices (c.par 32 1) = some o := by rw [hu]; exact ho
      simp only [State.oldComp, if_true, hsame, Option.elim_some]
    have hstep := State.tenant_accepted hc hkind hfirst hchecks hu (by rw [hold]; exact hfree) bad
    obtain ⟨t, hadvance, htenancy⟩ := State.tenantAdvance_effect (s := u) (c := { c with step := 1, since := s.clock.mono })
      (sl := c.par 32 1) (amend := true) (e := s.tenantEntry c true (s.payload c)) (bad := bad) rfl hold hdrained hroom hcleared
    have hslices : t.nv.slices = _ := congrArg Tenancy.slices htenancy
    have hchanging : t.stm.changing = _ := congrArg Tenancy.changing htenancy
    rw [hadvance] at hstep
    subst hu
    exact completes_of_next (congrArg Host.Outcome.next hstep) ⟨hslices, hchanging, State.ended_finish_key rfl rfl⟩
  case destroy =>
    intro r seq c bad sl hc hring hseq hfirst hsl hpos hmax hzero hempty hin hstill hgoes
    have hstep := State.tenantDestroy_due hc hring hseq hfirst hsl hpos hmax hzero hempty hin hstill hgoes bad
    refine completes_of_next (congrArg Host.Outcome.next hstep) ⟨?_, State.ended_finish_key rfl rfl⟩
    rw [State.slices_finish, State.destroySlice_slices, State.slices_setCmd, State.slices_markDestroying, mapErase_mapUpdate_same]
  case resume =>
    intro sl bad e hready he hst hnone
    have hdue : s.phase = phReady ∧ (mapGet s.nv.slices sl).elim false (fun e => e.st == .destroying) = true ∧
        (s.cmds.any fun e => e.2.opcode == 0x0103 && e.2.stage == .running && e.2.par 32 1 == sl) = false :=
      ⟨hready, by rw [he, Option.elim_some, hst]; rfl, hnone⟩
    have hstep : s.destroyResume sl bad = s.destroySlice sl bad := if_pos hdue
    exact completes_of_next (congrArg Host.Outcome.next hstep) (s.destroySlice_slices sl bad)
  case underWay =>
    intro u fromSl toSl cause dt hready hu _
    have hstep : s.unitClear u fromSl toSl cause .underWay dt = _ := State.unitClear_clearable hready hu fromSl toSl cause .underWay dt
    obtain ⟨clearing, listed, hbegun, hmarked, -⟩ := s.clearBegun_effect u fromSl toSl cause dt
    exact completes_of_next (congrArg Host.Outcome.next (hstep.trans hbegun)) ⟨hmarked, rfl, .of_control rfl⟩
  case cleared =>
    intro u fromSl toSl cause dt hready hu
    have hstep : s.unitClear u fromSl toSl cause .cleared dt = _ := State.unitClear_clearable hready hu fromSl toSl cause .cleared dt
    obtain ⟨body, hclear⟩ := (s.clearBegun u fromSl toSl cause dt).clearUnit_cleared u fromSl toSl cause
    obtain ⟨listed, allocs, hended⟩ := s.clearEnded_begun u fromSl toSl cause dt
    rw [hended] at hclear
    have hlog := State.sameButLog_logAppend ((s.clearOver u dt listed allocs).count SEC_CLEAR_DONE) ltClear body
    have hclearing := State.clearing_of_besideFaults
      (State.logAppend_besideFaults ((s.clearOver u dt listed allocs).count SEC_CLEAR_DONE) ltClear body)
    have hcount := State.fld_count (s.clearOver u dt listed allocs) SEC_CLEAR_DONE 1 0 0 (by decide)
    obtain ⟨-, ⟨hconsists, hruns, -⟩, -, -, ⟨hrings, -⟩, hdepots, -⟩ := hlog.sameBulk
    exact completes_of_next (congrArg Host.Outcome.next (hstep.trans hclear))
      ⟨hclearing, (hlog.fld _ 0 0).trans hcount, hlog.retired, hconsists, hruns, hdepots, hrings⟩
  case failed =>
    intro u fromSl toSl cause dt hready hu
    have hstep : s.unitClear u fromSl toSl cause .failed dt = _ := State.unitClear_clearable hready hu fromSl toSl cause .failed dt
    obtain ⟨body, hclear⟩ := (s.clearBegun u fromSl toSl cause dt).clearUnit_failed u fromSl toSl cause
    obtain ⟨listed, allocs, hended⟩ := s.clearEnded_begun u fromSl toSl cause dt
    rw [hended] at hclear
    have hclearing := State.clearing_of_besideFaults ((State.retireUnit_besideFaults _ u .permanent 1 0).trans
      (State.logAppend_besideFaults ((s.clearOver u dt listed allocs).count SEC_CLEAR_FAILED) ltClear body))
    exact completes_of_next (congrArg Host.Outcome.next (hstep.trans hclear)) ⟨hclearing, State.retireUnit_retired _ u .permanent 1 0⟩

end Sys2Proof.Machine
end
